-- ==== Sys2Proof/Word.lean ====
section
/-! DEFINITION. The word types of Ewesis 1 (R7, R165): every multi-byte value is little-endian. -/

namespace Sys2Proof

/-- One byte of memory. -/
abbrev Byte := BitVec 8
/-- A 32-bit register value. -/
abbrev W32 := BitVec 32
/-- A 64-bit value: an instruction word, a register pair, a latch entry. -/
abbrev W64 := BitVec 64
/-- One bit per lane of a wave, lane k in bit k (R20, R168). -/
abbrev Mask := BitVec 32
/-- The bits of %fflags [6:0], in the order of Table 37. -/
abbrev Fl := BitVec 7

end Sys2Proof
end

