-- ==== Sys2Proof/Machine/Map.lean ====
section
/-! DEFINITION. Finite maps as strictly rising association lists, in one canonical form: registers, memories and
tables of the machine. `set` removes an entry that would equal the value an unlisted key reads as. -/

namespace Sys2Proof.Machine

/-- A map from Nat, as a strictly rising list of keys with their values. -/
abbrev SMap (α : Type) := List (Nat × α)

/-- The entry at a key. -/
def SMap.find? {α : Type} : SMap α → Nat → Option α
  | [], _ => none
  | (k, x) :: m, q => if q = k then some x else SMap.find? m q

/-- The value at a key; an unlisted key reads as `d`. -/
def SMap.get {α : Type} (m : SMap α) (d : α) (q : Nat) : α :=
  match SMap.find? m q with
  | some x => x
  | none => d

/-- Insert or overwrite, keeping the keys rising. -/
def SMap.insert {α : Type} : SMap α → Nat → α → SMap α
  | [], q, y => [(q, y)]
  | (k, x) :: m, q, y =>
    if q < k then (q, y) :: (k, x) :: m
    else if q = k then (k, y) :: m
    else (k, x) :: SMap.insert m q y

/-- Remove a key. -/
def SMap.erase {α : Type} : SMap α → Nat → SMap α
  | [], _ => []
  | (k, x) :: m, q => if q = k then SMap.erase m q else (k, x) :: SMap.erase m q

/-- Write a value; a value equal to the default leaves no entry. -/
def SMap.set {α : Type} [DecidableEq α] (m : SMap α) (d : α) (q : Nat) (y : α) : SMap α :=
  if y = d then SMap.erase m q else SMap.insert m q y

/-- The keys rise strictly, all above `lo` when one is given. -/
def SMap.rising {α : Type} : Option Nat → SMap α → Bool
  | _, [] => true
  | none, (k, _) :: m => SMap.rising (some k) m
  | some lo, (k, _) :: m => decide (lo < k) && SMap.rising (some k) m

/-- The canonical form: strictly rising keys and no entry equal to the default. -/
def SMap.wf {α : Type} [DecidableEq α] (d : α) (m : SMap α) : Bool :=
  SMap.rising none m && m.all fun e => decide (e.2 ≠ d)

/-- The keys of a map. -/
def SMap.keys {α : Type} (m : SMap α) : List Nat := m.map Prod.fst

/-- Whether a key is listed. -/
def SMap.has {α : Type} (m : SMap α) (q : Nat) : Bool := (SMap.find? m q).isSome

/-- Overwrite with every entry of another map. -/
def SMap.over {α : Type} (m n : SMap α) : SMap α := n.foldl (fun acc e => SMap.insert acc e.1 e.2) m

/-- Byte memory: the canonical form with unlisted bytes 0 (log entry 1). -/
abbrev Memory := List Host.Cell

/-- One byte of a memory. -/
def Memory.byte (m : Memory) (a : Nat) : Byte := SMap.get m 0 a
/-- Write one byte. -/
def Memory.setByte (m : Memory) (a : Nat) (b : Byte) : Memory := SMap.set m 0 a b
/-- The canonical form of a memory. -/
def Memory.wf (m : Memory) : Bool := SMap.wf (0 : Byte) m

/-- Bytes at consecutive addresses, ascending. -/
def Memory.bytes (m : Memory) (a : Nat) : Nat → List Byte
  | 0 => []
  | n + 1 => Memory.byte m a :: Memory.bytes m (a + 1) n

/-- Write bytes at consecutive addresses, in ascending order. -/
def Memory.setBytes (m : Memory) (a : Nat) : List Byte → Memory
  | [] => m
  | b :: bs => Memory.setBytes (Memory.setByte m a b) (a + 1) bs

/-- The little-endian number of a list of bytes (R7). -/
def leNat : List Byte → Nat
  | [] => 0
  | b :: bs => b.toNat + 256 * leNat bs

/-- The `n` little-endian bytes of a number (R7). -/
def leBytes : Nat → Nat → List Byte
  | 0, _ => []
  | n + 1, x => BitVec.ofNat 8 x :: leBytes n (x / 256)

/-- A little-endian number of `n` bytes in a memory. -/
def Memory.num (m : Memory) (a n : Nat) : Nat := leNat (Memory.bytes m a n)
/-- Write a number as `n` little-endian bytes. -/
def Memory.setNum (m : Memory) (a n x : Nat) : Memory := Memory.setBytes m a (leBytes n x)

/-- Put an element at the end unless it stands in the list. -/
def addOnce {α : Type} [DecidableEq α] (l : List α) (x : α) : List α := if x ∈ l then l else l ++ [x]

/-- The lowest place for n units below a limit that meets no used range (place, length) and passes a condition: 0 or the end
of a used range. -/
def firstFit (limit n : Nat) (used : List (Nat × Nat)) (ok : Nat → Bool) : Option Nat :=
  (0 :: used.map fun u => u.1 + u.2).foldl (fun m o =>
    let fits := decide (o + n ≤ limit) && (used.all fun u => decide (o + n ≤ u.1) || decide (u.1 + u.2 ≤ o)) && ok o
    match m with
    | some x => if fits && decide (o < x) then some o else some x
    | none => if fits then some o else none) none

end Sys2Proof.Machine
end

