-- ==== Sys2Proof/Syntax.lean ====
section
/-! DEFINITION. The abstract syntax of Ewesis 1: operand specifiers (Tables 44, 45, 47), guards (R168),
modifier subfields (Tables 46, 57, 64 to 76) and one constructor of `Instr` for every row of
spec/opcode_table.json: 168 words and forms of words, then 83 events of the part. -/

namespace Sys2Proof

/-- The special registers of Table 45, in the order of their specifiers 0x1A0 to 0x1BD. -/
inductive SReg where
  | lane | wave | nwave | block | nblock | child | nchild | view | core | die | pkg
  | job | phase | graph | launch | prio | fmode | fflags | tagready | cprog | mrow
  | ientry | wbase | rngctr | clock | trapcause | trapinfo | trapaddr | tstack | mode
  deriving DecidableEq, Repr

/-- An operand named by a 9-bit specifier (Table 44). -/
inductive Opnd where
  | v (n : BitVec 8)
  | s (n : BitVec 6)
  | p (n : BitVec 3)
  | i (n : BitVec 2)
  | c (n : BitVec 2)
  | d (n : BitVec 4)
  | acc (n : BitVec 4)
  | sh (n : BitVec 2)
  | win (k : BitVec 5)
  | sr (r : SReg)
  | ci (n : BitVec 4)
  | cf (n : BitVec 4)
  | lat (n : Fin 3)
  | zero
  deriving DecidableEq, Repr

/-- A guard (R168): always, p(n+1), or not p(n+1). -/
inductive Guard where
  | always
  | pos (n : Fin 7)
  | neg (n : Fin 7)
  deriving DecidableEq, Repr

/-- The fields every F word has (Table 42), with the C specifier of form C. A field the word does not use
holds the value 0, which is the pattern of v0 (R173). -/
structure F where
  g : Guard
  d : Opnd
  a : Opnd
  b : Opnd
  c : Opnd
  h : BitVec 2
  deriving DecidableEq, Repr

/-- The fields of an X word (Table 49). -/
structure X where
  g : Guard
  d : Opnd
  imm : BitVec 32
  deriving DecidableEq, Repr

/-- TY of Table 46. -/
inductive Ty where
  | i32 | n32 | i64 | n64
  deriving DecidableEq, Repr

/-- The formats of Table 29, in the order of their numbers. -/
inductive Fmt where
  | f64 | f32 | f16 | e8m7 | e8m10 | e5m2 | e4m3 | e3m4 | e3m2 | e2m3 | e2m1
  | i32 | n32 | i16 | n16 | i8 | n8 | i4 | n4 | i2 | n2 | b1 | n1
  | t4iE43 | t4iE52 | t4iI8 | t4fE43 | t4fE52 | t4nN8 | c64 | c128 | dd
  deriving DecidableEq, Repr

/-- RND of Table 46; `dyn` is code 111, the RM of %fmode. -/
inductive Rnd where
  | rn | rz | ru | rd | ra | dyn
  deriving DecidableEq, Repr

/-- SZ of Table 57. -/
inductive Sz where
  | n8 | i8 | n16 | i16 | w32 | w64 | w128
  deriving DecidableEq, Repr

/-- SP of Table 57: global, scratchpad, die shared memory. -/
inductive Sp where
  | g | sc | dm
  deriving DecidableEq, Repr

/-- SCOPE of Table 46. -/
inductive Scope where
  | blk | die | pkg | sys
  deriving DecidableEq, Repr

/-- Conditions of `icmp` (R198). -/
inductive ICond where
  | eq | ne | lt | le | gt | ge
  deriving DecidableEq, Repr

/-- Conditions of `fcmp` (Table 55). -/
inductive FCond where
  | eq | ne | lt | le | gt | ge | un | or | ltq | leq | gtq | geq | tlt | tle | teq
  deriving DecidableEq, Repr

/-- MODE of `vote` (R201). -/
inductive VMode where
  | all | any | eq
  deriving DecidableEq, Repr

/-- MODE of `shfl` (R203). -/
inductive ShMode where
  | idx | up | down | xor
  deriving DecidableEq, Repr

/-- AOP of Table 65. -/
inductive AOp where
  | add | min | max | and | or | xor | swap | cas | load | store
  deriving DecidableEq, Repr

/-- DT of Table 64. -/
inductive DT where
  | i32 | n32 | i64 | n64 | f32 | f64 | f16
  deriving DecidableEq, Repr

/-- ACF of Table 71. -/
inductive AccF where
  | f64 | f32 | f16 | e8m7 | i32 | c64 | c128 | dd
  deriving DecidableEq, Repr

/-- SHAPE of Table 70. -/
inductive Shape where
  | sq | wide | tall | deep
  deriving DecidableEq, Repr

/-- RSZ of Table 73: rows of 16, 32 or 64 bytes. -/
inductive Rsz where
  | r16 | r32 | r64
  deriving DecidableEq, Repr

/-- FN of `dmap` (R283). -/
inductive DFn where
  | neg | rcp | sqrt | exp2 | log2 | exp | log
  deriving DecidableEq, Repr

/-- SEL of `dmom`; `all` is the form with MOD[2] set. -/
inductive MSel where
  | mean | var | skew | kurt | all
  deriving DecidableEq, Repr

/-- LVL of `dqnt` (Table 76). -/
inductive QLvl where
  | p | p10 | p50 | p90
  deriving DecidableEq, Repr

/-- SEL of `vstat` (R239). -/
inductive VSel where
  | used | quota | free | size
  deriving DecidableEq, Repr

/-- LVL of `pf` (R223). -/
inductive PfLvl where
  | l1 | l2 | mc
  deriving DecidableEq, Repr

/-- MOD of `cachectl` (R249). -/
inductive CacheOp where
  | evict | wb | inv
  deriving DecidableEq, Repr

/-- The slot opcodes of Table 48. -/
inductive SlotOp where
  | add | sub | mul | and | or | xor | shl | shr | sar | mov | movi6 | min | max
  | fadd | fsub | fmul | fmin | fmax | icmp | fcmp | bcast | rfal | popc | lea
  deriving DecidableEq, Repr

/-- The guard of a slot: always, p(n+1), or not p(n+1), n below 3 (R168). -/
inductive SGuard where
  | always
  | pos (n : Fin 3)
  | neg (n : Fin 3)
  deriving DecidableEq, Repr

/-- An operand named by an 8-bit slot specifier (Table 47). -/
inductive SOpnd where
  | v (n : BitVec 7)
  | s (n : BitVec 6)
  | p (n : BitVec 3)
  | lat (n : Fin 3)
  | zero
  | ci (n : BitVec 4)
  deriving DecidableEq, Repr

/-- One slot of a P word (R178). -/
structure Slot where
  op : SlotOp
  g : SGuard
  d : SOpnd
  a : SOpnd
  imm : BitVec 6
  deriving DecidableEq, Repr

/-- The levels whose instances end by INSTANCE_END (R11), and the fork group (R42). -/
inductive Lvl where
  | block | launch | graph | phase | job | fork
  deriving DecidableEq, Repr

/-- What a unit reports of an error (Table 125, R398): the fields a record takes from it. -/
structure ErrRec where
  rank : BitVec 2
  retry : BitVec 2
  unit : BitVec 8
  code : BitVec 8
  ctx : BitVec 5
  core : BitVec 8
  addr : W64
  synd : W64
  info : W64
  deriving DecidableEq, Repr

/-- A configuration request (R384): its number and, where it writes the control of PF 0's resizable BAR 2 (Table 118), log2 of the
size it gives. -/
structure ConfigReq where
  req : Nat
  bar2 : Option Nat
  deriving DecidableEq, Repr

/-- A host access through an aperture (R385): a read of n bytes, or a write. -/
inductive HostAcc where
  | read (n : Nat)
  | write (data : List Byte)
  deriving DecidableEq, Repr

/-- A message of an SPDM session (R394): what it holds, and the tag that authenticates it. -/
structure Sealed where
  data : List Byte
  tag : List Byte
  deriving DecidableEq, Repr

/-- The nonce of a request for measurements (R394), in clear or in the session. -/
inductive SpdmAsk where
  | clear (nonce : List Byte)
  | inSession (m : Sealed)
  deriving DecidableEq, Repr

/-- A replica that a version switch copies (R291): its expert, and the die it is copied to. -/
structure Replica where
  expert : Nat
  die : Nat
  deriving DecidableEq, Repr

namespace Machine
/-- A partial of a fold-page element (R53): the exact sum in units of the smallest subnormal of the element's
format for the exact-add operators, the value so far for the others. -/
structure Part where
  op : Nat
  sum : Int
  pinf : Bool
  ninf : Bool
  nan : Bool
  allneg0 : Bool
  val : W64
  deriving DecidableEq, Repr

/-- A partial of a reduction window's element on its way to the package that homes it (R95): context, that package, VA. -/
structure WinPart where
  ctx : Nat
  home : Nat
  va : Nat
  part : Part
  deriving DecidableEq, Repr

/-- What a partial of a reduction window meets on its way (R95): another of this package, or one that arrives from the fabric. -/
inductive Meet where
  | other (m : Nat)
  | arrived (w : WinPart)
  deriving DecidableEq, Repr

end Machine

/-- One constructor per row of spec/opcode_table.json: the words of Ewesis 1 in the table's order, then the events of
the part, whose arguments say which object or unit the event is about; ten events without arguments stand last. -/
inductive Instr where
  | add (f : F) (ty : Ty) (sat : Bool)
  | sub (f : F) (ty : Ty) (sat : Bool)
  | mul (f : F) (ty : Ty) (sat : Bool)
  | mulhi (f : F) (ty : Ty)
  | mad (f : F) (ty : Ty) (sat : Bool)
  | min (f : F) (ty : Ty)
  | max (f : F) (ty : Ty)
  | abs (f : F) (ty : Ty) (sat : Bool)
  | neg (f : F) (ty : Ty) (sat : Bool)
  | div (f : F) (ty : Ty) (sat : Bool)
  | rem (f : F) (ty : Ty)
  | lea (f : F) (ty : Ty) (sx : Bool) (sh : BitVec 3)
  | mov (f : F) (ty : Ty)
  | movi (f : F) (imm : BitVec 21)
  | popc (f : F) (ty : Ty)
  | clz (f : F) (ty : Ty)
  | ctz (f : F) (ty : Ty)
  | brev (f : F) (ty : Ty)
  | bfe (f : F) (sx : Bool) (pos len : BitVec 5)
  | bfi (f : F) (pos len : BitVec 5)
  | bperm (f : F)
  | ldvr (f : F) (k : BitVec 8)
  | stvr (f : F) (k : BitVec 8)
  | addc (f : F) (ty : Ty)
  | and (f : F) (ty : Ty)
  | or (f : F) (ty : Ty)
  | xor (f : F) (ty : Ty)
  | andn (f : F) (ty : Ty)
  | not (f : F) (ty : Ty)
  | shl (f : F) (ty : Ty)
  | shr (f : F) (ty : Ty)
  | sar (f : F) (ty : Ty)
  | rotl (f : F) (ty : Ty)
  | fsh (f : F) (ty : Ty)
  | icmp (f : F) (ty : Ty) (cond : ICond)
  | fcmp (f : F) (fmt : Fmt) (cond : FCond)
  | sel (f : F) (ty : Ty)
  | plog (f : F) (tt : BitVec 8)
  | ballot (f : F)
  | vote (f : F) (mode : VMode)
  | rfal (f : F) (ty : Ty)
  | bcast (f : F) (ty : Ty) (lane : BitVec 5)
  | shfl (f : F) (ty : Ty) (mode : ShMode)
  | fadd (f : F) (fmt : Fmt) (rnd : Rnd)
  | fsub (f : F) (fmt : Fmt) (rnd : Rnd)
  | fmul (f : F) (fmt : Fmt) (rnd : Rnd)
  | ffma (f : F) (fmt : Fmt) (rnd : Rnd)
  | fmin (f : F) (fmt : Fmt)
  | fmax (f : F) (fmt : Fmt)
  | fdiv (f : F) (fmt : Fmt) (rnd : Rnd)
  | fsqrt (f : F) (fmt : Fmt) (rnd : Rnd)
  | frcp (f : F) (rnd : Rnd)
  | frsq (f : F) (rnd : Rnd)
  | fexp2 (f : F) (rnd : Rnd)
  | flog2 (f : F) (rnd : Rnd)
  | fsin (f : F) (rnd : Rnd)
  | fcos (f : F) (rnd : Rnd)
  | fclass (f : F) (fmt : Fmt)
  | fscale (f : F) (fmt : Fmt) (rnd : Rnd)
  | cclr (f : F)
  | cadd (f : F) (fmt : Fmt)
  | cfma (f : F) (fmt : Fmt)
  | crd (f : F) (fmt : Fmt) (rnd : Rnd) (clr : Bool)
  | cvt (f : F) (dfmt sfmt : Fmt)
  | cvtsr (f : F) (dfmt sfmt : Fmt)
  | pk (f : F) (dfmt sfmt : Fmt)
  | upk (f : F) (dfmt sfmt : Fmt)
  | rand (f : F) (w32 : Bool)
  | br (f : F) (imm : BitVec 21)
  | jmp (f : F)
  | call (f : F) (imm : BitVec 21)
  | ret (f : F)
  | brx (f : F) (n : BitVec 12)
  | exit (f : F)
  | nop (f : F)
  | movl (x : X)
  | addX (x : X)
  | brX (x : X)
  | callX (x : X)
  | ldX (x : X)
  | stX (x : X)
  | pairWord (a b : Slot)
  | ld (f : F) (sz : Sz) (sp : Sp) (off : BitVec 16)
  | st (f : F) (sz : Sz) (sp : Sp) (off : BitVec 16)
  | ldn (f : F) (sz : Sz) (sp : Sp) (off : BitVec 16)
  | stn (f : F) (sz : Sz) (sp : Sp) (off : BitVec 16)
  | touch (f : F) (wr : Bool) (off : BitVec 16)
  | pf (f : F) (lvl : PfLvl) (off : BitVec 16)
  | gth (f : F) (sz : Sz) (sp : Sp) (acq : Bool) (scope : Scope)
  | sct (f : F) (sz : Sz) (sp : Sp) (rel : Bool) (scope : Scope)
  | cst (f : F) (sz : Sz) (sp : Sp) (rel : Bool) (scope : Scope)
  | xld (f : F) (sz : Sz) (sp : Sp) (acq : Bool) (scope : Scope)
  | cpy (f : F) (acq rel : Bool) (scope : Scope)
  | tagwait (f : F) (any : Bool) (imm : BitVec 16)
  | tagffr (f : F)
  | tagclr (f : F) (imm : BitVec 16)
  | atom (f : F) (op : AOp) (dt : DT) (sc : Bool)
  | red (f : F) (op : AOp) (dt : DT)
  | aord (f : F) (op : AOp) (dt : DT) (dm acq rel : Bool) (scope : Scope)
  | afree (f : F) (op : AOp) (dt : DT) (dm acq rel : Bool) (scope : Scope)
  | barv (f : F) (dm : Bool) (scope : Scope)
  | barvInit (f : F) (dm : Bool) (scope : Scope)
  | barw (f : F) (dm : Bool) (scope : Scope)
  | barwWait (f : F) (dm : Bool) (scope : Scope)
  | fpost (f : F) (dm : Bool) (scope : Scope)
  | fpostInit (f : F) (dm : Bool) (scope : Scope)
  | fwait (f : F) (dm : Bool) (scope : Scope)
  | olacq (f : F) (dm : Bool) (scope : Scope)
  | olacqFree (f : F) (dm : Bool) (scope : Scope)
  | olrel (f : F) (dm : Bool) (scope : Scope)
  | olrelPass (f : F) (dm : Bool) (scope : Scope)
  | olrelInit (f : F) (dm : Bool) (scope : Scope) (free : Bool)
  | olrelFree (f : F) (dm : Bool) (scope : Scope)
  | wreg (f : F) (dm hold : Bool) (sub : BitVec 3)
  | wunreg (f : F) (dm hold : Bool) (sub : BitVec 3)
  | yield (f : F)
  | fence (f : F) (scope : Scope)
  | sweep (f : F) (scope : Scope)
  | qpush (f : F) (dm : Bool) (scope : Scope)
  | qpushInit (f : F) (dm : Bool) (scope : Scope)
  | qpop (f : F) (dm : Bool) (scope : Scope)
  | fork (f : F)
  | join (f : F)
  | vstat (f : F) (sel : VSel)
  | launch (f : F)
  | cancel (f : F)
  | lcount (f : F) (nowait : Bool)
  | migrate (f : F)
  | mma (f : F) (fmt : Fmt) (acf : AccF) (shape : Shape) (scA scB : Bool)
  | mz (f : F)
  | mld (f : F) (rows : BitVec 6) (rsz : Rsz) (sc : Bool)
  | mst (f : F) (rows : BitVec 6) (rsz : Rsz) (sc : Bool)
  | mtov (f : F) (part : BitVec 2)
  | vtom (f : F) (part : BitVec 2)
  | msync (f : F)
  | mmas (f : F) (fmt : Fmt) (acf : AccF) (shape : Shape) (scA scB : Bool)
  | shcom (f : F)
  | shdis (f : F)
  | dsetPt (f : F)
  | dsetU (f : F)
  | dld (f : F) (sc : Bool)
  | dst (f : F) (sc : Bool)
  | dadd (f : F)
  | dsub (f : F)
  | dmul (f : F)
  | ddiv (f : F)
  | daff (f : F)
  | dmin (f : F)
  | dmax (f : F)
  | dmap (f : F) (fn : DFn)
  | dmom (f : F) (sel : MSel)
  | dqnt (f : F) (lvl : QLvl)
  | dtagNew (f : F)
  | dtagSet (f : F)
  | dtagGet (f : F)
  | dmix (f : F)
  | dsamp (f : F)
  | xroute (f : F)
  | xrel (f : F)
  | xcnt (f : F)
  | xver (f : F)
  | trap (f : F) (imm : BitVec 16)
  | tret (f : F)
  | rsr (f : F)
  | wsr (f : F)
  | ienter (f : F)
  | brk (f : F) (imm : BitVec 16)
  | cachectl (f : F) (op : CacheOp)
  -- events of the part (spec/95_what_each_step_holds.md)
  | parkedGroupRejoin (blk wv : Nat)
  | engineLand (cmd : Nat)
  | roundRequestArrive (req : Nat)
  | memoryReply (n : Nat)
  | gateAdmit (req : Nat)
  | replayLogIndex (ctx : Nat)
  | sweepProbeReturn (id : Nat)
  | instanceEnd (lvl : Lvl) (id : Nat)
  | waveEndAfterLaunches (blk wv : Nat)
  | launchStart (id : Nat)
  | stepBoundary (id : Nat)
  | blockPlace (die : Nat)
  | splitChange (die core : Nat)
  | inheritanceSave (die holder : Nat)
  | packageCycleDetect
  | priorityPropagate
  | stallWatchdogExpiry (blk wv : Nat)
  | pipelinePressureInterval (die : Nat)
  | tow (blk core : Nat)
  | towForwardRemove (blk : Nat)
  | tokenBucketRefill
  | pendingTrapTake (blk wv : Nat)
  | strikeReport (die core : Nat)
  | regionRelease (blk wv : Nat)
  | pinWindowExpiry (blk wv : Nat)
  | forkReexecute (id : Nat)
  | sectorPoison (pa : Nat)
  | errorRecordPlace (socket : Nat) (r : ErrRec)
  | linkFlitResend (socket : Nat) (r : ErrRec)
  | faultRecordAppend (die entry : Nat)
  | frespSupply (die entry : Nat)
  | frespNr (die entry : Nat)
  | inval (len : W64)
  | migcmd (pa : W64)
  | preempt (ctx : Nat) (val : W64)
  | drainLimitExpiry (blk : Nat)
  | blockSave (blk : Nat)
  | blockRestore (blk : Nat)
  | kill (ctx : Nat)
  | debugStateAccess (blk off : Nat) (wr : Option W64)
  | debugResume (blk : Nat)
  | rcfgWrite (ctx : Nat) (val : W64)
  | prodWrite (ctx : Nat) (val : W64)
  | packetIntake (ctx : Nat)
  | hcancel1 (ctx : Nat) (val : W64)
  | functionLevelResetVf (ctx : Nat)
  | functionLevelResetPf
  | configRequest (req : ConfigReq)
  | unsupportedRequest (req : Nat)
  | hostApertureAccess (fn off : Nat) (wr : HostAcc)
  | spdmGetMeasurements (index : Nat) (nonce : SpdmAsk)
  | spdmGetCertificate
  | spdmChallenge (nonce : List Byte)
  | spdmKeyExchange (exch : List Byte)
  | mbReservedCommand (cmd : W64)
  | mtload (pa : W64)
  | versionSwitchCopyDone
  | slotWritten (die : Nat)
  | graceExpiry (id : Nat)
  | switchAbandon (die : Replica)
  | decodeWindowWrite (n word : Nat) (val : W64)
  | reductionPartialCombine (n : Nat) (m : Machine.Meet)
  | checkpointSave (report : W64)
  | checkpointSaveDone
  | checkpointRestore (report : W64)
  | errorBankClear (socket bank : Nat)
  | errsumRead (socket : Nat)
  | registerWrite (fn off : Nat) (val : Option W64)
  | engineSourceRead (cmd : Nat)
  | killCompletion (ctx : Nat)
  | reserveStreamAccept (src strm : Nat) (data : List Host.Cell)
  | spdmVersionNegotiation (versions : List Nat)
  | ideKmKeyProgramming (strm : Nat) (key : Sealed)
  | invalComplete
  | migrationDone
  | coldStart
  | recoveryLoad
  | powerOff
  | checkpointRestoreDone
  | xpstatRead
  | mbRaiseMinSvn
  | mbReportMinSvn
  | samplingInterval
  deriving DecidableEq, Repr

end Sys2Proof
end

