-- ==== Sys2Proof/WellFormed.lean ====
section
/-! DEFINITION. Which words are legal (Table 52): the operand classes, register counts and alignments each
instruction admits at D, A, B and C (`Instr.sig`), the scalar-destination rule (R173), the hold field (R176),
the modifier codes of each entry, and the pair-word rules (R180, R181). `Instr.sig` also drives the register
bounds of R30 and R174 and the scoreboard. -/

namespace Sys2Proof

/-- Operand classes of Table 44 as the entries use them. -/
inductive Cls where
  | v | s | p | i | c | d | acc | k | f | l | z | sr
  deriving DecidableEq, Repr

/-- What an entry says about one operand position: the classes, how many consecutive registers a value takes,
the alignment of a directly named first register, and whether the position is read as a value. -/
structure Pos where
  cls : List Cls
  n : Nat
  al : Nat
  val : Bool
  deriving DecidableEq, Repr

/-- The signature of an instruction's operand fields. -/
structure Sig where
  d : Pos
  a : Pos
  b : Pos
  c : Pos
  /-- D is written -/
  dw : Bool
  /-- C is written as well (the carry of `addc`) -/
  cw : Bool
  /-- a scalar D takes vector sources -/
  vs : Bool
  /-- a scalar D takes the predicate at C (R200, log 81) -/
  cp : Bool
  /-- H = 11 selects the immediate -/
  im : Bool
  deriving DecidableEq, Repr

namespace Pos
/-- A field the instruction does not use. -/
def no : Pos := ⟨[], 0, 1, false⟩
/-- The specifier zero and nothing else: B of `barv` and `barw` on the block barrier (R234). -/
def zero : Pos := ⟨[.z], 0, 1, false⟩
/-- A value of `n` consecutive registers, aligned to `n`. -/
def of (cls : List Cls) (n : Nat) : Pos := ⟨cls, n, n, true⟩
/-- Vector registers and no special register in their place: the eight of `vtom`, the quad of `xrel` (R264, R302). -/
def vregs (n : Nat) : Pos := ⟨[.v], n, n, false⟩
/-- A place that is not read as a value: crucible, tile, distribution register. -/
def tile (cls : List Cls) : Pos := ⟨cls, 1, 1, false⟩
end Pos

namespace Cls
/-- v, s, const, special, L, zero (Table 53). -/
def ar : List Cls := [.v, .s, .k, .l, .z]
/-- v, s. -/
def reg : List Cls := [.v, .s]
/-- v, s, L or a float constant (R204). -/
def fl : List Cls := [.v, .s, .l, .f]
/-- F32 operands of the distribution instructions (R280). -/
def dfl : List Cls := [.v, .s, .l, .f, .z]
/-- Bases of R216. -/
def base : List Cls := [.v, .s, .l, .z]
end Cls

/-- Registers of a TY operand. -/
def Ty.regs : Ty → Nat
  | .i32 | .n32 => 1
  | .i64 | .n64 => 2

/-- Width of a TY in bits. -/
def Ty.bits : Ty → Nat
  | .i32 | .n32 => 32
  | .i64 | .n64 => 64

/-- Whether a TY is signed. -/
def Ty.signed : Ty → Bool
  | .i32 | .i64 => true
  | .n32 | .n64 => false

/-- The number of a format (Table 29). -/
def Fmt.num : Fmt → Nat
  | .f64 => 0 | .f32 => 1 | .f16 => 2 | .e8m7 => 3 | .e8m10 => 4
  | .e5m2 => 5 | .e4m3 => 6 | .e3m4 => 7 | .e3m2 => 8 | .e2m3 => 9 | .e2m1 => 10
  | .i32 => 11 | .n32 => 12 | .i16 => 13 | .n16 => 14 | .i8 => 15 | .n8 => 16
  | .i4 => 17 | .n4 => 18 | .i2 => 19 | .n2 => 20 | .b1 => 21 | .n1 => 22
  | .t4iE43 => 23 | .t4iE52 => 24 | .t4iI8 => 25 | .t4fE43 => 26 | .t4fE52 => 27 | .t4nN8 => 28
  | .c64 => 29 | .c128 => 30 | .dd => 31

/-- Bits of one element (Table 29); a tinned element is a 4-bit slot. -/
def Fmt.bits : Fmt → Nat
  | .f64 | .c64 => 64
  | .f32 | .e8m10 | .i32 | .n32 => 32
  | .f16 | .e8m7 | .i16 | .n16 => 16
  | .e5m2 | .e4m3 | .e3m4 | .i8 | .n8 => 8
  | .e3m2 | .e2m3 => 6
  | .e2m1 | .i4 | .n4 | .t4iE43 | .t4iE52 | .t4iI8 | .t4fE43 | .t4fE52 | .t4nN8 => 4
  | .i2 | .n2 => 2
  | .b1 | .n1 => 1
  | .c128 | .dd => 128

/-- Registers that hold one element (R186). -/
def Fmt.regs (m : Fmt) : Nat := if m.bits ≤ 32 then 1 else m.bits / 32

/-- Registers of an SZ operand (Table 57). -/
def Sz.regs : Sz → Nat
  | .w64 => 2
  | .w128 => 4
  | _ => 1

/-- Bytes of an access of size SZ (Table 57). -/
def Sz.bytes : Sz → Nat
  | .n8 | .i8 => 1
  | .n16 | .i16 => 2
  | .w32 => 4
  | .w64 => 8
  | .w128 => 16

/-- Registers of a DT operand (Table 64). -/
def DT.regs : DT → Nat
  | .i64 | .n64 | .f64 => 2
  | _ => 1

/-- Bytes of a DT operand. -/
def DT.bytes : DT → Nat
  | .i64 | .n64 | .f64 => 8
  | .f16 => 2
  | _ => 4

/-- Whether a DT is an integer type. -/
def DT.isInt : DT → Bool
  | .f32 | .f64 | .f16 => false
  | _ => true

/-- The format of a float DT. -/
def DT.fmt : DT → Fmt
  | .f64 => .f64
  | .f16 => .f16
  | _ => .f32

/-- Registers of an address operand in a space (R216). -/
def Sp.regs : Sp → Nat
  | .g => 2
  | _ => 1

/-- Registers of an object address: a pair in `g:`, one register in `dm:`. -/
def objRegs (dm : Bool) : Nat := if dm then 1 else 2

/-- Tiles of a result (R252): C128 and DD with `.wide` or `.tall` need a pair. -/
def tileRegs (acf : AccF) (sh : Shape) : Nat :=
  match acf, sh with
  | .c128, .wide | .c128, .tall | .dd, .wide | .dd, .tall => 2
  | _, _ => 1

namespace Sig
open Cls Pos

/-- No operand at all. -/
def none : Sig := ⟨no, no, no, no, false, false, false, false, false⟩
/-- D ← op of up to three sources, each of the given position. -/
def op (d a b c : Pos) : Sig := ⟨d, a, b, c, true, false, false, false, false⟩
/-- Only sources; nothing is written to a register. -/
def use (d a b c : Pos) : Sig := ⟨d, a, b, c, false, false, false, false, false⟩
/-- Two-source integer shape (Table 53). -/
def int2 (n : Nat) : Sig := op (of reg n) (of ar n) (of ar n) no
/-- One-source integer shape. -/
def int1 (n m : Nat) : Sig := op (of reg n) (of ar m) no no
/-- Float shapes of Table 56. -/
def flt (m : Fmt) (k : Nat) : Sig :=
  let q := of fl m.regs
  op (of reg m.regs) q (if 2 ≤ k then q else no) (if 3 ≤ k then q else no)
/-- Loads and stores of Table 59. -/
def load (sz : Sz) (sp : Sp) : Sig := { op (of reg sz.regs) (of base sp.regs) no no with im := true }
def store (sz : Sz) (sp : Sp) : Sig := { use (of ar sz.regs) (of base sp.regs) no no with im := true }
/-- A completion word: an s pair or zero (R224). -/
def cwPos : Pos := of [.s, .z] 2
/-- Object addresses of Table 66. -/
def objS (dm : Bool) : Pos := of [.s] (objRegs dm)
def objSZ (dm : Bool) : Pos := of [.s, .z] (objRegs dm)
def objV (dm : Bool) : Pos := of [.v, .s] (objRegs dm)
def part : Pos := of [.s, .k, .z] 1
def cnt64 : Pos := of [.s, .k, .z] 2
def val64 : Pos := of [.v, .s, .k, .z] 2
/-- The shape of `mma` and `mmas` (R257). -/
def mat (acf : AccF) (sh : Shape) (scA scB : Bool) : Sig :=
  let t := tileRegs acf sh
  op ⟨[.acc], t, t, false⟩ (of base (if scA then 1 else 2)) (of base (if scB then 1 else 2)) (of ar 1)
/-- An operand of the DT of an atomic (Table 64): its `const` takes the float constants where the DT is a float one (R172, log 102). -/
def dtPos (dt : DT) : Pos := of (if dt.isInt then ar else ar ++ [.f]) dt.regs
/-- Distribution shapes of Table 76. -/
def dist (a b c : Pos) : Sig := op (tile [.d]) a b c
def dd2 : Sig := dist (tile [.d]) (tile [.d]) no
def f32z : Pos := of dfl 1
def tagSrc : Pos := of [.v, .s, .k, .l] 1
/-- Registers of a format that `cvt` names (R208). -/
def fmtPos (m : Fmt) : Pos := of reg m.regs
end Sig

/-- Special registers held per lane (Table 45). -/
def SReg.perLane : SReg → Bool
  | .lane | .rngctr => true
  | _ => false

/-- Special registers of 64 bits (Table 45). -/
def SReg.wide : SReg → Bool
  | .tagready | .rngctr | .clock | .trapinfo | .trapaddr => true
  | _ => false

/-- Registers that the value of a special register takes (R247). -/
def Opnd.srRegs : Opnd → Nat
  | .sr r => if r.wide then 2 else 1
  | _ => 1

open Cls Pos Sig in
/-- The operand signature of each instruction, from its entry (R188 to R305); of `abs` and `neg` log 129, of
`popc`, `clz`, `ctz` and `brev` log 130. Events have none. -/
def Instr.sig : Instr → Sig
  | .add _ ty _ | .sub _ ty _ | .mul _ ty _ | .div _ ty _ => int2 ty.regs
  | .mulhi _ ty | .min _ ty | .max _ ty | .rem _ ty => int2 ty.regs
  | .mad _ ty _ => op (of reg ty.regs) (of ar ty.regs) (of ar ty.regs) (of ar ty.regs)
  | .abs _ ty _ | .neg _ ty _ => int1 ty.regs ty.regs
  | .lea _ ty _ _ => op (of reg ty.regs) (of ar ty.regs) (of ar 1) no
  | .mov _ ty => int1 ty.regs ty.regs
  | .movi .. => { op (of reg 1) no no no with im := true }
  | .popc _ ty | .clz _ ty | .ctz _ ty => int1 1 ty.regs
  | .brev _ ty => int1 ty.regs ty.regs
  | .bfe .. | .bfi .. => { op (of reg 1) (of [.v, .s, .l, .k] 1) no no with im := true }
  | .bperm _ => op (of reg 1) (of ar 1) (of ar 1) (of ar 1)
  | .ldvr .. => { op (of [.v] 1) (of [.i] 1) no no with im := true }
  | .stvr .. => { use (of [.i] 1) (of ar 1) no no with im := true }
  | .addc _ ty => { int2 ty.regs with c := of [.p] 1, cw := true }
  | .and _ ty | .or _ ty | .xor _ ty | .andn _ ty => int2 ty.regs
  | .not _ ty => int1 ty.regs ty.regs
  | .shl _ ty | .shr _ ty | .sar _ ty | .rotl _ ty => op (of reg ty.regs) (of ar ty.regs) (of ar 1) no
  | .fsh .. => op (of reg 1) (of ar 1) (of ar 1) (of ar 1)
  | .icmp _ ty _ => op (of [.p] 1) (of ar ty.regs) (of ar ty.regs) no
  | .fcmp _ m _ => op (of [.p] 1) (of fl m.regs) (of fl m.regs) no
  | .sel _ ty => { op (of reg ty.regs) (of ar ty.regs) (of ar ty.regs) (of [.p] 1) with cp := true }
  | .plog .. => op (of [.p] 1) (of [.p, .z] 1) (of [.p, .z] 1) (of [.p, .z] 1)
  | .ballot _ => { op (of [.s] 1) (of [.p] 1) no no with vs := true }
  | .vote .. => { op (of [.p, .s] 1) (of [.p] 1) no no with vs := true }
  | .rfal _ ty => { op (of [.s] ty.regs) (of [.v] ty.regs) no no with vs := true }
  | .bcast _ ty _ => { op (of reg ty.regs) (of [.v] ty.regs) no no with vs := true, im := true }
  | .shfl _ ty _ => op (of [.v] ty.regs) (of [.v] ty.regs) (of [.v, .s, .k, .l] 1) (of ar ty.regs)
  | .fadd _ m _ | .fsub _ m _ | .fmul _ m _ | .fdiv _ m _ => flt m 2
  | .ffma _ m _ => flt m 3
  | .fmin _ m | .fmax _ m => flt m 2
  | .fsqrt _ m _ => flt m 1
  | .frcp .. | .frsq .. | .fexp2 .. | .flog2 .. | .fsin .. | .fcos .. => flt .f32 1
  | .fclass _ m => op (of reg 1) (of fl m.regs) no no
  | .fscale _ m _ => op (of reg m.regs) (of fl m.regs) (of [.v, .s, .k] 1) no
  | .cclr _ => op (tile [.c]) no no no
  | .cadd _ m => op (tile [.c]) (of fl m.regs) no no
  | .cfma _ m => op (tile [.c]) (of fl m.regs) (of fl m.regs) no
  | .crd _ m _ _ => op (of reg m.regs) (tile [.c]) no no
  | .cvt _ dm sm => op (fmtPos dm) (fmtPos sm) no (of [.k] 1)
  | .cvtsr _ dm sm => op (fmtPos dm) (fmtPos sm) (of [.v, .s, .l] 1) no
  | .pk .. | .upk .. => op (of reg 1) (of [.v, .s, .l] 1) no (of ar 1)
  | .rand _ w => op (of [.v] (if w then 1 else 2)) (of [.v, .s, .z] 2) no no
  | .br .. => Sig.none
  | .jmp _ | .ret _ => use no (of [.s, .v, .l] 2) no no
  | .call .. => op (of reg 2) no no no
  | .brx .. => use no (of [.v, .s, .k, .l] 1) no no
  | .exit _ | .nop _ => Sig.none
  | .movl _ | .addX _ => op (of reg 1) no no no
  | .brX _ => Sig.none
  | .callX _ => op (of reg 2) no no no
  | .ldX _ => op (of reg 1) no no no
  | .stX _ => use (of reg 1) no no no
  | .pairWord .. => Sig.none
  | .ld _ sz sp _ | .ldn _ sz sp _ => load sz sp
  | .st _ sz sp _ | .stn _ sz sp _ => store sz sp
  | .touch .. | .pf .. => { use no (of base 2) no no with im := true }
  | .gth _ sz sp _ _ => op (of [.v] sz.regs) (of [.v] sp.regs) no cwPos
  | .sct _ sz sp _ _ => use no (of [.v] sp.regs) (of [.v] sz.regs) cwPos
  | .cst _ sz sp _ _ => { op (of [.s] 1) (of [.s, .l] sp.regs) (of [.v] sz.regs) cwPos with vs := true }
  | .xld _ sz sp _ _ => op (of [.v] sz.regs) (of [.s, .l] sp.regs) no cwPos
  | .cpy .. => use no (of [.s] 2) no no
  | .tagwait .. | .tagclr .. => { use no (of [.s, .z] 2) no no with im := true }
  | .tagffr _ => op (of [.s] 1) (of [.s, .z] 2) no no
  | .atom _ aop dt sc =>
    op (of [.v] dt.regs) (of reg (if sc then 1 else 2)) (dtPos dt)
      (if aop = .cas then dtPos dt else no)
  | .red _ _ dt => use no (of reg 2) (dtPos dt) no
  | .aord _ aop dt dm _ _ _ =>
    op (if aop = .store then no else of [.v] dt.regs) (of reg (objRegs dm)) (if aop = .load then no else dtPos dt) (of [.s] (objRegs dm))
  | .afree _ aop dt dm _ _ _ =>
    op (if aop = .store then no else of [.v] dt.regs) (of reg (objRegs dm)) (if aop = .load then no else dtPos dt)
      (if aop = .cas then dtPos dt else no)
  | .barv flds dm _ => use no (objSZ dm) (if flds.a = .zero then Pos.zero else part) cnt64
  | .barvInit flds dm _ => use no (objSZ dm) (if flds.a = .zero then Pos.zero else part) no
  | .barw flds dm _ => { op (of [.p, .s] 1) (objSZ dm) (if flds.a = .zero then Pos.zero else part) cnt64 with vs := true }
  | .barwWait flds dm _ => { op (of [.p, .s] 1) (objSZ dm) (if flds.a = .zero then Pos.zero else no) no with vs := true }
  | .fpost _ dm _ | .fwait _ dm _ => use no (objV dm) val64 no
  | .fpostInit _ dm _ => use no (objV dm) no no
  | .olacq _ dm _ => op (of [.s] 2) (objS dm) part no
  | .olacqFree _ dm _ => op (of [.s] 2) (objS dm) no no
  | .olrel _ dm _ | .olrelPass _ dm _ => use no (objS dm) part no
  | .olrelInit _ dm _ free => use no (objS dm) (if free then no else part) no
  | .olrelFree _ dm _ => use no (objS dm) no no
  | .wreg _ dm _ _ => use no (objS dm) part no
  | .wunreg _ dm _ _ => use no (objSZ dm) no no
  | .yield _ | .fence .. | .sweep .. => Sig.none
  | .qpush _ dm _ => use no (objV dm) val64 (of reg 2)
  | .qpushInit _ dm _ => use no (objV dm) (of [.s] 2) (of [.s, .k] 1)
  | .qpop _ dm _ => op (of reg 2) (objV dm) val64 no
  | .fork _ | .migrate _ => use no (of [.s] 2) no no
  | .join _ => op (of [.s] 1) no no no
  | .vstat .. => op (of [.s] 1) no no no
  | .launch _ | .lcount .. => op (of [.s] 2) (of [.s] 2) no no
  | .cancel _ => op (of [.s] 1) (of [.s] 2) no no
  | .mma _ _ acf sh sa sb | .mmas _ _ acf sh sa sb => mat acf sh sa sb
  | .mz _ => op (tile [.acc]) no no no
  | .mld _ _ _ sc => op (tile [.acc]) (of base (if sc then 1 else 2)) no (of ar 1)
  | .mst _ _ _ sc => use (tile [.acc]) (of base (if sc then 1 else 2)) no (of ar 1)
  | .mtov .. => op ⟨[.v], 8, 8, true⟩ (tile [.acc]) no no
  | .vtom .. => op (tile [.acc]) (vregs 8) no no
  | .msync _ | .shdis _ => Sig.none
  | .shcom _ => use no (of [.p] 1) no no
  | .dsetPt _ => dist f32z no no
  | .dsetU _ => dist f32z f32z no
  | .dld _ sc => dist (of [.v, .s, .l] (if sc then 1 else 2)) no (of ar 1)
  | .dst _ sc => use (tile [.d]) (of [.v, .s, .l] (if sc then 1 else 2)) no no
  | .dadd _ | .dsub _ | .dmul _ | .ddiv _ | .dmin _ | .dmax _ => dd2
  | .daff _ => dist (tile [.d]) f32z f32z
  | .dmap .. => dist (tile [.d]) no no
  | .dmom _ q => op (of [.v] (if q = .all then 4 else 1)) (tile [.d]) no no
  | .dqnt _ lvl => op (of [.v] 1) (tile [.d]) (if lvl = .p then f32z else no) no
  | .dtagNew _ => dist (tile [.d]) no no
  | .dtagSet _ => dist (tile [.d]) tagSrc no
  | .dtagGet _ => op (of [.v] 1) (tile [.d]) no no
  | .dmix _ => dist (tile [.d]) (tile [.d]) f32z
  | .dsamp _ => op (of [.v] 1) (tile [.d]) (of [.v, .s, .l] 1) no
  | .xroute _ => op (of [.v] 4) tagSrc tagSrc no
  | .xrel _ => use no (vregs 4) no no
  | .xcnt _ => op (of reg 1) tagSrc no no
  | .xver _ => op (of [.s] 1) no no no
  | .trap .. | .brk .. => { Sig.none with im := true }
  | .tret _ | .ienter _ => Sig.none
  | .rsr flds => op (of reg flds.a.srRegs) (of [.sr] flds.a.srRegs) no no
  | .wsr flds => op (of [.sr] 1) (of ar flds.d.srRegs) no no
  | .cachectl .. => use no (of reg 2) no no
  | _ => Sig.none

/-- The F fields of a word that has them. -/
def Instr.fields : Instr → Option F
  | .add f _ _ | .sub f _ _ | .mul f _ _ | .mulhi f _ | .mad f _ _ | .min f _ | .max f _ | .abs f _ _ | .neg f _ _
  | .div f _ _ | .rem f _ | .lea f _ _ _ | .mov f _ | .movi f _ | .popc f _ | .clz f _ | .ctz f _ | .brev f _
  | .bfe f _ _ _ | .bfi f _ _ | .bperm f | .ldvr f _ | .stvr f _ | .addc f _ | .and f _ | .or f _ | .xor f _
  | .andn f _ | .not f _ | .shl f _ | .shr f _ | .sar f _ | .rotl f _ | .fsh f _ | .icmp f _ _ | .fcmp f _ _
  | .sel f _ | .plog f _ | .ballot f | .vote f _ | .rfal f _ | .bcast f _ _ | .shfl f _ _
  | .fadd f _ _ | .fsub f _ _ | .fmul f _ _ | .ffma f _ _ | .fmin f _ | .fmax f _ | .fdiv f _ _ | .fsqrt f _ _
  | .frcp f _ | .frsq f _ | .fexp2 f _ | .flog2 f _ | .fsin f _ | .fcos f _ | .fclass f _ | .fscale f _ _
  | .cclr f | .cadd f _ | .cfma f _ | .crd f _ _ _ | .cvt f _ _ | .cvtsr f _ _ | .pk f _ _ | .upk f _ _ | .rand f _
  | .br f _ | .jmp f | .call f _ | .ret f | .brx f _ | .exit f | .nop f
  | .ld f _ _ _ | .st f _ _ _ | .ldn f _ _ _ | .stn f _ _ _ | .touch f _ _ | .pf f _ _
  | .gth f _ _ _ _ | .sct f _ _ _ _ | .cst f _ _ _ _ | .xld f _ _ _ _ | .cpy f _ _ _ | .tagwait f _ _ | .tagffr f | .tagclr f _
  | .atom f _ _ _ | .red f _ _ | .aord f _ _ _ _ _ _ | .afree f _ _ _ _ _ _
  | .barv f _ _ | .barvInit f _ _ | .barw f _ _ | .barwWait f _ _ | .fpost f _ _ | .fpostInit f _ _ | .fwait f _ _
  | .olacq f _ _ | .olacqFree f _ _ | .olrel f _ _ | .olrelPass f _ _ | .olrelInit f _ _ _ | .olrelFree f _ _
  | .wreg f _ _ _ | .wunreg f _ _ _ | .yield f | .fence f _ | .sweep f _ | .qpush f _ _ | .qpushInit f _ _ | .qpop f _ _
  | .fork f | .join f | .vstat f _ | .launch f | .cancel f | .lcount f _ | .migrate f
  | .mma f _ _ _ _ _ | .mz f | .mld f _ _ _ | .mst f _ _ _ | .mtov f _ | .vtom f _ | .msync f
  | .mmas f _ _ _ _ _ | .shcom f | .shdis f
  | .dsetPt f | .dsetU f | .dld f _ | .dst f _ | .dadd f | .dsub f | .dmul f | .ddiv f | .daff f | .dmin f | .dmax f
  | .dmap f _ | .dmom f _ | .dqnt f _ | .dtagNew f | .dtagSet f | .dtagGet f | .dmix f | .dsamp f
  | .xroute f | .xrel f | .xcnt f | .xver f | .trap f _ | .tret f | .rsr f | .wsr f | .ienter f | .brk f _ | .cachectl f _ => some f
  | .movl x | .addX x | .brX x | .callX x | .ldX x | .stX x => some ⟨x.g, x.d, .v 0, .v 0, .v 0, 0⟩
  | _ => none

/-- Special registers `wsr` writes (R247). -/
def SReg.writable : SReg → Bool
  | .fmode | .fflags | .cprog | .mrow | .wbase | .rngctr => true
  | _ => false

/-- Whether a source operand fits a position (R170, R171, R173); a special register stands for a value. -/
def Pos.srcOk (q : Pos) (o : Opnd) : Bool :=
  if q.cls = [] then o == .v 0
  else match o with
    | .v n => q.cls.contains .v && n.toNat % q.al == 0
    | .win _ => q.cls.contains .v
    | .s n => q.cls.contains .s && n.toNat % q.al == 0
    | .p _ => q.cls.contains .p
    | .i _ => q.cls.contains .i
    | .c _ => q.cls.contains .c
    | .d _ => q.cls.contains .d
    | .acc n => q.cls.contains .acc && n.toNat % q.al == 0
    | .sh _ => false
    | .sr r => q.cls.contains .sr || (q.val && if r.perLane then q.cls.contains .v else q.cls.contains .s)
    | .ci _ => q.cls.contains .k
    | .cf _ => q.cls.contains .f
    | .lat _ => q.cls.contains .l
    | .zero => q.cls.contains .z

/-- Whether a destination operand fits a position: no constant, latch entry, special register or p0, but zero, which
discards the result, and the writable registers of `wsr` (R173). -/
def Pos.dstOk (q : Pos) (o : Opnd) : Bool :=
  if q.cls = [] then o == .v 0
  else match o with
    | .p n => q.cls.contains .p && n != 0
    | .sr r => q.cls.contains .sr && r.writable
    | .ci _ | .cf _ | .lat _ => false
    | .zero => !q.cls.contains .sr
    | o => q.srcOk o

/-- Operands that differ between lanes. -/
def Opnd.perLane : Opnd → Bool
  | .v _ | .win _ | .p _ | .i _ | .lat _ | .d _ | .acc _ => true
  | .sr r => r.perLane
  | _ => false

/-- A used source that a scalar destination does not take (R173). -/
def Pos.badForScalar (q : Pos) (o : Opnd) : Bool := q.cls != [] && o.perLane

/-- Whether the opcode is a control transfer, or of G11 to G14, whose hold field is reserved (R176, R251, R280, R302). -/
def Instr.noHold : Instr → Bool
  | .br .. | .jmp _ | .call .. | .ret _ | .brx .. | .exit _
  | .mma .. | .mz _ | .mld .. | .mst .. | .mtov .. | .vtom .. | .msync _ | .mmas .. | .shcom _ | .shdis _
  | .dsetPt _ | .dsetU _ | .dld .. | .dst .. | .dadd _ | .dsub _ | .dmul _ | .ddiv _ | .daff _ | .dmin _ | .dmax _
  | .dmap .. | .dmom .. | .dqnt .. | .dtagNew _ | .dtagSet _ | .dtagGet _ | .dmix _ | .dsamp _
  | .xroute _ | .xrel _ | .xcnt _ | .xver _ => true
  | _ => false

/-- The hold field names a value the word reads (R176). -/
def Instr.holdOk (i : Instr) (f : F) : Bool :=
  if f.h = 0 then true
  else !i.noHold &&
    (if f.h = 1 then i.sig.a.val
     else if f.h = 2 then i.sig.b.val
     else i.sig.c.val || i.sig.im)

/-- IEEE-class formats 0 to 4. -/
def Fmt.ieee (m : Fmt) : Bool := m.num ≤ 4
/-- Narrow floats, 5 to 10. -/
def Fmt.narrow (m : Fmt) : Bool := 5 ≤ m.num && m.num ≤ 10
/-- Integer formats, 11 to 20. -/
def Fmt.isInt (m : Fmt) : Bool := 11 ≤ m.num && m.num ≤ 20
/-- Tinned formats, 23 to 28. -/
def Fmt.tinned (m : Fmt) : Bool := 23 ≤ m.num && m.num ≤ 28
/-- Complex formats. -/
def Fmt.complex (m : Fmt) : Bool := m == .c64 || m == .c128
/-- Signed integer formats. -/
def Fmt.signedInt : Fmt → Bool
  | .i32 | .i16 | .i8 | .i4 | .i2 | .b1 => true
  | _ => false

/-- Conversions R147 and R208 admit: no tinned format, no pairing of real with complex, none from an integer into
a complex format, and no 32-bit integer to itself. -/
def cvtOk (dm sm : Fmt) : Bool :=
  !dm.tinned && !sm.tinned && (dm.complex == sm.complex) && !(dm == sm && (dm == .i32 || dm == .n32))

/-- Operand formats each accumulator takes (Table 71). -/
def AccF.takes (acf : AccF) (m : Fmt) : Bool :=
  match acf with
  | .f64 => m == .f64
  | .f32 => m == .f32 || m == .f16 || m == .e8m7 || m == .e8m10 || m.narrow || m == .t4fE43 || m == .t4fE52
  | .f16 => m == .f16 || m.narrow || m == .t4fE43 || m == .t4fE52
  | .e8m7 => m == .e8m7 || m.narrow || m == .t4fE43 || m == .t4fE52
  | .i32 => (15 ≤ m.num && m.num ≤ 25) || m == .t4nN8
  | .c64 => m == .c64
  | .c128 => m == .c128
  | .dd => m == .dd

/-- Bytes of one row of RSZ (R261). -/
def Rsz.bytes : Rsz → Nat
  | .r16 => 16
  | .r32 => 32
  | .r64 => 64

/-- SZ codes of instructions that only write memory (R215). -/
def Sz.storeOk (sz : Sz) : Bool := sz != .i8 && sz != .i16

/-- The conditions of an entry that no operand class says: formats, modifier combinations, guards. -/
def Instr.extraOk : Instr → Bool
  | .fsh _ ty => ty.bits == 32
  | .addc f _ => f.c != .p 0
  | .fcmp _ m _ | .fclass _ m => m.num ≤ 10
  | .fadd _ m _ | .fsub _ m _ | .fmul _ m _ | .ffma _ m _ | .fdiv _ m _ | .fsqrt _ m _ | .fscale _ m _ => m.ieee
  | .fmin _ m | .fmax _ m => m.ieee
  | .cadd _ m | .cfma _ m => m.num ≤ 1
  | .crd _ m _ _ => m.num ≤ 1
  | .cvt f dm sm => cvtOk dm sm && (f.c == .ci 0 || f.c == .ci 1 || f.c == .ci 2 || f.c == .ci 3 || f.c == .ci 4 || f.c == .ci 7)
  | .cvtsr _ dm sm => sm.num ≤ 10 && dm.num ≤ 22 && dm != sm
  | .pk _ dm sm => (dm == .f16 || dm == .e8m7 || (5 ≤ dm.num && dm.num ≤ 22)) && (sm.num == 1 || sm.num == 2 || sm.num == 3 || sm.num == 11 || sm.num == 12)
  | .upk _ dm sm => (sm == .f16 || sm == .e8m7 || (5 ≤ sm.num && sm.num ≤ 28)) && (dm.num == 1 || dm.num == 2 || dm.num == 3 || dm.num == 11 || dm.num == 12)
  | .brx _ n => n != 0
  | .st _ sz _ _ | .stn _ sz _ _ => sz.storeOk
  | .sct _ sz _ _ _ | .cst _ sz _ _ _ => sz.storeOk
  | .atom _ op dt _ => (op != .load && op != .store) && (dt.isInt || (op != .and && op != .or && op != .xor))
  | .red _ op dt => (op == .add || op == .min || op == .max || ((op == .and || op == .or || op == .xor) && dt.isInt))
  | .aord _ op dt _ _ _ _ => op != .cas && (dt.isInt || (op != .and && op != .or && op != .xor))
  | .afree _ op dt _ _ _ _ => (dt.isInt || (op != .and && op != .or && op != .xor))
  | .wreg _ _ _ n => n != 7
  | .wunreg _ _ _ n => n != 7
  | .fork f | .join f | .migrate f => f.g == .always
  | .mma _ m acf _ _ _ | .mmas _ m acf _ _ _ => acf.takes m
  | .mld _ rows rsz _ | .mst _ rows rsz _ => (rows.toNat + 1) * rsz.bytes ≤ 1024
  | _ => true

/-- The F-form check of R173, R174 and R176 against the signature. -/
def Instr.opndsOk (i : Instr) (f : F) : Bool :=
  let g := i.sig
  (if g.dw then g.d.dstOk f.d else g.d.srcOk f.d) && g.a.srcOk f.a && g.b.srcOk f.b && g.c.srcOk f.c &&
  (match f.d with
   | .s _ => !g.dw || g.vs || !(g.a.badForScalar f.a || g.b.badForScalar f.b || (g.c.badForScalar f.c && !g.cp))
   | _ => true)

/-- `rsr`: a per-lane register goes into a v destination (R247). -/
def rsrOk (f : F) : Bool :=
  match f.a, f.d with
  | .sr r, .s _ => !r.perLane
  | .sr _, _ => true
  | _, _ => false

/-- The class of a slot destination and source for each slot opcode (Table 48): classes of SD, classes of SA,
whether SD may be scalar with a vector SA. -/
def SlotOp.cls : SlotOp → List Cls × List Cls × Bool
  | .add | .sub | .mul | .and | .or | .xor | .shl | .shr | .sar | .min | .max | .lea => ([.v, .s], [.v, .s, .k, .l], false)
  | .mov => ([.v, .s], [.v, .s, .k, .l, .z], false)
  | .movi6 => ([.v, .s], [.z], false)
  | .fadd | .fsub | .fmul | .fmin | .fmax => ([.v, .s], [.v, .s, .l], false)
  | .icmp | .fcmp => ([.p], [.v, .s, .l], false)
  | .bcast => ([.v, .s], [.v], true)
  | .rfal => ([.s], [.v], true)
  | .popc => ([.v, .s], [.v, .s, .l], false)

/-- The use of IMM6 (Table 48). -/
def Slot.immOk (t : Slot) : Bool :=
  match t.op with
  | .movi6 => true
  | .icmp => t.imm.toNat < 6
  | .fcmp => t.imm.toNat < 15
  | .bcast => t.imm.toNat < 32
  | .lea => t.imm.toNat < 8
  | _ => t.imm == 0

/-- The class of a slot operand. -/
def SOpnd.cls : SOpnd → Cls
  | .v _ => .v
  | .s _ => .s
  | .p _ => .p
  | .lat _ => .l
  | .zero => .z
  | .ci _ => .k

/-- The operand classes of one slot (Table 48, R173). -/
def Slot.ok (t : Slot) : Bool :=
  (match t.d with
   | .p n => t.op.cls.1.contains .p && n != 0
   | .zero => true
   | o => t.op.cls.1.contains o.cls) &&
  t.op.cls.2.1.contains t.a.cls && t.immOk &&
  (match t.d, t.a with
   | .s _, .v _ => t.op.cls.2.2
   | .s _, .lat _ => t.op.cls.2.2
   | _, _ => true)

/-- The vector registers a slot names, SD counted as a source (R180). -/
def Slot.vregs (t : Slot) : List Nat :=
  (match t.d with | .v n => [n.toNat] | _ => []) ++ (match t.a with | .v n => [n.toNat] | _ => [])

/-- R180: different SD, and no two different vector registers of one bank. -/
def pairOk (a b : Slot) : Bool :=
  a.ok && b.ok && (a.d != b.d) &&
  (let rs := a.vregs ++ b.vregs
   rs.all fun x => rs.all fun y => x == y || x % 4 != y % 4)

/-- Whether the instruction is a word of Ewesis 1, not an event. -/
def Instr.isWord : Instr → Bool
  | .pairWord .. => true
  | i => i.fields.isSome

/-- A legal word (R184): every condition that depends on the word alone. Events are well-formed as they stand. -/
def Instr.wf (i : Instr) : Bool :=
  match i with
  | .pairWord a b => pairOk a b
  | .rsr f => i.opndsOk f && rsrOk f && i.holdOk f
  | i =>
    match i.fields with
    | some f => i.opndsOk f && i.holdOk f && i.extraOk
    | none => true

end Sys2Proof
end

