-- ==== Sys2Proof/Machine/Num.lean ====
section
/-! DEFINITION. Numbers (chapter 05): the value of every format bit by bit (R126 to R130), one rounding (R134),
flushing (R136), TotalOrder (R140), min and max (R141), integer results (R187), the random generator (R149). -/

namespace Sys2Proof.Machine

/-- A value of a float format: NaN (signalling or quiet), an infinity, or (−1)^neg × m × 2^e. -/
inductive Val where
  | nan (sig : Bool)
  | inf (neg : Bool)
  | fin (neg : Bool) (m : Nat) (e : Int)
  deriving DecidableEq, Repr

/-! Flags (Table 37). -/
def Fl.nv : Fl := 1
def Fl.dz : Fl := 2
def Fl.ovf : Fl := 4
def Fl.uf : Fl := 8
def Fl.nx : Fl := 16
def Fl.de : Fl := 32
def Fl.sat : Fl := 64

/-- Raise a flag when a condition holds. -/
def Fl.when (c : Bool) (x : Fl) : Fl := if c then x else 0

/-- The parameters of a float format: precision with the hidden bit, exponent bias, bits of the code without the
layout's low padding, whether it is narrow, and the padding (E8M10 keeps bits [12:0] zero). -/
structure FP where
  prec : Nat
  bias : Nat
  width : Nat
  narrow : Bool
  pad : Nat
  deriving DecidableEq, Repr

/-- Tables 29 and 30. Formats that are no single float take the parameters of their components. -/
def fpOf : Fmt → FP
  | .f64 | .c128 | .dd => ⟨53, 1023, 64, false, 0⟩
  | .f32 | .c64 => ⟨24, 127, 32, false, 0⟩
  | .f16 => ⟨11, 15, 16, false, 0⟩
  | .e8m7 => ⟨8, 127, 16, false, 0⟩
  | .e8m10 => ⟨11, 127, 19, false, 13⟩
  | .e5m2 => ⟨3, 15, 8, true, 0⟩
  | .e4m3 => ⟨4, 7, 8, true, 0⟩
  | .e3m4 => ⟨5, 3, 8, true, 0⟩
  | .e3m2 => ⟨3, 3, 6, true, 0⟩
  | .e2m3 => ⟨4, 1, 6, true, 0⟩
  | .e2m1 => ⟨2, 1, 4, true, 0⟩
  | _ => ⟨24, 127, 32, false, 0⟩

namespace FP
/-- Exponent of the smallest normal. -/
def emin (f : FP) : Int := 1 - (f.bias : Int)
/-- Exponent of the smallest subnormal. -/
def qmin (f : FP) : Int := f.emin - ((f.prec : Int) - 1)
/-- 2^(p−1), the weight of the exponent field within a code. -/
def half (f : FP) : Nat := 2 ^ (f.prec - 1)
/-- The code of the sign bit. -/
def signBit (f : FP) : Nat := 2 ^ (f.width - 1)
/-- The code of +∞ in an IEEE format. -/
def infCode (f : FP) : Nat := f.signBit - f.half
/-- The code of the largest finite magnitude. -/
def maxCode (f : FP) : Nat := if f.narrow then f.signBit - 1 else f.infCode - 1
/-- DefaultNaN (R127), or the NaN code of a narrow format (R128). -/
def nanCode (f : FP) : Nat := if f.narrow then f.signBit else f.infCode + f.half / 2
/-- A code placed in its layout. -/
def place (f : FP) (c : Nat) : Nat := c * 2 ^ f.pad
/-- The code within a layout. -/
def code (f : FP) (bits : Nat) : Nat := (bits / 2 ^ f.pad) % 2 ^ f.width
/-- A signed code; a narrow format has no −0. -/
def signed (f : FP) (neg : Bool) (mag : Nat) : Nat :=
  if neg && !(f.narrow && mag == 0) then f.signBit + mag else mag
end FP

/-- The value of a code of a float format (R127, R128). -/
def decodeF (m : Fmt) (bits : Nat) : Val :=
  let f := fpOf m
  let c := f.code bits
  let neg := decide (f.signBit ≤ c)
  let mag := c % f.signBit
  if f.narrow then
    if neg && mag == 0 then .nan false
    else if mag < f.half then .fin neg mag f.qmin
    else .fin neg (f.half + mag % f.half) (f.qmin + ((mag / f.half : Nat) : Int) - 1)
  else if f.infCode < mag then .nan (decide (mag < f.nanCode))
  else if mag = f.infCode then .inf neg
  else if mag < f.half then .fin neg mag f.qmin
  else .fin neg (f.half + mag % f.half) (f.qmin + ((mag / f.half : Nat) : Int) - 1)

/-- Whether a code is a subnormal. -/
def isSub (m : Fmt) (bits : Nat) : Bool :=
  let f := fpOf m
  let mag := f.code bits % f.signBit
  decide (0 < mag) && decide (mag < f.half)

/-- DefaultNaN of a format. -/
def nanBits (m : Fmt) : Nat := let f := fpOf m; f.place f.nanCode
/-- An infinity of an IEEE format. -/
def infBits (m : Fmt) (neg : Bool) : Nat := let f := fpOf m; f.place (f.signed neg f.infCode)
/-- A zero; +0 in a narrow format. -/
def zeroBits (m : Fmt) (neg : Bool) : Nat := let f := fpOf m; f.place (f.signed neg 0)
/-- The largest finite value of a sign. -/
def maxBits (m : Fmt) (neg : Bool) : Nat := let f := fpOf m; f.place (f.signed neg f.maxCode)

/-- Whether the magnitude k + rest, with the rest given as its half bit and what lies below, rounds up (Table 35). -/
def roundsUp (rm : Rnd) (neg odd half rest : Bool) : Bool :=
  match rm with
  | .rn | .dyn => half && (rest || odd)
  | .rz => false
  | .ru => !neg && (half || rest)
  | .rd => neg && (half || rest)
  | .ra => half

/-- The magnitude (m + δ) × 2^e, δ in (0, 1) exactly when `st`, rounded to a multiple of 2^q: the multiple, and
whether it is inexact. -/
def roundAt (rm : Rnd) (neg : Bool) (m : Nat) (e : Int) (st : Bool) (q : Int) : Nat × Bool :=
  if q ≤ e then
    let k := m * 2 ^ (e - q).toNat
    (if roundsUp rm neg (k % 2 == 1) false st then k + 1 else k, st)
  else
    let d := (q - e).toNat
    let k := m / 2 ^ d
    let r := m % 2 ^ d
    let half := decide (2 ^ (d - 1) ≤ r)
    let rest := st || decide (r % 2 ^ (d - 1) ≠ 0)
    (if roundsUp rm neg (k % 2 == 1) half rest then k + 1 else k, half || rest)

/-- The outcome of a rounding: the bits, the flags, and whether the result is tiny (R134). -/
structure Rd where
  bits : Nat
  fl : Fl
  tiny : Bool
  deriving DecidableEq, Repr

/-- Round of a non-zero magnitude (m + δ) × 2^e with a sign (R134): OF and NX on overflow of an IEEE format, SAT and
NX for a narrow one when the magnitude lies beyond the largest (the example of R208), NX when inexact, UF when tiny and inexact. With `st`, m has more than p + 2 bits. -/
def roundF (fmt : Fmt) (rm : Rnd) (neg : Bool) (m : Nat) (e : Int) (st : Bool) : Rd :=
  let f := fpOf fmt
  let top : Int := (Nat.log2 m : Int) + e
  let qn : Int := top - ((f.prec : Int) - 1)
  let q := if qn < f.qmin then f.qmin else qn
  let kq := roundAt rm neg m e st q
  let c := (q - f.qmin).toNat * f.half + kq.1
  let tn := roundAt rm neg m e st qn
  let tiny := decide (top < f.emin) && !(decide (2 * f.half ≤ tn.1) && decide (top + 1 = f.emin))
  if f.narrow && decide (f.maxCode < (q - f.qmin).toNat * f.half + (roundAt .ru false m e st q).1) then
    ⟨f.place (f.signed neg f.maxCode), Fl.sat ||| Fl.nx, false⟩
  else if f.maxCode < c then
    let toInf := match rm with
      | .rn | .dyn | .ra => true
      | .rz => false
      | .ru => !neg
      | .rd => neg
    ⟨f.place (f.signed neg (if toInf then f.infCode else f.maxCode)), Fl.ovf ||| Fl.nx, false⟩
  else ⟨f.place (f.signed neg c), Fl.when kq.2 Fl.nx ||| Fl.when (tiny && kq.2) Fl.uf, tiny⟩

/-! ### %fmode (Table 36) -/

/-- The rounding mode of an RM code; codes 101 to 111 are never held. -/
def rmOfCode (n : Nat) : Rnd :=
  match n with
  | 1 => .rz
  | 2 => .ru
  | 3 => .rd
  | 4 => .ra
  | _ => .rn

/-- The mode in force: RND, or RM of %fmode (R175). -/
def modeOf (fmode : W32) (r : Rnd) : Rnd :=
  match r with
  | .dyn => rmOfCode (fmode.toNat % 8)
  | r => r

/-- The class of a format in %fmode: 0 for 64-bit, 1 for 32-bit, 2 for 16-bit, 3 for narrow. -/
def flushClass (m : Fmt) : Nat :=
  match m with
  | .f64 | .c128 | .dd => 0
  | .f32 | .c64 => 1
  | .f16 | .e8m7 | .e8m10 => 2
  | _ => 3

/-- FlushIn of an operand (R136): a subnormal reads as zero of its sign. -/
def flushIn (fmode : W32) (m : Fmt) (bits : Nat) : Val :=
  match decodeF m bits with
  | .fin neg k e => if fmode.getLsbD (4 + flushClass m) && isSub m bits then .fin (neg && !(fpOf m).narrow) 0 e else .fin neg k e
  | v => v

/-- FlushR of a rounded result (R136): a tiny result becomes zero of its sign, with UF and NX. -/
def flushR (fmode : W32) (m : Fmt) (neg : Bool) (r : Rd) : Nat × Fl :=
  if r.tiny && fmode.getLsbD (8 + flushClass m) then (zeroBits m neg, Fl.uf ||| Fl.nx) else (r.bits, r.fl)

/-- Round then flush a value with a sign and a magnitude; an exact zero takes the given sign. -/
def roundFlush (fmode : W32) (m : Fmt) (rm : Rnd) (neg : Bool) (k : Nat) (e : Int) (st : Bool) : Nat × Fl :=
  if k == 0 && !st then (zeroBits m neg, 0) else flushR fmode m neg (roundF m rm neg k e st)

/-! ### Exact arithmetic on dyadic numbers -/

/-- A signed dyadic number n × 2^e. -/
structure Dy where
  n : Int
  e : Int
  deriving DecidableEq, Repr

namespace Dy
/-- The number n at a lower or equal exponent. -/
def at_ (x : Dy) (e : Int) : Int := x.n * 2 ^ (x.e - e).toNat
def add (x y : Dy) : Dy := let e := min x.e y.e; ⟨x.at_ e + y.at_ e, e⟩
def neg (x : Dy) : Dy := ⟨-x.n, x.e⟩
def sub (x y : Dy) : Dy := x.add y.neg
def mul (x y : Dy) : Dy := ⟨x.n * y.n, x.e + y.e⟩
def ofInt (n : Int) : Dy := ⟨n, 0⟩
def isZero (x : Dy) : Bool := x.n == 0
/-- x < y. -/
def lt (x y : Dy) : Bool := let e := min x.e y.e; decide (x.at_ e < y.at_ e)
def eq (x y : Dy) : Bool := let e := min x.e y.e; decide (x.at_ e = y.at_ e)
end Dy

/-- The dyadic number of a finite value. -/
def dyOf (neg : Bool) (m : Nat) (e : Int) : Dy := ⟨if neg then -(m : Int) else m, e⟩

/-- Whether a value is a NaN. -/
def Val.isNan : Val → Bool
  | .nan _ => true
  | _ => false
/-- Whether it is a signalling NaN. -/
def Val.isSig : Val → Bool
  | .nan s => s
  | _ => false
def Val.isInf : Val → Bool
  | .inf _ => true
  | _ => false
def Val.isZero : Val → Bool
  | .fin _ m _ => m == 0
  | _ => false
/-- The sign of a value that is no NaN. -/
def Val.neg? : Val → Bool
  | .nan _ => false
  | .inf n => n
  | .fin n _ _ => n
/-- The dyadic number of a finite value, 0 otherwise. -/
def Val.dy : Val → Dy
  | .fin n m e => dyOf n m e
  | _ => ⟨0, 0⟩
/-- −v. -/
def Val.negate : Val → Val
  | .nan s => .nan s
  | .inf n => .inf (!n)
  | .fin n m e => .fin (!n) m e

/-! ### FArith (R205) -/

/-- The operations of FArith. -/
inductive FOp where
  | add | sub | mul | fma | div | sqrt | scale
  deriving DecidableEq, Repr

/-- The integer square root by bits: the largest r of at most `n` bits with r × r ≤ x, above a prefix. -/
def isqrtGo (x : Nat) : Nat → Nat → Nat
  | 0, r => r
  | n + 1, r => if (r + 2 ^ n) * (r + 2 ^ n) ≤ x then isqrtGo x n (r + 2 ^ n) else isqrtGo x n r

/-- floor(√x). -/
def isqrt (x : Nat) : Nat := isqrtGo x (Nat.log2 x / 2 + 1) 0

/-- DefaultNaN with NV when `inv`. -/
def nanOut (m : Fmt) (inv : Bool) : Nat × Fl := (nanBits m, Fl.when inv Fl.nv)

/-- A sum of finite or infinite values, with the rule for exact zeros (R205, R134). -/
def addVal (fmode : W32) (m : Fmt) (rm : Rnd) (x y : Val) : Nat × Fl :=
  match x, y with
  | .inf n, .inf k => if n = k then (infBits m n, 0) else nanOut m true
  | .inf n, _ => (infBits m n, 0)
  | _, .inf n => (infBits m n, 0)
  | x, y =>
    let s := x.dy.add y.dy
    if s.n = 0 then
      (zeroBits m (if x.isZero && y.isZero && x.neg? == y.neg? then x.neg? else rm == .rd), 0)
    else roundFlush fmode m rm (decide (s.n < 0)) s.n.natAbs s.e false

/-- A product as a value: the sign is the XOR of the signs. -/
def mulVal (x y : Val) : Val :=
  match x, y with
  | .fin a m e, .fin b k f => .fin (a != b) (m * k) (e + f)
  | x, y => .inf (x.neg? != y.neg?)

/-- FArith of R205 for two or three operands already read under FlushIn (`scale` takes its count as `b`). -/
def farith (fmode : W32) (m : Fmt) (rm : Rnd) (op : FOp) (x y z : Val) (b : Int) : Nat × Fl :=
  let uses : List Val := match op with
    | .add | .sub | .mul | .div => [x, y]
    | .fma => [x, y, z]
    | .sqrt | .scale => [x]
  let sig := uses.any Val.isSig
  if uses.any Val.isNan then nanOut m sig
  else match op with
  | .add => addVal fmode m rm x y
  | .sub => addVal fmode m rm x y.negate
  | .mul =>
    if (x.isZero && y.isInf) || (x.isInf && y.isZero) then nanOut m true
    else (match mulVal x y with
      | .fin n k e => roundFlush fmode m rm n k e false
      | v => (infBits m v.neg?, 0))
  | .fma =>
    if (x.isZero && y.isInf) || (x.isInf && y.isZero) then nanOut m true
    else addVal fmode m rm (mulVal x y) z
  | .div =>
    let n := x.neg? != y.neg?
    if (x.isZero && y.isZero) || (x.isInf && y.isInf) then nanOut m true
    else if x.isInf then (infBits m n, 0)
    else if y.isInf then (zeroBits m n, 0)
    else if y.isZero then (infBits m n, Fl.dz)
    else (match x, y with
      | .fin _ a e, .fin _ c f =>
        if a == 0 then (zeroBits m n, 0)
        else
          let q := (a * 2 ^ 128) / c
          roundFlush fmode m rm n q (e - f - 128) (decide ((a * 2 ^ 128) % c ≠ 0))
      | _, _ => (zeroBits m n, 0))
  | .sqrt =>
    (match x with
      | .fin n a e =>
        if a == 0 then (zeroBits m n, 0)
        else if n then nanOut m true
        else
          let odd := e % 2 ≠ 0
          let a' := (if odd then a * 2 else a) * 2 ^ 256
          let e' := (if odd then e - 1 else e) - 256
          let r := isqrt a'
          roundFlush fmode m rm false r (e' / 2) (decide (r * r ≠ a'))
      | .inf n => if n then nanOut m true else (infBits m false, 0)
      | .nan _ => nanOut m false)
  | .scale =>
    (match x with
      | .fin n a e => if a == 0 then (zeroBits m n, 0) else roundFlush fmode m rm n a (e + b) false
      | .inf n => (infBits m n, 0)
      | .nan _ => nanOut m false)

/-! ### TotalOrder, min and max (R140, R141) -/

/-- A key that orders the codes of an IEEE format by totalOrder, and of a narrow one numerically with NaN last. -/
def orderKey (m : Fmt) (bits : Nat) : Int :=
  let f := fpOf m
  let c := f.code bits
  let mag := c % f.signBit
  if f.narrow then
    if c = f.signBit then (f.signBit : Int) else if f.signBit ≤ c then -(mag : Int) else mag
  else if f.signBit ≤ c then -(mag : Int) - 1 else mag

/-- TotalOrder(a, b). -/
def totalLe (m : Fmt) (a b : Nat) : Bool := decide (orderKey m a ≤ orderKey m b)

/-- The operand as a result: bits [12:0] of E8M10 are written as zero (R206). -/
def cleanBits (m : Fmt) (x : Nat) : Nat := let f := fpOf m; f.place (f.code x)

def minBits (m : Fmt) (a b : Nat) : Nat := cleanBits m (if totalLe m a b then a else b)
def maxBitsOf (m : Fmt) (a b : Nat) : Nat := cleanBits m (if totalLe m a b then b else a)

/-- The numeric order of two values that are no NaN: −1, 0 or 1. -/
def cmpVal (x y : Val) : Int :=
  match x, y with
  | .inf a, .inf b => if a = b then 0 else if a then -1 else 1
  | .inf a, _ => if a then -1 else 1
  | _, .inf b => if b then 1 else -1
  | x, y => if x.dy.lt y.dy then -1 else if y.dy.lt x.dy then 1 else 0

/-! ### Integers (R187) -/

/-- The integer of `w` low bits, signed or not. -/
def intOf (signed : Bool) (w x : Nat) : Int :=
  let k := x % 2 ^ w
  if signed && decide (2 ^ (w - 1) ≤ k) then (k : Int) - 2 ^ w else k

/-- The `w` bits of an integer. -/
def bitsOf (w : Nat) (x : Int) : Nat := (x % (2 ^ w : Int)).toNat

/-- The least and the greatest integer of a type. -/
def loOf (signed : Bool) (w : Nat) : Int := if signed then -(2 ^ (w - 1) : Int) else 0
def hiOf (signed : Bool) (w : Nat) : Int := if signed then 2 ^ (w - 1) - 1 else 2 ^ w - 1

/-- IntResult of R187. -/
def intResult (ty : Ty) (sat : Bool) (x : Int) : Nat × Fl :=
  let hi := hiOf ty.signed ty.bits
  let lo := loOf ty.signed ty.bits
  if sat && decide (hi < x) then (bitsOf ty.bits hi, Fl.sat)
  else if sat && decide (x < lo) then (bitsOf ty.bits lo, Fl.sat)
  else (bitsOf ty.bits x, 0)

/-! ### Float constants (R170, R172) -/

/-- 1/3, ln 2 and π cut to 200 fraction bits: their nearest value in every format is that of the exact constant, and
they lie strictly below it. -/
def thirdBits : Nat := 2 ^ 200 / 3
def ln2Bits : Nat := 1113844574712631719546256151097547306333272293549090750737802
def piBits : Nat := 5048344754617993871973410141242436836214643421488662971535368

/-- Float constant n as (negative, m, e, inexact). -/
def floatConst (n : Nat) : Bool × Nat × Int × Bool :=
  match n with
  | 0 => (false, 0, 0, false)
  | 1 => (false, 1, 0, false)
  | 2 => (true, 1, 0, false)
  | 3 => (false, 1, -1, false)
  | 4 => (true, 1, -1, false)
  | 5 => (false, 1, 1, false)
  | 6 => (true, 1, 1, false)
  | 7 => (false, 1, -2, false)
  | 8 => (false, 1, 2, false)
  | 9 => (false, 1, -3, false)
  | 10 => (false, 1, 3, false)
  | 11 => (false, 10, 0, false)
  | 12 => (false, 3, 0, false)
  | 13 => (false, thirdBits, -200, true)
  | 14 => (false, ln2Bits, -200, true)
  | _ => (false, piBits, -200, true)

/-- A float constant rounded once in RNE to a format; no flag (R172). -/
def floatConstBits (m : Fmt) (n : Nat) : Nat :=
  let c := floatConst n
  if c.2.1 = 0 then 0 else (roundF m .rn c.1 c.2.1 c.2.2.1 c.2.2.2).bits

/-! ### Random bits (R149) -/

/-- Mix of R149. -/
def mix (z : W64) : W64 :=
  let z := z + 0x9E3779B97F4A7C15
  let z := (z ^^^ (z >>> 30)) * 0xBF58476D1CE4E5B9
  let z := (z ^^^ (z >>> 27)) * 0x94D049BB133111EB
  z ^^^ (z >>> 31)

/-- Rand of R149, over the elements of the global block ID. -/
def randBits (gid : List Nat) (wave lane : Nat) (seed ctr : W64) : W64 :=
  let x := mix (seed ^^^ BitVec.ofNat 64 gid.length)
  let x := gid.foldl (fun x e => mix (x ^^^ BitVec.ofNat 64 e)) x
  let x := mix (x ^^^ (BitVec.ofNat 64 (wave * 256) ||| BitVec.ofNat 64 lane))
  mix (x ^^^ ctr)

end Sys2Proof.Machine
end

