-- ==== Sys2Proof/Config.lean ====
section
/-! DEFINITION. What an implementation fixes and the spec leaves open: free values (no body: nothing can evaluate
them) and the platform's public-key cryptography, which the spec names by standard only. The limits of Tables 5, 8 and 17 that
the model needs stand here as well. -/

namespace Sys2Proof

/-- %clock, a core cycle count (Table 45, Table 1): a free value for each draw of the counter State.free. -/
opaque Config.clockAt : Nat → W64

/-- The upper 64 bits that `st.w128` and `stn.w128` store from a latch entry of 64 bits: no rule gives them; by R1 a
function of that entry. -/
opaque Config.quadHigh : W64 → W64

/-- What `launch` leaves in D when no slot stands for the launch: no rule gives it; by R1 a function of the packet's
address. -/
opaque Config.freeWord : W64 → W64

/-- The 64-bit syndrome of an error the model raises itself: opaque under R398. -/
opaque Config.syndrome : Nat → W64

/-- ML-DSA-44 verification of a signature over a digest (R392): uninterpreted. -/
opaque Config.verify : List Byte → BitVec 256 → List Byte → Bool

/-- The identity key derived from the device secret and the image digest (R395): uninterpreted. -/
opaque Config.identityKey : BitVec 256 → BitVec 256 → BitVec 384

/-- The signature of an SPDM response by the identity key over a nonce (R394, R397): uninterpreted. -/
opaque Config.spdmSign : BitVec 384 → List Byte → List Byte

/-- The certificate chain of slot 0, from the Tereif root to the identity key, naming the digest (R394, R395). -/
opaque Config.certChain : BitVec 384 → BitVec 256 → List Byte

/-- The session secret of an SPDM key exchange (R394). -/
opaque Config.sessionKey : BitVec 384 → List Byte → BitVec 256

/-- AES-256-GCM of an SPDM session (R394): the ciphertext of a message under a session key and its number, and the tag that
authenticates it. -/
opaque Config.seal : BitVec 256 → Nat → List Byte → List Byte
opaque Config.sealTag : BitVec 256 → Nat → List Byte → List Byte

/-- POOLCFG.BASE as the firmware writes it at boot (Table 110), bits [51:30]. -/
opaque Config.poolBase : Nat → BitVec 22

/-- The boot ROM's version (Table 123, index 1). -/
opaque Config.romVersion : W32

/-- The two fabricated cores of a core die that are not enabled: the position of the first, and of the second among
the 37 others (R31). -/
opaque Config.offCore : Nat → Fin 38 × Fin 37

/-- The enabled-core map of a core die (Table 123, index 4): 36 of its 38 fabricated cores (R5, R31). -/
def Config.coreMap (d : Nat) : BitVec 38 :=
  let a := (Config.offCore d).1.val
  let b := (Config.offCore d).2.val
  BitVec.allOnes 38 &&& ~~~(1#38 <<< a) &&& ~~~(1#38 <<< (if b < a then b else b + 1))

/-- The checkpoint stream whose transfer an uncorrected error strikes, if one does (WHY 6 of Table 129). -/
opaque Config.transferFails : Nat → Option (Fin 16)

/-- Whether blowing a fuse fails (result code 3 of R393). -/
opaque Config.fuseFails : Nat → Bool

/-- The first checkpoint stream that a storage endpoint or another package's reserve refuses, if it refuses one (R407). -/
opaque Config.refusedStream : Nat → Option (Fin 16)

/-- Where the storage that the expert engine reserves for replicas begins in its package's HBM, and the VA it is mapped at
(R291): in units of 64 KiB, of the 768 GiB of Table 3 and of the 2^56 bytes of virtual addresses. -/
opaque Config.replicaPa : Fin 12582912
opaque Config.replicaVa : Fin 1099511627776

/-- The die that homes a device line (R67: a fixed hash of its address that no rule gives), modulo `Config.dies`. -/
opaque Config.homeDie : Nat → Nat

/-- The die that transports a wave's messages to host memory and to the package's ports (R89): no rule gives it. -/
opaque Config.portDie : Nat

/-- The package whose memory holds a 64 KiB page of device memory beyond this package's own HBM, if one does (R67, log 82). -/
opaque Config.memPackage : Nat → Option (BitVec 12)

/-- The bank of a sluice home that holds an ordered-round request (R82: each sluice home has one holding buffer; an
L2 slice of the line's die, by a hash that no rule gives), of the 12 of its die. -/
opaque Config.homeSlice : Nat → Nat

/-- Core dies of a package. -/
def Config.dies : Nat := 8
/-- Bytes of HBM of a package, 16 stacks of 48 GiB (Table 3): physical addresses from 0 (log 82). -/
def Config.hbmBytes : Nat := 768 * 2 ^ 30
/-- Enabled cores of a core die (R31). -/
def Config.cores : Nat := 36
/-- Wave slots of a core (Table 8). -/
def Config.waveSlots : Nat := 48
/-- Vector register file of a core in units of 8 registers of one wave, 1 KiB (Table 8). -/
def Config.vUnits : Nat := 1024
/-- Distribution register file in units of 4 registers of one wave, 8 KiB (Table 8). -/
def Config.dUnits : Nat := 32
/-- Matrix accumulator store in KiB (Table 8). -/
def Config.accKib : Nat := 512
/-- Copy tags of a core (R74). -/
def Config.tags : Nat := 64
/-- Entries of a die's wait-for table (R111). -/
def Config.waitEntries : Nat := 4096
/-- Entries of a die's fault buffer (R371). -/
def Config.faultEntries : Nat := 512
/-- Entries of a context's pending table (R348). -/
def Config.pendingEntries : Nat := 4096
/-- Launch slots of a wave (R241). -/
def Config.launchSlots : Nat := 2048
/-- Memory words a wave may have in flight (R324). -/
def Config.memWords : Nat := 32
/-- Requests of one holding buffer (R82). -/
def Config.holdEntries : Nat := 16
/-- Bytes of a spill area that one spilled request takes, and the bytes of a die's two spill areas (R75, R82, log 32). -/
def Config.spillRecord : Nat := 64
def Config.spillNear : Nat := 1048576
def Config.spillFar : Nat := 256 * 1048576
/-- The offset of the mooring region in a die's shared memory (R290). -/
def Config.mooringOff : Nat := 27 * 1048576
/-- The offset of the spill region (R75). -/
def Config.spillOff : Nat := 31 * 1048576
/-- Bytes of one die's shared memory (R75). -/
def Config.dsmBytes : Nat := 32 * 1048576

end Sys2Proof
end

