-- ==== Sys2Proof/Machine/State.lean ====
section
/-! DEFINITION. The state of one W9 package as plain data, faults and refusals, and the state after reset.
The wave that issues and its block stand apart from the others (`State.w`, `State.b`), so that what a word changes
is a field of the state; INVENTORY.md lists every field with its rule and its reset value. -/

namespace Sys2Proof.Machine

/-- How a step can stop with a fault. -/
inductive Fault where
  /-- `exec` was asked to run a word of a wave when no wave is running: raised by every word's meaning, never by
  `step`. Safe. -/
  | noWave
  deriving DecidableEq, Repr

/-- How a step can be refused. -/
inductive Refusal where
  /-- An instruction whose meaning the model does not hold yet: raised by an arm of `exec`. Safe. -/
  | notModelled (mnemonic : String)
  deriving DecidableEq, Repr

/-! ### Parts of a wave -/

/-- A crucible (Table 38). -/
structure Cruc where
  nan : Bool
  pinf : Bool
  ninf : Bool
  ovf : Bool
  seen : Bool
  neg0 : Bool
  acc : BitVec 4344
  deriving DecidableEq, Repr

/-- The reset value of a crucible (R143). -/
def Cruc.zero : Cruc := ⟨false, false, false, false, false, false, 0⟩

/-- What a side-pound tile keeps beside its data: the state word (Table 69), the bases of the operation, its
strides and the representative lane's values of them (R253, R269). -/
structure Sh where
  st : W64
  abase : W64
  bbase : W64
  strides : W64
  deriving DecidableEq, Repr

/-- An EMPTY side-pound tile (R253). -/
def Sh.empty : Sh := ⟨0, 0, 0, 0⟩

/-- One lane of a distribution register at a wave's start: the point mass at +0 (R273, Table 75). -/
def dReset : BitVec 512 :=
  BitVec.ofNat 512 ((0x3F800000 * 2 ^ 32) +
    0x7FC00000 * (2 ^ 64 + 2 ^ 128 + 2 ^ 192 + 2 ^ 256 + 2 ^ 320 + 2 ^ 384 + 2 ^ 448))

/-- The register files of a wave. Keys: v and d, 32 × register + lane; i, 32 × register + lane; acc and shd, byte
numbers (16 × quarter + tile) × 1,024 + byte and tile × 1,024 + byte; lat, 32 × entry + lane. -/
structure Regs where
  s : SMap W32
  v : SMap W32
  p : SMap Mask
  i : SMap (BitVec 8)
  c : SMap Cruc
  d : SMap (BitVec 512)
  dtag : SMap (BitVec 16)
  acc : Memory
  shd : Memory
  sh : SMap Sh
  lat : SMap W64
  deriving DecidableEq, Repr

/-- The special registers that a wave holds (Table 45) and its hidden counter ORIGINS (R285). -/
structure Spec where
  fmode : W32
  fflags : W32
  cprog : W32
  mrow : W32
  ientry : W32
  wbase : W32
  rng : SMap W64
  origins : BitVec 5
  trapinfo : W64
  trapaddr : W64
  deriving DecidableEq, Repr

/-- Bytes by virtual address that stand over the content of a parent view (R39). -/
abbrev Overlay := List Host.Cell

/-- A view: its bytes, the lines it has written, its own partials, the partials it inherited (the P of R54) and its
twin-pool charge (Table 15). -/
structure View where
  bytes : Overlay
  lines : SMap Unit
  parts : SMap Part
  vis : SMap Part
  charge : Nat
  deriving DecidableEq, Repr

/-- A view nothing has touched. -/
def View.empty : View := ⟨[], [], [], [], 0⟩

/-- A trap to be raised: cause, %trapinfo, %trapaddr (Table 115); for one taken between words that belongs to a
word (0x07, 0x12), that word with its run and active lanes; the extension area of its frame (R118). -/
structure Trap where
  cause : Nat
  info : W64
  addr : W64
  at_ : Option (W64 × Mask × Mask)
  ext : List Byte
  deriving DecidableEq, Repr

/-- A trap of the word that is issued. -/
def Trap.of (cause : Nat) (info addr : W64) : Trap := ⟨cause, info, addr, none, []⟩

/-- What one lane or wave of a parked group waits for (R24, R233). -/
inductive WaitKind where
  | bar | flag | acq | pass | push | pop | free | tag | count
  deriving DecidableEq, Repr

/-- One wait of a parked group: the object, its argument (phase, target, sequence, participant, tag mask or slot),
where its result goes, the payload of a push (of a pop, as many words as it returns), in `aux` for a queue operation whether it was found bad (R109), whether it has an entry in the wait-for table, and whether it is
satisfied, with what it returns. -/
structure WaitR where
  kind : WaitKind
  lane : Nat
  loc : Nat
  va : W64
  arg : W64
  aux : Nat
  dst : Opnd
  mask : Mask
  pay : List W32
  reg : Bool
  done : Bool
  res : List W32
  /-- the address of the wait instruction -/
  word : W64
  deriving DecidableEq, Repr

/-- A parked group (R24): its lanes, its waits, whether it stands at the wait of a `barw` after its arrival, and the
values its word pushes into its lanes' latches when it retires (R176). -/
structure Group where
  mask : Mask
  waits : List WaitR
  barw : Bool
  hold : SMap W64
  deriving DecidableEq, Repr

/-- An entry of the outstanding-arrival set (R99): the barrier, the phase of the arrival, the participant index,
the barrier instruction's address with its run and active lanes (R41), and, once that phase has closed, its HIGH. -/
structure Arr where
  loc : Nat
  va : W64
  dm : Bool
  phase : W64
  p : W32
  word : W64
  run : Mask
  act : Mask
  closed : Option W32
  /-- its wait was withdrawn by a deadlock trap: the next `barw` on it only waits (R117, R379) -/
  again : Bool
  deriving DecidableEq, Repr

/-- An idempotent region (R248): entry PC, %fflags and %rngctr at the entry, what a strike restores of held
effects (the view, the scratchpad bytes it overwrote, newest first, the recorded-mode count and CRC) and of the PC table at
the entry, and whether it has closed and waits for its release. -/
structure Region where
  entry : W64
  pc : SMap W64
  age : SMap Nat
  exited : Mask
  fflags : W32
  rng : SMap W64
  view : View
  held : View
  undo : List Host.Cell
  stores : Nat
  crc : W64
  closed : Bool
  deriving DecidableEq, Repr

/-- A pin of a pin window (R222): page address, page size, and W. -/
structure Pin where
  page : Nat
  size : Nat
  w : Bool
  deriving DecidableEq, Repr

/-- A trap frame (Table 116). -/
structure Frame where
  va : W64
  cause : Nat
  info : W64
  addr : W64
  word : W64
  run : Mask
  active : Mask
  ientry : W32
  promo : W64
  burst : Nat
  pc : SMap W64
  age : SMap Nat
  groups : List Group
  lat : SMap W64
  ext : List Byte
  /-- taken between words: `tret` does not step past the word -/
  between : Bool
  /-- taken at a quarter-level word, which `tret` ends where it steps past it (R260) -/
  quarter : Bool
  deriving DecidableEq, Repr

/-- A wave parked on an entry of its die's fault buffer (R371): die and entry, and the trap it takes if the driver
answers NR. -/
structure FaultWait where
  die : Nat
  entry : Nat
  trap : Trap
  deriving DecidableEq, Repr

/-- What a wave is doing. -/
inductive WaveSt where
  /-- no wave -/
  | absent
  | running
  /-- suspended from its fork until its `join` can complete (R238) -/
  | forked
  /-- all lanes exited, launches outstanding (R243) -/
  | ending
  | ended
  deriving DecidableEq, Repr

/-- A wave (Table 114, R376). Absent keys of `pc` and `age` read 0. -/
structure Wave where
  blk : Nat
  idx : Nat
  st : WaveSt
  /-- suspended by an escalation, a debugger, a save or a tow (R380 to R382) -/
  halted : Bool
  yielded : Bool
  pc : SMap W64
  age : SMap Nat
  exited : Mask
  groups : List Group
  promo : W64
  burst : Nat
  r : Regs
  sp : Spec
  frames : List Frame
  pend : List Trap
  region : Option Region
  /-- issue events left in the open pin window, and its pins -/
  window : Option Nat
  pins : List Pin
  arrivals : List Arr
  /-- locks whose grant the wave holds (R106, R107, R110): the line, and whether it is a free lock -/
  grants : List (Nat × Bool)
  refs : SMap (W32 × Nat)
  fork : Option Nat
  /-- launches outstanding by slot (group numbers) and the counter words of read ones -/
  slots : SMap Nat
  read : SMap W64
  view : View
  stores : Nat
  crc : W64
  fwait : Option FaultWait
  /-- the landing slot of a migrated wave (R244): die, core and slot -/
  place : Option (Nat × Nat × Nat)
  /-- destinations not yet delivered (R322): operands of this wave, with the lane they belong to -/
  pending : List (Opnd × Nat)
  /-- G7 words whose issue has begun and waits to go on (R227): address, word number, and for `cpy` the control block it
  read -/
  begun : List (W64 × Nat × List Byte)
  /-- accumulated time past which the stall watchdog fires is an event; the stall it names -/
  stall : Option Nat
  deriving DecidableEq, Repr

/-- Registers of a wave before it starts: all zero but the reset of Table 99. -/
def Regs.zero : Regs := ⟨[], [], [], [], [], [], [], [], [], [], []⟩
/-- Special registers of a wave before it starts. -/
def Spec.zero : Spec := ⟨0, 0, 0, 0, 0, 0, [], 0, 0, 0⟩

/-- No wave. -/
def Wave.absent : Wave :=
  { blk := 0, idx := 0, st := .absent, halted := false, yielded := false, pc := [], age := [], exited := 0,
    groups := [], promo := 0, burst := 0, r := .zero, sp := .zero, frames := [], pend := [], region := none,
    window := none, pins := [], arrivals := [], grants := [], refs := [], fork := none, slots := [], read := [], view := .empty,
    stores := 0, crc := 0, fwait := none, place := none, pending := [], begun := [], stall := none }

/-! ### Parts of a block -/

/-- The allocation of a wave or block (R29). -/
structure Alloc where
  waves : Nat
  vregs : Nat
  dregs : Nat
  acct : Nat
  sht : Nat
  scratch : Nat
  tags : Nat
  deriving DecidableEq, Repr

/-- Where a block stands. -/
inductive BlockSt where
  | absent
  /-- created or restarted, not placed -/
  | waiting
  | resident
  /-- saved by pre-emption (R375) -/
  | saved
  | ended
  deriving DecidableEq, Repr

/-- The block barrier (R98, R102). `pre` counts waves that ended before arriving for the open phase. -/
structure Bar where
  npart : Nat
  ovr : Bool
  phase : W64
  arrived : Nat
  high : W32
  expect : W64
  landed : W64
  landnext : W64
  deriving DecidableEq, Repr

/-- A conflict record: address, %trapinfo (R51). -/
structure Conflict where
  addr : W64
  info : W64
  deriving DecidableEq, Repr

/-- A block: identity (R12, R13), allocation, placement, priorities, views, scratchpad with its race tags (R70),
copy tags (R74), block barrier (R102) and residency. Tag maps: WTAG holds wave + 1; RTAG wave + 1, or 33 for MANY;
PEND-W and PEND-R hold how many copies are pending on the sector. -/
structure Block where
  handle : Nat
  ctx : Nat
  grp : Nat
  mem : Nat
  gid : List Nat
  bix : W32
  nblk : W32
  cix : W32
  ncld : W32
  job : W32
  phase : W32
  graph : W32
  launch : W32
  al : Alloc
  entry : W64
  args : W64
  desc : W64
  die : Nat
  core : Nat
  slots : List Nat
  home : Nat
  ownPrio : W32
  prio : W32
  st : BlockSt
  draining : Bool
  /-- its waves are stopped for a save (R375); the driver pre-empts it (R374) -/
  stopping : Bool
  evicted : Bool
  /-- the group whose waiting block takes its place when it is saved (R360) -/
  heir : Option Nat
  /-- the draw of the cycle counter at its start (R374) -/
  cycles : Nat
  /-- where its save record stands in the save area, and the record as the W9 wrote it (R375) -/
  savePlace : Nat
  image : List Byte
  start : Overlay
  vis : SMap Part
  view : Overlay
  parts : SMap Part
  charge : Nat
  sc : Memory
  wtag : SMap Nat
  rtag : SMap Nat
  pendW : SMap Nat
  pendR : SMap Nat
  race : Option Trap
  tagready : W64
  inflight : SMap Nat
  bar : Bar
  carried : List Nat
  /-- it has issued a sluice, wharf, `launch` or `cancel` operation since its start (R63) -/
  live : Bool
  cancelled : Bool
  failed : Bool
  deriving DecidableEq, Repr

/-- A closed, empty barrier. -/
def Bar.zero : Bar := ⟨0, false, 0, 0, 0xFFFFFFFF, 0, 0, 0⟩
/-- No allocation. -/
def Alloc.zero : Alloc := ⟨0, 0, 0, 0, 0, 0, 0⟩

/-- No block. -/
def Block.absent : Block :=
  { handle := 0, ctx := 0, grp := 0, mem := 0, gid := [], bix := 0, nblk := 0, cix := 0, ncld := 0, job := 0, phase := 0,
    graph := 0, launch := 0, al := .zero, entry := 0, args := 0, desc := 0, die := 0, core := 0, slots := [], home := 0,
    ownPrio := 0, prio := 0, st := .absent, draining := false, stopping := false, evicted := false, heir := none, cycles := 0, savePlace := 0, image := [], start := [], vis := [],
    view := [], parts := [], charge := 0, sc := [], wtag := [], rtag := [], pendW := [], pendR := [], race := none,
    tagready := 0, inflight := [], bar := .zero, carried := [], live := false, cancelled := false, failed := false }

/-! ### Levels -/

/-- The result of an ended member of an instance: its view over the instance's starting view. -/
structure Member where
  idx : Nat
  start : Overlay
  view : Overlay
  parts : SMap Part
  carried : List Nat
  state : BitVec 2
  deriving DecidableEq, Repr

/-- What a group of blocks is: a launch of the host, a launch of a device wave, a fork. -/
inductive GrpKind where
  | host | device | fork
  deriving DecidableEq, Repr

/-- Where a group of blocks stands. -/
inductive GrpSt where
  /-- in the pending table, or its start not yet due -/
  | pending
  | running
  /-- every member ended and folded -/
  | ended
  deriving DecidableEq, Repr

/-- A launch or a fork group (R11, R16, R42, Table 10, Table 105). -/
structure Grp where
  kind : GrpKind
  /-- it performs a copy packet -/
  copy : Bool
  ctx : Nat
  st : GrpSt
  /-- forking or launching wave, and its launch slot -/
  pblk : Nat
  pwv : Nat
  slot : Nat
  gid : List Nat
  nmem : Nat
  al : Alloc
  entry : W64
  args : W64
  desc : W64
  fmode : W32
  prio : W32
  idem : Bool
  stage : Nat
  qin : W64
  dsm : Nat
  dsmOff : Nat
  progress : Nat
  inhFirst : Nat
  inhCount : Nat
  job : W32
  phase : W32
  graph : W32
  launch : W32
  gend : Bool
  pend : Bool
  jend : Bool
  cva : W64
  preds : List Nat
  chain : Option Nat
  /-- a child's copies of the forker's identification registers (R12) -/
  pbix : W32
  pnblk : W32
  home : Nat
  start : Overlay
  vis : SMap Part
  /-- members created so far on each die, and in all; the members created, and those ended cancelled (R34, R35) -/
  next : SMap Nat
  made : SMap Unit
  lost : SMap Unit
  ended : Nat
  members : List Member
  images : SMap (SMap W32)
  /-- where its blocks ran: die, core and wave slots (R35) -/
  places : SMap (Nat × Nat × List Nat)
  result : Overlay
  parts : SMap Part
  state : BitVec 2
  done : W32
  confl : Option Conflict
  code : Nat
  cancelled : Bool
  failed : Bool
  quota : Nat
  charge : Nat
  reserved : Nat
  ranges : List (Nat × List Byte)
  execs : Nat
  /-- the outcome `join` reports (Table 12), once known: CODE and POOL -/
  outcome : Option (Nat × Bool)
  deriving DecidableEq, Repr

/-- A graph, phase or job of a context (R353): its number, whether its last member was submitted, members ended,
results, counter. `lvl` 3 graph, 4 phase, 5 job. -/
structure Lev where
  ctx : Nat
  lvl : Nat
  job : W32
  phase : W32
  graph : W32
  last : Bool
  launches : List Nat
  ended : Nat
  members : List Member
  result : Overlay
  parts : SMap Part
  state : BitVec 2
  done : W32
  confl : Option Conflict
  cancelled : Bool
  finished : Bool
  deriving DecidableEq, Repr

/-! ### Memory-side units -/

/-- Where an engine element's bytes come from. -/
inductive Src where
  | data (l : List Byte)
  | view (va pa : Nat)
  | sc (off : Nat)
  | dm (loc : Nat)
  | dev (pa : Nat)
  | host (pa : Nat)
  deriving DecidableEq, Repr

/-- Where they go. -/
inductive Dst where
  | view (va : Nat)
  | sc (off : Nat)
  | dm (loc : Nat)
  | dev (pa : Nat)
  | host (pa : Nat)
  | reg (d : Opnd) (lane : Nat) (sz : Sz)
  deriving DecidableEq, Repr

/-- One element of a copy, gather or scatter command, with the virtual addresses of a global source and destination
(R370, R373), where they are global. -/
structure Elem where
  src : Src
  dst : Dst
  n : Nat
  sva : Option Nat
  dva : Option Nat
  deriving DecidableEq, Repr

/-- A command of the copy engine in flight (R91, R92, R226): the elements not yet landed, its tag, and the barrier
at which it counts bytes (0: the block barrier) with the `next` flag of R99. `word` names the memory word that issued it
(R324). With REL the bytes it has landed stay owed to the barrier until its release; `chan` is the message of its head
element on virtual channel 3 (R89): source die, destination die, and the number that orders the channel; `bva` is the VA
of a barrier on a sluice page (R370). -/
structure Cmd where
  id : Nat
  src : Nat
  word : Nat
  blk : Nat
  wv : Nat
  els : List Elem
  tag : Option Nat
  bar : Option Nat
  next : Bool
  rel : Bool
  owed : List Nat
  chan : Option (Nat × Nat × Nat)
  bva : Option Nat
  deriving DecidableEq, Repr

/-- A request of an ordered round or of an order gate (R80, R122): the issuer index, the object or location, the
operation, and where the old value goes. Its number is its sequence number on the channel from its die `src` to its
home (R89); `word` names the memory word that issued it (R324). -/
structure Req where
  id : Nat
  src : Nat
  word : Nat
  ctx : Nat
  blk : Nat
  wv : Nat
  lane : Nat
  index : List Nat
  /-- the identity field of the issuer (Table 28) -/
  ident : List Byte
  /-- round barrier and its phase; for a gate request 0 -/
  bar : Nat
  round : W64
  /-- the VA of a round barrier in device memory, whose translation the request uses (R370) -/
  bva : Option Nat
  loc : Nat
  va : W64
  op : AOp
  dt : DT
  b : W64
  c : W64
  dst : Opnd
  fmode : W32
  /-- at its home; spilled to a run, or, at an order gate, stopped by a full log (R122); the run in the HBM spill area
  (R82) -/
  held : Bool
  spilled : Bool
  far : Bool
  /-- it is an acquire (R85) -/
  acq : Bool
  /-- a free-lock acquire, not an `afree` -/
  lock : Bool
  deriving DecidableEq, Repr

/-- A return value on its way to a wave (R78, R138), on the channel from die `src` to die `dest` (R89); `acq`: the wave's
lane waits for it before its later live accesses (R85); `poison`: the poisoned location that its operation read at the home, where
it did (R401). -/
structure Reply where
  id : Nat
  src : Nat
  dest : Nat
  word : Nat
  acq : Bool
  blk : Nat
  wv : Nat
  lane : Nat
  dst : Opnd
  regs : List W32
  flags : Fl
  poison : Option Nat
  deriving DecidableEq, Repr

/-- The log position of a sluice line's order gate when replaying (R123): the chunks left. -/
structure Chunk where
  ident : List Byte
  lane : Nat
  count : Nat
  deriving DecidableEq, Repr

/-- The index a replay reads from the log area (R125): chunks by line VA, checkpoints by identity and count. -/
structure LogIndex where
  lines : SMap (List Chunk)
  checks : List (List Byte × Nat × W64)
  deriving DecidableEq, Repr

/-- An entry of a wait-for table (Table 26), with the VA that an edge record reports. -/
structure WaitEnt where
  die : Nat
  hold : Bool
  orig : BitVec 2
  kind : BitVec 4
  wv : Nat
  blk : Nat
  line : Nat
  sub : Nat
  arg : W32
  va : W64
  deriving DecidableEq, Repr

/-- An entry of a die's fault buffer (R371), and whether its record has been appended. -/
structure FaultEnt where
  die : Nat
  entry : Nat
  ctx : Nat
  va : W64
  kind : BitVec 8
  logged : Bool
  deriving DecidableEq, Repr

/-- What a core holds beside its blocks (R32, R362): split in bytes, and the forwarding entries of towed blocks, each with
the number from which on messages are newer than the tow. -/
structure Core where
  split : Nat
  fwd : List (Nat × Nat)
  deriving DecidableEq, Repr

/-- A core before its first block. -/
def Core.zero : Core := ⟨0, []⟩

/-- The virtual channels' messages a sweep waits for (R90): the probe of one waiting sweep, of its die's messages, all or
only those that stay on the die. `word` and `depth` tell the sweep: its address, and the wave's trap frames. -/
structure Probe where
  id : Nat
  die : Nat
  far : Bool
  blk : Nat
  wv : Nat
  word : W64
  depth : Nat
  returned : Bool
  deriving DecidableEq, Repr

/-- A page migration in progress (R373). -/
structure Migration where
  ctx : Nat
  va : W64
  oldPa : Nat
  newPa : Nat
  size : Nat
  /-- once the page has moved (step 4), the number from which on messages are newer than the new translation -/
  moved : Option Nat
  deriving DecidableEq, Repr

/-- A replica that a version adds (R295, R296): its expert, home VA, bytes, the die it is placed near, its VA. -/
structure XCopy where
  expert : Nat
  home : Nat
  len : Nat
  die : Nat
  va : Nat
  deriving DecidableEq, Repr

/-- Where a version switch stands (R296): before step 1's wait is over; storage reserved (steps 2 to 4); slots being
written (steps 5 and 6). -/
inductive SwitchSt where
  | waiting | copying | writing
  deriving DecidableEq, Repr

/-- A version switch of the expert engine (R296): version, the plan (an expert gains a replica near a die, or loses its
last), the bytes of the changed entries, the added replicas, the step, the next socket. -/
structure Switch where
  ver : W32
  plan : List (Nat × Option Nat)
  table : List (Nat × List Byte)
  copies : List XCopy
  st : SwitchSt
  next : Nat
  deriving DecidableEq, Repr

/-- A forwarding entry of a retired replica (R299): replica VA, home VA, bytes. -/
structure Grace where
  id : Nat
  rep : Nat
  home : Nat
  len : Nat
  deriving DecidableEq, Repr

/-- The expert placement engine (R289 to R300). Keys: loads 8,192 × die + expert, counts 4 × die + slot. -/
structure Expert where
  loads : SMap W32
  counts : SMap W32
  newest : SMap W32
  live : SMap W32
  switch : Option Switch
  grace : List Grace
  /-- ranges of retired replicas whose forwarding has ended (R299) -/
  dead : List (Nat × Nat)
  /-- the engine's own mappings of replica storage: VA, PA, bytes (R291) -/
  maps : List (Nat × Nat × Nat)
  fails : Nat
  deriving DecidableEq, Repr

/-! ### Contexts, host link, boot -/

/-- What a context holds beside its registers: the packets it has taken (R351), the log of its recorded mode, its
bytes as they stood at the start of its running phase where a live write has replaced them since (R39), its pool
charge, and its kill. -/
structure Ctx where
  /-- last accepted packet: (JOB, PHASE, GRAPH, LAUNCH); of the manifest (R397) JOB and FMODE of the first accepted packet of
  the newest job, the mode bits of the context's first, and FMIX -/
  last : Option (Nat × Nat × Nat × Nat)
  first : Option (Nat × Nat × Nat)
  fmix : Bool
  /-- a packet has been read after it that was not accepted (R405) -/
  readSince : Bool
  jobsEnded : List Nat
  cancelled : List (Nat × Nat × Nat × Nat × Nat)
  pcur : Option (Nat × Nat)
  shadow : Overlay
  log : Option LogIndex
  killing : Bool
  saving : Bool
  /-- replaying: the global block IDs of blocks that have ended (R123) -/
  gone : List (List Nat)
  deriving DecidableEq, Repr

/-- A context that has taken no packet. -/
def Ctx.zero : Ctx :=
  { last := none, first := none, fmix := false, readSince := false, jobsEnded := [], cancelled := [],
    pcur := none, shadow := [], log := none, killing := false, saving := false, gone := [] }

/-- What the package sends to the host or to another package. -/
inductive HostMsg where
  /-- MSI-X message of a function's vector (R388, R389) -/
  | msi (fn vec : Nat)
  | configRetry (req : Nat)
  | configDone (req : Nat)
  | unsupported (req : Nat)
  | readData (fn off : Nat) (data : List Byte)
  | regRead (fn off : Nat) (val : W64)
  | debugData (val : W64)
  | spdm (code : Nat) (body sig : List Byte)
  /-- a message of the SPDM session by its number, encrypted, with the tag that authenticates it (R394) -/
  | sealed (num : Nat) (data tag : List Byte)
  | stream (dst strm : Nat) (data : List Host.Cell)
  | refused (what : Nat)
  /-- a partial of a reduction window for the package that homes it (R95) -/
  | partial_ (w : WinPart)
  deriving DecidableEq, Repr

/-- The fuses of the package (R391 to R393): two key digests with their revoke fuses, minimum SVN, device secret. -/
structure Fuses where
  dig0 : BitVec 256
  dig1 : BitVec 256
  rev0 : Bool
  rev1 : Bool
  minSvn : W32
  secret : BitVec 256
  deriving DecidableEq, Repr

/-- How far the cold start has come (Table 121). -/
inductive BootSt where
  | off | reset | recovery | up
  deriving DecidableEq, Repr

/-- The management core and the security block (R390 to R397): boot state, flash slots and which one runs (`some false`: A),
recovery buffer, fuses, the running image, measurements, log2 of the size of PF 0's BAR 2, the SPDM session with the number of
its next message, and the IDE streams. -/
structure Mgmt where
  boot : BootSt
  slotA : Memory
  slotB : Memory
  active : Option Bool
  buffer : Memory
  fuses : Fuses
  romver : W32
  fwdig : BitVec 256
  svn : W32
  coremap : Memory
  idkey : BitVec 384
  bar2 : Nat
  spdmVer : Option Nat
  session : Option (BitVec 256)
  seq : Nat
  ide : SMap (List Byte)
  deriving DecidableEq, Repr

/-- A checkpoint in progress (R404 to R407): restore or save, context, report PA, the units and the streams of its image; the streams
that this package's own reserve has accepted. -/
structure Ckpt where
  restore : Bool
  ctx : Nat
  report : Nat
  peer : Nat
  store : Bool
  units : Nat
  streams : SMap (List Byte)
  taken : List Nat
  deriving DecidableEq, Repr

/-- A stream that the reserve holds (R404): the headers of its unit records, and where in device memory their contents stand, one
after another. -/
structure Stored where
  heads : List Byte
  base : Nat
  len : Nat
  deriving DecidableEq, Repr

/-- The pressure of a stage on a die (R360): P, R, and the intervals in succession in which every wave was parked in
`qpop`. -/
structure Press where
  p : Nat
  r : Nat
  starved : Nat
  deriving DecidableEq, Repr

/-- A stage without a resident block. -/
def Press.zero : Press := ⟨0, 0, 0⟩

/-! ### The machine -/

/-- The state of the package. -/
structure State where
  /-- the wave that issues, its block, and the run whose word is issued -/
  w : Wave
  b : Block
  run : Mask
  /-- every other wave (key 32 × handle + index) and block (key handle) -/
  waves : SMap Wave
  blocks : SMap Block
  grps : SMap Grp
  levs : SMap Lev
  ctxs : SMap Ctx
  /-- device memory by PA, host memory by bus address, die shared memory by 2^25 × die + offset -/
  mem : Memory
  hmem : Memory
  dsm : Memory
  poison : SMap Unit
  cmds : List Cmd
  reqs : List Req
  gate : List Req
  replies : List Reply
  wft : List WaitEnt
  faults : List FaultEnt
  cores : SMap Core
  probes : List Probe
  migration : Option Migration
  inval : Option (Nat × Nat × Nat)
  exp : Expert
  /-- PF BAR 0 registers by offset; VF BAR 0 registers by 2^16 × context + offset; narrower tables keep one
  8-byte word per entry -/
  pf : SMap W64
  vf : SMap W64
  tokens : SMap Int
  mgmt : Mgmt
  /-- stage pressure (R360): key 8 × group + die -/
  press : SMap Press
  ckpt : Option Ckpt
  /-- streams this package's reserve holds: key 16 × source + stream -/
  reserve : SMap Stored
  /-- partials of reduction windows on their way to the package that homes them (R95) -/
  windows : List WinPart
  pool : Nat
  handles : Nat
  ids : Nat
  /-- escalation records waiting for room in the ring (R380) -/
  escq : List (List Byte)
  hostOut : List HostMsg
  /-- the model's inputs: pending events, and which agent moves next -/
  inbox : List Instr
  sched : List Nat
  /-- the schedulers' turns (R28): 4 × core + scheduler of each die to 1 + the slot it served last, and the turn that
  comes next -/
  rr : SMap Nat
  rrAt : Nat
  /-- the model's counter that draws free values, and the count of steps -/
  free : Nat
  cycle : Nat
  deriving DecidableEq, Repr

/-- Everything the memories hold is in canonical form. -/
abbrev State.memWf (s : State) : Prop :=
  Memory.wf s.mem = true ∧ Memory.wf s.hmem = true ∧ Memory.wf s.dsm = true

/-- The expert engine at reset: no replica, version 0 live in slot 0 (Table 81). -/
def Expert.reset : Expert :=
  { loads := [], counts := [], newest := [], live := [(0, 0)], switch := none, grace := [], dead := [], maps := [], fails := 0 }

/-- The fuses of a part the spec gives no values for (log entry 5). -/
def Fuses.blank : Fuses := ⟨0, 0, false, false, 0, 0⟩

/-- The management core at reset: before step 1 of Table 121. -/
def Mgmt.reset : Mgmt :=
  { boot := .reset, slotA := [], slotB := [], active := none, buffer := [], fuses := .blank, romver := 0, fwdig := 0, svn := 0,
    coremap := [], idkey := 0, bar2 := 40, spdmVer := none, session := none, seq := 0, ide := [] }

/-- The machine right after reset: no wave, no work, every register at its reset value (registers whose reset value
the spec gives as non-zero are held by their default functions in Registers.lean), memories with nothing listed. -/
def State.reset : State :=
  { w := .absent, b := .absent, run := 0, waves := [], blocks := [], grps := [], levs := [], ctxs := [], mem := [],
    hmem := [], dsm := [], poison := [], cmds := [], reqs := [], gate := [], replies := [], wft := [], faults := [],
    cores := [], probes := [], migration := none, inval := none, exp := .reset, pf := [], vf := [], tokens := [],
    mgmt := .reset, press := [], ckpt := none, reserve := [], windows := [], pool := 0, handles := 1, ids := 1, escq := [], hostOut := [],
    inbox := [], sched := [], rr := [], rrAt := 0, free := 0, cycle := 0 }

end Sys2Proof.Machine
end

