-- ==== Sys2Proof/Machine/Flags.lean ====
section
/-! DEFINITION. The sticky flags of %fflags (R137, R138): a word ORs in the flags of its active lanes. -/

namespace Sys2Proof.Machine

/-- OR flags into %fflags. -/
def Wave.orFlags (w : Wave) (f : Fl) : Wave := { w with sp := { w.sp with fflags := w.sp.fflags ||| f.setWidth 32 } }
/-- OR flags into the %fflags of the wave that issues. -/
def State.orFlags (s : State) (f : Fl) : State := { s with w := s.w.orFlags f }

end Sys2Proof.Machine
end

