-- ==== Sys2Proof/Machine/Convert.lean ====
section
/-! DEFINITION. Elements of every format (R126 to R130), conversions (R147, Table 39), stochastic rounding (R148),
packing (R129) and the element of a decode window (R132). -/

namespace Sys2Proof.Machine

/-- The value of one element: a float, or an integer (integers, one-bit codes, tinned integer elements). -/
inductive EV where
  | f (v : Val)
  | i (n : Int)
  deriving DecidableEq, Repr

/-- The value of an element code of formats 0 to 22 (R126). -/
def elemVal (m : Fmt) (code : Nat) : EV :=
  if m.num ≤ 10 then .f (decodeF m code)
  else match m with
    | .b1 => .i (if code % 2 = 0 then 1 else -1)
    | .n1 => .i ((code % 2 : Nat) : Int)
    | m => .i (intOf m.signedInt m.bits code)

/-- The same with flush-inputs applied to a subnormal float (R136). -/
def elemIn (fmode : W32) (m : Fmt) (code : Nat) : EV :=
  if m.num ≤ 10 then .f (flushIn fmode m code) else elemVal m code

/-! ### Tinned groups (R130) -/

/-- The outlier format of a tinned format. -/
def outlierFmt : Fmt → Fmt
  | .t4iE43 | .t4fE43 => .e4m3
  | .t4iE52 | .t4fE52 => .e5m2
  | .t4iI8 => .i8
  | _ => .n8

/-- The marker code. -/
def tinMarker (m : Fmt) : Nat := if m = .t4nN8 then 15 else 8
/-- Whether the base class is Float. -/
def tinFloat (m : Fmt) : Bool := m == .t4fE43 || m == .t4fE52

/-- The base value of a slot code. -/
def tinBase (m : Fmt) (c : Nat) : EV :=
  if tinFloat m then .f (decodeF .e2m1 c)
  else if m = .t4nN8 then .i c
  else .i (intOf true 4 c)

/-- One decoded element with the format whose flush rule and signalling apply: its own code for a float. -/
structure TinEl where
  val : EV
  fmt : Fmt
  code : Nat
  deriving DecidableEq, Repr

/-- A zero in a given-up slot. -/
def tinZero (m : Fmt) : TinEl := ⟨if tinFloat m then .f (.fin false 0 0) else .i 0, .e2m1, 0⟩

/-- DecodeGroup from slot j on, with `fuel` slots at most: the elements and whether DE is set. -/
def decodeGroupGo (g : Nat) (m : Fmt) : Nat → Nat → List TinEl × Bool
  | 0, _ => ([], false)
  | fuel + 1, j =>
    if 8 ≤ j then ([], false)
    else
      let c := g / 2 ^ (4 * j) % 16
      if c ≠ tinMarker m then
        let r := decodeGroupGo g m fuel (j + 1)
        (⟨tinBase m c, .e2m1, c⟩ :: r.1, r.2)
      else if j ≤ 5 then
        let o := g / 2 ^ (4 * j + 4) % 256
        let r := decodeGroupGo g m fuel (j + 3)
        (⟨elemVal (outlierFmt m) o, outlierFmt m, o⟩ :: tinZero m :: tinZero m :: r.1, r.2)
      else
        let r := decodeGroupGo g m fuel (j + 1)
        (⟨if tinFloat m then .f (.nan false) else .i 0, .e2m1, 8⟩ :: r.1, true)

/-- DecodeGroup of R130. -/
def decodeGroup (g : Nat) (m : Fmt) : List TinEl × Bool := decodeGroupGo g m 8 0

/-- Whether DecodeGroup decodes slot k under DE: a marker in slot 6 or 7 that no outlier takes. From slot j on, with `fuel`
slots at most. -/
def strayMarker (g : Nat) (m : Fmt) (k : Nat) : Nat → Nat → Bool
  | 0, _ => false
  | fuel + 1, j =>
    if 8 ≤ j then false
    else if g / 2 ^ (4 * j) % 16 ≠ tinMarker m then strayMarker g m k fuel (j + 1)
    else if j ≤ 5 then strayMarker g m k fuel (j + 3)
    else j == k || strayMarker g m k fuel (j + 1)

/-- A tinned element under FIN (R136): only a tinned float element is flushed. -/
def TinEl.flushed (fmode : W32) (t : TinEl) : EV :=
  match t.val with
  | .f v => if t.fmt.num ≤ 10 && fmode.getLsbD 7 && isSub t.fmt t.code then .f (.fin false 0 0) else .f v
  | v => v

/-! ### Conversions (Table 39) -/

/-- The magnitude (m + δ) × 2^e with a sign, rounded to an integer: the integer and whether it is inexact. -/
def roundInt (rm : Rnd) (neg : Bool) (m : Nat) (e : Int) (st : Bool) : Int × Bool :=
  let r := roundAt rm neg m e st 0
  (if neg then -(r.1 : Int) else r.1, r.2)

/-- An integer saturated to a range, with SAT. -/
def satInt (lo hi x : Int) : Int × Fl :=
  if hi < x then (hi, Fl.sat) else if x < lo then (lo, Fl.sat) else (x, 0)

/-- The range of an integer or N1 destination. -/
def loFmt (m : Fmt) : Int := if m = .n1 then 0 else loOf m.signedInt m.bits
def hiFmt (m : Fmt) : Int := if m = .n1 then 1 else hiOf m.signedInt m.bits

/-- A float value to an integer format or N1. -/
def floatToInt (rm : Rnd) (dst : Fmt) (v : Val) : Int × Fl :=
  match v with
  | .nan _ => (0, Fl.nv)
  | .inf n => (if n then loFmt dst else hiFmt dst, Fl.sat)
  | .fin n m e =>
    let r := roundInt rm n m e false
    let x := satInt (loFmt dst) (hiFmt dst) r.1
    if x.2 = 0 then (x.1, Fl.when r.2 Fl.nx) else x

/-- A float value to a float format (Table 39, first two rows). -/
def floatToFloat (fmode : W32) (rm : Rnd) (dst : Fmt) (v : Val) : Nat × Fl :=
  match v with
  | .nan s => (nanBits dst, Fl.when s Fl.nv)
  | .inf n => if (fpOf dst).narrow then (maxBits dst n, Fl.sat) else (infBits dst n, 0)
  | .fin n m e => roundFlush fmode dst rm n m e false

/-- The code of an integer in a destination of 1 to 32 bits, sign-extended to a register where R186 says so. -/
def placeInt (m : Fmt) (x : Int) : Nat := if m.signedInt then bitsOf 32 x else bitsOf 32 x % 2 ^ m.bits

/-- The code of ±1 in B1, sign-extended as R186 says. -/
def placeB1 (neg : Bool) : Nat := if neg then 2 ^ 32 - 1 else 0

/-- One element converted to a format of Table 29 numbers 0 to 22, as the register holds it (R147, R186). -/
def convert (fmode : W32) (rm : Rnd) (dst : Fmt) (v : EV) : Nat × Fl :=
  match v with
  | .f v =>
    if dst.num ≤ 10 then floatToFloat fmode rm dst v
    else if dst = .b1 then
      (match v with
        | .nan _ => (placeB1 false, Fl.nv)
        | .inf n => (placeB1 n, 0)
        | .fin n m _ => (placeB1 (n && m != 0), 0))
    else let r := floatToInt rm dst v; (placeInt dst r.1, r.2)
  | .i n =>
    if dst.num ≤ 10 then roundFlush fmode dst rm (decide (n < 0)) n.natAbs 0 false
    else if dst = .b1 then (placeB1 (decide (n < 0)), 0)
    else let r := satInt (loFmt dst) (hiFmt dst) n; (placeInt dst r.1, r.2)

/-! ### Double-double and complex (R142, R147) -/

/-- The canonical pair of a finite value n × 2^e with the sign of an exact zero (R142, R147): HI and LO, and NX, OF
and UF judged on the pair, tininess on each part (log 112). -/
def pairOf (fmode : W32) (neg : Bool) (x : Dy) : Nat × Fl :=
  if x.n = 0 then (zeroBits .f64 neg, 0)
  else
    let hi := roundF .f64 .rn (decide (x.n < 0)) x.n.natAbs x.e false
    match decodeF .f64 hi.bits with
    | .fin a m e =>
      let rest := x.sub (dyOf a m e)
      let lo := if rest.n = 0 then (⟨0, 0, false⟩ : Rd) else roundF .f64 .rn (decide (rest.n < 0)) rest.n.natAbs rest.e false
      let tiny := hi.tiny && fmode.getLsbD 8
      let ltiny := lo.tiny && fmode.getLsbD 8
      let h := if tiny then zeroBits .f64 (decide (x.n < 0)) else hi.bits
      let l := if ltiny then zeroBits .f64 (decide (rest.n < 0)) else lo.bits
      let got := (decodeF .f64 h).dy.add (decodeF .f64 l).dy
      let inexact := !(got.eq x)
      (h + 2 ^ 64 * l, Fl.when inexact Fl.nx ||| Fl.when (inexact && (lo.tiny || hi.tiny)) Fl.uf |||
        Fl.when (tiny || ltiny) (Fl.uf ||| Fl.nx))
    | _ => (hi.bits, Fl.ovf ||| Fl.nx)

/-- A value to DD. -/
def toDD (fmode : W32) (v : EV) : Nat × Fl :=
  match v with
  | .i n => pairOf fmode false (Dy.ofInt n)
  | .f (.nan s) => (nanBits .f64, Fl.when s Fl.nv)
  | .f (.inf n) => (infBits .f64 n, 0)
  | .f (.fin n m e) => pairOf fmode n (dyOf n m e)

/-- The value of a DD operand (R147): HI alone when it is infinite or a NaN; the components flushed under R136. -/
def ddVal (fmode : W32) (bits : Nat) : Val :=
  match flushIn fmode .dd (bits % 2 ^ 64), flushIn fmode .dd (bits / 2 ^ 64) with
  | .fin n m e, .fin a k f =>
    let x := (dyOf n m e).add (dyOf a k f)
    if x.n = 0 then .fin (n && a) 0 0 else .fin (decide (x.n < 0)) x.n.natAbs x.e
  | .fin _ _ _, v => v
  | v, _ => v

/-- The component of a complex format. -/
def partFmt (m : Fmt) : Fmt := if m = .c64 then .f32 else .f64

/-- `cvt` of one operand of any format it admits (R208): the result bits of DFMT and the flags. -/
def cvtBits (fmode : W32) (rm : Rnd) (dst src : Fmt) (x : Nat) : Nat × Fl :=
  if src.complex then
    let w := (partFmt src).bits
    let re := floatToFloat fmode rm (partFmt dst) (flushIn fmode (partFmt src) (x % 2 ^ w))
    let im := floatToFloat fmode rm (partFmt dst) (flushIn fmode (partFmt src) (x / 2 ^ w))
    (re.1 + im.1 * 2 ^ (partFmt dst).bits, re.2 ||| im.2)
  else
    let v : EV := if src = .dd then .f (ddVal fmode x) else elemIn fmode src x
    if dst = .dd then toDD fmode v else convert fmode rm dst v

/-! ### Stochastic rounding (R148) -/

/-- floor(2^32 × (m mod 2^d, as a fraction of 2^d)). -/
def srFrac (m d : Nat) : Nat := (m % 2 ^ d) * 2 ^ 32 / 2 ^ d

/-- `cvtsr` of a float value to a format 0 to 22 with random bits r; a zero has the sign of the value (log 113). -/
def cvtsrVal (fmode : W32) (dst : Fmt) (r : Nat) (v : Val) : Nat × Fl :=
  match v with
  | .fin n m e =>
    if dst.num ≤ 10 then
      let f := fpOf dst
      if m = 0 then (zeroBits dst n, 0)
      else
        let top : Int := (Nat.log2 m : Int) + e
        let qn : Int := top - ((f.prec : Int) - 1)
        let q := if qn < f.qmin then f.qmin else qn
        let up := roundAt .ru false m e false q
        let beyond := decide (f.maxCode < (q - f.qmin).toNat * f.half + up.1)
        if !up.2 && !beyond then convert fmode .rn dst (.f v)
        else if beyond then
          if f.narrow then (maxBits dst n, Fl.sat ||| Fl.nx) else (infBits dst n, Fl.ovf ||| Fl.nx)
        else
          -- the two neighbours in magnitude; lo and hi swap for a negative x
          let d := (q - e).toNat
          let down := m / 2 ^ d
          let t := if n then 2 ^ 32 - (((m % 2 ^ d) * 2 ^ 32 + 2 ^ d - 1) / 2 ^ d) else srFrac m d
          let takeHi := decide (r < t)
          let mag := if takeHi != n then down + 1 else down
          let code := (q - f.qmin).toNat * f.half + mag
          let small := decide (code < f.half)
          if small && decide (code ≠ 0) && fmode.getLsbD (8 + flushClass dst) then
            (zeroBits dst n, Fl.nx ||| Fl.uf)
          else (f.place (f.signed n code), Fl.nx ||| Fl.when small Fl.uf)
    else if dst = .b1 then
      let x := dyOf n m e
      if x.lt (Dy.ofInt (-1)) then (placeB1 true, Fl.sat)
      else if (Dy.ofInt 1).lt x then (placeB1 false, Fl.sat)
      else if x.eq (Dy.ofInt 1) then (placeB1 false, 0)
      else if x.eq (Dy.ofInt (-1)) then (placeB1 true, 0)
      else
        let y := x.add (Dy.ofInt 1)       -- (x + 1) / 2 × 2^32 = y × 2^31
        let t := if 0 ≤ y.e then y.n.natAbs * 2 ^ (31 + y.e.toNat) else y.n.natAbs * 2 ^ 31 / 2 ^ (-y.e).toNat
        (placeB1 (!decide (r < t)), Fl.nx)
    else
      let lo := loFmt dst
      let hi := hiFmt dst
      let x := dyOf n m e
      if x.lt (Dy.ofInt lo) then (placeInt dst lo, Fl.sat)
      else if (Dy.ofInt hi).lt x then (placeInt dst hi, Fl.sat)
      else
        let k := roundInt .rd n m e false
        if !k.2 then (placeInt dst k.1, 0)
        else
          let fr := x.sub (Dy.ofInt k.1)
          let t := fr.n.natAbs * 2 ^ 32 / 2 ^ (-fr.e).toNat
          (placeInt dst (if r < t then k.1 + 1 else k.1), Fl.nx)
  | v => convert fmode .rn dst (.f v)

/-! ### Packing (R129, R210) -/

/-- Elements of a packed or tinned format in a 32-bit word. -/
def perWord (m : Fmt) : Nat := if m.bits = 6 then 5 else 32 / m.bits

/-- Element k of a word. -/
def elemCode (m : Fmt) (x k : Nat) : Nat := x / 2 ^ (m.bits * k) % 2 ^ m.bits

/-- A word with element k replaced; bits [31:30] of 6-bit formats are written as zero. -/
def putElem (m : Fmt) (x k code : Nat) : Nat :=
  let w := m.bits
  let y := x - elemCode m x k * 2 ^ (w * k) + (code % 2 ^ w) * 2 ^ (w * k)
  if w = 6 then y % 2 ^ 30 else y

/-- `upk`: element (c mod E) of a word, converted in the mode of %fmode (R210). -/
def upkBits (fmode : W32) (dst src : Fmt) (x c : Nat) : Nat × Fl :=
  let rm := rmOfCode (fmode.toNat % 8)
  if src.tinned then
    let g := decodeGroup x src
    let el := g.1.getD (c % 8) (tinZero src)
    let r := convert fmode rm dst (el.flushed fmode)
    (r.1, r.2 ||| Fl.when g.2 Fl.de)
  else convert fmode rm dst (elemIn fmode src (elemCode src x (c % perWord src)))

/-- `pk`: the conversion of a put into element (c mod E) of d (R210). -/
def pkBits (fmode : W32) (dst src : Fmt) (d a c : Nat) : Nat × Fl :=
  let rm := rmOfCode (fmode.toNat % 8)
  let r := convert fmode rm dst (elemIn fmode src a)
  (putElem dst d (c % perWord dst) r.1, r.2)

/-! ### Decode windows (R132) -/

/-- A decoded element times an F32 scale, exactly (R132 step 2). -/
def scaleEV (v : EV) (sc : Val) : EV :=
  let x : Val := match v with
    | .f v => v
    | .i n => .fin (decide (n < 0)) n.natAbs 0
  if x.isNan || sc.isNan then .f (.nan false)
  else if (x.isInf && sc.isZero) || (x.isZero && sc.isInf) then .f (.nan false)
  else .f (mulVal x sc)

/-- The decoded element in DFMT (R132 step 3): no flush, no flag. -/
def windowBits (dst : Fmt) (v : EV) : Nat :=
  if dst = .i8 then
    (match v with
      | .f (.nan _) => 0
      | v => (convert 0 .rn .i8 v).1 % 256)
  else (convert 0 .rn dst v).1

/-- The encoded element k of a source range, and whether it is a decode error: `byte` reads the range. For a tinned
source k counts slots. -/
def windowElem (src : Fmt) (byte : Nat → Byte) (k : Nat) : EV × Bool :=
  let word (j : Nat) : Nat := leNat [byte (4 * j), byte (4 * j + 1), byte (4 * j + 2), byte (4 * j + 3)]
  if src.tinned then
    let g := decodeGroup (word (k / 8)) src
    ((g.1.getD (k % 8) (tinZero src)).val, strayMarker (word (k / 8)) src (k % 8) 8 0)
  else
    let e := perWord src
    (elemVal src (elemCode src (word (k / e)) (k % e)), false)

end Sys2Proof.Machine
end

