-- ==== Sys2Proof/Decode.lean ====
section
/-! DEFINITION. Decoding and encoding of instruction words: the F, P and X formats (R165, R166, R178, R182), the
specifier maps (Tables 44, 45, 47), the subfield codes (Tables 46, 57, 64 to 76) and the opcode map (Table 51).
`parse` reads the fields, `encode` writes them, and `decode` accepts exactly the legal words (R184): those that
parse to a well-formed instruction whose encoding is the word itself, so that every unused field and every unnamed
MOD bit is zero (R173, R175). Events have no encoding. -/

namespace Sys2Proof

/-- Bits [lo+n-1:lo] of a natural number. -/
def bitsAt (x lo n : Nat) : Nat := x / 2 ^ lo % 2 ^ n

/-- The special registers by number (Table 45). -/
def SReg.all : List SReg :=
  [.lane, .wave, .nwave, .block, .nblock, .child, .nchild, .view, .core, .die, .pkg, .job, .phase, .graph, .launch, .prio,
   .fmode, .fflags, .tagready, .cprog, .mrow, .ientry, .wbase, .rngctr, .clock, .trapcause, .trapinfo, .trapaddr, .tstack, .mode]

/-- The number of a special register within its range. -/
def SReg.num : SReg → Nat
  | .lane => 0 | .wave => 1 | .nwave => 2 | .block => 3 | .nblock => 4 | .child => 5 | .nchild => 6 | .view => 7 | .core => 8 | .die => 9
  | .pkg => 10 | .job => 11 | .phase => 12 | .graph => 13 | .launch => 14 | .prio => 15 | .fmode => 16 | .fflags => 17 | .tagready => 18
  | .cprog => 19 | .mrow => 20 | .ientry => 21 | .wbase => 22 | .rngctr => 23 | .clock => 24 | .trapcause => 25 | .trapinfo => 26
  | .trapaddr => 27 | .tstack => 28 | .mode => 29

/-- Guard codes of F and X words (R168); 1000 is reserved. -/
def Guard.ofNat (x : Nat) : Option Guard :=
  if x = 0 then some .always
  else if h : x ≤ 7 then some (.pos ⟨x - 1, by omega⟩)
  else if h : 9 ≤ x ∧ x ≤ 15 then some (.neg ⟨x - 9, by omega⟩)
  else none

def Guard.toNat : Guard → Nat
  | .always => 0
  | .pos n => n.val + 1
  | .neg n => n.val + 9

/-- The 9-bit specifier map (Table 44). -/
def Opnd.ofNat (x : Nat) : Option Opnd :=
  if x < 0x100 then some (.v (BitVec.ofNat 8 x))
  else if x < 0x140 then some (.s (BitVec.ofNat 6 (x - 0x100)))
  else if x < 0x148 then some (.p (BitVec.ofNat 3 (x - 0x140)))
  else if x < 0x14C then some (.i (BitVec.ofNat 2 (x - 0x148)))
  else if x < 0x150 then some (.c (BitVec.ofNat 2 (x - 0x14C)))
  else if x < 0x160 then some (.d (BitVec.ofNat 4 (x - 0x150)))
  else if x < 0x170 then some (.acc (BitVec.ofNat 4 (x - 0x160)))
  else if x < 0x174 then some (.sh (BitVec.ofNat 2 (x - 0x170)))
  else if x < 0x180 then none
  else if x < 0x1A0 then some (.win (BitVec.ofNat 5 (x - 0x180)))
  else if x < 0x1C0 then (SReg.all[x - 0x1A0]?).map .sr
  else if x < 0x1D0 then some (.ci (BitVec.ofNat 4 (x - 0x1C0)))
  else if x < 0x1E0 then some (.cf (BitVec.ofNat 4 (x - 0x1D0)))
  else if h : 0x1E0 ≤ x ∧ x < 0x1E3 then some (.lat ⟨x - 0x1E0, by omega⟩)
  else if x = 0x1FF then some .zero
  else none

def Opnd.toNat : Opnd → Nat
  | .v n => n.toNat
  | .s n => 0x100 + n.toNat
  | .p n => 0x140 + n.toNat
  | .i n => 0x148 + n.toNat
  | .c n => 0x14C + n.toNat
  | .d n => 0x150 + n.toNat
  | .acc n => 0x160 + n.toNat
  | .sh n => 0x170 + n.toNat
  | .win k => 0x180 + k.toNat
  | .sr r => 0x1A0 + r.num
  | .ci n => 0x1C0 + n.toNat
  | .cf n => 0x1D0 + n.toNat
  | .lat n => 0x1E0 + n.val
  | .zero => 0x1FF

/-- The 8-bit slot specifier map (Table 47). -/
def SOpnd.ofNat (x : Nat) : Option SOpnd :=
  if x < 0x80 then some (.v (BitVec.ofNat 7 x))
  else if x < 0xC0 then some (.s (BitVec.ofNat 6 (x - 0x80)))
  else if x < 0xC8 then some (.p (BitVec.ofNat 3 (x - 0xC0)))
  else if h : 0xC8 ≤ x ∧ x < 0xCB then some (.lat ⟨x - 0xC8, by omega⟩)
  else if x = 0xCB then some .zero
  else if x < 0xDC then some (.ci (BitVec.ofNat 4 (x - 0xCC)))
  else none

def SOpnd.toNat : SOpnd → Nat
  | .v n => n.toNat
  | .s n => 0x80 + n.toNat
  | .p n => 0xC0 + n.toNat
  | .lat n => 0xC8 + n.val
  | .zero => 0xCB
  | .ci n => 0xCC + n.toNat

/-- Slot guards (R168); 100 is reserved. -/
def SGuard.ofNat (x : Nat) : Option SGuard :=
  if x = 0 then some .always
  else if h : x ≤ 3 then some (.pos ⟨x - 1, by omega⟩)
  else if h : 5 ≤ x ∧ x ≤ 7 then some (.neg ⟨x - 5, by omega⟩)
  else none

def SGuard.toNat : SGuard → Nat
  | .always => 0
  | .pos n => n.val + 1
  | .neg n => n.val + 5

/-- The codes of slot opcodes (Table 48). -/
def SlotOp.codes : List SlotOp := [.add, .sub, .mul, .and, .or, .xor, .shl, .shr, .sar, .mov, .movi6, .min, .max, .fadd, .fsub, .fmul, .fmin, .fmax, .icmp, .fcmp, .bcast, .rfal, .popc, .lea]

def SlotOp.num : SlotOp → Nat
  | .add => 0 | .sub => 1 | .mul => 2 | .and => 3 | .or => 4 | .xor => 5 | .shl => 6 | .shr => 7 | .sar => 8 | .mov => 9 | .movi6 => 10 | .min => 11 | .max => 12 | .fadd => 13 | .fsub => 14 | .fmul => 15 | .fmin => 16 | .fmax => 17 | .icmp => 18 | .fcmp => 19 | .bcast => 20 | .rfal => 21 | .popc => 22 | .lea => 23

/-- The codes of TY (Table 46). -/
def Ty.codes : List Ty := [.i32, .n32, .i64, .n64]

def Ty.num : Ty → Nat
  | .i32 => 0 | .n32 => 1 | .i64 => 2 | .n64 => 3

/-- The codes of format numbers (Table 29). -/
def Fmt.codes : List Fmt := [.f64, .f32, .f16, .e8m7, .e8m10, .e5m2, .e4m3, .e3m4, .e3m2, .e2m3, .e2m1, .i32, .n32, .i16, .n16, .i8, .n8, .i4, .n4, .i2, .n2, .b1, .n1, .t4iE43, .t4iE52, .t4iI8, .t4fE43, .t4fE52, .t4nN8, .c64, .c128, .dd]

/-- The codes of SZ (Table 57). -/
def Sz.codes : List Sz := [.n8, .i8, .n16, .i16, .w32, .w64, .w128]

def Sz.num : Sz → Nat
  | .n8 => 0 | .i8 => 1 | .n16 => 2 | .i16 => 3 | .w32 => 4 | .w64 => 5 | .w128 => 6

/-- The codes of SP (Table 57). -/
def Sp.codes : List Sp := [.g, .sc, .dm]

def Sp.num : Sp → Nat
  | .g => 0 | .sc => 1 | .dm => 2

/-- The codes of SCOPE (Table 46). -/
def Scope.codes : List Scope := [.blk, .die, .pkg, .sys]

def Scope.num : Scope → Nat
  | .blk => 0 | .die => 1 | .pkg => 2 | .sys => 3

/-- The codes of COND of icmp (R198). -/
def ICond.codes : List ICond := [.eq, .ne, .lt, .le, .gt, .ge]

def ICond.num : ICond → Nat
  | .eq => 0 | .ne => 1 | .lt => 2 | .le => 3 | .gt => 4 | .ge => 5

/-- The codes of COND of fcmp (Table 55). -/
def FCond.codes : List FCond := [.eq, .ne, .lt, .le, .gt, .ge, .un, .or, .ltq, .leq, .gtq, .geq, .tlt, .tle, .teq]

def FCond.num : FCond → Nat
  | .eq => 0 | .ne => 1 | .lt => 2 | .le => 3 | .gt => 4 | .ge => 5 | .un => 6 | .or => 7 | .ltq => 8 | .leq => 9 | .gtq => 10 | .geq => 11 | .tlt => 12 | .tle => 13 | .teq => 14

/-- The codes of MODE of vote (R201). -/
def VMode.codes : List VMode := [.all, .any, .eq]

def VMode.num : VMode → Nat
  | .all => 0 | .any => 1 | .eq => 2

/-- The codes of MODE of shfl (R203). -/
def ShMode.codes : List ShMode := [.idx, .up, .down, .xor]

def ShMode.num : ShMode → Nat
  | .idx => 0 | .up => 1 | .down => 2 | .xor => 3

/-- The codes of AOP (Table 65). -/
def AOp.codes : List AOp := [.add, .min, .max, .and, .or, .xor, .swap, .cas, .load, .store]

def AOp.num : AOp → Nat
  | .add => 0 | .min => 1 | .max => 2 | .and => 3 | .or => 4 | .xor => 5 | .swap => 6 | .cas => 7 | .load => 8 | .store => 9

/-- The codes of DT (Table 64). -/
def DT.codes : List DT := [.i32, .n32, .i64, .n64, .f32, .f64, .f16]

def DT.num : DT → Nat
  | .i32 => 0 | .n32 => 1 | .i64 => 2 | .n64 => 3 | .f32 => 4 | .f64 => 5 | .f16 => 6

/-- The codes of ACF (Table 71). -/
def AccF.codes : List AccF := [.f64, .f32, .f16, .e8m7, .i32, .c64, .c128, .dd]

def AccF.num : AccF → Nat
  | .f64 => 0 | .f32 => 1 | .f16 => 2 | .e8m7 => 3 | .i32 => 4 | .c64 => 5 | .c128 => 6 | .dd => 7

/-- The codes of SHAPE (Table 70). -/
def Shape.codes : List Shape := [.sq, .wide, .tall, .deep]

def Shape.num : Shape → Nat
  | .sq => 0 | .wide => 1 | .tall => 2 | .deep => 3

/-- The codes of RSZ (R261). -/
def Rsz.codes : List Rsz := [.r16, .r32, .r64]

def Rsz.num : Rsz → Nat
  | .r16 => 0 | .r32 => 1 | .r64 => 2

/-- The codes of FN of dmap (R283). -/
def DFn.codes : List DFn := [.neg, .rcp, .sqrt, .exp2, .log2, .exp, .log]

def DFn.num : DFn → Nat
  | .neg => 0 | .rcp => 1 | .sqrt => 2 | .exp2 => 3 | .log2 => 4 | .exp => 5 | .log => 6

/-- The codes of LVL of dqnt (Table 76). -/
def QLvl.codes : List QLvl := [.p, .p10, .p50, .p90]

def QLvl.num : QLvl → Nat
  | .p => 0 | .p10 => 1 | .p50 => 2 | .p90 => 3

/-- The codes of SEL of vstat (R239). -/
def VSel.codes : List VSel := [.used, .quota, .free, .size]

def VSel.num : VSel → Nat
  | .used => 0 | .quota => 1 | .free => 2 | .size => 3

/-- The codes of LVL of pf (R223). -/
def PfLvl.codes : List PfLvl := [.l1, .l2, .mc]

def PfLvl.num : PfLvl → Nat
  | .l1 => 0 | .l2 => 1 | .mc => 2

/-- The codes of MOD of cachectl (R249). -/
def CacheOp.codes : List CacheOp := [.evict, .wb, .inv]

def CacheOp.num : CacheOp → Nat
  | .evict => 0 | .wb => 1 | .inv => 2

/-- RND codes (Table 46): 000 to 100, and 111 for the RM of %fmode. -/
def Rnd.ofCode : Nat → Option Rnd
  | 0 => some .rn | 1 => some .rz | 2 => some .ru | 3 => some .rd | 4 => some .ra | 7 => some .dyn | _ => none

def Rnd.num : Rnd → Nat
  | .rn => 0 | .rz => 1 | .ru => 2 | .rd => 3 | .ra => 4 | .dyn => 7

/-- SEL and ALL of `dmom` (Table 76). -/
def MSel.ofCode : Nat → Option MSel
  | 0 => some .mean | 1 => some .var | 2 => some .skew | 3 => some .kurt | 4 => some .all | _ => none

def MSel.num : MSel → Nat
  | .mean => 0 | .var => 1 | .skew => 2 | .kurt => 3 | .all => 4

/-- One bit as a number. -/
def bnum (x : Bool) : Nat := if x then 1 else 0

/-- Bit k of a number. -/
def bit (x k : Nat) : Bool := x / 2 ^ k % 2 == 1

/-- The instruction an opcode of F form names (Table 51), from its F fields and `m`, the C field without the C
specifier: MOD in forms C, the whole field in forms I, L and N. Unnamed bits are judged by `decode`. -/
def parseOp (op m : Nat) (f : F) : Option Instr :=
  match op with
  | 0x001 => (Ty.codes[bitsAt m 0 2]?).bind fun ty => some (.add f ty (bit m 2))
  | 0x002 => (Ty.codes[bitsAt m 0 2]?).bind fun ty => some (.sub f ty (bit m 2))
  | 0x003 => (Ty.codes[bitsAt m 0 2]?).bind fun ty => some (.mul f ty (bit m 2))
  | 0x004 => (Ty.codes[bitsAt m 0 2]?).bind fun ty => some (.mulhi f ty)
  | 0x005 => (Ty.codes[bitsAt m 0 2]?).bind fun ty => some (.mad f ty (bit m 2))
  | 0x006 => (Ty.codes[bitsAt m 0 2]?).bind fun ty => some (.min f ty)
  | 0x007 => (Ty.codes[bitsAt m 0 2]?).bind fun ty => some (.max f ty)
  | 0x008 => (Ty.codes[bitsAt m 0 2]?).bind fun ty => some (.abs f ty (bit m 2))
  | 0x009 => (Ty.codes[bitsAt m 0 2]?).bind fun ty => some (.neg f ty (bit m 2))
  | 0x00A => (Ty.codes[bitsAt m 0 2]?).bind fun ty => some (.div f ty (bit m 2))
  | 0x00B => (Ty.codes[bitsAt m 0 2]?).bind fun ty => some (.rem f ty)
  | 0x00C => (Ty.codes[bitsAt m 0 2]?).bind fun ty => some (.lea f ty (bit m 2) (BitVec.ofNat 3 (m / 2 ^ 3)))
  | 0x00D => (Ty.codes[bitsAt m 0 2]?).bind fun ty => some (.mov f ty)
  | 0x00E => some (.movi f (BitVec.ofNat 21 m))
  | 0x00F => (Ty.codes[bitsAt m 0 2]?).bind fun ty => some (.popc f ty)
  | 0x010 => (Ty.codes[bitsAt m 0 2]?).bind fun ty => some (.clz f ty)
  | 0x011 => (Ty.codes[bitsAt m 0 2]?).bind fun ty => some (.ctz f ty)
  | 0x012 => (Ty.codes[bitsAt m 0 2]?).bind fun ty => some (.brev f ty)
  | 0x013 => some (.bfe f (bit m 16) (BitVec.ofNat 5 m) (BitVec.ofNat 5 (m / 2 ^ 5)))
  | 0x014 => some (.bfi f (BitVec.ofNat 5 m) (BitVec.ofNat 5 (m / 2 ^ 5)))
  | 0x015 => some (.bperm f)
  | 0x016 => some (.ldvr f (BitVec.ofNat 8 m))
  | 0x017 => some (.stvr f (BitVec.ofNat 8 m))
  | 0x018 => (Ty.codes[bitsAt m 0 2]?).bind fun ty => some (.addc f ty)
  | 0x020 => (Ty.codes[bitsAt m 0 2]?).bind fun ty => some (.and f ty)
  | 0x021 => (Ty.codes[bitsAt m 0 2]?).bind fun ty => some (.or f ty)
  | 0x022 => (Ty.codes[bitsAt m 0 2]?).bind fun ty => some (.xor f ty)
  | 0x023 => (Ty.codes[bitsAt m 0 2]?).bind fun ty => some (.andn f ty)
  | 0x024 => (Ty.codes[bitsAt m 0 2]?).bind fun ty => some (.not f ty)
  | 0x025 => (Ty.codes[bitsAt m 0 2]?).bind fun ty => some (.shl f ty)
  | 0x026 => (Ty.codes[bitsAt m 0 2]?).bind fun ty => some (.shr f ty)
  | 0x027 => (Ty.codes[bitsAt m 0 2]?).bind fun ty => some (.sar f ty)
  | 0x028 => (Ty.codes[bitsAt m 0 2]?).bind fun ty => some (.rotl f ty)
  | 0x029 => (Ty.codes[bitsAt m 0 2]?).bind fun ty => some (.fsh f ty)
  | 0x040 => (Ty.codes[bitsAt m 0 2]?).bind fun ty => (ICond.codes[bitsAt m 2 4]?).bind fun cond => some (.icmp f ty cond)
  | 0x041 => (Fmt.codes[bitsAt m 0 5]?).bind fun fmt => (FCond.codes[bitsAt m 8 4]?).bind fun cond => some (.fcmp f fmt cond)
  | 0x042 => (Ty.codes[bitsAt m 0 2]?).bind fun ty => some (.sel f ty)
  | 0x043 => some (.plog f (BitVec.ofNat 8 m))
  | 0x044 => some (.ballot f)
  | 0x045 => (VMode.codes[bitsAt m 0 2]?).bind fun mode => some (.vote f mode)
  | 0x046 => (Ty.codes[bitsAt m 0 2]?).bind fun ty => some (.rfal f ty)
  | 0x047 => (Ty.codes[bitsAt m 16 2]?).bind fun ty => some (.bcast f ty (BitVec.ofNat 5 m))
  | 0x048 => (Ty.codes[bitsAt m 0 2]?).bind fun ty => (ShMode.codes[bitsAt m 2 2]?).bind fun mode => some (.shfl f ty mode)
  | 0x060 => (Fmt.codes[bitsAt m 0 5]?).bind fun fmt => (Rnd.ofCode (bitsAt m 5 3)).bind fun rnd => some (.fadd f fmt rnd)
  | 0x061 => (Fmt.codes[bitsAt m 0 5]?).bind fun fmt => (Rnd.ofCode (bitsAt m 5 3)).bind fun rnd => some (.fsub f fmt rnd)
  | 0x062 => (Fmt.codes[bitsAt m 0 5]?).bind fun fmt => (Rnd.ofCode (bitsAt m 5 3)).bind fun rnd => some (.fmul f fmt rnd)
  | 0x063 => (Fmt.codes[bitsAt m 0 5]?).bind fun fmt => (Rnd.ofCode (bitsAt m 5 3)).bind fun rnd => some (.ffma f fmt rnd)
  | 0x064 => (Fmt.codes[bitsAt m 0 5]?).bind fun fmt => some (.fmin f fmt)
  | 0x065 => (Fmt.codes[bitsAt m 0 5]?).bind fun fmt => some (.fmax f fmt)
  | 0x066 => (Fmt.codes[bitsAt m 0 5]?).bind fun fmt => (Rnd.ofCode (bitsAt m 5 3)).bind fun rnd => some (.fdiv f fmt rnd)
  | 0x067 => (Fmt.codes[bitsAt m 0 5]?).bind fun fmt => (Rnd.ofCode (bitsAt m 5 3)).bind fun rnd => some (.fsqrt f fmt rnd)
  | 0x068 => (Rnd.ofCode (bitsAt m 5 3)).bind fun rnd => some (.frcp f rnd)
  | 0x069 => (Rnd.ofCode (bitsAt m 5 3)).bind fun rnd => some (.frsq f rnd)
  | 0x06A => (Rnd.ofCode (bitsAt m 5 3)).bind fun rnd => some (.fexp2 f rnd)
  | 0x06B => (Rnd.ofCode (bitsAt m 5 3)).bind fun rnd => some (.flog2 f rnd)
  | 0x06C => (Rnd.ofCode (bitsAt m 5 3)).bind fun rnd => some (.fsin f rnd)
  | 0x06D => (Rnd.ofCode (bitsAt m 5 3)).bind fun rnd => some (.fcos f rnd)
  | 0x06E => (Fmt.codes[bitsAt m 0 5]?).bind fun fmt => some (.fclass f fmt)
  | 0x06F => (Fmt.codes[bitsAt m 0 5]?).bind fun fmt => (Rnd.ofCode (bitsAt m 5 3)).bind fun rnd => some (.fscale f fmt rnd)
  | 0x070 => some (.cclr f)
  | 0x071 => (Fmt.codes[bitsAt m 0 5]?).bind fun fmt => some (.cadd f fmt)
  | 0x072 => (Fmt.codes[bitsAt m 0 5]?).bind fun fmt => some (.cfma f fmt)
  | 0x073 => (Fmt.codes[bitsAt m 0 5]?).bind fun fmt => (Rnd.ofCode (bitsAt m 5 3)).bind fun rnd => some (.crd f fmt rnd (bit m 8))
  | 0x080 => (Fmt.codes[bitsAt m 0 5]?).bind fun dfmt => (Fmt.codes[bitsAt m 5 5]?).bind fun sfmt => some (.cvt f dfmt sfmt)
  | 0x081 => (Fmt.codes[bitsAt m 0 5]?).bind fun dfmt => (Fmt.codes[bitsAt m 5 5]?).bind fun sfmt => some (.cvtsr f dfmt sfmt)
  | 0x082 => (Fmt.codes[bitsAt m 0 5]?).bind fun dfmt => (Fmt.codes[bitsAt m 5 5]?).bind fun sfmt => some (.pk f dfmt sfmt)
  | 0x083 => (Fmt.codes[bitsAt m 0 5]?).bind fun dfmt => (Fmt.codes[bitsAt m 5 5]?).bind fun sfmt => some (.upk f dfmt sfmt)
  | 0x084 => some (.rand f (bit m 0))
  | 0x0A0 => some (.br f (BitVec.ofNat 21 m))
  | 0x0A1 => some (.jmp f)
  | 0x0A2 => some (.call f (BitVec.ofNat 21 m))
  | 0x0A3 => some (.ret f)
  | 0x0A4 => some (.brx f (BitVec.ofNat 12 m))
  | 0x0A5 => some (.exit f)
  | 0x0A6 => some (.nop f)
  | 0x0C0 => (Sz.codes[bitsAt m 16 3]?).bind fun sz => (Sp.codes[bitsAt m 19 2]?).bind fun sp => some (.ld f sz sp (BitVec.ofNat 16 m))
  | 0x0C1 => (Sz.codes[bitsAt m 16 3]?).bind fun sz => (Sp.codes[bitsAt m 19 2]?).bind fun sp => some (.st f sz sp (BitVec.ofNat 16 m))
  | 0x0C2 => (Sz.codes[bitsAt m 16 3]?).bind fun sz => (Sp.codes[bitsAt m 19 2]?).bind fun sp => some (.ldn f sz sp (BitVec.ofNat 16 m))
  | 0x0C3 => (Sz.codes[bitsAt m 16 3]?).bind fun sz => (Sp.codes[bitsAt m 19 2]?).bind fun sp => some (.stn f sz sp (BitVec.ofNat 16 m))
  | 0x0C4 => some (.touch f (bit m 16) (BitVec.ofNat 16 m))
  | 0x0C5 => (PfLvl.codes[bitsAt m 16 2]?).bind fun lvl => some (.pf f lvl (BitVec.ofNat 16 m))
  | 0x0E0 => (Sz.codes[bitsAt m 0 3]?).bind fun sz => (Sp.codes[bitsAt m 3 2]?).bind fun sp => (Scope.codes[bitsAt m 7 2]?).bind fun scope => some (.gth f sz sp (bit m 5) scope)
  | 0x0E1 => (Sz.codes[bitsAt m 0 3]?).bind fun sz => (Sp.codes[bitsAt m 3 2]?).bind fun sp => (Scope.codes[bitsAt m 7 2]?).bind fun scope => some (.sct f sz sp (bit m 6) scope)
  | 0x0E2 => (Sz.codes[bitsAt m 0 3]?).bind fun sz => (Sp.codes[bitsAt m 3 2]?).bind fun sp => (Scope.codes[bitsAt m 7 2]?).bind fun scope => some (.cst f sz sp (bit m 6) scope)
  | 0x0E3 => (Sz.codes[bitsAt m 0 3]?).bind fun sz => (Sp.codes[bitsAt m 3 2]?).bind fun sp => (Scope.codes[bitsAt m 7 2]?).bind fun scope => some (.xld f sz sp (bit m 5) scope)
  | 0x0E4 => (Scope.codes[bitsAt m 7 2]?).bind fun scope => some (.cpy f (bit m 5) (bit m 6) scope)
  | 0x0E5 => some (.tagwait f (bit m 16) (BitVec.ofNat 16 m))
  | 0x0E6 => some (.tagffr f)
  | 0x0E7 => some (.tagclr f (BitVec.ofNat 16 m))
  | 0x100 => (AOp.codes[bitsAt m 0 4]?).bind fun aop => (DT.codes[bitsAt m 4 3]?).bind fun dt => some (.atom f aop dt (bit m 7))
  | 0x101 => (AOp.codes[bitsAt m 0 4]?).bind fun aop => (DT.codes[bitsAt m 4 3]?).bind fun dt => some (.red f aop dt)
  | 0x102 => (AOp.codes[bitsAt m 0 4]?).bind fun aop => (DT.codes[bitsAt m 4 3]?).bind fun dt => (Scope.codes[bitsAt m 10 2]?).bind fun scope => some (.aord f aop dt (bit m 7) (bit m 8) (bit m 9) scope)
  | 0x103 => (AOp.codes[bitsAt m 0 4]?).bind fun aop => (DT.codes[bitsAt m 4 3]?).bind fun dt => (Scope.codes[bitsAt m 10 2]?).bind fun scope => some (.afree f aop dt (bit m 7) (bit m 8) (bit m 9) scope)
  | 0x120 => if bit m 3 then (Scope.codes[bitsAt m 1 2]?).bind fun scope => some (.barvInit f (bit m 0) scope) else (Scope.codes[bitsAt m 1 2]?).bind fun scope => some (.barv f (bit m 0) scope)
  | 0x121 => if bit m 4 then (Scope.codes[bitsAt m 1 2]?).bind fun scope => some (.barwWait f (bit m 0) scope) else (Scope.codes[bitsAt m 1 2]?).bind fun scope => some (.barw f (bit m 0) scope)
  | 0x122 => if bit m 3 then (Scope.codes[bitsAt m 1 2]?).bind fun scope => some (.fpostInit f (bit m 0) scope) else (Scope.codes[bitsAt m 1 2]?).bind fun scope => some (.fpost f (bit m 0) scope)
  | 0x123 => (Scope.codes[bitsAt m 1 2]?).bind fun scope => some (.fwait f (bit m 0) scope)
  | 0x124 => if bit m 5 then (Scope.codes[bitsAt m 1 2]?).bind fun scope => some (.olacqFree f (bit m 0) scope) else (Scope.codes[bitsAt m 1 2]?).bind fun scope => some (.olacq f (bit m 0) scope)
  | 0x125 => if bit m 3 then (Scope.codes[bitsAt m 1 2]?).bind fun scope => some (.olrelInit f (bit m 0) scope (bit m 5)) else if bit m 5 then (Scope.codes[bitsAt m 1 2]?).bind fun scope => some (.olrelFree f (bit m 0) scope) else if bit m 4 then (Scope.codes[bitsAt m 1 2]?).bind fun scope => some (.olrelPass f (bit m 0) scope) else (Scope.codes[bitsAt m 1 2]?).bind fun scope => some (.olrel f (bit m 0) scope)
  | 0x126 => some (.wreg f (bit m 0) (bit m 4) (BitVec.ofNat 3 (m / 2 ^ 6)))
  | 0x127 => some (.wunreg f (bit m 0) (bit m 4) (BitVec.ofNat 3 (m / 2 ^ 6)))
  | 0x128 => some (.yield f)
  | 0x129 => (Scope.codes[bitsAt m 1 2]?).bind fun scope => some (.fence f scope)
  | 0x12A => (Scope.codes[bitsAt m 1 2]?).bind fun scope => some (.sweep f scope)
  | 0x12B => if bit m 3 then (Scope.codes[bitsAt m 1 2]?).bind fun scope => some (.qpushInit f (bit m 0) scope) else (Scope.codes[bitsAt m 1 2]?).bind fun scope => some (.qpush f (bit m 0) scope)
  | 0x12C => (Scope.codes[bitsAt m 1 2]?).bind fun scope => some (.qpop f (bit m 0) scope)
  | 0x140 => some (.fork f)
  | 0x141 => some (.join f)
  | 0x142 => (VSel.codes[bitsAt m 0 3]?).bind fun vs => some (.vstat f vs)
  | 0x143 => some (.launch f)
  | 0x144 => some (.cancel f)
  | 0x145 => some (.lcount f (bit m 0))
  | 0x146 => some (.migrate f)
  | 0x160 => (Fmt.codes[bitsAt m 0 5]?).bind fun fmt => (AccF.codes[bitsAt m 5 3]?).bind fun acf => (Shape.codes[bitsAt m 8 2]?).bind fun shape => some (.mma f fmt acf shape (bit m 10) (bit m 11))
  | 0x161 => some (.mz f)
  | 0x162 => (Rsz.codes[bitsAt m 6 2]?).bind fun rsz => some (.mld f (BitVec.ofNat 6 m) rsz (bit m 8))
  | 0x163 => (Rsz.codes[bitsAt m 6 2]?).bind fun rsz => some (.mst f (BitVec.ofNat 6 m) rsz (bit m 8))
  | 0x164 => some (.mtov f (BitVec.ofNat 2 m))
  | 0x165 => some (.vtom f (BitVec.ofNat 2 m))
  | 0x166 => some (.msync f)
  | 0x180 => (Fmt.codes[bitsAt m 0 5]?).bind fun fmt => (AccF.codes[bitsAt m 5 3]?).bind fun acf => (Shape.codes[bitsAt m 8 2]?).bind fun shape => some (.mmas f fmt acf shape (bit m 10) (bit m 11))
  | 0x181 => some (.shcom f)
  | 0x182 => some (.shdis f)
  | 0x1A0 => if bitsAt m 0 2 == 1 then some (.dsetU f) else if bitsAt m 0 2 == 0 then some (.dsetPt f) else none
  | 0x1A1 => some (.dld f (bit m 0))
  | 0x1A2 => some (.dst f (bit m 0))
  | 0x1A3 => some (.dadd f)
  | 0x1A4 => some (.dsub f)
  | 0x1A5 => some (.dmul f)
  | 0x1A6 => some (.ddiv f)
  | 0x1A7 => some (.daff f)
  | 0x1A8 => some (.dmin f)
  | 0x1A9 => some (.dmax f)
  | 0x1AA => (DFn.codes[bitsAt m 0 3]?).bind fun fn => some (.dmap f fn)
  | 0x1AB => (MSel.ofCode (bitsAt m 0 3)).bind fun ms => some (.dmom f ms)
  | 0x1AC => (QLvl.codes[bitsAt m 0 2]?).bind fun lvl => some (.dqnt f lvl)
  | 0x1AD => if bitsAt m 0 2 == 1 then some (.dtagSet f) else if bitsAt m 0 2 == 2 then some (.dtagGet f) else if bitsAt m 0 2 == 0 then some (.dtagNew f) else none
  | 0x1AE => some (.dmix f)
  | 0x1AF => some (.dsamp f)
  | 0x1C0 => some (.xroute f)
  | 0x1C1 => some (.xrel f)
  | 0x1C2 => some (.xcnt f)
  | 0x1C3 => some (.xver f)
  | 0x1E0 => some (.trap f (BitVec.ofNat 16 m))
  | 0x1E1 => some (.tret f)
  | 0x1E2 => some (.rsr f)
  | 0x1E3 => some (.wsr f)
  | 0x1E4 => some (.ienter f)
  | 0x1E5 => some (.brk f (BitVec.ofNat 16 m))
  | 0x1E6 => (CacheOp.codes[bitsAt m 0 2]?).bind fun cop => some (.cachectl f cop)
  | _ => none

/-- Whether the opcode's C field has form C (Table 51), and so a C specifier in bits 20:12. -/
def isFormC (op : Nat) : Bool :=
  !([0x00E, 0x013, 0x014, 0x016, 0x017, 0x047, 0x0A0, 0x0A2, 0x0A5, 0x0A6, 0x0C0, 0x0C1, 0x0C2, 0x0C3, 0x0C4, 0x0C5, 0x0E5, 0x0E7, 0x128, 0x166, 0x1E0, 0x1E1, 0x1E4, 0x1E5].contains op)

/-- The opcode and the C field without the C specifier, for every word of F format (the inverse of `parseOp`). -/
def Instr.opMod : Instr → Option (Nat × Nat)
  | .add _ ty sat => some (0x001, ty.num + bnum sat * 2 ^ 2)
  | .sub _ ty sat => some (0x002, ty.num + bnum sat * 2 ^ 2)
  | .mul _ ty sat => some (0x003, ty.num + bnum sat * 2 ^ 2)
  | .mulhi _ ty => some (0x004, ty.num)
  | .mad _ ty sat => some (0x005, ty.num + bnum sat * 2 ^ 2)
  | .min _ ty => some (0x006, ty.num)
  | .max _ ty => some (0x007, ty.num)
  | .abs _ ty sat => some (0x008, ty.num + bnum sat * 2 ^ 2)
  | .neg _ ty sat => some (0x009, ty.num + bnum sat * 2 ^ 2)
  | .div _ ty sat => some (0x00A, ty.num + bnum sat * 2 ^ 2)
  | .rem _ ty => some (0x00B, ty.num)
  | .lea _ ty sx sh => some (0x00C, ty.num + bnum sx * 2 ^ 2 + sh.toNat * 2 ^ 3)
  | .mov _ ty => some (0x00D, ty.num)
  | .movi _ imm => some (0x00E, imm.toNat)
  | .popc _ ty => some (0x00F, ty.num)
  | .clz _ ty => some (0x010, ty.num)
  | .ctz _ ty => some (0x011, ty.num)
  | .brev _ ty => some (0x012, ty.num)
  | .bfe _ sx pos len => some (0x013, bnum sx * 2 ^ 16 + pos.toNat + len.toNat * 2 ^ 5)
  | .bfi _ pos len => some (0x014, pos.toNat + len.toNat * 2 ^ 5)
  | .bperm _ => some (0x015, 0)
  | .ldvr _ k => some (0x016, k.toNat)
  | .stvr _ k => some (0x017, k.toNat)
  | .addc _ ty => some (0x018, ty.num)
  | .and _ ty => some (0x020, ty.num)
  | .or _ ty => some (0x021, ty.num)
  | .xor _ ty => some (0x022, ty.num)
  | .andn _ ty => some (0x023, ty.num)
  | .not _ ty => some (0x024, ty.num)
  | .shl _ ty => some (0x025, ty.num)
  | .shr _ ty => some (0x026, ty.num)
  | .sar _ ty => some (0x027, ty.num)
  | .rotl _ ty => some (0x028, ty.num)
  | .fsh _ ty => some (0x029, ty.num)
  | .icmp _ ty cond => some (0x040, ty.num + cond.num * 2 ^ 2)
  | .fcmp _ fmt cond => some (0x041, fmt.num + cond.num * 2 ^ 8)
  | .sel _ ty => some (0x042, ty.num)
  | .plog _ tt => some (0x043, tt.toNat)
  | .ballot _ => some (0x044, 0)
  | .vote _ mode => some (0x045, mode.num)
  | .rfal _ ty => some (0x046, ty.num)
  | .bcast _ ty lane => some (0x047, ty.num * 2 ^ 16 + lane.toNat)
  | .shfl _ ty mode => some (0x048, ty.num + mode.num * 2 ^ 2)
  | .fadd _ fmt rnd => some (0x060, fmt.num + rnd.num * 2 ^ 5)
  | .fsub _ fmt rnd => some (0x061, fmt.num + rnd.num * 2 ^ 5)
  | .fmul _ fmt rnd => some (0x062, fmt.num + rnd.num * 2 ^ 5)
  | .ffma _ fmt rnd => some (0x063, fmt.num + rnd.num * 2 ^ 5)
  | .fmin _ fmt => some (0x064, fmt.num)
  | .fmax _ fmt => some (0x065, fmt.num)
  | .fdiv _ fmt rnd => some (0x066, fmt.num + rnd.num * 2 ^ 5)
  | .fsqrt _ fmt rnd => some (0x067, fmt.num + rnd.num * 2 ^ 5)
  | .frcp _ rnd => some (0x068, rnd.num * 2 ^ 5 + 1)
  | .frsq _ rnd => some (0x069, rnd.num * 2 ^ 5 + 1)
  | .fexp2 _ rnd => some (0x06A, rnd.num * 2 ^ 5 + 1)
  | .flog2 _ rnd => some (0x06B, rnd.num * 2 ^ 5 + 1)
  | .fsin _ rnd => some (0x06C, rnd.num * 2 ^ 5 + 1)
  | .fcos _ rnd => some (0x06D, rnd.num * 2 ^ 5 + 1)
  | .fclass _ fmt => some (0x06E, fmt.num)
  | .fscale _ fmt rnd => some (0x06F, fmt.num + rnd.num * 2 ^ 5)
  | .cclr _ => some (0x070, 0)
  | .cadd _ fmt => some (0x071, fmt.num)
  | .cfma _ fmt => some (0x072, fmt.num)
  | .crd _ fmt rnd clr => some (0x073, fmt.num + rnd.num * 2 ^ 5 + bnum clr * 2 ^ 8)
  | .cvt _ dfmt sfmt => some (0x080, dfmt.num + sfmt.num * 2 ^ 5)
  | .cvtsr _ dfmt sfmt => some (0x081, dfmt.num + sfmt.num * 2 ^ 5)
  | .pk _ dfmt sfmt => some (0x082, dfmt.num + sfmt.num * 2 ^ 5)
  | .upk _ dfmt sfmt => some (0x083, dfmt.num + sfmt.num * 2 ^ 5)
  | .rand _ w32 => some (0x084, bnum w32)
  | .br _ imm => some (0x0A0, imm.toNat)
  | .jmp _ => some (0x0A1, 0)
  | .call _ imm => some (0x0A2, imm.toNat)
  | .ret _ => some (0x0A3, 0)
  | .brx _ n => some (0x0A4, n.toNat)
  | .exit _ => some (0x0A5, 0)
  | .nop _ => some (0x0A6, 0)
  | .ld _ sz sp off => some (0x0C0, sz.num * 2 ^ 16 + sp.num * 2 ^ 19 + off.toNat)
  | .st _ sz sp off => some (0x0C1, sz.num * 2 ^ 16 + sp.num * 2 ^ 19 + off.toNat)
  | .ldn _ sz sp off => some (0x0C2, sz.num * 2 ^ 16 + sp.num * 2 ^ 19 + off.toNat)
  | .stn _ sz sp off => some (0x0C3, sz.num * 2 ^ 16 + sp.num * 2 ^ 19 + off.toNat)
  | .touch _ wr off => some (0x0C4, bnum wr * 2 ^ 16 + off.toNat)
  | .pf _ lvl off => some (0x0C5, lvl.num * 2 ^ 16 + off.toNat)
  | .gth _ sz sp acq scope => some (0x0E0, sz.num + sp.num * 2 ^ 3 + bnum acq * 2 ^ 5 + scope.num * 2 ^ 7)
  | .sct _ sz sp rel scope => some (0x0E1, sz.num + sp.num * 2 ^ 3 + bnum rel * 2 ^ 6 + scope.num * 2 ^ 7)
  | .cst _ sz sp rel scope => some (0x0E2, sz.num + sp.num * 2 ^ 3 + bnum rel * 2 ^ 6 + scope.num * 2 ^ 7)
  | .xld _ sz sp acq scope => some (0x0E3, sz.num + sp.num * 2 ^ 3 + bnum acq * 2 ^ 5 + scope.num * 2 ^ 7)
  | .cpy _ acq rel scope => some (0x0E4, bnum acq * 2 ^ 5 + bnum rel * 2 ^ 6 + scope.num * 2 ^ 7)
  | .tagwait _ any imm => some (0x0E5, bnum any * 2 ^ 16 + imm.toNat)
  | .tagffr _ => some (0x0E6, 0)
  | .tagclr _ imm => some (0x0E7, imm.toNat)
  | .atom _ aop dt sc => some (0x100, aop.num + dt.num * 2 ^ 4 + bnum sc * 2 ^ 7)
  | .red _ aop dt => some (0x101, aop.num + dt.num * 2 ^ 4)
  | .aord _ aop dt dm acq rel scope => some (0x102, aop.num + dt.num * 2 ^ 4 + bnum dm * 2 ^ 7 + bnum acq * 2 ^ 8 + bnum rel * 2 ^ 9 + scope.num * 2 ^ 10)
  | .afree _ aop dt dm acq rel scope => some (0x103, aop.num + dt.num * 2 ^ 4 + bnum dm * 2 ^ 7 + bnum acq * 2 ^ 8 + bnum rel * 2 ^ 9 + scope.num * 2 ^ 10)
  | .barv _ dm scope => some (0x120, bnum dm + scope.num * 2 ^ 1)
  | .barvInit _ dm scope => some (0x120, bnum dm + scope.num * 2 ^ 1 + 8)
  | .barw _ dm scope => some (0x121, bnum dm + scope.num * 2 ^ 1)
  | .barwWait _ dm scope => some (0x121, bnum dm + scope.num * 2 ^ 1 + 16)
  | .fpost _ dm scope => some (0x122, bnum dm + scope.num * 2 ^ 1)
  | .fpostInit _ dm scope => some (0x122, bnum dm + scope.num * 2 ^ 1 + 8)
  | .fwait _ dm scope => some (0x123, bnum dm + scope.num * 2 ^ 1)
  | .olacq _ dm scope => some (0x124, bnum dm + scope.num * 2 ^ 1)
  | .olacqFree _ dm scope => some (0x124, bnum dm + scope.num * 2 ^ 1 + 32)
  | .olrel _ dm scope => some (0x125, bnum dm + scope.num * 2 ^ 1)
  | .olrelPass _ dm scope => some (0x125, bnum dm + scope.num * 2 ^ 1 + 16)
  | .olrelInit _ dm scope free => some (0x125, bnum dm + scope.num * 2 ^ 1 + bnum free * 2 ^ 5 + 8)
  | .olrelFree _ dm scope => some (0x125, bnum dm + scope.num * 2 ^ 1 + 32)
  | .wreg _ dm hold sb => some (0x126, bnum dm + bnum hold * 2 ^ 4 + sb.toNat * 2 ^ 6)
  | .wunreg _ dm hold sb => some (0x127, bnum dm + bnum hold * 2 ^ 4 + sb.toNat * 2 ^ 6)
  | .yield _ => some (0x128, 0)
  | .fence _ scope => some (0x129, scope.num * 2 ^ 1)
  | .sweep _ scope => some (0x12A, scope.num * 2 ^ 1)
  | .qpush _ dm scope => some (0x12B, bnum dm + scope.num * 2 ^ 1)
  | .qpushInit _ dm scope => some (0x12B, bnum dm + scope.num * 2 ^ 1 + 8)
  | .qpop _ dm scope => some (0x12C, bnum dm + scope.num * 2 ^ 1)
  | .fork _ => some (0x140, 0)
  | .join _ => some (0x141, 0)
  | .vstat _ vs => some (0x142, vs.num)
  | .launch _ => some (0x143, 0)
  | .cancel _ => some (0x144, 0)
  | .lcount _ nowait => some (0x145, bnum nowait)
  | .migrate _ => some (0x146, 0)
  | .mma _ fmt acf shape scA scB => some (0x160, fmt.num + acf.num * 2 ^ 5 + shape.num * 2 ^ 8 + bnum scA * 2 ^ 10 + bnum scB * 2 ^ 11)
  | .mz _ => some (0x161, 0)
  | .mld _ rows rsz sc => some (0x162, rows.toNat + rsz.num * 2 ^ 6 + bnum sc * 2 ^ 8)
  | .mst _ rows rsz sc => some (0x163, rows.toNat + rsz.num * 2 ^ 6 + bnum sc * 2 ^ 8)
  | .mtov _ part => some (0x164, part.toNat)
  | .vtom _ part => some (0x165, part.toNat)
  | .msync _ => some (0x166, 0)
  | .mmas _ fmt acf shape scA scB => some (0x180, fmt.num + acf.num * 2 ^ 5 + shape.num * 2 ^ 8 + bnum scA * 2 ^ 10 + bnum scB * 2 ^ 11)
  | .shcom _ => some (0x181, 0)
  | .shdis _ => some (0x182, 0)
  | .dsetPt _ => some (0x1A0, 0)
  | .dsetU _ => some (0x1A0, 1)
  | .dld _ sc => some (0x1A1, bnum sc)
  | .dst _ sc => some (0x1A2, bnum sc)
  | .dadd _ => some (0x1A3, 0)
  | .dsub _ => some (0x1A4, 0)
  | .dmul _ => some (0x1A5, 0)
  | .ddiv _ => some (0x1A6, 0)
  | .daff _ => some (0x1A7, 0)
  | .dmin _ => some (0x1A8, 0)
  | .dmax _ => some (0x1A9, 0)
  | .dmap _ fn => some (0x1AA, fn.num)
  | .dmom _ ms => some (0x1AB, ms.num)
  | .dqnt _ lvl => some (0x1AC, lvl.num)
  | .dtagNew _ => some (0x1AD, 0)
  | .dtagSet _ => some (0x1AD, 1)
  | .dtagGet _ => some (0x1AD, 2)
  | .dmix _ => some (0x1AE, 0)
  | .dsamp _ => some (0x1AF, 0)
  | .xroute _ => some (0x1C0, 0)
  | .xrel _ => some (0x1C1, 0)
  | .xcnt _ => some (0x1C2, 0)
  | .xver _ => some (0x1C3, 0)
  | .trap _ imm => some (0x1E0, imm.toNat)
  | .tret _ => some (0x1E1, 0)
  | .rsr _ => some (0x1E2, 0)
  | .wsr _ => some (0x1E3, 0)
  | .ienter _ => some (0x1E4, 0)
  | .brk _ imm => some (0x1E5, imm.toNat)
  | .cachectl _ cop => some (0x1E6, cop.num)
  | _ => none

/-- A word of F format from its fields (Table 42). -/
def packF (op : Nat) (f : F) (cf : Nat) : Nat :=
  op * 2 ^ 54 + f.g.toNat * 2 ^ 50 + f.d.toNat * 2 ^ 41 + f.a.toNat * 2 ^ 32 + f.b.toNat * 2 ^ 23 + f.h.toNat * 2 ^ 21 + cf

/-- One slot of a P word (R178). -/
def packSlot (t : Slot) : Nat :=
  t.op.num * 2 ^ 25 + t.g.toNat * 2 ^ 22 + t.d.toNat * 2 ^ 14 + t.a.toNat * 2 ^ 6 + t.imm.toNat

/-- A word of X format (Table 49). -/
def packX (op : Nat) (x : X) : Nat :=
  2 ^ 63 + 2 ^ 62 + op * 2 ^ 53 + x.g.toNat * 2 ^ 49 + x.d.toNat * 2 ^ 40 + x.imm.toNat

/-- The opcodes of Table 50. -/
def Instr.xOp : Instr → Option (Nat × X)
  | .movl x => some (0x00E, x)
  | .addX x => some (0x001, x)
  | .brX x => some (0x0A0, x)
  | .callX x => some (0x0A2, x)
  | .ldX x => some (0x0C0, x)
  | .stX x => some (0x0C1, x)
  | _ => none

/-- The number a word encodes as; none for an event. -/
def Instr.encodeNat (i : Instr) : Option Nat :=
  match i with
  | .pairWord a b => some (2 ^ 63 + packSlot a * 2 ^ 31 + packSlot b)
  | i =>
    match i.xOp with
    | some (op, x) => some (packX op x)
    | none =>
      match i.opMod, i.fields with
      | some (op, m), some f => some (packF op f (if isFormC op then f.c.toNat * 2 ^ 12 + m else m))
      | _, _ => none

/-- The word of a well-formed instruction (R165 to R183). An event encodes as the all-zero word, which is illegal (R184). -/
def encode (i : Instr) : W64 := BitVec.ofNat 64 (i.encodeNat.getD 0)

/-- The F fields of a word, the C specifier read only in form C. -/
def parseFields (op x : Nat) : Option F :=
  (Guard.ofNat (bitsAt x 50 4)).bind fun g =>
  (Opnd.ofNat (bitsAt x 41 9)).bind fun d =>
  (Opnd.ofNat (bitsAt x 32 9)).bind fun a =>
  (Opnd.ofNat (bitsAt x 23 9)).bind fun b =>
  (if isFormC op then Opnd.ofNat (bitsAt x 12 9) else some (.v 0)).bind fun c =>
  some ⟨g, d, a, b, c, BitVec.ofNat 2 (x / 2 ^ 21)⟩

/-- One slot of a P word. -/
def parseSlot (x : Nat) : Option Slot :=
  (SlotOp.codes[bitsAt x 25 6]?).bind fun op =>
  (SGuard.ofNat (bitsAt x 22 3)).bind fun g =>
  (SOpnd.ofNat (bitsAt x 14 8)).bind fun d =>
  (SOpnd.ofNat (bitsAt x 6 8)).bind fun a =>
  some ⟨op, g, d, a, BitVec.ofNat 6 x⟩

/-- The X form an opcode names (Table 50). -/
def parseX (op : Nat) (x : X) : Option Instr :=
  match op with
  | 0x00E => some (.movl x)
  | 0x001 => some (.addX x)
  | 0x0A0 => some (.brX x)
  | 0x0A2 => some (.callX x)
  | 0x0C0 => some (.ldX x)
  | 0x0C1 => some (.stX x)
  | _ => none

/-- The instruction whose fields a word holds (R165), before the legality check. -/
def parse (x : Nat) : Option Instr :=
  if bitsAt x 63 1 = 0 then
    let op := bitsAt x 54 9
    (parseFields op x).bind fun f => parseOp op (if isFormC op then bitsAt x 0 12 else bitsAt x 0 21) f
  else if bitsAt x 62 1 = 0 then
    (parseSlot (bitsAt x 31 31)).bind fun a =>
    (parseSlot (bitsAt x 0 31)).bind fun b => some (.pairWord a b)
  else
    (Guard.ofNat (bitsAt x 49 4)).bind fun g =>
    (Opnd.ofNat (bitsAt x 40 9)).bind fun d =>
    parseX (bitsAt x 53 9) ⟨g, d, BitVec.ofNat 32 x⟩

/-- The decoder: exactly the words of Table 52's complement. `none` is an illegal word, which raises 0x01 at issue. -/
def decode (w : W64) : Option Instr :=
  (parse w.toNat).bind fun i => if i.wf && i.encodeNat == some w.toNat then some i else none

/-- The 64-bit little-endian value of a word's eight bytes (R165). -/
def wordOfBytes (bs : List Byte) : W64 :=
  BitVec.ofNat 64 (bs.foldr (fun b acc => b.toNat + 256 * acc) 0)

/-- The bytes of a 64-bit value, lowest address first (R7). -/
def bytesOfNat (n x : Nat) : List Byte := (List.range n).map fun k => BitVec.ofNat 8 (x / 256 ^ k)

/-- The instruction the decoder reads from a word whose bits are `w`, given as the opcode table numbers them: a word
of Ewesis 1 is one little-endian 64-bit value, so the numbers agree; bits above `nbits` are zero. -/
def decodeTableWord (nbits w : Nat) : Option Instr :=
  if nbits ≤ 64 then decode (wordOfBytes (bytesOfNat 8 (w % 2 ^ nbits))) else none

end Sys2Proof
end

