-- ==== Sys2Proof/Machine/Registers.lean ====
section
/-! DEFINITION. The registers of PF BAR 0 and VF BAR 0 (Tables 104, 110, 119, 120, 129): offsets, reset values and
fields. Each register is 8 bytes; a register with nothing listed reads its reset value. -/

namespace Sys2Proof.Machine

/-! Offsets of Table 120, in its order from 0. -/
def Pf.pfstat : Nat := 0x00
def Pf.apbase : Nat := 0x08
def Pf.vfap (c : Nat) : Nat := 0x08 + 8 * c
def Pf.poolcfg : Nat := 0x90
def Pf.pecfg : Nat := 0x98
def Pf.fqbase : Nat := 0xA0
def Pf.fqlog2 : Nat := 0xA8
def Pf.fqprod : Nat := 0xB0
def Pf.fqcons : Nat := 0xB8
def Pf.fresp : Nat := 0xC0
def Pf.xpcfg : Nat := 0xC8
def Pf.xpthr : Nat := 0xD0
def Pf.xpstat : Nat := 0xD8
def Pf.mtload : Nat := 0xE0
def Pf.escbase : Nat := 0xE8
def Pf.esclog2 : Nat := 0xF0
def Pf.escprod : Nat := 0xF8
def Pf.esccons : Nat := 0x100
def Pf.inval : Nat := 0x108
def Pf.migcmd : Nat := 0x120
def Pf.migstat : Nat := 0x138
def Pf.mbcmd : Nat := 0x140
def Pf.mbarg : Nat := 0x148
def Pf.mbstat : Nat := 0x150
/-- Checkpoint registers (R404). -/
def Pf.rsvcfg : Nat := 0x800
def Pf.ckcmd0 : Nat := 0x808
def Pf.ckcmd1 : Nat := 0x810
def Pf.ckstat : Nat := 0x818
def Pf.storecfg : Nat := 0x820
/-- Registers of socket s (R389, R398): OVF, SPILL, ERRSUM, bank b. -/
def Pf.ovf (d : Nat) : Nat := 0x1000 + 0x400 * d
def Pf.spill (d : Nat) : Nat := 0x1000 + 0x400 * d + 8
def Pf.errsum (s : Nat) : Nat := 0x1000 + 0x400 * s + 0x80
def Pf.bank (s b : Nat) : Nat := 0x1000 + 0x400 * s + 0x100 + 32 * b
/-- Registers of context c: PTROOT first; descriptor word k; TBCFG of die d; reduction window n. -/
def Pf.ctx (c off : Nat) : Nat := 0x10000 + 0x1000 * (c - 1) + off
def Pf.tbcfg (c d : Nat) : Nat := Pf.ctx c (0x200 + 8 * d)
def Pf.redwin (c n : Nat) : Nat := Pf.ctx c (0x400 + 64 * n)
/-- Decode-window descriptor n (Table 34); the word of routing entries that holds package p. -/
def Pf.window (n : Nat) : Nat := 0x20000 + 64 * n
def Pf.route (p : Nat) : Nat := 0x30000 + 8 * (p / 4)
def Pf.msix : Nat := 0x40000
def Pf.msixPend : Nat := 0x41000
/-- The recovery image buffer (R391). -/
def Pf.image : Nat := 0x100000

/-- The reset value of a PF register (Tables 79, 80, 104, 108, 110, 129; registers without one: 0, log entry 3). -/
def pfReset (off : Nat) : W64 :=
  if off = Pf.poolcfg then 64
  else if off = Pf.pecfg then BitVec.ofNat 64 (10000 * 2 ^ 16 + 192)
  else if off = Pf.xpcfg then BitVec.ofNat 64 (8 * 2 ^ 52 + 1000 * 2 ^ 32 + 100 * 2 ^ 16)
  else if off = Pf.xpthr then BitVec.ofNat 64 (0xFFFFFFFF * 2 ^ 32)
  else if 0x10000 ≤ off && off < 0x20000 && 0x200 ≤ off % 0x1000 && off % 0x1000 < 0x240 then
    BitVec.ofNat 64 (0xFFFFFFFF * 2 ^ 32)
  else 0

/-- A PF register. -/
def State.pfNum (s : State) (off : Nat) : W64 := SMap.get s.pf (pfReset off) off
def State.setPf (s : State) (off : Nat) (x : W64) : State := { s with pf := SMap.set s.pf (pfReset off) off x }
/-- A register of VF c (Table 119). -/
def State.vfNum (s : State) (c off : Nat) : W64 := SMap.get s.vf 0 (65536 * c + off)
def State.setVf (s : State) (c off : Nat) (x : W64) : State := { s with vf := SMap.set s.vf 0 (65536 * c + off) x }

/-- Bits [lo+n−1:lo] of a 64-bit value. -/
def fld (x : W64) (lo n : Nat) : Nat := x.toNat / 2 ^ lo % 2 ^ n
/-- Whether the routing table gives no port towards a package (R364). -/
def State.noRoute (s : State) (p : Nat) : Bool := fld (s.pfNum (Pf.route p)) (16 * (p % 4)) 12 == 0
/-- A value with a field replaced. -/
def setFld (x : W64) (lo n v : Nat) : W64 :=
  BitVec.ofNat 64 (x.toNat - fld x lo n * 2 ^ lo + (v % 2 ^ n) * 2 ^ lo)

/-! Fields of context registers (Table 110). -/
def State.ptroot (s : State) (c : Nat) : Nat := fld (s.pfNum (Pf.ctx c 0)) 12 40 * 4096
def State.handler (s : State) (c : Nat) : W64 := BitVec.ofNat 64 (fld (s.pfNum (Pf.ctx c 8)) 0 56)
def State.framebase (s : State) (c : Nat) : Nat := fld (s.pfNum (Pf.ctx c 0x10)) 0 56
def State.savebase (s : State) (c : Nat) : Nat := fld (s.pfNum (Pf.ctx c 0x18)) 0 56
def State.savelen (s : State) (c : Nat) : Nat := fld (s.pfNum (Pf.ctx c 0x20)) 0 40
def State.dbgBrk (s : State) (c : Nat) : Bool := fld (s.pfNum (Pf.ctx c 0x28)) 0 1 == 1
/-- Twin-pool size in GiB; a value outside 16 to 256 reads as 64 (Table 110). -/
def State.poolGib (s : State) : Nat :=
  let n := fld (s.pfNum Pf.poolcfg) 0 9
  if 16 ≤ n && n ≤ 256 then n else 64
/-- The context descriptor (Table 108). -/
def State.diemask (s : State) (c : Nat) : Nat := fld (s.pfNum (Pf.ctx c 0x100)) 0 8
def State.npkg (s : State) (c : Nat) : Nat := fld (s.pfNum (Pf.ctx c 0x100)) 16 16
def State.prank (s : State) (c : Nat) : Nat := fld (s.pfNum (Pf.ctx c 0x100)) 32 16
def State.pkgtab (s : State) (c : Nat) : Nat := fld (s.pfNum (Pf.ctx c 0x108)) 0 56
def State.logbase (s : State) (c : Nat) : Nat := fld (s.pfNum (Pf.ctx c 0x110)) 0 56
def State.loglen (s : State) (c : Nat) : Nat := (s.pfNum (Pf.ctx c 0x118)).toNat
/-- WDOG of Table 108 in ms: 0 reads as 50, and a value beyond 60,000 as 60,000 (log 124). -/
def wdogOf (x : W64) : Nat := if fld x 0 32 = 0 then 50 else min (fld x 0 32) 60000
/-- The period of R120 in a context, in ms. -/
def State.wdog (s : State) (c : Nat) : Nat := wdogOf (s.pfNum (Pf.ctx c 0x120))
/-- XPCFG (Table 79): EN counts only while CTX is not 0. -/
def State.xpCtx (s : State) : Nat := fld (s.pfNum Pf.xpcfg) 56 5
def State.xpEn (s : State) : Bool := fld (s.pfNum Pf.xpcfg) 63 1 == 1 && s.xpCtx != 0
def State.xpMaxrep (s : State) : Nat :=
  let n := fld (s.pfNum Pf.xpcfg) 52 4
  if 1 ≤ n && n ≤ 8 then n else 8

/-- The context record of a number, and its update. -/
def State.ctx (s : State) (c : Nat) : Ctx := SMap.get s.ctxs Ctx.zero c
def State.setCtx (s : State) (c : Nat) (x : Ctx) : State := { s with ctxs := SMap.set s.ctxs Ctx.zero c x }

/-- Signal an MSI-X vector (R388, R389): masked by bit 0 of its table entry's control word, it becomes pending;
otherwise its message is sent. Function 0 is PF 0. -/
def State.msi (s : State) (fn vec : Nat) : State :=
  if fn = 0 then
    if fld (s.pfNum (Pf.msix + 16 * vec + 8)) 32 1 = 1 then
      s.setPf Pf.msixPend (s.pfNum Pf.msixPend ||| BitVec.ofNat 64 (2 ^ vec))
    else { s with hostOut := s.hostOut ++ [.msi 0 vec] }
  else if fld (s.vfNum fn (0x1000 + 16 * vec + 8)) 32 1 = 1 then
    s.setVf fn 0x2000 (s.vfNum fn 0x2000 ||| BitVec.ofNat 64 (2 ^ vec))
  else { s with hostOut := s.hostOut ++ [.msi fn vec] }

/-- Put an event at the end of the inbox. -/
def State.post (s : State) (e : Instr) : State := { s with inbox := s.inbox ++ [e] }
/-- Put an event at the end of the inbox unless it stands there. -/
def State.postOnce (s : State) (e : Instr) : State := { s with inbox := addOnce s.inbox e }

/-- A fresh number for requests, commands, replies and groups. -/
def State.fresh (s : State) : Nat × State := (s.ids, { s with ids := s.ids + 1 })

end Sys2Proof.Machine
end

