-- ==== Sys2Proof/Machine/Operands.lean ====
section
/-! DEFINITION. Lanes and masks, registers, special registers (Table 45), every operand form (R170 to R174, R186),
register bounds (R30, R185 step 2), the scoreboard (R322) and the operand latch (R176). -/

namespace Sys2Proof
open Machine
namespace Machine

/-! ### Lanes and masks -/

/-- All 32 lanes. -/
def allLanes : List Nat := List.range 32
/-- The lanes of a mask, ascending. -/
def lanesOf (m : Mask) : List Nat := allLanes.filter fun l => m.getLsbD l
/-- The mask of one lane. -/
def laneBit (l : Nat) : Mask := BitVec.ofNat 32 (2 ^ l)
/-- The lowest lane of a mask, 0 for none. -/
def lowLane (m : Mask) : Nat := (lanesOf m).headD 0
/-- The mask of the lanes that satisfy a condition. -/
def maskOf (p : Nat → Bool) : Mask := allLanes.foldl (fun m l => if p l then m ||| laneBit l else m) 0
/-- How many lanes a mask holds. -/
def countLanes (m : Mask) : Nat := (lanesOf m).length

namespace Wave
/-- The PC of a lane. -/
def pcAt (w : Wave) (l : Nat) : W64 := SMap.get w.pc 0 l
/-- The lanes parked by the wave's groups. -/
def parked (w : Wave) : Mask := w.groups.foldl (fun m g => m ||| g.mask) 0
/-- The lanes in the PC table (R20). -/
def table (w : Wave) : Mask := ~~~(w.exited ||| w.parked)
/-- The run at a PC. -/
def runAt (w : Wave) (pc : W64) : Mask := maskOf fun l => w.table.getLsbD l && w.pcAt l == pc
/-- Put every lane of a mask at a PC. -/
def goTo (w : Wave) (m : Mask) (pc : W64) : Wave :=
  { w with pc := (lanesOf m).foldl (fun t l => SMap.set t 0 l pc) w.pc }

/-! ### Register files -/

def sreg (w : Wave) (n : Nat) : W32 := SMap.get w.r.s 0 n
def vreg (w : Wave) (n l : Nat) : W32 := SMap.get w.r.v 0 (32 * n + l)
/-- A predicate of a lane; p0 reads true (R168). -/
def pred (w : Wave) (n l : Nat) : Bool := n == 0 || (SMap.get w.r.p 0 n).getLsbD l
def ireg (w : Wave) (n l : Nat) : BitVec 8 := SMap.get w.r.i 0 (32 * n + l)
def latch (w : Wave) (n l : Nat) : W64 := SMap.get w.r.lat 0 (32 * n + l)
def cruc (w : Wave) (n : Nat) : Cruc := SMap.get w.r.c .zero n
def dreg (w : Wave) (n l : Nat) : BitVec 512 := SMap.get w.r.d dReset (32 * n + l)
def dtag (w : Wave) (n l : Nat) : BitVec 16 := SMap.get w.r.dtag 0 (32 * n + l)
def side (w : Wave) (q : Nat) : Sh := SMap.get w.r.sh .empty q

def setS (w : Wave) (n : Nat) (x : W32) : Wave := { w with r := { w.r with s := SMap.set w.r.s 0 n x } }
def setV (w : Wave) (n l : Nat) (x : W32) : Wave := { w with r := { w.r with v := SMap.set w.r.v 0 (32 * n + l) x } }
/-- Write a predicate of a lane; p0 is never written. -/
def setP (w : Wave) (n l : Nat) (x : Bool) : Wave :=
  let m := SMap.get w.r.p 0 n
  { w with r := { w.r with p := SMap.set w.r.p 0 n (if x then m ||| laneBit l else m &&& ~~~laneBit l) } }
def setI (w : Wave) (n l : Nat) (x : BitVec 8) : Wave := { w with r := { w.r with i := SMap.set w.r.i 0 (32 * n + l) x } }
def setLat (w : Wave) (n l : Nat) (x : W64) : Wave := { w with r := { w.r with lat := SMap.set w.r.lat 0 (32 * n + l) x } }
def setC (w : Wave) (n : Nat) (x : Cruc) : Wave := { w with r := { w.r with c := SMap.set w.r.c .zero n x } }
def setD (w : Wave) (n l : Nat) (x : BitVec 512) (t : BitVec 16) : Wave :=
  { w with r := { w.r with d := SMap.set w.r.d dReset (32 * n + l) x, dtag := SMap.set w.r.dtag 0 (32 * n + l) t } }
def setSide (w : Wave) (q : Nat) (x : Sh) : Wave := { w with r := { w.r with sh := SMap.set w.r.sh .empty q x } }

/-- Push a value into a lane's latch (R176). -/
def push (w : Wave) (l : Nat) (x : W64) : Wave :=
  ((w.setLat 2 l (w.latch 1 l)).setLat 1 l (w.latch 0 l)).setLat 0 l x
end Wave

/-! ### Special registers (Table 45, R12) -/

/-- Bit 0 REC, bit 1 REPLAY of the context's mode (R351 code 7). -/
def State.modeBits (s : State) (c : Nat) : Nat := match (s.ctx c).first with | some x => x.2.2 | none => 0
/-- Whether a context runs in recorded mode (R121). -/
def State.recorded (s : State) (c : Nat) : Bool := s.modeBits c % 2 == 1
def State.replaying (s : State) (c : Nat) : Bool := s.modeBits c / 2 % 2 == 1

/-- The fork elements among the elements of a global block ID after the block index (R13, R354). -/
def forkDepth : List Nat → Nat → Nat
  | [], _ => 0
  | e :: es, k =>
    if k ≠ 0 then forkDepth es (k - 1)
    else if 65536 ≤ e && e < 131072 then forkDepth es 1 else 1 + forkDepth es 0

/-- Where the wave that issues runs: die, core and wave slot; a migrated wave's landing slot (R244). -/
def State.homeOf (s : State) : Nat × Nat × Nat :=
  match s.w.place with
  | some p => p
  | none => (s.b.die, s.b.core, s.b.slots.getD s.w.idx 0)

/-- The value of a special register in a lane. %clock is free (Table 1). %pkg is the package's rank (log entry 20). -/
def State.special (s : State) (r : SReg) (l : Nat) : W64 :=
  match r with
  | .lane => BitVec.ofNat 64 l
  | .wave => BitVec.ofNat 64 s.w.idx
  | .nwave => BitVec.ofNat 64 s.b.al.waves
  | .block => s.b.bix.setWidth 64
  | .nblock => s.b.nblk.setWidth 64
  | .child => s.b.cix.setWidth 64
  | .nchild => s.b.ncld.setWidth 64
  | .view => BitVec.ofNat 64 (forkDepth (s.b.gid.drop 5) 0)
  | .core => BitVec.ofNat 64 s.homeOf.2.1
  | .die => BitVec.ofNat 64 s.homeOf.1
  | .pkg => BitVec.ofNat 64 (s.prank s.b.ctx)
  | .job => s.b.job.setWidth 64
  | .phase => s.b.phase.setWidth 64
  | .graph => s.b.graph.setWidth 64
  | .launch => s.b.launch.setWidth 64
  | .prio => s.b.prio.setWidth 64
  | .fmode => s.w.sp.fmode.setWidth 64
  | .fflags => s.w.sp.fflags.setWidth 64
  | .tagready => s.b.tagready
  | .cprog => s.w.sp.cprog.setWidth 64
  | .mrow => s.w.sp.mrow.setWidth 64
  | .ientry => s.w.sp.ientry.setWidth 64
  | .wbase => s.w.sp.wbase.setWidth 64
  | .rngctr => SMap.get s.w.sp.rng 0 l
  | .clock => Config.clockAt s.free
  | .trapcause => BitVec.ofNat 64 (match s.w.frames with | f :: _ => f.cause | [] => 0)
  | .trapinfo => s.w.sp.trapinfo
  | .trapaddr => s.w.sp.trapaddr
  | .tstack => BitVec.ofNat 64 s.w.frames.length
  | .mode => if s.recorded s.b.ctx then 1 else 0

/-! ### Operand values -/

end Machine
/-- The vector register that an operand names, windows resolved (R174). -/
def Opnd.vnum (w : Wave) : Opnd → Option Nat
  | .v n => some n.toNat
  | .win k => some (w.sp.wbase.toNat + k.toNat)
  | _ => none
namespace Machine

/-- `n` consecutive vector registers of a lane, as one number. -/
def Wave.vregs (w : Wave) (r l : Nat) : Nat → Nat
  | 0 => 0
  | n + 1 => (w.vreg r l).toNat + 2 ^ 32 * w.vregs (r + 1) l n

/-- `n` consecutive scalar registers, as one number. -/
def Wave.sregs (w : Wave) (r : Nat) : Nat → Nat
  | 0 => 0
  | n + 1 => (w.sreg r).toNat + 2 ^ 32 * w.sregs (r + 1) n

/-- The bits of an operand of `n` registers in a lane (R172, R186). A float constant read here is one of F32; a special
register is zero-extended (log 115). -/
def State.opnd (s : State) (o : Opnd) (n l : Nat) : Nat :=
  match o with
  | .v r => s.w.vregs r.toNat l n
  | .win k => s.w.vregs (s.w.sp.wbase.toNat + k.toNat) l n
  | .s r => s.w.sregs r.toNat n
  | .p r => if s.w.pred r.toNat l then 1 else 0
  | .i r => (s.w.ireg r.toNat l).toNat
  | .sr r => (s.special r l).toNat % 2 ^ (32 * n)
  | .ci k => k.toNat
  | .cf k => floatConstBits .f32 k.toNat
  | .lat k => (s.w.latch k.val l).toNat % 2 ^ (32 * n)
  | _ => 0

/-- The bits of a float operand: a float constant is rounded to the operand's format (R172). -/
def State.fopnd (s : State) (m : Fmt) (o : Opnd) (l : Nat) : Nat :=
  match o with
  | .cf k => floatConstBits m k.toNat
  | o => s.opnd o m.regs l

def State.opnd32 (s : State) (o : Opnd) (l : Nat) : W32 := BitVec.ofNat 32 (s.opnd o 1 l)
def State.opnd64 (s : State) (o : Opnd) (l : Nat) : W64 := BitVec.ofNat 64 (s.opnd o 2 l)
/-- An integer operand of a type (R187). -/
def State.iopnd (s : State) (ty : Ty) (o : Opnd) (l : Nat) : Int := intOf ty.signed ty.bits (s.opnd o ty.regs l)

end Machine
/-- Whether the value of an operand is one for the whole wave. -/
def Opnd.isScalar (o : Opnd) : Bool := !o.perLane
namespace Machine

/-! ### Writing registers -/

/-- Write the low bits of a number to `n` consecutive vector registers of a lane. -/
def Wave.setVs (w : Wave) (r l : Nat) : Nat → Nat → Wave
  | 0, _ => w
  | n + 1, x => (w.setV r l (BitVec.ofNat 32 x)).setVs (r + 1) l n (x / 2 ^ 32)

def Wave.setSs (w : Wave) (r : Nat) : Nat → Nat → Wave
  | 0, _ => w
  | n + 1, x => (w.setS r (BitVec.ofNat 32 x)).setSs (r + 1) n (x / 2 ^ 32)

/-- Write an operand of `n` registers in a lane; `zero` discards (R173). -/
def Wave.setOpnd (w : Wave) (o : Opnd) (n l x : Nat) : Wave :=
  match o with
  | .v r => w.setVs r.toNat l n x
  | .win k => w.setVs (w.sp.wbase.toNat + k.toNat) l n x
  | .s r => w.setSs r.toNat n x
  | .p r => w.setP r.toNat l (x % 2 == 1)
  | .i r => w.setI r.toNat l (BitVec.ofNat 8 x)
  | _ => w

def State.setW (s : State) (w : Wave) : State := { s with w := w }
def State.setB (s : State) (b : Block) : State := { s with b := b }

def State.setOpnd (s : State) (o : Opnd) (n l x : Nat) : State := s.setW (s.w.setOpnd o n l x)

/-- Write one value to a destination: to every active lane of a v or p register, once to an s register. -/
def State.setAll (s : State) (act : Mask) (o : Opnd) (n x : Nat) : State :=
  match o with
  | .s _ => s.setOpnd o n 0 x
  | o => (lanesOf act).foldl (fun t l => t.setOpnd o n l x) s

/-! ### Register bounds (R30, R174, R185 step 2) -/

end Machine
/-- The 9-bit specifier of an operand, as %trapinfo holds it. -/
def Opnd.info (o : Opnd) : W64 := BitVec.ofNat 64 o.toNat
namespace Machine

/-- Whether an operand of a position stays within the wave's allocation: vector registers with the alignment of a
windowed pair or quad, or eight (log 114), distribution registers, tiles, and s registers that exist. -/
def State.inBounds (s : State) (o : Opnd) (n al : Nat) : Bool :=
  match o with
  | .v r => r.toNat + n ≤ s.b.al.vregs
  | .win k =>
    let r := s.w.sp.wbase.toNat + k.toNat
    r + n ≤ s.b.al.vregs && r + n ≤ 256 && r % al == 0
  | .s r => r.toNat + n ≤ 64
  | .d r => r.toNat < s.b.al.dregs
  | .acc r => r.toNat + n ≤ s.b.al.acct
  | _ => true

/-- The bounds check of one position. -/
def State.posOk (s : State) (q : Pos) (o : Opnd) : Bool := q.cls == [] || s.inBounds o q.n q.al

end Machine
/-- The vector registers of a slot operand. -/
def SOpnd.full : SOpnd → Opnd
  | .v n => .v (n.setWidth 8)
  | .s n => .s n
  | .p n => .p n
  | .lat n => .lat n
  | .zero => .zero
  | .ci n => .ci n
namespace Machine

/-- The first operand out of bounds, in the order D, A, B, C (log entry 8), as %trapinfo. -/
def State.boundsFail (s : State) (i : Instr) : Option W64 :=
  match i with
  | .pairWord a b =>
    if !s.inBounds a.d.full 1 1 then some (BitVec.ofNat 64 a.d.toNat)
    else if !s.inBounds a.a.full 1 1 then some (BitVec.ofNat 64 a.a.toNat)
    else if !s.inBounds b.d.full 1 1 then some (BitVec.ofNat 64 b.d.toNat)
    else if !s.inBounds b.a.full 1 1 then some (BitVec.ofNat 64 b.a.toNat)
    else none
  | i =>
    match i.fields with
    | none => none
    | some f =>
      let g := i.sig
      if !s.posOk g.d f.d then some f.d.info
      else if !s.posOk g.a f.a then some f.a.info
      else if !s.posOk g.b f.b then some f.b.info
      else if !s.posOk g.c f.c then some f.c.info
      else none

/-! ### Scoreboard (R322) -/

end Machine
/-- The registers an operand covers: key 0 + register for s, 64 + register for v, 320 + register for p. -/
def Opnd.covers (w : Wave) (o : Opnd) (n : Nat) : List Nat :=
  match o with
  | .s r => (List.range n).map (r.toNat + ·)
  | .p r => if n = 0 then [] else [320 + r.toNat]
  | o => match o.vnum w with
    | some r => (List.range n).map (64 + r + ·)
    | none => []
/-- The predicate that a guard reads. -/
def Guard.covers : Guard → List Nat
  | .always => []
  | .pos n | .neg n => [321 + n.val]
/-- A slot's guard as a full guard. -/
def SGuard.full : SGuard → Guard
  | .always => .always
  | .pos n => .pos ⟨n.val, by omega⟩
  | .neg n => .neg ⟨n.val, by omega⟩
namespace Machine

/-- The registers that a wait has yet to write: once it is satisfied and delivered, none. -/
def WaitR.regs (r : WaitR) : Nat :=
  if r.done then r.res.length
  else match r.kind with
  | .bar => 1
  | .acq | .free | .count => 2
  | .pop => r.pay.length
  | .flag | .pass | .push | .tag => 0

/-- The parked groups of a wave, and those that its frames keep during a handler (R378). -/
def Wave.parkedGroups (w : Wave) : List Group := w.groups ++ w.frames.flatMap fun f => f.groups

/-- Registers of the wave that await delivery: return values, and what parked words will write. -/
def State.pendingRegs (s : State) : List Nat :=
  (s.w.pending.flatMap fun e => e.1.covers s.w e.2) ++
  s.w.parkedGroups.flatMap fun g => g.waits.flatMap fun r => r.dst.covers s.w r.regs

/-- Whether a flag-setting operation of the wave has yet to deliver its flags (R138). -/
def State.flagsDue (s : State) : Bool :=
  (s.reqs ++ s.gate).any (fun q => q.blk == s.w.blk && q.wv == s.w.idx && q.op == .add && !q.dt.isInt && !q.lock) ||
  s.replies.any fun r => r.blk == s.w.blk && r.wv == s.w.idx && r.flags != 0

end Machine
/-- Whether a word reads or writes %fflags by name. -/
def Instr.namesFlags (i : Instr) : Bool :=
  match i.fields with
  | some f => f.a == .sr .fflags || f.b == .sr .fflags || f.c == .sr .fflags || f.d == .sr .fflags
  | none => false
namespace Machine

/-- Whether a word names a register that awaits delivery, or %fflags while flags are due. -/
def State.waitsFor (s : State) (i : Instr) : Bool :=
  let rs := s.pendingRegs
  if i.namesFlags && s.flagsDue then true
  else if rs == [] then false
  else
    let used : List Nat := match i with
      | .pairWord a b =>
        a.g.full.covers ++ a.d.full.covers s.w 1 ++ a.a.full.covers s.w 1 ++ b.g.full.covers ++ b.d.full.covers s.w 1 ++ b.a.full.covers s.w 1
      | i => match i.fields with
        | none => []
        | some f =>
          let g := i.sig
          f.g.covers ++ f.d.covers s.w g.d.n ++ f.a.covers s.w g.a.n ++ f.b.covers s.w g.b.n ++ f.c.covers s.w g.c.n
    used.any fun r => r ∈ rs

/-! ### Memory words in flight (R324) -/

end Machine
/-- Memory words: G6, G7, G8, the lane-level words of G9, `dld`, `dst`, `mld` and `mst` (R324). -/
def Instr.isMem : Instr → Bool
  | .ld .. | .st .. | .ldn .. | .stn .. | .ldX _ | .stX _ | .touch .. | .pf .. => true
  | .gth .. | .sct .. | .cst .. | .xld .. | .cpy .. | .tagwait .. | .tagffr _ | .tagclr .. => true
  | .atom .. | .red .. | .aord .. | .afree .. => true
  | .fpost .. | .fpostInit .. | .fwait .. | .fence .. | .qpush .. | .qpushInit .. | .qpop .. => true
  | .dld .. | .dst .. | .mld .. | .mst .. => true
  | _ => false
namespace Machine

/-- The PC of the run that is issued. -/
def State.pc (s : State) : W64 := s.w.pcAt (lowLane s.run)

/-- Whether a wait is one of a memory word: `tagwait`, `fwait`, `qpush`, `qpop`. -/
def WaitKind.ofMem : WaitKind → Bool
  | .flag | .push | .pop | .tag => true
  | _ => false

/-- The memory words of the wave that have not retired, but for the word that is issued again: those with a request, a return
value or a command in flight, each counted once, and those whose lanes are parked. -/
def State.wordsInFlight (s : State) : Nat :=
  let mine (blk wv : Nat) : Bool := blk == s.w.blk && wv == s.w.idx
  let again (n : Nat) : Bool := s.w.begun.any fun e => e.1 == s.pc && e.2.1 == n
  let ws := ((s.reqs ++ s.gate).filter fun q => mine q.blk q.wv && !q.lock).map (·.word) ++
    (s.replies.filter fun r => mine r.blk r.wv && r.word != 0).map (·.word) ++ (s.cmds.filter fun c => mine c.blk c.wv).map (·.word)
  ((ws.filter fun n => !again n).foldl addOnce []).length +
    (s.w.parkedGroups.filter fun g => g.waits.any fun r => r.kind.ofMem).length

/-! ### Guards (R168) and holds (R176) -/

/-- The lanes in which a guard reads true. -/
def Wave.guard (w : Wave) : Guard → Mask
  | .always => BitVec.allOnes 32
  | .pos n => SMap.get w.r.p 0 (n.val + 1)
  | .neg n => ~~~SMap.get w.r.p 0 (n.val + 1)

end Machine
/-- The guard of an instruction. -/
def Instr.guard (i : Instr) : Guard :=
  match i.fields with
  | some f => f.g
  | none => .always
namespace Machine

end Machine
/-- The immediate of a form I or L word as the instruction uses it (R176): sign-extended where its entry says so. -/
def Instr.immVal : Instr → W64
  | .movi _ imm => (imm.signExtend 32).setWidth 64
  | .bfe _ _ pos len => BitVec.ofNat 64 (pos.toNat + 32 * len.toNat)
  | .bfi _ pos len => BitVec.ofNat 64 (pos.toNat + 32 * len.toNat)
  | .ldvr _ k | .stvr _ k => k.setWidth 64
  | .bcast _ _ l => l.setWidth 64
  | .ld _ _ _ off | .st _ _ _ off | .ldn _ _ _ off | .stn _ _ _ off => off.signExtend 64
  | .touch _ _ off | .pf _ _ off => off.signExtend 64
  | .tagwait _ _ imm | .tagclr _ imm => imm.setWidth 64
  | .trap _ imm | .brk _ imm => imm.setWidth 64
  | _ => 0
namespace Machine

end Machine
/-- The format in which an instruction reads an operand, for float constants. -/
def Instr.holdFmt : Instr → Fmt
  | .fcmp _ m _ | .fadd _ m _ | .fsub _ m _ | .fmul _ m _ | .ffma _ m _ | .fmin _ m | .fmax _ m | .fdiv _ m _ | .fsqrt _ m _
  | .fclass _ m | .fscale _ m _ | .cadd _ m | .cfma _ m => m
  | .atom _ _ dt _ | .red _ _ dt | .aord _ _ dt _ _ _ _ | .afree _ _ dt _ _ _ _ => dt.fmt
  | _ => .f32
namespace Machine

/-- The value a hold pushes in a lane: the operand's raw bits, zero-extended, or its low 64 bits. -/
def State.holdVal (s : State) (i : Instr) (f : F) (l : Nat) : W64 :=
  let val (q : Pos) (o : Opnd) : W64 := match o with
    | .cf k => BitVec.ofNat 64 (floatConstBits i.holdFmt k.toNat)
    | o => BitVec.ofNat 64 (s.opnd o q.n l)
  if f.h = 1 then val i.sig.a f.a
  else if f.h = 2 then val i.sig.b f.b
  else if i.sig.c.val then val i.sig.c f.c else i.immVal

/-- The values of a word's hold, kept with the group it parked until the group rejoins. -/
def State.keepHolds (before : State) (i : Instr) (lanes : Mask) (w : Wave) : Wave :=
  match i.fields with
  | none => w
  | some f =>
    if f.h = 0 || lanes = 0 then w
    else { w with groups := w.groups.map fun g =>
      if g.mask &&& lanes = 0 then g
      else { g with hold := (lanesOf (g.mask &&& lanes)).foldl (fun m l => SMap.insert m l (before.holdVal i f l)) g.hold } }

/-- The pushes of a group that rejoins (R176). -/
def Wave.pushKept (w : Wave) (hold : SMap W64) : Wave := hold.foldl (fun w e => w.push e.1 e.2) w

/-- The pushes of a word, computed from the state before its effect, applied to the wave after it. -/
def State.pushHolds (before : State) (i : Instr) (act : Mask) (w : Wave) : Wave :=
  match i.fields with
  | none => w
  | some f => if f.h = 0 then w else (lanesOf act).foldl (fun w l => w.push l (before.holdVal i f l)) w

end Machine
end Sys2Proof
end

