-- ==== Sys2Proof/Machine/Mem.lean ====
section
/-! DEFINITION. Translation (R367 to R370), the checks of a data access (R217), the page classes (R45, R94), reading
and writing every kind of location (R65 to R78), twin-pool charges of stores (R58), the scratchpad race check (R70). -/

namespace Sys2Proof.Machine

/-! ### Page tables -/

/-- Page classes (R45). -/
inductive PCls where
  | view | fold | sluice | wharf | window
  deriving DecidableEq, Repr

/-- A leaf as a translation finds it: class, permissions, fold operator code, whether host memory, page PA, log2 of
the page size. -/
structure Leaf where
  cls : PCls
  w : Bool
  x : Bool
  host : Bool
  fop : Nat
  pa : Nat
  bits : Nat
  deriving DecidableEq, Repr

/-- The outcome of a walk: a leaf, a missing translation (V = 0), or a malformed entry (0x12). -/
inductive Tr where
  | leaf (l : Leaf)
  | missing
  | malformed
  deriving DecidableEq, Repr

/-- Whether a fold-operator code is one of Table 14. -/
def fopOk (n : Nat) : Bool := 1 ≤ n && n ≤ 0x19

/-- The class of a leaf's CLASS code. -/
def pclsOf : Nat → Option PCls
  | 0 => some .view
  | 1 => some .fold
  | 2 => some .sluice
  | 3 => some .wharf
  | 4 => some .window
  | _ => none

/-- A leaf entry at a level with pages of 2^bits bytes (R369). -/
def leafOf (e bits : Nat) : Tr :=
  let fop := e / 2 ^ 59
  let w := e / 32 % 2 == 1
  let x := e / 64 % 2 == 1
  let host := e / 128 % 2 == 1
  let pa := e / 4096 % 2 ^ 40 * 4096
  if pa % 2 ^ bits ≠ 0 then .malformed
  else match pclsOf (e / 4 % 8) with
  | none => .malformed
  | some c =>
    if fop ≠ 0 && c ≠ .fold || c = .fold && !fopOk fop then .malformed
    else if x && c ≠ .view || host && c ≠ .wharf then .malformed
    else if !w && (c = .fold || c = .sluice) || w && c = .window then .malformed
    else .leaf ⟨c, w, x, host, fop, pa, bits⟩

/-- The walk from a table (R367 to R369) over the levels left: the shift of each level's index, how many bits it has,
and whether a leaf or a table may stand there. A table beyond the HBM of Table 3 is malformed (log 82). -/
def walkGo (mem : Memory) (va : Nat) : List (Nat × Nat × Bool × Bool) → Nat → Tr
  | [], _ => .malformed
  | (sh, n, leafOk, tableOk) :: ls, tab =>
    let e := Memory.num mem (tab + 8 * (va / 2 ^ sh % 2 ^ n)) 8
    if e % 2 = 0 then .missing
    else if e / 2 ^ 52 % 128 ≠ 0 || e / 256 % 16 ≠ 0 then .malformed
    else if e / 2 % 2 = 1 then (if leafOk then leafOf e sh else .malformed)
    else if !tableOk || e / 4 % 64 ≠ 0 || e / 2 ^ 59 ≠ 0 || Config.hbmBytes ≤ e / 4096 % 2 ^ 40 * 4096 then .malformed
    else walkGo mem va ls (e / 4096 % 2 ^ 40 * 4096)

/-- Table 111. -/
def walkLevels : List (Nat × Nat × Bool × Bool) :=
  [(48, 8, false, true), (39, 9, false, true), (30, 9, true, true), (21, 9, true, true), (16, 5, true, false)]

/-- Bytes in whole pages of 64 KiB (R65). -/
def pageLen (n : Nat) : Nat := (n + 65535) / 65536 * 65536

/-- The engine's own mapping of replica storage (R291): view pages without W, whole ones. -/
def mapHit (maps : List (Nat × Nat × Nat)) (va : Nat) : Option (Nat × Nat × Nat) :=
  maps.find? fun m => decide (m.1 ≤ va) && decide (va < m.1 + pageLen m.2.2)

/-- The PA of an address in its page. -/
def Leaf.paOf (l : Leaf) (va : Nat) : Nat := l.pa + va % 2 ^ l.bits

/-- Whether a page of device memory lies in this package's HBM (Table 3, log 82); a host page and a window's alias need none. -/
def Leaf.backed (l : Leaf) : Bool := l.host || l.cls == .window || l.pa + 2 ^ l.bits ≤ Config.hbmBytes

/-- A walk that ends at a page of another package's memory needs a route to that package (R364); one that no memory backs is
malformed (log 82). -/
def State.reaches (s : State) : Tr → Tr
  | .leaf l => if l.backed || (Config.memPackage (l.pa / 65536)).any fun p => !s.noRoute p.toNat then .leaf l else .malformed
  | r => r

/-- The translation of a VA outside a forwarded range: the engine's own replicas, or the page tables. Contexts are those
of VFs 1 to 16 (Table 117); another number has no page. -/
def State.walkPlain (s : State) (c va : Nat) : Tr :=
  match (if c = s.xpCtx then mapHit s.exp.maps va else none) with
  | some m => .leaf ⟨.view, false, false, false, 0, (m.2.1 + (va - m.1)) / 65536 * 65536, 16⟩
  | none => if c = 0 || 16 < c then .missing else s.reaches (walkGo s.mem va walkLevels (s.ptroot c))

/-- The translation of a VA below 2^56 in a context. In the context that owns placement a retired replica's range is
forwarded during its grace period, line by line, as a view page without W on the home's bytes, and has no page after it until its
storage holds another replica (R299). -/
def State.walk (s : State) (c va : Nat) : Tr :=
  if c = s.xpCtx && (mapHit s.exp.maps va).isNone && s.exp.dead.any (fun d => decide (d.1 ≤ va) && decide (va < d.1 + pageLen d.2)) then .malformed
  else match s.exp.grace.find? fun g => decide (c = s.xpCtx) && decide (g.rep ≤ va) && decide (va < g.rep + g.len) with
    | none => s.walkPlain c va
    | some g =>
      let home := g.home + (va / 64 * 64 - g.rep)
      match s.walkPlain c home with
      | .leaf l => .leaf ⟨.view, false, false, false, 0, l.paOf home, 6⟩
      | r => r

/-- Whether the page of an address is being migrated (R373 step 1). -/
def State.migrating (s : State) (c va : Nat) : Bool :=
  match s.migration with
  | some m => m.ctx == c && decide (m.va.toNat ≤ va) && decide (va < m.va.toNat + m.size)
  | none => false

/-! ### Live memory -/

/-- The key of a die-shared-memory byte: 2^25 × die + offset. -/
def dsmKey (die off : Nat) : Nat := 2 ^ 25 * die + off

/-! A location is a number: a device PA below 2^52; 2^53 + key for die shared memory; 2^54 for the block barrier. -/

def dmLoc (key : Nat) : Nat := 2 ^ 53 + key
def blkLoc : Nat := 2 ^ 54
/-- Whether a location lies in die shared memory. -/
def isDm (loc : Nat) : Bool := 2 ^ 53 ≤ loc && loc < 2 ^ 54

/-- The die that homes a location: the die of a `dm:` byte (R75), the L2 slice's die of a device line (R67). -/
def locDie (loc : Nat) : Nat :=
  if isDm loc then (loc - 2 ^ 53) / 2 ^ 25 % Config.dies else Config.homeDie (loc / 64) % Config.dies

/-! ### Token buckets (R363) -/

/-- Whether the bucket of a context on a die lets messages of so many bytes leave: `tokens` holds how far each bucket is
below its depth; a rate of 0 is no limit, and a full bucket lets any word go (log 42). -/
def State.canPay (s : State) (c die fee : Nat) : Bool :=
  let cfg := s.pfNum (Pf.tbcfg c die)
  let owed := SMap.get s.tokens 0 (8 * c + die)
  fld cfg 0 32 == 0 || fee == 0 || decide (owed + fee ≤ fld cfg 32 32) || decide (owed ≤ 0)

/-- Debit a bucket. -/
def State.pay (s : State) (c die fee : Nat) : State :=
  if fld (s.pfNum (Pf.tbcfg c die)) 0 32 == 0 || fee == 0 then s
  else { s with tokens := SMap.set s.tokens 0 (8 * c + die) (SMap.get s.tokens 0 (8 * c + die) + fee) }

/-- What one message towards a location costs a die: nothing on the die itself, else 64 bytes and the payload in whole 64s. -/
def msgFee (die loc payload : Nat) : Nat := if locDie loc = die then 0 else 64 + (payload + 63) / 64 * 64
/-- What one message to the PCI Express port, on an I/O die, costs. -/
def portFee (payload : Nat) : Nat := 64 + (payload + 63) / 64 * 64

/-- Save the bytes a live write replaces for every context with a running phase (R39: no other activity changes a
view). -/
def State.keepShadow (s : State) (pa n : Nat) : State :=
  { s with ctxs := s.ctxs.map fun e =>
      if e.2.pcur.isSome then
        (e.1, { e.2 with shadow := (List.range n).foldl (fun sh k =>
          if SMap.has sh (pa + k) then sh else SMap.insert sh (pa + k) (Memory.byte s.mem (pa + k))) e.2.shadow })
      else e }

/-- A write of all 16 bytes of a sector clears its poison (R401). -/
def clearPoison (p : SMap Unit) (pa n : Nat) : SMap Unit :=
  if p == [] then [] else p.filter fun e => !(decide (pa ≤ 16 * e.1) && decide (16 * e.1 + 16 ≤ pa + n))

/-- A live write to device memory at its home (R78). -/
def State.writeDev (s : State) (pa : Nat) (bs : List Byte) : State :=
  let s := if s.ctxs == [] then s else s.keepShadow pa bs.length
  { s with mem := Memory.setBytes s.mem pa bs, poison := clearPoison s.poison pa bs.length }

/-- A write to die shared memory. -/
def State.writeDsm (s : State) (key : Nat) (bs : List Byte) : State :=
  { s with dsm := Memory.setBytes s.dsm key bs, poison := clearPoison s.poison (dmLoc key) bs.length }

/-- A write to host memory through the PCI Express port. -/
def State.writeHost (s : State) (pa : Nat) (bs : List Byte) : State := { s with hmem := Memory.setBytes s.hmem pa bs }

/-- A committed byte of a context's view and fold pages: as it stood at the start of the running phase. -/
def State.committed (s : State) (c pa : Nat) : Byte :=
  match SMap.find? (s.ctx c).shadow pa with
  | some b => b
  | none => Memory.byte s.mem pa

/-- Whether a range of locations holds a poisoned sector. -/
def State.poisoned (s : State) (pa n : Nat) : Bool :=
  s.poison.any fun e => decide (pa < 16 * e.1 + 16) && decide (16 * e.1 < pa + n)

/-! ### Views (R39, R40) -/

/-- The byte of the block's view at a VA, over committed memory at a PA. -/
def State.blockByte (s : State) (va pa : Nat) : Byte :=
  match SMap.find? s.b.view va with
  | some x => x
  | none => match SMap.find? s.b.start va with
    | some x => x
    | none => s.committed s.b.ctx pa

/-- ViewRead: the byte of the issuing wave's view. -/
def State.viewByte (s : State) (va pa : Nat) : Byte :=
  match SMap.find? s.w.view.bytes va with
  | some x => x
  | none => s.blockByte va pa

/-- Bytes of the view, ascending. -/
def State.viewBytes (s : State) (va pa : Nat) : Nat → List Byte
  | 0 => []
  | n + 1 => s.viewByte va pa :: s.viewBytes (va + 1) (pa + 1) n

/-- Put bytes into a view's overlay. -/
def putBytes (o : Overlay) (va : Nat) : List Byte → Overlay
  | [] => o
  | b :: bs => putBytes (SMap.insert o va b) (va + 1) bs

/-- Whether the view has written the line of a VA. -/
def View.hasLine (v : View) (va : Nat) : Bool := SMap.has v.lines (va / 64)

/-- A store into the wave view: bytes, the written line and its charge of 128 bytes at the first write (Table 15). -/
def View.store (v : View) (va : Nat) (bs : List Byte) : View :=
  { v with
    bytes := putBytes v.bytes va bs
    lines := SMap.insert v.lines (va / 64) ()
    charge := if v.hasLine va then v.charge else v.charge + 128 }

/-! ### Fold pages (R52 to R54) -/

/-- What Table 14 says of an operator code: width in bytes, operator, the operand types a `red` may name (R231), and
the bytes of its partial record. -/
structure FoldOp where
  width : Nat
  op : AOp
  dts : List DT
  record : Nat
  deriving DecidableEq, Repr

/-- Table 14. -/
def foldOp (n : Nat) : FoldOp :=
  match n with
  | 0x01 => ⟨8, .add, [.f64], 272⟩
  | 0x02 => ⟨4, .add, [.f32], 48⟩
  | 0x03 => ⟨2, .add, [.f16], 16⟩
  | 0x04 => ⟨4, .add, [.i32, .n32], 8⟩
  | 0x05 => ⟨8, .add, [.i64, .n64], 16⟩
  | 0x06 => ⟨8, .min, [.f64], 16⟩
  | 0x07 => ⟨8, .max, [.f64], 16⟩
  | 0x08 => ⟨4, .min, [.f32], 8⟩
  | 0x09 => ⟨4, .max, [.f32], 8⟩
  | 0x0A => ⟨2, .min, [.f16], 8⟩
  | 0x0B => ⟨2, .max, [.f16], 8⟩
  | 0x0C => ⟨4, .min, [.i32], 8⟩
  | 0x0D => ⟨4, .max, [.i32], 8⟩
  | 0x0E => ⟨4, .min, [.n32], 8⟩
  | 0x0F => ⟨4, .max, [.n32], 8⟩
  | 0x10 => ⟨8, .min, [.i64], 16⟩
  | 0x11 => ⟨8, .max, [.i64], 16⟩
  | 0x12 => ⟨8, .min, [.n64], 16⟩
  | 0x13 => ⟨8, .max, [.n64], 16⟩
  | 0x14 => ⟨4, .and, [.i32, .n32], 8⟩
  | 0x15 => ⟨4, .or, [.i32, .n32], 8⟩
  | 0x16 => ⟨4, .xor, [.i32, .n32], 8⟩
  | 0x17 => ⟨8, .and, [.i64, .n64], 16⟩
  | 0x18 => ⟨8, .or, [.i64, .n64], 16⟩
  | _ => ⟨8, .xor, [.i64, .n64], 16⟩

/-- Bits of a DT. -/
def dtBits (dt : DT) : Nat := 8 * dt.bytes
/-- The bits of an operand of a DT: a float constant is rounded to its format (R172). -/
def State.dtOpnd (s : State) (dt : DT) (o : Opnd) (l : Nat) : Nat :=
  (match o with
  | .cf k => floatConstBits dt.fmt k.toNat
  | o => s.opnd o dt.regs l) % 2 ^ dtBits dt
/-- Whether a DT is a signed integer. -/
def dtSigned (dt : DT) : Bool := dt == .i32 || dt == .i64

/-- Min and max of a DT. -/
def dtMin (dt : DT) (a b : Nat) : Nat :=
  if dt.isInt then (if intOf (dtSigned dt) (dtBits dt) a ≤ intOf (dtSigned dt) (dtBits dt) b then a else b)
  else minBits (dt.fmt) a b
def dtMax (dt : DT) (a b : Nat) : Nat :=
  if dt.isInt then (if intOf (dtSigned dt) (dtBits dt) a ≤ intOf (dtSigned dt) (dtBits dt) b then b else a)
  else maxBitsOf (dt.fmt) a b

/-- The new value of an atomic operation on `old` with operand b and compare value c, and its flags (Table 65). -/
def aluOp (op : AOp) (dt : DT) (fmode : W32) (old b c : Nat) : Nat × Fl :=
  match op with
  | .add =>
    if dt.isInt then ((old + b) % 2 ^ dtBits dt, 0)
    else
      let m := dt.fmt
      farith fmode m (modeOf fmode .dyn) .add (flushIn fmode m old) (flushIn fmode m b) (.nan false) 0
  | .min => (dtMin dt old b, 0)
  | .max => (dtMax dt old b, 0)
  | .and => (Nat.land old b, 0)
  | .or => (Nat.lor old b, 0)
  | .xor => (Nat.xor old b, 0)
  | .swap => (b, 0)
  | .cas => (if old = c then b else old, 0)
  | .load => (old, 0)
  | .store => (b, 0)

/-- The empty partial of an operator. -/
def Part.empty (op : Nat) : Part := ⟨op, 0, false, false, false, true, 0⟩

/-- Whether an operator code is an exact-add. -/
def exactAdd (op : Nat) : Bool := 1 ≤ op && op ≤ 3

/-- Combine one operand, raw, into a partial (R53, R231). `fresh` says that it is the first. -/
def Part.addTerm (p : Part) (fresh : Bool) (x : Nat) : Part :=
  let fo := foldOp p.op
  let dt := fo.dts.headD .n32
  if exactAdd p.op then
    let m := dt.fmt
    match decodeF m x with
    | .nan _ => { p with nan := true, allneg0 := false }
    | .inf n => { p with pinf := p.pinf || !n, ninf := p.ninf || n, allneg0 := false }
    | .fin n k e =>
      let u := k * 2 ^ (e - (fpOf m).qmin).toNat
      { p with sum := p.sum + (if n then -(u : Int) else u), allneg0 := p.allneg0 && n && k == 0 }
  else if fresh then { p with val := BitVec.ofNat 64 x }
  else { p with val := BitVec.ofNat 64 (aluOp fo.op dt 0 p.val.toNat x 0).1 }

/-- Combine two partials of one operator (R53): never rounds. -/
def Part.combine (p q : Part) : Part :=
  let fo := foldOp p.op
  let dt := fo.dts.headD .n32
  { p with
    sum := p.sum + q.sum
    pinf := p.pinf || q.pinf
    ninf := p.ninf || q.ninf
    nan := p.nan || q.nan
    allneg0 := p.allneg0 && q.allneg0
    val := if exactAdd p.op then 0 else BitVec.ofNat 64 (aluOp fo.op dt 0 p.val.toNat q.val.toNat 0).1 }

/-- Combine the partials of a member into a parent's, element by element. -/
def combineParts (p q : SMap Part) : SMap Part :=
  q.foldl (fun acc e => match SMap.find? acc e.1 with
    | some x => SMap.insert acc e.1 (x.combine e.2)
    | none => SMap.insert acc e.1 e.2) p

/-- Settle(base, P) of R54. -/
def settle (base : Nat) (p : Part) : Nat :=
  let fo := foldOp p.op
  let dt := fo.dts.headD .n32
  if exactAdd p.op then
    let m := dt.fmt
    let v := decodeF m base
    if v.isNan || p.nan || (p.pinf && p.ninf) then nanBits m
    else if v.isInf && ((p.pinf && v.neg?) || (p.ninf && !v.neg?)) then nanBits m
    else if v.isInf then base
    else if p.pinf then infBits m false
    else if p.ninf then infBits m true
    else
      let x := v.dy.add ⟨p.sum, (fpOf m).qmin⟩
      if x.n = 0 then zeroBits m (v.isZero && v.neg? && p.allneg0)
      else (roundF m .rn (decide (x.n < 0)) x.n.natAbs x.e false).bits
  else (aluOp fo.op dt 0 base p.val.toNat 0).1

/-- `red` of one operand into the wave view's partial of an element, with its charge at the first touch. -/
def View.red (v : View) (fop va x : Nat) : View :=
  match SMap.find? v.parts va with
  | some p => { v with parts := SMap.insert v.parts va (p.addTerm false x) }
  | none => { v with parts := SMap.insert v.parts va ((Part.empty fop).addTerm true x), charge := v.charge + (foldOp fop).record }

/-! ### Locations -/

/-- Where one access goes, once it has passed its checks. -/
inductive Place where
  | view (va pa : Nat)
  | fold (va pa fop : Nat)
  | dev (pa : Nat)
  | host (pa : Nat)
  | window (pa : Nat)
  | sluice (pa : Nat)
  | sc (off : Nat)
  | dm (key : Nat)
  deriving DecidableEq, Repr

/-- Kinds of access (Tables 11 and 21, R77, R221); `shut` is an `afree` in deterministic mode, which no location admits. -/
inductive Acc where
  | load | store | atom | red | obj | row | shut
  deriving DecidableEq, Repr

/-- The outcome of the checks of one access: passed; failed at a step with a trap cause; no translation; a page that is
being migrated. -/
inductive Chk where
  | ok (p : Place)
  | bad (step cause : Nat)
  | miss
  | stall
  deriving DecidableEq, Repr

/-- The die-shared-memory allocation that a block's `dm:` accesses reach: its launch's, on its home die (R75). -/
def State.dsmOf (s : State) : Nat × Nat :=
  match SMap.find? s.grps s.b.grp with
  | some g => (g.dsm, dsmKey s.b.home g.dsmOff)
  | none => (0, 0)

/-- The enabled decode window that holds an alias PA (R131): its number. -/
def State.windowAt (s : State) (pa : Nat) : Option Nat :=
  (List.range 16).find? fun n =>
    let o := Pf.window n
    let c := s.pfNum (o + 0x20)
    let src := Fmt.codes.getD (fld c 32 8) .f64
    let dst := Fmt.codes.getD (fld c 40 8) .f64
    let alias_ := (s.pfNum (o + 0x10)).toNat
    let len := (s.pfNum (o + 8)).toNat
    let count := if src.tinned then len * 2 else if src.bits = 6 then len * 5 / 4 else len * 8 / src.bits
    fld c 48 1 == 1 && decide (alias_ ≤ pa) && decide (pa < alias_ + count * (dst.bits / 8))

/-- Steps 3 and 4 of R217 for a global VA: the class table of R45 and R94. -/
def State.checkPage (s : State) (acc : Acc) (va n : Nat) (write : Bool) : Chk :=
  if s.migrating s.b.ctx va then .stall
  else match s.walk s.b.ctx va with
  | .missing => .miss
  | .malformed => .bad 3 0x12
  | .leaf l =>
    let pa := l.paOf va
    if l.cls == .window && (acc == .load || acc == .row) && (s.windowAt pa).isNone then .bad 3 0x12
    else if write && !l.w then .bad 4 5
    else match l.cls, acc with
    | .view, .load | .view, .store | .view, .atom | .view, .row => .ok (.view va pa)
    | .fold, .load => if (foldOp l.fop).width = n then .ok (.fold va pa l.fop) else .bad 4 5
    | .fold, .red => .ok (.fold va pa l.fop)
    | .wharf, .load | .wharf, .store => .ok (if l.host then .host pa else .dev pa)
    | .window, .load | .window, .row => .ok (.window pa)
    | .sluice, .obj => .ok (.sluice pa)
    | _, _ => .bad 4 5

/-- Steps 1 to 4 of R217 for one access of n bytes. `dm:` ends at the declared bytes (Table 16), and while placement is
enabled below the mooring region (R290). -/
def State.check (s : State) (acc : Acc) (sp : Sp) (addr : W64) (n : Nat) (write : Bool) : Chk :=
  if addr.toNat % n ≠ 0 then .bad 1 4
  else match sp with
  | .g => if 2 ^ 56 ≤ addr.toNat then .bad 2 5 else s.checkPage acc addr.toNat n write
  | .sc =>
    if s.b.al.scratch < addr.toNat + n then .bad 2 5
    else if acc == .red || acc == .obj || acc == .shut then .bad 4 5 else .ok (.sc addr.toNat)
  | .dm =>
    let d := s.dsmOf
    if d.1 < addr.toNat + n || (s.xpEn && Config.mooringOff < d.2 % 2 ^ 25 + addr.toNat + n) then .bad 2 5
    else if acc == .atom || acc == .red || acc == .shut || (acc == .store && !s.recorded s.b.ctx) || acc == .row then .bad 4 5
    else .ok (.dm (d.2 + addr.toNat))

/-! ### Scratchpad race check (R70 to R73) -/

/-- The outcome of Access(x, sector, kind). -/
inductive RaceChk where
  | ok
  | wait
  | race (other kind : Nat)
  deriving DecidableEq, Repr

/-- The test of R70 for wave x on a sector. -/
def Block.access (b : Block) (x sec : Nat) (write : Bool) : RaceChk :=
  let wt := SMap.get b.wtag 0 sec
  let rt := SMap.get b.rtag 0 sec
  if SMap.get b.pendW 0 sec ≠ 0 || (write && SMap.get b.pendR 0 sec ≠ 0) then .wait
  else if wt ≠ 0 && wt ≠ x + 1 then .race (wt - 1) (if write then 2 else 0)
  else if write && rt = 33 then .race 0x3F 1
  else if write && rt ≠ 0 && rt ≠ x + 1 then .race (rt - 1) 1
  else .ok

/-- The tags after a passed access. -/
def Block.tagged (b : Block) (x sec : Nat) (write : Bool) : Block :=
  if write then { b with wtag := SMap.set b.wtag 0 sec (x + 1) }
  else
    let rt := SMap.get b.rtag 0 sec
    { b with rtag := SMap.set b.rtag 0 sec (if rt = 0 || rt = x + 1 then x + 1 else 33) }

/-- %trapinfo of a race (Table 18). -/
def raceInfo (x other kind : Nat) : W64 := BitVec.ofNat 64 (kind * 65536 + other * 256 + x)

/-- The accesses of a word, sector by sector in lane order: the block with its tags, or the first failure. -/
def Block.accessAll (b : Block) (x : Nat) : List (Nat × Bool) → Block × Option (Nat × RaceChk)
  | [] => (b, none)
  | (sec, w) :: l => match b.access x sec w with
    | .ok => (b.tagged x sec w).accessAll x l
    | r => (b, some (sec, r))

/-- A scratchpad write of the wave, with the undo of an open region (R248). -/
def State.writeSc (s : State) (off : Nat) (bs : List Byte) : State :=
  let undo := (List.range bs.length).map fun k => (off + k, Memory.byte s.b.sc (off + k))
  let s := match s.w.region with
    | some r => s.setW { s.w with region := some { r with undo := undo.reverse ++ r.undo } }
    | none => s
  s.setB { s.b with sc := Memory.setBytes s.b.sc off bs }

/-! ### Performing an access -/

/-- A number of n bytes of decoded data at an alias PA (R132), and how many of its elements are decode errors. -/
def State.windowRead (s : State) (pa n : Nat) : Nat × Nat × Nat :=
  match s.windowAt pa with
  | none => (0, 0, 0)
  | some w =>
    let o := Pf.window w
    let c := s.pfNum (o + 0x20)
    let src := Fmt.codes.getD (fld c 32 8) .f64
    let dst := Fmt.codes.getD (fld c 40 8) .f64
    let size := dst.bits / 8
    let base := (s.pfNum o).toNat
    let rowlen := fld c 0 32
    let elem (k : Nat) : Nat × Bool :=
      let r := windowElem src (fun j => Memory.byte s.mem (base + j)) k
      let v := if fld c 49 1 = 1 then
          scaleEV r.1 (decodeF .f32 (Memory.num s.mem ((s.pfNum (o + 0x18)).toNat + 4 * (k / rowlen)) 4))
        else r.1
      (windowBits dst v, r.2)
    let off := pa - (s.pfNum (o + 0x10)).toNat
    let lo := off / size
    let cnt := (off % size + n + size - 1) / size
    let els := (List.range cnt).map fun k => elem (lo + k)
    let num := (els.zipIdx.map fun e => e.1.1 * 2 ^ (8 * size * e.2)).foldl (· + ·) 0
    (num / 2 ^ (8 * (off % size)) % 2 ^ (8 * n), w, (els.filter fun e => e.2).length)

/-- Count decode errors at a descriptor, saturating (R132). -/
def State.countDecErr (s : State) (w n : Nat) : State :=
  if n = 0 then s
  else
    let o := Pf.window w + 0x28
    let x := s.pfNum o
    s.setPf o (setFld x 0 32 (min (fld x 0 32 + n) (2 ^ 32 - 1)))

/-- The settled start value of a fold element (R54). -/
def State.foldRead (s : State) (va pa fop n : Nat) : Nat :=
  let base := leNat ((List.range n).map fun k => s.committed s.b.ctx (pa + k))
  match SMap.find? s.w.view.vis va with
  | some p => if p.op = fop then settle base p else base
  | none => base

/-- The value an access of n bytes reads (R219). -/
def State.readPlace (s : State) (p : Place) (n : Nat) : Nat :=
  match p with
  | .view va pa => leNat (s.viewBytes va pa n)
  | .fold va pa fop => s.foldRead va pa fop n
  | .dev pa | .sluice pa => Memory.num s.mem pa n
  | .host pa => Memory.num s.hmem pa n
  | .window pa => (s.windowRead pa n).1
  | .sc off => Memory.num s.b.sc off n
  | .dm key => Memory.num s.dsm key n

/-- A store or a `red` of the wave into its view, which an open region holds beside it (R248). -/
def Wave.hold (w : Wave) (f : View → View) : Wave :=
  { w with view := f w.view, region := w.region.map fun r => { r with held := f r.held } }

/-- Write n bytes of a value at a place. -/
def State.writePlace (s : State) (p : Place) (n x : Nat) : State :=
  match p with
  | .view va _ => s.setW (s.w.hold fun v => v.store va (leBytes n x))
  | .dev pa | .sluice pa => s.writeDev pa (leBytes n x)
  | .host pa => s.writeHost pa (leBytes n x)
  | .sc off => s.writeSc off (leBytes n x)
  | .dm key => s.writeDsm key (leBytes n x)
  | .fold _ _ _ | .window _ => s

/-- The scratchpad sector a place lies in. -/
def Place.sector? : Place → Option Nat
  | .sc off => some (off / 16)
  | _ => none

/-- Whether a place is live memory that closes a region: wharf, sluice or `dm:` (R248). -/
def Place.closes : Place → Bool
  | .dev _ | .host _ | .sluice _ | .dm _ => true
  | _ => false

/-- Whether an access there keeps its block from R63 restart (sluice and wharf operations). -/
def Place.isLive : Place → Bool
  | .dev _ | .host _ | .sluice _ => true
  | _ => false

/-- The source bytes of a decode window that a read of n bytes at an alias PA decodes, in whole 4-byte words (R129, R131): address and
length. -/
def State.windowSrc (s : State) (pa n : Nat) : Nat × Nat :=
  match s.windowAt pa with
  | none => (0, 0)
  | some w =>
    let o := Pf.window w
    let c := s.pfNum (o + 0x20)
    let src := Fmt.codes.getD (fld c 32 8) .f64
    let size := (Fmt.codes.getD (fld c 40 8) .f64).bits / 8
    let off := pa - (s.pfNum (o + 0x10)).toNat
    let lo := off / size
    let hi := (off + n + size - 1) / size
    let e := if src.tinned then 8 else perWord src
    ((s.pfNum o).toNat + 4 * (lo / e), 4 * ((hi + e - 1) / e - lo / e))

/-- Whether a read of the place consumes poison (R401): device memory under a view, fold, wharf or sluice page, the source of a
decode window, or die shared memory. -/
def State.readsPoison (s : State) (p : Place) (n : Nat) : Bool :=
  if s.poison == [] then false
  else match p with
  | .view va pa => s.poisoned pa n && (List.range n).any fun k =>
      !SMap.has s.w.view.bytes (va + k) && !SMap.has s.b.view (va + k) && !SMap.has s.b.start (va + k) && s.poisoned (pa + k) 1
  | .fold _ pa _ | .dev pa | .sluice pa => s.poisoned pa n
  | .window pa => let r := s.windowSrc pa n; s.poisoned r.1 r.2
  | .dm key => s.poisoned (dmLoc key) n
  | _ => false

/-- Whether an engine command of the wave has yet to land a byte of the wave's view in a range, or to read one that a
write would change (R91). -/
def State.viewPending (s : State) (va n : Nat) (write : Bool) : Bool :=
  s.cmds.any fun c => c.blk == s.w.blk && c.wv == s.w.idx && c.els.any fun e =>
    (match e.dst with
    | .view v => decide (va < v + e.n) && decide (v < va + n)
    | _ => false) ||
    (match e.src with
    | .view v _ => write && decide (va < v + e.n) && decide (v < va + n)
    | _ => false)

/-- The location of a place an object operation or a live access reaches. -/
def Place.loc : Place → Nat
  | .dm key => dmLoc key
  | .sluice pa => pa
  | .dev pa => pa
  | _ => 0

/-- What live accesses at places, each with so many bytes of payload, cost the die of the wave (R363). -/
def State.fee (s : State) (payload : Nat) (ps : List Place) : Nat :=
  ps.foldl (fun n p => match p with
    | .dm _ | .sluice _ | .dev _ => n + msgFee s.homeOf.1 p.loc payload
    | .host _ => n + portFee payload
    | _ => n) 0

/-- The requests of the wave that issues which are still to be performed: those of ordered rounds but the rounds of the
barriers given, and those at order gates. -/
def State.ownReqs (s : State) (bars : List Nat) : List Req :=
  ((s.reqs.filter fun q => !bars.contains q.bar) ++ s.gate).filter fun q => q.blk == s.w.blk && q.wv == s.w.idx

/-- The bytes at its location that a request acts on: a free lock's operation on its whole line. -/
def Req.span (q : Req) : Nat := if q.lock then 64 else q.dt.bytes

/-- Whether an ordered or free request, or the release of a free lock, of the wave that issues has yet to be performed on a
byte of a location: its later live accesses there wait for it (R79). An acquire that stands at its gate waits for the lock and
holds nothing up. Requests of one round, on `bars`, are ordered by their index (R80). -/
def State.liveBusy (s : State) (bars : List Nat) (loc n : Nat) : Bool :=
  (s.ownReqs bars).any fun q => !(q.lock && q.op == .swap && q.held) && decide (loc < q.loc + q.span) && decide (q.loc < loc + n)

/-- Whether an acquire of one of the lanes has yet to complete: its later live accesses wait for it (R85), but those of
the round it stands in and the arrival that closes that round (log 86). -/
def State.acqBusy (s : State) (bars lanes : List Nat) : Bool :=
  (s.ownReqs bars).any (fun q => q.acq && lanes.contains q.lane) ||
  s.replies.any fun r => r.acq && r.blk == s.w.blk && r.wv == s.w.idx && lanes.contains r.lane

/-- Whether an access of a lane of the wave waits: in the view for an engine (R91), in live memory for the lane's
acquires and for the wave's own requests on the same bytes (R79, R85). -/
def State.placeWaits (s : State) (lane : Nat) (p : Place) (n : Nat) (write : Bool) : Bool :=
  match p with
  | .view va _ => s.viewPending va n write
  | .dm _ | .sluice _ | .dev _ => s.acqBusy [] [lane] || s.liveBusy [] p.loc n
  | .host _ | .sc _ => s.acqBusy [] [lane]
  | _ => false

/-- Whether an element is read from or lands in its wave's view. -/
def Elem.onView (e : Elem) : Bool :=
  (match e.dst with
  | .view _ => true
  | _ => false) ||
  (match e.src with
  | .view _ _ => true
  | _ => false)

/-- Whether an engine command of a wave has yet to read or land in its view (R91). -/
def State.viewBusyOf (s : State) (h k : Nat) : Bool := s.cmds.any fun c => c.blk == h && c.wv == k && c.els.any Elem.onView
def State.viewBusy (s : State) : Bool := s.viewBusyOf s.w.blk s.w.idx

/-! ### Recorded mode (R124) -/

/-- One bit of the CRC-64 of ECMA-182, most significant bit first. -/
def crcBit (c : W64) (bit : Bool) : W64 :=
  let top := c.getMsbD 0 != bit
  let c := c <<< 1
  if top then c ^^^ 0x42F0E1EBA9EA3693 else c

/-- One byte. -/
def crcByte (c : W64) (x : Byte) : W64 := (List.range 8).foldl (fun c k => crcBit c (x.getLsbD (7 - k))) c

/-- A lane store: the address word with its space, then the stored bytes (R124). -/
def crcStore (c : W64) (sp : Sp) (addr : W64) (bs : List Byte) : W64 :=
  let tag : Nat := match sp with
    | .g => 0
    | .sc => 1
    | .dm => 2
  (leBytes 8 (addr.toNat % 2 ^ 62 + tag * 2 ^ 62) ++ bs).foldl crcByte c

end Sys2Proof.Machine
end

