-- ==== Sys2Proof/Machine/Waves.lean ====
section
/-! DEFINITION. Reaching any wave, block or group of the package whether or not it is checked out, switching the
wave that issues, and the folds of views (R15, R41, R47 to R54). -/

namespace Sys2Proof.Machine

/-! ### Waves, blocks and groups by key -/

/-- The key of a wave: 32 × handle + index. -/
def Wave.key (w : Wave) : Nat := 32 * w.blk + w.idx

def State.wave (s : State) (k : Nat) : Wave :=
  if s.w.st ≠ .absent ∧ s.w.key = k then s.w else SMap.get s.waves .absent k
def State.setWave (s : State) (k : Nat) (w : Wave) : State :=
  if s.w.st ≠ .absent ∧ s.w.key = k then { s with w := w } else { s with waves := SMap.set s.waves .absent k w }
def State.updWave (s : State) (k : Nat) (f : Wave → Wave) : State := s.setWave k (f (s.wave k))

def State.block (s : State) (h : Nat) : Block :=
  if s.b.st ≠ .absent ∧ s.b.handle = h then s.b else SMap.get s.blocks .absent h
def State.setBlock (s : State) (h : Nat) (b : Block) : State :=
  if s.b.st ≠ .absent ∧ s.b.handle = h then { s with b := b } else { s with blocks := SMap.set s.blocks .absent h b }
def State.updBlock (s : State) (h : Nat) (f : Block → Block) : State := s.setBlock h (f (s.block h))

def State.updGrp (s : State) (id : Nat) (f : Grp → Grp) : State :=
  match SMap.find? s.grps id with
  | some g => { s with grps := SMap.insert s.grps id (f g) }
  | none => s
def State.updLev (s : State) (id : Nat) (f : Lev → Lev) : State :=
  match SMap.find? s.levs id with
  | some g => { s with levs := SMap.insert s.levs id (f g) }
  | none => s

/-- The die on which a wave runs. -/
def State.dieOf (s : State) (k : Nat) : Nat :=
  match (s.wave k).place with
  | some p => p.1
  | none => (s.block (k / 32)).die

/-- The keys of every wave of the package, ascending. -/
def State.waveKeys (s : State) : List Nat :=
  (if s.w.st = .absent then s.waves else SMap.insert s.waves s.w.key s.w).map Prod.fst
/-- The handles of every block, ascending. -/
def State.handles_ (s : State) : List Nat :=
  (if s.b.st = .absent then s.blocks else SMap.insert s.blocks s.b.handle s.b).map Prod.fst
/-- The keys of a block's waves. -/
def State.wavesOf (s : State) (h : Nat) : List Nat := s.waveKeys.filter fun k => k / 32 == h
/-- The handles of a group's blocks. -/
def State.blocksOf (s : State) (id : Nat) : List Nat := s.handles_.filter fun h => (s.block h).grp == id

/-- Put the checked-out wave and block away. -/
def State.stow (s : State) : State :=
  let waves := if s.w.st = .absent then s.waves else SMap.insert s.waves s.w.key s.w
  let blocks := if s.b.st = .absent then s.blocks else SMap.insert s.blocks s.b.handle s.b
  { s with waves := waves, blocks := blocks, w := .absent, b := .absent, run := 0 }

/-- Check out a wave with its block. -/
def State.load (s : State) (k : Nat) : State :=
  let s := s.stow
  let w := SMap.get s.waves .absent k
  let b := SMap.get s.blocks .absent w.blk
  { s with w := w, b := b, waves := SMap.erase s.waves k, blocks := SMap.erase s.blocks w.blk }

/-- Run an operation with a wave checked out, then return to the one that was. -/
def State.within (s : State) (k : Nat) (f : State → State) : State :=
  if s.w.st ≠ .absent ∧ s.w.key = k then f s
  else
    let cur := s.w
    let run := s.run
    let s := f (s.load k)
    if cur.st = .absent then s.stow else { s.load cur.key with run := run }

/-! ### The byte rule (R47, R49) -/

/-- The accumulator of a fold: bytes taken with the member that gave each, and conflicts (first, second) by VA. -/
structure Fold where
  bytes : Overlay
  taken : SMap Nat
  confl : SMap (Nat × Nat)
  deriving DecidableEq, Repr

/-- Fold one member: every byte that differs from its twin (R47) is taken, or conflicts with the first taker. -/
def Fold.member (f : Fold) (k : Nat) (view : Overlay) (twin : Nat → Byte) : Fold :=
  view.foldl (fun f e =>
    if e.2 = twin e.1 then f
    else match SMap.find? f.taken e.1 with
      | none => { f with bytes := SMap.insert f.bytes e.1 e.2, taken := SMap.insert f.taken e.1 k }
      | some j => if SMap.has f.confl e.1 then f else { f with confl := SMap.insert f.confl e.1 (j, k) }) f

/-- Carried conflicts of a member (R41): both indices are its own; a conflict between members stands first. -/
def Fold.carry (f : Fold) (k : Nat) (vas : List Nat) : Fold :=
  vas.foldl (fun f va => if SMap.has f.confl va then f else { f with confl := SMap.insert f.confl va (k, k) }) f

/-- The empty fold. -/
def Fold.empty : Fold := ⟨[], [], []⟩

/-- The record of a fold's conflicts (R51, Table 13): the one at the lowest VA. -/
def Fold.record (f : Fold) : Option Conflict :=
  match f.confl with
  | [] => none
  | (va, a, b) :: _ =>
    some ⟨BitVec.ofNat 64 va,
      BitVec.ofNat 64 ((va % 64) * 2 ^ 48 + min f.confl.length 65535 * 2 ^ 32 + b % 65536 * 65536 + a % 65536)⟩

/-- A byte of committed memory at a VA of a context: through its page tables; 0 where no page is mapped. -/
def State.committedVa (s : State) (c va : Nat) : Byte :=
  match s.walk c va with
  | .leaf l => s.committed c (l.paOf va)
  | _ => 0

/-- A byte of an overlay on committed memory. -/
def State.overByte (s : State) (c : Nat) (o : Overlay) (va : Nat) : Byte :=
  match SMap.find? o va with
  | some x => x
  | none => s.committedVa c va

/-- The bytes of an overlay stand over another's. -/
def overlayOn (base top : Overlay) : Overlay := SMap.over base top

/-! ### Folding into views -/

/-- Charge the wave view for lines it gains by a fold (Table 15, last row); a line without a byte taken costs nothing (log 109). -/
def View.chargeLines (v : View) (bytes : Overlay) : View :=
  bytes.foldl (fun v e => if v.hasLine e.1 then v
    else { v with lines := SMap.insert v.lines (e.1 / 64) (), charge := v.charge + 128 }) v

/-- Charge for partials gained. -/
def View.chargeParts (v : View) (q : SMap Part) : View :=
  q.foldl (fun v e => if SMap.has v.parts e.1 then v else { v with charge := v.charge + (foldOp e.2.op).record }) v

/-- A fold into a wave's view (R49, R53, R54): bytes, partials, and the partials its loads see from now on. `inh` are
the partials the view inherited when it began. -/
def View.receive (v : View) (inh : SMap Part) (bytes : Overlay) (parts : SMap Part) : View :=
  let v := (v.chargeLines bytes).chargeParts parts
  let ps := combineParts v.parts parts
  { v with bytes := SMap.over v.bytes bytes, parts := ps, vis := combineParts inh ps }

/-- The whole view of the issuing wave over committed memory, and every partial it holds (R42). -/
def State.flatView (s : State) : Overlay := overlayOn (overlayOn s.b.start s.b.view) s.w.view.bytes
def State.flatParts (s : State) : SMap Part := combineParts s.b.vis s.w.view.parts

/-- What a barrier folds of a wave's view: what an open region still holds is not released (R248). -/
def Wave.settled (w : Wave) : View :=
  match w.region with
  | some r => r.view
  | none => w.view

/-- A wave whose view a barrier has folded: its view begins anew, with what an open region holds; a strike restores the new view
without that (R41, R248). -/
def Wave.renewed (w : Wave) (vis : SMap Part) : Wave :=
  let fresh : View := { View.empty with vis := vis }
  match w.region with
  | some r => { w with
      view := { fresh with bytes := r.held.bytes, lines := r.held.lines, parts := r.held.parts, charge := w.view.charge - r.view.charge }
      region := some { r with view := fresh } }
  | none => { w with view := fresh }

/-- Whether a wave has ended, or has exited and only awaits its launches (R243). -/
def Wave.exitedAll (w : Wave) : Bool := w.st == .ended || w.st == .ending

/-- The fold of a block's wave views at its barrier (R41): wave views in index order against the block view as it
stood; race tags are cleared (R73), views begin anew, conflicts are answered. When every wave has ended, as at the implicit barrier at
the block's end, or has exited (log 121), conflicts are carried. -/
def State.foldWaves (s : State) (h : Nat) : State × Option (Nat × Conflict) :=
  let ks := s.wavesOf h
  let b := s.block h
  let base := overlayOn b.start b.view
  let f := ks.foldl (fun f k => f.member (k % 32) (s.wave k).settled.bytes (s.overByte b.ctx base)) Fold.empty
  let parts := ks.foldl (fun p k => combineParts p (s.wave k).settled.parts) []
  let charge := ks.foldl (fun n k => n + (s.wave k).settled.charge) 0
  let vis := combineParts b.vis parts
  let out := ks.all fun k => (s.wave k).exitedAll
  let b := { b with
    view := SMap.over b.view f.bytes
    parts := combineParts b.parts parts
    vis := vis
    charge := b.charge + charge
    wtag := []
    rtag := []
    carried := if out then b.carried ++ f.confl.map Prod.fst else b.carried }
  let s := s.setBlock h b
  let s := ks.foldl (fun s k => s.updWave k fun w => w.renewed vis) s
  match f.record, f.confl with
  | some r, (_, _, second) :: _ => (s, if out then none else some (second, r))
  | _, _ => (s, none)

/-- The counter word of Table 7. -/
def counterWord (st : BitVec 2) (done : W32) : W64 := (st.setWidth 64 <<< 62) ||| done.setWidth 64
/-- The counter word of a group. -/
def Grp.word (g : Grp) : W64 := counterWord g.state g.done

/-- The fold of members in index order against each one's own starting view (R15). -/
def State.foldMembers (s : State) (c : Nat) (ms : List Member) : Fold :=
  let f := ms.foldl (fun f m => f.member m.idx m.view (s.overByte c m.start)) Fold.empty
  ms.foldl (fun f m => f.carry m.idx m.carried) f

/-- Insert a member in index order. -/
def insertMember (m : Member) : List Member → List Member
  | [] => [m]
  | x :: xs => if m.idx < x.idx then m :: x :: xs else x :: insertMember m xs

/-! ### The graph fold (R15) -/

/-- Whether launch `a` has a path to launch `b` through predecessor lists, within `fuel` edges. -/
def hasPath (preds : Nat → List Nat) : Nat → Nat → Nat → Bool
  | 0, _, _ => false
  | fuel + 1, a, b => (preds b).any fun p => p == a || hasPath preds fuel a p

/-- The launches of a graph fold, with the rule of R15 for a byte changed by several: the changer to which every other
has a path, or a conflict that names the lowest pair not linked by a path. -/
def graphFold (ms : List Member) (twin : Member → Nat → Byte) (path : Nat → Nat → Bool) : Fold :=
  let changers : SMap (List (Nat × Byte)) := ms.foldl (fun t m => m.view.foldl (fun t e =>
    if e.2 = twin m e.1 then t else SMap.insert t e.1 (SMap.get t [] e.1 ++ [(m.idx, e.2)])) t) []
  changers.foldl (fun f e =>
    let cs := e.2
    match cs.find? fun c => cs.all fun d => d.1 == c.1 || path d.1 c.1 with
    | some c => { f with bytes := SMap.insert f.bytes e.1 c.2 }
    | none =>
      let pairs := cs.flatMap fun c => cs.filterMap fun d =>
        if c.1 < d.1 && !path c.1 d.1 && !path d.1 c.1 then some (c.1, d.1) else none
      match cs with
      | c :: _ => { f with bytes := SMap.insert f.bytes e.1 c.2, confl := SMap.insert f.confl e.1 (pairs.headD (c.1, c.1)) }
      | [] => f) Fold.empty

end Sys2Proof.Machine
end

