-- ==== Sys2Proof/Machine/Errors.lean ====
section
/-! DEFINITION. Error record banks (R398, R399) and the sockets of passenger dies. -/

namespace Sys2Proof.Machine

/-- Pack STATUS of Table 125. -/
def errStatus (r : ErrRec) (count : Nat) : W64 :=
  BitVec.ofNat 64 (2 ^ 63 + r.rank.toNat * 2 ^ 61 + r.retry.toNat * 2 ^ 59 + r.unit.toNat * 2 ^ 48 + r.code.toNat * 2 ^ 40 +
    r.ctx.toNat * 2 ^ 35 + count * 2 ^ 16 + r.core.toNat * 2 ^ 8)

/-- Write a new record into a bank; PF vector 2 is signalled (R389). -/
def State.setBank (s : State) (socket b : Nat) (r : ErrRec) (count : Nat) : State :=
  let o := Pf.bank socket b
  ((((s.setPf o (errStatus r count)).setPf (o + 8) r.addr).setPf (o + 16) r.synd).setPf (o + 24) r.info).msi 0 2

/-- Add 1 to a saturating 16-bit field of ERRSUM (Table 126). -/
def State.errSum (s : State) (socket lo : Nat) : State :=
  let x := s.pfNum (Pf.errsum socket)
  s.setPf (Pf.errsum socket) (setFld x lo 16 (min (fld x lo 16 + 1) 65535))

/-- The bank a record merges into by rule 1 of R399. -/
def State.sameBank (s : State) (socket : Nat) (r : ErrRec) : Option Nat :=
  (List.range 16).find? fun b =>
    let x := s.pfNum (Pf.bank socket b)
    fld x 63 1 == 1 && fld x 61 2 == r.rank.toNat && fld x 48 8 == r.unit.toNat && fld x 8 8 == r.core.toNat &&
      s.pfNum (Pf.bank socket b + 8) == r.addr

/-- The bank rule 3 of R399 overwrites: the lowest of those whose RANK is lowest and below the new record's. -/
def State.lowBank (s : State) (socket : Nat) (r : ErrRec) : Option Nat :=
  let rank (b : Nat) : Nat := fld (s.pfNum (Pf.bank socket b)) 61 2
  let low := (List.range 16).foldl (fun m b => min m (rank b)) 3
  (List.range 16).find? fun b => rank b == low && decide (low < r.rank.toNat)

/-- Units whose failed operation is tried a second time (Table 127). -/
def retried (unit : BitVec 8) : Bool := [0x01, 0x02, 0x03, 0x04, 0x09, 0x0A, 0x0B].contains unit.toNat

/-- A record as Tables 125 and 127 and R400 allow it: RETRY as the unit retries and the second attempt ended; CODE 0 for a corrected
error, which ended no work, but for the pool shortages of UNIT 0x08 (Table 128); CTX 1 to 16 or 0; ADDR a line of PA [51:0]; CORE 0
to 35 of a core die or 0xFF. -/
def normErr (r : ErrRec) (socket : Nat) : ErrRec :=
  { r with
    retry := if r.unit = 0x08 then (if r.retry = 2 then 2 else 0)
      else if !retried r.unit then 0 else if r.rank = 1 then (if r.retry = 1 then 1 else 0) else 2
    code := if r.rank = 1 && r.unit != 0x08 then 0 else r.code
    ctx := if 16 < r.ctx then 0 else r.ctx
    addr := BitVec.ofNat 64 (r.addr.toNat % 2 ^ 52 / 64 * 64)
    core := if Config.dies ≤ socket || 36 ≤ r.core then 0xFF else r.core }

/-- Place a record, in the form the tables allow, and count it (R398 to R400). -/
def State.placeErr (s : State) (socket : Nat) (r : ErrRec) : State :=
  let r := normErr r socket
  let s := s.errSum socket (if r.rank = 1 then 0 else if r.rank = 2 then 16 else 32)
  match s.sameBank socket r with
  | some b =>
    let x := s.pfNum (Pf.bank socket b)
    let x := setFld x 16 16 (min (fld x 16 16 + 1) 65535)
    s.setPf (Pf.bank socket b) (if r.retry = 2 then setFld x 59 2 2 else x)
  | none =>
    match (List.range 16).find? fun b => fld (s.pfNum (Pf.bank socket b)) 63 1 == 0 with
    | some b => s.setBank socket b r 1
    | none => match s.lowBank socket r with
      | some b => s.setBank socket b r 1
      | none => s.errSum socket 48

end Sys2Proof.Machine
end

