-- ==== Sys2Proof/Machine/Experts.lean ====
section
/-! DEFINITION. The expert placement engine (R289 to R300): mooring tables, version references, retirement, the plan of
a version and its switch, and the refresh of replicas at a step boundary (R293). -/

namespace Sys2Proof.Machine

/-! ### Tables -/

/-- The key of byte 0 of a version's slot on a die. -/
def slotKey (die ver : Nat) : Nat := dsmKey die (Config.mooringOff + 2 ^ 20 * (ver % 4))
/-- The key of an entry of a version on a die (R291). -/
def entryKey (die ver e : Nat) : Nat := slotKey die ver + 128 * e

/-- The newest version of a die. -/
def State.xNewest (s : State) (die : Nat) : Nat := (SMap.get s.exp.newest 0 die).toNat
/-- The newest version published to every die (Table 81). -/
def State.xPublished (s : State) : Nat := s.xNewest 7

/-- NREP of an entry, and the VA of one of its replicas. -/
def State.nrep (s : State) (die ver e : Nat) : Nat := Memory.num s.dsm (entryKey die ver e + 4) 1
def State.rep (s : State) (die ver e k : Nat) : Nat := Memory.num s.dsm (entryKey die ver e + 0x10 + 8 * k) 8
def State.xBytes (s : State) (die ver e : Nat) : Nat := Memory.num s.dsm (entryKey die ver e + 8) 8

/-- Copy a range of bytes of a sparse memory over another range of the same length. -/
def Memory.copyRange (m : Memory) (src dst n : Nat) : Memory :=
  let keep := m.filter fun e => !(decide (dst ≤ e.1) && decide (e.1 < dst + n))
  (m.filter fun e => decide (src ≤ e.1) && decide (e.1 < src + n)).foldl (fun acc e => SMap.set acc 0 (e.1 - src + dst) e.2) keep

/-- The ID of the package of a rank in a context's job: its entry of PKGTAB (Table 108). -/
def State.packageOf (s : State) (c r : Nat) : Nat :=
  let va := s.pkgtab c + 2 * r
  match s.walk c va with
  | .leaf l => if l.host then Memory.num s.hmem (l.paOf va) 2 else Memory.num s.mem (l.paOf va) 2
  | _ => 0

/-- This package's ID. -/
def State.ownPackage (s : State) (c : Nat) : Nat := s.packageOf c (s.prank c)

/-! ### References and retirement (R298, R299) -/

/-- Add to a version's reference count on a die. -/
def State.addRef (s : State) (die ver : Nat) (n : Int) : State :=
  let k := 4 * die + ver % 4
  { s with exp := { s.exp with counts := SMap.set s.exp.counts 0 k (SMap.get s.exp.counts 0 k + BitVec.ofInt 32 n) } }

/-- The sum of a version's counts over all dies. -/
def State.refSum (s : State) (ver : Nat) : Int :=
  (List.range Config.dies).foldl (fun n d => n + (SMap.get s.exp.counts 0 (4 * d + ver % 4)).toInt) 0

/-- The replicas a version names, as (VA, home, bytes). -/
def State.replicas (s : State) (ver : Nat) : List (Nat × Nat × Nat) :=
  (List.range 8192).flatMap fun e =>
    (List.range (min (s.nrep 0 ver e) 8 - 1)).map fun k => (s.rep 0 ver e (k + 1), s.rep 0 ver e 0, s.xBytes 0 ver e)

/-- Retire one version: its slot is free; replicas that no live version names are forwarded for the grace period. -/
def State.retireOne (s : State) (ver : Nat) : State :=
  let live := s.exp.live.filter fun e => e.2.toNat != ver
  let kept := live.flatMap fun e => s.replicas e.2.toNat
  let gone := (s.replicas ver).filter fun r => !(kept.any fun q => q.1 == r.1)
  let s := { s with exp := { s.exp with live := live } }
  let s := gone.foldl (fun s r =>
    let q := s.fresh
    let s := q.2
    State.post { s with exp := { s.exp with grace := s.exp.grace ++ [⟨q.1, r.1, r.2.1, r.2.2⟩] } } (.graceExpiry q.1)) s
  if s.exp.switch.isSome then s.postOnce .versionSwitchCopyDone else s

/-- Retire every version that may (R298). -/
def State.retireVersions (s : State) : State :=
  s.exp.live.foldl (fun s e =>
    let v := e.2.toNat
    if (List.range Config.dies).all (fun d => s.xNewest d != v) && s.refSum v == 0 then s.retireOne v else s) s

/-- Release every reference that a wave holds (R304). -/
def State.dropRefs (s : State) (k : Nat) : State :=
  let w := s.wave k
  if w.refs == [] then s
  else
    let die := (s.block (k / 32)).die
    let s := w.refs.foldl (fun s e => s.addRef die e.1 (-(e.2.2 : Int))) s
    (s.updWave k fun w => { w with refs := [] }).retireVersions

/-! ### Planning a version (R295) -/

/-- L(e): the sum of an expert's counters over the dies. -/
def State.xLoad (s : State) (e : Nat) : Nat :=
  (List.range Config.dies).foldl (fun n d => n + (SMap.get s.exp.loads 0 (8192 * d + e)).toNat) 0
/-- The load of a die in the interval. -/
def State.dieLoad (s : State) (d : Nat) : Nat :=
  s.exp.loads.foldl (fun n e => if e.1 / 8192 = d then n + e.2.toNat else n) 0

/-- The dies of this package that hold a replica of an entry. -/
def State.repDies (s : State) (ver e : Nat) : List Nat :=
  let at_ (k : Nat) : Nat := Memory.num s.dsm (entryKey 0 ver e + 0x50 + 2 * k) 2
  ((List.range (min (s.nrep 0 ver e) 8)).filter fun k => at_ k / 8 == s.ownPackage s.xpCtx).map fun k => at_ k % 8

/-- The die for an added replica: least load among those that hold none, the lower socket on ties. -/
def State.replicaDie (s : State) (ver e : Nat) : Option Nat :=
  let held := s.repDies ver e
  (List.range Config.dies).foldl (fun m d =>
    if d ∈ held then m
    else match m with
      | some x => if s.dieLoad d < s.dieLoad x then some d else some x
      | none => some d) none

/-- The change of one expert, if it changes: a replica more near a die, or one less. -/
def State.planOne (s : State) (ver e : Nat) : Option (Nat × Option Nat) :=
  let n := s.nrep 0 ver e
  if n = 0 then none
  else
    let load := s.xLoad e
    let thr := s.pfNum Pf.xpthr
    match (if fld thr 32 32 * n < load && n < s.xpMaxrep then s.replicaDie ver e else none) with
    | some d => some (e, some d)
    | none => if load < fld thr 0 32 * n && 1 < n then some (e, none) else none

/-- End of a sampling interval (R289, R295): read and clear the counters, plan the next version. -/
def State.sample (s : State) : State :=
  let v := s.xPublished
  let settled := s.exp.switch.isNone && (List.range Config.dies).all fun d => s.xNewest d == v
  let plan := if s.xpEn && settled then (List.range 8192).filterMap fun e => s.planOne v e else []
  let s : State := { s with exp := { s.exp with loads := [] } }
  if plan == [] then s
  else State.postOnce { s with exp := { s.exp with switch := some ⟨BitVec.ofNat 32 (v + 1), plan, [], [], .waiting, 0⟩ } }
    .versionSwitchCopyDone

/-! ### The switch (R296, R297, R300) and the refresh (R293) -/

/-- An entry of version `ver` changed by the plan, with VER, and the replica it gains at a VA. -/
def State.newEntry (s : State) (ver : Nat) (next : W32) (e : Nat) (add : Option (Nat × Nat)) : List Byte :=
  let n := s.nrep 0 ver e
  let m : Memory := Memory.setBytes [] 0 (Memory.bytes s.dsm (entryKey 0 ver e) 128)
  let m := Memory.setNum m 0 4 next.toNat
  let m := match add with
    | some (d, va) =>
      Memory.setNum (Memory.setNum (Memory.setNum m 4 1 (n + 1)) (0x10 + 8 * n) 8 va) (0x50 + 2 * n) 2 (8 * s.ownPackage s.xpCtx + d)
    | none => Memory.setNum (Memory.setNum (Memory.setNum m 4 1 (n - 1)) (0x10 + 8 * (n - 1)) 8 0) (0x50 + 2 * (n - 1)) 2 0
  Memory.bytes m 0 128

/-- The lowest free storage for n units of 64 KiB (R291): an offset from where it begins, in HBM and among virtual addresses. A
replica's storage is free again once its mapping has gone (R299, R300). -/
def State.storageFree (s : State) (n : Nat) : Option Nat :=
  let limit := min (Config.hbmBytes / 65536 - Config.replicaPa.val) (2 ^ 40 - Config.replicaVa.val)
  firstFit limit n (s.exp.maps.map fun m => (m.1 / 65536 - Config.replicaVa.val, pageLen m.2.2 / 65536)) fun _ => true

/-- Step 2 for one change of the plan: storage in units of 64 KiB for an added replica; its entry's bytes. A replica for which
no storage is free is not added (log 103). -/
def State.reserveOne (s : State) (ver : Nat) (c : Nat × Option Nat) : State :=
  match s.exp.switch with
  | none => s
  | some w =>
    let len := s.xBytes 0 ver c.1
    let row (add : Option (Nat × Nat)) : Nat × List Byte := (c.1, s.newEntry ver w.ver c.1 add)
    match c.2 with
    | none => { s with exp := { s.exp with switch := some { w with table := w.table ++ [row none] } } }
    | some d => match s.storageFree (pageLen len / 65536) with
      | none => s
      | some o =>
        let va := (Config.replicaVa.val + o) * 65536
        { s with exp := { s.exp with
          switch := some { w with table := w.table ++ [row (some (d, va))], copies := w.copies ++ [⟨c.1, s.rep 0 ver c.1 0, len, d, va⟩] }
          maps := s.exp.maps ++ [(va, (Config.replicaPa.val + o) * 65536, len)] } }

/-- Bytes that the engine writes into replica storage, which no view has seen before. -/
def State.writeReplica (s : State) (pa : Nat) (bs : List Byte) : State :=
  { s with
    mem := Memory.setBytes s.mem pa bs
    poison := clearPoison s.poison pa bs.length
    ctxs := s.ctxs.map fun e => (e.1, { e.2 with shadow := e.2.shadow.filter fun b => !(decide (pa ≤ b.1) && decide (b.1 < pa + bs.length)) }) }

/-- Copy the committed bytes of a home into a replica. -/
def State.copyReplica (s : State) (home va len : Nat) : State :=
  match mapHit s.exp.maps va with
  | none => s
  | some m => s.writeReplica (m.2.1 + (va - m.1)) ((List.range len).map fun k => s.committedVa s.xpCtx (home + k))

/-- Steps 1 to 4: while the slot holds a live version nothing happens; then storage is reserved; then the copies are made and
their probes return, and the slots are written next. While EN is 0 the switch stands still (R294). -/
def State.switchCopied (s : State) : State :=
  match s.exp.switch with
  | none => s
  | some w =>
    if !s.xpEn || w.st == .writing then s
    else if w.st = .waiting then
      if s.exp.live.any fun e => e.1 == w.ver.toNat % 4 then s
      else
        let s : State := { s with exp := { s.exp with switch := some { w with st := .copying } } }
        (w.plan.foldl (fun s c => s.reserveOne s.xPublished c) s).postOnce .versionSwitchCopyDone
    else
      let s := w.copies.foldl (fun s c => s.copyReplica c.home c.va c.len) s
      State.post { s with exp := { s.exp with switch := some { w with st := .writing, next := 0 } } } (.slotWritten 0)

/-- Steps 5 and 6 on one die. -/
def State.switchSlot (s : State) (die : Nat) : State :=
  match s.exp.switch with
  | none => s
  | some w =>
    if !s.xpEn || w.st != .writing || die ≠ w.next then s
    else
      let to_ := slotKey die w.ver.toNat
      let dsm := Memory.copyRange s.dsm (slotKey die (s.xNewest die)) to_ (2 ^ 20)
      let dsm := w.table.foldl (fun m e => Memory.setBytes m (to_ + 128 * e.1) e.2) dsm
      let s := { s with dsm := dsm, exp := { s.exp with
        newest := SMap.set s.exp.newest 0 die w.ver
        live := SMap.insert s.exp.live (w.ver.toNat % 4) w.ver } }
      if die + 1 < Config.dies then
        State.post { s with exp := { s.exp with switch := some { w with next := die + 1 } } } (.slotWritten (die + 1))
      else State.retireVersions { s with exp := { s.exp with switch := none } }

/-- A switch that stood still while EN was 0 goes on. -/
def State.switchGoesOn (s : State) : State :=
  match s.exp.switch with
  | none => s
  | some w => s.postOnce (if w.st = .writing then .slotWritten w.next else .versionSwitchCopyDone)

/-- R300: an error in steps 2 to 4 of the copy of an expert towards a die: the version is abandoned, its storage freed, and a
record that names both is written on I/O die 25. -/
def State.abandonSwitch (s : State) (expert die : Nat) : State :=
  match s.exp.switch with
  | none => s
  | some w =>
    match w.copies.find? fun c => c.expert == expert && c.die == die with
    | none => s
    | some x =>
      if w.st != .copying then s
      else
        let s := { s with exp := { s.exp with
          switch := none
          maps := s.exp.maps.filter fun m => !(w.copies.any fun c => c.va == m.1)
          fails := min (s.exp.fails + 1) 65535 } }
        s.placeErr 25 ⟨3, 0, 0x0C, 0, BitVec.ofNat 5 s.xpCtx, 0xFF, 0, Config.syndrome s.free, BitVec.ofNat 64 (x.expert * 2 ^ 32 + die)⟩

/-- The grace period of a retired replica ends (R299). -/
def State.endGrace (s : State) (id : Nat) : State :=
  match s.exp.grace.find? fun g => g.id == id with
  | none => s
  | some g =>
    { s with exp := { s.exp with
      grace := s.exp.grace.filter fun x => x.id != id
      dead := addOnce s.exp.dead (g.rep, g.len)
      maps := s.exp.maps.filter fun m => m.1 != g.rep } }

/-- Copy every live replica again from its home, and those that a switch has copied and is about to publish (R293). -/
def State.refreshReplicas (s : State) (c : Nat) : State :=
  if c ≠ s.xpCtx then s
  else
    let s := s.exp.live.foldl (fun s e => (s.replicas e.2.toNat).foldl (fun s r => s.copyReplica r.2.1 r.1 r.2.2) s) s
    match s.exp.switch with
    | some w => if w.st = .writing then w.copies.foldl (fun s x => s.copyReplica x.home x.va x.len) s else s
    | none => s

/-- XPSTAT (Table 81). -/
def State.xpstat (s : State) : W64 :=
  BitVec.ofNat 64 (s.xPublished * 2 ^ 32 + s.exp.live.length * 2 ^ 29 + s.exp.fails)

end Sys2Proof.Machine
end

