-- ==== Sys2Proof/Machine/Objects.lean ====
section
/-! DEFINITION. Synchronisation objects at their homes: the locations of lines, barriers (R98 to R102), flags (R104),
ordered locks (R105 to R107), queues (R108, R109), free locks (R110), the wait-for table with priorities, cycles and
edge records (R111 to R119), ordered rounds (R80), the order gate and its log (R121 to R125), and the satisfaction of
waits (R24). -/

namespace Sys2Proof.Machine

/-! ### Locations of lines -/

/-- A number of n bytes at a location. -/
def State.loc (s : State) (loc n : Nat) : Nat :=
  if isDm loc then Memory.num s.dsm (loc - 2 ^ 53) n else Memory.num s.mem loc n
/-- Write bytes at a location. -/
def State.setLocBytes (s : State) (loc : Nat) (bs : List Byte) : State :=
  if isDm loc then s.writeDsm (loc - 2 ^ 53) bs else s.writeDev loc bs
def State.setLoc (s : State) (loc n x : Nat) : State := s.setLocBytes loc (leBytes n x)

/-! ### Barriers -/

/-- The barrier at a location; the block barrier is its block's (R102). -/
def State.bar (s : State) (h loc : Nat) : Bar :=
  if loc = blkLoc then (s.block h).bar
  else
    { npart := s.loc (loc + 4) 4, ovr := s.loc (loc + 1) 1 % 2 == 1, phase := BitVec.ofNat 64 (s.loc (loc + 8) 8),
      arrived := s.loc (loc + 0x10) 4, high := BitVec.ofNat 32 (s.loc (loc + 0x14) 4),
      expect := BitVec.ofNat 64 (s.loc (loc + 0x18) 8), landed := BitVec.ofNat 64 (s.loc (loc + 0x20) 8),
      landnext := BitVec.ofNat 64 (s.loc (loc + 0x28) 8) }

/-- The 64 bytes of a barrier line (Table 23). -/
def Bar.line (b : Bar) : List Byte :=
  leBytes 1 1 ++ leBytes 1 (if b.ovr then 1 else 0) ++ leBytes 2 0 ++ leBytes 4 b.npart ++ leBytes 8 b.phase.toNat ++
  leBytes 4 b.arrived ++ leBytes 4 b.high.toNat ++ leBytes 8 b.expect.toNat ++ leBytes 8 b.landed.toNat ++
  leBytes 8 b.landnext.toNat ++ leBytes 16 0

def State.setBar (s : State) (h loc : Nat) (b : Bar) : State :=
  if loc = blkLoc then s.updBlock h fun k => { k with bar := b } else s.setLocBytes loc b.line

/-! ### The block identity field (Table 28) -/

/-- The elements after the block index as the field stores them: 2-byte entries, the DLMASK bits and FWAVE. -/
def identGo : List Nat → Nat → Bool → List Nat × Nat × Nat
  | [], _, _ => ([], 0, 0)
  | e :: es, k, second =>
    if second then
      let r := identGo es (k + 1) false
      (e % 65536 :: r.1, r.2.1, r.2.2)
    else if 65536 ≤ e && e < 131072 then
      let r := identGo es (k + 1) true
      ((e - 65536) :: r.1, r.2.1 + 2 ^ k, r.2.2)
    else
      let r := identGo es (k + 1) false
      (e % 131072 % 65536 :: r.1, r.2.1, r.2.2 + (e / 131072) * 2 ^ (5 * k))

/-- Bytes 0x00 to 0x27 of Table 28. -/
def identField (b : Block) (wave : Nat) : List Byte :=
  let g (k : Nat) : Nat := b.gid.getD k 0
  let els := b.gid.drop 5
  let r := identGo els 0 false
  leBytes 4 (g 0) ++ leBytes 4 (g 1) ++ leBytes 2 (g 2) ++ leBytes 2 (g 3) ++ leBytes 4 (g 4) ++
  leBytes 1 els.length ++ leBytes 1 wave ++ leBytes 1 r.2.1 ++ leBytes 1 (r.2.2 % 256) ++
  ((r.1 ++ List.replicate (8 - r.1.length) 0).flatMap (leBytes 2 ·)) ++ leBytes 4 (r.2.2 / 256)

/-- Lexicographic order of global block IDs; a prefix is lower (R13). -/
def gidLt : List Nat → List Nat → Bool
  | [], [] => false
  | [], _ => true
  | _, [] => false
  | a :: as, b :: bs => if a < b then true else if b < a then false else gidLt as bs

/-- A key that orders first by global block ID and then by what follows: wave, lane, count (R13, R80). -/
def idKey (gid rest : List Nat) : List Nat := gid.map (· + 1) ++ 0 :: rest

/-! ### The wait-for table (R111 to R119) -/

/-- The line a wait-for entry names: bits [51:6] of the location, or the block for the block barrier. -/
def lineOf (h loc : Nat) : Nat := if loc = blkLoc then 2 ^ 50 + h else loc / 64

/-- Whether the wave of entry `x` has an edge to the wave of entry `y` through these two entries (R114). -/
def edgeVia (x y : WaitEnt) : Bool :=
  !x.hold && y.hold && x.line == y.line &&
  (!(x.blk == y.blk && x.wv == y.wv) || ((x.kind == 3 || x.kind == 5) && y.orig == 2))

/-- The key that orders waves by global block ID and wave index, then by what follows. -/
def State.waveKey (s : State) (k : Nat) (rest : List Nat) : List Nat := idKey (s.block (k / 32)).gid (k % 32 :: rest)

/-- The waves a wave waits for, with the entry of the wait: (key, entry), in ascending global block ID and wave index. Of
several entries that lead to one wave the one whose object has the lowest VA stands, then the lowest line (log 119). -/
def State.edges (s : State) (ents : List WaitEnt) (k : Nat) : List (Nat × WaitEnt) :=
  let outs := ents.flatMap fun x =>
    if 32 * x.blk + x.wv = k then (ents.filter fun y => edgeVia x y).map fun y => (32 * y.blk + y.wv, x) else []
  let lt (a b : Nat × WaitEnt) : Bool := gidLt (s.waveKey a.1 [a.2.va.toNat, a.2.line]) (s.waveKey b.1 [b.2.va.toNat, b.2.line])
  let ins (x : Nat × WaitEnt) (l : List (Nat × WaitEnt)) : List (Nat × WaitEnt) :=
    if l.any fun y => y.1 == x.1 && !lt x y then l
    else
      let l := l.filter fun y => y.1 != x.1
      (l.filter fun y => lt y x) ++ [x] ++ (l.filter fun y => !lt y x)
  outs.foldl (fun l x => ins x l) []

/-- Waves in ascending global block ID and wave index. -/
def State.byId (s : State) (ks : List Nat) : List Nat :=
  ks.foldl (fun l k =>
    let low (j : Nat) : Bool := gidLt (s.waveKey j []) (s.waveKey k [])
    l.filter low ++ [k] ++ l.filter fun j => !low j) []

/-- A cycle through the start wave: the waves of the path with the entries they wait by. -/
def State.findCycle (s : State) (ents : List WaitEnt) (start : Nat) : Nat → Nat → List Nat → Option (List (Nat × WaitEnt))
  | 0, _, _ => none
  | fuel + 1, k, seen =>
    (s.edges ents k).findSome? fun e =>
      if e.1 = start then some [(k, e.2)]
      else if e.1 ∈ seen then none
      else (s.findCycle ents start fuel e.1 (e.1 :: seen)).map ((k, e.2) :: ·)

/-- Rotate a cycle so that its victim stands first: lowest global block ID, then lowest wave index (R117). -/
def State.victimFirst (s : State) (c : List (Nat × WaitEnt)) : List (Nat × WaitEnt) :=
  let id (k : Nat) : List Nat := idKey (s.block (k / 32)).gid [k % 32]
  match c with
  | [] => []
  | x :: _ =>
    let v := c.foldl (fun m y => if gidLt (id y.1) (id m.1) then y else m) x
    (c.dropWhile fun y => y.1 != v.1) ++ (c.takeWhile fun y => y.1 != v.1)

/-- The edge record of a cycle (R118): 512 bytes. -/
def State.edgeRecord (s : State) (c : List (Nat × WaitEnt)) : List Byte :=
  let es := (c.take 8).flatMap fun e => identField (s.block (e.1 / 32)) (e.1 % 32) ++ leBytes 8 e.2.va.toNat
  leBytes 64 0 ++ es ++ leBytes (448 - es.length) 0

/-- Whether a wait of a block's wave is registered on a line and open. -/
def WaitR.onLine (r : WaitR) (h line : Nat) : Bool := !r.done && r.reg && lineOf h r.loc == line

/-- What withdrawing waits from the groups of a wave or of a trap frame leaves: its groups, PCs and ages. -/
structure Withdrawn where
  groups : List Group
  pc : SMap W64
  age : SMap Nat
  deriving DecidableEq, Repr

/-- Withdraw the waits on a line from parked groups: their lanes stand at the wait instruction, with age 0. -/
def withdrawFrom (h line : Nat) (gs : List Group) (pc : SMap W64) (age : SMap Nat) : Withdrawn :=
  gs.foldl (fun acc g =>
    let ws := g.waits.filter fun r => r.onLine h line
    match ws with
    | [] => { acc with groups := acc.groups ++ [g] }
    | r :: _ =>
      let lanes := ws.foldl (fun m r => m ||| r.mask) 0
      let rest := g.mask &&& ~~~lanes
      { groups := if rest = 0 then acc.groups
          else acc.groups ++ [⟨rest, g.waits.filter fun r => !r.onLine h line, g.barw, g.hold.filter fun e => rest.getLsbD e.1⟩]
        pc := (lanesOf lanes).foldl (fun t l => SMap.set t 0 l r.word) acc.pc
        age := (lanesOf lanes).foldl (fun t l => SMap.set t 0 l 0) acc.age }) ⟨[], pc, age⟩

/-- The arrivals whose waits are withdrawn: they go back to the outstanding-arrival set (R117). -/
def arrivalsOn (h line : Nat) (gs : List Group) : List Arr :=
  gs.flatMap fun g =>
    let ws := g.waits.filter fun r => r.onLine h line
    let lanes := ws.foldl (fun m r => m ||| r.mask) 0
    ws.filterMap fun r =>
      if r.kind == .bar then some (⟨r.loc, r.va, isDm r.loc, r.arg, BitVec.ofNat 32 r.aux, r.word, lanes, lanes, none, true⟩ : Arr) else none

/-- Withdraw the waits of a wave on a line, those that its trap frames hold too (R117, R378): their lanes resume at the
wait instruction; an arrival of a barrier goes back to the outstanding-arrival set. -/
def Wave.withdraw (w : Wave) (line : Nat) : Wave :=
  let a := withdrawFrom w.blk line w.groups w.pc w.age
  { w with
    groups := a.groups
    pc := a.pc
    age := a.age
    arrivals := w.arrivals ++ arrivalsOn w.blk line w.groups ++ w.frames.flatMap fun f => arrivalsOn w.blk line f.groups
    frames := w.frames.map fun f =>
      let x := withdrawFrom w.blk line f.groups f.pc f.age
      { f with groups := x.groups, pc := x.pc, age := x.age } }

/-- Raise effective priorities over the edges that `p` admits, `n` rounds (R115). -/
def State.propagate (s : State) (p : WaitEnt → WaitEnt → Bool) : Nat → State
  | 0 => s
  | n + 1 =>
    let s := s.propagate p n
    let pairs := s.wft.flatMap fun x => (s.wft.filter fun y => edgeVia x y && p x y).map fun y => (x.blk, y.blk)
    pairs.foldl (fun s q =>
      let a := (s.block q.1).prio
      if (s.block q.2).prio < a then s.updBlock q.2 fun b => { b with prio := a } else s) s

/-- Whether two entries stand in one die's table. -/
def sameDie (x y : WaitEnt) : Bool := x.die == y.die

/-- The package wait checker's priorities: from each block's own, over every edge of the package. -/
def State.reprio (s : State) : State :=
  if s.wft == [] then s
  else (s.wft.foldl (fun s e => s.updBlock e.blk fun b => { b with prio := b.ownPrio }) s).propagate (fun _ _ => true) s.wft.length

/-- The blocks that inherit from some blocks within a die, within `n` edges. -/
def State.heirs (s : State) (hs : List Nat) : Nat → List Nat
  | 0 => hs
  | n + 1 =>
    let hs := s.heirs hs n
    (s.wft.flatMap fun x => if hs.contains x.blk then (s.wft.filter fun y => edgeVia x y && sameDie x y).map (·.blk) else []).foldl addOnce hs

/-- The blocks whose priority may rest on edges within a die that go with some entries: the blocks that hold. -/
def State.losers (s : State) (p : WaitEnt → Bool) : List Nat :=
  (s.wft.flatMap fun x => (s.wft.filter fun y => edgeVia x y && sameDie x y && (p x || p y)).map (·.blk)).foldl addOnce []

/-- The priority of a block from its own and from what reaches it across dies. -/
def State.farPrio (s : State) (h : Nat) : W32 :=
  let xs := s.wft.filter fun x => s.wft.any fun y => y.blk == h && edgeVia x y && !sameDie x y
  xs.foldl (fun m x => if m < (s.block x.blk).prio then (s.block x.blk).prio else m) (s.block h).ownPrio

/-- Remove wait-for entries; within the die the priorities that rested on them follow at once, and what comes across dies
stays until the package wait checker carries its change (R115). -/
def State.dropEnts (s : State) (p : WaitEnt → Bool) : State :=
  if s.wft.any p then
    let hs := (s.heirs (s.losers p) 16).map fun h => (h, s.farPrio h)
    let s := { s with wft := s.wft.filter fun e => !p e }
    (hs.foldl (fun s e => s.updBlock e.1 fun b => { b with prio := e.2 }) s).propagate
      (fun x y => sameDie x y && hs.any fun e => e.1 == y.blk) 16
  else s

/-- Withdraw the free-lock acquires that wait at order gates, of those that satisfy a condition; the gates look at the
lock requests left again (R110, R112). -/
def State.dropAcquires (s : State) (p : Req → Bool) : State :=
  let gone (q : Req) : Bool := q.lock && q.op == .swap && p q
  if s.gate.any gone then
    let s := { s with gate := s.gate.filter fun q => !gone q }
    s.gate.foldl (fun s q => if q.lock then s.postOnce (.gateAdmit q.id) else s) s
  else s

/-- Raise the deadlock trap for a cycle in its victim (R117): its automatic waits on the line are withdrawn with their
entries, all of them (log 126), one at an order gate too. -/
def State.raiseDeadlock (s : State) (c : List (Nat × WaitEnt)) (pkg : Bool) : State :=
  match s.victimFirst c with
  | [] => s
  | (k, x) :: rest =>
    let c := (k, x) :: rest
    let n := c.length
    let info := BitVec.ofNat 64 (min n 65535 * 256 + (if pkg then 32 else 0) + (if 8 < n then 16 else 0) + min n 8)
    let ext := s.edgeRecord c
    let s := s.updWave k fun w =>
      let w := w.withdraw x.line
      { w with pend := w.pend ++ [⟨0x0A, info, x.va, none, ext⟩] }
    let s := s.dropAcquires fun q => q.blk == x.blk && q.wv == x.wv && lineOf 0 q.loc == x.line
    s.dropEnts fun y => y == x || (!y.hold && y.orig == 0 && y.blk == x.blk && y.wv == x.wv && y.line == x.line)

/-- Make a wait-for entry (R112, R116, R119): nothing when an equal one stands; OVF when the die's table is full. The
die walks its edges from the new entry for up to 16 edges. The Bool says whether the entry stands. -/
def State.addEnt (s : State) (e : WaitEnt) : State × Bool :=
  if e ∈ s.wft then (s, true)
  else if Config.waitEntries ≤ (s.wft.filter fun x => x.die == e.die).length then
    (s.setPf (Pf.ovf e.die) (s.pfNum (Pf.ovf e.die) ||| 1), false)
  else
    let s := { s with wft := s.wft ++ [e] }
    let s := s.propagate sameDie 16
    let k := 32 * e.blk + e.wv
    match s.findCycle (s.wft.filter fun x => x.die == e.die) k 16 k [k] with
    | some c => (s.raiseDeadlock c false, true)
    | none => (s, true)

/-- The KIND that a wait-for entry records for a location. -/
def State.kindAt (s : State) (loc : Nat) : BitVec 4 :=
  if loc = blkLoc then 0xF
  else
    let k := s.loc (loc / 64 * 64) 1
    if k ≤ 5 then BitVec.ofNat 4 k else 0

/-- The flag index of a location within its line. -/
def subOf (kind : BitVec 4) (loc : Nat) : Nat := if kind = 2 then (loc % 64 - 8) / 8 else 0

/-- The wait entry of a wait. -/
def State.waitEnt (s : State) (k : Nat) (r : WaitR) : WaitEnt :=
  let kind := s.kindAt r.loc
  let arg := if r.kind == .acq || r.kind == .pass then BitVec.ofNat 32 r.aux else r.arg.setWidth 32
  ⟨s.dieOf k, false, 0, kind, k % 32, k / 32, lineOf (k / 32) r.loc, subOf kind r.loc, arg, r.va⟩

/-- LINE of Table 26: bits [51:6] of the physical address, or the core and the block for the block barrier (log 83). -/
def State.lineField (s : State) (e : WaitEnt) : Nat :=
  if e.kind = 0xF then
    let b := s.block e.blk
    (36 * b.die + b.core) * 2 ^ 32 + e.blk % 2 ^ 32
  else e.line % 2 ^ 46

/-- The 128 bits of an entry (Table 26). -/
def State.entImage (s : State) (e : WaitEnt) : BitVec 128 :=
  BitVec.ofNat 128 (2 ^ 127 + (if e.hold then 2 ^ 126 else 0) + e.orig.toNat * 2 ^ 124 + e.kind.toNat * 2 ^ 120 + e.wv % 64 * 2 ^ 114 +
    e.blk % 2 ^ 32 * 2 ^ 82 + s.lineField e * 2 ^ 36 + e.sub % 16 * 2 ^ 32 + e.arg.toNat)

/-- The entry in place `n` of a die's table as the management core reads it (R111); 0 where there is none. -/
def State.entAt (s : State) (die n : Nat) : BitVec 128 :=
  match (s.wft.filter fun e => e.die == die)[n]? with
  | some e => s.entImage e
  | none => 0

/-! ### Locks -/

/-- Advance of R106. -/
def State.lockAdvance (s : State) (loc : Nat) : State :=
  let n := s.loc (loc + 0x10) 4 + 1
  if n = s.loc (loc + 4) 4 then
    (s.setLoc (loc + 0x10) 4 0).setLoc (loc + 8) 8 (s.loc (loc + 8) 8 + 1)
  else s.setLoc (loc + 0x10) 4 n

/-- Release of an ordered lock; `abandon` under R107. HOLDW names the holder while there is one (log 100). -/
def State.lockRelease (s : State) (loc : Nat) (abandon : Bool) : State :=
  let st := s.loc (loc + 1) 1
  let s := (s.setLoc (loc + 1) 1 ((st / 4) * 4 + (if abandon then 2 else st / 2 % 2 * 2))).setLoc (loc + 0x14) 4 0
  s.lockAdvance loc

/-- Release of a free lock. -/
def State.freeRelease (s : State) (loc : Nat) : State := (s.setLoc (loc + 1) 1 (s.loc (loc + 1) 1 / 2 * 2)).setLoc (loc + 4) 4 0

/-- The grant of a lock given to a wave: recorded in the wave, with its hold entry (R112). -/
def State.grant (s : State) (k loc : Nat) (free : Bool) (va : W64) (p : Nat) : State :=
  let s := s.updWave k fun w => { w with grants := w.grants ++ [(loc, free)] }
  (s.addEnt ⟨s.dieOf k, true, 2, if free then 5 else 3, k % 32, k / 32, lineOf 0 loc, 0, BitVec.ofNat 32 p, va⟩).1

/-- A grant taken back: the wave's record and its hold entry go. -/
def State.ungrant (s : State) (k loc : Nat) (free : Bool) : State :=
  let s := s.updWave k fun w => { w with grants := w.grants.erase (loc, free) }
  s.dropEnts fun e => e.hold && e.orig == 2 && e.blk == k / 32 && e.wv == k % 32 && e.line == lineOf 0 loc

/-! ### Queues (R108, R109) -/

/-- The slot of a sequence number: location of its TAG, and payload bytes. BASE of a `g:` queue is a VA of the
context. -/
def State.queueSlot (s : State) (c home loc n : Nat) : Nat × Nat :=
  let slog := s.loc (loc + 1) 1
  let nlog := s.loc (loc + 2) 1
  let base := s.loc (loc + 8) 8
  let off := (n % 2 ^ nlog) * 2 ^ slog
  let at_ := if isDm loc then dmLoc (home + base + off)
    else match s.walk c (base + off) with
      | .leaf l => l.paOf (base + off)
      | _ => 0
  (at_, 2 ^ slog - 8)

/-- What a push or a pop of sequence n finds at its slot. -/
inductive QueueChk where
  | ready | wait | bad
  deriving DecidableEq, Repr

/-- R109 for a push. -/
def pushChk (tag n : Nat) : QueueChk :=
  let full := decide (2 ^ 63 ≤ tag)
  let seq := tag % 2 ^ 63
  if n < seq || (full && seq == n) then .bad else if !full && seq == n then .ready else .wait

/-- R109 for a pop. -/
def popChk (tag n : Nat) : QueueChk :=
  let full := decide (2 ^ 63 ≤ tag)
  let seq := tag % 2 ^ 63
  if n < seq then .bad else if full && seq == n then .ready else .wait

/-- Registers as bytes, and back. -/
def regBytes (rs : List W32) : List Byte := rs.flatMap fun r => leBytes 4 r.toNat
def bytesRegs (n x : Nat) : List W32 := (List.range n).map fun k => BitVec.ofNat 32 (x / 2 ^ (32 * k))

/-! ### Satisfying waits (R24) -/

/-- The home key of a block's `dm:` allocation. -/
def State.dmBase (s : State) (h : Nat) : Nat :=
  let b := s.block h
  match SMap.find? s.grps b.grp with
  | some g => dsmKey b.home g.dsmOff
  | none => 0

/-- Every wait of a wave, those of its trap frames too. -/
def Wave.waits (w : Wave) : List WaitR := w.groups.flatMap (·.waits) ++ w.frames.flatMap fun f => f.groups.flatMap (·.waits)

/-- Change every wait of a wave, those of its trap frames too. -/
def Wave.mapWaits (w : Wave) (f : WaitR → WaitR) : Wave :=
  let upd (gs : List Group) : List Group := gs.map fun g => { g with waits := g.waits.map f }
  { w with groups := upd w.groups, frames := w.frames.map fun x => { x with groups := upd x.groups } }

/-- Whether a wait on a flag, a lock or a queue stays open as its object stands. -/
def State.staysOpen (s : State) (k : Nat) (r : WaitR) : Bool :=
  let slot := s.loc (s.queueSlot (s.block (k / 32)).ctx (s.dmBase (k / 32)) r.loc r.arg.toNat).1 8
  !r.done && match r.kind with
  | .flag => decide (s.loc r.loc 8 < r.arg.toNat)
  | .acq | .pass => s.loc (r.loc + 0x10) 4 != r.aux || s.loc (r.loc + 1) 1 % 2 == 1
  | .push => pushChk slot r.arg.toNat == .wait
  | .pop => popChk slot r.arg.toNat == .wait
  | .free => true
  | _ => false

/-- Whether another wait of the wave that stays open shares a wait's entry: an equal entry is made once (R111, R112). -/
def State.shared (s : State) (k : Nat) (r : WaitR) : Bool :=
  (s.wave k).waits.any fun x => x != r && x.reg && s.waitEnt k x == s.waitEnt k r && s.staysOpen k x

/-- Mark a wait satisfied with its result; its wait-for entry goes, unless another open wait of the wave shares it. -/
def State.satisfy (s : State) (k : Nat) (r : WaitR) (res : List W32) : State × WaitR :=
  let s := if r.reg && !s.shared k r then
      let x := s.waitEnt k r
      s.dropEnts fun e => !e.hold && e.orig == 0 && e.blk == x.blk && e.wv == x.wv && e.line == x.line && e.sub == x.sub && e.arg == x.arg
    else s
  (s, { r with done := true, res := res })

/-- Try one wait of a wave (key k): perform it when it is satisfied. -/
def State.tryWait (s : State) (k : Nat) (r : WaitR) : State × WaitR :=
  if r.done then (s, r)
  else match r.kind with
  | .flag => if r.arg.toNat ≤ s.loc r.loc 8 then s.satisfy k r [] else (s, r)
  | .acq =>
    if s.loc (r.loc + 0x10) 4 = r.aux && s.loc (r.loc + 1) 1 % 2 = 0 then
      let ab := s.loc (r.loc + 1) 1 / 2 % 2
      let gen := s.loc (r.loc + 8) 8
      let s := (s.setLoc (r.loc + 1) 1 1).setLoc (r.loc + 0x14) 4 (k / 32)
      let q := s.satisfy k r (bytesRegs 2 (ab * 2 ^ 63 + gen % 2 ^ 63))
      (q.1.grant k r.loc false r.va r.aux, q.2)
    else (s, r)
  | .pass =>
    if s.loc (r.loc + 0x10) 4 = r.aux && s.loc (r.loc + 1) 1 % 2 = 0 then (s.lockAdvance r.loc).satisfy k r [] else (s, r)
  | .push =>
    let q := s.queueSlot (s.block (k / 32)).ctx (s.dmBase (k / 32)) r.loc r.arg.toNat
    (match pushChk (s.loc q.1 8) r.arg.toNat with
      | .ready => (s.setLocBytes q.1 (leBytes 8 (2 ^ 63 + r.arg.toNat % 2 ^ 63) ++ (regBytes r.pay).take q.2)).satisfy k r []
      | .wait => (s, r)
      | .bad =>
        let x := s.satisfy k r []
        (x.1.updWave k fun w => { w with pend := w.pend ++ [⟨5, BitVec.ofNat 64 (128 + r.lane), r.va, some (r.word, r.mask, r.mask), []⟩] },
          { x.2 with aux := 1 }))
  | .pop =>
    let q := s.queueSlot (s.block (k / 32)).ctx (s.dmBase (k / 32)) r.loc r.arg.toNat
    (match popChk (s.loc q.1 8) r.arg.toNat with
      | .ready =>
        let pay := bytesRegs (q.2 / 4) (s.loc (q.1 + 8) q.2)
        (s.setLoc q.1 8 ((r.arg.toNat + 2 ^ s.loc (r.loc + 2) 1) % 2 ^ 63)).satisfy k r pay
      | .wait => (s, r)
      | .bad =>
        let x := s.satisfy k r (bytesRegs (q.2 / 4) (leNat []))
        (x.1.updWave k fun w => { w with pend := w.pend ++ [⟨5, BitVec.ofNat 64 (128 + r.lane), r.va, some (r.word, r.mask, r.mask), []⟩] },
          { x.2 with res := [], aux := 1 }))
  | .tag =>
    let ready := (s.block (k / 32)).tagready
    if (if r.aux = 1 then ready &&& r.arg != 0 else ready &&& r.arg == r.arg) then s.satisfy k r [] else (s, r)
  | .count =>
    (match SMap.find? s.grps r.loc with
      | some g => if g.st == .ended then s.satisfy k r (bytesRegs 2 g.word.toNat) else (s, r)
      | none => s.satisfy k r (bytesRegs 2 (SMap.get (s.wave k).read 0 r.aux).toNat))
  | .bar | .free => (s, r)

/-- Try the waits of one group. -/
def State.tryWaits (s : State) (k : Nat) : List WaitR → State × List WaitR
  | [] => (s, [])
  | r :: rs =>
    let a := s.tryWait k r
    let b := a.1.tryWaits k rs
    (b.1, a.2 :: b.2)

/-- Try the waits of the groups of a wave. -/
def State.tryGroups (s : State) (k : Nat) : List Group → State × List Group
  | [] => (s, [])
  | g :: gs =>
    let a := s.tryWaits k g.waits
    let b := a.1.tryGroups k gs
    (b.1, { g with waits := a.2 } :: b.2)

/-- Try the waits of the groups that trap frames hold (R378). -/
def State.tryFrames (s : State) (k : Nat) : List Frame → State × List Frame
  | [] => (s, [])
  | f :: fs =>
    let a := s.tryGroups k f.groups
    let b := a.1.tryFrames k fs
    (b.1, { f with groups := a.2 } :: b.2)

/-- How many waits of a wave are open. -/
def Wave.openWaits (w : Wave) : Nat :=
  let count (gs : List Group) : Nat := gs.foldl (fun n g => n + (g.waits.filter fun r => !r.done).length) 0
  count w.groups + w.frames.foldl (fun n f => n + count f.groups) 0

/-- Take up what trying the waits of groups gave, wait by wait: one that has gone meanwhile stays gone. -/
def takeTried (old new gs : List Group) : List Group :=
  let pairs := (old.flatMap (·.waits)).zip (new.flatMap (·.waits))
  let now (r : WaitR) : WaitR := match pairs.find? (fun p => p.1 == r) with
    | some p => p.2
    | none => r
  gs.map fun g => { g with waits := g.waits.map now }

/-- One pass over every wave with open waits. -/
def State.wakePass (s : State) : State :=
  s.waveKeys.foldl (fun s k =>
    let w := s.wave k
    if w.openWaits = 0 then s
    else
      let a := s.tryGroups k w.groups
      let b := a.1.tryFrames k w.frames
      b.1.updWave k fun v => { v with
        groups := takeTried w.groups a.2 v.groups
        frames := (v.frames.zip (w.frames.zip b.2)).map fun e => { e.1 with groups := takeTried e.2.1.groups e.2.2.groups e.1.groups } }) s

/-- Passes until every wait that can be satisfied has been. -/
def State.wakeGo (s : State) : Nat → State
  | 0 => s
  | n + 1 =>
    let count (s : State) : Nat := s.waveKeys.foldl (fun t k => t + (s.wave k).openWaits) 0
    let t := s.wakePass
    if count t = count s then t else t.wakeGo n

/-- Satisfy every wait that the objects now allow. -/
def State.wake (s : State) : State :=
  let n := s.waveKeys.foldl (fun t k => t + (s.wave k).openWaits) 0
  if n = 0 then s else s.wakeGo n

/-! ### Ordered rounds (R80 to R82) -/

/-- Insert a request in ascending issuer index. -/
def insertReq (q : Req) : List Req → List Req
  | [] => [q]
  | x :: xs => if gidLt q.index x.index then q :: x :: xs else x :: insertReq q xs

/-! ### Holding buffers (R82) -/

/-- The holding buffer of a location: the die, and its bank o[12:6] (R76) or the L2 slice that homes the line. -/
def bufferOf (loc : Nat) : Nat × Nat :=
  if isDm loc then (locDie loc, (loc - 2 ^ 53) / 64 % 128) else (locDie loc, 128 + Config.homeSlice (loc / 64) % 12)

/-- The requests that stand in a location's buffer. -/
def State.buffered (s : State) (loc : Nat) : List Req := s.reqs.filter fun x => x.held && !x.spilled && bufferOf x.loc == bufferOf loc
/-- Whether the buffer is full. -/
def State.bufferFull (s : State) (loc : Nat) : Bool := decide (Config.holdEntries ≤ (s.buffered loc).length)

/-- Whether a die's spill area, the one in HBM or the one in its shared memory, has room for one more run. -/
def State.spillRoom (s : State) (die : Nat) (far : Bool) : Bool :=
  let n := (s.reqs.filter fun x => x.spilled && x.far == far && locDie x.loc == die).length
  decide ((n + Config.holdEntries) * Config.spillRecord ≤ (if far then Config.spillFar else Config.spillNear))

/-- Where a location's home writes a run: the spill region (false) or the HBM area (true), which the driver gives in SPILL;
none when it must wait. -/
def State.runTo (s : State) (loc : Nat) : Option Bool :=
  let die := locDie loc
  if isDm loc && s.spillRoom die false then some false
  else if s.pfNum (Pf.spill die) != 0 && s.spillRoom die true then some true
  else none

/-! ### Channels (R89) -/

/-- Whether the home of a location has no room for one more request: its buffer and both spill areas are full (R82). -/
def State.spillFull (s : State) (loc : Nat) : Bool := s.bufferFull loc && (s.runTo loc).isNone

/-- Whether a message of a die's channel to the home of a location is still to be delivered, of those that satisfy a condition. A
request that waits at its home for room in a buffer has been delivered (R82). -/
def State.undelivered (s : State) (die loc : Nat) (p : Req → Bool) : Bool :=
  let ahead (x : Req) : Bool := !x.held && p x && x.src == die && locDie x.loc == locDie loc
  s.reqs.any (fun x => ahead x && !s.spillFull x.loc) || s.gate.any ahead

/-- Whether an earlier message of the request's channel from its die to its home is still to be delivered. -/
def State.reqBehind (s : State) (q : Req) : Bool := s.undelivered q.src q.loc fun x => decide (x.id < q.id)

/-- Whether a request of a round has yet to reach its home (R89). -/
def State.underWay (s : State) (q : Req) : Bool := !q.held && (!s.spillFull q.loc || s.reqBehind q)

/-- Whether an earlier return value of the channel is still to be delivered. Those for a block that was towed keep their
order though its die has changed (R362). -/
def State.replyBehind (s : State) (r : Reply) : Bool :=
  s.replies.any fun x => decide (x.id < r.id) && x.src == r.src && (x.dest == r.dest || x.blk == r.blk)

/-- Whether a message of the channel from a die to the home of a location is still to be delivered: an object operation is
performed behind it. -/
def State.chanBusy (s : State) (die loc : Nat) : Bool := s.undelivered die loc fun _ => true

/-- Whether every message that a die injected before the number `id` has been delivered, on any channel: to any destination,
or only on the die itself (R90). -/
def State.dieQuiet (s : State) (die : Nat) (far : Bool) (id : Nat) : Bool :=
  let old (n src dest : Nat) : Bool := decide (n < id) && src == die && (far || dest == die)
  !(s.cmds.any fun c => match c.chan with
    | some (a, b, q) => old q a b
    | none => false) &&
  !((s.reqs ++ s.gate).any fun q => !q.held && old q.id q.src (locDie q.loc)) &&
  !(s.replies.any fun r => old r.id r.src r.dest)

/-- Send a return value to a wave, or the poison that its operation found. -/
def State.reply (s : State) (q : Req) (old : Nat) (fl : Fl) (poison : Option Nat) : State :=
  let id := s.ids
  let regs := match q.dst with
    | .zero => []
    | _ => bytesRegs q.dt.regs old
  let r : Reply := ⟨id, locDie q.loc, s.dieOf (32 * q.blk + q.wv), q.word, q.acq, q.blk, q.wv, q.lane, q.dst, regs, fl, poison⟩
  State.post { s with ids := id + 1, replies := s.replies ++ [r] } (.memoryReply id)

/-- Apply one request at its home (R230, R231); one that reads a poisoned location is not performed, and its wave consumes the
poison (R401). -/
def State.applyReq (s : State) (q : Req) : State :=
  let n := q.dt.bytes
  let old := s.loc q.loc n
  let r := aluOp q.op q.dt q.fmode old q.b.toNat q.c.toNat
  if q.op != .store && s.poisoned q.loc n then s.reply q old 0 (some q.loc)
  else
    let s := if q.op == .load then s else s.setLoc q.loc n r.1
    s.reply q old r.2 none

/-- Apply the held requests of a round in issuer-index order. -/
def State.applyRound (s : State) (loc : Nat) (phase : W64) : State :=
  let mine (q : Req) : Bool := q.bar == loc && q.round == phase
  let rs := (s.reqs.filter mine).foldl (fun l q => insertReq q l) []
  rs.foldl State.applyReq { s with reqs := s.reqs.filter fun q => !mine q }

/-! ### Closing a barrier phase (R99, R102) -/

/-- Note a closed phase in a wave: outstanding arrivals learn its HIGH, waits on it are satisfied with LAST. -/
def closeArr (loc : Nat) (phase : W64) (high : W32) (a : Arr) : Arr :=
  if a.loc == loc && a.phase == phase then { a with closed := some high } else a
def closeWait (loc : Nat) (phase : W64) (high : W32) (r : WaitR) : WaitR :=
  if r.kind == .bar && r.loc == loc && r.arg == phase && !r.done then
    { r with done := true, res := [if BitVec.ofNat 32 r.aux == high then 1 else 0] }
  else r
def closeGroups (loc : Nat) (phase : W64) (high : W32) (gs : List Group) : List Group :=
  gs.map fun g => { g with waits := g.waits.map (closeWait loc phase high) }

/-- The waves that a barrier concerns: the block's for the block barrier, every wave otherwise. -/
def State.barWaves (s : State) (h loc : Nat) : List Nat := if loc = blkLoc then s.wavesOf h else s.waveKeys

/-- Whether a wave has arrived at its block's barrier for the open phase. -/
def State.hasArrived (s : State) (k : Nat) : Bool :=
  let w := s.wave k
  let phase := (s.block (k / 32)).bar.phase
  let waits (gs : List Group) : Bool := gs.any fun g => g.waits.any fun r => r.kind == .bar && r.loc == blkLoc && r.arg == phase && !r.done
  w.arrivals.any (fun a => a.loc == blkLoc && a.phase == phase && a.closed.isNone) || waits w.groups || w.frames.any fun f => waits f.groups

/-- The block barrier's hold entries: one for each wave that has not arrived for the phase (R112), made when its first
wave arrives (R317, log 69). -/
def State.barHolds (s : State) (h : Nat) : State :=
  (s.wavesOf h).foldl (fun s k =>
    if (s.wave k).st == .ended || s.hasArrived k then s
    else (s.addEnt ⟨s.dieOf k, true, 0, 0xF, k % 32, h, lineOf h blkLoc, 0, (s.block h).bar.phase.setWidth 32, 0⟩).1) s

/-- Whether a wave keeps its block's barrier open though it has arrived: a fork not yet joined (R41), a command that has
yet to act on its view (R91). -/
def State.keepsOpen (s : State) (k : Nat) : Bool :=
  let w := s.wave k
  (w.st != .ended && w.fork.isSome) || s.viewBusyOf (k / 32) (k % 32)

/-- CheckClose of R99: the phase closes when every participant has arrived and every expected byte has landed; that of
the block barrier also needs every fork joined and every command on a view performed (R41, R91). A round is applied once its
requests have reached their homes, each in its channel's order (R80, R89, log 120). -/
def State.checkClose (s : State) (h loc : Nat) : State :=
  let b := s.bar h loc
  let ks := s.barWaves h loc
  if b.arrived ≠ b.npart || b.ovr then s
  else if loc = blkLoc && ks.any s.keepsOpen then s
  else if b.expect < b.landed then s.setBar h loc { b with ovr := true }
  else if b.landed ≠ b.expect || s.reqs.any (fun q => q.bar == loc && q.round == b.phase && s.underWay q) then s
  else
    let s := s.applyRound loc b.phase
    let fr : State × Option (Nat × Conflict) := if loc = blkLoc then s.foldWaves h else (s, none)
    let s : State := fr.1
    -- R41: the conflict goes to the higher wave, or to the lowest that has not ended; one that has exited counts as ended (log 121)
    let s : State := match fr.2 with
      | none => s
      | some (second, r) =>
        let k := if (s.wave (32 * h + second)).exitedAll then (ks.filter fun k => !(s.wave k).exitedAll).headD (32 * h + second)
          else 32 * h + second
        let arr := ((s.wave k).arrivals.find? fun a => a.loc == blkLoc && a.phase == b.phase).map fun a => (a.word, a.run, a.act)
        let wt := ((s.wave k).groups.flatMap (·.waits)).find? fun r => r.kind == .bar && r.loc == blkLoc && r.arg == b.phase
        let at_ := arr.orElse fun _ => wt.map fun r => (r.word, r.mask, r.mask)
        s.updWave k fun w => { w with pend := w.pend ++ [⟨7, r.info, r.addr, at_, []⟩] }
    let s : State := ks.foldl (fun (s : State) k => s.updWave k fun w =>
      { w with
        arrivals := w.arrivals.map (closeArr loc b.phase b.high)
        groups := closeGroups loc b.phase b.high w.groups
        frames := w.frames.map fun f => { f with groups := closeGroups loc b.phase b.high f.groups } }) s
    let npart := if loc = blkLoc then (ks.filter fun k => (s.wave k).st != .ended).length else b.npart
    let s := s.setBar h loc { b with npart := npart, phase := b.phase + 1, arrived := 0, high := 0xFFFFFFFF, expect := 0,
                                     landed := b.landnext, landnext := 0 }
    let line := lineOf h loc
    s.dropEnts fun e => !e.hold && e.orig == 0 && e.line == line

/-- Arrive of R99 once its checks have passed. -/
def State.arrive (s : State) (k loc : Nat) (va : W64) (p : W32) (e : W64) (word : W64) (run act : Mask) : State :=
  let h := k / 32
  let b := s.bar h loc
  let high := if b.high = 0xFFFFFFFF then p else if b.high < p then p else b.high
  let s := s.setBar h loc { b with arrived := b.arrived + 1, high := high, expect := b.expect + e }
  let s := s.updWave k fun w => { w with arrivals := w.arrivals ++ [⟨loc, va, isDm loc, b.phase, p, word, run, act, none, false⟩] }
  -- a hold on the barrier is removed at the wave's arrival (R112)
  let line := lineOf h loc
  let s := s.dropEnts fun x => x.hold && x.blk == h && x.wv == k % 32 && x.line == line
  (if loc = blkLoc && b.high = 0xFFFFFFFF then s.barHolds h else s).checkClose h loc

/-- Land of R99. -/
def State.land (s : State) (h loc n : Nat) (next : Bool) : State :=
  let b := s.bar h loc
  if next then s.setBar h loc { b with landnext := b.landnext + BitVec.ofNat 64 n }
  else (s.setBar h loc { b with landed := b.landed + BitVec.ofNat 64 n }).checkClose h loc

/-! ### The log of recorded mode (R122 to R125) -/

/-- A number in the log area of a context, by its VA. -/
def State.vaPa (s : State) (c va : Nat) : Option Nat :=
  match s.walk c va with
  | .leaf l => some (l.paOf va)
  | _ => none
def State.logNum (s : State) (c va n : Nat) : Nat := match s.vaPa c va with | some pa => Memory.num s.mem pa n | none => 0
def State.logWrite (s : State) (c va : Nat) (bs : List Byte) : State :=
  match s.vaPa c va with
  | some pa => s.writeDev pa bs
  | none => s

/-- The 4 KiB units of the log in use: offsets from 4,096 up to FREE. -/
def State.logUnits (s : State) (c : Nat) : List Nat :=
  let free := s.logNum c (s.logbase c) 8
  (List.range (free / 4096)).filterMap fun k => if k = 0 then none else some (s.logbase c + 4096 * k)

/-- Take a new segment (R125): its VA, or none when the area is full. -/
def State.logSegment (s : State) (c : Nat) (first : Nat) : Option (Nat × State) :=
  let free := s.logNum c (s.logbase c) 8
  if s.loglen c ≤ free then none
  else
    let va := s.logbase c + free
    let s := s.logWrite c (s.logbase c) (leBytes 8 (free + 4096))
    some (va, s.logWrite c va (leBytes 8 first ++ leBytes 56 0))

/-- Append an admission to a line's log (R122): extend the last chunk of the same lane, or begin one. None when a new
segment is needed and the area is full. -/
def State.logAdmit (s : State) (c lineVa : Nat) (ident : List Byte) (lane : Nat) : Option State :=
  let segs := (s.logUnits c).filter fun u => s.logNum c u 8 == lineVa
  let last := segs.getLast?
  let chunk := ident ++ leBytes 1 lane ++ leBytes 3 0 ++ leBytes 4 1
  match last with
  | some u =>
    let n := s.logNum c (u + 0x10) 4
    let at_ := u + 0x40 + 48 * (n - 1)
    let same := n ≠ 0 && s.logNum c at_ 40 = leNat ident && s.logNum c (at_ + 40) 1 = lane && s.logNum c (at_ + 44) 4 ≠ 2 ^ 32 - 1
    if same then some (s.logWrite c (at_ + 44) (leBytes 4 (s.logNum c (at_ + 44) 4 + 1)))
    else if n < 84 then
      some ((s.logWrite c (u + 0x40 + 48 * n) chunk).logWrite c (u + 0x10) (leBytes 4 (n + 1)))
    else match s.logSegment c lineVa with
      | none => none
      | some (v, s) =>
        let s := s.logWrite c (u + 8) (leBytes 8 v)
        some ((s.logWrite c (v + 0x40) chunk).logWrite c (v + 0x10) (leBytes 4 1))
  | none => match s.logSegment c lineVa with
    | none => none
    | some (v, s) => some ((s.logWrite c (v + 0x40) chunk).logWrite c (v + 0x10) (leBytes 4 1))

/-- Write a checkpoint of a wave (R124): none when a new segment is needed and the area is full. -/
def State.logCheckpoint (s : State) (c : Nat) (ident : List Byte) (count : Nat) (crc : W64) : Option State :=
  let segs := (s.logUnits c).filter fun u => s.logNum c u 8 == 0xC000000000000000
  let rec_ := ident ++ leBytes 8 count ++ leBytes 8 crc.toNat ++ leBytes 8 0
  match segs.getLast? with
  | some u =>
    let n := s.logNum c (u + 0x10) 4
    if n < 63 then some ((s.logWrite c (u + 0x40 + 64 * n) rec_).logWrite c (u + 0x10) (leBytes 4 (n + 1)))
    else match s.logSegment c 0xC000000000000000 with
      | none => none
      | some (v, s) =>
        let s := s.logWrite c (u + 8) (leBytes 8 v)
        some ((s.logWrite c (v + 0x40) rec_).logWrite c (v + 0x10) (leBytes 4 1))
  | none => match s.logSegment c 0xC000000000000000 with
    | none => none
    | some (v, s) =>
      let s := s.logWrite c (s.logbase c + 8) (leBytes 8 v)
      some ((s.logWrite c (v + 0x40) rec_).logWrite c (v + 0x10) (leBytes 4 1))

/-- The index of a replay (R125): line chains and checkpoints of every unit up to FREE. -/
def State.logRead (s : State) (c : Nat) : LogIndex :=
  (s.logUnits c).foldl (fun ix u =>
    let tag := s.logNum c u 8
    let n := s.logNum c (u + 0x10) 4
    if tag = 0xC000000000000000 then
      { ix with checks := ix.checks ++ (List.range n).map fun k =>
          let a := u + 0x40 + 64 * k
          (leBytes 40 (s.logNum c a 40), s.logNum c (a + 0x28) 8, BitVec.ofNat 64 (s.logNum c (a + 0x30) 8)) }
    else
      let cs := (List.range n).map fun k =>
        let a := u + 0x40 + 48 * k
        (⟨leBytes 40 (s.logNum c a 40), s.logNum c (a + 40) 1, s.logNum c (a + 44) 4⟩ : Chunk)
      { ix with lines := SMap.insert ix.lines tag (SMap.get ix.lines [] tag ++ cs) }) ⟨[], []⟩

end Sys2Proof.Machine
end

