-- ==== Sys2Proof/Machine/Levels.lean ====
section
/-! DEFINITION. The levels of work: the twin pool (R58 to R61), the end of a wave (R102, R107, R112, R243, R304) and of a
block (R15, R41), cancel (R18, R35, R64), roll-back and re-execution of forks (R57, R59, R62), failure of a launch
(R334, R401), the folds of instances (R15, R49) and completion records (R352). -/

namespace Sys2Proof.Machine

/-! ### The twin pool -/

/-- Bytes of the pool not in use. -/
def State.poolLeft (s : State) : Nat := s.poolGib * 2 ^ 30 - s.pool
def State.freePool (s : State) (n : Nat) : State := { s with pool := s.pool - n }

/-- What a fork holds of the pool: its reservation (R60), or its charges and ranges; nothing once its outcome is known. -/
def Grp.held (g : Grp) : Nat := if g.outcome.isSome then 0 else if g.quota ≠ 0 then g.reserved else g.charge

/-! ### Stopping waves and blocks without a fold -/

/-- Release every lock whose grant a wave holds (R107); a free lock has no ABANDONED to set (R110, log 125). -/
def State.releaseLocks (s : State) (k : Nat) : State :=
  let gs := (s.wave k).grants
  if gs == [] then s
  else
    let s := gs.foldl (fun s g => if g.2 then s.freeRelease g.1 else s.lockRelease g.1 true) s
    let s := s.updWave k fun w => { w with grants := [] }
    s.gate.foldl (fun s q => if q.lock then s.postOnce (.gateAdmit q.id) else s) s

/-- On a replay the gates look again at what waits for a lane that has ended (R123). -/
def State.lanesGone (s : State) (c : Nat) : State :=
  if s.replaying c then s.gate.foldl (fun s q => s.postOnce (.gateAdmit q.id)) s else s

/-- The registers, waits and holds of a wave end with it, its acquires at order gates and its held tiles too (R107, R110,
R112, R270, R304); what it held of the
barrier counts as R102 says. The block's own end is the caller's. -/
def State.closeWave (s : State) (k : Nat) : State :=
  let arrived := s.hasArrived k
  let s := s.releaseLocks k
  let s := s.dropRefs k
  let s := s.dropAcquires fun q => q.blk == k / 32 && q.wv == k % 32
  let s := { s with probes := s.probes.filter fun p => !(p.blk == k / 32 && p.wv == k % 32) }
  let s := s.dropEnts fun e => e.blk == k / 32 && e.wv == k % 32
  let s := s.updWave k fun w =>
    { w with st := .ended, groups := [], pend := [], frames := [], fwait := none, region := none, window := none, pins := [],
             arrivals := [], pending := [], fork := none, slots := [], halted := false, burst := 0, r := { w.r with sh := [] } }
  let s := if arrived then s else s.updBlock (k / 32) fun b => { b with bar := { b.bar with arrived := b.bar.arrived + 1 } }
  s.lanesGone (s.block (k / 32)).ctx

/-- Whether the wave that made a group is gone. -/
def State.orphan (s : State) (g : Grp) : Bool :=
  let st := (s.wave (32 * g.pblk + g.pwv)).st
  st == .ended || st == .absent

/-- Forget the ended groups that a wave made and will never read. -/
def State.forget (s : State) : State :=
  s.grps.foldl (fun s e =>
    if (e.2.kind == .device || e.2.kind == .fork) && e.2.st == .ended && s.orphan e.2 then
      { s.freePool e.2.held with grps := SMap.erase s.grps e.1 } else s) s

/-- A request whose wave is gone: it is still performed, and nobody receives its return value. -/
def Req.orphan (q : Req) : Req := { q with blk := 0, wv := 0, dst := .zero, acq := false }

/-- The requests of a block that is stopped (R57, R59): those under way are still performed; a free lock's acquire is
withdrawn. -/
def State.orphanReqs (s : State) (h : Nat) : State :=
  { s with
    reqs := s.reqs.map fun q => if q.blk = h then q.orphan else q
    gate := (s.gate.filter fun q => !(q.blk == h && q.lock && q.op == .swap)).map fun q => if q.blk = h then q.orphan else q }

/-- Take a block off the machine: every wave stops, its commands and replies go. Requests under way stay: as the ended
block's with `keep` (R214), as nobody's at a rollback or a restart. -/
def State.dropBlock (s : State) (h : Nat) (keep : Bool) : State :=
  let s := (s.wavesOf h).foldl (fun s k => if (s.wave k).st = .ended then s else s.closeWave k) s
  let d := (s.block h).die
  let c := (s.block h).ctx
  let s := if s.replaying c then s.setCtx c { s.ctx c with gone := addOnce (s.ctx c).gone (s.block h).gid } else s
  let s := { s with
    cmds := s.cmds.filter fun c => c.blk != h
    replies := s.replies.filter fun r => r.blk != h
    waves := s.waves.filter fun e => e.1 / 32 != h
    blocks := SMap.erase s.blocks h }
  let s := if s.b.handle = h ∧ s.b.st ≠ .absent then { s with b := .absent, w := .absent, run := 0 } else s
  (if keep then s else s.orphanReqs h).postOnce (.blockPlace d)

/-- The fork groups and launches made by the waves of a block, at every depth. -/
def State.madeBy (s : State) (h : Nat) : List Nat :=
  s.grps.filterMap fun e => if (e.2.kind == .fork || e.2.kind == .device) && e.2.pblk == h then some e.1 else none
def State.madeByWave (s : State) (k : Nat) : List Nat :=
  s.grps.filterMap fun e => if (e.2.kind == .fork || e.2.kind == .device) && e.2.pblk == k / 32 && e.2.pwv == k % 32 then some e.1 else none

/-! ### Fork-scoped ranges (R57) -/

/-- Whether a request was issued by a child of a fork or below it: its issuer's block ID goes on from the forker's by an
element of the forking wave's forks (R13). -/
def Grp.bore (g : Grp) (q : Req) : Bool :=
  (g.gid.map (· + 1)).isPrefixOf q.index &&
  match q.index.drop g.gid.length with
  | e :: _ => e != 0 && !(decide (65537 ≤ e) && decide (e < 131073)) && (e - 1) / 131072 == g.pwv
  | [] => false

/-- Whether a location lies in a scoped range of a fork. -/
def Grp.scopes (g : Grp) (loc : Nat) : Bool := g.ranges.any fun r => decide (r.1 ≤ loc) && decide (loc < r.1 + r.2.length)

/-- Restore the scoped sluice ranges of a fork after its children's operations on them (R57): a request of theirs there that
is still under way leaves no trace. -/
def State.restoreRanges (s : State) (id : Nat) (g : Grp) : State :=
  let under (q : Req) : Bool := g.bore q && g.scopes q.loc
  let s := { s with reqs := s.reqs.filter fun q => !under q, gate := s.gate.filter fun q => !under q }
  (g.ranges.foldl (fun s r => s.writeDev r.1 r.2) s).updGrp id fun g => { g with ranges := [] }

/-! ### Cancel (R18) -/

/-- Whether the handle of a block is that of a block still there. -/
def State.hasBlock (s : State) (h : Nat) : Bool := (s.block h).st != .absent

/-- Give a wave the cancelled trap, to be taken at its next boundary; it discards the others (R380). The waves of a saved
block take it once the block is restored. A wave that has exited and awaits its launches has no lane to take it: it ends when they
have (R243). -/
def State.cancelWave (s : State) (k : Nat) : State :=
  s.updWave k fun w =>
    if w.exitedAll ∨ w.st = .absent ∨ w.pend.any (fun t => t.cause == 0x11) then w
    else { w with pend := [Trap.of 0x11 0 0], halted := w.halted && (s.block (k / 32)).st == .saved, fwait := none }

/-- Cancel a block: a started one takes 0x11 in every wave; one that has not started never does. -/
def State.cancelBlock (s : State) (h : Nat) : State :=
  let b := s.block h
  if b.st = .absent ∨ b.st = .ended then s
  else
    let s := s.updBlock h fun b => { b with cancelled := true }
    if b.st = .waiting then
      let s := s.updBlock h fun b => { b with st := .ended }
      s.post (.instanceEnd .block h)
    else (s.wavesOf h).foldl (fun s k => s.cancelWave k) s

/-- Members of a group that no die has created yet. -/
def Grp.created (g : Grp) : Nat := g.next.foldl (fun n e => n + e.2) 0

/-- Whether every member that will ever exist of a group has ended. -/
def State.allEnded (s : State) (id : Nat) : Bool :=
  match SMap.find? s.grps id with
  | some g => if g.cancelled || g.failed then (s.blocksOf id) == [] else g.ended == g.nmem
  | none => false

/-- The launches that depend on a launch through a graph edge or a chain. -/
def State.dependents (s : State) (id : Nat) : List Nat :=
  match SMap.find? s.grps id with
  | some g => s.grps.filterMap fun e =>
      if e.2.kind != .fork && e.2.kind != .device && e.2.ctx == g.ctx && e.2.job == g.job && e.2.phase == g.phase && e.2.graph == g.graph &&
        e.2.preds.contains g.launch.toNat && g.kind != .fork && g.kind != .device then some e.1 else none
  | none => []

/-- The level of a group. -/
def Grp.lvl (g : Grp) : Lvl := if g.kind = .fork then .fork else .launch

/-- A cancel that reaches a group whose members have all ended before it was read or joined (R18, R64): nothing of it is
folded, its ranges are restored, its counter reads STATE 10 and its `join` reports CANCELLED. A launch of the host has been
folded, and so has a fork that was joined; a rejected fork stays rejected. -/
def State.cancelEnded (s : State) (id : Nat) (g : Grp) : State :=
  let dead : Grp := { g with cancelled := true, state := 2, result := [], parts := [], confl := none, members := [] }
  match g.kind, g.outcome with
  | .host, _ => s
  | .device, _ => { s with grps := SMap.insert s.grps id dead }
  | .fork, none =>
    (s.restoreRanges id g).freePool g.held |>.updGrp id fun _ => { dead with outcome := some (4, false), ranges := [] }
  | .fork, some (code, _) =>
    if code = 1 || code = 3 then { s with grps := SMap.insert s.grps id { dead with outcome := some (4, false) } } else s

/-- Cancel a group with all that its waves made and all that depends on it; `fuel` bounds both depths. -/
def State.cancelGrp (s : State) : Nat → Nat → State
  | 0, _ => s
  | n + 1, id =>
    match SMap.find? s.grps id with
    | none => s
    | some g =>
      if g.cancelled then s
      else if g.st == .ended then s.cancelEnded id g
      else
        let s := s.updGrp id fun g => { g with cancelled := true }
        let hs := s.blocksOf id
        let s := hs.foldl (fun s h =>
          let s := (s.madeBy h).foldl (fun s m => s.cancelGrp n m) s
          s.cancelBlock h) s
        let s := (s.dependents id).foldl (fun s m => s.cancelGrp n m) s
        if s.allEnded id then s.postOnce (.instanceEnd g.lvl id) else s

/-- The bound on the depth of cancels: nesting and the launches of a graph. -/
def cancelFuel : Nat := 4200

/-- Cancel one block with what its waves made. -/
def State.cancelOne (s : State) (h : Nat) : State :=
  let s := (s.madeBy h).foldl (fun s m => s.cancelGrp cancelFuel m) s
  s.cancelBlock h

/-- Cancel a graph, phase or job of a context: one whose members have all stopped ends at once with STATE 10. -/
def State.cancelLevel (s : State) (c lvl job phase graph : Nat) : State :=
  let hit (j p g : Nat) : Bool := j == job && (decide (5 ≤ lvl) || p == phase) && (decide (4 ≤ lvl) || g == graph)
  let s : State := { s with levs := s.levs.map fun e =>
    if e.2.ctx == c && e.2.lvl ≤ lvl && hit e.2.job.toNat e.2.phase.toNat e.2.graph.toNat && !e.2.finished
    then (e.1, { e.2 with cancelled := true }) else e }
  let ids := s.grps.filterMap fun e =>
    if e.2.kind == .host && e.2.ctx == c && hit e.2.job.toNat e.2.phase.toNat e.2.graph.toNat then some e.1 else none
  let s := s.setCtx c { s.ctx c with cancelled := addOnce (s.ctx c).cancelled (lvl, job, phase, graph, 0) }
  let s := ids.foldl (fun s id => s.cancelGrp cancelFuel id) s
  s.levs.foldl (fun s e =>
    if e.2.ctx == c && e.2.cancelled && !e.2.finished && e.2.ended == e.2.launches.length then
      s.postOnce (.instanceEnd (if e.2.lvl = 3 then .graph else if e.2.lvl = 4 then .phase else .job) e.1) else s) s

/-- Launches that wait look again whether they may start. -/
def State.startsAgain (s : State) : State := s.grps.foldl (fun s e => if e.2.st == .pending then s.postOnce (.launchStart e.1) else s) s

/-! ### Forks: roll back, re-execute -/

/-- End a group whose maker is stopped, to a depth no block ID exceeds (R13): a launch is cancelled under R18 and never
folded (R243); a fork stops with its children and everything they made, its ranges restored (R59). -/
def State.removeGrp (s : State) : Nat → Nat → State
  | 0, _ => s
  | n + 1, id =>
    match SMap.find? s.grps id with
    | none => s
    | some g =>
      if g.kind ≠ .fork then s.cancelGrp cancelFuel id
      else
        let s := (s.blocksOf id).foldl (fun s h =>
          let s := (s.madeBy h).foldl (fun s m => s.removeGrp n m) s
          s.dropBlock h false) s
        let s := if g.outcome.isNone then s.restoreRanges id g else s
        { s.freePool g.held with grps := SMap.erase s.grps id }

/-- Stop a block with everything its waves made, and take it off the machine. -/
def State.stopBlock (s : State) (h : Nat) : State :=
  ((s.madeBy h).foldl (fun s m => s.removeGrp 9 m) s).dropBlock h false

/-- Stop every child of a group and everything they made (R59). -/
def State.stopChildren (s : State) (id : Nat) : State := (s.blocksOf id).foldl State.stopBlock s

/-- Make a forker ready for its `join`. -/
def State.wakeForker (s : State) (id : Nat) : State :=
  match SMap.find? s.grps id with
  | some g => s.updWave (32 * g.pblk + g.pwv) fun w => if w.st = .forked then { w with st := .running } else w
  | none => s

/-- Roll a fork back (R59) with the outcome its `join` reports, CODE and POOL; a cancel stands before every other outcome
(R64). -/
def State.rollback (s : State) (id code : Nat) (pool : Bool) : State :=
  match SMap.find? s.grps id with
  | none => s
  | some g =>
    let s := (s.stopChildren id).restoreRanges id g
    let s := (s.freePool g.held).updGrp id fun g => { g with
      st := .ended, members := [], outcome := some (if g.cancelled then (4, false) else (code, pool)) }
    (s.wakeForker id).forget

/-- An error record of a fork (Table 128) on the die of the forker: RETRY is lasting once a re-execution has been struck too
(R400). -/
def State.forkErr (s : State) (id : Nat) (rank : BitVec 2) (code : Nat) (count : Nat) : State :=
  match SMap.find? s.grps id with
  | some g =>
    let b := s.block g.pblk
    s.placeErr b.die ⟨rank, if 2 ≤ count then 2 else 0, 0x08, BitVec.ofNat 8 code, BitVec.ofNat 5 g.ctx, BitVec.ofNat 8 b.core, 0, Config.syndrome s.free,
      BitVec.ofNat 64 (g.pblk * 2 ^ 32 + count)⟩
  | none => s

/-- A strike on a fork (R62): re-executed twice, then ended with CODE 3; a cancelled fork is only stopped. -/
def State.strikeFork (s : State) (id : Nat) : State :=
  match SMap.find? s.grps id with
  | none => s
  | some g =>
    if g.kind ≠ .fork ∨ g.outcome.isSome then s
    else if g.cancelled then s.rollback id 4 false
    else if 2 ≤ g.execs then (s.rollback id 3 false).forkErr id 3 0 3
    else
      let s := (s.stopChildren id).restoreRanges id g
      let s := s.forkErr id 2 0 (g.execs + 1)
      let kept := g.ranges.foldl (fun n r => n + r.2.length) 0
      let s := if g.quota = 0 then s.freePool (g.charge - kept) else s
      let s := s.updGrp id fun x => { x with
        st := .running, next := [], made := [], lost := [], ended := 0, members := [], execs := x.execs + 1, ranges := g.ranges, charge := kept }
      (List.range Config.dies).foldl (fun s d => s.postOnce (.blockPlace d)) s

/-- What a charge of n bytes meets (R59 to R61). -/
inductive Supply where
  | ok | quota (id : Nat) | pool
  deriving DecidableEq, Repr

/-- The fork whose children the block of the wave is among. -/
def State.ownFork (s : State) (h : Nat) : Option Nat :=
  let b := s.block h
  match SMap.find? s.grps b.grp with
  | some g => if g.kind = .fork then some b.grp else none
  | none => none

def State.supply (s : State) (h n : Nat) : Supply :=
  match SMap.find? s.grps (s.block h).grp with
  | some g =>
    if g.kind = .fork ∧ g.quota ≠ 0 then (if g.quota < g.charge + n then .quota (s.block h).grp else .ok)
    else if s.poolLeft < n then .pool else .ok
  | none => if s.poolLeft < n then .pool else .ok

/-- Count a charge that has been supplied. -/
def State.addCharge (s : State) (h n : Nat) : State :=
  if n = 0 then s
  else
    let id := (s.block h).grp
    let own : Bool := match SMap.find? s.grps id with | some g => g.kind == .fork && g.quota != 0 | none => false
    let s := s.updGrp id fun g => { g with charge := g.charge + n }
    if own then s else { s with pool := s.pool + n }

/-- Take back a charge of a block that is discarded. -/
def State.dropCharge (s : State) (h n : Nat) : State :=
  if n = 0 then s
  else
    let id := (s.block h).grp
    let own : Bool := match SMap.find? s.grps id with | some g => g.kind == .fork && g.quota != 0 | none => false
    let s := s.updGrp id fun g => { g with charge := g.charge - n }
    if own then s else s.freePool n

/-- The forks in progress, those that a cancel has reached too, in descending order of the forker's global block ID (R61). -/
def State.forksDescending (s : State) : List Nat :=
  let key (id : Nat) : List Nat := match SMap.find? s.grps id with
    | some g => idKey (s.block g.pblk).gid [g.pwv]
    | none => []
  let ids := s.grps.filterMap fun e => if e.2.kind == .fork && e.2.outcome.isNone then some e.1 else none
  ids.foldl (fun l x => (l.filter fun y => gidLt (key x) (key y)) ++ [x] ++ (l.filter fun y => !gidLt (key x) (key y))) []

/-- Roll forks back until a charge of n bytes fits (R61). -/
def State.makeRoom (s : State) (n : Nat) : List Nat → State
  | [] => s
  | id :: ids =>
    if n ≤ s.poolLeft then s
    else
      let s := match SMap.find? s.grps id with
        | some g => if g.outcome.isNone then (s.forkErr id 1 0x09 0).rollback id 1 true else s
        | none => s
      s.makeRoom n ids

/-- Count the pool charges that a word, a completing read or the end of a wave made in the wave's view (R58): a quota reached rolls the fork back (R59), a pool
that cannot supply rolls forks back in descending order, and else the wave stalls (R61). What the word itself gives back to
the pool (the charges that a `join` passes on) counts toward its need. -/
def State.settleCharge (s before : State) (after : State) : State :=
  let n := s.w.view.charge - before.w.view.charge
  if n = 0 then after
  else match s.supply s.w.blk n with
    | .ok => after.addCharge s.w.blk n
    | .quota id => before.rollback id 1 false
    | .pool =>
      let t := before.makeRoom (n - (before.pool - s.pool)) before.forksDescending
      if t == before then { before with w := { before.w with stall := some 3 } } else t

/-! ### Ends of waves and blocks -/

/-- The implicit final block barrier and the end of a block (R15, R41): a cancelled or failed block folds nothing. -/
def State.endBlock (s : State) (h : Nat) : State :=
  let b := s.block h
  let s := if b.cancelled || b.failed then s else (s.foldWaves h).1
  let s := s.updBlock h fun b => { b with st := .ended }
  (s.post (.instanceEnd .block h)).postOnce (.blockPlace b.die)

/-- After a wave ended or its last command on a view was performed (R91): the block ends with its last wave; otherwise
the barrier may close (R102). -/
def State.afterWave (s : State) (h : Nat) : State :=
  let b := s.block h
  let ks := s.wavesOf h
  if b.st ≠ .resident then s
  else if ks.all fun k => (s.wave k).st == .ended then
    (if !b.cancelled && !b.failed && ks.any fun k => s.viewBusyOf (k / 32) (k % 32) then s else s.endBlock h)
  else if b.cancelled then s
  else (s.checkClose h blkLoc).wake

/-- A wave ends other than by `exit`: its outstanding launches and its fork are cancelled (R243, R18). -/
def State.killWave (s : State) (k : Nat) : State :=
  let s := (s.madeByWave k).foldl (fun s id => s.cancelGrp cancelFuel id) s
  ((s.closeWave k).forget.afterWave (k / 32)).wake

/-- The completing reads of a wave that ends by `exit`, in ascending slot order (R243): a conflict sets STATE 11 in that
launch's counter and raises no trap. Runs with the wave checked out. -/
def State.foldLaunch (s : State) (id : Nat) : State × Option Conflict :=
  match SMap.find? s.grps id with
  | none => (s, none)
  | some g =>
    let s := s.setW { s.w with view := (s.w.view.receive s.b.vis g.result g.parts) }
    (s, g.confl)

/-- The folds of R243, with the charges of the lines and partials that the wave's view gains (R58). -/
def State.foldSlots (s : State) : State :=
  let t := s.w.slots.foldl (fun s e =>
    let s := (s.foldLaunch e.2).1
    let s := s.freePool (match SMap.find? s.grps e.2 with | some g => g.held | none => 0)
    { s with grps := SMap.erase s.grps e.2 }) s
  t.settleCharge s (t.setW { t.w with slots := [] })

/-- End a wave by `exit` once every launch it has outstanding has ended and no engine acts on its view (R91). While the pool
cannot supply the charges of their folds the end waits (R61). -/
def State.finishWave (s : State) (k : Nat) : State :=
  let s := if (s.wave k).slots == [] then s else s.within k State.foldSlots
  if (s.wave k).st = .absent then s
  else if (s.wave k).slots != [] then
    (s.updWave k fun w => { w with st := .ending, groups := [] }).postOnce (.waveEndAfterLaunches (k / 32) (k % 32))
  else ((s.closeWave k).afterWave (k / 32)).wake

/-- Whether every launch that a wave has outstanding has ended, and no command is to act on the view they fold into. -/
def State.launchesDone (s : State) (k : Nat) : Bool :=
  ((s.wave k).slots.all fun e => match SMap.find? s.grps e.2 with | some g => g.st == .ended | none => true) &&
  ((s.wave k).slots == [] || !s.viewBusyOf (k / 32) (k % 32))

/-- The flags of the operations that have been performed for a wave reach it before it ends (R138). -/
def State.takeFlags (s : State) (k : Nat) : State :=
  let mine (r : Reply) : Bool := r.blk == k / 32 && r.wv == k % 32
  let s := s.updWave k fun w => (s.replies.filter mine).foldl (fun w r => w.orFlags r.flags) w
  { s with replies := s.replies.filter fun r => !mine r }

/-- The waves of a block that have exited may end now (R91, R243). -/
def State.endingDue (s : State) (h : Nat) : State :=
  (s.wavesOf h).foldl (fun s k => if (s.wave k).st = .ending && s.launchesDone k then s.postOnce (.waveEndAfterLaunches h (k % 32)) else s) s

/-- `exit` of a wave's last lane (R243). -/
def State.exitWave (s : State) (k : Nat) : State :=
  let s := s.takeFlags k
  if s.launchesDone k then s.finishWave k
  else ((s.updWave k fun w => { w with st := .ending, groups := [] }).lanesGone (s.block (k / 32)).ctx).endingDue (k / 32)

/-! ### Failure (R334, R401) -/

/-- A launch ends with STATE 11: its waves end at once, nothing is folded. -/
def State.failGrp (s : State) (id : Nat) : State :=
  match SMap.find? s.grps id with
  | none => s
  | some g =>
    if g.failed || g.st == .ended then s
    else
      let s := s.updGrp id fun g => { g with failed := true }
      let s : State := (s.blocksOf id).foldl (fun (s : State) h =>
        let s : State := s.updBlock h fun b => { b with failed := true }
        let s := (s.madeBy h).foldl (fun s m => s.cancelGrp cancelFuel m) s
        if (s.block h).st = .resident then
          (s.wavesOf h).foldl (fun s k => if (s.wave k).st = .ended then s else s.killWave k) s
        else (s.updBlock h fun b => { b with st := .ended }).post (.instanceEnd .block h)) s
      if s.allEnded id then s.postOnce (.instanceEnd g.lvl id) else s

/-- The uncorrected record of an error that ends a launch (Table 128). -/
def State.launchErr (s : State) (die ctx : Nat) (unit : BitVec 8) (addr : W64) (core : BitVec 8) (h : Nat) : State :=
  s.placeErr die ⟨3, 0, unit, 0, BitVec.ofNat 5 ctx, core, addr, Config.syndrome s.free, BitVec.ofNat 64 (h * 2 ^ 32)⟩

/-- An uncorrected error in the state of a block: re-execution of its fork (R62), or the end of its launch (R334). -/
def State.strikeBlock (s : State) (h : Nat) : State :=
  match s.ownFork h with
  | some id => s.strikeFork id
  | none =>
    let b := s.block h
    (s.launchErr b.die b.ctx 0x07 0 (BitVec.ofNat 8 b.core) h).failGrp b.grp

/-- UNIT of a record of an error in a sector: HBM, or die shared memory (Table 127). -/
def sectorUnit (loc : Nat) : BitVec 8 := if isDm loc then 0x04 else 0x01
/-- ADDR of such a record: the line's PA, which die shared memory has none of (R398). -/
def sectorAddr (loc : Nat) : W64 := if isDm loc then 0 else BitVec.ofNat 64 (loc % 2 ^ 52 / 64 * 64)

/-- A wave of a block consumes a poisoned sector (R401, R402). What a child reads is held for its fork, which is re-executed
(log 122); outside a fork the launch ends with STATE 11, and an uncorrected record with the sector's line joins the deferred one on
the die that homes it. -/
def State.poisonBlock (s : State) (h loc : Nat) : State :=
  match s.ownFork h with
  | some id => s.strikeFork id
  | none => (s.launchErr (locDie loc) (s.block h).ctx (sectorUnit loc) (sectorAddr loc) 0xFF h).failGrp (s.block h).grp

/-! ### Counters and completion records -/

/-- The counter word of a level. -/
def Lev.word (l : Lev) : W64 := counterWord l.state l.done

/-- The level instance of a context. -/
def State.lev? (s : State) (c lvl job phase graph : Nat) : Option (Nat × Lev) :=
  List.find? (fun e => e.2.ctx == c && e.2.lvl == lvl && e.2.job.toNat == job && (decide (5 ≤ lvl) || e.2.phase.toNat == phase) &&
    (decide (4 ≤ lvl) || e.2.graph.toNat == graph)) s.levs

/-- Write bytes at a wharf VA of a context, in device or host memory. -/
def State.wharfWrite (s : State) (c va : Nat) (bs : List Byte) : State :=
  match s.walk c va with
  | .leaf l => if l.host then s.writeHost (l.paOf va) bs else s.writeDev (l.paOf va) bs
  | _ => s

/-- The completion record of a launch (Table 107), bytes 0x08 to 0x3F first, then LCNT; vector 0 is signalled for a
packet with GEND (R388). -/
def State.writeRecord (s : State) (g : Grp) : State :=
  let c := g.ctx
  let gl := s.lev? c 3 g.job.toNat g.phase.toNat g.graph.toNat
  let pl := s.lev? c 4 g.job.toNat g.phase.toNat 0
  let jl := s.lev? c 5 g.job.toNat 0 0
  let word (x : Option (Nat × Lev)) : Nat := match x with | some e => e.2.word.toNat | none => 0
  let gcnt := if g.gend then word gl else 0
  let pcnt := if g.pend then word pl else 0
  let ucnt := if g.jend then word jl else if g.pend then pcnt else gcnt
  let gc := if g.gend then (match gl with | some e => e.2.confl | none => none) else none
  let pc := if g.pend then (match pl with | some e => e.2.confl | none => none) else none
  let cf : Conflict × Nat := match g.confl, gc, pc with
    | some x, _, _ => (x, 2)
    | none, some x, _ => (x, 3)
    | none, none, some x => (x, 4)
    | none, none, none => (⟨0, 0⟩, 0)
  let body := leBytes 8 ucnt ++ leBytes 4 g.code ++ leBytes 4 0 ++ leBytes 8 cf.1.addr.toNat ++ leBytes 8 cf.1.info.toNat ++
    leBytes 1 cf.2 ++ leBytes 7 0 ++ leBytes 8 gcnt ++ leBytes 8 pcnt
  if g.cva = 0 then s
  else
    let s := s.wharfWrite c (g.cva.toNat + 8) body
    let s := s.wharfWrite c g.cva.toNat (leBytes 8 g.word.toNat)
    if g.gend then s.msi c 0 else s

/-! ### Instance ends (R15) -/

/-- A block's end reaches its group, once its commands are performed (R214): its result, the register images of a chain, its place (R34, R35). -/
def State.blockEnded (s : State) (h : Nat) : State :=
  let b := s.block h
  if b.st ≠ .ended then s
  else if !b.failed && s.cmds.any (fun c => c.blk == h) then s.postOnce (.instanceEnd .block h)
  else
    let st : BitVec 2 := if b.cancelled then 2 else if b.failed || b.carried != [] then 3 else 1
    let m : Member := ⟨b.mem, b.start, b.view, b.parts, b.carried, st⟩
    let g0 := SMap.find? s.grps b.grp
    let regs (k : Nat) (g : Grp) : SMap W32 := (s.wave k).r.v.filter fun e =>
      decide (g.inhFirst ≤ e.1 / 32) && decide (e.1 / 32 < g.inhFirst + g.inhCount)
    let s := s.updGrp b.grp fun g => { g with
      ended := g.ended + 1
      members := if b.cancelled || b.failed then g.members else insertMember m g.members
      places := SMap.insert g.places b.mem (b.die, b.core, b.slots)
      lost := if b.cancelled then SMap.insert g.lost b.mem () else g.lost
      images := if g.inhCount = 0 then g.images else (s.wavesOf h).foldl (fun t k => SMap.insert t (32 * b.mem + k % 32) (regs k g)) g.images }
    let s := s.dropBlock h true
    match g0 with
    | none => s
    | some g =>
      let s := if s.allEnded b.grp then s.postOnce (.instanceEnd g.lvl b.grp) else s
      if g.inhCount ≠ 0 then (List.range Config.dies).foldl (fun s d => s.postOnce (.blockPlace d)) s else s

/-- Post the end of a level whose members have all ended: the last one has been submitted, or the level is cancelled. -/
def State.levelDue (s : State) (c lvl job phase graph : Nat) (e : Instr) : State :=
  match s.lev? c lvl job phase graph with
  | some (_, v) => if (v.last || v.cancelled) && v.ended == v.launches.length && !v.finished then s.postOnce e else s
  | none => s

/-- The ends of the graph, phase and job of a launch that are due. -/
def State.levelsDue (s : State) (g : Grp) : State :=
  let due (s : State) (lvl : Nat) (e : Nat → Instr) : State :=
    match s.lev? g.ctx lvl g.job.toNat g.phase.toNat g.graph.toNat with
    | some (l, _) => s.levelDue g.ctx lvl g.job.toNat g.phase.toNat g.graph.toNat (e l)
    | none => s
  due (due (due s 3 (.instanceEnd .graph)) 4 .stepBoundary) 5 (.instanceEnd .job)

/-- Count the end of a member into a level; one that ends after its cancelled level has ended counts there too (R355). -/
def Lev.count (v : Lev) (m : Option Member) : Lev :=
  { v with
    ended := v.ended + 1
    done := if v.finished then BitVec.ofNat 32 (v.ended + 1) else v.done
    members := match m with
      | some x => if v.finished then v.members else insertMember x v.members
      | none => v.members }

/-- Whether the highest level that a launch ends has ended already: the launch came after that level was cancelled (R355). -/
def State.topEnded (s : State) (g : Grp) : Bool :=
  let lvl := if g.jend then 5 else if g.pend then 4 else 3
  (s.lev? g.ctx lvl g.job.toNat g.phase.toNat g.graph.toNat).any fun e => e.2.finished

/-- A launch's end: the fold of its blocks, its counter, its record; what waits for it goes on (R15, R352, R353). Every member
has ended then, those that never started too: DONE counts them all (log 101). -/
def State.launchEnded (s : State) (id : Nat) : State :=
  match SMap.find? s.grps id with
  | none => s
  | some g =>
    if g.st = .ended || !s.allEnded id then s
    else
      let f := s.foldMembers g.ctx g.members
      let parts := g.members.foldl (fun p m => combineParts p m.parts) []
      let dead := g.cancelled || g.failed
      let confl := if dead then none else f.record
      let st : BitVec 2 := if g.cancelled then 2 else if g.failed || confl.isSome then 3 else 1
      let g : Grp := { g with
                        st := .ended, state := st, done := BitVec.ofNat 32 g.nmem, confl := confl,
                        result := if dead then [] else f.bytes, parts := if dead then [] else parts, members := [] }
      let s := { s with grps := SMap.insert s.grps id g }
      if g.kind = .device then
        let s : State := (if g.cva = 0 then s else s.writeRecord g).forget.wake
        let k := 32 * g.pblk + g.pwv
        State.startsAgain (if (s.wave k).st = .ending then s.postOnce (.waveEndAfterLaunches g.pblk g.pwv) else s)
      else
        match s.lev? g.ctx 3 g.job.toNat g.phase.toNat g.graph.toNat with
        | none => s
        | some (l, _) =>
          let m : Member := ⟨g.launch.toNat, g.start, g.result, g.parts, [], st⟩
          let s := s.updLev l fun v => v.count (if dead then none else some m)
          let s := if g.gend && !s.topEnded g then s else s.writeRecord g
          (s.levelsDue g).startsAgain

/-- A fork group's end: its `join` can complete (R48, R64). -/
def State.forkEnded (s : State) (id : Nat) : State :=
  match SMap.find? s.grps id with
  | none => s
  | some g =>
    if g.st = .ended || !s.allEnded id then s
    else
      let s := if g.cancelled then (s.restoreRanges id g).freePool g.held else s
      let s := s.updGrp id fun g => { g with st := .ended, outcome := if g.cancelled then some (4, false) else g.outcome,
                                             state := if g.cancelled then 2 else 1, done := BitVec.ofNat 32 g.nmem }
      (s.wakeForker id).forget

/-- Predecessor launches of a launch in its graph. -/
def State.predsOf (s : State) (c : Nat) (job phase graph : Nat) (l : Nat) : List Nat :=
  match List.find? (fun e : Nat × Grp => e.2.kind == .host && e.2.ctx == c && e.2.job.toNat == job && e.2.phase.toNat == phase &&
      e.2.graph.toNat == graph && e.2.launch.toNat == l) s.grps with
  | some e => e.2.preds
  | none => []

/-- The end of a level: write the records of the launches that end it once the highest level has ended. -/
def State.recordsDue (s : State) (c job phase graph : Nat) (lvl : Nat) : State :=
  s.grps.foldl (fun s e =>
    let g := e.2
    let top := if g.jend then 5 else if g.pend then 4 else 3
    if g.kind == .host && g.ctx == c && g.job.toNat == job && (decide (lvl = 5) || g.phase.toNat == phase) &&
      (decide (4 ≤ lvl) || g.graph.toNat == graph) && g.gend && top == lvl then s.writeRecord g else s) s

/-- A graph's end (R15): the fold of its launches ordered by its paths, and the phase's count. -/
def State.graphEnded (s : State) (id : Nat) : State :=
  match SMap.find? s.levs id with
  | none => s
  | some v =>
    if v.finished || v.lvl ≠ 3 || v.ended ≠ v.launches.length || !(v.last || v.cancelled) then s
    else
      let j := v.job.toNat
      let p := v.phase.toNat
      let gr := v.graph.toNat
      let f := graphFold v.members (fun m va => s.overByte v.ctx m.start va) (hasPath (s.predsOf v.ctx j p gr) 4096)
      let parts := v.members.foldl (fun q m => combineParts q m.parts) []
      let confl := if v.cancelled then none else f.record
      let st : BitVec 2 := if v.cancelled then 2 else if confl.isSome then 3 else 1
      let v := { v with finished := true, state := st, done := BitVec.ofNat 32 v.ended, confl := confl,
                        result := if v.cancelled then [] else f.bytes, parts := if v.cancelled then [] else parts, members := [] }
      let s := { s with levs := SMap.insert s.levs id v }
      let s := s.recordsDue v.ctx j p gr 3
      match s.lev? v.ctx 4 j p 0 with
      | none => s
      | some (l, _) =>
        let m : Member := ⟨gr, [], v.result, v.parts, [], st⟩
        (s.updLev l fun w => w.count (if v.cancelled then none else some m)).levelDue v.ctx 4 j p 0 (.stepBoundary l)

/-- A job's end: its last phase has ended. -/
def State.jobEnded (s : State) (id : Nat) : State :=
  match SMap.find? s.levs id with
  | none => s
  | some v =>
    if v.finished || v.lvl ≠ 5 || v.ended ≠ v.launches.length || !(v.last || v.cancelled) then s
    else
      let v := { v with finished := true, state := if v.cancelled then 2 else 1, done := BitVec.ofNat 32 v.ended }
      let s := { s with levs := SMap.insert s.levs id v }
      s.recordsDue v.ctx v.job.toNat 0 0 5

/-- The other package that homes an element of a fold page: the enabled reduction window of the context that holds
it (R95, Table 109). -/
def State.windowHome (s : State) (c va : Nat) : Option Nat :=
  let hit := (List.range 16).find? fun n =>
    let o := Pf.redwin c n
    let base := (s.pfNum o).toNat
    fld (s.pfNum (o + 0x10)) 24 1 == 1 && decide (base ≤ va) && decide (va < base + (s.pfNum (o + 8)).toNat)
  match hit with
  | none => none
  | some n =>
    let home := fld (s.pfNum (Pf.redwin c n + 0x10)) 0 16
    if home = s.ownPackage c then none else some home

/-- Bytes at rising addresses as runs of consecutive ones, so that a sector written whole is one write (R401). -/
def byteRuns (l : List (Nat × Byte)) : List (Nat × List Byte) :=
  l.foldr (fun e acc => match acc with
    | (a, bs) :: rest => if e.1 + 1 = a then (e.1, e.2 :: bs) :: rest else (e.1, [e.2]) :: acc
    | [] => [(e.1, [e.2])]) []

/-- The end of a phase (R15, R54, R353): the fold of its graphs into job memory, the settling of fold pages, the
refresh of replicas; then the next phase may start. -/
def State.phaseEnded (s : State) (id : Nat) : State :=
  match SMap.find? s.levs id with
  | none => s
  | some v =>
    if v.finished || v.lvl ≠ 4 || v.ended ≠ v.launches.length || !(v.last || v.cancelled) then s
    else
      let c := v.ctx
      let j := v.job.toNat
      let p := v.phase.toNat
      let f := s.foldMembers c v.members
      let parts := v.members.foldl (fun q m => combineParts q m.parts) []
      let confl := if v.cancelled then none else f.record
      let st : BitVec 2 := if v.cancelled then 2 else if confl.isSome then 3 else 1
      let here (w : WinPart) : Bool := w.ctx == c && w.home == s.ownPackage c
      let parts := (s.windows.filter here).foldl (fun p w => combineParts p [(w.va, w.part)]) parts
      let away : List WinPart := if v.cancelled then [] else parts.filterMap fun e =>
        (s.windowHome c e.1).map fun h => ⟨c, h, e.1, e.2⟩
      let settled : List (Nat × List Byte) := if v.cancelled then [] else parts.filterMap fun e =>
        if (s.windowHome c e.1).isSome then none else match s.walk c e.1 with
        | .leaf l =>
          let n := (foldOp e.2.op).width
          let base := leNat ((List.range n).map fun k => s.committed c (l.paOf e.1 + k))
          some (l.paOf e.1, leBytes n (settle base e.2))
        | _ => none
      let bytes : List (Nat × Byte) := if v.cancelled then [] else f.bytes.filterMap fun e =>
        match s.walk c e.1 with
        | .leaf l => some (l.paOf e.1, e.2)
        | _ => none
      let s := s.setCtx c { s.ctx c with pcur := none, shadow := [] }
      let s := { s with windows := (s.windows.filter fun w => !here w) ++ away }
      let s := (byteRuns bytes).foldl (fun s e => s.writeDev e.1 e.2) s
      let s := settled.foldl (fun s e => s.writeDev e.1 e.2) s
      let s := s.refreshReplicas c
      let v := { v with finished := true, state := st, done := BitVec.ofNat 32 v.ended, confl := confl, members := [] }
      let s := { s with levs := SMap.insert s.levs id v }
      let s := s.recordsDue c j p 0 4
      -- the pool charges of the phase's launches are freed
      let s := s.grps.foldl (fun s e =>
        if e.2.kind == .host && e.2.ctx == c && e.2.job.toNat == j && e.2.phase.toNat == p then
          (s.freePool e.2.held).updGrp e.1 fun g => { g with charge := 0 } else s) s
      let s := match s.lev? c 5 j 0 0 with
        | none => s
        | some (l, _) => (s.updLev l fun w => w.count none).levelDue c 5 j 0 0 (.instanceEnd .job l)
      s.grps.foldl (fun s e => if e.2.st == .pending && e.2.ctx == c then s.postOnce (.launchStart e.1) else s) s

end Sys2Proof.Machine
end

