-- ==== Sys2Proof/Machine/Issue.lean ====
section
/-! DEFINITION. Fetching a word (R367 to R371) and choosing the head run of a wave (R20 to R26). -/

namespace Sys2Proof
open Machine
namespace Machine

/-- What fetching the word at a PC finds. -/
inductive FetchR where
  | word (w : W64)
  | miss
  | stall
  | bad (cause : Nat)
  | poison (pa : Nat)
  deriving DecidableEq, Repr

/-- Fetch the word at a PC: from a view page with X, as the wave's view holds it; a PC that is no multiple of 8 is a misaligned
access (log entry 9). -/
def State.fetch (s : State) (pc : W64) : FetchR :=
  if pc.toNat % 8 ≠ 0 then .bad 4
  else if 2 ^ 56 ≤ pc.toNat then .bad 5
  else if s.migrating s.b.ctx pc.toNat then .stall
  else match s.walk s.b.ctx pc.toNat with
  | .missing => .miss
  | .malformed => .bad 0x12
  | .leaf l =>
    let pa := l.paOf pc.toNat
    if l.cls == .view && l.x then
      if s.readsPoison (.view pc.toNat pa) 8 then .poison pa
      else .word (wordOfBytes (s.viewBytes pc.toNat pa 8))
    else .bad 5

/-- The instruction at a PC, if its word can be fetched and is legal. -/
def State.instrAt (s : State) (pc : W64) : Option Instr :=
  match s.fetch pc with
  | .word w => decode w
  | _ => none

end Machine
/-- Wave-convergent instructions (R25, R265). -/
def Instr.convergent : Instr → Bool
  | .ienter _ | .fork _ | .join _ | .barv .. | .barvInit .. | .barw .. | .barwWait .. | .migrate _ | .yield _ | .msync _ => true
  | _ => false
/-- Quarter-level instructions: groups G11 and G12 (R26) but `msync`, which is wave-level (R265). -/
def Instr.quarter : Instr → Bool
  | .mma .. | .mz _ | .mld .. | .mst .. | .mtov .. | .vtom .. | .mmas .. | .shcom _ | .shdis _ => true
  | _ => false
namespace Machine

/-- The lanes of quarter q. -/
def quarterMask (q : Nat) : Mask := BitVec.ofNat 32 (255 * 2 ^ (8 * q))

/-- Whether a run is held at an instruction (R25, R26). -/
def Wave.heldAt (w : Wave) (run : Mask) (i : Instr) : Bool :=
  if i.convergent then run != ~~~w.exited
  else if i.quarter then
    (List.range 4).any fun q => run &&& quarterMask q != 0 && (run ||| w.exited) &&& quarterMask q != quarterMask q
  else false

/-- The PCs of the runs of a wave, ascending (R20). -/
def Wave.runPcs (w : Wave) : List W64 :=
  (lanesOf w.table).foldl (fun l k =>
    let pc := w.pcAt k
    if pc ∈ l then l else (l.filter fun x => x < pc) ++ [pc] ++ (l.filter fun x => pc < x)) []

/-- The age of a lane (R21). -/
def Wave.ageOf (w : Wave) (l : Nat) : Nat := SMap.get w.age 0 l
/-- The age of the oldest lane of a run. -/
def Wave.runAge (w : Wave) (pc : W64) : Nat := (lanesOf (w.runAt pc)).foldl (fun m l => max m (w.ageOf l)) 0

/-- Whether the run at a PC is held. -/
def State.held (s : State) (pc : W64) : Bool :=
  match s.instrAt pc with
  | some i => s.w.heldAt (s.w.runAt pc) i
  | none => false

/-- The choice of R22: the PC of the head run and whether a burst begins there. None when no run can issue and lanes
are parked. -/
def State.headRun (s : State) : Option (W64 × Bool) :=
  let pcs := s.w.runPcs
  if 0 < s.w.burst && s.w.runAt s.w.promo != 0 && !s.held s.w.promo then some (s.w.promo, false)
  else
    let free := match pcs with
      | [pc] => if s.held pc then [] else [pc]
      | pcs => pcs.filter fun pc => !s.held pc
    match free with
    | [] => match pcs with
      | [] => none
      | pc :: _ => if s.w.parked = 0 then some (pc, false) else none
    | pc :: _ =>
      let old := free.filter fun p => 64 ≤ s.w.runAge p
      match old with
      | [] => some (pc, false)
      | o :: os => some (os.foldl (fun m p => if s.w.runAge m < s.w.runAge p then p else m) o, true)

/-- A burst is over once its run is held (R22). -/
def State.dropBurst (s : State) : State :=
  if s.w.burst != 0 && s.held s.w.promo then s.setW { s.w with burst := 0 } else s

/-- The PC of the head run, or of the lowest run, or 0. -/
def State.headPc (s : State) : W64 :=
  match s.headRun with
  | some p => p.1
  | none => s.w.runPcs.headD 0

end Machine
end Sys2Proof
end

