-- ==== Sys2Proof/Machine/Ops.lean ====
section
/-! DEFINITION. What every word shares: closing a region (R248, R332), taking a trap (R378, R380), returning from one
(R246, R379), joining a fault-buffer entry (R371), consuming poison (R401), and the frame of an issue event (R21, R22,
R176, R222) around the effect that a word's own meaning gives. -/

namespace Sys2Proof
open Machine
namespace Machine

/-! ### Regions and pin windows -/

/-- Close the open region: what closes it waits for the release (R332). -/
def State.closeRegion (s : State) : State :=
  match s.w.region with
  | none => s
  | some r => if r.closed then s
    else (s.setW { s.w with region := some { r with closed := true } }).post (.regionRelease s.w.blk s.w.idx)

/-- Close the pin window and release every pin (R222). -/
def Wave.closeWindow (w : Wave) : Wave := { w with window := none, pins := [] }

/-- One issue event less in the open pin window; at its 64th it is over, and its pins go (R222). -/
def Wave.countWindow (w : Wave) : Wave :=
  match w.window with
  | none => w
  | some n => if n ≤ 1 then { w with window := some 0, pins := [] } else { w with window := some (n - 1) }

/-! ### Rings of driver memory (R348, R371, R380) -/

/-- Append an entry of n bytes to a ring at a host address; none when it is full. -/
def State.ringPut (s : State) (base log2 prod cons : Nat) (bs : List Byte) : Option State :=
  let p := (s.pfNum prod).toNat % 2 ^ 32
  let c := (s.pfNum cons).toNat % 2 ^ 32
  let n := (s.pfNum log2).toNat % 32
  if (p + 2 ^ 32 - c) % 2 ^ 32 ≥ 2 ^ n then none
  else some ((s.writeHost ((s.pfNum base).toNat + bs.length * (p % 2 ^ n)) bs).setPf prod (BitVec.ofNat 64 ((p + 1) % 2 ^ 32)))

/-- Append to the escalation ring; a record that finds it full waits. PF vector 1 is signalled (R389). -/
def State.escPut (s : State) (bs : List Byte) : State :=
  match s.ringPut Pf.escbase Pf.esclog2 Pf.escprod Pf.esccons bs with
  | some s => s.msi 0 1
  | none => { s with escq := s.escq ++ [bs] }

/-! ### Trap frames (Table 116) -/

/-- The VA of the frame at a depth, counted from 0 (R378 step 3). -/
def State.frameAt (s : State) (d : Nat) : Nat :=
  let h := s.homeOf
  let slot := (h.1 * 36 + h.2.1) * 48 + h.2.2
  s.framebase s.b.ctx + 8192 * slot + 2048 * d

/-- The VA of the frame a wave would write at its depth. -/
def State.frameVa (s : State) : Nat := s.frameAt s.w.frames.length

/-- Lane state and parking sequence of a lane (Table 114). -/
def laneState (gs : List Group) (exited : Mask) (l : Nat) : Nat × Nat :=
  if exited.getLsbD l then (2, 0xFF)
  else match (gs.zipIdx).find? fun g => g.1.mask.getLsbD l with
    | some g => (if g.1.barw then 3 else 1, g.2)
    | none => (0, 0xFF)

/-- Lane PCs, ages, states and parking sequences: 384 bytes. -/
def laneTable (pc : SMap W64) (age : SMap Nat) (gs : List Group) (exited : Mask) : List Byte :=
  allLanes.flatMap (fun l => leBytes 8 (SMap.get pc 0 l).toNat) ++ allLanes.flatMap (fun l => leBytes 2 (SMap.get age 0 l)) ++
  allLanes.flatMap (fun l => leBytes 1 (laneState gs exited l).1) ++ allLanes.flatMap (fun l => leBytes 1 (laneState gs exited l).2)

/-- The latches of all lanes: 768 bytes. -/
def latchTable (lat : SMap W64) : List Byte :=
  allLanes.flatMap fun l => (List.range 3).flatMap fun e => leBytes 8 (SMap.get lat 0 (32 * e + l)).toNat

/-- The 2,048 bytes of a frame. -/
def Frame.bytes (f : Frame) (depth : Nat) (exited : Mask) : List Byte :=
  let head := leBytes 1 f.cause ++ leBytes 1 depth ++ leBytes 6 0 ++ leBytes 8 f.info.toNat ++ leBytes 8 f.addr.toNat ++
    leBytes 8 f.word.toNat ++ leBytes 4 f.run.toNat ++ leBytes 4 f.active.toNat ++ leBytes 4 f.ientry.toNat ++ leBytes 4 0 ++
    leBytes 8 f.promo.toNat ++ leBytes 4 f.burst ++ leBytes 4 0
  let lanes := laneTable f.pc f.age f.groups exited
  let ext := f.ext ++ List.replicate (512 - f.ext.length) 0
  head ++ lanes ++ List.replicate (0x200 - 0x40 - lanes.length) 0 ++ latchTable f.lat ++ List.replicate (0x600 - 0x200 - 768) 0 ++ ext

/-! ### Taking a trap -/

/-- Escalate (R380): the block's waves are suspended, a record goes to the escalation ring. -/
def State.escalate (s : State) (t : Trap) (word : W64) (reason : Nat) : State :=
  let rec_ := identField s.b s.w.idx ++ leBytes 1 t.cause ++ leBytes 1 reason ++ leBytes 6 0 ++ leBytes 8 word.toNat ++ leBytes 8 t.addr.toNat
  let s := s.escPut rec_
  (s.wavesOf s.w.blk).foldl (fun s k => s.updWave k fun w => if w.st = .ended then w else { w with halted := true }) s

/-- Write the frame and enter the handler (R378 steps 3 to 5). A `sweep` that is interrupted sends a probe of its own once it is
issued again (R90). -/
def State.enterHandler (s : State) (t : Trap) (word : W64) (run act : Mask) (between : Bool) : State :=
  let va := s.frameVa
  let w := s.w
  let f : Frame :=
    { va := BitVec.ofNat 64 va, cause := t.cause, info := t.info, addr := t.addr, word := word, run := run, active := act,
      ientry := w.sp.ientry, promo := w.promo, burst := w.burst, pc := w.pc, age := w.age, groups := w.groups, lat := w.r.lat,
      ext := t.ext, between := between, quarter := ((s.instrAt word).map Instr.quarter).getD false }
  let s := { s with probes := s.probes.filter fun p => !(p.blk == w.blk && p.wv == w.idx && p.depth == w.frames.length) }
  let s := s.wharfWrite s.b.ctx va (f.bytes (w.frames.length + 1) w.exited)
  let w := { w with
    frames := f :: w.frames
    groups := []
    age := []
    burst := 0
    promo := 0
    yielded := false
    sp := { w.sp with trapinfo := t.info, trapaddr := t.addr }
    r := { w.r with lat := [] } }
  let w := w.goTo (~~~w.exited) (s.handler s.b.ctx)
  s.setW ((lanesOf (BitVec.allOnes 32)).foldl (fun w l => w.setLat 0 l (BitVec.ofNat 64 va)) w)

/-- Taking a trap (R378, R380) in the wave that issues, its region already released. -/
def State.takeTrap (s : State) (t : Trap) (word : W64) (run act : Mask) (between : Bool) : State :=
  let s := s.setW s.w.closeWindow
  if s.w.frames.length = 4 ∧ (t.cause = 0x11 ∨ t.cause = 0x08) then s.killWave s.w.key
  else if t.cause = 0x0E && s.dbgBrk s.b.ctx then s.escalate t word 2
  else if s.w.frames.length = 4 then s.escalate t word 0
  else if s.handler s.b.ctx = 0 then s.escalate t word 1
  else s.enterHandler t word run act between

/-- The ages after an issue event of a run (R21): its lanes 0, the other lanes of the PC table one more. -/
def Wave.ageRun (w : Wave) (table run : Mask) : Wave :=
  let rest := table &&& ~~~run
  let age := (lanesOf run).foldl (fun t l => SMap.set t 0 l 0) w.age
  { w with age := if rest = 0 then age else (lanesOf rest).foldl (fun t l => SMap.set t 0 l (SMap.get t 0 l + 1)) age }

/-- The burst after an issue event (R22): it goes on for the promoted run while that run stays whole and alone. -/
def Wave.afterBurst (w : Wave) (was : W64) (run : Mask) : Wave :=
  if w.burst = 0 then w
  else if w.promo ≠ was then { w with burst := 0 }
  else
    let pc := w.pcAt (lowLane run)
    if w.burst = 1 || w.runAt pc != run then { w with burst := 0 } else { w with burst := w.burst - 1, promo := pc }

/-- A trap that belongs to the run: it first closes the region and waits for its release. -/
def State.trapRun (s : State) (act : Mask) (t : Trap) : State :=
  if s.w.region.isSome then s.closeRegion else s.dropBurst.takeTrap t s.pc s.run act false

/-- A trap of the word that is issued: it first closes the region and waits for its release; its issue is an issue event
(R21, R22). A breakpoint that goes to the management core resumes after `brk` (R381). -/
def State.trapWord (s : State) (act : Mask) (t : Trap) : State :=
  if s.w.region.isSome then s.closeRegion
  else
    let pc := s.pc
    let w := s.w.ageRun s.w.table s.run
    let w := if t.cause = 0x0E && s.dbgBrk s.b.ctx then w.goTo s.run (pc + 8) else w
    (s.setW (w.afterBurst pc s.run)).takeTrap t pc s.run act false

/-! ### Pending traps (R380) -/

/-- The place of a cause in the order in which pending traps are taken. -/
def pendRank (t : Trap) : Nat :=
  if t.cause = 0x11 then 0 else if t.cause = 0x08 then 1 else if t.at_.isSome then 2 else if t.cause = 0x0C then 3
  else if t.cause = 0x0A then 4 else 5

/-- The pending trap to take first. -/
def firstPend : List Trap → Option Trap
  | [] => none
  | t :: ts => match firstPend ts with
    | none => some t
    | some u => if pendRank u < pendRank t then some u else some t

/-- Take the first pending trap of the wave that issues. -/
def State.takePending (s : State) : State :=
  match firstPend s.w.pend with
  | none => s
  | some t =>
    if s.w.region.isSome then s.closeRegion
    else
      let rest := if t.cause = 0x11 ∨ t.cause = 0x08 then [] else s.w.pend.erase t
      let s := (s.setW { s.w with pend := rest, fwait := none }).dropBurst
      let pc := s.headPc
      match t.at_ with
      | some (word, run, act) => s.takeTrap t word run act true
      | none => s.takeTrap t pc (s.w.runAt pc) 0 true

/-! ### Returning from a trap -/

/-- Causes whose `tret` resumes at the word after the trapping word (R246). -/
def resumesAfter (cause : Nat) : Bool :=
  (1 ≤ cause && cause ≤ 6) || cause == 0x0D || cause == 0x0F || cause == 0x0E || cause == 0x07

/-- The burst of a run that resumes at the next word: it goes on there while the run stays whole and alone (R22). -/
def Wave.burstOn (w : Wave) (was : W64) (run : Mask) : Wave :=
  if w.burst = 0 || w.promo != was then w
  else if w.runAt (was + 8) != run then { w with burst := 0 } else { w with promo := was + 8 }

/-- Restore the state of the top frame (R246, R379): PC table, ages, burst, latch and parking; lanes that exited in the
handler stay exited. The word counts in an open pin window (R222). -/
def State.tretTo (s : State) (f : Frame) (fs : List Frame) : State :=
  let w := s.w
  let w := { w with
    frames := fs
    pc := f.pc
    age := f.age
    promo := f.promo
    burst := f.burst
    groups := (f.groups.map fun g => { g with mask := g.mask &&& ~~~w.exited }).filter fun g => g.mask != 0
    r := { w.r with lat := f.lat }
    sp := { w.sp with
      trapinfo := (match fs with | g :: _ => g.info | [] => w.sp.trapinfo)
      trapaddr := (match fs with | g :: _ => g.addr | [] => w.sp.trapaddr)
      mrow := if resumesAfter f.cause && !f.between && f.quarter then 0 else w.sp.mrow
      cprog := if !f.between && ((1 ≤ f.cause && f.cause ≤ 5) || f.cause == 0x0D || f.cause == 0x0F) then 0 else w.sp.cprog } }
  let run := f.run &&& ~~~w.exited
  s.setW (Wave.countWindow (if resumesAfter f.cause && !f.between then (w.goTo run (f.word + 8)).burstOn f.word run else w))

/-- `tret` with a frame on top: some causes end the wave. -/
def State.returnTrap (s : State) (f : Frame) (fs : List Frame) : State :=
  if f.cause = 0x08 ∨ f.cause = 0x0C ∨ f.cause = 0x11 then s.killWave s.w.key else s.tretTo f fs

/-! ### Translation faults -/

/-- Park the wave on the fault-buffer entry of an address (R371); when the buffer is full, the wave waits and issues its
word again. `t` is what the driver's NR would raise. -/
def State.joinFault (s : State) (va : W64) (kind : BitVec 8) (t : Trap) : State :=
  let die := s.homeOf.1
  let mine (f : FaultEnt) : Bool := f.die == die && f.ctx == s.b.ctx && f.va.toNat / 65536 == va.toNat / 65536
  match s.faults.find? mine with
  | some f => s.setW { s.w with fwait := some ⟨die, f.entry, t⟩ }
  | none =>
    let used := (s.faults.filter fun f => f.die == die).map (·.entry)
    match (List.range Config.faultEntries).find? fun e => !used.contains e with
    | none => s
    | some e =>
      let f : FaultEnt := ⟨die, e, s.b.ctx, va, kind, false⟩
      let s := s.setW { s.w with fwait := some ⟨die, e, t⟩ }
      State.post { s with faults := s.faults ++ [f] } (.faultRecordAppend die e)

/-! ### Parking (R24, R112, R233) -/

/-- Waits that have an entry in the wait-for table (R112). -/
def WaitKind.registered : WaitKind → Bool
  | .bar | .flag | .acq | .pass | .push | .pop | .free => true
  | .tag | .count => false

/-- Whether a registered wait still stands: a deadlock trap may have withdrawn it (R117). -/
def Wave.stillWaits (w : Wave) (r : WaitR) : Bool := w.groups.any fun g => g.waits.any fun x => x == { r with reg := true }

/-- Enter the open waits of a wave's last group; one that a full table refuses stays unregistered (R119). -/
def State.enterWaits (s : State) (k : Nat) : List WaitR → State
  | [] => s
  | r :: rs =>
    if r.done || !r.kind.registered || !(s.wave k).stillWaits r then s.enterWaits k rs
    else
      let a := s.addEnt (s.waitEnt k r)
      let s := if a.2 then a.1
        else a.1.updWave k fun w => { w with groups := w.groups.map fun g => { g with waits := g.waits.map fun x =>
          if x = { r with reg := true } then { x with reg := false } else x } }
      s.enterWaits k rs

/-- Park lanes of the run on waits; the run's PCs move on. -/
def State.park (s : State) (lanes : Mask) (ws : List WaitR) (barw : Bool) : State :=
  let w := s.w.goTo s.run (s.pc + 8)
  let ws := ws.map fun r => { r with reg := !r.done && r.kind.registered }
  let s := s.setW { w with groups := w.groups ++ [⟨lanes, ws, barw, []⟩] }
  (s.enterWaits s.w.key ws).wake

/-- Write a value of a list of registers. -/
def regsNat (rs : List W32) : Nat := leNat (regBytes rs)

/-- Write the result of a wait: to a predicate or an s register of the wave, or to the lane's v registers. -/
def State.writeRes (s : State) (r : WaitR) : State :=
  if r.res == [] then s
  else match r.dst with
  | .p _ => s.setAll r.mask r.dst 1 (regsNat r.res)
  | d => s.setOpnd d r.res.length r.lane (regsNat r.res)

/-- Deliver what the satisfied waits of parked words return, for a word of another run that needs it (R322). -/
def State.deliver (s : State) : State :=
  let due := (s.w.parkedGroups.flatMap fun g => g.waits).filter fun r => r.done && r.res != []
  let t := due.foldl State.writeRes s
  t.setW (t.w.mapWaits fun r => if r.done then { r with res := [] } else r)

/-- A word that the scoreboard holds back, or for which no memory word may be added, waits (R322, R324). -/
def State.heldBack (s : State) : State :=
  let t := s.deliver
  t.setW { t.w with stall := some 2 }

/-! ### Words -/

/-- How the effect of a word ends: it retires at the next word; it retires with the PCs it set; it raises a trap; it is
issued again later; it must first close its region; it misses a translation (address, KIND, and what NR raises); it
consumes a poisoned sector, with what it has counted till then (R132); it ends its wave. -/
inductive Res where
  | done (s : State)
  | moved (s : State)
  | trap (s : State) (t : Trap)
  | stall (s : State)
  | close
  | fault (s : State) (va : W64) (kind : BitVec 8) (t : Trap)
  | poison (s : State) (pa : Nat)
  | gone (s : State)
  deriving DecidableEq, Repr

/-- A word that waits leaves the state it found. -/
def Res.waitsIn (s : State) (r : Res) : Res :=
  match r with
  | .stall _ => .stall s
  | r => r

end Machine
/-- Instructions that close an idempotent region before they take effect, whatever their operands (R248, R285, R306). -/
def Instr.closes : Instr → Bool
  | .gth .. | .sct .. | .cst .. | .xld .. | .cpy .. | .tagwait .. | .tagffr _ | .tagclr .. => true
  | .barv .. | .barvInit .. | .barw .. | .barwWait .. | .fpost .. | .fpostInit .. | .fwait .. | .olacq .. | .olacqFree .. => true
  | .olrel .. | .olrelPass .. | .olrelInit .. | .olrelFree .. | .wreg .. | .wunreg .. | .yield _ | .fence .. | .sweep .. => true
  | .qpush .. | .qpushInit .. | .qpop .. => true
  | .fork _ | .join _ | .vstat .. | .launch _ | .cancel _ | .lcount .. | .migrate _ => true
  | .trap .. | .tret _ | .brk .. | .ienter _ => true
  | .wsr f => f.d != .sr .fflags && f.d != .sr .rngctr
  | .xroute _ | .xrel _ | .dtagNew _ => true
  | _ => false
/-- Words whose guard their own entries read: quarter-level words (R250) and `brx` (R213). -/
def Instr.ownGuard : Instr → Bool
  | .brx .. => true
  | i => i.quarter
namespace Machine

/-- The end of an issue event: ages (R21), the burst (R22), the pin window (R222). `table` is the PC table's mask before
it, `was` the PC of the run. -/
def Wave.retire (w : Wave) (table run : Mask) (was : W64) : Wave := ((w.ageRun table run).afterBurst was run).countWindow

/-- The G7 words in progress once the word that is issued has ended. -/
def State.endBegun (s : State) : List (W64 × Nat × List Byte) := if s.w.begun == [] then [] else s.w.begun.filter fun e => e.1 != s.pc

/-- The lanes of a word that retire with it: not those it parked, which retire when they rejoin, nor those whose wait a
deadlock trap withdrew, which stand at the word again (R117, R176). -/
def State.retiring (s before : State) (act : Mask) (next : Bool) : Mask :=
  act &&& ~~~(s.w.parked &&& ~~~before.w.parked) &&& ~~~(if next then 0 else maskOf fun l => s.w.pcAt l == before.pc)

/-- Retire a word: pushes of its hold (R176), PCs, and the end of the issue event. -/
def State.retire (s before : State) (i : Instr) (act : Mask) (next : Bool) : State :=
  let w := before.keepHolds i (act &&& (s.w.parked &&& ~~~before.w.parked)) (before.pushHolds i (s.retiring before act next) s.w)
  let w := if next then w.goTo before.run (before.pc + 8) else w
  s.setW { w.retire before.w.table before.run before.pc with begun := before.endBegun, stall := none }

/-- The lanes active for a word: in the run, with a true guard (R168). -/
def State.active (s : State) (i : Instr) : Mask := s.run &&& s.w.guard i.guard

/-- Issue a word: step 2 of R185, the scoreboard (R322), the memory words in flight (R324), the effect that `body` gives for
the active lanes, and the end of the issue event. With no active lane a word that closes a region still closes it first, and the
checks of its own entry are not made (log 17). -/
def word (i : Instr) (s : State) (body : Mask → State → Res) : Host.Outcome State Fault Refusal :=
  if s.w.st ≠ .running ∨ s.run = 0 then .fault .noWave
  else
    let act := s.active i
    if i.closes && s.w.region.isSome then .next s.closeRegion
    else match s.boundsFail i with
    | some info => .next (s.trapWord act (.of 2 info s.pc))
    | none =>
      if s.waitsFor i || (i.isMem && Config.memWords ≤ s.wordsInFlight) then .next s.heldBack
      else if act = 0 && !i.ownGuard then .next (s.retire s i act true)
      else match body act s with
      | .done t => .next (t.settleCharge s (t.retire s i act true))
      | .moved t => .next (t.settleCharge s (t.retire s i act false))
      | .trap t x => .next (if s.w.region.isSome then s.closeRegion else t.settleCharge s (t.trapWord act x))
      | .stall t => .next (t.settleCharge s t)
      | .close => .next s.closeRegion
      | .fault t va kind x => .next (t.settleCharge s (t.joinFault va kind x))
      | .poison t pa => .next (State.poisonBlock { s with pf := t.pf } s.w.blk pa)
      | .gone t => .next t

end Machine
end Sys2Proof
end

