-- ==== Sys2Proof/Machine/Lanes.lean ====
section
/-! DEFINITION. The shapes of the meanings that act on registers alone: one result per active lane, or one for the run
(R169, R173). -/

namespace Sys2Proof.Machine

/-- Write the result of each active lane to D and OR its flags; a scalar D takes one result. -/
def State.perLane (s : State) (act : Mask) (d : Opnd) (n : Nat) (f : Nat → Nat × Fl) : State :=
  match d with
  | .s _ =>
    let r := f (lowLane act)
    (s.setOpnd d n 0 r.1).orFlags r.2
  | d => (lanesOf act).foldl (fun t l => let r := f l; (t.setOpnd d n l r.1).orFlags r.2) s

/-- A result without flags. -/
def State.eachLane (s : State) (act : Mask) (d : Opnd) (n : Nat) (f : Nat → Nat) : State :=
  s.perLane act d n fun l => (f l, 0)

/-- Write one value: to every active lane of a v or p register, once to an s register. -/
def State.oneValue (s : State) (act : Mask) (d : Opnd) (n x : Nat) : State := s.eachLane act d n fun _ => x

/-- A word whose effect is a change of registers that always retires. -/
def simple (i : Instr) (s : State) (f : Mask → State) : Host.Outcome State Fault Refusal :=
  word i s fun act _ => .done (f act)

end Sys2Proof.Machine
end

