-- ==== Sys2Proof/Machine/Access.lean ====
section
/-! DEFINITION. The accesses of the active lanes of a word: addresses (R216), the order of the checks (R217), races
(R70, R72), and what a lane store adds to a recorded wave's log (R124). -/

namespace Sys2Proof.Machine

/-! ### Addresses and trap information -/

/-- The address of a lane from a base and an offset (R216). -/
def State.laneAddr (s : State) (sp : Sp) (a : Opnd) (off : W64) (l : Nat) : W64 :=
  match sp with
  | .g => s.opnd64 a l + off
  | _ => ((s.opnd32 a l).setWidth 64 + off) &&& 0xFFFFFFFF

/-- %trapinfo of Table 58. -/
def accInfo (elem : Nat) (write : Bool) (sp : Sp) (lane : Nat) : W64 :=
  BitVec.ofNat 64 (elem % 2 ^ 24 * 256 + (if write then 128 else 0) + sp.num * 32 + lane)
/-- %trapinfo of Table 60. -/
def pinInfo (kind : Nat) (write : Bool) (lane : Nat) : W64 :=
  BitVec.ofNat 64 (kind * 256 + (if write then 32 else 0) + lane)

/-- The step of R217 at which a check fails; 6 when it passes. -/
def Chk.failStep : Chk → Nat
  | .ok _ => 6
  | .bad n _ => n
  | .miss | .stall => 3

/-- The first failing access: the lowest step, and the first of those that fail it. -/
def firstFail (cs : List (Nat × W64 × Chk)) : Option (Nat × W64 × Chk) :=
  let low := cs.foldl (fun m c => min m c.2.2.failStep) 6
  if low = 6 then none else cs.find? fun c => c.2.2.failStep == low

/-- The places of accesses that passed. -/
def okPlaces (cs : List (Nat × W64 × Chk)) : List (Nat × W64 × Place) :=
  cs.filterMap fun c => match c.2.2 with
    | .ok p => some (c.1, c.2.1, p)
    | _ => none

/-- The pins that the word being issued may use: at the 64th issue event after the opening `touch` the window closes (R222). -/
def Wave.usable (w : Wave) : List Pin := if w.window = some 1 then [] else w.pins

/-- Whether the page of a VA is pinned for the wave (R221). -/
def State.pinned (s : State) (va : Nat) (write : Bool) : Bool :=
  s.w.usable.any fun p => decide (p.page ≤ va) && decide (va < p.page + p.size) && (p.w || !write)

/-! ### Races -/

/-- Race of R72: the block's other waves take 0x08 with the same record, a wave parked on a translation fault too, and the
block ends cancelled. -/
def State.raiseRace (s : State) (sec other kind : Nat) : State × Trap :=
  let t := Trap.of 0x08 (raceInfo s.w.idx other kind) (BitVec.ofNat 64 (16 * sec))
  let s := s.setB { s.b with race := some t, cancelled := true }
  let s := (s.madeBy s.w.blk).foldl (fun s id => s.cancelGrp cancelFuel id) s
  let s := (s.wavesOf s.w.blk).foldl (fun s k =>
    if k = s.w.key then s
    else s.updWave k fun w =>
      if w.st = .ended ∨ w.pend.any (fun p => p.cause == 0x11) then w else { w with pend := w.pend ++ [t], fwait := none }) s
  (s, t)

/-- The race checks of sector accesses in order (R70): what happens next sees the tags, or the word stops. After a race
of the block no scratchpad access is performed (R72). -/
def State.raceThen (s : State) (secs : List (Nat × Bool)) (k : State → Res) : Res :=
  if secs == [] then k s
  else if s.b.race.isSome then .done s
  else match s.b.accessAll s.w.idx secs with
    | (b, none) => k (s.setB b)
    | (_, some (sec, .race other kind)) =>
      let r := s.raiseRace sec other kind
      .trap r.1 r.2
    | (_, some _) => .stall s

/-! ### The accesses of a word -/

/-- The location whose poison an access consumes. -/
def State.poisonPa (s : State) (ps : List (Nat × W64 × Place)) (n : Nat) : Option Nat :=
  (ps.find? fun p => s.readsPoison p.2.2 n).map fun p => match p.2.2 with
    | .view _ pa | .fold _ pa _ | .dev pa | .sluice pa => pa
    | .window pa => (s.windowSrc pa n).1
    | .dm key => dmLoc key
    | _ => 0

/-- What the failed check of a word of G6 or G8 does. -/
def State.failAccess (s : State) (sp : Sp) (write : Bool) (c : Nat × W64 × Chk) : Res :=
  match c.2.2 with
  | .bad _ 3 => .trap s (.of 3 (pinInfo 0 write c.1) c.2.1)
  | .bad _ cause => .trap s (.of cause (accInfo 0 write sp c.1) c.2.1)
  | .miss => .fault s c.2.1 (if write then 1 else 0) (.of 0x12 (accInfo 0 write sp c.1) c.2.1)
  | _ => .stall s

/-- What the accesses of a word cost its bucket: a read sends no payload (R363). -/
def State.accFee (s : State) (n : Nat) (write : Bool) (ps : List (Nat × W64 × Place)) : Nat :=
  s.fee (if write then n else 0) (ps.map fun p => p.2.2)

/-- The state in which accesses that passed take effect: their messages paid for (R363), and the block marked when one of
them is of sluice or wharf memory (R63). -/
def State.accessed (s : State) (n : Nat) (write : Bool) (ps : List (Nat × W64 × Place)) : State :=
  let s := s.pay s.b.ctx s.homeOf.1 (s.accFee n write ps)
  if ps.any (fun p => p.2.2.isLive) then s.setB { s.b with live := true } else s

/-- All the accesses of a word, one per lane given, checked and then handed on (R217). `reads` says that they read. -/
def State.accessAll (s : State) (ls : List Nat) (acc : Acc) (sp : Sp) (n : Nat) (reads write pin : Bool) (addr : Nat → W64)
    (k : State → List (Nat × W64 × Place) → Res) : Res :=
  let chk (a : W64) : Chk :=
    let c := s.check acc sp a n write
    if pin && sp == .g && 3 ≤ c.failStep && !s.pinned a.toNat write then .bad 3 3 else c
  let cs := ls.map fun l => (l, addr l, chk (addr l))
  match firstFail cs with
  | some c => s.failAccess sp write c
  | none =>
    let ps := okPlaces cs
    if s.w.region.isSome && ps.any (fun p => p.2.2.closes) then .close
    else if acc != .obj && ps.any fun p => s.placeWaits p.1 p.2.2 n write then .stall s
    else if !s.canPay s.b.ctx s.homeOf.1 (s.accFee n write ps) then .stall s
    else match (if reads then s.poisonPa ps n else none) with
    | some pa => .poison s pa
    | none =>
      s.raceThen (ps.filterMap fun p => p.2.2.sector?.map fun sec => (sec, write)) fun s =>
        k (s.accessed n write ps) ps

/-- The lanes that access: one when both the base and the data are scalar, else every active lane (log 116). -/
def accLanes (act : Mask) (d : Opnd) : List Nat :=
  match d with
  | .s _ => [lowLane act]
  | _ => lanesOf act

/-! ### Stores of a recorded wave (R124) -/

/-- Add a lane store to the wave's CRC; at each 65,536th, write or compare a checkpoint. None when the log area is full. The
write of `atom` is no lane store (log 127). -/
def State.logStore (s : State) (sp : Sp) (addr : W64) (bs : List Byte) : Option State :=
  if !s.recorded s.b.ctx then some s
  else
    let crc := crcStore s.w.crc sp addr bs
    let n := s.w.stores + 1
    let s := s.setW { s.w with crc := crc, stores := n }
    if n % 65536 ≠ 0 then some s
    else
      let ident := identField s.b s.w.idx
      if s.replaying s.b.ctx then
        let ok := match (s.ctx s.b.ctx).log with
          | some ix => ix.checks.any fun c => c.1 == ident && c.2.1 == n && c.2.2 == crc
          | none => false
        some (if ok then s else s.setW { s.w with pend := s.w.pend ++ [.of 0x0C (BitVec.ofNat 64 n) addr] })
      else s.logCheckpoint s.b.ctx ident n crc

/-- Write the value of each lane at its place, ascending (R220): the highest lane's bytes stand. None when a checkpoint
finds the log area full. -/
def State.storeAll (s : State) (sp : Sp) (n : Nat) (val : Nat → Nat) : List (Nat × W64 × Place) → Option State
  | [] => some s
  | (l, a, p) :: ps => match s.logStore sp a (leBytes n (val l)) with
    | none => none
    | some s => (s.writePlace p n (val l)).storeAll sp n val ps

/-- Count the decode errors of window reads (R132), at every read (log 110). -/
def State.countWindow (s : State) (ps : List (Nat × W64 × Place)) (n : Nat) : State :=
  ps.foldl (fun s p => match p.2.2 with
    | .window pa => let r := s.windowRead pa n; s.countDecErr r.2.1 r.2.2
    | _ => s) s

end Sys2Proof.Machine
end

