-- ==== Sys2Proof/Machine/Memory.lean ====
section
/-! DEFINITION. G6: loads, stores, pins and prefetch (R218 to R223), the X forms of `ld` and `st` (R182); `atom` and `red` of
G8 (R230, R231); `cachectl` (R249). -/

namespace Sys2Proof.Machine

/-- The register value of loaded bytes (Table 57). -/
def extend (sz : Sz) (x : Nat) : Nat :=
  match sz with
  | .i8 => bitsOf 32 (intOf true 8 x)
  | .i16 => bitsOf 32 (intOf true 16 x)
  | _ => x

/-- A load of every lane. -/
def loadWord (i : Instr) (d a : Opnd) (sz : Sz) (sp : Sp) (off : W64) (pin : Bool) (s : State) : Host.Outcome State Fault Refusal :=
  word i s fun act s =>
    s.accessAll (accLanes act d) .load sp sz.bytes true false pin (s.laneAddr sp a off) fun t ps =>
      .done (ps.foldl (fun u p => u.setOpnd d sz.regs p.1 (extend sz (t.readPlace p.2.2 sz.bytes))) (t.countWindow ps sz.bytes))

/-- The value a lane stores: the low SZ bytes of D; the upper half of 16 bytes from a latch entry is open. -/
def State.storeVal (s : State) (d : Opnd) (sz : Sz) (l : Nat) : Nat :=
  match sz, d with
  | .w128, .lat _ => s.opnd d 2 l + 2 ^ 64 * (Config.quadHigh (s.opnd64 d l)).toNat
  | sz, d => s.opnd d sz.regs l % 2 ^ (8 * sz.bytes)

/-- A store of every lane. -/
def storeWord (i : Instr) (d a : Opnd) (sz : Sz) (sp : Sp) (off : W64) (pin : Bool) (s : State) : Host.Outcome State Fault Refusal :=
  word i s fun act s =>
    s.accessAll (lanesOf act) .store sp sz.bytes false true pin (s.laneAddr sp a off) fun t ps =>
      match t.storeAll sp sz.bytes (s.storeVal d sz) ps with
      | some u => .done u
      | none => .stall { s with w := { s.w with stall := some 6 } }

def execLd (f : F) (sz : Sz) (sp : Sp) (off : BitVec 16) (s : State) : Host.Outcome State Fault Refusal :=
  loadWord (.ld f sz sp off) f.d f.a sz sp (off.signExtend 64) false s
def execSt (f : F) (sz : Sz) (sp : Sp) (off : BitVec 16) (s : State) : Host.Outcome State Fault Refusal :=
  storeWord (.st f sz sp off) f.d f.a sz sp (off.signExtend 64) false s
def execLdn (f : F) (sz : Sz) (sp : Sp) (off : BitVec 16) (s : State) : Host.Outcome State Fault Refusal :=
  loadWord (.ldn f sz sp off) f.d f.a sz sp (off.signExtend 64) true s
def execStn (f : F) (sz : Sz) (sp : Sp) (off : BitVec 16) (s : State) : Host.Outcome State Fault Refusal :=
  storeWord (.stn f sz sp off) f.d f.a sz sp (off.signExtend 64) true s
def execLdX (x : X) (s : State) : Host.Outcome State Fault Refusal :=
  loadWord (.ldX x) x.d (.lat 0) .w32 .g (x.imm.signExtend 64) false s
def execStX (x : X) (s : State) : Host.Outcome State Fault Refusal :=
  storeWord (.stX x) x.d (.lat 0) .w32 .g (x.imm.signExtend 64) false s

/-! ### Pins -/

/-- Steps 2 to 4 of R217 for `touch`: the leaf it pins. -/
def State.touchChk (s : State) (a : W64) (wr : Bool) : Chk × Pin :=
  if 2 ^ 56 ≤ a.toNat then (.bad 2 5, ⟨0, 0, false⟩)
  else if s.migrating s.b.ctx a.toNat then (.stall, ⟨0, 0, false⟩)
  else match s.walk s.b.ctx a.toNat with
  | .missing => (.miss, ⟨0, 0, false⟩)
  | .malformed => (.bad 3 0x12, ⟨0, 0, false⟩)
  | .leaf l =>
    let ok := if wr then l.w && (l.cls == .view || l.cls == .wharf) else l.cls != .sluice
    let sz := 2 ^ max l.bits 16
    (if ok then .ok (.view 0 0) else .bad 4 5, ⟨a.toNat / sz * sz, sz, wr⟩)

/-- Add a pin; W upgrades one that stands. -/
def addPin (p : Pin) (ps : List Pin) : List Pin :=
  if ps.any fun q => q.page == p.page then ps.map fun q => if q.page == p.page then { q with w := q.w || p.w } else q
  else ps ++ [p]

/-- Add the pins of the lanes in order; the first lane that would exceed 8. -/
def addPins : List (Nat × Pin) → List Pin → List Pin × Option Nat
  | [], ps => (ps, none)
  | (l, p) :: rest, ps =>
    let qs := addPin p ps
    if 8 < qs.length then (ps, some l) else addPins rest qs

/-- The issue events to the one that closes the pin window, that of this `touch` included: a later `touch` does not extend
it, and one that is the 64th event opens a new window. -/
def Wave.openWindow (w : Wave) : Nat :=
  match w.window with
  | some (n + 2) => n + 2
  | _ => 65

def execTouch (f : F) (wr : Bool) (off : BitVec 16) (s : State) : Host.Outcome State Fault Refusal :=
  word (.touch f wr off) s fun act s =>
    let as := (lanesOf act).map fun l => (l, s.laneAddr .g f.a (off.signExtend 64) l)
    let cs := as.map fun x => (x.1, x.2, (s.touchChk x.2 wr).1)
    match firstFail cs with
    | some c => s.failAccess .g wr c
    | none => match addPins (as.map fun x => (x.1, (s.touchChk x.2 wr).2)) s.w.usable with
      | (_, some l) => .trap s (.of 3 (pinInfo 1 wr l) (s.laneAddr .g f.a (off.signExtend 64) l))
      | (ps, none) => .done (s.setW { s.w with pins := ps, window := some (s.w.openWindow) })

def execPf (f : F) (lvl : PfLvl) (off : BitVec 16) (s : State) : Host.Outcome State Fault Refusal :=
  word (.pf f lvl off) s fun _ s => .done s
def execCachectl (f : F) (op : CacheOp) (s : State) : Host.Outcome State Fault Refusal :=
  word (.cachectl f op) s fun _ s => .done s

/-! ### `atom` and `red` -/

/-- One lane of `atom`: read, operate, write as one access (R231). -/
def State.atomLane (s before : State) (f : F) (op : AOp) (dt : DT) (l : Nat) (p : Place) : State :=
  let n := dt.bytes
  let old := s.readPlace p n
  let b := before.dtOpnd dt f.b l
  let c := before.dtOpnd dt f.c l
  let r := aluOp op dt before.w.sp.fmode old b c
  ((s.writePlace p n r.1).setOpnd f.d dt.regs l old).orFlags r.2

def execAtom (f : F) (op : AOp) (dt : DT) (sc : Bool) (s : State) : Host.Outcome State Fault Refusal :=
  word (.atom f op dt sc) s fun act s =>
    let sp : Sp := if sc then .sc else .g
    s.accessAll (lanesOf act) .atom sp dt.bytes true true false (s.laneAddr sp f.a 0) fun t ps =>
      .done (ps.foldl (fun u p => u.atomLane s f op dt p.1 p.2.2) t)

/-- One lane of `red`: the operand raw into the view's partial. -/
def State.redLane (s before : State) (f : F) (dt : DT) (l : Nat) (p : Place) : State :=
  match p with
  | .fold va _ fop => s.setW (s.w.hold fun v => v.red fop va (before.dtOpnd dt f.b l))
  | _ => s

/-- Whether a fold page's operator is the one a `red` names (R52, R231). -/
def redNames (op : AOp) (dt : DT) : Place → Bool
  | .fold _ _ fop => (foldOp fop).op == op && (foldOp fop).dts.contains dt
  | _ => true

def execRed (f : F) (op : AOp) (dt : DT) (s : State) : Host.Outcome State Fault Refusal :=
  word (.red f op dt) s fun act s =>
    let cs := (lanesOf act).map fun l =>
      let a := s.laneAddr .g f.a 0 l
      let c := s.check .red .g a dt.bytes true
      (l, a, match c with
        | .ok p => if redNames op dt p then .ok p else .bad 4 5
        | c => c)
    match firstFail cs with
    | some c => s.failAccess .g true c
    | none => .done ((okPlaces cs).foldl (fun u p => u.redLane s f dt p.1 p.2.2) s)

end Sys2Proof.Machine
end

