-- ==== Sys2Proof/Machine/Engines.lean ====
section
/-! DEFINITION. G7: the copy, gather and scatter engines (R71, R74, R91 to R93, R224 to R229): issue of a command element
by element, and what an engine does later when it reads a source and lands an element. -/

namespace Sys2Proof
open Machine
namespace Machine

/-! ### Completion words (R224) -/

/-- What the check of a completion word answers. -/
inductive CwR where
  | ok (tag bar : Option Nat)
  | trap (t : Trap)
  | miss (va : W64)
  | stall
  deriving DecidableEq, Repr

/-- The check of a completion word at a command's issue. -/
def State.checkCw (s : State) (cw : W64) (lane : Nat) : CwR :=
  let tag : Option Nat := if fld cw 63 1 = 1 then some (fld cw 0 6) else none
  let line := fld cw 6 50
  let bdm := fld cw 61 1 == 1
  let va : W64 := BitVec.ofNat 64 (64 * if bdm then line % 2 ^ 26 else line)
  if fld cw 56 5 ≠ 0 then .trap (.of 5 cw 0)
  else if tag.any fun t => decide (s.b.al.tags ≤ t) then .trap (.of 5 cw 0)
  else if fld cw 62 1 = 0 then .ok tag none
  else if !bdm && line == 0 then .ok tag (some blkLoc)
  else match s.check .obj (if bdm then .dm else .g) va 64 true with
  | .ok p => if s.loc p.loc 1 = 1 then .ok tag (some p.loc) else .trap (.of 5 cw va)
  | .bad _ 0x12 => .trap (.of 0x12 (accInfo 0 true .g lane) va)
  | .bad _ _ => .trap (.of 5 cw va)
  | .miss => .miss va
  | .stall => .stall

/-! ### Elements -/

/-- An end of a transfer: a memory address, register data, or a destination register. -/
inductive EndPt where
  | mem (sp : Sp) (a : W64)
  | data (l : List Byte)
  | reg (d : Opnd) (lane : Nat) (sz : Sz)
  deriving DecidableEq, Repr

/-- The virtual address of a global end. -/
def EndPt.globalVa : EndPt → Option Nat
  | .mem .g a => some a.toNat
  | _ => none

/-- One transfer of n bytes: an element of Table 62, or a unit of a row of `cpy`. -/
structure Move where
  src : EndPt
  dst : EndPt
  n : Nat
  deriving DecidableEq, Repr

/-- The accesses of a move with their checks: whether it writes, its space, address and size. -/
def State.moveChks (s : State) (m : Move) : List (Bool × Sp × W64 × Chk) :=
  (match m.src with
  | .mem sp a => [(false, sp, a, s.check .load sp a m.n false)]
  | _ => []) ++
  (match m.dst with
  | .mem sp a => [(true, sp, a, s.check .store sp a m.n true)]
  | _ => [])

/-- The first failing access of an element (R217, R227). -/
def firstBad (cs : List (Bool × Sp × W64 × Chk)) : Option (Bool × Sp × W64 × Chk) :=
  let low := cs.foldl (fun m c => min m c.2.2.2.failStep) 6
  if low = 6 then none else cs.find? fun c => c.2.2.2.failStep == low

/-- The place of an access that passed. -/
def Chk.place : Chk → Place
  | .ok p => p
  | _ => .sc 0

/-- Where an engine reads from: fold pages and decode windows are read at issue. -/
def State.srcOf (s : State) (p : Place) (n : Nat) : Src :=
  match p with
  | .view va pa => .view va pa
  | .fold va pa fop => .data (leBytes n (s.foldRead va pa fop n))
  | .dev pa | .sluice pa => .dev pa
  | .host pa => .host pa
  | .window pa => .data (leBytes n (s.windowRead pa n).1)
  | .sc off => .sc off
  | .dm key => .dm key

/-- Where it writes to. -/
def Place.dst : Place → Dst
  | .view va _ => .view va
  | .dev pa | .sluice pa => .dev pa
  | .host pa => .host pa
  | .sc off => .sc off
  | .dm key => .dm key
  | .fold _ _ _ | .window _ => .sc 0

/-- How the issue of a command's elements ends. -/
inductive EStop where
  | done
  | bad (w : Bool) (sp : Sp) (a : W64) (c : Chk)
  | wait
  | full
  | race (sec other kind : Nat)
  | poison (pa : Nat)
  deriving DecidableEq, Repr

/-- The moves of one element as engine elements, once its checks have passed. -/
def State.elemOf (s : State) (m : Move) : Elem :=
  let place (sp : Sp) (a : W64) (w : Bool) : Place := (s.check (if w then .store else .load) sp a m.n w).place
  { src := match m.src with
      | .mem sp a => s.srcOf (place sp a false) m.n
      | .data l => .data l
      | .reg _ _ _ => .data []
    dst := match m.dst with
      | .mem sp a => (place sp a true).dst
      | .reg d l sz => .reg d l sz
      | .data _ => .sc 0
    n := m.n
    sva := m.src.globalVa
    dva := m.dst.globalVa }

/-- The scratchpad sectors an engine element reads and writes. -/
def Elem.sectors (e : Elem) : List (Nat × Bool) :=
  (match e.src with
  | .sc off => [(off / 16, false)]
  | _ => []) ++
  (match e.dst with
  | .sc off => [(off / 16, true)]
  | _ => [])

/-- Commit one engine element: lines of a view destination are charged (R58), a register destination becomes pending
(R322), window errors count, and a recorded wave's CRC takes the bytes (R124). None when the log area is full. -/
def State.commitElem (s : State) (m : Move) (e : Elem) : Option State :=
  let s := match e.dst with
    | .view va => s.setW { s.w with view := s.w.view.chargeLines ((List.range e.n).map fun k => (va + k, 0)) }
    | .reg d _ sz => s.setW { s.w with pending := s.w.pending ++ [(d, sz.regs)] }
    | _ => s
  let s := match m.src with
    | .mem sp a => (match (s.check .load sp a m.n false).place with
      | .window pa => let r := s.windowRead pa m.n; s.countDecErr r.2.1 r.2.2
      | .fold _ _ _ | .view _ _ | .dev _ | .host _ | .sluice _ | .sc _ | .dm _ => s)
    | _ => s
  match m.dst with
  | .mem sp a =>
    let bs : List Byte := match m.src with
      | .mem sq b => leBytes m.n (s.readPlace (s.check .load sq b m.n false).place m.n)
      | .data l => l
      | .reg _ _ _ => []
    s.logStore sp a bs
  | _ => some s

/-- Commit the moves of one element in order. -/
def State.commitMoves (s : State) : List (Move × Elem) → Option State
  | [] => some s
  | (m, e) :: rest => match s.commitElem m e with
    | none => none
    | some t => t.commitMoves rest

/-- Whether an access of an engine at issue waits: in the view for an earlier command (R91); its live accesses are of no
lane (R92). -/
def Place.waitsOnView (p : Place) (s : State) (n : Nat) (write : Bool) : Bool :=
  match p with
  | .view va _ => s.viewPending va n write
  | _ => false

/-- Issue elements from one on (R227): the state with what was committed, the engine elements, the element reached and
how the issue ended. -/
def State.issueGo (s : State) (j : Nat) : List (List Move) → State × List Elem × Nat × EStop
  | [] => (s, [], j, .done)
  | ms :: rest =>
    let cs := ms.flatMap s.moveChks
    match firstBad cs with
    | some (w, sp, a, c) => (s, [], j, if c == .stall then .wait else .bad w sp a c)
    | none =>
      let ps := cs.map fun c => (c.1, c.2.2.2.place)
      let n := (ms.headD ⟨.data [], .data [], 1⟩).n
      if ps.any fun p => p.2.waitsOnView s n p.1 then (s, [], j, .wait)
      else match s.poisonPa ((ps.filter fun p => !p.1).map fun p => (0, 0, p.2)) n with
      | some pa => (s, [], j, .poison pa)
      | none =>
        let es := ms.map fun m => (m, s.elemOf m)
        let secs := es.flatMap fun e => e.2.sectors
        if secs != [] && s.b.race.isSome then s.issueGo (j + 1) rest
        else match s.b.accessAll s.w.idx secs with
        | (_, some (sec, .race o k)) => (s, [], j, .race sec o k)
        | (_, some _) => (s, [], j, .wait)
        | (b, none) => match (s.setB b).commitMoves es with
          | none => (s, [], j, .full)
          | some t =>
            let live := ps.any fun p => p.2.isLive
            let t := if live then t.setB { t.b with live := true } else t
            let r := t.issueGo (j + 1) rest
            (r.1, es.map (·.2) ++ r.2.1, r.2.2)

/-! ### Tags and pending bits -/

/-- One more command in flight on a tag: its bit is cleared (R74). -/
def Block.tagUp (b : Block) (t : Nat) : Block :=
  { b with inflight := SMap.set b.inflight 0 t (SMap.get b.inflight 0 t + 1)
           tagready := b.tagready &&& ~~~BitVec.ofNat 64 (2 ^ t) }
/-- One fewer: the bit is set when none is left. -/
def Block.tagDown (b : Block) (t : Nat) : Block :=
  let n := SMap.get b.inflight 0 t - 1
  { b with inflight := SMap.set b.inflight 0 t n
           tagready := if n = 0 then b.tagready ||| BitVec.ofNat 64 (2 ^ t) else b.tagready }
def Block.tagUp? (b : Block) (t : Option Nat) : Block := match t with | some t => b.tagUp t | none => b
def Block.tagDown? (b : Block) (t : Option Nat) : Block := match t with | some t => b.tagDown t | none => b

/-- Set the pending bits of an element's sectors (R71). -/
def Block.pend (b : Block) (e : Elem) : Block :=
  e.sectors.foldl (fun b x =>
    if x.2 then { b with pendW := SMap.set b.pendW 0 x.1 (SMap.get b.pendW 0 x.1 + 1) }
    else { b with pendR := SMap.set b.pendR 0 x.1 (SMap.get b.pendR 0 x.1 + 1) }) b

/-- The event that moves a command on: its head element's source is read, or it lands. -/
def Cmd.event (c : Cmd) : Instr :=
  match c.els with
  | e :: _ => (match e.src with
    | .data _ => .engineLand c.id
    | _ => .engineSourceRead c.id)
  | [] => .engineLand c.id

/-- The dies between which the data of a command's element goes on virtual channel 3 (R89): to the home of a live
destination, or from that of a live source to the engine. -/
def Elem.leg (die : Nat) (e : Elem) : Option (Nat × Nat) :=
  match e.dst with
  | .dm key => some (die, locDie (dmLoc key))
  | .dev pa => some (die, locDie pa)
  | _ => match e.src with
    | .dm key => some (locDie (dmLoc key), die)
    | .dev pa => some (locDie pa, die)
    | _ => none

/-- Inject the data of an element on its channel. -/
def State.inject (s : State) (c : Cmd) (leg : Option (Nat × Nat)) : State × Cmd :=
  match leg with
  | some (a, b) => (s.fresh.2, { c with chan := some (a, b, s.fresh.1) })
  | none => (s, { c with chan := none })

/-- Inject the data of a command's head element, where the engine already holds it. -/
def State.injectHead (s : State) (c : Cmd) : State × Cmd :=
  match c.els with
  | e :: _ => (match e.src with
    | .data _ => s.inject c (e.leg c.src)
    | _ => (s, { c with chan := none }))
  | [] => (s, { c with chan := none })

/-- Hand committed elements of a word to an engine. -/
def State.sendCmd (s : State) (word : Nat) (els : List Elem) (tag bar bva : Option Nat) (rel : Bool) : State :=
  if els == [] then s
  else
    let next := match bar with
      | some loc => s.w.arrivals.any fun a => a.loc == loc
      | none => false
    let f := s.fresh
    let c : Cmd := ⟨f.1, s.homeOf.1, word, s.w.blk, s.w.idx, els, tag, bar, next, rel, [], none, bva⟩
    let s := f.2
    let live := bar.any fun loc => decide (loc < 2 ^ 52)
    let b := els.foldl (fun b e => b.pend e) (s.b.tagUp? tag)
    let s := s.setB { b with live := b.live || live }
    let r := s.injectHead c
    State.post { r.1 with cmds := r.1.cmds ++ [r.2] } c.event

/-! ### Issue -/

/-- Issue a command over its elements, from %cprog on: `fin` writes what the word writes at retirement; `hold` is the
control block that a re-issue goes on with. The command holds its tag from its first issue to the end of its issue; a
trap after which `tret` resumes at the next word ends it (R246). -/
def State.issueCmd (s : State) (cw : W64) (els : List (List Move)) (lane : Nat → Nat) (rel : Bool) (hold : List Byte)
    (fin : State → State) : Res :=
  let again := s.w.begun.find? fun e => e.1 == s.pc
  match s.checkCw cw (lane 0) with
  | .trap t => .trap s t
  | .miss va => .fault s va 5 (.of 0x12 (accInfo 0 true .g (lane 0)) va)
  | .stall => .stall s
  | .ok tag bar =>
    let begin_ : State × Nat := match again with
      | some e => (s, e.2.1)
      | none => ((s.fresh.2.setB (s.b.tagUp? tag)).setW { s.w with begun := s.w.begun ++ [(s.pc, s.fresh.1, hold)] }, s.fresh.1)
    let s0 := begin_.1
    let from_ := s.w.sp.cprog.toNat
    let r := s0.issueGo from_ (els.drop from_)
    let t := r.1.sendCmd begin_.2 r.2.1 tag bar ((bar.filter (· < 2 ^ 52)).map fun _ => 64 * fld cw 6 50) rel
    let prog (n : Nat) (t : State) : State := t.setW { t.w with sp := { t.w.sp with cprog := BitVec.ofNat 32 n } }
    let stop (t : State) : State := (t.setB (t.b.tagDown? tag)).setW { t.w with begun := s.endBegun }
    let j := r.2.2.1
    match r.2.2.2 with
    | .done => .done (fin (prog 0 (stop t)))
    | .wait => .stall (prog j t)
    | .full => .stall (let u := prog j t; u.setW { u.w with stall := some 6 })
    | .poison pa => .poison t pa
    | .race sec o k =>
      let q := (prog j (stop t)).raiseRace sec o k
      .trap q.1 q.2
    | .bad w sp a c =>
      let info := accInfo j w sp (lane j)
      match c with
      | .bad _ cause => .trap (prog j (if resumesAfter cause then stop t else t)) (.of cause info a)
      | _ => .fault (prog j t) a (if w then 5 else 4) (.of 0x12 info a)

end Machine
/-- A register destination with its window resolved (R174). -/
def Opnd.fixed (w : Wave) (o : Opnd) : Opnd :=
  match o.vnum w with
  | some r => .v (BitVec.ofNat 8 r)
  | none => o
namespace Machine

/-- The register data of a lane's element. -/
def State.elemData (s : State) (b : Opnd) (sz : Sz) (l : Nat) : List Byte := leBytes sz.bytes (s.opnd b sz.regs l)

/-- The lane of element j. -/
def laneOf (act : Mask) (j : Nat) : Nat := (lanesOf act).getD j 0

def execGth (f : F) (sz : Sz) (sp : Sp) (acq : Bool) (scope : Scope) (s : State) : Host.Outcome State Fault Refusal :=
  word (.gth f sz sp acq scope) s fun act s =>
    s.issueCmd (s.opnd64 f.c 0)
      ((lanesOf act).map fun l => [⟨.mem sp (s.laneAddr sp f.a 0 l), .reg (f.d.fixed s.w) l sz, sz.bytes⟩])
      (laneOf act) false [] id

def execSct (f : F) (sz : Sz) (sp : Sp) (rel : Bool) (scope : Scope) (s : State) : Host.Outcome State Fault Refusal :=
  word (.sct f sz sp rel scope) s fun act s =>
    s.issueCmd (s.opnd64 f.c 0)
      ((lanesOf act).map fun l => [⟨.data (s.elemData f.b sz l), .mem sp (s.laneAddr sp f.a 0 l), sz.bytes⟩])
      (laneOf act) rel [] id

/-- The address of element j from a base (R225). -/
def State.elemAddr (s : State) (sp : Sp) (a : Opnd) (first size j : Nat) : W64 :=
  s.laneAddr sp a (BitVec.ofNat 64 (j * size)) first

def execCst (f : F) (sz : Sz) (sp : Sp) (rel : Bool) (scope : Scope) (s : State) : Host.Outcome State Fault Refusal :=
  word (.cst f sz sp rel scope) s fun act s =>
    let ls := lanesOf act
    s.issueCmd (s.opnd64 f.c 0)
      (ls.zipIdx.map fun e => [⟨.data (s.elemData f.b sz e.1), .mem sp (s.elemAddr sp f.a (lowLane act) sz.bytes e.2), sz.bytes⟩])
      (laneOf act) rel [] fun t => t.setOpnd f.d 1 0 ls.length

def execXld (f : F) (sz : Sz) (sp : Sp) (acq : Bool) (scope : Scope) (s : State) : Host.Outcome State Fault Refusal :=
  word (.xld f sz sp acq scope) s fun act s =>
    s.issueCmd (s.opnd64 f.c 0)
      ((lanesOf act).zipIdx.map fun e =>
        [⟨.mem sp (s.elemAddr sp f.a (lowLane act) sz.bytes e.2), .reg (f.d.fixed s.w) e.1 sz, sz.bytes⟩])
      (laneOf act) false [] id

/-! ### `cpy` (R228) -/

/-- A copy control block (Table 63). -/
structure Ccb where
  src : Nat
  dst : Nat
  rowbytes : Nat
  rows : Nat
  sstride : Int
  dstride : Int
  cw : W64
  ssp : Nat
  dsp : Nat
  log : Nat
  deriving DecidableEq, Repr

/-- Read a control block; none where R228 rejects it. -/
def Ccb.of (bs : List Byte) : Option Ccb :=
  let num (o n : Nat) : Nat := leNat ((bs.drop o).take n)
  let sp := num 0x30 1
  let c : Ccb := ⟨num 0 8, num 8 8, num 0x10 4, num 0x14 4, intOf true 64 (num 0x18 8), intOf true 64 (num 0x20 8),
    BitVec.ofNat 64 (num 0x28 8), sp % 4, sp / 4 % 4, num 0x31 1⟩
  let ok := 1 ≤ c.rowbytes && c.rowbytes ≤ 2 ^ 24 && 1 ≤ c.rows && c.rows ≤ 65536 && sp < 16 && c.ssp ≠ 3 && c.dsp ≠ 3 &&
    c.log ≤ 4 && c.rowbytes % 2 ^ c.log == 0 && c.sstride % 2 ^ c.log == 0 && c.dstride % 2 ^ c.log == 0 && num 0x32 14 == 0
  if ok then some c else none

/-- The space of a code. -/
def spOf (n : Nat) : Sp := if n = 0 then .g else if n = 1 then .sc else .dm

/-- An address in a space: 64-bit, or a 32-bit offset. -/
def spAddr (sp : Sp) (x : Int) : W64 :=
  match sp with
  | .g => BitVec.ofInt 64 x
  | _ => (BitVec.ofInt 32 x).setWidth 64

/-- The moves of row k: its units in ascending order. -/
def Ccb.row (c : Ccb) (k : Nat) : List Move :=
  let u := 2 ^ c.log
  (List.range (c.rowbytes / u)).map fun i =>
    ⟨.mem (spOf c.ssp) (spAddr (spOf c.ssp) (c.src + k * c.sstride + (i * u : Nat))),
     .mem (spOf c.dsp) (spAddr (spOf c.dsp) (c.dst + k * c.dstride + (i * u : Nat))), u⟩

/-- Issue a copy from its control block. -/
def State.copyFrom (s : State) (bs : List Byte) (va : W64) (lane : Nat) (rel : Bool) : Res :=
  match Ccb.of bs with
  | none => .trap s (.of 5 (accInfo 0 false .g lane) va)
  | some c => s.issueCmd c.cw ((List.range c.rows).map c.row) (fun _ => lane) rel bs id

def execCpy (f : F) (acq rel : Bool) (scope : Scope) (s : State) : Host.Outcome State Fault Refusal :=
  word (.cpy f acq rel scope) s fun act s =>
    let l := lowLane act
    let va := s.opnd64 f.a l
    match s.w.begun.find? fun e => e.1 == s.pc with
    | some e => s.copyFrom e.2.2 va l rel
    | none => s.accessAll [l] .load .g 64 true false false (fun _ => va) fun t ps =>
      match ps with
      | p :: _ => (t.countWindow ps 64).copyFrom (leBytes 64 (t.readPlace p.2.2 64)) va l rel
      | [] => .done t

/-! ### The engine's side -/

/-- The command of a number. -/
def State.cmd? (s : State) (id : Nat) : Option Cmd := s.cmds.find? fun c => c.id == id

/-- Replace a command, or drop it when it has nothing left. -/
def State.putCmd (s : State) (c : Cmd) : State :=
  { s with cmds := if c.els == [] && c.owed == [] then s.cmds.filter fun x => x.id != c.id else s.cmds.map fun x => if x.id = c.id then c else x }

/-- The location of poison that reading a source consumes. -/
def State.srcPoison (s : State) (c : Cmd) (e : Elem) : Option Nat :=
  match e.src with
  | .dev pa => if s.poisoned pa e.n then some pa else none
  | .dm key => if s.poisoned (dmLoc key) e.n then some (dmLoc key) else none
  | .view va pa =>
    let t := s.load (32 * c.blk + c.wv)
    if t.readsPoison (.view va pa) e.n then some pa else none
  | _ => none

/-- Whether a command waits for another: for an earlier part of the same word (R93, R228), or for a message injected
before its own on the same channel (R89). -/
def State.cmdBehind (s : State) (c : Cmd) : Bool :=
  s.cmds.any fun x => x.els != [] &&
    ((x.word == c.word && decide (x.id < c.id)) ||
      match x.chan, c.chan with
      | some (a, b, q), some (a', b', q') => a == a' && b == b' && decide (q < q')
      | _, _ => false)

/-- Whether more of a command's word is to come: a part of it in flight, or its issue. -/
def State.wordGoesOn (s : State) (c : Cmd) : Bool :=
  (s.cmds.any fun x => x.word == c.word && x.els != []) || (s.wave (32 * c.blk + c.wv)).begun.any fun e => e.2.1 == c.word

/-- The bytes of a source. -/
def State.srcBytes (s : State) (c : Cmd) (e : Elem) : List Byte :=
  match e.src with
  | .data l => l
  | .view va pa => (s.load (32 * c.blk + c.wv)).viewBytes va pa e.n
  | .sc off => Memory.bytes (s.block c.blk).sc off e.n
  | .dm key => Memory.bytes s.dsm key e.n
  | .dev pa => Memory.bytes s.mem pa e.n
  | .host pa => Memory.bytes s.hmem pa e.n

/-- Clear a pending-read bit. -/
def Block.readDone (b : Block) (e : Elem) : Block :=
  match e.src with
  | .sc off => { b with pendR := SMap.set b.pendR 0 (off / 16) (SMap.get b.pendR 0 (off / 16) - 1) }
  | _ => b

/-- Read the source of a command's head element (R71, R91, R92). -/
def State.readSource (s : State) (c : Cmd) (e : Elem) (rest : List Elem) : State :=
  match s.srcPoison c e with
  | some pa => s.poisonBlock c.blk pa
  | none =>
    let e' : Elem := { e with src := .data (s.srcBytes c e) }
    let s := s.updBlock c.blk fun b => b.readDone e
    let r := s.inject { c with els := e' :: rest } (e.leg c.src)
    (r.1.putCmd r.2).post r.2.event

/-- Put landed bytes into a wave's view, and into what a strike on its open region restores. -/
def Wave.landView (w : Wave) (va : Nat) (bs : List Byte) : Wave :=
  { w with
    view := { w.view with bytes := putBytes w.view.bytes va bs }
    region := w.region.map fun r => { r with view := { r.view with bytes := putBytes r.view.bytes va bs } } }

/-- Land bytes at a destination. -/
def State.landBytes (s : State) (c : Cmd) (dst : Dst) (bs : List Byte) : State :=
  match dst with
  | .view va => s.updWave (32 * c.blk + c.wv) fun w => w.landView va bs
  | .sc off => s.updBlock c.blk fun b =>
      { b with sc := Memory.setBytes b.sc off bs, pendW := SMap.set b.pendW 0 (off / 16) (SMap.get b.pendW 0 (off / 16) - 1) }
  | .dm key => s.writeDsm key bs
  | .dev pa => s.writeDev pa bs
  | .host pa => s.writeHost pa bs
  | .reg d lane sz => s.updWave (32 * c.blk + c.wv) fun w =>
      { w.setOpnd d sz.regs lane (extend sz (leNat bs)) with pending := w.pending.erase (d, sz.regs) }

/-- The end of a command: its tag's count falls; what it owes its barrier is counted. -/
def State.endCmd (s : State) (c : Cmd) : State :=
  let s := State.putCmd s { c with els := [], owed := [] }
  let s := s.updBlock c.blk fun b => b.tagDown? c.tag
  let s := match c.bar with
    | some loc => c.owed.foldl (fun (s : State) n => s.land c.blk loc n c.next) s
    | none => s
  ((s.afterWave c.blk).endingDue c.blk).wake

/-- Land a command's head element (R99, R226): its bytes, and the barrier's count; with the last one the tag. With REL
both wait for the release after the last write of its word (R92). -/
def State.landHead (s : State) (c : Cmd) (e : Elem) (bs : List Byte) (rest : List Elem) : State :=
  let s := s.landBytes c e.dst bs
  let r := s.injectHead { c with els := rest, owed := if c.rel then c.owed ++ [e.n] else [] }
  let s := r.1.putCmd r.2
  let s := match c.bar with
    | some loc => if c.rel then s else s.land c.blk loc e.n c.next
    | none => s
  if rest != [] || c.rel then (s.post r.2.event).wake else s.endCmd r.2

/-- What the message of an element costs its engine's die (R363): a request for a live source, or the data for a live
destination. -/
def Elem.readFee (die : Nat) (e : Elem) : Nat :=
  match e.src with
  | .dm key => msgFee die (dmLoc key) 0
  | .dev pa => msgFee die pa 0
  | .host _ => portFee 0
  | _ => 0
def Elem.landFee (die : Nat) (e : Elem) : Nat :=
  match e.dst with
  | .dm key => msgFee die (dmLoc key) e.n
  | .dev pa => msgFee die pa e.n
  | .host _ => portFee e.n
  | _ => 0

/-- An engine's next message, when its channel and its bucket let it go; else the engine pauses. -/
def State.engineGo (s : State) (c : Cmd) (fee : Nat) (k : State → State) : State :=
  let ctx := (s.block c.blk).ctx
  if s.cmdBehind c || !s.canPay ctx c.src fee then s.post c.event else k (s.pay ctx c.src fee)

/-- ENGINE_LAND: an element lands, or the command ends with its release. -/
def execEngineLand (cmd : Nat) (s : State) : Host.Outcome State Fault Refusal :=
  match s.cmd? cmd with
  | some c => match c.els with
    | e :: rest => match e.src with
      | .data bs => .next (s.engineGo c (e.landFee c.src) fun s => s.landHead c e bs rest)
      | _ => .next s
    | [] => .next (if s.wordGoesOn c then s.post c.event else s.endCmd c)
  | none => .next s

/-- ENGINE_SOURCE_READ. -/
def execEngineSourceRead (cmd : Nat) (s : State) : Host.Outcome State Fault Refusal :=
  match s.cmd? cmd with
  | some c => match c.els with
    | e :: rest => match e.src with
      | .data _ => .next s
      | _ => .next (s.engineGo c (e.readFee c.src) fun s => s.readSource c e rest)
    | [] => .next s
  | none => .next s

/-! ### Copy tags (R229) -/

/-- The mask that a tag instruction names, of the block's tags. -/
def State.tagMask (s : State) (a : Opnd) (imm : BitVec 16) : W64 :=
  (s.opnd64 a 0 ||| imm.setWidth 64) &&& BitVec.ofNat 64 (2 ^ s.b.al.tags - 1)

def execTagwait (f : F) (any : Bool) (imm : BitVec 16) (s : State) : Host.Outcome State Fault Refusal :=
  word (.tagwait f any imm) s fun act s =>
    let m := s.tagMask f.a imm
    .moved (s.park s.run [⟨.tag, lowLane act, 0, 0, m, if any && m != 0 then 1 else 0, .zero, act, [], false, false, [], s.pc⟩] false)

/-- The index of the lowest set bit below n, or 64. -/
def lowBit (x : W64) : Nat := ((List.range 64).find? fun k => x.getLsbD k).getD 64

def execTagffr (f : F) (s : State) : Host.Outcome State Fault Refusal :=
  simple (.tagffr f) s fun _ =>
    let m : W64 := if f.a = .zero then BitVec.allOnes 64 else s.opnd64 f.a 0
    s.setOpnd f.d 1 0 (lowBit (s.b.tagready &&& m))

def execTagclr (f : F) (imm : BitVec 16) (s : State) : Host.Outcome State Fault Refusal :=
  simple (.tagclr f imm) s fun _ =>
    let m := s.tagMask f.a imm
    let idle := (List.range 64).foldl (fun x t => if SMap.get s.b.inflight 0 t = 0 then x ||| BitVec.ofNat 64 (2 ^ t) else x) (0 : W64)
    s.setB { s.b with tagready := s.b.tagready &&& ~~~(m &&& idle) }

end Machine
end Sys2Proof
end

