-- ==== Sys2Proof/Machine/Sync.lean ====
section
/-! DEFINITION. G9: barriers, flags, locks, queues, wait-for entries, fences and sweeps (R96 to R113, R232 to R236), and
`aord` and `afree` of G8 (R80, R94, R121, R231). -/

namespace Sys2Proof
open Machine
namespace Machine

/-! ### Objects named by an operand -/

/-- The address of an object: a VA, or a 32-bit `dm:` offset. -/
def State.objAddr (s : State) (dm : Bool) (a : Opnd) (l : Nat) : W64 :=
  if dm then (s.opnd32 a l).setWidth 64 else s.opnd64 a l

/-- The space of an object. -/
def objSp (dm : Bool) : Sp := if dm then .dm else .g

/-- Steps 2 to 4 of R217 for the line of an object; the alignment of its address is the object's own rule (R96, R103). -/
def State.objChk (s : State) (dm : Bool) (a : W64) : Chk :=
  s.check .obj (objSp dm) (BitVec.ofNat 64 (a.toNat / 64 * 64)) 64 true

/-- The location of an object whose line passed. -/
def State.objLoc (s : State) (dm : Bool) (a : W64) : Nat := (s.objChk dm a).place.loc + a.toNat % 64

/-- The trap of an object's lane (R233). -/
def objTrap (dm : Bool) (l : Nat) (a : W64) : Trap := .of 5 (accInfo 0 true (objSp dm) l) a

/-- The lines of a word's objects as live accesses. -/
def State.objLines (s : State) (dm : Bool) (ls : List Nat) (addr : Nat → W64) : List Place := ls.map fun l => (s.objChk dm (addr l)).place

/-- What a word on object lines waits for: its lanes' acquires (R85), the wave's own requests on those lines (R79), and the
messages before its own on the channels to their homes (R89). -/
def State.objWaits (s : State) (lanes : List Nat) (ps : List Place) : Bool :=
  let locs := ps.map Place.loc
  s.acqBusy locs lanes || locs.any (fun x => s.liveBusy locs x 64) || locs.any (s.chanBusy s.homeOf.1)

/-- The state in which a word on object lines takes effect: its messages paid for (R363), its block marked (R63). -/
def State.objGo (s : State) (dm : Bool) (ps : List Place) : State :=
  let s := s.pay s.b.ctx s.homeOf.1 (s.fee 64 ps)
  if dm || ps == [] then s else s.setB { s.b with live := true }

/-- The checks of object lines, each with the lane that names it; a form that reads them consumes the poison of a line (R401), an
initialising form does not; what follows sees every line present. -/
def State.objAll (s : State) (dm reads : Bool) (act : Mask) (as : List (Nat × W64)) (k : State → Res) : Res :=
  match firstFail (as.map fun a => (a.1, a.2, s.objChk dm a.2)) with
  | some c => s.failAccess (objSp dm) true c
  | none =>
    let ps := as.map fun a => (s.objChk dm a.2).place
    if s.objWaits (lanesOf act) ps || !s.canPay s.b.ctx s.homeOf.1 (s.fee 64 ps) then .stall s
    else match (if reads then s.poisonPa (ps.map fun p => (0, 0, p)) 64 else none) with
    | some pa => .poison s pa
    | none => k (s.objGo dm ps)

/-- Whether an earlier live access of the lanes is still to be performed: a release waits for it (R85). The wave's
commands with REL, its lanes' `aord`, `afree` and releases of free locks; not those of the rounds that the release itself
closes (log 86). -/
def State.releaseBusy (s : State) (bars lanes : List Nat) : Bool :=
  s.cmds.any (fun c => c.rel && c.blk == s.w.blk && c.wv == s.w.idx) ||
  (s.ownReqs bars).any fun q => lanes.contains q.lane && !(q.lock && q.op == .swap)

/-- The lines of a word's objects, one per lane given. -/
def State.objThen (s : State) (dm reads : Bool) (act : Mask) (ls : List Nat) (addr : Nat → W64) (k : State → Res) : Res :=
  s.objAll dm reads act (ls.map fun l => (l, addr l)) k

/-! ### Lane-level operations (R233) -/

/-- What the operation of one lane does: performed, with a result; a wait not yet satisfied; a failure. -/
inductive LaneOp where
  | did (s : State) (res : List W32)
  | wait (r : WaitR)
  | fail
  deriving DecidableEq, Repr

/-- The lanes of a word in ascending order: the state, the waits with their results, the lowest failing lane. -/
def laneOps (f : State → Nat → LaneOp) (mk : Nat → WaitR) : List Nat → State → State × List WaitR × Option Nat
  | [], s => (s, [], none)
  | l :: ls, s => match f s l with
    | .did t res =>
      let r := laneOps f mk ls t
      (r.1, { mk l with done := true, res := res } :: r.2.1, r.2.2)
    | .wait w =>
      let r := laneOps f mk ls s
      (r.1, w :: r.2.1, r.2.2)
    | .fail =>
      let r := laneOps f mk ls s
      (r.1, r.2.1, some l)

/-- The end of a word of lane-level waits: it parks, or the failing lane's trap follows what was performed. -/
def State.endLanes (r : State × List WaitR × Option Nat) (act : Mask) (parks : Bool) (trap : Nat → Trap) : Res :=
  match r.2.2 with
  | some l => .trap (((r.2.1.filter fun w => w.done).foldl State.writeRes r.1).wake) (trap l)
  | none => if parks then .moved ((r.1.park act r.2.1 false).wake) else .done r.1.wake

/-- An open wait of the word that is issued. -/
def State.waitOf (s : State) (kind : WaitKind) (lane loc : Nat) (va arg : W64) (aux : Nat) (dst : Opnd) (mask : Mask) (pay : List W32) : WaitR :=
  ⟨kind, lane, loc, va, arg, aux, dst, mask, pay, false, false, [], s.pc⟩

/-- Try a wait at its issue. -/
def State.tryNow (s : State) (r : WaitR) : LaneOp :=
  let q := s.tryWait s.w.key r
  if q.2.done then .did q.1 q.2.res else .wait r

/-! ### Barriers (R98 to R102, R234) -/

/-- The location of a barrier operand: `zero` names the block barrier. -/
def State.barLoc (s : State) (dm : Bool) (a : Opnd) : Nat :=
  if a = .zero then blkLoc else s.objLoc dm (s.objAddr dm a 0)
def State.barVa (s : State) (dm : Bool) (a : Opnd) : W64 := if a = .zero then 0 else s.objAddr dm a 0

/-- Whether a line is an initialised barrier at its own address. -/
def State.isBar (s : State) (loc : Nat) : Bool := loc == blkLoc || (loc % 64 == 0 && s.loc loc 1 == 1)

/-- The outstanding arrival of the wave at a barrier. -/
def State.arrivalAt (s : State) (loc : Nat) : Option Arr := s.w.arrivals.find? fun a => a.loc == loc

/-- The participant index of an arrival (R102). -/
def State.partOf (s : State) (a b : Opnd) : W32 := if a = .zero then BitVec.ofNat 32 s.w.idx else s.opnd32 b 0

/-- Whether Arrive traps (R99). -/
def State.arriveBad (s : State) (loc : Nat) (p : W32) : Bool :=
  !s.isBar loc || (loc != blkLoc && decide ((s.bar s.w.blk loc).npart ≤ p.toNat)) || (s.arrivalAt loc).isSome ||
  decide (4 ≤ s.w.arrivals.length)

/-- What an arrival waits for before it is performed: engines in the wave's view (R91), and releases (R85). -/
def State.arriveWaits (s : State) (loc : Nat) (act : Mask) : Bool := (loc == blkLoc && s.viewBusy) || s.releaseBusy [loc] (lanesOf act)

/-- The frame of the barrier words: the line's check or the lanes' acquires (R85), the pin window (R222), then the
operation. -/
def State.barThen (s : State) (dm reads : Bool) (act : Mask) (a : Opnd) (k : State → Nat → W64 → Res) : Res :=
  let go (t : State) : Res := let u := t.setW t.w.closeWindow; (k u (u.barLoc dm a) (u.barVa dm a)).waitsIn s
  if a = .zero then (if s.acqBusy [blkLoc] (lanesOf act) then .stall s else go s) else s.objThen dm reads act [lowLane act] (fun _ => s.objAddr dm a 0) go

def execBarv (f : F) (dm : Bool) (scope : Scope) (s : State) : Host.Outcome State Fault Refusal :=
  word (.barv f dm scope) s fun act s =>
    s.barThen dm true act f.a fun s loc va =>
      let p := s.partOf f.a f.b
      if s.arriveBad loc p then .trap s (objTrap dm (lowLane act) va)
      else if s.arriveWaits loc act then .stall s
      else .done (s.arrive s.w.key loc va p (s.opnd64 f.c 0) s.pc s.run act).wake

/-- The requests at the order gate of a line are looked at again. -/
def State.regate (s : State) (loc : Nat) : State :=
  s.gate.foldl (fun s q => if q.loc / 64 = loc / 64 then s.postOnce (.gateAdmit q.id) else s) s

/-- Write an initialised line; waits across it are tried against the new state, at its order gate too (R97). -/
def State.initLine (s : State) (loc : Nat) (bs : List Byte) : State := ((s.setLocBytes loc bs).regate loc).wake

/-- Whether a participant count is in range. -/
def npartOk (n : Nat) : Bool := 1 ≤ n && n ≤ 0xFFFFFFFE

def execBarvInit (f : F) (dm : Bool) (scope : Scope) (s : State) : Host.Outcome State Fault Refusal :=
  word (.barvInit f dm scope) s fun act s =>
    s.barThen dm false act f.a fun s loc va =>
      let n := s.opnd f.b 1 0
      if loc = blkLoc || loc % 64 ≠ 0 || !npartOk n then .trap s (objTrap dm (lowLane act) va)
      else .done (s.initLine loc ({ Bar.zero with npart := n }).line)

/-- The wait on an outstanding arrival: it leaves the set, and the run parks (R100). -/
def State.waitArrival (s : State) (a : Arr) (dst : Opnd) (act : Mask) : State :=
  let s := s.setW { s.w with arrivals := s.w.arrivals.filter fun x => x.loc != a.loc }
  let r := s.waitOf .bar (lowLane act) a.loc a.va a.phase a.p.toNat dst act []
  let r := match a.closed with
    | some high => { r with done := true, res := [if a.p = high then 1 else 0] }
    | none => r
  s.park act [r] true

def execBarw (f : F) (dm : Bool) (scope : Scope) (s : State) : Host.Outcome State Fault Refusal :=
  word (.barw f dm scope) s fun act s =>
    s.barThen dm true act f.a fun s loc va =>
      let p := s.partOf f.a f.b
      match (s.arrivalAt loc).filter fun a => a.again && s.isBar loc with
      | some a => .moved (s.waitArrival a f.d act)
      | none =>
        if s.arriveBad loc p then .trap s (objTrap dm (lowLane act) va)
        else if s.arriveWaits loc act then .stall s
        else
          let t := s.arrive s.w.key loc va p (s.opnd64 f.c 0) s.pc s.run act
          match t.arrivalAt loc with
          | some a => .moved (t.waitArrival a f.d act).wake
          | none => .done t

def execBarwWait (f : F) (dm : Bool) (scope : Scope) (s : State) : Host.Outcome State Fault Refusal :=
  word (.barwWait f dm scope) s fun act s =>
    s.barThen dm true act f.a fun s loc va =>
      match (s.arrivalAt loc).filter fun _ => s.isBar loc with
      | some a => .moved (s.waitArrival a f.d act)
      | none => .trap s (objTrap dm (lowLane act) va)

/-! ### Flags (R103, R104) -/

/-- Whether a location is a flag of an initialised line. -/
def State.isFlag (s : State) (loc : Nat) : Bool := loc % 64 != 0 && loc % 8 == 0 && s.loc (loc / 64 * 64) 1 == 2

/-- The post of one lane. -/
def State.postFlag (s : State) (loc : Nat) (x : Nat) : LaneOp :=
  if s.isFlag loc then .did (s.setLoc loc 8 (max (s.loc loc 8) x)) [] else .fail

def execFpost (f : F) (dm : Bool) (scope : Scope) (s : State) : Host.Outcome State Fault Refusal :=
  word (.fpost f dm scope) s fun act s =>
    s.objThen dm true act (lanesOf act) (s.objAddr dm f.a) fun t =>
      if t.releaseBusy [] (lanesOf act) then .stall s
      else
        let r := laneOps (fun u l => u.postFlag (s.objLoc dm (s.objAddr dm f.a l)) (s.opnd f.b 2 l))
          (fun l => s.waitOf .flag l 0 0 0 0 .zero act []) (lanesOf act) t
        State.endLanes r act false fun l => objTrap dm l (s.objAddr dm f.a l)

def execFpostInit (f : F) (dm : Bool) (scope : Scope) (s : State) : Host.Outcome State Fault Refusal :=
  word (.fpostInit f dm scope) s fun act s =>
    s.objThen dm false act (lanesOf act) (s.objAddr dm f.a) fun t =>
      let r := laneOps (fun u l =>
          let loc := s.objLoc dm (s.objAddr dm f.a l)
          if loc % 64 = 0 then .did ((u.setLocBytes loc (leBytes 64 2)).regate loc) [] else .fail)
        (fun l => s.waitOf .flag l 0 0 0 0 .zero act []) (lanesOf act) t
      State.endLanes r act false fun l => objTrap dm l (s.objAddr dm f.a l)

def execFwait (f : F) (dm : Bool) (scope : Scope) (s : State) : Host.Outcome State Fault Refusal :=
  word (.fwait f dm scope) s fun act s =>
    s.objThen dm true act (lanesOf act) (s.objAddr dm f.a) fun t =>
      let mk (l : Nat) : WaitR :=
        s.waitOf .flag l (s.objLoc dm (s.objAddr dm f.a l)) (s.objAddr dm f.a l) (s.opnd64 f.b l) 0 .zero (laneBit l) []
      let r := laneOps (fun u l => if u.isFlag (mk l).loc then u.tryNow (mk l) else .fail) mk (lanesOf act) t
      State.endLanes r act true fun l => objTrap dm l (s.objAddr dm f.a l)

/-! ### Ordered locks (R105 to R107) -/

/-- Whether a line is an ordered lock for which an index is in range. -/
def State.isLock (s : State) (loc p : Nat) : Bool := loc % 64 == 0 && s.loc loc 1 == 3 && decide (p < s.loc (loc + 4) 4)
/-- Whether a line is a free lock, in a context that may use it (R110). -/
def State.isFree (s : State) (loc : Nat) : Bool := loc % 64 == 0 && s.loc loc 1 == 5 && s.recorded s.b.ctx

/-- The frame of the lock words. -/
def State.lockThen (s : State) (dm reads : Bool) (act : Mask) (a : Opnd) (k : State → Nat → W64 → Res) : Res :=
  s.objThen dm reads act [lowLane act] (fun _ => s.objAddr dm a 0) fun t =>
    (k t (s.objLoc dm (s.objAddr dm a 0)) (s.objAddr dm a 0)).waitsIn s

def execOlacq (f : F) (dm : Bool) (scope : Scope) (s : State) : Host.Outcome State Fault Refusal :=
  word (.olacq f dm scope) s fun act s =>
    s.lockThen dm true act f.a fun s loc va =>
      let p := s.opnd f.b 1 0
      if !s.isLock loc p then .trap s (objTrap dm (lowLane act) va)
      else
        let q := s.tryWait s.w.key (s.waitOf .acq (lowLane act) loc va 0 p f.d act [])
        .moved (q.1.park act [q.2] false).wake

def execOlrel (f : F) (dm : Bool) (scope : Scope) (s : State) : Host.Outcome State Fault Refusal :=
  word (.olrel f dm scope) s fun act s =>
    s.lockThen dm true act f.a fun s loc va =>
      let p := s.opnd f.b 1 0
      let ok := s.isLock loc p && s.loc (loc + 1) 1 % 2 == 1 && s.loc (loc + 0x10) 4 == p && s.w.grants.contains (loc, false)
      if !ok then .trap s (objTrap dm (lowLane act) va)
      else if s.releaseBusy [] (lanesOf act) then .stall s
      else .done ((s.ungrant s.w.key loc false).lockRelease loc false).wake

def execOlrelPass (f : F) (dm : Bool) (scope : Scope) (s : State) : Host.Outcome State Fault Refusal :=
  word (.olrelPass f dm scope) s fun act s =>
    s.lockThen dm true act f.a fun s loc va =>
      let p := s.opnd f.b 1 0
      if !s.isLock loc p then .trap s (objTrap dm (lowLane act) va)
      else if s.releaseBusy [] (lanesOf act) then .stall s
      else match s.tryNow (s.waitOf .pass (lowLane act) loc va 0 p .zero act []) with
        | .did t _ => .done t.wake
        | .wait r => .moved (s.park act [r] false)
        | .fail => .done s

def execOlrelInit (f : F) (dm : Bool) (scope : Scope) (free : Bool) (s : State) : Host.Outcome State Fault Refusal :=
  word (.olrelInit f dm scope free) s fun act s =>
    s.lockThen dm false act f.a fun s loc va =>
      let n := s.opnd f.b 1 0
      if loc % 64 ≠ 0 || (if free then !s.recorded s.b.ctx else !npartOk n) then .trap s (objTrap dm (lowLane act) va)
      else if free then .done (s.initLine loc (leBytes 64 5))
      else .done (s.initLine loc (leBytes 1 3 ++ leBytes 3 0 ++ leBytes 4 n ++ leBytes 56 0))

/-- A request of a word to an order gate (R122). -/
def State.sendGate (s : State) (word lane loc : Nat) (va : W64) (op : AOp) (dt : DT) (b c : W64) (dst : Opnd) (acq lock : Bool) : State :=
  let f := s.fresh
  let q : Req :=
    { id := f.1, src := s.homeOf.1, word := word, ctx := s.b.ctx, blk := s.w.blk, wv := s.w.idx, lane := lane,
      index := idKey s.b.gid [s.w.idx, lane], ident := identField s.b s.w.idx, bar := 0, round := 0, bva := none, loc := loc, va := va,
      op := op, dt := dt, b := b, c := c, dst := dst, fmode := s.w.sp.fmode, held := false, spilled := false, far := false,
      acq := acq, lock := lock }
  State.post { f.2 with gate := f.2.gate ++ [q] } (.gateAdmit f.1)

def execOlacqFree (f : F) (dm : Bool) (scope : Scope) (s : State) : Host.Outcome State Fault Refusal :=
  word (.olacqFree f dm scope) s fun act s =>
    s.lockThen dm true act f.a fun s loc va =>
      if !s.isFree loc then .trap s (objTrap dm (lowLane act) va)
      else .moved ((s.sendGate 0 (lowLane act) loc va .swap .n64 0 0 .zero true true).park act
        [s.waitOf .free (lowLane act) loc va 0 s.fresh.1 f.d act []] false)

def execOlrelFree (f : F) (dm : Bool) (scope : Scope) (s : State) : Host.Outcome State Fault Refusal :=
  word (.olrelFree f dm scope) s fun act s =>
    s.lockThen dm true act f.a fun s loc va =>
      if !(s.isFree loc && s.w.grants.contains (loc, true)) then .trap s (objTrap dm (lowLane act) va)
      else if s.releaseBusy [] (lanesOf act) then .stall s
      else .done ((s.setW { s.w with grants := s.w.grants.erase (loc, true) }).sendGate 0 (lowLane act) loc va .store .n64 0 0 .zero false true)

/-! ### Queues (R108, R109) -/

/-- Whether a line is a queue header. -/
def State.isQueue (s : State) (loc : Nat) : Bool := loc % 64 == 0 && s.loc loc 1 == 4

/-- The VA or `dm:` offset of the slot of a sequence number. -/
def State.slotAddr (s : State) (loc n : Nat) : W64 :=
  BitVec.ofNat 64 (s.loc (loc + 8) 8 + n % 2 ^ s.loc (loc + 2) 1 * 2 ^ s.loc (loc + 1) 1)

/-- The registers that a payload of a queue occupies. -/
def State.payRegs (s : State) (loc : Nat) : Nat := if s.loc (loc + 1) 1 = 6 then 14 else 2

/-- The first lane whose payload exceeds the wave's registers (R233). -/
def State.payBad (s : State) (ls : List Nat) (loc : Nat → Nat) (o : Opnd) : Bool :=
  ls.any fun l => s.isQueue (loc l) && !s.inBounds o (s.payRegs (loc l)) 2

/-- A push or a pop of one lane. -/
def State.queueOp (s : State) (release : Bool) (r : WaitR) : LaneOp :=
  if !s.isQueue r.loc then .fail
  else
    let sl := s.queueSlot s.b.ctx (s.dmBase s.w.blk) r.loc r.arg.toNat
    let chk := if release then pushChk (s.loc sl.1 8) r.arg.toNat else popChk (s.loc sl.1 8) r.arg.toNat
    if chk = .bad then .fail else s.tryNow r

/-- The frame of `qpush` and `qpop`: headers, payload bounds, slots; then each lane. -/
def State.queueThen (s : State) (dm : Bool) (act : Mask) (a n pay : Opnd) (release : Bool) (mk : Nat → WaitR) : Res :=
  let loc (l : Nat) : Nat := s.objLoc dm (s.objAddr dm a l)
  s.objThen dm true act (lanesOf act) (s.objAddr dm a) fun t =>
    if t.payBad (lanesOf act) loc pay then .trap t (.of 2 pay.info t.pc)
    else if (lanesOf act).any fun l => (pay.covers s.w (s.payRegs (loc l))).any fun r => r ∈ s.pendingRegs then
      .stall s.heldBack
    else
      let qs := (lanesOf act).filter fun l => t.isQueue (loc l)
      t.objThen dm true act qs (fun l => t.slotAddr (loc l) (t.opnd64 n l).toNat) fun t =>
        if release && t.releaseBusy [] (lanesOf act) then .stall s
        else
          State.endLanes (laneOps (fun u l => u.queueOp release (mk l)) mk (lanesOf act) t) act true fun l => objTrap dm l (s.objAddr dm a l)

/-- The payload of a lane. -/
def State.payload (s : State) (o : Opnd) (n l : Nat) : List W32 := bytesRegs n (s.opnd o n l)

def execQpush (f : F) (dm : Bool) (scope : Scope) (s : State) : Host.Outcome State Fault Refusal :=
  word (.qpush f dm scope) s fun act s =>
    s.queueThen dm act f.a f.b f.c true fun l =>
      let loc := s.objLoc dm (s.objAddr dm f.a l)
      s.waitOf .push l loc (s.objAddr dm f.a l) (s.opnd64 f.b l) 0 .zero (laneBit l) (s.payload f.c (s.payRegs loc) l)

def execQpop (f : F) (dm : Bool) (scope : Scope) (s : State) : Host.Outcome State Fault Refusal :=
  word (.qpop f dm scope) s fun act s =>
    s.queueThen dm act f.a f.b f.d false fun l =>
      let loc := s.objLoc dm (s.objAddr dm f.a l)
      s.waitOf .pop l loc (s.objAddr dm f.a l) (s.opnd64 f.b l) 0 (f.d.fixed s.w) (laneBit l) (List.replicate (s.payRegs loc) 0)

/-- Write the TAG of every slot of a new queue (R108). -/
def State.initSlots (s : State) (home loc : Nat) (n : Nat) : State :=
  (List.range n).foldl (fun s k => s.setLoc (s.queueSlot s.b.ctx home loc k).1 8 k) s

/-- Initialise the header of one lane's queue with its slots; a misaligned header fails in its lane. -/
def State.initQueue (s : State) (loc slog nlog : Nat) (base : W64) : LaneOp :=
  if loc % 64 ≠ 0 then .fail
  else
    let line := leBytes 1 4 ++ leBytes 1 slog ++ leBytes 1 nlog ++ leBytes 5 0 ++ leBytes 8 base.toNat ++ leBytes 48 0
    .did (((s.setLocBytes loc line).initSlots (s.dmBase s.w.blk) loc (2 ^ nlog)).regate loc) []

/-- A SHAPE and a BASE that R108 allows. -/
def shapeOk (slog nlog : Nat) (base : W64) : Bool := (slog == 4 || slog == 6) && decide (nlog ≤ 16) && base.toNat % 2 ^ slog == 0

def execQpushInit (f : F) (dm : Bool) (scope : Scope) (s : State) : Host.Outcome State Fault Refusal :=
  word (.qpushInit f dm scope) s fun act s =>
    let shape := s.opnd f.c 1 0
    let slog := shape % 256
    let nlog := shape / 256 % 256
    let base := s.opnd64 f.b 0
    let loc (l : Nat) : Nat := s.objLoc dm (s.objAddr dm f.a l)
    let trap (l : Nat) : Trap := objTrap dm l (s.objAddr dm f.a l)
    s.objThen dm false act (lanesOf act) (s.objAddr dm f.a) fun t =>
      if !shapeOk slog nlog base then .trap t (trap (lowLane act))
      else
        let slots := match (lanesOf act).find? fun l => loc l % 64 == 0 with
          | some l => (List.range (2 ^ nlog)).map fun k => (l, base + BitVec.ofNat 64 (k * 2 ^ slog))
          | none => []
        t.objAll dm false act slots fun t =>
          State.endLanes (laneOps (fun u l => u.initQueue (loc l) slog nlog base) (fun l => s.waitOf .flag l 0 0 0 0 .zero act [])
            (lanesOf act) t) act false trap

/-! ### Wait-for entries (R111, R235) -/

/-- The physical line that `wreg` and `wunreg` name, with its KIND: neither accesses it. -/
def State.lineChk (s : State) (dm : Bool) (a : W64) : Chk × BitVec 4 :=
  let line : W64 := BitVec.ofNat 64 (a.toNat / 64 * 64)
  if dm then
    let c := s.check .obj .dm line 64 true
    (c, s.kindAt c.place.loc)
  else if 2 ^ 56 ≤ a.toNat then (.bad 2 5, 0)
  else if s.migrating s.b.ctx a.toNat then (.stall, 0)
  else match s.walk s.b.ctx line.toNat with
  | .missing => (.miss, 0)
  | .malformed => (.bad 3 0x12, 0)
  | .leaf l => (.ok (.sluice (l.paOf line.toNat)), if l.cls == .sluice then s.kindAt (l.paOf line.toNat) else 0)

/-- The frame of `wreg` and `wunreg`. -/
def State.lineThen (s : State) (dm : Bool) (a : Opnd) (act : Mask) (k : Nat → W64 → BitVec 4 → Res) : Res :=
  let va := s.objAddr dm a 0
  match s.lineChk dm va with
  | (.ok p, kind) => k p.loc (BitVec.ofNat 64 (va.toNat / 64 * 64)) kind
  | (c, _) => s.failAccess (objSp dm) true (lowLane act, va, c)

def execWreg (f : F) (dm hold : Bool) (sub : BitVec 3) (s : State) : Host.Outcome State Fault Refusal :=
  word (.wreg f dm hold sub) s fun act s =>
    s.lineThen dm f.a act fun loc va kind =>
      .done (s.addEnt ⟨s.homeOf.1, hold, 1, kind, s.w.idx, s.w.blk, lineOf 0 loc, sub.toNat, s.opnd32 f.b 0, va⟩).1

def execWunreg (f : F) (dm hold : Bool) (sub : BitVec 3) (s : State) : Host.Outcome State Fault Refusal :=
  word (.wunreg f dm hold sub) s fun act s =>
    let mine (e : WaitEnt) : Bool := e.orig == 1 && e.blk == s.w.blk && e.wv == s.w.idx
    if f.a = .zero then .done (s.dropEnts mine)
    else s.lineThen dm f.a act fun loc _ _ =>
      .done (s.dropEnts fun e => mine e && e.hold == hold && e.line == lineOf 0 loc && e.sub == sub.toNat)

/-! ### `yield`, `fence`, `sweep` (R85, R90, R236) -/

def execYield (f : F) (s : State) : Host.Outcome State Fault Refusal :=
  word (.yield f) s fun _ s => .done (s.setW { s.w.closeWindow with yielded := true })

def execFence (f : F) (scope : Scope) (s : State) : Host.Outcome State Fault Refusal :=
  word (.fence f scope) s fun act s => if s.releaseBusy [] (lanesOf act) then .stall s else .done s

def execSweep (f : F) (scope : Scope) (s : State) : Host.Outcome State Fault Refusal :=
  word (.sweep f scope) s fun _ s =>
    let mine (p : Probe) : Bool := p.blk == s.w.blk && p.wv == s.w.idx && p.word == s.pc && p.depth == s.w.frames.length
    match s.probes.find? mine with
    | some p => if p.returned then .done { s with probes := s.probes.filter fun q => !mine q } else .stall s
    | none =>
      let r := s.fresh
      let far := scope == .pkg || scope == .sys
      .stall (State.post { r.2 with probes := r.2.probes ++ [⟨r.1, s.homeOf.1, far, s.w.blk, s.w.idx, s.pc, s.w.frames.length, false⟩] } (.sweepProbeReturn r.1))


/-- SWEEP_PROBE_RETURN. -/
def execSweepProbeReturn (id : Nat) (s : State) : Host.Outcome State Fault Refusal :=
  match s.probes.find? fun p => p.id == id with
  | some p =>
    if s.dieQuiet p.die p.far id then .next { s with probes := s.probes.map fun q => if q.id = id then { q with returned := true } else q }
    else .next (s.post (.sweepProbeReturn id))
  | none => .next s

/-! ### `aord` and `afree` (R80 to R82, R231) -/

/-- The round barrier that an `aord` names fails its rules. -/
def State.roundBad (s : State) (dm : Bool) (c : Opnd) : Bool :=
  let loc := s.objLoc dm (s.objAddr dm c 0)
  loc % 64 != 0 || s.loc loc 1 != 1

/-- What a request of an ordered round or an order gate waits for: its lanes' acquires and the wave's requests on the same
bytes, but those of its own round (R79, R85); with REL what a release waits for. -/
def State.reqWaits (s : State) (bars : List Nat) (rel : Bool) (n : Nat) (lanes : List Nat) (ps : List (Nat × W64 × Place)) : Bool :=
  s.acqBusy bars lanes || ps.any (fun p => s.liveBusy bars p.2.2.loc n) || (rel && s.releaseBusy bars lanes)

/-- The request of one lane of `aord`: it joins its round (R80, R81), and its destination becomes pending. -/
def State.sendRound (s before : State) (f : F) (op : AOp) (dt : DT) (acq : Bool) (bar : Nat) (bva : Option Nat) (l : Nat) (va : W64) (p : Place) : State :=
  let round : W64 := match s.arrivalAt bar with
    | some a => a.phase + 1
    | none => (s.bar s.w.blk bar).phase
  let n := (s.reqs.filter fun q => q.blk == s.w.blk && q.wv == s.w.idx && q.lane == l && q.bar == bar && q.round == round).length
  let r := s.fresh
  let mask : W64 := BitVec.ofNat 64 (before.dtOpnd dt f.b l)
  let dst := f.d.fixed s.w
  let q : Req :=
    { id := r.1, src := s.homeOf.1, word := before.ids, ctx := s.b.ctx, blk := s.w.blk, wv := s.w.idx, lane := l,
      index := idKey s.b.gid [s.w.idx, l, n], ident := identField s.b s.w.idx, bar := bar, round := round, bva := bva, loc := p.loc,
      va := va, op := op, dt := dt, b := mask, c := 0, dst := if op = .store then .zero else dst, fmode := s.w.sp.fmode,
      held := false, spilled := false, far := false, acq := acq, lock := false }
  let t := State.post { r.2 with reqs := r.2.reqs ++ [q] } (.roundRequestArrive r.1)
  if q.dst = .zero then t else t.setW { t.w with pending := t.w.pending ++ [(dst, dt.regs)] }

def execAord (f : F) (op : AOp) (dt : DT) (dm acq rel : Bool) (scope : Scope) (s : State) : Host.Outcome State Fault Refusal :=
  word (.aord f op dt dm acq rel scope) s fun act s =>
    s.accessAll (lanesOf act) .obj (objSp dm) dt.bytes true true false (s.laneAddr (objSp dm) f.a 0) fun t ps =>
      t.objThen dm true act [lowLane act] (fun _ => s.objAddr dm f.c 0) fun t =>
        let bar := s.objLoc dm (s.objAddr dm f.c 0)
        if t.roundBad dm f.c then .trap s (objTrap dm (lowLane act) (s.objAddr dm f.c 0))
        else if s.reqWaits [bar] rel dt.bytes (lanesOf act) ps then .stall s
        else if ps.any fun p => s.spillFull p.2.2.loc then .stall { s with w := { s.w with stall := some 4 } }
        else .done (ps.foldl (fun u p => u.sendRound s f op dt acq bar (if dm then none else some (s.objAddr dm f.c 0).toNat) p.1 p.2.1 p.2.2) t.fresh.2)

/-- The request of one lane of `afree`. -/
def State.sendFree (s before : State) (f : F) (op : AOp) (dt : DT) (acq : Bool) (l : Nat) (va : W64) (p : Place) : State :=
  let dst := if op = .store then .zero else f.d.fixed s.w
  let b : W64 := BitVec.ofNat 64 (before.dtOpnd dt f.b l)
  let c : W64 := BitVec.ofNat 64 (before.dtOpnd dt f.c l)
  let t := s.sendGate before.ids l p.loc va op dt b c dst acq false
  if dst = .zero then t else t.setW { t.w with pending := t.w.pending ++ [(dst, dt.regs)] }

def execAfree (f : F) (op : AOp) (dt : DT) (dm acq rel : Bool) (scope : Scope) (s : State) : Host.Outcome State Fault Refusal :=
  word (.afree f op dt dm acq rel scope) s fun act s =>
    s.accessAll (lanesOf act) (if s.recorded s.b.ctx then .obj else .shut) (objSp dm) dt.bytes true true false (s.laneAddr (objSp dm) f.a 0) fun t ps =>
      if s.reqWaits [] rel dt.bytes (lanesOf act) ps then .stall s
      else .done (ps.foldl (fun u p => u.sendFree s f op dt acq p.1 p.2.1 p.2.2) t.fresh.2)

end Machine
end Sys2Proof
end

