-- ==== Sys2Proof/Machine/Packets.lean ====
section
/-! DEFINITION. Launch packets and fork descriptors (Tables 10 and 105): their fields, their checks that need no other
packet (Table 106 codes 1, 2 and 5, R44), the range of an allocation (R29), and the record of a new group. -/

namespace Sys2Proof.Machine

/-! ### Allocations (R29) -/

/-- An allocation within the ranges of Tables 10 and 105. -/
def Alloc.inRange (a : Alloc) : Bool :=
  let five (n : Nat) : Bool := n == 0 || n == 4 || n == 8 || n == 12 || n == 16
  1 ≤ a.waves && a.waves ≤ 32 && 8 ≤ a.vregs && a.vregs ≤ 256 && a.vregs % 8 == 0 && five a.dregs && five a.acct &&
  (a.sht == 0 || a.sht == 4) && a.scratch ≤ 524288 && a.tags ≤ 64

/-- Resources of Table 8: wave slots, vector units of 1 KiB, distribution units of 8 KiB, accumulator KiB, tags. -/
structure Res8 where
  waves : Nat
  vec : Nat
  dist : Nat
  acc : Nat
  tags : Nat
  deriving DecidableEq, Repr

/-- What a block occupies. -/
def Alloc.res (a : Alloc) : Res8 :=
  ⟨a.waves, a.waves * (a.vregs / 8), a.waves * (a.dregs / 4), a.waves * (4 * a.acct + a.sht), a.tags⟩

def Res8.add (x y : Res8) : Res8 := ⟨x.waves + y.waves, x.vec + y.vec, x.dist + y.dist, x.acc + y.acc, x.tags + y.tags⟩

/-- Whether resources fit a core. -/
def Res8.fits (x : Res8) : Bool :=
  x.waves ≤ Config.waveSlots && x.vec ≤ Config.vUnits && x.dist ≤ Config.dUnits && x.acc ≤ Config.accKib && x.tags ≤ Config.tags

/-- Whether a block fits an empty core. -/
def Alloc.fitsEmpty (a : Alloc) : Bool := a.res.fits && a.scratch ≤ 524288

/-! ### Packets -/

/-- A field of n bytes at an offset. -/
def fieldAt (bs : List Byte) (o n : Nat) : Nat := leNat ((bs.drop o).take n)

/-- A launch packet (Table 105). -/
structure Packet where
  ty : Nat
  entry : Nat
  nblock : Nat
  al : Alloc
  inhFirst : Nat
  inhCount : Nat
  stage : Nat
  flags : Nat
  dsm : Nat
  fmode : Nat
  prio : Nat
  job : Nat
  phase : Nat
  graph : Nat
  launch : Nat
  progress : Nat
  args : Nat
  cva : Nat
  npred : Nat
  chain : Nat
  zero : Nat
  preds : List Nat
  qin : Nat
  deriving DecidableEq, Repr

/-- Read a packet. -/
def Packet.of (bs : List Byte) : Packet :=
  let f := fieldAt bs
  { ty := f 7 1, entry := f 0 7, nblock := f 8 4
    al := ⟨f 0x0C 1, f 0x10 2, f 0x0D 1, f 0x0E 1, f 0x0F 1, f 0x18 4, f 0x4C 1⟩
    inhFirst := f 0x12 2, inhCount := f 0x14 2, stage := f 0x16 1, flags := f 0x17 1, dsm := f 0x1C 4, fmode := f 0x20 4
    prio := f 0x24 4, job := f 0x28 4, phase := f 0x2C 4, graph := f 0x30 2, launch := f 0x32 2, progress := f 0x34 4
    args := f 0x38 8, cva := f 0x40 8, npred := f 0x48 2, chain := f 0x4A 2, zero := f 0x4D 3 + f 0x78 8
    preds := (List.range 16).map fun k => f (0x50 + 2 * k) 2, qin := f 0x70 8 }

/-- The flag of a bit of FLAGS: 0 IDEM, 1 REC, 2 REPLAY, 3 GEND, 4 PEND, 5 JEND. -/
def Packet.flag (p : Packet) (n : Nat) : Bool := p.flags / 2 ^ n % 2 == 1

/-- The predecessors that NPRED counts. -/
def Packet.predList (p : Packet) : List Nat := p.preds.take p.npred

/-- FMODE with no reserved bit and no reserved RM (R135). -/
def fmodeOk (x : Nat) : Bool := x % 8 ≤ 4 && x / 8 % 2 == 0 && x / 4096 == 0

/-- Code 1 for a launch packet. -/
def Packet.launchBad (p : Packet) : Bool :=
  p.entry % 8 ≠ 0 || p.nblock == 0 || !p.al.inRange || (decide (15 < p.stage) && p.stage ≠ 0xFF) || decide (64 ≤ p.flags) ||
  !fmodeOk p.fmode || decide (255 < p.graph) || decide (4095 < p.launch) || decide (16 < p.npred) || p.zero ≠ 0 ||
  (p.preds.drop p.npred).any (· ≠ 0) || (p.stage == 0xFF && p.qin ≠ 0)

/-- Code 1 for a copy packet. -/
def Packet.copyBad (p : Packet) : Bool :=
  p.entry % 64 ≠ 0 || p.nblock ≠ 0 || p.al ≠ ⟨0, 0, 0, 0, 0, 0, 0⟩ || p.inhFirst ≠ 0 || p.inhCount ≠ 0 || p.stage ≠ 0xFF ||
  p.flags % 8 ≠ 0 || decide (64 ≤ p.flags) || p.dsm ≠ 0 || p.fmode ≠ 0 || p.prio ≠ 0 || p.progress ≠ 0 || p.args ≠ 0 ||
  p.chain ≠ 0xFFFF || p.zero ≠ 0 || p.qin ≠ 0 || decide (255 < p.graph) || decide (4095 < p.launch) || decide (16 < p.npred) ||
  (p.preds.drop p.npred).any (· ≠ 0)

/-- Code 1: what a packet's own fields show. -/
def Packet.code1 (p : Packet) : Bool :=
  (if p.ty = 1 then p.launchBad else if p.ty = 2 then p.copyBad else true) ||
  (p.flag 2 && !p.flag 1) || (p.flag 4 && !p.flag 3) || (p.flag 5 && !p.flag 4)

/-- Code 2. -/
def Packet.code2 (p : Packet) : Bool := p.ty == 1 && !p.al.fitsEmpty

/-- Code 3, but for what the predecessor decides. -/
def Packet.code3 (p : Packet) : Bool :=
  p.ty == 1 && (p.inhFirst % 8 ≠ 0 || p.inhCount % 8 ≠ 0 || decide (256 < p.inhCount) ||
    (p.inhCount ≠ 0 && decide (p.al.vregs < p.inhFirst + p.inhCount)) ||
    (p.inhCount ≠ 0 && p.chain == 0xFFFF) || (p.inhCount == 0 && p.chain ≠ 0xFFFF))

/-- Code 5 (R75, R290). -/
def State.code5 (s : State) (p : Packet) : Bool :=
  decide ((if s.xpEn then Config.mooringOff else Config.spillOff) < p.dsm)

/-! ### Dies and allocations of a context -/

/-- The sockets of a context's core dies in this package, ascending. -/
def State.diesOf (s : State) (c : Nat) : List Nat := (List.range Config.dies).filter fun d => s.diemask c / 2 ^ d % 2 == 1

/-- D, the dies of the job. -/
def State.jobDies (s : State) (c : Nat) : Nat := s.npkg c * (s.diesOf c).length

/-- The die shared memory that a launch's declared bytes take: a multiple of 8 KiB (R75, R76). -/
def dsmUnit (n : Nat) : Nat := (n + 8191) / 8192 * 8192

/-! ### Groups -/

/-- A group before its fields are filled. -/
def Grp.blank : Grp :=
  { kind := .host, copy := false, ctx := 0, st := .pending, pblk := 0, pwv := 0, slot := 0, gid := [], nmem := 0, al := .zero,
    entry := 0, args := 0, desc := 0, fmode := 0, prio := 0, idem := false, stage := 0xFF, qin := 0, dsm := 0, dsmOff := 0,
    progress := 0, inhFirst := 0, inhCount := 0, job := 0, phase := 0, graph := 0, launch := 0, gend := false, pend := false,
    jend := false, cva := 0, preds := [], chain := none, pbix := 0, pnblk := 0, home := 0, start := [], vis := [], next := [],
    made := [], lost := [], ended := 0, members := [], images := [], places := [], result := [], parts := [], state := 0, done := 0, confl := none,
    code := 0, cancelled := false, failed := false, quota := 0, charge := 0, reserved := 0, ranges := [], execs := 0,
    outcome := none }

/-- What a packet gives a group. -/
def Packet.grp (p : Packet) (c : Nat) : Grp :=
  { Grp.blank with
    ctx := c, copy := p.ty == 2
    nmem := if p.ty = 2 then 1 else p.nblock
    al := if p.ty = 2 then ⟨1, 8, 0, 0, 0, 0, 0⟩ else p.al
    entry := BitVec.ofNat 64 p.entry, args := BitVec.ofNat 64 p.args, fmode := BitVec.ofNat 32 p.fmode
    prio := BitVec.ofNat 32 p.prio, idem := p.flag 0, stage := p.stage, qin := BitVec.ofNat 64 p.qin
    dsm := p.dsm, progress := p.progress, inhFirst := p.inhFirst, inhCount := p.inhCount
    job := BitVec.ofNat 32 p.job, phase := BitVec.ofNat 32 p.phase, graph := BitVec.ofNat 32 p.graph
    launch := BitVec.ofNat 32 p.launch, gend := p.flag 3, pend := p.flag 4, jend := p.flag 5, cva := BitVec.ofNat 64 p.cva
    preds := p.predList, chain := if p.chain = 0xFFFF then none else p.predList[p.chain]? }

/-- Ask every die to place blocks. -/
def State.placeAll (s : State) : State := (List.range Config.dies).foldl (fun s d => s.postOnce (.blockPlace d)) s

/-! ### Blocks of memory that an instruction reads once -/

/-- Read n units of u bytes at a VA as a load does (R217); `whole` says that they are one access, whose VA every failure
reports (R43). A missing page is recorded at the unit that misses it. -/
def State.readUnits (s : State) (va : W64) (n u lane : Nat) (whole : Bool) (k : State → List Byte → Res) : Res :=
  let addr (i : Nat) : W64 := va + BitVec.ofNat 64 (i * u)
  let cs := (List.range n).map fun i => (lane, addr i, s.check .load .g (addr i) u false)
  match firstFail cs with
  | some (l, a, c) =>
    let told : W64 := if whole then va else a
    (match c with
    | .miss => .fault s a 0 (.of 0x12 (accInfo 0 false .g l) told)
    | c => s.failAccess .g false (l, told, c))
  | none =>
    let ps := okPlaces cs
    if ps.any fun p => s.placeWaits p.1 p.2.2 u false then .stall s
    else if !s.canPay s.b.ctx s.homeOf.1 (s.accFee u false ps) then .stall s
    else match s.poisonPa ps u with
    | some pa => .poison s pa
    | none =>
      k ((s.countWindow ps u).accessed u false ps) (ps.flatMap fun p => leBytes u (s.readPlace p.2.2 u))

/-! ### Fork descriptors (Table 10, R44) -/

/-- A fork descriptor. -/
structure Desc where
  entry : Nat
  nchild : Nat
  al : Alloc
  flags : Nat
  args : Nat
  quota : Nat
  zero : Nat
  ranges : List (Nat × Nat)
  deriving DecidableEq, Repr

/-- Read a descriptor; ranges of length 0 are unused. -/
def Desc.of (bs : List Byte) : Desc :=
  let f := fieldAt bs
  { entry := f 0 8, nchild := f 8 4, al := ⟨f 0x0C 2, f 0x0E 2, f 0x14 1, f 0x15 1, f 0x16 1, f 0x10 4, f 0x28 1⟩
    flags := f 0x17 1, args := f 0x18 8, quota := f 0x20 8, zero := f 0x29 7 + f 0x70 16
    ranges := ((List.range 4).map fun k => (f (0x30 + 16 * k) 8, f (0x38 + 16 * k) 8)).filter fun r => r.2 ≠ 0 }

/-- Bytes of the scoped ranges. -/
def Desc.scoped (d : Desc) : Nat := d.ranges.foldl (fun n r => n + r.2) 0

/-- Whether two ranges overlap. -/
def rangesMeet (a b : Nat × Nat) : Bool := decide (a.1 < b.1 + b.2) && decide (b.1 < a.1 + a.2)

/-- The rejections of R44 that the descriptor and the forker decide. `depth` is how many elements follow the forker's
block index. -/
def Desc.bad (d : Desc) (depth : Nat) : Bool :=
  decide (2 ^ 56 ≤ d.entry) || d.nchild == 0 || decide (65536 < d.nchild) || !d.al.inRange || decide (1 < d.flags) ||
  d.quota % 65536 ≠ 0 || d.zero ≠ 0 || !d.al.fitsEmpty || decide (8 ≤ depth) || decide (65536 < d.scoped) ||
  d.ranges.any (fun r => r.1 % 64 ≠ 0 || r.2 % 64 ≠ 0) ||
  (d.ranges.zipIdx.any fun a => d.ranges.zipIdx.any fun b => decide (a.2 < b.2) && rangesMeet a.1 b.1)

/-- The lines of the scoped ranges, as VAs. -/
def Desc.lines (d : Desc) : List Nat := d.ranges.flatMap fun r => (List.range (r.2 / 64)).map fun k => r.1 + 64 * k

end Sys2Proof.Machine
end

