-- ==== Sys2Proof/Machine/Views.lean ====
section
/-! DEFINITION. G10: forks and joins (R42 to R64, R238), `vstat` (R239), device launches, cancels and counters (R240 to
R243, R354), `migrate` (R244). -/

namespace Sys2Proof
open Machine
namespace Machine

/-! ### `fork` (R42 to R44, R55, R60, R238) -/

/-- The packages but this one, by rank, on which members of a fork or a launch run (R357). -/
def State.otherRanks (s : State) (n : Nat) : List Nat :=
  let m := (s.diesOf s.b.ctx).length
  let d := s.jobDies s.b.ctx
  (List.range (s.npkg s.b.ctx)).filter fun r =>
    r != s.prank s.b.ctx && (decide (d ≤ n) || (List.range n).any fun k => k * d / n / m == r)

/-- Whether a message to a package that runs members has no port to leave by (R364). -/
def State.unrouted (s : State) (n : Nat) : Bool :=
  decide (1 < s.npkg s.b.ctx) && (s.otherRanks n).any fun r => s.noRoute (s.packageOf s.b.ctx r)

/-- Hang a group on the forking wave: its fork, or the outcome its `join` finds. The fork it joined last goes. -/
def State.hangFork (s : State) (g : Grp) : State :=
  let old (e : Nat × Grp) : Bool := e.2.kind == .fork && e.2.pblk == s.w.blk && e.2.pwv == s.w.idx && e.2.st == .ended && s.w.fork != some e.1
  let s := { s with grps := s.grps.filter fun e => !old e }
  let r := s.fresh
  let s := { r.2 with grps := SMap.insert r.2.grps r.1 g }
  s.setW { s.w with fork := some r.1, st := if g.outcome.isSome then s.w.st else .forked }

/-- A fork that creates no children, with the outcome of its `join`. -/
def State.hangDead (s : State) (va : W64) (code : Nat) (pool : Bool) : State :=
  s.hangFork { Grp.blank with kind := .fork, ctx := s.b.ctx, st := .ended, pblk := s.w.blk, pwv := s.w.idx, desc := va, state := 3,
                              outcome := some (code, pool) }

/-- The snapshot of the scoped ranges, line by line (R55). -/
def State.snapshot (s : State) (d : Desc) : List (Nat × List Byte) :=
  d.lines.filterMap fun va => match s.walk s.b.ctx va with
    | .leaf l => some (l.paOf va, Memory.bytes s.mem (l.paOf va) 64)
    | _ => none

/-- The group of an accepted fork. -/
def State.forkGrp (s : State) (d : Desc) (va : W64) : Grp :=
  { Grp.blank with
    kind := .fork, ctx := s.b.ctx, st := .running, pblk := s.w.blk, pwv := s.w.idx, gid := s.b.gid, nmem := d.nchild, al := d.al
    entry := BitVec.ofNat 64 d.entry, args := BitVec.ofNat 64 d.args, desc := va, fmode := s.w.sp.fmode, prio := s.b.ownPrio
    idem := d.flags == 1, job := s.b.job, phase := s.b.phase, graph := s.b.graph, launch := s.b.launch
    pbix := s.b.bix, pnblk := s.b.nblk, home := s.b.home, start := s.flatView, vis := s.flatParts, quota := d.quota
    dsm := s.dsmOf.1, dsmOff := s.dsmOf.2 - dsmKey s.b.home 0
    charge := d.scoped, reserved := d.quota, ranges := s.snapshot d }

/-- Create the children: reserve the quota (R60) or draw the charge of the ranges (R58, R61), then ask for placement. -/
def State.startFork (s before : State) (d : Desc) (va : W64) : Res :=
  if d.quota ≠ 0 then
    if s.poolLeft < d.quota then .done (s.hangDead va 1 true)
    else if d.quota < d.scoped then .done (s.hangDead va 1 false)
    else .done ({ s with pool := s.pool + d.quota }.hangFork (s.forkGrp d va)).placeAll
  else if s.poolLeft < d.scoped then
    let t := before.makeRoom d.scoped before.forksDescending
    .stall (if t = before then { before with w := { before.w with stall := some 3 } } else t)
  else .done ({ s with pool := s.pool + d.scoped }.hangFork (s.forkGrp d va)).placeAll

/-- Whether the word after a `fork` is its `join` (R238). -/
def State.joinFollows (s : State) : Bool :=
  match s.instrAt (s.pc + 8) with
  | some (.join f) => f.g == .always
  | _ => false

/-- The scoped ranges' pages: a translation that is missing, or whether one is no sluice page. -/
def State.rangePages (s : State) (d : Desc) : Option Nat × Bool :=
  let ts := d.lines.map fun va => (va, if 2 ^ 56 ≤ va then Tr.malformed else s.walk s.b.ctx va)
  ((ts.find? fun t => t.2 == .missing).map Prod.fst,
   ts.any fun t => match t.2 with
     | .leaf l => l.cls != .sluice
     | .missing => false
     | .malformed => true)

/-- What a `fork` waits for: engines in the wave's view (R91), and the wave's earlier operations on sluice memory (R55). -/
def State.forkWaits (s : State) : Bool :=
  s.viewBusy || (s.ownReqs []).any (fun q => !isDm q.loc && !(q.lock && q.op == .swap)) ||
  s.cmds.any fun c => c.blk == s.w.blk && c.wv == s.w.idx && (c.bar.any fun loc => loc != blkLoc && !isDm loc)

def execFork (f : F) (s : State) : Host.Outcome State Fault Refusal :=
  word (.fork f) s fun act s =>
    let lane := lowLane act
    let va := s.opnd64 f.a lane
    match s.fetch (s.pc + 8) with
    | .miss => .fault s (s.pc + 8) 2 (.of 0x12 (BitVec.ofNat 64 lane) (s.pc + 8))
    | .stall => .stall s
    | .bad _ | .word _ | .poison _ =>
      if !s.joinFollows then .trap s (.of 1 (encode (.fork f)) s.pc)
      else if va.toNat % 64 ≠ 0 then .trap s (.of 4 (accInfo 0 false .g lane) va)
      else s.readUnits va 2 64 lane true fun t bs =>
        let d := Desc.of bs
        if s.forkWaits then .stall s
        else if d.bad (s.b.gid.length - 5) then .done (t.hangDead va 2 false)
        else
          let pg := s.rangePages d
          match pg.1 with
          | some x => .fault s (BitVec.ofNat 64 x) 1 (.of 0x12 (accInfo 0 true .g lane) (BitVec.ofNat 64 x))
          | none =>
            if pg.2 then .done (t.hangDead va 2 false)
            else if s.unrouted d.nchild then .trap s (.of 0x12 (accInfo 0 false .g lane) s.pc)
            else t.startFork s d va

/-! ### `join` (R48 to R51, R57 to R59, R64) -/

/-- The status word of Table 12. -/
def joinWord (charge code : Nat) (pool : Bool) : W32 :=
  BitVec.ofNat 32 ((charge + 65535) / 65536 % 2 ^ 24 * 256 + (if pool then 16 else 0) + code)

/-- The fold of a fork that completed into the forker's view: its charges pass to that view (R58). Its counter keeps STATE
11 after a conflict (R51). -/
def State.foldFork (s : State) (id : Nat) (g : Grp) : State × Option Conflict :=
  let f := s.foldMembers g.ctx g.members
  let parts := g.members.foldl (fun p m => combineParts p m.parts) []
  let view := s.w.view.receive s.b.vis f.bytes parts
  let s := s.freePool g.held
  let s := s.setW { s.w with view := { view with charge := view.charge + g.charge } }
  let g : Grp := { g with outcome := some (if f.record.isSome then 5 else 0, false), state := if f.record.isSome then 3 else 1,
                          confl := f.record, members := [], ranges := [], charge := 0 }
  ({ s with grps := SMap.insert s.grps id g }, f.record)

/-- A block barrier that only the joined fork kept open may close now (R41). -/
def State.afterJoin (s : State) : State :=
  if s.w.arrivals.any fun a => a.loc == blkLoc then s.postOnce (.instanceEnd .block s.w.blk) else s

/-- The effect of `join`: the fold or the outcome, and the status word; the conflict, if one was noted. -/
def State.joinFork (s : State) (f : F) (id : Nat) (g : Grp) : State × Option Conflict :=
  match g.outcome with
  | some (code, pool) =>
    let s := { s with grps := SMap.erase s.grps id }
    ((s.setW { s.w with fork := none }).afterJoin.setOpnd f.d 1 0 (joinWord g.charge code pool).toNat, none)
  | none =>
    let r := s.foldFork id g
    let s := (r.1.setW { r.1.w with fork := none }).afterJoin
    (s.setOpnd f.d 1 0 (joinWord g.charge (if r.2.isSome then 5 else 0) false).toNat, r.2)

def execJoin (f : F) (s : State) : Host.Outcome State Fault Refusal :=
  word (.join f) s fun _ s =>
    match s.w.fork.bind fun id => (SMap.find? s.grps id).map fun g => (id, g) with
    | none => .done s
    | some (id, g) =>
      if g.st ≠ .ended || s.viewBusy then .stall s
      else
        let r := s.joinFork f id g
        match r.2 with
        | some c => .trap r.1 (.of 6 c.info c.addr)
        | none => .done r.1

/-! ### `vstat` (R239) -/

/-- The value that `vstat` writes. -/
def State.vstat (s : State) (sel : VSel) : Nat :=
  match sel with
  | .used => (s.w.view.charge + 65535) / 65536
  | .quota => match s.ownFork s.w.blk with
    | some id => (match SMap.find? s.grps id with | some g => g.quota / 65536 | none => 0)
    | none => 0
  | .free => min (s.poolLeft / 2 ^ 20) (2 ^ 32 - 1)
  | .size => s.poolGib

def execVstat (f : F) (sel : VSel) (s : State) : Host.Outcome State Fault Refusal :=
  simple (.vstat f sel) s fun _ => s.setOpnd f.d 1 0 (s.vstat sel)

/-! ### `launch` (R241, R354) -/

/-- The rejection code of a packet that a wave launches. -/
def State.launchCode (s : State) (p : Packet) : Nat :=
  let depth := s.b.gid.length - 5
  if p.code1 || p.job ≠ 0 || p.phase ≠ 0 || p.graph ≠ 0 || p.launch ≠ 0 || p.npred ≠ 0 || p.preds.any (· ≠ 0) || p.chain ≠ 0xFFFF ||
    p.flags / 4 ≠ 0 || decide (65536 < p.nblock) || p.cva % 64 ≠ 0 || decide (7 ≤ depth) then 1
  else if p.code2 then 2
  else if p.code3 then 3
  else if s.code5 p then 5
  else if p.flag 1 != s.recorded s.b.ctx then 7
  else 0

/-- The lowest launch slot that no outstanding launch of the wave holds. -/
def Wave.freeSlot (w : Wave) : Option Nat := (List.range Config.launchSlots).find? fun k => !SMap.has w.slots k

/-- The handle of a launch in a slot (Table 68). -/
def launchHandle (k : Nat) : W64 := BitVec.ofNat 64 (2 * 2 ^ 61 + k)

/-- The group of a device launch, accepted or rejected. -/
def State.deviceGrp (s : State) (p : Packet) (k code : Nat) : Grp :=
  { p.grp s.b.ctx with
    kind := .device, pblk := s.w.blk, pwv := s.w.idx, slot := k, gid := s.b.gid ++ [65536 + 2048 * s.w.idx + k]
    job := s.b.job, phase := s.b.phase, graph := s.b.graph, launch := BitVec.ofNat 32 k, gend := false, pend := false, jend := false
    preds := [], chain := none, start := s.flatView, vis := s.flatParts, code := code
    st := if code = 0 then .pending else .ended, state := if code = 0 then 0 else 3 }

/-- Write the record of a rejected device launch where CVA names a wharf page. -/
def State.rejectRecord (s : State) (g : Grp) : State := if g.cva.toNat % 64 = 0 then s.writeRecord g else s

def execLaunch (f : F) (s : State) : Host.Outcome State Fault Refusal :=
  word (.launch f) s fun act s =>
    s.readUnits (s.opnd64 f.a 0) 16 8 (lowLane act) false fun t bs =>
      let p := Packet.of bs
      let t := t.setB { t.b with live := true }
      if s.viewBusy then .stall s
      else match s.w.freeSlot with
      | none => .done ((t.rejectRecord { s.deviceGrp p 0 1 with st := .ended, state := 3 }).setOpnd f.d 2 0 (Config.freeWord (s.opnd64 f.a 0)).toNat)
      | some k =>
        let code := s.launchCode p
        let g := s.deviceGrp p k code
        if code = 0 && s.unrouted g.nmem then .trap s (.of 0x12 (accInfo 0 false .g (lowLane act)) s.pc) else
        let r := t.fresh
        let t := { r.2 with grps := SMap.insert r.2.grps r.1 g }
        let t := t.setW { t.w with slots := SMap.insert t.w.slots k r.1, read := SMap.erase t.w.read k }
        let t := t.setOpnd f.d 2 0 (launchHandle k).toNat
        .done (if code = 0 then t.post (.launchStart r.1) else t.rejectRecord g)

/-! ### Handles (R240) -/

/-- What a handle names: a launch slot of the wave, or the instance of a level that contains it. -/
inductive Named where
  | slot (k : Nat)
  | self (lvl : Nat)
  deriving DecidableEq, Repr

/-- The instance that a handle names in the wave that issues. -/
def State.named (s : State) (h : W64) : Option Named :=
  let lvl := fld h 61 3
  let k := fld h 0 32
  if fld h 32 28 ≠ 0 then none
  else if fld h 60 1 = 1 then (if k = 0 && 1 ≤ lvl && lvl ≤ 5 then some (.self lvl) else none)
  else if lvl = 2 && (SMap.has s.w.slots k || SMap.has s.w.read k) then some (.slot k) else none

/-- The trap of a handle that names nothing, or no launch to wait for: %trapaddr holds the word's address (R185). -/
def handleTrap (pc : W64) (lane : Nat) : Trap := .of 5 (accInfo 0 false .g lane) pc

/-- The counter word of an instance that runs, as one that contains the wave does: STATE and DONE are written in one
update, after the instance's fold (R15). -/
def openWord : W64 := counterWord 0 0

/-! ### `cancel` (R18, R64, R242) -/

/-- Cancel a named instance: 1 when the wave has read it, else 0. -/
def State.cancelNamed (s : State) (n : Named) : State × Nat :=
  match n with
  | .slot k => match SMap.find? s.w.slots k with
    | some id => (s.cancelGrp cancelFuel id, 0)
    | none => (s, 1)
  | .self lvl =>
    if lvl = 1 then (s.cancelOne s.w.blk, 0)
    else if lvl = 2 then (s.cancelGrp cancelFuel s.b.grp, 0)
    else (s.cancelLevel s.b.ctx lvl s.b.job.toNat s.b.phase.toNat s.b.graph.toNat, 0)

/-- Whether a cancel must reach members on a package to which no route leads (R364). -/
def State.cancelUnrouted (s : State) (n : Named) : Bool :=
  let of (id : Nat) : Bool := match SMap.find? s.grps id with
    | some g => s.unrouted g.nmem
    | none => false
  match n with
  | .slot k => (SMap.find? s.w.slots k).any of
  | .self lvl => if lvl = 1 then false else if lvl = 2 then of s.b.grp else s.unrouted (s.jobDies s.b.ctx)

def execCancel (f : F) (s : State) : Host.Outcome State Fault Refusal :=
  word (.cancel f) s fun act s =>
    let h := s.opnd64 f.a 0
    match s.named h with
    | none => .trap s (handleTrap s.pc (lowLane act))
    | some n =>
      if s.cancelUnrouted n then .trap s (.of 0x12 (accInfo 0 false .g (lowLane act)) s.pc)
      else
        let r := (s.setB { s.b with live := true }).cancelNamed n
        .done (r.1.setOpnd f.d 1 0 r.2)

/-! ### `lcount` (R17, R242) -/

/-- Read the counter of the launch in a slot: the completing read folds it once it has ended (R15, R242). -/
def State.readCount (s : State) (k id : Nat) : State × W64 × Option Conflict :=
  match SMap.find? s.w.slots k, SMap.find? s.grps id with
  | some x, some g =>
    if x ≠ id then (s, SMap.get s.w.read 0 k, none)
    else if g.st ≠ .ended then (s, openWord, none)
    else
      let r := (s.freePool g.held).foldLaunch id
      let s := { r.1 with grps := SMap.erase r.1.grps id }
      (s.setW { s.w with slots := SMap.erase s.w.slots k, read := SMap.insert s.w.read k g.word }, g.word, r.2)
  | _, _ => (s, SMap.get s.w.read 0 k, none)

/-- Write a counter word. -/
def State.putCount (s : State) (d : Opnd) (w : W64) : State := s.setOpnd d 2 0 w.toNat

def execLcount (f : F) (nowait : Bool) (s : State) : Host.Outcome State Fault Refusal :=
  word (.lcount f nowait) s fun act s =>
    let h := s.opnd64 f.a 0
    let now := nowait && s.recorded s.b.ctx
    match s.named h with
    | none => .trap s (handleTrap s.pc (lowLane act))
    | some (.self _) => if now then .done (s.putCount f.d openWord) else .trap s (handleTrap s.pc (lowLane act))
    | some (.slot k) =>
      let id := SMap.get s.w.slots 0 k
      if now then
        if s.viewBusy then .stall s
        else
          let r := s.readCount k id
          match r.2.2 with
          | some c => .trap (r.1.putCount f.d r.2.1) (.of 6 c.info c.addr)
          | none => .done (r.1.putCount f.d r.2.1)
      else .moved (s.park s.run [s.waitOf .count 0 id 0 0 k f.d act []] false)

/-! ### `migrate` (R244) -/

/-- The wave slots of a core that are in use. -/
def State.slotsUsed (s : State) (die core : Nat) : List Nat :=
  (s.handles_.flatMap fun h => let b := s.block h; if b.st == .resident && b.die == die && b.core == core then b.slots else []) ++
  s.waveKeys.filterMap fun k => match (s.wave k).place with
    | some p => if p.1 = die && p.2.1 = core then some p.2.2 else none
    | none => none

/-- The lowest free slot of a core, and of a die. -/
def State.freeOn (s : State) (die core : Nat) : Option Nat :=
  (List.range Config.waveSlots).find? fun n => !(s.slotsUsed die core).contains n
def State.landing (s : State) (die : Nat) : Option (Nat × Nat × Nat) :=
  (List.range Config.cores).findSome? fun c => (s.freeOn die c).map fun n => (die, c, n)

/-- Move the wave to a landing slot; its wait-for entries go with it. -/
def State.moveWave (s : State) (p : Nat × Nat × Nat) : State :=
  let w := s.w.closeWindow
  let mine (e : WaitEnt) : Bool := e.blk == w.blk && e.wv == w.idx
  { s with w := { w with place := some p }, wft := s.wft.map fun e => if mine e then { e with die := p.1 } else e }

/-- The wave goes to the die that homes a device line. -/
def State.migrateTo (s : State) (pa : Nat) : Res :=
  let die := Config.homeDie (pa / 64) % Config.dies
  if s.homeOf.1 = die then .done (s.setW s.w.closeWindow)
  else match s.landing die with
  | some p => .done (s.moveWave p)
  | none => .stall s

def execMigrate (f : F) (s : State) : Host.Outcome State Fault Refusal :=
  word (.migrate f) s fun act s =>
    let lane := lowLane act
    let va := s.opnd64 f.a 0
    if s.w.frames ≠ [] then .trap s (.of 5 (accInfo 0 false .g lane) s.pc)
    else if 2 ^ 56 ≤ va.toNat then .trap s (.of 5 (accInfo 0 false .g lane) va)
    else if s.migrating s.b.ctx va.toNat then .stall s
    else match s.walk s.b.ctx va.toNat with
    | .missing => .fault s va 0 (.of 0x12 (accInfo 0 false .g lane) va)
    | .malformed => .trap s (.of 0x12 (accInfo 0 false .g lane) va)
    | .leaf l =>
      if l.host then .trap s (.of 5 (accInfo 0 false .g lane) va)
      else if s.viewBusy then .stall s
      else s.migrateTo (l.paOf va.toNat)

end Machine
end Sys2Proof
end

