-- ==== Sys2Proof/Machine/System.lean ====
section
/-! DEFINITION. G15 but for `cachectl`: software traps and breakpoints (R245), the return from a trap (R246, R379), special
registers (R171, R247), the opening of a region (R248). -/

namespace Sys2Proof
open Machine
namespace Machine

def execTrap (f : F) (imm : BitVec 16) (s : State) : Host.Outcome State Fault Refusal :=
  word (.trap f imm) s fun _ s => .trap s (.of 0x0D (imm.setWidth 64) s.pc)

def execBrk (f : F) (imm : BitVec 16) (s : State) : Host.Outcome State Fault Refusal :=
  word (.brk f imm) s fun _ s => .trap s (.of 0x0E (imm.setWidth 64) s.pc)

def execTret (f : F) (s : State) : Host.Outcome State Fault Refusal :=
  word (.tret f) s fun _ s =>
    match s.w.frames with
    | [] => .trap s (.of 1 (encode (.tret f)) s.pc)
    | fr :: fs => .gone (s.returnTrap fr fs)

/-- Registers of a special register's value. -/
def srRegs (o : Opnd) : Nat := o.srRegs

def execRsr (f : F) (s : State) : Host.Outcome State Fault Refusal :=
  simple (.rsr f) s fun act => s.eachLane act f.d (srRegs f.a) fun l => s.opnd f.a (srRegs f.a) l

/-- Write a special register held per wave; reserved bits read 0 (R8). -/
def Spec.write (p : Spec) (r : SReg) (x : W32) : Spec :=
  match r with
  | .fmode => { p with fmode := x &&& 0xFF7 }
  | .fflags => { p with fflags := x &&& 0x7F }
  | .cprog => { p with cprog := x }
  | .mrow => { p with mrow := x }
  | .wbase => { p with wbase := x }
  | _ => p

/-- Write %rngctr of the active lanes. -/
def State.writeRng (s : State) (act : Mask) (a : Opnd) : State :=
  s.setW { s.w with sp := { s.w.sp with rng := (lanesOf act).foldl (fun t l => SMap.set t 0 l (s.opnd64 a l)) s.w.sp.rng } }

def execWsr (f : F) (s : State) : Host.Outcome State Fault Refusal :=
  word (.wsr f) s fun act s =>
    let x := s.opnd32 f.a (lowLane act)
    match f.d with
    | .sr .rngctr => .done (s.writeRng act f.a)
    | .sr .fmode => if 5 ≤ x.toNat % 8 then .trap s (.of 1 (encode (.wsr f)) s.pc)
        else .done (s.setW { s.w with sp := s.w.sp.write .fmode x })
    | .sr r => .done (s.setW { s.w with sp := s.w.sp.write r x })
    | _ => .done s

/-- Open a region at the word after the one that is issued (R248). -/
def State.openRegion (s : State) : State :=
  let w := s.w
  let after := (w.goTo s.run (s.pc + 8)).retire w.table s.run s.pc
  let r : Region :=
    { entry := s.pc + 8, pc := after.pc, age := after.age, exited := w.exited, fflags := w.sp.fflags, rng := w.sp.rng,
      view := w.view, held := .empty, undo := [], stores := w.stores, crc := w.crc, closed := false }
  s.setW { w with region := some r, sp := { w.sp with ientry := w.sp.ientry + 1 }, r := { w.r with lat := [] } }

def execIenter (f : F) (s : State) : Host.Outcome State Fault Refusal :=
  word (.ienter f) s fun _ s => .done s.openRegion

end Machine
end Sys2Proof
end

