-- ==== Sys2Proof/Machine/Matrix.lean ====
section
/-! DEFINITION. G11 and G12: the matrix engine and run-ahead (R250 to R270), with the accumulation rule of R142. -/

namespace Sys2Proof
open Machine

/-- The number of a tile operand. -/
def Opnd.tile : Opnd → Nat
  | .acc t => t.toNat
  | _ => 0

namespace Machine

/-! ### Quarters (R250) -/

/-- The active quarters of a word with their representative lanes, ascending. -/
def State.quarters (s : State) (g : Guard) : List (Nat × Nat) :=
  (List.range 4).filterMap fun q =>
    let m := s.run &&& quarterMask q
    if m = 0 || !(s.w.guard g).getLsbD (lowLane m) then none else some (q, lowLane m)

/-- %mrow.Qq, and %mrow with it replaced (Table 72). -/
def rowsDone (mrow : W32) (q : Nat) : Nat := mrow.toNat / 2 ^ (8 * q) % 256
def setRows (mrow : W32) (q n : Nat) : W32 :=
  BitVec.ofNat 32 (mrow.toNat - rowsDone mrow q * 2 ^ (8 * q) + n % 256 * 2 ^ (8 * q))
/-- Write %mrow. -/
def State.setMrow (s : State) (x : W32) : State := s.setW { s.w with sp := { s.w.sp with mrow := x } }

/-! ### Geometry (R254 to R256) -/

/-- The base depth B of an operand format (Table 70). -/
def baseDepth (m : Fmt) : Nat :=
  let n := m.num
  if n = 0 || n = 30 || n = 31 then 8
  else if n = 1 || n = 29 then 16
  else if n ≤ 4 then 32
  else if n ≤ 9 || n = 15 || n = 16 then 64
  else if 19 ≤ n && n ≤ 22 then 256
  else 128

end Machine
/-- M, N and K of a shape. -/
def Shape.m : Shape → Nat
  | .tall => 16
  | _ => 8
def Shape.n : Shape → Nat
  | .wide => 16
  | _ => 8
def Shape.k (sh : Shape) (m : Fmt) : Nat :=
  match sh with
  | .sq => baseDepth m
  | .wide | .tall => baseDepth m / 2
  | .deep => 2 * baseDepth m
namespace Machine

/-- Bytes of a row of K elements. -/
def rowLen (m : Fmt) (k : Nat) : Nat := if m.bits = 6 then 4 * ((k + 4) / 5) else k * m.bits / 8

end Machine
/-- Bytes of an element of an accumulator, the float format it rounds to, and W (Table 71). -/
def AccF.size : AccF → Nat
  | .f16 | .e8m7 => 2
  | .f32 | .i32 => 4
  | .f64 | .c64 => 8
  | .c128 | .dd => 16
def AccF.fmt : AccF → Fmt
  | .f64 | .c128 => .f64
  | .f32 | .i32 | .c64 => .f32
  | .f16 => .f16
  | .e8m7 => .e8m7
  | .dd => .dd
def AccF.win : AccF → Nat
  | .f64 | .c128 | .dd => 164
  | .f32 | .c64 | .i32 => 80
  | .f16 | .e8m7 => 40
namespace Machine

/-! ### Rows (R258, R259) -/

/-- One row of an operation: quarter, representative lane, number, space, address. -/
structure MRow where
  q : Nat
  lane : Nat
  m : Nat
  sc : Bool
  addr : W64
  deriving DecidableEq, Repr

def MRow.sp (r : MRow) : Sp := if r.sc then .sc else .g

/-- Row r at a base with a stride in units of 16 bytes. -/
def rowAddr (sc : Bool) (base : W64) (str r : Nat) : W64 :=
  let a := base + BitVec.ofNat 64 (r * 16 * str)
  if sc then a &&& 0xFFFFFFFF else a

/-- The base that an operand gives in a lane. -/
def State.matBase (s : State) (sc : Bool) (a : Opnd) (l : Nat) : W64 :=
  if sc then (s.opnd32 a l).setWidth 64 else s.opnd64 a l

/-- A row of n bytes in pieces that lie in one sector each: offset and length. -/
def pieces (n : Nat) : List (Nat × Nat) := (List.range ((n + 15) / 16)).map fun k => (16 * k, min 16 (n - 16 * k))

/-- What the check of a row finds: the state after it, or how the word ends. -/
inductive RowR where
  | ok (s : State)
  | stop (r : Res)
  deriving DecidableEq, Repr

/-- The access kind of a row. -/
def rowAcc (write : Bool) : Acc := if write then .store else .row

/-- Steps 2 to 4 of R217 at every piece of a row, and for `mst` that the page is a view page (R263). -/
def State.rowChks (s : State) (r : MRow) (n : Nat) (write : Bool) : List (Nat × W64 × Chk) :=
  (((pieces n).map (·.1)) ++ [n - 1]).map fun o =>
    let a := r.addr + BitVec.ofNat 64 o
    let c := s.check (rowAcc write) r.sp a 1 write
    (r.lane, a, match c with
      | .ok (.dev _) | .ok (.host _) => .bad 4 5
      | c => c)

/-- The places of the pieces of a row whose checks passed, with their lengths. -/
def State.rowPlaces (s : State) (r : MRow) (n : Nat) (write : Bool) : List (Place × Nat) :=
  (pieces n).filterMap fun o => match s.check (rowAcc write) r.sp (r.addr + BitVec.ofNat 64 o.1) 1 write with
    | .ok p => some (p, o.2)
    | _ => none

/-- %trapinfo of a row. -/
def MRow.info (r : MRow) (write : Bool) : W64 := accInfo r.m write r.sp r.lane

/-- The check of one row (R259). -/
def State.checkRow (s : State) (r : MRow) (n : Nat) (write : Bool) : RowR :=
  if r.addr.toNat % 16 ≠ 0 then .stop (.trap s (.of 4 (r.info write) r.addr))
  else match firstFail (s.rowChks r n write) with
  | some c => .stop (match c.2.2 with
    | .bad _ cause => .trap s (.of cause (r.info write) r.addr)
    | .miss => .fault s c.2.1 (if write then 5 else 4) (.of 0x12 (r.info write) r.addr)
    | _ => .stall s)
  | none =>
    let ps := s.rowPlaces r n write
    if ps.any fun p => s.placeWaits r.lane p.1 p.2 write then .stop (.stall s)
    else match (if write then none else s.poisonPa (ps.map fun p => (0, 0, p.1)) 16) with
    | some pa => .stop (.poison s pa)
    | none =>
      let secs := ps.filterMap fun p => p.1.sector?.map fun sec => (sec, write)
      if secs != [] && s.b.race.isSome then .stop (.done s)
      else match s.raceThen secs .done with
        | .done t => .ok t
        | x => .stop x

/-- A word that stops at a row leaves %mrow there (R258). -/
def Res.withMrow (x : W32) : Res → Res
  | .trap s t => .trap (s.setMrow x) t
  | .fault s va kind t => .fault (s.setMrow x) va kind t
  | r => r

/-- Whether a row is not checked again: it lies below %mrow, and every page of it still passes (R258); a row whose page is
migrating, or has lost its translation, is. -/
def State.rowDone (s : State) (mrow : W32) (r : MRow) (n : Nat) (write : Bool) : Bool :=
  decide (r.m < rowsDone mrow r.q) && (firstFail (s.rowChks r n write)).isNone

/-- The checks of the rows of a word in order; `qs` are its quarters, with `total` rows each. Rows below %mrow have passed before. -/
def State.checkRows (s : State) (qs : List Nat) (n total : Nat) (write : Bool) : List MRow → State → RowR
  | [], t => .ok t
  | r :: rs, t =>
    if t.rowDone s.w.sp.mrow r n write then s.checkRows qs n total write rs t
    else match t.checkRow r n write with
    | .ok u => s.checkRows qs n total write rs u
    | .stop x =>
      let done := qs.foldl (fun w q => if q < r.q then setRows w q total else w) s.w.sp.mrow
      .stop (x.withMrow (setRows done r.q r.m))

/-- The bytes of a row, as a number. -/
def State.readRow (s : State) (r : MRow) (n : Nat) : Nat :=
  leNat ((s.rowPlaces r n false).flatMap fun p => leBytes p.2 (s.readPlace p.1 p.2))

/-- Decode errors of the rows that lie on decode windows (R132). -/
def State.countRows (s : State) (n : Nat) (rs : List MRow) : State :=
  rs.foldl (fun s r => (s.rowPlaces r n false).foldl (fun s p => s.countWindow [(0, 0, p.1)] p.2) s) s

/-! ### Elements of a row (R256) -/

/-- The elements of a row of a real or integer format, and whether a group of it has a decode error. -/
def rowEls (fmode : W32) (m : Fmt) (k x : Nat) : List EV × Bool :=
  if m.tinned then
    let gs := (List.range (k / 8)).map fun j => decodeGroup (x / 2 ^ (32 * j) % 2 ^ 32) m
    (gs.flatMap fun g => g.1.map (TinEl.flushed fmode), gs.any (·.2))
  else if m.bits ≤ 32 then
    let e := perWord m
    ((List.range k).map fun j => elemIn fmode m (elemCode m (x / 2 ^ (32 * (j / e)) % 2 ^ 32) (j % e)), false)
  else ((List.range k).map fun j => elemIn fmode m (x / 2 ^ (m.bits * j) % 2 ^ m.bits), false)

/-- An element as a real value. -/
def EV.real : EV → Val
  | .f v => v
  | .i n => .fin (decide (n < 0)) n.natAbs 0

/-- An element as an integer (R255): a float outlier that is no integer, or NaN, has none. -/
def EV.int? : EV → Option Int
  | .i n => some n
  | .f (.fin n m e) =>
    let sg (k : Nat) : Int := if n then -(k : Int) else k
    if 0 ≤ e then some (sg (m * 2 ^ e.toNat))
    else if m % 2 ^ (-e).toNat = 0 then some (sg (m / 2 ^ (-e).toNat)) else none
  | .f _ => none

/-- The elements of a row of a complex format or DD: real and imaginary part. -/
def rowParts (fmode : W32) (m : Fmt) (k x : Nat) : List (Val × Val) :=
  (List.range k).map fun j =>
    let e := x / 2 ^ (m.bits * j) % 2 ^ m.bits
    if m = .dd then (ddVal fmode e, .fin false 0 0)
    else
      let w := (partFmt m).bits
      (flushIn fmode (partFmt m) (e % 2 ^ w), flushIn fmode (partFmt m) (e / 2 ^ w))

/-! ### The accumulation rule (R142) -/

/-- A product as a term; 0 × ∞ is marked by the Bool. -/
def termOf (x y : Val) : Val × Bool :=
  if x.isNan || y.isNan then (.nan (x.isSig || y.isSig), false)
  else if (x.isZero && y.isInf) || (x.isInf && y.isZero) then (.nan false, true)
  else (mulVal x y, false)

/-- floor(log2 |t|) of a non-zero term. -/
def Val.top : Val → Int
  | .fin _ m e => (Nat.log2 m : Int) + e
  | _ => 0

/-- The window sum of finite terms: S and the sticky bit, at the weight 2^q. -/
def windowSum (q : Int) (ts : List Val) : Int × Bool :=
  ts.foldl (fun a t => match t with
    | .fin n m e =>
      let k := if q ≤ e then m * 2 ^ (e - q).toNat else m / 2 ^ (q - e).toNat
      let cut := decide (e < q) && decide (m % 2 ^ (q - e).toNat ≠ 0)
      (if n then a.1 - k else a.1 + k, a.2 || cut)
    | _ => a) (0, false)

/-- The last step of MatAcc: round to the accumulator's format, or to the canonical pair. -/
def roundAcc (fmode : W32) (m : Fmt) (x : Dy) : Nat × Fl :=
  if m = .dd then pairOf fmode false x else roundFlush fmode m .rn (decide (x.n < 0)) x.n.natAbs x.e false

/-- MatAcc of R142 for the accumulator's value and the terms of its products. -/
def matAcc (fmode : W32) (m : Fmt) (w : Nat) (c : Val) (ps : List (Val × Bool)) : Nat × Fl :=
  let ts := c :: ps.map (·.1)
  let zi := ps.any (·.2)
  let pinf := ts.any fun t => t.isInf && !t.neg?
  let ninf := ts.any fun t => t.isInf && t.neg?
  let comp := if m = .dd then .f64 else m
  if ts.any Val.isNan || (pinf && ninf) then
    (nanBits comp, Fl.when (ts.any Val.isSig || zi || (pinf && ninf)) Fl.nv)
  else if pinf || ninf then (infBits comp ninf, 0)
  else
    let live := ts.filter fun t => !t.isZero
    match live with
    | [] => (zeroBits comp (ts.all fun t => t.neg?), 0)
    | t :: us =>
      let top := us.foldl (fun a u => max a u.top) t.top
      let r := windowSum (top - w) live
      let sticky := Fl.when r.2 Fl.nx
      if r.1 = 0 then (zeroBits comp false, sticky)
      else
        let n := 2 * r.1 + (if r.2 then (if r.1 < 0 then -1 else 1) else 0)
        let x := roundAcc fmode m ⟨n, top - w - 1⟩
        (x.1, x.2 ||| sticky)

/-- An operation of the engine in one quarter: formats, shape, and the bytes of its M rows of A and N rows of B. -/
structure MatOp where
  fmt : Fmt
  acf : AccF
  sh : Shape
  fmode : W32
  a : List Nat
  b : List Nat
  deriving DecidableEq, Repr

/-- One element of an integer accumulator: the exact sum modulo 2^32. -/
def intElem (c : Nat) (x y : List (Option Int)) : Nat × Fl :=
  let ps := x.zip y
  let sum := ps.foldl (fun a p => match p with
    | (some u, some v) => a + u * v
    | _ => a) (c : Int)
  (bitsOf 32 sum, Fl.when (ps.any fun p => p.1.isNone || p.2.isNone) Fl.nv)

/-- One element of a real accumulator. -/
def realElem (o : MatOp) (c : Nat) (x y : List Val) : Nat × Fl :=
  let cv := if o.acf = .dd then ddVal 0 c else decodeF o.acf.fmt c
  matAcc o.fmode o.acf.fmt o.acf.win cv ((x.zip y).map fun p => termOf p.1 p.2)

/-- One element of a complex accumulator: the rule in each part. -/
def complexElem (o : MatOp) (c : Nat) (x y : List (Val × Val)) : Nat × Fl :=
  let m := o.acf.fmt
  let w := m.bits
  let neg (t : Val × Bool) : Val × Bool := (t.1.negate, t.2)
  let ps := x.zip y
  let re := matAcc o.fmode m o.acf.win (decodeF m (c % 2 ^ w))
    ((ps.map fun p => termOf p.1.1 p.2.1) ++ ps.map fun p => neg (termOf p.1.2 p.2.2))
  let im := matAcc o.fmode m o.acf.win (decodeF m (c / 2 ^ w))
    ((ps.map fun p => termOf p.1.1 p.2.2) ++ ps.map fun p => termOf p.1.2 p.2.1)
  (re.1 + im.1 * 2 ^ w, re.2 ||| im.2)

/-- The result of an operation on a tile's bytes, element by element, with its flags (R258). -/
def MatOp.result (o : MatOp) (tile : Nat → Nat) : List Byte × Fl :=
  let k := o.sh.k o.fmt
  let idx := (List.range o.sh.m).flatMap fun i => (List.range o.sh.n).map fun j => (i, j)
  let out : List (Nat × Fl) :=
    if o.acf = .c64 || o.acf = .c128 || o.acf = .dd then
      let a := o.a.map (rowParts o.fmode o.fmt k)
      let b := o.b.map (rowParts o.fmode o.fmt k)
      idx.map fun e =>
        let c := tile (e.1 * o.sh.n + e.2)
        let x := a.getD e.1 []
        let y := b.getD e.2 []
        if o.acf = .dd then realElem o c (x.map (·.1)) (y.map (·.1)) else complexElem o c x y
    else
      let a := o.a.map (rowEls o.fmode o.fmt k)
      let b := o.b.map (rowEls o.fmode o.fmt k)
      let de := Fl.when ((a ++ b).any (·.2)) Fl.de
      idx.map fun e =>
        let c := tile (e.1 * o.sh.n + e.2)
        let x := (a.getD e.1 ([], false)).1
        let y := (b.getD e.2 ([], false)).1
        let r := if o.acf = .i32 then intElem c (x.map EV.int?) (y.map EV.int?) else realElem o c (x.map EV.real) (y.map EV.real)
        (r.1, r.2 ||| de)
  (out.flatMap fun r => leBytes o.acf.size r.1, out.foldl (fun f r => f ||| r.2) 0)

/-! ### Tiles (R252, R253, R268) -/

/-- The key of byte 0 of a tile of a quarter. -/
def tileKey (q t : Nat) : Nat := (16 * q + t) * 1024
/-- Element k of a tile. -/
def Wave.tileElem (w : Wave) (q t size k : Nat) : Nat := Memory.num w.r.acc (tileKey q t + size * k) size

/-- Codes of the state word's fields (Table 69). -/
def Sh.held (x : Sh) : Bool := fld x.st 63 1 == 1
def Sh.stale (x : Sh) : Bool := fld x.st 62 1 == 1
def Sh.poison (x : Sh) : Bool := fld x.st 61 1 == 1
def Sh.tgt (x : Sh) : Nat := fld x.st 57 4
def Sh.acf (x : Sh) : AccF := AccF.codes.getD (fld x.st 54 3) .f64
def Sh.shape (x : Sh) : Shape := Shape.codes.getD (fld x.st 52 2) .sq
def Sh.fmt (x : Sh) : Fmt := Fmt.codes.getD (fld x.st 47 5) .f64
def Sh.scB (x : Sh) : Bool := fld x.st 46 1 == 1
def Sh.scA (x : Sh) : Bool := fld x.st 45 1 == 1
def Sh.fl (x : Sh) : Fl := BitVec.ofNat 7 (fld x.st 38 7)
def Sh.fm (x : Sh) : W32 := BitVec.ofNat 32 (fld x.st 26 12)

/-- A write to tile t of quarter q marks what sh q holds for it STALE. -/
def Wave.markStale (w : Wave) (q t : Nat) : Wave :=
  let x := w.side q
  if x.held && (x.tgt == t || (tileRegs x.acf x.shape == 2 && x.tgt + 1 == t)) then
    w.setSide q { x with st := x.st ||| BitVec.ofNat 64 (2 ^ 62) }
  else w

/-- Write bytes into a tile, or a tile pair, of a quarter. -/
def Wave.writeTile (w : Wave) (q t off : Nat) (bs : List Byte) : Wave :=
  let w : Wave := { w with r := { w.r with acc := Memory.setBytes w.r.acc (tileKey q t + off) bs } }
  let w := w.markStale q t
  if 1024 < off + bs.length then w.markStale q (t + 1) else w

/-- Write bytes into the tile that a destination names; specifier zero discards them (R173). -/
def Wave.putTile (w : Wave) (d : Opnd) (q off : Nat) (bs : List Byte) : Wave := match d with
  | .acc t => w.writeTile q t.toNat off bs
  | _ => w

/-- The elements of the tile that a destination names, as the accumulator; specifier zero reads +0 (log entry 90). -/
def Wave.tileOf (w : Wave) (d : Opnd) (q sz i : Nat) : Nat := match d with
  | .acc t => w.tileElem q t.toNat sz i
  | _ => 0

/-- Whether a wave has side-pound tiles: a word that acts on them in a quarter traps without (R30, R266). -/
def State.sideThen (s : State) (qs : List (Nat × Nat)) (k : Res) : Res :=
  match qs with
  | (q, _) :: _ => if s.b.al.sht = 0 then .trap s (.of 2 (BitVec.ofNat 64 (0x170 + q)) s.pc) else k
  | [] => .done s

/-! ### `mma` (R257, R258) -/

/-- What an operation of a quarter names: bases and strides. -/
structure MatArg where
  q : Nat
  lane : Nat
  abase : W64
  bbase : W64
  strides : W64
  deriving DecidableEq, Repr

/-- The operands of the active quarters of `mma` and `mmas`. -/
def State.matArgs (s : State) (f : F) (scA scB : Bool) : List MatArg :=
  (s.quarters f.g).map fun e =>
    ⟨e.1, e.2, s.matBase scA f.a e.2, s.matBase scB f.b e.2, (s.opnd32 f.c e.2).setWidth 64⟩

/-- The rows of a quarter: A, then B. -/
def MatArg.rows (x : MatArg) (sh : Shape) (scA scB : Bool) : List MRow :=
  let stra := x.strides.toNat % 65536
  let strb := x.strides.toNat / 65536 % 65536
  ((List.range sh.m).map fun r => (⟨x.q, x.lane, r, scA, rowAddr scA x.abase stra r⟩ : MRow)) ++
  ((List.range sh.n).map fun r => (⟨x.q, x.lane, sh.m + r, scB, rowAddr scB x.bbase strb r⟩ : MRow))

/-- The operation of a quarter over the wave view as it stands. -/
def State.matOp (s : State) (x : MatArg) (fmt : Fmt) (acf : AccF) (sh : Shape) (scA scB : Bool) (fmode : W32) : MatOp :=
  let n := rowLen fmt (sh.k fmt)
  let bytes := (x.rows sh scA scB).map fun r => s.readRow r n
  ⟨fmt, acf, sh, fmode, bytes.take sh.m, bytes.drop sh.m⟩

def execMma (f : F) (fmt : Fmt) (acf : AccF) (shape : Shape) (scA scB : Bool) (s : State) : Host.Outcome State Fault Refusal :=
  word (.mma f fmt acf shape scA scB) s fun _ s =>
    let args := s.matArgs f scA scB
    let n := rowLen fmt (shape.k fmt)
    let rows := args.flatMap fun x => x.rows shape scA scB
    if args == [] then .done s
    else match s.checkRows (args.map (·.q)) n (shape.m + shape.n) false rows s with
      | .stop r => r
      | .ok u =>
        let v := (u.countRows n rows).setMrow 0
        .done (args.foldl (fun v x =>
          let r := (u.matOp x fmt acf shape scA scB u.w.sp.fmode).result (u.w.tileOf f.d x.q acf.size)
          (v.setW (v.w.putTile f.d x.q 0 r.1)).orFlags r.2) v)

/-! ### Moving tiles (R261 to R265) -/

def execMz (f : F) (s : State) : Host.Outcome State Fault Refusal :=
  word (.mz f) s fun _ s =>
    .done (s.setW ((s.quarters f.g).foldl (fun w e => w.putTile f.d e.1 0 (List.replicate 1024 0)) s.w))

/-- The rows of `mld` and `mst`. -/
def State.moveRows (s : State) (f : F) (rows : BitVec 6) (sc : Bool) : List MRow :=
  (s.quarters f.g).flatMap fun e =>
    let base := s.matBase sc f.a e.2
    let str := s.opnd f.c 1 e.2 % 65536
    (List.range (rows.toNat + 1)).map fun r => ⟨e.1, e.2, r, sc, rowAddr sc base str r⟩

def execMld (f : F) (rows : BitVec 6) (rsz : Rsz) (sc : Bool) (s : State) : Host.Outcome State Fault Refusal :=
  word (.mld f rows rsz sc) s fun _ s =>
    let rs := s.moveRows f rows sc
    if rs == [] then .done s
    else match s.checkRows (rs.map (·.q)) rsz.bytes (rows.toNat + 1) false rs s with
      | .stop r => r
      | .ok u => .done (rs.foldl (fun v r => v.setW (v.w.putTile f.d r.q (r.m * rsz.bytes) (leBytes rsz.bytes (u.readRow r rsz.bytes))))
          ((u.countRows rsz.bytes rs).setMrow 0))

/-- Write one row, sector by sector, as a store of the wave; none when a checkpoint finds the log full (R124). -/
def State.storeRow (s : State) (r : MRow) (bs : List Byte) : Option State :=
  match s.logStore r.sp r.addr bs with
  | none => none
  | some t => some ((t.rowPlaces r bs.length true).zipIdx.foldl (fun t p => t.writePlace p.1.1 16 (leNat ((bs.drop (16 * p.2)).take 16))) t)

/-- Write rows in ascending quarter and row order. -/
def State.storeRows (s : State) (t n : Nat) : List MRow → State → Option State
  | [], u => some u
  | r :: rs, u => match u.storeRow r (Memory.bytes s.w.r.acc (tileKey r.q t + r.m * n) n) with
    | some v => s.storeRows t n rs v
    | none => none

def execMst (f : F) (rows : BitVec 6) (rsz : Rsz) (sc : Bool) (s : State) : Host.Outcome State Fault Refusal :=
  word (.mst f rows rsz sc) s fun _ s =>
    let rs := s.moveRows f rows sc
    if rs == [] then .done s
    else match s.checkRows (rs.map (·.q)) rsz.bytes (rows.toNat + 1) true rs s with
      | .stop r => r
      | .ok u => match s.storeRows f.d.tile rsz.bytes rs (u.setMrow 0) with
        | some v => .done v
        | none => .stall { s with w := { s.w with stall := some 6 } }

/-- The first vector register of an operand. -/
def State.vecOf (s : State) (o : Opnd) : Nat := (o.vnum s.w).getD 0

def execMtov (f : F) (part : BitVec 2) (s : State) : Host.Outcome State Fault Refusal :=
  word (.mtov f part) s fun _ s =>
    let d := s.vecOf f.d
    .done (if f.d = .zero then s else s.setW ((s.quarters f.g).foldl (fun w e =>
      (lanesOf (s.run &&& quarterMask e.1)).foldl (fun w l =>
        (List.range 8).foldl (fun w k =>
          w.setV (d + k) l (BitVec.ofNat 32 (s.w.tileElem e.1 f.a.tile 4 (64 * part.toNat + 8 * k + l % 8)))) w) w) s.w))

def execVtom (f : F) (part : BitVec 2) (s : State) : Host.Outcome State Fault Refusal :=
  word (.vtom f part) s fun _ s =>
    let a := s.vecOf f.a
    .done (s.setW ((s.quarters f.g).foldl (fun w e =>
      let bs := (List.range 8).flatMap fun k => (List.range 8).flatMap fun l =>
        let lane := 8 * e.1 + l
        leBytes 4 (if s.run.getLsbD lane then (s.w.vreg (a + k) lane).toNat else 0)
      w.putTile f.d e.1 (256 * part.toNat) bs) s.w))

/-- Every earlier matrix word has been performed at its issue: `msync` only retires (R265). -/
def execMsync (f : F) (s : State) : Host.Outcome State Fault Refusal := word (.msync f) s fun _ s => .done s

/-! ### Run-ahead (R266 to R270) -/

/-- The state word of a held operation. -/
def shWord (poison : Bool) (t : Nat) (fmt : Fmt) (acf : AccF) (sh : Shape) (scA scB : Bool) (fl : Fl) (fm : W32) : W64 :=
  BitVec.ofNat 64 (2 ^ 63 + bnum poison * 2 ^ 61 + t * 2 ^ 57 + acf.num * 2 ^ 54 + sh.num * 2 ^ 52 + fmt.num * 2 ^ 47 +
    bnum scB * 2 ^ 46 + bnum scA * 2 ^ 45 + fl.toNat * 2 ^ 38 + fm.toNat % 4096 * 2 ^ 26)

/-- The checks of the rows of `mmas`: whether the quarter is poisoned (R266 step 3). Only a race, poison or a wait stops the
word. -/
def State.aheadRows (n : Nat) : List MRow → State → State × Bool × Option Res
  | [], s => (s, false, none)
  | r :: rs, s => match s.checkRow r n false with
    | .ok t => State.aheadRows n rs t
    | .stop (.trap t x) => if x.cause = 8 then (s, false, some (.trap t x)) else (s, true, none)
    | .stop (.fault ..) => (s, true, none)
    | .stop x => (s, false, some x)

/-- One quarter of `mmas`, what sh q held discarded; with D zero the result is discarded, and nothing is held (log entry 90). -/
def State.runAhead (s : State) (x : MatArg) (d : Opnd) (fmt : Fmt) (acf : AccF) (sh : Shape) (scA scB : Bool) : State × Option Res :=
  let n := rowLen fmt (sh.k fmt)
  let rows := x.rows sh scA scB
  let t := d.tile
  let hold (w : Wave) (y : Sh) : Wave := w.setSide x.q (if d = .zero then .empty else y)
  let s := s.setW (s.w.setSide x.q .empty)
  let c := if 1024 < sh.m * sh.n * acf.size then (s, true, none) else State.aheadRows n rows s
  match c with
  | (_, _, some r) => (s, some r)
  | (u, true, none) =>
    (u.setW (hold u.w ⟨shWord true t fmt acf sh scA scB 0 u.w.sp.fmode, x.abase, x.bbase, x.strides⟩), none)
  | (u, false, none) =>
    let r := (u.matOp x fmt acf sh scA scB u.w.sp.fmode).result (u.w.tileOf d x.q acf.size)
    let v := u.countRows n rows
    let w := { v.w with r := { v.w.r with shd := Memory.setBytes v.w.r.shd (1024 * x.q) r.1 } }
    (v.setW (hold w ⟨shWord false t fmt acf sh scA scB r.2 u.w.sp.fmode, x.abase, x.bbase, x.strides⟩), none)

/-- The quarters of `mmas` in order. -/
def State.runAheads (d : Opnd) (fmt : Fmt) (acf : AccF) (sh : Shape) (scA scB : Bool) : List MatArg → State → Res
  | [], s => .done s
  | x :: xs, s => match s.runAhead x d fmt acf sh scA scB with
    | (u, none) => State.runAheads d fmt acf sh scA scB xs u
    | (_, some r) => r

def execMmas (f : F) (fmt : Fmt) (acf : AccF) (shape : Shape) (scA scB : Bool) (s : State) : Host.Outcome State Fault Refusal :=
  word (.mmas f fmt acf shape scA scB) s fun _ s =>
    s.sideThen (s.quarters f.g) ((State.runAheads f.d fmt acf shape scA scB (s.matArgs f scA scB) s).waitsIn s)

/-- The rows of a poisoned quarter, from what sh q keeps. -/
def Sh.arg (x : Sh) (q lane : Nat) : MatArg := ⟨q, lane, x.abase, x.bbase, x.strides⟩

/-- Check the rows of the poisoned quarters that commit (R267, R269). -/
def State.recheck (s : State) : List (Nat × Nat) → State → RowR
  | [], t => .ok t
  | (q, l) :: qs, t =>
    let x := s.w.side q
    let n := rowLen x.fmt (x.shape.k x.fmt)
    match s.checkRows [] n (x.shape.m + x.shape.n) false ((x.arg q l).rows x.shape x.scA x.scB) t with
    | .ok u => (s.setMrow (setRows s.w.sp.mrow q (x.shape.m + x.shape.n))).recheck qs u
    | r => r

/-- The third pass of `shcom` in one quarter that is HELD. -/
def State.commitSide (s before : State) (q l : Nat) (on : Bool) : State :=
  let x := before.w.side q
  let clear (s : State) : State := s.setW (s.w.setSide q .empty)
  if !on then clear s
  else if x.poison then
    let n := rowLen x.fmt (x.shape.k x.fmt)
    let a := x.arg q l
    let r := (before.matOp a x.fmt x.acf x.shape x.scA x.scB x.fm).result (before.w.tileElem q x.tgt x.acf.size)
    let t := s.countRows n (a.rows x.shape x.scA x.scB)
    clear ((t.setW (t.w.writeTile q x.tgt 0 r.1)).orFlags r.2)
  else
    let bs := Memory.bytes s.w.r.shd (1024 * q) (x.shape.m * x.shape.n * x.acf.size)
    clear ((s.setW (s.w.writeTile q x.tgt 0 bs)).orFlags x.fl)

def execShcom (f : F) (s : State) : Host.Outcome State Fault Refusal :=
  word (.shcom f) s fun _ s =>
    let held := (s.quarters f.g).filter fun e => (s.w.side e.1).held
    let on (l : Nat) : Bool := s.opnd f.a 1 l == 1
    let commit := held.filter fun e => on e.2
    s.sideThen (s.quarters f.g) <|
      if commit.any fun e => (s.w.side e.1).stale then .trap s (.of 1 (encode (.shcom f)) s.pc)
      else match s.recheck (commit.filter fun e => (s.w.side e.1).poison) s with
        | .stop r => r
        | .ok u => .done ((held.foldl (fun t e => t.commitSide u e.1 e.2 (on e.2)) u).setMrow 0)

def execShdis (f : F) (s : State) : Host.Outcome State Fault Refusal :=
  word (.shdis f) s fun _ s =>
    s.sideThen (s.quarters f.g) (.done (s.setW ((s.quarters f.g).foldl (fun w e => w.setSide e.1 .empty) s.w)))

end Machine
end Sys2Proof
end

