-- ==== Sys2Proof/Machine/Trans.lean ====
section
/-! DEFINITION. The F32 transcendentals (R145, R146): correctly rounded from exact or fixed-point values of 800 bits
after the point (log entry 11). -/

namespace Sys2Proof.Machine

/-- The bits after the point of the fixed-point values here. -/
def fxBits : Nat := 800
/-- pi in units of 2^-960. -/
def piFixed : Nat := 0x3243F6A8885A308D313198A2E03707344A4093822299F31D0082EFA98EC4E6C89452821E638D01377BE5466CF34E90C6CC0AC29B7C97C50DD3F84D5B5B54709179216D5D98979FB1BD1310BA698DFB5AC2FFD72DBD01ADFB7B8E1AFED6A267E96BA7C9045F12C7F9924A19947B3916CF70801F2E2858EFC16
/-- ln 2 in units of 2^-800. -/
def ln2Fixed : Nat := 0xB17217F7D1CF79ABC9E3B39803F2F6AF40F343267298B62D8A0D175B8BAAFA2BE7B876206DEBAC98559552FB4AFA1B10ED2EAE35C138214427573B291169B8253E96CA16224AE8C51ACBDA11317C387EB9EA9BC3B136603B256FA0EC7657F74B72CE87B1

/-- Product of two fixed-point values. -/
def fxMul (a b : Nat) : Nat := a * b / 2 ^ fxBits

/-- The sum t + t y/k + t y^2/(k(k+1)) + ... -/
def expGo (y : Nat) : Nat → Nat → Nat → Nat
  | 0, _, t => t
  | n + 1, k, t => t + expGo y n (k + 1) (fxMul t y / k)

/-- exp y for a fixed-point y below 1. -/
def fxExp (y : Nat) : Nat := expGo y 170 1 (2 ^ fxBits)

/-- The alternating series of sine and cosine: t − t z/(k(k+1)) + ... for z = x². -/
def sinGo (z : Nat) : Nat → Nat → Nat → Int
  | 0, _, t => t
  | n + 1, k, t => (t : Int) - sinGo z n (k + 2) (fxMul t z / (k * (k + 1)))

/-- Sine and cosine of a fixed-point value below pi/2. -/
def fxSin (x : Nat) : Nat := (sinGo (fxMul x x) 100 2 x).toNat
def fxCos (x : Nat) : Nat := (sinGo (fxMul x x) 100 1 (2 ^ fxBits)).toNat

/-- The series of the inverse hyperbolic tangent: t/k + t z/(k+2) + ... for z = x². -/
def atanhGo (z : Nat) : Nat → Nat → Nat → Nat
  | 0, k, t => t / k
  | n + 1, k, t => t / k + atanhGo z n (k + 2) (fxMul t z)

/-- log2 of m/2^b for a value from 1 up to 2. -/
def fxLog2 (m b : Nat) : Nat :=
  let x := (m - 2 ^ b) * 2 ^ fxBits / (m + 2 ^ b)
  2 * atanhGo (fxMul x x) 270 1 x * 2 ^ fxBits / ln2Fixed

/-- The allowance for the truncations of the series. -/
def fxSlack : Nat := 2 ^ 12

/-- Round an inexact fixed-point magnitude times 2^n in F32. -/
def fxRound (fmode : W32) (rm : Rnd) (neg : Bool) (v : Nat) (n : Int) : Nat × Fl :=
  roundFlush fmode .f32 rm neg (v - fxSlack) (n - fxBits) true

/-- 1.0. -/
def oneVal : Val := .fin false 1 0

/-- `frcp`. -/
def frcpBits (fmode : W32) (rm : Rnd) (x : Val) : Nat × Fl := farith fmode .f32 rm .div oneVal x (.nan false) 0

/-- `frsq`: the integer square root of 2^400/m, its remainder kept as sticky. -/
def frsqBits (fmode : W32) (rm : Rnd) (x : Val) : Nat × Fl :=
  match x with
  | .nan q => nanOut .f32 q
  | .inf n => if n then nanOut .f32 true else (zeroBits .f32 false, 0)
  | .fin n m e =>
    if m = 0 then (infBits .f32 n, Fl.dz)
    else if n then nanOut .f32 true
    else
      let m' := if e % 2 = 0 then m else 2 * m
      let e' := if e % 2 = 0 then e else e - 1
      let r := isqrt (2 ^ 400 / m')
      roundFlush fmode .f32 rm false r (-200 - e' / 2) (decide (r * r * m' ≠ 2 ^ 400))

/-- `fexp2`. -/
def fexp2Bits (fmode : W32) (rm : Rnd) (x : Val) : Nat × Fl :=
  match x with
  | .nan q => nanOut .f32 q
  | .inf n => if n then (zeroBits .f32 false, 0) else (infBits .f32 false, 0)
  | .fin n m e =>
    let d := dyOf n m e
    let whole : Int := if 0 ≤ e then d.n * 2 ^ e.toNat else d.n / 2 ^ (-e).toNat
    let frac : Nat := if 0 ≤ e then 0 else (d.n % 2 ^ (-e).toNat).toNat * 2 ^ (fxBits - (-e).toNat)
    let w : Int := if whole < -1000 then -1000 else if 1000 < whole then 1000 else whole
    if frac = 0 then roundFlush fmode .f32 rm false 1 w false
    else fxRound fmode rm false (fxExp (fxMul frac ln2Fixed)) w

/-- `flog2`. -/
def flog2Bits (fmode : W32) (rm : Rnd) (x : Val) : Nat × Fl :=
  match x with
  | .nan q => nanOut .f32 q
  | .inf n => if n then nanOut .f32 true else (infBits .f32 false, 0)
  | .fin n m e =>
    if m = 0 then (infBits .f32 true, Fl.dz)
    else if n then nanOut .f32 true
    else
      let b := Nat.log2 m
      let w : Int := e + b
      if m = 2 ^ b then
        (if w = 0 then (zeroBits .f32 false, 0) else roundFlush fmode .f32 rm (decide (w < 0)) w.natAbs 0 false)
      else
        let v : Int := w * 2 ^ fxBits + fxLog2 m b
        fxRound fmode rm (decide (v < 0)) v.natAbs 0

/-- Sine (`shift` 0) or cosine (`shift` 1) of a finite value: exact reduction by pi/2. -/
def trigBits (fmode : W32) (rm : Rnd) (shift : Nat) (neg : Bool) (m : Nat) (e : Int) : Nat × Fl :=
  let x := m * 2 ^ (e + 960).toNat
  let half := piFixed / 2
  let q := x / half + shift
  let r := (x % half) / 2 ^ 160
  let v := if q % 2 = 0 then fxSin r else fxCos r
  fxRound fmode rm ((q / 2 % 2 == 1) != (neg && shift == 0)) v 0

/-- `fsin`. -/
def fsinBits (fmode : W32) (rm : Rnd) (x : Val) : Nat × Fl :=
  match x with
  | .nan q => nanOut .f32 q
  | .inf _ => nanOut .f32 true
  | .fin n m e => if m = 0 then (zeroBits .f32 n, 0) else trigBits fmode rm 0 n m e

/-- `fcos`. -/
def fcosBits (fmode : W32) (rm : Rnd) (x : Val) : Nat × Fl :=
  match x with
  | .nan q => nanOut .f32 q
  | .inf _ => nanOut .f32 true
  | .fin n m e => if m = 0 then roundFlush fmode .f32 rm false 1 0 false else trigBits fmode rm 1 n m e

end Sys2Proof.Machine
end

