-- ==== Sys2Proof/Machine/Dist.lean ====
section
/-! DEFINITION. G13: distribution registers (R273 to R288): exact values, Canon and the refiner, pairing by tags, creation,
loads and stores, moments and quantiles. Every rounding is one Round to F32 in RNE, without flushing (R275). -/

namespace Sys2Proof.Machine

/-! ### Exact values (R276) -/

/-- An exact point value: NaN, an infinity, or a rational; an exact zero carries its sign. -/
inductive PV where
  | nan
  | inf (neg : Bool)
  | fin (negZero : Bool) (q : Rat)
  deriving DecidableEq, Repr

/-- 2^e as a rational. -/
def ratPow (e : Int) : Rat := if 0 ≤ e then ((2 ^ e.toNat : Nat) : Rat) else 1 / ((2 ^ (-e).toNat : Nat) : Rat)

/-- The rational of a finite float. -/
def ratOf (neg : Bool) (m : Nat) (e : Int) : Rat :=
  let x := (m : Rat) * ratPow e
  if neg then -x else x

/-- A float value as an exact one. -/
def PV.of : Val → PV
  | .nan _ => .nan
  | .inf n => .inf n
  | .fin n m e => .fin (n && m == 0) (ratOf n m e)

/-- The value of F32 bits. -/
def PV.bits (x : Nat) : PV := PV.of (decodeF .f32 x)

def PV.isNan : PV → Bool
  | .nan => true
  | _ => false
def PV.isInf : PV → Bool
  | .inf _ => true
  | _ => false
def PV.isZero : PV → Bool
  | .fin _ q => q == 0
  | _ => false
/-- The sign. -/
def PV.neg : PV → Bool
  | .nan => false
  | .inf n => n
  | .fin z q => if q = 0 then z else decide (q < 0)
/-- The rational of a finite value. -/
def PV.rat : PV → Rat
  | .fin _ q => q
  | _ => 0

/-- The rank of a value's class in ExactOrder: −∞, numbers, +∞, NaN. -/
def PV.rank : PV → Nat
  | .inf true => 0
  | .fin _ _ => 1
  | .inf false => 2
  | .nan => 3

/-- Strictly before in ExactOrder. -/
def PV.before (x y : PV) : Bool :=
  if x.rank ≠ y.rank then decide (x.rank < y.rank)
  else match x, y with
    | .fin a p, .fin b q => if p = q then p == 0 && a && !b else decide (p < q)
    | _, _ => false

/-- A finite result; the sign of an exact zero is given. -/
def PV.mk (zneg : Bool) (q : Rat) : PV := if q = 0 then .fin zneg 0 else .fin false q

/-- Sum: ∞ − ∞ is invalid. -/
def PV.add (x y : PV) : PV × Fl :=
  match x, y with
  | .nan, _ | _, .nan => (.nan, 0)
  | .inf a, .inf b => if a = b then (.inf a, 0) else (.nan, Fl.nv)
  | .inf a, _ => (.inf a, 0)
  | _, .inf b => (.inf b, 0)
  | .fin a p, .fin b q => (PV.mk (p == 0 && q == 0 && a && b) (p + q), 0)

/-- −x. -/
def PV.negate : PV → PV
  | .nan => .nan
  | .inf n => .inf (!n)
  | .fin z q => if q = 0 then .fin (!z) 0 else .fin false (-q)

def PV.sub (x y : PV) : PV × Fl := PV.add x y.negate

/-- Product: 0 × ∞ is invalid. -/
def PV.mul (x y : PV) : PV × Fl :=
  if x.isNan || y.isNan then (.nan, 0)
  else if (x.isZero && y.isInf) || (x.isInf && y.isZero) then (.nan, Fl.nv)
  else if x.isInf || y.isInf then (.inf (x.neg != y.neg), 0)
  else (PV.mk (x.neg != y.neg) (x.rat * y.rat), 0)

/-- Quotient: 0 / 0 and ∞ / ∞ are invalid; a finite value by zero is an exact infinity. -/
def PV.div (x y : PV) : PV × Fl :=
  if x.isNan || y.isNan then (.nan, 0)
  else if (x.isZero && y.isZero) || (x.isInf && y.isInf) then (.nan, Fl.nv)
  else if x.isInf then (.inf (x.neg != y.neg), 0)
  else if y.isInf then (.fin (x.neg != y.neg) 0, 0)
  else if y.isZero then (.inf (x.neg != y.neg), Fl.dz)
  else (PV.mk (x.neg != y.neg) (x.rat / y.rat), 0)

/-- Min and Max of R141. -/
def PV.min (x y : PV) : PV × Fl := (if PV.before y x then y else x, 0)
def PV.max (x y : PV) : PV × Fl := (if PV.before y x then x else y, 0)

/-- A non-zero rational rounded once to F32. -/
def roundRat (q : Rat) : Nat × Fl :=
  let a := q.num.natAbs
  let sh := 64 + Nat.log2 q.den + 1
  roundFlush 0 .f32 .rn (decide (q < 0)) (a * 2 ^ sh / q.den) (-(sh : Int)) (decide (a * 2 ^ sh % q.den ≠ 0))

/-- Round of an exact value to F32 bits. -/
def PV.round : PV → Nat × Fl
  | .nan => (nanBits .f32, 0)
  | .inf n => (infBits .f32 n, 0)
  | .fin z q => if q = 0 then (zeroBits .f32 z, 0) else roundRat q

/-! ### Lanes (R273, R274) -/

/-- Value and weight of point k, as F32 bits. -/
def dVal (x : BitVec 512) (k : Nat) : Nat := x.toNat / 2 ^ (64 * k) % 2 ^ 32
def dWgt (x : BitVec 512) (k : Nat) : Nat := x.toNat / 2 ^ (64 * k + 32) % 2 ^ 32

/-- The rational of weight bits. -/
def wgtRat (w : Nat) : Rat := (PV.bits w).rat

/-- The used points: value bits and weight bits, in order. -/
def dPoints (x : BitVec 512) : List (Nat × Nat) :=
  ((List.range 8).map fun k => (dVal x k, dWgt x k)).filter fun p => p.2 != 0

/-- A lane with the given points; the rest unused. -/
def dLane (ps : List (Nat × Nat)) : BitVec 512 :=
  BitVec.ofNat 512 (((List.range 8).map fun k =>
    let p := ps.getD k (0x7FC00000, 0)
    (p.2 * 2 ^ 32 + p.1) * 2 ^ (64 * k)).foldl (· + ·) 0)

/-- The NaN distribution. -/
def dNaN : BitVec 512 := dLane [(0x7FC00000, 0x3F800000)]

/-! ### Canon (R277) -/

/-- Insert after every element that is not strictly after it. -/
def insertBy {α : Type} (lt : α → α → Bool) (x : α) : List α → List α
  | [] => [x]
  | y :: ys => if lt x y then x :: y :: ys else y :: insertBy lt x ys
/-- A stable sort. -/
def sortBy {α : Type} (lt : α → α → Bool) (l : List α) : List α := l.foldl (fun acc x => insertBy lt x acc) []

/-- Merge neighbours with bit-identical values, summing exact weights. -/
def mergePts : List (Nat × Rat) → List (Nat × Rat)
  | [] => []
  | (v, w) :: ps => match mergePts ps with
    | (u, x) :: qs => if u = v then (v, w + x) :: qs else (v, w) :: (u, x) :: qs
    | [] => [(v, w)]

/-- Canon of points given as value and weight bits in source order. -/
def canon (ps : List (Nat × Nat)) : BitVec 512 × Fl :=
  let ps := ps.filter fun p => p.2 != 0
  let bad := ps.any fun p => !(decodeF .f32 p.2 matches .fin false _ _)
  let sum := ps.foldl (fun a p => a + wgtRat p.2) (0 : Rat)
  if bad || sum ≠ 1 then (dNaN, Fl.nv)
  else
    let sorted := sortBy (fun a b => decide (orderKey .f32 a.1 < orderKey .f32 b.1)) ps
    (dLane ((mergePts (sorted.map fun p => (p.1, wgtRat p.2))).map fun p => (p.1, (roundRat p.2).1)), 0)

/-! ### The refiner (R278) -/

/-- A weighted pair. -/
structure Pair where
  val : PV
  wgt : Rat
  idx : Nat
  deriving DecidableEq, Repr

/-- The pairs with the interval of cumulative weight each covers. -/
def intervals : Rat → List Pair → List (PV × Rat × Rat)
  | _, [] => []
  | c, p :: ps => (p.val, c, c + p.wgt) :: intervals (c + p.wgt) ps

/-- The value of a bin: bits and flags. -/
def binValue (ps : List (PV × Rat × Rat)) (j : Nat) : Nat × Fl :=
  let lo : Rat := (j : Rat) / 8
  let hi : Rat := ((j + 1 : Nat) : Rat) / 8
  let parts := ps.filterMap fun p =>
    let a := if p.2.1 < lo then lo else p.2.1
    let b := if hi < p.2.2 then hi else p.2.2
    if a < b then some (p.1, b - a) else none
  let pinf := parts.any fun p => p.1.isInf && !p.1.neg
  let ninf := parts.any fun p => p.1.isInf && p.1.neg
  if parts.any (fun p => p.1.isNan) || (pinf && ninf) then (nanBits .f32, Fl.when (pinf && ninf) Fl.nv)
  else if pinf || ninf then (infBits .f32 ninf, 0)
  else
    let x := parts.foldl (fun a p => a + p.2 * p.1.rat) (0 : Rat) * 8
    if x = 0 then (zeroBits .f32 (parts.all fun p => p.1.isZero && p.1.neg), 0) else roundRat x

/-- Refine. -/
def refine_ (ps : List Pair) : BitVec 512 × Fl :=
  let sorted := sortBy (fun a b : Pair => a.val.before b.val || (!b.val.before a.val && decide (a.idx < b.idx))) ps
  let iv := intervals 0 sorted
  let bins := (List.range 8).map (binValue iv)
  let r := canon (bins.map fun b => (b.1, 0x3E000000))
  (r.1, bins.foldl (fun f b => f ||| b.2) r.2)

/-! ### Pairing (R279) -/

/-- The points of a lane with their exact values and weights. -/
def exactPts (x : BitVec 512) : List (PV × Rat) := (dPoints x).map fun p => (PV.bits p.1, wgtRat p.2)

/-- Cumulative weights, ascending. -/
def cums : Rat → List (PV × Rat) → List Rat
  | _, [] => []
  | c, p :: ps => (c + p.2) :: cums (c + p.2) ps

/-- The point whose cumulative interval holds l. -/
def pointAt (l : Rat) : Rat → List (PV × Rat) → PV
  | _, [] => .nan
  | c, p :: ps => if l < c + p.2 then p.1 else pointAt l (c + p.2) ps

/-- Pairs of two operands, with the flags that their values raise. -/
def pairUp (op : PV → PV → PV × Fl) (dep : Bool) (x y : List (PV × Rat)) : List Pair × Fl :=
  let raw : List ((PV × Fl) × Rat × Nat) :=
    if dep then
      let cuts := sortBy (fun a b : Rat => decide (a < b)) (cums 0 x ++ cums 0 y)
      let cuts := cuts.foldl (fun l c => if l.getLast? = some c then l else l ++ [c]) [0]
      (cuts.zip (cuts.drop 1)).zipIdx.map fun e =>
        (op (pointAt e.1.1 0 x) (pointAt e.1.1 0 y), e.1.2 - e.1.1, e.2)
    else x.zipIdx.flatMap fun a => y.zipIdx.map fun b => (op a.1.1 b.1.1, a.1.2 * b.1.2, 8 * a.2 + b.2)
  (raw.map fun r => ⟨r.1.1, r.2.1, r.2.2⟩, raw.foldl (fun f r => f ||| r.1.2) 0)

/-- A two-operand instruction in one lane: data, TAG, flags. -/
def dTwo (op : PV → PV → PV × Fl) (x y : BitVec 512) (tx ty : BitVec 16) : BitVec 512 × BitVec 16 × Fl :=
  let ps := pairUp op (tx &&& ty != 0) (exactPts x) (exactPts y)
  let r := refine_ ps.1
  (r.1, tx ||| ty, r.2 ||| ps.2)

/-! ### The frame of a word -/

/-- The number of a distribution register. -/
def dnum : Opnd → Nat
  | .d n => n.toNat
  | _ => 0

/-- Data and TAG of an operand in a lane. -/
def State.dOf (s : State) (o : Opnd) (l : Nat) : BitVec 512 := s.w.dreg (dnum o) l
def State.tagOf (s : State) (o : Opnd) (l : Nat) : BitVec 16 := s.w.dtag (dnum o) l

/-- An F32 operand in a lane: bits, and NV when it is a signalling NaN. -/
def State.f32At (s : State) (o : Opnd) (l : Nat) : Nat := s.fopnd .f32 o l % 2 ^ 32
def sigFl (x : Nat) : Fl := Fl.when (decodeF .f32 x).isSig Fl.nv

/-- Write a lane of the distribution register that a destination names; specifier zero discards it (R173). -/
def Wave.putD (w : Wave) (d : Opnd) (l : Nat) (x : BitVec 512) (tag : BitVec 16) : Wave := match d with
  | .d n => w.setD n.toNat l x tag
  | _ => w

/-- Write a distribution to D in every active lane. -/
def State.dLanes (s : State) (act : Mask) (d : Opnd) (f : Nat → BitVec 512 × BitVec 16 × Fl) : State :=
  (lanesOf act).foldl (fun t l => let r := f l; (t.setW (t.w.putD d l r.1 r.2.1)).orFlags r.2.2) s

def twoOp (i : Instr) (f : F) (op : PV → PV → PV × Fl) (s : State) : Host.Outcome State Fault Refusal :=
  simple i s fun act => s.dLanes act f.d fun l => dTwo op (s.dOf f.a l) (s.dOf f.b l) (s.tagOf f.a l) (s.tagOf f.b l)

def execDadd (f : F) (s : State) : Host.Outcome State Fault Refusal := twoOp (.dadd f) f PV.add s
def execDsub (f : F) (s : State) : Host.Outcome State Fault Refusal := twoOp (.dsub f) f PV.sub s
def execDmul (f : F) (s : State) : Host.Outcome State Fault Refusal := twoOp (.dmul f) f PV.mul s
def execDdiv (f : F) (s : State) : Host.Outcome State Fault Refusal := twoOp (.ddiv f) f PV.div s
def execDmin (f : F) (s : State) : Host.Outcome State Fault Refusal := twoOp (.dmin f) f PV.min s
def execDmax (f : F) (s : State) : Host.Outcome State Fault Refusal := twoOp (.dmax f) f PV.max s

/-! ### Creation (R281) -/

def execDsetPt (f : F) (s : State) : Host.Outcome State Fault Refusal :=
  simple (.dsetPt f) s fun act => s.dLanes act f.d fun l =>
    let a := s.f32At f.a l
    if (decodeF .f32 a).isNan then (dNaN, 0, sigFl a)
    else
      let r := canon [(a, 0x3F800000)]
      (r.1, 0, r.2)

/-- The point j of a uniform distribution. -/
def uniformPt (a b : PV) (j : Nat) : Nat × Fl :=
  let w := (PV.sub b a).1
  (PV.add a (PV.mul w (.fin false (((2 * j + 1 : Nat) : Rat) / 16))).1).1.round

/-- `dset.u` of two operands. -/
def uniform (a b : Nat) : BitVec 512 × Fl :=
  let x := PV.bits a
  let y := PV.bits b
  if x.isNan || y.isNan || x.isInf || y.isInf || decide (y.rat < x.rat) then (dNaN, Fl.nv)
  else
    let ps := (List.range 8).map (uniformPt x y)
    let r := canon (ps.map fun p => (p.1, 0x3E000000))
    (r.1, ps.foldl (fun f p => f ||| p.2) r.2)

def execDsetU (f : F) (s : State) : Host.Outcome State Fault Refusal :=
  simple (.dsetU f) s fun act => s.dLanes act f.d fun l =>
    let r := uniform (s.f32At f.a l) (s.f32At f.b l)
    (r.1, 0, r.2)

/-! ### Loads and stores (R282) -/

/-- The 16-byte parts of the active lanes: part p of lane l is number 4l + p. -/
def distParts (act : Mask) : List Nat := (lanesOf act).flatMap fun l => (List.range 4).map fun p => 4 * l + p

/-- The accesses of `dld` and `dst`, all checked before any is performed; one that reaches a wharf page closes an open region as any
access to a wharf does (R248, log 123). -/
def State.distAccess (s : State) (act : Mask) (sp : Sp) (a : Opnd) (write : Bool) (k : State → List (Nat × W64 × Place) → Res) : Res :=
  let base (l : Nat) : W64 := s.laneAddr sp a 0 l
  match (lanesOf act).find? fun l => (base l).toNat % 64 ≠ 0 with
  | some l => .trap s (.of 4 (accInfo 0 write sp l) (base l))
  | none =>
    let acc : Acc := if write then .store else .load
    let addr (i : Nat) : W64 := base (i / 4) + BitVec.ofNat 64 (16 * (i % 4))
    let cs := (distParts act).map fun i => (i, addr i, s.check acc sp (addr i) 16 write)
    match firstFail cs with
    | some c =>
      let info := accInfo (c.1 % 4) write sp (c.1 / 4)
      (match c.2.2 with
        | .bad _ cause => .trap s (.of cause info c.2.1)
        | .miss => .fault s c.2.1 (if write then 1 else 0) (.of 0x12 info c.2.1)
        | _ => .stall s)
    | none =>
      let ps := okPlaces cs
      if s.w.region.isSome && ps.any (fun p => p.2.2.closes) then .close
      else if ps.any fun p => s.placeWaits (p.1 / 4) p.2.2 16 write then .stall s
      else if !s.canPay s.b.ctx s.homeOf.1 (s.accFee 16 write ps) then .stall s
      else match (if write then none else s.poisonPa ps 16) with
      | some pa => .poison s pa
      | none =>
        s.raceThen (ps.filterMap fun p => p.2.2.sector?.map fun sec => (sec, write)) fun t =>
          k (t.accessed 16 write ps) ps

/-- Canon of a 64-byte image, its NaN values made DefaultNaN (R282). -/
def canonImage (x : BitVec 512) : BitVec 512 × Fl :=
  canon ((List.range 8).map fun k =>
    let v := dVal x k
    (if (decodeF .f32 v).isNan then 0x7FC00000 else v, dWgt x k))

/-- The space of `dld` and `dst`. -/
def distSp (sc : Bool) : Sp := if sc then .sc else .g

def execDld (f : F) (sc : Bool) (s : State) : Host.Outcome State Fault Refusal :=
  word (.dld f sc) s fun act s =>
    s.distAccess act (distSp sc) f.a false fun t ps =>
      .done ((t.countWindow ps 16).dLanes act f.d fun l =>
        let img := (ps.filter fun p => p.1 / 4 == l).foldl (fun n p => n + t.readPlace p.2.2 16 * 2 ^ (128 * (p.1 % 4))) 0
        let r := canonImage (BitVec.ofNat 512 img)
        (r.1, (s.opnd32 f.c l).setWidth 16, r.2))

def execDst (f : F) (sc : Bool) (s : State) : Host.Outcome State Fault Refusal :=
  word (.dst f sc) s fun act s =>
    s.distAccess act (distSp sc) f.a true fun t ps =>
      match t.storeAll (distSp sc) 16 (fun i => (s.dOf f.d (i / 4)).toNat / 2 ^ (128 * (i % 4)) % 2 ^ 128) ps with
      | some u => .done u
      | none => .stall { s with w := { s.w with stall := some 6 } }

/-! ### One-operand arithmetic (R283) -/

/-- Point by point: the values mapped, the weights kept, Canon. -/
def dOne (g : Nat → Nat × Fl) (x : BitVec 512) : BitVec 512 × Fl :=
  let ps := (dPoints x).map fun p => (g p.1, p.2)
  let r := canon (ps.map fun p => (if (decodeF .f32 p.1.1).isNan then 0x7FC00000 else p.1.1, p.2))
  (r.1, ps.foldl (fun f p => f ||| p.1.2) r.2)

/-- `daff` of one point value. -/
def affPoint (b c v : Nat) : Nat × Fl :=
  let x := PV.mul (PV.bits b) (PV.bits v)
  let y := PV.add x.1 (PV.bits c)
  let r := y.1.round
  (r.1, r.2 ||| x.2 ||| y.2 ||| sigFl b ||| sigFl c)

def execDaff (f : F) (s : State) : Host.Outcome State Fault Refusal :=
  simple (.daff f) s fun act => s.dLanes act f.d fun l =>
    let r := dOne (affPoint (s.f32At f.b l) (s.f32At f.c l)) (s.dOf f.a l)
    (r.1, s.tagOf f.a l, r.2)

/-- e^v in F32, correctly rounded. -/
def expBits (x : Val) : Nat × Fl :=
  match x with
  | .nan q => nanOut .f32 q
  | .inf n => if n then (zeroBits .f32 false, 0) else (infBits .f32 false, 0)
  | .fin n m e =>
    let d := dyOf n m e
    if m = 0 then roundFlush 0 .f32 .rn false 1 0 false
    else if d.lt (Dy.ofInt (-200)) then roundFlush 0 .f32 .rn false 1 (-280) true
    else if (Dy.ofInt 200).lt d then roundFlush 0 .f32 .rn false 1 280 true
    else
      let fx : Int := d.n * 2 ^ (e + fxBits).toNat
      let w := fx / ln2Fixed
      fxRound 0 .rn false (fxExp (fx % ln2Fixed).toNat) w

/-- ln v in F32, correctly rounded. -/
def lnBits (x : Val) : Nat × Fl :=
  match x with
  | .nan q => nanOut .f32 q
  | .inf n => if n then nanOut .f32 true else (infBits .f32 false, 0)
  | .fin n m e =>
    if m = 0 then (infBits .f32 true, Fl.dz)
    else if n then nanOut .f32 true
    else
      let b := Nat.log2 m
      let y := (m - 2 ^ b) * 2 ^ fxBits / (m + 2 ^ b)
      let v : Int := (e + b) * ln2Fixed + 2 * (atanhGo (fxMul y y) 270 1 y : Nat)
      if v = 0 then (zeroBits .f32 false, 0) else fxRound 0 .rn (decide (v < 0)) v.natAbs 0

/-- The function of `dmap` on a point value. -/
def mapPoint (fn : DFn) (v : Nat) : Nat × Fl :=
  let x := decodeF .f32 v
  match fn with
  | .neg => (Nat.xor v (2 ^ 31), 0)
  | .rcp => frcpBits 0 .rn x
  | .sqrt => farith 0 .f32 .rn .sqrt x (.nan false) (.nan false) 0
  | .exp2 => fexp2Bits 0 .rn x
  | .log2 => flog2Bits 0 .rn x
  | .exp => expBits x
  | .log => lnBits x

def execDmap (f : F) (fn : DFn) (s : State) : Host.Outcome State Fault Refusal :=
  simple (.dmap f fn) s fun act => s.dLanes act f.d fun l =>
    let r := dOne (mapPoint fn) (s.dOf f.a l)
    (r.1, s.tagOf f.a l, r.2)

/-! ### Mixtures (R284) -/

/-- `dmix` in one lane. -/
def mixPoints (lam : Nat) (x y : BitVec 512) : BitVec 512 × Fl :=
  match PV.bits lam with
  | .fin _ q =>
    if q < 0 || 1 < q then (dNaN, Fl.nv)
    else
      let side (w : Rat) (o : Nat) (ps : List (PV × Rat)) : List Pair := ps.zipIdx.map fun p => ⟨p.1.1, w * p.1.2, o + p.2⟩
      refine_ ((side q 0 (exactPts x) ++ side (1 - q) 8 (exactPts y)).filter fun p => p.wgt != 0)
  | _ => (dNaN, Fl.nv)

def execDmix (f : F) (s : State) : Host.Outcome State Fault Refusal :=
  simple (.dmix f) s fun act => s.dLanes act f.d fun l =>
    let r := mixPoints (s.f32At f.c l) (s.dOf f.a l) (s.dOf f.b l)
    (r.1, s.tagOf f.a l ||| s.tagOf f.b l, r.2)

/-! ### Tags (R285) -/

def execDtagNew (f : F) (s : State) : Host.Outcome State Fault Refusal :=
  word (.dtagNew f) s fun act s =>
    let n := s.w.sp.origins.toNat
    if n = 16 then .trap s (.of 0x0F 0 s.pc)
    else
      let t := s.dLanes act f.d fun l => (s.dOf f.a l, BitVec.ofNat 16 (2 ^ n), 0)
      .done (t.setW { t.w with sp := { t.w.sp with origins := BitVec.ofNat 5 (n + 1) } })

def execDtagSet (f : F) (s : State) : Host.Outcome State Fault Refusal :=
  simple (.dtagSet f) s fun act => s.dLanes act f.d fun l => (s.dOf f.a l, (s.opnd32 f.b l).setWidth 16, 0)

def execDtagGet (f : F) (s : State) : Host.Outcome State Fault Refusal :=
  simple (.dtagGet f) s fun act => s.eachLane act f.d 1 fun l => (s.tagOf f.a l).toNat

/-! ### Extraction (R286 to R288) -/

/-- x^n of a rational. -/
def ratPowN (x : Rat) : Nat → Rat
  | 0 => 1
  | n + 1 => x * ratPowN x n

/-- √q of a positive rational, rounded once to F32 with a sign. -/
def roundSqrt (neg : Bool) (q : Rat) : Nat × Fl :=
  let k := 64 + Nat.log2 q.den + 1
  let n := q.num.natAbs * 2 ^ (2 * k)
  let t := n / q.den
  let r := isqrt t
  roundFlush 0 .f32 .rn neg r (-(k : Int)) (decide (r * r ≠ t) || decide (n % q.den ≠ 0))

/-- A result that is zero is +0 (R286), whatever rounded to it. -/
def plusZero (r : Nat × Fl) : Nat × Fl := (if r.1 = zeroBits .f32 true then zeroBits .f32 false else r.1, r.2)

/-- One moment of a lane (R286). -/
def moment (ps : List (PV × Rat)) (sel : MSel) : Nat × Fl :=
  let pinf := ps.any fun p => p.1.isInf && !p.1.neg
  let ninf := ps.any fun p => p.1.isInf && p.1.neg
  if ps.any (fun p => p.1.isNan) || (pinf && ninf) then (nanBits .f32, Fl.when (pinf && ninf) Fl.nv)
  else if pinf || ninf then
    (match sel with
      | .mean => (infBits .f32 ninf, 0)
      | .var => (infBits .f32 false, 0)
      | _ => nanOut .f32 true)
  else
    let mu := ps.foldl (fun a p => a + p.2 * p.1.rat) (0 : Rat)
    let m (n : Nat) : Rat := ps.foldl (fun a p => a + p.2 * ratPowN (p.1.rat - mu) n) 0
    match sel with
    | .mean | .all => if ps.all (fun p => p.1.isZero && p.1.neg) then (zeroBits .f32 true, 0) else plusZero (PV.mk false mu).round
    | .var => (PV.mk false (m 2)).round
    | .skew => if m 2 = 0 then nanOut .f32 true
        else if m 3 = 0 then (zeroBits .f32 false, 0)
        else plusZero (roundSqrt (decide (m 3 < 0)) (m 3 * m 3 / ratPowN (m 2) 3))
    | .kurt => if m 2 = 0 then nanOut .f32 true else (PV.mk false (m 4 / (m 2 * m 2))).round

/-- The results that `dmom` writes, register by register. -/
def moments (ps : List (PV × Rat)) : MSel → List (Nat × Fl)
  | .all => [moment ps .mean, moment ps .var, moment ps .skew, moment ps .kurt]
  | sel => [moment ps sel]

def execDmom (f : F) (sel : MSel) (s : State) : Host.Outcome State Fault Refusal :=
  simple (.dmom f sel) s fun act => s.perLane act f.d (if sel = .all then 4 else 1) fun l =>
    let rs := moments (exactPts (s.dOf f.a l)) sel
    (rs.zipIdx.foldl (fun n r => n + r.1.1 * 2 ^ (32 * r.2)) 0, rs.foldl (fun g r => g ||| r.2) 0)

/-- The midpoints of the used points. -/
def midpoints : Rat → List (PV × Rat) → List (Rat × PV)
  | _, [] => []
  | c, p :: ps => (c + p.2 / 2, p.1) :: midpoints (c + p.2) ps

/-- Interpolation between midpoints, past the first one. -/
def quantGo (p : Rat) : Rat × PV → List (Rat × PV) → Nat × Fl
  | (_, v), [] => v.round
  | (m, v), (n, w) :: ms =>
    if p = m then v.round
    else if p < n then
      let d := PV.sub w v
      let x := PV.mul (.fin false ((p - m) / (n - m))) d.1
      let y := PV.add v x.1
      let r := y.1.round
      (r.1, r.2 ||| d.2 ||| x.2 ||| y.2)
    else quantGo p (n, w) ms

/-- The value at a non-exceedance probability (R287). -/
def quantile (ps : List (PV × Rat)) (p : Rat) : Nat × Fl :=
  match midpoints 0 ps with
  | [] => (nanBits .f32, 0)
  | (m, v) :: ms => if p ≤ m then v.round else quantGo p (m, v) ms

def execDqnt (f : F) (lvl : QLvl) (s : State) : Host.Outcome State Fault Refusal :=
  simple (.dqnt f lvl) s fun act => s.perLane act f.d 1 fun l =>
    let ps := exactPts (s.dOf f.a l)
    match lvl with
    | .p10 => quantile ps (1 / 10)
    | .p50 => quantile ps (1 / 2)
    | .p90 => quantile ps (9 / 10)
    | .p => match PV.bits (s.f32At f.b l) with
      | .fin _ q => if q < 0 || 1 < q then nanOut .f32 true else quantile ps q
      | _ => nanOut .f32 true

/-- The first used point whose cumulative weight exceeds u/2^32, otherwise the last (R288). -/
def drawGo (u : Rat) : Rat → List (Nat × Nat) → Nat
  | _, [] => 0x7FC00000
  | c, p :: ps => if u < c + wgtRat p.2 || ps == [] then p.1 else drawGo u (c + wgtRat p.2) ps

def execDsamp (f : F) (s : State) : Host.Outcome State Fault Refusal :=
  simple (.dsamp f) s fun act => s.eachLane act f.d 1 fun l =>
    drawGo ((s.opnd f.b 1 l : Rat) / ((2 ^ 32 : Nat) : Rat)) 0 (dPoints (s.dOf f.a l))

end Sys2Proof.Machine
end

