-- ==== Sys2Proof/Machine/ExpertWords.lean ====
section
/-! DEFINITION. G14: `xroute`, `xrel`, `xcnt`, `xver` (R289, R302 to R306). -/

namespace Sys2Proof.Machine

/-- The trap of R303. -/
def expertTrap (l : Nat) : Trap := .of 5 (accInfo 0 false .g l) 0

/-- The frame of a G14 word: only the context that owns placement may issue one (R289). -/
def State.expertThen (s : State) (act : Mask) (k : Res) : Res :=
  if s.b.ctx ≠ s.xpCtx then .trap s (expertTrap (lowLane act)) else k

/-- The count of a wave's reference record for a version. -/
def Wave.refsOf (w : Wave) (v : Nat) : Nat :=
  match SMap.find? w.refs (v % 4) with
  | some r => if r.1.toNat = v then r.2 else 0
  | none => 0

/-- Set the count of a reference record. -/
def Wave.setRefs (w : Wave) (v n : Nat) : Wave :=
  { w with refs := if n = 0 then SMap.erase w.refs (v % 4) else SMap.insert w.refs (v % 4) (BitVec.ofNat 32 v, n) }

/-- The load counter of an expert on a die. -/
def State.loadOf (s : State) (die e : Nat) : W32 := SMap.get s.exp.loads 0 (8192 * die + e)

/-- One lane of `xroute` (R303). -/
def State.routeLane (s : State) (d : Opnd) (die ver l e seq : Nat) : State :=
  let k := seq % s.nrep die ver e
  let s := s.setOpnd d 4 l (s.rep die ver e k + 2 ^ 64 * (ver + 2 ^ 32 * k))
  let s := s.setW (s.w.setRefs ver (s.w.refsOf ver + 1))
  let n := (s.loadOf die e).toNat
  let s := s.addRef die ver 1
  { s with exp := { s.exp with loads := SMap.set s.exp.loads 0 (8192 * die + e) (BitVec.ofNat 32 (min (n + 1) 0xFFFFFFFF)) } }

def execXroute (f : F) (s : State) : Host.Outcome State Fault Refusal :=
  word (.xroute f) s fun act s =>
    s.expertThen act <|
      let die := s.homeOf.1
      let ver := s.xNewest die
      let e (l : Nat) : Nat := s.opnd f.a 1 l
      match (lanesOf act).find? fun l => decide (8192 ≤ e l) || s.nrep die ver (e l) == 0 with
      | some l => .trap s (expertTrap l)
      | none => .done ((lanesOf act).foldl (fun t l => t.routeLane f.d die ver l (e l) (s.opnd f.b 1 l)) s)

/-- The version that a lane of `xrel` names. -/
def State.relVer (s : State) (a : Opnd) (l : Nat) : Nat := s.opnd a 4 l / 2 ^ 64 % 2 ^ 32

def execXrel (f : F) (s : State) : Host.Outcome State Fault Refusal :=
  word (.xrel f) s fun act s =>
    s.expertThen act <|
      let ls := lanesOf act
      let over_ (l : Nat) : Bool :=
        decide (s.w.refsOf (s.relVer f.a l) < (ls.filter fun k => s.relVer f.a k == s.relVer f.a l).length)
      match ls.find? over_ with
      | some l => .trap s (expertTrap l)
      | none => .done (ls.foldl (fun (t : State) l =>
          let v := s.relVer f.a l
          (t.setW (t.w.setRefs v (t.w.refsOf v - 1))).addRef s.homeOf.1 v (-1)) s).retireVersions

def execXcnt (f : F) (s : State) : Host.Outcome State Fault Refusal :=
  word (.xcnt f) s fun act s =>
    s.expertThen act <|
      match (lanesOf act).find? fun l => decide (8192 ≤ s.opnd f.a 1 l) with
      | some l => .trap s (expertTrap l)
      | none => .done (s.eachLane act f.d 1 fun l => (s.loadOf s.homeOf.1 (s.opnd f.a 1 l)).toNat)

def execXver (f : F) (s : State) : Host.Outcome State Fault Refusal :=
  word (.xver f) s fun act s => s.expertThen act (.done (s.oneValue act f.d 1 (s.xNewest s.homeOf.1)))

end Sys2Proof.Machine
end

