-- ==== Sys2Proof/Machine/Place.lean ====
section
/-! DEFINITION. Starting launches (R16, R34, R75, R353), copy packets (R353), placing blocks (R29, R32, R34 to R36, R331, R357,
R358, R360) and the events INSTANCE_END, WAVE_END_AFTER_LAUNCHES, LAUNCH_START, STEP_BOUNDARY, BLOCK_PLACE, SPLIT_CHANGE. -/

namespace Sys2Proof.Machine

/-! ### Homes (R357) -/

/-- The ordinal of a die of this package. -/
def State.ordinalOf (s : State) (c die : Nat) : Option Nat :=
  if s.diesOf c |>.contains die then some (s.prank c * (s.diesOf c).length + ((s.diesOf c).takeWhile (· < die)).length) else none

/-- The first member of n whose home ordinal is o or above: the least b with floor(b × D / n) ≥ o. -/
def firstMember (n d o : Nat) : Nat := (o * n + d - 1) / d

/-- The die on which a member of a group starts (R357). -/
def State.memberDie (s : State) (g : Grp) (mem : Nat) : Option Nat :=
  let d := s.jobDies g.ctx
  (s.diesOf g.ctx).find? fun k => match s.ordinalOf g.ctx k with
    | some o => decide (firstMember g.nmem d o ≤ mem) && decide (mem < firstMember g.nmem d (o + 1))
    | none => false

/-! ### Starting a launch -/

/-- The graph's other launches, by number. -/
def State.sibling (s : State) (g : Grp) (l : Nat) : Option (Nat × Grp) :=
  List.find? (fun e : Nat × Grp => e.2.kind == .host && e.2.ctx == g.ctx && e.2.job == g.job && e.2.phase == g.phase &&
    e.2.graph == g.graph && e.2.launch.toNat == l) s.grps

/-- The chain predecessor of a launch. -/
def State.chainPred (s : State) (g : Grp) : Option (Nat × Grp) :=
  match g.chain with
  | some l => s.sibling g l
  | none => none

/-- The next member of a group that a die creates: the lowest not yet created, and in a chain the lowest of those whose
predecessor has ended (R34). -/
def State.nextMember (s : State) (g : Grp) (die : Nat) : Option Nat :=
  match s.ordinalOf g.ctx die with
  | none => none
  | some o =>
    let d := s.jobDies g.ctx
    let lo := firstMember g.nmem d o
    let hi := min (firstMember g.nmem d (o + 1)) g.nmem
    match s.chainPred g with
    | some p => (List.find? (fun e : Nat × Nat × Nat × List Nat => decide (lo ≤ e.1) && decide (e.1 < hi) && !SMap.has g.made e.1) p.2.places).map Prod.fst
    | none =>
      let b := lo + SMap.get g.next 0 die
      if b < hi then some b else none

/-- Whether what a launch waits for has ended (R353): its predecessors but for that of its chain, earlier phases,
and on a replay the index of the log (R125). -/
def State.mayStart (s : State) (g : Grp) : Bool :=
  if g.kind = .device then true
  else
    (g.preds.all fun l => some l == g.chain || match s.sibling g l with
      | some e => e.2.st == .ended
      | none => true) &&
    (match s.chainPred g with
      | some e => e.2.st != .pending
      | none => true) &&
    !(s.replaying g.ctx && (s.ctx g.ctx).log.isNone) &&
    s.levs.all fun e => e.2.ctx != g.ctx || e.2.lvl != 4 || e.2.finished ||
      !(decide (e.2.job < g.job) || (e.2.job == g.job && decide (e.2.phase < g.phase)))

/-- The starting view of a launch of the host (R16): the results of the launches with a path to
it that have ended (log 108). -/
def State.startView (s : State) (g : Grp) : Overlay × SMap Part :=
  match s.lev? g.ctx 3 g.job.toNat g.phase.toNat g.graph.toNat with
  | none => ([], [])
  | some (_, v) =>
    let path := hasPath (s.predsOf g.ctx g.job.toNat g.phase.toNat g.graph.toNat) 4096
    let ms := v.members.filter fun m => path m.idx g.launch.toNat
    ((graphFold ms (fun m va => s.overByte g.ctx m.start va) path).bytes, ms.foldl (fun q m => combineParts q m.parts) [])

/-- The lowest offset at which n bytes of die shared memory are free on every die (R75). -/
def State.dsmFree (s : State) (n : Nat) : Option Nat :=
  let limit := if s.xpEn then Config.mooringOff else Config.spillOff
  let used := s.grps.filterMap fun e => if e.2.st == .running && e.2.kind != .fork && e.2.dsm ≠ 0 then some (e.2.dsmOff, dsmUnit e.2.dsm) else none
  firstFit limit n used fun _ => true

/-- Zero an allocation on every die. -/
def State.clearDsm (s : State) (off n : Nat) : State :=
  { s with
    dsm := s.dsm.filter fun e => !(decide (off ≤ e.1 % 2 ^ 25) && decide (e.1 % 2 ^ 25 < off + n))
    poison := s.poison.filter fun e =>
      !(isDm (16 * e.1) && decide (off ≤ 16 * e.1 % 2 ^ 25) && decide (16 * e.1 % 2 ^ 25 < off + n)) }

/-! ### Blocks -/

/-- A wave at its start (Table 99). -/
def startWave (g : Grp) (h i : Nat) (image : SMap W32) : Wave :=
  let w : Wave := { Wave.absent with
    blk := h
    idx := i
    st := .running
    sp := { Spec.zero with fmode := g.fmode }
    view := { View.empty with vis := g.vis } }
  let w : Wave := { w with r := { w.r with v := image } }
  let w := (w.goTo (BitVec.allOnes 32) g.entry).setSs 0 2 g.args.toNat
  w.setSs 2 2 g.desc.toNat

/-- The elements that a member adds to its group's ID (R13, R354), and its identification registers (R12). -/
def Grp.block (g : Grp) (id h mem : Nat) : Block :=
  let gid := match g.kind with
    | .host => [g.job.toNat, g.phase.toNat, g.graph.toNat, g.launch.toNat, mem]
    | .device => g.gid ++ [mem]
    | .fork => g.gid ++ [131072 * g.pwv + mem]
  { Block.absent with
    handle := h, ctx := g.ctx, grp := id, mem := mem, gid := gid
    bix := if g.kind = .fork then g.pbix else BitVec.ofNat 32 mem
    nblk := if g.kind = .fork then g.pnblk else BitVec.ofNat 32 g.nmem
    cix := if g.kind = .fork then BitVec.ofNat 32 mem else 0
    ncld := if g.kind = .fork then BitVec.ofNat 32 g.nmem else 0
    job := g.job, phase := g.phase, graph := g.graph, launch := g.launch, al := g.al, entry := g.entry, args := g.args
    desc := g.desc, home := g.home, ownPrio := g.prio, prio := g.prio, st := .resident, start := g.start, vis := g.vis
    tagready := BitVec.ofNat 64 (2 ^ g.al.tags - 1), bar := { Bar.zero with npart := g.al.waves } }

/-- Put a block with fresh waves at a place. -/
def State.bringIn (s : State) (g : Grp) (b : Block) (die core : Nat) (slots : List Nat) (image : Nat → SMap W32) : State :=
  let b := { b with die := die, core := core, slots := slots, cycles := s.free }
  let s := s.setBlock b.handle b
  let s := (List.range b.al.waves).foldl (fun s i => s.setWave (32 * b.handle + i) (startWave g b.handle i (image i))) s
  let c := s.ctx b.ctx
  if b.gid ∈ c.gone then s.setCtx b.ctx { c with gone := c.gone.erase b.gid } else s

/-! ### Cores (R29, R32, R358) -/

def State.coreKey (die core : Nat) : Nat := 64 * die + core
/-- What a core holds beside its blocks. -/
def State.coreOf (s : State) (die core : Nat) : Core := SMap.get s.cores Core.zero (State.coreKey die core)
def State.setCore (s : State) (die core : Nat) (c : Core) : State := { s with cores := SMap.set s.cores Core.zero (State.coreKey die core) c }

/-- The blocks resident on a core. -/
def State.resident (s : State) (die core : Nat) : List Nat :=
  s.handles_.filter fun h => let b := s.block h; b.st == .resident && b.die == die && b.core == core

/-- A launch's split. -/
def splitOf (scratch : Nat) : Nat := (scratch + 65535) / 65536 * 65536

/-- Scratchpad is allocated to a block in units of 1 KiB (Table 8). -/
def scUnit (n : Nat) : Nat := (n + 1023) / 1024 * 1024

/-- Whether a block fits a core beside what is there; a core without a block takes its split. -/
def State.fitsCore (s : State) (c : Nat) (al : Alloc) (die core : Nat) : Bool :=
  let hs := s.resident die core
  let used : Res8 := hs.foldl (fun (r : Res8) h => r.add (s.block h).al.res) ⟨0, 0, 0, 0, 0⟩
  let sc := hs.foldl (fun n h => n + scUnit (s.block h).al.scratch) 0
  let slots := (s.slotsUsed die core).length
  (used.add al.res).fits && decide (slots + al.waves ≤ Config.waveSlots) &&
  (hs == [] || ((s.coreOf die core).split == splitOf al.scratch && decide (sc + scUnit al.scratch ≤ splitOf al.scratch))) &&
  !(hs.any fun h => (s.block h).draining && (s.block h).ctx == c)

/-- The free slots of a core, lowest first. -/
def State.takeSlots (s : State) (die core n : Nat) : List Nat :=
  ((List.range Config.waveSlots).filter fun k => !(s.slotsUsed die core).contains k).take n

/-- Waves resident on a core. -/
def State.residentWaves (s : State) (die core : Nat) : Nat := (s.resident die core).foldl (fun n h => n + (s.block h).al.waves) 0

/-- The core of R358: matching split, then fewest resident waves, then lowest number. -/
def State.chooseCore (s : State) (c : Nat) (al : Alloc) (die : Nat) : Option Nat :=
  let cs := (List.range Config.cores).filter fun k => s.fitsCore c al die k
  let rank (k : Nat) : Nat := (if (s.coreOf die k).split = splitOf al.scratch then 0 else 4096) + s.residentWaves die k
  match cs with
  | [] => none
  | k :: ks => some (ks.foldl (fun m k => if rank k < rank m then k else m) k)

/-- Change the split of a core that holds no block (R32). -/
def State.setSplit (s : State) (die core split : Nat) : State :=
  if s.resident die core == [] then s.setCore die core { s.coreOf die core with split := split } else s

/-! ### What waits on a die (R34, R36, R360) -/

/-- A waiting block: priority, the pipeline whose stage it is of with its pressure rank (P, then the stage), global block
ID, and what it is: a block record or a member to create. -/
structure Cand where
  prio : W32
  pipe : Option (List Nat)
  press : Nat
  gid : List Nat
  blk : Option Nat
  grp : Nat
  mem : Nat
  deriving DecidableEq, Repr

/-- The pressure rank of a stage of a pipeline: P, then the stage. -/
def State.pressOf (s : State) (id : Nat) (g : Grp) (die : Nat) : Nat := 16 * (SMap.get s.press Press.zero (8 * id + die)).p + g.stage

/-- The pipeline of a launch: the stages of its graph. -/
def Grp.pipe (g : Grp) : Option (List Nat) :=
  if g.stage = 0xFF || g.kind = .fork then none else some [g.ctx, g.job.toNat, g.phase.toNat, g.graph.toNat]

/-- Whether a context's blocks may be placed. -/
def State.mayPlace (s : State) (c : Nat) : Bool := !(s.ctx c).killing && !(s.ctx c).saving

/-- The candidates of a die. -/
def State.candidates (s : State) (die : Nat) : List Cand :=
  let old := s.handles_.filterMap fun h =>
    let b := s.block h
    if (b.st == .waiting && !b.cancelled || b.st == .saved) && b.die == die && s.mayPlace b.ctx then
      let g := SMap.get s.grps Grp.blank b.grp
      some ⟨b.prio, g.pipe, s.pressOf b.grp g die, b.gid, some h, b.grp, b.mem⟩
    else none
  let new_ := s.grps.filterMap fun e =>
    let g := e.2
    if g.st == .running && !g.copy && !g.cancelled && !g.failed && s.mayPlace g.ctx then
      (s.nextMember g die).map fun m => ⟨g.prio, g.pipe, s.pressOf e.1 g die, (g.block e.1 0 m).gid, none, e.1, m⟩
    else none
  old ++ new_

/-- The order of R36: effective priority, then global block ID; and that of R360 within a pipeline. -/
def Cand.before (a b : Cand) : Bool :=
  if a.prio ≠ b.prio then decide (b.prio < a.prio) else gidLt a.gid b.gid
def Cand.stageBefore (a b : Cand) : Bool :=
  if a.press ≠ b.press then decide (a.press < b.press) else gidLt a.gid b.gid

/-- Sort by an order. -/
def sortCands (lt : Cand → Cand → Bool) (l : List Cand) : List Cand :=
  l.foldl (fun l c => (l.filter fun x => !lt c x) ++ [c] ++ l.filter fun x => lt c x) []

/-- Whether two candidates are stages of one pipeline at equal priority. -/
def Cand.peer (a b : Cand) : Bool := a.pipe.isSome && a.pipe == b.pipe && a.prio == b.prio

/-- The candidates in the order of placement: that of R36, in which the stages of a pipeline stand, in the places of its
blocks, by pressure (R360, log 91). -/
def State.waitingOn (s : State) (die : Nat) : List Cand :=
  let l := sortCands Cand.before (s.candidates die)
  l.zipIdx.map fun e =>
    if e.1.pipe.isNone then e.1
    else (sortCands Cand.stageBefore (l.filter e.1.peer)).getD ((l.take e.2).filter e.1.peer).length e.1

/-- The allocation of a candidate. -/
def State.candAl (s : State) (c : Cand) : Alloc :=
  match c.blk with
  | some h => (s.block h).al
  | none => match SMap.find? s.grps c.grp with
    | some g => g.al
    | none => .zero

/-- The context of a candidate. -/
def State.candCtx (s : State) (c : Cand) : Nat :=
  match c.blk with
  | some h => (s.block h).ctx
  | none => match SMap.find? s.grps c.grp with
    | some g => g.ctx
    | none => 0

/-- The place of a chain successor: its predecessor's core and slots, when they are free (R35), on the die where its
predecessor ended. -/
def State.chainPlace (s : State) (g : Grp) (mem : Nat) : Option (Nat × Nat × List Nat) :=
  match s.chainPred g with
  | none => none
  | some p => match SMap.find? p.2.places mem with
    | none => none
    | some (die, core, slots) =>
      let free := slots.all fun k => !(s.slotsUsed die core).contains k
      if free && slots.length == g.al.waves && s.fitsCore g.ctx g.al die core then some (die, core, slots) else none

/-- Where a member of a group that waits on a die is placed: its predecessor's place when that is free, else by R358. -/
def State.placeOf (s : State) (g : Grp) (mem die : Nat) : Option (Nat × Nat × List Nat) :=
  match s.chainPlace g mem with
  | some p => some p
  | none => (s.chooseCore g.ctx g.al die).map fun c => (die, c, s.takeSlots die c g.al.waves)

/-- Create member `mem` of a group whose home is a die. -/
def State.createMember (s : State) (id mem die : Nat) : Option State :=
  match SMap.find? s.grps id with
  | none => none
  | some g =>
    match s.placeOf g mem die with
    | none => none
    | some (at_, core, slots) =>
      let s := s.updGrp id fun g => { g with next := SMap.insert g.next die (SMap.get g.next 0 die + 1), made := SMap.insert g.made mem () }
      let pred := s.chainPred g
      let dead := match pred with
        | some p => p.2.cancelled || SMap.has p.2.lost mem
        | none => false
      let h := s.handles
      let s := { s with handles := h + 1 }
      let b := { g.block id h mem with home := if g.kind = .fork then g.home else die }
      if dead then
        let s := s.setBlock h { b with st := .ended, cancelled := true, die := at_ }
        some (s.post (.instanceEnd .block h))
      else
        let image (i : Nat) : SMap W32 := match pred with
          | some p => SMap.get p.2.images [] (32 * mem + i)
          | none => []
        some ((s.setSplit at_ core (splitOf g.al.scratch)).bringIn g b at_ core slots image)

/-- Place a restarted block again with the state of R331, a chain successor where R35 places it. -/
def State.replaceBlock (s : State) (h die : Nat) : Option State :=
  let b := s.block h
  match SMap.find? s.grps b.grp with
  | none => none
  | some g => match s.placeOf g b.mem die with
    | none => none
    | some (at_, core, slots) =>
      let s := s.setSplit at_ core (splitOf b.al.scratch)
      let fresh : Block := { g.block b.grp h b.mem with ownPrio := b.ownPrio, prio := b.prio, home := b.home }
      let image (i : Nat) : SMap W32 := match s.chainPred g with
        | some p => SMap.get p.2.images [] (32 * b.mem + i)
        | none => []
      some (s.bringIn g fresh at_ core slots image)

/-- Place one candidate; a saved block is restored by BLOCK_RESTORE. -/
def State.placeCand (s : State) (die : Nat) (c : Cand) : Option State :=
  match c.blk with
  | some h => if (s.block h).st = .saved then
      (s.chooseCore (s.block h).ctx (s.block h).al die).map fun _ => s.postOnce (.blockRestore h)
    else s.replaceBlock h die
  | none => s.createMember c.grp c.mem die

/-- Place the first candidate of a die that fits. -/
def State.placeFirst (s : State) (die : Nat) : List Cand → State
  | [] => s
  | c :: cs => match s.placeCand die c with
    | some t => if c.blk.isSome && (s.block (c.blk.getD 0)).st == .saved then t else t.postOnce (.blockPlace die)
    | none => s.placeFirst die cs

def execBlockPlace (die : Nat) (s : State) : Host.Outcome State Fault Refusal := .next (s.placeFirst die (s.waitingOn die))

/-- SPLIT_CHANGE: a core without a block takes the split of the first waiting block of its die. -/
def execSplitChange (die core : Nat) (s : State) : Host.Outcome State Fault Refusal :=
  match s.waitingOn die with
  | c :: _ => .next ((s.setSplit die core (splitOf (s.candAl c).scratch)).postOnce (.blockPlace die))
  | [] => .next s

/-! ### Copy packets (R353) -/

/-- Run the commands of a block to their ends. -/
def State.driveCopy (s : State) (h : Nat) : Nat → State
  | 0 => s
  | n + 1 => match s.cmds.find? fun c => c.blk == h with
    | none => s
    | some c =>
      let o := match c.event with
        | .engineLand id => execEngineLand id s
        | _ => execEngineSourceRead c.id s
      match o with
      | .next t => t.driveCopy h n
      | _ => s

/-- How a copy packet's member ends: performed; short of pool bytes for its view (R61); failed; its control block poisoned
(R401); missing a translation; to be tried again. The first two failures keep the decode errors counted till then (R132). -/
inductive CopyR where
  | did (s : State)
  | short (n : Nat)
  | failed (s : State)
  | poisoned (s : State) (pa : Nat)
  | missing (va : W64)
  | later
  deriving DecidableEq, Repr

/-- Perform the `cpy` of a copy packet in the member's view. -/
def State.copyBody (s : State) (va : W64) : CopyR :=
  let run (t : State) : Res := t.accessAll [0] .load .g 64 true false false (fun _ => va) fun t ps =>
    match ps with
    | p :: _ =>
      let bs := leBytes 64 (t.readPlace p.2.2 64)
      let t := t.countWindow ps 64
      if fieldAt bs 0x28 8 ≠ 0 then .trap t (.of 5 0 va) else t.copyFrom bs va 0 true
    | [] => .done t
  match run s with
  | .done t =>
    let n := t.w.view.charge
    if t.supply s.w.blk n = .ok then
      .did ((t.addCharge s.w.blk n).driveCopy s.w.blk (4 * (t.cmds.foldl (fun n c => n + c.els.length) 0) + 4))
    else .short n
  | .fault _ a _ _ => .missing a
  | .poison t pa => .poisoned t pa
  | .stall _ => .later
  | .trap t _ | .moved t | .gone t => .failed t
  | .close => .failed s

/-- A copy that misses a translation asks the driver for it and starts again when it is supplied. -/
def State.joinCopy (s : State) (id : Nat) (g : Grp) (die : Nat) (va : W64) : State :=
  if s.faults.any fun f => f.die == die && f.ctx == g.ctx && f.va.toNat / 65536 == va.toNat / 65536 then s
  else
    let used := (s.faults.filter fun f => f.die == die).map (·.entry)
    match (List.range Config.faultEntries).find? fun e => !used.contains e with
    | none => s.postOnce (.launchStart id)
    | some e => State.post { s with faults := s.faults ++ [⟨die, e, g.ctx, va, 4, false⟩] } (.faultRecordAppend die e)

/-- Perform a copy packet as a block of one wave. `nr` is a 64 KiB range whose translation the driver has refused. -/
def State.runCopy (s : State) (nr : Option Nat) (id : Nat) (g : Grp) : State :=
  let h := s.handles
  let die := (s.diesOf g.ctx).headD 0
  let t := { s with handles := h + 1 }.bringIn { g with entry := 0 } { g.block id h 0 with home := die } die 0 [] fun _ => []
  let t := t.updBlock h fun b => { b with tagready := 1 }
  let key := 32 * h
  let r : CopyR := { t.load key with run := 1 }.copyBody g.entry
  let ended (u : State) : State := State.updGrp { s with pf := u.pf } id fun g => { g with st := .running }
  match r with
  | .did u =>
    let u := u.stow
    let u := u.updWave key fun w => { w with st := .ended }
    let u := u.updGrp id fun g => { g with st := .running }
    let u := u.afterWave h
    if s.w.st = .absent then u else { u.load s.w.key with run := s.run }
  | .missing va =>
    if nr = some (va.toNat / 65536) then (s.updGrp id fun g => { g with st := .running }).failGrp id else s.joinCopy id g die va
  | .short n => (s.makeRoom n s.forksDescending).postOnce (.launchStart id)
  | .poisoned u loc => ((ended u).launchErr (locDie loc) g.ctx (sectorUnit loc) (sectorAddr loc) 0xFF 0).failGrp id
  | .later => s.postOnce (.launchStart id)
  | .failed u => (ended u).failGrp id

/-- Start a pending launch that may start; `nr` as for a copy packet. -/
def State.beginLaunch (s : State) (nr : Option Nat) (id : Nat) : State :=
  match SMap.find? s.grps id with
  | none => s
  | some g =>
    if g.st ≠ .pending || g.kind == .fork || g.cancelled || (s.ctx g.ctx).killing || !s.mayStart g then s
    else match s.dsmFree (dsmUnit g.dsm) with
    | none => s
    | some off =>
      let v := if g.kind = .device then (g.start, g.vis) else s.startView g
      let s := if g.kind = .host && (s.ctx g.ctx).pcur.isNone then
          s.setCtx g.ctx { s.ctx g.ctx with pcur := some (g.job.toNat, g.phase.toNat), shadow := [] } else s
      let g := { g with start := v.1, vis := v.2, dsmOff := off }
      if g.copy && s.prank g.ctx = 0 then ({ s with grps := SMap.insert s.grps id g }).runCopy nr id g
      else ({ s.clearDsm off (dsmUnit g.dsm) with grps := SMap.insert s.grps id { g with st := .running } }).placeAll

/-- Start a pending launch that may start. -/
def State.startLaunch (s : State) (id : Nat) : State := s.beginLaunch none id

def execLaunchStart (id : Nat) (s : State) : Host.Outcome State Fault Refusal := .next (s.startLaunch id)

/-! ### Ends -/

/-- INSTANCE_END of a block, launch, fork, graph, phase or job (R15, R42, R352); of a block that runs, its barrier phase
or its end may be due (R41, R91). -/
def execInstanceEnd (lvl : Lvl) (id : Nat) (s : State) : Host.Outcome State Fault Refusal :=
  .next (match lvl with
    | .block => if (s.block id).st = .resident then s.afterWave id else s.blockEnded id
    | .launch => s.launchEnded id
    | .fork => s.forkEnded id
    | .graph => s.graphEnded id
    | .phase => s.phaseEnded id
    | .job => s.jobEnded id)

/-- STEP_BOUNDARY: the end of a phase whose last graph has ended (R353). -/
def execStepBoundary (id : Nat) (s : State) : Host.Outcome State Fault Refusal := .next (s.phaseEnded id)

/-- WAVE_END_AFTER_LAUNCHES (R243). -/
def execWaveEndAfterLaunches (blk wv : Nat) (s : State) : Host.Outcome State Fault Refusal :=
  let k := 32 * blk + wv
  .next (if (s.wave k).st = .ending && s.launchesDone k then s.finishWave k else s)

end Sys2Proof.Machine
end

