-- ==== Sys2Proof/Machine/Waits.lean ====
section
/-! DEFINITION. Events of waves and of the waits between them: a parked group rejoins (R24), replies arrive (R78, R138), requests
reach their home (R80, R82), order gates admit (R121 to R123), the wait checker (R115, R116), the stall watchdog (R120),
inheritance (R37), pipelines (R360), towing (R361, R362), token buckets (R363), pending traps (R380), regions and strikes
(R248, R332 to R334), poison (R401) and error records (R398 to R400). -/

namespace Sys2Proof.Machine

/-! ### Parked groups (R24) -/

/-- Take up the results of a group's waits that are not yet delivered; a launch folds now, at the completing read of its counter
(R242), and a conflict is a trap of that word. -/
def State.takeWaits (s : State) : List WaitR → State
  | [] => s
  | r :: rs =>
    let t := if r.kind = .count then
        let c := s.readCount r.aux r.loc
        let u := c.1.writeRes r
        match c.2.2 with
        | some x => u.setW { u.w with pend := u.w.pend ++ [⟨6, x.info, x.addr, some (r.word, r.mask, r.mask), []⟩] }
        | none => u
      else s.writeRes r
    t.takeWaits rs

/-- Whether a parked queue operation was found bad (R109): its word trapped, and pushes nothing (R176). -/
def Group.bad (g : Group) : Bool := g.waits.any fun r => (r.kind == .push || r.kind == .pop) && r.aux == 1

/-- The oldest group of the wave that is checked out rejoins the PC table with age 0; its word retires, with its pushes
(R176) and the charges of what it folds (R58). -/
def State.rejoin (s : State) : State :=
  match s.w.groups with
  | [] => s
  | g :: gs =>
    let ready := s.w.st == .running && !s.w.halted && s.w.fwait.isNone && s.w.pend == [] && s.headRun.isNone &&
      g.waits.all (fun r => r.done) && !(g.waits.any (fun r => r.kind == .count) && s.viewBusy)
    if !ready then s
    else
      let s := s.dropBurst
      let age := (lanesOf g.mask).foldl (fun t l => SMap.set t 0 l 0) s.w.age
      let t := (s.setW { s.w with groups := gs, age := age }).takeWaits g.waits
      let t := if t.w.pend != [] || g.bad then t else t.setW (t.w.pushKept g.hold)
      t.settleCharge s t

def execParkedGroupRejoin (blk wv : Nat) (s : State) : Host.Outcome State Fault Refusal :=
  .next (s.within (32 * blk + wv) State.rejoin)

/-! ### Requests and replies -/

/-- A request has reached its home: the phase of its round may have waited for it. -/
def State.roundArrived (s : State) (q : Req) : State :=
  if q.round == (s.bar q.blk q.bar).phase then (s.checkClose q.blk q.bar).wake else s

/-- ROUND_REQUEST_ARRIVE: in its channel's order (R89) the home holds the request. A full buffer is written out as a run
first; while no spill area has room for the run the request waits (R82). -/
def execRoundRequestArrive (req : Nat) (s : State) : Host.Outcome State Fault Refusal :=
  match s.reqs.find? fun q => q.id == req with
  | none => .next s
  | some q =>
    let full := s.bufferFull q.loc
    .next (if q.held then s
      else if s.reqBehind q then s.postOnce (.roundRequestArrive req)
      else if full && (s.runTo q.loc).isNone then (s.postOnce (.roundRequestArrive req)).roundArrived q
      else State.roundArrived { s with reqs := s.reqs.map fun x =>
        if x.id = req then { x with held := true }
        else if full && x.held && !x.spilled && bufferOf x.loc == bufferOf q.loc then
          { x with spilled := true, far := s.runTo q.loc == some true }
        else x } q)

/-! ### Order gates (R121 to R123) -/

/-- Perform an admitted request: an atomic operation, or a free lock's acquire or release (R110), which consumes poison that it
finds in the lock's line (R401). -/
def State.admitted (s : State) (q : Req) : State :=
  let s := { s with gate := s.gate.filter fun x => x.id != q.id }
  let k := 32 * q.blk + q.wv
  let s := if !q.lock then s.applyReq q
    else if s.poisoned q.loc 64 then s.poisonBlock q.blk q.loc
    else if q.op = .store then (s.freeRelease q.loc).ungrant k q.loc true
    else
      let acqs := s.loc (q.loc + 8) 8 + 1
      let s := ((s.setLoc (q.loc + 1) 1 1).setLoc (q.loc + 4) 4 q.blk).setLoc (q.loc + 8) 8 acqs
      let s := match (s.wave k).waits.find? fun r => r.kind == .free && r.aux == q.id && !r.done with
        | none => s
        | some r =>
          let u := s.satisfy k r (bytesRegs 2 acqs)
          u.1.updWave k fun w => w.mapWaits fun x => if x = r then u.2 else x
      s.grant k q.loc true q.va 0
  (s.gate.foldl (fun s x => if x.loc / 64 = q.loc / 64 then s.postOnce (.gateAdmit x.id) else s) s).wake

/-- Whether an earlier operation of the wave on a byte of the location that is no acquire is still to be admitted (R79). -/
def State.gateBehind (s : State) (q : Req) : Bool :=
  s.gate.any fun x => x.blk == q.blk && x.wv == q.wv && decide (x.loc < q.loc + q.span) && decide (q.loc < x.loc + x.span) &&
    decide (x.id < q.id) && !(x.lock && x.op == .swap)

/-- Whether a lane that a chunk names has ended (R123). -/
def State.laneEnded (s : State) (c : Nat) (ch : Chunk) : Bool :=
  let wv := fieldAt ch.ident 0x11 1
  match s.handles_.find? fun h => (s.block h).ctx == c && identField (s.block h) wv == ch.ident with
  | some h =>
    let w := s.wave (32 * h + wv)
    w.st == .ended || w.st == .ending || (s.block h).st == .ended || w.exited.getLsbD ch.lane
  | none => (s.ctx c).gone.any fun g => identField { Block.absent with gid := g } wv == ch.ident

/-- The line VA of a request. -/
def Req.lineVa (q : Req) : Nat := q.va.toNat / 64 * 64

/-- The gate raises 0x0C in the waiting lane of lowest issuer identity (R123), and looks at the others again. -/
def State.diverge (s : State) (q : Req) : State :=
  let line := s.gate.filter fun x => x.held && x.ctx == q.ctx && x.loc / 64 == q.loc / 64
  let v := line.foldl (fun m x => if gidLt x.index m.index then x else m) q
  let s := { s with gate := s.gate.filter fun x => x.id != v.id }
  let s := line.foldl (fun s x => if x.id = v.id then s else s.postOnce (.gateAdmit x.id)) s
  if (s.wave (32 * v.blk + v.wv)).st = .absent then s
  else s.updWave (32 * v.blk + v.wv) fun w => { w with pend := w.pend ++ [.of 0x0C 0 (BitVec.ofNat 64 v.lineVa)] }

/-- Whether a request waits for a held free lock (R110). -/
def State.lockBlocked (s : State) (q : Req) : Bool := q.lock && q.op == .swap && s.loc (q.loc + 1) 1 % 2 == 1

/-- Admission at the gate of a sluice line on replay. -/
def State.gateReplay (s : State) (q : Req) : State :=
  let c := s.ctx q.ctx
  let ix := match c.log with
    | some ix => ix
    | none => s.logRead q.ctx
  match SMap.get ix.lines [] q.lineVa with
  | [] => s.diverge q
  | ch :: rest =>
    if ch.ident = q.ident ∧ ch.lane = q.lane then
      if s.lockBlocked q then s else
      let left := if ch.count ≤ 1 then rest else { ch with count := ch.count - 1 } :: rest
      (s.setCtx q.ctx { c with log := some { ix with lines := SMap.insert ix.lines q.lineVa left } }).admitted q
    else if s.laneEnded q.ctx ch then s.diverge q else s

/-- A request reaches its gate: the list holds those that have in the order of their arrival. -/
def State.atGate (s : State) (id : Nat) : State :=
  { s with gate := (s.gate.filter fun x => x.id != id) ++ (s.gate.filter fun x => x.id == id).map fun x => { x with held := true } }

/-- Whether an acquire waits for the lock that arrived before a request (R110, R122). -/
def State.acquireBefore (s : State) (q : Req) : Bool :=
  q.lock && q.op == .swap &&
    ((s.gate.filter fun x => x.held).takeWhile fun x => x.id != q.id).any fun x => x.lock && x.op == .swap && x.loc / 64 == q.loc / 64 && !x.spilled

/-- A gate stops admitting a request: the log is full (R122). -/
def State.gateStopped (s : State) (id : Nat) : State :=
  { s with gate := s.gate.map fun x => if x.id = id then { x with spilled := true } else x }

/-- The gate's decision on a request that has reached it. -/
def State.gateDecide (s : State) (q : Req) : State :=
  if s.gateBehind q then s
  else if isDm q.loc then (if s.lockBlocked q || s.acquireBefore q then s else s.admitted q)
  else if s.replaying q.ctx then s.gateReplay q
  else if s.lockBlocked q || s.acquireBefore q then s
  else match s.logAdmit q.ctx q.lineVa q.ident q.lane with
    | some t => t.admitted q
    | none => s.gateStopped q.id

/-- GATE_ADMIT: the request reaches its gate in its channel's order (R89), and is admitted when its turn has come. -/
def execGateAdmit (req : Nat) (s : State) : Host.Outcome State Fault Refusal :=
  match s.gate.find? fun q => q.id == req with
  | none => .next s
  | some q =>
    .next (if !q.held && s.reqBehind q then s.postOnce (.gateAdmit req)
      else (if q.held then s else s.atGate req).gateDecide q)

/-- REPLAY_LOG_INDEX (R125): the log is read once, and the packets that waited for it may start. -/
def execReplayLogIndex (ctx : Nat) (s : State) : Host.Outcome State Fault Refusal :=
  .next (if (s.ctx ctx).log.isSome then s
    else (s.setCtx ctx { s.ctx ctx with log := some (s.logRead ctx) }).startsAgain)

/-! ### The wait checker (R115, R116) -/

/-- PRIORITY_PROPAGATE: effective priorities over every edge of the package. -/
def execPriorityPropagate (s : State) : Host.Outcome State Fault Refusal := .next s.reprio

/-- PACKAGE_CYCLE_DETECT: the walks start from each wave in ascending global block ID and wave index (log 119), and the first cycle
found raises its trap; those that stand beside it are found again. -/
def execPackageCycleDetect (s : State) : Host.Outcome State Fault Refusal :=
  let n := s.wft.length
  .next (match (s.byId s.waveKeys).findSome? fun k => s.findCycle s.wft k (n + 1) k [k] with
    | some c => (s.raiseDeadlock c true).postOnce .packageCycleDetect
    | none => s)

/-! ### The stall watchdog (R120) -/

/-- A parked group whose waits are satisfied but which cannot rejoin: an older one stands before it, or the wave is not
blocked (R24). -/
def State.unjoined (s : State) (k : Nat) : Option Group :=
  ((s.wave k).groups.zipIdx.find? fun g => (g.1.waits.all fun r => r.done) && (g.2 != 0 || (s.load k).headRun.isSome)).map Prod.fst

/-- The condition that stalls a wave, with the object's VA. -/
def State.stallOf (s : State) (k : Nat) : Option (Nat × W64) :=
  let w := s.wave k
  let open_ : List WaitR := w.groups.flatMap fun g => g.waits.filter fun r => !r.done
  match s.unjoined k with
  | some g => some (0, (g.waits.map (·.va)).headD 0)
  | none => match open_.find? fun r => r.kind.registered && !r.reg with
    | some r => some (1, r.va)
    | none => match open_.find? fun r => r.kind == .bar && (s.bar w.blk r.loc).ovr with
      | some r => some (5, r.va)
      | none => match s.gate.find? fun q => q.blk == w.blk && q.wv == w.idx && q.spilled with
        | some q => some (6, q.va)
        | none => w.stall.map fun c => (c, 0)

/-- STALL_WATCHDOG_EXPIRY: the wave has been stalled for one period, `State.wdog` of its context. -/
def execStallWatchdogExpiry (blk wv : Nat) (s : State) : Host.Outcome State Fault Refusal :=
  let k := 32 * blk + wv
  let w := s.wave k
  if w.st ≠ .running ∨ w.halted ∨ w.pend.any (fun t => t.cause == 0x0B) then .next s
  else match s.stallOf k with
  | some (c, va) => .next (s.setWave k { w with pend := w.pend ++ [.of 0x0B (BitVec.ofNat 64 c) va], stall := none })
  | none => .next s

/-- PENDING_TRAP_TAKE (R378, R380). -/
def execPendingTrapTake (blk wv : Nat) (s : State) : Host.Outcome State Fault Refusal :=
  .next (s.within (32 * blk + wv) fun s => if s.w.st = .running && !s.w.halted then s.takePending else s)

/-! ### Room for a save (R375, R376) -/

/-- Round up to a multiple of k. -/
def roundUp (n k : Nat) : Nat := (n + k - 1) / k * k

/-- Where the parts after the v registers begin. -/
def Alloc.dAt (al : Alloc) : Nat := 0x4000 + 128 * al.vregs
def Alloc.accAt (al : Alloc) : Nat := al.dAt + 2112 * al.dregs
def Alloc.shtAt (al : Alloc) : Nat := al.accAt + 4096 * al.acct
/-- Bytes of a wave record. -/
def Alloc.recLen (al : Alloc) : Nat := roundUp (al.shtAt + 1024 * al.sht) 4096

/-- Scratchpad bytes of a record, and its race-tag bytes. -/
def Alloc.scLen (al : Alloc) : Nat := roundUp al.scratch 1024
def Alloc.wavesAt (al : Alloc) : Nat := 0x1000 + al.scLen + al.scLen / 16 * 2
/-- Bytes of the whole record. -/
def Alloc.saveLen (al : Alloc) : Nat := al.wavesAt + al.waves * al.recLen

/-- The first free range of a context's save area for n bytes: an offset. -/
def State.saveFree (s : State) (c n : Nat) : Option Nat :=
  let used := s.handles_.filterMap fun h =>
    let b := s.block h
    if b.st == .saved && b.ctx == c then some (b.savePlace, roundUp b.al.saveLen 65536) else none
  let mapped (o : Nat) : Bool := (List.range (n / 65536)).all fun k => match s.walk c (s.savebase c + o + 65536 * k) with
    | .leaf _ => true
    | _ => false
  firstFit (s.savelen c) n used mapped

/-- Whether a block stands suspended by an escalation or a debugger. -/
def State.suspended (s : State) (h : Nat) : Bool := !(s.block h).stopping && (s.wavesOf h).any fun k => (s.wave k).halted

/-! ### Inheritance, pipelines and towing -/

/-- The resident blocks of a die, highest global block ID first, of those that satisfy a condition. -/
def State.residentDown (s : State) (p : Block → Bool) : List Nat :=
  let hs := s.handles_.filter fun h => (s.block h).st == .resident && p (s.block h)
  hs.foldl (fun l h => (l.filter fun x => gidLt (s.block h).gid (s.block x).gid) ++ [h] ++
    l.filter fun x => !gidLt (s.block h).gid (s.block x).gid) []

/-- Whether a block's waves are outside every handler. -/
def State.noFrames (s : State) (h : Nat) : Bool := (s.wavesOf h).all fun k => (s.wave k).frames == []

/-- Whether a block can be saved for another one's sake: else the save passes to the next candidate (R375). -/
def State.maySave (s : State) (h : Nat) : Bool :=
  let b := s.block h
  s.noFrames h && !s.suspended h && (s.saveFree b.ctx (roundUp b.al.saveLen 65536)).isSome

/-- Whether a resident block waits through a registered wait on an object that a block holds (R37, R38). -/
def State.waitedFor (s : State) (holder : Nat) : Bool :=
  s.wft.any fun x => x.blk != holder && (s.block x.blk).st == .resident && s.wft.any fun y => y.blk == holder && edgeVia x y

/-- INHERITANCE_SAVE (R37): one more block of lower effective priority is saved until the holder can be placed. -/
def execInheritanceSave (die holder : Nat) (s : State) : Host.Outcome State Fault Refusal :=
  let b := s.block holder
  if b.st ≠ .waiting ∧ b.st ≠ .saved ∨ b.die ≠ die ∨ !s.waitedFor holder then .next s
  else if (s.chooseCore b.ctx b.al die).isSome then .next (s.postOnce (.blockPlace die))
  else match (s.residentDown fun x => x.die == die && decide (x.prio < b.prio)).find? s.maySave with
  | some h => .next ((s.postOnce (.blockSave h)).postOnce (.inheritanceSave die holder))
  | none => .next s

/-- The resident blocks of a stage on a die. -/
def State.stageBlocks (s : State) (id die : Nat) : List Nat := (s.blocksOf id).filter fun h => (s.block h).st == .resident && (s.block h).die == die

/-- Whether a wave is parked in `qpop` or `qpush` on a queue. -/
def Wave.parkedOn (w : Wave) (kind : WaitKind) (va : W64) : Bool :=
  w.groups.any fun g => g.waits.any fun r => r.kind == kind && r.va == va && !r.done

/-- The stages of a pipeline: launches of one graph with a stage. -/
def Grp.sameGraph (g h : Grp) : Bool :=
  h.kind == .host && h.stage != 0xFF && h.ctx == g.ctx && h.job == g.job && h.phase == g.phase && h.graph == g.graph

/-- P and R of a stage after an interval, and for how many in succession every resident wave of it was parked in `qpop`
(R360). -/
def State.pressNow (s : State) (id : Nat) (g : Grp) (die : Nat) : Press :=
  let ks := ((s.stageBlocks id die).flatMap s.wavesOf).filter fun k => (s.wave k).st != .ended
  let next := List.find? (fun e : Nat × Grp => g.sameGraph e.2 && e.2.stage == g.stage + 1) s.grps
  let out := match next with
    | some e => e.2.qin
    | none => 0
  let idle (k : Nat) : Bool := (s.wave k).groups.any fun g => g.waits.any fun r => r.kind == .pop && !r.done
  let full (k : Nat) : Bool := next.isSome && (s.wave k).parkedOn .push out
  ⟨(ks.filter fun k => (s.wave k).parkedOn .pop g.qin || full k).length, (s.stageBlocks id die).length,
    if ks != [] && ks.all idle then (SMap.get s.press Press.zero (8 * id + die)).starved + 1 else 0⟩

/-- The stage with P = 0 and a block waiting for which a starved stage gives up a block, the lowest such stage (R360). -/
def State.stageFor (s : State) (die : Nat) (stages : SMap Grp) (e : Nat × Grp) : Option Nat :=
  let now (id : Nat) : Press := SMap.get s.press Press.zero (8 * id + die)
  if (now e.1).starved < 2 then none
  else
    let fit := stages.filter fun f => f.1 != e.1 && e.2.sameGraph f.2 && (now f.1).p == 0 && (s.waitingOn die).any fun c => c.grp == f.1
    (fit.foldl (fun (m : Option (Nat × Grp)) f => if m.any fun x => x.2.stage ≤ f.2.stage then m else some f) none).map Prod.fst

/-- PIPELINE_PRESSURE_INTERVAL (R360): each starved stage gives up one block. -/
def execPipelinePressureInterval (die : Nat) (s : State) : Host.Outcome State Fault Refusal :=
  let stages := s.grps.filter fun e => e.2.kind == .host && e.2.stage != 0xFF && e.2.st == .running
  let press := stages.foldl (fun m e => SMap.set m Press.zero (8 * e.1 + die) (s.pressNow e.1 e.2 die)) s.press
  let s := { s with press := press }
  .next (stages.foldl (fun (t : State) e => match s.stageFor die stages e with
    | none => t
    | some f => match (s.residentDown fun b => b.die == die && b.grp == e.1).find? s.maySave with
      | some h => (t.updBlock h fun b => { b with heir := some f }).postOnce (.blockSave h)
      | none => t) s)

/-- Whether every wave of a block stands between two words (R361 step 1): none waits for a translation or goes on with a
word it has begun. -/
def State.atBoundary (s : State) (h : Nat) : Bool :=
  (s.wavesOf h).all fun k => let w := s.wave k; w.st == .ended || (w.fwait.isNone && w.begun == [])

/-- Whether no engine command of a block is in flight (R361 step 2). -/
def State.blockQuiet (s : State) (h : Nat) : Bool := !(s.cmds.any fun c => c.blk == h)

/-- Move a block to another core: what belongs to it moves with it (R361). -/
def State.moveBlock (s : State) (h die core : Nat) : State :=
  let b := s.block h
  let old := s.coreOf b.die b.core
  let s := s.setCore b.die b.core { old with fwd := (old.fwd.filter fun e => e.1 != h) ++ [(h, s.ids)] }
  let s := (s.wavesOf h).foldl (fun s k => s.updWave k Wave.closeWindow) s
  let slots := s.takeSlots die core b.al.waves
  let s := s.setSplit die core (splitOf b.al.scratch)
  let s := s.updBlock h fun b => { b with die := die, core := core, slots := slots }
  let s := { s with wft := s.wft.map fun (e : WaitEnt) => if e.blk = h then { e with die := die } else e }
  (s.post (.towForwardRemove h)).postOnce (.blockPlace b.die)

/-- Whether the head run of a wave can issue. -/
def State.canIssue (s : State) (k : Nat) : Bool :=
  let w := s.wave k
  w.st == .running && !w.halted && w.fwait.isNone && w.pend == [] && w.stall.isNone && (s.load k).headRun.isSome

/-- TOW: `core` numbers a core of the package, 36 × die + core. -/
def execTow (blk core : Nat) (s : State) : Host.Outcome State Fault Refusal :=
  let b := s.block blk
  let die := core / 36
  let c := core % 36
  let here := s.resident b.die b.core
  let busy := here.filter fun h => (s.wavesOf h).any s.canIssue
  let top := here.all fun h => !gidLt b.gid (s.block h).gid
  let ok := b.st == .resident && decide (die < Config.dies) && decide (2 ≤ busy.length) && (s.resident die c == []) && top &&
    s.noFrames blk && s.atBoundary blk && s.blockQuiet blk && s.fitsCore b.ctx b.al die c
  .next (if ok then s.moveBlock blk die c else s)

/-- Whether a forwarding entry of a core must stay: a message that its die injected before the tow is under way (R362). -/
def State.fwdStays (s : State) (key : Nat) (e : Nat × Nat) : Bool := !s.dieQuiet (key / 64) true e.2

/-- TOW_FORWARD_REMOVE (R362): the entry goes once the sweep probes of the old die have returned. -/
def execTowForwardRemove (blk : Nat) (s : State) : Host.Outcome State Fault Refusal :=
  let keep (e : Nat × Core) : Option (Nat × Core) :=
    let c := { e.2 with fwd := e.2.fwd.filter fun f => f.1 != blk || s.fwdStays e.1 f }
    if c = Core.zero then none else some (e.1, c)
  let t : State := { s with cores := s.cores.filterMap keep }
  .next (if t.cores.any fun e => e.2.fwd.any fun f => f.1 == blk then t.postOnce (.towForwardRemove blk) else t)

/-- TOKEN_BUCKET_REFILL: `tokens` holds how far each bucket is below its depth (R363). -/
def execTokenBucketRefill (s : State) : Host.Outcome State Fault Refusal :=
  .next { s with tokens := s.tokens.filterMap fun e =>
    let rate : Int := fld (s.pfNum (Pf.tbcfg (e.1 / 8) (e.1 % 8))) 0 32
    let left : Int := if rate = 0 then 0 else e.2 - rate
    if left ≤ 0 then none else some (e.1, left) }

/-! ### Regions and strikes (R248, R332 to R334) -/

/-- REGION_RELEASE: a closed region's effects are released. -/
def execRegionRelease (blk wv : Nat) (s : State) : Host.Outcome State Fault Refusal :=
  .next (s.updWave (32 * blk + wv) fun w => match w.region with
    | some r => if r.closed then { w with region := none } else w
    | none => w)

/-- PIN_WINDOW_EXPIRY: a window whose 64 issue events are over closes (R222). -/
def execPinWindowExpiry (blk wv : Nat) (s : State) : Host.Outcome State Fault Refusal :=
  .next (s.updWave (32 * blk + wv) fun w => if w.window = some 0 then w.closeWindow else w)

/-- Re-execute the region of a wave: it resumes at the entry, its held effects are discarded (R139, R177, R248, R333). -/
def State.reexecute (s : State) (k : Nat) (r : Region) : State :=
  let h := k / 32
  let w := s.wave k
  let back := w.view.charge - r.view.charge
  let s := s.dropCharge h back
  let s := s.updBlock h fun b => { b with sc := r.undo.foldl (fun m e => Memory.setByte m e.1 e.2) b.sc }
  s.setWave k { w.closeWindow with
    pc := r.pc
    age := r.age
    exited := r.exited
    burst := 0
    promo := 0
    groups := []
    fwait := none
    begun := []
    stall := none
    view := r.view
    stores := r.stores
    crc := r.crc
    r := { w.r with lat := [] }
    sp := { w.sp with fflags := r.fflags, rng := r.rng, mrow := 0, cprog := 0 }
    region := some { r with held := .empty, undo := [], closed := false } }

/-- The waves on a core, migrated ones included. -/
def State.wavesAt (s : State) (die core : Nat) : List Nat :=
  s.waveKeys.filter fun k =>
    let w := s.wave k
    let b := s.block (k / 32)
    w.st != .ended && b.st == .resident && (match w.place with
      | some p => p.1 == die && p.2.1 == core
      | none => b.die == die && b.core == core)

/-- The rank of the record that an error in a block's state will bring, before those of lower rank and higher UNIT (R399): the
end of its launch, the third strike on its fork, a re-execution of its fork. -/
def State.strikeOrder (s : State) (h : Nat) : Nat :=
  match s.ownFork h with
  | none => 0
  | some id => match SMap.find? s.grps id with
    | some g => if 2 ≤ g.execs then 1 else 2
    | none => 2

/-- STRIKE_REPORT: every unreleased region of the core is re-executed, with one corrected record; the block of a wave outside
any region is struck (R334, R402). The records of one report are placed in descending RANK, then ascending UNIT (R399). -/
def execStrikeReport (die core : Nat) (s : State) : Host.Outcome State Fault Refusal :=
  let ks := s.wavesAt die core
  let inside := ks.filterMap fun k => (s.wave k).region.map fun r => (k, r)
  let struck := (ks.filter fun k => (s.wave k).region.isNone).foldl (fun l k => addOnce l (k / 32)) []
  let s := inside.foldl (fun s e => s.reexecute e.1 e.2) s
  let hs := (List.range 3).flatMap fun n => struck.filter fun h => s.strikeOrder h == n
  let s := hs.foldl (fun s h => if (s.block h).st = .resident then s.strikeBlock h else s) s
  .next (s.placeErr die ⟨1, 0, 0x07, 0, 0, BitVec.ofNat 8 core, 0, Config.syndrome s.free, BitVec.ofNat 64 inside.length⟩)

/-- FORK_REEXECUTE: an uncorrected error has struck a fork (R62). -/
def execForkReexecute (id : Nat) (s : State) : Host.Outcome State Fault Refusal := .next (s.strikeFork id)

/-! ### Errors (R398 to R401) -/

/-- SECTOR_POISON: an uncorrected error in a sector that nothing has consumed, at a location of device memory or of die shared
memory; a deferred record is written. -/
def execSectorPoison (pa : Nat) (s : State) : Host.Outcome State Fault Refusal :=
  let t := { s with poison := SMap.insert s.poison (pa / 16) () }
  .next (t.placeErr (locDie pa) ⟨2, 0, sectorUnit pa, 0, 0, 0xFF, sectorAddr pa, Config.syndrome s.free, 0⟩)

/-- ERROR_RECORD_PLACE: a unit of a socket reports an error. Codes that are never written and reserved
units place nothing. -/
def execErrorRecordPlace (socket : Nat) (r : ErrRec) (s : State) : Host.Outcome State Fault Refusal :=
  .next (if r.rank = 0 ∨ r.retry = 3 ∨ r.unit = 0 ∨ 0x0E ≤ r.unit ∨ 26 ≤ socket then s else s.placeErr socket r)

/-- Whether a unit is a link whose flits are sent again (Table 127). -/
def isLink (unit : BitVec 8) : Bool := unit == 0x09 || unit == 0x0A || unit == 0x0B

/-- LINK_FLIT_RESEND: a flit of a link has passed at its second attempt: a corrected, transient error (R400). -/
def execLinkFlitResend (socket : Nat) (r : ErrRec) (s : State) : Host.Outcome State Fault Refusal :=
  .next (if 26 ≤ socket ∨ !isLink r.unit then s else s.placeErr socket { r with rank := 1, retry := 1 })

/-- ERROR_BANK_CLEAR: a write of 1 to V clears the whole bank. -/
def execErrorBankClear (socket bank : Nat) (s : State) : Host.Outcome State Fault Refusal :=
  .next (if 26 ≤ socket ∨ 16 ≤ bank then s
    else (List.range 4).foldl (fun s k => s.setPf (Pf.bank socket bank + 8 * k) 0) s)

/-- ERRSUM_READ: the driver reads the counters, which clears them. -/
def State.readErrsum (s : State) (socket : Nat) : State :=
  if 26 ≤ socket then s
    else { s.setPf (Pf.errsum socket) 0 with hostOut := s.hostOut ++ [.regRead 0 (Pf.errsum socket) (s.pfNum (Pf.errsum socket))] }
def execErrsumRead (socket : Nat) (s : State) : Host.Outcome State Fault Refusal := .next (s.readErrsum socket)

end Sys2Proof.Machine
end

