-- ==== Sys2Proof/Machine/Pages.lean ====
section
/-! DEFINITION. What the driver does with pages: fault records and their answers (R371, R372), invalidation (R370) and page
migration (R373). -/

namespace Sys2Proof.Machine

/-! ### Fault records and FRESP -/

/-- The 32 bytes of a fault record (Table 113). -/
def FaultEnt.bytes (f : FaultEnt) : List Byte :=
  leBytes 8 f.va.toNat ++ leBytes 4 f.ctx ++ leBytes 2 f.entry ++ leBytes 1 f.die ++ leBytes 1 f.kind.toNat ++ leBytes 16 0

/-- An entry of a die's fault buffer. -/
def State.faultAt (s : State) (die entry : Nat) : Option FaultEnt := s.faults.find? fun f => f.die == die && f.entry == entry

/-- FAULT_RECORD_APPEND: a full ring leaves the record waiting in the buffer. PF vector 0 is signalled (R389). -/
def execFaultRecordAppend (die entry : Nat) (s : State) : Host.Outcome State Fault Refusal :=
  .next (match s.faultAt die entry with
    | none => s
    | some f =>
      if f.logged then s
      else match s.ringPut Pf.fqbase Pf.fqlog2 Pf.fqprod Pf.fqcons f.bytes with
      | none => s.postOnce (.faultRecordAppend die entry)
      | some t => State.msi { t with faults := t.faults.map fun x => if x = f then { x with logged := true } else x } 0 0)

/-- Whether a wave is parked on an entry. -/
def Wave.onEntry (w : Wave) (die entry : Nat) : Bool := w.fwait.any fun f => f.die == die && f.entry == entry

/-- The waves parked on an entry. -/
def State.onEntry (s : State) (die entry : Nat) : List Nat := s.waveKeys.filter fun k => (s.wave k).onEntry die entry

/-- Copy packets of a context that have yet to be performed. -/
def State.copiesOf (s : State) (c : Nat) : List (Nat × Grp) := s.grps.filter fun e => e.2.copy && e.2.ctx == c && e.2.st == .pending

/-- FRESP with NR 0: every wave parked on the entry issues its word again. -/
def execFrespSupply (die entry : Nat) (s : State) : Host.Outcome State Fault Refusal :=
  .next (match s.faultAt die entry with
    | none => s
    | some f =>
      let ks := s.onEntry die entry
      let s := { s with faults := s.faults.filter fun x => x != f }
      let s := ks.foldl (fun s k => s.updWave k fun w => { w with fwait := none }) s
      (s.copiesOf f.ctx).foldl (fun s e => s.postOnce (.launchStart e.1)) s)

/-- The trap that NR raises in the wave that is checked out: 0x12 at its word, with the word's run and active lanes. -/
def State.refuseWait (s : State) : State :=
  match s.w.fwait with
  | none => s
  | some f =>
    let pc := s.headPc
    let run := s.w.runAt pc
    let act := match s.instrAt pc with
      | some i => ({ s with run := run }).active i
      | none => run
    s.setW { s.w with fwait := none, pend := s.w.pend ++ [{ f.trap with at_ := some (pc, run, act) }] }

/-- FRESP with NR 1: each parked wave takes 0x12 at its word; a copy packet that needs the page fails. -/
def execFrespNr (die entry : Nat) (s : State) : Host.Outcome State Fault Refusal :=
  .next (match s.faultAt die entry with
    | none => s
    | some f =>
      let ks := s.onEntry die entry
      let s := { s with faults := s.faults.filter fun x => x != f }
      let s := ks.foldl (fun s k => s.within k State.refuseWait) s
      (s.copiesOf f.ctx).foldl (fun s e => s.beginLaunch (some (f.va.toNat / 65536)) e.1) s)

/-! ### Invalidation (R370) -/

/-- Whether a VA lies in a range. -/
def inRange (va : Nat) (r : Nat × Nat) : Bool := decide (r.1 ≤ va) && decide (va < r.1 + r.2)
/-- Whether n bytes at a VA meet a range. -/
def meets (va n : Nat) (r : Nat × Nat) : Bool := decide (va < r.1 + r.2) && decide (r.1 < va + n)

/-- Whether an element of an engine command still uses a translation of a range. -/
def Elem.uses (e : Elem) (va : Nat × Nat) : Bool := e.sva.any (meets · e.n va) || e.dva.any (meets · e.n va)

/-- Whether a wave of a context pins a page in a range, or one of its engine commands still uses a translation of it. -/
def State.rangeBusy (s : State) (c : Nat) (va : Nat × Nat) : Bool :=
  s.waveKeys.any (fun k => (s.block (k / 32)).ctx == c && (s.wave k).pins.any fun p => meets p.page p.size va) ||
  s.cmds.any fun d => (s.block d.blk).ctx == c && d.els.any fun e => e.uses va

/-- A write of INVAL word 2 starts an invalidation: BUSY is set in word 0. A write while BUSY is set replaces the range. -/
def State.startInval (s : State) (len : W64) : State :=
  let w0 := s.pfNum Pf.inval
  let s := (s.setPf (Pf.inval + 16) len).setPf Pf.inval (setFld w0 63 1 1)
  State.postOnce { s with inval := some (fld w0 0 63, (s.pfNum (Pf.inval + 8)).toNat, len.toNat) } .invalComplete

/-- INVAL. -/
def execInval (len : W64) (s : State) : Host.Outcome State Fault Refusal := .next (s.startInval len)

/-- INVAL_COMPLETE: BUSY clears once nothing uses a translation of the range. -/
def execInvalComplete (s : State) : Host.Outcome State Fault Refusal :=
  .next (match s.inval with
    | none => s
    | some (c, va, n) =>
      let held := (s.reqs ++ s.gate).any fun q => q.ctx == c && (inRange q.va.toNat (va, n) || q.bva.any (inRange · (va, n)))
      let bars := s.cmds.any fun d => (s.block d.blk).ctx == c && d.bva.any (inRange · (va, n))
      if s.rangeBusy c (va, n) || held || bars then s.postOnce .invalComplete
      else { s.setPf Pf.inval (setFld (s.pfNum Pf.inval) 63 1 0) with inval := none })

/-! ### Page migration (R373) -/

/-- The PA of the leaf entry of a VA, over the levels left. -/
def leafPa (mem : Memory) (va : Nat) : List (Nat × Nat × Bool × Bool) → Nat → Option Nat
  | [], _ => none
  | (sh, n, _, _) :: ls, tab =>
    let at_ := tab + 8 * (va / 2 ^ sh % 2 ^ n)
    let e := Memory.num mem at_ 8
    if e % 2 = 0 then none
    else if e / 2 % 2 = 1 then some at_
    else leafPa mem va ls (e / 4096 % 2 ^ 40 * 4096)

/-- MIGSTAT.DONE, with PF vector 3 (R389). -/
def State.migDone (s : State) : State := (s.setPf Pf.migstat (s.pfNum Pf.migstat ||| 1)).msi 0 3

/-- A write that a rule does not allow now: discarded, with PFSTAT.REJ and the register's offset (R389). -/
def State.reject (s : State) (off : Nat) : State :=
  s.setPf Pf.pfstat (setFld (setFld (s.pfNum Pf.pfstat) 0 1 1) 8 16 (off / 8))

/-- A write of MIGCMD word 2 starts a migration. A page with no leaf has nothing to move; a command during another is discarded. -/
def State.startMigration (s : State) (pa : W64) : State :=
  if s.migration.isSome then s.reject (Pf.migcmd + 16)
  else
    let s := s.setPf (Pf.migcmd + 16) pa
    let c := (s.pfNum Pf.migcmd).toNat
    let va := (s.pfNum (Pf.migcmd + 8)).toNat
    match s.walk c va with
    | .leaf l =>
      let size := 2 ^ l.bits
      let m : Migration := ⟨c, BitVec.ofNat 64 (va / size * size), l.pa, pa.toNat / size * size, size, none⟩
      State.post { s with migration := some m } .migrationDone
    | _ => s.migDone

/-- MIGCMD. -/
def execMigcmd (pa : W64) (s : State) : Host.Outcome State Fault Refusal := .next (s.startMigration pa)

/-- Where a number of the old page lies after the move. -/
def Migration.to (m : Migration) (x : Nat) : Nat := if m.oldPa ≤ x ∧ x < m.oldPa + m.size then x - m.oldPa + m.newPa else x

/-- The waits and holds of a wave that name lines of the page. -/
def Migration.wave (m : Migration) (w : Wave) : Wave :=
  let grp (g : Group) : Group := { g with waits := g.waits.map fun r => if r.kind == .count then r else { r with loc := m.to r.loc } }
  { w with
    groups := w.groups.map grp
    frames := w.frames.map fun f => { f with groups := f.groups.map grp }
    arrivals := w.arrivals.map fun a => { a with loc := m.to a.loc }
    grants := w.grants.map fun g => (m.to g.1, g.2) }

/-- The requests held for lines of the page. -/
def Migration.req (m : Migration) (q : Req) : Req := { q with loc := m.to q.loc, bar := m.to q.bar }

/-- Step 3: committed lines, poison and live state move to the new PA and home, in place of what stood there; waits, requests and
holds follow. -/
def State.movePage (s : State) (m : Migration) (host : Bool) : State :=
  let there (a : Nat) : Bool := inRange a (m.newPa, m.size) && !inRange a (m.oldPa, m.size)
  let put (t : SMap Byte) (e : Nat × Byte) : SMap Byte := if there e.1 then t else SMap.insert t (m.to e.1) e.2
  let s : State := if host then { s with hmem := Memory.copyRange s.hmem m.oldPa m.newPa m.size }
    else { s with mem := Memory.copyRange s.mem m.oldPa m.newPa m.size }
  let s : State := if host then s else { s with
    poison := s.poison.foldl (fun t e => if there (16 * e.1) then t else SMap.insert t (m.to (16 * e.1) / 16) ()) []
    ctxs := s.ctxs.map fun e => (e.1, { e.2 with shadow := e.2.shadow.foldl put [] })
    reqs := s.reqs.map m.req
    gate := s.gate.map m.req
    cmds := s.cmds.map fun c => { c with bar := c.bar.map m.to }
    wft := s.wft.map fun e => { e with line := m.to (64 * e.line) / 64 }
    grps := s.grps.map fun e => (e.1, { e.2 with ranges := e.2.ranges.map fun r => (m.to r.1, r.2) }) }
  if host then s else s.waveKeys.foldl (fun s k => s.updWave k m.wave) s

/-- Whether a request on the moved page that was injected under the old translation has yet to reach its home (step 5). -/
def State.forwards (s : State) (m : Migration) (mark : Nat) : Bool :=
  ((s.reqs ++ s.gate).any fun q => !q.held && inRange q.loc (m.newPa, m.size)) ||
  (List.range Config.dies).any fun d => !s.dieQuiet d true mark

/-- MIGRATION_DONE: once no pin and no engine command holds the page, it moves, and its leaf names the new PA (steps 2 to 4).
New accesses go on stalling until the probes of step 5 have returned, so that what the old home forwards is performed
first; then the migration is complete. -/
def execMigrationDone (s : State) : Host.Outcome State Fault Refusal :=
  .next (match s.migration with
    | none => s
    | some m =>
      match m.moved with
      | some mark => if s.forwards m mark then s.postOnce .migrationDone else State.migDone { s with migration := none }
      | none =>
      if s.rangeBusy m.ctx (m.va.toNat, m.size) then s.postOnce .migrationDone
      else
        let host := match s.walk m.ctx m.va.toNat with
          | .leaf l => l.host
          | _ => false
        let s := s.movePage m host
        let s := match leafPa s.mem m.va.toNat walkLevels (s.ptroot m.ctx) with
          | some at_ =>
            let e := BitVec.ofNat 64 (Memory.num s.mem at_ 8)
            { s with mem := Memory.setNum s.mem at_ 8 (setFld e 12 40 (m.newPa / 4096)).toNat }
          | none => s
        State.postOnce { s with migration := some { m with moved := some s.ids } } .migrationDone)

end Sys2Proof.Machine
end

