-- ==== Sys2Proof/Machine/Save.lean ====
section
/-! DEFINITION. Save records (R376, Table 114), pre-emption (R63, R374, R375), the debugger's access to a halted block (R380 to
R382) and killing a context (R383). -/

namespace Sys2Proof.Machine

/-! ### The layout of a wave record (Table 114) -/

/-- Bytes at rising offsets, the gaps and the end filled with zeros up to n. -/
def layOut (n : Nat) (parts : List (Nat × List Byte)) : List Byte :=
  let bs := parts.foldl (fun acc p => acc ++ List.replicate (p.1 - acc.length) 0 ++ p.2) []
  bs ++ List.replicate (n - bs.length) 0

/-- Bytes of a crucible (Table 38). -/
def Cruc.bytes (c : Cruc) : List Byte :=
  let bit (b : Bool) (n : Nat) : Nat := if b then 2 ^ n else 0
  leBytes 544 (bit c.nan 4351 + bit c.pinf 4350 + bit c.ninf 4349 + bit c.ovf 4348 + bit c.seen 4347 + bit c.neg0 4346 + c.acc.toNat)
def Cruc.of (x : Nat) : Cruc :=
  let bit (n : Nat) : Bool := x / 2 ^ n % 2 == 1
  ⟨bit 4351, bit 4350, bit 4349, bit 4348, bit 4347, bit 4346, BitVec.ofNat 4344 x⟩

/-- The side-pound tile's words, 64 bytes. -/
def Sh.bytes (x : Sh) : List Byte :=
  leBytes 8 x.st.toNat ++ leBytes 8 x.abase.toNat ++ leBytes 8 x.bbase.toNat ++ leBytes 8 x.strides.toNat ++ leBytes 32 0

/-- An entry of the outstanding-arrival set, 8 bytes. -/
def Arr.bytes (a : Arr) : List Byte := leBytes 8 (a.va.toNat / 64 * 64 + 2 + if a.dm then 1 else 0)

/-- The VA of the descriptor of the fork in progress; 0 for none. -/
def State.forkVa (s : State) (w : Wave) : Nat :=
  match w.fork with
  | none => 0
  | some id => match SMap.find? s.grps id with
    | some g => g.desc.toNat
    | none => 0

/-- The record of a wave. -/
def State.waveRecord (s : State) (al : Alloc) (w : Wave) : List Byte :=
  let nat8 (n : Nat) : List Nat := List.range n
  let refs : List Byte := (nat8 4).flatMap fun k => match SMap.find? w.refs k with
    | some r => leBytes 4 r.1.toNat ++ leBytes 4 r.2
    | none => leBytes 8 0
  let slots : List Byte := leBytes 256 (w.slots.foldl (fun n e => n + 2 ^ e.1) 0)
  let region : Nat × Nat × SMap W64 := match w.region with
    | some r => (r.entry.toNat, r.fflags.toNat, r.rng)
    | none => (0, 0, [])
  let rng (m : SMap W64) : List Byte := allLanes.flatMap fun l => leBytes 8 (SMap.get m 0 l).toNat
  let frames : List Byte := (w.frames.reverse.zipIdx).flatMap fun f => f.1.bytes (f.2 + 1) w.exited
  let preds (l : Nat) : Nat := (nat8 8).foldl (fun n k => n + if w.pred k l then 2 ^ k else 0) 0
  layOut al.recLen [
    (0x0000, laneTable w.pc w.age w.groups w.exited),
    (0x0180, leBytes 8 w.promo.toNat ++ leBytes 4 w.burst),
    (0x0200, (nat8 64).flatMap fun n => leBytes 4 (w.sreg n).toNat),
    (0x0300, allLanes.flatMap fun l => leBytes 1 (preds l)),
    (0x0320, allLanes.flatMap fun l => (nat8 4).flatMap fun n => leBytes 1 (w.ireg n l).toNat),
    (0x03A0, leBytes 4 w.sp.fmode.toNat ++ leBytes 4 w.sp.fflags.toNat ++ leBytes 4 w.sp.cprog.toNat ++ leBytes 4 w.sp.mrow.toNat ++
      leBytes 4 w.sp.ientry.toNat ++ leBytes 4 w.sp.wbase.toNat ++ leBytes 4 w.frames.length ++ leBytes 4 w.sp.origins.toNat),
    (0x03C0, leBytes 8 region.1 ++ leBytes 4 region.2.1),
    (0x03D0, refs),
    (0x0400, w.arrivals.flatMap Arr.bytes),
    (0x0420, leBytes 8 (s.forkVa w)),
    (0x0440, rng w.sp.rng ++ rng region.2.2),
    (0x0640, latchTable w.r.lat),
    (0x0940, (nat8 4).flatMap fun n => (w.cruc n).bytes),
    (0x1200, (nat8 4).flatMap fun q => (w.side q).bytes),
    (0x1300, slots),
    (0x2000, frames),
    (0x4000, (nat8 al.vregs).flatMap fun n => allLanes.flatMap fun l => leBytes 4 (w.vreg n l).toNat),
    (al.dAt, (nat8 al.dregs).flatMap fun n => (allLanes.flatMap fun l => leBytes 64 (w.dreg n l).toNat) ++
      allLanes.flatMap fun l => leBytes 2 (w.dtag n l).toNat),
    (al.accAt, (nat8 al.acct).flatMap fun t => (nat8 4).flatMap fun q => Memory.bytes w.r.acc ((16 * q + t) * 1024) 1024),
    (al.shtAt, Memory.bytes w.r.shd 0 (1024 * al.sht))]

/-! ### Reading a record back -/

/-- A map from the values of n keys. -/
def mapOf {α : Type} [DecidableEq α] (d : α) (n : Nat) (f : Nat → α) : SMap α := (List.range n).foldl (fun m k => SMap.set m d k (f k)) []

/-- The parked groups that a record shows, by parking sequence: a lane newly in a group waits for nothing of it. Lanes that are
parked without a sequence yet form the last group (log 92). -/
def recGroups (old : List Group) (state seq : Nat → Nat) : List Group :=
  (List.range 33).filterMap fun n =>
    let m := maskOf fun l => (state l == 1 || state l == 3) && min (seq l) 32 == n
    let g : Group := (old[n]?).getD ⟨0, [], false, []⟩
    if m = 0 then none
    else some { g with mask := m, waits := g.waits.filter fun r => r.mask &&& m != 0, barw := state (lowLane m) == 3 }

/-- A trap frame from its bytes (Table 116), with what they do not hold from the frame that stood there. -/
def Frame.ofRecord (old : Option Frame) (va : W64) (exited : Mask) (bs : List Byte) : Frame :=
  let rd (o n : Nat) : Nat := fieldAt bs o n
  let f : Frame := old.getD ⟨va, 0, 0, 0, 0, 0, 0, 0, 0, 0, [], [], [], [], [], false, false⟩
  { f with
    cause := rd 0 1, info := BitVec.ofNat 64 (rd 8 8), addr := BitVec.ofNat 64 (rd 0x10 8), word := BitVec.ofNat 64 (rd 0x18 8)
    run := BitVec.ofNat 32 (rd 0x20 4) &&& ~~~exited, active := BitVec.ofNat 32 (rd 0x24 4) &&& ~~~exited
    ientry := BitVec.ofNat 32 (rd 0x28 4)
    promo := BitVec.ofNat 64 (rd 0x30 8), burst := rd 0x38 4
    pc := mapOf 0 32 fun l => BitVec.ofNat 64 (rd (0x40 + 8 * l) 8)
    age := mapOf 0 32 fun l => rd (0x140 + 2 * l) 2
    groups := recGroups f.groups (fun l => rd (0x180 + l) 1) (fun l => rd (0x1A0 + l) 1)
    lat := mapOf 0 96 fun k => BitVec.ofNat 64 (rd (0x200 + 24 * (k % 32) + 8 * (k / 32)) 8)
    ext := if rd 0x600 512 = 0 && f.ext == [] then [] else (bs.drop 0x600).take 512 }

/-- An arrival that a debugger writes into a wave's set: on the line's barrier, in its open phase; none where the line has no
page. -/
def State.newArr (s : State) (w : Wave) (va : W64) (dm : Bool) : Option Arr :=
  let loc : Option Nat :=
    if dm then some (dmLoc (s.dmBase w.blk + va.toNat % 2 ^ 25))
    else match s.walk (s.block w.blk).ctx va.toNat with
      | .leaf l => some (l.paOf va.toNat)
      | _ => none
  loc.map fun x =>
    { loc := x, va := va, dm := dm, phase := (s.bar w.blk x).phase, p := (Config.freeWord va).setWidth 32, word := 0, run := 0, act := 0,
      closed := none, again := false }

/-- An entry of the outstanding-arrival set from its 8 bytes: the one that stood there, or one for the line's barrier in its
open phase, whose participant index the record does not hold (log 92). -/
def State.arrOfRecord (s : State) (w : Wave) (n x : Nat) : Option Arr :=
  let va : W64 := BitVec.ofNat 64 (x / 64 * 64)
  let dm := x % 2 == 1
  if x / 2 % 2 = 0 then none
  else match w.arrivals[n]? with
  | some a => if a.va.toNat / 64 = va.toNat / 64 && a.dm == dm then some a else s.newArr w va dm
  | none => s.newArr w va dm

/-- The open region that a record shows. -/
def Wave.recRegion (w : Wave) (rd : Nat → Nat → Nat) : Option Region :=
  let entry : W64 := BitVec.ofNat 64 (rd 0x3C0 8)
  let fflags : W32 := BitVec.ofNat 32 (rd 0x3C8 4 % 128)
  let rng : SMap W64 := mapOf 0 32 fun l => BitVec.ofNat 64 (rd (0x540 + 8 * l) 8)
  match w.region with
  | some r => if entry = 0 && r.entry ≠ 0 then none else some { r with entry := entry, fflags := fflags, rng := rng }
  | none => if entry = 0 then none else
      some { entry := entry, pc := w.pc, age := w.age, exited := w.exited, fflags := fflags, rng := rng, view := w.view, held := .empty, undo := [],
             stores := w.stores, crc := w.crc, closed := false }

/-- A wave with what its record holds: PC table, registers, special registers, latches, crucibles, tiles, side-pound tiles,
open region, references, arrivals, launch slots, the fork in progress and trap frames; reserved bits stay 0 (R8). -/
def State.ofRecord (s : State) (w : Wave) (al : Alloc) (bs : List Byte) : Wave :=
  let rd (o n : Nat) : Nat := fieldAt bs o n
  let w32 (o : Nat) : W32 := BitVec.ofNat 32 (rd o 4)
  let state (l : Nat) : Nat := rd (0x140 + l) 1
  let exited := maskOf fun l => state l == 2
  let old := w.frames.reverse
  { w with
    pc := mapOf 0 32 fun l => BitVec.ofNat 64 (rd (8 * l) 8)
    age := mapOf 0 32 fun l => rd (0x100 + 2 * l) 2
    exited := exited
    groups := recGroups w.groups state fun l => rd (0x160 + l) 1
    promo := BitVec.ofNat 64 (rd 0x180 8)
    burst := rd 0x188 4
    r := { w.r with
      s := mapOf 0 64 fun n => w32 (0x200 + 4 * n)
      v := mapOf 0 (32 * al.vregs) fun k => w32 (0x4000 + 4 * k)
      p := mapOf 0 8 fun n => if n = 0 then 0 else maskOf fun l => rd (0x300 + l) 1 / 2 ^ n % 2 == 1
      i := mapOf 0 128 fun k => BitVec.ofNat 8 (rd (0x320 + 4 * (k % 32) + k / 32) 1)
      c := mapOf Cruc.zero 4 fun n => Cruc.of (rd (0x940 + 544 * n) 544)
      d := mapOf dReset (32 * al.dregs) fun k => BitVec.ofNat 512 (rd (al.dAt + 2112 * (k / 32) + 64 * (k % 32)) 64)
      dtag := mapOf 0 (32 * al.dregs) fun k => BitVec.ofNat 16 (rd (al.dAt + 2112 * (k / 32) + 2048 + 2 * (k % 32)) 2)
      acc := (List.range (4 * al.acct)).foldl (fun m k =>
        Memory.setBytes m ((16 * (k % 4) + k / 4) * 1024) ((bs.drop (al.accAt + 1024 * k)).take 1024)) []
      shd := Memory.setBytes [] 0 ((bs.drop al.shtAt).take (1024 * al.sht))
      sh := mapOf Sh.empty 4 fun q =>
        let o := 0x1200 + 64 * q
        ⟨BitVec.ofNat 64 (rd o 8 / 2 ^ 26 * 2 ^ 26), BitVec.ofNat 64 (rd (o + 8) 8), BitVec.ofNat 64 (rd (o + 16) 8), BitVec.ofNat 64 (rd (o + 24) 8)⟩
      lat := mapOf 0 96 fun k => BitVec.ofNat 64 (rd (0x640 + 24 * (k % 32) + 8 * (k / 32)) 8) }
    sp := { w.sp with
      fmode := w32 0x3A0 &&& 0xFF7
      fflags := w32 0x3A4 &&& 0x7F
      cprog := w32 0x3A8
      mrow := w32 0x3AC
      ientry := w32 0x3B0
      wbase := w32 0x3B4
      origins := BitVec.ofNat 5 (rd 0x3BC 4)
      rng := mapOf 0 32 fun l => BitVec.ofNat 64 (rd (0x440 + 8 * l) 8) }
    region := w.recRegion rd
    refs := (List.range 4).foldl (fun m k =>
      let r := (w32 (0x3D0 + 8 * k), rd (0x3D4 + 8 * k) 4)
      if r.1 = 0 && r.2 = 0 then SMap.erase m k else SMap.insert m k r) w.refs
    arrivals := (List.range 4).filterMap fun k => s.arrOfRecord w k (rd (0x400 + 8 * k) 8)
    fork := if rd 0x420 8 = 0 && s.forkVa w ≠ 0 then none else w.fork
    slots := ((List.range Config.launchSlots).filter fun k => rd (0x1300 + k / 8) 1 / 2 ^ (k % 8) % 2 == 1).foldl
      (fun m k => SMap.insert m k (SMap.get w.slots 0 k)) []
    frames := ((List.range (min 4 (rd 0x3B8 4))).map fun d =>
      Frame.ofRecord old[d]? (BitVec.ofNat 64 ({ s with w := w, b := s.block w.blk }.frameAt d)) exited ((bs.drop (0x2000 + 2048 * d)).take 2048)).reverse }

/-- Take the VA of the descriptor that a wave's record gives its fork in progress. -/
def State.takeForkVa (s : State) (k : Nat) (bs : List Byte) : State :=
  match (s.wave k).fork with
  | none => s
  | some id => s.updGrp id fun g => { g with desc := BitVec.ofNat 64 (fieldAt bs 0x420 8) }

/-- Load a wave from its record. -/
def State.loadRecord (s : State) (k : Nat) (al : Alloc) (bs : List Byte) (f : Wave → Wave) : State :=
  (s.updWave k fun w => f (s.ofRecord w al bs)).takeForkVa k bs

/-- d registers made canonical as a record is reloaded (R273, R375). -/
def Wave.canonD (w : Wave) : Wave :=
  { w with r := { w.r with d := w.r.d.foldl (fun m e => SMap.set m dReset e.1 (canonImage e.2).1) [] } }

/-! ### The record of a block (R376) -/

/-- The race tags of a sector, 2 bytes. -/
def Block.tagBits (b : Block) (sec : Nat) : Nat :=
  let wt := SMap.get b.wtag 0 sec
  let rt := SMap.get b.rtag 0 sec
  (if wt = 0 then 0 else 32 + (wt - 1)) + (if rt = 0 then 0 else if rt = 33 then 2 * 2048 else 2048 + 64 * (rt - 1))

/-- The save record of a block. -/
def State.blockRecord (s : State) (h : Nat) : List Byte :=
  let b := s.block h
  let al := b.al
  layOut al.saveLen ([
    (0, identField b 0),
    (0x28, leBytes 4 al.waves ++ leBytes 4 al.scratch ++ leBytes 8 b.tagready.toNat ++ leBytes 1 al.tags),
    (0x40, b.bar.line),
    (0x1000, Memory.bytes b.sc 0 al.scLen),
    (0x1000 + al.scLen, (List.range (al.scLen / 16)).flatMap fun k => leBytes 2 (b.tagBits k))] ++
    (List.range al.waves).map fun i => (al.wavesAt + i * al.recLen, s.waveRecord al (s.wave (32 * h + i))))

/-- The block with what its record holds. -/
def Block.ofRecord (b : Block) (bs : List Byte) : Block :=
  let rd (o n : Nat) : Nat := fieldAt bs o n
  let al := b.al
  let tag (k : Nat) : Nat := rd (0x1000 + al.scLen + 2 * k) 2
  let n := al.scLen / 16
  { b with
    sc := Memory.setBytes [] 0 ((bs.drop 0x1000).take al.scLen)
    wtag := mapOf 0 n fun k => if tag k / 32 % 2 = 1 then tag k % 32 + 1 else 0
    rtag := mapOf 0 n fun k => if tag k / 2048 % 4 = 1 then tag k / 64 % 32 + 1 else if tag k / 2048 % 4 = 2 then 33 else 0
    tagready := BitVec.ofNat 64 (rd 0x30 8)
    bar := ⟨rd 0x44 4, rd 0x41 1 % 2 == 1, BitVec.ofNat 64 (rd 0x48 8), rd 0x50 4, BitVec.ofNat 32 (rd 0x54 4),
      BitVec.ofNat 64 (rd 0x58 8), BitVec.ofNat 64 (rd 0x60 8), BitVec.ofNat 64 (rd 0x68 8)⟩ }

/-- Write bytes at a VA of a context, line by line. -/
def State.putVa (s : State) (c va : Nat) (bs : List Byte) : State :=
  (List.range ((bs.length + 63) / 64)).foldl (fun s k => s.wharfWrite c (va + 64 * k) ((bs.drop (64 * k)).take 64)) s
/-- Read n bytes at a VA of a context, as they stand in memory. -/
def State.getVa (s : State) (c va n : Nat) : List Byte :=
  (List.range ((n + 63) / 64)).flatMap fun k => match s.walk c (va + 64 * k) with
    | .leaf l => Memory.bytes (if l.host then s.hmem else s.mem) (l.paOf (va + 64 * k)) 64
    | _ => List.replicate 64 0

/-- What a record holds when it is reloaded: what was written into memory since, else the state as it has become. -/
def mergeRecord : List Byte → List Byte → List Byte → List Byte
  | w :: ws, m :: ms, x :: xs => (if m = w then x else m) :: mergeRecord ws ms xs
  | _, _, xs => xs

/-- Where a block's record holds a wave's %fflags (Table 114). -/
def Alloc.flagsAt (al : Alloc) (wv : Nat) : Nat := al.wavesAt + wv * al.recLen + 0x3A4

/-- The record of a saved block: its state as it has become, and what was written into its record since. -/
def State.savedRecord (s : State) (h : Nat) : List Byte :=
  let b := s.block h
  mergeRecord b.image (s.getVa b.ctx (s.savebase b.ctx + b.savePlace) b.image.length) (s.blockRecord h)

/-- Write a saved block's record at its place. -/
def State.putRecord (s : State) (h : Nat) : State :=
  let b := s.block h
  (s.updBlock h fun b => { b with image := s.blockRecord h }).putVa b.ctx (s.savebase b.ctx + b.savePlace) (s.savedRecord h)

/-- OR bits into the 4 bytes at an offset of a record. -/
def orBytes (bs : List Byte) (o : Nat) (x : W32) : List Byte :=
  bs.take o ++ leBytes 4 (Nat.lor (fieldAt bs o 4) x.toNat) ++ bs.drop (o + 4)

/-- OR flags that arrive for a saved wave into the word of its record, as memory holds it (R138). -/
def State.orRecord (s : State) (h wv : Nat) (fl : W32) : State :=
  let b := s.block h
  let o := b.al.flagsAt wv
  let va := s.savebase b.ctx + b.savePlace + o
  let s := s.putVa b.ctx va (orBytes ((s.getVa b.ctx va 4).take 4) 0 fl)
  s.updBlock h fun b => { b with image := orBytes b.image o fl }

/-! ### Saving and restoring (R375) -/

/-- Stop or start issue in the waves of a block. -/
def State.holdBlock (s : State) (h : Nat) (stop : Bool) : State :=
  (s.wavesOf h).foldl (fun s k => s.updWave k fun w => if w.st = .ended then w else { w with halted := stop })
    (s.updBlock h fun b => { b with stopping := stop })

/-- Close every open region of a block as a trap does. -/
def State.closeRegions (s : State) (h : Nat) : State := (s.wavesOf h).foldl (fun s k => s.within k State.closeRegion) s

/-- The room of a saved block goes to the waiting block it was saved for (R360), else to the first in order. -/
def State.giveTo (s : State) (heir : Option Nat) (die : Nat) : State :=
  let t := match heir.bind fun id => (s.waitingOn die).find? fun c => c.grp == id with
    | some c => (s.placeCand die c).getD s
    | none => s
  t.postOnce (.blockPlace die)

/-- The block leaves its core with its record written. -/
def State.saveAt (s : State) (h at_ : Nat) : State :=
  let die := (s.block h).die
  let s := (s.wavesOf h).foldl (fun s k => s.updWave k fun w => { w.closeWindow with place := none }) s
  let s := s.updBlock h fun b => { b with st := .saved, slots := [], draining := false, savePlace := at_ }
  (s.putRecord h).giveTo (s.block h).heir die

/-- A save that cannot be made now: a block that the driver pre-empts drains, a save for another block's sake passes to the
next candidate (R375). -/
def State.noSave (s : State) (h : Nat) : State :=
  (s.holdBlock h false).updBlock h fun b => { b with draining := b.draining || b.evicted, heir := none }

/-- A save area without room: a block that the driver pre-empts drains, and is treated again after DMAX (R374, R375). -/
def State.noRoom (s : State) (h : Nat) : State :=
  if (s.block h).evicted then (s.noSave h).postOnce (.drainLimitExpiry h) else s.noSave h

/-- BLOCK_SAVE: a suspended block is saved after its resume; a wave in a handler makes a block that the driver pre-empts
drain meanwhile; words in progress, engine commands and regions are waited for; a save area without room makes it drain. -/
def execBlockSave (blk : Nat) (s : State) : Host.Outcome State Fault Refusal :=
  let b := s.block blk
  if b.st ≠ .resident ∨ (s.ctx b.ctx).killing then .next s
  else if s.suspended blk then .next (s.postOnce (.blockSave blk))
  else if !s.noFrames blk then .next (if b.evicted then (s.noSave blk).postOnce (.blockSave blk) else s.noSave blk)
  else if !s.atBoundary blk then .next (s.postOnce (.blockSave blk))
  else
    let s := (s.holdBlock blk true).closeRegions blk
    let waits := !s.blockQuiet blk || (s.wavesOf blk).any fun k => (s.wave k).region.isSome
    if waits then .next (s.postOnce (.blockSave blk))
    else match s.saveFree b.ctx (roundUp b.al.saveLen 65536) with
    | some at_ => .next (s.saveAt blk at_)
    | none => .next (s.noRoom blk)

/-- MEMORY_REPLY: in its channel's order (R89) the destination becomes ready and the flags join the wave's, in its record too when it is
saved (R78, R138, R375); a wave whose operation found poison consumes it (R401). -/
def execMemoryReply (n : Nat) (s : State) : Host.Outcome State Fault Refusal :=
  match s.replies.find? fun r => r.id == n with
  | none => .next s
  | some r =>
    if s.replyBehind r then .next (s.postOnce (.memoryReply n)) else
    let s := { s with replies := s.replies.filter fun x => x.id != n }
    let k := 32 * r.blk + r.wv
    let w := s.wave k
    if w.st = .absent then .next s
    else match r.poison with
    | some loc => .next (s.poisonBlock r.blk loc)
    | none =>
      let w := w.setOpnd r.dst r.regs.length r.lane (regsNat r.regs)
      let s := s.setWave k { w.orFlags r.flags with pending := w.pending.erase (r.dst, r.regs.length) }
      .next (if (s.block r.blk).st = .saved then (s.orRecord r.blk r.wv (r.flags.setWidth 32)).putRecord r.blk else s)

/-- BLOCK_RESTORE: a saved block that can be placed is reloaded from its record and goes on; its barrier may be due (R41). -/
def execBlockRestore (blk : Nat) (s : State) : Host.Outcome State Fault Refusal :=
  let b := s.block blk
  if b.st ≠ .saved ∨ !s.mayPlace b.ctx then .next s
  else match s.chooseCore b.ctx b.al b.die with
  | none => .next s
  | some core =>
    let bs := s.savedRecord blk
    let slots := s.takeSlots b.die core b.al.waves
    let s := s.setSplit b.die core (splitOf b.al.scratch)
    let s := (s.wavesOf blk).foldl (fun s k =>
      if (s.wave k).st = .ended then s
      else s.loadRecord k b.al ((bs.drop (b.al.wavesAt + k % 32 * b.al.recLen)).take b.al.recLen) Wave.canonD) s
    let s := s.updBlock blk fun b => { b.ofRecord bs with st := .resident, core := core, slots := slots, image := [], savePlace := 0, evicted := false, heir := none }
    .next (((s.holdBlock blk false).postOnce (.instanceEnd .block blk)).postOnce (.blockPlace b.die))

/-! ### Pre-emption (R63, R374) -/

/-- Restart a block: its views, partials, charges, held region effects, scratchpad and forks in progress are discarded;
it is placed again later, on the die where it started (R357), with the state of R331. -/
def State.restartBlock (s : State) (h : Nat) : State :=
  let b := s.block h
  match SMap.find? s.grps b.grp with
  | none => s
  | some g =>
    let charge := (s.wavesOf h).foldl (fun n k => n + (s.wave k).view.charge) b.charge
    let own := g.kind == .fork && g.quota != 0
    let s := (s.madeBy h).foldl (fun s m => match SMap.find? s.grps m with
      | some _ => s.removeGrp 9 m
      | none => s) s
    let s := if own then s else s.freePool charge
    let s := s.updGrp b.grp fun g => { g with charge := g.charge - charge }
    let s := s.dropBlock h false
    let c := s.ctx b.ctx
    let s := if b.gid ∈ c.gone then s.setCtx b.ctx { c with gone := c.gone.erase b.gid } else s
    let die := (s.memberDie g b.mem).getD b.die
    (s.setBlock h { g.block b.grp h b.mem with
      st := .waiting, die := die, home := b.home, ownPrio := b.ownPrio, prio := b.ownPrio }).postOnce (.blockPlace die)

/-- Whether a block may be restarted (R63, R374): one with a wave suspended at a fork is saved, and so is one that a cancel has
reached, which never starts again (R18). -/
def State.mayRestart (s : State) (h : Nat) : Bool :=
  let b := s.block h
  !b.cancelled && !((s.wavesOf h).any fun k => (s.wave k).st == .forked) &&
  match SMap.find? s.grps b.grp with
  | some g => if g.kind = .fork then g.idem || !b.live else g.idem
  | none => false

/-- Rules 2 and 3 of R374; the save of a suspended block follows its resume (log 46). -/
def State.evict (s : State) (h : Nat) : State :=
  if s.mayRestart h then s.restartBlock h
  else (s.updBlock h fun b => { b with evicted := true }).postOnce (.blockSave h)

/-- The cycles of a block since it started: a difference of draws of the cycle counter. -/
def State.elapsed (s : State) (h : Nat) : Nat := (Config.clockAt s.free - Config.clockAt (s.block h).cycles).toNat

/-- R374 for one block. -/
def State.preemptBlock (s : State) (h : Nat) : State :=
  let p := 1024 * match SMap.find? s.grps (s.block h).grp with
    | some g => g.progress
    | none => 0
  if p ≠ 0 && decide (p * fld (s.pfNum Pf.pecfg) 0 8 ≤ 256 * s.elapsed h) then
    (s.updBlock h fun b => { b with draining := true }).post (.drainLimitExpiry h)
  else s.evict h

/-- PREEMPT: die in bits [2:0], core mask in bits [39:4]. -/
def execPreempt (ctx : Nat) (val : W64) (s : State) : Host.Outcome State Fault Refusal :=
  if ctx = 0 ∨ 16 < ctx then .next s
  else
    let die := fld val 0 3
    let hs := s.handles_.filter fun h =>
      let b := s.block h
      b.st == .resident && b.ctx == ctx && b.die == die && fld val (4 + b.core) 1 == 1
    .next (hs.foldl State.preemptBlock (s.setPf (Pf.ctx ctx 0x30) val))

/-- DRAIN_LIMIT_EXPIRY: a draining block that has not ended is treated by rules 2 and 3. -/
def execDrainLimitExpiry (blk : Nat) (s : State) : Host.Outcome State Fault Refusal :=
  let b := s.block blk
  .next (if b.st = .resident && b.draining then s.evict blk else s)

/-! ### Halted blocks (R380 to R382) -/

/-- Whether every wave of a resident block is halted or has ended. -/
def State.allHalted (s : State) (h : Nat) : Bool :=
  (s.block h).st == .resident && s.suspended h && (s.wavesOf h).all fun k => (s.wave k).halted || (s.wave k).st == .ended

/-- DEBUG_STATE_ACCESS: 8 bytes at an offset into the wave records of a halted block, one after another. Handle 0, which no
block has, reads the wait-for tables: 16 bytes per entry, die after die (R111). -/
def execDebugStateAccess (blk off : Nat) (wr : Option W64) (s : State) : Host.Outcome State Fault Refusal :=
  if blk = 0 then
    let x := (s.entAt (off / 65536 % Config.dies) (off % 65536 / 16)).toNat
    .next (if wr.isSome then s else { s with hostOut := s.hostOut ++ [.debugData (BitVec.ofNat 64 (x / 2 ^ (64 * (off / 8 % 2))))] })
  else
  let al := (s.block blk).al
  let k := 32 * blk + off / al.recLen
  let o := off % al.recLen / 8 * 8
  if !s.allHalted blk ∨ al.waves ≤ off / al.recLen then .next s
  else
    let bs := s.waveRecord al (s.wave k)
    match wr with
    | none => .next { s with hostOut := s.hostOut ++ [.debugData (BitVec.ofNat 64 (fieldAt bs o 8))] }
    | some x => .next (s.loadRecord k al (bs.take o ++ leBytes 8 x.toNat ++ bs.drop (o + 8)) id)

/-- DEBUG_RESUME: the waves of a halted block go on at their PCs: after a breakpoint the word after `brk` (R381). -/
def execDebugResume (blk : Nat) (s : State) : Host.Outcome State Fault Refusal :=
  .next (if s.allHalted blk then s.holdBlock blk false else s)

/-! ### Killing a context (R383) -/

/-- Steps 1 to 3: waves stop, what is held and queued goes, views and charges are discarded. Waves keep the mooring
references they hold until the kill completes. -/
def State.killCtx (s : State) (c : Nat) : State :=
  let mine (h : Nat) : Bool := (s.block h).ctx == c
  let ks := s.waveKeys.filter fun k => mine (k / 32)
  let hs := s.handles_.filter mine
  let freed := s.grps.foldl (fun n e => if e.2.ctx = c then n + e.2.held else n) 0
  let s := { s.freePool freed with
    cmds := s.cmds.filter fun x => !mine x.blk
    reqs := s.reqs.filter fun x => x.ctx != c
    gate := s.gate.filter fun x => x.ctx != c
    windows := s.windows.filter fun x => x.ctx != c
    replies := s.replies.filter fun x => !mine x.blk
    wft := s.wft.filter fun x => !mine x.blk
    probes := s.probes.filter fun x => !mine x.blk
    faults := s.faults.filter fun x => x.ctx != c
    grps := s.grps.filter fun e => e.2.ctx != c
    levs := s.levs.filter fun e => e.2.ctx != c }
  let s := ks.foldl (fun s k => s.updWave k fun w => { Wave.absent with blk := w.blk, idx := w.idx, st := .ended, refs := w.refs }) s
  let s := hs.foldl (fun s h => s.updBlock h fun b => { b with st := .ended, view := [], parts := [], start := [], charge := 0 }) s
  s.setCtx c { Ctx.zero with killing := true }

/-- Steps 4 to 6 done: references are released and the context's waves and blocks are gone. -/
def State.killEnd (s : State) (c : Nat) : State :=
  let ks := s.waveKeys.filter fun k => (s.block (k / 32)).ctx == c
  let s := ks.foldl State.dropRefs s
  let hs := s.handles_.filter fun h => (s.block h).ctx == c
  let s := if s.b.ctx = c ∧ s.b.st ≠ .absent then { s with w := .absent, b := .absent, run := 0 } else s
  let s := { s with
    waves := s.waves.filter fun e => !hs.contains (e.1 / 32)
    blocks := s.blocks.filter fun e => !hs.contains e.1 }
  let trim (e : Nat × Core) : Option (Nat × Core) :=
    let x : Core := { e.2 with fwd := e.2.fwd.filter fun f => !hs.contains f.1 }
    if x = Core.zero then none else some (e.1, x)
  let s : State := { s.setCtx c Ctx.zero with cores := s.cores.filterMap trim }
  ((s.setPf (Pf.ctx c 0x40) (s.pfNum (Pf.ctx c 0x40) ||| 1)).msi 0 3).placeAll

/-- KILL: a write of 1 for a context. -/
def execKill (ctx : Nat) (s : State) : Host.Outcome State Fault Refusal :=
  .next (if ctx = 0 ∨ 16 < ctx then s else (s.killCtx ctx).postOnce (.killCompletion ctx))

/-- KILL_COMPLETION: KILLSTAT.DONE, with PF vector 3 (R389). -/
def execKillCompletion (ctx : Nat) (s : State) : Host.Outcome State Fault Refusal :=
  .next (if (s.ctx ctx).killing then s.killEnd ctx else s)

end Sys2Proof.Machine
end

