-- ==== Sys2Proof/Machine/HostLink.lean ====
section
/-! DEFINITION. The host's side (R347 to R355, R384 to R389): rings and packet intake, host cancels, function level resets, the
apertures, and every register write of VF BAR 0 and PF BAR 0 that has no event of its own. -/

namespace Sys2Proof.Machine

/-- Whether the port's functions decode their BARs: after step 6 of Table 121. -/
def State.up (s : State) : Bool := s.mgmt.boot == .up

/-- Whether work of a context is pending or running. -/
def State.busyCtx (s : State) (c : Nat) : Bool :=
  (s.grps.any fun e => e.2.ctx == c && e.2.st != .ended) || s.handles_.any fun h => (s.block h).ctx == c && (s.block h).st != .ended
/-- Whether a context of the package runs. -/
def State.busyAny (s : State) : Bool :=
  (s.grps.any fun e => e.2.st != .ended) || s.handles_.any fun h => (s.block h).st != .ended

/-- A VF of the port. -/
def isVf (c : Nat) : Bool := 1 ≤ c && c ≤ 16

/-! ### Ring registers (Table 104) -/

def Vf.rbase : Nat := 0x00
def Vf.rcfg : Nat := 0x08
def Vf.prod : Nat := 0x10
def Vf.cons : Nat := 0x18
def Vf.hcancel0 : Nat := 0x20
def Vf.hcancel1 : Nat := 0x28

def State.ringEn (s : State) (c : Nat) : Bool := fld (s.vfNum c Vf.rcfg) 31 1 == 1
def State.ringLog (s : State) (c : Nat) : Nat := fld (s.vfNum c Vf.rcfg) 0 5
def State.ringBase (s : State) (c : Nat) : Nat := fld (s.vfNum c Vf.rbase) 0 56
def State.prodOf (s : State) (c : Nat) : Nat := fld (s.vfNum c Vf.prod) 0 32
def State.consOf (s : State) (c : Nat) : Nat := fld (s.vfNum c Vf.cons) 0 32
/-- EN is 0 and CONS equals PROD. -/
def State.ringIdle (s : State) (c : Nat) : Bool := !s.ringEn c && s.prodOf c == s.consOf c

/-- ERR is set; VF vector 1 is signalled (R388). -/
def State.setErr (s : State) (c : Nat) : State := (s.setVf c Vf.rcfg (setFld (s.vfNum c Vf.rcfg) 30 1 1)).msi c 1
/-- A ring error (R348): EN is cleared and ERR is set. -/
def State.ringError (s : State) (c : Nat) : State := State.setErr (s.setVf c Vf.rcfg (setFld (s.vfNum c Vf.rcfg) 31 1 0)) c

/-- A write of RCFG (R347). ERR clears on a 1; LOG2 and EN change only while EN is 0 and CONS equals PROD. -/
def State.writeRcfg (s : State) (c : Nat) (val : W64) : State :=
  let old := s.vfNum c Vf.rcfg
  let kept := if fld val 30 1 = 1 then setFld old 30 1 0 else old
  if !s.ringIdle c then s.setVf c Vf.rcfg kept
  else
    let log := fld val 0 5
    let s := s.setVf c Vf.rcfg (setFld kept 0 5 log)
    if fld val 31 1 = 0 then s
    else if log < 4 ∨ 16 < log ∨ s.ringBase c % (128 * 2 ^ log) ≠ 0 then s.ringError c
    else s.setVf c Vf.rcfg (setFld (s.vfNum c Vf.rcfg) 31 1 1)

/-- A write of PROD (R348): too far ahead of CONS is a ring error. -/
def State.writeProd (s : State) (c : Nat) (val : W64) : State :=
  let s := s.setVf c Vf.prod (BitVec.ofNat 64 (fld val 0 32))
  if !s.ringEn c then s
  else
    let ahead := (s.prodOf c + 2 ^ 32 - s.consOf c) % 2 ^ 32
    if 2 ^ s.ringLog c < ahead then s.ringError c
    else if ahead = 0 then s else s.postOnce (.packetIntake c)

/-- RCFG_WRITE. -/
def execRcfgWrite (ctx : Nat) (val : W64) (s : State) : Host.Outcome State Fault Refusal :=
  .next (if s.up && isVf ctx then s.writeRcfg ctx val else s)

/-- PROD_WRITE. -/
def execProdWrite (ctx : Nat) (val : W64) (s : State) : Host.Outcome State Fault Refusal :=
  .next (if s.up && isVf ctx then s.writeProd ctx val else s)

/-! ### Packet intake (R348, R351) -/

/-- The wharf page leaf of a VA. -/
def State.wharfLeaf (s : State) (c va : Nat) : Option Leaf :=
  if 2 ^ 56 ≤ va then none
  else match s.walk c va with
  | .leaf l => if l.cls = .wharf then some l else none
  | _ => none

/-- The bytes of the packet in the slot of CONS. -/
def State.slotBytes (s : State) (c : Nat) : Option (List Byte) :=
  let va := s.ringBase c + 128 * (s.consOf c % 2 ^ s.ringLog c)
  (s.wharfLeaf c va).map fun l => Memory.bytes (if l.host then s.hmem else s.mem) (l.paOf va) 128

/-- Whether a completion record can be written at a CVA. -/
def State.cvaOk (s : State) (c cva : Nat) : Bool :=
  cva ≠ 0 && cva % 64 == 0 && (s.wharfLeaf c cva).any fun l => l.w

/-- The predecessors of a packet are strictly ascending and below a bound. -/
def ascending : List Nat → Bool
  | a :: b :: l => decide (a < b) && ascending (b :: l)
  | _ => true

/-- Whether two launches of a chain differ as R33 forbids. -/
def Grp.chainDiffers (g h : Grp) : Bool :=
  g.nmem != h.nmem || g.al.waves != h.al.waves || g.al.vregs != h.al.vregs || g.al.dregs != h.al.dregs || g.al.acct != h.al.acct ||
  g.al.sht != h.al.sht || g.inhFirst != h.inhFirst || g.inhCount != h.inhCount

/-- Code 3 as the chain predecessor decides it. -/
def State.code3 (s : State) (p : Packet) (g : Grp) : Bool :=
  p.code3 || match s.chainPred g with
    | some e => g.chainDiffers e.2
    | none => false

/-- Code 4. A number names the accepted launch that has it; a rejected packet's is then not submitted (log 13). -/
def State.code4 (s : State) (p : Packet) (g : Grp) : Bool :=
  let ps := p.predList
  !ascending ps || ps.any (fun l => decide (p.launch ≤ l)) || (p.chain ≠ 0xFFFF && decide (p.npred ≤ p.chain)) ||
  ps.any fun l => (s.sibling g l).isNone

/-- Lexicographic order of (JOB, PHASE, GRAPH, LAUNCH). -/
def orderLt (a b : Nat × Nat × Nat × Nat) : Bool :=
  gidLt [a.1, a.2.1, a.2.2.1, a.2.2.2] [b.1, b.2.1, b.2.2.1, b.2.2.2]

/-- Code 6. -/
def State.code6 (s : State) (c : Nat) (p : Packet) : Bool :=
  (match (s.ctx c).last with
    | some l => !orderLt l (p.job, p.phase, p.graph, p.launch)
    | none => false) ||
  (s.lev? c 3 p.job p.phase p.graph).any (fun e => e.2.last) || (s.lev? c 4 p.job p.phase 0).any (fun e => e.2.last) ||
  (s.ctx c).jobsEnded.contains p.job

/-- REC and REPLAY as two bits. -/
def Packet.mode (p : Packet) : Nat := p.flags / 2 % 4

/-- Code 7. -/
def State.code7 (s : State) (c : Nat) (p : Packet) : Bool := match (s.ctx c).first with
  | some f => f.2.2 != p.mode
  | none => false

/-- The rejection code of a packet whose CVA is good (Table 106); 0 accepts it. -/
def State.packetCode (s : State) (c : Nat) (p : Packet) : Nat :=
  let g := p.grp c
  if p.code1 then 1
  else if p.code2 then 2
  else if s.code3 p g then 3
  else if s.code4 p g then 4
  else if s.code5 p then 5
  else if s.code6 c p then 6
  else if s.code7 c p then 7
  else 0

/-- A rejected packet: its record is written with the code, STATE 11 and DONE 0. -/
def State.rejectPacket (s : State) (c : Nat) (p : Packet) (code : Nat) : State :=
  let s := s.writeRecord { Grp.blank with ctx := c, cva := BitVec.ofNat 64 p.cva, code := code, state := 3 }
  if p.flag 3 then s.msi c 0 else s

/-- A new level of a context. -/
def Lev.blank (c lvl : Nat) (p : Packet) : Lev :=
  { ctx := c, lvl := lvl, job := BitVec.ofNat 32 p.job, phase := BitVec.ofNat 32 (if lvl = 5 then 0 else p.phase)
    graph := BitVec.ofNat 32 (if lvl = 3 then p.graph else 0), last := false, launches := [], ended := 0, members := [], result := []
    parts := [], state := 0, done := 0, confl := none, cancelled := false, finished := false }

/-- Count a member into the level of a packet, making the level when it is new; `fin` marks its last member. -/
def State.joinLevel (s : State) (c lvl : Nat) (p : Packet) (mem : Nat) (fin : Bool) : State :=
  let q := match s.lev? c lvl p.job p.phase p.graph with
    | some e => (e.1, s)
    | none =>
      let f := s.fresh
      let off := (f.2.ctx c).cancelled.any fun x => decide (lvl ≤ x.1) && x.2.1 == p.job && (decide (5 ≤ x.1) || x.2.2.1 == p.phase) &&
        (decide (4 ≤ x.1) || x.2.2.2.1 == p.graph)
      (f.1, { f.2 with levs := SMap.insert f.2.levs f.1 { Lev.blank c lvl p with cancelled := off } })
  q.2.updLev q.1 fun v => { v with launches := addOnce v.launches mem, last := v.last || fin }

/-- Whether an instance that holds a packet has been cancelled, or a launch it depends on. -/
def State.comesLate (s : State) (c : Nat) (p : Packet) (g : Grp) : Bool :=
  ((s.ctx c).cancelled.any fun x => x.2.1 == p.job && (decide (5 ≤ x.1) || x.2.2.1 == p.phase) && (decide (4 ≤ x.1) || x.2.2.2.1 == p.graph)) ||
  p.predList.any fun l => (s.sibling g l).any fun e => e.2.cancelled

/-- An accepted packet: its launch waits in the pending table; one of a cancelled instance completes at once (R355). -/
def State.acceptPacket (s : State) (c : Nat) (p : Packet) : State :=
  let x := s.ctx c
  let old := x.first.filter fun f => f.1 == p.job
  let first := old.getD (p.job, p.fmode, (x.first.map fun f => f.2.2).getD p.mode)
  let s := s.setCtx c { x with
    last := some (p.job, p.phase, p.graph, p.launch)
    first := some first
    fmix := (old.isSome && x.fmix) || first.2.1 != p.fmode
    readSince := false
    jobsEnded := if p.flag 5 then addOnce x.jobsEnded p.job else x.jobsEnded }
  let s := if x.first.isNone && p.flag 2 then s.post (.replayLogIndex c) else s
  let s := s.joinLevel c 3 p p.launch (p.flag 3)
  let s := s.joinLevel c 4 p p.graph (p.flag 4)
  let s := s.joinLevel c 5 p p.phase (p.flag 5)
  let g := p.grp c
  let late := s.comesLate c p g
  let q := s.fresh
  let s := { q.2 with grps := SMap.insert q.2.grps q.1 { g with cancelled := late } }
  if late then s.post (.instanceEnd .launch q.1) else s.post (.launchStart q.1)

/-- Packets of a context in its pending table. -/
def State.pendingCount (s : State) (c : Nat) : Nat := (s.grps.filter fun e => e.2.ctx == c && e.2.st == .pending).length

/-- CONS passes a packet. -/
def State.passCons (s : State) (c : Nat) : State := s.setVf c Vf.cons (BitVec.ofNat 64 ((s.consOf c + 1) % 2 ^ 32))

/-- A packet of a context has been read that was not accepted. -/
def State.readOnly (s : State) (c : Nat) : State := s.setCtx c { s.ctx c with readSince := true }

/-- The W9 reads and checks one packet. -/
def State.intake (s : State) (c : Nat) : State :=
  match s.slotBytes c with
  | none => s.ringError c
  | some bs =>
    let p := Packet.of bs
    let s := s.passCons c
    if !s.cvaOk c p.cva then (s.readOnly c).ringError c
    else
      let code := s.packetCode c p
      let s := if code = 0 then s.acceptPacket c p else (s.readOnly c).rejectPacket c p code
      if s.prodOf c = s.consOf c then s else s.postOnce (.packetIntake c)

/-- PACKET_INTAKE: it waits while the pending table is full, a kill runs or a checkpoint is saved (R348, R383, R405). -/
def execPacketIntake (ctx : Nat) (s : State) : Host.Outcome State Fault Refusal :=
  .next (if !s.up || !isVf ctx || !s.ringEn ctx || s.prodOf ctx == s.consOf ctx then s
    else if (s.ctx ctx).killing || (s.ctx ctx).saving || decide (Config.pendingEntries ≤ s.pendingCount ctx) then s.postOnce (.packetIntake ctx)
    else s.intake ctx)

/-! ### Host cancels (R355) -/

/-- A write of HCANCEL1: any other LEVEL is ignored and sets ERR. -/
def State.writeHcancel1 (s : State) (c : Nat) (val : W64) : State :=
  let lvl := fld val 61 3
  let job := fld (s.vfNum c Vf.hcancel0) 32 32
  let phase := fld (s.vfNum c Vf.hcancel0) 0 32
  let graph := fld val 12 8
  if lvl < 2 ∨ 5 < lvl then s.setErr c
  else
    let s := s.setVf c Vf.hcancel1 (BitVec.ofNat 64 (lvl * 2 ^ 61 + fld val 0 20))
    if lvl = 2 then
      match List.find? (fun e : Nat × Grp => e.2.kind == .host && e.2.ctx == c && e.2.job.toNat == job && e.2.phase.toNat == phase &&
          e.2.graph.toNat == graph && e.2.launch.toNat == fld val 0 12) s.grps with
      | some e => s.cancelGrp cancelFuel e.1
      | none => s
    else s.cancelLevel c lvl job phase graph

/-- HCANCEL1. -/
def execHcancel1 (ctx : Nat) (val : W64) (s : State) : Host.Outcome State Fault Refusal :=
  .next (if s.up && isVf ctx then s.writeHcancel1 ctx val else s)

/-! ### Function level resets (R386) -/

end Machine
/-- Whether an event performs a command that a write of a PF register started (R389, R393, R404). -/
def Instr.isCommand : Instr → Bool
  | .mbRaiseMinSvn | .mbReportMinSvn | .mbReservedCommand _ | .mtload _ | .inval _ | .migcmd _ | .kill _ | .preempt _ _
  | .checkpointSave _ | .checkpointRestore _ | .frespSupply _ _ | .frespNr _ _ => true
  | _ => false
namespace Machine

/-- KILL of a context, whole, and the VF's registers at their reset values. -/
def State.resetVf (s : State) (c : Nat) : State :=
  let s := (s.killCtx c).killEnd c
  { s with vf := s.vf.filter fun e => e.1 / 65536 != c }

/-- FUNCTION_LEVEL_RESET_VF. -/
def execFunctionLevelResetVf (ctx : Nat) (s : State) : Host.Outcome State Fault Refusal :=
  .next (if s.up && isVf ctx then s.resetVf ctx else s)

/-- The PF registers at their reset values, no command of theirs under way; POOLCFG.BASE is the firmware's. -/
def State.resetPf (s : State) : State :=
  let pool := fld (s.pfNum Pf.poolcfg) 30 22
  let s : State := { s with
    pf := []
    exp := .reset
    migration := none
    inval := none
    ckpt := none
    tokens := []
    escq := []
    inbox := s.inbox.filter fun e => !e.isCommand }
  s.setPf Pf.poolcfg (setFld (s.pfNum Pf.poolcfg) 30 22 pool)

/-- FUNCTION_LEVEL_RESET_PF: every VF, then the PF registers. -/
def execFunctionLevelResetPf (s : State) : Host.Outcome State Fault Refusal :=
  .next (if s.up then ((List.range 16).foldl (fun s k => s.resetVf (k + 1)) s).resetPf else s)

/-! ### PCI Express requests -/

/-- The size that a configuration write gives BAR 2 of PF 0 (Table 118): log2 of 1 GiB to 1 TiB; another leaves it. -/
def State.sizeBar (s : State) (bar2 : Option Nat) : State :=
  match bar2 with
  | some n => if 30 ≤ n && n ≤ 40 then { s with mgmt := { s.mgmt with bar2 := n } } else s
  | none => s

/-- CONFIG_REQUEST: Request Retry Status until step 6 of Table 121 or recovery. One that writes the resizable BAR's control
gives it a size (log 104). -/
def execConfigRequest (req : ConfigReq) (s : State) : Host.Outcome State Fault Refusal :=
  .next (match s.mgmt.boot with
    | .off => s
    | .reset => { s with hostOut := s.hostOut ++ [.configRetry req.req] }
    | .recovery | .up => State.sizeBar { s with hostOut := s.hostOut ++ [.configDone req.req] } req.bar2)

/-- What a request to the port may need beyond a plain memory or configuration access (Table 117): the listed options, and
those it says are not implemented. -/
inductive PcieOption where
  | virtualFunctions | ari | tenBitTags | msix | selectiveIde | aer | functionReset
  | linkIde | ats | pri | pasid | tdisp | atomicOp | multicast
  | other
  deriving DecidableEq, Repr

/-- The options by number; any other number is an option that Table 117 does not list. -/
def PcieOption.all : List PcieOption :=
  [.virtualFunctions, .ari, .tenBitTags, .msix, .selectiveIde, .aer, .functionReset, .linkIde, .ats, .pri, .pasid, .tdisp,
   .atomicOp, .multicast]
def PcieOption.of (n : Nat) : PcieOption := (PcieOption.all[n]?).getD .other

/-- Whether Table 117 lists the option as supported. -/
def PcieOption.listed (o : PcieOption) : Bool :=
  o ∈ [.virtualFunctions, .ari, .tenBitTags, .msix, .selectiveIde, .aer, .functionReset]

/-- UNSUPPORTED_REQUEST: the event's number is 16 × tag + the option that the request needs (log 93); a request that needs
an option not listed completes with Unsupported Request (R384). -/
def execUnsupportedRequest (req : Nat) (s : State) : Host.Outcome State Fault Refusal :=
  .next (if s.mgmt.boot = .off || (PcieOption.of (req % 16)).listed then s else { s with hostOut := s.hostOut ++ [.unsupported req] })

/-- The device PA that BAR 2 of a function reaches at an offset. -/
def State.aperture (s : State) (fn off : Nat) : Option Nat :=
  if fn = 0 then if off < 2 ^ s.mgmt.bar2 then some ((s.pfNum Pf.apbase).toNat + off) else none
  else if isVf fn ∧ off < 2 ^ 32 then some ((s.pfNum (Pf.vfap fn)).toNat + off) else none

/-- The bytes of a host access, and the most that one request moves (Table 117). -/
def hostAccLen : HostAcc → Nat
  | .read n => n
  | .write bs => bs.length
def hostAccMost : HostAcc → Nat
  | .read _ => 4096
  | .write _ => 512

/-- HOST_APERTURE_ACCESS at each line's home, at system scope: a read of 1 to 4,096 bytes, or a write of 1 to 512, the limits of
Table 117. A write may satisfy waits. -/
def execHostApertureAccess (fn off : Nat) (wr : HostAcc) (s : State) : Host.Outcome State Fault Refusal :=
  .next (if !s.up || hostAccLen wr = 0 || decide (hostAccMost wr < hostAccLen wr) then s
    else match s.aperture fn off, s.aperture fn (off + hostAccLen wr - 1) with
    | some pa, some _ => (match wr with
      | .write bs => (s.writeDev pa bs).wake
      | .read n => { s with hostOut := s.hostOut ++ [.readData fn off (Memory.bytes s.mem pa n)] })
    | _, _ => s)

/-! ### The expert engine's events (R291, R294 to R300) -/

/-- XPSTAT_READ: returns the register and clears FAILS. -/
def State.readXpstat (s : State) : State :=
  { s with hostOut := s.hostOut ++ [.regRead 0 Pf.xpstat s.xpstat], exp := { s.exp with fails := 0 } }
def execXpstatRead (s : State) : Host.Outcome State Fault Refusal := .next (if s.up then s.readXpstat else s)

/-- Copy a version-0 mooring table image into slot 0 of every die; version 0 is newest and the only live one. -/
def State.loadMooring (s : State) (pa : Nat) : State :=
  let rows := s.mem.filter fun e => decide (pa ≤ e.1) && decide (e.1 < pa + 2 ^ 20)
  let dsm := (List.range Config.dies).foldl (fun m d =>
    let k := slotKey d 0
    let m := m.filter fun e => !(decide (k ≤ e.1) && decide (e.1 < k + 2 ^ 20))
    rows.foldl (fun m e => Memory.setByte m (e.1 - pa + k) e.2) m) s.dsm
  { s with dsm := dsm, exp := { Expert.reset with fails := s.exp.fails } }

/-- MTLOAD. -/
def execMtload (pa : W64) (s : State) : Host.Outcome State Fault Refusal :=
  .next (if s.up then (s.setPf Pf.mtload pa).loadMooring pa.toNat else s)

def execSamplingInterval (s : State) : Host.Outcome State Fault Refusal := .next s.sample
def execVersionSwitchCopyDone (s : State) : Host.Outcome State Fault Refusal := .next s.switchCopied
def execSlotWritten (die : Nat) (s : State) : Host.Outcome State Fault Refusal := .next (s.switchSlot die)
def execGraceExpiry (id : Nat) (s : State) : Host.Outcome State Fault Refusal := .next (s.endGrace id)
def execSwitchAbandon (die : Replica) (s : State) : Host.Outcome State Fault Refusal := .next (s.abandonSwitch die.expert die.die)

/-! ### Reduction windows (R95) -/

/-- Whether a window of a context combines partials of an element with an operator (R365). -/
def State.combines (s : State) (c va op : Nat) : Bool :=
  (List.range 16).any fun n =>
    let o := Pf.redwin c n
    let x := s.pfNum (o + 0x10)
    let base := (s.pfNum o).toNat
    fld x 24 1 == 1 && fld x 16 8 == op && decide (base ≤ va) && decide (va < base + (s.pfNum (o + 8)).toNat)

/-- Whether two partials become one on the way: of one context, home and element, with the window's operator. -/
def State.meets (s : State) (a b : WinPart) : Bool :=
  a.ctx == b.ctx && a.home == b.home && a.va == b.va && a.part.op == b.part.op && s.combines a.ctx a.va a.part.op

/-- REDUCTION_PARTIAL_COMBINE: partials n and m meet on the way and become one; partial n alone (n = m) leaves for the
package that homes its window. A merged partial of a window that this package homes arrives from the fabric as partial n, and
waits for the settling of its phase. -/
def execReductionPartialCombine (n : Nat) (m : Meet) (s : State) : Host.Outcome State Fault Refusal :=
  .next (match m with
  | .arrived w => if w.home = s.ownPackage w.ctx then { s with windows := s.windows.take n ++ w :: s.windows.drop n } else s
  | .other m => match s.windows[n]?, s.windows[m]? with
    | some a, some b =>
      if n < m && s.meets a b then { s with windows := (s.windows.set n { a with part := a.part.combine b.part }).eraseIdx m }
      else if n = m && a.home ≠ s.ownPackage a.ctx then { s with windows := s.windows.eraseIdx n, hostOut := s.hostOut ++ [.partial_ a] }
      else s
    | _, _ => s)

/-! ### Decode windows (R131) -/

/-- The descriptor words as Table 34 has them: the first five 8-byte words; integer sources are not packed (log 111);
SCALED 1 with ROWLEN 0 is no descriptor (log 128). -/
def windowOk (src len alias_ scale ctl : W64) : Bool :=
  let sf := fld ctl 32 8
  let df := fld ctl 40 8
  let rowlen := fld ctl 0 32
  let scaled := fld ctl 49 1 == 1
  let per := match Fmt.codes[sf]? with
    | some m => if m.tinned then 128 else if m.bits = 6 then 80 else 512 / m.bits
    | none => 1
  fld src 52 12 == 0 && fld src 0 6 == 0 && len != 0 && fld len 0 6 == 0 && fld alias_ 0 21 == 0 &&
  decide (5 ≤ sf) && decide (sf ≤ 28) && (df == 1 || df == 2 || df == 3 || df == 15) && fld ctl 50 14 == 0 &&
  (if scaled then fld scale 0 2 == 0 && rowlen != 0 && rowlen % per == 0 else scale == 0 && rowlen == 0)

/-- A write of a descriptor word: only while no context runs; a descriptor that would be enabled with fields that break
Table 34, or whose zero fields from 0x2C on are written otherwise, is rejected; DECERR is read-only. -/
def State.writeWindow (s : State) (n word : Nat) (val : W64) : State :=
  let o := Pf.window n
  let w (k : Nat) : W64 := if k = word then val else s.pfNum (o + 8 * k)
  if s.busyAny then s.reject (o + 8 * word)
  else if word = 5 then (if fld val 32 32 = 0 then s else s.reject (o + 8 * word))
  else if 6 ≤ word then (if val = 0 then s else s.reject (o + 8 * word))
  else if fld (w 4) 48 1 = 1 && !windowOk (w 0) (w 1) (w 2) (w 3) (w 4) then s.reject (o + 8 * word)
  else s.setPf (o + 8 * word) val

/-- DECODE_WINDOW_WRITE. -/
def execDecodeWindowWrite (n word : Nat) (val : W64) (s : State) : Host.Outcome State Fault Refusal :=
  .next (if s.up && decide (n < 16) && decide (word < 8) then s.writeWindow n word val else s)

/-! ### The mailbox (R393) -/

/-- The end of a mailbox command: the result code, and ERR when it is refused. -/
def State.mbEnd (s : State) (code : Nat) (err : Bool) : State :=
  let x := setFld (setFld (s.pfNum Pf.mbstat) 0 1 0) 8 8 code
  s.setPf Pf.mbstat (if err then setFld x 1 1 1 else x)

/-- Raise the fused minimum SVN. -/
def State.mbRaise (s : State) : State :=
  let n := (s.pfNum Pf.mbarg).toNat
  if s.mgmt.svn.toNat < n then s.mbEnd 1 true
  else if n ≤ s.mgmt.fuses.minSvn.toNat then s.mbEnd 2 true
  else if Config.fuseFails s.free then s.mbEnd 3 true
  else State.mbEnd { s with mgmt := { s.mgmt with fuses := { s.mgmt.fuses with minSvn := BitVec.ofNat 32 n } } } 0 false

/-- Report it. -/
def State.mbReport (s : State) : State := (s.setPf Pf.mbarg (s.mgmt.fuses.minSvn.setWidth 64)).mbEnd 0 false

/-- Whether a command is under way: BUSY of MBSTAT. -/
def State.mbBusy (s : State) : Bool := fld (s.pfNum Pf.mbstat) 0 1 == 1

/-- A write of MBCMD starts a command, which its event ends; one while BUSY is set is discarded. -/
def State.mbWrite (s : State) (val : W64) : State :=
  if s.mbBusy then s.reject Pf.mbcmd
  else
    let s := (s.setPf Pf.mbcmd val).setPf Pf.mbstat (setFld (s.pfNum Pf.mbstat) 0 1 1)
    s.post (if val = 1 then .mbRaiseMinSvn else if val = 2 then .mbReportMinSvn else .mbReservedCommand val)

/-- The command that is under way runs to its end; an event that comes with none under way is written and run at once (log 105). -/
def State.mbStart (s : State) (cmd : W64) (run : State → State) : State :=
  if !s.up then s
  else if !s.mbBusy then run (s.setPf Pf.mbcmd cmd)
  else if s.pfNum Pf.mbcmd = cmd then run s
  else s

def execMbRaiseMinSvn (s : State) : Host.Outcome State Fault Refusal := .next (s.mbStart 1 State.mbRaise)
def execMbReportMinSvn (s : State) : Host.Outcome State Fault Refusal := .next (s.mbStart 2 State.mbReport)
def execMbReservedCommand (cmd : W64) (s : State) : Host.Outcome State Fault Refusal :=
  .next (s.mbStart cmd fun s => s.mbEnd 0xFF true)

/-! ### Register writes (R387, R389) -/

/-- A vector whose message waited while it was masked is sent once it is unmasked, and is no longer pending (R384). -/
def State.unmask (s : State) (fn vec : Nat) : State :=
  let o := if fn = 0 then Pf.msixPend else 0x2000
  let pend := if fn = 0 then s.pfNum o else s.vfNum fn o
  let ctl := if fn = 0 then s.pfNum (Pf.msix + 16 * vec + 8) else s.vfNum fn (0x1000 + 16 * vec + 8)
  if fld pend vec 1 = 0 || fld ctl 32 1 = 1 then s
  else
    let s := if fn = 0 then s.setPf o (setFld pend vec 1 0) else s.setVf fn o (setFld pend vec 1 0)
    { s with hostOut := s.hostOut ++ [.msi fn vec] }

/-- A write of VF BAR 0 (Table 119). -/
def State.writeVf (s : State) (c off : Nat) (val : W64) : State :=
  if off = Vf.rbase then (if s.ringIdle c then s.setVf c off (BitVec.ofNat 64 (fld val 0 56)) else s)
  else if off = Vf.rcfg then s.writeRcfg c val
  else if off = Vf.prod then s.writeProd c val
  else if off = Vf.hcancel0 then s.setVf c off val
  else if off = Vf.hcancel1 then s.writeHcancel1 c val
  else if 0x1000 ≤ off ∧ off < 0x1040 ∧ off % 8 = 0 then (s.setVf c off val).unmask c ((off - 0x1000) / 16)
  else s

/-- A write that is allowed only in some states. -/
def State.gated (s : State) (ok : Bool) (off : Nat) (val : W64) : State := if ok then s.setPf off val else s.reject off

/-- Keep fields of a value: (low bit, width). -/
def keepFields (x : W64) (fs : List (Nat × Nat)) : W64 := BitVec.ofNat 64 (fs.foldl (fun n f => n + fld x f.1 f.2 * 2 ^ f.1) 0)

/-- XPCFG (Table 79): CTX may change only while EN is 0. -/
def State.writeXpcfg (s : State) (val : W64) : State :=
  let old := s.pfNum Pf.xpcfg
  let rep := fld val 52 4
  let val := setFld val 52 4 (if 1 ≤ rep && rep ≤ 8 then rep else 8)
  let val := setFld val 32 16 (max 1 (fld val 32 16))
  let val := setFld val 16 16 (max 1 (fld val 16 16))
  let val := keepFields val [(63, 1), (56, 5), (52, 4), (32, 16), (16, 16)]
  (s.gated (fld old 63 1 == 0 || fld old 56 5 == fld val 56 5) Pf.xpcfg val).switchGoesOn

/-- Append the escalation records that waited for room. -/
def State.flushEsc (s : State) : State := s.escq.foldl (fun s bs => s.escPut bs) { s with escq := [] }

/-- FRESP: the driver's answer is an event of its own. -/
def State.writeFresp (s : State) (val : W64) : State :=
  let die := fld val 32 8
  let entry := fld val 0 9
  (s.setPf Pf.fresp val).post (if fld val 40 1 = 1 then .frespNr die entry else .frespSupply die entry)

/-- The fields of a word of a context descriptor (Table 108) and of a reduction-window descriptor (Table 109). -/
def descFields : Nat → List (Nat × Nat)
  | 0x00 => [(0, 8), (16, 16), (32, 16)]
  | 0x08 => [(0, 56)]
  | 0x10 => [(12, 44)]
  | 0x18 => [(12, 52)]
  | 0x20 => [(0, 32)]
  | _ => []
def redwinFields : Nat → List (Nat × Nat)
  | 0x00 => [(16, 40)]
  | 0x08 => [(16, 48)]
  | 0x10 => [(0, 16), (16, 8), (24, 1), (32, 32)]
  | _ => []

/-- The registers of a context (Table 120 row 3). -/
def State.writeCtxReg (s : State) (c o off : Nat) (val : W64) : State :=
  let idle := !s.busyCtx c
  if o = 0x00 then s.gated idle off (keepFields val [(12, 40)])
  else if o = 0x08 ∨ o = 0x10 ∨ o = 0x18 then s.gated idle off (keepFields val [(0, 56)])
  else if o = 0x20 then s.gated idle off (keepFields val [(0, 40)])
  else if o = 0x28 then s.gated idle off (keepFields val [(0, 1)])
  else if o = 0x30 then s.post (.preempt c val)
  else if o = 0x38 then (if val = 1 then s.post (.kill c) else s)
  else if o = 0x40 then (if fld val 0 1 = 1 then s.setPf off 0 else s)
  else if 0x100 ≤ o ∧ o < 0x140 then s.gated idle off (keepFields val (descFields (o - 0x100)))
  else if 0x200 ≤ o ∧ o < 0x240 then s.setPf off val
  else if 0x400 ≤ o ∧ o < 0x800 then s.gated idle off (keepFields val (redwinFields (o % 64)))
  else s

/-- The registers of a socket (Table 120 row 2). -/
def State.writeSocket (s : State) (sk o off : Nat) (val : W64) : State :=
  if o = 0 ∧ sk < 8 then (if fld val 0 1 = 1 then s.setPf off 0 else s)
  else if o = 8 ∧ sk < 8 then s.setPf off val
  else if 0x100 ≤ o ∧ o < 0x300 ∧ o % 32 = 0 then
    if fld val 63 1 = 1 then (List.range 4).foldl (fun s k => s.setPf (off + 8 * k) 0) s else s
  else s

/-- The checkpoint registers (Table 129). -/
def State.writeCk (s : State) (off : Nat) (val : W64) : State :=
  if off = Pf.rsvcfg then s.setPf off (keepFields val [(48, 16), (30, 18), (0, 9)])
  else if off = Pf.ckcmd0 then s.setPf off (keepFields val [(16, 16), (8, 5), (0, 3)])
  else if off = Pf.ckcmd1 then
    let op := fld (s.pfNum Pf.ckcmd0) 0 2
    if op = 1 then s.post (.checkpointSave val) else if op = 2 then s.post (.checkpointRestore val) else s.reject off
  else if off = Pf.ckstat then s.setPf off (s.pfNum off &&& ~~~(BitVec.ofNat 64 (fld val 0 2)))
  else if off = Pf.storecfg then s.setPf off (keepFields val [(48, 16), (0, 12)])
  else s

/-- The first row of Table 120. -/
def State.writeFirst (s : State) (off : Nat) (val : W64) : State :=
  if off = Pf.pfstat then
    let s := if fld val 0 1 = 1 then s.setPf off (setFld (s.pfNum off) 0 1 0) else s
    if fld val 1 1 = 1 ∧ s.mgmt.boot = .recovery then s.post .recoveryLoad else s
  else if Pf.apbase ≤ off ∧ off ≤ Pf.vfap 16 then s.setPf off (keepFields val [(0, 52)])
  else if off = Pf.poolcfg then s.gated (!s.busyAny) off (keepFields val [(30, 22), (0, 9)])
  else if off = Pf.pecfg then s.setPf off (keepFields val [(16, 32), (0, 8)])
  else if off = Pf.fqbase ∨ off = Pf.escbase then s.setPf off val
  else if off = Pf.fqlog2 ∨ off = Pf.esclog2 then s.setPf off (keepFields val [(0, 5)])
  else if off = Pf.fqcons then s.setPf off (keepFields val [(0, 32)])
  else if off = Pf.esccons then (s.setPf off (keepFields val [(0, 32)])).flushEsc
  else if off = Pf.fresp then s.writeFresp val
  else if off = Pf.xpcfg then s.writeXpcfg val
  else if off = Pf.xpthr then s.setPf off val
  else if off = Pf.mtload then s.post (.mtload val)
  else if off = Pf.inval then s.setPf off (setFld val 63 1 (fld (s.pfNum off) 63 1))
  else if off = Pf.inval + 8 then s.setPf off val
  else if off = Pf.inval + 16 then s.startInval val
  else if off = Pf.migcmd ∨ off = Pf.migcmd + 8 then s.setPf off val
  else if off = Pf.migcmd + 16 then s.startMigration val
  else if off = Pf.migstat then (if fld val 0 1 = 1 then s.setPf off 0 else s)
  else if off = Pf.mbcmd then s.mbWrite val
  else if off = Pf.mbarg then s.setPf off val
  else if off = Pf.mbstat then (if fld val 1 1 = 1 then s.setPf off (setFld (s.pfNum off) 1 1 0) else s)
  else s

/-- A write of PF BAR 0 (Table 120); read-only registers and offsets that no table names ignore it. -/
def State.writePf (s : State) (off : Nat) (val : W64) : State :=
  if off < 0x158 then s.writeFirst off val
  else if 0x800 ≤ off ∧ off < 0x828 then s.writeCk off val
  else if 0x1000 ≤ off ∧ off < 0x7800 then s.writeSocket ((off - 0x1000) / 0x400) (off % 0x400) off val
  else if 0x10000 ≤ off ∧ off < 0x20000 then s.writeCtxReg ((off - 0x10000) / 0x1000 + 1) (off % 0x1000) off val
  else if 0x20000 ≤ off ∧ off < 0x20400 then s.writeWindow ((off - 0x20000) / 64) (off % 64 / 8) val
  else if 0x30000 ≤ off ∧ off < 0x32000 then s.setPf off (keepFields val [(0, 12), (16, 12), (32, 12), (48, 12)])
  else if 0x40000 ≤ off ∧ off < 0x40100 then (s.setPf off val).unmask 0 ((off - 0x40000) / 16)
  else s

/-- A driver write of the inactive image slot, 8 bytes at 2^32 × slot + offset: the running image stays as it is (R392, log 106). -/
def State.writeSlot (s : State) (off : Nat) (val : W64) : State :=
  let o := off % 2 ^ 32
  if off / 2 ^ 32 = 0 ∧ s.mgmt.active ≠ some false then
    { s with mgmt := { s.mgmt with slotA := Memory.setNum s.mgmt.slotA o 8 val.toNat } }
  else if off / 2 ^ 32 = 1 ∧ s.mgmt.active ≠ some true then
    { s with mgmt := { s.mgmt with slotB := Memory.setNum s.mgmt.slotB o 8 val.toNat } }
  else s

/-- A write of 8 bytes to a function's BAR 0, or, as function 17, to the module's flash. In recovery PF 0 has only PFSTAT and
the image buffer (R391). -/
def State.writeReg (s : State) (fn off : Nat) (val : W64) : State :=
  if s.up then
    if fn = 0 then s.writePf off val
    else if isVf fn then s.writeVf fn off val
    else if fn = 17 then s.writeSlot off val
    else s
  else if s.mgmt.boot = .recovery && fn = 0 then
    if off = Pf.pfstat then s.writeFirst off val
    else if Pf.image ≤ off && off < Pf.image + 2 ^ 22 then
      { s with mgmt := { s.mgmt with buffer := Memory.setNum s.mgmt.buffer (off - Pf.image) 8 val.toNat } }
    else s
  else s

/-! ### Register reads (R387, R389) -/

/-- The offsets that Table 120, with R404, names. -/
def pfNamed (off : Nat) : Bool :=
  let o := off % 0x400
  let c := off % 0x1000
  off % 8 == 0 &&
  (decide (off ≤ Pf.mbstat) || (decide (Pf.rsvcfg ≤ off) && decide (off ≤ Pf.storecfg)) ||
   (decide (0x1000 ≤ off) && decide (off < 0x3000) && decide (o ≤ 8)) ||
   (decide (0x1000 ≤ off) && decide (off < 0x7800) && (o == 0x80 || (decide (0x100 ≤ o) && decide (o < 0x300)))) ||
   (decide (0x10000 ≤ off) && decide (off < 0x20000) &&
     (decide (c ≤ 0x40) || (decide (0x100 ≤ c) && decide (c < 0x140)) || (decide (0x200 ≤ c) && decide (c < 0x240)) ||
      (decide (0x400 ≤ c) && decide (c < 0x800)))) ||
   (decide (0x20000 ≤ off) && decide (off < 0x20400)) || (decide (0x30000 ≤ off) && decide (off < 0x32000)) ||
   (decide (0x40000 ≤ off) && decide (off < 0x40100)) || off == Pf.msixPend)

/-- The offsets that Table 119 names. -/
def vfNamed (off : Nat) : Bool :=
  off % 8 == 0 && (decide (off ≤ Vf.hcancel1) || (decide (0x1000 ≤ off) && decide (off < 0x1040)) || off == 0x2000)

/-- What a register of PF BAR 0 reads as: XPSTAT as the engine stands; fields that read as another value than they hold (Tables
108, 110, 129). -/
def State.pfRead (s : State) (off : Nat) : W64 :=
  if off = Pf.xpstat then s.xpstat
  else if off = Pf.poolcfg then setFld (s.pfNum off) 0 9 s.poolGib
  else if off = Pf.rsvcfg then setFld (s.pfNum off) 0 9 (min (fld (s.pfNum off) 0 9) 384)
  else if 0x10000 ≤ off ∧ off < 0x20000 ∧ off % 0x1000 = 0x120 then setFld (s.pfNum off) 0 32 (wdogOf (s.pfNum off))
  else if pfNamed off then s.pfNum off
  else 0

/-- A read of 8 bytes of a function's BAR 0: at an offset that no table names zero (R387); of XPSTAT and ERRSUM with their
effects. In recovery PF 0 has only PFSTAT and the image buffer. -/
def State.readReg (s : State) (fn off : Nat) : State :=
  let put (x : W64) : State := { s with hostOut := s.hostOut ++ [.regRead fn off x] }
  if s.up then
    if fn = 0 then
      if off = Pf.xpstat then s.readXpstat
      else if 0x1000 ≤ off ∧ off < 0x7800 ∧ off % 0x400 = 0x80 then s.readErrsum ((off - 0x1000) / 0x400)
      else put (s.pfRead off)
    else if isVf fn then put (if vfNamed off then s.vfNum fn off else 0)
    else s
  else if s.mgmt.boot = .recovery && fn = 0 then
    put (if off = Pf.pfstat then s.pfNum off
      else if Pf.image ≤ off && off < Pf.image + 2 ^ 22 && off % 8 == 0 then BitVec.ofNat 64 (Memory.num s.mgmt.buffer (off - Pf.image) 8)
      else 0)
  else s

/-- REGISTER_WRITE: a write of a register that has no row of its own, or, with no value, a read of one. -/
def execRegisterWrite (fn off : Nat) (val : Option W64) (s : State) : Host.Outcome State Fault Refusal :=
  .next (match val with
    | some x => if off % 8 ≠ 0 then s else s.writeReg fn off x
    | none => s.readReg fn off)

end Sys2Proof.Machine
end

