-- ==== Sys2Proof/Machine/Sha3.lean ====
section
/-! DEFINITION. SHA3-256, which R391, R392 and R406 name by its standard (FIPS 202). -/

namespace Sys2Proof.Machine

/-- Rotation of each lane of a Keccak state; lane (x, y) stands at x + 5y. -/
def keccakRot : List Nat :=
  [0, 1, 62, 28, 27, 36, 44, 6, 55, 20, 3, 10, 43, 25, 39, 41, 45, 15, 21, 8, 18, 2, 61, 56, 14]

/-- The round constants. -/
def keccakRc : List W64 :=
  [0x0000000000000001, 0x0000000000008082, 0x800000000000808A, 0x8000000080008000, 0x000000000000808B, 0x0000000080000001,
   0x8000000080008081, 0x8000000000008009, 0x000000000000008A, 0x0000000000000088, 0x0000000080008009, 0x000000008000000A] ++
  [0x000000008000808B, 0x800000000000008B, 0x8000000000008089, 0x8000000000008003, 0x8000000000008002, 0x8000000000000080,
   0x000000000000800A, 0x800000008000000A, 0x8000000080008081, 0x8000000000008080, 0x0000000080000001, 0x8000000080008008]

/-- One round of Keccak-f[1600] on its 25 lanes. -/
def keccakRound (a : List W64) (rc : W64) : List W64 :=
  let lane (l : List W64) (x y : Nat) : W64 := l.getD (x % 5 + 5 * (y % 5)) 0
  let c := (List.range 5).map fun x => lane a x 0 ^^^ lane a x 1 ^^^ lane a x 2 ^^^ lane a x 3 ^^^ lane a x 4
  let d := (List.range 5).map fun x => lane c (x + 4) 0 ^^^ (lane c (x + 1) 0).rotateLeft 1
  let t := (List.range 25).map fun i => (lane a i (i / 5) ^^^ lane d i 0).rotateLeft (keccakRot.getD i 0)
  let b := (List.range 25).map fun i => lane t (i % 5 + 3 * (i / 5)) (i % 5)
  let e := (List.range 25).map fun i => lane b i (i / 5) ^^^ (~~~lane b (i % 5 + 1) (i / 5) &&& lane b (i % 5 + 2) (i / 5))
  (lane e 0 0 ^^^ rc) :: e.drop 1

/-- Absorb one block of 136 bytes. -/
def keccakAbsorb (a : List W64) (bs : List Byte) : List W64 :=
  keccakRc.foldl keccakRound (a.zipIdx.map fun e => e.1 ^^^ BitVec.ofNat 64 (leNat ((bs.drop (8 * e.2)).take 8)))

/-- The padding of a message to whole blocks: 0x06, zeros, and 0x80 in the last byte. -/
def sha3Pad (bs : List Byte) : List Byte :=
  let n := 136 - bs.length % 136
  bs ++ if n = 1 then [0x86] else 0x06 :: (List.replicate (n - 2) 0 ++ [0x80])

/-- SHA3-256: the digest's byte k is bits [8k+7:8k]. -/
@[irreducible] def sha3 (bs : List Byte) : BitVec 256 :=
  let m := sha3Pad bs
  let a := (List.range (m.length / 136)).foldl (fun a k => keccakAbsorb a ((m.drop (136 * k)).take 136)) (List.replicate 25 0)
  BitVec.ofNat 256 (leNat ((a.take 4).flatMap fun x => leBytes 8 x.toNat))

end Sys2Proof.Machine
end

