-- ==== Sys2Proof/Machine/Boot.lean ====
section
/-! DEFINITION. Boot, recovery and power (R390 to R392), measurement and attestation (R394 to R397), and IDE keys (R384). -/

namespace Sys2Proof.Machine

/-! ### Firmware images (R392) -/

/-- The signed bytes of an image, with SIG taken as zero. -/
def imageSigned (m : Memory) : List Byte :=
  let len := Memory.num m 0x0C 4
  (List.range len).map fun k => if 0x530 ≤ k ∧ k < 0xEA4 then 0 else Memory.byte m k

/-- The digest of an image's signed bytes. -/
def imageDigest (m : Memory) : BitVec 256 := sha3 (imageSigned m)

/-- Whether the key of an image is one of the fused ones and not revoked. -/
def Fuses.keyOk (f : Fuses) (m : Memory) : Bool :=
  let d := sha3 (Memory.bytes m 0x10 1312)
  (d == f.dig0 && !f.rev0) || (d == f.dig1 && !f.rev1)

/-- Whether an image is valid. -/
def Fuses.imageOk (f : Fuses) (m : Memory) : Bool :=
  let len := Memory.num m 0x0C 4
  Memory.num m 0 4 == 0x57465254 && Memory.num m 4 2 == 1 && f.keyOk m &&
  Config.verify (Memory.bytes m 0x10 1312) (imageDigest m) (Memory.bytes m 0x530 2420) &&
  decide (f.minSvn.toNat ≤ Memory.num m 8 4) &&
  (List.range (Memory.num m 6 2)).all fun k =>
    decide (Memory.num m (0xEC0 + 32 * k + 4) 4 + Memory.num m (0xEC0 + 32 * k + 8) 4 ≤ len)

/-- Steps 4 to 6 of Table 121 with the image that runs, and the slot it comes from. -/
def State.boot (s : State) (m : Memory) (slot : Option Bool) : State :=
  let dig := imageDigest m
  let s : State := { s with mgmt := { s.mgmt with
    boot := .up
    active := slot
    romver := Config.romVersion
    fwdig := dig
    svn := BitVec.ofNat 32 (Memory.num m 8 4)
    coremap := Memory.setBytes [] 0 ((List.range Config.dies).flatMap fun d => leBytes 5 (Config.coreMap d).toNat)
    idkey := Config.identityKey s.mgmt.fuses.secret dig } }
  s.setPf Pf.poolcfg (setFld (s.pfNum Pf.poolcfg) 30 22 (Config.poolBase s.free).toNat)

/-- What power-up or PERST# leaves: flash and fuses survive; so do, beside the package, host memory, what was sent,
and the model's own counters and schedule. -/
def State.powered (s : State) (b : BootSt) : State :=
  { State.reset with
    mgmt := { Mgmt.reset with boot := b, slotA := s.mgmt.slotA, slotB := s.mgmt.slotB, fuses := s.mgmt.fuses }
    hmem := s.hmem
    hostOut := s.hostOut
    sched := s.sched
    free := s.free
    cycle := s.cycle }

/-- COLD_START (Table 121): the valid slot of higher SVN, slot A when they are equal; recovery when neither is valid. -/
def execColdStart (s : State) : Host.Outcome State Fault Refusal :=
  let t := s.powered .reset
  let f := t.mgmt.fuses
  let a := f.imageOk t.mgmt.slotA
  let b := f.imageOk t.mgmt.slotB
  let newer := decide (Memory.num t.mgmt.slotA 8 4 < Memory.num t.mgmt.slotB 8 4)
  .next (if b && (!a || newer) then t.boot t.mgmt.slotB (some true)
    else if a then t.boot t.mgmt.slotA (some false)
    else { t with mgmt := { t.mgmt with boot := .recovery } })

/-- RECOVERY_LOAD: PFSTAT.LOAD checks the buffer and goes on at step 4. -/
def execRecoveryLoad (s : State) : Host.Outcome State Fault Refusal :=
  .next (if s.mgmt.boot = .recovery && s.mgmt.fuses.imageOk s.mgmt.buffer then s.boot s.mgmt.buffer none else s)

/-- POWER_OFF (R390). -/
def execPowerOff (s : State) : Host.Outcome State Fault Refusal := .next (s.powered .off)

/-! ### Run manifests and measurements (R396, R397) -/

/-- The 1,024 bytes of DWIN: the descriptors in order, each DECERR written as zero. -/
def State.dwinBytes (s : State) : List Byte :=
  (List.range 16).flatMap fun n => (List.range 8).flatMap fun k =>
    let x := s.pfNum (Pf.window n + 8 * k)
    leBytes 8 (if k = 5 then setFld x 0 32 0 else x).toNat

/-- The run manifest of a context (Table 124). -/
def State.manifest (s : State) (c : Nat) : List Byte :=
  let x := s.ctx c
  let f := x.first.getD (0, 0, 0)
  let flags := f.2.2 % 4 + (if x.fmix then 4 else 0) + if x.first.isNone then 8 else 0
  leBytes 2 1 ++ leBytes 2 c ++ leBytes 4 flags ++ leBytes 4 f.1 ++ leBytes 4 f.2.1 ++ leBytes 4 s.mgmt.romver.toNat ++ leBytes 12 0 ++
  leBytes 32 s.mgmt.fwdig.toNat ++ s.dwinBytes

/-- A measurement block (Table 123). -/
def State.measurement (s : State) (index : Nat) : List Byte :=
  if index = 1 then leBytes 4 s.mgmt.romver.toNat
  else if index = 2 then leBytes 32 s.mgmt.fwdig.toNat
  else if index = 3 then leBytes 4 s.mgmt.svn.toNat ++ leBytes 4 s.mgmt.fuses.minSvn.toNat
  else if index = 4 then Memory.bytes s.mgmt.coremap 0 40
  else if 0x11 ≤ index ∧ index ≤ 0x20 then s.manifest (index - 0x10)
  else []

/-! ### The SPDM responder (R394, R395)

Response codes are those of SPDM, a standard that the spec names. -/

def Spdm.version : Nat := 0x04
def Spdm.certificate : Nat := 0x02
def Spdm.challengeAuth : Nat := 0x03
def Spdm.measurements : Nat := 0x60
def Spdm.keyExchange : Nat := 0x64
def Spdm.capabilities : Nat := 0x61
def Spdm.algorithms : Nat := 0x63

/-- The capabilities of R394 as flags: CERT, CHAL, MEAS with signature, ENCRYPT, MAC, KEY_EX. -/
def Spdm.flags : List Byte := leBytes 4 (2 ^ 1 + 2 ^ 2 + 2 * 2 ^ 3 + 2 ^ 6 + 2 ^ 7 + 2 ^ 9)
/-- Its algorithms: ECDSA P-384, SHA-384, ECDHE P-384, AES-256-GCM. -/
def Spdm.suite : List Byte := leBytes 4 (2 ^ 7) ++ leBytes 4 (2 ^ 1) ++ leBytes 2 (2 ^ 4) ++ leBytes 2 (2 ^ 1)

/-- Send a response, signed with the identity key over what it carries and the requester's nonce. -/
def State.spdmSend (s : State) (code : Nat) (body nonce : List Byte) : State :=
  { s with hostOut := s.hostOut ++ [.spdm code body (Config.spdmSign s.mgmt.idkey (body ++ nonce))] }

/-- The certificate chain of slot 0. -/
def State.certChain (s : State) : List Byte := Config.certChain s.mgmt.idkey s.mgmt.fwdig

/-- A message of the session with its tag (ENCRYPT, MAC): one whose tag is not that of its number is discarded; the answer is
encrypted and authenticated under the same number. -/
def State.inSession (s : State) (msg tag : List Byte) (answer : State → State × List Byte) : State :=
  match s.mgmt.session with
  | none => s
  | some k =>
    if Config.sealTag k s.mgmt.seq msg ≠ tag then s
    else
      let r := answer s
      { r.1 with
        mgmt := { r.1.mgmt with seq := s.mgmt.seq + 1 }
        hostOut := r.1.hostOut ++ [.sealed s.mgmt.seq (Config.seal k s.mgmt.seq r.2) (Config.sealTag k s.mgmt.seq r.2)] }

/-- SPDM_GET_MEASUREMENTS, in clear or with a tag in the session: an index that Table 123 does not list returns no block. -/
def execSpdmGetMeasurements (index : Nat) (nonce : SpdmAsk) (s : State) : Host.Outcome State Fault Refusal :=
  let body := s.measurement index
  .next (if !s.up then s
    else match nonce with
    | .clear x => s.spdmSend Spdm.measurements body x
    | .inSession m => s.inSession (leBytes 1 index ++ m.data) m.tag fun u => (u, body ++ Config.spdmSign s.mgmt.idkey (body ++ m.data)))

/-- SPDM_GET_CERTIFICATE. -/
def execSpdmGetCertificate (s : State) : Host.Outcome State Fault Refusal :=
  .next (if s.up then { s with hostOut := s.hostOut ++ [.spdm Spdm.certificate s.certChain []] } else s)

/-- SPDM_CHALLENGE. -/
def execSpdmChallenge (nonce : List Byte) (s : State) : Host.Outcome State Fault Refusal :=
  .next (if s.up then s.spdmSend Spdm.challengeAuth s.certChain nonce else s)

/-- SPDM_KEY_EXCHANGE: a session, for IDE keying among others; its messages are numbered from 0. -/
def execSpdmKeyExchange (exch : List Byte) (s : State) : Host.Outcome State Fault Refusal :=
  .next (if s.up then
      let t := s.spdmSend Spdm.keyExchange [] exch
      { t with mgmt := { t.mgmt with session := some (Config.sessionKey t.mgmt.idkey exch), seq := 0 } }
    else s)

/-- SPDM_VERSION_NEGOTIATION: 1.3 where the requester offers it, else 1.2; with a version agreed, the capabilities and the
algorithms follow. -/
def execSpdmVersionNegotiation (versions : List Nat) (s : State) : Host.Outcome State Fault Refusal :=
  let v := if versions.contains 0x13 then some 0x13 else if versions.contains 0x12 then some 0x12 else none
  .next (if s.up then
      { s with mgmt := { s.mgmt with spdmVer := v }
               hostOut := s.hostOut ++ match v with
                 | some n => [.spdm Spdm.version (leBytes 1 n) [], .spdm Spdm.capabilities Spdm.flags [], .spdm Spdm.algorithms Spdm.suite []]
                 | none => [.spdm Spdm.version [] []] }
    else s)

/-- Program the key of one of up to four selective IDE streams; the answer says whether it is in force. -/
def State.programKey (s : State) (strm : Nat) (key : List Byte) : State × List Byte :=
  if SMap.has s.mgmt.ide strm || decide (s.mgmt.ide.length < 4) then
    ({ s with mgmt := { s.mgmt with ide := SMap.insert s.mgmt.ide strm key } }, leBytes 2 strm ++ [0])
  else (s, leBytes 2 strm ++ [1])

/-- IDE_KM_KEY_PROGRAMMING: a message of the session. -/
def execIdeKmKeyProgramming (strm : Nat) (key : Sealed) (s : State) : Host.Outcome State Fault Refusal :=
  .next (if s.up then s.inSession (leBytes 2 strm ++ key.data) key.tag fun u => u.programKey strm key.data else s)

end Sys2Proof.Machine
end

