-- ==== Sys2Proof/Machine/Checkpoint.lean ====
section
/-! DEFINITION. Checkpoint and restore (R404 to R407): the image of a context, its sixteen streams, the report, and the
reserve that holds another package's streams. -/

namespace Sys2Proof.Machine

/-! ### The image (R405) -/

/-- The well-formed leaves of page tables (R369), ascending: VA, entry, log2 of the page size. -/
def leavesGo (mem : Memory) : List (Nat × Nat × Bool × Bool) → Nat → Nat → List (Nat × Nat × Nat)
  | [], _, _ => []
  | (sh, n, leafOk, tableOk) :: ls, tab, base => (List.range (2 ^ n)).flatMap fun i =>
    let e := Memory.num mem (tab + 8 * i) 8
    let va := base + i * 2 ^ sh
    if e % 2 = 0 || e / 2 ^ 52 % 128 ≠ 0 || e / 256 % 16 ≠ 0 then []
    else if e / 2 % 2 = 1 then (if leafOk then [(va, e, sh)] else [])
    else if !tableOk || e / 4 % 64 ≠ 0 || e / 2 ^ 59 ≠ 0 || Config.hbmBytes ≤ e / 4096 % 2 ^ 40 * 4096 then []
    else leavesGo mem ls (e / 4096 % 2 ^ 40 * 4096) va

/-- A 64 KiB unit: its VA, its leaf with ADDR zero, its PA. -/
structure Unit64 where
  va : Nat
  leaf : Nat
  pa : Nat
  deriving DecidableEq, Repr

/-- A leaf with ADDR zero. -/
def bareLeaf (e : Nat) : Nat := (setFld (BitVec.ofNat 64 e) 12 40 0).toNat

/-- Whether a PA lies in the twin pool. -/
def State.inPool (s : State) (pa : Nat) : Bool :=
  let base := fld (s.pfNum Pf.poolcfg) 30 22 * 2 ^ 30
  decide (base ≤ pa) && decide (pa < base + s.poolGib * 2 ^ 30)

/-- The units of a context's image: mapped memory of this package but decode-window aliases and the twin pool. -/
def State.units (s : State) (c : Nat) : List Unit64 :=
  (leavesGo s.mem walkLevels (s.ptroot c) 0).flatMap fun e => match leafOf e.2.1 e.2.2 with
    | .leaf l =>
      if l.host || l.cls == .window || !l.backed then []
      else (List.range (2 ^ e.2.2 / 65536)).filterMap fun k =>
        if s.inPool (l.pa + 65536 * k) then none else some ⟨e.1 + 65536 * k, bareLeaf e.2.1, l.pa + 65536 * k⟩
    | _ => []

/-- The record of a unit in a stream. -/
def State.unitBytes (s : State) (u : Unit64) : List Byte := leBytes 8 u.va ++ leBytes 8 u.leaf ++ Memory.bytes s.mem u.pa 65536

/-- The bytes of stream k. -/
def State.streamBytes (s : State) (us : List Unit64) (k : Nat) : List Byte :=
  (us.filter fun u => u.va / 65536 % 16 == k).flatMap s.unitBytes

/-! ### The reserve (R404) -/

/-- The unit records of a stream. -/
def unitRecords (bs : List Byte) : List (List Byte) :=
  (List.range ((bs.length + 65551) / 65552)).map fun k => (bs.drop (65552 * k)).take 65552

/-- The headers and the contents of a stream's unit records, and the stream again. -/
def recordHeads (bs : List Byte) : List Byte := (unitRecords bs).flatMap fun u => u.take 16
def recordBodies (bs : List Byte) : List Byte := (unitRecords bs).flatMap fun u => u.drop 16
def joinRecords (heads bodies : List Byte) : List Byte :=
  (List.range ((heads.length + 15) / 16)).flatMap fun k => (heads.drop (16 * k)).take 16 ++ (bodies.drop (65536 * k)).take 65536

/-- RSVCFG: the package whose streams this reserve accepts, where it begins and its size in bytes. -/
def State.rsvSrc (s : State) : Nat := fld (s.pfNum Pf.rsvcfg) 48 16
def State.rsvBase (s : State) : Nat := fld (s.pfNum Pf.rsvcfg) 30 18 * 2 ^ 30
def State.rsvSize (s : State) : Nat := min (fld (s.pfNum Pf.rsvcfg) 0 9) 384 * 2 ^ 30
def State.rsvEnd (s : State) : Nat := min (s.rsvBase + s.rsvSize) Config.hbmBytes

/-- A stream that the reserve holds; all are of one source, whatever package asks for them (R407, R408). -/
def State.stored (s : State) (strm : Nat) : Option (List Byte) :=
  (List.find? (fun e : Nat × Stored => e.1 % 16 == strm) s.reserve).map fun e => joinRecords e.2.heads (Memory.bytes s.mem e.2.base e.2.len)

/-- The streams that stay beside a new one: those of its source in the reserve as it lies now; none when the source sends a
stream again, since that begins another checkpoint (log 36). -/
def State.rsvKept (s : State) (src strm : Nat) : SMap Stored :=
  if SMap.has s.reserve (16 * src + strm) then []
  else s.reserve.filter fun e => decide (e.1 / 16 = src) && decide (s.rsvBase ≤ e.2.base) && decide (e.2.base + e.2.len ≤ s.rsvEnd)

/-- Where the contents of a new stream stand: after those of the streams that stay. -/
def State.rsvPlace (s : State) (src strm : Nat) : Nat := (s.rsvKept src strm).foldl (fun m e => max m (e.2.base + e.2.len)) s.rsvBase

/-- Hold a stream in the reserve: its contents at the reserve's PA. -/
def State.storeStream (s : State) (src strm : Nat) (bs : List Byte) : State :=
  let at_ := s.rsvPlace src strm
  let body := recordBodies bs
  State.writeDev { s with reserve := SMap.insert (s.rsvKept src strm) (16 * src + strm) ⟨recordHeads bs, at_, body.length⟩ } at_ body

/-- Whether the reserve accepts a stream: of its source, and with room for its contents; the headers stand beside them. -/
def State.rsvTakes (s : State) (src strm : Nat) (bs : List Byte) : Bool :=
  decide (src = s.rsvSrc) && decide (s.rsvSize ≠ 0) && decide (s.rsvPlace src strm + (recordBodies bs).length ≤ s.rsvEnd)

/-! ### Commands (Table 129) -/

/-- The end of a command: DONE, with FAIL, WHY and STREAM when it failed. -/
def State.ckEnd (s : State) (strm why : Nat) : State :=
  State.setPf { s with ckpt := none } Pf.ckstat (BitVec.ofNat 64 (strm * 2 ^ 56 + why * 16 + (if why = 0 then 0 else 2) + 1))

def State.ckCtx (s : State) : Nat := fld (s.pfNum Pf.ckcmd0) 8 5
def State.ckPeer (s : State) : Nat := fld (s.pfNum Pf.ckcmd0) 16 16
def State.ckStore (s : State) : Bool := fld (s.pfNum Pf.ckcmd0) 2 1 == 1
def State.ckOp (s : State) : Nat := fld (s.pfNum Pf.ckcmd0) 0 2

/-- Whether a context stands at a step boundary: its last accepted packet has PEND and its completion value is
written, and no later packet has been read. -/
def State.ckBoundary (s : State) (c : Nat) : Bool :=
  match (s.ctx c).last with
  | none => false
  | some l =>
    !(s.ctx c).readSince &&
    (s.lev? c 4 l.1 l.2.1 0).any (fun e => e.2.last && e.2.finished) &&
    (!(s.ctx c).jobsEnded.contains l.1 || (s.lev? c 5 l.1 0 0).any fun e => e.2.finished)

/-- The destination of a command's streams: the endpoint of STORECFG, or the package of PEER. -/
def State.ckDest (s : State) (store : Bool) (peer : Nat) : Nat := if store then fld (s.pfNum Pf.storecfg) 48 16 else peer

/-- Bytes as cells, and back. -/
def cellsOf (bs : List Byte) : List Host.Cell := bs.zipIdx.map fun e => (e.2, e.1)
def bytesOf (cs : List Host.Cell) : List Byte := cs.map Prod.snd

/-- Send a stream: to this package's own reserve, or out. -/
def State.sendStream (s : State) (own : Bool) (dst k : Nat) (bs : List Byte) : State :=
  if own then s.post (.reserveStreamAccept dst k (cellsOf bs)) else { s with hostOut := s.hostOut ++ [.stream dst k (cellsOf bs)] }

/-- Begin a save. -/
def State.beginSave (s : State) (report : W64) : State :=
  let c := s.ckCtx
  let store := s.ckStore
  if !isVf c || !s.ckBoundary c then s.ckEnd 0 1
  else if store && fld (s.pfNum Pf.storecfg) 0 12 == 0 then s.ckEnd 0 3
  else
    let us := s.units c
    match us.find? fun u => s.poisoned u.pa 65536 with
    | some u => s.ckEnd (u.va / 65536 % 16) 2
    | none =>
      let own := !store && s.ckPeer == s.ownPackage c
      let dst := s.ckDest store s.ckPeer
      let streams : SMap (List Byte) := (List.range 16).map fun k => (k, s.streamBytes us k)
      let s := streams.foldl (fun s e => s.sendStream own dst e.1 e.2) s
      let s := s.setCtx c { s.ctx c with saving := true }
      State.post { s with ckpt := some ⟨false, c, report.toNat, s.ckPeer, store, us.length, streams, []⟩ } .checkpointSaveDone

/-- A write of CKCMD1: a reserved OP is discarded, and so is a command during another. -/
def State.ckWrite (s : State) (op : Nat) (run : State → State) (report : W64) : State :=
  if !s.up then s
  else if s.ckOp ≠ op ∨ s.ckpt.isSome then s.reject Pf.ckcmd1
  else run (s.setPf Pf.ckcmd1 report)

/-- CHECKPOINT_SAVE. -/
def execCheckpointSave (report : W64) (s : State) : Host.Outcome State Fault Refusal :=
  .next (s.ckWrite 1 (fun s => s.beginSave report) report)

/-- The checkpoint report (R406). -/
def State.ckReport (s : State) (k : Ckpt) : List Byte :=
  let l := (s.ctx k.ctx).last.getD (0, 0, 0, 0)
  leBytes 4 l.1 ++ leBytes 4 l.2.1 ++ leBytes 2 k.ctx ++ leBytes 2 (s.prank k.ctx) ++ leBytes 4 0 ++ leBytes 8 k.units ++ leBytes 8 0 ++
  ((List.range 16).flatMap fun n => leBytes 32 (sha3 (SMap.get k.streams [] n)).toNat) ++
  leBytes 32 (sha3 (s.manifest k.ctx)).toNat

/-- Whether a command's destination is this package's own reserve. -/
def State.ckOwn (s : State) (k : Ckpt) : Bool := !k.store && k.peer == s.ownPackage k.ctx

/-- Whether a stream sent to this package's own reserve has yet to arrive there. -/
def State.ckArriving (s : State) (k : Ckpt) : Bool :=
  s.ckOwn k && s.inbox.any fun e => match e with
    | .reserveStreamAccept src n _ => src == k.peer && decide (n < 16)
    | _ => false

/-- The first stream that the destination has not accepted: this package's own reserve as it answered; another's answer is free. -/
def State.ckRefused (s : State) (k : Ckpt) : Option Nat :=
  if s.ckOwn k then (List.range 16).find? fun n => !k.taken.contains n
  else (Config.refusedStream s.free).map Fin.val

/-- CHECKPOINT_SAVE_DONE: once every stream has arrived, the report is written, then DONE is set; intake goes on. -/
def execCheckpointSaveDone (s : State) : Host.Outcome State Fault Refusal :=
  .next (match s.ckpt with
    | none => s
    | some k =>
      if k.restore then s
      else if s.ckArriving k then s.postOnce .checkpointSaveDone
      else
        let s := State.postOnce (s.setCtx k.ctx { s.ctx k.ctx with saving := false }) (.packetIntake k.ctx)
        match Config.transferFails s.free, s.ckRefused k with
        | some n, _ => s.ckEnd n.val 6
        | none, some n => s.ckEnd n 3
        | none, none => (s.writeHost k.report (s.ckReport k)).ckEnd 0 0)

/-! ### Restore (R407) -/

/-- Begin a restore: this package's own reserve gives its streams at once; another package, or the endpoint, is asked for them. -/
def State.beginRestore (s : State) (report : W64) : State :=
  let c := s.ckCtx
  let store := s.ckStore
  let k : Ckpt := ⟨true, c, report.toNat, s.ckPeer, store, 0, [], []⟩
  if store && fld (s.pfNum Pf.storecfg) 0 12 == 0 then s.ckEnd 0 3
  else if s.ckOwn k then
    match (List.range 16).find? fun n => (s.stored n).isNone with
    | some n => s.ckEnd n 3
    | none =>
      let k := { k with streams := (List.range 16).map fun n => (n, (s.stored n).getD []) }
      State.post { s with ckpt := some k } .checkpointRestoreDone
  else
    { s with
      ckpt := some k
      hostOut := s.hostOut ++ (List.range 16).map fun n => .stream (s.ckDest store s.ckPeer) (16 + n) [] }

/-- CHECKPOINT_RESTORE. -/
def execCheckpointRestore (report : W64) (s : State) : Host.Outcome State Fault Refusal :=
  .next (s.ckWrite 2 (fun s => s.beginRestore report) report)

/-- Whether every stream of a restore has arrived. -/
def Ckpt.complete (k : Ckpt) : Bool := (List.range 16).all fun n => SMap.has k.streams n

/-- Place one unit at its VA: none when no leaf maps it as the record says. -/
def State.placeUnit (s : State) (c : Nat) (bs : List Byte) : Option State :=
  let va := fieldAt bs 0 8
  if 2 ^ 56 ≤ va then none
  else match s.walk c va, leafPa s.mem va walkLevels (s.ptroot c) with
  | .leaf l, some at_ =>
    if bareLeaf (Memory.num s.mem at_ 8) = fieldAt bs 8 8 then some (s.writeDev (l.paOf va) ((bs.drop 16).take 65536)) else none
  | _, _ => none

/-- Place the units of a stream; the Bool says that all were placed. -/
def State.placeUnits (s : State) (c : Nat) : List (List Byte) → State × Bool
  | [] => (s, true)
  | u :: us => match s.placeUnit c u with
    | some t => t.placeUnits c us
    | none => (s, false)

/-- Place the streams in order: the stream that failed and why. -/
def State.placeStreams (s : State) (k : Ckpt) : List Nat → State × Option (Nat × Nat)
  | [] => (s, none)
  | n :: ns =>
    let bs := SMap.get k.streams [] n
    let r := s.placeUnits k.ctx (unitRecords bs)
    if !r.2 then (r.1, some (n, 5))
    else if (sha3 bs).toNat ≠ Memory.num r.1.hmem (k.report + 0x20 + 32 * n) 32 then (r.1, some (n, 4))
    else r.1.placeStreams k ns

/-- CHECKPOINT_RESTORE_DONE: once every stream has arrived, units are placed and digests checked; until then it waits for the
last one, which posts it. -/
def execCheckpointRestoreDone (s : State) : Host.Outcome State Fault Refusal :=
  .next (match s.ckpt with
    | none => s
    | some k =>
      if !k.restore then s
      else if !k.complete then s
      else match Config.transferFails s.free with
      | some n => s.ckEnd n.val 6
      | none =>
        let r := s.placeStreams k (List.range 16)
        match r.2 with
        | none => r.1.ckEnd 0 0
        | some (n, why) => r.1.ckEnd n why)

/-! ### Streams that arrive -/

/-- Whether an incoming stream answers the restore that runs. -/
def State.restores (s : State) (src : Nat) : Bool := s.ckpt.any fun k => k.restore && s.ckDest k.store k.peer == src

/-- A stream of the restore that runs: its last one lets it end. -/
def State.restoreStream (s : State) (strm : Nat) (bs : List Byte) : State :=
  let put (k : Ckpt) : Ckpt := { k with streams := SMap.insert k.streams strm bs }
  let s := { s with ckpt := s.ckpt.map put }
  if s.ckpt.any Ckpt.complete then s.postOnce .checkpointRestoreDone else s

/-- A save towards this package's own reserve learns that a stream of it has been accepted. -/
def State.tookStream (s : State) (src strm : Nat) : State :=
  { s with ckpt := s.ckpt.map fun k => if !k.restore && s.ckOwn k && k.peer == src then { k with taken := addOnce k.taken strm } else k }

/-- RESERVE_STREAM_ACCEPT: a stream for the restore that runs, or one for this reserve, which takes it or refuses it. A
stream number of 16 + k asks for stream k back, and one of 32 + k says that it has no stream k (log 36). -/
def execReserveStreamAccept (src strm : Nat) (data : List Host.Cell) (s : State) : Host.Outcome State Fault Refusal :=
  .next (if !s.up || decide (48 ≤ strm) then s
    else if 32 ≤ strm then if s.restores src then s.ckEnd (strm - 32) 3 else s
    else if 16 ≤ strm then
      (match s.stored (strm - 16) with
      | some bs => { s with hostOut := s.hostOut ++ [.stream src (strm - 16) (cellsOf bs)] }
      | none => { s with hostOut := s.hostOut ++ [.refused (strm - 16)] })
    else if s.restores src then s.restoreStream strm (bytesOf data)
    else if s.rsvTakes src strm (bytesOf data) then (s.storeStream src strm (bytesOf data)).tookStream src strm
    else { s with hostOut := s.hostOut ++ [.refused strm] })

end Sys2Proof.Machine
end

