-- ==== Sys2Proof/Machine/Float.lean ====
section
/-! DEFINITION. G3: float arithmetic (R204 to R206) and the crucibles (R143, R144, R207). -/

namespace Sys2Proof.Machine

/-- A float operand of a word, flushed (R136). -/
def State.fval (s : State) (m : Fmt) (o : Opnd) (l : Nat) : Val := flushIn s.w.sp.fmode m (s.fopnd m o l)

/-- FArith of R205 in one lane of a word. -/
def State.farithAt (s : State) (m : Fmt) (rnd : Rnd) (op : FOp) (f : F) (l : Nat) : Nat × Fl :=
  let z := match op with
    | .fma => s.fval m f.c l
    | _ => .nan false
  let y := match op with
    | .sqrt | .scale => .nan false
    | _ => s.fval m f.b l
  let k := match op with
    | .scale => intOf true 32 (s.opnd f.b 1 l)
    | _ => 0
  farith s.w.sp.fmode m (modeOf s.w.sp.fmode rnd) op (s.fval m f.a l) y z k

/-- A float instruction of Table 56 by FArith. -/
def floatOp (i : Instr) (f : F) (m : Fmt) (rnd : Rnd) (op : FOp) (s : State) : Host.Outcome State Fault Refusal :=
  simple i s fun act => s.perLane act f.d m.regs (s.farithAt m rnd op f)

def execFadd (f : F) (fmt : Fmt) (rnd : Rnd) (s : State) : Host.Outcome State Fault Refusal := floatOp (.fadd f fmt rnd) f fmt rnd .add s
def execFsub (f : F) (fmt : Fmt) (rnd : Rnd) (s : State) : Host.Outcome State Fault Refusal := floatOp (.fsub f fmt rnd) f fmt rnd .sub s
def execFmul (f : F) (fmt : Fmt) (rnd : Rnd) (s : State) : Host.Outcome State Fault Refusal := floatOp (.fmul f fmt rnd) f fmt rnd .mul s
def execFfma (f : F) (fmt : Fmt) (rnd : Rnd) (s : State) : Host.Outcome State Fault Refusal := floatOp (.ffma f fmt rnd) f fmt rnd .fma s
def execFdiv (f : F) (fmt : Fmt) (rnd : Rnd) (s : State) : Host.Outcome State Fault Refusal := floatOp (.fdiv f fmt rnd) f fmt rnd .div s
def execFsqrt (f : F) (fmt : Fmt) (rnd : Rnd) (s : State) : Host.Outcome State Fault Refusal := floatOp (.fsqrt f fmt rnd) f fmt rnd .sqrt s
def execFscale (f : F) (fmt : Fmt) (rnd : Rnd) (s : State) : Host.Outcome State Fault Refusal := floatOp (.fscale f fmt rnd) f fmt rnd .scale s

def execFmin (f : F) (fmt : Fmt) (s : State) : Host.Outcome State Fault Refusal :=
  simple (.fmin f fmt) s fun act => s.eachLane act f.d fmt.regs fun l => minBits fmt (s.fopnd fmt f.a l) (s.fopnd fmt f.b l)
def execFmax (f : F) (fmt : Fmt) (s : State) : Host.Outcome State Fault Refusal :=
  simple (.fmax f fmt) s fun act => s.eachLane act f.d fmt.regs fun l => maxBitsOf fmt (s.fopnd fmt f.a l) (s.fopnd fmt f.b l)

/-- A transcendental of F32 (R145, R146). -/
def transOp (i : Instr) (f : F) (rnd : Rnd) (op : W32 → Rnd → Val → Nat × Fl) (s : State) : Host.Outcome State Fault Refusal :=
  simple i s fun act => s.perLane act f.d 1 fun l => op s.w.sp.fmode (modeOf s.w.sp.fmode rnd) (s.fval .f32 f.a l)

def execFrcp (f : F) (rnd : Rnd) (s : State) : Host.Outcome State Fault Refusal := transOp (.frcp f rnd) f rnd frcpBits s
def execFrsq (f : F) (rnd : Rnd) (s : State) : Host.Outcome State Fault Refusal := transOp (.frsq f rnd) f rnd frsqBits s
def execFexp2 (f : F) (rnd : Rnd) (s : State) : Host.Outcome State Fault Refusal := transOp (.fexp2 f rnd) f rnd fexp2Bits s
def execFlog2 (f : F) (rnd : Rnd) (s : State) : Host.Outcome State Fault Refusal := transOp (.flog2 f rnd) f rnd flog2Bits s
def execFsin (f : F) (rnd : Rnd) (s : State) : Host.Outcome State Fault Refusal := transOp (.fsin f rnd) f rnd fsinBits s
def execFcos (f : F) (rnd : Rnd) (s : State) : Host.Outcome State Fault Refusal := transOp (.fcos f rnd) f rnd fcosBits s

/-- The class of R206, as a bit number. -/
def classBit (m : Fmt) (x : Nat) : Nat :=
  match decodeF m x with
  | .nan q => if q then 0 else 1
  | .inf n => if n then 2 else 9
  | .fin n k _ =>
    if k = 0 then (if n then 5 else 6)
    else if isSub m x then (if n then 4 else 7)
    else (if n then 3 else 8)

def execFclass (f : F) (fmt : Fmt) (s : State) : Host.Outcome State Fault Refusal :=
  simple (.fclass f fmt) s fun act => s.eachLane act f.d 1 fun l => 2 ^ classBit fmt (s.fopnd fmt f.a l)

/-! ### Crucibles -/

/-- Add one term to a crucible (R144). -/
def Cruc.addTerm (c : Cruc) (t : Val) : Cruc :=
  let neg0 : Bool := match t with
    | .fin n m _ => n && m == 0
    | _ => false
  let c := { c with neg0 := neg0 && (!c.seen || c.neg0), seen := true }
  match t with
  | .nan _ => { c with nan := true }
  | .inf n => if n then { c with ninf := true } else { c with pinf := true }
  | .fin n m e =>
    let x : Int := (dyOf n m e).n * 2 ^ (e + 2148).toNat
    let y := c.acc.toInt + x
    if y < -(2 ^ 4343 : Int) ∨ 2 ^ 4343 ≤ y then { c with ovf := true } else { c with acc := BitVec.ofInt 4344 y }

/-- The exact product as a term, with its flags. -/
def crucTerm (x y : Val) : Val × Fl :=
  match x, y with
  | .nan p, _ => (.nan false, Fl.when (p || y.isSig) Fl.nv)
  | _, .nan q => (.nan false, Fl.when q Fl.nv)
  | x, y => if (x.isInf && y.isZero) || (x.isZero && y.isInf) then (.nan false, Fl.nv) else (mulVal x y, 0)

/-- Read a crucible (R144). -/
def Cruc.read (c : Cruc) (fmode : W32) (m : Fmt) (rm : Rnd) : Nat × Fl :=
  if c.nan || c.ovf || (c.pinf && c.ninf) then (nanBits m, Fl.when (c.ovf || (c.pinf && c.ninf)) Fl.nv)
  else if c.pinf then (infBits m false, 0)
  else if c.ninf then (infBits m true, 0)
  else if c.acc = 0 then (zeroBits m (c.seen && c.neg0), 0)
  else roundFlush fmode m rm (decide (c.acc.toInt < 0)) c.acc.toInt.natAbs (-2148) false

/-- The number of a crucible operand. -/
def crucNo : Opnd → Nat
  | .c n => n.toNat
  | _ => 0

/-- Write the crucible that a destination names; specifier zero discards it (R173). -/
def Wave.putC (w : Wave) (d : Opnd) (c : Cruc) : Wave := match d with
  | .c n => w.setC n.toNat c
  | _ => w

/-- The lanes that give terms: one when every operand is scalar (R207). -/
def termLanes (act : Mask) (os : List Opnd) : List Nat :=
  if os.all fun o => o.isScalar then [lowLane act] else lanesOf act

/-- Add the terms of the lanes to the crucible that a destination names. -/
def State.addTerms (s : State) (d : Opnd) (ls : List Nat) (term : Nat → Val × Fl) : State :=
  ls.foldl (fun t l =>
    let r := term l
    (t.setW (t.w.putC d ((t.w.cruc (crucNo d)).addTerm r.1))).orFlags r.2) s

def execCclr (f : F) (s : State) : Host.Outcome State Fault Refusal :=
  simple (.cclr f) s fun _ => s.setW (s.w.putC f.d .zero)
def execCadd (f : F) (fmt : Fmt) (s : State) : Host.Outcome State Fault Refusal :=
  simple (.cadd f fmt) s fun act => s.addTerms f.d (termLanes act [f.a]) fun l =>
    let v := s.fval fmt f.a l
    (v, Fl.when v.isSig Fl.nv)
def execCfma (f : F) (fmt : Fmt) (s : State) : Host.Outcome State Fault Refusal :=
  simple (.cfma f fmt) s fun act => s.addTerms f.d (termLanes act [f.a, f.b]) fun l =>
    crucTerm (s.fval fmt f.a l) (s.fval fmt f.b l)
def execCrd (f : F) (fmt : Fmt) (rnd : Rnd) (clr : Bool) (s : State) : Host.Outcome State Fault Refusal :=
  simple (.crd f fmt rnd clr) s fun act =>
    let r := (s.w.cruc (crucNo f.a)).read s.w.sp.fmode fmt (modeOf s.w.sp.fmode rnd)
    let t := (s.oneValue act f.d fmt.regs r.1).orFlags r.2
    if clr then t.setW (t.w.setC (crucNo f.a) .zero) else t

end Sys2Proof.Machine
end

