-- ==== Sys2Proof/Machine/Integer.lean ====
section
/-! DEFINITION. G0 and G1: integer and address arithmetic, logic and shifts (R186 to R197). -/

namespace Sys2Proof.Machine

/-- An instruction of two integer operands with an exact result (R187, R188). -/
def int2 (i : Instr) (f : F) (ty : Ty) (sat : Bool) (op : Int → Int → Int) (s : State) : Host.Outcome State Fault Refusal :=
  simple i s fun act => s.perLane act f.d ty.regs fun l => intResult ty sat (op (s.iopnd ty f.a l) (s.iopnd ty f.b l))

/-- An instruction of one integer operand with an exact result. -/
def int1 (i : Instr) (f : F) (ty : Ty) (sat : Bool) (op : Int → Int) (s : State) : Host.Outcome State Fault Refusal :=
  simple i s fun act => s.perLane act f.d ty.regs fun l => intResult ty sat (op (s.iopnd ty f.a l))

def execAdd (f : F) (ty : Ty) (sat : Bool) (s : State) : Host.Outcome State Fault Refusal :=
  int2 (.add f ty sat) f ty sat (fun a b => a + b) s
def execSub (f : F) (ty : Ty) (sat : Bool) (s : State) : Host.Outcome State Fault Refusal :=
  int2 (.sub f ty sat) f ty sat (fun a b => a - b) s
def execMul (f : F) (ty : Ty) (sat : Bool) (s : State) : Host.Outcome State Fault Refusal :=
  int2 (.mul f ty sat) f ty sat (fun a b => a * b) s
def execMulhi (f : F) (ty : Ty) (s : State) : Host.Outcome State Fault Refusal :=
  int2 (.mulhi f ty) f ty false (fun a b => a * b / 2 ^ ty.bits) s
def execMad (f : F) (ty : Ty) (sat : Bool) (s : State) : Host.Outcome State Fault Refusal :=
  simple (.mad f ty sat) s fun act => s.perLane act f.d ty.regs fun l =>
    intResult ty sat (s.iopnd ty f.a l * s.iopnd ty f.b l + s.iopnd ty f.c l)
def execMin (f : F) (ty : Ty) (s : State) : Host.Outcome State Fault Refusal :=
  int2 (.min f ty) f ty false (fun a b => if a ≤ b then a else b) s
def execMax (f : F) (ty : Ty) (s : State) : Host.Outcome State Fault Refusal :=
  int2 (.max f ty) f ty false (fun a b => if a ≤ b then b else a) s
def execAbs (f : F) (ty : Ty) (sat : Bool) (s : State) : Host.Outcome State Fault Refusal :=
  int1 (.abs f ty sat) f ty sat (fun a => if a < 0 then -a else a) s
def execNeg (f : F) (ty : Ty) (sat : Bool) (s : State) : Host.Outcome State Fault Refusal :=
  int1 (.neg f ty sat) f ty sat (fun a => -a) s

/-- The quotient of R189 with its flags. -/
def divBits (ty : Ty) (sat : Bool) (a b : Int) : Nat × Fl :=
  if b = 0 then (bitsOf ty.bits (if ty.signed then -1 else hiOf false ty.bits), Fl.when (a != 0) Fl.dz)
  else
    let q := a.tdiv b
    if ty.signed && q == 2 ^ (ty.bits - 1) then
      (if sat then (bitsOf ty.bits (2 ^ (ty.bits - 1) - 1), Fl.sat) else (bitsOf ty.bits (loOf true ty.bits), 0))
    else (bitsOf ty.bits q, 0)

/-- The remainder of R189 with its flags. -/
def remBits (ty : Ty) (a b : Int) : Nat × Fl :=
  if b = 0 then (bitsOf ty.bits a, Fl.when (a != 0) Fl.dz) else (bitsOf ty.bits (a - a.tdiv b * b), 0)

def execDiv (f : F) (ty : Ty) (sat : Bool) (s : State) : Host.Outcome State Fault Refusal :=
  simple (.div f ty sat) s fun act => s.perLane act f.d ty.regs fun l => divBits ty sat (s.iopnd ty f.a l) (s.iopnd ty f.b l)
def execRem (f : F) (ty : Ty) (s : State) : Host.Outcome State Fault Refusal :=
  simple (.rem f ty) s fun act => s.perLane act f.d ty.regs fun l => remBits ty (s.iopnd ty f.a l) (s.iopnd ty f.b l)

/-- The address of R190: a + (Ext(b) << SH) modulo 2^w. -/
def leaBits (ty : Ty) (sx : Bool) (sh a b : Nat) : Nat :=
  bitsOf ty.bits ((a : Int) + (if sx then intOf true 32 b else (b : Int)) * 2 ^ sh)

def execLea (f : F) (ty : Ty) (sx : Bool) (sh : BitVec 3) (s : State) : Host.Outcome State Fault Refusal :=
  simple (.lea f ty sx sh) s fun act => s.eachLane act f.d ty.regs fun l =>
    leaBits ty sx sh.toNat (s.opnd f.a ty.regs l) (s.opnd f.b 1 l)

def execMov (f : F) (ty : Ty) (s : State) : Host.Outcome State Fault Refusal :=
  simple (.mov f ty) s fun act => s.eachLane act f.d ty.regs fun l => s.opnd f.a ty.regs l
def execMovi (f : F) (imm : BitVec 21) (s : State) : Host.Outcome State Fault Refusal :=
  simple (.movi f imm) s fun act => s.oneValue act f.d 1 (imm.signExtend 32).toNat

/-- The 1 bits of a number, its leading and trailing zeros, and its bits reversed, in w bits (R192). -/
def popcN (w x : Nat) : Nat := ((List.range w).filter fun k => x.testBit k).length
def clzN (w x : Nat) : Nat := if x = 0 then w else w - 1 - Nat.log2 x
def ctzN (w x : Nat) : Nat := ((List.range w).find? fun k => x.testBit k).getD w
def brevN (w x : Nat) : Nat := (List.range w).foldl (fun n k => 2 * n + (x / 2 ^ k) % 2) 0

def execPopc (f : F) (ty : Ty) (s : State) : Host.Outcome State Fault Refusal :=
  simple (.popc f ty) s fun act => s.eachLane act f.d 1 fun l => popcN ty.bits (s.opnd f.a ty.regs l)
def execClz (f : F) (ty : Ty) (s : State) : Host.Outcome State Fault Refusal :=
  simple (.clz f ty) s fun act => s.eachLane act f.d 1 fun l => clzN ty.bits (s.opnd f.a ty.regs l)
def execCtz (f : F) (ty : Ty) (s : State) : Host.Outcome State Fault Refusal :=
  simple (.ctz f ty) s fun act => s.eachLane act f.d 1 fun l => ctzN ty.bits (s.opnd f.a ty.regs l)
def execBrev (f : F) (ty : Ty) (s : State) : Host.Outcome State Fault Refusal :=
  simple (.brev f ty) s fun act => s.eachLane act f.d ty.regs fun l => brevN ty.bits (s.opnd f.a ty.regs l)

/-- The field of R193: LEN bits of a from POS, sign-extended on request. -/
def bfeN (sx : Bool) (pos len x : Nat) : Nat :=
  let v := x / 2 ^ pos % 2 ^ len
  if sx && v.testBit (len - 1) then v + (2 ^ 32 - 2 ^ len) else v
/-- The insertion of R193. -/
def bfiN (pos len d a : Nat) : Nat :=
  let mask := (2 ^ len - 1) * 2 ^ pos % 2 ^ 32
  Nat.lor (Nat.land d (2 ^ 32 - 1 - mask)) (Nat.land (a * 2 ^ pos) mask)

def execBfe (f : F) (sx : Bool) (pos len : BitVec 5) (s : State) : Host.Outcome State Fault Refusal :=
  simple (.bfe f sx pos len) s fun act => s.eachLane act f.d 1 fun l => bfeN sx pos.toNat (len.toNat + 1) (s.opnd f.a 1 l)
def execBfi (f : F) (pos len : BitVec 5) (s : State) : Host.Outcome State Fault Refusal :=
  simple (.bfi f pos len) s fun act => s.eachLane act f.d 1 fun l => bfiN pos.toNat (len.toNat + 1) (s.opnd f.d 1 l) (s.opnd f.a 1 l)

/-- One byte chosen by a selector nibble from the eight bytes of b:a (R194). -/
def permByte (ab n : Nat) : Nat :=
  let x := ab / 2 ^ (8 * (n % 8)) % 256
  if n < 8 then x else if 128 ≤ x then 255 else 0
def bpermN (a b c : Nat) : Nat :=
  let ab := a + 2 ^ 32 * b
  (List.range 4).foldl (fun n k => n + 2 ^ (8 * k) * permByte ab (c / 2 ^ (4 * k) % 16)) 0

def execBperm (f : F) (s : State) : Host.Outcome State Fault Refusal :=
  simple (.bperm f) s fun act => s.eachLane act f.d 1 fun l => bpermN (s.opnd f.a 1 l) (s.opnd f.b 1 l) (s.opnd f.c 1 l)

/-- The first active lane whose indexed register is out of bounds, as %trapinfo (R195, Table 54). -/
def State.indexFail (s : State) (act : Mask) (i : Opnd) (k : Nat) : Option W64 :=
  ((lanesOf act).find? fun l => decide (s.b.al.vregs ≤ s.opnd i 1 l + k)).map fun l =>
    BitVec.ofNat 64 (l * 65536 + (s.opnd i 1 l + k))

/-- Whether a register that an index reaches awaits delivery (R195: under the scoreboard). -/
def State.indexWaits (s : State) (act : Mask) (i : Opnd) (k : Nat) : Bool :=
  (lanesOf act).any fun l => s.pendingRegs.contains (64 + s.opnd i 1 l + k)

/-- A word that reaches a vector register by index: the bounds of every active lane, then the scoreboard (R195). -/
def indexed (i : Instr) (x : Opnd) (k : Nat) (s : State) (f : Mask → State) : Host.Outcome State Fault Refusal :=
  word i s fun act s =>
    match s.indexFail act x k with
    | some info => .trap s (.of 2 info s.pc)
    | none => if s.indexWaits act x k then .stall s.heldBack else .done (f act)

def execLdvr (f : F) (k : BitVec 8) (s : State) : Host.Outcome State Fault Refusal :=
  indexed (.ldvr f k) f.a k.toNat s fun act => s.eachLane act f.d 1 fun l => (s.w.vreg (s.opnd f.a 1 l + k.toNat) l).toNat
def execStvr (f : F) (k : BitVec 8) (s : State) : Host.Outcome State Fault Refusal :=
  indexed (.stvr f k) f.d k.toNat s fun act =>
    (lanesOf act).foldl (fun t l => t.setW (t.w.setV (s.opnd f.d 1 l + k.toNat) l (s.opnd32 f.a l))) s

def execAddc (f : F) (ty : Ty) (s : State) : Host.Outcome State Fault Refusal :=
  simple (.addc f ty) s fun act =>
    (lanesOf act).foldl (fun t l =>
      let x := s.opnd f.a ty.regs l + s.opnd f.b ty.regs l + s.opnd f.c 1 l
      (t.setOpnd f.d ty.regs l (x % 2 ^ ty.bits)).setOpnd f.c 1 l (x / 2 ^ ty.bits)) s

/-! ### G1 -/

/-- A bitwise instruction of two operands (R197). -/
def logic2 (i : Instr) (f : F) (ty : Ty) (op : Nat → Nat → Nat) (s : State) : Host.Outcome State Fault Refusal :=
  simple i s fun act => s.eachLane act f.d ty.regs fun l => op (s.opnd f.a ty.regs l) (s.opnd f.b ty.regs l)

/-- A shift: B is 32 bits and counts modulo the width (R197). -/
def shift2 (i : Instr) (f : F) (ty : Ty) (op : Nat → Nat → Nat → Nat) (s : State) : Host.Outcome State Fault Refusal :=
  simple i s fun act => s.eachLane act f.d ty.regs fun l => op ty.bits (s.opnd f.a ty.regs l) (s.opnd f.b 1 l % ty.bits)

def shlN (w a n : Nat) : Nat := a * 2 ^ n % 2 ^ w
def shrN (_w a n : Nat) : Nat := a / 2 ^ n
def sarN (w a n : Nat) : Nat := bitsOf w (intOf true w a / 2 ^ n)
def rotlN (w a n : Nat) : Nat := a * 2 ^ n % 2 ^ w + a / 2 ^ (w - n)

def execAnd (f : F) (ty : Ty) (s : State) : Host.Outcome State Fault Refusal := logic2 (.and f ty) f ty Nat.land s
def execOr (f : F) (ty : Ty) (s : State) : Host.Outcome State Fault Refusal := logic2 (.or f ty) f ty Nat.lor s
def execXor (f : F) (ty : Ty) (s : State) : Host.Outcome State Fault Refusal := logic2 (.xor f ty) f ty Nat.xor s
def execAndn (f : F) (ty : Ty) (s : State) : Host.Outcome State Fault Refusal :=
  logic2 (.andn f ty) f ty (fun a b => a - Nat.land a b) s
def execNot (f : F) (ty : Ty) (s : State) : Host.Outcome State Fault Refusal :=
  simple (.not f ty) s fun act => s.eachLane act f.d ty.regs fun l => 2 ^ ty.bits - 1 - s.opnd f.a ty.regs l
def execShl (f : F) (ty : Ty) (s : State) : Host.Outcome State Fault Refusal := shift2 (.shl f ty) f ty shlN s
def execShr (f : F) (ty : Ty) (s : State) : Host.Outcome State Fault Refusal := shift2 (.shr f ty) f ty shrN s
def execSar (f : F) (ty : Ty) (s : State) : Host.Outcome State Fault Refusal := shift2 (.sar f ty) f ty sarN s
def execRotl (f : F) (ty : Ty) (s : State) : Host.Outcome State Fault Refusal := shift2 (.rotl f ty) f ty rotlN s
def execFsh (f : F) (ty : Ty) (s : State) : Host.Outcome State Fault Refusal :=
  simple (.fsh f ty) s fun act => s.eachLane act f.d 1 fun l =>
    (s.opnd f.a 1 l * 2 ^ 32 + s.opnd f.b 1 l) / 2 ^ (s.opnd f.c 1 l % 64) % 2 ^ 32

end Sys2Proof.Machine
end

