-- ==== Sys2Proof/Machine/Select.lean ====
section
/-! DEFINITION. G2: compare, select and lane operations (R198 to R203). -/

namespace Sys2Proof.Machine

/-- A condition of `icmp` between two integers (R198). -/
def icmpHolds (cond : ICond) (a b : Int) : Bool :=
  match cond with
  | .eq => decide (a = b)
  | .ne => decide (a ≠ b)
  | .lt => decide (a < b)
  | .le => decide (a ≤ b)
  | .gt => decide (b < a)
  | .ge => decide (b ≤ a)

/-- Whether a condition of `fcmp` is signalling, or total (Table 55). -/
def FCondSignals : FCond → Bool
  | .lt | .le | .gt | .ge => true
  | _ => false

/-- `fcmp` (R199): the result and the flags. -/
def fcmpBits (fmode : W32) (m : Fmt) (cond : FCond) (a b : Nat) : Bool × Fl :=
  let x := flushIn fmode m a
  let y := flushIn fmode m b
  let un := x.isNan || y.isNan
  let nv := if FCondSignals cond then un else x.isSig || y.isSig
  let c := cmpVal x y
  let quiet (r : Bool) : Bool × Fl := (r, Fl.when nv Fl.nv)
  match cond with
  | .eq => quiet (!un && c == 0)
  | .ne => quiet (un || c != 0)
  | .lt | .ltq => quiet (!un && decide (c < 0))
  | .le | .leq => quiet (!un && decide (c ≤ 0))
  | .gt | .gtq => quiet (!un && decide (0 < c))
  | .ge | .geq => quiet (!un && decide (0 ≤ c))
  | .un => quiet un
  | .or => quiet (!un)
  | .tlt => (totalLe m a b && !totalLe m b a, 0)
  | .tle => (totalLe m a b, 0)
  | .teq => (totalLe m a b && totalLe m b a, 0)

/-- A truth value as a register holds it. -/
def boolNat (b : Bool) : Nat := if b then 1 else 0

def execIcmp (f : F) (ty : Ty) (cond : ICond) (s : State) : Host.Outcome State Fault Refusal :=
  simple (.icmp f ty cond) s fun act => s.eachLane act f.d 1 fun l => boolNat (icmpHolds cond (s.iopnd ty f.a l) (s.iopnd ty f.b l))
def execFcmp (f : F) (fmt : Fmt) (cond : FCond) (s : State) : Host.Outcome State Fault Refusal :=
  simple (.fcmp f fmt cond) s fun act => s.perLane act f.d 1 fun l =>
    let r := fcmpBits s.w.sp.fmode fmt cond (s.fopnd fmt f.a l) (s.fopnd fmt f.b l)
    (boolNat r.1, r.2)
def execSel (f : F) (ty : Ty) (s : State) : Host.Outcome State Fault Refusal :=
  simple (.sel f ty) s fun act => s.eachLane act f.d ty.regs fun l =>
    if s.opnd f.c 1 l = 1 then s.opnd f.a ty.regs l else s.opnd f.b ty.regs l
def execPlog (f : F) (tt : BitVec 8) (s : State) : Host.Outcome State Fault Refusal :=
  simple (.plog f tt) s fun act => s.eachLane act f.d 1 fun l =>
    boolNat (tt.getLsbD (4 * s.opnd f.c 1 l + 2 * s.opnd f.b 1 l + s.opnd f.a 1 l))

def execBallot (f : F) (s : State) : Host.Outcome State Fault Refusal :=
  simple (.ballot f) s fun act => s.oneValue act f.d 1 (act &&& maskOf fun l => s.opnd f.a 1 l == 1).toNat

/-- `vote` over the active lanes (R201). -/
def voteBits (mode : VMode) (act yes : Mask) : Bool :=
  match mode with
  | .all => yes == act
  | .any => yes != 0
  | .eq => yes == act || yes == 0

def execVote (f : F) (mode : VMode) (s : State) : Host.Outcome State Fault Refusal :=
  simple (.vote f mode) s fun act =>
    s.oneValue act f.d 1 (boolNat (voteBits mode act (act &&& maskOf fun l => s.opnd f.a 1 l == 1)))
def execRfal (f : F) (ty : Ty) (s : State) : Host.Outcome State Fault Refusal :=
  simple (.rfal f ty) s fun act => s.oneValue act f.d ty.regs (s.opnd f.a ty.regs (lowLane act))
def execBcast (f : F) (ty : Ty) (lane : BitVec 5) (s : State) : Host.Outcome State Fault Refusal :=
  simple (.bcast f ty lane) s fun act => s.oneValue act f.d ty.regs (s.opnd f.a ty.regs lane.toNat)

/-- The source lane of `shfl` (R203). -/
def shflSrc (mode : ShMode) (l : Nat) (n : Int) : Int :=
  match mode with
  | .idx => n
  | .up => l - n
  | .down => l + n
  | .xor => (Nat.xor l (n % 32).toNat : Nat)

def execShfl (f : F) (ty : Ty) (mode : ShMode) (s : State) : Host.Outcome State Fault Refusal :=
  simple (.shfl f ty mode) s fun act => s.eachLane act f.d ty.regs fun l =>
    let src := shflSrc mode l (intOf true 32 (s.opnd f.b 1 l))
    if 0 ≤ src ∧ src ≤ 31 then s.opnd f.a ty.regs src.toNat else s.opnd f.c ty.regs l

end Sys2Proof.Machine
end

