-- ==== Sys2Proof/Machine/Control.lean ====
section
/-! DEFINITION. G5: control transfer (R212 to R214), the X forms of `br`, `call`, `movl` and `add` (R182), and the pair
word (R179 to R181). -/

namespace Sys2Proof
open Machine
namespace Machine

/-! ### Transfers -/

/-- Move the active lanes to their targets and the others of the run to the fall-through address (R212). -/
def State.transfer (s : State) (act : Mask) (fall : W64) (target : Nat → W64) : State :=
  let w := s.w.goTo (s.run &&& ~~~act) fall
  s.setW ((lanesOf act).foldl (fun w l => w.goTo (laneBit l) (target l)) w)

/-- PC + 8 × an offset in words. -/
def wordsFrom (pc off : W64) : W64 := pc + 8 * off

def execBr (f : F) (imm : BitVec 21) (s : State) : Host.Outcome State Fault Refusal :=
  word (.br f imm) s fun act s => .moved (s.transfer act (s.pc + 8) fun _ => wordsFrom s.pc (imm.signExtend 64))

/-- The check of a computed target (R213): the cause it raises, if any. -/
def targetBad (x : W64) (cause : Nat) : Bool :=
  if cause = 4 then x.toNat % 8 != 0 else decide (2 ^ 56 ≤ x.toNat)

/-- `jmp` and `ret`. -/
def jumpTo (i : Instr) (f : F) (s : State) : Host.Outcome State Fault Refusal :=
  word i s fun act s =>
    match (lanesOf act).find? fun l => targetBad (s.opnd64 f.a l) 4 with
    | some l => .trap s (.of 4 (s.opnd64 f.a l) s.pc)
    | none => match (lanesOf act).find? fun l => targetBad (s.opnd64 f.a l) 5 with
      | some l => .trap s (.of 5 (s.opnd64 f.a l) s.pc)
      | none => .moved (s.transfer act (s.pc + 8) fun l => s.opnd64 f.a l)

def execJmp (f : F) (s : State) : Host.Outcome State Fault Refusal := jumpTo (.jmp f) f s
def execRet (f : F) (s : State) : Host.Outcome State Fault Refusal := jumpTo (.ret f) f s

/-- `call`: the return address, then the transfer. -/
def callTo (i : Instr) (d : Opnd) (off : W64) (s : State) : Host.Outcome State Fault Refusal :=
  word i s fun act s =>
    .moved ((s.oneValue act d 2 (s.pc + 8).toNat).transfer act (s.pc + 8) fun _ => wordsFrom s.pc off)

def execCall (f : F) (imm : BitVec 21) (s : State) : Host.Outcome State Fault Refusal :=
  callTo (.call f imm) f.d (imm.signExtend 64) s

/-- The target of a lane of `brx`. -/
def brxTarget (pc : W64) (n : Nat) (a : Int) : W64 :=
  if 0 ≤ a ∧ a < n then wordsFrom pc (BitVec.ofInt 64 (1 + a)) else wordsFrom pc (BitVec.ofNat 64 (1 + n))

def execBrx (f : F) (n : BitVec 12) (s : State) : Host.Outcome State Fault Refusal :=
  word (.brx f n) s fun act s =>
    .moved (s.transfer act (wordsFrom s.pc (BitVec.ofNat 64 (1 + n.toNat))) fun l => brxTarget s.pc n.toNat (intOf true 32 (s.opnd f.a 1 l)))

/-- Whether an `exit` ends the wave: no lane is left, or it stands in the handler of a cause whose `tret` ends it
(R18, R72, R214). -/
def Wave.exitEnds (w : Wave) (act : Mask) : Bool :=
  w.exited ||| act == BitVec.allOnes 32 || w.frames.any fun f => f.cause == 0x11 || f.cause == 0x08

def execExit (f : F) (s : State) : Host.Outcome State Fault Refusal :=
  word (.exit f) s fun act s =>
    if s.w.exitEnds act then
      if s.w.region.isSome then .close
      else if s.viewBusy then .stall s
      else
        let t := s.setW { s.w with exited := s.w.exited ||| act }
        let handler := s.w.frames.any fun f => f.cause == 0x11 || f.cause == 0x08 || f.cause == 0x0C
        .gone (if handler then t.killWave t.w.key else t.exitWave t.w.key)
    else
      let t := (s.setW { s.w with exited := s.w.exited ||| act }).transfer 0 (s.pc + 8) fun _ => 0
      .moved (if s.replaying s.b.ctx then t.gate.foldl (fun u q => u.postOnce (.gateAdmit q.id)) t else t)

def execNop (f : F) (s : State) : Host.Outcome State Fault Refusal :=
  word (.nop f) s fun _ s => .done s

/-! ### X forms -/

def execMovl (x : X) (s : State) : Host.Outcome State Fault Refusal :=
  simple (.movl x) s fun act => s.oneValue act x.d 1 x.imm.toNat
def execAddX (x : X) (s : State) : Host.Outcome State Fault Refusal :=
  simple (.addX x) s fun act => s.eachLane act x.d 1 fun l => (s.opnd32 x.d l + x.imm).toNat
def execBrX (x : X) (s : State) : Host.Outcome State Fault Refusal :=
  word (.brX x) s fun act s => .moved (s.transfer act (s.pc + 8) fun _ => wordsFrom s.pc (x.imm.signExtend 64))
def execCallX (x : X) (s : State) : Host.Outcome State Fault Refusal :=
  callTo (.callX x) x.d (x.imm.signExtend 64) s

/-! ### The pair word -/

/-- Conditions by their codes. -/
def icondOf (n : Nat) : ICond := ICond.codes.getD n .eq
def fcondOf (n : Nat) : FCond := FCond.codes.getD n .eq

/-- The I32 arithmetic of a slot. -/
def slotInt (op : SlotOp) (d a : Nat) : Nat :=
  let x := intOf true 32 d
  let y := intOf true 32 a
  match op with
  | .add => bitsOf 32 (x + y)
  | .sub => bitsOf 32 (x - y)
  | .mul => bitsOf 32 (x * y)
  | .and => Nat.land d a
  | .or => Nat.lor d a
  | .xor => Nat.xor d a
  | .shl => shlN 32 d (a % 32)
  | .shr => shrN 32 d (a % 32)
  | .sar => sarN 32 d (a % 32)
  | .min => if x ≤ y then d else a
  | .max => if x ≤ y then a else d
  | _ => a

/-- The float arithmetic of a slot: F32 with the RM of %fmode. -/
def slotFloat (fmode : W32) (op : FOp) (d a : Nat) : Nat × Fl :=
  farith fmode .f32 (modeOf fmode .dyn) op (flushIn fmode .f32 d) (flushIn fmode .f32 a) (.nan false) 0

/-- The result of a slot in a lane, from the state before the word (R181). `first` is the lowest active lane. -/
def State.slotAt (s : State) (t : Slot) (first l : Nat) : Nat × Fl :=
  let d := s.opnd t.d.full 1 l
  let a := s.opnd t.a.full 1 l
  let imm := t.imm.toNat
  match t.op with
  | .movi6 => ((t.imm.signExtend 32).toNat, 0)
  | .fadd => slotFloat s.w.sp.fmode .add d a
  | .fsub => slotFloat s.w.sp.fmode .sub d a
  | .fmul => slotFloat s.w.sp.fmode .mul d a
  | .fmin => (minBits .f32 d a, 0)
  | .fmax => (maxBitsOf .f32 d a, 0)
  | .icmp => (boolNat (icmpHolds (icondOf imm) (intOf true 32 a) 0), 0)
  | .fcmp =>
    let r := fcmpBits s.w.sp.fmode .f32 (fcondOf imm) a 0
    (boolNat r.1, r.2)
  | .bcast => (s.opnd t.a.full 1 (imm % 32), 0)
  | .rfal => (s.opnd t.a.full 1 first, 0)
  | .popc => (popcN 32 a, 0)
  | .lea => (leaBits .i32 false (imm % 8) d a, 0)
  | op => (slotInt op d a, 0)

/-- Write a slot's results: values come from `s`, the state before the word, and go into `acc`. -/
def State.slotWrite (s acc : State) (t : Slot) : State :=
  let act := s.run &&& s.w.guard t.g.full
  if act = 0 then acc
  else acc.perLane act t.d.full 1 (s.slotAt t (lowLane act))

def execPairWord (a b : Slot) (s : State) : Host.Outcome State Fault Refusal :=
  simple (.pairWord a b) s fun _ => s.slotWrite (s.slotWrite s a) b

end Machine
end Sys2Proof
end

