-- ==== Sys2Proof/Machine/Conv.lean ====
section
/-! DEFINITION. G4: conversion, packing and random bits (R208 to R211). -/

namespace Sys2Proof.Machine

/-- The rounding mode that the C position of `cvt` names (R208): 7 is the RM of %fmode. -/
def cvtMode (fmode : W32) : Opnd → Rnd
  | .ci n => if n = 7 then modeOf fmode .dyn else rmOfCode n.toNat
  | _ => modeOf fmode .dyn

def execCvt (f : F) (dfmt sfmt : Fmt) (s : State) : Host.Outcome State Fault Refusal :=
  simple (.cvt f dfmt sfmt) s fun act => s.perLane act f.d dfmt.regs fun l =>
    cvtBits s.w.sp.fmode (cvtMode s.w.sp.fmode f.c) dfmt sfmt (s.opnd f.a sfmt.regs l)
def execCvtsr (f : F) (dfmt sfmt : Fmt) (s : State) : Host.Outcome State Fault Refusal :=
  simple (.cvtsr f dfmt sfmt) s fun act => s.perLane act f.d dfmt.regs fun l =>
    cvtsrVal s.w.sp.fmode dfmt (s.opnd f.b 1 l) (flushIn s.w.sp.fmode sfmt (s.opnd f.a sfmt.regs l))
def execPk (f : F) (dfmt sfmt : Fmt) (s : State) : Host.Outcome State Fault Refusal :=
  simple (.pk f dfmt sfmt) s fun act => s.perLane act f.d 1 fun l =>
    pkBits s.w.sp.fmode dfmt sfmt (s.opnd f.d 1 l) (s.opnd f.a 1 l) (s.opnd f.c 1 l)
def execUpk (f : F) (dfmt sfmt : Fmt) (s : State) : Host.Outcome State Fault Refusal :=
  simple (.upk f dfmt sfmt) s fun act => s.perLane act f.d 1 fun l =>
    upkBits s.w.sp.fmode dfmt sfmt (s.opnd f.a 1 l) (s.opnd f.c 1 l)

/-- Advance the counter of a lane (R149). -/
def Wave.drawn (w : Wave) (l : Nat) : Wave :=
  { w with sp := { w.sp with rng := SMap.set w.sp.rng 0 l (SMap.get w.sp.rng 0 l + 1) } }

def execRand (f : F) (w32 : Bool) (s : State) : Host.Outcome State Fault Refusal :=
  simple (.rand f w32) s fun act =>
    (lanesOf act).foldl (fun t l =>
      let x := randBits s.b.gid s.w.idx l (s.opnd64 f.a l) (SMap.get s.w.sp.rng 0 l)
      let t := t.setOpnd f.d (if w32 then 1 else 2) l x.toNat
      t.setW (t.w.drawn l)) s

end Sys2Proof.Machine
end

