-- ==== Sys2Proof/Machine/Dispatch.lean ====
section
/-! DEFINITION. The one dispatch: one arm per constructor of Instr, each a direct call of its meaning. -/

namespace Sys2Proof.Machine

def exec (i : Instr) (s : State) : Host.Outcome State Fault Refusal :=
  match i with
  | .add f ty sat => Sys2Proof.Machine.execAdd f ty sat s
  | .sub f ty sat => Sys2Proof.Machine.execSub f ty sat s
  | .mul f ty sat => Sys2Proof.Machine.execMul f ty sat s
  | .mulhi f ty => Sys2Proof.Machine.execMulhi f ty s
  | .mad f ty sat => Sys2Proof.Machine.execMad f ty sat s
  | .min f ty => Sys2Proof.Machine.execMin f ty s
  | .max f ty => Sys2Proof.Machine.execMax f ty s
  | .abs f ty sat => Sys2Proof.Machine.execAbs f ty sat s
  | .neg f ty sat => Sys2Proof.Machine.execNeg f ty sat s
  | .div f ty sat => Sys2Proof.Machine.execDiv f ty sat s
  | .rem f ty => Sys2Proof.Machine.execRem f ty s
  | .lea f ty sx sh => Sys2Proof.Machine.execLea f ty sx sh s
  | .mov f ty => Sys2Proof.Machine.execMov f ty s
  | .movi f imm => Sys2Proof.Machine.execMovi f imm s
  | .popc f ty => Sys2Proof.Machine.execPopc f ty s
  | .clz f ty => Sys2Proof.Machine.execClz f ty s
  | .ctz f ty => Sys2Proof.Machine.execCtz f ty s
  | .brev f ty => Sys2Proof.Machine.execBrev f ty s
  | .bfe f sx pos len => Sys2Proof.Machine.execBfe f sx pos len s
  | .bfi f pos len => Sys2Proof.Machine.execBfi f pos len s
  | .bperm f => Sys2Proof.Machine.execBperm f s
  | .ldvr f k => Sys2Proof.Machine.execLdvr f k s
  | .stvr f k => Sys2Proof.Machine.execStvr f k s
  | .addc f ty => Sys2Proof.Machine.execAddc f ty s
  | .and f ty => Sys2Proof.Machine.execAnd f ty s
  | .or f ty => Sys2Proof.Machine.execOr f ty s
  | .xor f ty => Sys2Proof.Machine.execXor f ty s
  | .andn f ty => Sys2Proof.Machine.execAndn f ty s
  | .not f ty => Sys2Proof.Machine.execNot f ty s
  | .shl f ty => Sys2Proof.Machine.execShl f ty s
  | .shr f ty => Sys2Proof.Machine.execShr f ty s
  | .sar f ty => Sys2Proof.Machine.execSar f ty s
  | .rotl f ty => Sys2Proof.Machine.execRotl f ty s
  | .fsh f ty => Sys2Proof.Machine.execFsh f ty s
  | .icmp f ty cond => Sys2Proof.Machine.execIcmp f ty cond s
  | .fcmp f fmt cond => Sys2Proof.Machine.execFcmp f fmt cond s
  | .sel f ty => Sys2Proof.Machine.execSel f ty s
  | .plog f tt => Sys2Proof.Machine.execPlog f tt s
  | .ballot f => Sys2Proof.Machine.execBallot f s
  | .vote f mode => Sys2Proof.Machine.execVote f mode s
  | .rfal f ty => Sys2Proof.Machine.execRfal f ty s
  | .bcast f ty lane => Sys2Proof.Machine.execBcast f ty lane s
  | .shfl f ty mode => Sys2Proof.Machine.execShfl f ty mode s
  | .fadd f fmt rnd => Sys2Proof.Machine.execFadd f fmt rnd s
  | .fsub f fmt rnd => Sys2Proof.Machine.execFsub f fmt rnd s
  | .fmul f fmt rnd => Sys2Proof.Machine.execFmul f fmt rnd s
  | .ffma f fmt rnd => Sys2Proof.Machine.execFfma f fmt rnd s
  | .fmin f fmt => Sys2Proof.Machine.execFmin f fmt s
  | .fmax f fmt => Sys2Proof.Machine.execFmax f fmt s
  | .fdiv f fmt rnd => Sys2Proof.Machine.execFdiv f fmt rnd s
  | .fsqrt f fmt rnd => Sys2Proof.Machine.execFsqrt f fmt rnd s
  | .frcp f rnd => Sys2Proof.Machine.execFrcp f rnd s
  | .frsq f rnd => Sys2Proof.Machine.execFrsq f rnd s
  | .fexp2 f rnd => Sys2Proof.Machine.execFexp2 f rnd s
  | .flog2 f rnd => Sys2Proof.Machine.execFlog2 f rnd s
  | .fsin f rnd => Sys2Proof.Machine.execFsin f rnd s
  | .fcos f rnd => Sys2Proof.Machine.execFcos f rnd s
  | .fclass f fmt => Sys2Proof.Machine.execFclass f fmt s
  | .fscale f fmt rnd => Sys2Proof.Machine.execFscale f fmt rnd s
  | .cclr f => Sys2Proof.Machine.execCclr f s
  | .cadd f fmt => Sys2Proof.Machine.execCadd f fmt s
  | .cfma f fmt => Sys2Proof.Machine.execCfma f fmt s
  | .crd f fmt rnd clr => Sys2Proof.Machine.execCrd f fmt rnd clr s
  | .cvt f dfmt sfmt => Sys2Proof.Machine.execCvt f dfmt sfmt s
  | .cvtsr f dfmt sfmt => Sys2Proof.Machine.execCvtsr f dfmt sfmt s
  | .pk f dfmt sfmt => Sys2Proof.Machine.execPk f dfmt sfmt s
  | .upk f dfmt sfmt => Sys2Proof.Machine.execUpk f dfmt sfmt s
  | .rand f w32 => Sys2Proof.Machine.execRand f w32 s
  | .br f imm => Sys2Proof.Machine.execBr f imm s
  | .jmp f => Sys2Proof.Machine.execJmp f s
  | .call f imm => Sys2Proof.Machine.execCall f imm s
  | .ret f => Sys2Proof.Machine.execRet f s
  | .brx f n => Sys2Proof.Machine.execBrx f n s
  | .exit f => Sys2Proof.Machine.execExit f s
  | .nop f => Sys2Proof.Machine.execNop f s
  | .movl x => Sys2Proof.Machine.execMovl x s
  | .addX x => Sys2Proof.Machine.execAddX x s
  | .brX x => Sys2Proof.Machine.execBrX x s
  | .callX x => Sys2Proof.Machine.execCallX x s
  | .ldX x => Sys2Proof.Machine.execLdX x s
  | .stX x => Sys2Proof.Machine.execStX x s
  | .pairWord a b => Sys2Proof.Machine.execPairWord a b s
  | .ld f sz sp off => Sys2Proof.Machine.execLd f sz sp off s
  | .st f sz sp off => Sys2Proof.Machine.execSt f sz sp off s
  | .ldn f sz sp off => Sys2Proof.Machine.execLdn f sz sp off s
  | .stn f sz sp off => Sys2Proof.Machine.execStn f sz sp off s
  | .touch f wr off => Sys2Proof.Machine.execTouch f wr off s
  | .pf f lvl off => Sys2Proof.Machine.execPf f lvl off s
  | .gth f sz sp acq scope => Sys2Proof.Machine.execGth f sz sp acq scope s
  | .sct f sz sp rel scope => Sys2Proof.Machine.execSct f sz sp rel scope s
  | .cst f sz sp rel scope => Sys2Proof.Machine.execCst f sz sp rel scope s
  | .xld f sz sp acq scope => Sys2Proof.Machine.execXld f sz sp acq scope s
  | .cpy f acq rel scope => Sys2Proof.Machine.execCpy f acq rel scope s
  | .tagwait f any imm => Sys2Proof.Machine.execTagwait f any imm s
  | .tagffr f => Sys2Proof.Machine.execTagffr f s
  | .tagclr f imm => Sys2Proof.Machine.execTagclr f imm s
  | .atom f op dt sc => Sys2Proof.Machine.execAtom f op dt sc s
  | .red f op dt => Sys2Proof.Machine.execRed f op dt s
  | .aord f op dt dm acq rel scope => Sys2Proof.Machine.execAord f op dt dm acq rel scope s
  | .afree f op dt dm acq rel scope => Sys2Proof.Machine.execAfree f op dt dm acq rel scope s
  | .barv f dm scope => Sys2Proof.Machine.execBarv f dm scope s
  | .barvInit f dm scope => Sys2Proof.Machine.execBarvInit f dm scope s
  | .barw f dm scope => Sys2Proof.Machine.execBarw f dm scope s
  | .barwWait f dm scope => Sys2Proof.Machine.execBarwWait f dm scope s
  | .fpost f dm scope => Sys2Proof.Machine.execFpost f dm scope s
  | .fpostInit f dm scope => Sys2Proof.Machine.execFpostInit f dm scope s
  | .fwait f dm scope => Sys2Proof.Machine.execFwait f dm scope s
  | .olacq f dm scope => Sys2Proof.Machine.execOlacq f dm scope s
  | .olacqFree f dm scope => Sys2Proof.Machine.execOlacqFree f dm scope s
  | .olrel f dm scope => Sys2Proof.Machine.execOlrel f dm scope s
  | .olrelPass f dm scope => Sys2Proof.Machine.execOlrelPass f dm scope s
  | .olrelInit f dm scope free => Sys2Proof.Machine.execOlrelInit f dm scope free s
  | .olrelFree f dm scope => Sys2Proof.Machine.execOlrelFree f dm scope s
  | .wreg f dm hold sub => Sys2Proof.Machine.execWreg f dm hold sub s
  | .wunreg f dm hold sub => Sys2Proof.Machine.execWunreg f dm hold sub s
  | .yield f => Sys2Proof.Machine.execYield f s
  | .fence f scope => Sys2Proof.Machine.execFence f scope s
  | .sweep f scope => Sys2Proof.Machine.execSweep f scope s
  | .qpush f dm scope => Sys2Proof.Machine.execQpush f dm scope s
  | .qpushInit f dm scope => Sys2Proof.Machine.execQpushInit f dm scope s
  | .qpop f dm scope => Sys2Proof.Machine.execQpop f dm scope s
  | .fork f => Sys2Proof.Machine.execFork f s
  | .join f => Sys2Proof.Machine.execJoin f s
  | .vstat f sel => Sys2Proof.Machine.execVstat f sel s
  | .launch f => Sys2Proof.Machine.execLaunch f s
  | .cancel f => Sys2Proof.Machine.execCancel f s
  | .lcount f nowait => Sys2Proof.Machine.execLcount f nowait s
  | .migrate f => Sys2Proof.Machine.execMigrate f s
  | .mma f fmt acf shape scA scB => Sys2Proof.Machine.execMma f fmt acf shape scA scB s
  | .mz f => Sys2Proof.Machine.execMz f s
  | .mld f rows rsz sc => Sys2Proof.Machine.execMld f rows rsz sc s
  | .mst f rows rsz sc => Sys2Proof.Machine.execMst f rows rsz sc s
  | .mtov f part => Sys2Proof.Machine.execMtov f part s
  | .vtom f part => Sys2Proof.Machine.execVtom f part s
  | .msync f => Sys2Proof.Machine.execMsync f s
  | .mmas f fmt acf shape scA scB => Sys2Proof.Machine.execMmas f fmt acf shape scA scB s
  | .shcom f => Sys2Proof.Machine.execShcom f s
  | .shdis f => Sys2Proof.Machine.execShdis f s
  | .dsetPt f => Sys2Proof.Machine.execDsetPt f s
  | .dsetU f => Sys2Proof.Machine.execDsetU f s
  | .dld f sc => Sys2Proof.Machine.execDld f sc s
  | .dst f sc => Sys2Proof.Machine.execDst f sc s
  | .dadd f => Sys2Proof.Machine.execDadd f s
  | .dsub f => Sys2Proof.Machine.execDsub f s
  | .dmul f => Sys2Proof.Machine.execDmul f s
  | .ddiv f => Sys2Proof.Machine.execDdiv f s
  | .daff f => Sys2Proof.Machine.execDaff f s
  | .dmin f => Sys2Proof.Machine.execDmin f s
  | .dmax f => Sys2Proof.Machine.execDmax f s
  | .dmap f fn => Sys2Proof.Machine.execDmap f fn s
  | .dmom f sel => Sys2Proof.Machine.execDmom f sel s
  | .dqnt f lvl => Sys2Proof.Machine.execDqnt f lvl s
  | .dtagNew f => Sys2Proof.Machine.execDtagNew f s
  | .dtagSet f => Sys2Proof.Machine.execDtagSet f s
  | .dtagGet f => Sys2Proof.Machine.execDtagGet f s
  | .dmix f => Sys2Proof.Machine.execDmix f s
  | .dsamp f => Sys2Proof.Machine.execDsamp f s
  | .xroute f => Sys2Proof.Machine.execXroute f s
  | .xrel f => Sys2Proof.Machine.execXrel f s
  | .xcnt f => Sys2Proof.Machine.execXcnt f s
  | .xver f => Sys2Proof.Machine.execXver f s
  | .trap f imm => Sys2Proof.Machine.execTrap f imm s
  | .tret f => Sys2Proof.Machine.execTret f s
  | .rsr f => Sys2Proof.Machine.execRsr f s
  | .wsr f => Sys2Proof.Machine.execWsr f s
  | .ienter f => Sys2Proof.Machine.execIenter f s
  | .brk f imm => Sys2Proof.Machine.execBrk f imm s
  | .cachectl f op => Sys2Proof.Machine.execCachectl f op s
  | .parkedGroupRejoin blk wv => Sys2Proof.Machine.execParkedGroupRejoin blk wv s
  | .engineLand cmd => Sys2Proof.Machine.execEngineLand cmd s
  | .roundRequestArrive req => Sys2Proof.Machine.execRoundRequestArrive req s
  | .memoryReply n => Sys2Proof.Machine.execMemoryReply n s
  | .gateAdmit req => Sys2Proof.Machine.execGateAdmit req s
  | .replayLogIndex ctx => Sys2Proof.Machine.execReplayLogIndex ctx s
  | .sweepProbeReturn id => Sys2Proof.Machine.execSweepProbeReturn id s
  | .instanceEnd lvl id => Sys2Proof.Machine.execInstanceEnd lvl id s
  | .waveEndAfterLaunches blk wv => Sys2Proof.Machine.execWaveEndAfterLaunches blk wv s
  | .launchStart id => Sys2Proof.Machine.execLaunchStart id s
  | .stepBoundary id => Sys2Proof.Machine.execStepBoundary id s
  | .blockPlace die => Sys2Proof.Machine.execBlockPlace die s
  | .splitChange die core => Sys2Proof.Machine.execSplitChange die core s
  | .inheritanceSave die holder => Sys2Proof.Machine.execInheritanceSave die holder s
  | .packageCycleDetect => Sys2Proof.Machine.execPackageCycleDetect s
  | .priorityPropagate => Sys2Proof.Machine.execPriorityPropagate s
  | .stallWatchdogExpiry blk wv => Sys2Proof.Machine.execStallWatchdogExpiry blk wv s
  | .pipelinePressureInterval die => Sys2Proof.Machine.execPipelinePressureInterval die s
  | .tow blk core => Sys2Proof.Machine.execTow blk core s
  | .towForwardRemove blk => Sys2Proof.Machine.execTowForwardRemove blk s
  | .tokenBucketRefill => Sys2Proof.Machine.execTokenBucketRefill s
  | .pendingTrapTake blk wv => Sys2Proof.Machine.execPendingTrapTake blk wv s
  | .strikeReport die core => Sys2Proof.Machine.execStrikeReport die core s
  | .regionRelease blk wv => Sys2Proof.Machine.execRegionRelease blk wv s
  | .pinWindowExpiry blk wv => Sys2Proof.Machine.execPinWindowExpiry blk wv s
  | .forkReexecute id => Sys2Proof.Machine.execForkReexecute id s
  | .sectorPoison pa => Sys2Proof.Machine.execSectorPoison pa s
  | .errorRecordPlace socket r => Sys2Proof.Machine.execErrorRecordPlace socket r s
  | .linkFlitResend socket r => Sys2Proof.Machine.execLinkFlitResend socket r s
  | .faultRecordAppend die entry => Sys2Proof.Machine.execFaultRecordAppend die entry s
  | .frespSupply die entry => Sys2Proof.Machine.execFrespSupply die entry s
  | .frespNr die entry => Sys2Proof.Machine.execFrespNr die entry s
  | .inval len => Sys2Proof.Machine.execInval len s
  | .invalComplete => Sys2Proof.Machine.execInvalComplete s
  | .migcmd pa => Sys2Proof.Machine.execMigcmd pa s
  | .migrationDone => Sys2Proof.Machine.execMigrationDone s
  | .preempt ctx val => Sys2Proof.Machine.execPreempt ctx val s
  | .drainLimitExpiry blk => Sys2Proof.Machine.execDrainLimitExpiry blk s
  | .blockSave blk => Sys2Proof.Machine.execBlockSave blk s
  | .blockRestore blk => Sys2Proof.Machine.execBlockRestore blk s
  | .kill ctx => Sys2Proof.Machine.execKill ctx s
  | .debugStateAccess blk off wr => Sys2Proof.Machine.execDebugStateAccess blk off wr s
  | .debugResume blk => Sys2Proof.Machine.execDebugResume blk s
  | .rcfgWrite ctx val => Sys2Proof.Machine.execRcfgWrite ctx val s
  | .prodWrite ctx val => Sys2Proof.Machine.execProdWrite ctx val s
  | .packetIntake ctx => Sys2Proof.Machine.execPacketIntake ctx s
  | .hcancel1 ctx val => Sys2Proof.Machine.execHcancel1 ctx val s
  | .functionLevelResetVf ctx => Sys2Proof.Machine.execFunctionLevelResetVf ctx s
  | .functionLevelResetPf => Sys2Proof.Machine.execFunctionLevelResetPf s
  | .coldStart => Sys2Proof.Machine.execColdStart s
  | .recoveryLoad => Sys2Proof.Machine.execRecoveryLoad s
  | .configRequest req => Sys2Proof.Machine.execConfigRequest req s
  | .unsupportedRequest req => Sys2Proof.Machine.execUnsupportedRequest req s
  | .hostApertureAccess fn off wr => Sys2Proof.Machine.execHostApertureAccess fn off wr s
  | .spdmGetMeasurements index nonce => Sys2Proof.Machine.execSpdmGetMeasurements index nonce s
  | .spdmGetCertificate => Sys2Proof.Machine.execSpdmGetCertificate s
  | .spdmChallenge nonce => Sys2Proof.Machine.execSpdmChallenge nonce s
  | .spdmKeyExchange exch => Sys2Proof.Machine.execSpdmKeyExchange exch s
  | .mbRaiseMinSvn => Sys2Proof.Machine.execMbRaiseMinSvn s
  | .mbReportMinSvn => Sys2Proof.Machine.execMbReportMinSvn s
  | .mbReservedCommand cmd => Sys2Proof.Machine.execMbReservedCommand cmd s
  | .mtload pa => Sys2Proof.Machine.execMtload pa s
  | .samplingInterval => Sys2Proof.Machine.execSamplingInterval s
  | .versionSwitchCopyDone => Sys2Proof.Machine.execVersionSwitchCopyDone s
  | .slotWritten die => Sys2Proof.Machine.execSlotWritten die s
  | .graceExpiry id => Sys2Proof.Machine.execGraceExpiry id s
  | .switchAbandon die => Sys2Proof.Machine.execSwitchAbandon die s
  | .decodeWindowWrite n word val => Sys2Proof.Machine.execDecodeWindowWrite n word val s
  | .reductionPartialCombine n m => Sys2Proof.Machine.execReductionPartialCombine n m s
  | .checkpointSave report => Sys2Proof.Machine.execCheckpointSave report s
  | .checkpointSaveDone => Sys2Proof.Machine.execCheckpointSaveDone s
  | .checkpointRestore report => Sys2Proof.Machine.execCheckpointRestore report s
  | .errorBankClear socket bank => Sys2Proof.Machine.execErrorBankClear socket bank s
  | .errsumRead socket => Sys2Proof.Machine.execErrsumRead socket s
  | .xpstatRead => Sys2Proof.Machine.execXpstatRead s
  | .registerWrite fn off val => Sys2Proof.Machine.execRegisterWrite fn off val s
  | .engineSourceRead cmd => Sys2Proof.Machine.execEngineSourceRead cmd s
  | .powerOff => Sys2Proof.Machine.execPowerOff s
  | .killCompletion ctx => Sys2Proof.Machine.execKillCompletion ctx s
  | .checkpointRestoreDone => Sys2Proof.Machine.execCheckpointRestoreDone s
  | .reserveStreamAccept src strm data => Sys2Proof.Machine.execReserveStreamAccept src strm data s
  | .spdmVersionNegotiation versions => Sys2Proof.Machine.execSpdmVersionNegotiation versions s
  | .ideKmKeyProgramming strm key => Sys2Proof.Machine.execIdeKmKeyProgramming strm key s

end Sys2Proof.Machine
end

