-- ==== Sys2Proof/Machine/Turn.lean ====
section
/-! DEFINITION. What a step does for the agent that moves: the turn of the wave that is checked out (R20, R24, R371, R380), the
schedulers' choice of the next wave (R28, R236), the model's counters, and the wave and page tables under an instruction that is placed for
the next step (log entries 6, 7, 10). -/

namespace Sys2Proof.Machine

/-- Whether a wave can take a turn. -/
def Wave.runnable (w : Wave) : Bool :=
  w.st == .running && !w.halted && w.fwait.isNone &&
  (w.pend != [] || w.table != 0 || match w.groups with
    | g :: _ => g.waits.all fun r => r.done
    | [] => false)

/-- The turn of the wave that is checked out: a pending trap is taken; a blocked wave's oldest group rejoins; else the
head run issues its word; a burst whose run is held is over (R22). -/
def State.turn (s : State) : Host.Outcome State Fault Refusal :=
  if s.w.st ≠ .running || s.w.halted || s.w.fwait.isSome then .next s
  else if s.w.pend ≠ [] then exec (.pendingTrapTake s.w.blk s.w.idx) s
  else match s.headRun with
  | none => match s.w.groups with
    | [] => .next s
    | _ => exec (.parkedGroupRejoin s.w.blk s.w.idx) s
  | some (pc, promoted) =>
    let s := { s with run := s.w.runAt pc, w := if promoted then { s.w with promo := pc, burst := 8 } else s.dropBurst.w }
    let low := BitVec.ofNat 64 (lowLane s.run)
    match s.fetch pc with
    | .stall => .next s
    | .miss => .next (s.joinFault pc 2 (.of 0x12 low pc))
    | .bad c => .next (s.trapRun s.run (.of c low pc))
    | .poison pa => .next (s.poisonBlock s.w.blk pa)
    | .word x => match decode x with
      | none => .next (s.trapWord s.run (.of 1 x pc))
      | some i => exec i s

/-! ### The schedulers (R28) -/

/-- A wave that can take a turn: its scheduler, its slot, its key, whether it has yielded. -/
structure Turn where
  sched : Nat
  slot : Nat
  key : Nat
  yielded : Bool
  deriving DecidableEq, Repr

/-- The slot of a wave: die, core and slot, its landing slot when it has migrated (R244). -/
def State.slotOf (s : State) (k : Nat) : Nat × Nat × Nat :=
  match (s.wave k).place with
  | some p => p
  | none => let b := s.block (k / 32); (b.die, b.core, b.slots.getD (k % 32) 0)

/-- The waves that can take a turn. Scheduler k of a core serves the slots congruent to k modulo 4. -/
def State.turns (s : State) : List Turn :=
  (s.waves.filter fun e => e.2.runnable).map fun e =>
    let p := s.slotOf e.1
    ⟨4 * (36 * p.1 + p.2.1) + p.2.2 % 4, p.2.2, e.1, e.2.yielded⟩

/-- The scheduler whose turn it is: the lowest from `at_` on with a wave to serve, else the lowest. -/
def schedNext (at_ : Nat) (ts : List Turn) : Option Nat :=
  let low (l : List Turn) : Option Nat := l.foldl (fun m t => some (match m with | some q => min q t.sched | none => t.sched)) none
  (low (ts.filter fun t => decide (at_ ≤ t.sched))).orElse fun _ => low ts

/-- Insert in slot order. -/
def insertTurn (t : Turn) : List Turn → List Turn
  | [] => [t]
  | u :: us => if t.slot < u.slot then t :: u :: us else u :: insertTurn t us

/-- The waves of a scheduler in round-robin order of slot number after the slot it served last (`last` is that slot + 1). -/
def slotOrder (last : Nat) (ts : List Turn) : List Turn :=
  let us := ts.foldl (fun l t => insertTurn t l) []
  (us.filter fun t => decide (last ≤ t.slot)) ++ us.filter fun t => decide (t.slot < last)

/-- Serve the next wave: a wave that has yielded is passed over, once (R28, R236). -/
def State.serve (s : State) (q : Nat) (order : List Turn) : State :=
  let passed := order.takeWhile fun t => t.yielded
  let t := passed.foldl (fun s t => s.updWave t.key fun w => { w with yielded := false }) s
  match (order.dropWhile fun t => t.yielded) ++ order with
  | [] => t
  | u :: _ => { t.load u.key with rr := SMap.insert t.rr q (u.slot + 1), rrAt := q + 1 }

/-- Pass the turn on: the core's schedulers take turns, each in its own round robin. -/
def State.rotate (s : State) : State :=
  match s.waves with
  | [] => s
  | _ =>
    let t := s.stow
    let ts := t.turns
    match schedNext s.rrAt ts with
    | none => s
    | some q => t.serve q (slotOrder (SMap.get s.rr 0 q) (ts.filter fun u => u.sched == q))

/-- The end of a turn: the model's counters advance (log entry 7) and the turn passes on. -/
def State.tick (s : State) : State :=
  let s := s.rotate
  { s with free := s.free + 1, cycle := s.cycle + 1 }

/-- The end of an event: the wave whose turn it is keeps it while it can take it. -/
def State.tickEvent (s : State) : State :=
  let s := if s.w.runnable then s else s.rotate
  { s with free := s.free + 1, cycle := s.cycle + 1 }

/-- Finish an outcome. -/
def finish : Host.Outcome State Fault Refusal → Host.Outcome State Fault Refusal
  | .next s => .next s.tick
  | .fault f => .fault f
  | .refused r => .refused r

/-- Finish the outcome of an event. -/
def finishEvent : Host.Outcome State Fault Refusal → Host.Outcome State Fault Refusal
  | .next s => .next s.tickEvent
  | .fault f => .fault f
  | .refused r => .refused r

/-- Pending events never keep a wave from its turn for good: every eighth step is the wave's. -/
def State.fairTurn (s : State) : Bool := s.cycle % 8 == 7 && s.w.runnable

/-! ### An instruction placed for the next step (log entry 10) -/

/-- A wave alone in its block, at PC 0 of context 1 with the largest allocation. -/
def bootWave : Wave := { Wave.absent with blk := 1, idx := 0, st := .running }
def bootBlock : Block :=
  { Block.absent with handle := 1, ctx := 1, grp := 1, nblk := 1, al := ⟨1, 256, 16, 16, 4, 65536, 64⟩, slots := [0],
                      st := .resident, tagready := BitVec.allOnes 64, bar := { Bar.zero with npart := 1 } }

/-- Page tables at PA 0x1000 upwards that map one executable view page at VA 0 to PA 0x10000, with the word there. -/
def placeWord (m : Memory) (w : Nat) : Memory :=
  let leaf : Nat := 0x10000 + 64 + 2 + 1
  let m := Memory.setNum m 0x1000 8 (0x2000 + 1)
  let m := Memory.setNum m 0x2000 8 (0x3000 + 1)
  let m := Memory.setNum m 0x3000 8 (0x4000 + 1)
  let m := Memory.setNum m 0x4000 8 (0x5000 + 1)
  let m := Memory.setNum m 0x5000 8 leaf
  Memory.setNum m 0x10000 8 w

end Sys2Proof.Machine
end

