-- ==== Sys2Proof/Machine/Step.lean ====
section
/-! DEFINITION. One step of the machine (log entry 6): State.sched says which agent moves; with nothing said, the first
pending event moves (every eighth step a runnable wave instead), and with no event the wave that is checked out issues its
head run's word, after which the schedulers' next wave is checked out (R28). -/

namespace Sys2Proof.Machine

/-- One step. -/
def step (s : State) : Host.Outcome State Fault Refusal :=
  match s.sched with
  | [] => match s.inbox with
    | e :: es => if s.fairTurn then finish s.turn else finishEvent (exec e { s with inbox := es })
    | [] => finish s.turn
  | n :: ns =>
    let s := { s with sched := ns }
    match s.inbox[n]? with
    | some e => finishEvent (exec e { s with inbox := s.inbox.eraseIdx n })
    | none => match s.waveKeys[n - s.inbox.length]? with
      | some k => finish (s.load k).turn
      | none => finishEvent (.next s)

/-- The state with an instruction's bits where the next step fetches. -/
def State.withFetchWord (s : State) (nbits w : Nat) : State :=
  let s := s.setPf (Pf.ctx 1 0) 0x1000
  { s with w := bootWave, b := bootBlock, run := 0, mem := placeWord s.mem (w % 2 ^ nbits), sched := [], inbox := [],
           handles := 2, migration := none }

end Sys2Proof.Machine
end

