-- ==== Sys2Proof/Safety.lean ====
section
/-! DEFINITION. The vocabulary of claims: when a word is issued with its own effect, what it may write and what stays as it
was, and what a safe step is. Every definition says what a claim means; no meaning of an instruction calls one. -/

namespace Sys2Proof
namespace Machine

/-- The step from a state answers a next state that keeps the canonical form of memories. -/
def State.safeStep (s : State) : Prop := ∃ t, step s = .next t ∧ t.memWf

/-! ### Issuing a word -/

/-- A word that is issued with its own effect: a wave runs with a run to issue, no region stands open that the word
closes, its registers are within the allocation (R30, R185 step 2), the scoreboard holds none of them back (R322), and a memory
word finds room among those in flight (R324). -/
structure State.Issues (s : State) (i : Instr) : Prop where
  running : s.w.st = .running
  run : s.run ≠ 0
  region : i.closes = true → s.w.region = none
  bounds : s.boundsFail i = none
  ready : s.waitsFor i = false
  room : i.isMem = true → s.wordsInFlight < Config.memWords

/-- The state after an issue event of a word that changes nothing else: PCs, ages, burst, pin window and holds. -/
def State.advanced (s : State) (i : Instr) : State := s.retire s i (s.active i) true

/-! ### Registers of a word -/

/-- One register that words write through D. -/
inductive Reg where
  | s (n : Nat)
  | v (n l : Nat)
  | p (n l : Nat)
  | i (n l : Nat)
  deriving DecidableEq, Repr

/-- Registers that exist: lanes below 32. -/
def Reg.ok : Reg → Prop
  | .s _ => True
  | .v _ l | .p _ l | .i _ l => l < 32

/-- Bits of a register. -/
def Reg.bits : Reg → Nat
  | .s _ | .v _ _ => 32
  | .p _ _ => 1
  | .i _ _ => 8

/-- What a register holds. -/
def Wave.reg (w : Wave) : Reg → Nat
  | .s n => (w.sreg n).toNat
  | .v n l => (w.vreg n l).toNat
  | .p n l => bnum (w.pred n l)
  | .i n l => (w.ireg n l).toNat

end Machine
open Machine

/-- The register of an operand of `n` registers for a lane that a register is: the lane and which 32-bit part. A
scalar register is written once, by the lowest active lane's result; nothing is written through p0 or `zero` (R173). -/
def Opnd.part (o : Opnd) (w : Wave) (act : Mask) (n : Nat) (q : Reg) : Option (Nat × Nat) :=
  match o, q with
  | .v r, .v m l => if act.getLsbD l ∧ r.toNat ≤ m ∧ m < r.toNat + n then some (l, m - r.toNat) else none
  | .win k, .v m l =>
    let r := w.sp.wbase.toNat + k.toNat
    if act.getLsbD l ∧ r ≤ m ∧ m < r + n then some (l, m - r) else none
  | .s r, .s m => if r.toNat ≤ m ∧ m < r.toNat + n then some (lowLane act, m - r.toNat) else none
  | .p r, .p m l => if act.getLsbD l ∧ m = r.toNat ∧ m ≠ 0 then some (l, 0) else none
  | .i r, .i m l => if act.getLsbD l ∧ m = r.toNat then some (l, 0) else none
  | _, _ => none

/-- The lanes that give a destination its results: one for a scalar register (R173). -/
def Opnd.lanes (o : Opnd) (act : Mask) : List Nat :=
  match o with
  | .s _ => [lowLane act]
  | _ => lanesOf act

namespace Machine

/-- A state with the registers and flags of another wave, all else kept. -/
def State.withRegs (u : State) (w : Wave) : State :=
  { u with w := { u.w with r := { u.w.r with s := w.r.s, v := w.r.v, p := w.r.p, i := w.r.i },
                           sp := { u.w.sp with fflags := w.sp.fflags } } }

/-- The flags that a list of lanes gives. -/
def laneFlags (ls : List Nat) (val : Nat → Nat × Fl) : Fl := ls.foldl (fun f l => f ||| (val l).2) 0

/-- `t` is what a word leaves that writes `val` to D: the value in every register of D and the flags of the active lanes;
every other register, special register, latch entry, tile, crucible and distribution register, the block, and everything
outside the wave is as the issue event alone leaves it. -/
structure State.Wrote (s t : State) (i : Instr) (o : Opnd) (n : Nat) (val : Nat → Nat × Fl) : Prop where
  value : ∀ q l k, q.ok → o.part s.w (s.active i) n q = some (l, k) → t.w.reg q = (val l).1 / 2 ^ (32 * k) % 2 ^ q.bits
  other : ∀ q, q.ok → o.part s.w (s.active i) n q = none → t.w.reg q = s.w.reg q
  flags : t.w.sp.fflags = s.w.sp.fflags ||| (laneFlags (o.lanes (s.active i)) val).setWidth 32
  rest : t = (s.advanced i).withRegs t.w

/-- When a word is issued and a lane is active, it completes with these results in D. -/
def State.Computes (s : State) (i : Instr) (o : Opnd) (n : Nat) (val : Nat → Nat × Fl) : Prop :=
  s.Issues i → s.active i ≠ 0 → ∃ t, exec i s = .next t ∧ s.Wrote t i o n val

/-- Results without flags. -/
def State.Gives (s : State) (i : Instr) (o : Opnd) (n : Nat) (val : Nat → Nat) : Prop :=
  s.Computes i o n fun l => (val l, 0)

/-! ### Operand values -/

/-- The bits of an operand of a type in a lane. -/
def State.bv (s : State) (ty : Ty) (o : Opnd) (l : Nat) : BitVec ty.bits := BitVec.ofNat ty.bits (s.opnd o ty.regs l)

/-- The integer of an operand of a type in a lane: signed or unsigned (R187). -/
def State.ival (s : State) (ty : Ty) (o : Opnd) (l : Nat) : Int :=
  if ty.signed then (s.bv ty o l).toInt else ((s.bv ty o l).toNat : Int)

end Machine
/-- The least and the greatest integer of a type (R187). -/
def Ty.lo (ty : Ty) : Int := if ty.signed then -2 ^ (ty.bits - 1) else 0
def Ty.hi (ty : Ty) : Int := if ty.signed then 2 ^ (ty.bits - 1) - 1 else 2 ^ ty.bits - 1

/-- An exact integer clamped to a type's range, with SAT when it lay outside (R187). -/
def Ty.clamped (ty : Ty) (x : Int) : Nat × Fl :=
  let y := max ty.lo (min ty.hi x)
  ((BitVec.ofInt ty.bits y).toNat, if y = x then 0 else Fl.sat)

/-- The bits of an exact integer modulo 2^w, without a flag (R187). -/
def Ty.wrapped (ty : Ty) (x : Int) : Nat := (BitVec.ofInt ty.bits x).toNat

/-! ### Exact values and their rounding (R134, R205) -/

namespace Machine

/-- The rational number of a finite value; 0 for the others. -/
def Val.rat : Val → ℚ
  | .fin n k e => (if n then -(k : ℚ) else k) * 2 ^ e
  | _ => 0

/-- A magnitude x rounded to a multiple of u in a mode of Table 35, for a number whose sign is negative when `neg`. -/
def RoundedTo (rm : Rnd) (neg : Bool) (u x y : ℚ) : Prop :=
  ∃ j : Nat, (j : ℚ) * u ≤ x ∧ x < ((j : ℚ) + 1) * u ∧
    let rest := x - j * u
    let up : Prop := match rm with
      | .rn | .dyn => u / 2 < rest ∨ rest = u / 2 ∧ j % 2 = 1
      | .rz => False
      | .ru => neg = false ∧ rest ≠ 0
      | .rd => neg = true ∧ rest ≠ 0
      | .ra => u / 2 ≤ rest
    (up → y = ((j : ℚ) + 1) * u) ∧ (¬ up → y = (j : ℚ) * u)

/-- Round of R134 for a magnitude x in [2^t, 2^(t+1)) with a sign: the result and its flags before FlushR. y is x at the spacing of
the result, z is x at the format's precision with an unbounded exponent, which decides tininess. That a narrow format overflows
where x itself lies beyond its largest value is the model's reading (log entry 80). -/
def RoundSpec (m : Fmt) (rm : Rnd) (neg : Bool) (t : Int) (x : ℚ) (r : Rd) : Prop :=
  let f := fpOf m
  let top := (decodeF m (maxBits m false)).rat
  ∃ y z : ℚ, RoundedTo rm neg (2 ^ max f.qmin (t - (f.prec - 1))) x y ∧ RoundedTo rm neg (2 ^ (t - (f.prec - 1))) x z ∧
    let beyond : Prop := if f.narrow then top < x else top < y
    (beyond → f.narrow = true → r.bits = maxBits m neg ∧ r.fl = Fl.sat ||| Fl.nx) ∧
    (beyond → f.narrow = false → r.fl = Fl.ovf ||| Fl.nx ∧
      r.bits = match rm with
        | .rn | .dyn | .ra => infBits m neg
        | .rz => maxBits m neg
        | .ru => if neg then maxBits m true else infBits m false
        | .rd => if neg then infBits m true else maxBits m false) ∧
    (¬ beyond → (decodeF m r.bits).rat = (if neg then -y else y) ∧ (y = 0 → r.bits = zeroBits m neg) ∧
      (r.tiny = true ↔ z < 2 ^ f.emin) ∧
      r.fl = if y = x then 0 else if z < 2 ^ f.emin then Fl.nx ||| Fl.uf else Fl.nx)

/-- `r` is an exact value rounded once and flushed: a zero takes the sign `zneg`; else the magnitude is cut at 2^e, with what
lies below kept as a sticky bit under more than precision + 2 bits. -/
def Rounds (fmode : W32) (m : Fmt) (rm : Rnd) (v : ℚ) (zneg : Bool) (r : Nat × Fl) : Prop :=
  (v = 0 → r = (zeroBits m zneg, 0)) ∧
  (v ≠ 0 → ∃ (k : Nat) (e : Int) (st : Bool), k ≠ 0 ∧ (k : ℚ) * 2 ^ e ≤ |v| ∧ |v| < ((k : ℚ) + 1) * 2 ^ e ∧
    (st = true ↔ (k : ℚ) * 2 ^ e ≠ |v|) ∧ (st = true → 2 ^ ((fpOf m).prec + 2) ≤ k) ∧
    r = flushR fmode m (decide (v < 0)) (roundF m rm (decide (v < 0)) k e st))

/-- The number of an integer or one-bit element code (R126). -/
def elemInt (m : Fmt) (code : Nat) : Int :=
  match m with
  | .b1 => if code % 2 = 0 then 1 else -1
  | .n1 => ((code % 2 : Nat) : Int)
  | m => if m.signedInt then (BitVec.ofNat m.bits code).toInt else ((code % 2 ^ m.bits : Nat) : Int)

/-- A conversion of one element to a format of numbers 0 to 22 (Table 39). -/
def ConvertSpec (fmode : W32) (rm : Rnd) (dst : Fmt) (v : EV) (r : Nat × Fl) : Prop :=
  let minus : Nat := 2 ^ 32 - 1
  let int (x : Int) : Nat := placeInt dst (max (loFmt dst) (min (hiFmt dst) x))
  let fits (x : Int) : Prop := loFmt dst ≤ x ∧ x ≤ hiFmt dst
  match v with
  | .f (.nan q) => r = if dst.num ≤ 10 then (nanBits dst, if q then Fl.nv else 0) else (0, Fl.nv)
  | .f (.inf n) => r =
    if dst.num ≤ 10 then (if (fpOf dst).narrow then (maxBits dst n, Fl.sat) else (infBits dst n, 0))
    else if dst = .b1 then (if n then minus else 0, 0)
    else (placeInt dst (if n then loFmt dst else hiFmt dst), Fl.sat)
  | .f (.fin n k e) =>
    let x := (Val.fin n k e).rat
    (dst.num ≤ 10 → Rounds fmode dst rm x n r) ∧
    (dst = .b1 → r = (if x < 0 then minus else 0, 0)) ∧
    (11 ≤ dst.num → dst ≠ .b1 → ∃ (y : ℚ) (j : Int), RoundedTo rm n 1 |x| y ∧ (j : ℚ) = (if n then -y else y) ∧ r.1 = int j ∧
      (fits j → r.2 = if y = |x| then 0 else Fl.nx) ∧ (¬ fits j → r.2 = Fl.sat))
  | .i j =>
    (dst.num ≤ 10 → Rounds fmode dst rm j false r) ∧
    (dst = .b1 → r = (if j < 0 then minus else 0, 0)) ∧
    (11 ≤ dst.num → dst ≠ .b1 → r.1 = int j ∧ (fits j → r.2 = 0) ∧ (¬ fits j → r.2 = Fl.sat))

/-- Whether a format holds a number. -/
def Holds (m : Fmt) (x : ℚ) : Prop := ∃ c < 2 ^ m.bits, ∃ n k e, decodeF m c = .fin n k e ∧ (Val.fin n k e).rat = x

/-- The stochastic conversion of R148 with random bits `bits` to a format of numbers 0 to 22; a float zero has the sign of the value
(log entry 113). -/
def StochasticSpec (fmode : W32) (dst : Fmt) (bits : Nat) (v : Val) (r : Nat × Fl) : Prop :=
  let minus : Nat := 2 ^ 32 - 1
  match v with
  | .fin n k e =>
    let x := (Val.fin n k e).rat
    let top := (decodeF dst (maxBits dst false)).rat
    (dst.num ≤ 10 →
      (x = 0 → r = (zeroBits dst n, 0)) ∧
      (x ≠ 0 → Holds dst x → ConvertSpec fmode .rn dst (.f v) r) ∧
      (top < |x| → r = if (fpOf dst).narrow then (maxBits dst n, Fl.sat ||| Fl.nx) else (infBits dst n, Fl.ovf ||| Fl.nx)) ∧
      (|x| ≤ top → ¬ Holds dst x → ∃ lo hi : ℚ, Holds dst lo ∧ Holds dst hi ∧ lo < x ∧ x < hi ∧ (∀ y, Holds dst y → y ≤ lo ∨ hi ≤ y) ∧
        let y := if (bits : Int) < ⌊(x - lo) / (hi - lo) * 2 ^ 32⌋ then hi else lo
        let small : Prop := |y| < 2 ^ (fpOf dst).emin
        let flush : Prop := small ∧ y ≠ 0 ∧ fmode.getLsbD (8 + flushClass dst) = true
        (flush → r = (zeroBits dst n, Fl.nx ||| Fl.uf)) ∧
        (¬ flush → (decodeF dst r.1).rat = y ∧ (y = 0 → r.1 = zeroBits dst n) ∧ (small → r.2 = Fl.nx ||| Fl.uf) ∧ (¬ small → r.2 = Fl.nx)))) ∧
    (dst = .b1 →
      (x < -1 → r = (minus, Fl.sat)) ∧ (1 < x → r = (0, Fl.sat)) ∧ (x = 1 → r = (0, 0)) ∧ (x = -1 → r = (minus, 0)) ∧
      (-1 < x → x < 1 → r = (if (bits : Int) < ⌊(x + 1) / 2 * 2 ^ 32⌋ then 0 else minus, Fl.nx))) ∧
    (11 ≤ dst.num → dst.num ≤ 22 → dst ≠ .b1 →
      (x < loFmt dst → r = (placeInt dst (loFmt dst), Fl.sat)) ∧ (hiFmt dst < x → r = (placeInt dst (hiFmt dst), Fl.sat)) ∧
      (loFmt dst ≤ x → x ≤ hiFmt dst →
        (x = ⌊x⌋ → r = (placeInt dst ⌊x⌋, 0)) ∧
        (x ≠ ⌊x⌋ → r = (placeInt dst (if (bits : Int) < ⌊(x - ⌊x⌋) * 2 ^ 32⌋ then ⌊x⌋ + 1 else ⌊x⌋), Fl.nx))))
  | v => ConvertSpec fmode .rn dst (.f v) r

/-- What `crd` reads from a crucible (R144). -/
def CrucibleReads (fmode : W32) (m : Fmt) (rm : Rnd) (z : Cruc) (r : Nat × Fl) : Prop :=
  let both := z.pinf ∧ z.ninf
  (z.nan ∨ z.ovf ∨ both → r = (nanBits m, if z.ovf ∨ both then Fl.nv else 0)) ∧
  (z.nan = false → z.ovf = false →
    (z.pinf = true → z.ninf = false → r = (infBits m false, 0)) ∧
    (z.pinf = false → z.ninf = true → r = (infBits m true, 0)) ∧
    (z.pinf = false → z.ninf = false → Rounds fmode m rm (z.acc.toInt * 2 ^ (-2148 : Int)) (z.seen && z.neg0) r))

/-- `z'` is the crucible `z` with one term added (R144). -/
def AddsTerm (z z' : Cruc) (t : Val) : Prop :=
  z'.seen = true ∧ (z'.neg0 = true ↔ (∃ e, t = .fin true 0 e) ∧ (z.seen = false ∨ z.neg0 = true)) ∧
  z'.nan = (z.nan || t.isNan) ∧ z'.pinf = (z.pinf || t == .inf false) ∧ z'.ninf = (z.ninf || t == .inf true) ∧
  ((∀ n k e, t ≠ .fin n k e) → z'.acc = z.acc ∧ z'.ovf = z.ovf) ∧
  ∀ n k e, t = .fin n k e → -2148 ≤ e →
    let y := z.acc.toInt + (if n then -(k : Int) else k) * 2 ^ (e + 2148).toNat
    (-2 ^ 4343 ≤ y ∧ y < 2 ^ 4343 → z'.acc.toInt = y ∧ z'.ovf = z.ovf) ∧
    (¬ (-2 ^ 4343 ≤ y ∧ y < 2 ^ 4343) → z'.acc = z.acc ∧ z'.ovf = true)

/-- TotalOrder of R140 on two codes of a float format: IEEE totalOrder by sign and magnitude, and numeric order with the NaN code
last in a narrow format. -/
def TotalOrder (m : Fmt) (a b : Nat) : Prop :=
  let f := fpOf m
  let neg (x : Nat) : Prop := f.signBit ≤ f.code x
  let mag (x : Nat) : Nat := f.code x % f.signBit
  if f.narrow then f.code b = f.nanCode ∨ f.code a ≠ f.nanCode ∧ (decodeF m a).rat ≤ (decodeF m b).rat
  else neg a ∧ ¬ neg b ∨ neg a ∧ neg b ∧ mag b ≤ mag a ∨ ¬ neg a ∧ ¬ neg b ∧ mag a ≤ mag b

/-- A comparison of Table 55 on two codes of a float format: whether it holds, and NV where the predicate's kind says so. -/
def CompareSpec (fmode : W32) (m : Fmt) (c : FCond) (a b : Nat) (r : Bool × Fl) : Prop :=
  let x := flushIn fmode m a
  let y := flushIn fmode m b
  let un := x.isNan || y.isNan
  let le := totalLe m a b
  let ge := totalLe m b a
  r.2 = (match c with
    | .lt | .le | .gt | .ge => if un then Fl.nv else 0
    | .tlt | .tle | .teq => 0
    | _ => if x.isSig || y.isSig then Fl.nv else 0) ∧
  (r.1 = true ↔ match c with
    | .eq => un = false ∧ cmpVal x y = 0
    | .ne => un = true ∨ cmpVal x y ≠ 0
    | .lt | .ltq => un = false ∧ cmpVal x y < 0
    | .le | .leq => un = false ∧ cmpVal x y ≤ 0
    | .gt | .gtq => un = false ∧ 0 < cmpVal x y
    | .ge | .geq => un = false ∧ 0 ≤ cmpVal x y
    | .un => un = true
    | .or => un = false
    | .tlt => le = true ∧ ge = false
    | .tle => le = true
    | .teq => le = true ∧ ge = true)

/-- The NaN rule of FArith for two operands. -/
def NanRule (m : Fmt) (x y : Val) (r : Nat × Fl) : Prop :=
  x.isNan ∨ y.isNan → r = (nanBits m, if x.isSig ∨ y.isSig then Fl.nv else 0)

/-- A sum by FArith. -/
def SumSpec (fmode : W32) (m : Fmt) (rm : Rnd) (x y : Val) (r : Nat × Fl) : Prop :=
  NanRule m x y r ∧
  match x, y with
  | .inf a, .inf b => r = if a = b then (infBits m a, 0) else (nanBits m, Fl.nv)
  | .inf a, .fin _ _ _ => r = (infBits m a, 0)
  | .fin _ _ _, .inf b => r = (infBits m b, 0)
  | .fin a j e, .fin b k g =>
    Rounds fmode m rm ((Val.fin a j e).rat + (Val.fin b k g).rat) (if j = 0 ∧ k = 0 ∧ a = b then a else rm == .rd) r
  | _, _ => True

/-- A product by FArith. -/
def ProductSpec (fmode : W32) (m : Fmt) (rm : Rnd) (x y : Val) (r : Nat × Fl) : Prop :=
  NanRule m x y r ∧
  match x, y with
  | .inf a, .inf b => r = (infBits m (a != b), 0)
  | .inf a, .fin b k _ | .fin b k _, .inf a => r = if k = 0 then (nanBits m, Fl.nv) else (infBits m (a != b), 0)
  | .fin a j e, .fin b k g => Rounds fmode m rm ((Val.fin a j e).rat * (Val.fin b k g).rat) (a != b) r
  | _, _ => True

/-- A quotient by FArith. -/
def QuotientSpec (fmode : W32) (m : Fmt) (rm : Rnd) (x y : Val) (r : Nat × Fl) : Prop :=
  NanRule m x y r ∧
  match x, y with
  | .inf _, .inf _ => r = (nanBits m, Fl.nv)
  | .inf a, .fin b _ _ => r = (infBits m (a != b), 0)
  | .fin a _ _, .inf b => r = (zeroBits m (a != b), 0)
  | .fin a j e, .fin b k g =>
    (k = 0 → r = if j = 0 then (nanBits m, Fl.nv) else (infBits m (a != b), Fl.dz)) ∧
    (k ≠ 0 → Rounds fmode m rm ((Val.fin a j e).rat / (Val.fin b k g).rat) (a != b) r)
  | _, _ => True

/-- A square root by FArith: the magnitude is cut below the root. -/
def RootSpec (fmode : W32) (m : Fmt) (rm : Rnd) (x : Val) (r : Nat × Fl) : Prop :=
  match x with
  | .nan q => r = (nanBits m, if q then Fl.nv else 0)
  | .inf n => r = if n then (nanBits m, Fl.nv) else (infBits m false, 0)
  | .fin n k e =>
    (k = 0 → r = (zeroBits m n, 0)) ∧ (k ≠ 0 → n = true → r = (nanBits m, Fl.nv)) ∧
    (k ≠ 0 → n = false → ∃ (q : Nat) (g : Int) (st : Bool), 2 ^ ((fpOf m).prec + 2) ≤ q ∧
      ((q : ℚ) * 2 ^ g) ^ 2 ≤ (Val.fin n k e).rat ∧ (Val.fin n k e).rat < (((q : ℚ) + 1) * 2 ^ g) ^ 2 ∧
      (st = true ↔ ((q : ℚ) * 2 ^ g) ^ 2 ≠ (Val.fin n k e).rat) ∧ r = roundFlush fmode m rm false q g st)

/-- The new value of an atomic operation of Table 65 on `old`, with operand b and compare value c, and its flags. -/
def AtomicSpec (op : AOp) (dt : DT) (fmode : W32) (old b c : Nat) (r : Nat × Fl) : Prop :=
  let w := 8 * dt.bytes
  let int (x : Nat) : Int := if dt == .i32 || dt == .i64 then (BitVec.ofNat w x).toInt else x
  let lesser : Bool := if dt.isInt then decide (int old ≤ int b) else totalLe dt.fmt old b
  let out (x : Nat) : Nat := if dt.isInt then x else cleanBits dt.fmt x
  match op with
  | .add => (dt.isInt = true → r = ((old + b) % 2 ^ w, 0)) ∧
      (dt.isInt = false → SumSpec fmode dt.fmt (modeOf fmode .dyn) (flushIn fmode dt.fmt old) (flushIn fmode dt.fmt b) r)
  | .min => r = (out (if lesser then old else b), 0)
  | .max => r = (out (if lesser then b else old), 0)
  | .and => r.2 = 0 ∧ ∀ k, r.1.testBit k = (old.testBit k && b.testBit k)
  | .or => r.2 = 0 ∧ ∀ k, r.1.testBit k = (old.testBit k || b.testBit k)
  | .xor => r.2 = 0 ∧ ∀ k, r.1.testBit k = (old.testBit k ^^ b.testBit k)
  | .swap | .store => r = (b, 0)
  | .cas => r = (if old = c then b else old, 0)
  | .load => r = (old, 0)

/-- The accumulation rule of R142 for the value c of an accumulator and its products, in a window of w bits below the leading bit
of the largest term. A product of 0 and an infinity is a NaN that is marked. -/
def AccSpec (fmode : W32) (m : Fmt) (w : Nat) (c : Val) (ps : List (Val × Bool)) (r : Nat × Fl) : Prop :=
  let ts := c :: ps.map (·.1)
  let both : Prop := Val.inf false ∈ ts ∧ Val.inf true ∈ ts
  let nan : Prop := ∃ t ∈ ts, t.isNan = true
  let bad : Prop := (∃ t ∈ ts, t.isSig = true) ∨ (∃ p ∈ ps, p.2 = true) ∨ both
  (nan ∨ both → (bad → r = (nanBits m, Fl.nv)) ∧ (¬ bad → r = (nanBits m, 0))) ∧
  (¬ nan → ¬ both → ∀ n, Val.inf n ∈ ts → r = (infBits m n, 0)) ∧
  (¬ nan → (∀ n, Val.inf n ∉ ts) → (∀ t ∈ ts, t.rat = 0) → r = (zeroBits m (ts.all Val.neg?), 0)) ∧
  ∀ e : Int, ¬ nan → (∀ n, Val.inf n ∉ ts) → (∃ t ∈ ts, 2 ^ e ≤ |t.rat|) → (∀ t ∈ ts, |t.rat| < 2 ^ (e + 1)) →
    let q : ℚ := 2 ^ (e - w)
    let part (t : Val) : Int := if t.rat < 0 then -⌊|t.rat| / q⌋ else ⌊|t.rat| / q⌋
    let sum := (ts.map part).sum
    let sticky : Prop := ∃ t ∈ ts, (⌊|t.rat| / q⌋ : ℚ) * q ≠ |t.rat|
    ∃ nx : Fl, (sticky → nx = Fl.nx) ∧ (¬ sticky → nx = 0) ∧
      (sum = 0 → r = (zeroBits m false, nx)) ∧
      (sum ≠ 0 → ∃ x : Nat × Fl, r = (x.1, x.2 ||| nx) ∧
        Rounds fmode m .rn (((2 * sum + if nx = 0 then 0 else sum.sign : Int) : ℚ) * q / 2) false x)

/-- `t` is what a word leaves that adds the terms of a list of lanes to crucible c, in order, and ORs their flags (R144). -/
def AddsTerms (s t : State) (i : Instr) (c : Nat) (ls : List Nat) (term : Nat → Val) (fl : Nat → Fl) : Prop :=
  t.w.cruc c = ls.foldl (fun z l => z.addTerm (term l)) (s.w.cruc c) ∧
  (∀ k, k ≠ c → t.w.cruc k = s.w.cruc k) ∧
  t.w.sp.fflags = s.w.sp.fflags ||| (ls.foldl (fun g l => g ||| fl l) 0).setWidth 32 ∧
  t = { s.advanced i with w := { (s.advanced i).w with r := { (s.advanced i).w.r with c := t.w.r.c },
                                                         sp := { (s.advanced i).w.sp with fflags := t.w.sp.fflags } } }

/-! ### Folds (R47, R49, R53) -/

/-- Whether a view changes a byte of its twin. -/
def changes (view : Overlay) (twin : Nat → Byte) (va : Nat) : Bool :=
  match SMap.find? view va with
  | some x => x != twin va
  | none => false

/-- `f` is the fold of members in the order given: a byte takes the value of the first member that changed it; a second changer makes
it a conflict of those two; else a member's carried conflict stands there. The record names the conflict at the lowest VA. -/
def FoldsTo {ι : Type} (ks : List ι) (idx : ι → Nat) (view : ι → Overlay) (twin : ι → Nat → Byte) (carried : ι → List Nat) (f : Fold) : Prop :=
  (∀ va,
    let ch := ks.filter fun k => changes (view k) (twin k) va
    (ch = [] → SMap.find? f.bytes va = none) ∧
    (∀ a l, ch = a :: l → SMap.find? f.bytes va = SMap.find? (view a) va) ∧
    (∀ a b l, ch = a :: b :: l → SMap.find? f.confl va = some (idx a, idx b)) ∧
    (ch.length < 2 → SMap.find? f.confl va = (ks.find? fun k => decide (va ∈ carried k)).map fun k => (idx k, idx k))) ∧
  (f.record = none ↔ ∀ va, SMap.find? f.confl va = none) ∧
  ∀ va a b, SMap.find? f.confl va = some (a, b) → (∀ x < va, SMap.find? f.confl x = none) →
    f.record = some ⟨BitVec.ofNat 64 va,
      BitVec.ofNat 64 (va % 64 * 2 ^ 48 + min f.confl.length 65535 * 2 ^ 32 + b % 65536 * 65536 + a % 65536)⟩

/-- `f` is the fold of a graph's launches (R15): a byte takes the value of the changer to which every other has a path; where there is
none it keeps the lowest changer's value, in a conflict of the lowest two that no path links. -/
def GraphFoldsTo (ms : List Member) (twin : Member → Nat → Byte) (path : Nat → Nat → Bool) (f : Fold) : Prop :=
  ∀ va,
    let ch := ms.filter fun m => changes m.view (twin m) va
    let last (c : Member) : Prop := ∀ d ∈ ch, d.idx = c.idx ∨ path d.idx c.idx = true
    let apart (c d : Member) : Prop := c ∈ ch ∧ d ∈ ch ∧ c.idx < d.idx ∧ path c.idx d.idx = false ∧ path d.idx c.idx = false
    (ch = [] → SMap.find? f.bytes va = none ∧ SMap.find? f.confl va = none) ∧
    (∀ l c l', ch = l ++ c :: l' → last c → (∀ d ∈ l, ¬ last d) →
      SMap.find? f.bytes va = SMap.find? c.view va ∧ SMap.find? f.confl va = none) ∧
    ∀ c l, ch = c :: l → (∀ d ∈ ch, ¬ last d) → SMap.find? f.bytes va = SMap.find? c.view va ∧ SMap.find? f.confl va ≠ none ∧
      ∀ a b, apart a b → (∀ c d, apart c d → a.idx < c.idx ∨ a.idx = c.idx ∧ b.idx ≤ d.idx) →
        SMap.find? f.confl va = some (a.idx, b.idx)

/-- What a partial of a fold-page element holds after its operands (R53, Table 14): for an exact-add their exact sum and what kinds
were seen, for the others the operator applied to them. -/
def PartHolds (op : Nat) (xs : List Nat) (p : Part) : Prop :=
  let fo := foldOp op
  let dt := fo.dts.headD .n32
  let w := 8 * fo.width
  let kinds := xs.map (decodeF dt.fmt)
  let int (x : Nat) : Int := if dt == .i32 || dt == .i64 then (BitVec.ofNat w x).toInt else x
  let first (le : Nat → Nat → Prop) : Prop := p.val.toNat ∈ xs ∧ ∀ x ∈ xs, le p.val.toNat x
  p.op = op ∧
  (op ≤ 3 →
    (p.sum : ℚ) * 2 ^ (fpOf dt.fmt).qmin = (kinds.map Val.rat).sum ∧
    (p.nan = true ↔ ∃ v ∈ kinds, v.isNan = true) ∧ (p.pinf = true ↔ .inf false ∈ kinds) ∧ (p.ninf = true ↔ .inf true ∈ kinds) ∧
    (p.allneg0 = true ↔ ∀ v ∈ kinds, ∃ e, v = .fin true 0 e)) ∧
  (4 ≤ op → match fo.op with
    | .add => p.val.toNat = xs.sum % 2 ^ w
    | .and => ∀ k < w, p.val.getLsbD k = xs.all (·.testBit k)
    | .or => ∀ k < w, p.val.getLsbD k = xs.any (·.testBit k)
    | .xor => ∀ k < w, p.val.getLsbD k = (xs.countP (·.testBit k) % 2 == 1)
    | .min => first fun a b => if dt.isInt then int a ≤ int b else TotalOrder dt.fmt a b
    | .max => first fun a b => if dt.isInt then int b ≤ int a else TotalOrder dt.fmt b a
    | _ => False)

/-! ### Control transfers (R212) -/

/-- `t` is what a transfer leaves on `u`: every lane of the run goes to `target`, every other lane stands; nothing else changes
but the burst that follows the promoted run (R22). -/
def MovedTo (s u t : State) (target : Nat → W64) : Prop :=
  (∀ l < 32, t.w.pcAt l = if s.run.getLsbD l then target l else s.w.pcAt l) ∧
  t = { u with w := { u.w with pc := t.w.pc, burst := t.w.burst, promo := t.w.promo } }

/-- When a transfer is issued, active lanes go to `target` and the other lanes of the run to `fall`. -/
def State.Transfers (s : State) (i : Instr) (fall : W64) (target : Nat → W64) : Prop :=
  ∃ t, exec i s = .next t ∧
    MovedTo s (s.advanced i) t fun l => if (s.active i).getLsbD l then target l else fall

/-! ### Memory, byte by byte -/

/-- One byte that a word may write: of the wave's view, device memory, host memory, the block's scratchpad, or die shared
memory. -/
inductive MemCell where
  | view (va : Nat)
  | dev (pa : Nat)
  | host (pa : Nat)
  | sc (off : Nat)
  | dm (key : Nat)
  /-- a byte that no store reaches: of a fold page or a decode window -/
  | none_
  deriving DecidableEq, Repr

/-- The byte of a cell; for the wave's view, the byte the view itself holds. -/
def State.peek (s : State) : MemCell → Option Byte
  | .view va => SMap.find? s.w.view.bytes va
  | .dev pa => some (Memory.byte s.mem pa)
  | .host pa => some (Memory.byte s.hmem pa)
  | .sc off => some (Memory.byte s.b.sc off)
  | .dm key => some (Memory.byte s.dsm key)
  | .none_ => none

/-- Cell k of a place. -/
def Place.cell (p : Place) (k : Nat) : MemCell :=
  match p with
  | .view va _ => .view (va + k)
  | .dev pa | .sluice pa => .dev (pa + k)
  | .host pa => .host (pa + k)
  | .sc off => .sc (off + k)
  | .dm key => .dm (key + k)
  | .fold _ _ _ | .window _ => .none_

/-- Byte k of a location. -/
def locCell (loc k : Nat) : MemCell := if isDm loc then .dm (loc - 2 ^ 53 + k) else .dev (loc + k)

/-- A place that a store reaches. -/
def Place.writable : Place → Prop
  | .fold _ _ _ | .window _ => False
  | _ => True

/-- The block with its R63 mark once one of the places is live memory. -/
def Block.marked (b : Block) (ps : List Place) : Block := if ps.any Place.isLive then { b with live := true } else b

/-! ### The end of a word, and what reaches an object -/

/-- The state after the issue event of a word whose effect leaves `t`: holds, ages, burst and windows as the word retires,
the PCs moved on or as `t` has them, and the pool's charge for lines that the effect added to the wave's view. -/
def State.finishes (s t : State) (i : Instr) (next : Bool) : State := t.settleCharge s (t.retire s i (s.active i) next)

/-- The lines of a word's objects pass (R217 steps 2 to 4) and nothing holds them back: no acquire of the lanes of the word, no
request of its wave on those lines and no earlier message of their channels is outstanding (R79, R85, R89), the bucket lets the
messages go (R363), and where the word reads its lines none is poisoned (R401). -/
structure State.LinesPass (s : State) (dm reads : Bool) (act : Mask) (ls : List Nat) (addr : Nat → W64) : Prop where
  checks : ∀ l ∈ ls, ∃ p, s.objChk dm (addr l) = .ok p
  free : s.objWaits (lanesOf act) (s.objLines dm ls addr) = false
  pays : s.canPay s.b.ctx s.homeOf.1 (s.fee 64 (s.objLines dm ls addr)) = true
  clean : reads = true → ∀ p ∈ s.objLines dm ls addr, s.readsPoison p 64 = false

/-- The state in which a word acts on its objects: its messages paid for (R363), and its block marked by lines outside die shared
memory (R63). -/
def State.atLines (s : State) (dm : Bool) (ls : List Nat) (addr : Nat → W64) : State := s.objGo dm (s.objLines dm ls addr)

/-- The state in which a barrier word acts: its line reached, the pin window closed (R222). -/
def State.atBar (s : State) (dm : Bool) (a : Opnd) : State :=
  let t := if a = .zero then s else s.atLines dm [0] fun _ => s.objAddr dm a 0
  t.setW t.w.closeWindow

/-- The buckets after the messages of live accesses at places, each with so many bytes of payload, are paid for (R363). -/
def State.paidFor (s : State) (payload : Nat) (ps : List Place) : SMap Int :=
  (s.pay s.b.ctx s.homeOf.1 (s.fee payload ps)).tokens

/-- Whether they can be. -/
def State.affords (s : State) (payload : Nat) (ps : List Place) : Prop :=
  s.canPay s.b.ctx s.homeOf.1 (s.fee payload ps) = true

/-- n units of u bytes at a VA are read as a load reads them: `bs` are the bytes, `t` the state that the reads leave. -/
structure State.UnitsRead (s : State) (va : W64) (n u lane : Nat) (t : State) (bs : List Byte) : Prop where
  place : ∃ p : Nat → Place, (∀ i < n, s.check .load .g (va + BitVec.ofNat 64 (i * u)) u false = .ok (p i)) ∧
    (∀ i < n, s.placeWaits lane (p i) u false = false ∧ s.readsPoison (p i) u = false) ∧
    s.affords 0 ((List.range n).map p) ∧
    bs = (List.range n).flatMap (fun i => leBytes u (s.readPlace (p i) u)) ∧
    t = let ps := (List.range n).map fun i => (lane, va + BitVec.ofNat 64 (i * u), p i)
        (s.countWindow ps u).accessed u false ps

/-- Every access of a list of lanes passes (R217): checked to a place, pinned where the word asks for it, with no region open
that it closes, nothing in the way (engine commands, R91; outstanding acquires and requests, R79, R85), messages that the bucket
lets go (R363), no poison read (R401), and no race (R70): `b` is the block with its tags, `lane` the lane of each access. -/
structure State.Granted (s : State) (b : Block) (ls : List Nat) (lane : Nat → Nat) (acc : Acc) (sp : Sp) (n : Nat)
    (reads write pin : Bool) (addr : Nat → W64) (p : Nat → Place) : Prop where
  checks : ∀ l ∈ ls, s.check acc sp (addr l) n write = .ok (p l)
  pinned : pin = true → sp = .g → ∀ l ∈ ls, s.pinned (addr l).toNat write = true
  region : s.w.region ≠ none → ∀ l ∈ ls, (p l).closes = false
  free : acc ≠ .obj → ∀ l ∈ ls, s.placeWaits (lane l) (p l) n write = false
  pays : s.affords (if write then n else 0) (ls.map p)
  clean : reads = true → ∀ l ∈ ls, s.readsPoison (p l) n = false
  race : (∃ l ∈ ls, (p l).sector?.isSome) → s.b.race = none
  tags : s.b.accessAll s.w.idx ((ls.filterMap fun l => (p l).sector?).map fun sec => (sec, write)) = (b, none)

/-- Stores of a word complete at once: the twin pool can supply 32 lines (R58 to R61), and no checkpoint of a recorded wave
falls due (R124). -/
def State.RoomToStore (s : State) : Prop :=
  (∀ n ≤ 32 * 272, s.supply s.w.blk n = .ok) ∧ (s.recorded s.b.ctx = true → s.w.stores % 65536 + 32 < 65536)

/-- What a storing word may change: registers and flags, the view, an open region's undo, the log count and CRC, the
scratchpad and its tags, memories with poison and the bytes kept for running phases, the pool's charge, and what messages of n
bytes cost. -/
def State.StoredOnly (s t : State) (i : Instr) (b : Block) (n : Nat) (ps : List Place) : Prop :=
  t.w = { (s.advanced i).w with r := t.w.r, sp := t.w.sp, view := t.w.view, region := t.w.region, stores := t.w.stores, crc := t.w.crc } ∧
  t.b = { b.marked ps with sc := t.b.sc } ∧
  t = { s with w := t.w, b := t.b, mem := t.mem, hmem := t.hmem, dsm := t.dsm, poison := t.poison, ctxs := t.ctxs, grps := t.grps,
               pool := t.pool, tokens := s.paidFor n ps }

/-! ### Engine commands (R224 to R228) -/

/-- The places of a move's accesses. -/
def State.movePlaces (s : State) (m : Move) : List Place := (s.moveChks m).map fun c => c.2.2.2.place

/-- Every access of a list of moves passes at once: its checks, no engine command in the way, no poison, no race; `b` is the
block with its tags. -/
structure State.MovesPass (s : State) (b : Block) (ms : List Move) : Prop where
  checks : ∀ m ∈ ms, ∀ c ∈ s.moveChks m, c.2.2.2 = .ok c.2.2.2.place
  engine : ∀ m ∈ ms, ∀ c ∈ s.moveChks m, c.2.2.2.place.waitsOnView s m.n c.1 = false
  clean : ∀ m ∈ ms, ∀ c ∈ s.moveChks m, c.1 = false → s.readsPoison c.2.2.2.place m.n = false
  race : (∃ m ∈ ms, (s.elemOf m).sectors ≠ []) → s.b.race = none
  tags : s.b.accessAll s.w.idx (ms.flatMap fun m => (s.elemOf m).sectors) = (b, none)
  room : (∀ n ≤ 128 * ms.length, s.supply s.w.blk n = .ok) ∧ s.recorded s.b.ctx = false

/-- The channel on which the engine injects the data of a new command's first element, when it holds them (R89). -/
def State.firstChan (s : State) (ms : List Move) : Option (Nat × Nat × Nat) :=
  (ms.map s.elemOf).head?.bind fun e => match e.src with
    | .data _ => (e.leg s.homeOf.1).map fun x => (x.1, x.2, s.ids + 2)
    | _ => none

/-- The barrier of a completion word as a VA to wait on; 0 for none and for one in die shared memory. -/
def cwVa (cw : W64) (bar : Option Nat) : Nat := if bar.any fun loc => loc < 2 ^ 52 then 64 * fld cw 6 50 else 0

/-- `t` is what the issue of a whole engine command leaves: one command with the moves as elements, in order, its first event,
its tag busy, the sectors of the scratchpad pending, and destination registers awaiting delivery; a barrier outside die shared
memory marks the block (R63). No byte of memory and no register changes but for what `regs` says. -/
structure State.Sends (s t : State) (i : Instr) (b : Block) (ms : List Move) (extra : List Place) (cw : W64) (tag bar : Option Nat)
    (rel : Bool) : Prop where
  cmd : t.cmds = s.cmds ++ [⟨s.ids + 1, s.homeOf.1, s.ids, s.w.blk, s.w.idx, ms.map s.elemOf, tag, bar,
    bar.any fun loc => s.w.arrivals.any fun a => a.loc == loc, rel, [], s.firstChan ms, cwVa cw bar⟩]
  event : ∀ c, t.cmds = s.cmds ++ [c] → t.inbox = s.inbox ++ [c.event]
  ready : ∀ k < 64, t.b.tagready.getLsbD k = (s.b.tagready.getLsbD k && tag != some k)
  inflight : ∀ k < 64, SMap.get t.b.inflight 0 k = SMap.get s.b.inflight 0 k + if tag = some k then 1 else 0
  pendW : ∀ x, SMap.get t.b.pendW 0 x = SMap.get s.b.pendW 0 x + ((ms.flatMap fun m => (s.elemOf m).sectors).count (x, true))
  pendR : ∀ x, SMap.get t.b.pendR 0 x = SMap.get s.b.pendR 0 x + ((ms.flatMap fun m => (s.elemOf m).sectors).count (x, false))
  block : t.b = { b.marked (extra ++ ms.flatMap s.movePlaces) with
    live := (b.marked (extra ++ ms.flatMap s.movePlaces)).live || bar.any fun loc => decide (loc < 2 ^ 52)
    tagready := t.b.tagready, inflight := t.b.inflight, pendW := t.b.pendW, pendR := t.b.pendR }
  wave : t.w = { (s.advanced i).w with
    r := t.w.r
    pending := s.w.pending ++ ms.filterMap fun m => match m.dst with
      | .reg d _ sz => some (d, sz.regs)
      | _ => none
    view := { s.w.view with lines := t.w.view.lines, charge := t.w.view.charge } }
  rest : t = { s with w := t.w, b := t.b, cmds := t.cmds, inbox := t.inbox, ids := s.ids + if (s.firstChan ms).isSome then 3 else 2,
                      pf := t.pf, grps := t.grps, pool := t.pool, tokens := s.paidFor 0 extra }

/-! ### Tiles and distributions -/

/-- Whether a byte of the tiles lies among the n bytes from `lo` on of the tile of a quarter that a destination names; `zero` names
none. -/
def tileCell (o : Opnd) (q lo n a : Nat) : Bool :=
  match o with
  | .acc t => decide (tileKey q t.toNat + lo ≤ a) && decide (a < tileKey q t.toNat + lo + n)
  | _ => false

/-- Whether an operand names distribution register n. -/
def namesD (o : Opnd) (n : Nat) : Bool :=
  match o with
  | .d r => r.toNat == n
  | _ => false

/-- `t` is what a word leaves that writes accumulator tiles: they, what marks a side-pound tile STALE, special registers and race
tags may differ; every other register, memory and table is as the issue event leaves it. -/
def State.TilesOnly (s t : State) (i : Instr) : Prop :=
  t = { s.advanced i with
    w := { (s.advanced i).w with r := { (s.advanced i).w.r with acc := t.w.r.acc, sh := t.w.r.sh }, sp := t.w.sp }
    b := t.b, pf := t.pf }

/-- The same for a word that also writes side-pound tiles. -/
def State.SideOnly (s t : State) (i : Instr) : Prop :=
  t = { s.advanced i with
    w := { (s.advanced i).w with r := { (s.advanced i).w.r with acc := t.w.r.acc, shd := t.w.r.shd, sh := t.w.r.sh }, sp := t.w.sp }
    b := t.b, pf := t.pf }

/-! ### Exact point values and distributions (R276, R279, R281, R286, R287) -/

/-- An exact value is the rational q, with the sign `zneg` where it is zero. -/
def PV.IsFin (v : PV) (q : ℚ) (zneg : Prop) : Prop := ∃ z, v = .fin z q ∧ (q = 0 → (z = true ↔ zneg))

/-- The sign of a finite exact value. -/
def signOf (z : Bool) (q : ℚ) : Bool := decide (q < 0 ∨ q = 0 ∧ z = true)

/-- The arithmetic of R276: NaN spreads; ∞ − ∞, 0 × ∞, 0 / 0 and ∞ / ∞ are NaN with NV; a finite value other than zero divided by zero
is an infinity with DZ; every other result is exact, a zero with the sign of ZeroSign in RNE. -/
def ExactOps : Prop :=
  (∀ v : PV, ∀ op ∈ [PV.add, PV.sub, PV.mul, PV.div], op .nan v = (.nan, 0) ∧ op v .nan = (.nan, 0)) ∧
  (∀ a b : Bool, PV.add (.inf a) (.inf b) = (if a = b then (.inf a, 0) else (.nan, Fl.nv)) ∧
    PV.sub (.inf a) (.inf b) = (if a = b then (.nan, Fl.nv) else (.inf a, 0)) ∧
    PV.mul (.inf a) (.inf b) = (.inf (a != b), 0) ∧ PV.div (.inf a) (.inf b) = (.nan, Fl.nv)) ∧
  (∀ (a z : Bool) (q : ℚ),
    PV.add (.inf a) (.fin z q) = (.inf a, 0) ∧ PV.add (.fin z q) (.inf a) = (.inf a, 0) ∧
    PV.sub (.inf a) (.fin z q) = (.inf a, 0) ∧ PV.sub (.fin z q) (.inf a) = (.inf (!a), 0) ∧
    (q = 0 → PV.mul (.inf a) (.fin z q) = (.nan, Fl.nv) ∧ PV.mul (.fin z q) (.inf a) = (.nan, Fl.nv)) ∧
    (q ≠ 0 → PV.mul (.inf a) (.fin z q) = (.inf (a != signOf z q), 0) ∧ PV.mul (.fin z q) (.inf a) = (.inf (a != signOf z q), 0)) ∧
    PV.div (.inf a) (.fin z q) = (.inf (a != signOf z q), 0) ∧
    ∃ v, PV.div (.fin z q) (.inf a) = (v, 0) ∧ v.IsFin 0 (signOf z q ≠ a)) ∧
  ∀ (y z : Bool) (p q : ℚ),
    (∃ v, PV.add (.fin y p) (.fin z q) = (v, 0) ∧ v.IsFin (p + q) (p = 0 ∧ q = 0 ∧ y = true ∧ z = true)) ∧
    (∃ v, PV.sub (.fin y p) (.fin z q) = (v, 0) ∧ v.IsFin (p - q) (p = 0 ∧ q = 0 ∧ y = true ∧ z = false)) ∧
    (∃ v, PV.mul (.fin y p) (.fin z q) = (v, 0) ∧ v.IsFin (p * q) (signOf y p ≠ signOf z q)) ∧
    (p = 0 → q = 0 → PV.div (.fin y p) (.fin z q) = (.nan, Fl.nv)) ∧
    (p ≠ 0 → q = 0 → PV.div (.fin y p) (.fin z q) = (.inf (signOf y p != signOf z q), Fl.dz)) ∧
    (q ≠ 0 → ∃ v, PV.div (.fin y p) (.fin z q) = (v, 0) ∧ v.IsFin (p / q) (signOf y p ≠ signOf z q))

/-- ExactOrder (R276), Min and Max by it (R141, R283), and the exact value of F32 bits and its rounding back. -/
def ExactValues : Prop :=
  (∀ v : PV, ((PV.inf true).before v = true ↔ v ≠ .inf true) ∧ v.before (.inf true) = false ∧
    (v.before .nan = true ↔ v ≠ .nan) ∧ PV.nan.before v = false ∧ (PV.inf false).before v = (v == .nan)) ∧
  (∀ (a b : Bool) (p q : ℚ), (PV.fin a p).before (.inf false) = true ∧
    ((PV.fin a p).before (.fin b q) = true ↔ p < q ∨ p = 0 ∧ q = 0 ∧ a = true ∧ b = false)) ∧
  (∀ x y : PV, PV.min x y = (if y.before x then y else x, 0) ∧ PV.max x y = (if y.before x then x else y, 0)) ∧
  ∀ v < 2 ^ 32,
    (PV.bits v = .nan ↔ (decodeF .f32 v).isNan = true) ∧ (∀ n, PV.bits v = .inf n ↔ decodeF .f32 v = .inf n) ∧
    (∀ n k e, decodeF .f32 v = .fin n k e → (PV.bits v).IsFin (Val.fin n k e).rat (n = true)) ∧
    (PV.bits v).round = (if (decodeF .f32 v).isNan then 0x7FC00000 else v, 0)

/-- The cumulative weight of the first k points. -/
def cumWeight (ps : List (PV × ℚ)) (k : Nat) : ℚ := ((ps.take k).map (·.2)).sum

/-- `v` is the value of the point whose cumulative interval holds l. -/
def HoldsAt (ps : List (PV × ℚ)) (l : ℚ) (v : PV) : Prop :=
  ∃ i w, ps[i]? = some (v, w) ∧ cumWeight ps i ≤ l ∧ l < cumWeight ps (i + 1)

/-- The pairs of two operands (R279) with the flags of their values: every used point with every used point; or, dependent, quantile to
quantile over the breakpoints of both. -/
def PairsSpec (op : PV → PV → PV × Fl) (dep : Bool) (x y : List (PV × ℚ)) (r : List Pair × Fl) : Prop :=
  (dep = false → r.1.length = x.length * y.length ∧
    (∀ i j a b, x[i]? = some a → y[j]? = some b → r.1[i * y.length + j]? = some ⟨(op a.1 b.1).1, a.2 * b.2, 8 * i + j⟩) ∧
    ∀ k, r.2.getLsbD k = true ↔ ∃ a ∈ x, ∃ b ∈ y, (op a.1 b.1).2.getLsbD k = true) ∧
  (dep = true → (∀ p ∈ x ++ y, 0 < p.2) → cumWeight x x.length = 1 → cumWeight y y.length = 1 →
    ∃ cuts : List ℚ, cuts.Pairwise (· < ·) ∧
      (∀ c, c ∈ cuts ↔ c = 0 ∨ (∃ k < x.length, c = cumWeight x (k + 1)) ∨ ∃ k < y.length, c = cumWeight y (k + 1)) ∧
      r.1.length + 1 = cuts.length ∧
      (∀ k l h, cuts[k]? = some l → cuts[k + 1]? = some h → ∃ u v, HoldsAt x l u ∧ HoldsAt y l v ∧
        r.1[k]? = some ⟨(op u v).1, h - l, k⟩ ∧ ∀ b, (op u v).2.getLsbD b = true → r.2.getLsbD b = true) ∧
      ∀ b, r.2.getLsbD b = true → ∃ l u v, l ∈ cuts ∧ HoldsAt x l u ∧ HoldsAt y l v ∧ (op u v).2.getLsbD b = true)

/-- `dset.u` (R281): a value that is not finite, or a above b, gives the NaN distribution; else point j is a + (b − a) × (2j + 1) / 16,
rounded once, of weight 1/8, through Canon. -/
def UniformSpec (a b : Nat) (r : BitVec 512 × Fl) : Prop :=
  ((∀ z p w q, ¬ (PV.bits a = .fin z p ∧ PV.bits b = .fin w q)) → r = (dNaN, Fl.nv)) ∧
  ∀ z p w q, PV.bits a = .fin z p → PV.bits b = .fin w q →
    (q < p → r = (dNaN, Fl.nv)) ∧
    (p ≤ q → ∃ pt : Nat → Nat × Fl,
      (∀ j : Nat, j < 8 → Rounds 0 .f32 .rn (p + (q - p) * (2 * (j : ℚ) + 1) / 16) false (pt j)) ∧
      let c := canon ((List.range 8).map fun j => ((pt j).1, 0x3E000000))
      r = (c.1, (List.range 8).foldl (fun g j => g ||| (pt j).2) c.2))

/-- One moment of used points (R286). -/
def MomentSpec (ps : List (PV × ℚ)) (sel : MSel) (r : Nat × Fl) : Prop :=
  let nan : Prop := ∃ p ∈ ps, p.1 = .nan
  let has (n : Bool) : Prop := ∃ p ∈ ps, p.1 = .inf n
  let mu : ℚ := (ps.map fun p => p.2 * p.1.rat).sum
  let m (n : Nat) : ℚ := (ps.map fun p => p.2 * (p.1.rat - mu) ^ n).sum
  let bad := nanBits .f32
  let plus (x : Nat × Fl) : Nat × Fl := (if x.1 = zeroBits .f32 true then zeroBits .f32 false else x.1, x.2)
  (has false ∧ has true → r = (bad, Fl.nv)) ∧ (nan → ¬ (has false ∧ has true) → r = (bad, 0)) ∧
  (∀ n, ¬ nan → has n → ¬ has (!n) →
    r = match sel with
      | .mean | .all => (infBits .f32 n, 0)
      | .var => (infBits .f32 false, 0)
      | .skew | .kurt => (bad, Fl.nv)) ∧
  (¬ nan → ¬ has false → ¬ has true →
    match sel with
    | .mean | .all => ((∀ p ∈ ps, p.1 = .fin true 0) → r = (zeroBits .f32 true, 0)) ∧
      ((∃ p ∈ ps, p.1 ≠ .fin true 0) → ∃ x, Rounds 0 .f32 .rn mu false x ∧ r = plus x)
    | .var => Rounds 0 .f32 .rn (m 2) false r
    | .skew => (m 2 = 0 → r = (bad, Fl.nv)) ∧ (m 2 ≠ 0 → m 3 = 0 → r = (zeroBits .f32 false, 0)) ∧
      (0 < m 2 → m 3 ≠ 0 → ∃ (k : Nat) (e : Int) (st : Bool), 2 ^ 26 ≤ k ∧ ((k : ℚ) * 2 ^ e) ^ 2 ≤ m 3 ^ 2 / m 2 ^ 3 ∧
        m 3 ^ 2 / m 2 ^ 3 < (((k : ℚ) + 1) * 2 ^ e) ^ 2 ∧ (st = true ↔ ((k : ℚ) * 2 ^ e) ^ 2 ≠ m 3 ^ 2 / m 2 ^ 3) ∧
        r = plus (roundFlush 0 .f32 .rn (decide (m 3 < 0)) k e st))
    | .kurt => (m 2 = 0 → r = (bad, Fl.nv)) ∧ (m 2 ≠ 0 → Rounds 0 .f32 .rn (m 4 / m 2 ^ 2) false r))

/-- The value at non-exceedance probability p (R287), by interpolation between the midpoints of the used points. -/
def QuantileSpec (ps : List (PV × ℚ)) (p : ℚ) (r : Nat × Fl) : Prop :=
  let m (k : Nat) (w : ℚ) : ℚ := cumWeight ps k + w / 2
  ((∀ v w, ps[0]? = some (v, w) → p ≤ m 0 w → r = v.round) ∧
   (∀ v w, ps.getLast? = some (v, w) → m (ps.length - 1) w ≤ p → r = v.round) ∧
   (∀ j v w, ps[j]? = some (v, w) → p = m j w → r = v.round)) ∧
  ∀ k v w u x, ps[k]? = some (v, w) → ps[k + 1]? = some (u, x) → m k w < p → p < m (k + 1) x →
    let d := PV.sub u v
    let y := PV.mul (.fin false ((p - m k w) / (m (k + 1) x - m k w))) d.1
    let z := PV.add v y.1
    r = (z.1.round.1, z.1.round.2 ||| d.2 ||| y.2 ||| z.2)

/-- The function of `dmap` on a point value (R283): −v; 1/v and √v correctly rounded; the others at their corners, where their values
are rational. -/
def MapSpec (fn : DFn) (v : Nat) (r : Nat × Fl) : Prop :=
  let x := decodeF .f32 v
  let nan (q : Bool) : Nat × Fl := (nanBits .f32, if q then Fl.nv else 0)
  let power : Prop := match x with
    | .nan q => r = nan q
    | .inf n => r = (if n then zeroBits .f32 false else infBits .f32 false, 0)
    | .fin _ k _ => k = 0 → Rounds 0 .f32 .rn 1 false r
  let logarithm : Prop := match x with
    | .nan q => r = nan q
    | .inf n => r = if n then (nanBits .f32, Fl.nv) else (infBits .f32 false, 0)
    | .fin n k e => (k = 0 → r = (infBits .f32 true, Fl.dz)) ∧ (k ≠ 0 → n = true → r = (nanBits .f32, Fl.nv)) ∧
      ((Val.fin n k e).rat = 1 → r = (zeroBits .f32 false, 0))
  match fn with
  | .neg => r = (Nat.xor v (2 ^ 31), 0)
  | .rcp => QuotientSpec 0 .f32 .rn (.fin false 1 0) x r
  | .sqrt => RootSpec 0 .f32 .rn x r
  | .exp2 => power ∧ ∀ n k e, x = .fin n k e → ∀ j : Int, -1000 ≤ j → j ≤ 1000 → (Val.fin n k e).rat = j → r = roundFlush 0 .f32 .rn false 1 j false
  | .log2 => logarithm ∧ ∀ n k e, x = .fin n k e → ∀ j : Int, n = false → (Val.fin n k e).rat = 2 ^ j → Rounds 0 .f32 .rn j false r
  | .exp => power
  | .log => logarithm

/-- Nothing but its own check stops a row of `mmas` (R259, R266): its address or a page of it fails, or every piece passes and none
waits, is poisoned, races in `sc:` or lies on a decode window (whose errors a row counts). -/
def State.rowGoes (s : State) (r : MRow) (n : Nat) : Prop :=
  r.addr.toNat % 16 ≠ 0 ∨ (∃ c, firstFail (s.rowChks r n false) = some c ∧ c.2.2 ≠ .stall) ∨
  firstFail (s.rowChks r n false) = none ∧ ∀ p ∈ s.rowPlaces r n false, s.placeWaits r.lane p.1 p.2 false = false ∧
    s.readsPoison p.1 16 = false ∧ (∀ pa, p.1 ≠ .window pa) ∧ ∀ sec, p.1.sector? = some sec → s.b.access s.w.idx sec false = .ok

/-- What `shcom` writes to the tile of a quarter that commits, with its flags (R267, R269): what the side-pound tile holds or, where it
is POISON, the operation over the rows at the kept bases and strides, under the flush bits of FM. -/
def State.committedOp (s : State) (e : Nat × Nat) : List Byte × Fl :=
  let x := s.w.side e.1
  if x.poison then (s.matOp (x.arg e.1 e.2) x.fmt x.acf x.shape x.scA x.scB x.fm).result (s.w.tileElem e.1 x.tgt x.acf.size)
  else (Memory.bytes s.w.r.shd (1024 * e.1) (x.shape.m * x.shape.n * x.acf.size), x.fl)

/-- `t` is what a word leaves that writes distributions, with their TAGs, to D: every other register and all else as the issue
event leaves it. -/
structure State.WroteD (s t : State) (i : Instr) (o : Opnd) (val : Nat → BitVec 512 × BitVec 16 × Fl) : Prop where
  value : ∀ n l, l < 32 → t.w.dreg n l = if (s.active i).getLsbD l ∧ namesD o n then (val l).1 else s.w.dreg n l
  tag : ∀ n l, l < 32 → t.w.dtag n l = if (s.active i).getLsbD l ∧ namesD o n then (val l).2.1 else s.w.dtag n l
  flags : t.w.sp.fflags = s.w.sp.fflags ||| ((lanesOf (s.active i)).foldl (fun g l => g ||| (val l).2.2) 0).setWidth 32
  rest : t = { s.advanced i with
    w := { (s.advanced i).w with
      r := { (s.advanced i).w.r with d := t.w.r.d, dtag := t.w.r.dtag }
      sp := { (s.advanced i).w.sp with fflags := t.w.sp.fflags } } }

/-- When a word is issued and a lane is active, it completes with these distributions in D. -/
def State.GivesD (s : State) (i : Instr) (o : Opnd) (val : Nat → BitVec 512 × BitVec 16 × Fl) : Prop :=
  s.Issues i → s.active i ≠ 0 → ∃ t, exec i s = .next t ∧ s.WroteD t i o val

/-! ### Events -/

/-- Only a wave changes, and it becomes `x`. -/
structure State.WaveBecomes (s t : State) (k : Nat) (x : Wave) : Prop where
  wave : t.wave k = x
  others : ∀ j, j ≠ k → t.wave j = s.wave j
  rest : t = { s with w := t.w, waves := t.waves }

/-- A memory after a write of bytes at an address: they, and every other byte as it was. -/
def Written (m m' : Memory) (a : Nat) (bs : List Byte) : Prop :=
  ∀ p, Memory.byte m' p = if a ≤ p ∧ p < a + bs.length then bs.getD (p - a) 0 else Memory.byte m p

/-- A write of PF BAR 0 that a rule does not allow: nothing changes but PFSTAT, whose REJ is set (R389). -/
def State.Rejected (s t : State) : Prop := t = { s with pf := t.pf } ∧ fld (t.pfNum Pf.pfstat) 0 1 = 1 ∧
  ∀ off, off ≠ Pf.pfstat → t.pfNum off = s.pfNum off

end Machine

/-- The register value of loaded bytes (Table 57): sign-extended for the signed sizes. -/
def Sz.loaded (sz : Sz) (x : Nat) : Nat :=
  match sz with
  | .i8 => ((BitVec.ofNat 8 x).signExtend 32).toNat
  | .i16 => ((BitVec.ofNat 16 x).signExtend 32).toNat
  | _ => x

end Sys2Proof
end

