-- ==== Sys2Proof/Certificates/Slice0/Obligations.lean ====
section
/-! DEFINITION. The statements for the provers, family by family in the order of the opcode table: what each word and each
event does, what it leaves as it was, and the invariants of the machine. -/

open Sys2Proof Sys2Proof.Machine

/-- R188 without SAT, R190, R191 and the X forms of Table 50: the exact value modulo 2^w in every active lane, nothing else
changed. -/
def Obligations.WrappingArithmetic : Prop :=
  ∀ (s : State) (f : F) (ty : Ty),
    s.Gives (.add f ty false) f.d ty.regs (fun l => (s.bv ty f.a l + s.bv ty f.b l).toNat) ∧
    s.Gives (.sub f ty false) f.d ty.regs (fun l => (s.bv ty f.a l - s.bv ty f.b l).toNat) ∧
    s.Gives (.mul f ty false) f.d ty.regs (fun l => (s.bv ty f.a l * s.bv ty f.b l).toNat) ∧
    s.Gives (.mad f ty false) f.d ty.regs (fun l => (s.bv ty f.a l * s.bv ty f.b l + s.bv ty f.c l).toNat) ∧
    s.Gives (.neg f ty false) f.d ty.regs (fun l => (-s.bv ty f.a l).toNat) ∧
    s.Gives (.abs f ty false) f.d ty.regs
      (fun l => (if ty.signed ∧ (s.bv ty f.a l).msb then -s.bv ty f.a l else s.bv ty f.a l).toNat) ∧
    s.Gives (.mov f ty) f.d ty.regs (fun l => (s.bv ty f.a l).toNat) ∧
    (∀ (sx : Bool) (sh : BitVec 3), s.Gives (.lea f ty sx sh) f.d ty.regs (fun l =>
      (s.bv ty f.a l + (if sx then (s.opnd32 f.b l).signExtend ty.bits else (s.opnd32 f.b l).setWidth ty.bits) <<< sh.toNat).toNat)) ∧
    (∀ imm : BitVec 21, s.Gives (.movi f imm) f.d 1 (fun _ => (imm.signExtend 32).toNat)) ∧
    (∀ x : X, s.Gives (.movl x) x.d 1 (fun _ => x.imm.toNat)) ∧
    ∀ x : X, s.Gives (.addX x) x.d 1 (fun l => (s.opnd32 x.d l + x.imm).toNat)

/-- R187 and R188 with SAT: the exact value clamped to the type's range, SAT set when a lane's value lay outside it. -/
def Obligations.SaturatingArithmetic : Prop :=
  ∀ (s : State) (f : F) (ty : Ty),
    s.Computes (.add f ty true) f.d ty.regs (fun l => ty.clamped (s.ival ty f.a l + s.ival ty f.b l)) ∧
    s.Computes (.sub f ty true) f.d ty.regs (fun l => ty.clamped (s.ival ty f.a l - s.ival ty f.b l)) ∧
    s.Computes (.mul f ty true) f.d ty.regs (fun l => ty.clamped (s.ival ty f.a l * s.ival ty f.b l)) ∧
    s.Computes (.mad f ty true) f.d ty.regs (fun l => ty.clamped (s.ival ty f.a l * s.ival ty f.b l + s.ival ty f.c l)) ∧
    s.Computes (.neg f ty true) f.d ty.regs (fun l => ty.clamped (-s.ival ty f.a l)) ∧
    s.Computes (.abs f ty true) f.d ty.regs (fun l => ty.clamped |s.ival ty f.a l|)

/-- R188 and R189: the high half of the product, the lesser and the greater under the type's signedness, and the quotient
and remainder truncated towards zero with the corners of R189: a zero divisor and the least number by −1. -/
def Obligations.ProductsAndQuotients : Prop :=
  ∀ (s : State) (f : F) (ty : Ty),
    s.Gives (.mulhi f ty) f.d ty.regs (fun l => ty.wrapped (s.ival ty f.a l * s.ival ty f.b l / 2 ^ ty.bits)) ∧
    s.Gives (.min f ty) f.d ty.regs (fun l => ty.wrapped (min (s.ival ty f.a l) (s.ival ty f.b l))) ∧
    s.Gives (.max f ty) f.d ty.regs (fun l => ty.wrapped (max (s.ival ty f.a l) (s.ival ty f.b l))) ∧
    (∀ sat : Bool, s.Computes (.div f ty sat) f.d ty.regs (fun l =>
      let a := s.ival ty f.a l
      let b := s.ival ty f.b l
      if b = 0 then (2 ^ ty.bits - 1, if a = 0 then 0 else Fl.dz)
      else if sat then ty.clamped (a.tdiv b) else (ty.wrapped (a.tdiv b), 0))) ∧
    s.Computes (.rem f ty) f.d ty.regs (fun l =>
      let a := s.ival ty f.a l
      let b := s.ival ty f.b l
      if b = 0 then (ty.wrapped a, if a = 0 then 0 else Fl.dz) else (ty.wrapped (a.tmod b), 0))

/-- R192 to R194: `popc`, `clz` and `ctz` by the bits they count, `brev` by where each bit goes, `bfe` and `bfi` by the
field they move, `bperm` by the byte each selector nibble names. -/
def Obligations.BitFields : Prop :=
  ∀ (s : State) (f : F) (ty : Ty),
    s.Gives (.popc f ty) f.d 1 (fun l => (List.range ty.bits).countP fun k => (s.bv ty f.a l).getLsbD k) ∧
    (∃ n : Nat → Nat, s.Gives (.clz f ty) f.d 1 n ∧ ∀ l, n l ≤ ty.bits ∧ (s.bv ty f.a l).toNat < 2 ^ (ty.bits - n l) ∧
      (n l < ty.bits → (s.bv ty f.a l).getLsbD (ty.bits - 1 - n l) = true)) ∧
    (∃ n : Nat → Nat, s.Gives (.ctz f ty) f.d 1 n ∧ ∀ l, n l ≤ ty.bits ∧ (∀ k < n l, (s.bv ty f.a l).getLsbD k = false) ∧
      (n l < ty.bits → (s.bv ty f.a l).getLsbD (n l) = true)) ∧
    (∃ r : Nat → BitVec ty.bits, s.Gives (.brev f ty) f.d ty.regs (fun l => (r l).toNat) ∧
      ∀ l, ∀ k < ty.bits, (r l).getLsbD (ty.bits - 1 - k) = (s.bv ty f.a l).getLsbD k) ∧
    (∀ (sx : Bool) (pos len : BitVec 5), ∃ r : Nat → W32, s.Gives (.bfe f sx pos len) f.d 1 (fun l => (r l).toNat) ∧
      ∀ l, ∀ k < 32, (r l).getLsbD k =
        if k ≤ len.toNat then (s.opnd32 f.a l).getLsbD (pos.toNat + k)
        else sx && (s.opnd32 f.a l).getLsbD (pos.toNat + len.toNat)) ∧
    (∀ pos len : BitVec 5, ∃ r : Nat → W32, s.Gives (.bfi f pos len) f.d 1 (fun l => (r l).toNat) ∧
      ∀ l, ∀ k < 32, (r l).getLsbD k =
        if pos.toNat ≤ k ∧ k ≤ pos.toNat + len.toNat then (s.opnd32 f.a l).getLsbD (k - pos.toNat)
        else (s.opnd32 f.d l).getLsbD k) ∧
    ∃ r : Nat → W32, s.Gives (.bperm f) f.d 1 (fun l => (r l).toNat) ∧
      ∀ l, ∀ k < 4,
        let ab : BitVec 64 := s.opnd32 f.b l ++ s.opnd32 f.a l
        let n : BitVec 4 := (s.opnd32 f.c l).extractLsb' (4 * k) 4
        let x : BitVec 8 := ab.extractLsb' (8 * (n.toNat % 8)) 8
        (r l).extractLsb' (8 * k) 8 = if n.getLsbD 3 then (if x.getLsbD 7 then 0xFF else 0) else x

/-- R196: `addc` writes the unsigned sum with the carry-in modulo 2^w to D and the carry-out to the predicate of C, in every
active lane; no other register and no flag changes. -/
def Obligations.AddWithCarry : Prop :=
  ∀ (s : State) (f : F) (ty : Ty) (p : BitVec 3), f.c = .p p → (Instr.addc f ty).wf = true →
    s.Issues (.addc f ty) → s.active (.addc f ty) ≠ 0 →
    let act := s.active (.addc f ty)
    let sum (l : Nat) : Nat := (s.bv ty f.a l).toNat + (s.bv ty f.b l).toNat + bnum (s.w.pred p.toNat l)
    ∃ t, exec (.addc f ty) s = .next t ∧ t = (s.advanced (.addc f ty)).withRegs t.w ∧ t.w.sp.fflags = s.w.sp.fflags ∧
      (∀ q l k, q.ok → f.d.part s.w act ty.regs q = some (l, k) → t.w.reg q = sum l % 2 ^ ty.bits / 2 ^ (32 * k) % 2 ^ q.bits) ∧
      (∀ l, l < 32 → act.getLsbD l → t.w.reg (.p p.toNat l) = if 2 ^ ty.bits ≤ sum l then 1 else 0) ∧
      ∀ q, q.ok → f.d.part s.w act ty.regs q = none → (∀ l, act.getLsbD l → q ≠ .p p.toNat l) → t.w.reg q = s.w.reg q

/-- R195: `ldvr` writes to D, and `stvr` to the register of each active lane's number n, the register that n names; with n
outside the allocation in some active lane, no lane is changed and trap 0x02 is taken with the lowest such lane and its n
(Table 54).

R201 to R203: `ballot` and `vote` over the active lanes alone, `rfal` from the lowest active lane, `bcast` and `shfl` from
any lane, active or not, as registers stand at issue. -/
def Obligations.LaneExchange : Prop :=
  (∀ (s : State) (f : F) (k : BitVec 8) (x : BitVec 2),
    (f.a = .i x → s.Issues (.ldvr f k) → s.active (.ldvr f k) ≠ 0 →
      let n (l : Nat) : Nat := (s.w.ireg x.toNat l).toNat + k.toNat
      let act := s.active (.ldvr f k)
      ((∀ l, act.getLsbD l → n l < s.b.al.vregs ∧ 64 + n l ∉ s.pendingRegs) →
        ∃ t, exec (.ldvr f k) s = .next t ∧ s.Wrote t (.ldvr f k) f.d 1 fun l => ((s.w.vreg (n l) l).toNat, 0)) ∧
      ∀ l, l < 32 → act.getLsbD l → s.b.al.vregs ≤ n l → (∀ m < l, act.getLsbD m → n m < s.b.al.vregs) →
        s.w.region = none → exec (.ldvr f k) s = .next (s.trapWord act (.of 2 (BitVec.ofNat 64 (l * 65536 + n l)) s.pc))) ∧
    (f.d = .i x → s.Issues (.stvr f k) → s.active (.stvr f k) ≠ 0 →
      let n (l : Nat) : Nat := (s.w.ireg x.toNat l).toNat + k.toNat
      let act := s.active (.stvr f k)
      ((∀ l, act.getLsbD l → n l < s.b.al.vregs ∧ 64 + n l ∉ s.pendingRegs) →
        ∃ t, exec (.stvr f k) s = .next t ∧ t = (s.advanced (.stvr f k)).withRegs t.w ∧ t.w.sp.fflags = s.w.sp.fflags ∧
          (∀ l, l < 32 → act.getLsbD l → t.w.reg (.v (n l) l) = (s.opnd32 f.a l).toNat) ∧
          ∀ q, q.ok → (∀ l, act.getLsbD l → q ≠ .v (n l) l) → t.w.reg q = s.w.reg q) ∧
      ∀ l, l < 32 → act.getLsbD l → s.b.al.vregs ≤ n l → (∀ m < l, act.getLsbD m → n m < s.b.al.vregs) →
        s.w.region = none → exec (.stvr f k) s = .next (s.trapWord act (.of 2 (BitVec.ofNat 64 (l * 65536 + n l)) s.pc)))) ∧
  (∀ (s : State) (f : F) (ty : Ty),
    (∀ p : BitVec 3, f.a = .p p →
      (∃ m : Mask, s.Gives (.ballot f) f.d 1 (fun _ => m.toNat) ∧
        ∀ l < 32, m.getLsbD l = ((s.active (.ballot f)).getLsbD l && s.w.pred p.toNat l)) ∧
      ∀ mode : VMode,
        let act := s.active (.vote f mode)
        ∃ r : Bool, s.Gives (.vote f mode) f.d 1 (fun _ => bnum r) ∧
          (r = true ↔ match mode with
            | .all => ∀ l < 32, act.getLsbD l → s.w.pred p.toNat l
            | .any => ∃ l < 32, act.getLsbD l ∧ s.w.pred p.toNat l
            | .eq => ∀ l < 32, ∀ k < 32, act.getLsbD l → act.getLsbD k → s.w.pred p.toNat l = s.w.pred p.toNat k)) ∧
    s.Gives (.rfal f ty) f.d ty.regs (fun _ => (s.bv ty f.a (lowLane (s.active (.rfal f ty)))).toNat) ∧
    (∀ lane : BitVec 5, s.Gives (.bcast f ty lane) f.d ty.regs (fun _ => (s.bv ty f.a lane.toNat).toNat)) ∧
    ∀ mode : ShMode, s.Gives (.shfl f ty mode) f.d ty.regs (fun l =>
      let n : Int := (s.opnd32 f.b l).toInt
      let src : Int := match mode with
        | .idx => n
        | .up => l - n
        | .down => l + n
        | .xor => ((l ^^^ (s.opnd f.b 1 l) % 32 : Nat) : Int)
      (if 0 ≤ src ∧ src ≤ 31 then s.bv ty f.a src.toNat else s.bv ty f.c l).toNat))

/-- R197: logic and shifts on the bits of the type's width; B of a shift counts modulo the width; `fsh` shifts the pair a:b
right by c modulo 64. -/
def Obligations.LogicAndShift : Prop :=
  ∀ (s : State) (f : F) (ty : Ty),
    s.Gives (.and f ty) f.d ty.regs (fun l => (s.bv ty f.a l &&& s.bv ty f.b l).toNat) ∧
    s.Gives (.or f ty) f.d ty.regs (fun l => (s.bv ty f.a l ||| s.bv ty f.b l).toNat) ∧
    s.Gives (.xor f ty) f.d ty.regs (fun l => (s.bv ty f.a l ^^^ s.bv ty f.b l).toNat) ∧
    s.Gives (.andn f ty) f.d ty.regs (fun l => (s.bv ty f.a l &&& ~~~s.bv ty f.b l).toNat) ∧
    s.Gives (.not f ty) f.d ty.regs (fun l => (~~~s.bv ty f.a l).toNat) ∧
    s.Gives (.shl f ty) f.d ty.regs (fun l => (s.bv ty f.a l <<< ((s.opnd32 f.b l).toNat % ty.bits)).toNat) ∧
    s.Gives (.shr f ty) f.d ty.regs (fun l => (s.bv ty f.a l >>> ((s.opnd32 f.b l).toNat % ty.bits)).toNat) ∧
    s.Gives (.sar f ty) f.d ty.regs (fun l => ((s.bv ty f.a l).sshiftRight ((s.opnd32 f.b l).toNat % ty.bits)).toNat) ∧
    s.Gives (.rotl f ty) f.d ty.regs (fun l => ((s.bv ty f.a l).rotateLeft ((s.opnd32 f.b l).toNat % ty.bits)).toNat) ∧
    s.Gives (.fsh f ty) f.d 1 (fun l =>
      (((s.opnd32 f.a l ++ s.opnd32 f.b l) >>> ((s.opnd32 f.c l).toNat % 64)).setWidth 32).toNat)

/-- R198 to R200: `icmp` under the type's signedness, `fcmp` by Table 55 on flushed values with NV where the predicate's kind
says so, `sel` by the predicate of C bit for bit, `plog` by its truth table.

R140: TotalOrder by sign and magnitude of the code, or numerically with the NaN code last in a narrow format; among numbers it follows
their values. (A `sel` with a scalar D takes the lowest active lane's predicate: the model's reading, log entry 81.) -/
def Obligations.CompareAndSelect : Prop :=
  ∀ (s : State) (f : F) (ty : Ty),
    s.Gives (.icmp f ty .eq) f.d 1 (fun l => bnum (decide (s.ival ty f.a l = s.ival ty f.b l))) ∧
    s.Gives (.icmp f ty .ne) f.d 1 (fun l => bnum (decide (s.ival ty f.a l ≠ s.ival ty f.b l))) ∧
    s.Gives (.icmp f ty .lt) f.d 1 (fun l => bnum (decide (s.ival ty f.a l < s.ival ty f.b l))) ∧
    s.Gives (.icmp f ty .le) f.d 1 (fun l => bnum (decide (s.ival ty f.a l ≤ s.ival ty f.b l))) ∧
    s.Gives (.icmp f ty .gt) f.d 1 (fun l => bnum (decide (s.ival ty f.b l < s.ival ty f.a l))) ∧
    s.Gives (.icmp f ty .ge) f.d 1 (fun l => bnum (decide (s.ival ty f.b l ≤ s.ival ty f.a l))) ∧
    (∀ (m : Fmt) (c : FCond), ∃ r : Nat → Bool × Fl, s.Computes (.fcmp f m c) f.d 1 (fun l => (bnum (r l).1, (r l).2)) ∧
      ∀ l, CompareSpec s.w.sp.fmode m c (s.fopnd m f.a l) (s.fopnd m f.b l) (r l)) ∧
    (∀ p : BitVec 3, f.c = .p p → s.Gives (.sel f ty) f.d ty.regs (fun l =>
      (if s.w.pred p.toNat l then s.bv ty f.a l else s.bv ty f.b l).toNat)) ∧
    (∀ tt : BitVec 8, s.Gives (.plog f tt) f.d 1 (fun l =>
      bnum (tt.getLsbD (4 * s.opnd f.c 1 l + 2 * s.opnd f.b 1 l + s.opnd f.a 1 l)))) ∧
    ∀ (m : Fmt) (a b : Nat), m.num ≤ 10 → (totalLe m a b = true ↔ TotalOrder m a b) ∧
      ((decodeF m a).isNan = false → (decodeF m b).isNan = false → cmpVal (decodeF m a) (decodeF m b) < 0 →
        totalLe m a b = true ∧ totalLe m b a = false)

/-- R205, R134: the float words of Table 56 that use FArith, on operands flushed by R136. A NaN operand gives DefaultNaN, with NV
for a signalling one; an invalid operation gives DefaultNaN and NV; infinities and the division by zero give theirs; every
other result is the exact one, rounded once and flushed.

R134: what Round gives, in the five modes of Table 35: the multiple of the spacing that the mode selects; on overflow an infinity or
the largest value with OF and NX, or the largest with SAT and NX in a narrow format; NX when inexact, UF when tiny after rounding and
inexact. (Where a narrow format overflows: the model's reading, log entry 80.) -/
def Obligations.FloatArithmetic : Prop :=
  (∀ (m : Fmt) (rm : Rnd) (neg : Bool) (k : Nat) (e : Int) (st : Bool) (x : ℚ), m.num ≤ 10 → k ≠ 0 → (k : ℚ) * 2 ^ e ≤ x →
    x < ((k : ℚ) + 1) * 2 ^ e → (st = true ↔ (k : ℚ) * 2 ^ e ≠ x) → (st = true → 2 ^ ((fpOf m).prec + 2) ≤ k) →
    RoundSpec m rm neg (Nat.log2 k + e) x (roundF m rm neg k e st)) ∧
  ∀ (s : State) (f : F) (m : Fmt) (rnd : Rnd),
    let rm := modeOf s.w.sp.fmode rnd
    let fm := s.w.sp.fmode
    (∃ r, s.Computes (.fadd f m rnd) f.d m.regs r ∧ ∀ l, SumSpec fm m rm (s.fval m f.a l) (s.fval m f.b l) (r l)) ∧
    (∃ r, s.Computes (.fsub f m rnd) f.d m.regs r ∧ ∀ l, SumSpec fm m rm (s.fval m f.a l) (s.fval m f.b l).negate (r l)) ∧
    (∃ r, s.Computes (.fmul f m rnd) f.d m.regs r ∧ ∀ l, ProductSpec fm m rm (s.fval m f.a l) (s.fval m f.b l) (r l)) ∧
    (∃ r, s.Computes (.ffma f m rnd) f.d m.regs r ∧ ∀ l,
      let x := s.fval m f.a l
      let y := s.fval m f.b l
      let z := s.fval m f.c l
      (x.isNan ∨ y.isNan ∨ z.isNan → r l = (nanBits m, if x.isSig ∨ y.isSig ∨ z.isSig then Fl.nv else 0)) ∧
      (¬ (x.isNan ∨ y.isNan ∨ z.isNan) → (x.isZero ∧ y.isInf ∨ x.isInf ∧ y.isZero) → r l = (nanBits m, Fl.nv)) ∧
      (¬ (x.isNan ∨ y.isNan ∨ z.isNan) → ¬ (x.isZero ∧ y.isInf ∨ x.isInf ∧ y.isZero) → SumSpec fm m rm (mulVal x y) z (r l))) ∧
    (∃ r, s.Computes (.fdiv f m rnd) f.d m.regs r ∧ ∀ l, QuotientSpec fm m rm (s.fval m f.a l) (s.fval m f.b l) (r l)) ∧
    (∃ r, s.Computes (.fsqrt f m rnd) f.d m.regs r ∧ ∀ l, RootSpec fm m rm (s.fval m f.a l) (r l)) ∧
    ∃ r, s.Computes (.fscale f m rnd) f.d m.regs r ∧ ∀ l, match s.fval m f.a l with
      | .nan q => r l = (nanBits m, if q then Fl.nv else 0)
      | .inf n => r l = (infBits m n, 0)
      | .fin n k e => Rounds fm m rm ((Val.fin n k e).rat * 2 ^ (s.opnd32 f.b l).toInt) n (r l)

/-- R141, R145, R146, R206: min and max return an operand in TotalOrder; `fclass` one bit; `frcp` and `frsq` are correctly
rounded; and the corners of `fexp2`, `flog2`, `fsin` and `fcos`: NaN, infinities, zeros, and the exact results. -/
def Obligations.FloatFunctions : Prop :=
  ∀ (s : State) (f : F) (m : Fmt) (rnd : Rnd),
    let rm := modeOf s.w.sp.fmode rnd
    let fm := s.w.sp.fmode
    s.Gives (.fmin f m) f.d m.regs (fun l =>
      cleanBits m (if totalLe m (s.fopnd m f.a l) (s.fopnd m f.b l) then s.fopnd m f.a l else s.fopnd m f.b l)) ∧
    s.Gives (.fmax f m) f.d m.regs (fun l =>
      cleanBits m (if totalLe m (s.fopnd m f.a l) (s.fopnd m f.b l) then s.fopnd m f.b l else s.fopnd m f.a l)) ∧
    s.Gives (.fclass f m) f.d 1 (fun l => 2 ^ classBit m (s.fopnd m f.a l)) ∧
    (∃ r, s.Computes (.frcp f rnd) f.d 1 r ∧ ∀ l, QuotientSpec fm .f32 rm (.fin false 1 0) (s.fval .f32 f.a l) (r l)) ∧
    (∃ r, s.Computes (.frsq f rnd) f.d 1 r ∧ ∀ l, match s.fval .f32 f.a l with
      | .nan q => r l = (nanBits .f32, if q then Fl.nv else 0)
      | .inf n => r l = if n then (nanBits .f32, Fl.nv) else (zeroBits .f32 false, 0)
      | .fin n k e => (k = 0 → r l = (infBits .f32 n, Fl.dz)) ∧ (k ≠ 0 → n = true → r l = (nanBits .f32, Fl.nv)) ∧
        (k ≠ 0 → n = false → ∃ (q : Nat) (g : Int) (st : Bool), 2 ^ 26 ≤ q ∧
          ((q : ℚ) * 2 ^ g) ^ 2 * (Val.fin n k e).rat ≤ 1 ∧ 1 < (((q : ℚ) + 1) * 2 ^ g) ^ 2 * (Val.fin n k e).rat ∧
          (st = true ↔ ((q : ℚ) * 2 ^ g) ^ 2 * (Val.fin n k e).rat ≠ 1) ∧ r l = roundFlush fm .f32 rm false q g st)) ∧
    (∃ r, s.Computes (.fexp2 f rnd) f.d 1 r ∧ ∀ l, match s.fval .f32 f.a l with
      | .nan q => r l = (nanBits .f32, if q then Fl.nv else 0)
      | .inf n => r l = (if n then zeroBits .f32 false else infBits .f32 false, 0)
      | .fin n k e => ∀ j : Int, -1000 ≤ j → j ≤ 1000 → (Val.fin n k e).rat = j → r l = roundFlush fm .f32 rm false 1 j false) ∧
    (∃ r, s.Computes (.flog2 f rnd) f.d 1 r ∧ ∀ l, match s.fval .f32 f.a l with
      | .nan q => r l = (nanBits .f32, if q then Fl.nv else 0)
      | .inf n => r l = if n then (nanBits .f32, Fl.nv) else (infBits .f32 false, 0)
      | .fin n k e => (k = 0 → r l = (infBits .f32 true, Fl.dz)) ∧ (k ≠ 0 → n = true → r l = (nanBits .f32, Fl.nv)) ∧
        ∀ j : Int, n = false → (Val.fin n k e).rat = 2 ^ j → Rounds fm .f32 rm j false (r l)) ∧
    (∃ r, s.Computes (.fsin f rnd) f.d 1 r ∧ ∀ l, match s.fval .f32 f.a l with
      | .nan q => r l = (nanBits .f32, if q then Fl.nv else 0)
      | .inf _ => r l = (nanBits .f32, Fl.nv)
      | .fin n k _ => k = 0 → r l = (zeroBits .f32 n, 0)) ∧
    ∃ r, s.Computes (.fcos f rnd) f.d 1 r ∧ ∀ l, match s.fval .f32 f.a l with
      | .nan q => r l = (nanBits .f32, if q then Fl.nv else 0)
      | .inf _ => r l = (nanBits .f32, Fl.nv)
      | .fin _ k _ => k = 0 → Rounds fm .f32 rm 1 false (r l)

/-- R143, R144, R207: `cclr` resets its crucible; `cadd` and `cfma` add one term per active lane (one in all when every
operand is scalar) to it, exactly: a finite term within ACC's range adds to ACC, one that leaves it sets OVF and lets ACC stand, an
infinity or a NaN sets its bit, and SEEN and NEG0 follow every term; `crd` writes what the crucible reads as, rounded once, to D and,
with CLR, resets it. Nothing else changes but %fflags; specifier zero as D discards what would be written (R173). -/
def Obligations.Crucibles : Prop :=
  ∀ (s : State) (f : F) (m : Fmt) (rnd : Rnd) (c : BitVec 2),
    (f.d = .c c → s.Issues (.cclr f) → s.active (.cclr f) ≠ 0 →
      exec (.cclr f) s = .next ((s.advanced (.cclr f)).setW ((s.advanced (.cclr f)).w.setC c.toNat .zero))) ∧
    (f.d = .zero → s.Issues (.cclr f) → s.active (.cclr f) ≠ 0 → exec (.cclr f) s = .next (s.advanced (.cclr f))) ∧
    (f.d = .zero → s.Issues (.cadd f m) → s.active (.cadd f m) ≠ 0 →
      exec (.cadd f m) s = .next ((s.advanced (.cadd f m)).orFlags ((termLanes (s.active (.cadd f m)) [f.a]).foldl
        (fun g l => g ||| if (s.fval m f.a l).isSig then Fl.nv else 0) 0))) ∧
    (f.d = .zero → s.Issues (.cfma f m) → s.active (.cfma f m) ≠ 0 →
      exec (.cfma f m) s = .next ((s.advanced (.cfma f m)).orFlags ((termLanes (s.active (.cfma f m)) [f.a, f.b]).foldl
        (fun g l => g ||| (crucTerm (s.fval m f.a l) (s.fval m f.b l)).2) 0))) ∧
    (f.d = .c c → s.Issues (.cadd f m) → s.active (.cadd f m) ≠ 0 →
      ∃ t, exec (.cadd f m) s = .next t ∧
        AddsTerms s t (.cadd f m) c.toNat (termLanes (s.active (.cadd f m)) [f.a]) (fun l => s.fval m f.a l)
          (fun l => if (s.fval m f.a l).isSig then Fl.nv else 0)) ∧
    (f.d = .c c → s.Issues (.cfma f m) → s.active (.cfma f m) ≠ 0 →
      ∃ t, exec (.cfma f m) s = .next t ∧
        AddsTerms s t (.cfma f m) c.toNat (termLanes (s.active (.cfma f m)) [f.a, f.b])
          (fun l => (crucTerm (s.fval m f.a l) (s.fval m f.b l)).1) (fun l => (crucTerm (s.fval m f.a l) (s.fval m f.b l)).2)) ∧
    (f.a = .c c →
      let r := (s.w.cruc c.toNat).read s.w.sp.fmode m (modeOf s.w.sp.fmode rnd)
      s.Computes (.crd f m rnd false) f.d m.regs (fun _ => r) ∧
      (s.Issues (.crd f m rnd true) → s.active (.crd f m rnd true) ≠ 0 →
        ∃ t, exec (.crd f m rnd true) s = .next (t.setW (t.w.setC c.toNat .zero)) ∧
          s.Wrote t (.crd f m rnd true) f.d m.regs (fun _ => r))) ∧
    (∀ (z : Cruc) (v : Val), AddsTerm z (z.addTerm v) v) ∧
    ∀ (z : Cruc) (fm : W32) (rm : Rnd), m = .f32 ∨ m = .f64 → CrucibleReads fm m rm z (z.read fm m rm)

/-- R147 to R149, R208 to R211: `cvt`, `pk` and `upk` write the conversion of each active lane's element, by Table 39 for formats 0
to 22; `cvtsr` rounds stochastically between the two neighbours of a value that its destination does not hold; `pk` keeps the other
elements of its word; `rand` writes Rand of the lane's own counter and counts it up in active lanes alone.

R134: a value of a format rounds to itself in every mode, without a flag but UF's condition: no NX, no overflow. -/
def Obligations.Conversions : Prop :=
  (∀ (s : State) (f : F) (dm sm : Fmt),
    let fm := s.w.sp.fmode
    let inFlushed (l : Nat) := flushIn fm sm (s.opnd f.a sm.regs l)
    (∃ r, r = (fun l => cvtBits fm (cvtMode fm f.c) dm sm (s.opnd f.a sm.regs l)) ∧ s.Computes (.cvt f dm sm) f.d dm.regs r ∧
      ∀ l, sm.num ≤ 22 → dm.num ≤ 22 → ConvertSpec fm (cvtMode fm f.c) dm
        (if sm.num ≤ 10 then .f (inFlushed l) else .i (elemInt sm (s.opnd f.a sm.regs l))) (r l)) ∧
    (∃ r, r = (fun l => cvtsrVal fm dm (s.opnd f.b 1 l) (inFlushed l)) ∧ s.Computes (.cvtsr f dm sm) f.d dm.regs r ∧
      ∀ l, sm.num ≤ 10 → dm.num ≤ 22 → StochasticSpec fm dm (s.opnd f.b 1 l) (inFlushed l) (r l)) ∧
    (∃ r, r = (fun l => pkBits fm dm sm (s.opnd f.d 1 l) (s.opnd f.a 1 l) (s.opnd f.c 1 l)) ∧ s.Computes (.pk f dm sm) f.d 1 r ∧ ∀ l, dm.bits ≤ 16 → dm.bits ≠ 6 →
      (∀ j < perWord dm, j ≠ s.opnd f.c 1 l % perWord dm → elemCode dm (r l).1 j = elemCode dm (s.opnd f.d 1 l) j) ∧
      ∃ x : Nat × Fl, elemCode dm (r l).1 (s.opnd f.c 1 l % perWord dm) = x.1 % 2 ^ dm.bits ∧ (r l).2 = x.2 ∧
        (sm.num ≤ 22 → dm.num ≤ 22 → ConvertSpec fm (rmOfCode (fm.toNat % 8)) dm
          (if sm.num ≤ 10 then .f (flushIn fm sm (s.opnd f.a 1 l)) else .i (elemInt sm (s.opnd f.a 1 l))) x)) ∧
    (∃ r, r = (fun l => upkBits fm dm sm (s.opnd f.a 1 l) (s.opnd f.c 1 l)) ∧ s.Computes (.upk f dm sm) f.d 1 r ∧ ∀ l, sm.num ≤ 22 → dm.num ≤ 22 →
      let code := elemCode sm (s.opnd f.a 1 l) (s.opnd f.c 1 l % perWord sm)
      ConvertSpec fm (rmOfCode (fm.toNat % 8)) dm (if sm.num ≤ 10 then .f (flushIn fm sm code) else .i (elemInt sm code)) (r l)) ∧
    ∀ w32 : Bool, (∀ r, f.d ≠ .s r) → s.Issues (.rand f w32) → s.active (.rand f w32) ≠ 0 →
      ∃ t u, exec (.rand f w32) s = .next t ∧ t.w = { u.w with sp := { u.w.sp with rng := t.w.sp.rng } } ∧
        t = { u with w := t.w } ∧
        s.Wrote u (.rand f w32) f.d (if w32 then 1 else 2) (fun l =>
          ((randBits s.b.gid s.w.idx l (s.opnd64 f.a l) (SMap.get s.w.sp.rng 0 l)).toNat, 0)) ∧
        ∀ l < 32, SMap.get t.w.sp.rng 0 l =
          SMap.get s.w.sp.rng 0 l + if (s.active (.rand f w32)).getLsbD l then 1 else 0) ∧
  (∀ (m : Fmt) (rm : Rnd) (bits : Nat) (n : Bool) (k : Nat) (e : Int), m.num ≤ 10 → bits < 2 ^ m.bits →
    decodeF m bits = .fin n k e → k ≠ 0 → (roundF m rm n k e false).bits = cleanBits m bits ∧ (roundF m rm n k e false).fl = 0)

/-- R212, R213: where `br`, `jmp`, `ret` and `brx` send the lanes of the run; a computed target that is misaligned or above
2^56 moves no lane and takes trap 0x04 or 0x05 with the target of the lowest such lane. -/
def Obligations.Transfers : Prop :=
  ∀ (s : State) (f : F) (x : X) (imm : BitVec 21) (n : BitVec 12),
    (s.Issues (.br f imm) → s.active (.br f imm) ≠ 0 →
      s.Transfers (.br f imm) (s.pc + 8) (fun _ => s.pc + 8 * imm.signExtend 64)) ∧
    (s.Issues (.brX x) → s.active (.brX x) ≠ 0 →
      s.Transfers (.brX x) (s.pc + 8) (fun _ => s.pc + 8 * x.imm.signExtend 64)) ∧
    (s.Issues (.brx f n) → s.Transfers (.brx f n) (s.pc + 8 * (1 + n.setWidth 64)) (fun l =>
      if 0 ≤ (s.opnd32 f.a l).toInt ∧ (s.opnd32 f.a l).toInt < n.toNat then s.pc + 8 * (1 + (s.opnd32 f.a l).setWidth 64)
      else s.pc + 8 * (1 + n.setWidth 64))) ∧
    ∀ i, i = Instr.jmp f ∨ i = Instr.ret f → s.Issues i → s.active i ≠ 0 →
      ((∀ l < 32, (s.active i).getLsbD l → (s.opnd64 f.a l).toNat % 8 = 0 ∧ (s.opnd64 f.a l).toNat < 2 ^ 56) →
        s.Transfers i (s.pc + 8) (fun l => s.opnd64 f.a l)) ∧
      (s.w.region = none → ∀ l < 32, (s.active i).getLsbD l →
        ((s.opnd64 f.a l).toNat % 8 ≠ 0 → (∀ m < l, (s.active i).getLsbD m → (s.opnd64 f.a m).toNat % 8 = 0) →
          exec i s = .next (s.trapWord (s.active i) (.of 4 (s.opnd64 f.a l) s.pc))) ∧
        ((∀ m < 32, (s.active i).getLsbD m → (s.opnd64 f.a m).toNat % 8 = 0) → 2 ^ 56 ≤ (s.opnd64 f.a l).toNat →
          (∀ m < l, (s.active i).getLsbD m → (s.opnd64 f.a m).toNat < 2 ^ 56) →
          exec i s = .next (s.trapWord (s.active i) (.of 5 (s.opnd64 f.a l) s.pc))))

/-- R213: `call` and its X form write PC + 8 to D in the active lanes and send them to their target. -/
def Obligations.Calls : Prop :=
  ∀ (s : State) (f : F) (x : X) (imm : BitVec 21),
    (s.Issues (.call f imm) → s.active (.call f imm) ≠ 0 → ∃ u t, exec (.call f imm) s = .next t ∧
      s.Wrote u (.call f imm) f.d 2 (fun _ => ((s.pc + 8).toNat, 0)) ∧
      MovedTo s u t fun l => if (s.active (.call f imm)).getLsbD l then s.pc + 8 * imm.signExtend 64 else s.pc + 8) ∧
    (s.Issues (.callX x) → s.active (.callX x) ≠ 0 → ∃ u t, exec (.callX x) s = .next t ∧
      s.Wrote u (.callX x) x.d 2 (fun _ => ((s.pc + 8).toNat, 0)) ∧
      MovedTo s u t fun l => if (s.active (.callX x)).getLsbD l then s.pc + 8 * x.imm.signExtend 64 else s.pc + 8)

/-- R214: `exit` takes the active lanes from the PC table for good and sends the others to PC + 8; the exit of the last lanes closes an
open region (R248), waits while an engine acts on the wave's view (R91), and ends the wave or, while launches it made run on, waits for
them (R243). In a handler of 0x08 or 0x11 any `exit` ends the wave, in one of 0x0C that of the last lanes, as `tret` would (R246).
The model's readings: the last exit gives the wave the flags of its operations that have been performed and drops what their
registers would get (R138, log entry 68); lanes that exit in another handler stay exited (log entry 18). -/
def Obligations.Exits : Prop :=
  ∀ (s : State) (f : F), s.Issues (.exit f) → s.active (.exit f) ≠ 0 →
    let act := s.active (.exit f)
    let ends : Prop := s.w.exited ||| act = BitVec.allOnes 32 ∨ ∃ fr ∈ s.w.frames, fr.cause = 0x08 ∨ fr.cause = 0x11
    let killed : Prop := ∃ fr ∈ s.w.frames, fr.cause = 0x08 ∨ fr.cause = 0x0C ∨ fr.cause = 0x11
    (¬ ends → ∃ t, exec (.exit f) s = .next t ∧
      t.w = { s.w with
        exited := s.w.exited ||| act, pc := t.w.pc, age := t.w.age, burst := t.w.burst, promo := t.w.promo, window := t.w.window
        pins := t.w.pins, begun := t.w.begun, stall := none, r := (s.advanced (.exit f)).w.r } ∧
      (∀ l < 32, t.w.pcAt l = if s.run.getLsbD l then s.pc + 8 else s.w.pcAt l) ∧ t = { s with w := t.w, inbox := t.inbox } ∧
      (s.replaying s.b.ctx = false → t.inbox = s.inbox)) ∧
    (ends → s.w.region ≠ none → exec (.exit f) s = .next s.closeRegion) ∧
    (ends → s.w.region = none → s.viewBusy = true → exec (.exit f) s = .next s) ∧
    (ends → s.w.region = none → s.viewBusy = false → killed →
      exec (.exit f) s = .next (({ s with w := { s.w with exited := s.w.exited ||| act } }).killWave s.w.key)) ∧
    let k := s.w.key
    let mine (r : Reply) : Bool := r.blk == k / 32 && r.wv == k % 32
    let u : State := { s with
      w := (s.replies.filter mine).foldl (fun w r => w.orFlags r.flags) { s.w with exited := BitVec.allOnes 32 }
      replies := s.replies.filter fun r => !mine r }
    let v : State := { u with w := { u.w with st := .ending, groups := [] } }
    s.w.exited ||| act = BitVec.allOnes 32 → s.w.region = none → s.viewBusy = false → ¬ killed →
      (u.launchesDone k = false → exec (.exit f) s = .next ((v.lanesGone (v.block (k / 32)).ctx).endingDue (k / 32))) ∧
      (u.launchesDone k = true → exec (.exit f) s = .next (u.finishWave k))

/-- R178 to R181: both slots of a pair word read before either writes; each writes its result in the lanes of the run where its
own guard holds, and nothing else changes but %fflags. The integer slots compute on 32 bits, the float slots on F32 as the F forms do
with RND 111. -/
def Obligations.PairWords : Prop :=
  ∀ (s : State) (a b : Slot), pairOk a b = true →
    (s.Issues (.pairWord a b) →
      let actA := s.run &&& s.w.guard a.g.full
      let actB := s.run &&& s.w.guard b.g.full
      let resA (l : Nat) := s.slotAt a (lowLane actA) l
      let resB (l : Nat) := s.slotAt b (lowLane actB) l
      ∃ t, exec (.pairWord a b) s = .next t ∧ t = (s.advanced (.pairWord a b)).withRegs t.w ∧
        (actA ≠ 0 → ∀ q l k, q.ok → a.d.full.part s.w actA 1 q = some (l, k) → t.w.reg q = (resA l).1 % 2 ^ q.bits) ∧
        (actB ≠ 0 → ∀ q l k, q.ok → b.d.full.part s.w actB 1 q = some (l, k) → t.w.reg q = (resB l).1 % 2 ^ q.bits) ∧
        (∀ q, q.ok → (actA ≠ 0 → a.d.full.part s.w actA 1 q = none) → (actB ≠ 0 → b.d.full.part s.w actB 1 q = none) →
          t.w.reg q = s.w.reg q) ∧
        t.w.sp.fflags = s.w.sp.fflags |||
          ((if actA = 0 then 0 else laneFlags (a.d.full.lanes actA) resA) |||
           (if actB = 0 then 0 else laneFlags (b.d.full.lanes actB) resB)).setWidth 32) ∧
    ∀ first l : Nat,
      let d := s.opnd32 a.d.full l
      let x := s.opnd32 a.a.full l
      let fm := s.w.sp.fmode
      let u := flushIn fm .f32 d.toNat
      let v := flushIn fm .f32 x.toNat
      match a.op with
      | .add => s.slotAt a first l = ((d + x).toNat, 0)
      | .sub => s.slotAt a first l = ((d - x).toNat, 0)
      | .mul => s.slotAt a first l = ((d * x).toNat, 0)
      | .and => s.slotAt a first l = ((d &&& x).toNat, 0)
      | .or => s.slotAt a first l = ((d ||| x).toNat, 0)
      | .xor => s.slotAt a first l = ((d ^^^ x).toNat, 0)
      | .shl => s.slotAt a first l = ((d <<< (x.toNat % 32)).toNat, 0)
      | .shr => s.slotAt a first l = ((d >>> (x.toNat % 32)).toNat, 0)
      | .sar => s.slotAt a first l = ((d.sshiftRight (x.toNat % 32)).toNat, 0)
      | .mov => s.slotAt a first l = (x.toNat, 0)
      | .movi6 => s.slotAt a first l = ((a.imm.signExtend 32).toNat, 0)
      | .min => s.slotAt a first l = ((if d.sle x then d else x).toNat, 0)
      | .max => s.slotAt a first l = ((if d.sle x then x else d).toNat, 0)
      | .lea => s.slotAt a first l = ((d + x <<< (a.imm.toNat % 8)).toNat, 0)
      | .popc => (s.slotAt a first l).1 = (List.range 32).countP fun k => x.getLsbD k
      | .bcast => s.slotAt a first l = (s.opnd a.a.full 1 (a.imm.toNat % 32), 0)
      | .rfal => s.slotAt a first l = (s.opnd a.a.full 1 first, 0)
      | .fadd => SumSpec fm .f32 (modeOf fm .dyn) u v (s.slotAt a first l)
      | .fsub => SumSpec fm .f32 (modeOf fm .dyn) u v.negate (s.slotAt a first l)
      | .fmul => ProductSpec fm .f32 (modeOf fm .dyn) u v (s.slotAt a first l)
      | .fmin => s.slotAt a first l = (cleanBits .f32 (if totalLe .f32 d.toNat x.toNat then d.toNat else x.toNat), 0)
      | .fmax => s.slotAt a first l = (cleanBits .f32 (if totalLe .f32 d.toNat x.toNat then x.toNat else d.toNat), 0)
      | .icmp => s.slotAt a first l = (bnum (match ICond.codes.getD a.imm.toNat .eq with
          | .eq => decide (x.toInt = 0)
          | .ne => decide (x.toInt ≠ 0)
          | .lt => decide (x.toInt < 0)
          | .le => decide (x.toInt ≤ 0)
          | .gt => decide (0 < x.toInt)
          | .ge => decide (0 ≤ x.toInt)), 0)
      | .fcmp => ∃ r : Bool × Fl, s.slotAt a first l = (bnum r.1, r.2) ∧
          CompareSpec fm .f32 (FCond.codes.getD a.imm.toNat .eq) x.toNat 0 r

/-! ### G6: memory -/

/-- R216 to R220, Table 57: a load whose accesses pass their checks writes the extended value of every lane's place to D, one
access in all when the destination is scalar; it stores nothing. -/
def Obligations.Loads : Prop :=
  ∀ (s : State) (b : Block) (p : Nat → Place) (i : Instr) (d : Opnd) (sz : Sz) (sp : Sp) (pin : Bool) (addr : Nat → W64),
    ((∃ f off, i = .ld f sz sp off ∧ d = f.d ∧ pin = false ∧ addr = s.laneAddr sp f.a (off.signExtend 64)) ∨
     (∃ f off, i = .ldn f sz sp off ∧ d = f.d ∧ pin = true ∧ addr = s.laneAddr sp f.a (off.signExtend 64)) ∨
     (∃ x : X, i = .ldX x ∧ d = x.d ∧ sz = .w32 ∧ sp = .g ∧ pin = false ∧ addr = s.laneAddr .g (.lat 0) (x.imm.signExtend 64))) →
    s.Issues i → s.active i ≠ 0 → s.Granted b (accLanes (s.active i) d) id .load sp sz.bytes true false pin addr p →
    ∃ t u, exec i s = .next t ∧
      s.Wrote u i d sz.regs (fun l => (sz.loaded (s.readPlace (p l) sz.bytes), 0)) ∧
      t = { u with b := b.marked ((accLanes (s.active i) d).map p), pf := t.pf, tokens := s.paidFor 0 ((accLanes (s.active i) d).map p) } ∧
      ∀ off, (∀ n < 16, off ≠ Pf.window n + 0x28) → t.pfNum off = s.pfNum off

/-- R216, R217, R220: a store whose accesses pass their checks leaves in every cell the byte of the highest lane that stores
there, and every other byte of memory as it was; it changes no register and no flag. What else a store may touch, and the
statement leaves open: the charges of the view's new lines (pool, group), poison that whole sectors clear, the bytes kept for running
phases, an open region's undo, the store count and CRC of a recorded wave; StoredOnly lists them. -/
def Obligations.Stores : Prop :=
  ∀ (s : State) (b : Block) (p : Nat → Place) (i : Instr) (d : Opnd) (sz : Sz) (sp : Sp) (pin : Bool) (addr : Nat → W64),
    ((∃ f off, i = .st f sz sp off ∧ d = f.d ∧ pin = false ∧ addr = s.laneAddr sp f.a (off.signExtend 64)) ∨
     (∃ f off, i = .stn f sz sp off ∧ d = f.d ∧ pin = true ∧ addr = s.laneAddr sp f.a (off.signExtend 64)) ∨
     (∃ x : X, i = .stX x ∧ d = x.d ∧ sz = .w32 ∧ sp = .g ∧ pin = false ∧ addr = s.laneAddr .g (.lat 0) (x.imm.signExtend 64))) →
    let act := s.active i
    s.Issues i → act ≠ 0 → s.Granted b (lanesOf act) id .store sp sz.bytes false true pin addr p →
    s.RoomToStore → ∃ t, exec i s = .next t ∧ s.StoredOnly t i b sz.bytes ((lanesOf act).map p) ∧ t.w.r = (s.advanced i).w.r ∧ t.w.sp = s.w.sp ∧
      (∀ l < 32, act.getLsbD l → ∀ k < sz.bytes, (∀ m < 32, l < m → act.getLsbD m → ∀ j < sz.bytes, (p m).cell j ≠ (p l).cell k) →
        t.peek ((p l).cell k) = some (BitVec.ofNat 8 (s.storeVal d sz l / 256 ^ k))) ∧
      ∀ c : MemCell, (∀ l < 32, act.getLsbD l → ∀ k < sz.bytes, (p l).cell k ≠ c) → t.peek c = s.peek c

/-- R217 step 1 and Table 58: when an active lane's address is no multiple of the access, a load, store or `atom` performs
nothing and takes trap 0x04 for the lowest such lane.

R96, R99, R103, R106, R109, R110, R233: a word that names a line that is no object of its kind, an arrival that R99 does not allow, a
release by a wave that does not hold the lock, or a sequence number that a queue's slot has passed takes trap 0x05 for the lowest such
lane; a lane-level word performs the operations of its other lanes first. -/
def Obligations.AccessTraps : Prop :=
  (∀ (s : State) (f : F) (sz : Sz) (sp : Sp) (off : BitVec 16) (op : AOp) (dt : DT) (i : Instr) (write : Bool) (n : Nat) (o : W64) (l : Nat),
    ((i = .ld f sz sp off ∨ i = .ldn f sz sp off) ∧ write = false ∧ n = sz.bytes ∧ o = off.signExtend 64 ∨
     (i = .st f sz sp off ∨ i = .stn f sz sp off) ∧ write = true ∧ n = sz.bytes ∧ o = off.signExtend 64 ∨
     i = .atom f op dt (sp == .sc) ∧ sp ≠ .dm ∧ write = true ∧ n = dt.bytes ∧ o = 0) →
    s.Issues i → s.w.region = none → l ∈ (if write then lanesOf (s.active i) else accLanes (s.active i) f.d) →
    (s.active i).getLsbD l → (s.laneAddr sp f.a o l).toNat % n ≠ 0 →
    (∀ m < l, (s.active i).getLsbD m → (s.laneAddr sp f.a o m).toNat % n = 0) →
    exec i s = .next (s.trapWord (s.active i) (.of 4 (accInfo 0 write sp l) (s.laneAddr sp f.a o l)))) ∧
  (∀ (s : State) (f : F) (dm : Bool) (scope : Scope),
    let va := s.objAddr dm f.a 0
    let loc := s.objLoc dm va
    let first (i : Instr) : Trap := .of 5 (accInfo 0 true (objSp dm) (lowLane (s.active i))) va
    (f.a ≠ .zero → loc ≠ blkLoc →
      ∀ i, (i = Instr.barv f dm scope ∨ i = .barw f dm scope ∨ i = .barwWait f dm scope) →
        s.LinesPass dm true (s.active i) [0] (fun _ => va) → s.Issues i → s.active i ≠ 0 → (loc % 64 ≠ 0 ∨ s.loc loc 1 ≠ 1) →
        exec i s = .next ((s.atBar dm f.a).trapWord (s.active i) (first i))) ∧
    (∀ i, (i = Instr.olacq f dm scope ∨ i = .olrel f dm scope ∨ i = .olrelPass f dm scope) →
      s.LinesPass dm true (s.active i) [0] (fun _ => va) →
      s.Issues i → s.active i ≠ 0 → (loc % 64 ≠ 0 ∨ s.loc loc 1 ≠ 3 ∨ s.loc (loc + 4) 4 ≤ s.opnd f.b 1 0) →
      exec i s = .next ((s.atLines dm [0] fun _ => va).trapWord (s.active i) (first i))) ∧
    (∀ i, (i = Instr.olacqFree f dm scope ∨ i = .olrelFree f dm scope) → s.LinesPass dm true (s.active i) [0] (fun _ => va) →
      s.Issues i → s.active i ≠ 0 → (loc % 64 ≠ 0 ∨ s.loc loc 1 ≠ 5 ∨ s.recorded s.b.ctx = false) →
      exec i s = .next ((s.atLines dm [0] fun _ => va).trapWord (s.active i) (first i))) ∧
    ∀ i l, i = Instr.fwait f dm scope → s.Issues i → s.active i ≠ 0 →
      s.LinesPass dm true (s.active i) (lanesOf (s.active i)) (s.objAddr dm f.a) →
      (s.active i).getLsbD l → l < 32 → s.isFlag (s.objLoc dm (s.objAddr dm f.a l)) = false →
      (∀ m < l, (s.active i).getLsbD m → s.isFlag (s.objLoc dm (s.objAddr dm f.a m)) = true) →
      exec i s = .next ((s.atLines dm (lanesOf (s.active i)) (s.objAddr dm f.a)).wake.trapWord (s.active i)
        (.of 5 (accInfo 0 true (objSp dm) l) (s.objAddr dm f.a l)))) ∧
  (∀ (s : State) (f : F) (dm : Bool) (scope : Scope) (i : Instr),
    let t := s.atBar dm f.a
    let loc := t.barLoc dm f.a
    let p := t.partOf f.a f.b
    let bad : Prop := loc ≠ blkLoc ∧ (t.bar s.w.blk loc).npart ≤ p.toNat ∨ 4 ≤ s.w.arrivals.length ∨
      i = .barv f dm scope ∧ ∃ a ∈ s.w.arrivals, a.loc = loc
    (i = .barv f dm scope ∨ i = .barw f dm scope ∧ ∀ a ∈ s.w.arrivals, a.loc = loc → a.again = false) →
      (if f.a = .zero then s.acqBusy [blkLoc] (lanesOf (s.active i)) = false
        else s.LinesPass dm true (s.active i) [0] (fun _ => s.objAddr dm f.a 0)) → s.Issues i → s.active i ≠ 0 → t.isBar loc = true → bad →
      exec i s = .next (t.trapWord (s.active i) (objTrap dm (lowLane (s.active i)) (t.barVa dm f.a)))) ∧
  (∀ (s : State) (f : F) (dm : Bool) (scope : Scope) (i : Instr),
    let va := s.objAddr dm f.a 0
    let loc := s.objLoc dm va
    let p := s.opnd f.b 1 0
    s.LinesPass dm true (s.active i) [0] (fun _ => va) → s.Issues i → s.active i ≠ 0 →
    (i = .olrel f dm scope ∧ (s.loc (loc + 1) 1 % 2 = 0 ∨ s.loc (loc + 0x10) 4 ≠ p ∨ (loc, false) ∉ s.w.grants) ∨
      i = .olrelFree f dm scope ∧ (loc, true) ∉ s.w.grants) →
    exec i s = .next ((s.atLines dm [0] fun _ => va).trapWord (s.active i) (objTrap dm (lowLane (s.active i)) va))) ∧
  (∀ (s : State) (f : F) (dm : Bool) (scope : Scope) (i : Instr) (l : Nat),
    let loc (l : Nat) : Nat := s.objLoc dm (s.objAddr dm f.a l)
    let good := (lanesOf (s.active i)).filter fun l => s.isFlag (loc l)
    i = .fpost f dm scope → s.Issues i → s.active i ≠ 0 → s.LinesPass dm true (s.active i) (lanesOf (s.active i)) (s.objAddr dm f.a) →
    s.releaseBusy [] (lanesOf (s.active i)) = false → l < 32 → (s.active i).getLsbD l → s.isFlag (loc l) = false →
    (∀ m < l, (s.active i).getLsbD m → s.isFlag (loc m) = true) →
    exec i s = .next ((good.foldl (fun (u : State) m => u.setLoc (loc m) 8 (max (u.loc (loc m) 8) (s.opnd f.b 2 m)))
      (s.atLines dm (lanesOf (s.active i)) (s.objAddr dm f.a))).wake.trapWord (s.active i) (objTrap dm l (s.objAddr dm f.a l)))) ∧
  (∀ (s : State) (f : F) (dm : Bool) (scope : Scope) (l : Nat),
    let loc (l : Nat) : Nat := s.objLoc dm (s.objAddr dm f.a l)
    let wt (k : WaitKind) (d : Opnd) (pay : Nat → List W32) (l : Nat) : WaitR :=
      ⟨k, l, loc l, s.objAddr dm f.a l, s.opnd64 f.b l, 0, d, laneBit l, pay l, false, false, [], s.pc⟩
    let traps (i : Instr) (pay : Opnd) (push : Bool) (mk : Nat → WaitR) : Prop :=
      let act := s.active i
      let t := s.atLines dm (lanesOf act) (s.objAddr dm f.a)
      let slot (l : Nat) : W64 := s.slotAddr (loc l) (s.opnd64 f.b l).toNat
      let qs := (lanesOf act).filter fun l => s.isQueue (loc l)
      s.Issues i → act ≠ 0 → s.LinesPass dm true act (lanesOf act) (s.objAddr dm f.a) → t.LinesPass dm true act qs slot →
      (∀ l ∈ qs, s.inBounds pay (s.payRegs (loc l)) 2 = true) →
      (∀ l ∈ lanesOf act, ∀ r ∈ pay.covers s.w (s.payRegs (loc l)), r ∉ s.pendingRegs) →
      (push = true → s.releaseBusy [] (lanesOf act) = false) →
      let r := laneOps (fun u l => u.queueOp push (mk l)) mk (lanesOf act) (t.atLines dm qs slot)
      r.2.2 = some l →
      exec i s = .next (((r.2.1.filter fun w => w.done).foldl State.writeRes r.1).wake.trapWord act (objTrap dm l (s.objAddr dm f.a l)))
    traps (.qpush f dm scope) f.c true (wt .push .zero fun l => bytesRegs (s.payRegs (loc l)) (s.opnd f.c (s.payRegs (loc l)) l)) ∧
    traps (.qpop f dm scope) f.d false (wt .pop (f.d.fixed s.w) fun l => List.replicate (s.payRegs (loc l)) 0)) ∧
  (∀ (s : State) (push : Bool) (r : WaitR),
    let sl := s.queueSlot s.b.ctx (s.dmBase s.w.blk) r.loc r.arg.toNat
    s.queueOp push r = .fail ↔ (r.loc % 64 ≠ 0 ∨ s.loc r.loc 1 ≠ 4) ∨
      (if push then pushChk (s.loc sl.1 8) r.arg.toNat else popChk (s.loc sl.1 8) r.arg.toNat) = .bad) ∧
  ∀ (op : State → Nat → LaneOp) (mk : Nat → WaitR) (l : Nat) (ls : List Nat) (s : State),
    let r := laneOps op mk ls s
    op s l = .fail → laneOps op mk (l :: ls) s = (r.1, r.2.1, some l)

/-- R221 to R223, R249: `touch` pins the page of every active lane for the window, or takes trap 0x03 of KIND 1 at the first
lane that would pin a ninth page; the 64th issue event after the opening `touch` closes the window, so a `touch` there opens a new
one. `pf` and `cachectl` change nothing but what an issue event does. -/
def Obligations.PinsAndCacheHints : Prop :=
  ∀ (s : State) (f : F) (off : BitVec 16),
    (∀ lvl : PfLvl, s.Issues (.pf f lvl off) → exec (.pf f lvl off) s = .next (s.advanced (.pf f lvl off))) ∧
    (∀ op : CacheOp, s.Issues (.cachectl f op) → exec (.cachectl f op) s = .next (s.advanced (.cachectl f op))) ∧
    ∀ (wr : Bool) (pin : Nat → Pin),
      let i := Instr.touch f wr off
      let act := s.active i
      let addr := s.laneAddr .g f.a (off.signExtend 64)
      s.Issues i → act ≠ 0 → (∀ l < 32, act.getLsbD l → ∃ q, s.touchChk (addr l) wr = (.ok q, pin l)) →
      let open_ : List Pin := if s.w.window = some 1 then [] else s.w.pins
      let all := (lanesOf act).foldl (fun ps l => addPin (pin l) ps) open_
      (open_.length ≤ 8 → all.length ≤ 8 →
        exec i s = .next ((s.setW { s.w with pins := all, window := some (match s.w.window with
          | some (n + 2) => n + 2
          | _ => 65) }).retire s i act true)) ∧
      ∀ l < 32, act.getLsbD l → s.w.region = none → open_.length ≤ 8 →
        (((lanesOf act).filter (· ≤ l)).foldl (fun ps l => addPin (pin l) ps) open_).length = 9 →
        (((lanesOf act).filter (· < l)).foldl (fun ps l => addPin (pin l) ps) open_).length ≤ 8 →
        exec i s = .next (s.trapWord act (.of 3 (BitVec.ofNat 64 (256 + (if wr then 32 else 0) + l)) (addr l)))

/-- R230, R231: `atom` reads, operates and writes each active lane's place as one access; a lane that shares its
place with no other gets the old value in D and leaves the new one. Every other cell stands.

R230: the new value of every operation of Table 65 by its operands: sums, minima and maxima by the type, the bits of the logic ones,
swap, compare and swap, load and store. (A float constant as the operand of a float type: the model's reading, log entry 102.) -/
def Obligations.Atomics : Prop :=
  (∀ (s : State) (b : Block) (p : Nat → Place) (f : F) (op : AOp) (dt : DT) (sc : Bool),
    let i := Instr.atom f op dt sc
    let act := s.active i
    let sp : Sp := if sc then .sc else .g
    let alone (l : Nat) : Prop := ∀ m < 32, m ≠ l → act.getLsbD m → ∀ j < dt.bytes, ∀ k < dt.bytes, (p m).cell j ≠ (p l).cell k
    let new (l : Nat) : Nat × Fl := aluOp op dt s.w.sp.fmode (s.readPlace (p l) dt.bytes)
      (s.dtOpnd dt f.b l) (s.dtOpnd dt f.c l)
    s.Issues i → act ≠ 0 → (∀ r, f.d ≠ .s r) → (∀ l < 32, act.getLsbD l → (p l).writable) →
    s.Granted b (lanesOf act) id .atom sp dt.bytes true true false (s.laneAddr sp f.a 0) p → s.RoomToStore →
    ∃ t, exec i s = .next t ∧ s.StoredOnly t i b dt.bytes ((lanesOf act).map p) ∧
      (∀ l < 32, act.getLsbD l → alone l →
        (∀ q k, q.ok → f.d.part s.w act dt.regs q = some (l, k) → t.w.reg q = s.readPlace (p l) dt.bytes / 2 ^ (32 * k) % 2 ^ q.bits) ∧
        ∀ k < dt.bytes, t.peek ((p l).cell k) = some (BitVec.ofNat 8 ((new l).1 / 256 ^ k))) ∧
      ((∀ l < 32, act.getLsbD l → alone l) → t.w.sp.fflags = s.w.sp.fflags ||| (laneFlags (lanesOf act) new).setWidth 32) ∧
      t.w.r = { (s.advanced i).w.r with s := t.w.r.s, v := t.w.r.v, p := t.w.r.p, i := t.w.r.i } ∧
      t.w.sp = { s.w.sp with fflags := t.w.sp.fflags } ∧
      (∀ q, q.ok → f.d.part s.w act dt.regs q = none → t.w.reg q = s.w.reg q) ∧
      ∀ c : MemCell, (∀ l < 32, act.getLsbD l → ∀ k < dt.bytes, (p l).cell k ≠ c) → t.peek c = s.peek c) ∧
  ∀ (op : AOp) (dt : DT) (fmode : W32) (old b c : Nat), old < 2 ^ (8 * dt.bytes) → b < 2 ^ (8 * dt.bytes) →
    AtomicSpec op dt fmode old b c (aluOp op dt fmode old b c)

/-- R231, R248: `red` folds every active lane's operand, in lane order, into the partial of its element of a fold page in the wave's
view, and into what an open region holds; no byte of memory and no register changes.

R53: the partial of an element after one operand holds what it held and the operand; partials of views combine element by element. -/
def Obligations.Reductions : Prop :=
  (∀ (s : State) (f : F) (op : AOp) (dt : DT) (va pa fop : Nat → Nat),
    let i := Instr.red f op dt
    let act := s.active i
    s.Issues i → act ≠ 0 → s.RoomToStore →
    (∀ l < 32, act.getLsbD l → s.check .red .g (s.laneAddr .g f.a 0 l) dt.bytes true = .ok (.fold (va l) (pa l) (fop l)) ∧
      (foldOp (fop l)).op = op ∧ dt ∈ (foldOp (fop l)).dts) →
    let into (v : View) : View := (lanesOf act).foldl (fun v l => v.red (fop l) (va l) (s.dtOpnd dt f.b l)) v
    ∃ t, exec i s = .next t ∧
      t.w = { (s.advanced i).w with view := into s.w.view, region := s.w.region.map fun r => { r with held := into r.held } } ∧
      t = { s with w := t.w, grps := t.grps, pool := t.pool }) ∧
  ∀ op : Nat, fopOk op = true →
    let w := 8 * (foldOp op).width
    (∀ (v : View) (va x : Nat), x < 2 ^ w →
      let v' := v.red op va x
      (∀ b ≠ va, SMap.find? v'.parts b = SMap.find? v.parts b) ∧ v' = { v with parts := v'.parts, charge := v'.charge } ∧
      (SMap.find? v.parts va = none → v'.charge = v.charge + (foldOp op).record ∧ ∃ q, SMap.find? v'.parts va = some q ∧ PartHolds op [x] q) ∧
      ∀ p xs, SMap.find? v.parts va = some p → xs ≠ [] → (∀ y ∈ xs, y < 2 ^ w) → PartHolds op xs p →
        v'.charge = v.charge ∧ ∃ q, SMap.find? v'.parts va = some q ∧ PartHolds op (xs ++ [x]) q) ∧
    (∀ (p q : Part) (xs ys : List Nat), xs ≠ [] → ys ≠ [] → (∀ y ∈ xs ++ ys, y < 2 ^ w) → PartHolds op xs p → PartHolds op ys q →
      PartHolds op (xs ++ ys) (p.combine q)) ∧
    ∀ (p q : SMap Part) (va : Nat), SMap.rising none q = true →
      SMap.find? (combineParts p q) va = match SMap.find? p va, SMap.find? q va with
        | some x, some y => some (x.combine y)
        | some x, none => some x
        | none, y => y

/-! ### G7: engine commands and tags -/

/-- R224 to R228: a `gth`, `xld`, `sct`, `cst` or `cpy` that is issued as a whole hands the engine one command with one element
per active lane (per unit of every row for `cpy`), under the tag and the barrier of its completion word; `cst` writes the count
of active lanes to D. The bytes move later. -/
def Obligations.EngineCommands : Prop :=
  ∀ (s : State) (b : Block) (f : F) (sz : Sz) (sp : Sp) (fl : Bool) (sc : Scope) (tag bar : Option Nat),
    s.w.sp.cprog = 0 → (∀ e ∈ s.w.begun, e.1 ≠ s.pc) →
    (∀ i, i = Instr.gth f sz sp fl sc → s.Issues i → s.active i ≠ 0 →
      s.checkCw (s.opnd64 f.c 0) (lowLane (s.active i)) = .ok tag bar →
      let ms := (lanesOf (s.active i)).map fun l => (⟨.mem sp (s.laneAddr sp f.a 0 l), .reg (f.d.fixed s.w) l sz, sz.bytes⟩ : Move)
      s.MovesPass b ms → ∃ t, exec i s = .next t ∧ s.Sends t i b ms [] (s.opnd64 f.c 0) tag bar false ∧ t.w.r = (s.advanced i).w.r) ∧
    (∀ i, i = Instr.xld f sz sp fl sc → s.Issues i → s.active i ≠ 0 →
      s.checkCw (s.opnd64 f.c 0) (lowLane (s.active i)) = .ok tag bar →
      let ms := (lanesOf (s.active i)).zipIdx.map fun e =>
        (⟨.mem sp (s.laneAddr sp f.a (BitVec.ofNat 64 (e.2 * sz.bytes)) (lowLane (s.active i))), .reg (f.d.fixed s.w) e.1 sz, sz.bytes⟩ : Move)
      s.MovesPass b ms → ∃ t, exec i s = .next t ∧ s.Sends t i b ms [] (s.opnd64 f.c 0) tag bar false ∧ t.w.r = (s.advanced i).w.r) ∧
    (∀ i, i = Instr.sct f sz sp fl sc → s.Issues i → s.active i ≠ 0 →
      s.checkCw (s.opnd64 f.c 0) (lowLane (s.active i)) = .ok tag bar →
      let ms := (lanesOf (s.active i)).map fun l =>
        (⟨.data (leBytes sz.bytes (s.opnd f.b sz.regs l)), .mem sp (s.laneAddr sp f.a 0 l), sz.bytes⟩ : Move)
      s.MovesPass b ms → ∃ t, exec i s = .next t ∧ s.Sends t i b ms [] (s.opnd64 f.c 0) tag bar fl ∧ t.w.r = (s.advanced i).w.r) ∧
    (∀ i, i = Instr.cst f sz sp fl sc → (f.d = .zero ∨ ∃ r, f.d = .s r) → s.Issues i → s.active i ≠ 0 →
      s.checkCw (s.opnd64 f.c 0) (lowLane (s.active i)) = .ok tag bar →
      let ms := (lanesOf (s.active i)).zipIdx.map fun e =>
        (⟨.data (leBytes sz.bytes (s.opnd f.b sz.regs e.1)),
          .mem sp (s.laneAddr sp f.a (BitVec.ofNat 64 (e.2 * sz.bytes)) (lowLane (s.active i))), sz.bytes⟩ : Move)
      s.MovesPass b ms → ∃ t, exec i s = .next t ∧ s.Sends t i b ms [] (s.opnd64 f.c 0) tag bar fl ∧
        (∀ r, f.d = .s r → t.w.reg (.s r.toNat) = countLanes (s.active i)) ∧
        ∀ q, (∀ r, f.d = .s r → q ≠ .s r.toNat) → t.w.reg q = s.w.reg q) ∧
    ∀ (acq : Bool) (i : Instr) (p : Place) (c : Ccb), i = Instr.cpy f acq fl sc → s.Issues i → s.active i ≠ 0 →
      let l := lowLane (s.active i)
      let va := s.opnd64 f.a l
      s.Granted s.b [l] id .load .g 64 true false false (fun _ => va) (fun _ => p) →
      Ccb.of (leBytes 64 (s.readPlace p 64)) = some c → s.checkCw c.cw l = .ok tag bar →
      let ms := (List.range c.rows).flatMap c.row
      s.MovesPass b ms → ∃ t, exec i s = .next t ∧ s.Sends t i b ms [p] c.cw tag bar fl ∧ t.w.r = (s.advanced i).w.r

/-- R24, R229: `tagwait` parks the whole run, its lanes with a false guard too (the model's reading, log entry 70), until its tags are ready; `tagffr` writes the lowest ready tag of its mask, or 64;
`tagclr` clears the ready bits of idle tags in its mask alone. -/
def Obligations.CopyTags : Prop :=
  ∀ (s : State) (f : F) (imm : BitVec 16) (any : Bool),
    (let i := Instr.tagwait f any imm
     let m := s.tagMask f.a imm
     s.Issues i → s.active i ≠ 0 → exec i s = .next (s.finishes (s.park s.run
       [⟨.tag, lowLane (s.active i), 0, 0, m, if any ∧ m ≠ 0 then 1 else 0, .zero, s.active i, [], false, false, [], s.pc⟩] false) i false)) ∧
    ((f.d = .zero ∨ ∃ r, f.d = .s r) → ∃ x : Nat, s.Gives (.tagffr f) f.d 1 (fun _ => x) ∧
      let m : W64 := s.b.tagready &&& if f.a = .zero then BitVec.allOnes 64 else s.opnd64 f.a 0
      (m = 0 → x = 64) ∧ (m ≠ 0 → m.getLsbD x = true ∧ ∀ k < x, m.getLsbD k = false)) ∧
    (s.Issues (.tagclr f imm) → s.active (.tagclr f imm) ≠ 0 →
      ∃ r : W64, exec (.tagclr f imm) s = .next ((s.advanced (.tagclr f imm)).setB { s.b with tagready := r }) ∧
        ∀ k < 64, r.getLsbD k = (s.b.tagready.getLsbD k && !((s.tagMask f.a imm).getLsbD k && SMap.get s.b.inflight 0 k == 0)))

/-! ### G8: ordered and free atomics -/

/-- R80, R81, R231: `aord` performs nothing at its issue. Every active lane hands one request to the round of its barrier, with
the lane's issuer index, and a destination awaits its delivery; no memory and no register changes.

R80: a round applies its requests in ascending issuer index, each one once, and then holds none; R230, R231: a request
leaves what its operation gives at its location and answers the old value; R401: one that reads a poisoned location performs nothing
and answers the poison. -/
def Obligations.OrderedAtomics : Prop :=
  (∀ (s : State) (f : F) (op : AOp) (dt : DT) (dm acq rel : Bool) (scope : Scope) (b : Block) (p : Nat → Place),
    let i := Instr.aord f op dt dm acq rel scope
    let act := s.active i
    let bar := s.objLoc dm (s.objAddr dm f.c 0)
    let round : W64 := match s.w.arrivals.find? fun a => a.loc == bar with
      | some a => a.phase + 1
      | none => (s.bar s.w.blk bar).phase
    let dst := if op = .store then .zero else f.d.fixed s.w
    let va := s.laneAddr (objSp dm) f.a 0
    let u : State := { s with b := b.marked ((lanesOf act).map p), tokens := s.paidFor dt.bytes ((lanesOf act).map p) }
    s.Issues i → act ≠ 0 → s.Granted b (lanesOf act) id .obj (objSp dm) dt.bytes true true false va p →
    u.LinesPass dm true act [0] (fun _ => s.objAddr dm f.c 0) → bar % 64 = 0 → s.loc bar 1 = 1 →
    s.reqWaits [bar] rel dt.bytes (lanesOf act) ((lanesOf act).map fun l => (l, va l, p l)) = false →
    (∀ l ∈ lanesOf act, s.spillFull (p l).loc = false) →
    ∃ (t : State) (qs : List Req), exec i s = .next t ∧ qs.map (·.lane) = lanesOf act ∧
      qs.map (·.id) = (List.range qs.length).map (s.ids + 1 + ·) ∧
      (∀ q ∈ qs, q.src = s.homeOf.1 ∧ q.word = s.ids ∧ q.acq = acq ∧ q.ctx = s.b.ctx ∧ q.blk = s.w.blk ∧ q.wv = s.w.idx ∧ q.bar = bar ∧
        q.round = round ∧ q.bva = (if dm then none else some (s.objAddr dm f.c 0).toNat) ∧ q.loc = (p q.lane).loc ∧ q.op = op ∧
        q.dt = dt ∧ q.b = BitVec.ofNat 64 (s.dtOpnd dt f.b q.lane) ∧ q.dst = dst ∧ q.held = false ∧ q.spilled = false ∧
        q.index = idKey s.b.gid [s.w.idx, q.lane, (s.reqs.filter fun x =>
          x.blk == s.w.blk && x.wv == s.w.idx && x.lane == q.lane && x.bar == bar && x.round == round).length]) ∧
      t = { s with
        w := { (s.advanced i).w with pending := s.w.pending ++ if dst = .zero then [] else qs.map fun _ => (dst, dt.regs) }
        b := if dm then u.b else { u.b with live := true }
        tokens := u.paidFor 64 (u.objLines dm [0] fun _ => s.objAddr dm f.c 0)
        reqs := s.reqs ++ qs
        inbox := s.inbox ++ qs.map fun q => .roundRequestArrive q.id
        ids := s.ids + 1 + qs.length }) ∧
  ((∀ (s : State) (loc : Nat) (phase : W64),
    let mine (q : Req) : Bool := q.bar == loc && q.round == phase
    ∃ rs : List Req, rs.Perm (s.reqs.filter mine) ∧ rs.Pairwise (fun x y => gidLt y.index x.index = false) ∧
      s.applyRound loc phase = rs.foldl State.applyReq { s with reqs := s.reqs.filter fun q => !mine q }) ∧
  ∀ (s : State) (q : Req),
    let old := s.loc q.loc q.dt.bytes
    let r := aluOp q.op q.dt q.fmode old q.b.toNat q.c.toNat
    let t := s.applyReq q
    let bad : Prop := q.op ≠ .store ∧ s.poisoned q.loc q.dt.bytes = true
    (¬ bad → q.op ≠ .load → ∀ k < q.dt.bytes, t.peek (locCell q.loc k) = some (BitVec.ofNat 8 (r.1 / 256 ^ k))) ∧
    (∀ c, (bad ∨ q.op = .load ∨ ∀ k < q.dt.bytes, locCell q.loc k ≠ c) → t.peek c = s.peek c) ∧
    ∃ x : Reply, t.replies = s.replies ++ [x] ∧ t.inbox = s.inbox ++ [.memoryReply x.id] ∧ x.blk = q.blk ∧ x.wv = q.wv ∧ x.lane = q.lane ∧
      x.src = locDie q.loc ∧ x.word = q.word ∧ x.acq = q.acq ∧ x.dst = q.dst ∧ (bad → x.poison = some q.loc) ∧
      (¬ bad → x.poison = none ∧ x.flags = r.2 ∧ (q.dst ≠ .zero → x.regs = bytesRegs q.dt.regs old)))

/-- R94, R121, R231: in a context of recorded mode `afree` hands one request per active lane to the order gates and performs
nothing itself; without recorded mode it takes trap 0x05. -/
def Obligations.FreeRequests : Prop :=
  ∀ (s : State) (f : F) (op : AOp) (dt : DT) (dm acq rel : Bool) (scope : Scope) (b : Block) (p : Nat → Place),
    let i := Instr.afree f op dt dm acq rel scope
    let act := s.active i
    let va := s.laneAddr (objSp dm) f.a 0
    let dst := if op = .store then .zero else f.d.fixed s.w
    let u : State := { s with b := b.marked ((lanesOf act).map p), tokens := s.paidFor dt.bytes ((lanesOf act).map p) }
    s.Issues i → act ≠ 0 → s.Granted b (lanesOf act) id .obj (objSp dm) dt.bytes true true false va p →
    (s.recorded s.b.ctx = true → s.reqWaits [] rel dt.bytes (lanesOf act) ((lanesOf act).map fun l => (l, va l, p l)) = false →
      ∃ (t : State) (qs : List Req), exec i s = .next t ∧ qs.map (·.lane) = lanesOf act ∧
        qs.map (·.id) = (List.range qs.length).map (s.ids + 1 + ·) ∧
        (∀ q ∈ qs, q.src = s.homeOf.1 ∧ q.word = s.ids ∧ q.acq = acq ∧ q.ctx = s.b.ctx ∧ q.blk = s.w.blk ∧ q.wv = s.w.idx ∧ q.loc = (p q.lane).loc ∧ q.va = va q.lane ∧ q.op = op ∧ q.dt = dt ∧
          q.b = BitVec.ofNat 64 (s.dtOpnd dt f.b q.lane) ∧
          q.c = BitVec.ofNat 64 (s.dtOpnd dt f.c q.lane) ∧ q.dst = dst ∧ q.lock = false) ∧
        t = { s with
          w := { (s.advanced i).w with pending := s.w.pending ++ if dst = .zero then [] else qs.map fun _ => (dst, dt.regs) }
          b := u.b
          tokens := u.tokens
          gate := s.gate ++ qs
          inbox := s.inbox ++ qs.map fun q => .gateAdmit q.id
          ids := s.ids + 1 + qs.length }) ∧
    (s.recorded s.b.ctx = false → s.w.region = none → exec i s = .next (s.trapWord act
      (.of 5 (accInfo 0 true (objSp dm) (lowLane act)) (va (lowLane act)))))

/-! ### G9: synchronisation objects -/

/-- R98 to R100, R234: `barv` arrives; `barw` arrives and its run waits; its wait form waits on an arrival that stands; the
init form writes the line of an open phase 0.

R99 at a line: an arrival that is not the last adds itself, its participant's HIGH and its expected bytes; the one that
completes the phase with every expected byte landed opens the next phase. A byte that lands counts, and the completing one opens
the next phase too. The wave's set gains the arrival.

R41, R47, R49, R73, R102, R248 at the block barrier: its close folds the waves' views in ascending wave order, byte by byte, into the
block's, gives each wave a new view, clears every race tag, counts the waves that have not ended as the participants of the next
phase, and answers a conflict with trap 0x07 in the higher wave, or in the lowest that has not ended; where all have, the conflict is
carried. A wave that has exited and awaits its launches counts as ended there, by the model's choice (log entry 121). What an open
region holds is not folded: it stands in the new view. The close waits for forks and for commands on a view. -/
def Obligations.Barriers : Prop :=
  (∀ (s : State) (f : F) (dm : Bool) (scope : Scope),
    let t := s.atBar dm f.a
    let loc := t.barLoc dm f.a
    let va := t.barVa dm f.a
    let p := t.partOf f.a f.b
    let through (reads : Bool) (i : Instr) : Prop := if f.a = .zero then s.acqBusy [blkLoc] (lanesOf (s.active i)) = false
      else s.LinesPass dm reads (s.active i) [0] (fun _ => s.objAddr dm f.a 0)
    let passes := through true
    (∀ i, i = Instr.barv f dm scope → passes i → s.Issues i → s.active i ≠ 0 → t.arriveBad loc p = false →
      t.arriveWaits loc (s.active i) = false →
      exec i s = .next (s.finishes (t.arrive s.w.key loc va p (t.opnd64 f.c 0) s.pc s.run (s.active i)).wake i true)) ∧
    (∀ i, i = Instr.barw f dm scope → passes i → s.Issues i → s.active i ≠ 0 → (∀ a ∈ s.w.arrivals, a.loc ≠ loc) →
      t.arriveBad loc p = false → t.arriveWaits loc (s.active i) = false →
      let u := t.arrive s.w.key loc va p (t.opnd64 f.c 0) s.pc s.run (s.active i)
      ∀ a, u.arrivalAt loc = some a → exec i s = .next (s.finishes (u.waitArrival a f.d (s.active i)).wake i false)) ∧
    (∀ i a, (i = Instr.barwWait f dm scope ∨ i = .barw f dm scope ∧ a.again = true) → passes i → s.Issues i → s.active i ≠ 0 →
      t.isBar loc = true →
      t.arrivalAt loc = some a → exec i s = .next (s.finishes (t.waitArrival a f.d (s.active i)) i false)) ∧
    ∀ i, i = Instr.barvInit f dm scope → through false i → s.Issues i → s.active i ≠ 0 →
      let n := t.opnd f.b 1 0
      f.a ≠ .zero → loc ≠ blkLoc → loc % 64 = 0 → 1 ≤ n → n ≤ 0xFFFFFFFE →
      exec i s = .next (s.finishes (t.initLine loc ({ Bar.zero with npart := n }).line) i true)) ∧
  (∀ (s : State) (k loc : Nat) (va : W64) (p : W32) (e word : W64) (run act : Mask),
    loc % 64 = 0 → loc ≠ blkLoc → (∀ q ∈ s.reqs, q.bar ≠ loc) → s.w.st ≠ .absent → s.w.key = k →
    let h := k / 32
    let b := s.bar h loc
    let t := s.arrive k loc va p e word run act
    let high := if b.high = 0xFFFFFFFF ∨ b.high < p then p else b.high
    b.arrived + 1 < 2 ^ 32 →
    (b.arrived + 1 ≠ b.npart → t.bar h loc = { b with arrived := b.arrived + 1, high := high, expect := b.expect + e } ∧
      ∃ a ∈ t.w.arrivals, a.loc = loc ∧ a.phase = b.phase ∧ a.p = p ∧ a.closed = none) ∧
    (b.arrived + 1 = b.npart → b.ovr = false → b.landed = b.expect + e →
      t.bar h loc = { b with phase := b.phase + 1, arrived := 0, high := 0xFFFFFFFF, expect := 0, landed := b.landnext, landnext := 0 } ∧
      ∃ a ∈ t.w.arrivals, a.loc = loc ∧ a.phase = b.phase ∧ a.p = p ∧ a.closed = some high) ∧
    (b.arrived + 1 = b.npart → b.ovr = false → b.expect + e < b.landed → (t.bar h loc).ovr = true ∧ (t.bar h loc).phase = b.phase) ∧
    ∀ n : Nat,
      (s.land h loc n true).bar h loc = { b with landnext := b.landnext + BitVec.ofNat 64 n } ∧
      (b.arrived ≠ b.npart → (s.land h loc n false).bar h loc = { b with landed := b.landed + BitVec.ofNat 64 n }) ∧
      (b.arrived = b.npart → b.ovr = false → b.landed + BitVec.ofNat 64 n = b.expect →
        (s.land h loc n false).bar h loc =
          { b with phase := b.phase + 1, arrived := 0, high := 0xFFFFFFFF, expect := 0, landed := b.landnext, landnext := 0 })) ∧
  ∀ (s : State) (h : Nat), (s.block h).st ≠ .absent → (s.wavesOf h).Nodup → (∀ q ∈ s.reqs, q.bar ≠ blkLoc) →
    let b := s.block h
    let bar := s.bar h blkLoc
    let ks := s.wavesOf h
    let t := s.checkClose h blkLoc
    let old (k : Nat) : View := match (s.wave k).region with
      | some r => r.view
      | none => (s.wave k).view
    let f := ks.foldl (fun f k => f.member (k % 32) (old k).bytes (s.overByte b.ctx (overlayOn b.start b.view))) Fold.empty
    ((∀ k ∈ ks, SMap.rising none (old k).bytes = true) →
      FoldsTo ks (· % 32) (fun k => (old k).bytes) (fun _ => s.overByte b.ctx (overlayOn b.start b.view)) (fun _ => []) f) ∧
    (bar.arrived ≠ bar.npart ∨ bar.ovr = true ∨ (∃ k ∈ ks, s.keepsOpen k = true) ∨ bar.landed < bar.expect → t = s) ∧
    (∀ k, s.keepsOpen k = true ↔ (s.wave k).st ≠ .ended ∧ (s.wave k).fork ≠ none ∨ s.viewBusyOf (k / 32) (k % 32) = true) ∧
    (bar.arrived = bar.npart → bar.ovr = false → (∀ k ∈ ks, s.keepsOpen k = false) → bar.landed = bar.expect →
      let live := ks.filter fun k => (s.wave k).st != .ended
      t.bar h blkLoc = { bar with npart := live.length, phase := bar.phase + 1, arrived := 0, high := 0xFFFFFFFF, expect := 0,
                                  landed := bar.landnext, landnext := 0 } ∧
      (t.block h).wtag = [] ∧ (t.block h).rtag = [] ∧ (t.block h).view = SMap.over b.view f.bytes ∧ t.mem = s.mem ∧
      (∀ k ∈ ks,
        ((s.wave k).region = none → (t.wave k).view = { View.empty with vis := (t.block h).vis }) ∧
        (∀ r, (s.wave k).region = some r →
          (t.wave k).view = { View.empty with vis := (t.block h).vis, bytes := r.held.bytes, lines := r.held.lines, parts := r.held.parts,
                                              charge := (s.wave k).view.charge - r.view.charge } ∧
          (t.wave k).region = some { r with view := { View.empty with vis := (t.block h).vis } }) ∧
        (t.wave k).st = (s.wave k).st ∧
        (t.wave k).arrivals = (s.wave k).arrivals.map (closeArr blkLoc bar.phase bar.high) ∧
        (t.wave k).groups = closeGroups blkLoc bar.phase bar.high (s.wave k).groups) ∧
      let out (k : Nat) : Bool := (s.wave k).st == .ended || (s.wave k).st == .ending
      (f.confl = [] ∨ (∀ k ∈ ks, out k = true) → ∀ k ∈ ks, (t.wave k).pend = (s.wave k).pend) ∧
      ((∀ k ∈ ks, out k = true) → (t.block h).carried = b.carried ++ f.confl.map Prod.fst) ∧
      ((∃ k ∈ ks, out k = false) → (t.block h).carried = b.carried ∧ ∀ r x l, f.record = some r → f.confl = x :: l →
        let k := if out (32 * h + x.2.2) then (ks.filter fun k => !out k).headD (32 * h + x.2.2) else 32 * h + x.2.2
        (∃ u : Trap, u.cause = 7 ∧ u.info = r.info ∧ u.addr = r.addr ∧ (t.wave k).pend = (s.wave k).pend ++ [u]) ∧
        ∀ j ∈ ks, j ≠ k → (t.wave j).pend = (s.wave j).pend))

/-- R103, R104: `fpost` raises each flag to the greatest value posted, its init form writes a line of flags at 0, and `fwait` parks
its lanes with the waits that the flags do not yet satisfy open. -/
def Obligations.Flags : Prop :=
  ∀ (s : State) (f : F) (dm : Bool) (scope : Scope),
    let loc (l : Nat) : Nat := s.objLoc dm (s.objAddr dm f.a l)
    let at_ (i : Instr) : State := s.atLines dm (lanesOf (s.active i)) (s.objAddr dm f.a)
    (∀ i, i = Instr.fpost f dm scope → s.Issues i → s.active i ≠ 0 →
      s.LinesPass dm true (s.active i) (lanesOf (s.active i)) (s.objAddr dm f.a) →
      (∀ l ∈ lanesOf (s.active i), s.isFlag (loc l) = true) → s.releaseBusy [] (lanesOf (s.active i)) = false →
      ∃ u : State, exec i s = .next (s.finishes u.wake i true) ∧
        u = { at_ i with mem := u.mem, dsm := u.dsm, poison := u.poison, ctxs := u.ctxs } ∧
        (∀ l ∈ lanesOf (s.active i), u.loc (loc l) 8 =
          (lanesOf (s.active i)).foldl (fun x m => if loc m = loc l then max x (s.opnd f.b 2 m) else x) (s.loc (loc l) 8)) ∧
        ∀ c, (∀ l ∈ lanesOf (s.active i), ∀ k < 8, locCell (loc l) k ≠ c) → u.peek c = s.peek c) ∧
    (∀ i, i = Instr.fpostInit f dm scope → s.Issues i → s.active i ≠ 0 →
      s.LinesPass dm false (s.active i) (lanesOf (s.active i)) (s.objAddr dm f.a) →
      (∀ l ∈ lanesOf (s.active i), loc l % 64 = 0) →
      ∃ u : State, exec i s = .next (s.finishes u.wake i true) ∧
        u = { at_ i with mem := u.mem, dsm := u.dsm, poison := u.poison, ctxs := u.ctxs, inbox := u.inbox } ∧
        (∃ es, u.inbox = s.inbox ++ es ∧ ∀ e ∈ es, ∃ q ∈ s.gate, e = .gateAdmit q.id) ∧
        (∀ l ∈ lanesOf (s.active i), u.loc (loc l) 64 = 2) ∧
        ∀ c, (∀ l ∈ lanesOf (s.active i), ∀ k < 64, locCell (loc l) k ≠ c) → u.peek c = s.peek c) ∧
    ∀ i, i = Instr.fwait f dm scope → s.Issues i → s.active i ≠ 0 →
      s.LinesPass dm true (s.active i) (lanesOf (s.active i)) (s.objAddr dm f.a) →
      (∀ l ∈ lanesOf (s.active i), s.isFlag (loc l) = true) →
      exec i s = .next (s.finishes ((at_ i).park (s.active i) ((lanesOf (s.active i)).map fun l =>
        ⟨.flag, l, loc l, s.objAddr dm f.a l, s.opnd64 f.b l, 0, .zero, laneBit l, [], false,
          decide ((s.opnd64 f.b l).toNat ≤ s.loc (loc l) 8), [], s.pc⟩) false).wake i false)

/-- R105 to R107, R110: the lock words. An acquire parks on its turn; a release and a pass advance the lock; the init forms
write the line; the free forms hand a request to the order gate.

R106, R107: a release clears HELD and advances NEXT, which wraps at NPART with a new GEN; ABANDONED is set where the holder
abandoned the lock and kept otherwise; HOLDW goes back to 0 (the model's choice, log entry 100); no other byte of the line changes. -/
def Obligations.Locks : Prop :=
  (∀ (s : State) (f : F) (dm : Bool) (scope : Scope),
    let va := s.objAddr dm f.a 0
    let t := s.atLines dm [0] fun _ => va
    let runs (reads : Bool) (i : Instr) : Prop := s.LinesPass dm reads (s.active i) [0] (fun _ => va) ∧ s.Issues i ∧ s.active i ≠ 0
    let idle (i : Instr) : Prop := s.releaseBusy [] (lanesOf (s.active i)) = false
    let loc := s.objLoc dm va
    let p := s.opnd f.b 1 0
    let wt (k : WaitKind) (act : Mask) (aux : Nat) (d : Opnd) : WaitR := ⟨k, lowLane act, loc, va, 0, aux, d, act, [], false, false, [], s.pc⟩
    (∀ i, i = Instr.olacq f dm scope → runs true i → s.isLock loc p = true →
      let q := t.tryWait s.w.key (wt .acq (s.active i) p f.d)
      exec i s = .next (s.finishes (q.1.park (s.active i) [q.2] false).wake i false)) ∧
    (∀ i, i = Instr.olrel f dm scope → runs true i → s.isLock loc p = true → s.loc (loc + 1) 1 % 2 = 1 →
      s.loc (loc + 0x10) 4 = p → (loc, false) ∈ s.w.grants → idle i →
      exec i s = .next (s.finishes ((t.ungrant s.w.key loc false).lockRelease loc false).wake i true)) ∧
    (∀ i, i = Instr.olrelPass f dm scope → runs true i → s.isLock loc p = true → idle i →
      if s.loc (loc + 0x10) 4 = p ∧ s.loc (loc + 1) 1 % 2 = 0 then exec i s = .next (s.finishes (t.lockAdvance loc).wake i true)
      else exec i s = .next (s.finishes (t.park (s.active i) [wt .pass (s.active i) p .zero] false) i false)) ∧
    (∀ i, i = Instr.olrelInit f dm scope false → runs false i → loc % 64 = 0 → 1 ≤ p → p ≤ 0xFFFFFFFE →
      exec i s = .next (s.finishes (t.initLine loc (leBytes 1 3 ++ leBytes 3 0 ++ leBytes 4 p ++ leBytes 56 0)) i true)) ∧
    (∀ i, i = Instr.olrelInit f dm scope true → runs false i → loc % 64 = 0 → s.recorded s.b.ctx = true →
      exec i s = .next (s.finishes (t.initLine loc (leBytes 64 5)) i true)) ∧
    (∀ i, i = Instr.olacqFree f dm scope → runs true i → s.isFree loc = true →
      exec i s = .next (s.finishes ((t.sendGate 0 (lowLane (s.active i)) loc va .swap .n64 0 0 .zero true true).park (s.active i)
        [wt .free (s.active i) s.ids f.d] false) i false)) ∧
    ∀ i, i = Instr.olrelFree f dm scope → runs true i → s.isFree loc = true → (loc, true) ∈ s.w.grants → idle i →
      exec i s = .next (s.finishes ((t.setW { t.w with grants := t.w.grants.erase (loc, true) }).sendGate 0 (lowLane (s.active i)) loc va
        .store .n64 0 0 .zero false true) i true)) ∧
  (∀ (s : State) (loc : Nat) (abandon : Bool), loc % 64 = 0 →
    let next := s.loc (loc + 0x10) 4
    let np := s.loc (loc + 4) 4
    let t := s.lockRelease loc abandon
    t.loc (loc + 1) 1 % 2 = 0 ∧ t.loc (loc + 0x14) 4 = 0 ∧ t.loc (loc + 1) 1 / 2 % 2 = (if abandon then 1 else s.loc (loc + 1) 1 / 2 % 2) ∧
    (next + 1 = np → t.loc (loc + 0x10) 4 = 0 ∧ t.loc (loc + 8) 8 = (s.loc (loc + 8) 8 + 1) % 2 ^ 64) ∧
    (next + 1 < np → t.loc (loc + 0x10) 4 = next + 1 ∧ t.loc (loc + 8) 8 = s.loc (loc + 8) 8) ∧
    ∀ c, (∀ k, k = 1 ∨ 8 ≤ k ∧ k < 0x18 → locCell loc k ≠ c) → t.peek c = s.peek c)

/-- R24, R104, R106, R229, R234, R242: when the wait of a parked lane is satisfied: a flag at its target, an ordered lock free for its
turn, a tag ready, a launch ended; an acquire takes the lock and answers GEN with ABANDONED; a pass advances it: NEXT counts up, or
goes back to 0 behind the last participant, when GEN counts up; a read of a counter answers its word. -/
def Obligations.WaitsSatisfied : Prop :=
  ∀ (s : State) (k : Nat) (r : WaitR), r.done = false →
    let q := s.tryWait k r
    let turn : Prop := s.loc (r.loc + 0x10) 4 = r.aux ∧ s.loc (r.loc + 1) 1 % 2 = 0
    (q.2.done = false → q = (s, r)) ∧
    (r.kind = .flag → (q.2.done = true ↔ r.arg.toNat ≤ s.loc r.loc 8)) ∧
    (r.kind = .acq ∨ r.kind = .pass → (q.2.done = true ↔ turn)) ∧
    (r.kind = .acq → turn → r.loc % 64 = 0 →
      q.2.res = bytesRegs 2 (s.loc (r.loc + 1) 1 / 2 % 2 * 2 ^ 63 + s.loc (r.loc + 8) 8 % 2 ^ 63) ∧ q.1.loc (r.loc + 1) 1 = 1 ∧
      ∀ c, (∀ j, j = 1 ∨ 0x14 ≤ j ∧ j < 0x18 → locCell r.loc j ≠ c) → q.1.peek c = s.peek c) ∧
    (r.kind = .pass → turn →
      let np := s.loc (r.loc + 4) 4
      let gen := s.loc (r.loc + 8) 8
      (r.reg = false → q.1 = s.lockAdvance r.loc) ∧ q.2.res = [] ∧
      (r.loc % 64 = 0 →
        (r.aux + 1 = np → q.1.loc (r.loc + 0x10) 4 = 0 ∧ q.1.loc (r.loc + 8) 8 = (gen + 1) % 2 ^ 64) ∧
        (r.aux + 1 < np → q.1.loc (r.loc + 0x10) 4 = r.aux + 1 ∧ q.1.loc (r.loc + 8) 8 = gen) ∧
        ∀ c, (∀ j, 8 ≤ j ∧ j < 0x14 → locCell r.loc j ≠ c) → q.1.peek c = s.peek c)) ∧
    (r.kind = .tag → (q.2.done = true ↔ if r.aux = 1 then (s.block (k / 32)).tagready &&& r.arg ≠ 0
      else (s.block (k / 32)).tagready &&& r.arg = r.arg)) ∧
    (r.kind = .count → (q.2.done = true ↔ ∀ g, SMap.find? s.grps r.loc = some g → g.st = .ended) ∧
      (∀ g, SMap.find? s.grps r.loc = some g → g.st = .ended → q.2.res = bytesRegs 2 (counterWord g.state g.done).toNat) ∧
      (SMap.find? s.grps r.loc = none → q.2.res = bytesRegs 2 (SMap.get (s.wave k).read 0 r.aux).toNat)) ∧
    (r.kind = .bar ∨ r.kind = .free → q.2.done = false)

/-- R108, R109, R233: `qpush` and `qpop` act on each active lane in ascending order, a lane whose slot is not ready waits; the init
form writes the header and the TAG of every slot.

R109 at a slot: what a push or a pop finds by the TAG, and what it leaves there: a push that is ready stores its payload and
sets FULL, a pop that is ready answers the payload and frees the slot for the round after. -/
def Obligations.Queues : Prop :=
  (∀ (s : State) (f : F) (dm : Bool) (scope : Scope),
    let loc (l : Nat) : Nat := s.objLoc dm (s.objAddr dm f.a l)
    let n (l : Nat) : W64 := s.opnd64 f.b l
    let wt (k : WaitKind) (d : Opnd) (pay : Nat → List W32) (l : Nat) : WaitR :=
      ⟨k, l, loc l, s.objAddr dm f.a l, n l, 0, d, laneBit l, pay l, false, false, [], s.pc⟩
    let runs (i : Instr) (pay : Opnd) (push : Bool) (mk : Nat → WaitR) : Prop :=
      let act := s.active i
      let t := s.atLines dm (lanesOf act) (s.objAddr dm f.a)
      let slot (l : Nat) : W64 := s.slotAddr (loc l) (n l).toNat
      s.Issues i → act ≠ 0 → s.LinesPass dm true act (lanesOf act) (s.objAddr dm f.a) → (∀ l ∈ lanesOf act, s.isQueue (loc l) = true) →
      t.LinesPass dm true act (lanesOf act) slot →
      (∀ l ∈ lanesOf act, s.inBounds pay (s.payRegs (loc l)) 2 = true ∧ ∀ r ∈ pay.covers s.w (s.payRegs (loc l)), r ∉ s.pendingRegs) →
      (push = true → s.releaseBusy [] (lanesOf act) = false) →
      let r := laneOps (fun u l => u.queueOp push (mk l)) mk (lanesOf act) (t.atLines dm (lanesOf act) slot)
      r.2.2 = none → exec i s = .next (s.finishes (r.1.park act r.2.1 false).wake i false)
    runs (.qpush f dm scope) f.c true (wt .push .zero fun l => bytesRegs (s.payRegs (loc l)) (s.opnd f.c (s.payRegs (loc l)) l)) ∧
    runs (.qpop f dm scope) f.d false (wt .pop (f.d.fixed s.w) fun l => List.replicate (s.payRegs (loc l)) 0) ∧
    ∀ i, i = Instr.qpushInit f dm scope → s.Issues i → s.active i ≠ 0 →
      s.LinesPass dm false (s.active i) (lanesOf (s.active i)) (s.objAddr dm f.a) →
      let t := s.atLines dm (lanesOf (s.active i)) (s.objAddr dm f.a)
      let slots (k : Nat) : W64 := s.opnd64 f.b 0 + BitVec.ofNat 64 (k * 2 ^ (s.opnd f.c 1 0 % 256))
      let slog := s.opnd f.c 1 0 % 256
      let nlog := s.opnd f.c 1 0 / 256 % 256
      (∀ l ∈ lanesOf (s.active i), loc l % 64 = 0) → (slog = 4 ∨ slog = 6) → nlog ≤ 16 → (s.opnd64 f.b 0).toNat % 2 ^ slog = 0 →
      t.LinesPass dm false (s.active i) (List.range (2 ^ nlog)) slots →
      let line := leBytes 1 4 ++ leBytes 1 slog ++ leBytes 1 nlog ++ leBytes 5 0 ++ leBytes 8 (s.opnd64 f.b 0).toNat ++ leBytes 48 0
      exec i s = .next (s.finishes ((lanesOf (s.active i)).foldl (fun (u : State) l =>
        ((u.setLocBytes (loc l) line).initSlots (u.dmBase u.w.blk) (loc l) (2 ^ nlog)).regate (loc l))
        (t.atLines dm (List.range (2 ^ nlog)) slots)).wake i true)) ∧
  (∀ (s : State) (k : Nat) (r : WaitR), r.done = false → r.reg = false →
    let sl := s.queueSlot (s.block (k / 32)).ctx (s.dmBase (k / 32)) r.loc r.arg.toNat
    let tag := s.loc sl.1 8
    let n := r.arg.toNat
    let full := 2 ^ 63 ≤ tag
    let seq := tag % 2 ^ 63
    (pushChk tag n = .ready ↔ ¬ full ∧ seq = n) ∧ (pushChk tag n = .bad ↔ n < seq ∨ full ∧ seq = n) ∧
    (popChk tag n = .ready ↔ full ∧ seq = n) ∧ (popChk tag n = .bad ↔ n < seq) ∧
    (r.kind = .push → pushChk tag n = .ready →
      let q := s.tryWait k r
      q.2 = { r with done := true, res := [] } ∧
      q.1 = s.setLocBytes sl.1 (leBytes 8 (2 ^ 63 + n % 2 ^ 63) ++ (regBytes r.pay).take sl.2)) ∧
    (r.kind = .pop → popChk tag n = .ready →
      let q := s.tryWait k r
      q.2 = { r with done := true, res := bytesRegs (sl.2 / 4) (s.loc (sl.1 + 8) sl.2) } ∧
      q.1 = s.setLoc sl.1 8 ((n + 2 ^ s.loc (r.loc + 2) 1) % 2 ^ 63)) ∧
    ((r.kind = .push ∧ pushChk tag n = .wait ∨ r.kind = .pop ∧ popChk tag n = .wait) → s.tryWait k r = (s, r)))

/-- R85, R90, R111, R112, R235, R236: `wreg` makes an entry, `wunreg` removes the wave's own; `yield` closes the pin window and
lets others go first; `fence` completes once earlier releases are performed; `sweep` sends its probe, waits, and completes when
it has come back; a `sweep` in a handler has a probe of its own. -/
def Obligations.WaitEntriesAndFences : Prop :=
  ∀ (s : State) (f : F) (dm hold : Bool) (sub : BitVec 3) (scope : Scope),
    let va := s.objAddr dm f.a 0
    let mine (e : WaitEnt) : Bool := e.orig == 1 && e.blk == s.w.blk && e.wv == s.w.idx
    (∀ i p kind, i = Instr.wreg f dm hold sub → s.Issues i → s.active i ≠ 0 → s.lineChk dm va = (.ok p, kind) →
      exec i s = .next (s.finishes (s.addEnt ⟨s.homeOf.1, hold, 1, kind, s.w.idx, s.w.blk, lineOf 0 p.loc, sub.toNat, s.opnd32 f.b 0,
        BitVec.ofNat 64 (va.toNat / 64 * 64)⟩).1 i true)) ∧
    (∀ i, i = Instr.wunreg f dm hold sub → s.Issues i → s.active i ≠ 0 →
      (f.a = .zero → exec i s = .next (s.finishes (s.dropEnts mine) i true)) ∧
      ∀ p kind, f.a ≠ .zero → s.lineChk dm va = (.ok p, kind) → exec i s = .next (s.finishes (s.dropEnts fun e =>
        mine e && e.hold == hold && e.line == lineOf 0 p.loc && e.sub == sub.toNat) i true)) ∧
    (∀ e, (s.dropEnts e).wft = s.wft.filter fun x => !e x) ∧
    (∀ i, i = Instr.yield f → s.Issues i → s.active i ≠ 0 →
      exec i s = .next (s.finishes (s.setW { s.w.closeWindow with yielded := true }) i true)) ∧
    (∀ i, i = Instr.fence f scope → s.Issues i → s.active i ≠ 0 →
      if s.releaseBusy [] (lanesOf (s.active i)) then exec i s = .next s else exec i s = .next (s.advanced i)) ∧
    ∀ i, i = Instr.sweep f scope → s.Issues i → s.active i ≠ 0 →
      let own (p : Probe) : Bool := p.blk == s.w.blk && p.wv == s.w.idx && p.word == s.pc && p.depth == s.w.frames.length
      ((s.probes.find? own).isNone = true → exec i s = .next { s with
        ids := s.ids + 1, probes := s.probes ++ [⟨s.ids, s.homeOf.1, scope == .pkg || scope == .sys, s.w.blk, s.w.idx, s.pc, s.w.frames.length, false⟩]
        inbox := s.inbox ++ [.sweepProbeReturn s.ids] }) ∧
      ∀ p, s.probes.find? own = some p →
        exec i s = .next (if p.returned then s.finishes { s with probes := s.probes.filter fun q => !own q } i true else s)

/-- R112, R116, R117, R119: an entry that stands is not made again; a full table sets OVF and takes none; an entry that closes no
cycle on its die is added and no wave changes. A cycle's victim is the wave of lowest identity: its waits on the line are withdrawn with their
entries and its acquires at the line's order gate, and trap 0x0A pends in it.

R24, R111, R112, R119: parking moves the run's PCs to the next word and forms a group with its waits; an open wait on an object
enters the wait-for table unless its die's table is full, when OVF is set and the wave still waits. -/
def Obligations.WaitTable : Prop :=
  (∀ (s : State) (e : WaitEnt),
    let room : Prop := (s.wft.filter fun x => x.die == e.die).length < Config.waitEntries
    (e ∈ s.wft → s.addEnt e = (s, true)) ∧
    (e ∉ s.wft → ¬ room → s.addEnt e = (s.setPf (Pf.ovf e.die) (s.pfNum (Pf.ovf e.die) ||| 1), false)) ∧
    (e ∉ s.wft → room →
      let k := 32 * e.blk + e.wv
      (s.addEnt e).2 = true ∧
      (s.findCycle ((s.wft ++ [e]).filter fun x => x.die == e.die) k 16 k [k] = none →
        (s.addEnt e).1.wft = s.wft ++ [e] ∧ (s.addEnt e).1.w = s.w ∧ (s.addEnt e).1.waves = s.waves ∧ (s.addEnt e).1.mem = s.mem)) ∧
    ∀ (c : List (Nat × WaitEnt)) (pkg : Bool) (k : Nat) (x : WaitEnt) (rest : List (Nat × WaitEnt)), s.victimFirst c = (k, x) :: rest →
      let t := s.raiseDeadlock c pkg
      (∀ y ∈ c, gidLt (idKey (s.block (y.1 / 32)).gid [y.1 % 32]) (idKey (s.block (k / 32)).gid [k % 32]) = false) ∧
      t.wft = (s.wft.filter fun y => !(y == x || (!y.hold && y.orig == 0 && y.blk == x.blk && y.wv == x.wv && y.line == x.line))) ∧
      (let asks (q : Req) : Prop := q.lock = true ∧ q.op = .swap ∧ q.blk = x.blk ∧ q.wv = x.wv ∧ lineOf 0 q.loc = x.line
        ∀ q, q ∈ t.gate ↔ q ∈ s.gate ∧ ¬ asks q) ∧
      ∃ p : Trap, p.cause = 0x0A ∧ p.addr = x.va ∧ (t.wave k).pend = (s.wave k).pend ++ [p] ∧
        ∀ g ∈ (t.wave k).groups ++ (t.wave k).frames.flatMap (·.groups), ∀ r ∈ g.waits, ¬ (r.done = false ∧ r.reg = true ∧ lineOf (s.wave k).blk r.loc = x.line)) ∧
  (∀ (s : State) (lanes : Mask) (r : WaitR) (barw : Bool),
    let w (reg : Bool) : Wave := { s.w.goTo s.run (s.pc + 8) with groups := s.w.groups ++ [⟨lanes, [{ r with reg := reg }], barw, []⟩] }
    ((r.done = true ∨ r.kind = .tag ∨ r.kind = .count) → s.park lanes [r] barw = (s.setW (w false)).wake) ∧
    (r.done = false → r.kind ≠ .tag → r.kind ≠ .count → s.w.st ≠ .absent →
      let u := s.setW (w true)
      let e := u.waitEnt s.w.key { r with reg := true }
      let room : Prop := (s.wft.filter fun x => x.die == e.die).length < Config.waitEntries
      (e ∈ s.wft ∨ room → s.park lanes [r] barw = (u.addEnt e).1.wake) ∧
      (e ∉ s.wft → ¬ room → ∃ v : State, s.park lanes [r] barw = v.wake ∧
        (v.pfNum (Pf.ovf e.die)).getLsbD 0 = true ∧ v.wft = s.wft)))

/-! ### G10: views and launches -/

/-- R42 to R44, R55, R58 to R60, R238, R364: `fork` reads its descriptor; a bad one hangs a dead fork for `join` to report, an accepted one
reserves its quota or charges its ranges, hangs the group on the wave, suspends it, and asks for placement. The model's choices: a
QUOTA below the ranges is judged after the pool and gives CODE 1 with POOL 0 (log entry 85); every page of the ranges must be a sluice
page (log entry 84); %trapinfo of a missing route (log entry 97). -/
def Obligations.Forks : Prop :=
  ∀ (s : State) (f : F) (t : State) (bs : List Byte),
    let i := Instr.fork f
    let va := s.opnd64 f.a (lowLane (s.active i))
    let d := Desc.of bs
    let go (u : State) : Prop := exec i s = .next (s.finishes u i true)
    s.Issues i → s.active i ≠ 0 → s.joinFollows = true → va.toNat % 64 = 0 →
    s.UnitsRead va 2 64 (lowLane (s.active i)) t bs → s.forkWaits = false →
    (d.bad (s.b.gid.length - 5) = true → go (t.hangDead va 2 false)) ∧
    (d.bad (s.b.gid.length - 5) = false → s.rangePages d = (none, true) → go (t.hangDead va 2 false)) ∧
    (d.bad (s.b.gid.length - 5) = false → s.rangePages d = (none, false) → s.unrouted d.nchild = true →
      exec i s = .next (s.trapWord (s.active i) (.of 0x12 (accInfo 0 false .g (lowLane (s.active i))) s.pc))) ∧
    (d.bad (s.b.gid.length - 5) = false → s.rangePages d = (none, false) → s.unrouted d.nchild = false →
      (d.quota ≠ 0 → t.poolLeft < d.quota → go (t.hangDead va 1 true)) ∧
      (d.quota ≠ 0 → d.quota ≤ t.poolLeft → d.quota < d.scoped → go (t.hangDead va 1 false)) ∧
      (d.quota ≠ 0 → d.quota ≤ t.poolLeft → d.scoped ≤ d.quota →
        go ({ t with pool := t.pool + d.quota }.hangFork (t.forkGrp d va)).placeAll) ∧
      (d.quota = 0 → d.scoped ≤ t.poolLeft → go ({ t with pool := t.pool + d.scoped }.hangFork (t.forkGrp d va)).placeAll)) ∧
    ∀ (u : State) (g : Grp),
      (u.hangFork g).w.fork = some u.ids ∧ SMap.find? (u.hangFork g).grps u.ids = some g ∧
      (u.hangFork g).w.st = if g.outcome.isSome then u.w.st else .forked

/-- R47 to R51, R57 to R59, R64, R238, R239, R244: `join` folds the children's views, byte by byte, or reports the outcome in D, and takes
0x06 for a conflict; it waits while an engine acts on the wave's view (R91). `vstat` writes the selected quantity; `migrate` goes to the die that
homes its line. The model's choices: a `join` without a fork only advances (log entry 107); a `migrate` to its own die only closes the
pin window, and the wave keeps its old slot too (log entry 35). -/
def Obligations.JoinsAndMoves : Prop :=
  ∀ (s : State) (f : F),
    (∀ i, i = Instr.join f → s.Issues i → s.active i ≠ 0 →
      (s.w.fork = none → exec i s = .next (s.advanced i)) ∧
      ∀ id g, s.w.fork = some id → SMap.find? s.grps id = some g →
        (g.st ≠ .ended ∨ s.viewBusy = true → exec i s = .next s) ∧
        (g.st = .ended → s.viewBusy = false → ∀ code pool, g.outcome = some (code, pool) →
          exec i s = .next (s.finishes (({ s with grps := SMap.erase s.grps id }.setW { s.w with fork := none }).afterJoin.setOpnd f.d 1 0
            (joinWord g.charge code pool).toNat) i true)) ∧
        (g.st = .ended → s.viewBusy = false → g.outcome = none →
          let r := s.foldFork id g
          let u (code : Nat) : State := (r.1.setW { r.1.w with fork := none }).afterJoin.setOpnd f.d 1 0 (joinWord g.charge code false).toNat
          ((∀ m ∈ g.members, SMap.rising none m.view = true) → ∃ x : Fold, x.record = r.2 ∧
            FoldsTo g.members (·.idx) (·.view) (fun m => s.overByte g.ctx m.start) (·.carried) x ∧
            ∀ va, SMap.find? r.1.w.view.bytes va = (match SMap.find? x.bytes va with
              | some y => some y
              | none => SMap.find? s.w.view.bytes va)) ∧
          (∃ h, SMap.find? r.1.grps id = some h ∧ h.state = (if r.2.isSome then 3 else 1) ∧ h.confl = r.2) ∧
          (r.2 = none → exec i s = .next (s.finishes (u 0) i true)) ∧
          ∀ c, r.2 = some c → exec i s = .next ((u 5).settleCharge s ((u 5).trapWord (s.active i) (.of 6 c.info c.addr))))) ∧
    ((f.d = .zero ∨ ∃ r, f.d = .s r) →
      s.Gives (.vstat f .used) f.d 1 (fun _ => (s.w.view.charge + 65535) / 65536) ∧
      s.Gives (.vstat f .free) f.d 1 (fun _ => min (s.poolLeft / 2 ^ 20) (2 ^ 32 - 1)) ∧
      s.Gives (.vstat f .size) f.d 1 (fun _ => s.poolGib) ∧
      ∃ x : Nat, s.Gives (.vstat f .quota) f.d 1 (fun _ => x) ∧ (s.ownFork s.w.blk = none → x = 0) ∧
        ∀ id g, s.ownFork s.w.blk = some id → SMap.find? s.grps id = some g → x = g.quota / 65536) ∧
    ∀ i l, i = Instr.migrate f → s.Issues i → s.active i ≠ 0 →
      let va := s.opnd64 f.a 0
      let die := Config.homeDie (l.paOf va.toNat / 64) % Config.dies
      va.toNat < 2 ^ 56 → s.w.frames = [] → s.migrating s.b.ctx va.toNat = false → s.walk s.b.ctx va.toNat = .leaf l → l.host = false →
      s.viewBusy = false →
      (s.homeOf.1 = die → exec i s = .next (s.finishes (s.setW s.w.closeWindow) i true)) ∧
      ∀ p, s.homeOf.1 ≠ die → s.landing die = some p → ∃ u : State, exec i s = .next (s.finishes u i true) ∧
        u.w = { s.w.closeWindow with place := some p } ∧ u.homeOf = p ∧ u = { s with w := u.w, wft := u.wft } ∧
        u.wft.length = s.wft.length ∧ ∀ e ∈ u.wft, e.blk = s.w.blk → e.wv = s.w.idx → e.die = p.1

/-- R185, R240 to R243, R354, R364: `launch` puts a group in the lowest free slot and answers its handle; a bad packet's group has ended with
its code. `cancel` and `lcount` act on the instance a handle names, or take trap 0x05 for one that names nothing, with the word's
address in %trapaddr; %trapinfo there, and that of 0x12 where no route leads to a member's package, is the model's choice (log entries
34, 97), as is the free handle value when no slot is free (log entry 33). -/
def Obligations.Launches : Prop :=
  ∀ (s : State) (f : F) (t : State) (bs : List Byte) (nowait : Bool),
    (∀ i, i = Instr.launch f → s.Issues i → s.active i ≠ 0 → s.UnitsRead (s.opnd64 f.a 0) 16 8 (lowLane (s.active i)) t bs → s.viewBusy = false →
      let p := Packet.of bs
      let code := s.launchCode p
      let far := code = 0 ∧ s.unrouted (p.grp s.b.ctx).nmem = true
      (s.w.freeSlot = none → exec i s = .next (s.finishes
        (({ t with b := { t.b with live := true } }.rejectRecord { s.deviceGrp p 0 1 with st := .ended, state := 3 }).setOpnd f.d 2 0
          (Config.freeWord (s.opnd64 f.a 0)).toNat) i true)) ∧
      (s.w.freeSlot ≠ none → far →
        exec i s = .next (s.trapWord (s.active i) (.of 0x12 (accInfo 0 false .g (lowLane (s.active i))) s.pc))) ∧
      ∀ k, s.w.freeSlot = some k → ¬ far → ∃ (u : State) (g : Grp), exec i s = .next (s.finishes u i true) ∧
        (k < Config.launchSlots ∧ SMap.has s.w.slots k = false ∧ ∀ j < k, SMap.has s.w.slots j = true) ∧
        u.w.slots = SMap.insert s.w.slots k t.ids ∧ u.w.read = SMap.erase s.w.read k ∧ u.grps = SMap.insert t.grps t.ids g ∧ u.b.live = true ∧
        (g.kind = .device ∧ g.pblk = s.w.blk ∧ g.pwv = s.w.idx ∧ g.slot = k ∧ g.code = code ∧ g.start = s.flatView ∧ g.vis = s.flatParts ∧
          g.entry = BitVec.ofNat 64 p.entry ∧ g.args = BitVec.ofNat 64 p.args ∧ g.gid = s.b.gid ++ [65536 + 2048 * s.w.idx + k]) ∧
        (code = 0 → g.st = .pending ∧ u.inbox = t.inbox ++ [.launchStart t.ids] ∧ u.mem = t.mem ∧ u.hmem = t.hmem) ∧
        (code ≠ 0 → g.st = .ended ∧ g.state = 3) ∧
        ∀ r : BitVec 6, f.d = .s r → r.toNat + 2 ≤ 64 → u.w.sregs r.toNat 2 = 2 * 2 ^ 61 + k) ∧
    (∀ i, i = Instr.cancel f → s.Issues i → s.active i ≠ 0 →
      (s.named (s.opnd64 f.a 0) = none →
        exec i s = .next (s.trapWord (s.active i) (.of 5 (accInfo 0 false .g (lowLane (s.active i))) s.pc))) ∧
      (∀ n, s.named (s.opnd64 f.a 0) = some n → s.cancelUnrouted n = true →
        exec i s = .next (s.trapWord (s.active i) (.of 0x12 (accInfo 0 false .g (lowLane (s.active i))) s.pc))) ∧
      ∀ n, s.named (s.opnd64 f.a 0) = some n → s.cancelUnrouted n = false →
        let r := (s.setB { s.b with live := true }).cancelNamed n
        exec i s = .next (s.finishes (r.1.setOpnd f.d 1 0 r.2) i true) ∧
        ∀ k, n = .slot k → r.2 = (if SMap.has s.w.slots k then 0 else 1)) ∧
    ∀ i, i = Instr.lcount f nowait → s.Issues i → s.active i ≠ 0 →
      let now := nowait && s.recorded s.b.ctx
      let trap : Prop :=
        exec i s = .next (s.trapWord (s.active i) (.of 5 (accInfo 0 false .g (lowLane (s.active i))) s.pc))
      (s.named (s.opnd64 f.a 0) = none → trap) ∧
      (∀ lvl, s.named (s.opnd64 f.a 0) = some (.self lvl) →
        if now then exec i s = .next (s.finishes (s.setOpnd f.d 2 0 (counterWord 0 0).toNat) i true) else trap) ∧
      ∀ k, s.named (s.opnd64 f.a 0) = some (.slot k) →
        (now = false → exec i s = .next (s.finishes (s.park s.run
          [⟨.count, 0, SMap.get s.w.slots 0 k, 0, 0, k, f.d, s.active i, [], false, false, [], s.pc⟩] false) i false)) ∧
        (now = true → s.viewBusy = false →
          (∀ id g, SMap.find? s.w.slots k = some id → SMap.find? s.grps id = some g → g.st ≠ .ended →
            exec i s = .next (s.finishes (s.setOpnd f.d 2 0 (counterWord 0 0).toNat) i true)) ∧
          (SMap.find? s.w.slots k = none → exec i s = .next (s.finishes (s.setOpnd f.d 2 0 (SMap.get s.w.read 0 k).toNat) i true)) ∧
          ∀ id g, SMap.find? s.w.slots k = some id → SMap.find? s.grps id = some g → g.st = .ended → g.confl = none →
            ∃ u : State, exec i s = .next (s.finishes u i true) ∧ u.w.slots = SMap.erase s.w.slots k ∧
              u.w.read = SMap.insert s.w.read k (counterWord g.state g.done) ∧ SMap.find? u.grps id = none)

/-! ### G11 and G12: the matrix engine -/

/-- R261 to R265: `mz` zeroes its tile, `mld` fills its rows from memory, `mtov` and `vtom` move a quarter of it, and `msync` only
advances: in every active quarter, with no other byte of a tile and no other register changed; a held side-pound tile whose target, or the second tile of whose pair, a
word writes becomes STALE (R268), and nothing else of the side-pound tiles changes. -/
def Obligations.TileMoves : Prop :=
  ∀ (s : State) (f : F),
    let sides (t : State) (written : Nat → Prop) : Prop := ∀ q < 4,
      let x := s.w.side q
      let hit : Prop := written q ∧ x.held = true ∧ ∃ τ, f.d = .acc τ ∧
        (x.tgt = τ.toNat ∨ tileRegs x.acf x.shape = 2 ∧ x.tgt + 1 = τ.toNat)
      (hit → t.w.side q = { x with st := x.st ||| BitVec.ofNat 64 (2 ^ 62) } ∧ (t.w.side q).stale = true ∧ (t.w.side q).held = true) ∧
      (¬ hit → t.w.side q = x)
    (∀ i, i = Instr.mz f → s.Issues i → ∃ t, exec i s = .next t ∧ s.TilesOnly t i ∧
      sides t (fun q => ∃ e ∈ s.quarters f.g, e.1 = q) ∧ t.b = s.b ∧ t.w.sp = s.w.sp ∧
      ∀ a, Memory.byte t.w.r.acc a = if (s.quarters f.g).any fun e => tileCell f.d e.1 0 1024 a then 0
        else Memory.byte s.w.r.acc a) ∧
    (∀ i rows rsz sc u, i = Instr.mld f rows rsz sc → s.Issues i →
      let rs := s.moveRows f rows sc
      s.checkRows (rs.map (·.q)) rsz.bytes (rows.toNat + 1) false rs s = .ok u →
      ∃ t, exec i s = .next t ∧ s.TilesOnly t i ∧ ((rows.toNat + 1) * rsz.bytes ≤ 1024 → sides t fun q => ∃ r ∈ rs, r.q = q) ∧ t.b = u.b ∧
        t.w.sp = { s.w.sp with mrow := if rs = [] then s.w.sp.mrow else 0 } ∧
        (∀ τ, f.d = .acc τ → ∀ r ∈ rs, ∀ k < rsz.bytes, Memory.byte t.w.r.acc (tileKey r.q τ.toNat + r.m * rsz.bytes + k) =
          BitVec.ofNat 8 (s.readRow r rsz.bytes / 256 ^ k)) ∧
        ∀ a, (∀ r ∈ rs, tileCell f.d r.q (r.m * rsz.bytes) rsz.bytes a = false) →
          Memory.byte t.w.r.acc a = Memory.byte s.w.r.acc a) ∧
    (∀ i (part : BitVec 2), i = Instr.mtov f part → s.Issues i → ∃ t, exec i s = .next t ∧ t = (s.advanced i).withRegs t.w ∧
      t.w.r.s = s.w.r.s ∧ t.w.r.p = s.w.r.p ∧ t.w.r.i = s.w.r.i ∧ t.w.sp = s.w.sp ∧
      ∀ n l, l < 32 → t.w.vreg n l =
        if f.d ≠ .zero ∧ (s.quarters f.g).any (fun e => e.1 == l / 8) ∧ s.run.getLsbD l ∧ s.vecOf f.d ≤ n ∧ n < s.vecOf f.d + 8 then
          BitVec.ofNat 32 (s.w.tileElem (l / 8) f.a.tile 4 (64 * part.toNat + 8 * (n - s.vecOf f.d) + l % 8))
        else s.w.vreg n l) ∧
    (∀ i (part : BitVec 2), i = Instr.vtom f part → s.Issues i → ∃ t, exec i s = .next t ∧ s.TilesOnly t i ∧
      sides t (fun q => ∃ e ∈ s.quarters f.g, e.1 = q) ∧ t.b = s.b ∧ t.w.sp = s.w.sp ∧
      (∀ τ, f.d = .acc τ → ∀ e ∈ s.quarters f.g, ∀ k < 8, ∀ j < 8, Memory.num t.w.r.acc (tileKey e.1 τ.toNat + 256 * part.toNat + 32 * k + 4 * j) 4 =
        if s.run.getLsbD (8 * e.1 + j) then (s.w.vreg (s.vecOf f.a + k) (8 * e.1 + j)).toNat else 0) ∧
      ∀ a, (∀ e ∈ s.quarters f.g, tileCell f.d e.1 (256 * part.toNat) 256 a = false) →
        Memory.byte t.w.r.acc a = Memory.byte s.w.r.acc a) ∧
    ∀ i, i = Instr.msync f → s.Issues i → s.active i ≠ 0 → exec i s = .next (s.advanced i)

/-- R263: `mst` stores the rows of its tile, 16 bytes at a time, at the places of its rows; a byte that one row alone stores to holds
that row's byte, and every other cell stands. -/
def Obligations.TileStores : Prop :=
  ∀ (s : State) (f : F) (rows : BitVec 6) (rsz : Rsz) (sc : Bool) (u : State) (p : MRow → Nat → Place),
    let i := Instr.mst f rows rsz sc
    let rs := s.moveRows f rows sc
    let cells : List (MRow × Nat) := rs.flatMap fun r => (List.range rsz.bytes).map fun k => (r, k)
    let cell (x : MRow × Nat) : MemCell := (p x.1 (x.2 / 16)).cell (x.2 % 16)
    s.Issues i → s.checkRows (rs.map (·.q)) rsz.bytes (rows.toNat + 1) true rs s = .ok u →
    (∀ r ∈ rs, ∀ k < rsz.bytes / 16, s.check .store r.sp (r.addr + BitVec.ofNat 64 (16 * k)) 1 true = .ok (p r k) ∧
      ((∃ va pa, p r k = .view va pa) ∨ ∃ off, p r k = .sc off)) →
    (∀ n ≤ 128 * cells.length, s.supply s.w.blk n = .ok) → s.recorded s.b.ctx = false →
    ∃ t, exec i s = .next t ∧ t.w.r = (s.advanced i).w.r ∧
      t.w.sp = { s.w.sp with mrow := if rs = [] then s.w.sp.mrow else 0 } ∧ t.mem = s.mem ∧ t.hmem = s.hmem ∧ t.dsm = s.dsm ∧
      (∀ x ∈ cells, (∀ y ∈ cells, cell y = cell x → y = x) →
        t.peek (cell x) = some (Memory.byte s.w.r.acc (tileKey x.1.q f.d.tile + x.1.m * rsz.bytes + x.2))) ∧
      ∀ c, (∀ x ∈ cells, cell x ≠ c) → t.peek c = s.peek c

/-- R142, R257, R258: `mma` whose rows pass writes the result of its operation to its tile in every active quarter, clears %mrow and
ORs the flags; no other tile byte and no other register changes.

R259: the rows of a word are checked in order: one whose address is no multiple of 16 takes trap 0x04 and leaves its place in
%mrow; the rows before it, whose pages still pass, are not checked again.

R142, R258: what an operation computes: every output element is the exact sum modulo 2^32, or the accumulation rule on the products of
its row of A and its row of B, in its place of the tile. -/
def Obligations.MatrixMultiply : Prop :=
  (∀ (s : State) (f : F) (fmt : Fmt) (acf : AccF) (sh : Shape) (scA scB : Bool) (u : State),
    let i := Instr.mma f fmt acf sh scA scB
    let args := s.matArgs f scA scB
    let rows := args.flatMap fun x => x.rows sh scA scB
    let n := sh.m * sh.n * acf.size
    let res (x : MatArg) : List Byte × Fl := (s.matOp x fmt acf sh scA scB s.w.sp.fmode).result (s.w.tileOf f.d x.q acf.size)
    s.Issues i → s.checkRows (args.map (·.q)) (rowLen fmt (sh.k fmt)) (sh.m + sh.n) false rows s = .ok u →
    ∃ t, exec i s = .next t ∧ s.TilesOnly t i ∧ t.b = u.b ∧
      t.w.sp = { s.w.sp with mrow := if args = [] then s.w.sp.mrow else 0,
                             fflags := s.w.sp.fflags ||| (args.foldl (fun g x => g ||| (res x).2) 0).setWidth 32 } ∧
      (∀ x ∈ args, (res x).1.length = n ∧
        ∀ τ, f.d = .acc τ → ∀ k < n, Memory.byte t.w.r.acc (tileKey x.q τ.toNat + k) = (res x).1.getD k 0) ∧
      (∀ a, (∀ x ∈ args, tileCell f.d x.q 0 n a = false) → Memory.byte t.w.r.acc a = Memory.byte s.w.r.acc a) ∧
      ∀ q < 4, (t.w.side q).held = (s.w.side q).held ∧
        (∀ τ, f.d = .acc τ → (s.w.side q).held = true → (s.w.side q).tgt = τ.toNat → args.any (fun x => x.q == q) → (t.w.side q).stale = true) ∧
        (args.any (fun x => x.q == q) = false ∨ f.d = .zero → t.w.side q = s.w.side q)) ∧
  (∀ (s : State) (qs : List Nat) (n total : Nat) (write : Bool) (r : MRow) (rs : List MRow) (t : State),
    (r.m < rowsDone s.w.sp.mrow r.q → (∀ c ∈ t.rowChks r n write, ∃ p, c.2.2 = .ok p) →
      s.checkRows qs n total write (r :: rs) t = s.checkRows qs n total write rs t) ∧
    (rowsDone s.w.sp.mrow r.q ≤ r.m → r.addr.toNat % 16 ≠ 0 → r.m < 256 → r.q < 4 → (∀ q ∈ qs, q < 4) →
      ∃ u : State, s.checkRows qs n total write (r :: rs) t = .stop (.trap u (.of 4 (r.info write) r.addr)) ∧
        rowsDone u.w.sp.mrow r.q = r.m ∧ u = t.setMrow u.w.sp.mrow) ∧
    (∀ u, rowsDone s.w.sp.mrow r.q ≤ r.m → t.checkRow r n write = .ok u →
      s.checkRows qs n total write (r :: rs) t = s.checkRows qs n total write rs u)) ∧
  (∀ (fmode : W32) (m : Fmt) (w : Nat) (c : Val) (ps : List (Val × Bool)), m ≠ .dd → AccSpec fmode m w c ps (matAcc fmode m w c ps)) ∧
  ∀ (o : MatOp) (tile : Nat → Nat) (i j : Nat), i < o.sh.m → j < o.sh.n → i < o.a.length → j < o.b.length →
    let r := o.result tile
    let c := tile (i * o.sh.n + j)
    let out := leNat ((r.1.drop ((i * o.sh.n + j) * o.acf.size)).take o.acf.size)
    let row (x : Nat) : List EV := (rowEls o.fmode o.fmt (o.sh.k o.fmt) x).1
    let x := row (o.a.getD i 0)
    let y := row (o.b.getD j 0)
    r.1.length = o.sh.m * o.sh.n * o.acf.size ∧
    (o.acf = .i32 → ∀ u v : List Int, x.map EV.int? = u.map some → y.map EV.int? = v.map some →
      (out : Int) = ((c : Int) + ((u.zip v).map fun p => p.1 * p.2).sum) % 2 ^ 32) ∧
    (o.acf ≠ .i32 → o.acf ≠ .c64 → o.acf ≠ .c128 → o.acf ≠ .dd →
      out = (matAcc o.fmode o.acf.fmt o.acf.win (decodeF o.acf.fmt c)
        ((x.zip y).map fun p => termOf p.1.real p.2.real)).1 % 2 ^ (8 * o.acf.size))

/-- R266, R267, R269, R270: `mmas` computes beside the tile: it fills its side-pound tile, or marks it POISON where a row fails, and
changes no tile and no flag; it completes wherever nothing but its own checks stops a row. `shcom` commits or drops what is held where its
predicate says so; `shdis` empties. A wave without side-pound tiles takes trap 0x02; a committed STALE one trap 0x01. A committed POISON
one is computed again into its tile from the bases and strides that it keeps, under FM's flush bits, its rows checked first as those of the
`mma` it stands for, with %mrow, its flags into %fflags; a row that fails traps or joins the fault buffer as the word's (R267, R269). A word
without an active quarter only advances. The model's choices: %trapinfo of 0x02 for `shcom` and `shdis` (log entry 38), and the emptied side-pound
tile of an `mmas` whose D is zero (log entry 90). -/
def Obligations.RunAhead : Prop :=
  ∀ (s : State) (f : F) (fmt : Fmt) (acf : AccF) (sh : Shape) (scA scB : Bool),
    let args := s.matArgs f scA scB
    let n := rowLen fmt (sh.k fmt)
    let size := sh.m * sh.n * acf.size
    (∀ i q qs, (i = Instr.mmas f fmt acf sh scA scB ∨ i = .shcom f ∨ i = .shdis f) → s.Issues i → s.w.region = none →
      s.quarters f.g = q :: qs → s.b.al.sht = 0 →
      exec i s = .next (s.trapWord (s.active i) (.of 2 (BitVec.ofNat 64 (0x170 + q.1)) s.pc))) ∧
    (∀ i v, i = Instr.mmas f fmt acf sh scA scB → s.Issues i → s.b.al.sht ≠ 0 → s.b.race = none → s.quarters f.g ≠ [] →
      State.runAheads f.d fmt acf sh scA scB args s = .done v →
      ∃ t, exec i s = .next t ∧ s.SideOnly t i ∧ t.b = v.b ∧ t.w.sp = s.w.sp ∧ t.w.r.acc = s.w.r.acc ∧
        (∀ x ∈ args, ∃ (pz : Bool) (fl : Fl),
          t.w.side x.q = (if f.d = .zero then .empty else
            ⟨shWord pz f.d.tile fmt acf sh scA scB fl s.w.sp.fmode, x.abase, x.bbase, x.strides⟩) ∧
          (pz = true ↔ 1024 < size ∨ ∃ r ∈ x.rows sh scA scB, r.addr.toNat % 16 ≠ 0 ∨
            ∃ c, firstFail (s.rowChks r n false) = some c ∧ c.2.2 ≠ .stall) ∧
          (pz = true → fl = 0) ∧
          (pz = false →
            let r := (s.matOp x fmt acf sh scA scB s.w.sp.fmode).result (s.w.tileOf f.d x.q acf.size)
            fl = r.2 ∧ ∀ k < r.1.length, Memory.byte t.w.r.shd (1024 * x.q + k) = r.1.getD k 0)) ∧
        ∀ q, (∀ x ∈ args, x.q ≠ q) → t.w.side q = s.w.side q) ∧
    (∀ i, i = Instr.mmas f fmt acf sh scA scB → s.Issues i → s.b.al.sht ≠ 0 → s.b.race = none → s.quarters f.g ≠ [] →
      (∀ x ∈ args, size ≤ 1024 → ∀ r ∈ x.rows sh scA scB, s.rowGoes r n) →
      ∃ v t, State.runAheads f.d fmt acf sh scA scB args s = .done v ∧ exec i s = .next t ∧ s.SideOnly t i ∧ t.w.sp = s.w.sp ∧
        t.w.r.acc = s.w.r.acc) ∧
    (∀ i, i = Instr.mmas f fmt acf sh scA scB ∨ i = .shcom f ∨ i = .shdis f → s.Issues i → s.quarters f.g = [] →
      exec i s = .next (s.advanced i)) ∧
    (∀ (q l : Nat) (qs : List (Nat × Nat)) (t : State),
      let x := s.w.side q
      let m := x.shape.m + x.shape.n
      let chk := s.checkRows [] (rowLen x.fmt (x.shape.k x.fmt)) m false ((x.arg q l).rows x.shape x.scA x.scB) t
      s.recheck [] t = .ok t ∧ (∀ r, chk = .stop r → s.recheck ((q, l) :: qs) t = .stop r) ∧
      (∀ u, chk = .ok u → s.recheck ((q, l) :: qs) t = (s.setMrow (setRows s.w.sp.mrow q m)).recheck qs u) ∧
      (x.arg q l).abase = x.abase ∧ (x.arg q l).bbase = x.bbase ∧ (x.arg q l).strides = x.strides) ∧
    (∀ i, i = Instr.shdis f → s.Issues i → s.b.al.sht ≠ 0 → ∃ t, exec i s = .next t ∧ s.SideOnly t i ∧ t.b = s.b ∧ t.w.sp = s.w.sp ∧
      t.w.r.acc = s.w.r.acc ∧ t.w.r.shd = s.w.r.shd ∧
      ∀ q, t.w.side q = if (s.quarters f.g).any fun e => e.1 == q then .empty else s.w.side q) ∧
    ∀ i, i = Instr.shcom f → s.Issues i → s.quarters f.g ≠ [] → s.b.al.sht ≠ 0 →
      let held := (s.quarters f.g).filter fun e => (s.w.side e.1).held
      let on (e : Nat × Nat) : Bool := s.opnd f.a 1 e.2 == 1
      ((∃ e ∈ held, on e = true ∧ (s.w.side e.1).stale = true) → s.w.region = none →
        exec i s = .next (s.trapWord (s.active i) (.of 1 (encode i) s.pc))) ∧
      (∀ again, again = ((held.filter on).filter fun e => (s.w.side e.1).poison) →
        (∀ e ∈ held, on e = true → (s.w.side e.1).stale = false) →
        (∀ u x, s.recheck again s = .stop (.trap u x) → s.w.region = none →
          exec i s = .next (u.settleCharge s (u.trapWord (s.active i) x))) ∧
        (∀ u va kind x, s.recheck again s = .stop (.fault u va kind x) →
          exec i s = .next (u.settleCharge s (u.joinFault va kind x))) ∧
        ∀ u, s.recheck again s = .ok u →
          (∀ e ∈ held, on e = true → (s.committedOp e).1.length ≤ 1024 ∨ (s.w.side e.1).tgt % 2 = 0) →
          ∃ t, exec i s = .next t ∧ s.SideOnly t i ∧ t.b = u.b ∧
            t.w.sp = { s.w.sp with mrow := 0, fflags := s.w.sp.fflags |||
              ((held.filter on).foldl (fun g e => g ||| (s.committedOp e).2) 0).setWidth 32 } ∧
            t.w.r.shd = s.w.r.shd ∧
            (∀ e ∈ held, t.w.side e.1 = .empty) ∧ (∀ q, (∀ e ∈ held, e.1 ≠ q) → t.w.side q = s.w.side q) ∧
            (∀ e ∈ held, on e = true → (s.committedOp e).1.length = (s.w.side e.1).shape.m * (s.w.side e.1).shape.n * (s.w.side e.1).acf.size ∧
              ∀ k < (s.committedOp e).1.length,
                Memory.byte t.w.r.acc (tileKey e.1 (s.w.side e.1).tgt + k) = (s.committedOp e).1.getD k 0) ∧
            ∀ a, (∀ e ∈ held, on e = true → a < tileKey e.1 (s.w.side e.1).tgt ∨
                tileKey e.1 (s.w.side e.1).tgt + (s.committedOp e).1.length ≤ a) →
              Memory.byte t.w.r.acc a = Memory.byte s.w.r.acc a) ∧
      ((∀ e ∈ held, on e = true → (s.w.side e.1).stale = false ∧ (s.w.side e.1).poison = false ∧
          (s.w.side e.1).shape.m * (s.w.side e.1).shape.n * (s.w.side e.1).acf.size ≤ 1024) →
        ∃ t, exec i s = .next t ∧ s.SideOnly t i ∧ t.b = s.b ∧
          t.w.sp = { s.w.sp with mrow := 0, fflags := s.w.sp.fflags |||
            ((held.filter on).foldl (fun g e => g ||| (s.w.side e.1).fl) 0).setWidth 32 } ∧
          t.w.r.shd = s.w.r.shd ∧
          (∀ e ∈ held, t.w.side e.1 = .empty) ∧ (∀ q, (∀ e ∈ held, e.1 ≠ q) → t.w.side q = s.w.side q) ∧
          (∀ e ∈ held, on e = true →
            let x := s.w.side e.1
            ∀ k < x.shape.m * x.shape.n * x.acf.size, Memory.byte t.w.r.acc (tileKey e.1 x.tgt + k) = Memory.byte s.w.r.shd (1024 * e.1 + k)) ∧
          ∀ a, (∀ e ∈ held, on e = true →
              let x := s.w.side e.1
              a < tileKey e.1 x.tgt ∨ tileKey e.1 x.tgt + x.shape.m * x.shape.n * x.acf.size ≤ a) →
            Memory.byte t.w.r.acc a = Memory.byte s.w.r.acc a)

/-! ### G13: distribution registers -/

/-- R276 to R280, R283, R284: arithmetic on distributions: pairs by tags, exact values, the refiner; the result's TAG is the OR of
the operands' (of A's alone for one operand). What the operations give on exact values, which pairs two operands form, what a point is
mapped to (exp2, log2, exp and log where their values are rational) and which triples a mixture refines are stated too; Canon and Refine
themselves are O42's. -/
def Obligations.DistArithmetic : Prop :=
  ExactOps ∧ ExactValues ∧ (∀ q z, Rounds 0 .f32 .rn q z (PV.fin z q).round) ∧
  (∀ op dep x y, PairsSpec op dep x y (pairUp op dep x y)) ∧
  (∀ fn v, v < 2 ^ 32 → MapSpec fn v (mapPoint fn v)) ∧
  (∀ b c v, let x := PV.mul (PV.bits b) (PV.bits v)
    let y := PV.add x.1 (PV.bits c)
    affPoint b c v = (y.1.round.1, y.1.round.2 ||| x.2 ||| y.2 |||
      (if (decodeF .f32 b).isSig || (decodeF .f32 c).isSig then Fl.nv else 0))) ∧
  (∀ lam x y,
    ((∀ z q, PV.bits lam = .fin z q → q < 0 ∨ 1 < q) → mixPoints lam x y = (dNaN, Fl.nv)) ∧
    ∀ z q, PV.bits lam = .fin z q → 0 ≤ q → q ≤ 1 → ∃ ps, mixPoints lam x y = refine_ ps ∧ (ps.map Pair.idx).Nodup ∧
      ∀ p : Pair, p ∈ ps ↔ p.wgt ≠ 0 ∧ ((∃ v w, (exactPts x)[p.idx]? = some (v, w) ∧ p.idx < 8 ∧ p.val = v ∧ p.wgt = q * w) ∨
        ∃ v w, 8 ≤ p.idx ∧ (exactPts y)[p.idx - 8]? = some (v, w) ∧ p.val = v ∧ p.wgt = (1 - q) * w)) ∧
  ∀ (s : State) (f : F),
    let two (op : PV → PV → PV × Fl) (l : Nat) : BitVec 512 × BitVec 16 × Fl :=
      let ps := pairUp op (s.tagOf f.a l &&& s.tagOf f.b l != 0) (exactPts (s.dOf f.a l)) (exactPts (s.dOf f.b l))
      let r := refine_ ps.1
      (r.1, s.tagOf f.a l ||| s.tagOf f.b l, r.2 ||| ps.2)
    let one (g : Nat → Nat → Nat × Fl) (l : Nat) : BitVec 512 × BitVec 16 × Fl :=
      let ps := (dPoints (s.dOf f.a l)).map fun p => (g l p.1, p.2)
      let r := canon (ps.map fun p => (if (decodeF .f32 p.1.1).isNan then 0x7FC00000 else p.1.1, p.2))
      (r.1, s.tagOf f.a l, ps.foldl (fun g p => g ||| p.1.2) r.2)
    s.GivesD (.dadd f) f.d (two PV.add) ∧ s.GivesD (.dsub f) f.d (two PV.sub) ∧ s.GivesD (.dmul f) f.d (two PV.mul) ∧
    s.GivesD (.ddiv f) f.d (two PV.div) ∧ s.GivesD (.dmin f) f.d (two PV.min) ∧ s.GivesD (.dmax f) f.d (two PV.max) ∧
    s.GivesD (.daff f) f.d (one fun l => affPoint (s.f32At f.b l) (s.f32At f.c l)) ∧
    (∀ fn, s.GivesD (.dmap f fn) f.d (one fun _ => mapPoint fn)) ∧
    s.GivesD (.dmix f) f.d (fun l =>
      let r := mixPoints (s.f32At f.c l) (s.dOf f.a l) (s.dOf f.b l)
      (r.1, s.tagOf f.a l ||| s.tagOf f.b l, r.2))

/-- R277: what Canon answers: weights that are not finite positive or do not sum to exactly 1 give the NaN distribution and NV; else
the points stand in strictly ascending order of their values, at most as many as were given, and no flag is raised.

R278: what Refine answers: the pairs stand in ExactOrder, ties by source index, each over its interval of cumulative weight; bin j
takes the weighted mean of the parts of [j/8, (j+1)/8), rounded once, or the NaN or infinity met there; Canon joins the eight bins of
weight 1/8, with the flags of all. -/
def Obligations.CanonicalForm : Prop :=
  (∀ q : ℚ, q ≠ 0 → Rounds 0 .f32 .rn q false (roundRat q)) ∧
  (∀ ps : List Pair, ∃ (sorted : List Pair) (bin : Nat → Nat × Fl), sorted.Perm ps ∧
    sorted.Pairwise (fun a b => b.val.before a.val = false ∧ (a.val.before b.val = false → a.idx ≤ b.idx)) ∧
    let canonical := canon ((List.range 8).map fun j => ((bin j).1, 0x3E000000))
    refine_ ps = (canonical.1, (List.range 8).foldl (fun g j => g ||| (bin j).2) canonical.2) ∧
    ∀ j : Nat, j < 8 →
      let from_ (k : Nat) : ℚ := ((sorted.take k).map Pair.wgt).sum
      let length (k : Nat) : ℚ := min (from_ (k + 1)) (((j : ℚ) + 1) / 8) - max (from_ k) ((j : ℚ) / 8)
      let has (p : PV → Prop) : Prop := ∃ k x, sorted[k]? = some x ∧ 0 < length k ∧ p x.val
      let pinf : Prop := has fun v => v = .inf false
      let ninf : Prop := has fun v => v = .inf true
      let nan : Prop := has fun v => v = .nan
      let mean : ℚ := 8 * (sorted.zipIdx.map fun e => if 0 < length e.2 then length e.2 * e.1.val.rat else 0).sum
      (pinf ∧ ninf → bin j = (nanBits .f32, Fl.nv)) ∧ (nan → ¬ (pinf ∧ ninf) → bin j = (nanBits .f32, 0)) ∧
      (¬ nan → pinf → ¬ ninf → bin j = (infBits .f32 false, 0)) ∧ (¬ nan → ninf → ¬ pinf → bin j = (infBits .f32 true, 0)) ∧
      (¬ nan → ¬ pinf → ¬ ninf →
        (mean = 0 → (¬ has (fun v => v.isZero = false ∨ v.neg = false) → bin j = (zeroBits .f32 true, 0)) ∧
          (has (fun v => v.isZero = false ∨ v.neg = false) → bin j = (zeroBits .f32 false, 0))) ∧
        (mean ≠ 0 → bin j = roundRat mean))) ∧
  ∀ ps : List (Nat × Nat), (∀ p ∈ ps, p.1 < 2 ^ 32 ∧ p.2 < 2 ^ 32) → ps.length ≤ 8 →
    let used := ps.filter fun p => p.2 != 0
    let good : Prop := (∀ p ∈ used, ∃ m e, decodeF .f32 p.2 = .fin false m e) ∧ (used.map fun p => wgtRat p.2).sum = 1
    (¬ good → canon ps = (dNaN, Fl.nv)) ∧
    (good → (canon ps).2 = 0 ∧ (dPoints (canon ps).1).length ≤ used.length ∧
      (dPoints (canon ps).1).Pairwise (fun x y => orderKey .f32 x.1 < orderKey .f32 y.1) ∧
      ∀ v, (∃ p ∈ used, p.1 = v) ↔ ∃ p ∈ dPoints (canon ps).1, p.1 = v)

/-- R281, R282, R285 to R288: distributions are made, tagged, drawn from, reduced to moments and quantiles, loaded and stored. The points
of a uniform distribution, the four moments, the quantile and the draw are stated by their formulas. -/
def Obligations.DistMoves : Prop :=
  (∀ a b, UniformSpec a b (uniform a b)) ∧
  (∀ ps sel, sel ≠ .all → MomentSpec ps sel (moment ps sel)) ∧
  (∀ ps, moments ps .all = [moment ps .mean, moment ps .var, moment ps .skew, moment ps .kurt] ∧
    ∀ sel, sel ≠ .all → moments ps sel = [moment ps sel]) ∧
  (∀ (ps : List (PV × ℚ)) (p : ℚ), (∀ x ∈ ps, 0 < x.2) → QuantileSpec ps p (quantile ps p)) ∧
  (∀ (u : ℚ) (ps : List (Nat × Nat)) (k : Nat) (p : Nat × Nat), ps[k]? = some p →
    let cum (j : Nat) : ℚ := ((ps.take j).map fun x => wgtRat x.2).sum
    (∀ j < k, cum (j + 1) ≤ u) → (u < cum (k + 1) ∨ k + 1 = ps.length) → drawGo u 0 ps = p.1) ∧
  ∀ (s : State) (f : F),
    s.GivesD (.dsetPt f) f.d (fun l =>
      let a := s.f32At f.a l
      if (decodeF .f32 a).isNan then (dNaN, 0, if (decodeF .f32 a).isSig then Fl.nv else 0) else (dLane [(a, 0x3F800000)], 0, 0)) ∧
    s.GivesD (.dsetU f) f.d (fun l => ((uniform (s.f32At f.a l) (s.f32At f.b l)).1, 0, (uniform (s.f32At f.a l) (s.f32At f.b l)).2)) ∧
    s.GivesD (.dtagSet f) f.d (fun l => (s.dOf f.a l, (s.opnd32 f.b l).setWidth 16, 0)) ∧
    (s.Issues (.dtagNew f) → s.active (.dtagNew f) ≠ 0 →
      let n := s.w.sp.origins.toNat
      (n = 16 → s.w.region = none → exec (.dtagNew f) s = .next (s.trapWord (s.active (.dtagNew f)) (.of 0x0F 0 s.pc))) ∧
      (n < 16 → ∃ t, exec (.dtagNew f) s = .next t ∧ t.w.sp.origins.toNat = n + 1 ∧
        s.WroteD { t with w := { t.w with sp := { t.w.sp with origins := s.w.sp.origins } } } (.dtagNew f) f.d
          (fun l => (s.dOf f.a l, BitVec.ofNat 16 (2 ^ n), 0)))) ∧
    s.Gives (.dtagGet f) f.d 1 (fun l => (s.tagOf f.a l).toNat) ∧
    (∀ sel : MSel, s.Computes (.dmom f sel) f.d (if sel = .all then 4 else 1) (fun l =>
      let rs := moments (exactPts (s.dOf f.a l)) sel
      (rs.zipIdx.foldl (fun n r => n + r.1.1 * 2 ^ (32 * r.2)) 0, rs.foldl (fun g r => g ||| r.2) 0))) ∧
    s.Computes (.dqnt f .p10) f.d 1 (fun l => quantile (exactPts (s.dOf f.a l)) (1 / 10)) ∧
    s.Computes (.dqnt f .p50) f.d 1 (fun l => quantile (exactPts (s.dOf f.a l)) (1 / 2)) ∧
    s.Computes (.dqnt f .p90) f.d 1 (fun l => quantile (exactPts (s.dOf f.a l)) (9 / 10)) ∧
    (∃ r, s.Computes (.dqnt f .p) f.d 1 r ∧ ∀ l, match PV.bits (s.f32At f.b l) with
      | .fin _ q => r l = if q < 0 ∨ 1 < q then nanOut .f32 true else quantile (exactPts (s.dOf f.a l)) q
      | _ => r l = nanOut .f32 true) ∧
    s.Gives (.dsamp f) f.d 1 (fun l => drawGo ((s.opnd f.b 1 l : ℚ) / 2 ^ 32) 0 (dPoints (s.dOf f.a l))) ∧
    ∀ (sc : Bool) (b : Block) (p : Nat → Place),
      let sp : Sp := if sc then .sc else .g
      let addr (k : Nat) : W64 := s.laneAddr sp f.a 0 (k / 4) + BitVec.ofNat 64 (16 * (k % 4))
      (∀ i, i = Instr.dld f sc → s.Issues i → s.active i ≠ 0 → (∀ l ∈ lanesOf (s.active i), (s.laneAddr sp f.a 0 l).toNat % 64 = 0) →
        s.Granted b (distParts (s.active i)) (· / 4) .load sp 16 true false false addr p →
        ∃ t u, exec i s = .next t ∧ s.WroteD u i f.d (fun l =>
            let img := (List.range 4).foldl (fun n k => n + s.readPlace (p (4 * l + k)) 16 * 2 ^ (128 * k)) 0
            let r := canonImage (BitVec.ofNat 512 img)
            (r.1, (s.opnd32 f.c l).setWidth 16, r.2)) ∧
          t = { u with b := b.marked ((distParts (s.active i)).map p), pf := t.pf, tokens := s.paidFor 0 ((distParts (s.active i)).map p) }) ∧
      ∀ i, i = Instr.dst f sc → s.Issues i → s.active i ≠ 0 → (∀ l ∈ lanesOf (s.active i), (s.laneAddr sp f.a 0 l).toNat % 64 = 0) →
        s.Granted b (distParts (s.active i)) (· / 4) .store sp 16 false true false addr p →
        (∀ n ≤ 128 * 272, s.supply s.w.blk n = .ok) → s.recorded s.b.ctx = false →
        ∃ t, exec i s = .next t ∧ s.StoredOnly t i b 16 ((distParts (s.active i)).map p) ∧ t.w.r = (s.advanced i).w.r ∧ t.w.sp = s.w.sp ∧
          (∀ l ∈ lanesOf (s.active i), ∀ k < 64,
            (∀ m ∈ lanesOf (s.active i), ∀ j < 64, (m, j) ≠ (l, k) → (p (4 * m + j / 16)).cell (j % 16) ≠ (p (4 * l + k / 16)).cell (k % 16)) →
            t.peek ((p (4 * l + k / 16)).cell (k % 16)) = some ((s.dOf f.d l).extractLsb' (8 * k) 8)) ∧
          ∀ c, (∀ l ∈ lanesOf (s.active i), ∀ k < 64, (p (4 * l + k / 16)).cell (k % 16) ≠ c) → t.peek c = s.peek c

/-! ### G14: expert placement -/

/-- R289, R302 to R306: in the context that owns placement, `xroute` answers a replica of each lane's expert with its version and
takes a reference and a count of load, `xrel` gives references back, `xcnt` and `xver` answer counters and the newest version;
in another context, and for a number that names no expert or reference, trap 0x05. -/
def Obligations.ExpertWords : Prop :=
  ∀ (s : State) (f : F),
    let die := s.homeOf.1
    let trap (i : Instr) (l : Nat) : Prop := exec i s = .next (s.trapWord (s.active i) (.of 5 (accInfo 0 false .g l) 0))
    (∀ i, (i = Instr.xroute f ∨ i = .xrel f ∨ i = .xcnt f ∨ i = .xver f) → s.Issues i → s.active i ≠ 0 → s.w.region = none →
      s.b.ctx ≠ s.xpCtx → trap i (lowLane (s.active i))) ∧
    (s.b.ctx = s.xpCtx →
      (∀ i, i = Instr.xroute f → s.Issues i → s.active i ≠ 0 →
        let ver := s.xNewest die
        let e (l : Nat) : Nat := s.opnd f.a 1 l
        let bad (l : Nat) : Prop := 8192 ≤ e l ∨ s.nrep die ver (e l) = 0
        let k (l : Nat) : Nat := s.opnd f.b 1 l % s.nrep die ver (e l)
        (∀ l ∈ lanesOf (s.active i), bad l → (∀ m < l, (s.active i).getLsbD m → ¬ bad m) → trap i l) ∧
        ((∀ l ∈ lanesOf (s.active i), ¬ bad l) → (∀ r, f.d ≠ .s r) → ∃ t, exec i s = .next t ∧
          (∀ q l j, q.ok → f.d.part s.w (s.active i) 4 q = some (l, j) →
            t.w.reg q = (s.rep die ver (e l) (k l) + 2 ^ 64 * (ver + 2 ^ 32 * k l)) / 2 ^ (32 * j) % 2 ^ q.bits) ∧
          (∀ q, q.ok → f.d.part s.w (s.active i) 4 q = none → t.w.reg q = s.w.reg q) ∧
          t.w.refsOf ver = s.w.refsOf ver + countLanes (s.active i) ∧
          SMap.get t.exp.counts 0 (4 * die + ver % 4) = SMap.get s.exp.counts 0 (4 * die + ver % 4) + BitVec.ofNat 32 (countLanes (s.active i)) ∧
          (∀ x < 8192, (t.loadOf die x).toNat = min ((s.loadOf die x).toNat + (lanesOf (s.active i)).countP fun l => e l == x) 0xFFFFFFFF) ∧
          t = { s with w := t.w, exp := { s.exp with counts := t.exp.counts, loads := t.exp.loads } } ∧ t.w.sp = s.w.sp)) ∧
      (∀ i, i = Instr.xrel f → s.Issues i → s.active i ≠ 0 →
        let v (l : Nat) : Nat := s.opnd f.a 4 l / 2 ^ 64 % 2 ^ 32
        let uses (l : Nat) : Nat := (lanesOf (s.active i)).countP fun m => v m == v l
        (∀ l ∈ lanesOf (s.active i), s.w.refsOf (v l) < uses l →
          (∀ m < l, (s.active i).getLsbD m → uses m ≤ s.w.refsOf (v m)) → trap i l) ∧
        ((∀ l ∈ lanesOf (s.active i), uses l ≤ s.w.refsOf (v l)) → ∃ u : State, exec i s = .next (s.finishes u.retireVersions i true) ∧
          (∀ l ∈ lanesOf (s.active i), u.w.refsOf (v l) = s.w.refsOf (v l) - uses l) ∧ u.w.r = s.w.r ∧ u.w.sp = s.w.sp ∧
          u = { s with w := u.w, exp := { s.exp with counts := u.exp.counts } })) ∧
      (s.Issues (.xcnt f) → s.active (.xcnt f) ≠ 0 →
        (∀ l ∈ lanesOf (s.active (.xcnt f)), 8192 ≤ s.opnd f.a 1 l → (∀ m < l, (s.active (.xcnt f)).getLsbD m → s.opnd f.a 1 m < 8192) →
          s.w.region = none → trap (.xcnt f) l) ∧
        ((∀ l ∈ lanesOf (s.active (.xcnt f)), s.opnd f.a 1 l < 8192) →
          ∃ t, exec (.xcnt f) s = .next t ∧ s.Wrote t (.xcnt f) f.d 1 fun l => ((s.loadOf die (s.opnd f.a 1 l)).toNat, 0))) ∧
      s.Gives (.xver f) f.d 1 (fun _ => s.xNewest die))

/-! ### G15: traps, special registers and regions; issue and the machine as a whole -/

/-- R21, R245, R378: `trap` and `brk` raise 0x0D and 0x0E with their immediate in %trapinfo. Entering a handler keeps what the
wave was doing in a frame, writes the frame at its address, and starts every lane that has not exited at the handler with that
address in L0; the frame's bytes stand where Table 116 places them. The frame notes whether its word is quarter-level (for R260, at `tret`),
and the probes that a `sweep` at this depth sent are forgotten, so that it starts anew when it issues again (R90). (That a word which traps ages the lanes as any issue event does is
the model's reading of R21, log entry 24.) -/
def Obligations.TrapEntry : Prop :=
  (∀ (s : State) (f : F) (imm : BitVec 16) (i : Instr) (cause : Nat), i = .trap f imm ∧ cause = 0x0D ∨ i = .brk f imm ∧ cause = 0x0E →
    s.Issues i → s.active i ≠ 0 → exec i s = .next (s.trapWord (s.active i) (.of cause (imm.setWidth 64) s.pc))) ∧
  (∀ (s : State) (t : Trap) (act : Mask), s.w.region = none → s.w.frames.length < 4 → s.handler s.b.ctx ≠ 0 →
    (t.cause = 0x0E → s.dbgBrk s.b.ctx = false) →
    let va := s.frameVa
    let u := s.trapWord act t
    let x := (s.w.ageRun s.w.table s.run).afterBurst s.pc s.run
    let fr : Frame :=
      { va := BitVec.ofNat 64 va, cause := t.cause, info := t.info, addr := t.addr, word := s.pc, run := s.run, active := act
        ientry := s.w.sp.ientry, promo := x.promo, burst := x.burst, pc := s.w.pc, age := x.age, groups := s.w.groups
        lat := s.w.r.lat, ext := t.ext, between := false, quarter := ((s.instrAt s.pc).map Instr.quarter).getD false }
    (∀ l < 32, x.ageOf l = if s.run.getLsbD l then 0 else if s.w.table.getLsbD l then s.w.ageOf l + 1 else s.w.ageOf l) ∧
    u.w.frames = fr :: s.w.frames ∧
    (∀ l < 32, u.w.pcAt l = (if s.w.exited.getLsbD l then s.w.pcAt l else s.handler s.b.ctx) ∧ u.w.ageOf l = 0 ∧
      ∀ e < 3, u.w.latch e l = if e = 0 then BitVec.ofNat 64 va else 0) ∧
    u = { s.wharfWrite s.b.ctx va (fr.bytes (s.w.frames.length + 1) s.w.exited) with
      probes := s.probes.filter fun p => !(p.blk == s.w.blk && p.wv == s.w.idx && p.depth == s.w.frames.length)
      w := { s.w with
        frames := u.w.frames, pc := u.w.pc, age := u.w.age, groups := [], promo := 0, burst := 0, yielded := false, window := none
        pins := [], r := { s.w.r with lat := u.w.r.lat }, sp := { s.w.sp with trapinfo := t.info, trapaddr := t.addr } } }) ∧
  ∀ (fr : Frame) (depth : Nat) (exited : Mask), fr.cause < 256 → depth < 256 → fr.burst < 2 ^ 32 → fr.ext.length ≤ 512 →
    (∀ l, SMap.get fr.age 0 l < 2 ^ 16) →
    let bs := fr.bytes depth exited
    bs.length = 2048 ∧ fieldAt bs 0 1 = fr.cause ∧ fieldAt bs 1 1 = depth ∧ fieldAt bs 8 8 = fr.info.toNat ∧
    fieldAt bs 0x10 8 = fr.addr.toNat ∧ fieldAt bs 0x18 8 = fr.word.toNat ∧ fieldAt bs 0x20 4 = fr.run.toNat ∧
    fieldAt bs 0x24 4 = fr.active.toNat ∧ fieldAt bs 0x28 4 = fr.ientry.toNat ∧ fieldAt bs 0x30 8 = fr.promo.toNat ∧
    fieldAt bs 0x38 4 = fr.burst ∧
    (∀ l < 32, fieldAt bs (0x40 + 8 * l) 8 = (SMap.get fr.pc 0 l).toNat ∧ fieldAt bs (0x140 + 2 * l) 2 = SMap.get fr.age 0 l ∧
      (exited.getLsbD l = true → fieldAt bs (0x180 + l) 1 = 2) ∧
      ∀ e < 3, fieldAt bs (0x200 + 24 * l + 8 * e) 8 = (SMap.get fr.lat 0 (32 * e + l)).toNat) ∧
    ∀ k, fieldAt bs (0x600 + k) 1 = (fr.ext.getD k 0).toNat

/-- R246, R379, R380, R381: `tret` without a frame is illegal; from 0x08, 0x0C and 0x11 it ends the wave; else it restores the PC
table, ages, burst, latch and parking, and a trapped run goes on where its cause says. At depth 4, with no handler, or for a
breakpoint that the debugger takes, a trap escalates: the block's waves are suspended and a record goes to the ring. (Lanes that exited
in the handler stay exited and leave the restored groups: the model's reading, log entry 18; what %trapinfo and %trapaddr show after a
nested `tret`: log entry 25; %mrow after a matrix word that trapped: R260.) -/
def Obligations.TrapReturn : Prop :=
  (∀ (s : State) (f : F),
    let i := Instr.tret f
    s.Issues i → s.active i ≠ 0 →
    (s.w.frames = [] → exec i s = .next (s.trapWord (s.active i) (.of 1 (encode i) s.pc))) ∧
    ∀ fr fs, s.w.frames = fr :: fs →
      (fr.cause = 0x08 ∨ fr.cause = 0x0C ∨ fr.cause = 0x11 → exec i s = .next (s.killWave s.w.key)) ∧
      (¬ (fr.cause = 0x08 ∨ fr.cause = 0x0C ∨ fr.cause = 0x11) →
        let after : Bool := !fr.between && decide (1 ≤ fr.cause ∧ fr.cause ≤ 7 ∨ 0x0D ≤ fr.cause ∧ fr.cause ≤ 0x0F)
        ∃ t, exec i s = .next t ∧
          (∀ l < 32, t.w.pcAt l =
            if after && fr.run.getLsbD l && !s.w.exited.getLsbD l then fr.word + 8 else SMap.get fr.pc 0 l) ∧
          t.w.groups = (fr.groups.map fun g => { g with mask := g.mask &&& ~~~s.w.exited }).filter (fun g => g.mask != 0) ∧
          (after = true → (fr.cause ≤ 5 ∨ fr.cause = 0x0D ∨ fr.cause = 0x0F) → t.w.sp.cprog = 0) ∧
          (fr.between = true ∨ fr.cause = 0x0A ∨ fr.cause = 0x0B ∨ fr.cause = 0x12 →
            t.w.sp.cprog = s.w.sp.cprog ∧ t.w.sp.mrow = s.w.sp.mrow) ∧
          (after = false ∨ fr.burst = 0 ∨ fr.promo ≠ fr.word → t.w.promo = fr.promo ∧ t.w.burst = fr.burst) ∧
          (after = true → fr.burst ≠ 0 → fr.promo = fr.word →
            t.w.burst = 0 ∧ t.w.promo = fr.promo ∨ t.w.burst = fr.burst ∧ t.w.promo = fr.word + 8 ∧
              t.w.runAt (fr.word + 8) = fr.run &&& ~~~s.w.exited) ∧
          t.w.window = s.w.window.map (· - 1) ∧ t.w.pins = (if s.w.window.any fun n => decide (n ≤ 1) then [] else s.w.pins) ∧
          t = { s with w := { s.w with
            frames := fs, pc := t.w.pc, age := fr.age, promo := t.w.promo, burst := t.w.burst, groups := t.w.groups
            window := t.w.window, pins := t.w.pins
            r := { s.w.r with lat := fr.lat }
            sp := { s.w.sp with trapinfo := t.w.sp.trapinfo, trapaddr := t.w.sp.trapaddr, mrow := t.w.sp.mrow, cprog := t.w.sp.cprog } } })) ∧
  ∀ (s : State) (t : Trap) (act : Mask), s.w.region = none → s.w.st ≠ .absent →
    let brk : Prop := t.cause = 0x0E ∧ s.dbgBrk s.b.ctx = true
    let u := s.trapWord act t
    (s.w.frames.length = 4 → t.cause = 0x11 ∨ t.cause = 0x08 → 
      u = (s.setW ((s.w.ageRun s.w.table s.run).afterBurst s.pc s.run).closeWindow).killWave s.w.key) ∧
    ∀ reason : Nat,
      (reason = 2 ∧ brk ∨ reason = 0 ∧ ¬ brk ∧ s.w.frames.length = 4 ∧ t.cause ≠ 0x11 ∧ t.cause ≠ 0x08 ∨
        reason = 1 ∧ ¬ brk ∧ s.w.frames.length ≠ 4 ∧ s.handler s.b.ctx = 0) →
      let rec_ := identField s.b s.w.idx ++ leBytes 1 t.cause ++ leBytes 1 reason ++ leBytes 6 0 ++ leBytes 8 s.pc.toNat ++ leBytes 8 t.addr.toNat
      let prod := (s.pfNum Pf.escprod).toNat % 2 ^ 32
      let cons := (s.pfNum Pf.esccons).toNat % 2 ^ 32
      let size := 2 ^ ((s.pfNum Pf.esclog2).toNat % 32)
      (∀ k ∈ s.wavesOf s.w.blk, (s.wave k).st ≠ .ended → (u.wave k).halted = true) ∧
      u.w.frames = s.w.frames ∧ u.w.r = s.w.r ∧ u.w.sp = s.w.sp ∧ u.mem = s.mem ∧
      (∀ l < 32, u.w.pcAt l = if reason = 2 ∧ s.run.getLsbD l then s.pc + 8 else s.w.pcAt l) ∧
      ((prod + 2 ^ 32 - cons) % 2 ^ 32 < size →
        u.hmem = Memory.setBytes s.hmem ((s.pfNum Pf.escbase).toNat + rec_.length * (prod % size)) rec_ ∧ u.escq = s.escq ∧
        (u.pfNum Pf.escprod).toNat = (prod + 1) % 2 ^ 32) ∧
      (size ≤ (prod + 2 ^ 32 - cons) % 2 ^ 32 → u.escq = s.escq ++ [rec_] ∧ u.hmem = s.hmem)

/-- R171, R247, R248: `rsr` writes a special register's value to D; `wsr` writes the special register it names: %rngctr per active
lane, the others from the lowest active lane, with reserved bits zero, and a reserved rounding mode is illegal; `ienter` opens a
region at the next word, adds 1 to %ientry and clears the latch. -/
def Obligations.SpecialRegisters : Prop :=
  ∀ (s : State) (f : F),
    (∀ r, f.a = .sr r → s.Gives (.rsr f) f.d (if r.wide then 2 else 1) (fun l => (s.special r l).toNat)) ∧
    (∀ i, i = Instr.wsr f → s.Issues i → s.active i ≠ 0 →
      let x := s.opnd32 f.a (lowLane (s.active i))
      let wrote (p : Spec) : Prop := exec i s = .next (s.finishes (s.setW { s.w with sp := p }) i true)
      (f.d = .sr .fmode → 5 ≤ x.toNat % 8 → s.w.region = none → exec i s = .next (s.trapWord (s.active i) (.of 1 (encode i) s.pc))) ∧
      (f.d = .sr .fmode → x.toNat % 8 < 5 → wrote { s.w.sp with fmode := x &&& 0xFF7 }) ∧
      (f.d = .sr .fflags → wrote { s.w.sp with fflags := x &&& 0x7F }) ∧
      (f.d = .sr .cprog → wrote { s.w.sp with cprog := x }) ∧
      (f.d = .sr .mrow → wrote { s.w.sp with mrow := x }) ∧
      (f.d = .sr .wbase → wrote { s.w.sp with wbase := x }) ∧
      (f.d = .sr .rngctr → ∃ m : SMap W64, wrote { s.w.sp with rng := m } ∧
        ∀ l < 32, SMap.get m 0 l = if (s.active i).getLsbD l then s.opnd64 f.a l else SMap.get s.w.sp.rng 0 l)) ∧
    ∀ i, i = Instr.ienter f → s.Issues i → s.active i ≠ 0 →
      ∃ r : Region, exec i s = .next (s.finishes (s.setW { s.w with
          region := some r, sp := { s.w.sp with ientry := s.w.sp.ientry + 1 }, r := { s.w.r with lat := [] } }) i true) ∧
        r.entry = s.pc + 8 ∧ r.fflags = s.w.sp.fflags ∧ r.rng = s.w.sp.rng ∧ r.view = s.w.view ∧ r.exited = s.w.exited ∧ r.undo = [] ∧
        r.closed = false ∧ ∀ l < 32, SMap.get r.pc 0 l = if s.run.getLsbD l then s.pc + 8 else s.w.pcAt l

/-- R20 to R22, R30, R168, R169, R185, R248, R322, R324: what stands before the effect of every word. A word that closes the open
region waits for its release; a register beyond the allocation takes 0x02; a word whose operands are not delivered waits, and so does
a memory word while 32 are in flight; with no active lane it only advances, and `nop` does so always. Among runs that can issue, the one at the lowest PC issues
unless a lane's age has reached 64. -/
def Obligations.IssueGate : Prop :=
  (∀ (s : State) (i : Instr), i.isWord = true → s.w.st = .running → s.run ≠ 0 →
    (i.closes = true → s.w.region ≠ none → exec i s = .next s.closeRegion) ∧
    ((i.closes = true → s.w.region = none) →
      (∀ info, s.boundsFail i = some info → exec i s = .next (s.trapWord (s.active i) (.of 2 info s.pc))) ∧
      (s.boundsFail i = none → (s.waitsFor i = true ∨ i.isMem = true ∧ Config.memWords ≤ s.wordsInFlight) →
        exec i s = .next s.heldBack)) ∧
    (s.Issues i → s.active i = 0 → i.ownGuard = false → exec i s = .next (s.advanced i)) ∧
    (∀ f, i = .nop f → s.Issues i → exec i s = .next (s.advanced i))) ∧
  (∀ (s : State) (i : Instr),
    let t := s.advanced i
    (∀ l < 32, t.w.pcAt l = (if s.run.getLsbD l then s.pc + 8 else s.w.pcAt l) ∧
      t.w.ageOf l = if s.run.getLsbD l then 0 else if s.w.table.getLsbD l then s.w.ageOf l + 1 else s.w.ageOf l) ∧
    t = { s with w := { s.w with
      pc := t.w.pc, age := t.w.age, burst := t.w.burst, promo := t.w.promo, window := t.w.window, pins := t.w.pins, begun := t.w.begun
      stall := none, r := { s.w.r with lat := t.w.r.lat } } } ∧
    t.w.window = s.w.window.map (· - 1) ∧ t.w.pins = (if s.w.window.any fun n => decide (n ≤ 1) then [] else s.w.pins)) ∧
  (∀ (s : State) (f : F) (i : Instr) (l : Nat), i.fields = some f → l < 32 →
    let t := s.advanced i
    let pushed : Bool := (s.active i).getLsbD l && f.h != 0
    ∀ e < 3, t.w.latch e l = if pushed then (if e = 0 then s.holdVal i f l else s.w.latch (e - 1) l) else s.w.latch e l) ∧
  ∀ (s : State) (pc : W64) (promoted : Bool), s.w.burst = 0 → (∃ p ∈ s.w.runPcs, s.held p = false) → s.headRun = some (pc, promoted) →
    pc ∈ s.w.runPcs ∧ s.held pc = false ∧ (promoted = true ↔ ∃ p ∈ s.w.runPcs, s.held p = false ∧ 64 ≤ s.w.runAge p) ∧
    ∀ p ∈ s.w.runPcs, s.held p = false → if promoted then s.w.runAge p ≤ s.w.runAge pc else pc ≤ p

/-- R390, Tables 79, 80, 99, 104, 110, 129: right after reset no wave, block or work exists, BARs are not decoded, registers read
the reset values the spec gives, and the memories list nothing, in canonical form. -/
def Obligations.ResetState : Prop :=
  State.reset.w = .absent ∧ State.reset.b = .absent ∧ State.reset.run = 0 ∧ State.reset.waves = [] ∧ State.reset.blocks = [] ∧
  State.reset.grps = [] ∧ State.reset.mgmt.boot = .reset ∧ State.reset.up = false ∧ State.reset.memWf ∧
  State.reset.mem = [] ∧ State.reset.hmem = [] ∧ State.reset.dsm = [] ∧
  State.reset.pfNum Pf.poolcfg = 64 ∧ fld (State.reset.pfNum Pf.pecfg) 16 32 = 10000 ∧ fld (State.reset.pfNum Pf.pecfg) 0 8 = 192 ∧
  fld (State.reset.pfNum Pf.xpcfg) 63 1 = 0 ∧ State.reset.xpMaxrep = 8 ∧ fld (State.reset.pfNum Pf.xpcfg) 32 16 = 1000 ∧
  fld (State.reset.pfNum Pf.xpcfg) 16 16 = 100 ∧ fld (State.reset.pfNum Pf.xpthr) 32 32 = 0xFFFFFFFF ∧ fld (State.reset.pfNum Pf.xpthr) 0 32 = 0 ∧
  State.reset.exp.live = [(0, 0)] ∧ State.reset.xPublished = 0 ∧
  (∀ c ∈ List.range 16, ∀ d ∈ List.range 8, fld (State.reset.pfNum (Pf.tbcfg (c + 1) d)) 32 32 = 0xFFFFFFFF) ∧
  ∀ c, State.reset.ringEn c = false ∧ State.reset.prodOf c = 0 ∧ State.reset.consOf c = 0

/-- R20, R28, R165, R184, R369, R371, R378, R401: a step of a running wave issues the instruction that its head run's word decodes to; a word
that is illegal takes 0x01 with the word in %trapinfo; a fetch that fails takes its trap (0x05 beyond 2^56 and from a page that is no view
page with X, 0x12 for a malformed entry; 0x04 at a PC that is no multiple of 8, the model's choice, log entry 9), one that misses joins the fault buffer, and a poisoned word ends the block's launch. A pending event is executed; every eighth step is the wave's (the model's choice, log entry 6). A wave whose promoted run is held has lost its burst (R22). After a step the model's
counters have advanced (log entry 7). -/
def Obligations.StepRuns : Prop :=
  (∀ (s : State) (pc : W64) (promoted : Bool), s.sched = [] → (s.inbox = [] ∨ s.fairTurn = true) → s.w.st = .running → s.w.halted = false →
    s.w.fwait = none → s.w.pend = [] → s.headRun = some (pc, promoted) →
    let u : State := { s with run := s.w.runAt pc, w := if promoted then { s.w with promo := pc, burst := 8 } else s.dropBurst.w }
    let low : W64 := BitVec.ofNat 64 (lowLane u.run)
    (∀ x i, u.fetch pc = .word x → decode x = some i → step s = finish (exec i u)) ∧
    (∀ x, u.fetch pc = .word x → decode x = none → step s = .next (u.trapWord u.run (.of 1 x pc)).tick) ∧
    (∀ c, u.fetch pc = .bad c → step s = .next (u.trapRun u.run (.of c low pc)).tick) ∧
    (u.fetch pc = .miss → step s = .next (u.joinFault pc 2 (.of 0x12 low pc)).tick) ∧
    (u.fetch pc = .stall → step s = .next u.tick) ∧
    (∀ pa, u.fetch pc = .poison pa → step s = .next (u.poisonBlock u.w.blk pa).tick)) ∧
  (∀ (s : State) (pc : W64),
    let inside := pc.toNat < 2 ^ 56
    (pc.toNat % 8 ≠ 0 → s.fetch pc = .bad 4) ∧
    (pc.toNat % 8 = 0 → ¬ inside → s.fetch pc = .bad 5) ∧
    (pc.toNat % 8 = 0 → inside → s.migrating s.b.ctx pc.toNat = true → s.fetch pc = .stall) ∧
    (pc.toNat % 8 = 0 → inside → s.migrating s.b.ctx pc.toNat = false →
      (s.walk s.b.ctx pc.toNat = .missing → s.fetch pc = .miss) ∧
      (s.walk s.b.ctx pc.toNat = .malformed → s.fetch pc = .bad 0x12) ∧
      ∀ l, s.walk s.b.ctx pc.toNat = .leaf l →
        let p : Place := .view pc.toNat (l.paOf pc.toNat)
        (¬ (l.cls = .view ∧ l.x = true) → s.fetch pc = .bad 5) ∧
        (l.cls = .view → l.x = true → s.readsPoison p 8 = false → ∃ x, s.fetch pc = .word x ∧ x.toNat = s.readPlace p 8) ∧
        (l.cls = .view → l.x = true → s.readsPoison p 8 = true → s.fetch pc = .poison (l.paOf pc.toNat)))) ∧
  (∀ (s : State) (e : Instr) (es : List Instr), s.sched = [] → s.inbox = e :: es → s.fairTurn = false →
    step s = finishEvent (exec e { s with inbox := es })) ∧
  (∀ (t : State) (x : Fault), finish (.next t) = .next t.tick ∧ finish (.fault x) = .fault x ∧ finishEvent (.next t) = .next t.tickEvent ∧
    (t.w.runnable = true → t.tickEvent = { t with free := t.free + 1, cycle := t.cycle + 1 })) ∧
  (∀ s : State, s.dropBurst = { s with w := { s.w with burst := if s.held s.w.promo then 0 else s.w.burst } }) ∧
  ∀ s : State, s.tick.free = s.free + 1 ∧ s.tick.cycle = s.cycle + 1 ∧ s.tick.mem = s.mem ∧ s.tick.hmem = s.hmem ∧ s.tick.dsm = s.dsm ∧
    (s.waves = [] → s.tick = { s with free := s.free + 1, cycle := s.cycle + 1 })

/-- Words that the spec's own examples give (chapters 6 to 13), with the instructions they stand for: formats F, P and X, guards,
pairs, windows of modifiers and each space. -/
def Obligations.SpecWordsDecode : Prop :=
  decode 0x0040060182800004 = some (.add ⟨.always, .v 3, .v 1, .s 5, .v 0, 0⟩ .i32 true) ∧
  decode 0x2804000000000003 = some (.br ⟨.pos 0, .v 0, .v 0, .v 0, .v 0, 0⟩ 3) ∧
  decode 0x2800000000000002 = some (.br ⟨.always, .v 0, .v 0, .v 0, .v 0, 0⟩ 2) ∧
  decode 0xC1C3070012345678 = some (.movl ⟨.pos 0, .s 7, 0x12345678⟩) ∧
  decode 0x800020401E01C200 = some (.pairWord ⟨.add, .always, .v 1, .v 2, 0⟩ ⟨.fmul, .always, .v 7, .v 8, 0⟩) ∧
  decode 0x3000110400050040 = some (.ld ⟨.always, .v 8, .s 4, .v 0, .v 0, 0⟩ .w64 .g 0x40) ∧
  decode 0x40800A02019060C0 = some (.aord ⟨.always, .v 5, .v 2, .v 3, .s 6, 0⟩ .add .f32 true false false .blk) ∧
  decode 0x4083FE06039060C0 = some (.aord ⟨.always, .zero, .v 6, .v 7, .s 6, 0⟩ .add .f32 true false false .blk) ∧
  decode 0x5802C50483108021 = some (.mma ⟨.always, .acc 2, .s 4, .s 6, .s 8, 0⟩ .f32 .f32 .sq false false) ∧
  decode 0x6942A550A8800000 = some (.dmul ⟨.always, .d 2, .d 0, .d 1, .v 0, 0⟩) ∧
  decode 0x7000110301000000 = some (.xroute ⟨.always, .v 8, .s 3, .v 2, .v 0, 0⟩) ∧
  decode 0 = none

/-- R165, R184: every legal word, with every operand and modifier that its encoding admits, decodes to itself; and what decodes is
legal and encodes to the word it came from. -/
def Obligations.EncodeDecode : Prop :=
  (∀ i : Instr, i.isWord = true → i.wf = true → decode (encode i) = some i) ∧
  ∀ (w : W64) (i : Instr), decode w = some i → i.isWord = true ∧ i.wf = true ∧ encode i = w

/-- Every step keeps the canonical form of device memory, host memory and die shared memory. -/
def Obligations.MemoryStaysCanonical : Prop :=
  ∀ s t : State, s.memWf → step s = .next t → t.memWf

/-! ### Events of the part -/

/-- R24, R71, R78, R80, R82, R91, R99, R121 to R123, R125, R138, R226: events of waits and of memory's side. A parked group whose
waits are satisfied rejoins with age 0 and its results; an engine reads a source, then lands it where it goes; a round's request is
held, a full buffer spilled, and the phase of its round tried again; a reply delivers its value and flags, or its poison; an order gate admits a request in its turn, a free lock's acquire ending its own wait before it takes the lock; a probe comes back
once what was sent before it has arrived. (The model's readings: a request that finds its full buffer without room is posted again,
log entry 32; an engine waits for its bucket and pays it, 42; commands, requests and probes of a channel go in the order of their
numbers, 95.) -/
def Obligations.WaitEvents : Prop :=
  (∀ (s : State) (g : Group) (gs : List Group), s.w.st = .running → s.w.groups = g :: gs →
    let e := Instr.parkedGroupRejoin s.w.blk s.w.idx
    let ready : Prop := s.w.halted = false ∧ s.w.fwait = none ∧ s.w.pend = [] ∧ s.headRun = none ∧ ∀ r ∈ g.waits, r.done = true
    (¬ ready → exec e s = .next s) ∧
    (ready → (∀ r ∈ g.waits, r.kind ≠ .count) →
      ∃ (u t : State), exec e s = .next t ∧ u = { s with w := { s.w with groups := gs, age := u.w.age, burst := u.w.burst } } ∧
        (∀ l < 32, u.w.ageOf l = if g.mask.getLsbD l then 0 else s.w.ageOf l) ∧
        (u.w.burst = if s.w.burst ≠ 0 ∧ s.held s.w.promo = true then 0 else s.w.burst) ∧
        let v := g.waits.foldl State.writeRes u
        t = { v with w := { v.w with r := { v.w.r with lat := t.w.r.lat } } } ∧ (g.hold = [] ∨ g.bad = true → t.w.r.lat = v.w.r.lat) ∧
        (g.bad = false → SMap.rising none g.hold = true → (∀ x ∈ g.hold, x.1 < 32) → ∀ l < 32, ∀ j < 3, t.w.latch j l =
          match SMap.find? g.hold l with
          | none => v.w.latch j l
          | some x => if j = 0 then x else v.w.latch (j - 1) l))) ∧
  (∀ (s : State) (c : Cmd) (e : Elem) (rest : List Elem), s.cmd? c.id = some c → c.els = e :: rest → (∀ l, e.src ≠ .data l) →
    let ctx := (s.block c.blk).ctx
    let go : Bool := !s.cmdBehind c && s.canPay ctx c.src (e.readFee c.src)
    let u := s.pay ctx c.src (e.readFee c.src)
    (go = false → exec (.engineSourceRead c.id) s = .next (s.post (.engineSourceRead c.id))) ∧
    (∀ pa, go = true → s.srcPoison c e = some pa →
      exec (.engineSourceRead c.id) s = .next (u.poisonBlock c.blk pa)) ∧
    (go = true → s.srcPoison c e = none → ∃ t, exec (.engineSourceRead c.id) s = .next t ∧
      t.cmds = s.cmds.map (fun x => if x.id = c.id then
        { c with els := { e with src := .data (s.srcBytes c e) } :: rest, chan := (e.leg c.src).map fun y => (y.1, y.2, s.ids) } else x) ∧
      t.inbox = s.inbox ++ [.engineLand c.id] ∧
      t = { u with cmds := t.cmds, inbox := t.inbox, b := t.b, blocks := t.blocks, ids := if (e.leg c.src).isSome then s.ids + 1 else s.ids } ∧
      ∀ h, t.block h = { s.block h with pendR := (t.block h).pendR })) ∧
  (∀ (s : State) (c : Cmd) (e : Elem) (rest : List Elem) (bs : List Byte), s.cmd? c.id = some c → c.els = e :: rest → e.src = .data bs →
    let ctx := (s.block c.blk).ctx
    (exec (.engineLand c.id) s = .next (if s.cmdBehind c || !s.canPay ctx c.src (e.landFee c.src) then s.post (.engineLand c.id)
      else (s.pay ctx c.src (e.landFee c.src)).landHead c e bs rest)) ∧
    let k := 32 * c.blk + c.wv
    let t := s.landBytes c e.dst bs
    match e.dst with
    | .view va => ∀ j < bs.length, SMap.find? (t.wave k).view.bytes (va + j) = bs[j]?
    | .sc off => Written (s.block c.blk).sc (t.block c.blk).sc off bs
    | .dm key => Written s.dsm t.dsm key bs
    | .dev pa => Written s.mem t.mem pa bs
    | .host pa => Written s.hmem t.hmem pa bs
    | .reg d lane sz => s.WaveBecomes t k { (s.wave k).setOpnd d sz.regs lane (sz.loaded (leNat bs)) with
        pending := (s.wave k).pending.erase (d, sz.regs) }) ∧
  (∀ (s : State) (c : Cmd), s.cmd? c.id = some c → c.els = [] →
    exec (.engineLand c.id) s = .next (if s.wordGoesOn c then s.post (.engineLand c.id) else s.endCmd c)) ∧
  (∀ (b : Block) (k j : Nat), k < 64 → j < 64 → (b.tagDown k).tagready.getLsbD j =
    (b.tagready.getLsbD j || (decide (j = k) && decide (SMap.get b.inflight 0 k ≤ 1)))) ∧
  (∀ (s : State) (q : Req), (s.reqs.find? fun x => x.id == q.id) = some q →
    let e := Instr.roundRequestArrive q.id
    let full : Bool := decide (Config.holdEntries ≤ (s.buffered q.loc).length)
    let moved (x : Req) : Bool := full && x.id != q.id && x.held && !x.spilled && bufferOf x.loc == bufferOf q.loc
    (q.held = true → exec e s = .next s) ∧
    (q.held = false → s.reqBehind q = true → exec e s = .next (s.postOnce e)) ∧
    (q.held = false → s.reqBehind q = false → full = true → s.runTo q.loc = none → exec e s = .next ((s.postOnce e).roundArrived q)) ∧
    (∀ u : State, (q.round = (u.bar q.blk q.bar).phase → u.roundArrived q = (u.checkClose q.blk q.bar).wake) ∧
      (q.round ≠ (u.bar q.blk q.bar).phase → u.roundArrived q = u)) ∧
    (q.held = false → s.reqBehind q = false → (full = true → s.runTo q.loc ≠ none) →
      ∃ t : State, exec e s = .next (t.roundArrived q) ∧ t = { s with reqs := t.reqs } ∧ t.reqs.length = s.reqs.length ∧
        ∀ (n : Nat) (x : Req), s.reqs[n]? = some x → t.reqs[n]? = some { x with
          held := x.held || x.id == q.id, spilled := x.spilled || moved x
          far := if moved x then s.runTo q.loc == some true else x.far })) ∧
  (∀ (s : State) (r : Reply), (s.replies.find? fun x => x.id == r.id) = some r →
    let k := 32 * r.blk + r.wv
    let v : State := { s with replies := s.replies.filter fun x => x.id != r.id }
    let behind : Prop := ∃ x ∈ s.replies, x.id < r.id ∧ x.src = r.src ∧ (x.dest = r.dest ∨ x.blk = r.blk)
    (behind → exec (.memoryReply r.id) s = .next (s.postOnce (.memoryReply r.id))) ∧
    (∀ loc, ¬ behind → (s.wave k).st ≠ .absent → r.poison = some loc → exec (.memoryReply r.id) s = .next (v.poisonBlock r.blk loc)) ∧
    (¬ behind → (s.wave k).st ≠ .absent → r.poison = none →
    ∃ u : State, exec (.memoryReply r.id) s = .next (if (s.block r.blk).st = .saved then
        (u.orRecord r.blk r.wv (r.flags.setWidth 32)).putRecord r.blk else u) ∧
      v.WaveBecomes u k { ((s.wave k).setOpnd r.dst r.regs.length r.lane (regsNat r.regs)).orFlags r.flags with
        pending := (s.wave k).pending.erase (r.dst, r.regs.length) } ∧
      ∀ (d : BitVec 8) (j : Nat), r.dst = .v d → j < r.regs.length → (u.wave k).vreg (d.toNat + j) r.lane = r.regs.getD j 0)) ∧
  (∀ (s : State) (q : Req), (s.gate.find? fun x => x.id == q.id) = some q →
    let e := Instr.gateAdmit q.id
    (q.held = false → s.reqBehind q = true → exec e s = .next (s.postOnce e)) ∧
    (q.held = true ∨ s.reqBehind q = false →
      let u : State := if q.held then s else { s with gate :=
        (s.gate.filter fun x => x.id != q.id) ++ (s.gate.filter fun x => x.id == q.id).map fun x => { x with held := true } }
      let first : Prop := ∃ a x b, (u.gate.filter fun y => y.held) = a ++ x :: b ∧ (∀ y ∈ a, y.id ≠ q.id) ∧ x.id ≠ q.id ∧ x.lock = true ∧
        x.op = .swap ∧ x.loc / 64 = q.loc / 64 ∧ x.spilled = false
      let blocked : Prop := q.lock = true ∧ q.op = .swap ∧ (s.loc (q.loc + 1) 1 % 2 = 1 ∨ first)
      (s.gateBehind q = true → exec e s = .next u) ∧
      (s.gateBehind q = false →
        (isDm q.loc = false → s.replaying q.ctx = true → exec e s = .next (u.gateReplay q)) ∧
        (isDm q.loc = true ∨ s.replaying q.ctx = false → blocked → exec e s = .next u) ∧
        (isDm q.loc = true → ¬ blocked → exec e s = .next (u.admitted q)) ∧
        (isDm q.loc = false → s.replaying q.ctx = false → ¬ blocked →
          (∀ t, u.logAdmit q.ctx q.lineVa q.ident q.lane = some t → exec e s = .next (t.admitted q)) ∧
          (u.logAdmit q.ctx q.lineVa q.ident q.lane = none →
            exec e s = .next { u with gate := u.gate.map fun x => if x.id = q.id then { x with spilled := true } else x })))) ∧
    (q.lock = false → ∃ u : State, s.admitted q = u.wake ∧
      u = { ({ s with gate := s.gate.filter fun x => x.id != q.id }).applyReq q with inbox := u.inbox } ∧
      ∀ x ∈ s.gate, x.id ≠ q.id → x.loc / 64 = q.loc / 64 → .gateAdmit x.id ∈ u.inbox) ∧
    (q.lock = true →
      let k := 32 * q.blk + q.wv
      let v : State := { s with gate := s.gate.filter fun x => x.id != q.id }
      let n := v.loc (q.loc + 8) 8 + 1
      let a := ((v.setLoc (q.loc + 1) 1 1).setLoc (q.loc + 4) 4 q.blk).setLoc (q.loc + 8) 8 n
      let wait := (s.wave k).waits.find? fun r => r.kind == .free && r.aux == q.id && !r.done
      ∃ u w : State, s.admitted q = u.wake ∧ u = { w with inbox := u.inbox } ∧
        (∀ x ∈ w.gate, x.loc / 64 = q.loc / 64 → .gateAdmit x.id ∈ u.inbox) ∧
        (v.poisoned q.loc 64 = true → w = v.poisonBlock q.blk q.loc) ∧
        (v.poisoned q.loc 64 = false → q.op = .store → w = (v.freeRelease q.loc).ungrant k q.loc true) ∧
        (v.poisoned q.loc 64 = false → q.op ≠ .store → wait = none → w = a.grant k q.loc true q.va 0) ∧
        ∀ r, v.poisoned q.loc 64 = false → q.op ≠ .store → wait = some r →
          let d := a.satisfy k r (bytesRegs 2 n)
          d.2 = { r with done := true, res := bytesRegs 2 n } ∧
          w = (d.1.updWave k fun y => y.mapWaits fun x => if x = r then d.2 else x).grant k q.loc true q.va 0)) ∧
  (∀ (s : State) (c : Nat),
    ((s.ctx c).log ≠ none → exec (.replayLogIndex c) s = .next s) ∧
    ((s.ctx c).log = none → ∃ t, exec (.replayLogIndex c) s = .next t ∧ (t.ctx c).log = some (s.logRead c) ∧
      t = { s.setCtx c { s.ctx c with log := some (s.logRead c) } with inbox := t.inbox } ∧
      ∀ e ∈ s.grps, e.2.st = .pending → .launchStart e.1 ∈ t.inbox)) ∧
  ∀ (s : State) (p : Probe), (s.probes.find? fun x => x.id == p.id) = some p →
    let gone (n src dest : Nat) : Prop := n < p.id → src = p.die → p.far = false ∧ dest ≠ p.die
    let quiet : Prop := (∀ c ∈ s.cmds, ∀ a b n, c.chan = some (a, b, n) → gone n a b) ∧
      (∀ q ∈ s.reqs ++ s.gate, q.held = false → gone q.id q.src (locDie q.loc)) ∧ ∀ r ∈ s.replies, gone r.id r.src r.dest
    (quiet → exec (.sweepProbeReturn p.id) s =
      .next { s with probes := s.probes.map fun x => if x.id = p.id then { x with returned := true } else x }) ∧
    (¬ quiet → exec (.sweepProbeReturn p.id) s = .next (s.post (.sweepProbeReturn p.id)))

/-- R15, R16, R32, R35 to R37, R42, R64, R75, R115 to R117, R120, R243, R331, R353, R357, R358, R360 to R363: events of work. Instances
end and fold into what holds them, a byte at a time by the changer that R15 names, conflicts recorded; a launch starts once what it waits for has ended; a die places its first block that fits; the
priority, deadlock and stall checks, pressure, towing and token buckets act. (The model's readings: DONE of a cancelled launch counts
all its members, log entry 101; a core of the package is numbered 36 × die + core in a tow, 43; a tow asks for a word boundary and
no command in flight, and the forwarding entry goes once what the old die sent before has arrived, 98; a bucket is held as the
deficit from its depth, 42.) -/
def Obligations.WorkEvents : Prop :=
  (∀ (s : State) (h : Nat),
    let b := s.block h
    let e := Instr.instanceEnd .block h
    (b.st = .resident → exec e s = .next (s.afterWave h)) ∧
    (b.st ≠ .resident → b.st ≠ .ended → exec e s = .next s) ∧
    (b.st = .ended → b.failed = false → (∃ c ∈ s.cmds, c.blk = h) → exec e s = .next (s.postOnce e)) ∧
    (b.st = .ended → (∀ c ∈ s.cmds, c.blk ≠ h) → ∃ t, exec e s = .next t ∧ (t.block h).st = .absent ∧
      ∀ g, SMap.find? s.grps b.grp = some g → ∃ g', SMap.find? t.grps b.grp = some g' ∧ g'.ended = g.ended + 1 ∧
        g'.members = (if b.cancelled || b.failed then g.members
          else insertMember ⟨b.mem, b.start, b.view, b.parts, b.carried, if b.carried != [] then 3 else 1⟩ g.members) ∧
        g'.lost = (if b.cancelled then SMap.insert g.lost b.mem () else g.lost) ∧ SMap.find? g'.places b.mem = some (b.die, b.core, b.slots))) ∧
  (∀ (s : State) (id : Nat) (g : Grp), SMap.find? s.grps id = some g → g.kind = .host → g.st ≠ .ended → s.allEnded id = true →
    let dead := g.cancelled || g.failed
    let f := s.foldMembers g.ctx g.members
    ∃ t g', exec (.instanceEnd .launch id) s = .next t ∧ SMap.find? t.grps id = some g' ∧ g'.st = .ended ∧
      g'.done = BitVec.ofNat 32 g.nmem ∧ g'.result = (if dead then [] else f.bytes) ∧ g'.confl = (if dead then none else f.record) ∧
      g'.state = if g.cancelled then 2 else if g.failed || f.record.isSome then 3 else 1) ∧
  (∀ ms : List Member, ms.Pairwise (fun a b => a.idx < b.idx) → (∀ m ∈ ms, SMap.rising none m.view = true) →
    (∀ (s : State) (c : Nat), FoldsTo ms (·.idx) (·.view) (fun m => s.overByte c m.start) (·.carried) (s.foldMembers c ms)) ∧
    ∀ (twin : Member → Nat → Byte) (path : Nat → Nat → Bool), GraphFoldsTo ms twin path (graphFold ms twin path)) ∧
  (∀ (s : State) (id : Nat) (g : Grp), SMap.find? s.grps id = some g → g.kind = .fork → g.st ≠ .ended → s.allEnded id = true →
    ∃ t, exec (.instanceEnd .fork id) s = .next t ∧
      let k := 32 * g.pblk + g.pwv
      t.wave k = if (s.wave k).st = .forked then { s.wave k with st := .running } else s.wave k) ∧
  (∀ (s : State) (id : Nat) (v : Lev), SMap.find? s.levs id = some v → v.finished = false →
    (v.lvl = 3 → v.ended = v.launches.length → v.last = true ∨ v.cancelled = true →
      let f := graphFold v.members (fun m va => s.overByte v.ctx m.start va)
        (hasPath (s.predsOf v.ctx v.job.toNat v.phase.toNat v.graph.toNat) 4096)
      ∃ t v', exec (.instanceEnd .graph id) s = .next t ∧ SMap.find? t.levs id = some v' ∧ v'.finished = true ∧
        v'.state = (if v.cancelled then 2 else if f.record.isSome then 3 else 1) ∧ v'.result = if v.cancelled then [] else f.bytes) ∧
    (v.lvl = 4 → v.ended = v.launches.length → v.last = true ∨ v.cancelled = true → ∀ e, e = Instr.instanceEnd .phase id ∨ e = .stepBoundary id →
      ∃ t v', exec e s = .next t ∧ SMap.find? t.levs id = some v' ∧ v'.finished = true ∧
        v'.state = (if v.cancelled then 2 else if (s.foldMembers v.ctx v.members).record.isSome then 3 else 1) ∧
        (t.ctx v.ctx).pcur = none ∧ (t.ctx v.ctx).shadow = []) ∧
    (v.lvl = 5 → v.ended = v.launches.length → v.last = true ∨ v.cancelled = true → ∃ t v', exec (.instanceEnd .job id) s = .next t ∧ SMap.find? t.levs id = some v' ∧ v'.finished = true ∧
      v'.done = BitVec.ofNat 32 v.ended ∧ v'.state = if v.cancelled then 2 else 1)) ∧
  (∀ (s : State) (blk wv : Nat),
    let k := 32 * blk + wv
    exec (.waveEndAfterLaunches blk wv) s = .next (if (s.wave k).st = .ending ∧ s.launchesDone k = true then s.finishWave k else s)) ∧
  (∀ (s : State) (id off : Nat) (g : Grp), SMap.find? s.grps id = some g → g.st = .pending → g.kind ≠ .fork → g.cancelled = false →
    (s.ctx g.ctx).killing = false →
    (s.mayStart g = false → exec (.launchStart id) s = .next s) ∧
    (g.kind = .host → s.replaying g.ctx = true → (s.ctx g.ctx).log = none → s.mayStart g = false) ∧
    (s.mayStart g = true → s.dsmFree (dsmUnit g.dsm) = some off → g.copy = false ∨ s.prank g.ctx ≠ 0 →
      let v := if g.kind = .device then (g.start, g.vis) else s.startView g
      ∃ t, exec (.launchStart id) s = .next t ∧
        SMap.find? t.grps id = some { g with st := .running, start := v.1, vis := v.2, dsmOff := off } ∧ t.mem = s.mem ∧
        ∀ a, Memory.byte t.dsm a = if off ≤ a % 2 ^ 25 ∧ a % 2 ^ 25 < off + dsmUnit g.dsm then 0 else Memory.byte s.dsm a)) ∧
  (∀ (g : Grp) (h i : Nat) (image : SMap W32),
    let w := startWave g h i image
    w.st = .running ∧ w.blk = h ∧ w.idx = i ∧ w.exited = 0 ∧ (∀ l < 32, w.pcAt l = g.entry) ∧ w.sregs 0 2 = g.args.toNat ∧
    w.sregs 2 2 = g.desc.toNat ∧ (∀ n, 4 ≤ n → w.sreg n = 0) ∧ w.sp = { Spec.zero with fmode := g.fmode } ∧
    ∀ n l, w.vreg n l = SMap.get image 0 (32 * n + l)) ∧
  (∀ (s : State) (die : Nat),
    (s.waitingOn die).Perm (s.candidates die) ∧ (s.waitingOn die).Pairwise (fun x y => ¬ x.prio < y.prio) ∧
    (s.waitingOn die).Pairwise (fun x y => x.peer y = true → Cand.stageBefore y x = false) ∧
    ((∀ c ∈ s.candidates die, c.pipe = none) → (s.waitingOn die).Pairwise fun x y => Cand.before y x = false) ∧
    ∀ c t, (s.waitingOn die).find? (fun c => (s.placeCand die c).isSome) = some c → s.placeCand die c = some t →
      exec (.blockPlace die) s =
        .next (if c.blk.isSome ∧ (s.block (c.blk.getD 0)).st = .saved then t else t.postOnce (.blockPlace die))) ∧
  (∀ (s : State) (die core : Nat) (c : Cand) (cs : List Cand), s.waitingOn die = c :: cs →
    ∃ t : State, exec (.splitChange die core) s = .next (t.postOnce (.blockPlace die)) ∧ t = { s with cores := t.cores } ∧
      (t.coreOf die core).split = if s.resident die core = [] then splitOf (s.candAl c).scratch else (s.coreOf die core).split) ∧
  (∀ (s : State) (die holder : Nat),
    let b := s.block holder
    let e := Instr.inheritanceSave die holder
    (b.st ≠ .waiting ∧ b.st ≠ .saved ∨ b.die ≠ die ∨ s.waitedFor holder = false → exec e s = .next s) ∧
    (b.st = .waiting ∨ b.st = .saved → b.die = die → s.waitedFor holder = true →
      ((s.chooseCore b.ctx b.al die).isSome = true → exec e s = .next (s.postOnce (.blockPlace die))) ∧
      (s.chooseCore b.ctx b.al die = none →
        let hs := s.residentDown fun x => x.die == die && decide (x.prio < b.prio)
        (hs.find? s.maySave = none → exec e s = .next s) ∧
        ∀ h, hs.find? s.maySave = some h → exec e s = .next ((s.postOnce (.blockSave h)).postOnce e)))) ∧
  (∀ s : State, exec .priorityPropagate s = .next s.reprio ∧
    let look (k : Nat) := s.findCycle s.wft k (s.wft.length + 1) k [k]
    let ks := s.byId s.waveKeys
    ks.Perm s.waveKeys ∧ (ks.Pairwise fun x y => gidLt (s.waveKey y []) (s.waveKey x []) = false) ∧
    (ks.findSome? look = none → exec .packageCycleDetect s = .next s) ∧
    ∀ c, ks.findSome? look = some c → exec .packageCycleDetect s = .next ((s.raiseDeadlock c true).postOnce .packageCycleDetect)) ∧
  (∀ (s : State) (blk wv : Nat),
    let k := 32 * blk + wv
    let w := s.wave k
    let open_ : Prop := w.st = .running ∧ w.halted = false ∧ ∀ t ∈ w.pend, t.cause ≠ 0x0B
    (¬ open_ ∨ s.stallOf k = none → exec (.stallWatchdogExpiry blk wv) s = .next s) ∧
    ∀ c va, open_ → s.stallOf k = some (c, va) → ∃ t, exec (.stallWatchdogExpiry blk wv) s = .next t ∧
      s.WaveBecomes t k { w with pend := w.pend ++ [.of 0x0B (BitVec.ofNat 64 c) va], stall := none }) ∧
  (∀ (s : State) (die : Nat), die < 8 → SMap.rising none s.grps = true → ∃ t, exec (.pipelinePressureInterval die) s = .next t ∧
    t = { s with press := t.press, inbox := t.inbox, b := t.b, blocks := t.blocks } ∧
    (∀ h, t.block h = { s.block h with heir := (t.block h).heir }) ∧
    let u := { s with press := t.press }
    let stages := s.grps.filter fun e => e.2.kind == .host && e.2.stage != 0xFF && e.2.st == .running
    ∀ id g, (id, g) ∈ stages → SMap.get t.press Press.zero (8 * id + die) = s.pressNow id g die ∧
      ∀ f h, u.stageFor die stages (id, g) = some f → (u.residentDown fun b => b.die == die && b.grp == id).find? u.maySave = some h →
        (t.block h).heir = some f ∧ .blockSave h ∈ t.inbox) ∧
  (∀ (s : State) (die id : Nat) (g : Grp) (stages : SMap Grp),
    let now (x : Nat) : Press := SMap.get s.press Press.zero (8 * x + die)
    let fits (x : Nat × Grp) : Prop := 2 ≤ (now id).starved ∧ x.1 ≠ id ∧ g.sameGraph x.2 = true ∧ (now x.1).p = 0 ∧
      ∃ c ∈ s.waitingOn die, c.grp = x.1
    (s.stageFor die stages (id, g) = none ↔ ∀ x ∈ stages, ¬ fits x) ∧
    ∀ f, s.stageFor die stages (id, g) = some f → ∃ h, (f, h) ∈ stages ∧ fits (f, h) ∧ ∀ x ∈ stages, fits x → h.stage ≤ x.2.stage) ∧
  (∀ (s : State) (blk core : Nat),
    let b := s.block blk
    let die := core / 36
    let c := core % 36
    let here := s.resident b.die b.core
    b.st = .resident → die < 8 → 2 ≤ (here.filter fun h => (s.wavesOf h).any s.canIssue).length →
    s.resident die c = [] → (∀ h ∈ here, gidLt b.gid (s.block h).gid = false) → s.noFrames blk = true → s.atBoundary blk = true →
    (∀ x ∈ s.cmds, x.blk ≠ blk) → s.fitsCore b.ctx b.al die c = true →
    let t := s.moveBlock blk die c
    exec (.tow blk core) s = .next t ∧ t.block blk = { b with die := die, core := c, slots := (t.block blk).slots } ∧
    (blk, s.ids) ∈ (t.coreOf b.die b.core).fwd ∧ .towForwardRemove blk ∈ t.inbox) ∧
  (∀ (s : State) (blk : Nat), SMap.wf Core.zero s.cores = true → ∃ t, exec (.towForwardRemove blk) s = .next t ∧
    t = { s with cores := t.cores, inbox := t.inbox } ∧
    (∀ k, SMap.get t.cores Core.zero k = { SMap.get s.cores Core.zero k with
      fwd := (SMap.get s.cores Core.zero k).fwd.filter fun e => e.1 != blk || !s.dieQuiet (k / 64) true e.2 }) ∧
    if t.cores.any fun e => e.2.fwd.any fun f => f.1 == blk then .towForwardRemove blk ∈ t.inbox else t.inbox = s.inbox) ∧
  ∀ s : State, SMap.rising none s.tokens = true → ∃ t, exec .tokenBucketRefill s = .next t ∧ t = { s with tokens := t.tokens } ∧
    ∀ c d, d < 8 →
      let rate : Nat := fld (s.pfNum (Pf.tbcfg c d)) 0 32
      SMap.get t.tokens 0 (8 * c + d) = if rate = 0 then 0 else max 0 (SMap.get s.tokens 0 (8 * c + d) - (rate : Int))

/-- R62, R139, R222, R248, R332 to R334, R378, R380, R398 to R401: events of traps, regions and errors. Pending traps are taken in
their order; a strike re-executes the open regions of its core and strikes the blocks of its other waves, the records in descending
RANK; a released region is forgotten; a poisoned sector that a block consumes re-executes the fork the block is a child of, and outside
a fork ends the launch; the links alone send a flit again; error records are placed in the form of Tables 125 and 127 in their banks and counted; the
driver reads and clears them. (That the record of a strike has ADDR 0 and INFO[63:32] 0 is the model's reading, log entry 79.) -/
def Obligations.TrapEvents : Prop :=
  (∀ (ts : List Trap) (t : Trap), firstPend ts = some t → t ∈ ts ∧ ∀ u ∈ ts, pendRank t ≤ pendRank u) ∧
  (∀ (s : State) (t : Trap), s.w.st = .running → s.w.halted = false → firstPend s.w.pend = some t →
    let e := Instr.pendingTrapTake s.w.blk s.w.idx
    let u := s.setW { s.w with pend := if t.cause = 0x11 ∨ t.cause = 0x08 then [] else s.w.pend.erase t, fwait := none }
    (s.w.region ≠ none → exec e s = .next s.closeRegion) ∧
    (s.w.region = none → t.at_ = none → exec e s = .next (u.takeTrap t s.headPc (s.w.runAt s.headPc) 0 true)) ∧
    ∀ word run act, s.w.region = none → t.at_ = some (word, run, act) → exec e s = .next (u.takeTrap t word run act true)) ∧
  (∀ (s : State) (k : Nat) (r : Region), (s.wave k).region = some r →
    let t := s.reexecute k r
    let w := s.wave k
    t.wave k = { w with
      pc := r.pc, age := r.age, exited := r.exited, burst := 0, promo := 0, groups := [], fwait := none, begun := [], stall := none
      window := none, pins := [], view := r.view, stores := r.stores, crc := r.crc, r := { w.r with lat := [] }
      sp := { w.sp with fflags := r.fflags, rng := r.rng, mrow := 0, cprog := 0 }, region := some { r with held := .empty, undo := [], closed := false } } ∧
    (∀ j, j ≠ k → t.wave j = s.wave j) ∧ t.mem = s.mem ∧ t.hmem = s.hmem ∧ t.dsm = s.dsm) ∧
  (∀ (s : State) (die core : Nat),
    let inside := (s.wavesAt die core).filterMap fun k => (s.wave k).region.map fun r => (k, r)
    let v := inside.foldl (fun (s : State) e => s.reexecute e.1 e.2) s
    ∃ hs : List Nat, hs.Nodup ∧ (∀ h, h ∈ hs ↔ ∃ k ∈ s.wavesAt die core, (s.wave k).region = none ∧ k / 32 = h) ∧
      hs.Pairwise (fun a b => v.strikeOrder a ≤ v.strikeOrder b) ∧
      let u := hs.foldl (fun (s : State) h => if (s.block h).st = .resident then s.strikeBlock h else s) v
      exec (.strikeReport die core) s = .next (u.placeErr die
        ⟨1, 0, 0x07, 0, 0, BitVec.ofNat 8 core, 0, Config.syndrome u.free, BitVec.ofNat 64 inside.length⟩)) ∧
  (∀ (s : State) (h : Nat),
    (∀ id, s.ownFork h = some id → s.strikeBlock h = s.strikeFork id) ∧
    (s.ownFork h = none → ∃ r : ErrRec, s.strikeBlock h = (s.placeErr (s.block h).die r).failGrp (s.block h).grp ∧ r.rank = 3 ∧
      r.unit = 0x07 ∧ r.addr = 0 ∧ r.core = BitVec.ofNat 8 (s.block h).core ∧ r.info = BitVec.ofNat 64 (h * 2 ^ 32))) ∧
  (∀ (s : State) (blk wv : Nat),
    let k := 32 * blk + wv
    (∃ t, exec (.regionRelease blk wv) s = .next t ∧
      s.WaveBecomes t k { s.wave k with region := (s.wave k).region.filter fun r => !r.closed }) ∧
    ∃ t, exec (.pinWindowExpiry blk wv) s = .next t ∧
      s.WaveBecomes t k (if (s.wave k).window = some 0 then { s.wave k with window := none, pins := [] } else s.wave k)) ∧
  (∀ (s : State) (id : Nat),
    ((∀ g, SMap.find? s.grps id = some g → g.kind ≠ .fork ∨ g.outcome ≠ none) → exec (.forkReexecute id) s = .next s) ∧
    ∀ g, SMap.find? s.grps id = some g → g.kind = .fork → g.outcome = none →
      exec (.forkReexecute id) s = .next (if g.cancelled then s.rollback id 4 false else if 2 ≤ g.execs then (s.rollback id 3 false).forkErr id 3 0 3 else s.strikeFork id)) ∧
  (∀ (s : State) (loc : Nat),
    let unit : BitVec 8 := if isDm loc then 0x04 else 0x01
    let line : W64 := if isDm loc then 0 else BitVec.ofNat 64 (loc % 2 ^ 52 / 64 * 64)
    let die := if isDm loc then (loc - 2 ^ 53) / 2 ^ 25 % 8 else Config.homeDie (loc / 64) % Config.dies
    (∃ t, exec (.sectorPoison loc) s = .next t ∧ t.poison = SMap.insert s.poison (loc / 16) () ∧
      t.poisoned (loc / 16 * 16) 16 = true ∧ t = { s with poison := t.poison, pf := t.pf, hostOut := t.hostOut } ∧
      ∃ r : ErrRec, t = State.placeErr { s with poison := t.poison } die r ∧ r.rank = 2 ∧ r.unit = unit ∧ r.addr = line) ∧
    ∀ h, (∀ id, s.ownFork h = some id → s.poisonBlock h loc = s.strikeFork id) ∧
      (s.ownFork h = none → ∃ r : ErrRec, s.poisonBlock h loc = (s.placeErr die r).failGrp (s.block h).grp ∧ r.rank = 3 ∧ r.unit = unit ∧
        r.addr = line ∧ r.core = 0xFF ∧ r.info = BitVec.ofNat 64 (h * 2 ^ 32))) ∧
  (∀ (s : State) (socket : Nat) (x : ErrRec), socket < 26 →
    let placed : Prop := x.rank ≠ 0 ∧ x.retry ≠ 3 ∧ x.unit ≠ 0 ∧ x.unit < 0x0E
    (placed → exec (.errorRecordPlace socket x) s = .next (s.placeErr socket x)) ∧
    (¬ placed → exec (.errorRecordPlace socket x) s = .next s) ∧
    let link : Prop := x.unit = 0x09 ∨ x.unit = 0x0A ∨ x.unit = 0x0B
    (link → exec (.linkFlitResend socket x) s = .next (s.placeErr socket { x with rank := 1, retry := 1 })) ∧
    (¬ link → exec (.linkFlitResend socket x) s = .next s) ∧
    let r := normErr x socket
    r.rank = x.rank ∧ r.unit = x.unit ∧ r.code = (if x.rank = 1 ∧ x.unit ≠ 0x08 then 0 else x.code) ∧ r.ctx.toNat ≤ 16 ∧ r.addr.toNat < 2 ^ 52 ∧ r.addr.toNat % 64 = 0 ∧
    (r.core = 0xFF ∨ r.core.toNat < 36 ∧ socket < 8) ∧ r.retry ≠ 3 ∧ (retried r.unit = true → r.rank ≠ 1 → r.retry = 2) ∧
    (retried r.unit = false → r.unit ≠ 0x08 → r.retry = 0) ∧
    let t := s.placeErr socket x
    t = { s with pf := t.pf, hostOut := t.hostOut } ∧
    ∀ b < 16, s.sameBank socket r = none → fld (s.pfNum (Pf.bank socket b)) 63 1 = 0 →
      (∀ a < b, fld (s.pfNum (Pf.bank socket a)) 63 1 = 1) →
      let x := t.pfNum (Pf.bank socket b)
      fld x 63 1 = 1 ∧ fld x 61 2 = r.rank.toNat ∧ fld x 48 8 = r.unit.toNat ∧ fld x 40 8 = r.code.toNat ∧ fld x 35 5 = r.ctx.toNat ∧
      fld x 16 16 = 1 ∧ fld x 8 8 = r.core.toNat ∧ t.pfNum (Pf.bank socket b + 8) = r.addr ∧ t.pfNum (Pf.bank socket b + 16) = r.synd ∧
      t.pfNum (Pf.bank socket b + 24) = r.info) ∧
  (∀ (s : State) (socket bank : Nat), socket < 26 → bank < 16 → ∃ t, exec (.errorBankClear socket bank) s = .next t ∧
    t = { s with pf := t.pf } ∧ (∀ k < 4, t.pfNum (Pf.bank socket bank + 8 * k) = 0) ∧
    ∀ off, (∀ k < 4, off ≠ Pf.bank socket bank + 8 * k) → t.pfNum off = s.pfNum off) ∧
  ∀ (s : State) (socket : Nat), socket < 26 → ∃ t, exec (.errsumRead socket) s = .next t ∧ t.pfNum (Pf.errsum socket) = 0 ∧
    t.hostOut = s.hostOut ++ [.regRead 0 (Pf.errsum socket) (s.pfNum (Pf.errsum socket))] ∧
    t = { s with pf := t.pf, hostOut := t.hostOut } ∧ ∀ off, off ≠ Pf.errsum socket → t.pfNum off = s.pfNum off

/-- R63, R370 to R376, R380 to R383: events of pages, pre-emption, saving, debugging and killing. (The model's readings: the save
of a suspended block stays posted, log entry 46; INVAL while BUSY replaces the range, 54; MIGCMD of a page without a leaf is done at
once, and one during a migration is discarded, 55; a kill forgets the context's packets, 56; handle 0 of the debug port reads the
wait-for tables, 83.) -/
def Obligations.PageAndSaveEvents : Prop :=
  (∀ (s : State) (f : FaultEnt), s.faultAt f.die f.entry = some f → f.logged = false →
    let e := Instr.faultRecordAppend f.die f.entry
    let prod := (s.pfNum Pf.fqprod).toNat % 2 ^ 32
    let cons := (s.pfNum Pf.fqcons).toNat % 2 ^ 32
    let size := 2 ^ ((s.pfNum Pf.fqlog2).toNat % 32)
    (size ≤ (prod + 2 ^ 32 - cons) % 2 ^ 32 → exec e s = .next (s.postOnce e)) ∧
    ((prod + 2 ^ 32 - cons) % 2 ^ 32 < size → ∃ t, exec e s = .next t ∧ f.bytes.length = 32 ∧
      Written s.hmem t.hmem ((s.pfNum Pf.fqbase).toNat + 32 * (prod % size)) f.bytes ∧ (t.pfNum Pf.fqprod).toNat = (prod + 1) % 2 ^ 32 ∧
      t.faults = s.faults.map (fun x => if x = f then { x with logged := true } else x) ∧
      t = { s with hmem := t.hmem, pf := t.pf, faults := t.faults, hostOut := t.hostOut })) ∧
  (∀ (s : State) (die entry : Nat), (s.faultAt die entry = none →
      exec (.frespSupply die entry) s = .next s ∧ exec (.frespNr die entry) s = .next s) ∧
    ∀ f, s.faultAt die entry = some f →
      (∃ t, exec (.frespSupply die entry) s = .next t ∧ t.faults = s.faults.filter (fun x => x != f) ∧
        (∀ k, t.wave k = if k ∈ s.onEntry die entry then { s.wave k with fwait := none } else s.wave k) ∧
        t = { s with faults := t.faults, w := t.w, waves := t.waves, inbox := t.inbox }) ∧
      ∀ x, s.w.st ≠ .absent → s.onEntry die entry = [s.w.key] → s.copiesOf f.ctx = [] → s.w.fwait = some x →
        ∃ run act, exec (.frespNr die entry) s = .next { s with
          faults := s.faults.filter fun y => y != f
          w := { s.w with fwait := none, pend := s.w.pend ++ [{ x.trap with at_ := some (s.headPc, run, act) }] } } ∧
          run = s.w.runAt s.headPc) ∧
  (∀ (s : State) (len : W64), ∃ t, exec (.inval len) s = .next t ∧ t.pfNum (Pf.inval + 16) = len ∧ fld (t.pfNum Pf.inval) 63 1 = 1 ∧
    t.inval = some (fld (s.pfNum Pf.inval) 0 63, (s.pfNum (Pf.inval + 8)).toNat, len.toNat) ∧ .invalComplete ∈ t.inbox ∧
    t = { s with pf := t.pf, inval := t.inval, inbox := t.inbox }) ∧
  (∀ (s : State) (c va n : Nat), s.inval = some (c, va, n) →
    let busy : Prop := s.rangeBusy c (va, n) = true ∨ (∃ q ∈ s.reqs ++ s.gate, q.ctx = c ∧ va ≤ q.va.toNat ∧ q.va.toNat < va + n) ∨
      (∃ q ∈ s.reqs ++ s.gate, q.ctx = c ∧ ∃ a, q.bva = some a ∧ va ≤ a ∧ a < va + n) ∨
      ∃ d ∈ s.cmds, (s.block d.blk).ctx = c ∧ ∃ a, d.bva = some a ∧ va ≤ a ∧ a < va + n
    (busy → exec .invalComplete s = .next (s.postOnce .invalComplete)) ∧
    (¬ busy → ∃ t, exec .invalComplete s = .next t ∧ t.inval = none ∧ fld (t.pfNum Pf.inval) 63 1 = 0 ∧
      t = { s with pf := t.pf, inval := t.inval })) ∧
  (∀ (s : State) (pa : W64),
    (s.migration ≠ none → ∃ t, exec (.migcmd pa) s = .next t ∧ s.Rejected t) ∧
    (s.migration = none →
      let c := (s.pfNum Pf.migcmd).toNat
      let va := (s.pfNum (Pf.migcmd + 8)).toNat
      let u := s.setPf (Pf.migcmd + 16) pa
      (∀ l, s.walk c va = .leaf l → exec (.migcmd pa) s = .next { u with
        migration := some ⟨c, BitVec.ofNat 64 (va / 2 ^ l.bits * 2 ^ l.bits), l.pa, pa.toNat / 2 ^ l.bits * 2 ^ l.bits, 2 ^ l.bits, none⟩
        inbox := s.inbox ++ [.migrationDone] }) ∧
      ((∀ l, s.walk c va ≠ .leaf l) → ∃ t, exec (.migcmd pa) s = .next t ∧ (t.pfNum Pf.migstat).getLsbD 0 = true ∧
        t = { s with pf := t.pf, hostOut := t.hostOut }))) ∧
  (∀ (s : State) (m : Migration), s.migration = some m →
    (∀ mark, m.moved = some mark → exec .migrationDone s = .next
      (if s.forwards m mark then s.postOnce .migrationDone else State.migDone { s with migration := none }) ∧
      let t := State.migDone { s with migration := none }
      (t.pfNum Pf.migstat).getLsbD 0 = true ∧ t = { s with migration := none, pf := t.pf, hostOut := t.hostOut }) ∧
    (m.moved = none → s.rangeBusy m.ctx (m.va.toNat, m.size) = true → exec .migrationDone s = .next (s.postOnce .migrationDone)) ∧
    (m.moved = none → s.rangeBusy m.ctx (m.va.toNat, m.size) = false → ∀ l, s.walk m.ctx m.va.toNat = .leaf l → l.host = false →
      let copied := Memory.copyRange s.mem m.oldPa m.newPa m.size
      ∃ t, exec .migrationDone s = .next t ∧ t.migration = some { m with moved := some s.ids } ∧ .migrationDone ∈ t.inbox ∧
        t.hmem = s.hmem ∧ t.dsm = s.dsm ∧
        (∀ c, SMap.rising none (s.ctx c).shadow = true → ∀ o < m.size,
          SMap.find? (t.ctx c).shadow (m.newPa + o) = SMap.find? (s.ctx c).shadow (m.oldPa + o)) ∧
        (SMap.rising none s.poison = true → m.newPa % 16 = 0 → m.oldPa % 16 = 0 → ∀ o, 16 * o < m.size →
          SMap.find? t.poison (m.newPa / 16 + o) = SMap.find? s.poison (m.oldPa / 16 + o)) ∧
        (leafPa copied m.va.toNat walkLevels (s.ptroot m.ctx) = none → t.mem = copied) ∧
        (∀ a, leafPa copied m.va.toNat walkLevels (s.ptroot m.ctx) = some a → Written copied t.mem a
          (leBytes 8 (setFld (BitVec.ofNat 64 (Memory.num copied a 8)) 12 40 (m.newPa / 4096)).toNat)) ∧
        (Memory.wf s.mem = true → ∀ o < m.size, Memory.byte copied (m.newPa + o) = Memory.byte s.mem (m.oldPa + o)))) ∧
  (∀ (s : State) (ctx : Nat) (val : W64), 1 ≤ ctx → ctx ≤ 16 →
    let hs := s.handles_.filter fun h => (s.block h).st == .resident && (s.block h).ctx == ctx && (s.block h).die == fld val 0 3 &&
      fld val (4 + (s.block h).core) 1 == 1
    exec (.preempt ctx val) s = .next (hs.foldl State.preemptBlock (s.setPf (Pf.ctx ctx 0x30) val))) ∧
  (∀ (s : State) (h : Nat) (g : Grp), SMap.find? s.grps (s.block h).grp = some g →
    let b := s.block h
    let drains : Prop := g.progress ≠ 0 ∧ 1024 * g.progress * fld (s.pfNum Pf.pecfg) 0 8 ≤ 256 * s.elapsed h
    (drains → s.preemptBlock h = (s.updBlock h fun x => { x with draining := true }).post (.drainLimitExpiry h)) ∧
    (¬ drains → s.preemptBlock h = s.evict h) ∧
    exec (.drainLimitExpiry h) s = .next (if b.st = .resident ∧ b.draining = true then s.evict h else s) ∧
    (s.mayRestart h = false → s.evict h = (s.updBlock h fun x => { x with evicted := true }).postOnce (.blockSave h)) ∧
    (s.mayRestart h = true → s.evict h = s.restartBlock h ∧ (s.restartBlock h).block h =
      { g.block b.grp h b.mem with st := .waiting, die := (s.memberDie g b.mem).getD b.die, home := b.home, ownPrio := b.ownPrio, prio := b.ownPrio } ∧
      .blockPlace ((s.memberDie g b.mem).getD b.die) ∈ (s.restartBlock h).inbox) ∧
    (s.mayRestart h = true ↔ b.cancelled = false ∧ (∀ k ∈ s.wavesOf h, (s.wave k).st ≠ .forked) ∧ (g.idem = true ∨ g.kind = .fork ∧ b.live = false))) ∧
  (∀ (s : State) (h : Nat), (s.block h).st = .resident → (s.ctx (s.block h).ctx).killing = false → h < s.handles →
    let e := Instr.blockSave h
    (s.suspended h = true → exec e s = .next (s.postOnce e)) ∧
    (s.suspended h = false → s.noFrames h = false →
      exec e s = .next (if (s.block h).evicted then (s.noSave h).postOnce e else s.noSave h)) ∧
    s.noSave h = ((s.holdBlock h false).updBlock h fun b => { b with draining := b.draining || b.evicted, heir := none }) ∧
    (s.suspended h = false → s.noFrames h = true → s.atBoundary h = false → exec e s = .next (s.postOnce e)) ∧
    (s.suspended h = false → s.noFrames h = true → s.atBoundary h = true →
      let u := (s.holdBlock h true).closeRegions h
      let waits : Prop := u.blockQuiet h = false ∨ ∃ k ∈ u.wavesOf h, (u.wave k).region ≠ none
      (waits → exec e s = .next (u.postOnce e)) ∧
      (¬ waits → u.saveFree (s.block h).ctx (roundUp (s.block h).al.saveLen 65536) = none →
        exec e s = .next (if (s.block h).evicted then (u.noSave h).postOnce (.drainLimitExpiry h) else u.noSave h)) ∧
      (¬ waits → ∀ at_, u.saveFree (s.block h).ctx (roundUp (s.block h).al.saveLen 65536) = some at_ →
        exec e s = .next (u.saveAt h at_) ∧ ((u.saveAt h at_).block h).st = .saved ∧ ((u.saveAt h at_).block h).slots = [] ∧
        ((u.saveAt h at_).block h).savePlace = at_))) ∧
  (∀ (s : State) (h core : Nat), (s.block h).st = .saved → s.mayPlace (s.block h).ctx = true →
    s.chooseCore (s.block h).ctx (s.block h).al (s.block h).die = some core →
    ∃ t, exec (.blockRestore h) s = .next t ∧ (t.block h).st = .resident ∧ (t.block h).core = core ∧ (t.block h).die = (s.block h).die ∧
      (t.block h).gid = (s.block h).gid ∧ (t.block h).stopping = false ∧ .instanceEnd .block h ∈ t.inbox ∧ t.mem = s.mem) ∧
  (∀ (s : State) (c : Nat), 1 ≤ c → c ≤ 16 → ∃ t, exec (.kill c) s = .next t ∧ (t.ctx c).killing = true ∧ .killCompletion c ∈ t.inbox ∧
    t.cmds = s.cmds.filter (fun x => (s.block x.blk).ctx != c) ∧ t.reqs = s.reqs.filter (fun x => x.ctx != c) ∧
    t.gate = s.gate.filter (fun x => x.ctx != c) ∧ t.windows = s.windows.filter (fun x => x.ctx != c) ∧ t.wft = s.wft.filter (fun x => (s.block x.blk).ctx != c) ∧
    (∀ e ∈ t.grps, e.2.ctx ≠ c) ∧ (∀ f ∈ t.faults, f.ctx ≠ c) ∧ t.mem = s.mem ∧ t.hmem = s.hmem ∧ t.dsm = s.dsm ∧
    ∀ k, (s.wave k).st ≠ .absent → (s.block (k / 32)).ctx = c → (t.wave k).st = .ended ∧ (t.wave k).pend = [] ∧ (t.wave k).view = .empty) ∧
  (∀ (s : State) (c : Nat), ((s.ctx c).killing = false → exec (.killCompletion c) s = .next s) ∧
    ((s.ctx c).killing = true → ∃ t, exec (.killCompletion c) s = .next t ∧ t.ctx c = .zero ∧ fld (t.pfNum (Pf.ctx c 0x40)) 0 1 = 1 ∧
      t.mem = s.mem ∧ t.hmem = s.hmem)) ∧
  ∀ (s : State) (h off : Nat) (x : W64),
    let al := (s.block h).al
    let k := 32 * h + off / al.recLen
    let o := off % al.recLen / 8 * 8
    let bs := s.waveRecord al (s.wave k)
    (h = 0 → exec (.debugStateAccess h off (some x)) s = .next s ∧
      exec (.debugStateAccess h off none) s = .next { s with hostOut := s.hostOut ++ [.debugData (BitVec.ofNat 64
        ((s.entAt (off / 65536 % 8) (off % 65536 / 16)).toNat / 2 ^ (64 * (off / 8 % 2))))] }) ∧
    (h ≠ 0 → s.allHalted h = false → exec (.debugStateAccess h off none) s = .next s ∧
      exec (.debugStateAccess h off (some x)) s = .next s ∧ exec (.debugResume h) s = .next s) ∧
    (h ≠ 0 → s.allHalted h = true → off / al.recLen < al.waves →
      exec (.debugStateAccess h off none) s = .next { s with hostOut := s.hostOut ++ [.debugData (BitVec.ofNat 64 (fieldAt bs o 8))] } ∧
      ∃ t, exec (.debugStateAccess h off (some x)) s = .next t ∧
        let bs' := bs.take o ++ leBytes 8 x.toNat ++ bs.drop (o + 8)
        ∃ u, s.WaveBecomes u k (s.ofRecord (s.wave k) al bs') ∧ t = u.takeForkVa k bs') ∧
    (s.allHalted h = true → ∃ t, exec (.debugResume h) s = .next t ∧ t = { s with w := t.w, waves := t.waves, b := t.b, blocks := t.blocks } ∧
      ∀ k, t.wave k = if k ∈ s.wavesOf h ∧ (s.wave k).st ≠ .ended then { s.wave k with halted := false } else s.wave k)

/-- R347, R348, R351, R355, R384 to R397: events of the host, of boot and of the security block. (The model's readings: a ring slot
whose VA does not translate is a ring error, log entry 50; a field of RCFG keeps its value in a forbidden state, 52; what the reset of
PF 0 also resets, 58; a register write posts the event it starts, but those of INVAL
and MIGCMD act at once, 61; the response codes and the framing of SPDM, 62; nothing reaches
a part that has not booted, 78; how a request names its option, 93; the resizing of BAR 2, 104; a mailbox event with no command under
way, 105; a write of a flash slot, 106.) -/
def Obligations.HostEvents : Prop :=
  (∀ (s : State) (c : Nat) (val : W64), s.up = true → isVf c = true →
    let old := s.vfNum c Vf.rcfg
    let log := fld val 0 5
    (s.ringIdle c = false → ∃ t, exec (.rcfgWrite c val) s = .next t ∧
      t.vfNum c Vf.rcfg = (if fld val 30 1 = 1 then setFld old 30 1 0 else old) ∧ t = { s with vf := t.vf }) ∧
    (s.ringIdle c = true → fld val 31 1 = 1 → 4 ≤ log → log ≤ 16 → s.ringBase c % (128 * 2 ^ log) = 0 →
      ∃ t, exec (.rcfgWrite c val) s = .next t ∧ t.ringEn c = true ∧ t.ringLog c = log ∧ t = { s with vf := t.vf }) ∧
    (s.ringIdle c = true → fld val 31 1 = 1 → (log < 4 ∨ 16 < log ∨ s.ringBase c % (128 * 2 ^ log) ≠ 0) →
      ∃ t, exec (.rcfgWrite c val) s = .next t ∧ t.ringEn c = false ∧ fld (t.vfNum c Vf.rcfg) 30 1 = 1)) ∧
  (∀ (s : State) (c : Nat) (val : W64), s.up = true → isVf c = true → s.ringEn c = true →
    let ahead := (fld val 0 32 + 2 ^ 32 - s.consOf c) % 2 ^ 32
    ∃ t, exec (.prodWrite c val) s = .next t ∧ t.prodOf c = fld val 0 32 ∧ t.consOf c = s.consOf c ∧
      (2 ^ s.ringLog c < ahead → t.ringEn c = false ∧ fld (t.vfNum c Vf.rcfg) 30 1 = 1) ∧
      (ahead ≤ 2 ^ s.ringLog c → t.ringEn c = true ∧ (ahead ≠ 0 → .packetIntake c ∈ t.inbox))) ∧
  (∀ (s : State) (c : Nat), s.up = true → isVf c = true → s.ringEn c = true → s.prodOf c ≠ s.consOf c →
    let e := Instr.packetIntake c
    let waits : Prop := (s.ctx c).killing = true ∨ (s.ctx c).saving = true ∨ Config.pendingEntries ≤ s.pendingCount c
    (waits → exec e s = .next (s.postOnce e)) ∧
    (¬ waits → s.slotBytes c = none → exec e s = .next (s.ringError c)) ∧
    (¬ waits → ∀ bs, s.slotBytes c = some bs →
      let p := Packet.of bs
      let code := (s.passCons c).packetCode c p
      (s.cvaOk c p.cva = false → exec e s = .next ((s.passCons c).ringError c)) ∧
      (s.cvaOk c p.cva = true → ∃ t, exec e s = .next t ∧ t.consOf c = (s.consOf c + 1) % 2 ^ 32 ∧
        (code ≠ 0 → t.grps = s.grps ∧ (t.ctx c).readSince = true ∧ (t.ctx c).last = (s.ctx c).last ∧
          (t.ctx c).first = (s.ctx c).first ∧ (t.ctx c).fmix = (s.ctx c).fmix) ∧
        (code = 0 → (t.ctx c).last = some (p.job, p.phase, p.graph, p.launch) ∧ (t.ctx c).readSince = false ∧
            (∀ f, (s.ctx c).first = some f → f.1 = p.job → (t.ctx c).first = some f ∧
              (t.ctx c).fmix = ((s.ctx c).fmix || f.2.1 != p.fmode)) ∧
            ((∀ f, (s.ctx c).first = some f → f.1 ≠ p.job) → ∃ m, (t.ctx c).first = some (p.job, p.fmode, m) ∧ (t.ctx c).fmix = false) ∧
          ∃ id late, t.grps = SMap.insert s.grps id { p.grp c with cancelled := late })))) ∧
  (∀ (s : State) (c : Nat) (val : W64), s.up = true → isVf c = true →
    let lvl := fld val 61 3
    let job := fld (s.vfNum c Vf.hcancel0) 32 32
    let phase := fld (s.vfNum c Vf.hcancel0) 0 32
    let u := s.setVf c Vf.hcancel1 (BitVec.ofNat 64 (lvl * 2 ^ 61 + fld val 0 20))
    (lvl < 2 ∨ 5 < lvl → exec (.hcancel1 c val) s = .next (s.setErr c)) ∧
    (3 ≤ lvl → lvl ≤ 5 → exec (.hcancel1 c val) s = .next (u.cancelLevel c lvl job phase (fld val 12 8))) ∧
    (lvl = 2 → ∃ t, exec (.hcancel1 c val) s = .next t ∧
      ((∀ e ∈ s.grps, e.2.kind = .host → e.2.ctx = c → e.2.job.toNat = job → e.2.phase.toNat = phase → e.2.graph.toNat = fld val 12 8 →
        e.2.launch.toNat ≠ fld val 0 12) → t = u))) ∧
  (∀ (s : State) (c : Nat), s.up = true → isVf c = true → ∃ t, exec (.functionLevelResetVf c) s = .next t ∧ t.ctx c = .zero ∧
    ∀ off < 65536, t.vfNum c off = 0 ∧ ∀ d, d ≠ c → t.vfNum d off = s.vfNum d off) ∧
  (∀ s : State, s.up = true → ∃ t, exec .functionLevelResetPf s = .next t ∧ t.exp = .reset ∧ t.migration = none ∧ t.inval = none ∧
    (∀ off, off ≠ Pf.poolcfg → t.pfNum off = pfReset off) ∧ fld (t.pfNum Pf.poolcfg) 0 30 = 64 ∧
    fld (t.pfNum Pf.poolcfg) 30 22 = fld (s.pfNum Pf.poolcfg) 30 22 ∧ (∀ e ∈ t.inbox, e.isCommand = false) ∧
    ∀ c off, isVf c = true → off < 65536 → t.vfNum c off = 0) ∧
  (∀ s : State,
    let okA := s.mgmt.fuses.imageOk s.mgmt.slotA
    let okB := s.mgmt.fuses.imageOk s.mgmt.slotB
    let svn (m : Memory) : Nat := Memory.num m 8 4
    let kept (t : State) : Prop := t.w = .absent ∧ t.waves = [] ∧ t.grps = [] ∧ t.mem = [] ∧ t.dsm = [] ∧ t.hmem = s.hmem ∧
      t.mgmt.slotA = s.mgmt.slotA ∧ t.mgmt.slotB = s.mgmt.slotB ∧ t.mgmt.fuses = s.mgmt.fuses
    (∃ t, exec .coldStart s = .next t ∧ kept t ∧ (okA = false → okB = false → t.mgmt.boot = .recovery) ∧
      (okA = true ∨ okB = true → t.mgmt.boot = .up ∧
        ∃ m, (m = s.mgmt.slotA ∧ okA = true ∧ (okB = true → svn s.mgmt.slotB ≤ svn m) ∧ t.mgmt.active = some false ∨
              m = s.mgmt.slotB ∧ okB = true ∧ (okA = true → svn s.mgmt.slotA < svn m) ∧ t.mgmt.active = some true) ∧
          t.mgmt.svn = BitVec.ofNat 32 (svn m) ∧ t.mgmt.fwdig = imageDigest m)) ∧
    (∃ t, exec .powerOff s = .next t ∧ kept t ∧ t.mgmt.boot = .off) ∧
    (s.mgmt.boot = .recovery → s.mgmt.fuses.imageOk s.mgmt.buffer = true → ∃ t, exec .recoveryLoad s = .next t ∧ t.mgmt.boot = .up ∧
      t.mgmt.svn = BitVec.ofNat 32 (svn s.mgmt.buffer) ∧ t.mgmt.fwdig = imageDigest s.mgmt.buffer) ∧
    (s.mgmt.boot ≠ .recovery ∨ s.mgmt.fuses.imageOk s.mgmt.buffer = false → exec .recoveryLoad s = .next s)) ∧
  (∀ (s : State) (req : Nat) (bar2 : Option Nat),
    exec (.configRequest ⟨req, bar2⟩) s = .next (match s.mgmt.boot with
      | .off => s
      | .reset => { s with hostOut := s.hostOut ++ [.configRetry req] }
      | .recovery | .up => { s with
        hostOut := s.hostOut ++ [.configDone req]
        mgmt := { s.mgmt with bar2 := match bar2 with
          | some n => if 30 ≤ n ∧ n ≤ 40 then n else s.mgmt.bar2
          | none => s.mgmt.bar2 } }) ∧
    (s.mgmt.boot ≠ .off → exec (.unsupportedRequest req) s =
      .next (if (PcieOption.of (req % 16)).listed then s else { s with hostOut := s.hostOut ++ [.unsupported req] }))) ∧
  (∀ (s : State) (fn off n pa : Nat), s.up = true → 0 < n →
    let within : Prop := fn = 0 ∧ off + n ≤ 2 ^ s.mgmt.bar2 ∧ pa = (s.pfNum Pf.apbase).toNat + off ∨
      isVf fn = true ∧ off + n ≤ 2 ^ 32 ∧ pa = (s.pfNum (Pf.vfap fn)).toNat + off
    (within → n ≤ 4096 → exec (.hostApertureAccess fn off (.read n)) s =
      .next { s with hostOut := s.hostOut ++ [.readData fn off ((List.range n).map fun k => Memory.byte s.mem (pa + k))] }) ∧
    ∀ bs : List Byte, bs.length = n → within → n ≤ 512 → ∃ u : State,
      exec (.hostApertureAccess fn off (.write bs)) s = .next u.wake ∧ Written s.mem u.mem pa bs ∧
      u = { s with mem := u.mem, poison := u.poison, ctxs := u.ctxs }) ∧
  (∀ (s : State) (index : Nat) (nonce : List Byte) (versions : List Nat), s.up = true →
    let sign (body : List Byte) : List Byte := Config.spdmSign s.mgmt.idkey (body ++ nonce)
    let sends (e : Instr) (code : Nat) (body sig : List Byte) : Prop :=
      ∃ t, exec e s = .next t ∧ t.hostOut = s.hostOut ++ [.spdm code body sig] ∧ t = { s with hostOut := t.hostOut, mgmt := t.mgmt } ∧
        t.mgmt = { s.mgmt with session := t.mgmt.session, seq := t.mgmt.seq }
    sends (.spdmGetMeasurements index (.clear nonce)) Spdm.measurements (s.measurement index) (sign (s.measurement index)) ∧
    sends .spdmGetCertificate Spdm.certificate (Config.certChain s.mgmt.idkey s.mgmt.fwdig) [] ∧
    sends (.spdmChallenge nonce) Spdm.challengeAuth (Config.certChain s.mgmt.idkey s.mgmt.fwdig)
      (sign (Config.certChain s.mgmt.idkey s.mgmt.fwdig)) ∧
    sends (.spdmKeyExchange nonce) Spdm.keyExchange [] (sign []) ∧
    (∀ t, exec (.spdmKeyExchange nonce) s = .next t →
      t.mgmt.session = some (Config.sessionKey s.mgmt.idkey nonce) ∧ t.mgmt.seq = 0) ∧
    ∀ v, (0x13 ∈ versions ∧ v = 0x13 ∨ 0x13 ∉ versions ∧ 0x12 ∈ versions ∧ v = 0x12) →
      exec (.spdmVersionNegotiation versions) s = .next { s with
        mgmt := { s.mgmt with spdmVer := some v }
        hostOut := s.hostOut ++ [.spdm Spdm.version (leBytes 1 v) [], .spdm Spdm.capabilities Spdm.flags [],
          .spdm Spdm.algorithms Spdm.suite []] }) ∧
  (∀ (s : State) (index strm : Nat) (nonce key tag : List Byte), s.up = true →
    let ask := Instr.spdmGetMeasurements index (.inSession ⟨nonce, tag⟩)
    let prog := Instr.ideKmKeyProgramming strm ⟨key, tag⟩
    (s.mgmt.session = none → exec ask s = .next s ∧ exec prog s = .next s) ∧
    ∀ k, s.mgmt.session = some k →
      let out (m : Mgmt) (answer : List Byte) : State := { s with
        mgmt := { m with seq := s.mgmt.seq + 1 }
        hostOut := s.hostOut ++ [.sealed s.mgmt.seq (Config.seal k s.mgmt.seq answer) (Config.sealTag k s.mgmt.seq answer)] }
      (tag ≠ Config.sealTag k s.mgmt.seq (leBytes 1 index ++ nonce) → exec ask s = .next s) ∧
      (tag = Config.sealTag k s.mgmt.seq (leBytes 1 index ++ nonce) → exec ask s = .next (out s.mgmt
        (s.measurement index ++ Config.spdmSign s.mgmt.idkey (s.measurement index ++ nonce)))) ∧
      (tag ≠ Config.sealTag k s.mgmt.seq (leBytes 2 strm ++ key) → exec prog s = .next s) ∧
      (tag = Config.sealTag k s.mgmt.seq (leBytes 2 strm ++ key) →
        (SMap.has s.mgmt.ide strm = true ∨ s.mgmt.ide.length < 4 →
          exec prog s = .next (out { s.mgmt with ide := SMap.insert s.mgmt.ide strm key } (leBytes 2 strm ++ [0]))) ∧
        (SMap.has s.mgmt.ide strm = false → 4 ≤ s.mgmt.ide.length → exec prog s = .next (out s.mgmt (leBytes 2 strm ++ [1]))))) ∧
  (∀ (s : State) (cmd : W64), s.up = true →
    let event (n : W64) : Instr := if n = 1 then .mbRaiseMinSvn else if n = 2 then .mbReportMinSvn else .mbReservedCommand n
    (fld (s.pfNum Pf.mbstat) 0 1 = 1 → (∃ t, exec (.registerWrite 0 Pf.mbcmd (some cmd)) s = .next t ∧ s.Rejected t) ∧
      (s.pfNum Pf.mbcmd ≠ 1 → exec .mbRaiseMinSvn s = .next s) ∧ (s.pfNum Pf.mbcmd ≠ 2 → exec .mbReportMinSvn s = .next s) ∧
      (s.pfNum Pf.mbcmd ≠ cmd → exec (.mbReservedCommand cmd) s = .next s)) ∧
    (fld (s.pfNum Pf.mbstat) 0 1 = 0 → ∃ t, exec (.registerWrite 0 Pf.mbcmd (some cmd)) s = .next t ∧ t.pfNum Pf.mbcmd = cmd ∧
      fld (t.pfNum Pf.mbstat) 0 1 = 1 ∧ t.inbox = s.inbox ++ [event cmd] ∧ t = { s with pf := t.pf, inbox := t.inbox } ∧
      ∀ off, off ≠ Pf.mbcmd → off ≠ Pf.mbstat → t.pfNum off = s.pfNum off) ∧
    ((∀ e n, e = Instr.mbRaiseMinSvn ∧ n = 1 ∨ e = .mbReportMinSvn ∧ n = 2 ∨ e = .mbReservedCommand cmd ∧ n = cmd →
        fld (s.pfNum Pf.mbstat) 0 1 = 0 ∨ s.pfNum Pf.mbcmd = n → ∃ t, exec e s = .next t ∧ fld (t.pfNum Pf.mbstat) 0 1 = 0)) ∧
    (fld (s.pfNum Pf.mbstat) 0 1 = 0 →
      let ends (e : Instr) (code : Nat) (err : Bool) (min : W32) : Prop := ∃ t, exec e s = .next t ∧ fld (t.pfNum Pf.mbstat) 8 8 = code ∧
        (err = true → fld (t.pfNum Pf.mbstat) 1 1 = 1) ∧
        t = { s with pf := t.pf, mgmt := { s.mgmt with fuses := { s.mgmt.fuses with minSvn := min } } }
      let n := (s.pfNum Pf.mbarg).toNat
      let old := s.mgmt.fuses.minSvn
      (s.mgmt.svn.toNat < n → ends .mbRaiseMinSvn 1 true old) ∧
      (n ≤ s.mgmt.svn.toNat → n ≤ old.toNat → ends .mbRaiseMinSvn 2 true old) ∧
      (n ≤ s.mgmt.svn.toNat → old.toNat < n →
        ends .mbRaiseMinSvn (if Config.fuseFails s.free then 3 else 0) (Config.fuseFails s.free)
          (if Config.fuseFails s.free then old else BitVec.ofNat 32 n)) ∧
      ends .mbReportMinSvn 0 false old ∧ (∃ t, exec .mbReportMinSvn s = .next t ∧ t.pfNum Pf.mbarg = old.setWidth 64) ∧
      ends (.mbReservedCommand cmd) 0xFF true old)) ∧
  ∀ (s : State) (off : Nat) (val : W64),
    let e := Instr.registerWrite 0 off (some val)
    let r := Instr.registerWrite 0 off none
    let gives (x : W64) : Prop := exec r s = .next { s with hostOut := s.hostOut ++ [.regRead 0 off x] }
    (s.up = true → (pfNamed off = false → gives 0) ∧
      (pfNamed off = true → off ≠ Pf.xpstat → off ≠ Pf.poolcfg → off ≠ Pf.rsvcfg → (∀ k < 26, off ≠ Pf.errsum k) →
        (∀ c < 16, off ≠ Pf.ctx (c + 1) 0x120) → gives (s.pfNum off)) ∧
      (∀ c < 16, off = Pf.ctx (c + 1) 0x120 →
        gives (setFld (s.pfNum off) 0 32 (if fld (s.pfNum off) 0 32 = 0 then 50 else min (fld (s.pfNum off) 0 32) 60000))) ∧
      (off = Pf.poolcfg → gives (setFld (s.pfNum off) 0 9 s.poolGib)) ∧
      (∀ c, isVf c = true → exec (.registerWrite c off none) s = .next { s with
        hostOut := s.hostOut ++ [.regRead c off (if vfNamed off then s.vfNum c off else 0)] })) ∧
    (s.up = true → off % 8 = 0 → ∀ b : Bool, off / 2 ^ 32 = (if b then 1 else 0) → ∃ t,
      exec (.registerWrite 17 off (some val)) s = .next t ∧
      let slot (s : State) : Memory := if b then s.mgmt.slotB else s.mgmt.slotA
      (s.mgmt.active = some b → t = s) ∧
      (s.mgmt.active ≠ some b → Written (slot s) (slot t) (off % 2 ^ 32) (leBytes 8 val.toNat) ∧
        t = { s with mgmt := { s.mgmt with slotA := if b then s.mgmt.slotA else t.mgmt.slotA
                                           slotB := if b then t.mgmt.slotB else s.mgmt.slotB } })) ∧
    (off % 8 ≠ 0 ∨ s.mgmt.boot = .off ∨ s.mgmt.boot = .reset → exec e s = .next s) ∧
    (s.mgmt.boot = .recovery → off % 8 = 0 → Pf.image ≤ off → off < Pf.image + 2 ^ 22 → ∃ t, exec e s = .next t ∧
      Written s.mgmt.buffer t.mgmt.buffer (off - Pf.image) (leBytes 8 val.toNat) ∧ t = { s with mgmt := { s.mgmt with buffer := t.mgmt.buffer } }) ∧
    (s.up = true →
      (off = Pf.poolcfg → s.busyAny = true → ∃ t, exec e s = .next t ∧ s.Rejected t) ∧
      (off = Pf.poolcfg → s.busyAny = false → ∃ t, exec e s = .next t ∧ fld (t.pfNum off) 0 9 = fld val 0 9 ∧
        fld (t.pfNum off) 30 22 = fld val 30 22 ∧ t = { s with pf := t.pf } ∧ ∀ o, o ≠ off → t.pfNum o = s.pfNum o) ∧
      (∀ c < 16, off = Pf.ctx (c + 1) 0 → s.busyCtx (c + 1) = true → ∃ t, exec e s = .next t ∧ s.Rejected t) ∧
      (∀ c < 16, off = Pf.ctx (c + 1) 0 → s.busyCtx (c + 1) = false → ∃ t, exec e s = .next t ∧ t.ptroot (c + 1) = fld val 12 40 * 4096 ∧
        t = { s with pf := t.pf } ∧ ∀ o, o ≠ off → t.pfNum o = s.pfNum o) ∧
      (off = Pf.pfstat → fld val 0 1 = 1 → ∃ t, exec e s = .next t ∧ fld (t.pfNum off) 0 1 = 0 ∧ t = { s with pf := t.pf }) ∧
      (off = Pf.inval + 16 → exec e s = exec (.inval val) s) ∧ (off = Pf.migcmd + 16 → exec e s = exec (.migcmd val) s) ∧
      (off = Pf.fqprod → exec e s = .next s))

/-- R95, R131, R291, R294 to R300, R404 to R407: events of the expert engine, decode windows, reduction windows and checkpoints. (The
model's readings: stream 16 + k asks for a stream back and 32 + k says that there is none, and where the reserve holds a stream's
headers, log entry 36; a window is judged as it would stand with EN 1, 53; a command during another is rejected, 59; a switch stands
still while EN is 0, 89.) -/
def Obligations.ExpertAndCheckpointEvents : Prop :=
  (∀ (s : State) (pa : W64), s.up = true → s.memWf → ∃ t, exec (.mtload pa) s = .next t ∧ t.pfNum Pf.mtload = pa ∧
    t.exp = { Expert.reset with fails := s.exp.fails } ∧ t = { s with pf := t.pf, dsm := t.dsm, exp := t.exp } ∧
    ∀ die < 8, ∀ o < 2 ^ 20, Memory.byte t.dsm (slotKey die 0 + o) = Memory.byte s.mem (pa.toNat + o)) ∧
  (∀ s : State,
    let v := s.xPublished
    let settled : Prop := s.xpEn = true ∧ s.exp.switch = none ∧ ∀ d < 8, s.xNewest d = v
    let plan := (List.range 8192).filterMap fun e => s.planOne v e
    (¬ settled ∨ plan = [] → exec .samplingInterval s = .next { s with exp := { s.exp with loads := [] } }) ∧
    (settled → plan ≠ [] → exec .samplingInterval s = .next (State.postOnce { s with exp := { s.exp with
      switch := some ⟨BitVec.ofNat 32 (v + 1), plan, [], [], .waiting, 0⟩, loads := [] } } .versionSwitchCopyDone))) ∧
  (∀ (s : State) (w : Switch), s.exp.switch = some w →
    (s.xpEn = false → exec .versionSwitchCopyDone s = .next s ∧ ∀ die, exec (.slotWritten die) s = .next s) ∧
    (w.st = .writing ∨ w.st = .waiting ∧ (∃ e ∈ s.exp.live, e.1 = w.ver.toNat % 4) → exec .versionSwitchCopyDone s = .next s) ∧
    (s.xpEn = true → w.st = .waiting → (∀ e ∈ s.exp.live, e.1 ≠ w.ver.toNat % 4) → ∃ t v, exec .versionSwitchCopyDone s = .next t ∧
      t.exp.switch = some v ∧ v.st = .copying ∧ v.ver = w.ver ∧ v.plan = w.plan ∧ .versionSwitchCopyDone ∈ t.inbox ∧
      t = { s with exp := { s.exp with switch := some v, maps := t.exp.maps, dead := t.exp.dead }, inbox := t.inbox }) ∧
    (s.xpEn = true → w.st = .copying → ∃ t, exec .versionSwitchCopyDone s = .next t ∧
      t.exp = { s.exp with switch := some { w with st := .writing, next := 0 } } ∧ t.inbox = s.inbox ++ [.slotWritten 0] ∧ t.dsm = s.dsm) ∧
    (∀ die, w.st ≠ .writing ∨ die ≠ w.next → exec (.slotWritten die) s = .next s) ∧
    (s.xpEn = true → w.st = .writing → Memory.wf s.dsm = true → (∀ e ∈ w.table, e.2.length = 128 ∧ e.1 < 8192) →
      (w.table.map Prod.fst).Nodup → w.next < 8 → w.ver.toNat % 4 ≠ s.xNewest w.next % 4 →
      ∃ t, exec (.slotWritten w.next) s = .next t ∧ t.mem = s.mem ∧ t.xNewest w.next = w.ver.toNat ∧
        (∀ o < 2 ^ 20, Memory.byte t.dsm (slotKey w.next w.ver.toNat + o) = (match w.table.find? fun e => e.1 == o / 128 with
          | some e => e.2.getD (o % 128) 0
          | none => Memory.byte s.dsm (slotKey w.next (s.xNewest w.next) + o))) ∧
        (w.next < 7 → t.exp.switch = some { w with next := w.next + 1 } ∧ t.inbox = s.inbox ++ [.slotWritten (w.next + 1)]) ∧
        (w.next = 7 → t.exp.switch = none)) ∧
    (∀ x ∈ w.copies, w.st = .copying → ∃ t, exec (.switchAbandon ⟨x.expert, x.die⟩) s = .next t ∧ t.exp.switch = none ∧
      t.exp.fails = min (s.exp.fails + 1) 65535 ∧ t.exp.live = s.exp.live ∧ t.exp.newest = s.exp.newest ∧ t.dsm = s.dsm ∧ t.mem = s.mem ∧
      ∀ m ∈ t.exp.maps, m ∈ s.exp.maps ∧ ∀ c ∈ w.copies, c.va ≠ m.1) ∧
    ∀ expert die, w.st ≠ .copying ∨ (∀ x ∈ w.copies, x.expert ≠ expert ∨ x.die ≠ die) → exec (.switchAbandon ⟨expert, die⟩) s = .next s) ∧
  (∀ (s : State) (g : Grace), (s.exp.grace.find? fun x => x.id == g.id) = some g → exec (.graceExpiry g.id) s = .next { s with exp := { s.exp with
    grace := s.exp.grace.filter fun x => x.id != g.id, dead := addOnce s.exp.dead (g.rep, g.len)
    maps := s.exp.maps.filter fun m => m.1 != g.rep } }) ∧
  (∀ s : State, s.up = true → ∃ t, exec .xpstatRead s = .next t ∧ t.hostOut = s.hostOut ++ [.regRead 0 Pf.xpstat s.xpstat] ∧
    t.exp = { s.exp with fails := 0 } ∧ t = { s with hostOut := t.hostOut, exp := t.exp }) ∧
  (∀ (s : State) (n k : Nat) (val : W64), s.up = true → n < 16 → k < 8 →
    let w (j : Nat) : W64 := if j = k then val else s.pfNum (Pf.window n + 8 * j)
    let bad : Bool := fld (w 4) 48 1 == 1 && !windowOk (w 0) (w 1) (w 2) (w 3) (w 4)
    let zero : Prop := k = 5 ∧ fld val 32 32 = 0 ∨ 6 ≤ k ∧ val = 0
    (s.busyAny = true ∨ k < 5 ∧ bad = true ∨ 5 ≤ k ∧ ¬ zero → ∃ t, exec (.decodeWindowWrite n k val) s = .next t ∧ s.Rejected t) ∧
    (s.busyAny = false → zero → exec (.decodeWindowWrite n k val) s = .next s) ∧
    (s.busyAny = false → k < 5 → bad = false → ∃ t, exec (.decodeWindowWrite n k val) s = .next t ∧
      (∀ off, t.pfNum off = if off = Pf.window n + 8 * k then val else s.pfNum off) ∧ t = { s with pf := t.pf })) ∧
  (∀ (s : State) (n m : Nat) (a b : WinPart), s.windows[n]? = some a → s.windows[m]? = some b →
    let same : Prop := a.ctx = b.ctx ∧ a.home = b.home ∧ a.va = b.va ∧ a.part.op = b.part.op ∧ s.combines a.ctx a.va a.part.op = true
    (n < m → same → exec (.reductionPartialCombine n (.other m)) s =
      .next { s with windows := (s.windows.set n { a with part := a.part.combine b.part }).eraseIdx m }) ∧
    (n < m → ¬ same → exec (.reductionPartialCombine n (.other m)) s = .next s) ∧
    (n = m → exec (.reductionPartialCombine n (.other m)) s = .next (if a.home = s.ownPackage a.ctx then s
      else { s with windows := s.windows.eraseIdx n, hostOut := s.hostOut ++ [.partial_ a] })) ∧
    ∀ w : WinPart, exec (.reductionPartialCombine n (.arrived w)) s =
      .next (if w.home = s.ownPackage w.ctx then { s with windows := s.windows.take n ++ w :: s.windows.drop n } else s)) ∧
  (∀ (s : State) (report : W64), s.up = true →
    let u := s.setPf Pf.ckcmd1 report
    (∀ e op, e = Instr.checkpointSave report ∧ op = 1 ∨ e = .checkpointRestore report ∧ op = 2 →
      s.ckOp ≠ op ∨ s.ckpt ≠ none → ∃ t, exec e s = .next t ∧ s.Rejected t) ∧
    (s.ckOp = 1 → s.ckpt = none →
      (isVf s.ckCtx = false ∨ s.ckBoundary s.ckCtx = false → exec (.checkpointSave report) s = .next (u.ckEnd 0 1)) ∧
      (isVf s.ckCtx = true → s.ckBoundary s.ckCtx = true → s.ckStore = true → fld (s.pfNum Pf.storecfg) 0 12 = 0 →
        exec (.checkpointSave report) s = .next (u.ckEnd 0 3)) ∧
      (isVf s.ckCtx = true → s.ckBoundary s.ckCtx = true → (s.ckStore = true → fld (s.pfNum Pf.storecfg) 0 12 ≠ 0) →
        (∀ x, ((s.units s.ckCtx).find? fun y => s.poisoned y.pa 65536) = some x →
          exec (.checkpointSave report) s = .next (u.ckEnd (x.va / 65536 % 16) 2)) ∧
        (((s.units s.ckCtx).find? fun y => s.poisoned y.pa 65536) = none → ∃ t k, exec (.checkpointSave report) s = .next t ∧
          t.ckpt = some k ∧ k.restore = false ∧ k.taken = [] ∧ k.ctx = s.ckCtx ∧ k.report = report.toNat ∧ k.units = (s.units s.ckCtx).length ∧
          (∀ n < 16, SMap.get k.streams [] n = s.streamBytes (s.units s.ckCtx) n ∧
            if s.ckStore = false ∧ s.ckPeer = s.ownPackage s.ckCtx then
              .reserveStreamAccept s.ckPeer n (cellsOf (s.streamBytes (s.units s.ckCtx) n)) ∈ t.inbox
            else .stream (s.ckDest s.ckStore s.ckPeer) n (cellsOf (s.streamBytes (s.units s.ckCtx) n)) ∈ t.hostOut) ∧
          (t.ctx s.ckCtx).saving = true ∧
          .checkpointSaveDone ∈ t.inbox ∧ t.mem = s.mem ∧ t.hmem = s.hmem))) ∧
    (s.ckOp = 2 → s.ckpt = none → s.ckStore = true → fld (s.pfNum Pf.storecfg) 0 12 = 0 →
      exec (.checkpointRestore report) s = .next (u.ckEnd 0 3)) ∧
    (s.ckOp = 2 → s.ckpt = none → (s.ckStore = true → fld (s.pfNum Pf.storecfg) 0 12 ≠ 0) →
      let own : Prop := s.ckStore = false ∧ s.ckPeer = s.ownPackage s.ckCtx
      let k : Ckpt := ⟨true, s.ckCtx, report.toNat, s.ckPeer, s.ckStore, 0, [], []⟩
      (¬ own → exec (.checkpointRestore report) s = .next { u with
        ckpt := some k
        hostOut := s.hostOut ++ (List.range 16).map fun n => .stream (s.ckDest s.ckStore s.ckPeer) (16 + n) [] }) ∧
      (own → (∀ n < 16, s.stored n ≠ none) → ∃ v, exec (.checkpointRestore report) s = .next { u with
        ckpt := some { k with streams := v }
        inbox := s.inbox ++ [.checkpointRestoreDone] } ∧ ∀ n < 16, SMap.find? v n = s.stored n) ∧
      ∀ n < 16, own → s.stored n = none → (∀ m < n, s.stored m ≠ none) →
        exec (.checkpointRestore report) s = .next (u.ckEnd n 3))) ∧
  (∀ (s : State) (n why : Nat), n < 16 → why < 16 →
    let t := s.ckEnd n why
    let x := t.pfNum Pf.ckstat
    t.ckpt = none ∧ fld x 0 1 = 1 ∧ fld x 1 1 = (if why = 0 then 0 else 1) ∧ fld x 4 4 = why ∧ fld x 56 4 = n ∧
    t = { s with ckpt := none, pf := t.pf }) ∧
  (∀ (s : State) (k : Ckpt), s.ckpt = some k → k.restore = false →
    ∃ u : State, u.ctxs = (s.setCtx k.ctx { s.ctx k.ctx with saving := false }).ctxs ∧ u = { s with ctxs := u.ctxs, inbox := u.inbox } ∧
      .packetIntake k.ctx ∈ u.inbox ∧
      let own : Prop := k.store = false ∧ k.peer = s.ownPackage k.ctx
      let arriving : Prop := own ∧ ∃ n < 16, ∃ data, .reserveStreamAccept k.peer n data ∈ s.inbox
      let wrong (n : Nat) : Prop := if own then n ∉ k.taken else ∃ m, Config.refusedStream s.free = some m ∧ m.val = n
      (arriving → exec .checkpointSaveDone s = .next (s.postOnce .checkpointSaveDone)) ∧
      (¬ arriving →
        (∀ n, Config.transferFails s.free = some n → exec .checkpointSaveDone s = .next (u.ckEnd n.val 6)) ∧
        (Config.transferFails s.free = none →
          (∀ n < 16, wrong n → (∀ m < n, ¬ wrong m) → exec .checkpointSaveDone s = .next (u.ckEnd n 3)) ∧
          ((∀ n < 16, ¬ wrong n) → exec .checkpointSaveDone s = .next ((u.writeHost k.report (u.ckReport k)).ckEnd 0 0))))) ∧
  (∀ (s : State) (k : Ckpt), (s.ckReport k).length = 576 ∧
    let l := (s.ctx k.ctx).last.getD (0, 0, 0, 0)
    fieldAt (s.ckReport k) 0 4 = l.1 % 2 ^ 32 ∧ fieldAt (s.ckReport k) 4 4 = l.2.1 % 2 ^ 32 ∧ fieldAt (s.ckReport k) 8 2 = k.ctx % 2 ^ 16 ∧
    fieldAt (s.ckReport k) 16 8 = k.units % 2 ^ 64 ∧
    (∀ n < 16, fieldAt (s.ckReport k) (0x20 + 32 * n) 32 = (sha3 (SMap.get k.streams [] n)).toNat) ∧
    fieldAt (s.ckReport k) 0x220 32 = (sha3 (s.manifest k.ctx)).toNat) ∧
  (∀ (s : State) (k : Ckpt), s.ckpt = some k → k.restore = true →
    ((∃ n < 16, SMap.has k.streams n = false) → exec .checkpointRestoreDone s = .next s) ∧
    (∀ n, Config.transferFails s.free = some n → (∀ n < 16, SMap.has k.streams n = true) →
      exec .checkpointRestoreDone s = .next (s.ckEnd n.val 6)) ∧
    (Config.transferFails s.free = none → (∀ n < 16, SMap.has k.streams n = true) →
      let r := s.placeStreams k (List.range 16)
      (r.2 = none → exec .checkpointRestoreDone s = .next (r.1.ckEnd 0 0)) ∧
      ∀ n why, r.2 = some (n, why) → exec .checkpointRestoreDone s = .next (r.1.ckEnd n why))) ∧
  (∀ (s t : State) (c : Nat) (bs : List Byte), s.placeUnit c bs = some t → ∃ l, s.walk c (fieldAt bs 0 8) = .leaf l ∧
    Written s.mem t.mem (l.paOf (fieldAt bs 0 8)) ((bs.drop 16).take 65536)) ∧
  ∀ (s : State) (src strm : Nat) (data : List Host.Cell), s.up = true →
    let e := Instr.reserveStreamAccept src strm data
    let bs := bytesOf data
    (∀ k, strm < 16 → s.restores src = true → s.ckpt = some k →
      let v := { s with ckpt := some { k with streams := SMap.insert k.streams strm bs } }
      let all : Prop := ∀ n < 16, SMap.has (SMap.insert k.streams strm bs) n = true
      (all → exec e s = .next (v.postOnce .checkpointRestoreDone)) ∧ (¬ all → exec e s = .next v)) ∧
    (strm < 16 → s.restores src = false →
      let kept := s.rsvKept src strm
      let at_ := s.rsvPlace src strm
      let size := (recordBodies bs).length
      (∀ x ∈ kept, s.rsvBase ≤ x.2.base ∧ x.2.base + x.2.len ≤ at_) ∧ s.rsvBase ≤ at_ ∧
      (src = s.rsvSrc → s.rsvSize ≠ 0 → at_ + size ≤ s.rsvEnd → ∃ t, exec e s = .next t ∧
        Written s.mem t.mem at_ (recordBodies bs) ∧ t.reserve = SMap.insert kept (16 * src + strm) ⟨recordHeads bs, at_, size⟩ ∧
        (SMap.rising none s.reserve = true → t.stored strm = some bs) ∧
        (∀ k, s.ckpt = some k → t.ckpt = some (if k.restore = false ∧ k.store = false ∧ k.peer = s.ownPackage k.ctx ∧ k.peer = src then
          { k with taken := addOnce k.taken strm } else k)) ∧ (s.ckpt = none → t.ckpt = none) ∧
        t = { s with mem := t.mem, poison := t.poison, ctxs := t.ctxs, reserve := t.reserve, ckpt := t.ckpt }) ∧
      (src ≠ s.rsvSrc ∨ s.rsvSize = 0 ∨ s.rsvEnd < at_ + size →
        exec e s = .next { s with hostOut := s.hostOut ++ [.refused strm] })) ∧
    (16 ≤ strm → strm < 32 →
      (∀ bs, s.stored (strm - 16) = some bs →
        exec e s = .next { s with hostOut := s.hostOut ++ [.stream src (strm - 16) (cellsOf bs)] }) ∧
      (s.stored (strm - 16) = none →
        exec e s = .next { s with hostOut := s.hostOut ++ [.refused (strm - 16)] })) ∧
    (32 ≤ strm → strm < 48 → exec e s = .next (if s.restores src then s.ckEnd (strm - 32) 3 else s))

/-- R208 to R211, R240 to R242, R354: where the words that convert, pack, draw, launch, cancel and read a counter complete, under
conditions on the state and the operands alone, and what each leaves. A `launch` reads its packet, takes the lowest free slot and
gives its handle, or leaves the slots as they are when none is free; `cancel` of a launch that the wave has read writes 1, of
anything else it names 0; in a recorded run `lcount.nowait` gives the word of a launch already read, the word with STATE 00 and
DONE 0 of one that runs, or folds one that has ended; any other `lcount` of a launch waits for it. -/
def Obligations.ConvertAndLaunchComplete : Prop :=
  (∀ (s : State) (f : F) (dm sm : Fmt),
    (s.Computes (.cvt f dm sm) f.d dm.regs fun l =>
      cvtBits s.w.sp.fmode (cvtMode s.w.sp.fmode f.c) dm sm (s.opnd f.a sm.regs l)) ∧
    (s.Computes (.cvtsr f dm sm) f.d dm.regs fun l =>
      cvtsrVal s.w.sp.fmode dm (s.opnd f.b 1 l) (flushIn s.w.sp.fmode sm (s.opnd f.a sm.regs l))) ∧
    (s.Computes (.pk f dm sm) f.d 1 fun l => pkBits s.w.sp.fmode dm sm (s.opnd f.d 1 l) (s.opnd f.a 1 l) (s.opnd f.c 1 l)) ∧
    s.Computes (.upk f dm sm) f.d 1 fun l => upkBits s.w.sp.fmode dm sm (s.opnd f.a 1 l) (s.opnd f.c 1 l)) ∧
  (∀ (s : State) (f : F) (w32 : Bool), (∀ r, f.d ≠ .s r) → s.Issues (.rand f w32) → s.active (.rand f w32) ≠ 0 →
    ∃ t, exec (.rand f w32) s = .next t ∧ ∀ l < 32,
      SMap.get t.w.sp.rng 0 l = (if (s.active (.rand f w32)).getLsbD l then SMap.get s.w.sp.rng 0 l + 1 else SMap.get s.w.sp.rng 0 l) ∧
      ∀ n k, f.d.part s.w (s.active (.rand f w32)) (if w32 then 1 else 2) (.v n l) = some (l, k) →
        (t.w.vreg n l).toNat =
          (randBits s.b.gid s.w.idx l (s.opnd64 f.a l) (SMap.get s.w.sp.rng 0 l)).toNat / 2 ^ (32 * k) % 2 ^ 32) ∧
  (∀ (s : State) (f : F) (t : State) (bs : List Byte), s.Issues (.launch f) → s.active (.launch f) ≠ 0 →
    s.UnitsRead (s.opnd64 f.a 0) 16 8 (lowLane (s.active (.launch f))) t bs → s.viewBusy = false →
    (s.launchCode (Packet.of bs) = 0 → s.unrouted ((Packet.of bs).grp s.b.ctx).nmem = false) →
    ∃ u : State, exec (.launch f) s = .next (s.finishes u (.launch f) true) ∧
      (s.w.freeSlot = none → u.w.slots = s.w.slots) ∧
      ∀ k, s.w.freeSlot = some k → u.w.slots = SMap.insert s.w.slots k t.ids ∧
        ∀ r : BitVec 6, f.d = .s r → r.toNat < 63 → (u.w.sreg r.toNat).toNat = k ∧ (u.w.sreg (r.toNat + 1)).toNat = 2 * 2 ^ 29) ∧
  (∀ (s : State) (f : F) (n : Named), s.Issues (.cancel f) → s.active (.cancel f) ≠ 0 → s.named (s.opnd64 f.a 0) = some n →
    s.cancelUnrouted n = false → ∃ u : State, exec (.cancel f) s = .next (s.finishes u (.cancel f) true) ∧
      ∀ r : BitVec 6, f.d = .s r → (∀ lvl, n = .self lvl → u.w.sreg r.toNat = 0) ∧
        ∀ k, n = .slot k → u.w.sreg r.toNat = if SMap.has s.w.slots k then 0 else 1) ∧
  ∀ (s : State) (f : F) (nowait : Bool), s.Issues (.lcount f nowait) → s.active (.lcount f nowait) ≠ 0 →
    let i := Instr.lcount f nowait
    let now := nowait && s.recorded s.b.ctx
    (now = true → ∀ lvl, s.named (s.opnd64 f.a 0) = some (.self lvl) →
      exec i s = .next (s.finishes (s.setOpnd f.d 2 0 (counterWord 0 0).toNat) i true)) ∧
    ∀ k, s.named (s.opnd64 f.a 0) = some (.slot k) →
      (now = false → exec i s = .next (s.finishes (s.park s.run
        [⟨.count, 0, SMap.get s.w.slots 0 k, 0, 0, k, f.d, s.active i, [], false, false, [], s.pc⟩] false) i false)) ∧
      (now = true → s.viewBusy = false →
        (SMap.find? s.w.slots k = none → exec i s = .next (s.finishes (s.setOpnd f.d 2 0 (SMap.get s.w.read 0 k).toNat) i true)) ∧
        (∀ id g, SMap.find? s.w.slots k = some id → SMap.find? s.grps id = some g → g.st ≠ .ended →
          exec i s = .next (s.finishes (s.setOpnd f.d 2 0 (counterWord 0 0).toNat) i true)) ∧
        ∀ id g, SMap.find? s.w.slots k = some id → SMap.find? s.grps id = some g → g.st = .ended →
          g.confl = none →
          ∃ u : State, exec i s = .next (s.finishes u i true) ∧ u.w.read = SMap.insert s.w.read k (counterWord g.state g.done) ∧
            u.w.slots = SMap.erase s.w.slots k)
end

