-- ==== Sys2Proof/Laws/Map.lean ====
section
/-! SUPPORT. Laws of the finite maps and of byte memories: a read after a write, and the canonical form that every
operation keeps. -/

namespace Sys2Proof.Machine

/-! ### Reading after a write -/

theorem SMap.find?_insert {α : Type} (m : SMap α) (q p : Nat) (y : α) :
    SMap.find? (SMap.insert m q y) p = if p = q then some y else SMap.find? m p := by
  induction m with
  | nil => simp [SMap.insert, SMap.find?]
  | cons e m ih =>
    obtain ⟨k, x⟩ := e
    simp only [SMap.insert]
    split
    · simp [SMap.find?]
    · split
      · rename_i h
        subst h
        simp only [SMap.find?]
        split <;> rfl
      · rename_i h1 h2
        simp only [SMap.find?, ih]
        by_cases hp : p = q
        · subst hp
          simp [h2]
        · simp [hp]

theorem SMap.find?_erase {α : Type} (m : SMap α) (q p : Nat) :
    SMap.find? (SMap.erase m q) p = if p = q then none else SMap.find? m p := by
  induction m with
  | nil => simp [SMap.erase, SMap.find?]
  | cons e m ih =>
    obtain ⟨k, x⟩ := e
    simp only [SMap.erase]
    split
    · rename_i h
      subst h
      rw [ih]
      by_cases hp : p = q <;> simp [SMap.find?, hp]
    · rename_i h
      simp only [SMap.find?, ih]
      by_cases hp : p = q
      · subst hp
        simp [h]
      · simp [hp]

theorem SMap.get_insert {α : Type} (m : SMap α) (d : α) (q p : Nat) (y : α) :
    SMap.get (SMap.insert m q y) d p = if p = q then y else SMap.get m d p := by
  by_cases h : p = q <;> simp [SMap.get, SMap.find?_insert, h]

theorem SMap.get_erase {α : Type} (m : SMap α) (d : α) (q p : Nat) :
    SMap.get (SMap.erase m q) d p = if p = q then d else SMap.get m d p := by
  by_cases h : p = q <;> simp [SMap.get, SMap.find?_erase, h]

/-- A read after a write: the value written at its key, the old value elsewhere. -/
theorem SMap.get_set {α : Type} [DecidableEq α] (m : SMap α) (d : α) (q p : Nat) (y : α) :
    SMap.get (SMap.set m d q y) d p = if p = q then y else SMap.get m d p := by
  simp only [SMap.set]
  split
  · rename_i h
    rw [SMap.get_erase, h]
  · rw [SMap.get_insert]

@[simp] theorem SMap.get_set_self {α : Type} [DecidableEq α] (m : SMap α) (d : α) (q : Nat) (y : α) :
    SMap.get (SMap.set m d q y) d q = y := by simp [SMap.get_set]

theorem SMap.get_set_ne {α : Type} [DecidableEq α] (m : SMap α) (d : α) {q p : Nat} (y : α) (h : p ≠ q) :
    SMap.get (SMap.set m d q y) d p = SMap.get m d p := by simp [SMap.get_set, h]

@[simp] theorem SMap.get_nil {α : Type} (d : α) (p : Nat) : SMap.get ([] : SMap α) d p = d := rfl

/-! ### The canonical form -/

theorem SMap.rising_insert {α : Type} (m : SMap α) (q : Nat) (y : α) (lo : Option Nat)
    (h : SMap.rising lo m = true) (hq : ∀ k, lo = some k → k < q) : SMap.rising lo (SMap.insert m q y) = true := by
  induction m generalizing lo with
  | nil => cases lo <;> simp_all [SMap.insert, SMap.rising]
  | cons e m ih =>
    obtain ⟨k, x⟩ := e
    have ht : SMap.rising (some k) m = true := by
      cases lo <;> simp_all [SMap.rising]
    have hk : ∀ j, lo = some j → j < k := by
      intro j hj
      subst hj
      simp [SMap.rising] at h
      exact h.1
    simp only [SMap.insert]
    split
    · rename_i hlt
      cases lo <;> simp_all [SMap.rising]
    · split
      · cases lo <;> simp_all [SMap.rising]
      · rename_i h1 h2
        have hkq : k < q := by omega
        have := ih (some k) ht (by intro j hj; cases hj; exact hkq)
        cases lo <;> simp_all [SMap.rising]

theorem SMap.rising_weaken {α : Type} (m : SMap α) (lo lo' : Option Nat) (h : SMap.rising lo m = true)
    (hl : ∀ k, lo' = some k → ∃ j, lo = some j ∧ k ≤ j) : SMap.rising lo' m = true := by
  cases m with
  | nil => cases lo' <;> rfl
  | cons e m =>
    obtain ⟨k, x⟩ := e
    cases lo' with
    | none => cases lo <;> simp_all [SMap.rising]
    | some a =>
      obtain ⟨j, rfl, hj⟩ := hl a rfl
      simp only [SMap.rising, Bool.and_eq_true, decide_eq_true_eq] at h ⊢
      exact ⟨by omega, h.2⟩

theorem SMap.rising_erase {α : Type} (m : SMap α) (q : Nat) (lo : Option Nat)
    (h : SMap.rising lo m = true) : SMap.rising lo (SMap.erase m q) = true := by
  induction m generalizing lo with
  | nil => simpa [SMap.erase] using h
  | cons e m ih =>
    obtain ⟨k, x⟩ := e
    have ht : SMap.rising (some k) m = true := by
      cases lo <;> simp_all [SMap.rising]
    simp only [SMap.erase]
    split
    · refine ih lo (SMap.rising_weaken m (some k) lo ht ?_)
      intro a ha
      subst ha
      simp only [SMap.rising, Bool.and_eq_true, decide_eq_true_eq] at h
      exact ⟨k, rfl, by omega⟩
    · have := ih (some k) ht
      cases lo <;> simp_all [SMap.rising]

theorem SMap.mem_insert {α : Type} (m : SMap α) (q : Nat) (y : α) (e : Nat × α) (h : e ∈ SMap.insert m q y) :
    e = (q, y) ∨ e ∈ m := by
  induction m with
  | nil => simpa [SMap.insert] using h
  | cons f m ih =>
    obtain ⟨k, x⟩ := f
    simp only [SMap.insert] at h
    split at h
    · simpa using h
    · split at h
      · rename_i hk
        subst hk
        simp only [List.mem_cons] at h ⊢
        rcases h with h | h
        · exact .inl h
        · exact .inr (.inr h)
      · simp only [List.mem_cons] at h ⊢
        rcases h with h | h
        · exact .inr (.inl h)
        · rcases ih h with h | h
          · exact .inl h
          · exact .inr (.inr h)

theorem SMap.mem_erase {α : Type} (m : SMap α) (q : Nat) (e : Nat × α) (h : e ∈ SMap.erase m q) : e ∈ m := by
  induction m with
  | nil => simp [SMap.erase] at h
  | cons f m ih =>
    obtain ⟨k, x⟩ := f
    simp only [SMap.erase] at h
    split at h
    · exact List.mem_cons_of_mem _ (ih h)
    · simp only [List.mem_cons] at h ⊢
      rcases h with h | h
      · exact .inl h
      · exact .inr (ih h)

/-- A write keeps the canonical form. -/
theorem SMap.wf_set {α : Type} [DecidableEq α] (m : SMap α) (d : α) (q : Nat) (y : α) (h : SMap.wf d m = true) :
    SMap.wf d (SMap.set m d q y) = true := by
  simp only [SMap.wf, Bool.and_eq_true, List.all_eq_true, decide_eq_true_eq] at h ⊢
  simp only [SMap.set]
  split
  · exact ⟨SMap.rising_erase m q none h.1, fun e he => h.2 e (SMap.mem_erase m q e he)⟩
  · rename_i hy
    refine ⟨SMap.rising_insert m q y none h.1 (by simp), fun e he => ?_⟩
    rcases SMap.mem_insert m q y e he with rfl | he
    · exact hy
    · exact h.2 e he

theorem SMap.rising_filter {α : Type} (m : SMap α) (p : Nat × α → Bool) (lo : Option Nat)
    (h : SMap.rising lo m = true) : SMap.rising lo (m.filter p) = true := by
  induction m generalizing lo with
  | nil => simpa using h
  | cons e m ih =>
    obtain ⟨k, x⟩ := e
    have ht : SMap.rising (some k) m = true := by
      cases lo <;> simp_all [SMap.rising]
    simp only [List.filter_cons]
    split
    · have := ih (some k) ht
      cases lo <;> simp_all [SMap.rising]
    · refine ih lo (SMap.rising_weaken m (some k) lo ht ?_)
      intro a ha
      subst ha
      simp only [SMap.rising, Bool.and_eq_true, decide_eq_true_eq] at h
      exact ⟨k, rfl, by omega⟩

/-- Dropping entries keeps the canonical form. -/
theorem SMap.wf_filter {α : Type} [DecidableEq α] (m : SMap α) (d : α) (p : Nat × α → Bool) (h : SMap.wf d m = true) :
    SMap.wf d (m.filter p) = true := by
  simp only [SMap.wf, Bool.and_eq_true, List.all_eq_true, decide_eq_true_eq] at h ⊢
  exact ⟨SMap.rising_filter m p none h.1, fun e he => h.2 e (List.mem_filter.1 he).1⟩

/-! ### Byte memories -/

theorem Memory.byte_setByte (m : Memory) (a p : Nat) (b : Byte) :
    Memory.byte (Memory.setByte m a b) p = if p = a then b else Memory.byte m p := SMap.get_set m 0 a p b

theorem Memory.wf_setByte (m : Memory) (a : Nat) (b : Byte) (h : Memory.wf m = true) :
    Memory.wf (Memory.setByte m a b) = true := SMap.wf_set m 0 a b h

/-- A byte after a write of consecutive bytes. -/
theorem Memory.byte_setBytes (m : Memory) (a p : Nat) (bs : List Byte) :
    Memory.byte (Memory.setBytes m a bs) p =
      if a ≤ p ∧ p < a + bs.length then bs.getD (p - a) 0 else Memory.byte m p := by
  induction bs generalizing m a with
  | nil => simp [Memory.setBytes, show ¬ (a ≤ p ∧ p < a) by omega]
  | cons b bs ih =>
    simp only [Memory.setBytes, ih, Memory.byte_setByte, List.length_cons]
    by_cases h1 : p = a
    · subst h1
      simp
    · by_cases h2 : a + 1 ≤ p ∧ p < a + 1 + bs.length
      · have h3 : a ≤ p ∧ p < a + (bs.length + 1) := by omega
        have h4 : p - a = (p - (a + 1)) + 1 := by omega
        simp [h2, h3, h4]
      · have h3 : ¬ (a ≤ p ∧ p < a + (bs.length + 1)) := by omega
        simp only [h2, h3, h1, if_false]

/-- Bytes outside those written stand. -/
theorem Memory.byte_setBytes_outside (m : Memory) (a p : Nat) (bs : List Byte) (h : p < a ∨ a + bs.length ≤ p) :
    Memory.byte (Memory.setBytes m a bs) p = Memory.byte m p := by
  rw [Memory.byte_setBytes, if_neg (by omega)]

theorem Memory.wf_setBytes (m : Memory) (a : Nat) (bs : List Byte) (h : Memory.wf m = true) :
    Memory.wf (Memory.setBytes m a bs) = true := by
  induction bs generalizing m a with
  | nil => exact h
  | cons b bs ih => exact ih _ _ (Memory.wf_setByte m a b h)

theorem Memory.wf_setNum (m : Memory) (a n x : Nat) (h : Memory.wf m = true) : Memory.wf (Memory.setNum m a n x) = true :=
  Memory.wf_setBytes m a _ h

@[simp] theorem leBytes_length (n x : Nat) : (leBytes n x).length = n := by
  induction n generalizing x with
  | zero => rfl
  | succ n ih => simp [leBytes, ih]

@[simp] theorem Memory.bytes_length (m : Memory) (a n : Nat) : (Memory.bytes m a n).length = n := by
  induction n generalizing a with
  | zero => rfl
  | succ n ih => simp [Memory.bytes, ih]

/-- The number of n little-endian bytes of a number below 256^n is that number (R7). -/
theorem leNat_leBytes (n x : Nat) (h : x < 256 ^ n) : leNat (leBytes n x) = x := by
  induction n generalizing x with
  | zero => simp at h; subst h; rfl
  | succ n ih =>
    have h2 : x / 256 < 256 ^ n := by
      rw [Nat.div_lt_iff_lt_mul (by norm_num)]
      rw [pow_succ] at h
      exact h
    simp only [leBytes, leNat, ih _ h2, BitVec.toNat_ofNat]
    omega

/-- A number read back from where it was written. -/
theorem Memory.bytes_setBytes (m : Memory) (a : Nat) (bs : List Byte) :
    Memory.bytes (Memory.setBytes m a bs) a bs.length = bs := by
  have key : ∀ (n k : Nat), k + n = bs.length → Memory.bytes (Memory.setBytes m a bs) (a + k) n = bs.drop k := by
    intro n
    induction n with
    | zero => intro k hk; simp [Memory.bytes, List.drop_eq_nil_of_le (by omega : bs.length ≤ k)]
    | succ n ih =>
      intro k hk
      have hlt : k < bs.length := by omega
      have e1 := ih (k + 1) (by omega)
      rw [List.drop_eq_getElem_cons hlt]
      simp only [Memory.bytes]
      rw [Memory.byte_setBytes, if_pos ⟨by omega, by omega⟩, Nat.add_assoc, e1]
      congr 1
      have e2 : a + k - a = k := by omega
      rw [e2, List.getD_eq_getElem?_getD, List.getElem?_eq_getElem hlt]
      rfl
  have := key bs.length 0 (by omega)
  simpa using this

theorem Memory.num_setNum (m : Memory) (a n x : Nat) (h : x < 256 ^ n) : Memory.num (Memory.setNum m a n x) a n = x := by
  have e := Memory.bytes_setBytes m a (leBytes n x)
  rw [leBytes_length] at e
  simp only [Memory.num, Memory.setNum, e, leNat_leBytes n x h]

end Sys2Proof.Machine
end

