-- ==== Sys2Proof/Laws/Lanes.lean ====
section
/-! SUPPORT. What a word that writes only registers does: the law of `setOpnd`, of the lane loops, and the completion of
every word made by `simple` and `perLane`. -/

namespace Sys2Proof
open Machine
namespace Machine

/-! ### One register write -/

theorem lane_key {n l m k : Nat} (hl : l < 32) (hk : k < 32) : 32 * n + l = 32 * m + k ↔ n = m ∧ l = k := by omega

@[simp] theorem Wave.vreg_setV (w : Wave) (n l m k : Nat) (x : W32) (hl : l < 32) (hk : k < 32) :
    (w.setV n l x).vreg m k = if m = n ∧ k = l then x else w.vreg m k := by
  simp only [Wave.vreg, Wave.setV, SMap.get_set, lane_key hk hl]

theorem Wave.reg_setV (w : Wave) (n l : Nat) (x : W32) (q : Reg) (hl : l < 32) (hq : q.ok) :
    (w.setV n l x).reg q = if q = .v n l then x.toNat else w.reg q := by
  cases q with
  | v m k =>
    simp only [Wave.reg, Wave.vreg_setV w n l m k x hl hq, Reg.v.injEq]
    split <;> rfl
  | _ => simp [Wave.reg, Wave.setV, Wave.sreg, Wave.pred, Wave.ireg]

theorem Wave.reg_setS (w : Wave) (n : Nat) (x : W32) (q : Reg) :
    (w.setS n x).reg q = if q = .s n then x.toNat else w.reg q := by
  cases q with
  | s m =>
    simp only [Wave.reg, Wave.sreg, Wave.setS, SMap.get_set, Reg.s.injEq]
    split <;> rfl
  | _ => simp [Wave.reg, Wave.setS, Wave.vreg, Wave.pred, Wave.ireg]

theorem Wave.reg_setI (w : Wave) (n l : Nat) (x : BitVec 8) (q : Reg) (hl : l < 32) (hq : q.ok) :
    (w.setI n l x).reg q = if q = .i n l then x.toNat else w.reg q := by
  cases q with
  | i m k =>
    simp only [Wave.reg, Wave.ireg, Wave.setI, SMap.get_set, lane_key hq hl, Reg.i.injEq]
    split <;> rfl
  | _ => simp [Wave.reg, Wave.setI, Wave.vreg, Wave.pred, Wave.sreg]

theorem laneBit_getLsbD (l k : Nat) (_ : l < 32) (hk : k < 32) : (laneBit l).getLsbD k = decide (k = l) := by
  simp only [laneBit, BitVec.getLsbD_ofNat, hk, decide_true, Bool.true_and, Nat.testBit_two_pow]
  exact decide_eq_decide.2 eq_comm

theorem laneBit_getElem (l k : Nat) (hl : l < 32) (hk : k < 32) : (laneBit l)[k] = decide (k = l) := by
  rw [← laneBit_getLsbD l k hl hk, BitVec.getLsbD_eq_getElem]

/-- The parts of a number, one after the other. -/
theorem div_part (x k : Nat) : x / 2 ^ 32 / 2 ^ (32 * k) = x / 2 ^ (32 * (k + 1)) := by
  rw [Nat.div_div_eq_div_mul, ← Nat.pow_add, Nat.mul_succ, Nat.add_comm]

theorem Wave.reg_setP (w : Wave) (n l : Nat) (x : Bool) (q : Reg) (hl : l < 32) (hq : q.ok) :
    (w.setP n l x).reg q = if q = .p n l ∧ n ≠ 0 then bnum x else w.reg q := by
  cases q with
  | p m k =>
    have hk : k < 32 := hq
    simp only [Wave.reg, Wave.pred, Wave.setP, SMap.get_set, Reg.p.injEq]
    by_cases hm : m = 0
    · subst hm
      by_cases h : n = 0 <;> simp [h, eq_comm]
    · by_cases hn : m = n
      · subst hn
        simp only [hm, if_true, Bool.false_or, true_and, not_false_eq_true, and_true, ne_eq, beq_eq_false_iff_ne.2 hm]
        by_cases hl2 : k = l
        · subst hl2
          cases x <;> simp [laneBit_getElem, hk]
        · cases x <;> simp [laneBit_getElem, hk, hl, hl2]
      · simp [hn]
  | _ => simp [Wave.reg, Wave.setP, Wave.vreg, Wave.sreg, Wave.ireg]

/-! ### Writing an operand in one lane -/

end Machine
/-- Which part of an operand of a lane a register is. -/
def Opnd.partL (o : Opnd) (wbase l n : Nat) (q : Reg) : Option Nat :=
  match o, q with
  | .v r, .v m k => if k = l ∧ r.toNat ≤ m ∧ m < r.toNat + n then some (m - r.toNat) else none
  | .win j, .v m k => if k = l ∧ wbase + j.toNat ≤ m ∧ m < wbase + j.toNat + n then some (m - (wbase + j.toNat)) else none
  | .s r, .s m => if r.toNat ≤ m ∧ m < r.toNat + n then some (m - r.toNat) else none
  | .p r, .p m k => if k = l ∧ m = r.toNat ∧ m ≠ 0 then some 0 else none
  | .i r, .i m k => if k = l ∧ m = r.toNat then some 0 else none
  | _, _ => none
namespace Machine

theorem Wave.reg_setVs (w : Wave) (r l n x : Nat) (q : Reg) (hl : l < 32) (hq : q.ok) :
    (w.setVs r l n x).reg q =
      match (match q with | .v m k => if k = l ∧ r ≤ m ∧ m < r + n then some (m - r) else none | _ => none) with
      | some k => x / 2 ^ (32 * k) % 2 ^ q.bits
      | none => w.reg q := by
  induction n generalizing w r x with
  | zero =>
    have : (match q with | .v m k => if k = l ∧ r ≤ m ∧ m < r + 0 then some (m - r) else none | _ => none) = none := by
      cases q <;> simp
    rw [this]
    rfl
  | succ n ih =>
    simp only [Wave.setVs]
    rw [ih]
    cases q with
    | v m k =>
      simp only [Wave.reg_setV w r l (BitVec.ofNat 32 x) (.v m k) hl hq, Reg.v.injEq]
      by_cases h1 : k = l ∧ r + 1 ≤ m ∧ m < r + 1 + n
      · have h2 : k = l ∧ r ≤ m ∧ m < r + (n + 1) := by omega
        have h3 : m - r = (m - (r + 1)) + 1 := by omega
        simp only [h1, h2, and_self, if_true]
        rw [h3, div_part]
      · by_cases h2 : m = r ∧ k = l
        · have h3 : k = l ∧ r ≤ m ∧ m < r + (n + 1) := by omega
          obtain ⟨rfl, rfl⟩ := h2
          simp [Reg.bits]
        · have h3 : ¬ (k = l ∧ r ≤ m ∧ m < r + (n + 1)) := by omega
          simp only [h1, h2, h3, if_false]
    | _ => simp [Wave.reg_setV _ _ _ _ _ hl hq]

theorem Wave.reg_setSs (w : Wave) (r n x : Nat) (q : Reg) :
    (w.setSs r n x).reg q =
      match (match q with | .s m => if r ≤ m ∧ m < r + n then some (m - r) else none | _ => none) with
      | some k => x / 2 ^ (32 * k) % 2 ^ q.bits
      | none => w.reg q := by
  induction n generalizing w r x with
  | zero =>
    have : (match q with | .s m => if r ≤ m ∧ m < r + 0 then some (m - r) else none | _ => none) = none := by
      cases q <;> simp
    rw [this]
    rfl
  | succ n ih =>
    simp only [Wave.setSs]
    rw [ih]
    cases q with
    | s m =>
      simp only [Wave.reg_setS, Reg.s.injEq]
      by_cases h1 : r + 1 ≤ m ∧ m < r + 1 + n
      · have h2 : r ≤ m ∧ m < r + (n + 1) := by omega
        have h3 : m - r = (m - (r + 1)) + 1 := by omega
        simp only [h1, h2, and_self, if_true]
        rw [h3, div_part]
      · by_cases h2 : m = r
        · subst h2
          simp [Reg.bits]
        · have h3 : ¬ (r ≤ m ∧ m < r + (n + 1)) := by omega
          simp only [h1, h2, h3, if_false]
    | _ => simp [Wave.reg_setS]

theorem Wave.reg_setOpnd (w : Wave) (o : Opnd) (n l x : Nat) (q : Reg) (hl : l < 32) (hq : q.ok) :
    (w.setOpnd o n l x).reg q =
      match o.partL w.sp.wbase.toNat l n q with
      | some k => x / 2 ^ (32 * k) % 2 ^ q.bits
      | none => w.reg q := by
  cases o with
  | v r => simp only [Wave.setOpnd, Wave.reg_setVs _ _ _ _ _ _ hl hq]; cases q <;> rfl
  | win j => simp only [Wave.setOpnd, Wave.reg_setVs _ _ _ _ _ _ hl hq]; cases q <;> rfl
  | s r => simp only [Wave.setOpnd, Wave.reg_setSs]; cases q <;> rfl
  | p r =>
    simp only [Wave.setOpnd, Wave.reg_setP _ _ _ _ _ hl hq]
    cases q with
    | p m k =>
      by_cases h : k = l ∧ m = r.toNat ∧ m ≠ 0
      · obtain ⟨rfl, rfl, h⟩ := h
        simp [Opnd.partL, h, bnum, Reg.bits]
        rcases Nat.mod_two_eq_zero_or_one x with hx | hx <;> simp [hx]
      · have : ¬ (Reg.p m k = Reg.p r.toNat l ∧ r.toNat ≠ 0) := by
          rintro ⟨h1, h2⟩
          simp only [Reg.p.injEq] at h1
          exact h ⟨h1.2, h1.1, h1.1 ▸ h2⟩
        simp only [this, Opnd.partL, h, if_false]
    | _ => simp [Opnd.partL]
  | i r =>
    simp only [Wave.setOpnd, Wave.reg_setI _ _ _ _ _ hl hq]
    cases q with
    | i m k =>
      by_cases h : k = l ∧ m = r.toNat
      · obtain ⟨rfl, rfl⟩ := h
        simp [Opnd.partL, Reg.bits]
      · have : ¬ (Reg.i m k = Reg.i r.toNat l) := by
          intro h1
          simp only [Reg.i.injEq] at h1
          exact h ⟨h1.2, h1.1⟩
        simp only [this, Opnd.partL, h, if_false]
    | _ => simp [Opnd.partL]
  | _ => cases q <;> simp [Wave.setOpnd, Opnd.partL]

/-! ### States that differ in registers and flags alone -/

/-- `t` differs from `s` in general registers and %fflags alone. -/
def RegsOnly (s t : State) : Prop := t = s.withRegs t.w

theorem RegsOnly.refl (s : State) : RegsOnly s s := rfl

theorem RegsOnly.trans {s t u : State} (h : RegsOnly s t) (k : RegsOnly t u) : RegsOnly s u := by
  unfold RegsOnly at *
  generalize u.w = w at k
  subst k
  rw [h]
  rfl

theorem RegsOnly.mk (s : State) (rs : SMap W32) (rv : SMap W32) (rp : SMap Mask) (ri : SMap (BitVec 8)) (ff : W32) :
    RegsOnly s { s with w := { s.w with r := { s.w.r with s := rs, v := rv, p := rp, i := ri },
                                        sp := { s.w.sp with fflags := ff } } } := rfl

theorem RegsOnly.setVs (s : State) (r l n x : Nat) : RegsOnly s (s.setW (s.w.setVs r l n x)) := by
  induction n generalizing s r x with
  | zero => rfl
  | succ n ih =>
    have h1 : RegsOnly s (s.setW (s.w.setV r l (BitVec.ofNat 32 x))) := rfl
    exact h1.trans (ih (s.setW (s.w.setV r l (BitVec.ofNat 32 x))) (r + 1) (x / 2 ^ 32))

theorem RegsOnly.setSs (s : State) (r n x : Nat) : RegsOnly s (s.setW (s.w.setSs r n x)) := by
  induction n generalizing s r x with
  | zero => rfl
  | succ n ih =>
    have h1 : RegsOnly s (s.setW (s.w.setS r (BitVec.ofNat 32 x))) := rfl
    exact h1.trans (ih (s.setW (s.w.setS r (BitVec.ofNat 32 x))) (r + 1) (x / 2 ^ 32))

theorem RegsOnly.setOpnd (s : State) (o : Opnd) (n l x : Nat) : RegsOnly s (s.setOpnd o n l x) := by
  cases o with
  | v r => exact RegsOnly.setVs s r.toNat l n x
  | win k => exact RegsOnly.setVs s _ l n x
  | s r => exact RegsOnly.setSs s r.toNat n x
  | _ => rfl

theorem RegsOnly.orFlags (s : State) (f : Fl) : RegsOnly s (s.orFlags f) := rfl

theorem RegsOnly.wbase {s t : State} (h : RegsOnly s t) : t.w.sp.wbase = s.w.sp.wbase := by
  unfold RegsOnly at h; rw [h]; rfl
theorem RegsOnly.view {s t : State} (h : RegsOnly s t) : t.w.view = s.w.view := by
  unfold RegsOnly at h; rw [h]; rfl

@[simp] theorem Wave.setVs_sp (w : Wave) (r l n x : Nat) : (w.setVs r l n x).sp = w.sp := by
  induction n generalizing w r x with
  | zero => rfl
  | succ n ih => simp only [Wave.setVs, ih]; rfl
@[simp] theorem Wave.setSs_sp (w : Wave) (r n x : Nat) : (w.setSs r n x).sp = w.sp := by
  induction n generalizing w r x with
  | zero => rfl
  | succ n ih => simp only [Wave.setSs, ih]; rfl
@[simp] theorem Wave.setOpnd_sp (w : Wave) (o : Opnd) (n l x : Nat) : (w.setOpnd o n l x).sp = w.sp := by
  cases o <;> simp [Wave.setOpnd] <;> rfl

@[simp] theorem Wave.reg_orFlags (w : Wave) (f : Fl) (q : Reg) : (w.orFlags f).reg q = w.reg q := by
  cases q <;> rfl

/-! ### The lane loop -/

/-- One turn of a lane loop. -/
def laneStep (d : Opnd) (n : Nat) (f : Nat → Nat × Fl) (t : State) (l : Nat) : State := (t.setOpnd d n l (f l).1).orFlags (f l).2

theorem RegsOnly.laneLoop (s : State) (d : Opnd) (n : Nat) (f : Nat → Nat × Fl) (ls : List Nat) :
    RegsOnly s (ls.foldl (laneStep d n f) s) := by
  induction ls generalizing s with
  | nil => rfl
  | cons l ls ih => exact ((RegsOnly.setOpnd s d n l _).trans (RegsOnly.orFlags _ _)).trans (ih _)

theorem laneLoop_fflags (s : State) (d : Opnd) (n : Nat) (f : Nat → Nat × Fl) (ls : List Nat) (x : W32) (a : Fl)
    (h : s.w.sp.fflags = x ||| a.setWidth 32) :
    (ls.foldl (laneStep d n f) s).w.sp.fflags = x ||| (ls.foldl (fun g l => g ||| (f l).2) a).setWidth 32 := by
  induction ls generalizing s a with
  | nil => exact h
  | cons l ls ih =>
    simp only [List.foldl_cons]
    refine ih (laneStep d n f s l) (a ||| (f l).2) ?_
    simp [laneStep, State.orFlags, Wave.orFlags, State.setOpnd, State.setW, h, BitVec.setWidth_or, BitVec.or_assoc]

theorem laneStep_reg (d : Opnd) (n : Nat) (f : Nat → Nat × Fl) (s : State) (l : Nat) (q : Reg) (hl : l < 32) (hq : q.ok) :
    (laneStep d n f s l).w.reg q =
      match d.partL s.w.sp.wbase.toNat l n q with
      | some k => (f l).1 / 2 ^ (32 * k) % 2 ^ q.bits
      | none => s.w.reg q := by
  simp only [laneStep, State.orFlags, Wave.reg_orFlags, State.setOpnd, State.setW]
  exact Wave.reg_setOpnd s.w d n l _ q hl hq

theorem laneStep_wbase (d : Opnd) (n : Nat) (f : Nat → Nat × Fl) (s : State) (l : Nat) :
    (laneStep d n f s l).w.sp.wbase = s.w.sp.wbase :=
  RegsOnly.wbase ((RegsOnly.setOpnd s d n l _).trans (RegsOnly.orFlags _ _))

theorem laneLoop_reg_none (s : State) (d : Opnd) (n : Nat) (f : Nat → Nat × Fl) (ls : List Nat) (q : Reg) (hq : q.ok)
    (hl : ∀ l ∈ ls, l < 32) (h : ∀ l ∈ ls, d.partL s.w.sp.wbase.toNat l n q = none) :
    (ls.foldl (laneStep d n f) s).w.reg q = s.w.reg q := by
  induction ls generalizing s with
  | nil => rfl
  | cons l ls ih =>
    simp only [List.foldl_cons]
    rw [ih (laneStep d n f s l) (fun m hm => hl m (by simp [hm]))]
    · rw [laneStep_reg d n f s l q (hl l (by simp)) hq, h l (by simp)]
    · intro m hm
      rw [laneStep_wbase]
      exact h m (by simp [hm])

theorem laneLoop_reg_some (s : State) (d : Opnd) (n : Nat) (f : Nat → Nat × Fl) (ls : List Nat) (q : Reg) (hq : q.ok)
    (l k : Nat) (hl : ∀ l ∈ ls, l < 32) (hm : l ∈ ls) (hk : d.partL s.w.sp.wbase.toNat l n q = some k)
    (hu : ∀ m ∈ ls, d.partL s.w.sp.wbase.toNat m n q ≠ none → m = l) :
    (ls.foldl (laneStep d n f) s).w.reg q = (f l).1 / 2 ^ (32 * k) % 2 ^ q.bits := by
  induction ls generalizing s with
  | nil => simp at hm
  | cons m ls ih =>
    simp only [List.foldl_cons]
    have hl' : ∀ l ∈ ls, l < 32 := fun j hj => hl j (by simp [hj])
    by_cases h : l ∈ ls
    · exact ih (laneStep d n f s m) hl' h (by rw [laneStep_wbase]; exact hk)
        (by rw [laneStep_wbase]; exact fun j hj => hu j (by simp [hj]))
    · have hml : m = l := by
        rcases List.mem_cons.1 hm with h1 | h1
        · exact h1.symm
        · exact absurd h1 h
      subst hml
      rw [laneLoop_reg_none _ d n f ls q hq hl', laneStep_reg d n f s m q (hl m (by simp)) hq, hk]
      intro j hj
      rw [laneStep_wbase]
      by_contra hn
      exact h (hu j (by simp [hj]) hn ▸ hj)

theorem mem_lanesOf {m : Mask} {l : Nat} : l ∈ lanesOf m ↔ l < 32 ∧ m.getLsbD l = true := by
  simp [lanesOf, allLanes]

theorem lowLane_lt (m : Mask) : lowLane m < 32 := by
  unfold lowLane
  cases h : lanesOf m with
  | nil => simp
  | cons l ls =>
    have : l ∈ lanesOf m := by simp [h]
    exact (mem_lanesOf.1 this).1

theorem Opnd.lanes_lt (o : Opnd) (act : Mask) : ∀ l ∈ o.lanes act, l < 32 := by
  intro l h
  cases o with
  | s r =>
    simp only [Opnd.lanes, List.mem_singleton] at h
    subst h
    exact lowLane_lt act
  | _ => exact (mem_lanesOf.1 h).1

theorem perLane_eq (s : State) (act : Mask) (d : Opnd) (n : Nat) (f : Nat → Nat × Fl) :
    s.perLane act d n f = match d with
      | .s _ => (s.setOpnd d n 0 (f (lowLane act)).1).orFlags (f (lowLane act)).2
      | d => (lanesOf act).foldl (laneStep d n f) s := by
  cases d <;> rfl

theorem setOpnd_s (s : State) (r : BitVec 6) (n l m x : Nat) : s.setOpnd (.s r) n l x = s.setOpnd (.s r) n m x := rfl

/-- A lane loop over the lanes that give a destination its results. -/
theorem perLane_loop (s : State) (act : Mask) (d : Opnd) (n : Nat) (f : Nat → Nat × Fl) :
    s.perLane act d n f = (d.lanes act).foldl (laneStep d n f) s := by
  cases d <;> rfl

theorem RegsOnly.perLane (s : State) (act : Mask) (d : Opnd) (n : Nat) (f : Nat → Nat × Fl) :
    RegsOnly s (s.perLane act d n f) := by
  rw [perLane_loop]
  exact RegsOnly.laneLoop s d n f _

theorem part_partL (o : Opnd) (w : Wave) (act : Mask) (n : Nat) (q : Reg) (l k : Nat) (hq : q.ok)
    (h : o.part w act n q = some (l, k)) : l ∈ o.lanes act ∧ o.partL w.sp.wbase.toNat l n q = some k := by
  cases o <;> cases q <;> simp only [Opnd.part, Opnd.partL, Opnd.lanes, mem_lanesOf, List.mem_singleton] at h ⊢ <;>
    first
    | (simp at h; done)
    | (split at h
       · rename_i hc
         simp only [Option.some.injEq, Prod.mk.injEq] at h
         obtain ⟨rfl, rfl⟩ := h
         first
         | (simp_all [Reg.ok]; done)
         | exact ⟨⟨hq, hc.1⟩, if_pos ⟨rfl, hc.2.1, hc.2.2⟩⟩
       · simp at h)

theorem partL_part (o : Opnd) (w : Wave) (act : Mask) (n : Nat) (q : Reg) (l k : Nat)
    (hm : l ∈ o.lanes act) (h : o.partL w.sp.wbase.toNat l n q = some k) : o.part w act n q = some (l, k) := by
  cases o <;> cases q <;> simp only [Opnd.part, Opnd.partL, Opnd.lanes, mem_lanesOf, List.mem_singleton] at h hm ⊢ <;>
    first
    | (simp at h; done)
    | (split at h
       · rename_i hc
         simp only [Option.some.injEq] at h
         first
         | (simp_all; done)
         | (obtain ⟨rfl, h2, h3⟩ := hc; subst h; exact if_pos ⟨hm.2, h2, h3⟩)
       · simp at h)

theorem perLane_value (s : State) (act : Mask) (d : Opnd) (n : Nat) (f : Nat → Nat × Fl) (q : Reg) (l k : Nat) (hq : q.ok)
    (h : d.part s.w act n q = some (l, k)) : (s.perLane act d n f).w.reg q = (f l).1 / 2 ^ (32 * k) % 2 ^ q.bits := by
  rw [perLane_loop]
  obtain ⟨hm, hk⟩ := part_partL d s.w act n q l k hq h
  refine laneLoop_reg_some s d n f _ q hq l k (Opnd.lanes_lt d act) hm hk fun m hm' hn => ?_
  obtain ⟨j, hj⟩ := Option.ne_none_iff_exists'.1 hn
  have := partL_part d s.w act n q m j hm' hj
  rw [h] at this
  simp only [Option.some.injEq, Prod.mk.injEq] at this
  exact this.1.symm

theorem perLane_other (s : State) (act : Mask) (d : Opnd) (n : Nat) (f : Nat → Nat × Fl) (q : Reg) (hq : q.ok)
    (h : d.part s.w act n q = none) : (s.perLane act d n f).w.reg q = s.w.reg q := by
  rw [perLane_loop]
  refine laneLoop_reg_none s d n f _ q hq (Opnd.lanes_lt d act) fun l hl => ?_
  by_contra hn
  obtain ⟨j, hj⟩ := Option.ne_none_iff_exists'.1 hn
  have := partL_part d s.w act n q l j hl hj
  rw [h] at this
  simp at this

theorem perLane_fflags (s : State) (act : Mask) (d : Opnd) (n : Nat) (f : Nat → Nat × Fl) :
    (s.perLane act d n f).w.sp.fflags = s.w.sp.fflags ||| (laneFlags (d.lanes act) f).setWidth 32 := by
  rw [perLane_loop]
  exact laneLoop_fflags s d n f _ s.w.sp.fflags 0 (by simp)

/-! ### The issue event around a change of registers -/

/-- A wave with the registers and flags of another. -/
def Wave.takeRegs (w v : Wave) : Wave :=
  { w with r := { w.r with s := v.r.s, v := v.r.v, p := v.r.p, i := v.r.i }, sp := { w.sp with fflags := v.sp.fflags } }

theorem takeRegs_push (w v : Wave) (l : Nat) (x : W64) : (w.takeRegs v).push l x = (w.push l x).takeRegs v := rfl

theorem takeRegs_pushLoop (w v : Wave) (ls : List Nat) (x : Nat → W64) :
    ls.foldl (fun w l => w.push l (x l)) (w.takeRegs v) = (ls.foldl (fun w l => w.push l (x l)) w).takeRegs v := by
  induction ls generalizing w with
  | nil => rfl
  | cons l ls ih => simp only [List.foldl_cons, takeRegs_push, ih]

theorem takeRegs_pushHolds (s : State) (i : Instr) (act : Mask) (w v : Wave) :
    s.pushHolds i act (w.takeRegs v) = (s.pushHolds i act w).takeRegs v := by
  unfold State.pushHolds
  cases i.fields with
  | none => rfl
  | some f =>
    simp only
    split
    · rfl
    · exact takeRegs_pushLoop w v _ _

theorem takeRegs_afterBurst (w v : Wave) (pc : W64) (run : Mask) :
    (w.takeRegs v).afterBurst pc run = (w.afterBurst pc run).takeRegs v := by
  have c3 : ∀ l, (w.takeRegs v).pcAt l = w.pcAt l := fun _ => rfl
  have c4 : ∀ x, (w.takeRegs v).runAt x = w.runAt x := fun _ => rfl
  simp only [Wave.afterBurst, c3, c4, show (w.takeRegs v).burst = w.burst from rfl, show (w.takeRegs v).promo = w.promo from rfl]
  by_cases h0 : w.burst = 0
  · simp only [h0, if_true]
  · by_cases h1 : w.promo = pc
    · simp only [h0, h1, if_false, ne_eq, not_true_eq_false]
      generalize (decide (w.burst = 1) || w.runAt (w.pcAt (lowLane run)) != run) = c
      cases c <;> rfl
    · simp only [h0, h1, if_false, ne_eq, not_false_eq_true, if_true]
      rfl

theorem takeRegs_countWindow (w v : Wave) : (w.takeRegs v).countWindow = w.countWindow.takeRegs v := by
  unfold Wave.countWindow
  simp only [show (w.takeRegs v).window = w.window from rfl]
  cases w.window with
  | none => rfl
  | some n => simp only; split <;> rfl

theorem takeRegs_ageRun (w v : Wave) (table run : Mask) : (w.takeRegs v).ageRun table run = (w.ageRun table run).takeRegs v := rfl

theorem takeRegs_retire (w v : Wave) (table run : Mask) (pc : W64) :
    (w.takeRegs v).retire table run pc = (w.retire table run pc).takeRegs v := by
  unfold Wave.retire
  rw [takeRegs_ageRun, takeRegs_afterBurst, takeRegs_countWindow]

/-- An issued word finds its operands and, when it is a memory word, room. -/
theorem State.Issues.noWait {s : State} {i : Instr} (h : s.Issues i) :
    (s.waitsFor i || (i.isMem && decide (Config.memWords ≤ s.wordsInFlight))) = false := by
  rw [h.ready, Bool.false_or, Bool.and_eq_false_imp]
  intro hm
  exact decide_eq_false (Nat.not_le.mpr (h.room hm))

/-- A word that parks no lane keeps no hold in a group. -/
theorem State.keepHolds_parked (s : State) (i : Instr) (act m : Mask) (w : Wave) :
    s.keepHolds i (act &&& (m &&& ~~~m)) w = w := by
  unfold State.keepHolds
  cases i.fields with
  | none => rfl
  | some f => simp

/-- The lanes of a word that parks none and moves on all retire. -/
theorem State.retiring_parked (s : State) (act : Mask) : s.retiring s act true = act := by
  unfold State.retiring
  rw [if_pos rfl, BitVec.and_not_self]
  exact (BitVec.and_allOnes (x := act)).symm ▸ BitVec.and_allOnes

/-- A word whose effect changes registers and flags alone leaves what the issue event leaves, with those registers. -/
theorem retire_withRegs (s t : State) (i : Instr) (act : Mask) (next : Bool) (h : RegsOnly s t) :
    t.retire s i act next = (s.retire s i act next).withRegs t.w := by
  have hw : t.w = s.w.takeRegs t.w := by
    unfold RegsOnly at h
    exact congrArg State.w h
  have hs : t = { s with w := t.w } := by
    calc t = s.withRegs t.w := h
      _ = { s with w := s.w.takeRegs t.w } := rfl
      _ = { s with w := t.w } := by rw [← hw]
  have hpk : t.w.parked = s.w.parked := by rw [hw]; rfl
  have hrt : t.retiring s act next = s.retiring s act next := by
    unfold State.retiring
    rw [hw]
    rfl
  unfold State.retire
  rw [hrt, hpk]
  simp only [State.keepHolds_parked]
  generalize s.retiring s act next = m
  have key : ∀ nx : Bool, (if nx = true then (s.pushHolds i m t.w).goTo s.run (s.pc + 8) else s.pushHolds i m t.w) =
      (if nx = true then (s.pushHolds i m s.w).goTo s.run (s.pc + 8) else s.pushHolds i m s.w).takeRegs t.w := by
    intro nx
    have e : s.pushHolds i m t.w = (s.pushHolds i m s.w).takeRegs t.w := by
      rw [← takeRegs_pushHolds, ← hw]
    rw [e]
    cases nx <;> rfl
  rw [key, takeRegs_retire]
  rw [hs]
  rfl

theorem push_regs (w : Wave) (l : Nat) (x : W64) (q : Reg) : (w.push l x).reg q = w.reg q := by cases q <;> rfl
theorem pushLoop_regs (w : Wave) (ls : List Nat) (x : Nat → W64) (q : Reg) :
    (ls.foldl (fun w l => w.push l (x l)) w).reg q = w.reg q := by
  induction ls generalizing w with
  | nil => rfl
  | cons l ls ih => simp only [List.foldl_cons, ih, push_regs]

theorem withRegs_reg (u : State) (w : Wave) (q : Reg) : (u.withRegs w).w.reg q = w.reg q := by cases q <;> rfl
theorem withRegs_fflags (u : State) (w : Wave) : (u.withRegs w).w.sp.fflags = w.sp.fflags := rfl

theorem settleCharge_view (s t after : State) (h : t.w.view = s.w.view) : t.settleCharge s after = after := by
  unfold State.settleCharge
  simp [h]

/-- A word whose effect is the change of registers that `body` gives completes with it. -/
theorem word_regs (i : Instr) (s : State) (body : Mask → State → Res) (t : State) (hI : s.Issues i) (ha : s.active i ≠ 0)
    (hb : body (s.active i) s = .done t) (ht : RegsOnly s t) :
    word i s body = .next ((s.advanced i).withRegs t.w) := by
  unfold word
  have h1 : ¬ (s.w.st ≠ .running ∨ s.run = 0) := by
    rintro (h | h)
    · exact h hI.running
    · exact hI.run h
  have h2 : (i.closes && s.w.region.isSome) = false := by
    cases hc : i.closes
    · rfl
    · rw [hI.region hc]; rfl
  simp only [h1, if_false, h2, Bool.false_eq_true, hI.bounds, hI.noWait, ha, hb, decide_false, Bool.false_and]
  rw [settleCharge_view s t _ ht.view, retire_withRegs s t i _ true ht]
  rfl

/-- Every word made of `simple` and `perLane` completes with its results in D. -/
theorem computes_perLane (i : Instr) (s : State) (o : Opnd) (n : Nat) (val : Nat → Nat × Fl)
    (h : exec i s = simple i s fun act => s.perLane act o n val) : s.Computes i o n val := by
  intro hI ha
  have ht := RegsOnly.perLane s (s.active i) o n val
  refine ⟨_, h.trans (word_regs i s _ _ hI ha rfl ht), ?_, ?_, ?_, rfl⟩
  · intro q l k hq hp
    rw [withRegs_reg]
    exact perLane_value s _ o n val q l k hq hp
  · intro q hq hp
    rw [withRegs_reg]
    exact perLane_other s _ o n val q hq hp
  · rw [withRegs_fflags]
    exact perLane_fflags s _ o n val

end Machine
end Sys2Proof
end

