-- ==== Sys2Proof/Laws/State.lean ====
section
/-! SUPPORT. What each update of the state and of a wave does to each field, one lemma a field, so that no later proof unfolds a
record update; and what a register, a PC or a part's register reads after an update of it. -/

namespace Sys2Proof
open Machine
namespace Machine

/-! `State.setW` -/

@[simp] theorem State.setW_w (s : State) (w : Wave) : (s.setW w).w = w := rfl
@[simp] theorem State.setW_b (s : State) (w : Wave) : (s.setW w).b = s.b := rfl
@[simp] theorem State.setW_run (s : State) (w : Wave) : (s.setW w).run = s.run := rfl
@[simp] theorem State.setW_waves (s : State) (w : Wave) : (s.setW w).waves = s.waves := rfl
@[simp] theorem State.setW_blocks (s : State) (w : Wave) : (s.setW w).blocks = s.blocks := rfl
@[simp] theorem State.setW_grps (s : State) (w : Wave) : (s.setW w).grps = s.grps := rfl
@[simp] theorem State.setW_levs (s : State) (w : Wave) : (s.setW w).levs = s.levs := rfl
@[simp] theorem State.setW_ctxs (s : State) (w : Wave) : (s.setW w).ctxs = s.ctxs := rfl
@[simp] theorem State.setW_mem (s : State) (w : Wave) : (s.setW w).mem = s.mem := rfl
@[simp] theorem State.setW_hmem (s : State) (w : Wave) : (s.setW w).hmem = s.hmem := rfl
@[simp] theorem State.setW_dsm (s : State) (w : Wave) : (s.setW w).dsm = s.dsm := rfl
@[simp] theorem State.setW_poison (s : State) (w : Wave) : (s.setW w).poison = s.poison := rfl
@[simp] theorem State.setW_cmds (s : State) (w : Wave) : (s.setW w).cmds = s.cmds := rfl
@[simp] theorem State.setW_reqs (s : State) (w : Wave) : (s.setW w).reqs = s.reqs := rfl
@[simp] theorem State.setW_gate (s : State) (w : Wave) : (s.setW w).gate = s.gate := rfl
@[simp] theorem State.setW_replies (s : State) (w : Wave) : (s.setW w).replies = s.replies := rfl
@[simp] theorem State.setW_wft (s : State) (w : Wave) : (s.setW w).wft = s.wft := rfl
@[simp] theorem State.setW_faults (s : State) (w : Wave) : (s.setW w).faults = s.faults := rfl
@[simp] theorem State.setW_cores (s : State) (w : Wave) : (s.setW w).cores = s.cores := rfl
@[simp] theorem State.setW_probes (s : State) (w : Wave) : (s.setW w).probes = s.probes := rfl
@[simp] theorem State.setW_migration (s : State) (w : Wave) : (s.setW w).migration = s.migration := rfl
@[simp] theorem State.setW_inval (s : State) (w : Wave) : (s.setW w).inval = s.inval := rfl
@[simp] theorem State.setW_exp (s : State) (w : Wave) : (s.setW w).exp = s.exp := rfl
@[simp] theorem State.setW_pf (s : State) (w : Wave) : (s.setW w).pf = s.pf := rfl
@[simp] theorem State.setW_vf (s : State) (w : Wave) : (s.setW w).vf = s.vf := rfl
@[simp] theorem State.setW_tokens (s : State) (w : Wave) : (s.setW w).tokens = s.tokens := rfl
@[simp] theorem State.setW_mgmt (s : State) (w : Wave) : (s.setW w).mgmt = s.mgmt := rfl
@[simp] theorem State.setW_press (s : State) (w : Wave) : (s.setW w).press = s.press := rfl
@[simp] theorem State.setW_ckpt (s : State) (w : Wave) : (s.setW w).ckpt = s.ckpt := rfl
@[simp] theorem State.setW_reserve (s : State) (w : Wave) : (s.setW w).reserve = s.reserve := rfl
@[simp] theorem State.setW_windows (s : State) (w : Wave) : (s.setW w).windows = s.windows := rfl
@[simp] theorem State.setW_pool (s : State) (w : Wave) : (s.setW w).pool = s.pool := rfl
@[simp] theorem State.setW_handles (s : State) (w : Wave) : (s.setW w).handles = s.handles := rfl
@[simp] theorem State.setW_ids (s : State) (w : Wave) : (s.setW w).ids = s.ids := rfl
@[simp] theorem State.setW_escq (s : State) (w : Wave) : (s.setW w).escq = s.escq := rfl
@[simp] theorem State.setW_hostOut (s : State) (w : Wave) : (s.setW w).hostOut = s.hostOut := rfl
@[simp] theorem State.setW_inbox (s : State) (w : Wave) : (s.setW w).inbox = s.inbox := rfl
@[simp] theorem State.setW_sched (s : State) (w : Wave) : (s.setW w).sched = s.sched := rfl
@[simp] theorem State.setW_rr (s : State) (w : Wave) : (s.setW w).rr = s.rr := rfl
@[simp] theorem State.setW_rrAt (s : State) (w : Wave) : (s.setW w).rrAt = s.rrAt := rfl
@[simp] theorem State.setW_free (s : State) (w : Wave) : (s.setW w).free = s.free := rfl
@[simp] theorem State.setW_cycle (s : State) (w : Wave) : (s.setW w).cycle = s.cycle := rfl

/-! `State.setB` -/

@[simp] theorem State.setB_w (s : State) (b : Block) : (s.setB b).w = s.w := rfl
@[simp] theorem State.setB_b (s : State) (b : Block) : (s.setB b).b = b := rfl
@[simp] theorem State.setB_run (s : State) (b : Block) : (s.setB b).run = s.run := rfl
@[simp] theorem State.setB_waves (s : State) (b : Block) : (s.setB b).waves = s.waves := rfl
@[simp] theorem State.setB_blocks (s : State) (b : Block) : (s.setB b).blocks = s.blocks := rfl
@[simp] theorem State.setB_grps (s : State) (b : Block) : (s.setB b).grps = s.grps := rfl
@[simp] theorem State.setB_levs (s : State) (b : Block) : (s.setB b).levs = s.levs := rfl
@[simp] theorem State.setB_ctxs (s : State) (b : Block) : (s.setB b).ctxs = s.ctxs := rfl
@[simp] theorem State.setB_mem (s : State) (b : Block) : (s.setB b).mem = s.mem := rfl
@[simp] theorem State.setB_hmem (s : State) (b : Block) : (s.setB b).hmem = s.hmem := rfl
@[simp] theorem State.setB_dsm (s : State) (b : Block) : (s.setB b).dsm = s.dsm := rfl
@[simp] theorem State.setB_poison (s : State) (b : Block) : (s.setB b).poison = s.poison := rfl
@[simp] theorem State.setB_cmds (s : State) (b : Block) : (s.setB b).cmds = s.cmds := rfl
@[simp] theorem State.setB_reqs (s : State) (b : Block) : (s.setB b).reqs = s.reqs := rfl
@[simp] theorem State.setB_gate (s : State) (b : Block) : (s.setB b).gate = s.gate := rfl
@[simp] theorem State.setB_replies (s : State) (b : Block) : (s.setB b).replies = s.replies := rfl
@[simp] theorem State.setB_wft (s : State) (b : Block) : (s.setB b).wft = s.wft := rfl
@[simp] theorem State.setB_faults (s : State) (b : Block) : (s.setB b).faults = s.faults := rfl
@[simp] theorem State.setB_cores (s : State) (b : Block) : (s.setB b).cores = s.cores := rfl
@[simp] theorem State.setB_probes (s : State) (b : Block) : (s.setB b).probes = s.probes := rfl
@[simp] theorem State.setB_migration (s : State) (b : Block) : (s.setB b).migration = s.migration := rfl
@[simp] theorem State.setB_inval (s : State) (b : Block) : (s.setB b).inval = s.inval := rfl
@[simp] theorem State.setB_exp (s : State) (b : Block) : (s.setB b).exp = s.exp := rfl
@[simp] theorem State.setB_pf (s : State) (b : Block) : (s.setB b).pf = s.pf := rfl
@[simp] theorem State.setB_vf (s : State) (b : Block) : (s.setB b).vf = s.vf := rfl
@[simp] theorem State.setB_tokens (s : State) (b : Block) : (s.setB b).tokens = s.tokens := rfl
@[simp] theorem State.setB_mgmt (s : State) (b : Block) : (s.setB b).mgmt = s.mgmt := rfl
@[simp] theorem State.setB_press (s : State) (b : Block) : (s.setB b).press = s.press := rfl
@[simp] theorem State.setB_ckpt (s : State) (b : Block) : (s.setB b).ckpt = s.ckpt := rfl
@[simp] theorem State.setB_reserve (s : State) (b : Block) : (s.setB b).reserve = s.reserve := rfl
@[simp] theorem State.setB_windows (s : State) (b : Block) : (s.setB b).windows = s.windows := rfl
@[simp] theorem State.setB_pool (s : State) (b : Block) : (s.setB b).pool = s.pool := rfl
@[simp] theorem State.setB_handles (s : State) (b : Block) : (s.setB b).handles = s.handles := rfl
@[simp] theorem State.setB_ids (s : State) (b : Block) : (s.setB b).ids = s.ids := rfl
@[simp] theorem State.setB_escq (s : State) (b : Block) : (s.setB b).escq = s.escq := rfl
@[simp] theorem State.setB_hostOut (s : State) (b : Block) : (s.setB b).hostOut = s.hostOut := rfl
@[simp] theorem State.setB_inbox (s : State) (b : Block) : (s.setB b).inbox = s.inbox := rfl
@[simp] theorem State.setB_sched (s : State) (b : Block) : (s.setB b).sched = s.sched := rfl
@[simp] theorem State.setB_rr (s : State) (b : Block) : (s.setB b).rr = s.rr := rfl
@[simp] theorem State.setB_rrAt (s : State) (b : Block) : (s.setB b).rrAt = s.rrAt := rfl
@[simp] theorem State.setB_free (s : State) (b : Block) : (s.setB b).free = s.free := rfl
@[simp] theorem State.setB_cycle (s : State) (b : Block) : (s.setB b).cycle = s.cycle := rfl

/-! `State.setOpnd` -/

@[simp] theorem State.setOpnd_w (s : State) (o : Opnd) (n l x : Nat) : (s.setOpnd o n l x).w = s.w.setOpnd o n l x := rfl
@[simp] theorem State.setOpnd_b (s : State) (o : Opnd) (n l x : Nat) : (s.setOpnd o n l x).b = s.b := rfl
@[simp] theorem State.setOpnd_run (s : State) (o : Opnd) (n l x : Nat) : (s.setOpnd o n l x).run = s.run := rfl
@[simp] theorem State.setOpnd_waves (s : State) (o : Opnd) (n l x : Nat) : (s.setOpnd o n l x).waves = s.waves := rfl
@[simp] theorem State.setOpnd_blocks (s : State) (o : Opnd) (n l x : Nat) : (s.setOpnd o n l x).blocks = s.blocks := rfl
@[simp] theorem State.setOpnd_grps (s : State) (o : Opnd) (n l x : Nat) : (s.setOpnd o n l x).grps = s.grps := rfl
@[simp] theorem State.setOpnd_levs (s : State) (o : Opnd) (n l x : Nat) : (s.setOpnd o n l x).levs = s.levs := rfl
@[simp] theorem State.setOpnd_ctxs (s : State) (o : Opnd) (n l x : Nat) : (s.setOpnd o n l x).ctxs = s.ctxs := rfl
@[simp] theorem State.setOpnd_mem (s : State) (o : Opnd) (n l x : Nat) : (s.setOpnd o n l x).mem = s.mem := rfl
@[simp] theorem State.setOpnd_hmem (s : State) (o : Opnd) (n l x : Nat) : (s.setOpnd o n l x).hmem = s.hmem := rfl
@[simp] theorem State.setOpnd_dsm (s : State) (o : Opnd) (n l x : Nat) : (s.setOpnd o n l x).dsm = s.dsm := rfl
@[simp] theorem State.setOpnd_poison (s : State) (o : Opnd) (n l x : Nat) : (s.setOpnd o n l x).poison = s.poison := rfl
@[simp] theorem State.setOpnd_cmds (s : State) (o : Opnd) (n l x : Nat) : (s.setOpnd o n l x).cmds = s.cmds := rfl
@[simp] theorem State.setOpnd_reqs (s : State) (o : Opnd) (n l x : Nat) : (s.setOpnd o n l x).reqs = s.reqs := rfl
@[simp] theorem State.setOpnd_gate (s : State) (o : Opnd) (n l x : Nat) : (s.setOpnd o n l x).gate = s.gate := rfl
@[simp] theorem State.setOpnd_replies (s : State) (o : Opnd) (n l x : Nat) : (s.setOpnd o n l x).replies = s.replies := rfl
@[simp] theorem State.setOpnd_wft (s : State) (o : Opnd) (n l x : Nat) : (s.setOpnd o n l x).wft = s.wft := rfl
@[simp] theorem State.setOpnd_faults (s : State) (o : Opnd) (n l x : Nat) : (s.setOpnd o n l x).faults = s.faults := rfl
@[simp] theorem State.setOpnd_cores (s : State) (o : Opnd) (n l x : Nat) : (s.setOpnd o n l x).cores = s.cores := rfl
@[simp] theorem State.setOpnd_probes (s : State) (o : Opnd) (n l x : Nat) : (s.setOpnd o n l x).probes = s.probes := rfl
@[simp] theorem State.setOpnd_migration (s : State) (o : Opnd) (n l x : Nat) : (s.setOpnd o n l x).migration = s.migration := rfl
@[simp] theorem State.setOpnd_inval (s : State) (o : Opnd) (n l x : Nat) : (s.setOpnd o n l x).inval = s.inval := rfl
@[simp] theorem State.setOpnd_exp (s : State) (o : Opnd) (n l x : Nat) : (s.setOpnd o n l x).exp = s.exp := rfl
@[simp] theorem State.setOpnd_pf (s : State) (o : Opnd) (n l x : Nat) : (s.setOpnd o n l x).pf = s.pf := rfl
@[simp] theorem State.setOpnd_vf (s : State) (o : Opnd) (n l x : Nat) : (s.setOpnd o n l x).vf = s.vf := rfl
@[simp] theorem State.setOpnd_tokens (s : State) (o : Opnd) (n l x : Nat) : (s.setOpnd o n l x).tokens = s.tokens := rfl
@[simp] theorem State.setOpnd_mgmt (s : State) (o : Opnd) (n l x : Nat) : (s.setOpnd o n l x).mgmt = s.mgmt := rfl
@[simp] theorem State.setOpnd_press (s : State) (o : Opnd) (n l x : Nat) : (s.setOpnd o n l x).press = s.press := rfl
@[simp] theorem State.setOpnd_ckpt (s : State) (o : Opnd) (n l x : Nat) : (s.setOpnd o n l x).ckpt = s.ckpt := rfl
@[simp] theorem State.setOpnd_reserve (s : State) (o : Opnd) (n l x : Nat) : (s.setOpnd o n l x).reserve = s.reserve := rfl
@[simp] theorem State.setOpnd_windows (s : State) (o : Opnd) (n l x : Nat) : (s.setOpnd o n l x).windows = s.windows := rfl
@[simp] theorem State.setOpnd_pool (s : State) (o : Opnd) (n l x : Nat) : (s.setOpnd o n l x).pool = s.pool := rfl
@[simp] theorem State.setOpnd_handles (s : State) (o : Opnd) (n l x : Nat) : (s.setOpnd o n l x).handles = s.handles := rfl
@[simp] theorem State.setOpnd_ids (s : State) (o : Opnd) (n l x : Nat) : (s.setOpnd o n l x).ids = s.ids := rfl
@[simp] theorem State.setOpnd_escq (s : State) (o : Opnd) (n l x : Nat) : (s.setOpnd o n l x).escq = s.escq := rfl
@[simp] theorem State.setOpnd_hostOut (s : State) (o : Opnd) (n l x : Nat) : (s.setOpnd o n l x).hostOut = s.hostOut := rfl
@[simp] theorem State.setOpnd_inbox (s : State) (o : Opnd) (n l x : Nat) : (s.setOpnd o n l x).inbox = s.inbox := rfl
@[simp] theorem State.setOpnd_sched (s : State) (o : Opnd) (n l x : Nat) : (s.setOpnd o n l x).sched = s.sched := rfl
@[simp] theorem State.setOpnd_rr (s : State) (o : Opnd) (n l x : Nat) : (s.setOpnd o n l x).rr = s.rr := rfl
@[simp] theorem State.setOpnd_rrAt (s : State) (o : Opnd) (n l x : Nat) : (s.setOpnd o n l x).rrAt = s.rrAt := rfl
@[simp] theorem State.setOpnd_free (s : State) (o : Opnd) (n l x : Nat) : (s.setOpnd o n l x).free = s.free := rfl
@[simp] theorem State.setOpnd_cycle (s : State) (o : Opnd) (n l x : Nat) : (s.setOpnd o n l x).cycle = s.cycle := rfl

/-! `State.orFlags` -/

@[simp] theorem State.orFlags_w (s : State) (f : Fl) : (s.orFlags f).w = s.w.orFlags f := rfl
@[simp] theorem State.orFlags_b (s : State) (f : Fl) : (s.orFlags f).b = s.b := rfl
@[simp] theorem State.orFlags_run (s : State) (f : Fl) : (s.orFlags f).run = s.run := rfl
@[simp] theorem State.orFlags_waves (s : State) (f : Fl) : (s.orFlags f).waves = s.waves := rfl
@[simp] theorem State.orFlags_blocks (s : State) (f : Fl) : (s.orFlags f).blocks = s.blocks := rfl
@[simp] theorem State.orFlags_grps (s : State) (f : Fl) : (s.orFlags f).grps = s.grps := rfl
@[simp] theorem State.orFlags_levs (s : State) (f : Fl) : (s.orFlags f).levs = s.levs := rfl
@[simp] theorem State.orFlags_ctxs (s : State) (f : Fl) : (s.orFlags f).ctxs = s.ctxs := rfl
@[simp] theorem State.orFlags_mem (s : State) (f : Fl) : (s.orFlags f).mem = s.mem := rfl
@[simp] theorem State.orFlags_hmem (s : State) (f : Fl) : (s.orFlags f).hmem = s.hmem := rfl
@[simp] theorem State.orFlags_dsm (s : State) (f : Fl) : (s.orFlags f).dsm = s.dsm := rfl
@[simp] theorem State.orFlags_poison (s : State) (f : Fl) : (s.orFlags f).poison = s.poison := rfl
@[simp] theorem State.orFlags_cmds (s : State) (f : Fl) : (s.orFlags f).cmds = s.cmds := rfl
@[simp] theorem State.orFlags_reqs (s : State) (f : Fl) : (s.orFlags f).reqs = s.reqs := rfl
@[simp] theorem State.orFlags_gate (s : State) (f : Fl) : (s.orFlags f).gate = s.gate := rfl
@[simp] theorem State.orFlags_replies (s : State) (f : Fl) : (s.orFlags f).replies = s.replies := rfl
@[simp] theorem State.orFlags_wft (s : State) (f : Fl) : (s.orFlags f).wft = s.wft := rfl
@[simp] theorem State.orFlags_faults (s : State) (f : Fl) : (s.orFlags f).faults = s.faults := rfl
@[simp] theorem State.orFlags_cores (s : State) (f : Fl) : (s.orFlags f).cores = s.cores := rfl
@[simp] theorem State.orFlags_probes (s : State) (f : Fl) : (s.orFlags f).probes = s.probes := rfl
@[simp] theorem State.orFlags_migration (s : State) (f : Fl) : (s.orFlags f).migration = s.migration := rfl
@[simp] theorem State.orFlags_inval (s : State) (f : Fl) : (s.orFlags f).inval = s.inval := rfl
@[simp] theorem State.orFlags_exp (s : State) (f : Fl) : (s.orFlags f).exp = s.exp := rfl
@[simp] theorem State.orFlags_pf (s : State) (f : Fl) : (s.orFlags f).pf = s.pf := rfl
@[simp] theorem State.orFlags_vf (s : State) (f : Fl) : (s.orFlags f).vf = s.vf := rfl
@[simp] theorem State.orFlags_tokens (s : State) (f : Fl) : (s.orFlags f).tokens = s.tokens := rfl
@[simp] theorem State.orFlags_mgmt (s : State) (f : Fl) : (s.orFlags f).mgmt = s.mgmt := rfl
@[simp] theorem State.orFlags_press (s : State) (f : Fl) : (s.orFlags f).press = s.press := rfl
@[simp] theorem State.orFlags_ckpt (s : State) (f : Fl) : (s.orFlags f).ckpt = s.ckpt := rfl
@[simp] theorem State.orFlags_reserve (s : State) (f : Fl) : (s.orFlags f).reserve = s.reserve := rfl
@[simp] theorem State.orFlags_windows (s : State) (f : Fl) : (s.orFlags f).windows = s.windows := rfl
@[simp] theorem State.orFlags_pool (s : State) (f : Fl) : (s.orFlags f).pool = s.pool := rfl
@[simp] theorem State.orFlags_handles (s : State) (f : Fl) : (s.orFlags f).handles = s.handles := rfl
@[simp] theorem State.orFlags_ids (s : State) (f : Fl) : (s.orFlags f).ids = s.ids := rfl
@[simp] theorem State.orFlags_escq (s : State) (f : Fl) : (s.orFlags f).escq = s.escq := rfl
@[simp] theorem State.orFlags_hostOut (s : State) (f : Fl) : (s.orFlags f).hostOut = s.hostOut := rfl
@[simp] theorem State.orFlags_inbox (s : State) (f : Fl) : (s.orFlags f).inbox = s.inbox := rfl
@[simp] theorem State.orFlags_sched (s : State) (f : Fl) : (s.orFlags f).sched = s.sched := rfl
@[simp] theorem State.orFlags_rr (s : State) (f : Fl) : (s.orFlags f).rr = s.rr := rfl
@[simp] theorem State.orFlags_rrAt (s : State) (f : Fl) : (s.orFlags f).rrAt = s.rrAt := rfl
@[simp] theorem State.orFlags_free (s : State) (f : Fl) : (s.orFlags f).free = s.free := rfl
@[simp] theorem State.orFlags_cycle (s : State) (f : Fl) : (s.orFlags f).cycle = s.cycle := rfl

/-! `State.setPf` -/

@[simp] theorem State.setPf_w (s : State) (off : Nat) (x : W64) : (s.setPf off x).w = s.w := rfl
@[simp] theorem State.setPf_b (s : State) (off : Nat) (x : W64) : (s.setPf off x).b = s.b := rfl
@[simp] theorem State.setPf_run (s : State) (off : Nat) (x : W64) : (s.setPf off x).run = s.run := rfl
@[simp] theorem State.setPf_waves (s : State) (off : Nat) (x : W64) : (s.setPf off x).waves = s.waves := rfl
@[simp] theorem State.setPf_blocks (s : State) (off : Nat) (x : W64) : (s.setPf off x).blocks = s.blocks := rfl
@[simp] theorem State.setPf_grps (s : State) (off : Nat) (x : W64) : (s.setPf off x).grps = s.grps := rfl
@[simp] theorem State.setPf_levs (s : State) (off : Nat) (x : W64) : (s.setPf off x).levs = s.levs := rfl
@[simp] theorem State.setPf_ctxs (s : State) (off : Nat) (x : W64) : (s.setPf off x).ctxs = s.ctxs := rfl
@[simp] theorem State.setPf_mem (s : State) (off : Nat) (x : W64) : (s.setPf off x).mem = s.mem := rfl
@[simp] theorem State.setPf_hmem (s : State) (off : Nat) (x : W64) : (s.setPf off x).hmem = s.hmem := rfl
@[simp] theorem State.setPf_dsm (s : State) (off : Nat) (x : W64) : (s.setPf off x).dsm = s.dsm := rfl
@[simp] theorem State.setPf_poison (s : State) (off : Nat) (x : W64) : (s.setPf off x).poison = s.poison := rfl
@[simp] theorem State.setPf_cmds (s : State) (off : Nat) (x : W64) : (s.setPf off x).cmds = s.cmds := rfl
@[simp] theorem State.setPf_reqs (s : State) (off : Nat) (x : W64) : (s.setPf off x).reqs = s.reqs := rfl
@[simp] theorem State.setPf_gate (s : State) (off : Nat) (x : W64) : (s.setPf off x).gate = s.gate := rfl
@[simp] theorem State.setPf_replies (s : State) (off : Nat) (x : W64) : (s.setPf off x).replies = s.replies := rfl
@[simp] theorem State.setPf_wft (s : State) (off : Nat) (x : W64) : (s.setPf off x).wft = s.wft := rfl
@[simp] theorem State.setPf_faults (s : State) (off : Nat) (x : W64) : (s.setPf off x).faults = s.faults := rfl
@[simp] theorem State.setPf_cores (s : State) (off : Nat) (x : W64) : (s.setPf off x).cores = s.cores := rfl
@[simp] theorem State.setPf_probes (s : State) (off : Nat) (x : W64) : (s.setPf off x).probes = s.probes := rfl
@[simp] theorem State.setPf_migration (s : State) (off : Nat) (x : W64) : (s.setPf off x).migration = s.migration := rfl
@[simp] theorem State.setPf_inval (s : State) (off : Nat) (x : W64) : (s.setPf off x).inval = s.inval := rfl
@[simp] theorem State.setPf_exp (s : State) (off : Nat) (x : W64) : (s.setPf off x).exp = s.exp := rfl
@[simp] theorem State.setPf_pf (s : State) (off : Nat) (x : W64) : (s.setPf off x).pf = SMap.set s.pf (pfReset off) off x := rfl
@[simp] theorem State.setPf_vf (s : State) (off : Nat) (x : W64) : (s.setPf off x).vf = s.vf := rfl
@[simp] theorem State.setPf_tokens (s : State) (off : Nat) (x : W64) : (s.setPf off x).tokens = s.tokens := rfl
@[simp] theorem State.setPf_mgmt (s : State) (off : Nat) (x : W64) : (s.setPf off x).mgmt = s.mgmt := rfl
@[simp] theorem State.setPf_press (s : State) (off : Nat) (x : W64) : (s.setPf off x).press = s.press := rfl
@[simp] theorem State.setPf_ckpt (s : State) (off : Nat) (x : W64) : (s.setPf off x).ckpt = s.ckpt := rfl
@[simp] theorem State.setPf_reserve (s : State) (off : Nat) (x : W64) : (s.setPf off x).reserve = s.reserve := rfl
@[simp] theorem State.setPf_windows (s : State) (off : Nat) (x : W64) : (s.setPf off x).windows = s.windows := rfl
@[simp] theorem State.setPf_pool (s : State) (off : Nat) (x : W64) : (s.setPf off x).pool = s.pool := rfl
@[simp] theorem State.setPf_handles (s : State) (off : Nat) (x : W64) : (s.setPf off x).handles = s.handles := rfl
@[simp] theorem State.setPf_ids (s : State) (off : Nat) (x : W64) : (s.setPf off x).ids = s.ids := rfl
@[simp] theorem State.setPf_escq (s : State) (off : Nat) (x : W64) : (s.setPf off x).escq = s.escq := rfl
@[simp] theorem State.setPf_hostOut (s : State) (off : Nat) (x : W64) : (s.setPf off x).hostOut = s.hostOut := rfl
@[simp] theorem State.setPf_inbox (s : State) (off : Nat) (x : W64) : (s.setPf off x).inbox = s.inbox := rfl
@[simp] theorem State.setPf_sched (s : State) (off : Nat) (x : W64) : (s.setPf off x).sched = s.sched := rfl
@[simp] theorem State.setPf_rr (s : State) (off : Nat) (x : W64) : (s.setPf off x).rr = s.rr := rfl
@[simp] theorem State.setPf_rrAt (s : State) (off : Nat) (x : W64) : (s.setPf off x).rrAt = s.rrAt := rfl
@[simp] theorem State.setPf_free (s : State) (off : Nat) (x : W64) : (s.setPf off x).free = s.free := rfl
@[simp] theorem State.setPf_cycle (s : State) (off : Nat) (x : W64) : (s.setPf off x).cycle = s.cycle := rfl

/-! `State.setVf` -/

@[simp] theorem State.setVf_w (s : State) (c off : Nat) (x : W64) : (s.setVf c off x).w = s.w := rfl
@[simp] theorem State.setVf_b (s : State) (c off : Nat) (x : W64) : (s.setVf c off x).b = s.b := rfl
@[simp] theorem State.setVf_run (s : State) (c off : Nat) (x : W64) : (s.setVf c off x).run = s.run := rfl
@[simp] theorem State.setVf_waves (s : State) (c off : Nat) (x : W64) : (s.setVf c off x).waves = s.waves := rfl
@[simp] theorem State.setVf_blocks (s : State) (c off : Nat) (x : W64) : (s.setVf c off x).blocks = s.blocks := rfl
@[simp] theorem State.setVf_grps (s : State) (c off : Nat) (x : W64) : (s.setVf c off x).grps = s.grps := rfl
@[simp] theorem State.setVf_levs (s : State) (c off : Nat) (x : W64) : (s.setVf c off x).levs = s.levs := rfl
@[simp] theorem State.setVf_ctxs (s : State) (c off : Nat) (x : W64) : (s.setVf c off x).ctxs = s.ctxs := rfl
@[simp] theorem State.setVf_mem (s : State) (c off : Nat) (x : W64) : (s.setVf c off x).mem = s.mem := rfl
@[simp] theorem State.setVf_hmem (s : State) (c off : Nat) (x : W64) : (s.setVf c off x).hmem = s.hmem := rfl
@[simp] theorem State.setVf_dsm (s : State) (c off : Nat) (x : W64) : (s.setVf c off x).dsm = s.dsm := rfl
@[simp] theorem State.setVf_poison (s : State) (c off : Nat) (x : W64) : (s.setVf c off x).poison = s.poison := rfl
@[simp] theorem State.setVf_cmds (s : State) (c off : Nat) (x : W64) : (s.setVf c off x).cmds = s.cmds := rfl
@[simp] theorem State.setVf_reqs (s : State) (c off : Nat) (x : W64) : (s.setVf c off x).reqs = s.reqs := rfl
@[simp] theorem State.setVf_gate (s : State) (c off : Nat) (x : W64) : (s.setVf c off x).gate = s.gate := rfl
@[simp] theorem State.setVf_replies (s : State) (c off : Nat) (x : W64) : (s.setVf c off x).replies = s.replies := rfl
@[simp] theorem State.setVf_wft (s : State) (c off : Nat) (x : W64) : (s.setVf c off x).wft = s.wft := rfl
@[simp] theorem State.setVf_faults (s : State) (c off : Nat) (x : W64) : (s.setVf c off x).faults = s.faults := rfl
@[simp] theorem State.setVf_cores (s : State) (c off : Nat) (x : W64) : (s.setVf c off x).cores = s.cores := rfl
@[simp] theorem State.setVf_probes (s : State) (c off : Nat) (x : W64) : (s.setVf c off x).probes = s.probes := rfl
@[simp] theorem State.setVf_migration (s : State) (c off : Nat) (x : W64) : (s.setVf c off x).migration = s.migration := rfl
@[simp] theorem State.setVf_inval (s : State) (c off : Nat) (x : W64) : (s.setVf c off x).inval = s.inval := rfl
@[simp] theorem State.setVf_exp (s : State) (c off : Nat) (x : W64) : (s.setVf c off x).exp = s.exp := rfl
@[simp] theorem State.setVf_pf (s : State) (c off : Nat) (x : W64) : (s.setVf c off x).pf = s.pf := rfl
@[simp] theorem State.setVf_vf (s : State) (c off : Nat) (x : W64) : (s.setVf c off x).vf = SMap.set s.vf 0 (65536 * c + off) x := rfl
@[simp] theorem State.setVf_tokens (s : State) (c off : Nat) (x : W64) : (s.setVf c off x).tokens = s.tokens := rfl
@[simp] theorem State.setVf_mgmt (s : State) (c off : Nat) (x : W64) : (s.setVf c off x).mgmt = s.mgmt := rfl
@[simp] theorem State.setVf_press (s : State) (c off : Nat) (x : W64) : (s.setVf c off x).press = s.press := rfl
@[simp] theorem State.setVf_ckpt (s : State) (c off : Nat) (x : W64) : (s.setVf c off x).ckpt = s.ckpt := rfl
@[simp] theorem State.setVf_reserve (s : State) (c off : Nat) (x : W64) : (s.setVf c off x).reserve = s.reserve := rfl
@[simp] theorem State.setVf_windows (s : State) (c off : Nat) (x : W64) : (s.setVf c off x).windows = s.windows := rfl
@[simp] theorem State.setVf_pool (s : State) (c off : Nat) (x : W64) : (s.setVf c off x).pool = s.pool := rfl
@[simp] theorem State.setVf_handles (s : State) (c off : Nat) (x : W64) : (s.setVf c off x).handles = s.handles := rfl
@[simp] theorem State.setVf_ids (s : State) (c off : Nat) (x : W64) : (s.setVf c off x).ids = s.ids := rfl
@[simp] theorem State.setVf_escq (s : State) (c off : Nat) (x : W64) : (s.setVf c off x).escq = s.escq := rfl
@[simp] theorem State.setVf_hostOut (s : State) (c off : Nat) (x : W64) : (s.setVf c off x).hostOut = s.hostOut := rfl
@[simp] theorem State.setVf_inbox (s : State) (c off : Nat) (x : W64) : (s.setVf c off x).inbox = s.inbox := rfl
@[simp] theorem State.setVf_sched (s : State) (c off : Nat) (x : W64) : (s.setVf c off x).sched = s.sched := rfl
@[simp] theorem State.setVf_rr (s : State) (c off : Nat) (x : W64) : (s.setVf c off x).rr = s.rr := rfl
@[simp] theorem State.setVf_rrAt (s : State) (c off : Nat) (x : W64) : (s.setVf c off x).rrAt = s.rrAt := rfl
@[simp] theorem State.setVf_free (s : State) (c off : Nat) (x : W64) : (s.setVf c off x).free = s.free := rfl
@[simp] theorem State.setVf_cycle (s : State) (c off : Nat) (x : W64) : (s.setVf c off x).cycle = s.cycle := rfl

/-! `State.setCtx` -/

@[simp] theorem State.setCtx_w (s : State) (c : Nat) (x : Ctx) : (s.setCtx c x).w = s.w := rfl
@[simp] theorem State.setCtx_b (s : State) (c : Nat) (x : Ctx) : (s.setCtx c x).b = s.b := rfl
@[simp] theorem State.setCtx_run (s : State) (c : Nat) (x : Ctx) : (s.setCtx c x).run = s.run := rfl
@[simp] theorem State.setCtx_waves (s : State) (c : Nat) (x : Ctx) : (s.setCtx c x).waves = s.waves := rfl
@[simp] theorem State.setCtx_blocks (s : State) (c : Nat) (x : Ctx) : (s.setCtx c x).blocks = s.blocks := rfl
@[simp] theorem State.setCtx_grps (s : State) (c : Nat) (x : Ctx) : (s.setCtx c x).grps = s.grps := rfl
@[simp] theorem State.setCtx_levs (s : State) (c : Nat) (x : Ctx) : (s.setCtx c x).levs = s.levs := rfl
@[simp] theorem State.setCtx_ctxs (s : State) (c : Nat) (x : Ctx) : (s.setCtx c x).ctxs = SMap.set s.ctxs Ctx.zero c x := rfl
@[simp] theorem State.setCtx_mem (s : State) (c : Nat) (x : Ctx) : (s.setCtx c x).mem = s.mem := rfl
@[simp] theorem State.setCtx_hmem (s : State) (c : Nat) (x : Ctx) : (s.setCtx c x).hmem = s.hmem := rfl
@[simp] theorem State.setCtx_dsm (s : State) (c : Nat) (x : Ctx) : (s.setCtx c x).dsm = s.dsm := rfl
@[simp] theorem State.setCtx_poison (s : State) (c : Nat) (x : Ctx) : (s.setCtx c x).poison = s.poison := rfl
@[simp] theorem State.setCtx_cmds (s : State) (c : Nat) (x : Ctx) : (s.setCtx c x).cmds = s.cmds := rfl
@[simp] theorem State.setCtx_reqs (s : State) (c : Nat) (x : Ctx) : (s.setCtx c x).reqs = s.reqs := rfl
@[simp] theorem State.setCtx_gate (s : State) (c : Nat) (x : Ctx) : (s.setCtx c x).gate = s.gate := rfl
@[simp] theorem State.setCtx_replies (s : State) (c : Nat) (x : Ctx) : (s.setCtx c x).replies = s.replies := rfl
@[simp] theorem State.setCtx_wft (s : State) (c : Nat) (x : Ctx) : (s.setCtx c x).wft = s.wft := rfl
@[simp] theorem State.setCtx_faults (s : State) (c : Nat) (x : Ctx) : (s.setCtx c x).faults = s.faults := rfl
@[simp] theorem State.setCtx_cores (s : State) (c : Nat) (x : Ctx) : (s.setCtx c x).cores = s.cores := rfl
@[simp] theorem State.setCtx_probes (s : State) (c : Nat) (x : Ctx) : (s.setCtx c x).probes = s.probes := rfl
@[simp] theorem State.setCtx_migration (s : State) (c : Nat) (x : Ctx) : (s.setCtx c x).migration = s.migration := rfl
@[simp] theorem State.setCtx_inval (s : State) (c : Nat) (x : Ctx) : (s.setCtx c x).inval = s.inval := rfl
@[simp] theorem State.setCtx_exp (s : State) (c : Nat) (x : Ctx) : (s.setCtx c x).exp = s.exp := rfl
@[simp] theorem State.setCtx_pf (s : State) (c : Nat) (x : Ctx) : (s.setCtx c x).pf = s.pf := rfl
@[simp] theorem State.setCtx_vf (s : State) (c : Nat) (x : Ctx) : (s.setCtx c x).vf = s.vf := rfl
@[simp] theorem State.setCtx_tokens (s : State) (c : Nat) (x : Ctx) : (s.setCtx c x).tokens = s.tokens := rfl
@[simp] theorem State.setCtx_mgmt (s : State) (c : Nat) (x : Ctx) : (s.setCtx c x).mgmt = s.mgmt := rfl
@[simp] theorem State.setCtx_press (s : State) (c : Nat) (x : Ctx) : (s.setCtx c x).press = s.press := rfl
@[simp] theorem State.setCtx_ckpt (s : State) (c : Nat) (x : Ctx) : (s.setCtx c x).ckpt = s.ckpt := rfl
@[simp] theorem State.setCtx_reserve (s : State) (c : Nat) (x : Ctx) : (s.setCtx c x).reserve = s.reserve := rfl
@[simp] theorem State.setCtx_windows (s : State) (c : Nat) (x : Ctx) : (s.setCtx c x).windows = s.windows := rfl
@[simp] theorem State.setCtx_pool (s : State) (c : Nat) (x : Ctx) : (s.setCtx c x).pool = s.pool := rfl
@[simp] theorem State.setCtx_handles (s : State) (c : Nat) (x : Ctx) : (s.setCtx c x).handles = s.handles := rfl
@[simp] theorem State.setCtx_ids (s : State) (c : Nat) (x : Ctx) : (s.setCtx c x).ids = s.ids := rfl
@[simp] theorem State.setCtx_escq (s : State) (c : Nat) (x : Ctx) : (s.setCtx c x).escq = s.escq := rfl
@[simp] theorem State.setCtx_hostOut (s : State) (c : Nat) (x : Ctx) : (s.setCtx c x).hostOut = s.hostOut := rfl
@[simp] theorem State.setCtx_inbox (s : State) (c : Nat) (x : Ctx) : (s.setCtx c x).inbox = s.inbox := rfl
@[simp] theorem State.setCtx_sched (s : State) (c : Nat) (x : Ctx) : (s.setCtx c x).sched = s.sched := rfl
@[simp] theorem State.setCtx_rr (s : State) (c : Nat) (x : Ctx) : (s.setCtx c x).rr = s.rr := rfl
@[simp] theorem State.setCtx_rrAt (s : State) (c : Nat) (x : Ctx) : (s.setCtx c x).rrAt = s.rrAt := rfl
@[simp] theorem State.setCtx_free (s : State) (c : Nat) (x : Ctx) : (s.setCtx c x).free = s.free := rfl
@[simp] theorem State.setCtx_cycle (s : State) (c : Nat) (x : Ctx) : (s.setCtx c x).cycle = s.cycle := rfl

/-! `State.post` -/

@[simp] theorem State.post_w (s : State) (e : Instr) : (s.post e).w = s.w := rfl
@[simp] theorem State.post_b (s : State) (e : Instr) : (s.post e).b = s.b := rfl
@[simp] theorem State.post_run (s : State) (e : Instr) : (s.post e).run = s.run := rfl
@[simp] theorem State.post_waves (s : State) (e : Instr) : (s.post e).waves = s.waves := rfl
@[simp] theorem State.post_blocks (s : State) (e : Instr) : (s.post e).blocks = s.blocks := rfl
@[simp] theorem State.post_grps (s : State) (e : Instr) : (s.post e).grps = s.grps := rfl
@[simp] theorem State.post_levs (s : State) (e : Instr) : (s.post e).levs = s.levs := rfl
@[simp] theorem State.post_ctxs (s : State) (e : Instr) : (s.post e).ctxs = s.ctxs := rfl
@[simp] theorem State.post_mem (s : State) (e : Instr) : (s.post e).mem = s.mem := rfl
@[simp] theorem State.post_hmem (s : State) (e : Instr) : (s.post e).hmem = s.hmem := rfl
@[simp] theorem State.post_dsm (s : State) (e : Instr) : (s.post e).dsm = s.dsm := rfl
@[simp] theorem State.post_poison (s : State) (e : Instr) : (s.post e).poison = s.poison := rfl
@[simp] theorem State.post_cmds (s : State) (e : Instr) : (s.post e).cmds = s.cmds := rfl
@[simp] theorem State.post_reqs (s : State) (e : Instr) : (s.post e).reqs = s.reqs := rfl
@[simp] theorem State.post_gate (s : State) (e : Instr) : (s.post e).gate = s.gate := rfl
@[simp] theorem State.post_replies (s : State) (e : Instr) : (s.post e).replies = s.replies := rfl
@[simp] theorem State.post_wft (s : State) (e : Instr) : (s.post e).wft = s.wft := rfl
@[simp] theorem State.post_faults (s : State) (e : Instr) : (s.post e).faults = s.faults := rfl
@[simp] theorem State.post_cores (s : State) (e : Instr) : (s.post e).cores = s.cores := rfl
@[simp] theorem State.post_probes (s : State) (e : Instr) : (s.post e).probes = s.probes := rfl
@[simp] theorem State.post_migration (s : State) (e : Instr) : (s.post e).migration = s.migration := rfl
@[simp] theorem State.post_inval (s : State) (e : Instr) : (s.post e).inval = s.inval := rfl
@[simp] theorem State.post_exp (s : State) (e : Instr) : (s.post e).exp = s.exp := rfl
@[simp] theorem State.post_pf (s : State) (e : Instr) : (s.post e).pf = s.pf := rfl
@[simp] theorem State.post_vf (s : State) (e : Instr) : (s.post e).vf = s.vf := rfl
@[simp] theorem State.post_tokens (s : State) (e : Instr) : (s.post e).tokens = s.tokens := rfl
@[simp] theorem State.post_mgmt (s : State) (e : Instr) : (s.post e).mgmt = s.mgmt := rfl
@[simp] theorem State.post_press (s : State) (e : Instr) : (s.post e).press = s.press := rfl
@[simp] theorem State.post_ckpt (s : State) (e : Instr) : (s.post e).ckpt = s.ckpt := rfl
@[simp] theorem State.post_reserve (s : State) (e : Instr) : (s.post e).reserve = s.reserve := rfl
@[simp] theorem State.post_windows (s : State) (e : Instr) : (s.post e).windows = s.windows := rfl
@[simp] theorem State.post_pool (s : State) (e : Instr) : (s.post e).pool = s.pool := rfl
@[simp] theorem State.post_handles (s : State) (e : Instr) : (s.post e).handles = s.handles := rfl
@[simp] theorem State.post_ids (s : State) (e : Instr) : (s.post e).ids = s.ids := rfl
@[simp] theorem State.post_escq (s : State) (e : Instr) : (s.post e).escq = s.escq := rfl
@[simp] theorem State.post_hostOut (s : State) (e : Instr) : (s.post e).hostOut = s.hostOut := rfl
@[simp] theorem State.post_inbox (s : State) (e : Instr) : (s.post e).inbox = s.inbox ++ [e] := rfl
@[simp] theorem State.post_sched (s : State) (e : Instr) : (s.post e).sched = s.sched := rfl
@[simp] theorem State.post_rr (s : State) (e : Instr) : (s.post e).rr = s.rr := rfl
@[simp] theorem State.post_rrAt (s : State) (e : Instr) : (s.post e).rrAt = s.rrAt := rfl
@[simp] theorem State.post_free (s : State) (e : Instr) : (s.post e).free = s.free := rfl
@[simp] theorem State.post_cycle (s : State) (e : Instr) : (s.post e).cycle = s.cycle := rfl

/-! `State.postOnce` -/

@[simp] theorem State.postOnce_w (s : State) (e : Instr) : (s.postOnce e).w = s.w := rfl
@[simp] theorem State.postOnce_b (s : State) (e : Instr) : (s.postOnce e).b = s.b := rfl
@[simp] theorem State.postOnce_run (s : State) (e : Instr) : (s.postOnce e).run = s.run := rfl
@[simp] theorem State.postOnce_waves (s : State) (e : Instr) : (s.postOnce e).waves = s.waves := rfl
@[simp] theorem State.postOnce_blocks (s : State) (e : Instr) : (s.postOnce e).blocks = s.blocks := rfl
@[simp] theorem State.postOnce_grps (s : State) (e : Instr) : (s.postOnce e).grps = s.grps := rfl
@[simp] theorem State.postOnce_levs (s : State) (e : Instr) : (s.postOnce e).levs = s.levs := rfl
@[simp] theorem State.postOnce_ctxs (s : State) (e : Instr) : (s.postOnce e).ctxs = s.ctxs := rfl
@[simp] theorem State.postOnce_mem (s : State) (e : Instr) : (s.postOnce e).mem = s.mem := rfl
@[simp] theorem State.postOnce_hmem (s : State) (e : Instr) : (s.postOnce e).hmem = s.hmem := rfl
@[simp] theorem State.postOnce_dsm (s : State) (e : Instr) : (s.postOnce e).dsm = s.dsm := rfl
@[simp] theorem State.postOnce_poison (s : State) (e : Instr) : (s.postOnce e).poison = s.poison := rfl
@[simp] theorem State.postOnce_cmds (s : State) (e : Instr) : (s.postOnce e).cmds = s.cmds := rfl
@[simp] theorem State.postOnce_reqs (s : State) (e : Instr) : (s.postOnce e).reqs = s.reqs := rfl
@[simp] theorem State.postOnce_gate (s : State) (e : Instr) : (s.postOnce e).gate = s.gate := rfl
@[simp] theorem State.postOnce_replies (s : State) (e : Instr) : (s.postOnce e).replies = s.replies := rfl
@[simp] theorem State.postOnce_wft (s : State) (e : Instr) : (s.postOnce e).wft = s.wft := rfl
@[simp] theorem State.postOnce_faults (s : State) (e : Instr) : (s.postOnce e).faults = s.faults := rfl
@[simp] theorem State.postOnce_cores (s : State) (e : Instr) : (s.postOnce e).cores = s.cores := rfl
@[simp] theorem State.postOnce_probes (s : State) (e : Instr) : (s.postOnce e).probes = s.probes := rfl
@[simp] theorem State.postOnce_migration (s : State) (e : Instr) : (s.postOnce e).migration = s.migration := rfl
@[simp] theorem State.postOnce_inval (s : State) (e : Instr) : (s.postOnce e).inval = s.inval := rfl
@[simp] theorem State.postOnce_exp (s : State) (e : Instr) : (s.postOnce e).exp = s.exp := rfl
@[simp] theorem State.postOnce_pf (s : State) (e : Instr) : (s.postOnce e).pf = s.pf := rfl
@[simp] theorem State.postOnce_vf (s : State) (e : Instr) : (s.postOnce e).vf = s.vf := rfl
@[simp] theorem State.postOnce_tokens (s : State) (e : Instr) : (s.postOnce e).tokens = s.tokens := rfl
@[simp] theorem State.postOnce_mgmt (s : State) (e : Instr) : (s.postOnce e).mgmt = s.mgmt := rfl
@[simp] theorem State.postOnce_press (s : State) (e : Instr) : (s.postOnce e).press = s.press := rfl
@[simp] theorem State.postOnce_ckpt (s : State) (e : Instr) : (s.postOnce e).ckpt = s.ckpt := rfl
@[simp] theorem State.postOnce_reserve (s : State) (e : Instr) : (s.postOnce e).reserve = s.reserve := rfl
@[simp] theorem State.postOnce_windows (s : State) (e : Instr) : (s.postOnce e).windows = s.windows := rfl
@[simp] theorem State.postOnce_pool (s : State) (e : Instr) : (s.postOnce e).pool = s.pool := rfl
@[simp] theorem State.postOnce_handles (s : State) (e : Instr) : (s.postOnce e).handles = s.handles := rfl
@[simp] theorem State.postOnce_ids (s : State) (e : Instr) : (s.postOnce e).ids = s.ids := rfl
@[simp] theorem State.postOnce_escq (s : State) (e : Instr) : (s.postOnce e).escq = s.escq := rfl
@[simp] theorem State.postOnce_hostOut (s : State) (e : Instr) : (s.postOnce e).hostOut = s.hostOut := rfl
@[simp] theorem State.postOnce_inbox (s : State) (e : Instr) : (s.postOnce e).inbox = addOnce s.inbox e := rfl
@[simp] theorem State.postOnce_sched (s : State) (e : Instr) : (s.postOnce e).sched = s.sched := rfl
@[simp] theorem State.postOnce_rr (s : State) (e : Instr) : (s.postOnce e).rr = s.rr := rfl
@[simp] theorem State.postOnce_rrAt (s : State) (e : Instr) : (s.postOnce e).rrAt = s.rrAt := rfl
@[simp] theorem State.postOnce_free (s : State) (e : Instr) : (s.postOnce e).free = s.free := rfl
@[simp] theorem State.postOnce_cycle (s : State) (e : Instr) : (s.postOnce e).cycle = s.cycle := rfl

/-! `Wave.setS` -/

@[simp] theorem Wave.setS_blk (w : Wave) (n : Nat) (x : W32) : (w.setS n x).blk = w.blk := rfl
@[simp] theorem Wave.setS_idx (w : Wave) (n : Nat) (x : W32) : (w.setS n x).idx = w.idx := rfl
@[simp] theorem Wave.setS_st (w : Wave) (n : Nat) (x : W32) : (w.setS n x).st = w.st := rfl
@[simp] theorem Wave.setS_halted (w : Wave) (n : Nat) (x : W32) : (w.setS n x).halted = w.halted := rfl
@[simp] theorem Wave.setS_yielded (w : Wave) (n : Nat) (x : W32) : (w.setS n x).yielded = w.yielded := rfl
@[simp] theorem Wave.setS_pc (w : Wave) (n : Nat) (x : W32) : (w.setS n x).pc = w.pc := rfl
@[simp] theorem Wave.setS_age (w : Wave) (n : Nat) (x : W32) : (w.setS n x).age = w.age := rfl
@[simp] theorem Wave.setS_exited (w : Wave) (n : Nat) (x : W32) : (w.setS n x).exited = w.exited := rfl
@[simp] theorem Wave.setS_groups (w : Wave) (n : Nat) (x : W32) : (w.setS n x).groups = w.groups := rfl
@[simp] theorem Wave.setS_promo (w : Wave) (n : Nat) (x : W32) : (w.setS n x).promo = w.promo := rfl
@[simp] theorem Wave.setS_burst (w : Wave) (n : Nat) (x : W32) : (w.setS n x).burst = w.burst := rfl
@[simp] theorem Wave.setS_r (w : Wave) (n : Nat) (x : W32) : (w.setS n x).r = { w.r with s := SMap.set w.r.s 0 n x } := rfl
@[simp] theorem Wave.setS_sp (w : Wave) (n : Nat) (x : W32) : (w.setS n x).sp = w.sp := rfl
@[simp] theorem Wave.setS_frames (w : Wave) (n : Nat) (x : W32) : (w.setS n x).frames = w.frames := rfl
@[simp] theorem Wave.setS_pend (w : Wave) (n : Nat) (x : W32) : (w.setS n x).pend = w.pend := rfl
@[simp] theorem Wave.setS_region (w : Wave) (n : Nat) (x : W32) : (w.setS n x).region = w.region := rfl
@[simp] theorem Wave.setS_window (w : Wave) (n : Nat) (x : W32) : (w.setS n x).window = w.window := rfl
@[simp] theorem Wave.setS_pins (w : Wave) (n : Nat) (x : W32) : (w.setS n x).pins = w.pins := rfl
@[simp] theorem Wave.setS_arrivals (w : Wave) (n : Nat) (x : W32) : (w.setS n x).arrivals = w.arrivals := rfl
@[simp] theorem Wave.setS_grants (w : Wave) (n : Nat) (x : W32) : (w.setS n x).grants = w.grants := rfl
@[simp] theorem Wave.setS_refs (w : Wave) (n : Nat) (x : W32) : (w.setS n x).refs = w.refs := rfl
@[simp] theorem Wave.setS_fork (w : Wave) (n : Nat) (x : W32) : (w.setS n x).fork = w.fork := rfl
@[simp] theorem Wave.setS_slots (w : Wave) (n : Nat) (x : W32) : (w.setS n x).slots = w.slots := rfl
@[simp] theorem Wave.setS_read (w : Wave) (n : Nat) (x : W32) : (w.setS n x).read = w.read := rfl
@[simp] theorem Wave.setS_view (w : Wave) (n : Nat) (x : W32) : (w.setS n x).view = w.view := rfl
@[simp] theorem Wave.setS_stores (w : Wave) (n : Nat) (x : W32) : (w.setS n x).stores = w.stores := rfl
@[simp] theorem Wave.setS_crc (w : Wave) (n : Nat) (x : W32) : (w.setS n x).crc = w.crc := rfl
@[simp] theorem Wave.setS_fwait (w : Wave) (n : Nat) (x : W32) : (w.setS n x).fwait = w.fwait := rfl
@[simp] theorem Wave.setS_place (w : Wave) (n : Nat) (x : W32) : (w.setS n x).place = w.place := rfl
@[simp] theorem Wave.setS_pending (w : Wave) (n : Nat) (x : W32) : (w.setS n x).pending = w.pending := rfl
@[simp] theorem Wave.setS_begun (w : Wave) (n : Nat) (x : W32) : (w.setS n x).begun = w.begun := rfl
@[simp] theorem Wave.setS_stall (w : Wave) (n : Nat) (x : W32) : (w.setS n x).stall = w.stall := rfl

/-! `Wave.setV` -/

@[simp] theorem Wave.setV_blk (w : Wave) (n l : Nat) (x : W32) : (w.setV n l x).blk = w.blk := rfl
@[simp] theorem Wave.setV_idx (w : Wave) (n l : Nat) (x : W32) : (w.setV n l x).idx = w.idx := rfl
@[simp] theorem Wave.setV_st (w : Wave) (n l : Nat) (x : W32) : (w.setV n l x).st = w.st := rfl
@[simp] theorem Wave.setV_halted (w : Wave) (n l : Nat) (x : W32) : (w.setV n l x).halted = w.halted := rfl
@[simp] theorem Wave.setV_yielded (w : Wave) (n l : Nat) (x : W32) : (w.setV n l x).yielded = w.yielded := rfl
@[simp] theorem Wave.setV_pc (w : Wave) (n l : Nat) (x : W32) : (w.setV n l x).pc = w.pc := rfl
@[simp] theorem Wave.setV_age (w : Wave) (n l : Nat) (x : W32) : (w.setV n l x).age = w.age := rfl
@[simp] theorem Wave.setV_exited (w : Wave) (n l : Nat) (x : W32) : (w.setV n l x).exited = w.exited := rfl
@[simp] theorem Wave.setV_groups (w : Wave) (n l : Nat) (x : W32) : (w.setV n l x).groups = w.groups := rfl
@[simp] theorem Wave.setV_promo (w : Wave) (n l : Nat) (x : W32) : (w.setV n l x).promo = w.promo := rfl
@[simp] theorem Wave.setV_burst (w : Wave) (n l : Nat) (x : W32) : (w.setV n l x).burst = w.burst := rfl
@[simp] theorem Wave.setV_r (w : Wave) (n l : Nat) (x : W32) : (w.setV n l x).r = { w.r with v := SMap.set w.r.v 0 (32 * n + l) x } := rfl
@[simp] theorem Wave.setV_sp (w : Wave) (n l : Nat) (x : W32) : (w.setV n l x).sp = w.sp := rfl
@[simp] theorem Wave.setV_frames (w : Wave) (n l : Nat) (x : W32) : (w.setV n l x).frames = w.frames := rfl
@[simp] theorem Wave.setV_pend (w : Wave) (n l : Nat) (x : W32) : (w.setV n l x).pend = w.pend := rfl
@[simp] theorem Wave.setV_region (w : Wave) (n l : Nat) (x : W32) : (w.setV n l x).region = w.region := rfl
@[simp] theorem Wave.setV_window (w : Wave) (n l : Nat) (x : W32) : (w.setV n l x).window = w.window := rfl
@[simp] theorem Wave.setV_pins (w : Wave) (n l : Nat) (x : W32) : (w.setV n l x).pins = w.pins := rfl
@[simp] theorem Wave.setV_arrivals (w : Wave) (n l : Nat) (x : W32) : (w.setV n l x).arrivals = w.arrivals := rfl
@[simp] theorem Wave.setV_grants (w : Wave) (n l : Nat) (x : W32) : (w.setV n l x).grants = w.grants := rfl
@[simp] theorem Wave.setV_refs (w : Wave) (n l : Nat) (x : W32) : (w.setV n l x).refs = w.refs := rfl
@[simp] theorem Wave.setV_fork (w : Wave) (n l : Nat) (x : W32) : (w.setV n l x).fork = w.fork := rfl
@[simp] theorem Wave.setV_slots (w : Wave) (n l : Nat) (x : W32) : (w.setV n l x).slots = w.slots := rfl
@[simp] theorem Wave.setV_read (w : Wave) (n l : Nat) (x : W32) : (w.setV n l x).read = w.read := rfl
@[simp] theorem Wave.setV_view (w : Wave) (n l : Nat) (x : W32) : (w.setV n l x).view = w.view := rfl
@[simp] theorem Wave.setV_stores (w : Wave) (n l : Nat) (x : W32) : (w.setV n l x).stores = w.stores := rfl
@[simp] theorem Wave.setV_crc (w : Wave) (n l : Nat) (x : W32) : (w.setV n l x).crc = w.crc := rfl
@[simp] theorem Wave.setV_fwait (w : Wave) (n l : Nat) (x : W32) : (w.setV n l x).fwait = w.fwait := rfl
@[simp] theorem Wave.setV_place (w : Wave) (n l : Nat) (x : W32) : (w.setV n l x).place = w.place := rfl
@[simp] theorem Wave.setV_pending (w : Wave) (n l : Nat) (x : W32) : (w.setV n l x).pending = w.pending := rfl
@[simp] theorem Wave.setV_begun (w : Wave) (n l : Nat) (x : W32) : (w.setV n l x).begun = w.begun := rfl
@[simp] theorem Wave.setV_stall (w : Wave) (n l : Nat) (x : W32) : (w.setV n l x).stall = w.stall := rfl

/-! `Wave.setP` -/

@[simp] theorem Wave.setP_blk (w : Wave) (n l : Nat) (x : Bool) : (w.setP n l x).blk = w.blk := rfl
@[simp] theorem Wave.setP_idx (w : Wave) (n l : Nat) (x : Bool) : (w.setP n l x).idx = w.idx := rfl
@[simp] theorem Wave.setP_st (w : Wave) (n l : Nat) (x : Bool) : (w.setP n l x).st = w.st := rfl
@[simp] theorem Wave.setP_halted (w : Wave) (n l : Nat) (x : Bool) : (w.setP n l x).halted = w.halted := rfl
@[simp] theorem Wave.setP_yielded (w : Wave) (n l : Nat) (x : Bool) : (w.setP n l x).yielded = w.yielded := rfl
@[simp] theorem Wave.setP_pc (w : Wave) (n l : Nat) (x : Bool) : (w.setP n l x).pc = w.pc := rfl
@[simp] theorem Wave.setP_age (w : Wave) (n l : Nat) (x : Bool) : (w.setP n l x).age = w.age := rfl
@[simp] theorem Wave.setP_exited (w : Wave) (n l : Nat) (x : Bool) : (w.setP n l x).exited = w.exited := rfl
@[simp] theorem Wave.setP_groups (w : Wave) (n l : Nat) (x : Bool) : (w.setP n l x).groups = w.groups := rfl
@[simp] theorem Wave.setP_promo (w : Wave) (n l : Nat) (x : Bool) : (w.setP n l x).promo = w.promo := rfl
@[simp] theorem Wave.setP_burst (w : Wave) (n l : Nat) (x : Bool) : (w.setP n l x).burst = w.burst := rfl
@[simp] theorem Wave.setP_sp (w : Wave) (n l : Nat) (x : Bool) : (w.setP n l x).sp = w.sp := rfl
@[simp] theorem Wave.setP_frames (w : Wave) (n l : Nat) (x : Bool) : (w.setP n l x).frames = w.frames := rfl
@[simp] theorem Wave.setP_pend (w : Wave) (n l : Nat) (x : Bool) : (w.setP n l x).pend = w.pend := rfl
@[simp] theorem Wave.setP_region (w : Wave) (n l : Nat) (x : Bool) : (w.setP n l x).region = w.region := rfl
@[simp] theorem Wave.setP_window (w : Wave) (n l : Nat) (x : Bool) : (w.setP n l x).window = w.window := rfl
@[simp] theorem Wave.setP_pins (w : Wave) (n l : Nat) (x : Bool) : (w.setP n l x).pins = w.pins := rfl
@[simp] theorem Wave.setP_arrivals (w : Wave) (n l : Nat) (x : Bool) : (w.setP n l x).arrivals = w.arrivals := rfl
@[simp] theorem Wave.setP_grants (w : Wave) (n l : Nat) (x : Bool) : (w.setP n l x).grants = w.grants := rfl
@[simp] theorem Wave.setP_refs (w : Wave) (n l : Nat) (x : Bool) : (w.setP n l x).refs = w.refs := rfl
@[simp] theorem Wave.setP_fork (w : Wave) (n l : Nat) (x : Bool) : (w.setP n l x).fork = w.fork := rfl
@[simp] theorem Wave.setP_slots (w : Wave) (n l : Nat) (x : Bool) : (w.setP n l x).slots = w.slots := rfl
@[simp] theorem Wave.setP_read (w : Wave) (n l : Nat) (x : Bool) : (w.setP n l x).read = w.read := rfl
@[simp] theorem Wave.setP_view (w : Wave) (n l : Nat) (x : Bool) : (w.setP n l x).view = w.view := rfl
@[simp] theorem Wave.setP_stores (w : Wave) (n l : Nat) (x : Bool) : (w.setP n l x).stores = w.stores := rfl
@[simp] theorem Wave.setP_crc (w : Wave) (n l : Nat) (x : Bool) : (w.setP n l x).crc = w.crc := rfl
@[simp] theorem Wave.setP_fwait (w : Wave) (n l : Nat) (x : Bool) : (w.setP n l x).fwait = w.fwait := rfl
@[simp] theorem Wave.setP_place (w : Wave) (n l : Nat) (x : Bool) : (w.setP n l x).place = w.place := rfl
@[simp] theorem Wave.setP_pending (w : Wave) (n l : Nat) (x : Bool) : (w.setP n l x).pending = w.pending := rfl
@[simp] theorem Wave.setP_begun (w : Wave) (n l : Nat) (x : Bool) : (w.setP n l x).begun = w.begun := rfl
@[simp] theorem Wave.setP_stall (w : Wave) (n l : Nat) (x : Bool) : (w.setP n l x).stall = w.stall := rfl

/-! `Wave.setI` -/

@[simp] theorem Wave.setI_blk (w : Wave) (n l : Nat) (x : BitVec 8) : (w.setI n l x).blk = w.blk := rfl
@[simp] theorem Wave.setI_idx (w : Wave) (n l : Nat) (x : BitVec 8) : (w.setI n l x).idx = w.idx := rfl
@[simp] theorem Wave.setI_st (w : Wave) (n l : Nat) (x : BitVec 8) : (w.setI n l x).st = w.st := rfl
@[simp] theorem Wave.setI_halted (w : Wave) (n l : Nat) (x : BitVec 8) : (w.setI n l x).halted = w.halted := rfl
@[simp] theorem Wave.setI_yielded (w : Wave) (n l : Nat) (x : BitVec 8) : (w.setI n l x).yielded = w.yielded := rfl
@[simp] theorem Wave.setI_pc (w : Wave) (n l : Nat) (x : BitVec 8) : (w.setI n l x).pc = w.pc := rfl
@[simp] theorem Wave.setI_age (w : Wave) (n l : Nat) (x : BitVec 8) : (w.setI n l x).age = w.age := rfl
@[simp] theorem Wave.setI_exited (w : Wave) (n l : Nat) (x : BitVec 8) : (w.setI n l x).exited = w.exited := rfl
@[simp] theorem Wave.setI_groups (w : Wave) (n l : Nat) (x : BitVec 8) : (w.setI n l x).groups = w.groups := rfl
@[simp] theorem Wave.setI_promo (w : Wave) (n l : Nat) (x : BitVec 8) : (w.setI n l x).promo = w.promo := rfl
@[simp] theorem Wave.setI_burst (w : Wave) (n l : Nat) (x : BitVec 8) : (w.setI n l x).burst = w.burst := rfl
@[simp] theorem Wave.setI_r (w : Wave) (n l : Nat) (x : BitVec 8) : (w.setI n l x).r = { w.r with i := SMap.set w.r.i 0 (32 * n + l) x } := rfl
@[simp] theorem Wave.setI_sp (w : Wave) (n l : Nat) (x : BitVec 8) : (w.setI n l x).sp = w.sp := rfl
@[simp] theorem Wave.setI_frames (w : Wave) (n l : Nat) (x : BitVec 8) : (w.setI n l x).frames = w.frames := rfl
@[simp] theorem Wave.setI_pend (w : Wave) (n l : Nat) (x : BitVec 8) : (w.setI n l x).pend = w.pend := rfl
@[simp] theorem Wave.setI_region (w : Wave) (n l : Nat) (x : BitVec 8) : (w.setI n l x).region = w.region := rfl
@[simp] theorem Wave.setI_window (w : Wave) (n l : Nat) (x : BitVec 8) : (w.setI n l x).window = w.window := rfl
@[simp] theorem Wave.setI_pins (w : Wave) (n l : Nat) (x : BitVec 8) : (w.setI n l x).pins = w.pins := rfl
@[simp] theorem Wave.setI_arrivals (w : Wave) (n l : Nat) (x : BitVec 8) : (w.setI n l x).arrivals = w.arrivals := rfl
@[simp] theorem Wave.setI_grants (w : Wave) (n l : Nat) (x : BitVec 8) : (w.setI n l x).grants = w.grants := rfl
@[simp] theorem Wave.setI_refs (w : Wave) (n l : Nat) (x : BitVec 8) : (w.setI n l x).refs = w.refs := rfl
@[simp] theorem Wave.setI_fork (w : Wave) (n l : Nat) (x : BitVec 8) : (w.setI n l x).fork = w.fork := rfl
@[simp] theorem Wave.setI_slots (w : Wave) (n l : Nat) (x : BitVec 8) : (w.setI n l x).slots = w.slots := rfl
@[simp] theorem Wave.setI_read (w : Wave) (n l : Nat) (x : BitVec 8) : (w.setI n l x).read = w.read := rfl
@[simp] theorem Wave.setI_view (w : Wave) (n l : Nat) (x : BitVec 8) : (w.setI n l x).view = w.view := rfl
@[simp] theorem Wave.setI_stores (w : Wave) (n l : Nat) (x : BitVec 8) : (w.setI n l x).stores = w.stores := rfl
@[simp] theorem Wave.setI_crc (w : Wave) (n l : Nat) (x : BitVec 8) : (w.setI n l x).crc = w.crc := rfl
@[simp] theorem Wave.setI_fwait (w : Wave) (n l : Nat) (x : BitVec 8) : (w.setI n l x).fwait = w.fwait := rfl
@[simp] theorem Wave.setI_place (w : Wave) (n l : Nat) (x : BitVec 8) : (w.setI n l x).place = w.place := rfl
@[simp] theorem Wave.setI_pending (w : Wave) (n l : Nat) (x : BitVec 8) : (w.setI n l x).pending = w.pending := rfl
@[simp] theorem Wave.setI_begun (w : Wave) (n l : Nat) (x : BitVec 8) : (w.setI n l x).begun = w.begun := rfl
@[simp] theorem Wave.setI_stall (w : Wave) (n l : Nat) (x : BitVec 8) : (w.setI n l x).stall = w.stall := rfl

/-! `Wave.setLat` -/

@[simp] theorem Wave.setLat_blk (w : Wave) (n l : Nat) (x : W64) : (w.setLat n l x).blk = w.blk := rfl
@[simp] theorem Wave.setLat_idx (w : Wave) (n l : Nat) (x : W64) : (w.setLat n l x).idx = w.idx := rfl
@[simp] theorem Wave.setLat_st (w : Wave) (n l : Nat) (x : W64) : (w.setLat n l x).st = w.st := rfl
@[simp] theorem Wave.setLat_halted (w : Wave) (n l : Nat) (x : W64) : (w.setLat n l x).halted = w.halted := rfl
@[simp] theorem Wave.setLat_yielded (w : Wave) (n l : Nat) (x : W64) : (w.setLat n l x).yielded = w.yielded := rfl
@[simp] theorem Wave.setLat_pc (w : Wave) (n l : Nat) (x : W64) : (w.setLat n l x).pc = w.pc := rfl
@[simp] theorem Wave.setLat_age (w : Wave) (n l : Nat) (x : W64) : (w.setLat n l x).age = w.age := rfl
@[simp] theorem Wave.setLat_exited (w : Wave) (n l : Nat) (x : W64) : (w.setLat n l x).exited = w.exited := rfl
@[simp] theorem Wave.setLat_groups (w : Wave) (n l : Nat) (x : W64) : (w.setLat n l x).groups = w.groups := rfl
@[simp] theorem Wave.setLat_promo (w : Wave) (n l : Nat) (x : W64) : (w.setLat n l x).promo = w.promo := rfl
@[simp] theorem Wave.setLat_burst (w : Wave) (n l : Nat) (x : W64) : (w.setLat n l x).burst = w.burst := rfl
@[simp] theorem Wave.setLat_r (w : Wave) (n l : Nat) (x : W64) : (w.setLat n l x).r = { w.r with lat := SMap.set w.r.lat 0 (32 * n + l) x } := rfl
@[simp] theorem Wave.setLat_sp (w : Wave) (n l : Nat) (x : W64) : (w.setLat n l x).sp = w.sp := rfl
@[simp] theorem Wave.setLat_frames (w : Wave) (n l : Nat) (x : W64) : (w.setLat n l x).frames = w.frames := rfl
@[simp] theorem Wave.setLat_pend (w : Wave) (n l : Nat) (x : W64) : (w.setLat n l x).pend = w.pend := rfl
@[simp] theorem Wave.setLat_region (w : Wave) (n l : Nat) (x : W64) : (w.setLat n l x).region = w.region := rfl
@[simp] theorem Wave.setLat_window (w : Wave) (n l : Nat) (x : W64) : (w.setLat n l x).window = w.window := rfl
@[simp] theorem Wave.setLat_pins (w : Wave) (n l : Nat) (x : W64) : (w.setLat n l x).pins = w.pins := rfl
@[simp] theorem Wave.setLat_arrivals (w : Wave) (n l : Nat) (x : W64) : (w.setLat n l x).arrivals = w.arrivals := rfl
@[simp] theorem Wave.setLat_grants (w : Wave) (n l : Nat) (x : W64) : (w.setLat n l x).grants = w.grants := rfl
@[simp] theorem Wave.setLat_refs (w : Wave) (n l : Nat) (x : W64) : (w.setLat n l x).refs = w.refs := rfl
@[simp] theorem Wave.setLat_fork (w : Wave) (n l : Nat) (x : W64) : (w.setLat n l x).fork = w.fork := rfl
@[simp] theorem Wave.setLat_slots (w : Wave) (n l : Nat) (x : W64) : (w.setLat n l x).slots = w.slots := rfl
@[simp] theorem Wave.setLat_read (w : Wave) (n l : Nat) (x : W64) : (w.setLat n l x).read = w.read := rfl
@[simp] theorem Wave.setLat_view (w : Wave) (n l : Nat) (x : W64) : (w.setLat n l x).view = w.view := rfl
@[simp] theorem Wave.setLat_stores (w : Wave) (n l : Nat) (x : W64) : (w.setLat n l x).stores = w.stores := rfl
@[simp] theorem Wave.setLat_crc (w : Wave) (n l : Nat) (x : W64) : (w.setLat n l x).crc = w.crc := rfl
@[simp] theorem Wave.setLat_fwait (w : Wave) (n l : Nat) (x : W64) : (w.setLat n l x).fwait = w.fwait := rfl
@[simp] theorem Wave.setLat_place (w : Wave) (n l : Nat) (x : W64) : (w.setLat n l x).place = w.place := rfl
@[simp] theorem Wave.setLat_pending (w : Wave) (n l : Nat) (x : W64) : (w.setLat n l x).pending = w.pending := rfl
@[simp] theorem Wave.setLat_begun (w : Wave) (n l : Nat) (x : W64) : (w.setLat n l x).begun = w.begun := rfl
@[simp] theorem Wave.setLat_stall (w : Wave) (n l : Nat) (x : W64) : (w.setLat n l x).stall = w.stall := rfl

/-! `Wave.setC` -/

@[simp] theorem Wave.setC_blk (w : Wave) (n : Nat) (x : Cruc) : (w.setC n x).blk = w.blk := rfl
@[simp] theorem Wave.setC_idx (w : Wave) (n : Nat) (x : Cruc) : (w.setC n x).idx = w.idx := rfl
@[simp] theorem Wave.setC_st (w : Wave) (n : Nat) (x : Cruc) : (w.setC n x).st = w.st := rfl
@[simp] theorem Wave.setC_halted (w : Wave) (n : Nat) (x : Cruc) : (w.setC n x).halted = w.halted := rfl
@[simp] theorem Wave.setC_yielded (w : Wave) (n : Nat) (x : Cruc) : (w.setC n x).yielded = w.yielded := rfl
@[simp] theorem Wave.setC_pc (w : Wave) (n : Nat) (x : Cruc) : (w.setC n x).pc = w.pc := rfl
@[simp] theorem Wave.setC_age (w : Wave) (n : Nat) (x : Cruc) : (w.setC n x).age = w.age := rfl
@[simp] theorem Wave.setC_exited (w : Wave) (n : Nat) (x : Cruc) : (w.setC n x).exited = w.exited := rfl
@[simp] theorem Wave.setC_groups (w : Wave) (n : Nat) (x : Cruc) : (w.setC n x).groups = w.groups := rfl
@[simp] theorem Wave.setC_promo (w : Wave) (n : Nat) (x : Cruc) : (w.setC n x).promo = w.promo := rfl
@[simp] theorem Wave.setC_burst (w : Wave) (n : Nat) (x : Cruc) : (w.setC n x).burst = w.burst := rfl
@[simp] theorem Wave.setC_r (w : Wave) (n : Nat) (x : Cruc) : (w.setC n x).r = { w.r with c := SMap.set w.r.c .zero n x } := rfl
@[simp] theorem Wave.setC_sp (w : Wave) (n : Nat) (x : Cruc) : (w.setC n x).sp = w.sp := rfl
@[simp] theorem Wave.setC_frames (w : Wave) (n : Nat) (x : Cruc) : (w.setC n x).frames = w.frames := rfl
@[simp] theorem Wave.setC_pend (w : Wave) (n : Nat) (x : Cruc) : (w.setC n x).pend = w.pend := rfl
@[simp] theorem Wave.setC_region (w : Wave) (n : Nat) (x : Cruc) : (w.setC n x).region = w.region := rfl
@[simp] theorem Wave.setC_window (w : Wave) (n : Nat) (x : Cruc) : (w.setC n x).window = w.window := rfl
@[simp] theorem Wave.setC_pins (w : Wave) (n : Nat) (x : Cruc) : (w.setC n x).pins = w.pins := rfl
@[simp] theorem Wave.setC_arrivals (w : Wave) (n : Nat) (x : Cruc) : (w.setC n x).arrivals = w.arrivals := rfl
@[simp] theorem Wave.setC_grants (w : Wave) (n : Nat) (x : Cruc) : (w.setC n x).grants = w.grants := rfl
@[simp] theorem Wave.setC_refs (w : Wave) (n : Nat) (x : Cruc) : (w.setC n x).refs = w.refs := rfl
@[simp] theorem Wave.setC_fork (w : Wave) (n : Nat) (x : Cruc) : (w.setC n x).fork = w.fork := rfl
@[simp] theorem Wave.setC_slots (w : Wave) (n : Nat) (x : Cruc) : (w.setC n x).slots = w.slots := rfl
@[simp] theorem Wave.setC_read (w : Wave) (n : Nat) (x : Cruc) : (w.setC n x).read = w.read := rfl
@[simp] theorem Wave.setC_view (w : Wave) (n : Nat) (x : Cruc) : (w.setC n x).view = w.view := rfl
@[simp] theorem Wave.setC_stores (w : Wave) (n : Nat) (x : Cruc) : (w.setC n x).stores = w.stores := rfl
@[simp] theorem Wave.setC_crc (w : Wave) (n : Nat) (x : Cruc) : (w.setC n x).crc = w.crc := rfl
@[simp] theorem Wave.setC_fwait (w : Wave) (n : Nat) (x : Cruc) : (w.setC n x).fwait = w.fwait := rfl
@[simp] theorem Wave.setC_place (w : Wave) (n : Nat) (x : Cruc) : (w.setC n x).place = w.place := rfl
@[simp] theorem Wave.setC_pending (w : Wave) (n : Nat) (x : Cruc) : (w.setC n x).pending = w.pending := rfl
@[simp] theorem Wave.setC_begun (w : Wave) (n : Nat) (x : Cruc) : (w.setC n x).begun = w.begun := rfl
@[simp] theorem Wave.setC_stall (w : Wave) (n : Nat) (x : Cruc) : (w.setC n x).stall = w.stall := rfl

/-! `Wave.setD` -/

@[simp] theorem Wave.setD_blk (w : Wave) (n l : Nat) (x : BitVec 512) (t : BitVec 16) : (w.setD n l x t).blk = w.blk := rfl
@[simp] theorem Wave.setD_idx (w : Wave) (n l : Nat) (x : BitVec 512) (t : BitVec 16) : (w.setD n l x t).idx = w.idx := rfl
@[simp] theorem Wave.setD_st (w : Wave) (n l : Nat) (x : BitVec 512) (t : BitVec 16) : (w.setD n l x t).st = w.st := rfl
@[simp] theorem Wave.setD_halted (w : Wave) (n l : Nat) (x : BitVec 512) (t : BitVec 16) : (w.setD n l x t).halted = w.halted := rfl
@[simp] theorem Wave.setD_yielded (w : Wave) (n l : Nat) (x : BitVec 512) (t : BitVec 16) : (w.setD n l x t).yielded = w.yielded := rfl
@[simp] theorem Wave.setD_pc (w : Wave) (n l : Nat) (x : BitVec 512) (t : BitVec 16) : (w.setD n l x t).pc = w.pc := rfl
@[simp] theorem Wave.setD_age (w : Wave) (n l : Nat) (x : BitVec 512) (t : BitVec 16) : (w.setD n l x t).age = w.age := rfl
@[simp] theorem Wave.setD_exited (w : Wave) (n l : Nat) (x : BitVec 512) (t : BitVec 16) : (w.setD n l x t).exited = w.exited := rfl
@[simp] theorem Wave.setD_groups (w : Wave) (n l : Nat) (x : BitVec 512) (t : BitVec 16) : (w.setD n l x t).groups = w.groups := rfl
@[simp] theorem Wave.setD_promo (w : Wave) (n l : Nat) (x : BitVec 512) (t : BitVec 16) : (w.setD n l x t).promo = w.promo := rfl
@[simp] theorem Wave.setD_burst (w : Wave) (n l : Nat) (x : BitVec 512) (t : BitVec 16) : (w.setD n l x t).burst = w.burst := rfl
@[simp] theorem Wave.setD_r (w : Wave) (n l : Nat) (x : BitVec 512) (t : BitVec 16) : (w.setD n l x t).r = { w.r with d := SMap.set w.r.d dReset (32 * n + l) x, dtag := SMap.set w.r.dtag 0 (32 * n + l) t } := rfl
@[simp] theorem Wave.setD_sp (w : Wave) (n l : Nat) (x : BitVec 512) (t : BitVec 16) : (w.setD n l x t).sp = w.sp := rfl
@[simp] theorem Wave.setD_frames (w : Wave) (n l : Nat) (x : BitVec 512) (t : BitVec 16) : (w.setD n l x t).frames = w.frames := rfl
@[simp] theorem Wave.setD_pend (w : Wave) (n l : Nat) (x : BitVec 512) (t : BitVec 16) : (w.setD n l x t).pend = w.pend := rfl
@[simp] theorem Wave.setD_region (w : Wave) (n l : Nat) (x : BitVec 512) (t : BitVec 16) : (w.setD n l x t).region = w.region := rfl
@[simp] theorem Wave.setD_window (w : Wave) (n l : Nat) (x : BitVec 512) (t : BitVec 16) : (w.setD n l x t).window = w.window := rfl
@[simp] theorem Wave.setD_pins (w : Wave) (n l : Nat) (x : BitVec 512) (t : BitVec 16) : (w.setD n l x t).pins = w.pins := rfl
@[simp] theorem Wave.setD_arrivals (w : Wave) (n l : Nat) (x : BitVec 512) (t : BitVec 16) : (w.setD n l x t).arrivals = w.arrivals := rfl
@[simp] theorem Wave.setD_grants (w : Wave) (n l : Nat) (x : BitVec 512) (t : BitVec 16) : (w.setD n l x t).grants = w.grants := rfl
@[simp] theorem Wave.setD_refs (w : Wave) (n l : Nat) (x : BitVec 512) (t : BitVec 16) : (w.setD n l x t).refs = w.refs := rfl
@[simp] theorem Wave.setD_fork (w : Wave) (n l : Nat) (x : BitVec 512) (t : BitVec 16) : (w.setD n l x t).fork = w.fork := rfl
@[simp] theorem Wave.setD_slots (w : Wave) (n l : Nat) (x : BitVec 512) (t : BitVec 16) : (w.setD n l x t).slots = w.slots := rfl
@[simp] theorem Wave.setD_read (w : Wave) (n l : Nat) (x : BitVec 512) (t : BitVec 16) : (w.setD n l x t).read = w.read := rfl
@[simp] theorem Wave.setD_view (w : Wave) (n l : Nat) (x : BitVec 512) (t : BitVec 16) : (w.setD n l x t).view = w.view := rfl
@[simp] theorem Wave.setD_stores (w : Wave) (n l : Nat) (x : BitVec 512) (t : BitVec 16) : (w.setD n l x t).stores = w.stores := rfl
@[simp] theorem Wave.setD_crc (w : Wave) (n l : Nat) (x : BitVec 512) (t : BitVec 16) : (w.setD n l x t).crc = w.crc := rfl
@[simp] theorem Wave.setD_fwait (w : Wave) (n l : Nat) (x : BitVec 512) (t : BitVec 16) : (w.setD n l x t).fwait = w.fwait := rfl
@[simp] theorem Wave.setD_place (w : Wave) (n l : Nat) (x : BitVec 512) (t : BitVec 16) : (w.setD n l x t).place = w.place := rfl
@[simp] theorem Wave.setD_pending (w : Wave) (n l : Nat) (x : BitVec 512) (t : BitVec 16) : (w.setD n l x t).pending = w.pending := rfl
@[simp] theorem Wave.setD_begun (w : Wave) (n l : Nat) (x : BitVec 512) (t : BitVec 16) : (w.setD n l x t).begun = w.begun := rfl
@[simp] theorem Wave.setD_stall (w : Wave) (n l : Nat) (x : BitVec 512) (t : BitVec 16) : (w.setD n l x t).stall = w.stall := rfl

/-! `Wave.setSide` -/

@[simp] theorem Wave.setSide_blk (w : Wave) (q : Nat) (x : Sh) : (w.setSide q x).blk = w.blk := rfl
@[simp] theorem Wave.setSide_idx (w : Wave) (q : Nat) (x : Sh) : (w.setSide q x).idx = w.idx := rfl
@[simp] theorem Wave.setSide_st (w : Wave) (q : Nat) (x : Sh) : (w.setSide q x).st = w.st := rfl
@[simp] theorem Wave.setSide_halted (w : Wave) (q : Nat) (x : Sh) : (w.setSide q x).halted = w.halted := rfl
@[simp] theorem Wave.setSide_yielded (w : Wave) (q : Nat) (x : Sh) : (w.setSide q x).yielded = w.yielded := rfl
@[simp] theorem Wave.setSide_pc (w : Wave) (q : Nat) (x : Sh) : (w.setSide q x).pc = w.pc := rfl
@[simp] theorem Wave.setSide_age (w : Wave) (q : Nat) (x : Sh) : (w.setSide q x).age = w.age := rfl
@[simp] theorem Wave.setSide_exited (w : Wave) (q : Nat) (x : Sh) : (w.setSide q x).exited = w.exited := rfl
@[simp] theorem Wave.setSide_groups (w : Wave) (q : Nat) (x : Sh) : (w.setSide q x).groups = w.groups := rfl
@[simp] theorem Wave.setSide_promo (w : Wave) (q : Nat) (x : Sh) : (w.setSide q x).promo = w.promo := rfl
@[simp] theorem Wave.setSide_burst (w : Wave) (q : Nat) (x : Sh) : (w.setSide q x).burst = w.burst := rfl
@[simp] theorem Wave.setSide_r (w : Wave) (q : Nat) (x : Sh) : (w.setSide q x).r = { w.r with sh := SMap.set w.r.sh .empty q x } := rfl
@[simp] theorem Wave.setSide_sp (w : Wave) (q : Nat) (x : Sh) : (w.setSide q x).sp = w.sp := rfl
@[simp] theorem Wave.setSide_frames (w : Wave) (q : Nat) (x : Sh) : (w.setSide q x).frames = w.frames := rfl
@[simp] theorem Wave.setSide_pend (w : Wave) (q : Nat) (x : Sh) : (w.setSide q x).pend = w.pend := rfl
@[simp] theorem Wave.setSide_region (w : Wave) (q : Nat) (x : Sh) : (w.setSide q x).region = w.region := rfl
@[simp] theorem Wave.setSide_window (w : Wave) (q : Nat) (x : Sh) : (w.setSide q x).window = w.window := rfl
@[simp] theorem Wave.setSide_pins (w : Wave) (q : Nat) (x : Sh) : (w.setSide q x).pins = w.pins := rfl
@[simp] theorem Wave.setSide_arrivals (w : Wave) (q : Nat) (x : Sh) : (w.setSide q x).arrivals = w.arrivals := rfl
@[simp] theorem Wave.setSide_grants (w : Wave) (q : Nat) (x : Sh) : (w.setSide q x).grants = w.grants := rfl
@[simp] theorem Wave.setSide_refs (w : Wave) (q : Nat) (x : Sh) : (w.setSide q x).refs = w.refs := rfl
@[simp] theorem Wave.setSide_fork (w : Wave) (q : Nat) (x : Sh) : (w.setSide q x).fork = w.fork := rfl
@[simp] theorem Wave.setSide_slots (w : Wave) (q : Nat) (x : Sh) : (w.setSide q x).slots = w.slots := rfl
@[simp] theorem Wave.setSide_read (w : Wave) (q : Nat) (x : Sh) : (w.setSide q x).read = w.read := rfl
@[simp] theorem Wave.setSide_view (w : Wave) (q : Nat) (x : Sh) : (w.setSide q x).view = w.view := rfl
@[simp] theorem Wave.setSide_stores (w : Wave) (q : Nat) (x : Sh) : (w.setSide q x).stores = w.stores := rfl
@[simp] theorem Wave.setSide_crc (w : Wave) (q : Nat) (x : Sh) : (w.setSide q x).crc = w.crc := rfl
@[simp] theorem Wave.setSide_fwait (w : Wave) (q : Nat) (x : Sh) : (w.setSide q x).fwait = w.fwait := rfl
@[simp] theorem Wave.setSide_place (w : Wave) (q : Nat) (x : Sh) : (w.setSide q x).place = w.place := rfl
@[simp] theorem Wave.setSide_pending (w : Wave) (q : Nat) (x : Sh) : (w.setSide q x).pending = w.pending := rfl
@[simp] theorem Wave.setSide_begun (w : Wave) (q : Nat) (x : Sh) : (w.setSide q x).begun = w.begun := rfl
@[simp] theorem Wave.setSide_stall (w : Wave) (q : Nat) (x : Sh) : (w.setSide q x).stall = w.stall := rfl

/-! `Wave.goTo` -/

@[simp] theorem Wave.goTo_blk (w : Wave) (m : Mask) (a : W64) : (w.goTo m a).blk = w.blk := rfl
@[simp] theorem Wave.goTo_idx (w : Wave) (m : Mask) (a : W64) : (w.goTo m a).idx = w.idx := rfl
@[simp] theorem Wave.goTo_st (w : Wave) (m : Mask) (a : W64) : (w.goTo m a).st = w.st := rfl
@[simp] theorem Wave.goTo_halted (w : Wave) (m : Mask) (a : W64) : (w.goTo m a).halted = w.halted := rfl
@[simp] theorem Wave.goTo_yielded (w : Wave) (m : Mask) (a : W64) : (w.goTo m a).yielded = w.yielded := rfl
@[simp] theorem Wave.goTo_age (w : Wave) (m : Mask) (a : W64) : (w.goTo m a).age = w.age := rfl
@[simp] theorem Wave.goTo_exited (w : Wave) (m : Mask) (a : W64) : (w.goTo m a).exited = w.exited := rfl
@[simp] theorem Wave.goTo_groups (w : Wave) (m : Mask) (a : W64) : (w.goTo m a).groups = w.groups := rfl
@[simp] theorem Wave.goTo_promo (w : Wave) (m : Mask) (a : W64) : (w.goTo m a).promo = w.promo := rfl
@[simp] theorem Wave.goTo_burst (w : Wave) (m : Mask) (a : W64) : (w.goTo m a).burst = w.burst := rfl
@[simp] theorem Wave.goTo_r (w : Wave) (m : Mask) (a : W64) : (w.goTo m a).r = w.r := rfl
@[simp] theorem Wave.goTo_sp (w : Wave) (m : Mask) (a : W64) : (w.goTo m a).sp = w.sp := rfl
@[simp] theorem Wave.goTo_frames (w : Wave) (m : Mask) (a : W64) : (w.goTo m a).frames = w.frames := rfl
@[simp] theorem Wave.goTo_pend (w : Wave) (m : Mask) (a : W64) : (w.goTo m a).pend = w.pend := rfl
@[simp] theorem Wave.goTo_region (w : Wave) (m : Mask) (a : W64) : (w.goTo m a).region = w.region := rfl
@[simp] theorem Wave.goTo_window (w : Wave) (m : Mask) (a : W64) : (w.goTo m a).window = w.window := rfl
@[simp] theorem Wave.goTo_pins (w : Wave) (m : Mask) (a : W64) : (w.goTo m a).pins = w.pins := rfl
@[simp] theorem Wave.goTo_arrivals (w : Wave) (m : Mask) (a : W64) : (w.goTo m a).arrivals = w.arrivals := rfl
@[simp] theorem Wave.goTo_grants (w : Wave) (m : Mask) (a : W64) : (w.goTo m a).grants = w.grants := rfl
@[simp] theorem Wave.goTo_refs (w : Wave) (m : Mask) (a : W64) : (w.goTo m a).refs = w.refs := rfl
@[simp] theorem Wave.goTo_fork (w : Wave) (m : Mask) (a : W64) : (w.goTo m a).fork = w.fork := rfl
@[simp] theorem Wave.goTo_slots (w : Wave) (m : Mask) (a : W64) : (w.goTo m a).slots = w.slots := rfl
@[simp] theorem Wave.goTo_read (w : Wave) (m : Mask) (a : W64) : (w.goTo m a).read = w.read := rfl
@[simp] theorem Wave.goTo_view (w : Wave) (m : Mask) (a : W64) : (w.goTo m a).view = w.view := rfl
@[simp] theorem Wave.goTo_stores (w : Wave) (m : Mask) (a : W64) : (w.goTo m a).stores = w.stores := rfl
@[simp] theorem Wave.goTo_crc (w : Wave) (m : Mask) (a : W64) : (w.goTo m a).crc = w.crc := rfl
@[simp] theorem Wave.goTo_fwait (w : Wave) (m : Mask) (a : W64) : (w.goTo m a).fwait = w.fwait := rfl
@[simp] theorem Wave.goTo_place (w : Wave) (m : Mask) (a : W64) : (w.goTo m a).place = w.place := rfl
@[simp] theorem Wave.goTo_pending (w : Wave) (m : Mask) (a : W64) : (w.goTo m a).pending = w.pending := rfl
@[simp] theorem Wave.goTo_begun (w : Wave) (m : Mask) (a : W64) : (w.goTo m a).begun = w.begun := rfl
@[simp] theorem Wave.goTo_stall (w : Wave) (m : Mask) (a : W64) : (w.goTo m a).stall = w.stall := rfl

/-! `Wave.orFlags` -/

@[simp] theorem Wave.orFlags_blk (w : Wave) (f : Fl) : (w.orFlags f).blk = w.blk := rfl
@[simp] theorem Wave.orFlags_idx (w : Wave) (f : Fl) : (w.orFlags f).idx = w.idx := rfl
@[simp] theorem Wave.orFlags_st (w : Wave) (f : Fl) : (w.orFlags f).st = w.st := rfl
@[simp] theorem Wave.orFlags_halted (w : Wave) (f : Fl) : (w.orFlags f).halted = w.halted := rfl
@[simp] theorem Wave.orFlags_yielded (w : Wave) (f : Fl) : (w.orFlags f).yielded = w.yielded := rfl
@[simp] theorem Wave.orFlags_pc (w : Wave) (f : Fl) : (w.orFlags f).pc = w.pc := rfl
@[simp] theorem Wave.orFlags_age (w : Wave) (f : Fl) : (w.orFlags f).age = w.age := rfl
@[simp] theorem Wave.orFlags_exited (w : Wave) (f : Fl) : (w.orFlags f).exited = w.exited := rfl
@[simp] theorem Wave.orFlags_groups (w : Wave) (f : Fl) : (w.orFlags f).groups = w.groups := rfl
@[simp] theorem Wave.orFlags_promo (w : Wave) (f : Fl) : (w.orFlags f).promo = w.promo := rfl
@[simp] theorem Wave.orFlags_burst (w : Wave) (f : Fl) : (w.orFlags f).burst = w.burst := rfl
@[simp] theorem Wave.orFlags_r (w : Wave) (f : Fl) : (w.orFlags f).r = w.r := rfl
@[simp] theorem Wave.orFlags_sp (w : Wave) (f : Fl) : (w.orFlags f).sp = { w.sp with fflags := w.sp.fflags ||| f.setWidth 32 } := rfl
@[simp] theorem Wave.orFlags_frames (w : Wave) (f : Fl) : (w.orFlags f).frames = w.frames := rfl
@[simp] theorem Wave.orFlags_pend (w : Wave) (f : Fl) : (w.orFlags f).pend = w.pend := rfl
@[simp] theorem Wave.orFlags_region (w : Wave) (f : Fl) : (w.orFlags f).region = w.region := rfl
@[simp] theorem Wave.orFlags_window (w : Wave) (f : Fl) : (w.orFlags f).window = w.window := rfl
@[simp] theorem Wave.orFlags_pins (w : Wave) (f : Fl) : (w.orFlags f).pins = w.pins := rfl
@[simp] theorem Wave.orFlags_arrivals (w : Wave) (f : Fl) : (w.orFlags f).arrivals = w.arrivals := rfl
@[simp] theorem Wave.orFlags_grants (w : Wave) (f : Fl) : (w.orFlags f).grants = w.grants := rfl
@[simp] theorem Wave.orFlags_refs (w : Wave) (f : Fl) : (w.orFlags f).refs = w.refs := rfl
@[simp] theorem Wave.orFlags_fork (w : Wave) (f : Fl) : (w.orFlags f).fork = w.fork := rfl
@[simp] theorem Wave.orFlags_slots (w : Wave) (f : Fl) : (w.orFlags f).slots = w.slots := rfl
@[simp] theorem Wave.orFlags_read (w : Wave) (f : Fl) : (w.orFlags f).read = w.read := rfl
@[simp] theorem Wave.orFlags_view (w : Wave) (f : Fl) : (w.orFlags f).view = w.view := rfl
@[simp] theorem Wave.orFlags_stores (w : Wave) (f : Fl) : (w.orFlags f).stores = w.stores := rfl
@[simp] theorem Wave.orFlags_crc (w : Wave) (f : Fl) : (w.orFlags f).crc = w.crc := rfl
@[simp] theorem Wave.orFlags_fwait (w : Wave) (f : Fl) : (w.orFlags f).fwait = w.fwait := rfl
@[simp] theorem Wave.orFlags_place (w : Wave) (f : Fl) : (w.orFlags f).place = w.place := rfl
@[simp] theorem Wave.orFlags_pending (w : Wave) (f : Fl) : (w.orFlags f).pending = w.pending := rfl
@[simp] theorem Wave.orFlags_begun (w : Wave) (f : Fl) : (w.orFlags f).begun = w.begun := rfl
@[simp] theorem Wave.orFlags_stall (w : Wave) (f : Fl) : (w.orFlags f).stall = w.stall := rfl

/-! `Wave.closeWindow` -/

@[simp] theorem Wave.closeWindow_blk (w : Wave) : (w.closeWindow).blk = w.blk := rfl
@[simp] theorem Wave.closeWindow_idx (w : Wave) : (w.closeWindow).idx = w.idx := rfl
@[simp] theorem Wave.closeWindow_st (w : Wave) : (w.closeWindow).st = w.st := rfl
@[simp] theorem Wave.closeWindow_halted (w : Wave) : (w.closeWindow).halted = w.halted := rfl
@[simp] theorem Wave.closeWindow_yielded (w : Wave) : (w.closeWindow).yielded = w.yielded := rfl
@[simp] theorem Wave.closeWindow_pc (w : Wave) : (w.closeWindow).pc = w.pc := rfl
@[simp] theorem Wave.closeWindow_age (w : Wave) : (w.closeWindow).age = w.age := rfl
@[simp] theorem Wave.closeWindow_exited (w : Wave) : (w.closeWindow).exited = w.exited := rfl
@[simp] theorem Wave.closeWindow_groups (w : Wave) : (w.closeWindow).groups = w.groups := rfl
@[simp] theorem Wave.closeWindow_promo (w : Wave) : (w.closeWindow).promo = w.promo := rfl
@[simp] theorem Wave.closeWindow_burst (w : Wave) : (w.closeWindow).burst = w.burst := rfl
@[simp] theorem Wave.closeWindow_r (w : Wave) : (w.closeWindow).r = w.r := rfl
@[simp] theorem Wave.closeWindow_sp (w : Wave) : (w.closeWindow).sp = w.sp := rfl
@[simp] theorem Wave.closeWindow_frames (w : Wave) : (w.closeWindow).frames = w.frames := rfl
@[simp] theorem Wave.closeWindow_pend (w : Wave) : (w.closeWindow).pend = w.pend := rfl
@[simp] theorem Wave.closeWindow_region (w : Wave) : (w.closeWindow).region = w.region := rfl
@[simp] theorem Wave.closeWindow_window (w : Wave) : (w.closeWindow).window = none := rfl
@[simp] theorem Wave.closeWindow_pins (w : Wave) : (w.closeWindow).pins = [] := rfl
@[simp] theorem Wave.closeWindow_arrivals (w : Wave) : (w.closeWindow).arrivals = w.arrivals := rfl
@[simp] theorem Wave.closeWindow_grants (w : Wave) : (w.closeWindow).grants = w.grants := rfl
@[simp] theorem Wave.closeWindow_refs (w : Wave) : (w.closeWindow).refs = w.refs := rfl
@[simp] theorem Wave.closeWindow_fork (w : Wave) : (w.closeWindow).fork = w.fork := rfl
@[simp] theorem Wave.closeWindow_slots (w : Wave) : (w.closeWindow).slots = w.slots := rfl
@[simp] theorem Wave.closeWindow_read (w : Wave) : (w.closeWindow).read = w.read := rfl
@[simp] theorem Wave.closeWindow_view (w : Wave) : (w.closeWindow).view = w.view := rfl
@[simp] theorem Wave.closeWindow_stores (w : Wave) : (w.closeWindow).stores = w.stores := rfl
@[simp] theorem Wave.closeWindow_crc (w : Wave) : (w.closeWindow).crc = w.crc := rfl
@[simp] theorem Wave.closeWindow_fwait (w : Wave) : (w.closeWindow).fwait = w.fwait := rfl
@[simp] theorem Wave.closeWindow_place (w : Wave) : (w.closeWindow).place = w.place := rfl
@[simp] theorem Wave.closeWindow_pending (w : Wave) : (w.closeWindow).pending = w.pending := rfl
@[simp] theorem Wave.closeWindow_begun (w : Wave) : (w.closeWindow).begun = w.begun := rfl
@[simp] theorem Wave.closeWindow_stall (w : Wave) : (w.closeWindow).stall = w.stall := rfl

/-! Reading what was written -/

@[simp] theorem Wave.sreg_setS (w : Wave) (n m : Nat) (x : W32) : (w.setS n x).sreg m = if m = n then x else w.sreg m :=
  SMap.get_set w.r.s 0 n m x
@[simp] theorem Wave.cruc_setC (w : Wave) (n m : Nat) (x : Cruc) : (w.setC n x).cruc m = if m = n then x else w.cruc m :=
  SMap.get_set w.r.c .zero n m x
@[simp] theorem Wave.side_setSide (w : Wave) (n m : Nat) (x : Sh) : (w.setSide n x).side m = if m = n then x else w.side m :=
  SMap.get_set w.r.sh .empty n m x
@[simp] theorem State.pfNum_setPf (s : State) (o p : Nat) (x : W64) : (s.setPf o x).pfNum p = if p = o then x else s.pfNum p := by
  unfold State.pfNum State.setPf
  by_cases h : p = o
  · subst h; simp
  · simp only [h, if_false]
    by_cases hx : x = pfReset o <;> simp [SMap.get, SMap.set, hx, SMap.find?_erase, SMap.find?_insert, h]
@[simp] theorem State.ctx_setCtx (s : State) (c d : Nat) (x : Ctx) : (s.setCtx c x).ctx d = if d = c then x else s.ctx d :=
  SMap.get_set s.ctxs Ctx.zero c d x
theorem State.vfNum_setVf (s : State) (c off d o : Nat) (x : W64) :
    (s.setVf c off x).vfNum d o = if 65536 * d + o = 65536 * c + off then x else s.vfNum d o :=
  SMap.get_set s.vf 0 (65536 * c + off) (65536 * d + o) x

/-- Putting lanes at a PC: each lane of the mask stands there, every other where it was. -/
theorem Wave.pcAt_goTo (w : Wave) (m : Mask) (a : W64) (l : Nat) : (w.goTo m a).pcAt l = if l ∈ lanesOf m then a else w.pcAt l := by
  have go : ∀ (ls : List Nat) (t : SMap W64),
      SMap.get (ls.foldl (fun t l => SMap.set t 0 l a) t) 0 l = if l ∈ ls then a else SMap.get t 0 l := by
    intro ls
    induction ls with
    | nil => simp
    | cons k ks ih =>
      intro t
      rw [List.foldl_cons, ih]
      by_cases h : l ∈ ks
      · simp [h]
      · by_cases e : l = k
        · subst e; simp
        · simp [h, e, SMap.get_set_ne _ _ _ e]
  exact go _ _

end Machine
end Sys2Proof
end

