-- ==== Sys2Proof/Laws/Memory.lean ====
section
/-! SUPPORT. The canonical form of device memory, host memory and die shared memory, kept by every operation that writes
them; and the updates of waves, blocks and groups, which leave the memories as they are. -/

namespace Sys2Proof
open Machine
namespace Machine

/-! ### Updates beside the memories -/

@[simp] theorem State.setWave_mem (s : State) (k : Nat) (w : Wave) : (s.setWave k w).mem = s.mem := by
  unfold State.setWave; split <;> rfl
@[simp] theorem State.setWave_hmem (s : State) (k : Nat) (w : Wave) : (s.setWave k w).hmem = s.hmem := by
  unfold State.setWave; split <;> rfl
@[simp] theorem State.setWave_dsm (s : State) (k : Nat) (w : Wave) : (s.setWave k w).dsm = s.dsm := by
  unfold State.setWave; split <;> rfl
@[simp] theorem State.setBlock_mem (s : State) (h : Nat) (b : Block) : (s.setBlock h b).mem = s.mem := by
  unfold State.setBlock; split <;> rfl
@[simp] theorem State.setBlock_hmem (s : State) (h : Nat) (b : Block) : (s.setBlock h b).hmem = s.hmem := by
  unfold State.setBlock; split <;> rfl
@[simp] theorem State.setBlock_dsm (s : State) (h : Nat) (b : Block) : (s.setBlock h b).dsm = s.dsm := by
  unfold State.setBlock; split <;> rfl
@[simp] theorem State.updGrp_mem (s : State) (id : Nat) (f : Grp → Grp) : (s.updGrp id f).mem = s.mem := by
  unfold State.updGrp; split <;> rfl
@[simp] theorem State.updGrp_hmem (s : State) (id : Nat) (f : Grp → Grp) : (s.updGrp id f).hmem = s.hmem := by
  unfold State.updGrp; split <;> rfl
@[simp] theorem State.updGrp_dsm (s : State) (id : Nat) (f : Grp → Grp) : (s.updGrp id f).dsm = s.dsm := by
  unfold State.updGrp; split <;> rfl
@[simp] theorem State.updLev_mem (s : State) (id : Nat) (f : Lev → Lev) : (s.updLev id f).mem = s.mem := by
  unfold State.updLev; split <;> rfl
@[simp] theorem State.updLev_hmem (s : State) (id : Nat) (f : Lev → Lev) : (s.updLev id f).hmem = s.hmem := by
  unfold State.updLev; split <;> rfl
@[simp] theorem State.updLev_dsm (s : State) (id : Nat) (f : Lev → Lev) : (s.updLev id f).dsm = s.dsm := by
  unfold State.updLev; split <;> rfl
@[simp] theorem State.updWave_memWf (s : State) (k : Nat) (f : Wave → Wave) : (s.updWave k f).memWf ↔ s.memWf := by
  simp [State.updWave, State.memWf]
@[simp] theorem State.updBlock_memWf (s : State) (h : Nat) (f : Block → Block) : (s.updBlock h f).memWf ↔ s.memWf := by
  simp [State.updBlock, State.memWf]

/-- Checking a wave out or in leaves the memories as they are. -/
theorem State.load_mems (s : State) (k : Nat) : (s.load k).mem = s.mem ∧ (s.load k).hmem = s.hmem ∧ (s.load k).dsm = s.dsm :=
  ⟨rfl, rfl, rfl⟩

/-- Updates of waves one after another leave the memories as they are. -/
theorem State.updWaves_memWf {α : Type} (ts : List α) (k : α → Nat) (f : Wave → Wave) (s : State) :
    (ts.foldl (fun s t => s.updWave (k t) f) s).memWf ↔ s.memWf := by
  induction ts generalizing s with
  | nil => rfl
  | cons t ts ih => rw [List.foldl_cons, ih, State.updWave_memWf]

/-- Serving a wave leaves the memories as they are. -/
theorem State.serve_memWf (s : State) (q : Nat) (order : List Turn) : (s.serve q order).memWf ↔ s.memWf := by
  have key := State.updWaves_memWf (order.takeWhile fun t => t.yielded) Turn.key (fun w => { w with yielded := false }) s
  unfold State.serve
  dsimp only
  split
  · exact key
  · exact key

/-- Passing the turn on leaves the memories as they are. -/
theorem State.rotate_memWf (s : State) (h : s.memWf) : s.rotate.memWf := by
  unfold State.rotate
  split
  · exact h
  · dsimp only
    split
    · exact h
    · exact (State.serve_memWf _ _ _).mpr h

/-- A turn's end leaves the memories as they are. -/
theorem State.tick_memWf (s : State) (h : s.memWf) : s.tick.memWf := s.rotate_memWf h

/-- An event's end leaves the memories as they are. -/
theorem State.tickEvent_memWf (s : State) (h : s.memWf) : s.tickEvent.memWf := by
  unfold State.tickEvent
  dsimp only
  split
  · exact h
  · exact s.rotate_memWf h

/-- Bytes written in any order of addresses keep the canonical form. -/
theorem Memory.wf_foldSet (ws : List Host.Cell) (f : Host.Cell → Nat) (m : Memory) (h : Memory.wf m = true) :
    Memory.wf (ws.foldl (fun acc e => Memory.setByte acc (f e) e.2) m) = true := by
  induction ws generalizing m with
  | nil => exact h
  | cons e es ih => exact ih _ (Memory.wf_setByte m _ _ h)

/-- Leaving bytes out keeps the canonical form. -/
theorem Memory.wf_filter (m : Memory) (p : Host.Cell → Bool) (h : Memory.wf m = true) : Memory.wf (m.filter p) = true :=
  SMap.wf_filter m 0 p h

theorem Memory.wf_copyRange (m : Memory) (src dst n : Nat) (h : Memory.wf m = true) :
    Memory.wf (Memory.copyRange m src dst n) = true :=
  Memory.wf_foldSet _ (fun e => e.1 - src + dst) _ (Memory.wf_filter m _ h)

/-! ### The writers -/

theorem State.memWf_writeHost (s : State) (pa : Nat) (bs : List Byte) (h : s.memWf) : (s.writeHost pa bs).memWf :=
  ⟨h.1, Memory.wf_setBytes _ _ _ h.2.1, h.2.2⟩

theorem State.memWf_writeDev (s : State) (pa : Nat) (bs : List Byte) (h : s.memWf) : (s.writeDev pa bs).memWf := by
  unfold State.writeDev State.keepShadow
  split <;> exact ⟨Memory.wf_setBytes _ _ _ h.1, h.2.1, h.2.2⟩

theorem State.memWf_writeDsm (s : State) (key : Nat) (bs : List Byte) (h : s.memWf) :
    State.memWf { s with dsm := Memory.setBytes s.dsm key bs } :=
  ⟨h.1, h.2.1, Memory.wf_setBytes _ _ _ h.2.2⟩

theorem State.memWf_setLocBytes (s : State) (loc : Nat) (bs : List Byte) (h : s.memWf) : (s.setLocBytes loc bs).memWf := by
  unfold State.setLocBytes
  split
  · exact s.memWf_writeDsm _ _ h
  · exact s.memWf_writeDev _ _ h

theorem State.memWf_writeSc (s : State) (off : Nat) (bs : List Byte) (h : s.memWf) : (s.writeSc off bs).memWf := by
  unfold State.writeSc
  dsimp only
  split <;> exact h

/-- A store at any place keeps the canonical form. -/
theorem State.memWf_writePlace (s : State) (p : Place) (n x : Nat) (h : s.memWf) : (s.writePlace p n x).memWf := by
  cases p with
  | dev pa => exact s.memWf_writeDev _ _ h
  | sluice pa => exact s.memWf_writeDev _ _ h
  | host pa => exact s.memWf_writeHost _ _ h
  | sc off => exact s.memWf_writeSc _ _ h
  | dm key => exact s.memWf_writeDsm _ _ h
  | _ => exact h

/-- What an engine command lands keeps the canonical form. -/
theorem State.memWf_landBytes (s : State) (c : Cmd) (d : Dst) (bs : List Byte) (h : s.memWf) : (s.landBytes c d bs).memWf := by
  cases d with
  | dev pa => exact s.memWf_writeDev _ _ h
  | host pa => exact s.memWf_writeHost _ _ h
  | dm key => exact s.memWf_writeDsm _ _ h
  | view va => exact (State.updWave_memWf _ _ _).2 h
  | sc off => exact (State.updBlock_memWf _ _ _).2 h
  | reg d lane sz => exact (State.updWave_memWf _ _ _).2 h

theorem State.memWf_clearDsm (s : State) (off n : Nat) (h : s.memWf) : (s.clearDsm off n).memWf :=
  ⟨h.1, h.2.1, Memory.wf_filter _ _ h.2.2⟩

theorem State.memWf_loadMooring (s : State) (pa : Nat) (h : s.memWf) : (s.loadMooring pa).memWf := by
  refine ⟨h.1, h.2.1, ?_⟩
  show Memory.wf (List.foldl _ s.dsm _) = true
  generalize List.range Config.dies = ds
  generalize s.dsm = m, h.2.2 = hm
  induction ds generalizing m with
  | nil => exact hm
  | cons d ds ih => exact ih _ (Memory.wf_foldSet _ (fun e => e.1 - pa + slotKey d 0) _ (Memory.wf_filter _ _ hm))

theorem State.memWf_powered (s : State) (b : BootSt) (h : s.memWf) : (s.powered b).memWf :=
  ⟨rfl, h.2.1, rfl⟩

theorem State.memWf_withFetchWord (s : State) (n w : Nat) (h : s.memWf) : (s.withFetchWord n w).memWf :=
  ⟨by
    show Memory.wf (placeWord s.mem _) = true
    unfold placeWord
    exact Memory.wf_setNum _ _ _ _ (Memory.wf_setNum _ _ _ _ (Memory.wf_setNum _ _ _ _ (Memory.wf_setNum _ _ _ _
      (Memory.wf_setNum _ _ _ _ (Memory.wf_setNum _ _ _ _ h.1))))), h.2.1, h.2.2⟩

theorem State.memWf_reset : State.reset.memWf := ⟨rfl, rfl, rfl⟩

end Machine
end Sys2Proof
end

