-- ==== Sys2Proof/Laws/Num.lean ====
section
/-! SUPPORT. Integers and bit vectors: the integers an operand is read as, the bits an exact result leaves, and that an
operand's number fits its registers. -/

namespace Sys2Proof
open Machine
namespace Machine

theorem bitsOf_eq (w : Nat) (x : Int) : bitsOf w x = (BitVec.ofInt w x).toNat := by
  simp [bitsOf, BitVec.toNat_ofInt]

theorem intOf_unsigned (w x : Nat) : intOf false w x = ((BitVec.ofNat w x).toNat : Int) := by
  simp [intOf]

theorem intOf_signed (w x : Nat) (hw : 0 < w) : intOf true w x = (BitVec.ofNat w x).toInt := by
  have h2 : 2 ^ w = 2 * 2 ^ (w - 1) := by
    rw [← Nat.pow_succ']
    congr 1
    omega
  simp only [intOf, BitVec.toInt, BitVec.toNat_ofNat, Bool.true_and, decide_eq_true_eq]
  have e : ((2 ^ w : Nat) : Int) = (2 : Int) ^ w := by push_cast; rfl
  split <;> split <;> omega

theorem bits_pos (ty : Ty) : 0 < ty.bits := by cases ty <;> decide

theorem State.iopnd_eq (s : State) (ty : Ty) (o : Opnd) (l : Nat) : s.iopnd ty o l = s.ival ty o l := by
  unfold State.iopnd State.ival State.bv
  cases h : ty.signed
  · simp only [intOf_unsigned]; rfl
  · simp only [intOf_signed _ _ (bits_pos ty)]; rfl

/-- Signed or not, the integer of an operand has the operand's bits. -/
theorem State.ofInt_ival (s : State) (ty : Ty) (o : Opnd) (l : Nat) : BitVec.ofInt ty.bits (s.ival ty o l) = s.bv ty o l := by
  unfold State.ival
  split
  · exact BitVec.ofInt_toInt
  · simp

theorem intResult_wrap (ty : Ty) (x : Int) : intResult ty false x = ((BitVec.ofInt ty.bits x).toNat, 0) := by
  simp [intResult, bitsOf_eq]

theorem lo_eq (ty : Ty) : loOf ty.signed ty.bits = ty.lo := by cases ty <;> rfl
theorem hi_eq (ty : Ty) : hiOf ty.signed ty.bits = ty.hi := by cases ty <;> rfl

theorem intResult_sat (ty : Ty) (x : Int) : intResult ty true x = ty.clamped x := by
  unfold intResult Ty.clamped
  rw [lo_eq, hi_eq]
  have hl : ty.lo ≤ ty.hi := by cases ty <;> decide
  simp only [Bool.true_and, decide_eq_true_eq, bitsOf_eq]
  split
  · have h1 : min ty.hi x = ty.hi := by omega
    have h2 : max ty.lo ty.hi = ty.hi := by omega
    rw [h1, h2, if_neg (by omega)]
  · split
    · have h1 : min ty.hi x = x := by omega
      have h2 : max ty.lo x = ty.lo := by omega
      rw [h1, h2, if_neg (by omega)]
    · have h1 : min ty.hi x = x := by omega
      have h2 : max ty.lo x = x := by omega
      rw [h1, h2, if_pos rfl]

/-! ### Operands fit their registers -/

theorem Wave.vregs_lt (w : Wave) (r l n : Nat) : w.vregs r l n < 2 ^ (32 * n) := by
  induction n generalizing r with
  | zero => simp [Wave.vregs]
  | succ n ih =>
    simp only [Wave.vregs]
    have h1 := (w.vreg r l).isLt
    have h2 := ih (r + 1)
    have e : 2 ^ (32 * (n + 1)) = 2 ^ 32 * 2 ^ (32 * n) := by rw [← Nat.pow_add]; congr 1; omega
    rw [e]
    calc (w.vreg r l).toNat + 2 ^ 32 * w.vregs (r + 1) l n < 2 ^ 32 + 2 ^ 32 * w.vregs (r + 1) l n := by omega
      _ = 2 ^ 32 * (w.vregs (r + 1) l n + 1) := by ring
      _ ≤ 2 ^ 32 * 2 ^ (32 * n) := Nat.mul_le_mul_left _ h2

theorem Wave.sregs_lt (w : Wave) (r n : Nat) : w.sregs r n < 2 ^ (32 * n) := by
  induction n generalizing r with
  | zero => simp [Wave.sregs]
  | succ n ih =>
    simp only [Wave.sregs]
    have h1 := (w.sreg r).isLt
    have h2 := ih (r + 1)
    have e : 2 ^ (32 * (n + 1)) = 2 ^ 32 * 2 ^ (32 * n) := by rw [← Nat.pow_add]; congr 1; omega
    rw [e]
    calc (w.sreg r).toNat + 2 ^ 32 * w.sregs (r + 1) n < 2 ^ 32 + 2 ^ 32 * w.sregs (r + 1) n := by omega
      _ = 2 ^ 32 * (w.sregs (r + 1) n + 1) := by ring
      _ ≤ 2 ^ 32 * 2 ^ (32 * n) := Nat.mul_le_mul_left _ h2

theorem floatConst_lt : ∀ k : Fin 16, floatConstBits .f32 k.val < 2 ^ 32 := by decide

theorem State.opnd_lt (s : State) (o : Opnd) (n l : Nat) (hn : 1 ≤ n) : s.opnd o n l < 2 ^ (32 * n) := by
  have hp : 2 ^ 32 ≤ 2 ^ (32 * n) := Nat.pow_le_pow_right (by norm_num) (by omega)
  have hm : ∀ x : Nat, x % 2 ^ (32 * n) < 2 ^ (32 * n) := fun x => Nat.mod_lt _ (by positivity)
  cases o with
  | v r => exact Wave.vregs_lt ..
  | win k => exact Wave.vregs_lt ..
  | s r => exact Wave.sregs_lt ..
  | p r => simp only [State.opnd]; split <;> omega
  | i r => have := (s.w.ireg r.toNat l).isLt; simp only [State.opnd]; omega
  | sr r => exact hm _
  | ci k => have := k.isLt; simp only [State.opnd]; omega
  | cf k => exact lt_of_lt_of_le (floatConst_lt ⟨k.toNat, k.isLt⟩) hp
  | lat k => exact hm _
  | _ => simp only [State.opnd]; omega

theorem regs_bits (ty : Ty) : 32 * ty.regs = ty.bits := by cases ty <;> rfl
theorem regs_pos (ty : Ty) : 1 ≤ ty.regs := by cases ty <;> decide

theorem State.bv_toNat (s : State) (ty : Ty) (o : Opnd) (l : Nat) : (s.bv ty o l).toNat = s.opnd o ty.regs l := by
  have := s.opnd_lt o ty.regs l (regs_pos ty)
  rw [regs_bits] at this
  simp [State.bv, Nat.mod_eq_of_lt this]

theorem State.opnd32_toNat (s : State) (o : Opnd) (l : Nat) : (s.opnd32 o l).toNat = s.opnd o 1 l := by
  have := s.opnd_lt o 1 l (le_refl 1)
  simp only [State.opnd32, BitVec.toNat_ofNat]
  exact Nat.mod_eq_of_lt this

end Machine
end Sys2Proof
end

