-- ==== Sys2Proof/Laws/Ops.lean ====
section
/-! SUPPORT. What the frame of an issue event answers, said once: how a word that is issued ends for each answer of its effect,
what stands before the effect, what the end of an issue event leaves as it was, and what granted accesses hand on. -/

namespace Sys2Proof
open Machine
namespace Machine

/-! ### The frame of a word -/

theorem word_started (i : Instr) (s : State) (body : Mask → State → Res) (hr : s.w.st = .running) (hn : s.run ≠ 0)
    (hc : i.closes = true → s.w.region = none) :
    word i s body = match s.boundsFail i with
      | some info => .next (s.trapWord (s.active i) (.of 2 info s.pc))
      | none =>
        if s.waitsFor i || (i.isMem && Config.memWords ≤ s.wordsInFlight) then .next s.heldBack
        else if s.active i = 0 && !i.ownGuard then .next (s.retire s i (s.active i) true)
        else match body (s.active i) s with
          | .done t => .next (t.settleCharge s (t.retire s i (s.active i) true))
          | .moved t => .next (t.settleCharge s (t.retire s i (s.active i) false))
          | .trap t x => .next (if s.w.region.isSome then s.closeRegion else t.settleCharge s (t.trapWord (s.active i) x))
          | .stall t => .next (t.settleCharge s t)
          | .close => .next s.closeRegion
          | .fault t va kind x => .next (t.settleCharge s (t.joinFault va kind x))
          | .poison t pa => .next (State.poisonBlock { s with pf := t.pf } s.w.blk pa)
          | .gone t => .next t := by
  have h1 : ¬ (s.w.st ≠ .running ∨ s.run = 0) := by
    rintro (h | h)
    · exact h hr
    · exact hn h
  have h2 : (i.closes && s.w.region.isSome) = false := by
    cases h : i.closes
    · rfl
    · rw [hc h]; rfl
  unfold word
  simp only [h1, if_false, h2, Bool.false_eq_true]
  all_goals rfl

/-- A word that is issued: its end follows from what its effect answers. -/
theorem word_effect (i : Instr) (s : State) (body : Mask → State → Res) (hI : s.Issues i)
    (ha : s.active i ≠ 0 ∨ i.ownGuard = true) :
    word i s body = match body (s.active i) s with
      | .done t => .next (t.settleCharge s (t.retire s i (s.active i) true))
      | .moved t => .next (t.settleCharge s (t.retire s i (s.active i) false))
      | .trap t x => .next (if s.w.region.isSome then s.closeRegion else t.settleCharge s (t.trapWord (s.active i) x))
      | .stall t => .next (t.settleCharge s t)
      | .close => .next s.closeRegion
      | .fault t va kind x => .next (t.settleCharge s (t.joinFault va kind x))
      | .poison t pa => .next (State.poisonBlock { s with pf := t.pf } s.w.blk pa)
      | .gone t => .next t := by
  have h3 : (decide (s.active i = 0) && !i.ownGuard) = false := by
    rcases ha with h | h
    · rw [decide_eq_false h]; rfl
    · rw [h]; simp
  rw [word_started i s body hI.running hI.run hI.region, hI.bounds]
  simp only [hI.noWait, h3, Bool.false_eq_true, if_false]

/-- With no active lane, a word that reads its guard as a whole only advances. -/
theorem word_idle (i : Instr) (s : State) (body : Mask → State → Res) (hI : s.Issues i) (ha : s.active i = 0)
    (ho : i.ownGuard = false) : word i s body = .next (s.advanced i) := by
  have h3 : (decide (s.active i = 0) && !i.ownGuard) = true := by rw [decide_eq_true ha, ho]; rfl
  rw [word_started i s body hI.running hI.run hI.region, hI.bounds]
  simp only [hI.noWait, h3, Bool.false_eq_true, if_false, if_true]
  rfl

/-- A word that closes the open region waits for its release. -/
theorem word_closes (i : Instr) (s : State) (body : Mask → State → Res) (hr : s.w.st = .running) (hn : s.run ≠ 0)
    (hc : i.closes = true) (ho : s.w.region ≠ none) : word i s body = .next s.closeRegion := by
  have h1 : ¬ (s.w.st ≠ .running ∨ s.run = 0) := by
    rintro (h | h)
    · exact h hr
    · exact hn h
  have h2 : (i.closes && s.w.region.isSome) = true := by
    cases e : s.w.region
    · exact absurd e ho
    · rw [hc]; rfl
  unfold word
  simp only [h1, if_false, h2, if_true]

/-- A register beyond the allocation takes trap 0x02. -/
theorem word_bounds (i : Instr) (s : State) (body : Mask → State → Res) (info : W64) (hr : s.w.st = .running) (hn : s.run ≠ 0)
    (hc : i.closes = true → s.w.region = none) (hb : s.boundsFail i = some info) :
    word i s body = .next (s.trapWord (s.active i) (.of 2 info s.pc)) := by
  rw [word_started i s body hr hn hc, hb]

/-- A word whose operands are not delivered, or a memory word that finds no room among those in flight, waits. -/
theorem word_waits (i : Instr) (s : State) (body : Mask → State → Res) (hr : s.w.st = .running) (hn : s.run ≠ 0)
    (hc : i.closes = true → s.w.region = none) (hb : s.boundsFail i = none)
    (hw : s.waitsFor i = true ∨ i.isMem = true ∧ Config.memWords ≤ s.wordsInFlight) :
    word i s body = .next s.heldBack := by
  have h : (s.waitsFor i || (i.isMem && decide (Config.memWords ≤ s.wordsInFlight))) = true := by
    rcases hw with h | h
    · rw [h]; rfl
    · rw [h.1, decide_eq_true h.2]; simp
  rw [word_started i s body hr hn hc, hb]
  simp only [h, if_true]

/-! ### The end of an issue event -/

/-- What the burst's end changes of a wave. -/
theorem Wave.afterBurst_frame (w : Wave) (was : W64) (run : Mask) :
    ∃ b p, w.afterBurst was run = { w with burst := b, promo := p } := by
  unfold Wave.afterBurst
  split
  · exact ⟨_, _, rfl⟩
  · split
    · exact ⟨_, _, rfl⟩
    · dsimp only
      split <;> exact ⟨_, _, rfl⟩

/-- What an issue event changes of the pin window. -/
theorem Wave.countWindow_frame (w : Wave) : ∃ n ps, w.countWindow = { w with window := n, pins := ps } := by
  unfold Wave.countWindow
  split
  · exact ⟨_, _, rfl⟩
  · split <;> exact ⟨_, _, rfl⟩

/-- What the end of an issue event changes of a wave. -/
theorem Wave.retire_frame (w : Wave) (table run : Mask) (was : W64) :
    ∃ a b p n ps, w.retire table run was = { w with age := a, burst := b, promo := p, window := n, pins := ps } := by
  obtain ⟨b, p, h⟩ := Wave.afterBurst_frame (w.ageRun table run) was run
  unfold Wave.retire
  rw [h]
  obtain ⟨n, ps, e⟩ := Wave.countWindow_frame { w.ageRun table run with burst := b, promo := p }
  exact ⟨_, b, p, n, ps, e⟩

theorem Wave.push_frame (w : Wave) (l : Nat) (x : W64) : ∃ lat, w.push l x = { w with r := { w.r with lat := lat } } := ⟨_, rfl⟩

theorem Wave.pushLoop_frame (ls : List Nat) (g : Nat → W64) (w : Wave) :
    ∃ lat, ls.foldl (fun w l => w.push l (g l)) w = { w with r := { w.r with lat := lat } } := by
  induction ls generalizing w with
  | nil => exact ⟨w.r.lat, rfl⟩
  | cons l ls ih =>
    obtain ⟨m, e⟩ := w.push_frame l (g l)
    rw [List.foldl_cons, e]
    obtain ⟨lat, h⟩ := ih { w with r := { w.r with lat := m } }
    rw [h]
    exact ⟨lat, rfl⟩

/-- Holds change the latch alone. -/
theorem State.pushHolds_frame (s : State) (i : Instr) (act : Mask) (w : Wave) :
    ∃ lat, s.pushHolds i act w = { w with r := { w.r with lat := lat } } := by
  unfold State.pushHolds
  split
  · exact ⟨w.r.lat, rfl⟩
  · split
    · exact ⟨w.r.lat, rfl⟩
    · exact Wave.pushLoop_frame _ _ _

/-- What an issue event without an effect of its own changes: outside the wave nothing, in it the PCs, ages, burst, pin
window, latch, and the marks of words in progress and of the stall. -/
theorem State.advanced_frame (s : State) (i : Instr) :
    ∃ c a b p n ps lat, s.advanced i = { s with w := { s.w with
      pc := c, age := a, burst := b, promo := p, window := n, pins := ps, begun := s.endBegun, stall := none
      r := { s.w.r with lat := lat } } } := by
  unfold State.advanced State.retire
  dsimp only
  rw [State.keepHolds_parked, State.retiring_parked]
  have hp := s.pushHolds_frame i (s.active i) s.w
  obtain ⟨lat, h⟩ := hp
  rw [h]
  simp only [if_true]
  obtain ⟨a, b, p, n, ps, hr⟩ := Wave.retire_frame (({ s.w with r := { s.w.r with lat := lat } } : Wave).goTo s.run (s.pc + 8))
    s.w.table s.run s.pc
  rw [hr]
  exact ⟨_, a, b, p, n, ps, lat, rfl⟩

/-- An issue event without an effect of its own keeps the canonical form of memories. -/
theorem State.advanced_memWf (s : State) (i : Instr) (h : s.memWf) : (s.advanced i).memWf := by
  obtain ⟨c, a, b, p, n, ps, lat, e⟩ := s.advanced_frame i
  rw [e]
  exact h

/-! ### Checks of accesses -/

theorem foldl_min_le (cs : List (Nat × W64 × Chk)) (m : Nat) : cs.foldl (fun m c => min m c.2.2.failStep) m ≤ m := by
  induction cs generalizing m with
  | nil => exact Nat.le_refl _
  | cons c cs ih => exact Nat.le_trans (ih _) (Nat.min_le_left _ _)

/-- When every check passes, no access fails. -/
theorem firstFail_none (cs : List (Nat × W64 × Chk)) (h : ∀ c ∈ cs, ∃ p, c.2.2 = .ok p) : firstFail cs = none := by
  have go : ∀ (cs : List (Nat × W64 × Chk)), (∀ c ∈ cs, ∃ p, c.2.2 = .ok p) → cs.foldl (fun m c => min m c.2.2.failStep) 6 = 6 := by
    intro cs
    induction cs with
    | nil => intro _; rfl
    | cons c cs ih =>
      intro h
      obtain ⟨p, e⟩ := h c (by simp)
      rw [List.foldl_cons, e]
      exact ih fun d hd => h d (by simp [hd])
  unfold firstFail
  simp only [go cs h, if_true]

/-- The places of accesses that all passed, in their order. -/
theorem okPlaces_map (ls : List Nat) (addr : Nat → W64) (p : Nat → Place) :
    okPlaces (ls.map fun l => (l, addr l, .ok (p l))) = ls.map fun l => (l, addr l, p l) := by
  induction ls with
  | nil => rfl
  | cons l ls ih =>
    show (l, addr l, p l) :: okPlaces _ = _
    rw [ih]
    rfl

/-- The lane that a failed access names is one that accesses. -/
theorem firstFail_mem (cs : List (Nat × W64 × Chk)) (c : Nat × W64 × Chk) (h : firstFail cs = some c) : c ∈ cs := by
  unfold firstFail at h
  dsimp only at h
  split at h
  · cases h
  · exact List.mem_of_find?_eq_some h

end Machine
end Sys2Proof
end

