-- ==== Sys2Proof/Laws/PerInstr.lean ====
section
/-! SUPPORT. Statements made for every instruction, one lemma per constructor. Kind: what stands between a word of Ewesis 1 and an
event of the part. -/

namespace Sys2Proof
open Machine

/-- An instruction is a word, or it is an event: then it has no fields, no format X, no encoding, closes no region of itself,
and is neither wave-convergent nor quarter-level. -/
def Laws.Kind.Statement (i : Instr) : Prop :=
  i.isWord = true ∨ i.isWord = false ∧ i.fields = none ∧ i.xOp = none ∧ i.encodeNat = none ∧ i.closes = false ∧
    i.convergent = false ∧ i.quarter = false

theorem Laws.Kind.add (f : F) (ty : Ty) (sat : Bool) : Laws.Kind.Statement (.add f ty sat) := .inl rfl
theorem Laws.Kind.sub (f : F) (ty : Ty) (sat : Bool) : Laws.Kind.Statement (.sub f ty sat) := .inl rfl
theorem Laws.Kind.mul (f : F) (ty : Ty) (sat : Bool) : Laws.Kind.Statement (.mul f ty sat) := .inl rfl
theorem Laws.Kind.mulhi (f : F) (ty : Ty) : Laws.Kind.Statement (.mulhi f ty) := .inl rfl
theorem Laws.Kind.mad (f : F) (ty : Ty) (sat : Bool) : Laws.Kind.Statement (.mad f ty sat) := .inl rfl
theorem Laws.Kind.min (f : F) (ty : Ty) : Laws.Kind.Statement (.min f ty) := .inl rfl
theorem Laws.Kind.max (f : F) (ty : Ty) : Laws.Kind.Statement (.max f ty) := .inl rfl
theorem Laws.Kind.abs (f : F) (ty : Ty) (sat : Bool) : Laws.Kind.Statement (.abs f ty sat) := .inl rfl
theorem Laws.Kind.neg (f : F) (ty : Ty) (sat : Bool) : Laws.Kind.Statement (.neg f ty sat) := .inl rfl
theorem Laws.Kind.div (f : F) (ty : Ty) (sat : Bool) : Laws.Kind.Statement (.div f ty sat) := .inl rfl
theorem Laws.Kind.rem (f : F) (ty : Ty) : Laws.Kind.Statement (.rem f ty) := .inl rfl
theorem Laws.Kind.lea (f : F) (ty : Ty) (sx : Bool) (sh : BitVec 3) : Laws.Kind.Statement (.lea f ty sx sh) := .inl rfl
theorem Laws.Kind.mov (f : F) (ty : Ty) : Laws.Kind.Statement (.mov f ty) := .inl rfl
theorem Laws.Kind.movi (f : F) (imm : BitVec 21) : Laws.Kind.Statement (.movi f imm) := .inl rfl
theorem Laws.Kind.popc (f : F) (ty : Ty) : Laws.Kind.Statement (.popc f ty) := .inl rfl
theorem Laws.Kind.clz (f : F) (ty : Ty) : Laws.Kind.Statement (.clz f ty) := .inl rfl
theorem Laws.Kind.ctz (f : F) (ty : Ty) : Laws.Kind.Statement (.ctz f ty) := .inl rfl
theorem Laws.Kind.brev (f : F) (ty : Ty) : Laws.Kind.Statement (.brev f ty) := .inl rfl
theorem Laws.Kind.bfe (f : F) (sx : Bool) (pos len : BitVec 5) : Laws.Kind.Statement (.bfe f sx pos len) := .inl rfl
theorem Laws.Kind.bfi (f : F) (pos len : BitVec 5) : Laws.Kind.Statement (.bfi f pos len) := .inl rfl
theorem Laws.Kind.bperm (f : F) : Laws.Kind.Statement (.bperm f) := .inl rfl
theorem Laws.Kind.ldvr (f : F) (k : BitVec 8) : Laws.Kind.Statement (.ldvr f k) := .inl rfl
theorem Laws.Kind.stvr (f : F) (k : BitVec 8) : Laws.Kind.Statement (.stvr f k) := .inl rfl
theorem Laws.Kind.addc (f : F) (ty : Ty) : Laws.Kind.Statement (.addc f ty) := .inl rfl
theorem Laws.Kind.and (f : F) (ty : Ty) : Laws.Kind.Statement (.and f ty) := .inl rfl
theorem Laws.Kind.or (f : F) (ty : Ty) : Laws.Kind.Statement (.or f ty) := .inl rfl
theorem Laws.Kind.xor (f : F) (ty : Ty) : Laws.Kind.Statement (.xor f ty) := .inl rfl
theorem Laws.Kind.andn (f : F) (ty : Ty) : Laws.Kind.Statement (.andn f ty) := .inl rfl
theorem Laws.Kind.not (f : F) (ty : Ty) : Laws.Kind.Statement (.not f ty) := .inl rfl
theorem Laws.Kind.shl (f : F) (ty : Ty) : Laws.Kind.Statement (.shl f ty) := .inl rfl
theorem Laws.Kind.shr (f : F) (ty : Ty) : Laws.Kind.Statement (.shr f ty) := .inl rfl
theorem Laws.Kind.sar (f : F) (ty : Ty) : Laws.Kind.Statement (.sar f ty) := .inl rfl
theorem Laws.Kind.rotl (f : F) (ty : Ty) : Laws.Kind.Statement (.rotl f ty) := .inl rfl
theorem Laws.Kind.fsh (f : F) (ty : Ty) : Laws.Kind.Statement (.fsh f ty) := .inl rfl
theorem Laws.Kind.icmp (f : F) (ty : Ty) (cond : ICond) : Laws.Kind.Statement (.icmp f ty cond) := .inl rfl
theorem Laws.Kind.fcmp (f : F) (fmt : Fmt) (cond : FCond) : Laws.Kind.Statement (.fcmp f fmt cond) := .inl rfl
theorem Laws.Kind.sel (f : F) (ty : Ty) : Laws.Kind.Statement (.sel f ty) := .inl rfl
theorem Laws.Kind.plog (f : F) (tt : BitVec 8) : Laws.Kind.Statement (.plog f tt) := .inl rfl
theorem Laws.Kind.ballot (f : F) : Laws.Kind.Statement (.ballot f) := .inl rfl
theorem Laws.Kind.vote (f : F) (mode : VMode) : Laws.Kind.Statement (.vote f mode) := .inl rfl
theorem Laws.Kind.rfal (f : F) (ty : Ty) : Laws.Kind.Statement (.rfal f ty) := .inl rfl
theorem Laws.Kind.bcast (f : F) (ty : Ty) (lane : BitVec 5) : Laws.Kind.Statement (.bcast f ty lane) := .inl rfl
theorem Laws.Kind.shfl (f : F) (ty : Ty) (mode : ShMode) : Laws.Kind.Statement (.shfl f ty mode) := .inl rfl
theorem Laws.Kind.fadd (f : F) (fmt : Fmt) (rnd : Rnd) : Laws.Kind.Statement (.fadd f fmt rnd) := .inl rfl
theorem Laws.Kind.fsub (f : F) (fmt : Fmt) (rnd : Rnd) : Laws.Kind.Statement (.fsub f fmt rnd) := .inl rfl
theorem Laws.Kind.fmul (f : F) (fmt : Fmt) (rnd : Rnd) : Laws.Kind.Statement (.fmul f fmt rnd) := .inl rfl
theorem Laws.Kind.ffma (f : F) (fmt : Fmt) (rnd : Rnd) : Laws.Kind.Statement (.ffma f fmt rnd) := .inl rfl
theorem Laws.Kind.fmin (f : F) (fmt : Fmt) : Laws.Kind.Statement (.fmin f fmt) := .inl rfl
theorem Laws.Kind.fmax (f : F) (fmt : Fmt) : Laws.Kind.Statement (.fmax f fmt) := .inl rfl
theorem Laws.Kind.fdiv (f : F) (fmt : Fmt) (rnd : Rnd) : Laws.Kind.Statement (.fdiv f fmt rnd) := .inl rfl
theorem Laws.Kind.fsqrt (f : F) (fmt : Fmt) (rnd : Rnd) : Laws.Kind.Statement (.fsqrt f fmt rnd) := .inl rfl
theorem Laws.Kind.frcp (f : F) (rnd : Rnd) : Laws.Kind.Statement (.frcp f rnd) := .inl rfl
theorem Laws.Kind.frsq (f : F) (rnd : Rnd) : Laws.Kind.Statement (.frsq f rnd) := .inl rfl
theorem Laws.Kind.fexp2 (f : F) (rnd : Rnd) : Laws.Kind.Statement (.fexp2 f rnd) := .inl rfl
theorem Laws.Kind.flog2 (f : F) (rnd : Rnd) : Laws.Kind.Statement (.flog2 f rnd) := .inl rfl
theorem Laws.Kind.fsin (f : F) (rnd : Rnd) : Laws.Kind.Statement (.fsin f rnd) := .inl rfl
theorem Laws.Kind.fcos (f : F) (rnd : Rnd) : Laws.Kind.Statement (.fcos f rnd) := .inl rfl
theorem Laws.Kind.fclass (f : F) (fmt : Fmt) : Laws.Kind.Statement (.fclass f fmt) := .inl rfl
theorem Laws.Kind.fscale (f : F) (fmt : Fmt) (rnd : Rnd) : Laws.Kind.Statement (.fscale f fmt rnd) := .inl rfl
theorem Laws.Kind.cclr (f : F) : Laws.Kind.Statement (.cclr f) := .inl rfl
theorem Laws.Kind.cadd (f : F) (fmt : Fmt) : Laws.Kind.Statement (.cadd f fmt) := .inl rfl
theorem Laws.Kind.cfma (f : F) (fmt : Fmt) : Laws.Kind.Statement (.cfma f fmt) := .inl rfl
theorem Laws.Kind.crd (f : F) (fmt : Fmt) (rnd : Rnd) (clr : Bool) : Laws.Kind.Statement (.crd f fmt rnd clr) := .inl rfl
theorem Laws.Kind.cvt (f : F) (dfmt sfmt : Fmt) : Laws.Kind.Statement (.cvt f dfmt sfmt) := .inl rfl
theorem Laws.Kind.cvtsr (f : F) (dfmt sfmt : Fmt) : Laws.Kind.Statement (.cvtsr f dfmt sfmt) := .inl rfl
theorem Laws.Kind.pk (f : F) (dfmt sfmt : Fmt) : Laws.Kind.Statement (.pk f dfmt sfmt) := .inl rfl
theorem Laws.Kind.upk (f : F) (dfmt sfmt : Fmt) : Laws.Kind.Statement (.upk f dfmt sfmt) := .inl rfl
theorem Laws.Kind.rand (f : F) (w32 : Bool) : Laws.Kind.Statement (.rand f w32) := .inl rfl
theorem Laws.Kind.br (f : F) (imm : BitVec 21) : Laws.Kind.Statement (.br f imm) := .inl rfl
theorem Laws.Kind.jmp (f : F) : Laws.Kind.Statement (.jmp f) := .inl rfl
theorem Laws.Kind.call (f : F) (imm : BitVec 21) : Laws.Kind.Statement (.call f imm) := .inl rfl
theorem Laws.Kind.ret (f : F) : Laws.Kind.Statement (.ret f) := .inl rfl
theorem Laws.Kind.brx (f : F) (n : BitVec 12) : Laws.Kind.Statement (.brx f n) := .inl rfl
theorem Laws.Kind.exit (f : F) : Laws.Kind.Statement (.exit f) := .inl rfl
theorem Laws.Kind.nop (f : F) : Laws.Kind.Statement (.nop f) := .inl rfl
theorem Laws.Kind.movl (x : X) : Laws.Kind.Statement (.movl x) := .inl rfl
theorem Laws.Kind.addX (x : X) : Laws.Kind.Statement (.addX x) := .inl rfl
theorem Laws.Kind.brX (x : X) : Laws.Kind.Statement (.brX x) := .inl rfl
theorem Laws.Kind.callX (x : X) : Laws.Kind.Statement (.callX x) := .inl rfl
theorem Laws.Kind.ldX (x : X) : Laws.Kind.Statement (.ldX x) := .inl rfl
theorem Laws.Kind.stX (x : X) : Laws.Kind.Statement (.stX x) := .inl rfl
theorem Laws.Kind.pairWord (a b : Slot) : Laws.Kind.Statement (.pairWord a b) := .inl rfl
theorem Laws.Kind.ld (f : F) (sz : Sz) (sp : Sp) (off : BitVec 16) : Laws.Kind.Statement (.ld f sz sp off) := .inl rfl
theorem Laws.Kind.st (f : F) (sz : Sz) (sp : Sp) (off : BitVec 16) : Laws.Kind.Statement (.st f sz sp off) := .inl rfl
theorem Laws.Kind.ldn (f : F) (sz : Sz) (sp : Sp) (off : BitVec 16) : Laws.Kind.Statement (.ldn f sz sp off) := .inl rfl
theorem Laws.Kind.stn (f : F) (sz : Sz) (sp : Sp) (off : BitVec 16) : Laws.Kind.Statement (.stn f sz sp off) := .inl rfl
theorem Laws.Kind.touch (f : F) (wr : Bool) (off : BitVec 16) : Laws.Kind.Statement (.touch f wr off) := .inl rfl
theorem Laws.Kind.pf (f : F) (lvl : PfLvl) (off : BitVec 16) : Laws.Kind.Statement (.pf f lvl off) := .inl rfl
theorem Laws.Kind.gth (f : F) (sz : Sz) (sp : Sp) (acq : Bool) (scope : Scope) : Laws.Kind.Statement (.gth f sz sp acq scope) := .inl rfl
theorem Laws.Kind.sct (f : F) (sz : Sz) (sp : Sp) (rel : Bool) (scope : Scope) : Laws.Kind.Statement (.sct f sz sp rel scope) := .inl rfl
theorem Laws.Kind.cst (f : F) (sz : Sz) (sp : Sp) (rel : Bool) (scope : Scope) : Laws.Kind.Statement (.cst f sz sp rel scope) := .inl rfl
theorem Laws.Kind.xld (f : F) (sz : Sz) (sp : Sp) (acq : Bool) (scope : Scope) : Laws.Kind.Statement (.xld f sz sp acq scope) := .inl rfl
theorem Laws.Kind.cpy (f : F) (acq rel : Bool) (scope : Scope) : Laws.Kind.Statement (.cpy f acq rel scope) := .inl rfl
theorem Laws.Kind.tagwait (f : F) (any : Bool) (imm : BitVec 16) : Laws.Kind.Statement (.tagwait f any imm) := .inl rfl
theorem Laws.Kind.tagffr (f : F) : Laws.Kind.Statement (.tagffr f) := .inl rfl
theorem Laws.Kind.tagclr (f : F) (imm : BitVec 16) : Laws.Kind.Statement (.tagclr f imm) := .inl rfl
theorem Laws.Kind.atom (f : F) (op : AOp) (dt : DT) (sc : Bool) : Laws.Kind.Statement (.atom f op dt sc) := .inl rfl
theorem Laws.Kind.red (f : F) (op : AOp) (dt : DT) : Laws.Kind.Statement (.red f op dt) := .inl rfl
theorem Laws.Kind.aord (f : F) (op : AOp) (dt : DT) (dm acq rel : Bool) (scope : Scope) : Laws.Kind.Statement (.aord f op dt dm acq rel scope) := .inl rfl
theorem Laws.Kind.afree (f : F) (op : AOp) (dt : DT) (dm acq rel : Bool) (scope : Scope) : Laws.Kind.Statement (.afree f op dt dm acq rel scope) := .inl rfl
theorem Laws.Kind.barv (f : F) (dm : Bool) (scope : Scope) : Laws.Kind.Statement (.barv f dm scope) := .inl rfl
theorem Laws.Kind.barvInit (f : F) (dm : Bool) (scope : Scope) : Laws.Kind.Statement (.barvInit f dm scope) := .inl rfl
theorem Laws.Kind.barw (f : F) (dm : Bool) (scope : Scope) : Laws.Kind.Statement (.barw f dm scope) := .inl rfl
theorem Laws.Kind.barwWait (f : F) (dm : Bool) (scope : Scope) : Laws.Kind.Statement (.barwWait f dm scope) := .inl rfl
theorem Laws.Kind.fpost (f : F) (dm : Bool) (scope : Scope) : Laws.Kind.Statement (.fpost f dm scope) := .inl rfl
theorem Laws.Kind.fpostInit (f : F) (dm : Bool) (scope : Scope) : Laws.Kind.Statement (.fpostInit f dm scope) := .inl rfl
theorem Laws.Kind.fwait (f : F) (dm : Bool) (scope : Scope) : Laws.Kind.Statement (.fwait f dm scope) := .inl rfl
theorem Laws.Kind.olacq (f : F) (dm : Bool) (scope : Scope) : Laws.Kind.Statement (.olacq f dm scope) := .inl rfl
theorem Laws.Kind.olacqFree (f : F) (dm : Bool) (scope : Scope) : Laws.Kind.Statement (.olacqFree f dm scope) := .inl rfl
theorem Laws.Kind.olrel (f : F) (dm : Bool) (scope : Scope) : Laws.Kind.Statement (.olrel f dm scope) := .inl rfl
theorem Laws.Kind.olrelPass (f : F) (dm : Bool) (scope : Scope) : Laws.Kind.Statement (.olrelPass f dm scope) := .inl rfl
theorem Laws.Kind.olrelInit (f : F) (dm : Bool) (scope : Scope) (free : Bool) : Laws.Kind.Statement (.olrelInit f dm scope free) := .inl rfl
theorem Laws.Kind.olrelFree (f : F) (dm : Bool) (scope : Scope) : Laws.Kind.Statement (.olrelFree f dm scope) := .inl rfl
theorem Laws.Kind.wreg (f : F) (dm hold : Bool) (sub : BitVec 3) : Laws.Kind.Statement (.wreg f dm hold sub) := .inl rfl
theorem Laws.Kind.wunreg (f : F) (dm hold : Bool) (sub : BitVec 3) : Laws.Kind.Statement (.wunreg f dm hold sub) := .inl rfl
theorem Laws.Kind.yield (f : F) : Laws.Kind.Statement (.yield f) := .inl rfl
theorem Laws.Kind.fence (f : F) (scope : Scope) : Laws.Kind.Statement (.fence f scope) := .inl rfl
theorem Laws.Kind.sweep (f : F) (scope : Scope) : Laws.Kind.Statement (.sweep f scope) := .inl rfl
theorem Laws.Kind.qpush (f : F) (dm : Bool) (scope : Scope) : Laws.Kind.Statement (.qpush f dm scope) := .inl rfl
theorem Laws.Kind.qpushInit (f : F) (dm : Bool) (scope : Scope) : Laws.Kind.Statement (.qpushInit f dm scope) := .inl rfl
theorem Laws.Kind.qpop (f : F) (dm : Bool) (scope : Scope) : Laws.Kind.Statement (.qpop f dm scope) := .inl rfl
theorem Laws.Kind.fork (f : F) : Laws.Kind.Statement (.fork f) := .inl rfl
theorem Laws.Kind.join (f : F) : Laws.Kind.Statement (.join f) := .inl rfl
theorem Laws.Kind.vstat (f : F) (sel : VSel) : Laws.Kind.Statement (.vstat f sel) := .inl rfl
theorem Laws.Kind.launch (f : F) : Laws.Kind.Statement (.launch f) := .inl rfl
theorem Laws.Kind.cancel (f : F) : Laws.Kind.Statement (.cancel f) := .inl rfl
theorem Laws.Kind.lcount (f : F) (nowait : Bool) : Laws.Kind.Statement (.lcount f nowait) := .inl rfl
theorem Laws.Kind.migrate (f : F) : Laws.Kind.Statement (.migrate f) := .inl rfl
theorem Laws.Kind.mma (f : F) (fmt : Fmt) (acf : AccF) (shape : Shape) (scA scB : Bool) : Laws.Kind.Statement (.mma f fmt acf shape scA scB) := .inl rfl
theorem Laws.Kind.mz (f : F) : Laws.Kind.Statement (.mz f) := .inl rfl
theorem Laws.Kind.mld (f : F) (rows : BitVec 6) (rsz : Rsz) (sc : Bool) : Laws.Kind.Statement (.mld f rows rsz sc) := .inl rfl
theorem Laws.Kind.mst (f : F) (rows : BitVec 6) (rsz : Rsz) (sc : Bool) : Laws.Kind.Statement (.mst f rows rsz sc) := .inl rfl
theorem Laws.Kind.mtov (f : F) (part : BitVec 2) : Laws.Kind.Statement (.mtov f part) := .inl rfl
theorem Laws.Kind.vtom (f : F) (part : BitVec 2) : Laws.Kind.Statement (.vtom f part) := .inl rfl
theorem Laws.Kind.msync (f : F) : Laws.Kind.Statement (.msync f) := .inl rfl
theorem Laws.Kind.mmas (f : F) (fmt : Fmt) (acf : AccF) (shape : Shape) (scA scB : Bool) : Laws.Kind.Statement (.mmas f fmt acf shape scA scB) := .inl rfl
theorem Laws.Kind.shcom (f : F) : Laws.Kind.Statement (.shcom f) := .inl rfl
theorem Laws.Kind.shdis (f : F) : Laws.Kind.Statement (.shdis f) := .inl rfl
theorem Laws.Kind.dsetPt (f : F) : Laws.Kind.Statement (.dsetPt f) := .inl rfl
theorem Laws.Kind.dsetU (f : F) : Laws.Kind.Statement (.dsetU f) := .inl rfl
theorem Laws.Kind.dld (f : F) (sc : Bool) : Laws.Kind.Statement (.dld f sc) := .inl rfl
theorem Laws.Kind.dst (f : F) (sc : Bool) : Laws.Kind.Statement (.dst f sc) := .inl rfl
theorem Laws.Kind.dadd (f : F) : Laws.Kind.Statement (.dadd f) := .inl rfl
theorem Laws.Kind.dsub (f : F) : Laws.Kind.Statement (.dsub f) := .inl rfl
theorem Laws.Kind.dmul (f : F) : Laws.Kind.Statement (.dmul f) := .inl rfl
theorem Laws.Kind.ddiv (f : F) : Laws.Kind.Statement (.ddiv f) := .inl rfl
theorem Laws.Kind.daff (f : F) : Laws.Kind.Statement (.daff f) := .inl rfl
theorem Laws.Kind.dmin (f : F) : Laws.Kind.Statement (.dmin f) := .inl rfl
theorem Laws.Kind.dmax (f : F) : Laws.Kind.Statement (.dmax f) := .inl rfl
theorem Laws.Kind.dmap (f : F) (fn : DFn) : Laws.Kind.Statement (.dmap f fn) := .inl rfl
theorem Laws.Kind.dmom (f : F) (sel : MSel) : Laws.Kind.Statement (.dmom f sel) := .inl rfl
theorem Laws.Kind.dqnt (f : F) (lvl : QLvl) : Laws.Kind.Statement (.dqnt f lvl) := .inl rfl
theorem Laws.Kind.dtagNew (f : F) : Laws.Kind.Statement (.dtagNew f) := .inl rfl
theorem Laws.Kind.dtagSet (f : F) : Laws.Kind.Statement (.dtagSet f) := .inl rfl
theorem Laws.Kind.dtagGet (f : F) : Laws.Kind.Statement (.dtagGet f) := .inl rfl
theorem Laws.Kind.dmix (f : F) : Laws.Kind.Statement (.dmix f) := .inl rfl
theorem Laws.Kind.dsamp (f : F) : Laws.Kind.Statement (.dsamp f) := .inl rfl
theorem Laws.Kind.xroute (f : F) : Laws.Kind.Statement (.xroute f) := .inl rfl
theorem Laws.Kind.xrel (f : F) : Laws.Kind.Statement (.xrel f) := .inl rfl
theorem Laws.Kind.xcnt (f : F) : Laws.Kind.Statement (.xcnt f) := .inl rfl
theorem Laws.Kind.xver (f : F) : Laws.Kind.Statement (.xver f) := .inl rfl
theorem Laws.Kind.trap (f : F) (imm : BitVec 16) : Laws.Kind.Statement (.trap f imm) := .inl rfl
theorem Laws.Kind.tret (f : F) : Laws.Kind.Statement (.tret f) := .inl rfl
theorem Laws.Kind.rsr (f : F) : Laws.Kind.Statement (.rsr f) := .inl rfl
theorem Laws.Kind.wsr (f : F) : Laws.Kind.Statement (.wsr f) := .inl rfl
theorem Laws.Kind.ienter (f : F) : Laws.Kind.Statement (.ienter f) := .inl rfl
theorem Laws.Kind.brk (f : F) (imm : BitVec 16) : Laws.Kind.Statement (.brk f imm) := .inl rfl
theorem Laws.Kind.cachectl (f : F) (op : CacheOp) : Laws.Kind.Statement (.cachectl f op) := .inl rfl
theorem Laws.Kind.parkedGroupRejoin (blk wv : Nat) : Laws.Kind.Statement (.parkedGroupRejoin blk wv) := .inr ⟨rfl, rfl, rfl, rfl, rfl, rfl, rfl⟩
theorem Laws.Kind.engineLand (cmd : Nat) : Laws.Kind.Statement (.engineLand cmd) := .inr ⟨rfl, rfl, rfl, rfl, rfl, rfl, rfl⟩
theorem Laws.Kind.roundRequestArrive (req : Nat) : Laws.Kind.Statement (.roundRequestArrive req) := .inr ⟨rfl, rfl, rfl, rfl, rfl, rfl, rfl⟩
theorem Laws.Kind.memoryReply (n : Nat) : Laws.Kind.Statement (.memoryReply n) := .inr ⟨rfl, rfl, rfl, rfl, rfl, rfl, rfl⟩
theorem Laws.Kind.gateAdmit (req : Nat) : Laws.Kind.Statement (.gateAdmit req) := .inr ⟨rfl, rfl, rfl, rfl, rfl, rfl, rfl⟩
theorem Laws.Kind.replayLogIndex (ctx : Nat) : Laws.Kind.Statement (.replayLogIndex ctx) := .inr ⟨rfl, rfl, rfl, rfl, rfl, rfl, rfl⟩
theorem Laws.Kind.sweepProbeReturn (id : Nat) : Laws.Kind.Statement (.sweepProbeReturn id) := .inr ⟨rfl, rfl, rfl, rfl, rfl, rfl, rfl⟩
theorem Laws.Kind.instanceEnd (lvl : Lvl) (id : Nat) : Laws.Kind.Statement (.instanceEnd lvl id) := .inr ⟨rfl, rfl, rfl, rfl, rfl, rfl, rfl⟩
theorem Laws.Kind.waveEndAfterLaunches (blk wv : Nat) : Laws.Kind.Statement (.waveEndAfterLaunches blk wv) := .inr ⟨rfl, rfl, rfl, rfl, rfl, rfl, rfl⟩
theorem Laws.Kind.launchStart (id : Nat) : Laws.Kind.Statement (.launchStart id) := .inr ⟨rfl, rfl, rfl, rfl, rfl, rfl, rfl⟩
theorem Laws.Kind.stepBoundary (id : Nat) : Laws.Kind.Statement (.stepBoundary id) := .inr ⟨rfl, rfl, rfl, rfl, rfl, rfl, rfl⟩
theorem Laws.Kind.blockPlace (die : Nat) : Laws.Kind.Statement (.blockPlace die) := .inr ⟨rfl, rfl, rfl, rfl, rfl, rfl, rfl⟩
theorem Laws.Kind.splitChange (die core : Nat) : Laws.Kind.Statement (.splitChange die core) := .inr ⟨rfl, rfl, rfl, rfl, rfl, rfl, rfl⟩
theorem Laws.Kind.inheritanceSave (die holder : Nat) : Laws.Kind.Statement (.inheritanceSave die holder) := .inr ⟨rfl, rfl, rfl, rfl, rfl, rfl, rfl⟩
theorem Laws.Kind.packageCycleDetect : Laws.Kind.Statement .packageCycleDetect := .inr ⟨rfl, rfl, rfl, rfl, rfl, rfl, rfl⟩
theorem Laws.Kind.priorityPropagate : Laws.Kind.Statement .priorityPropagate := .inr ⟨rfl, rfl, rfl, rfl, rfl, rfl, rfl⟩
theorem Laws.Kind.stallWatchdogExpiry (blk wv : Nat) : Laws.Kind.Statement (.stallWatchdogExpiry blk wv) := .inr ⟨rfl, rfl, rfl, rfl, rfl, rfl, rfl⟩
theorem Laws.Kind.pipelinePressureInterval (die : Nat) : Laws.Kind.Statement (.pipelinePressureInterval die) := .inr ⟨rfl, rfl, rfl, rfl, rfl, rfl, rfl⟩
theorem Laws.Kind.tow (blk core : Nat) : Laws.Kind.Statement (.tow blk core) := .inr ⟨rfl, rfl, rfl, rfl, rfl, rfl, rfl⟩
theorem Laws.Kind.towForwardRemove (blk : Nat) : Laws.Kind.Statement (.towForwardRemove blk) := .inr ⟨rfl, rfl, rfl, rfl, rfl, rfl, rfl⟩
theorem Laws.Kind.tokenBucketRefill : Laws.Kind.Statement .tokenBucketRefill := .inr ⟨rfl, rfl, rfl, rfl, rfl, rfl, rfl⟩
theorem Laws.Kind.pendingTrapTake (blk wv : Nat) : Laws.Kind.Statement (.pendingTrapTake blk wv) := .inr ⟨rfl, rfl, rfl, rfl, rfl, rfl, rfl⟩
theorem Laws.Kind.strikeReport (die core : Nat) : Laws.Kind.Statement (.strikeReport die core) := .inr ⟨rfl, rfl, rfl, rfl, rfl, rfl, rfl⟩
theorem Laws.Kind.regionRelease (blk wv : Nat) : Laws.Kind.Statement (.regionRelease blk wv) := .inr ⟨rfl, rfl, rfl, rfl, rfl, rfl, rfl⟩
theorem Laws.Kind.pinWindowExpiry (blk wv : Nat) : Laws.Kind.Statement (.pinWindowExpiry blk wv) := .inr ⟨rfl, rfl, rfl, rfl, rfl, rfl, rfl⟩
theorem Laws.Kind.forkReexecute (id : Nat) : Laws.Kind.Statement (.forkReexecute id) := .inr ⟨rfl, rfl, rfl, rfl, rfl, rfl, rfl⟩
theorem Laws.Kind.sectorPoison (pa : Nat) : Laws.Kind.Statement (.sectorPoison pa) := .inr ⟨rfl, rfl, rfl, rfl, rfl, rfl, rfl⟩
theorem Laws.Kind.errorRecordPlace (socket : Nat) (r : ErrRec) : Laws.Kind.Statement (.errorRecordPlace socket r) := .inr ⟨rfl, rfl, rfl, rfl, rfl, rfl, rfl⟩
theorem Laws.Kind.linkFlitResend (socket : Nat) (r : ErrRec) : Laws.Kind.Statement (.linkFlitResend socket r) := .inr ⟨rfl, rfl, rfl, rfl, rfl, rfl, rfl⟩
theorem Laws.Kind.faultRecordAppend (die entry : Nat) : Laws.Kind.Statement (.faultRecordAppend die entry) := .inr ⟨rfl, rfl, rfl, rfl, rfl, rfl, rfl⟩
theorem Laws.Kind.frespSupply (die entry : Nat) : Laws.Kind.Statement (.frespSupply die entry) := .inr ⟨rfl, rfl, rfl, rfl, rfl, rfl, rfl⟩
theorem Laws.Kind.frespNr (die entry : Nat) : Laws.Kind.Statement (.frespNr die entry) := .inr ⟨rfl, rfl, rfl, rfl, rfl, rfl, rfl⟩
theorem Laws.Kind.inval (len : W64) : Laws.Kind.Statement (.inval len) := .inr ⟨rfl, rfl, rfl, rfl, rfl, rfl, rfl⟩
theorem Laws.Kind.invalComplete : Laws.Kind.Statement .invalComplete := .inr ⟨rfl, rfl, rfl, rfl, rfl, rfl, rfl⟩
theorem Laws.Kind.migcmd (pa : W64) : Laws.Kind.Statement (.migcmd pa) := .inr ⟨rfl, rfl, rfl, rfl, rfl, rfl, rfl⟩
theorem Laws.Kind.migrationDone : Laws.Kind.Statement .migrationDone := .inr ⟨rfl, rfl, rfl, rfl, rfl, rfl, rfl⟩
theorem Laws.Kind.preempt (ctx : Nat) (val : W64) : Laws.Kind.Statement (.preempt ctx val) := .inr ⟨rfl, rfl, rfl, rfl, rfl, rfl, rfl⟩
theorem Laws.Kind.drainLimitExpiry (blk : Nat) : Laws.Kind.Statement (.drainLimitExpiry blk) := .inr ⟨rfl, rfl, rfl, rfl, rfl, rfl, rfl⟩
theorem Laws.Kind.blockSave (blk : Nat) : Laws.Kind.Statement (.blockSave blk) := .inr ⟨rfl, rfl, rfl, rfl, rfl, rfl, rfl⟩
theorem Laws.Kind.blockRestore (blk : Nat) : Laws.Kind.Statement (.blockRestore blk) := .inr ⟨rfl, rfl, rfl, rfl, rfl, rfl, rfl⟩
theorem Laws.Kind.kill (ctx : Nat) : Laws.Kind.Statement (.kill ctx) := .inr ⟨rfl, rfl, rfl, rfl, rfl, rfl, rfl⟩
theorem Laws.Kind.debugStateAccess (blk off : Nat) (wr : Option W64) : Laws.Kind.Statement (.debugStateAccess blk off wr) := .inr ⟨rfl, rfl, rfl, rfl, rfl, rfl, rfl⟩
theorem Laws.Kind.debugResume (blk : Nat) : Laws.Kind.Statement (.debugResume blk) := .inr ⟨rfl, rfl, rfl, rfl, rfl, rfl, rfl⟩
theorem Laws.Kind.rcfgWrite (ctx : Nat) (val : W64) : Laws.Kind.Statement (.rcfgWrite ctx val) := .inr ⟨rfl, rfl, rfl, rfl, rfl, rfl, rfl⟩
theorem Laws.Kind.prodWrite (ctx : Nat) (val : W64) : Laws.Kind.Statement (.prodWrite ctx val) := .inr ⟨rfl, rfl, rfl, rfl, rfl, rfl, rfl⟩
theorem Laws.Kind.packetIntake (ctx : Nat) : Laws.Kind.Statement (.packetIntake ctx) := .inr ⟨rfl, rfl, rfl, rfl, rfl, rfl, rfl⟩
theorem Laws.Kind.hcancel1 (ctx : Nat) (val : W64) : Laws.Kind.Statement (.hcancel1 ctx val) := .inr ⟨rfl, rfl, rfl, rfl, rfl, rfl, rfl⟩
theorem Laws.Kind.functionLevelResetVf (ctx : Nat) : Laws.Kind.Statement (.functionLevelResetVf ctx) := .inr ⟨rfl, rfl, rfl, rfl, rfl, rfl, rfl⟩
theorem Laws.Kind.functionLevelResetPf : Laws.Kind.Statement .functionLevelResetPf := .inr ⟨rfl, rfl, rfl, rfl, rfl, rfl, rfl⟩
theorem Laws.Kind.coldStart : Laws.Kind.Statement .coldStart := .inr ⟨rfl, rfl, rfl, rfl, rfl, rfl, rfl⟩
theorem Laws.Kind.recoveryLoad : Laws.Kind.Statement .recoveryLoad := .inr ⟨rfl, rfl, rfl, rfl, rfl, rfl, rfl⟩
theorem Laws.Kind.configRequest (req : ConfigReq) : Laws.Kind.Statement (.configRequest req) := .inr ⟨rfl, rfl, rfl, rfl, rfl, rfl, rfl⟩
theorem Laws.Kind.unsupportedRequest (req : Nat) : Laws.Kind.Statement (.unsupportedRequest req) := .inr ⟨rfl, rfl, rfl, rfl, rfl, rfl, rfl⟩
theorem Laws.Kind.hostApertureAccess (fn off : Nat) (wr : HostAcc) : Laws.Kind.Statement (.hostApertureAccess fn off wr) := .inr ⟨rfl, rfl, rfl, rfl, rfl, rfl, rfl⟩
theorem Laws.Kind.spdmGetMeasurements (index : Nat) (nonce : SpdmAsk) : Laws.Kind.Statement (.spdmGetMeasurements index nonce) := .inr ⟨rfl, rfl, rfl, rfl, rfl, rfl, rfl⟩
theorem Laws.Kind.spdmGetCertificate : Laws.Kind.Statement .spdmGetCertificate := .inr ⟨rfl, rfl, rfl, rfl, rfl, rfl, rfl⟩
theorem Laws.Kind.spdmChallenge (nonce : List Byte) : Laws.Kind.Statement (.spdmChallenge nonce) := .inr ⟨rfl, rfl, rfl, rfl, rfl, rfl, rfl⟩
theorem Laws.Kind.spdmKeyExchange (exch : List Byte) : Laws.Kind.Statement (.spdmKeyExchange exch) := .inr ⟨rfl, rfl, rfl, rfl, rfl, rfl, rfl⟩
theorem Laws.Kind.mbRaiseMinSvn : Laws.Kind.Statement .mbRaiseMinSvn := .inr ⟨rfl, rfl, rfl, rfl, rfl, rfl, rfl⟩
theorem Laws.Kind.mbReportMinSvn : Laws.Kind.Statement .mbReportMinSvn := .inr ⟨rfl, rfl, rfl, rfl, rfl, rfl, rfl⟩
theorem Laws.Kind.mbReservedCommand (cmd : W64) : Laws.Kind.Statement (.mbReservedCommand cmd) := .inr ⟨rfl, rfl, rfl, rfl, rfl, rfl, rfl⟩
theorem Laws.Kind.mtload (pa : W64) : Laws.Kind.Statement (.mtload pa) := .inr ⟨rfl, rfl, rfl, rfl, rfl, rfl, rfl⟩
theorem Laws.Kind.samplingInterval : Laws.Kind.Statement .samplingInterval := .inr ⟨rfl, rfl, rfl, rfl, rfl, rfl, rfl⟩
theorem Laws.Kind.versionSwitchCopyDone : Laws.Kind.Statement .versionSwitchCopyDone := .inr ⟨rfl, rfl, rfl, rfl, rfl, rfl, rfl⟩
theorem Laws.Kind.slotWritten (die : Nat) : Laws.Kind.Statement (.slotWritten die) := .inr ⟨rfl, rfl, rfl, rfl, rfl, rfl, rfl⟩
theorem Laws.Kind.graceExpiry (id : Nat) : Laws.Kind.Statement (.graceExpiry id) := .inr ⟨rfl, rfl, rfl, rfl, rfl, rfl, rfl⟩
theorem Laws.Kind.switchAbandon (die : Replica) : Laws.Kind.Statement (.switchAbandon die) := .inr ⟨rfl, rfl, rfl, rfl, rfl, rfl, rfl⟩
theorem Laws.Kind.decodeWindowWrite (n word : Nat) (val : W64) : Laws.Kind.Statement (.decodeWindowWrite n word val) := .inr ⟨rfl, rfl, rfl, rfl, rfl, rfl, rfl⟩
theorem Laws.Kind.reductionPartialCombine (n : Nat) (m : Machine.Meet) : Laws.Kind.Statement (.reductionPartialCombine n m) := .inr ⟨rfl, rfl, rfl, rfl, rfl, rfl, rfl⟩
theorem Laws.Kind.checkpointSave (report : W64) : Laws.Kind.Statement (.checkpointSave report) := .inr ⟨rfl, rfl, rfl, rfl, rfl, rfl, rfl⟩
theorem Laws.Kind.checkpointSaveDone : Laws.Kind.Statement .checkpointSaveDone := .inr ⟨rfl, rfl, rfl, rfl, rfl, rfl, rfl⟩
theorem Laws.Kind.checkpointRestore (report : W64) : Laws.Kind.Statement (.checkpointRestore report) := .inr ⟨rfl, rfl, rfl, rfl, rfl, rfl, rfl⟩
theorem Laws.Kind.errorBankClear (socket bank : Nat) : Laws.Kind.Statement (.errorBankClear socket bank) := .inr ⟨rfl, rfl, rfl, rfl, rfl, rfl, rfl⟩
theorem Laws.Kind.errsumRead (socket : Nat) : Laws.Kind.Statement (.errsumRead socket) := .inr ⟨rfl, rfl, rfl, rfl, rfl, rfl, rfl⟩
theorem Laws.Kind.xpstatRead : Laws.Kind.Statement .xpstatRead := .inr ⟨rfl, rfl, rfl, rfl, rfl, rfl, rfl⟩
theorem Laws.Kind.registerWrite (fn off : Nat) (val : Option W64) : Laws.Kind.Statement (.registerWrite fn off val) := .inr ⟨rfl, rfl, rfl, rfl, rfl, rfl, rfl⟩
theorem Laws.Kind.engineSourceRead (cmd : Nat) : Laws.Kind.Statement (.engineSourceRead cmd) := .inr ⟨rfl, rfl, rfl, rfl, rfl, rfl, rfl⟩
theorem Laws.Kind.powerOff : Laws.Kind.Statement .powerOff := .inr ⟨rfl, rfl, rfl, rfl, rfl, rfl, rfl⟩
theorem Laws.Kind.killCompletion (ctx : Nat) : Laws.Kind.Statement (.killCompletion ctx) := .inr ⟨rfl, rfl, rfl, rfl, rfl, rfl, rfl⟩
theorem Laws.Kind.checkpointRestoreDone : Laws.Kind.Statement .checkpointRestoreDone := .inr ⟨rfl, rfl, rfl, rfl, rfl, rfl, rfl⟩
theorem Laws.Kind.reserveStreamAccept (src strm : Nat) (data : List Host.Cell) : Laws.Kind.Statement (.reserveStreamAccept src strm data) := .inr ⟨rfl, rfl, rfl, rfl, rfl, rfl, rfl⟩
theorem Laws.Kind.spdmVersionNegotiation (versions : List Nat) : Laws.Kind.Statement (.spdmVersionNegotiation versions) := .inr ⟨rfl, rfl, rfl, rfl, rfl, rfl, rfl⟩
theorem Laws.Kind.ideKmKeyProgramming (strm : Nat) (key : Sealed) : Laws.Kind.Statement (.ideKmKeyProgramming strm key) := .inr ⟨rfl, rfl, rfl, rfl, rfl, rfl, rfl⟩

end Sys2Proof
end

