-- ==== Sys2Proof/Tests/Slice0.lean ====
section
/-! SUPPORT. Tests: what WellFormed refuses, words of every family from the encoding tables, single steps by hand calculation from
the rules, the first step from reset, and for every statement with hypotheses a state and operands that meet them. -/

namespace Sys2Proof
open Machine

set_option Elab.async false

/-! ### Small states

One wave with the largest allocation in context 1, lanes 0 and 31 running. Page k of the context's VAs: 0 code, 1 and 5 view pages that may be written, 2
sluice, 3 wharf, 4 fold (F32 add), with their bytes at PA 0x10000 × (k + 1). -/

def testPages : Memory :=
  let leaf (m : Memory) (k e : Nat) : Memory := Memory.setNum m (0x5000 + 8 * k) 8 (0x10000 * (k + 1) + e)
  leaf (leaf (leaf (leaf (leaf (placeWord [] 0) 1 (32 + 3)) 2 (32 + 8 + 3)) 3 (32 + 12 + 3)) 4 (2 * 2 ^ 59 + 32 + 4 + 3)) 5 (32 + 3)

/-- Objects on the sluice page, one a line: a barrier of two, flags, an ordered lock of four (free, then held), a free lock, a
queue of two slots of 16 bytes at line 8, and its slots. -/
def testObjects : Memory :=
  let line (m : Memory) (k : Nat) (bs : List Byte) : Memory := Memory.setBytes m (0x30000 + 64 * k) bs
  let m := line testPages 0 ({ Bar.zero with npart := 2 } : Bar).line
  let m := line m 1 (leBytes 1 2)
  let m := line m 2 (leBytes 1 3 ++ leBytes 3 0 ++ leBytes 4 4)
  let m := line m 3 (leBytes 2 0x103 ++ leBytes 2 0 ++ leBytes 4 4)
  let m := line m 4 (leBytes 1 5)
  let m := line m 5 (leBytes 1 4 ++ leBytes 1 4 ++ leBytes 1 1 ++ leBytes 5 0 ++ leBytes 8 0x20200)
  Memory.setNum m 0x30210 8 1

def testRow (n : Nat) (f : Nat → Nat) : SMap W32 := (List.range 32).map fun l => (32 * n + l, BitVec.ofNat 32 (f l))

def testState (s v : SMap W32) (p : SMap Mask) : State :=
  { State.reset.setPf (Pf.ctx 1 0) 0x1000 with
    w := { bootWave with exited := 0x7FFFFFFE, r := { Regs.zero with s := s, v := v, p := p } }
    b := bootBlock, run := 0x80000001, mem := testObjects, handles := 2 }

/-- v4:v5 of lane l is the VA 0x10000 + 64 l; s4:s5 is 0x10000; s6:s7 is the VA of the barrier. -/
def base : State := testState [(4, 0x10000), (6, 0x20000)] (testRow 4 fun l => 0x10000 + 64 * l) []

def F0 : F := ⟨.always, .v 2, .v 4, .v 6, .v 8, 0⟩

def nextOf : Host.Outcome State Fault Refusal → Option State
  | .next t => some t
  | _ => none

/-! ### Hypotheses as Booleans -/

def issues (s : State) (i : Instr) : Bool :=
  s.w.st == .running && s.run != 0 && (!i.closes || s.w.region.isNone) && (s.boundsFail i).isNone && !s.waitsFor i &&
  decide (s.wordsInFlight < Config.memWords)

theorem issues_of {s : State} {i : Instr} (h : issues s i = true) : s.Issues i := by
  simp only [issues, Bool.and_eq_true, beq_iff_eq, bne_iff_ne, Bool.or_eq_true, Bool.not_eq_true', Option.isNone_iff_eq_none] at h
  obtain ⟨⟨⟨⟨⟨h1, h2⟩, h3⟩, h4⟩, h5⟩, h6⟩ := h
  exact ⟨h1, h2, fun hc => h3.resolve_left (by simp [hc]), h4, h5, fun _ => of_decide_eq_true h6⟩

def goes (s : State) (i : Instr) : Bool := issues s i && s.active i != 0

theorem goes_of {s : State} {i : Instr} (h : goes s i = true) : s.Issues i ∧ s.active i ≠ 0 := by
  simp only [goes, Bool.and_eq_true, bne_iff_ne] at h
  exact ⟨issues_of h.1, h.2⟩

/-- Nothing of the wave is outstanding, and its context's messages are not limited. -/
def quiet (s : State) : Bool :=
  s.cmds == [] && s.reqs == [] && s.gate == [] && s.replies == [] && fld (s.pfNum (Pf.tbcfg s.b.ctx s.homeOf.1)) 0 32 == 0

theorem quiet_lists {s : State} (h : quiet s = true) : s.cmds = [] ∧ s.reqs = [] ∧ s.gate = [] ∧ s.replies = [] := by
  simp only [quiet, Bool.and_eq_true, beq_iff_eq] at h
  exact ⟨h.1.1.1.1, h.1.1.1.2, h.1.1.2, h.1.2⟩

theorem quiet_pays {s : State} (h : quiet s = true) (n : Nat) : s.canPay s.b.ctx s.homeOf.1 n = true := by
  simp only [quiet, Bool.and_eq_true] at h
  simp only [State.canPay, h.2, Bool.true_or]

theorem quiet_acq {s : State} (h : quiet s = true) (bars ls : List Nat) : s.acqBusy bars ls = false := by
  obtain ⟨-, h1, h2, h3⟩ := quiet_lists h
  simp [State.acqBusy, State.ownReqs, h1, h2, h3]

theorem quiet_live {s : State} (h : quiet s = true) (bars : List Nat) (loc n : Nat) : s.liveBusy bars loc n = false := by
  obtain ⟨-, h1, h2, -⟩ := quiet_lists h
  simp [State.liveBusy, State.ownReqs, h1, h2]

theorem quiet_place {s : State} (h : quiet s = true) (lane : Nat) (p : Place) (n : Nat) (write : Bool) :
    s.placeWaits lane p n write = false := by
  unfold State.placeWaits
  split <;> simp [State.viewPending, (quiet_lists h).1, quiet_acq h, quiet_live h]

theorem quiet_chan {s : State} (h : quiet s = true) (die loc : Nat) : s.chanBusy die loc = false := by
  obtain ⟨-, h1, h2, -⟩ := quiet_lists h
  simp [State.chanBusy, State.undelivered, h1, h2]

theorem quiet_obj {s : State} (h : quiet s = true) (ls : List Nat) (ps : List Place) : s.objWaits ls ps = false := by
  simp [State.objWaits, quiet_acq h, quiet_live h, quiet_chan h]

def granted (s : State) (b : Block) (ls : List Nat) (acc : Acc) (sp : Sp) (n : Nat) (reads write pin : Bool) (addr : Nat → W64)
    (p : Nat → Place) : Bool :=
  ls.all (fun l => s.check acc sp (addr l) n write == .ok (p l)) && ls.all (fun l => !pin || s.pinned (addr l).toNat write) &&
  s.w.region.isNone && quiet s && ls.all (fun l => !reads || !s.readsPoison (p l) n) && s.b.race.isNone &&
  s.b.accessAll s.w.idx ((ls.filterMap fun l => (p l).sector?).map fun sec => (sec, write)) == (b, none)

theorem granted_of {s : State} {b : Block} {ls : List Nat} {lane : Nat → Nat} {acc : Acc} {sp : Sp} {n : Nat} {reads write pin : Bool} {addr : Nat → W64}
    {p : Nat → Place} (h : granted s b ls acc sp n reads write pin addr p = true) :
    s.Granted b ls lane acc sp n reads write pin addr p := by
  simp only [granted, Bool.and_eq_true, List.all_eq_true, beq_iff_eq, Bool.or_eq_true, Bool.not_eq_true', Option.isNone_iff_eq_none] at h
  obtain ⟨⟨⟨⟨⟨⟨h1, h2⟩, h3⟩, h4⟩, h5⟩, h6⟩, h7⟩ := h
  exact ⟨h1, fun hp _ l hl => (h2 l hl).resolve_left (by simp [hp]), fun hr => absurd h3 hr, fun _ _ _ => quiet_place h4 _ _ _ _,
    quiet_pays h4 _, fun hr l hl => (h5 l hl).resolve_left (by simp [hr]), fun _ => h6, h7⟩

theorem supply_of {s : State} (h n : Nat) (hg : s.grps = []) (hn : n ≤ s.poolLeft) : s.supply h n = .ok := by
  unfold State.supply
  rw [hg]
  simp only [SMap.find?]
  rw [if_neg (Nat.not_lt.2 hn)]

theorem room_of {s : State} (hg : s.grps = []) (hn : 32 * 272 ≤ s.poolLeft) (hr : s.recorded s.b.ctx = false) : s.RoomToStore :=
  ⟨fun n h => supply_of _ n hg (Nat.le_trans h hn), fun h => by simp [hr] at h⟩

def movesPass (s : State) (b : Block) (ms : List Move) : Bool :=
  ms.all (fun m => (s.moveChks m).all fun c => c.2.2.2 == .ok c.2.2.2.place && !c.2.2.2.place.waitsOnView s m.n c.1 &&
    (c.1 || !s.readsPoison c.2.2.2.place m.n)) && s.b.race.isNone &&
  s.b.accessAll s.w.idx (ms.flatMap fun m => (s.elemOf m).sectors) == (b, none)

theorem movesPass_of {s : State} {b : Block} {ms : List Move} (h : movesPass s b ms = true) (hg : s.grps = [])
    (hn : 128 * ms.length ≤ s.poolLeft) (hr : s.recorded s.b.ctx = false) : s.MovesPass b ms := by
  simp only [movesPass, Bool.and_eq_true, List.all_eq_true, beq_iff_eq, Bool.or_eq_true, Bool.not_eq_true',
    Option.isNone_iff_eq_none] at h
  obtain ⟨⟨h1, h2⟩, h3⟩ := h
  exact ⟨fun m hm c hc => (h1 m hm c hc).1.1, fun m hm c hc => (h1 m hm c hc).1.2,
    fun m hm c hc hf => (h1 m hm c hc).2.resolve_left (by simp [hf]), fun _ => h2, h3,
    fun n h => supply_of _ n hg (Nat.le_trans h hn), hr⟩

/-- A check that passes. -/
def passes (c : Chk) : Bool := c == .ok c.place

def lines (s : State) (dm : Bool) (ls : List Nat) (addr : Nat → W64) : Bool :=
  quiet s && (s.objLines dm ls addr).all (fun p => !s.readsPoison p 64) && ls.all fun l => passes (s.objChk dm (addr l))

theorem lines_of {s : State} {dm reads : Bool} {act : Mask} {ls : List Nat} {addr : Nat → W64} (h : lines s dm ls addr = true) :
    s.LinesPass dm reads act ls addr := by
  simp only [lines, Bool.and_eq_true] at h
  exact ⟨fun l hl => ⟨_, by simpa [passes] using List.all_eq_true.1 h.2 l hl⟩, quiet_obj h.1.1 _ _, quiet_pays h.1.1 _,
    fun _ p hp => by simpa using List.all_eq_true.1 h.1.2 p hp⟩

/-- `base` in recorded mode. -/
def recBase : State := { base with ctxs := [(1, { Ctx.zero with first := some (0, 0, 1) })] }

def ent (wv line : Nat) (hold : Bool) : WaitEnt := ⟨0, hold, 1, 2, wv, 1, line, 0, 0, BitVec.ofNat 64 (64 * line)⟩
/-! ### Witnesses: statements with hypotheses hold of states that are there -/

/-- Every word of G0 to G4 whose result is a value of its operands, with pairs where its type asks for them. -/
theorem witness_values : ([
    .add F0 .i32 false, .add F0 .n64 true, .sub F0 .i32 true, .mul F0 .n32 false, .mulhi F0 .i64, .mad F0 .i64 true, .min F0 .i32,
    .max F0 .n64, .abs F0 .i32 true, .neg F0 .i64 false, .div F0 .i32 true, .rem F0 .n64, .lea F0 .n64 true 7, .mov F0 .i64,
    .movi F0 0x100000, .popc F0 .i64, .clz F0 .i32, .ctz F0 .n64, .brev F0 .i64, .bfe F0 true 31 31, .bfi F0 0 31, .bperm F0,
    .and F0 .i64, .or F0 .i32, .xor F0 .i32, .andn F0 .n64, .not F0 .i64, .shl F0 .i32, .shr F0 .n64, .sar F0 .i64, .rotl F0 .n32,
    .fsh F0 .i32, .icmp { F0 with d := .p 1 } .i64 .lt, .fcmp { F0 with d := .p 1 } .f64 .teq, .sel { F0 with c := .p 0 } .i64,
    .plog ⟨.always, .p 7, .p 0, .p 1, .zero, 0⟩ 0x80, .ballot { F0 with d := .s 3, a := .p 0 }, .vote { F0 with d := .p 3, a := .p 7 } .eq,
    .rfal { F0 with d := .s 2 } .i64, .bcast F0 .i64 31, .shfl F0 .i64 .down,
    .movl ⟨.always, .v 255, 0⟩, .addX ⟨.always, .s 63, 0xFFFFFFFF⟩] : List Instr).all (goes base) = true := by decide +kernel

theorem witness_floats : ([
    .fadd F0 .f64 .dyn, .fsub F0 .f32 .rz, .fmul F0 .f16 .ru, .ffma F0 .e8m7 .rd, .fdiv F0 .e8m10 .ra, .fsqrt F0 .f64 .rn, .fscale F0 .f64 .dyn,
    .fmin F0 .f64, .fmax F0 .f32, .fclass F0 .e2m1, .frcp F0 .dyn, .frsq F0 .dyn, .fexp2 F0 .dyn, .flog2 F0 .dyn, .fsin F0 .dyn, .fcos F0 .dyn,
    .cclr { F0 with d := .c 3 }, .cadd { F0 with d := .c 0 } .f64, .cfma { F0 with d := .c 1 } .f32, .crd { F0 with a := .c 1 } .f64 .dyn false,
    .crd { F0 with a := .c 1 } .f32 .dyn true, .cvt { F0 with c := .ci 7 } .i32 .f64, .cvtsr F0 .f16 .f32, .pk F0 .i8 .i32, .upk F0 .i32 .t4iI8,
    .rand { F0 with a := .zero } false, .rand F0 true] : List Instr).all (goes base) = true := by decide +kernel

/-- A crucible term at the least exponent, in range and out of it. -/
theorem witness_crucible_term : -2148 ≤ (-2148 : Int) ∧ (-2 ^ 4343 ≤ Cruc.zero.acc.toInt + 1 ∧ Cruc.zero.acc.toInt + 1 < 2 ^ 4343) ∧
    ¬ (Cruc.zero.acc.toInt + (2 ^ 4343 : Nat) * 2 ^ (-2148 + 2148 : Int).toNat < 2 ^ 4343) := by decide +kernel

/-- A value of each end of a format: the least subnormal of F16 and the largest of E4M3. -/
theorem witness_representable : decodeF .f16 1 = .fin false 1 (-24) ∧ (1 : Nat) ≠ 0 ∧ (∃ k e, decodeF .e4m3 0x7F = .fin false k e ∧ k ≠ 0) := by
  refine ⟨by decide +kernel, by decide, 15, 5, by decide +kernel, by decide⟩

theorem witness_add_with_carry : (Instr.addc { F0 with c := .p 7 } .i64).wf = true ∧ goes base (.addc { F0 with c := .p 7 } .i64) = true := by
  decide +kernel

/-- Index registers within the allocation, and at its end: n = 255 of 256 registers, and 256. -/
theorem witness_indexed : goes base (.ldvr { F0 with a := .i 3 } 255) = true ∧ (base.w.ireg 3 0).toNat + 255 < base.b.al.vregs ∧
    base.pendingRegs = [] ∧ base.w.region = none ∧
    (let s := base.setW (base.w.setI 3 31 1)
     goes s (.ldvr { F0 with a := .i 3 } 255) = true ∧ goes s (.stvr { F0 with d := .i 3 } 255) = true ∧ (s.active (.ldvr F0 255)).getLsbD 31 = true ∧
     s.b.al.vregs ≤ (s.w.ireg 3 31).toNat + 255 ∧ ∀ m < 31, (s.w.ireg 3 m).toNat + 255 < s.b.al.vregs) := by decide +kernel

/-- Transfers: their targets aligned below 2^56, at 2^56, and misaligned. -/
theorem witness_transfers : ([.br F0 0x100000, .brX ⟨.always, .v 0, 0x80000000⟩, .brx F0 1, .jmp F0, .ret F0, .call F0 1, .callX ⟨.always, .v 2, 1⟩] : List Instr).all
      (goes base) = true ∧ (∀ l < 32, (base.opnd64 F0.a l).toNat % 8 = 0 ∧ (base.opnd64 F0.a l).toNat < 2 ^ 56) ∧
    (let s := testState [] (testRow 4 (fun l => if l = 31 then 4 else 8)) []
     goes s (.jmp F0) = true ∧ (s.opnd64 F0.a 31).toNat % 8 ≠ 0 ∧ ∀ m < 31, (s.opnd64 F0.a m).toNat % 8 = 0) ∧
    (let s := testState [] (testRow 5 (fun l => if l = 31 then 0x01000000 else 0)) []
     goes s (.ret F0) = true ∧ 2 ^ 56 ≤ (s.opnd64 F0.a 31).toNat ∧ (∀ m < 32, (s.opnd64 F0.a m).toNat % 8 = 0) ∧
       ∀ m < 31, (s.opnd64 F0.a m).toNat < 2 ^ 56) := by decide +kernel

/-- Exits: of some lanes; of the last lanes with every launch done; with one that runs on. -/
theorem witness_exits :
    (let s := testState [] [] [(1, 0xFF)]
     let i := Instr.exit { F0 with g := .pos 0 }
     goes s i = true ∧ s.viewBusy = false ∧ s.w.region = none ∧ s.w.frames = [] ∧ s.replaying s.b.ctx = false ∧
       s.w.exited ||| s.active i ≠ BitVec.allOnes 32) ∧
    goes base (.exit F0) = true ∧ base.w.exited ||| base.active (.exit F0) = BitVec.allOnes 32 ∧ base.launchesDone base.w.key = true ∧
    (let s := { base with w := { base.w with slots := [(0, 7)] }, grps := [(7, Grp.blank)] }
     goes s (.exit F0) = true ∧ s.launchesDone s.w.key = false ∧ s.viewBusy = false) := by decide +kernel

theorem witness_pair : (let a : Slot := ⟨.add, .always, .v 1, .v 2, 0⟩
    let b : Slot := ⟨.fmul, .neg 2, .v 7, .v 8, 0⟩
    pairOk a b = true ∧ issues base (.pairWord a b) = true ∧ base.run &&& base.w.guard a.g.full ≠ 0) := by decide +kernel

/-! ### Memory -/

/-- Lane l at VA 0x10000 + 64 l of the second page. -/
def atView (l : Nat) : Place := .view (0x10000 + 64 * l) (0x20000 + 64 * l)

/-- Loads: a vector destination, a scalar one, a pinned one inside a region, the X form, and the scratchpad. -/
theorem witness_loads :
    (goes base (.ld F0 .w64 .g 0) = true ∧ granted base base.b (accLanes (base.active (.ld F0 .w64 .g 0)) F0.d) .load .g 8 true false false
      (base.laneAddr .g F0.a 0) atView = true) ∧
    (let i := Instr.ld { F0 with d := .s 2, a := .s 4 } .w32 .g 0xFFFC
     let s := base.setW { base.w with r := { base.w.r with s := [(4, 0x10004)] } }
     goes s i = true ∧ granted s s.b (accLanes (s.active i) (.s 2)) .load .g 4 true false false
       (s.laneAddr .g (.s 4) ((0xFFFC : BitVec 16).signExtend 64)) (fun _ => atView 0) = true) ∧
    (let s := base.setW { base.w with pins := [⟨0x10000, 65536, true⟩], window := some 64 }
     goes s (.ldn F0 .i8 .g 0) = true ∧ granted s s.b (accLanes (s.active (.ldn F0 .i8 .g 0)) F0.d) .load .g 1 true false true
       (s.laneAddr .g F0.a 0) atView = true) ∧
    (let s := base.setW { base.w with r := { base.w.r with lat := (List.range 32).map fun l => (l, 0x10000) } }
     let i := Instr.ldX ⟨.always, .v 2, 64⟩
     goes s i = true ∧ granted s s.b (accLanes (s.active i) (.v 2)) .load .g 4 true false false (s.laneAddr .g (.lat 0) 64)
       (fun _ => atView 1) = true) ∧
    (let s := testState [] (testRow 4 fun l => 4 * l) []
     goes s (.ld F0 .w32 .sc 0) = true ∧ granted s (s.b.accessAll 0 ([(0, false), (7, false)])).1
       (accLanes (s.active (.ld F0 .w32 .sc 0)) F0.d) .load .sc 4 true false false (s.laneAddr .sc F0.a 0) (fun l => .sc (4 * l)) = true) := by
  decide +kernel

/-- Stores: to the view, pinned inside a region, by the X form, to the scratchpad in its highest bytes, and to a wharf page. -/
theorem witness_stores :
    base.RoomToStore ∧
    (goes base (.st F0 .w64 .g 0) = true ∧ granted base base.b (lanesOf (base.active (.st F0 .w64 .g 0))) .store .g 8 false true false
      (base.laneAddr .g F0.a 0) atView = true) ∧
    (let s := base.setW { base.w with pins := [⟨0x10000, 65536, true⟩], window := some 64 }
     goes s (.stn F0 .i8 .g 0) = true ∧ granted s s.b (lanesOf (s.active (.stn F0 .i8 .g 0))) .store .g 1 false true true
       (s.laneAddr .g F0.a 0) atView = true) ∧
    (let s := base.setW { base.w with r := { base.w.r with lat := (List.range 32).map fun l => (l, 0x10000) } }
     let i := Instr.stX ⟨.always, .v 2, 64⟩
     goes s i = true ∧ granted s s.b (lanesOf (s.active i)) .store .g 4 false true false (s.laneAddr .g (.lat 0) 64)
       (fun _ => atView 1) = true) ∧
    (let s := testState [] (testRow 4 fun l => 65536 - 128 + 4 * l) []
     goes s (.st F0 .w32 .sc 0) = true ∧ granted s (s.b.accessAll 0 [(4088, true), (4095, true)]).1
       (lanesOf (s.active (.st F0 .w32 .sc 0))) .store .sc 4 false true false (s.laneAddr .sc F0.a 0)
       (fun l => .sc (65536 - 128 + 4 * l)) = true) ∧
    (let s := testState [] (testRow 4 fun l => 0x30000 + 4 * l) []
     goes s (.st F0 .w32 .g 0) = true ∧ granted s s.b (lanesOf (s.active (.st F0 .w32 .g 0))) .store .g 4 false true false
       (s.laneAddr .g F0.a 0) (fun l => .dev (0x40000 + 4 * l)) = true) :=
  ⟨room_of rfl (by decide +kernel) (by decide +kernel), by decide +kernel⟩

/-- A misaligned lane: the last of a load, the first of a store and of an `atom`. -/
theorem witness_misaligned :
    (let s := testState [] (testRow 4 fun l => if l = 31 then 0x10001 else 0x10000) []
     goes s (.ld F0 .i16 .g 0) = true ∧ goes s (.ldn F0 .i16 .g 0) = true ∧ s.w.region = none ∧
       31 ∈ accLanes (s.active (.ld F0 .i16 .g 0)) F0.d ∧ (s.active (.ld F0 .i16 .g 0)).getLsbD 31 = true ∧
       (s.laneAddr .g F0.a 0 31).toNat % 2 ≠ 0 ∧ ∀ m < 31, (s.laneAddr .g F0.a 0 m).toNat % 2 = 0) ∧
    (let s := testState [] (testRow 4 fun _ => 0x10004) []
     goes s (.st F0 .w64 .g 0) = true ∧ goes s (.stn F0 .w64 .g 0) = true ∧ goes s (.atom F0 .add .i64 false) = true ∧
       goes s (.atom F0 .add .i64 true) = true ∧ 0 ∈ lanesOf (s.active (.st F0 .w64 .g 0)) ∧
       (s.laneAddr .g F0.a 0 0).toNat % 8 ≠ 0 ∧ (s.laneAddr .sc F0.a 0 0).toNat % 8 ≠ 0) := by decide +kernel

/-- A line that is no object of the kind: the flag line for a barrier and a lock, NPART itself as a participant, a free lock
outside recorded mode, and a flag word at the line's head. -/
theorem witness_object_traps :
    (let s := testState [(6, 0x20040), (8, 4)] (testRow 4 fun _ => 0x20040) []
     let f := { F0 with d := .zero, a := .s 6, b := .s 8 }
     f.a ≠ .zero ∧ lines s false [0] (fun _ => s.objAddr false f.a 0) = true ∧ s.objLoc false (s.objAddr false f.a 0) ≠ blkLoc ∧
       ([.barv f false .blk, .barw f false .pkg, .barwWait f false .blk, .olacq f false .blk, .olrel f false .pkg, .olrelPass f false .blk,
         .olacqFree f false .blk, .olrelFree f false .blk] : List Instr).all (goes s) = true ∧
       s.loc (s.objLoc false (s.objAddr false f.a 0)) 1 = 2 ∧
       (let g := { F0 with a := .v 4 }
        goes s (.fwait g false .blk) = true ∧ lines s false (lanesOf (s.active (.fwait g false .blk))) (s.objAddr false g.a) = true ∧
        s.isFlag (s.objLoc false (s.objAddr false g.a 0)) = false)) ∧
    (let s := testState [(6, 0x20080), (8, 4)] [] []
     let f := { F0 with d := .zero, a := .s 6, b := .s 8 }
     goes s (.olacq f false .blk) = true ∧ lines s false [0] (fun _ => s.objAddr false f.a 0) = true ∧
       s.loc (s.objLoc false (s.objAddr false f.a 0)) 1 = 3 ∧ s.loc (s.objLoc false (s.objAddr false f.a 0) + 4) 4 = s.opnd f.b 1 0) ∧
    (let s := testState [(6, 0x20100)] [] []
     let f := { F0 with a := .s 6 }
     goes s (.olrelFree f false .blk) = true ∧ s.loc (s.objLoc false (s.objAddr false f.a 0)) 1 = 5 ∧ s.recorded s.b.ctx = false) := by
  decide +kernel

/-- Pins: one page by every lane, eight in all, and a ninth. -/
theorem witness_pins :
    (goes base (.pf F0 .l1 0) = true ∧ goes base (.cachectl F0 .wb) = true ∧ goes base (.touch F0 true 0) = true ∧
      (∀ l < 32, base.touchChk (base.laneAddr .g F0.a 0 l) true = (.ok (.view 0 0), ⟨0x10000, 65536, true⟩)) ∧ base.w.pins = [] ∧
      ((lanesOf (base.active (.touch F0 true 0))).foldl (fun ps _ => addPin ⟨0x10000, 65536, true⟩ ps) ([] : List Pin)).length = 1) ∧
    (let s := base.setW { base.w with pins := (List.range 8).map fun k => ⟨0x100000 * (k + 1), 65536, false⟩, window := some 9 }
     goes s (.touch F0 false 0) = true ∧ s.w.pins.length = 8 ∧
       (∀ l < 32, s.touchChk (s.laneAddr .g F0.a 0 l) false = (.ok (.view 0 0), ⟨0x10000, 65536, false⟩)) ∧
       (((lanesOf (s.active (.touch F0 false 0))).filter (· ≤ 0)).foldl (fun ps _ => addPin ⟨0x10000, 65536, false⟩ ps) s.w.pins).length = 9 ∧
       (((lanesOf (s.active (.touch F0 false 0))).filter (· < 0)).foldl (fun ps _ => addPin ⟨0x10000, 65536, false⟩ ps) s.w.pins).length ≤ 8) ∧
    (let s := base.setW { base.w with pins := (List.range 7).map fun k => ⟨0x100000 * (k + 1), 65536, false⟩, window := some 9 }
     ((lanesOf (s.active (.touch F0 false 0))).foldl (fun ps _ => addPin ⟨0x10000, 65536, false⟩ ps) s.w.pins).length = 8) := by
  decide +kernel

theorem witness_atomics :
    base.RoomToStore ∧
    (let i := Instr.atom F0 .cas .i64 false
     goes base i = true ∧ (∀ r, F0.d ≠ .s r) ∧
       granted base base.b (lanesOf (base.active i)) .atom .g 8 true true false (base.laneAddr .g F0.a 0) atView = true) ∧
    (let s := testState [] (testRow 4 fun l => 4 * l) []
     let i := Instr.atom F0 .add .f32 true
     goes s i = true ∧ granted s (s.b.accessAll 0 [(0, true), (7, true)]).1
       (lanesOf (s.active i)) .atom .sc 4 true true false (s.laneAddr .sc F0.a 0) (fun l => .sc (4 * l)) = true) :=
  ⟨room_of rfl (by decide +kernel) (by decide +kernel), by decide +kernel⟩

theorem witness_reductions :
    base.RoomToStore ∧
    (let s := testState [] (testRow 4 fun l => 0x40000 + 4 * l) []
     let i := Instr.red F0 .add .f32
     goes s i = true ∧ s.RoomToStore ∧ ∀ l < 32, s.check .red .g (s.laneAddr .g F0.a 0 l) 4 true = .ok (.fold (0x40000 + 4 * l) (0x50000 + 4 * l) 2) ∧
       (foldOp 2).op = .add ∧ DT.f32 ∈ (foldOp 2).dts) :=
  ⟨room_of rfl (by decide +kernel) (by decide +kernel), by decide +kernel, room_of rfl (by decide +kernel) (by decide +kernel),
    by decide +kernel⟩

/-! ### Engine commands -/

def cpyState : State :=
  let s := testState [(4, 0x10000)] [] []
  { s with mem := Memory.setBytes s.mem 0x20000 (leBytes 8 0x10100 ++ leBytes 8 0x50000 ++ leBytes 4 16 ++ leBytes 4 2 ++ leBytes 8 16 ++
      leBytes 8 64 ++ leBytes 8 (2 ^ 63 + 63) ++ leBytes 1 0 ++ leBytes 1 2) }

/-- Commands without a completion, with tag 63 and the block barrier, and with a barrier on a sluice page; a copy of two rows. -/
theorem witness_engine :
    base.w.sp.cprog = 0 ∧ (∀ e ∈ base.w.begun, e.1 ≠ base.pc) ∧
    (([.gth F0 .w64 .g false .blk, .xld F0 .w32 .g false .blk, .sct F0 .w64 .g false .pkg, .cst { F0 with d := .s 9 } .w32 .g false .blk] :
      List Instr).all (goes base)) = true ∧
    base.checkCw (base.opnd64 F0.c 0) 0 = .ok none none ∧
    base.checkCw (BitVec.ofNat 64 (2 ^ 63 + 2 ^ 62 + 63)) 0 = .ok (some 63) (some blkLoc) ∧
    base.checkCw (BitVec.ofNat 64 (2 ^ 62 + 0x20000)) 0 = .ok none (some 0x30000) ∧
    base.MovesPass base.b ((lanesOf (base.active (.gth F0 .w64 .g false .blk))).map fun l =>
      ⟨.mem .g (base.laneAddr .g F0.a 0 l), .reg (F0.d.fixed base.w) l .w64, 8⟩) ∧
    base.MovesPass base.b ((lanesOf (base.active (.sct F0 .w64 .g false .blk))).map fun l =>
      ⟨.data (leBytes 8 (base.opnd F0.b 2 l)), .mem .g (base.laneAddr .g F0.a 0 l), 8⟩) ∧
    base.MovesPass base.b ((lanesOf (base.active (.xld F0 .w32 .g false .blk))).zipIdx.map fun e =>
      ⟨.mem .g (base.laneAddr .g F0.a (BitVec.ofNat 64 (e.2 * 4)) 0), .reg (F0.d.fixed base.w) e.1 .w32, 4⟩) ∧
    base.MovesPass base.b ((lanesOf (base.active (.cst { F0 with d := .s 9 } .w32 .g false .blk))).zipIdx.map fun e =>
      ⟨.data (leBytes 4 (base.opnd F0.b 1 e.1)), .mem .g (base.laneAddr .g F0.a (BitVec.ofNat 64 (e.2 * 4)) 0), 4⟩) :=
  ⟨by decide +kernel, by decide +kernel, by decide +kernel, by decide +kernel, by decide +kernel, by decide +kernel,
    movesPass_of (by decide +kernel) rfl (by decide +kernel) (by decide +kernel),
    movesPass_of (by decide +kernel) rfl (by decide +kernel) (by decide +kernel),
    movesPass_of (by decide +kernel) rfl (by decide +kernel) (by decide +kernel),
    movesPass_of (by decide +kernel) rfl (by decide +kernel) (by decide +kernel)⟩

theorem witness_copy :
    let s := cpyState
    let i := Instr.cpy { F0 with a := .s 4 } false false .blk
    let c : Ccb := ⟨0x10100, 0x50000, 16, 2, 16, 64, BitVec.ofNat 64 (2 ^ 63 + 63), 0, 0, 2⟩
    goes s i = true ∧ s.w.sp.cprog = 0 ∧ s.w.begun = [] ∧
      granted s s.b [0] .load .g 64 true false false (fun _ => s.opnd64 (.s 4) 0) (fun _ => atView 0) = true ∧
      Ccb.of (leBytes 64 (s.readPlace (atView 0) 64)) = some c ∧ s.checkCw c.cw 0 = .ok (some 63) none ∧
      s.MovesPass s.b ((List.range c.rows).flatMap c.row) :=
  ⟨by decide +kernel, by decide +kernel, by decide +kernel, by decide +kernel, by decide +kernel, by decide +kernel,
    movesPass_of (by decide +kernel) rfl (by decide +kernel) (by decide +kernel)⟩

/-- Tag words: a mask from a register and from the immediate, no tag ready, and tags ready but one in flight. -/
theorem witness_tags :
    goes base (.tagwait { F0 with a := .zero } true 0xFFFF) = true ∧ goes base (.tagclr F0 1) = true ∧
    goes base (.tagffr { F0 with d := .s 63 }) = true ∧ base.b.tagready = BitVec.allOnes 64 ∧
    (let s := base.setB { base.b with tagready := 2 ^ 63, inflight := [(0, 1)] }
     goes s (.tagffr { F0 with d := .zero, a := .zero }) = true ∧ s.b.tagready.getLsbD 63 = true) := by decide +kernel

/-! ### Ordered and free atomics -/

theorem witness_ordered :
    let s := testState [(6, 0x20000)] (testRow 4 fun l => 0x50000 + 4 * l) []
    let f := { F0 with c := .s 6 }
    let s2 := testState [(6, 0x20000)] (testRow 4 fun l => 0x201C0 + l * 4) []
    ([.aord f .add .i32 false false true .blk, .aord f .store .n32 false true false .pkg] : List Instr).all (goes s2) = true ∧
      granted s2 s2.b (lanesOf (s2.active (.aord f .add .i32 false false true .blk))) .obj .g 4 true true false (s2.laneAddr .g f.a 0)
        (fun l => .sluice (0x301C0 + l * 4)) = true ∧
      (let p (l : Nat) : Place := .sluice (0x301C0 + l * 4)
       let ls := lanesOf (s2.active (.aord f .add .i32 false false true .blk))
       let u : State := { s2 with b := s2.b.marked (ls.map p), tokens := s2.paidFor 4 (ls.map p) }
       lines u false [0] (fun _ => s2.objAddr false f.c 0) = true ∧
         s2.reqWaits [0x30000] true 4 ls (ls.map fun l => (l, s2.laneAddr .g f.a 0 l, p l)) = false ∧
         ∀ l ∈ ls, s2.spillFull (p l).loc = false) ∧ s2.objLoc false (s2.objAddr false f.c 0) = 0x30000 ∧
      s2.loc 0x30000 1 = 1 ∧ goes s (.aord f .load .n32 false false false .blk) = true := by decide +kernel

theorem witness_free :
    let s := testState [] (testRow 4 fun l => 0x201C0 + 4 * l) []
    let t := { s with ctxs := recBase.ctxs }
    let i := Instr.afree F0 .add .i32 false false true .blk
    goes s i = true ∧ granted s s.b (lanesOf (s.active i)) .obj .g 4 true true false (s.laneAddr .g F0.a 0) (fun l => .sluice (0x301C0 + l * 4)) = true ∧
      s.recorded s.b.ctx = false ∧ s.w.region = none ∧
    goes t i = true ∧ granted t t.b (lanesOf (t.active i)) .obj .g 4 true true false (t.laneAddr .g F0.a 0) (fun l => .sluice (0x301C0 + l * 4)) = true ∧
      t.recorded t.b.ctx = true ∧ t.reqWaits [] true 4 (lanesOf (t.active i)) ((lanesOf (t.active i)).map fun l =>
        (l, t.laneAddr .g F0.a 0 l, .sluice (0x301C0 + l * 4))) = false := by decide +kernel

/-! ### Synchronisation objects -/

/-- A state whose s6:s7 names an object and whose s8:s9 is a number, with objects at other memory. -/
def objState (va n : Nat) (m : Memory) : State := { testState [(6, va), (8, n)] [] [] with mem := m }

def FO : F := { F0 with d := .s 2, a := .s 6, b := .s 8 }

/-- Arrivals at a sluice barrier by its last participant index, at the block barrier; a wait on an arrival; an init. -/
theorem witness_barriers :
    (let s := objState 0x20000 1 testObjects
     let t := s.atBar false FO.a
     lines s false [0] (fun _ => s.objAddr false FO.a 0) = true ∧ goes s (.barv { FO with d := .zero } false .blk) = true ∧
       goes s (.barw FO false .blk) = true ∧ t.arriveBad (t.barLoc false FO.a) (t.partOf FO.a FO.b) = false ∧
       t.arriveWaits (t.barLoc false FO.a) (s.active (.barw FO false .blk)) = false ∧ s.w.arrivals = [] ∧
       ((t.arrive s.w.key (t.barLoc false FO.a) (t.barVa false FO.a) 1 0 s.pc s.run (s.active (.barw FO false .blk))).arrivalAt
         (t.barLoc false FO.a)).isSome = true) ∧
    (let f := { F0 with d := .s 2, a := .zero, b := .zero }
     let t := base.atBar false f.a
     goes base (.barw f false .blk) = true ∧ t.barLoc false f.a = blkLoc ∧ t.arriveBad blkLoc (t.partOf f.a f.b) = false ∧
       t.arriveWaits blkLoc (base.active (.barw f false .blk)) = false) ∧
    (let s := (objState 0x20000 1 testObjects).setW { base.w with
       r := (objState 0x20000 1 testObjects).w.r, arrivals := [⟨0x30000, 0x20000, false, 0, 1, 8, 1, 1, none, true⟩] }
     let t := s.atBar false FO.a
     goes s (.barwWait FO false .blk) = true ∧ goes s (.barw FO false .blk) = true ∧ t.isBar (t.barLoc false FO.a) = true ∧
       (t.arrivalAt (t.barLoc false FO.a)).any (·.again) = true) ∧
    (let s := objState 0x20180 0xFFFFFFFE testObjects
     let f := { FO with d := .zero }
     let t := s.atBar false f.a
     goes s (.barvInit f false .blk) = true ∧ f.a ≠ .zero ∧ t.barLoc false f.a ≠ blkLoc ∧ t.barLoc false f.a % 64 = 0 ∧
       t.opnd f.b 1 0 = 0xFFFFFFFE) := by decide +kernel

/-- A barrier of two before its first, its last and its overrunning arrival; the phase complete but for bytes. -/
theorem witness_barrier_lines :
    (base.w.st ≠ .absent ∧ base.w.key = 32 ∧ base.reqs = [] ∧ (0x30000 : Nat) % 64 = 0 ∧ 0x30000 ≠ blkLoc ∧
      (base.bar 1 0x30000).arrived + 1 < 2 ^ 32 ∧ (base.bar 1 0x30000).arrived + 1 ≠ (base.bar 1 0x30000).npart) ∧
    (let s := { base with mem := Memory.setBytes testObjects 0x30000 ({ Bar.zero with npart := 2, arrived := 1, landed := 8 } : Bar).line }
     let b := s.bar 1 0x30000
     b.arrived + 1 = b.npart ∧ b.ovr = false ∧ b.landed = b.expect + 8 ∧ b.expect + 7 < b.landed) ∧
    (let s := { base with mem := Memory.setBytes testObjects 0x30000 ({ Bar.zero with npart := 2, arrived := 2, expect := 8 } : Bar).line }
     let b := s.bar 1 0x30000
     b.arrived = b.npart ∧ b.ovr = false ∧ b.landed + BitVec.ofNat 64 8 = b.expect) := by decide +kernel

/-- Flags at the second word of their line, the last, and a line to initialise. -/
theorem witness_flags :
    (let s := testState [] (testRow 4 fun l => if l = 0 then 0x20048 else 0x20078) []
     let i := Instr.fpost F0 false .blk
     goes s i = true ∧ goes s (.fwait F0 false .blk) = true ∧ lines s false (lanesOf (s.active i)) (s.objAddr false F0.a) = true ∧
       s.releaseBusy [] (lanesOf (s.active i)) = false ∧ ∀ l ∈ lanesOf (s.active i), s.isFlag (s.objLoc false (s.objAddr false F0.a l)) = true) ∧
    (let s := testState [] (testRow 4 fun _ => 0x20180) []
     let i := Instr.fpostInit F0 false .blk
     goes s i = true ∧ lines s false (lanesOf (s.active i)) (s.objAddr false F0.a) = true ∧
       ∀ l ∈ lanesOf (s.active i), s.objLoc false (s.objAddr false F0.a l) % 64 = 0) := by decide +kernel

def heldLock (next : Nat) : Memory := Memory.setBytes testObjects 0x30080 (leBytes 2 0x103 ++ leBytes 2 0 ++ leBytes 4 4 ++ leBytes 8 0 ++ leBytes 4 next)

theorem witness_locks :
    (let s := objState 0x20080 3 testObjects
     let loc := s.objLoc false (s.objAddr false FO.a 0)
     lines s false [0] (fun _ => s.objAddr false FO.a 0) = true ∧ s.isLock loc (s.opnd FO.b 1 0) = true ∧
       goes s (.olacq FO false .blk) = true ∧ goes s (.olrelPass { FO with d := .zero } false .blk) = true ∧
       goes s (.olrelInit { FO with d := .zero } false .blk false) = true ∧
       s.releaseBusy [] (lanesOf (s.active (.olrelPass { FO with d := .zero } false .blk))) = false) ∧
    (let s := objState 0x20080 0 testObjects
     s.loc (s.objLoc false (s.objAddr false FO.a 0) + 0x10) 4 = s.opnd FO.b 1 0) ∧
    (let s := (objState 0x20080 3 (heldLock 3)).setW { (objState 0x20080 3 []).w with grants := [(0x30080, false)] }
     let loc := s.objLoc false (s.objAddr false FO.a 0)
     goes s (.olrel { FO with d := .zero } false .blk) = true ∧ s.isLock loc (s.opnd FO.b 1 0) = true ∧ s.loc (loc + 1) 1 % 2 = 1 ∧
       s.loc (loc + 0x10) 4 = s.opnd FO.b 1 0 ∧ (loc, false) ∈ s.w.grants ∧
       s.releaseBusy [] (lanesOf (s.active (.olrel { FO with d := .zero } false .blk))) = false) ∧
    (let s := { objState 0x20100 0 testObjects with ctxs := recBase.ctxs }
     let loc := s.objLoc false (s.objAddr false FO.a 0)
     goes s (.olacqFree FO false .blk) = true ∧ s.isFree loc = true ∧ goes s (.olrelInit { FO with d := .zero } false .blk true) = true ∧
       goes (s.setW { s.w with grants := [(loc, true)] }) (.olrelFree { FO with d := .zero } false .blk) = true) := by decide +kernel

/-- The clauses of a release: a turn before the last, and the last. -/
theorem witness_lock_turns :
    (let s := { base with mem := heldLock 2 }
     (0x30080 : Nat) % 64 = 0 ∧ s.loc 0x30090 4 + 1 < s.loc 0x30084 4) ∧
    (let s := { base with mem := heldLock 3 }
     s.loc 0x30090 4 + 1 = s.loc 0x30084 4) := by decide +kernel

/-- Every kind of wait, open; an acquire whose turn it is. -/
theorem witness_waits :
    (let r (k : WaitKind) : WaitR := ⟨k, 0, 0x30080, 0x20080, 0, 0, .s 2, 1, [], false, false, [], 0⟩
     ∀ k ∈ [WaitKind.flag, .acq, .pass, .tag, .count, .bar, .free], (r k).done = false ∧ (r k).kind = k) ∧
    base.loc (0x30080 + 0x10) 4 = 0 ∧ base.loc (0x30080 + 1) 1 % 2 = 0 := by decide +kernel

/-- Pushes and pops at a header whose slots pass, their payloads at the last registers; an init of two slots. -/
theorem witness_queues :
    (let s := { testState [] (testRow 4 fun _ => 0x20140) [] with run := 1 }
     let f := { F0 with c := .v 254 }
     let g := { F0 with d := .v 254 }
     let act := s.active (.qpush f false .blk)
     let t := s.atLines false (lanesOf act) (s.objAddr false f.a)
     goes s (.qpush f false .blk) = true ∧ goes s (.qpop g false .blk) = true ∧ act = 1 ∧
       lines s false (lanesOf act) (s.objAddr false f.a) = true ∧ s.isQueue (s.objLoc false (s.objAddr false f.a 0)) = true ∧
       lines t false (lanesOf act) (fun l => s.slotAddr (s.objLoc false (s.objAddr false f.a 0)) (s.opnd64 f.b l).toNat) = true ∧
       s.inBounds (.v 254) (s.payRegs (s.objLoc false (s.objAddr false f.a 0))) 2 = true ∧ s.pendingRegs = [] ∧ s.releaseBusy [] (lanesOf act) = false ∧
       (laneOps (fun u l => u.queueOp true ⟨.push, l, s.objLoc false (s.objAddr false f.a l), s.objAddr false f.a l, s.opnd64 f.b l, 0, .zero, laneBit l,
           bytesRegs 2 0, false, false, [], s.pc⟩)
         (fun l => ⟨.push, l, s.objLoc false (s.objAddr false f.a l), s.objAddr false f.a l, s.opnd64 f.b l, 0, .zero, laneBit l,
           bytesRegs 2 0, false, false, [], s.pc⟩) (lanesOf act)
         (t.atLines false (lanesOf act) fun l => s.slotAddr (s.objLoc false (s.objAddr false f.a l)) (s.opnd64 f.b l).toNat)).2.2 = none) ∧
    (let s := objState 0x20180 0x20200 testObjects
     let f := { FO with d := .zero, c := .s 20 }
     let t := s.setW (s.w.setS 20 (4 + 256))
     goes t (.qpushInit f false .blk) = true ∧ t.opnd f.c 1 0 % 256 = 4 ∧ t.opnd f.c 1 0 / 256 % 256 = 1 ∧
       (t.opnd64 f.b 0).toNat % 2 ^ 4 = 0 ∧ lines t false (lanesOf (t.active (.qpushInit f false .blk))) (t.objAddr false f.a) = true ∧
       lines (t.atLines false (lanesOf (t.active (.qpushInit f false .blk))) (t.objAddr false f.a)) false (List.range 2)
         (fun k => t.opnd64 f.b 0 + BitVec.ofNat 64 (k * 16)) = true ∧
       ∀ l ∈ lanesOf (t.active (.qpushInit f false .blk)), t.objLoc false (t.objAddr false f.a l) % 64 = 0) := by decide +kernel

/-- What tags say at the slot of number 5: ready to push, ready to pop, to wait for, and past. -/
theorem witness_queue_tags :
    pushChk 5 5 = .ready ∧ pushChk 3 5 = .wait ∧ pushChk 6 5 = .bad ∧ pushChk (2 ^ 63 + 5) 5 = .bad ∧
    popChk (2 ^ 63 + 5) 5 = .ready ∧ popChk 5 5 = .wait ∧ popChk (2 ^ 63 + 6) 5 = .bad := by decide +kernel

/-- A lock release of the wave that its order gate has yet to admit. -/
def outReq : Req := ⟨9, 0, 9, 1, 1, 0, 0, [], [], 0x30000, 0, none, 0x301C0, 0, .add, .i32, 0, 0, .v 2, 0, false, false, false, false, false⟩

/-- `wreg` and `wunreg` on a sluice line, `yield`, `fence` with nothing and with a release outstanding, `sweep` with no probe and with its own. -/
theorem witness_wait_words :
    (let s := objState 0x20040 1 testObjects
     goes s (.wreg FO false true 7) = true ∧ goes s (.wunreg { FO with d := .zero } false true 7) = true ∧
       passes (s.lineChk false (s.objAddr false FO.a 0)).1 = true ∧ FO.a ≠ .zero) ∧
    ([.wunreg { F0 with a := .zero } false false 0, .yield F0, .fence F0 .blk, .sweep F0 .pkg] : List Instr).all (goes base) = true ∧
    base.releaseBusy [] (lanesOf (base.active (.fence F0 .blk))) = false ∧
    ({ base with gate := [outReq] } : State).releaseBusy [] (lanesOf (base.active (.fence F0 .blk))) = true ∧
    base.probes = [] ∧
    ({ base with probes := [⟨3, 0, false, 1, 0, 0, 0, false⟩] } : State).probes.find? (fun p => p.blk == base.w.blk && p.wv == base.w.idx &&
      p.word == base.pc && p.depth == base.w.frames.length) =
      some ⟨3, 0, false, 1, 0, 0, 0, false⟩ := by decide +kernel

/-- An entry that stands, room for one, a full table, no cycle; a cycle of two with its victim; a wait that is made. -/
theorem witness_wait_table :
    ent 0 1 false ∈ [ent 0 1 false] ∧ ent 0 1 false ∉ base.wft ∧
    (base.wft.filter fun x => x.die == 0).length < Config.waitEntries ∧
    ¬ (((List.replicate Config.waitEntries (ent 1 2 true)).filter fun x => x.die == (ent 0 1 false).die).length < Config.waitEntries) ∧
    base.findCycle ((base.wft ++ [ent 0 1 false]).filter fun x => x.die == 0) 32 16 32 [32] = none ∧
    (base.victimFirst [(33, ent 1 2 false), (32, ent 0 1 false)]).map (·.1) = [32, 33] ∧
    base.w.st ≠ .absent ∧
    (let r : WaitR := ⟨.flag, 0, 0x30048, 0x20048, 1, 0, .zero, 1, [], false, false, [], 0⟩
     r.done = false ∧ r.kind ≠ .tag ∧ r.kind ≠ .count ∧ { r with done := true }.done = true) := by decide +kernel

/-! ### Views and launches -/

def units (s : State) (va : W64) (n u : Nat) (p : Nat → Place) : Bool :=
  quiet s && (List.range n).all fun i => s.check .load .g (va + BitVec.ofNat 64 (i * u)) u false == .ok (p i) &&
    !s.readsPoison (p i) u

def unitBytes (s : State) (n u : Nat) (p : Nat → Place) : List Byte := (List.range n).flatMap fun i => leBytes u (s.readPlace (p i) u)

theorem units_of {s : State} {va : W64} {n u lane : Nat} {p : Nat → Place} (h : units s va n u p = true) :
    ∃ t, s.UnitsRead va n u lane t (unitBytes s n u p) := by
  simp only [units, List.all_eq_true, List.mem_range, Bool.and_eq_true, beq_iff_eq, Bool.not_eq_true'] at h
  exact ⟨_, ⟨p, fun i hi => (h.2 i hi).1, fun i hi => ⟨quiet_place h.1 _ _ _ _, (h.2 i hi).2⟩, quiet_pays h.1 _, rfl, rfl⟩⟩

/-- A fork descriptor of two blocks with a quota and one scoped range on the sluice page, at VA 0x10000, `join` at VA 8. -/
def forkState (quota len : Nat) : State :=
  let s := testState [(4, 0x10000)] [] []
  let d := leBytes 8 0x10000 ++ leBytes 4 2 ++ leBytes 2 1 ++ leBytes 2 8 ++ leBytes 8 0 ++ leBytes 8 0 ++ leBytes 8 quota ++ leBytes 8 0 ++
    leBytes 8 0x20000 ++ leBytes 8 len
  { s with mem := Memory.setBytes (Memory.setNum s.mem 0x10008 8 (encode (.join ⟨.always, .zero, .v 0, .v 0, .v 0, 0⟩)).toNat) 0x20000 d }

def forkPlace (i : Nat) : Place := .view (0x10000 + 64 * i) (0x20000 + 64 * i)

/-- A good descriptor with a quota and without, one with two few ranges paid, one too large, and a bad one. -/
theorem witness_forks :
    (let s := forkState 65536 64
     let f := { F0 with a := .s 4 }
     let d := Desc.of (unitBytes s 2 64 forkPlace)
     goes s (.fork f) = true ∧ s.joinFollows = true ∧ (s.opnd64 f.a 0).toNat % 64 = 0 ∧ units s (s.opnd64 f.a 0) 2 64 forkPlace = true ∧
       s.forkWaits = false ∧ s.unrouted d.nchild = false ∧ d.bad (s.b.gid.length - 5) = false ∧ s.rangePages d = (none, false) ∧
       d.quota ≠ 0 ∧ d.quota ≤ s.poolLeft ∧ d.scoped ≤ d.quota ∧ ({ d with quota := 0 }).scoped ≤ s.poolLeft ∧
       { s with pool := s.poolLeft }.poolLeft < d.quota ∧
       d.nchild = 2) ∧
    (let d := Desc.of (unitBytes (forkState 0 65536) 2 64 forkPlace)
     d.bad 0 = false ∧ d.quota = 0 ∧ d.scoped = 65536 ∧ ({ d with nchild := 0 }).bad 0 = true ∧
       (base.rangePages { d with ranges := [(0x10000, 64)] }) = (none, true)) := by decide +kernel

/-- A wave with its fork: running on, ended with an outcome, ended with members to fold; a line of the die itself and of
another one, whichever die the line's home is. -/
theorem witness_joins :
    (let g := { Grp.blank with kind := .fork, pblk := 1, st := .ended }
     let s (g : Grp) : State := { base with w := { base.w with fork := some 3 }, grps := [(3, g)] }
     let f := { F0 with d := .s 2 }
     goes (s g) (.join f) = true ∧ (s g).w.fork = some 3 ∧ (SMap.find? (s g).grps 3) = some g ∧ g.outcome = none ∧
       ((s g).foldFork 3 g).2 = none ∧ goes base (.join f) = true ∧ base.w.fork = none ∧
       goes (s { g with outcome := some (1, true) }) (.join f) = true ∧ goes (s { g with st := .pending }) (.join f) = true) ∧
    goes base (.vstat { F0 with d := .s 2 } .quota) = true ∧ base.ownFork 1 = none ∧
    (let s := testState [(4, 0x30000)] [] []
     let i := Instr.migrate { F0 with a := .s 4 }
     goes s i = true ∧ s.w.frames = [] ∧ s.migrating s.b.ctx 0x30000 = false ∧ s.viewBusy = false ∧
       (match s.walk s.b.ctx 0x30000 with
       | .leaf l => l.host == false
       | _ => false) = true) := by decide +kernel

theorem witness_landing : ∀ die < Config.dies,
    { base with b := { base.b with die := die } }.homeOf.1 = die ∧
    (let s := { base with b := { base.b with die := (die + 1) % Config.dies } }
     s.homeOf.1 ≠ die ∧ s.landing die = some (die, 0, 0)) := by decide +kernel

/-- A launch packet of one block at VA 0x10000; the same with a bad entry. -/
def launchState (entry : Nat) : State :=
  let s := testState [(4, 0x10000)] [] []
  let p := leBytes 7 entry ++ leBytes 1 1 ++ leBytes 4 1 ++ leBytes 1 1 ++ leBytes 3 0 ++ leBytes 2 8 ++ leBytes 4 0 ++ leBytes 1 0xFF ++ leBytes 51 0 ++
    leBytes 2 0xFFFF
  { s with mem := Memory.setBytes s.mem 0x20000 p }

theorem has_range (n : Nat) : ∀ a k, a ≤ k → k < a + n → SMap.has ((List.range' a n).map fun k => (k, k)) k = true := by
  induction n with
  | zero => intro a k h1 h2; omega
  | succ n ih =>
    intro a k h1 h2
    simp only [List.range'_succ, List.map_cons, SMap.has, SMap.find?]
    rcases Nat.eq_or_lt_of_le h1 with rfl | h
    · simp
    · have := ih (a + 1) k h (by omega)
      simp only [SMap.has] at this
      split <;> simp_all

/-- A wave with a launch in every slot. -/
theorem witness_no_slot : ({ base.w with slots := (List.range Config.launchSlots).map fun k => (k, k) } : Wave).freeSlot = none := by
  simp only [Wave.freeSlot, List.find?_eq_none, List.mem_range]
  intro k hk
  rw [List.range_eq_range', has_range _ 0 k (Nat.zero_le _) (by omega)]
  simp

def launchPlace (i : Nat) : Place := .view (0x10000 + 8 * i) (0x20000 + 8 * i)

theorem witness_launch :
    (let s := launchState 0x10000
     let f := { F0 with d := .s 62, a := .s 4 }
     goes s (.launch f) = true ∧ units s (s.opnd64 f.a 0) 16 8 launchPlace = true ∧ s.viewBusy = false ∧
       s.unrouted ((Packet.of (unitBytes s 16 8 launchPlace)).grp s.b.ctx).nmem = false ∧
       s.launchCode (Packet.of (unitBytes s 16 8 launchPlace)) = 0 ∧ s.w.freeSlot = some 0 ∧
       s.launchCode (Packet.of (unitBytes (launchState 0x10004) 16 8 launchPlace)) = 1 ∧
       (base.setPf (Pf.ctx 1 0x100) (BitVec.ofNat 64 (2 * 2 ^ 16 + 1))).unrouted 2 = true) := by decide +kernel

/-- Handles: of a launch in slot 3, of one that was read, of the block's own launch, and of nothing. -/
theorem witness_handles :
    (let s := { testState [(4, 3), (5, 0x40000000)] [] [] with grps := [(7, Grp.blank)] }
     let s := s.setW { s.w with slots := [(3, 7)] }
     let f := { F0 with d := .s 2, a := .s 4 }
     goes s (.cancel f) = true ∧ goes s (.lcount f false) = true ∧ s.named (s.opnd64 f.a 0) = some (.slot 3) ∧ s.viewBusy = false ∧
       SMap.find? s.w.slots 3 = some 7 ∧ SMap.find? s.grps 7 = some Grp.blank ∧ Grp.blank.st ≠ .ended ∧
       s.recorded s.b.ctx = false ∧ ({ s with ctxs := recBase.ctxs }).recorded s.b.ctx = true ∧
       goes { s with ctxs := recBase.ctxs } (.lcount f true) = true) ∧
    (let s := testState [(5, 0x30000000)] [] []
     goes s (.lcount { F0 with a := .s 4 } true) = true ∧ goes s (.cancel { F0 with a := .s 4 }) = true ∧ s.named (s.opnd64 (.s 4) 0) = some (.self 1)) ∧
    base.named (base.opnd64 (.s 4) 0) = none ∧ goes base (.cancel { F0 with a := .s 4 }) = true ∧
    (let g := { Grp.blank with st := .ended }
     g.confl = none ∧ g.st = .ended) := by decide +kernel

/-! ### The matrix engine -/

def isOk : RowR → Bool
  | .ok _ => true
  | .stop _ => false

theorem isOk_of {x : RowR} (h : isOk x = true) : ∃ u, x = .ok u := by
  cases x with
  | ok s => exact ⟨s, rfl⟩
  | stop r => cases h

def FM : F := ⟨.always, .acc 15, .s 4, .s 6, .s 8, 0⟩

/-- Tile words over the view: rows that pass, and one that does not by its address; quarters of two lanes. -/
theorem witness_tiles :
    (let s := base
     ([.mz FM, .mtov { FM with d := .v 248, a := .acc 15 } 3, .vtom { FM with a := .v 248 } 3, .msync FM] : List Instr).all (goes s) = true ∧
       s.quarters .always = [(0, 0), (3, 31)]) ∧
    (let s := { testState [(4, 0x10000), (8, 4)] [] [] with run := 1 }
     let rs := s.moveRows FM 1 false
     goes s (.mld FM 1 .r16 false) = true ∧ isOk (s.checkRows (rs.map (·.q)) 16 2 false rs s) = true) := by decide +kernel

theorem witness_tile_stores :
    let s := { testState [(4, 0x10000), (8, 1)] [] [] with run := 1 }
    let rs := s.moveRows FM 1 false
    goes s (.mst FM 1 .r16 false) = true ∧ isOk (s.checkRows (rs.map (·.q)) 16 2 true rs s) = true ∧
      (∀ r ∈ rs, ∀ k < 1, s.check .store r.sp (r.addr + BitVec.ofNat 64 (16 * k)) 1 true = .ok (.view (0x10000 + 16 * r.m) (0x20000 + 16 * r.m))) ∧
      s.recorded s.b.ctx = false ∧ ∀ n ≤ 128 * 32, s.supply s.w.blk n = .ok :=
  ⟨by decide +kernel, by decide +kernel, by decide +kernel, by decide +kernel, fun _ h => supply_of _ _ rfl (Nat.le_trans h (by decide +kernel))⟩

/-- A product whose rows but the last are done, and a row that is no multiple of 16. -/
theorem witness_multiply :
    (let s := { testState [(4, 0x10000), (6, 0x50000), (8, 0x10001)] [] [] with run := 1 }
     let s := s.setMrow 15
     let args := s.matArgs FM false false
     let rows := args.flatMap fun x => x.rows .sq false false
     goes s (.mma FM .f32 .f32 .sq false false) = true ∧ args.length = 1 ∧
       isOk (s.checkRows (args.map (·.q)) (rowLen .f32 (Shape.sq.k .f32)) (Shape.sq.m + Shape.sq.n) false rows s) = true) ∧
    (let r : MRow := ⟨3, 31, 255, false, 0x10008⟩
     r.m < 256 ∧ r.q < 4 ∧ r.addr.toNat % 16 ≠ 0 ∧ rowsDone base.w.sp.mrow r.q ≤ r.m ∧ r.m < rowsDone 0xFFFFFFFF r.q + 1) := by decide +kernel

/-- Side-pound words: without side-pound tiles, with them empty, and with a held tile to commit, STALE or not. -/
theorem witness_ahead :
    ([.mmas FM .f32 .f32 .sq false false, .shcom { FM with a := .p 0 }, .shdis FM] : List Instr).all (goes base) = true ∧ base.w.region = none ∧
    base.quarters .always ≠ [] ∧
    (let s := testState [(4, 0x10008), (6, 0x50000), (8, 0x10001)] [] []
     let t := { s with run := 1, b := { s.b with al := { s.b.al with sht := 4 } } }
     t.b.al.sht ≠ 0 ∧ t.b.race = none ∧ goes t (.mmas FM .f32 .f32 .sq false false) = true ∧ goes t (.shdis FM) = true ∧
       (match State.runAheads (.acc 15) .f32 .f32 .sq false false (t.matArgs FM false false) t with
       | .done v => (v.w.side 0).held && (v.w.side 0).poison
       | _ => false) = true ∧
       ∀ stale < 2,
         let u := t.setW { t.w with r := { t.w.r with sh := [(0, ⟨shWord false 15 .f32 .f32 .sq false false 0 0 + 2 ^ 62 * BitVec.ofNat 64 stale, 0, 0, 0⟩)] } }
         goes u (.shcom { FM with a := .p 0 }) = true ∧ (u.w.side 0).held = true ∧ (u.w.side 0).stale = decide (stale = 1) ∧
           (u.w.side 0).poison = false ∧ u.opnd (.p 0) 1 0 = 1 ∧
           (u.w.side 0).shape.m * (u.w.side 0).shape.n * (u.w.side 0).acf.size ≤ 1024) := by decide +kernel

/-! ### Distributions -/

theorem witness_dist :
    ([.dadd ⟨.always, .d 3, .d 0, .d 3, .zero, 0⟩, .dsub ⟨.always, .d 3, .d 0, .d 3, .zero, 0⟩, .dmul ⟨.always, .d 3, .d 0, .d 3, .zero, 0⟩, .ddiv ⟨.always, .d 3, .d 0, .d 3, .zero, 0⟩,
      .dmin ⟨.always, .d 3, .d 0, .d 3, .zero, 0⟩, .dmax ⟨.always, .d 3, .d 0, .d 3, .zero, 0⟩, .daff ⟨.always, .d 3, .d 0, .v 4, .v 6, 0⟩, .dmap ⟨.always, .d 3, .d 0, .zero, .zero, 0⟩ .sqrt, .dmix ⟨.always, .d 3, .d 0, .d 3, .v 4, 0⟩,
      .dsetPt ⟨.always, .d 3, .v 4, .zero, .zero, 0⟩, .dsetU ⟨.always, .d 3, .v 4, .v 6, .zero, 0⟩, .dtagSet ⟨.always, .d 3, .d 0, .v 4, .zero, 0⟩,
      .dtagNew ⟨.always, .d 3, .d 0, .zero, .zero, 0⟩, .dtagGet ⟨.always, .v 2, .d 0, .zero, .zero, 0⟩,
      .dmom ⟨.always, .v 2, .d 0, .zero, .zero, 0⟩ .all, .dqnt ⟨.always, .v 2, .d 0, .v 4, .zero, 0⟩ .p, .dqnt ⟨.always, .v 2, .d 0, .v 4, .zero, 0⟩ .p90,
      .dsamp ⟨.always, .v 2, .d 0, .v 4, .zero, 0⟩] : List Instr).all (goes base) = true ∧
    base.w.sp.origins.toNat < 16 ∧ base.w.region = none ∧ (16 : Nat) = (BitVec.ofNat 32 16 : W32).toNat := by decide +kernel

/-- Points that Canon accepts, and points it does not: a weight missing from the sum, and a NaN weight. -/
theorem witness_canonical :
    (let ps : List (Nat × Nat) := [(0x40000000, 0x3F000000), (0, 0x3F000000)]
     (∀ p ∈ ps, p.1 < 2 ^ 32 ∧ p.2 < 2 ^ 32) ∧ ps.length ≤ 8 ∧ decodeF .f32 0x3F000000 = .fin false 8388608 (-24) ∧
       ((ps.filter fun p => p.2 != 0).map fun p => wgtRat p.2).sum = 1) ∧
    (([((0 : Nat), (0x3F000000 : Nat))].map fun p => wgtRat p.2).sum ≠ 1) := by decide +kernel

theorem witness_dist_memory :
    (let s := base
     let p (k : Nat) : Place := .view (0x10000 + 64 * (k / 4) + 16 * (k % 4)) (0x20000 + 64 * (k / 4) + 16 * (k % 4))
     let addr (k : Nat) : W64 := s.laneAddr .g (.v 4) 0 (k / 4) + BitVec.ofNat 64 (16 * (k % 4))
     let i := Instr.dld ⟨.always, .d 3, .v 4, .zero, .v 6, 0⟩ false
     let j := Instr.dst ⟨.always, .d 3, .v 4, .zero, .zero, 0⟩ false
     goes s i = true ∧ goes s j = true ∧ (∀ l ∈ lanesOf (s.active i), (s.laneAddr .g (.v 4) 0 l).toNat % 64 = 0) ∧
       granted s s.b (distParts (s.active i)) .load .g 16 true false false addr p = true ∧
       granted s s.b (distParts (s.active j)) .store .g 16 false true false addr p = true ∧ s.recorded s.b.ctx = false) ∧
    ∀ n ≤ 128 * 272, base.supply base.w.blk n = .ok :=
  ⟨by decide +kernel, fun _ h => supply_of _ _ rfl (Nat.le_trans h (by decide +kernel))⟩

/-! ### Experts -/

/-- Expert 5 with two replicas in the owning context: words that run, and ones that trap. -/
def xState (e : Nat) : State :=
  let s := (testState [] (testRow 4 fun _ => e) []).setPf Pf.xpcfg (BitVec.ofNat 64 (2 ^ 63 + 2 ^ 56))
  { s with dsm := Memory.setNum s.dsm (entryKey 0 0 5 + 4) 1 2 }

theorem witness_experts :
    (let s := xState 5
     s.b.ctx = s.xpCtx ∧ ([.xroute F0, .xrel F0, .xcnt F0, .xver F0] : List Instr).all (goes s) = true ∧
       s.nrep 0 (s.xNewest 0) 5 = 2 ∧ (s.opnd F0.a 1 0 = 5 ∧ s.opnd F0.a 1 31 = 5) ∧ (∀ r, F0.d ≠ .s r) ∧
       (let t := s.setW { s.w with refs := [(0, 0, 2)] }
        ∀ l ∈ lanesOf (t.active (.xrel F0)), (lanesOf (t.active (.xrel F0))).countP (fun m =>
          t.opnd F0.a 4 m / 2 ^ 64 % 2 ^ 32 == t.opnd F0.a 4 l / 2 ^ 64 % 2 ^ 32) ≤ t.w.refsOf (t.opnd F0.a 4 l / 2 ^ 64 % 2 ^ 32)) ∧
       s.w.refsOf 0 < 2) ∧
    (let s := xState 8192
     goes s (.xcnt F0) = true ∧ s.b.ctx = s.xpCtx ∧ 8192 ≤ s.opnd F0.a 1 0) ∧
    (let s := xState 8191
     goes s (.xroute F0) = true ∧ s.opnd F0.a 1 0 < 8192 ∧ s.nrep 0 (s.xNewest 0) (s.opnd F0.a 1 0) = 0) ∧
    base.b.ctx ≠ base.xpCtx ∧ goes base (.xver F0) = true := by decide +kernel

/-! ### Traps, special registers and issue -/

/-- `base` with a trap handler at VA 0x10000 and frames on the wharf page. -/
def trapState : State := (base.setPf (Pf.ctx 1 8) 0x10000).setPf (Pf.ctx 1 0x10) 0x30000

def fr0 (cause : Nat) (between : Bool) : Frame :=
  ⟨0x30000, cause, 0, 0, 0, 0x80000001, 1, 0, 0, 0, [], [], [], [], [], between, false⟩

theorem witness_trap_entry :
    goes trapState (.trap F0 7) = true ∧ goes trapState (.brk F0 7) = true ∧ trapState.w.region = none ∧ trapState.w.frames.length < 4 ∧
    trapState.handler trapState.b.ctx ≠ 0 ∧ trapState.dbgBrk trapState.b.ctx = false ∧
    (fr0 0x12 false).cause < 256 ∧ (fr0 0x12 false).burst < 2 ^ 32 ∧ (fr0 0x12 false).ext.length ≤ 512 ∧
    ∀ l < 32, SMap.get (fr0 0x12 false).age 0 l < 2 ^ 16 := by decide +kernel

/-- Returns without a frame, and from each kind of cause; entries that escalate, and one that ends its wave. -/
theorem witness_trap_return :
    goes base (.tret F0) = true ∧ base.w.frames = [] ∧
    (∀ c ∈ [1, 6, 8, 0x0A, 0x0C, 0x0D, 0x11, 0x12], goes (base.setW { base.w with frames := [fr0 c false] }) (.tret F0) = true) ∧
    base.w.region = none ∧ base.w.st ≠ .absent ∧ base.handler base.b.ctx = 0 ∧
    (trapState.setPf (Pf.ctx 1 0x28) 1).dbgBrk 1 = true ∧
    (trapState.setW { trapState.w with frames := List.replicate 4 (fr0 1 false) }).w.frames.length = 4 := by decide +kernel

theorem witness_special :
    goes base (.rsr { F0 with a := .sr .rngctr }) = true ∧
    (∀ r ∈ [SReg.fmode, .fflags, .cprog, .mrow, .wbase, .rngctr], goes base (.wsr { F0 with d := .sr r }) = true) ∧
    (let s := testState [(4, 5)] [] []
     goes s (.wsr { F0 with d := .sr .fmode, a := .s 4 }) = true ∧ 5 ≤ (s.opnd32 (.s 4) 0).toNat % 8 ∧ s.w.region = none) ∧
    goes base (.ienter F0) = true := by decide +kernel

/-- A word in an open region that it closes, one with a register beyond the allocation, one that waits for a delivery, one with
no active lane, `nop`; a hold; the head run of two. -/
theorem witness_issue :
    (let r : Region := ⟨0, [], [], 0, 0, [], .empty, .empty, [], 0, 0, false⟩
     let s := base.setW { base.w with region := some r }
     (Instr.tagclr F0 1).isWord = true ∧ (Instr.tagclr F0 1).closes = true ∧ s.w.region ≠ none ∧ s.run ≠ 0 ∧ s.w.st = .running) ∧
    (let s := base.setB { base.b with al := { base.b.al with vregs := 8 } }
     (s.boundsFail (.add { F0 with d := .v 8 } .i32 false)).isSome = true) ∧
    (let s := base.setW { base.w with pending := [(.v 4, 1)] }
     s.boundsFail (.add F0 .i32 false) = none ∧ s.waitsFor (.add F0 .i32 false) = true) ∧
    issues base (.add { F0 with g := .pos 1 } .i32 false) = true ∧ base.active (.add { F0 with g := .pos 1 } .i32 false) = 0 ∧
    (Instr.add { F0 with g := .pos 1 } .i32 false).ownGuard = false ∧ issues base (.nop F0) = true ∧
    (Instr.add { F0 with h := 1 } .i32 false).fields = some { F0 with h := 1 } ∧
    (let s := base.setW { base.w with pc := [(31, 8)] }
     s.w.burst = 0 ∧ s.w.runPcs = [0, 8] ∧ s.headRun = some (0, false) ∧ s.held 0 = false ∧
       (s.setW { s.w with age := [(31, 64)] }).headRun = some (8, true)) := by decide +kernel

/-- Steps: of a legal word, an illegal one, a fetch that fails, one that misses, and one that meets a migration; of an event. -/
theorem witness_steps :
    (let legal := { base with mem := Memory.setNum base.mem 0x10000 8 0x2800000000000002 }
     legal.sched = [] ∧ legal.inbox = [] ∧ legal.w.st = .running ∧ legal.w.halted = false ∧ legal.w.fwait = none ∧ legal.w.pend = [] ∧
       legal.headRun = some (0, false) ∧ legal.fetch 0 = .word 0x2800000000000002 ∧ (decode 0x2800000000000002).isSome = true) ∧
    base.headRun = some (0, false) ∧ base.fetch 0 = .word 0 ∧ decode 0 = none ∧
    (let s := base.setW { base.w with pc := [(0, 0x30000), (31, 0x30000)] }
     s.headRun = some (0x30000, false) ∧ s.fetch 0x30000 = .bad 5) ∧
    (let s := base.setW { base.w with pc := [(0, 0x100000), (31, 0x100000)] }
     s.headRun = some (0x100000, false) ∧ s.fetch 0x100000 = .miss) ∧
    ({ base with migration := some ⟨1, 0, 0x10000, 0x90000, 65536, none⟩ } : State).fetch 0 = .stall ∧
    ({ base with inbox := [.samplingInterval] } : State).fairTurn = false ∧
    ({ base with inbox := [.samplingInterval], cycle := 7 } : State).fairTurn = true := by decide +kernel

/-- A well-formed word, and a state in canonical form from which a step goes on. -/
theorem witness_round_trip : (Instr.add ⟨.always, .v 3, .v 1, .s 5, .v 0, 0⟩ .i32 true).isWord = true ∧
    (Instr.add ⟨.always, .v 3, .v 1, .s 5, .v 0, 0⟩ .i32 true).wf = true := by decide +kernel

theorem witness_canonical_memory : base.memWf ∧ (nextOf (step base)).isSome = true := by decide +kernel

/-! ### Events of waits and of memory's side -/

def wt0 (k : WaitKind) (done : Bool) : WaitR := ⟨k, 0, 0x30048, 0x20048, 1, 0, .s 2, 1, [], false, done, [7], 0⟩
def elem0 (src : Src) (dst : Dst) : Elem := ⟨src, dst, 4, none, none⟩
def cmd0 (src : Src) (dst : Dst) : Cmd := ⟨3, 0, 9, 1, 0, [elem0 src dst], some 63, none, false, false, [], none, none⟩
def req0 (id : Nat) : Req :=
  ⟨id, 0, 9, 1, 1, 0, 0, [], [], 0x30000, 0, none, 0x301C0, 0x201C0, .add, .i32, 1, 0, .v 2, 0, false, false, false, false, false⟩

theorem witness_wait_events :
    (let s := base.setW { base.w with groups := [⟨0x80000001, [wt0 .flag true], false, [(31, 7)]⟩] }
     s.w.st = .running ∧ s.w.halted = false ∧ s.w.fwait = none ∧ s.w.pend = [] ∧ s.headRun = none ∧ (wt0 .flag true).done = true ∧
       (wt0 .flag true).kind ≠ .count ∧ (wt0 .flag false).done = false ∧ SMap.rising none [(31, (7 : W64))] = true) ∧
    (let c := cmd0 (.view 0x10000 0x20000) (.view 0x50000)
     let e := elem0 (.view 0x10000 0x20000) (.view 0x50000)
     let s : State := { base with cmds := [c] }
     s.cmd? 3 = some c ∧ s.srcPoison c e = none ∧ (!s.cmdBehind c && s.canPay (s.block c.blk).ctx c.src (e.readFee c.src)) = true ∧
       ({ s with poison := [(0x2000, ())] } : State).srcPoison c e = some 0x20000 ∧
       (let x := { c with chan := some (0, 1, 5) }
        ({ s with cmds := [{ x with chan := some (0, 1, 4) }, x] } : State).cmdBehind x = true) ∧
       ({ s with cmds := [{ c with els := [] }] } : State).wordGoesOn c = false ∧ ({ s with cmds := [{ c with els := [] }, { c with id := 4 }] } : State).wordGoesOn c = true) ∧
    (∀ d ∈ [Dst.view 0x50000, .sc 0, .dm 0, .dev 0x40000, .host 0, .reg (.v 2) 31 .w32],
      ({ base with cmds := [cmd0 (.data [1, 2, 3, 4]) d] } : State).cmd? 3 = some (cmd0 (.data [1, 2, 3, 4]) d)) ∧
    (let s : State := { base with reqs := [req0 4] }
     (s.reqs.find? fun x => x.id == (req0 4).id) = some (req0 4) ∧ s.reqBehind (req0 4) = false ∧
       ¬ Config.holdEntries ≤ (s.buffered (req0 4).loc).length ∧ ({ s with reqs := [{ req0 3 with loc := dmLoc 0 }, req0 4] } : State).reqBehind { req0 4 with loc := dmLoc 64 } = true) ∧
    (let r : Reply := ⟨5, 0, 0, 9, false, 1, 0, 31, .v 2, [9], 0, none⟩
     (({ base with replies := [r] } : State).replies.find? fun x => x.id == r.id) = some r ∧ (base.wave 32).st ≠ .absent ∧
       (base.block 1).st ≠ .saved) ∧
    (let s : State := { recBase with gate := [req0 4, req0 6] }
     (s.gate.find? fun x => x.id == (req0 6).id) = some (req0 6) ∧ ({ s with gate := [{ req0 4 with loc := dmLoc 0 }] } : State).reqBehind { req0 6 with loc := dmLoc 0 } = true ∧ s.reqBehind (req0 4) = false ∧
       s.gateBehind (req0 4) = false ∧ (req0 4).lock = false ∧ isDm (req0 4).loc = false ∧ s.replaying (req0 4).ctx = false ∧
       ({ recBase with gate := [{ req0 4 with held := true }, { req0 6 with held := true }] } : State).gateBehind { req0 6 with held := true } = true) ∧
    (let p : Probe := ⟨5, 0, false, 1, 0, 8, 0, false⟩
     (({ base with probes := [p], reqs := [req0 4] } : State).probes.find? fun x => x.id == p.id) = some p ∧ (req0 4).id < p.id ∧
       (req0 4).src = p.die ∧ (req0 6).id > p.id) := by decide +kernel

/-! ### Events of work -/

def grpState (g : Grp) : State := { base with grps := [(1, g)] }
def lev0 (lvl : Nat) : Lev := { Lev.blank 1 lvl (Packet.of []) with last := true }

theorem witness_ends :
    (let s := { grpState { Grp.blank with st := .running, nmem := 1 } with b := { base.b with st := .ended } }
     (s.block 1).st = .ended ∧ (s.block 1).failed = false ∧ s.cmds = [] ∧ (base.block 1).st ≠ .ended ∧ SMap.has s.grps (s.block 1).grp = true) ∧
    (let g := { Grp.blank with st := .running, nmem := 2, ended := 2 }
     (grpState g).allEnded 1 = true ∧ (grpState { g with kind := .fork }).allEnded 1 = true ∧ g.kind = .host ∧ g.st ≠ .ended) ∧
    (∀ l ∈ [3, 4, 5], (lev0 l).lvl = l ∧ (lev0 l).finished = false ∧ (lev0 l).ended = (lev0 l).launches.length ∧ (lev0 l).last = true) ∧
    (let s := base.setW { base.w with st := .ending }
     (s.wave 32).st = .ending ∧ s.launchesDone 32 = true) ∧
    SMap.rising none base.grps = true ∧ SMap.rising none base.tokens = true ∧ SMap.wf Core.zero base.cores = true := by decide +kernel

theorem witness_starts :
    (let g := { Grp.blank with ctx := 1, nmem := 1 }
     let s := grpState g
     g.st = .pending ∧ g.kind ≠ .fork ∧ g.cancelled = false ∧ (s.ctx 1).killing = false ∧ s.mayStart g = true ∧ s.dsmFree (dsmUnit g.dsm) = some 0 ∧
       g.copy = false ∧
       ({ s with grps := [(1, { g with preds := [5] }), (2, { g with launch := 5 })] } : State).mayStart { g with preds := [5] } = false) ∧
    (let g := { Grp.blank with ctx := 1, nmem := 1, st := .running, al := ⟨1, 8, 0, 0, 0, 0, 0⟩ }
     let s : State := { base.setPf (Pf.ctx 1 0x100) (BitVec.ofNat 64 (2 ^ 16 + 0xFF)) with w := .absent, b := .absent, grps := [(2, g)] }
     ((s.waitingOn 0).find? fun c => (s.placeCand 0 c).isSome).isSome = true) ∧
    (let s := base.setB { base.b with st := .waiting }
     ((s.waitingOn 0).head?).isSome = true ∧ (s.block 1).st = .waiting ∧ (s.chooseCore (s.block 1).ctx (s.block 1).al 0).isSome = true) ∧
    (let s := base.setB { base.b with st := .waiting, al := { base.b.al with waves := 999 } }
     s.waitedFor 1 = false) ∧
    (let lower := { base.b with handle := 2, gid := [1], slots := [1], al := ⟨1, 8, 0, 0, 0, 0, 0⟩ }
     let s (waves : Nat) : State := { base.setB { base.b with st := .waiting, prio := 1, al := { base.b.al with waves := waves } } with
       blocks := [(2, lower)], waves := [(64, { base.w with blk := 2 })], wft := [⟨0, false, 1, 2, 0, 2, 1, 0, 0, 64⟩, ent 0 1 true] }
     let low (s : State) := s.residentDown fun x => x.die == 0 && decide (x.prio < (s.block 1).prio)
     (s 1).waitedFor 1 = true ∧ ((s 1).block 1).die = 0 ∧ ((s 1).chooseCore 1 ((s 1).block 1).al 0).isSome = true ∧
       (let u := s 999
        u.chooseCore (u.block 1).ctx (u.block 1).al 0 = none ∧ (low u).find? u.maySave = none ∧
          (let v := (u.setPf (Pf.ctx 1 0x18) 0x10000).setPf (Pf.ctx 1 0x20) 0x40000
           v.waitedFor 1 = true ∧ v.chooseCore (v.block 1).ctx (v.block 1).al 0 = none ∧ (low v).find? v.maySave = some 2))) := by
  decide +kernel

theorem witness_checks :
    (let c := (base.waveKeys.findSome? fun k => base.findCycle base.wft k (base.wft.length + 1) k [k])
     c = none) ∧
    (let s : State := { base with waves := [(33, { base.w with idx := 1 })], wft := [ent 0 1 true, ent 1 1 false, ent 1 2 true, ent 0 2 false] }
     (s.waveKeys.findSome? fun k => s.findCycle s.wft k (s.wft.length + 1) k [k]).isSome = true) ∧
    (let s := base.setW { base.w with stall := some 2 }
     (s.wave 32).st = .running ∧ (s.wave 32).halted = false ∧ (s.wave 32).pend = [] ∧ s.stallOf 32 = some (2, 0)) ∧
    base.stallOf 32 = none ∧
    (let g := { Grp.blank with st := .running, stage := 0 }
     g.kind = .host ∧ g.stage ≠ 0xFF ∧ SMap.find? (grpState g).grps 1 = some g) ∧
    (let s : State := { base with
       waves := [(64, { base.w with blk := 2 })], blocks := [(2, { base.b with handle := 2, gid := [1], slots := [1], al := ⟨1, 8, 0, 0, 0, 0, 0⟩ })] }
     let here := s.resident 0 0
     here = [1, 2] ∧ (here.filter fun h => (s.wavesOf h).any s.canIssue).length = 2 ∧ s.atBoundary 2 = true ∧ s.cmds = [] ∧
       s.resident 1 0 = [] ∧ (∀ h ∈ here, gidLt (s.block 2).gid (s.block h).gid = false) ∧ s.noFrames 2 = true ∧
       s.fitsCore 1 (s.block 2).al 1 0 = true ∧ (s.block 2).st = .resident) := by decide +kernel

/-! ### Events of traps, pages and saving -/

theorem witness_trap_events :
    (let t : Trap := .of 0x0A 0 0x20040
     let s := base.setW { base.w with pend := [.of 0x0B 0 0, t] }
     firstPend s.w.pend ≠ none ∧ s.w.st = .running ∧ s.w.halted = false ∧ s.w.region = none ∧ t.at_ = none ∧
       ({ t with at_ := some (8, 1, 1) }).at_ = some (8, 1, 1)) ∧
    (let r : Region := ⟨0, [], [], 0, 0, [], .empty, .empty, [], 0, 0, false⟩
     let s := base.setW { base.w with region := some r }
     (s.wave 32).region = some r ∧ s.wavesAt 0 0 = [32]) ∧
    base.wavesAt 0 1 = [] ∧
    (let g := { Grp.blank with kind := .fork, st := .running }
     g.outcome = none ∧ SMap.find? (grpState g).grps 1 = some g ∧ 2 ≤ ({ g with execs := 2 }).execs) ∧
    (let r : ErrRec := ⟨2, 1, 3, 7, 1, 4, 0x40, 5, 6⟩
     r.rank ≠ 0 ∧ r.retry ≠ 3 ∧ base.sameBank 25 r = none ∧ fld (base.pfNum (Pf.bank 25 0)) 63 1 = 0 ∧
       (∀ a < 15, fld (((List.range 15).foldl (fun (s : State) b => s.setPf (Pf.bank 25 b) (2 ^ 63)) base).pfNum (Pf.bank 25 a)) 63 1 = 1) ∧
       fld (((List.range 15).foldl (fun (s : State) b => s.setPf (Pf.bank 25 b) (2 ^ 63)) base).pfNum (Pf.bank 25 15)) 63 1 = 0) := by decide +kernel

theorem witness_page_events :
    (let f : FaultEnt := ⟨7, 63, 1, 0x100000, 2, false⟩
     let s : State := { base with faults := [f] }
     s.faultAt 7 63 = some f ∧ ((s.pfNum Pf.fqprod).toNat % 2 ^ 32 + 2 ^ 32 - (s.pfNum Pf.fqcons).toNat % 2 ^ 32) % 2 ^ 32 <
         2 ^ ((s.pfNum Pf.fqlog2).toNat % 32) ∧
       (let t := s.setPf Pf.fqprod 1
        2 ^ ((t.pfNum Pf.fqlog2).toNat % 32) ≤ ((t.pfNum Pf.fqprod).toNat % 2 ^ 32 + 2 ^ 32 - (t.pfNum Pf.fqcons).toNat % 2 ^ 32) % 2 ^ 32) ∧
       s.faultAt 0 0 = none ∧
       (let t := s.setW { s.w with fwait := some ⟨7, 63, .of 0x12 0 0x100000⟩ }
        t.w.st ≠ .absent ∧ t.onEntry 7 63 = [t.w.key] ∧ t.copiesOf f.ctx = [])) ∧
    (let s : State := { base with inval := some (1, 0x10000, 65536) }
     s.rangeBusy 1 (0x10000, 65536) = false ∧ s.reqs ++ s.gate = [] ∧
       ({ s with reqs := [{ req0 4 with va := 0x1FFFF }] } : State).reqs.any (fun q => q.ctx == 1 && decide (q.va.toNat < 0x20000)) = true) ∧
    base.migration = none ∧
    (let m : Migration := ⟨1, 0x10000, 0x20000, 0x90000, 65536, none⟩
     let s : State := { base with migration := some m }
     (let moved := { m with moved := some 3 }
      ({ base with migration := some moved, ids := 3 } : State).forwards moved 3 = false) ∧
     s.rangeBusy 1 (0x10000, 65536) = false ∧
       (leafPa s.mem 0x10000 walkLevels (s.ptroot 1)).isSome = true ∧
       (match s.walk 1 0x10000 with
       | .leaf l => l.host == false
       | _ => false) = true) ∧
    (let s := (base.setPf Pf.migcmd 1).setPf (Pf.migcmd + 8) 0x10000
     (match s.walk (s.pfNum Pf.migcmd).toNat (s.pfNum (Pf.migcmd + 8)).toNat with
       | .leaf _ => true
       | _ => false) = true ∧ base.walk (base.pfNum Pf.migcmd).toNat 0 = .missing ∧ base.walk 1 0x900000 = .missing) := by decide +kernel

theorem witness_save_events :
    (let s := grpState { Grp.blank with st := .running }
     SMap.has s.grps (s.block 1).grp = true ∧ s.suspended 1 = false ∧ s.mayRestart 1 = false ∧
       (grpState { Grp.blank with st := .running, idem := true }).mayRestart 1 = true ∧
       (s.setW { s.w with halted := true }).suspended 1 = true ∧ s.atBoundary 1 = true) ∧
    (base.block 1).st = .resident ∧ (base.ctx 1).killing = false ∧ base.noFrames 1 = true ∧
    (base.setW { base.w with frames := [fr0 1 false] }).noFrames 1 = false ∧
    ((base.holdBlock 1 true).closeRegions 1).blockQuiet 1 = true ∧
    (∀ k ∈ ((base.holdBlock 1 true).closeRegions 1).wavesOf 1, (((base.holdBlock 1 true).closeRegions 1).wave k).region = none) ∧
    (let s := base.setB { base.b with st := .saved }
     s.mayPlace (s.block 1).ctx = true ∧ (s.chooseCore (s.block 1).ctx (s.block 1).al (s.block 1).die).isSome = true) ∧
    ((recBase.setCtx 1 { recBase.ctx 1 with killing := true }).ctx 1).killing = true ∧
    base.allHalted 1 = false ∧
    (let s := base.setW { base.w with halted := true }
     s.allHalted 1 = true ∧ 0 / (s.block 1).al.recLen < (s.block 1).al.waves) := by decide +kernel

/-- A save area of the context that the block's record fits: 16 pages of 64 KiB from VA 0x10000 on. -/
theorem witness_save_room :
    (let s := (base.setB { base.b with al := ⟨1, 8, 0, 0, 0, 0, 0⟩ }).setPf (Pf.ctx 1 0x18) 0x10000
     let t := s.setPf (Pf.ctx 1 0x20) 0x40000
     (t.saveFree 1 (roundUp (t.block 1).al.saveLen 65536)).isSome = true) := by decide +kernel

/-! ### Events of the host, of experts and of checkpoints -/

def upBase : State := { base with mgmt := { base.mgmt with boot := .up } }
def ringState (prod : Nat) : State :=
  ((upBase.setVf 1 Vf.rbase 0x30000).setVf 1 Vf.rcfg (BitVec.ofNat 64 (2 ^ 31 + 4))).setVf 1 Vf.prod (BitVec.ofNat 64 prod)

/-- A packet of one block whose completion record goes to the wharf page. -/
def hostPacket : List Byte :=
  leBytes 7 0x10000 ++ leBytes 1 1 ++ leBytes 4 1 ++ leBytes 1 1 ++ leBytes 3 0 ++ leBytes 2 8 ++ leBytes 4 0 ++ leBytes 1 0xFF ++ leBytes 41 0 ++
    leBytes 8 0x31000 ++ leBytes 2 0 ++ leBytes 2 0xFFFF ++ leBytes 52 0

theorem witness_host_events :
    upBase.up = true ∧ isVf 1 = true ∧ isVf 16 = true ∧ upBase.ringIdle 1 = true ∧ (ringState 1).ringIdle 1 = false ∧ (ringState 1).ringEn 1 = true ∧
    upBase.ringBase 1 % (128 * 2 ^ 4) = 0 ∧ fld (BitVec.ofNat 64 (2 ^ 31 + 4)) 31 1 = 1 ∧ fld (BitVec.ofNat 64 (2 ^ 31 + 4)) 0 5 = 4 ∧
    fld (BitVec.ofNat 64 (2 ^ 31 + 17)) 0 5 = 17 ∧
    (ringState 1).prodOf 1 ≠ (ringState 1).consOf 1 ∧ (ringState 1).pendingCount 1 < Config.pendingEntries ∧
    ((ringState 1).ctx 1).killing = false ∧ ((ringState 1).ctx 1).saving = false ∧
    (let s : State := { ringState 1 with mem := Memory.setBytes testObjects 0x40000 hostPacket }
     let p := Packet.of hostPacket
     s.slotBytes 1 = some hostPacket ∧ s.cvaOk 1 p.cva = true ∧ (s.passCons 1).packetCode 1 p = 0 ∧ s.cvaOk 1 0 = false ∧
       ((s.passCons 1).packetCode 1 { p with ty := 0 }) = 1) ∧
    ((ringState 1).setVf 1 Vf.rbase 0x70000).slotBytes 1 = none ∧
    (∀ l ∈ [2, 3, 5], fld (BitVec.ofNat 64 (l * 2 ^ 61)) 61 3 = l) ∧
    base.mgmt.boot = .reset ∧ ({ base.mgmt with boot := .recovery }).boot = .recovery ∧
    State.reset.mgmt.fuses.imageOk State.reset.mgmt.slotA = false ∧ State.reset.mgmt.fuses.imageOk State.reset.mgmt.buffer = false ∧
    fld (upBase.pfNum Pf.mbstat) 0 1 = 0 ∧ fld ((upBase.setPf Pf.mbstat 1).pfNum Pf.mbstat) 0 1 = 1 ∧
    (let s : State := { upBase with mgmt := { upBase.mgmt with svn := 3 } }
     s.mgmt.svn.toNat < ((s.setPf Pf.mbarg 4).pfNum Pf.mbarg).toNat ∧ ((s.setPf Pf.mbarg 3).pfNum Pf.mbarg).toNat ≤ s.mgmt.svn.toNat ∧
       s.mgmt.fuses.minSvn.toNat < ((s.setPf Pf.mbarg 3).pfNum Pf.mbarg).toNat ∧ (s.pfNum Pf.mbarg).toNat ≤ s.mgmt.fuses.minSvn.toNat) ∧
    upBase.mgmt.session = none ∧ upBase.mgmt.ide.length < 4 ∧
    upBase.busyAny = true ∧ ({ upBase with w := .absent, b := .absent } : State).busyAny = false ∧
    upBase.busyCtx 1 = true ∧ upBase.busyCtx 2 = false := by decide +kernel

def sw0 : Switch := ⟨1, [(5, some 2)], [(5, List.replicate 128 1)], [⟨5, 0x1000, 64, 2, 0x2000⟩], .waiting, 0⟩

theorem witness_expert_events :
    (let u := upBase.setPf Pf.xpcfg (BitVec.ofNat 64 (2 ^ 63 + 2 ^ 56))
     let s : State := { u with exp := { u.exp with switch := some sw0, live := [] } }
     s.up = true ∧ s.memWf ∧ s.xpEn = true ∧ s.exp.switch = some sw0 ∧ sw0.st = .waiting ∧ (∀ e ∈ s.exp.live, e.1 ≠ sw0.ver.toNat % 4) ∧
       (∃ e ∈ ({ s.exp with live := [(1, 1)] } : Expert).live, e.1 = sw0.ver.toNat % 4) ∧
       ({ sw0 with st := .writing, next := 7 }).next = 7 ∧ Memory.wf s.dsm = true ∧ (∀ e ∈ sw0.table, e.2.length = 128 ∧ e.1 < 8192) ∧
       (sw0.table.map Prod.fst).Nodup ∧ sw0.ver.toNat % 4 ≠ s.xNewest 7 % 4 ∧ (∃ x ∈ sw0.copies, x.die = 2) ∧
       ({ sw0 with st := .copying }).st = .copying) ∧
    upBase.xpEn = false ∧
    (let s := base.setPf Pf.xpcfg (BitVec.ofNat 64 (2 ^ 63 + 2 ^ 56))
     s.xpEn = true ∧ s.exp.switch = none ∧ ∀ d < 8, s.xNewest d = s.xPublished) ∧
    (let g : Grace := ⟨4, 0x1000, 0, 64⟩
     (({ upBase with exp := { upBase.exp with grace := [g] } } : State).exp.grace.find? fun x => x.id == g.id) = some g) ∧
    (let w (j : Nat) : W64 := if j = 4 then BitVec.ofNat 64 (2 ^ 48) else ({ upBase with w := .absent, b := .absent } : State).pfNum (Pf.window 15 + 8 * j)
     (fld (w 4) 48 1 == 1 && !windowOk (w 0) (w 1) (w 2) (w 3) (w 4)) = true) ∧
    (let part : Part := ⟨2, 5, false, false, false, false, 0⟩
     let s := ((upBase.setPf (Pf.redwin 1 0 + 8) 64).setPf (Pf.redwin 1 0 + 0x10) (BitVec.ofNat 64 (2 ^ 24 + 2 * 2 ^ 16)))
     let t : State := { s with windows := [⟨1, 1, 8, part⟩, ⟨1, 1, 8, part⟩] }
     t.windows[0]? = some ⟨1, 1, 8, part⟩ ∧ t.windows[1]? = some ⟨1, 1, 8, part⟩ ∧ t.combines 1 8 part.op = true ∧ 1 ≠ t.ownPackage 1) := by decide +kernel

/-- A context whose last packet ended its phase. -/
def ckState (c : Nat) : State :=
  { (upBase.setPf Pf.ckcmd0 (BitVec.ofNat 64 (2 ^ 8 * c + 1))).setPf Pf.poolcfg (BitVec.ofNat 64 (2 ^ 30 + 64)) with
    ctxs := [(c, { Ctx.zero with last := some (0, 0, 0, 0) })], levs := [(9, { lev0 4 with ctx := c, finished := true, launches := [3] })] }

theorem leaves_table {mem : Memory} {sh n : Nat} {a : Bool} {ls : List (Nat × Nat × Bool × Bool)} {tab base : Nat} {x : Nat × Nat × Nat}
    (i t : Nat) (hi : i < 2 ^ n) (h : Memory.num mem (tab + 8 * i) 8 = t + 1)
    (ht : ¬ (((t + 1) % 2 = 0 || (t + 1) / 2 ^ 52 % 128 ≠ 0 || (t + 1) / 256 % 16 ≠ 0) = true) ∧ ¬ (t + 1) / 2 % 2 = 1 ∧
      ¬ ((!true || (t + 1) / 4 % 64 ≠ 0 || (t + 1) / 2 ^ 59 ≠ 0 || Config.hbmBytes ≤ (t + 1) / 4096 % 2 ^ 40 * 4096) = true) ∧
      (t + 1) / 4096 % 2 ^ 40 * 4096 = t)
    (hx : x ∈ leavesGo mem ls t (base + i * 2 ^ sh)) : x ∈ leavesGo mem ((sh, n, a, true) :: ls) tab base := by
  simp only [leavesGo, List.mem_flatMap, List.mem_range]
  refine ⟨i, hi, ?_⟩
  rw [h, if_neg ht.1, if_neg ht.2.1, if_neg ht.2.2.1, ht.2.2.2]
  exact hx

theorem leaves_leaf {mem : Memory} {sh n : Nat} {b : Bool} {ls : List (Nat × Nat × Bool × Bool)} {tab base : Nat}
    (i e : Nat) (hi : i < 2 ^ n) (h : Memory.num mem (tab + 8 * i) 8 = e)
    (he : ¬ ((e % 2 = 0 || e / 2 ^ 52 % 128 ≠ 0 || e / 256 % 16 ≠ 0) = true) ∧ e / 2 % 2 = 1) :
    (base + i * 2 ^ sh, e, sh) ∈ leavesGo mem ((sh, n, true, b) :: ls) tab base := by
  simp only [leavesGo, List.mem_flatMap, List.mem_range]
  refine ⟨i, hi, ?_⟩
  rw [h, if_neg he.1, if_pos he.2]
  simp

/-- The image of context 1 has the page at VA 0x10000, so a save can meet poison there. -/
theorem witness_unit : ∃ u ∈ (ckState 1).units 1, u.pa = 0x20000 := by
  refine ⟨⟨0x10000, bareLeaf 0x20023, 0x20000⟩, ?_, rfl⟩
  simp only [State.units, List.mem_flatMap]
  refine ⟨(0 + 0 * 2 ^ 48 + 0 * 2 ^ 39 + 0 * 2 ^ 30 + 0 * 2 ^ 21 + 1 * 2 ^ 16, 0x20023, 16), ?_, by decide +kernel⟩
  have h : (ckState 1).ptroot 1 = 0x1000 := by decide +kernel
  rw [h]
  exact leaves_table 0 0x2000 (by decide) (by decide +kernel) (by decide +kernel)
    (leaves_table 0 0x3000 (by decide) (by decide +kernel) (by decide +kernel)
    (leaves_table 0 0x4000 (by decide) (by decide +kernel) (by decide +kernel)
    (leaves_table 0 0x5000 (by decide) (by decide +kernel) (by decide +kernel)
      (leaves_leaf 1 0x20023 (by decide) (by decide +kernel) (by decide +kernel)))))

/-- Checkpoints: a save that is not at a step boundary, one that is, a restore, and both ends; a unit to place; streams. -/
theorem witness_checkpoints :
    (let s := upBase.setPf Pf.ckcmd0 (BitVec.ofNat 64 (2 ^ 8 + 1))
     s.up = true ∧ s.ckOp = 1 ∧ s.ckpt = none ∧ s.ckCtx = 1 ∧ s.ckBoundary 1 = false ∧ s.ckStore = false ∧
       (ckState 1).ckBoundary 1 = true ∧ (ckState 2).ckBoundary 2 = true ∧ (ckState 2).units 2 = []) ∧
    (upBase.setPf Pf.ckcmd0 (BitVec.ofNat 64 (2 ^ 8 + 2))).ckOp = 2 ∧
    (let k : Ckpt := ⟨false, 1, 0x1000, 0, false, 6, [], [3]⟩
     ({ upBase with ckpt := some k } : State).ckpt = some k ∧ ({ k with restore := true }).restore = true ∧ SMap.has k.streams 15 = false ∧
       ∀ n < 16, SMap.has ((List.range 16).map fun n => (n, ([] : List Byte))) n = true) ∧
    (upBase.placeUnit 1 (leBytes 8 0x10000 ++ leBytes 8 (bareLeaf (Memory.num upBase.mem 0x5008 8)) ++ [7])).isSome = true ∧
    (let s := upBase.setPf Pf.rsvcfg (BitVec.ofNat 64 (3 * 2 ^ 48 + 1))
     s.rsvSrc = 3 ∧ s.rsvSize ≠ 0 ∧ s.rsvTakes 3 0 [] = true ∧ s.restores 3 = false ∧ upBase.rsvSize = 0 ∧
       ({ upBase with ckpt := some ⟨true, 1, 0x1000, 3, false, 0, [], []⟩ } : State).restores 3 = true ∧
       SMap.find? ({ s with reserve := [(16 * 3 + 15, ⟨[1], 0, 0⟩)] } : State).reserve (16 * 3 + (31 - 16)) = some ⟨[1], 0, 0⟩) := by decide +kernel

/-! ### Numbers, wrong objects and events beside those above -/

/-- A magnitude with a sticky rest, cut below the precision of F32. -/
theorem witness_round : Fmt.f32.num ≤ 10 ∧ ((2 ^ 26 : ℕ) : ℚ) * 2 ^ (-10 : Int) ≤ 65536 + 1 / 2048 ∧
    (65536 + 1 / 2048 : ℚ) < (((2 ^ 26 : ℕ) : ℚ) + 1) * 2 ^ (-10 : Int) ∧ ((2 ^ 26 : ℕ) : ℚ) * 2 ^ (-10 : Int) ≠ 65536 + 1 / 2048 ∧
    2 ^ ((fpOf .f32).prec + 2) ≤ 2 ^ 26 :=
  ⟨by decide, by norm_num, by norm_num, by norm_num, by decide⟩

/-- Codes that are no NaN, in order: −1.0 and 1.0; operands of an atomic operation; terms of an accumulation, the largest at 2^0. -/
theorem witness_orders :
    (decodeF .f32 0xBF800000).isNan = false ∧ (decodeF .f32 0x3F800000).isNan = false ∧
      cmpVal (decodeF .f32 0xBF800000) (decodeF .f32 0x3F800000) < 0 ∧
    (0xFFFFFFFF < 2 ^ (8 * DT.i32.bytes) ∧ 2 ^ 64 - 1 < 2 ^ (8 * DT.n64.bytes)) ∧
    (let ts : List Val := [.fin false 1 0, .fin true 1 (-30), .fin false 0 0]
     Fmt.f32 ≠ .dd ∧ (∀ t ∈ ts, t.isNan = false) ∧ (∀ n, Val.inf n ∉ ts) ∧ ∀ t ∈ ts, t.isZero = true ∨ t.top < 1) := by
  refine ⟨by decide +kernel, by decide +kernel, by decide +kernel, by decide +kernel, by decide, by decide +kernel, by decide +kernel, by decide +kernel⟩

/-- The last lanes exit in a region, while a copy acts on the view, and in a handler of a trap that ends the wave. -/
theorem witness_last_exits :
    (let r : Region := ⟨0, [], [], 0, 0, [], .empty, .empty, [], 0, 0, false⟩
     let s := base.setW { base.w with region := some r }
     (Instr.exit F0).closes = false ∧ goes s (.exit F0) = true ∧ s.w.region ≠ none ∧ s.w.exited ||| s.active (.exit F0) = BitVec.allOnes 32) ∧
    (let s : State := { base with cmds := [cmd0 (.dev 0) (.view 0x50000)] }
     goes s (.exit F0) = true ∧ s.w.region = none ∧ s.viewBusy = true) ∧
    (let s := base.setW { base.w with frames := [fr0 0x11 false] }
     goes s (.exit F0) = true ∧ (∃ fr ∈ s.w.frames, fr.cause = 0x11)) := by decide +kernel

/-- Wrong objects: a participant that does not exist, a release by a wave that holds nothing, a flag word among others that is
none, and a slot whose round is past. -/
theorem witness_wrong_objects :
    (let s := objState 0x20000 2 testObjects
     let f := { FO with d := .zero }
     let t := s.atBar false f.a
     goes s (.barv f false .blk) = true ∧ lines s false [0] (fun _ => s.objAddr false f.a 0) = true ∧ t.isBar (t.barLoc false f.a) = true ∧
       t.barLoc false f.a ≠ blkLoc ∧ (t.bar s.w.blk (t.barLoc false f.a)).npart ≤ (t.partOf f.a f.b).toNat) ∧
    (let s := objState 0x20080 3 (heldLock 3)
     let f := { FO with d := .zero }
     goes s (.olrel f false .blk) = true ∧ lines s false [0] (fun _ => s.objAddr false f.a 0) = true ∧
       (s.objLoc false (s.objAddr false f.a 0), false) ∉ s.w.grants ∧ (s.objLoc false (s.objAddr false f.a 0), true) ∉ s.w.grants ∧
       goes s (.olrelFree f false .blk) = true) ∧
    (let s := testState [] (testRow 4 fun l => if l = 0 then 0x20048 else 0x20000) []
     let i := Instr.fpost F0 false .blk
     goes s i = true ∧ lines s false (lanesOf (s.active i)) (s.objAddr false F0.a) = true ∧ s.releaseBusy [] (lanesOf (s.active i)) = false ∧
       s.isFlag (s.objLoc false (s.objAddr false F0.a 0)) = true ∧ s.isFlag (s.objLoc false (s.objAddr false F0.a 31)) = false) ∧
    (let s := { testState [] (testRow 4 (fun _ => 0x20140)) [] with run := 1, mem := Memory.setNum testObjects 0x30200 8 2 }
     let f := { F0 with c := .zero }
     let act := s.active (.qpush f false .blk)
     let t := s.atLines false (lanesOf act) (s.objAddr false f.a)
     goes s (.qpush f false .blk) = true ∧ lines s false (lanesOf act) (s.objAddr false f.a) = true ∧
       lines t false (lanesOf act) (fun l => s.slotAddr (s.objLoc false (s.objAddr false f.a l)) (s.opnd64 f.b l).toNat) = true ∧
       pushChk (s.loc 0x30200 8) (s.opnd64 f.b 0).toNat = .bad) := by decide +kernel

/-- The block barrier with every wave there: it closes, with and without a conflict; it waits for a fork. -/
theorem witness_block_barrier :
    let s (v w : SMap Byte) (fk : Option Nat) : State :=
      { base with
        w := { base.w with view := { View.empty with bytes := v } }
        b := { base.b with bar := { Bar.zero with npart := 2, arrived := 2 } }
        waves := [(33, { base.w with idx := 1, view := { View.empty with bytes := w }, fork := fk })] }
    let t := s [(0x10000, 1)] [(0x10001, 2)] none
    let u := s [(0x10000, 1)] [(0x10000, 2)] none
    let folded (s : State) := (s.wavesOf 1).foldl (fun f k => f.member (k % 32) (s.wave k).view.bytes
      (s.overByte (s.block 1).ctx (overlayOn (s.block 1).start (s.block 1).view))) Fold.empty
    (t.block 1).st ≠ .absent ∧ t.wavesOf 1 = [32, 33] ∧ t.reqs = [] ∧ (t.bar 1 blkLoc).arrived = (t.bar 1 blkLoc).npart ∧
      (t.bar 1 blkLoc).ovr = false ∧ (t.bar 1 blkLoc).landed = (t.bar 1 blkLoc).expect ∧ (∀ k ∈ t.wavesOf 1, t.keepsOpen k = false) ∧
      (folded t).confl = [] ∧ (folded u).confl ≠ [] ∧ (folded u).record.isSome = true ∧ (s [] [] (some 3)).keepsOpen 33 = true ∧
      (let v : State := { u with w := { u.w with st := .ending }, waves := u.waves.map fun e => (e.1, { e.2 with st := .ended }) }
       (v.wave 32).st = .ending ∧ (v.wave 33).st = .ended ∧ v.wavesOf 1 = [32, 33] ∧ (∀ k ∈ v.wavesOf 1, v.keepsOpen k = false) ∧
         (folded v).confl ≠ []) := by decide +kernel

/-- `recBase` replaying a log. -/
def replayBase : State := { base with ctxs := [(1, { Ctx.zero with first := some (0, 0, 2) })] }

theorem witness_order_events :
    (let r (id : Nat) : Reply := ⟨id, 0, 1, 9, false, 1, 0, 31, .v 2, [9], 0, none⟩
     let s : State := { base with replies := [r 4, r 5] }
     (s.replies.find? fun x => x.id == 5) = some (r 5) ∧ ∃ x ∈ s.replies, x.id < 5 ∧ x.src = (r 5).src ∧ x.blk = (r 5).blk) ∧
    (let s : State := { base with reqs := (List.range Config.holdEntries).map fun n => { req0 (10 + n) with held := true, loc := dmLoc 0 } }
     Config.holdEntries ≤ (s.buffered (dmLoc 8)).length) ∧
    (let q : Req := { req0 6 with lock := true, op := .swap, loc := 0x30100, held := true }
     let s : State := { recBase with gate := [{ q with id := 4 }, q] }
     (s.gate.find? fun x => x.id == q.id) = some q ∧ s.gateBehind q = false ∧
       (∃ a x b, (s.gate.filter fun y => y.held) = a ++ x :: b ∧ (∀ y ∈ a, y.id ≠ q.id) ∧ x.id ≠ q.id ∧ x.lock = true ∧ x.op = .swap ∧
         x.loc / 64 = q.loc / 64 ∧ x.spilled = false)) ∧
    (replayBase.replaying 1 = true ∧ (replayBase.ctx 1).log = none ∧
      (let g := { Grp.blank with ctx := 1, nmem := 1 }
       g.kind = .host ∧ g.st = .pending ∧ ({ replayBase with grps := [(1, g)] } : State).mayStart g = false)) := by
  refine ⟨by decide +kernel, by decide +kernel, ⟨by decide +kernel, by decide +kernel, [], ?_⟩, by decide +kernel⟩
  exact ⟨{ req0 4 with lock := true, op := .swap, loc := 0x30100, held := true },
    [{ req0 6 with lock := true, op := .swap, loc := 0x30100, held := true }], by decide +kernel⟩

/-- A stage that starves beside one of its graph with a block waiting. -/
theorem witness_pressure :
    let al : Alloc := ⟨1, 8, 0, 0, 0, 0, 0⟩
    let g (stage nmem : Nat) : Grp := { Grp.blank with ctx := 1, st := .running, stage := stage, nmem := nmem, al := al }
    let pop : WaitR := ⟨.pop, 0, 0x30140, 0x20140, 1, 0, .v 2, 1, [], true, false, [], 0⟩
    let s : State := { ((base.setPf (Pf.ctx 1 0x18) 0x10000).setPf (Pf.ctx 1 0x20) 0x40000).setPf (Pf.ctx 1 0x100) (BitVec.ofNat 64 (2 ^ 16 + 0xFF)) with
      w := { base.w with groups := [⟨0x80000001, [pop], false, []⟩], pc := [] }
      b := { base.b with grp := 1, al := al, slots := [0] }
      grps := [(1, g 0 1), (2, g 1 1)], press := [(8, ⟨0, 1, 1⟩)] }
    let stages := s.grps.filter fun e => e.2.kind == .host && e.2.stage != 0xFF && e.2.st == .running
    let u := { s with press := [(8, s.pressNow 1 (g 0 1) 0), (16, s.pressNow 2 (g 1 1) 0)] }
    stages.length = 2 ∧ (s.pressNow 1 (g 0 1) 0).starved = 2 ∧ u.stageFor 0 stages (1, g 0 1) = some 2 ∧
      (u.residentDown fun b => b.die == 0 && b.grp == 1).find? u.maySave = some 1 := by decide +kernel

theorem witness_strikes :
    (let s : State := { base with waves := [(33, { base.w with idx := 1 })] }
     s.wavesAt 0 0 = [32, 33] ∧ (s.wave 33).region = none ∧ s.ownFork 1 = none) ∧
    (let g := { Grp.blank with kind := .fork, st := .running }
     let s : State := { base with b := { base.b with grp := 1 }, grps := [(1, g)] }
     s.ownFork 1 = some 1) ∧
    (let r : ErrRec := ⟨0, 1, 3, 7, 1, 4, 0x40, 5, 6⟩
     r.rank = 0 ∧ ({ r with rank := 1, retry := 0, unit := 0x0D }).rank ≠ 0 ∧ ({ r with unit := 0x0D }).unit < 0x0E) := by decide +kernel

/-- A cancelled block is not restarted; a block that exists; a save that finds no room, one that the driver asked for; a frame held. -/
theorem witness_saves :
    (let s := grpState { Grp.blank with st := .running, idem := true }
     (s.setB { s.b with cancelled := true }).mayRestart 1 = false) ∧
    1 < base.handles ∧ (base.saveFree 1 (roundUp (base.block 1).al.saveLen 65536)) = none ∧
    ((base.setB { base.b with evicted := true }).block 1).evicted = true := by decide +kernel

theorem witness_fetches :
    (2 ^ 56 ≤ (0xFF00000000000000 : W64).toNat) ∧
    (let s : State := { base with poison := [(0x2000, ())] }
     (match s.walk 1 0x10000 with
     | .leaf l => l.cls == .view && s.readsPoison (.view 0x10000 (l.paOf 0x10000)) 8
     | _ => false) = true) ∧
    (base.walk 1 0x100000 = .missing) ∧
    ({ base with mem := Memory.setNum base.mem 0x5030 8 1 } : State).walk 1 0x60000 = .malformed := by
  decide +kernel

/-- A route that is not there; a tile that a held side-pound tile commits to; streams that the reserve holds. -/
theorem witness_routes :
    (let s := (base.setPf (Pf.ctx 1 0x100) (BitVec.ofNat 64 (2 * 2 ^ 16 + 1))).setW { base.w with slots := [(3, 7)] }
     let t : State := { s with grps := [(7, { Grp.blank with nmem := 2 })] }
     t.cancelUnrouted (.slot 3) = true ∧ s.cancelUnrouted (.slot 3) = false ∧ base.cancelUnrouted (.self 1) = false) ∧
    (let s := base.setW { base.w with r := { base.w.r with sh := [(0, ⟨shWord false 15 .f32 .f32 .sq false false 0 0, 0, 0, 0⟩)] } }
     goes s (.mz FM) = true ∧ (∃ e ∈ s.quarters FM.g, e.1 = 0) ∧ (s.w.side 0).held = true ∧ (s.w.side 0).tgt = 15 ∧
       (s.w.side 3).held = false) ∧
    (2 * Rsz.r16.bytes ≤ 1024) := by decide +kernel

/-- An image of version 5 signed by a fused key, where its signature holds (whether one does is Config's). -/
theorem witness_image :
    let m : Memory := Memory.setNum (Memory.setNum (Memory.setNum [] 0 4 0x57465254) 4 2 1) 8 4 5
    let f : Fuses := ⟨sha3 (Memory.bytes m 0x10 1312), 0, false, true, 5, 0⟩
    Config.verify (Memory.bytes m 0x10 1312) (imageDigest m) (Memory.bytes m 0x530 2420) = true →
      f.imageOk m = true ∧ Memory.num m 8 4 = 5 := by
  intro m f h
  have h1 : (Memory.num m 0 4 == 0x57465254 && Memory.num m 4 2 == 1) = true := by decide +kernel
  have h2 : Memory.num m 8 4 = 5 := by decide +kernel
  have h3 : Memory.num m 6 2 = 0 := by decide +kernel
  refine ⟨?_, h2⟩
  simp only [Fuses.imageOk, Fuses.keyOk, h, h1, h2, h3]
  simp [f]

theorem witness_host_access :
    2 ^ upBase.mgmt.bar2 = 2 ^ 40 ∧ upBase.mgmt.active = none ∧
    (let s : State := { upBase with mgmt := { upBase.mgmt with session := some 7, ide := [(0, []), (1, []), (2, []), (3, [])] } }
     s.mgmt.session = some 7 ∧ SMap.has s.mgmt.ide 9 = false ∧ 4 ≤ s.mgmt.ide.length ∧ SMap.has s.mgmt.ide 3 = true) ∧
    (let s := (upBase.setPf Pf.mbstat 1).setPf Pf.mbcmd 2
     fld (s.pfNum Pf.mbstat) 0 1 = 1 ∧ s.pfNum Pf.mbcmd ≠ 1 ∧ s.pfNum Pf.mbcmd = 2) ∧
    pfNamed 0x7FF8 = false ∧ pfNamed Pf.mbcmd = true ∧ vfNamed Vf.rcfg = true ∧ Pf.mbcmd ≠ Pf.xpstat ∧
    (∀ k < 26, Pf.mbcmd ≠ Pf.errsum k) ∧
    (({ upBase with mgmt := { upBase.mgmt with active := some true } } : State).mgmt.active = some true) ∧
    ({ upBase with mgmt := { upBase.mgmt with boot := .recovery } } : State).mgmt.boot = .recovery ∧
    (let s : State := { ringState 1 with ctxs := [(1, { Ctx.zero with first := some (0, 0, 0) })] }
     (s.ctx 1).first = some (0, 0, 0) ∧ (Packet.of hostPacket).job = 0) := by decide +kernel

theorem witness_reserve :
    (let s := ((upBase.setPf Pf.rsvcfg (BitVec.ofNat 64 (3 * 2 ^ 48 + 1))).setPf Pf.ckcmd0 (BitVec.ofNat 64 (3 * 2 ^ 16 + 2 ^ 8 + 2)))
     s.ckOp = 2 ∧ s.ckpt = none ∧ s.ckStore = false ∧ s.ckPeer = 3 ∧ s.ckPeer ≠ s.ownPackage s.ckCtx ∧ s.stored 0 = none) ∧
    (let s : State := { upBase with reserve := (List.range 16).map fun n => (n, ⟨[], 0, 0⟩) }
     s.ckPeer = s.ownPackage s.ckCtx ∧ ∀ n < 16, s.stored n = some []) ∧
    (let k : Ckpt := ⟨false, 1, 0x1000, 0, false, 6, [], [3]⟩
     let s : State := { upBase with ckpt := some k, inbox := [.reserveStreamAccept 0 5 []] }
     k.peer = s.ownPackage k.ctx ∧ .reserveStreamAccept k.peer 5 [] ∈ s.inbox ∧ 3 ∈ k.taken ∧ 0 ∉ k.taken) ∧
    (let u := upBase.setPf Pf.xpcfg (BitVec.ofNat 64 (2 ^ 63 + 2 ^ 56))
     u.xpEn = true ∧ u.exp.switch = none ∧ ∀ d < 8, u.xNewest d = u.xPublished) ∧
    (let s : State := { upBase with windows := [⟨1, 0, 8, ⟨2, 5, false, false, false, false, 0⟩⟩] }
     s.windows[0]? = some ⟨1, 0, 8, ⟨2, 5, false, false, false, false, 0⟩⟩ ∧ s.ownPackage 1 = 0) := by decide +kernel

/-- A poisoned side-pound tile to commit, whose rows pass with %mrow past all but the last; rows that go and rows that do not; no
active quarter. -/
theorem witness_ahead_rows :
    (let s := testState [(4, 0x10000), (6, 0x50000), (8, 0x10001)] [] []
     let t := { s with run := 1, b := { s.b with al := { s.b.al with sht := 4 } } }
     let x : Sh := ⟨shWord true 14 .f32 .f32 .sq false false 0 0, 0x10000, 0x50000, 0x10001⟩
     let u := (t.setW { t.w with r := { t.w.r with sh := [(0, x)] } }).setMrow 15
     let f : F := { FM with a := .p 0 }
     goes u (.shcom f) = true ∧ u.quarters f.g ≠ [] ∧ u.b.al.sht ≠ 0 ∧ (u.w.side 0).held = true ∧ (u.w.side 0).poison = true ∧
       (u.w.side 0).stale = false ∧ (u.w.side 0).tgt % 2 = 0 ∧ u.opnd f.a 1 0 = 1 ∧ u.w.region = none ∧
       isOk (u.recheck [(0, 0)] u) = true ∧
       (let v := (t.setW { t.w with r := { t.w.r with sh := [(0, { x with abase := 0x10008 })] } })
        (match v.recheck [(0, 0)] v with
        | .stop (.trap _ y) => y.cause == 4
        | _ => false) = true) ∧
       (let v := (t.setW { t.w with r := { t.w.r with sh := [(0, { x with abase := 0x900000 })] } })
        (match v.recheck [(0, 0)] v with
        | .stop (.fault ..) => true
        | _ => false) = true)) ∧
    (let s := testState [(4, 0x10000), (6, 0x900000), (8, 0)] [] []
     let t := { s with run := 1, b := { s.b with al := { s.b.al with sht := 4 } } }
     goes t (.mmas FM .f64 .f64 .sq false false) = true ∧ t.b.race = none ∧ t.quarters FM.g ≠ [] ∧
       ∀ x ∈ t.matArgs FM false false, ∀ r ∈ x.rows .sq false false,
         (match firstFail (t.rowChks r (rowLen .f64 (Shape.sq.k .f64)) false) with
         | some c => c.2.2 != .stall
         | none => (t.rowPlaces r (rowLen .f64 (Shape.sq.k .f64)) false).all fun p => !t.placeWaits r.lane p.1 p.2 false && !t.readsPoison p.1 16 &&
           (match p.1 with
           | .view .. => true
           | _ => false)) = true) ∧
    (let s := { base with run := 0x80000000 }
     let f : F := { FM with g := .pos 1 }
     issues s (.shdis f) = true ∧ s.quarters f.g = []) := by decide +kernel

/-- Points whose weights sum to 1, two cut at a half; a probability at a midpoint, between two, and outside; terms of both infinities. -/
theorem witness_dist_values :
    (let x : List (PV × ℚ) := [(.fin false 1, 1 / 2), (.fin false 3, 1 / 2)]
     (∀ p ∈ x ++ x, 0 < p.2) ∧ cumWeight x x.length = 1 ∧ cumWeight x 0 + 1 / 2 / 2 < (1 / 2 : ℚ) ∧ (1 / 2 : ℚ) < cumWeight x 1 + 1 / 2 / 2 ∧
       (1 / 4 : ℚ) = cumWeight x 0 + 1 / 2 / 2 ∧ cumWeight x 1 + 1 / 2 / 2 ≤ (3 / 4 : ℚ)) ∧
    PV.bits 0x3F000000 = .fin false (1 / 2) ∧ PV.bits 0xBF800000 = .fin false (-1) ∧ PV.bits 0x7F800000 = .inf false ∧
    (moment [(.inf false, 1 / 2), (.inf true, 1 / 2)] .mean).2 = Fl.nv ∧
    (let ps : List (Nat × Nat) := [(5, 0x3F000000), (7, 0x3F000000)]
     ps[1]? = some (7, 0x3F000000) ∧ wgtRat 0x3F000000 ≤ (3 / 4 : ℚ) ∧ 1 + 1 = ps.length) := by decide +kernel

/-- A value between two of a format, its greatest value, and formats of each kind. -/
theorem witness_stochastic : ¬ Holds .e2m1 5 ∧ (5 : ℚ) ≤ (decodeF .e2m1 (maxBits .e2m1 false)).rat ∧ Fmt.e2m1.num ≤ 10 ∧ 11 ≤ Fmt.i8.num ∧
    Fmt.b1.num ≤ 22 ∧ Fmt.i8 ≠ .b1 := by
  refine ⟨?_, ?_, by decide, by decide, by decide, by decide⟩
  · have hk : ∀ c < 16, (match decodeF .e2m1 c with
        | .fin _ k e => decide (k ≤ 3 ∧ -1 ≤ e ∧ e ≤ 1)
        | _ => true) = true := by decide +kernel
    rintro ⟨c, hc, n, k, e, h, hv⟩
    have hk := hk c hc
    rw [h] at hk
    obtain ⟨h1, h2, h3⟩ := of_decide_eq_true hk
    cases n <;> interval_cases e <;> interval_cases k <;> norm_num [Val.rat] at hv
  · have h : decodeF .e2m1 (maxBits .e2m1 false) = .fin false 3 1 := by decide +kernel
    rw [h]
    norm_num [Val.rat]

/-- A partial of an integer sum and of an exact one after their first operand, and a `red` with a region open. -/
theorem witness_partials :
    fopOk 4 = true ∧ fopOk 2 = true ∧
    (∃ p, SMap.find? (View.empty.red 4 0x40000 3).parts 0x40000 = some p ∧ PartHolds 4 [3] p) ∧
    (let s := testState [] (testRow 4 fun l => 0x40000 + 4 * l) []
     let r : Region := ⟨0, [], [], 0, 0, [], .empty, .empty, [], 0, 0, false⟩
     let t := s.setW { s.w with region := some r }
     goes t (.red F0 .add .f32) = true ∧ t.w.region ≠ none ∧ SMap.rising none (View.empty.red 4 0x40000 3).parts = true) := by
  refine ⟨by decide, by decide, ⟨_, rfl, ?_⟩, by decide +kernel⟩
  refine ⟨by decide +kernel, fun h => absurd h (by decide), fun _ => ?_⟩
  change ((Part.empty 4).addTerm true 3).val.toNat = _
  decide +kernel

/-- A request at a poisoned location, in HBM and in dsm. -/
theorem witness_poisoned_request :
    (∀ loc ∈ [0x301C0, dmLoc 64], ({ base with poison := [(loc / 16, ())] } : State).poisoned loc DT.i32.bytes = true) ∧ (req0 4).op ≠ .store ∧
      (req0 4).op ≠ .load ∧ base.poisoned 0x301C0 4 = false := by decide +kernel

/-- A pass of a turn before the last and of the last; an ordinary wait. -/
theorem witness_passes :
    ∀ n ∈ [2, 3], (let s : State := { base with mem := heldLock n }
      let t : State := { s with mem := Memory.setBytes s.mem 0x30081 [0] }
      let r : WaitR := ⟨.pass, 0, 0x30080, 0x20080, 0, n, .zero, 1, [], false, false, [], 0⟩
      r.done = false ∧ t.loc (r.loc + 0x10) 4 = r.aux ∧ t.loc (r.loc + 1) 1 % 2 = 0 ∧ r.loc % 64 = 0 ∧ r.reg = false ∧
        (n = 3 → r.aux + 1 = t.loc (r.loc + 4) 4) ∧ (n = 2 → r.aux + 1 < t.loc (r.loc + 4) 4)) := by decide +kernel

/-- A full buffer with nowhere to spill, a poisoned reply, and what a free lock's admission meets. -/
theorem witness_admissions :
    (let s : State := { base with reqs := List.replicate Config.holdEntries { req0 10 with held := true }, pf := [] }
     Config.holdEntries ≤ (s.buffered 0x301C0).length ∧ s.runTo 0x301C0 = none) ∧
    (let r : Reply := ⟨5, 0, 0, 9, false, 1, 0, 31, .v 2, [9], 0, some 0x301C0⟩
     (({ base with replies := [r] } : State).replies.find? fun x => x.id == r.id) = some r ∧ (base.wave 32).st ≠ .absent ∧ r.poison ≠ none) ∧
    (let q : Req := { req0 6 with lock := true, op := .swap, loc := 0x30100, held := true }
     let s : State := { recBase with gate := [q], poison := [(0x3010, ())] }
     let r : WaitR := ⟨.free, 0, 0x30100, 0x20100, 0, 6, .s 2, 1, [], true, false, [], 0⟩
     let t := recBase.setW { recBase.w with groups := [⟨0x80000001, [r], false, []⟩] }
     s.poisoned q.loc 64 = true ∧ recBase.poisoned q.loc 64 = false ∧ ({ q with op := .store }).op = .store ∧ q.op ≠ .store ∧
       ((recBase.wave 32).waits.find? fun r => r.kind == .free && r.aux == q.id && !r.done) = none ∧
       ((t.wave 32).waits.find? fun r => r.kind == .free && r.aux == q.id && !r.done) = some r) := by
  refine ⟨⟨?_, ?_⟩, by decide +kernel, by decide +kernel⟩
  · rw [State.buffered, List.filter_eq_self.2, List.length_replicate]
    intro x hx
    simp [List.eq_of_mem_replicate hx, req0]
  · have h : ∀ d < 8, SMap.get (show SMap W64 from []) (pfReset (Pf.spill d)) (Pf.spill d) = 0 := by decide +kernel
    have hd : locDie 0x301C0 < 8 := Nat.mod_lt _ (by decide)
    simp [State.runTo, State.pfNum, h _ hd, isDm]

/-- Members in rising order, one the last by a path, two apart. -/
theorem witness_members :
    let m (i b : Nat) : Member := ⟨i, [], [(0x10000, BitVec.ofNat 8 b)], [], [], 1⟩
    let ms := [m 0 1, m 1 2, m 2 3]
    ms.Pairwise (fun a b => a.idx < b.idx) ∧ (∀ x ∈ ms, SMap.rising none x.view = true) ∧
      (ms.filter fun x => changes x.view 0 0x10000).length = 3 := by decide +kernel

/-- A location in dsm, a block of a fork, errors of a link and of another unit. -/
theorem witness_poisons :
    isDm (dmLoc 64) = true ∧ isDm 0x30000 = false ∧
    (let g := { Grp.blank with kind := .fork, st := .running }
     ({ base with b := { base.b with grp := 1 }, grps := [(1, g)] } : State).ownFork 1 = some 1 ∧ base.ownFork 1 = none) ∧
    (∀ u ∈ [(0x09 : BitVec 8), 0x0A, 0x0B], u = 0x09 ∨ u = 0x0A ∨ u = 0x0B) ∧ ¬ ((0x07 : BitVec 8) = 0x09 ∨ (0x07 : BitVec 8) = 0x0A ∨ (0x07 : BitVec 8) = 0x0B) := by
  decide +kernel

/-- A barrier's page in a range, shadow bytes and poison in order, the words that act at once, a PC that is not aligned. -/
theorem witness_writes_at_once :
    (let s : State := { base with inval := some (1, 0x20000, 65536), reqs := [{ req0 4 with bva := some 0x20000 }] }
     s.inval = some (1, 0x20000, 65536) ∧ ∃ q ∈ s.reqs ++ s.gate, q.ctx = 1 ∧ ∃ a, q.bva = some a ∧ 0x20000 ≤ a ∧ a < 0x20000 + 65536) ∧
    SMap.rising none (base.ctx 1).shadow = true ∧ SMap.rising none base.poison = true ∧ (0x90000 : Nat) % 16 = 0 ∧
    (∀ off ∈ [Pf.inval + 16, Pf.migcmd + 16, Pf.ctx 1 0x120, Pf.ctx 16 0x120], off % 8 = 0 ∧ pfNamed off = true) ∧ upBase.up = true ∧
    fld (upBase.pfNum (Pf.ctx 1 0x120)) 0 32 = 0 ∧ (4 : W64).toNat % 8 ≠ 0 ∧
    base.headRun = some (0, false) := by
  decide +kernel

/-- FIPS 202: the digest of the empty message, a7ffc6f8…8434a. -/
theorem test_sha3 : sha3 [] = BitVec.ofNat 256 0x4a43f8804b0ad882fa493be44dff80f562d661a05647c15166d71ebff8c6ffa7 := by decide +kernel

/-! ### Words, from the encoding tables of the spec -/

theorem decode_g0 : ([
    (0x0040060182800004, .add ⟨.always, .v 3, .v 1, .s 5, .v 0, 0⟩ .i32 true),
    (0x00AC1502E2800000, .sub ⟨.neg 2, .v 10, .s 2, .ci 5, .v 0, 0⟩ .i32 false),
    (0x00C00404F0000007, .mul ⟨.always, .v 2, .v 4, .lat 0, .v 0, 0⟩ .n64 true),
    (0x01000401D0000001, .mulhi ⟨.always, .v 2, .v 1, .sr .lane, .v 0, 0⟩ .n32),
    (0x0142030281904000, .mad ⟨.always, .s 1, .s 2, .s 3, .s 4, 0⟩ .i32 false),
    (0x01800202FF800001, .min ⟨.always, .v 1, .v 2, .zero, .v 0, 0⟩ .n32),
    (0x01C0040403000002, .max ⟨.always, .v 2, .v 4, .v 6, .v 0, 0⟩ .i64),
    (0x0200020200000004, .abs ⟨.always, .v 1, .v 2, .v 0, .v 0, 0⟩ .i32 true),
    (0x0244038300000001, .neg ⟨.pos 0, .v 1, .win 3, .v 0, .v 0, 0⟩ .n32 false),
    (0x0280020201800005, .div ⟨.always, .v 1, .v 2, .v 3, .v 0, 0⟩ .n32 true),
    (0x02C0020201800000, .rem ⟨.always, .v 1, .v 2, .v 3, .v 0, 0⟩ .i32),
    (0x030009060080002F, .lea ⟨.always, .v 4, .s 6, .v 1, .v 0, 0⟩ .n64 true 5),
    (0x034213A300000001, .mov ⟨.always, .s 9, .sr .block, .v 0, .v 0, 0⟩ .n32),
    (0x03800E00001FFFFF, .movi ⟨.always, .v 7, .v 0, .v 0, .v 0, 0⟩ 0x1FFFFF),
    (0x03C0020200000002, .popc ⟨.always, .v 1, .v 2, .v 0, .v 0, 0⟩ .i64),
    (0x0400020200000000, .clz ⟨.always, .v 1, .v 2, .v 0, .v 0, 0⟩ .i32),
    (0x0440020300000001, .ctz ⟨.always, .v 1, .v 3, .v 0, .v 0, 0⟩ .n32),
    (0x0480040400000003, .brev ⟨.always, .v 2, .v 4, .v 0, .v 0, 0⟩ .n64),
    (0x04C00202000100F8, .bfe ⟨.always, .v 1, .v 2, .v 0, .v 0, 0⟩ true 24 7),
    (0x05000202000001F0, .bfi ⟨.always, .v 1, .v 2, .v 0, .v 0, 0⟩ 16 15),
    (0x0540020201904000, .bperm ⟨.always, .v 1, .v 2, .v 3, .s 4, 0⟩),
    (0x0580034A000000FF, .ldvr ⟨.always, .v 1, .i 2, .v 0, .v 0, 0⟩ 0xFF),
    (0x05C2960100000010, .stvr ⟨.always, .i 3, .v 1, .v 0, .v 0, 0⟩ 0x10),
    (0x0600020201945001, .addc ⟨.always, .v 1, .v 2, .v 3, .p 5, 0⟩ .n32)] : List (W64 × Instr)).all (fun e => decode e.1 == some e.2) = true := by decide +kernel

theorem decode_g1 : ([
    (0x0800080281800000, .and ⟨.always, .v 4, .v 2, .s 3, .v 0, 0⟩ .i32),
    (0x08400A0281800001, .or ⟨.always, .v 5, .v 2, .s 3, .v 0, 0⟩ .n32),
    (0x0880080203000002, .xor ⟨.always, .v 4, .v 2, .v 6, .v 0, 0⟩ .i64),
    (0x08C0080203000003, .andn ⟨.always, .v 4, .v 2, .v 6, .v 0, 0⟩ .n64),
    (0x0900020200000001, .not ⟨.always, .v 1, .v 2, .v 0, .v 0, 0⟩ .n32),
    (0x09400202E2000000, .shl ⟨.always, .v 1, .v 2, .ci 4, .v 0, 0⟩ .i32),
    (0x0980020282000001, .shr ⟨.always, .v 1, .v 2, .s 4, .v 0, 0⟩ .n32),
    (0x09DC040403000002, .sar ⟨.pos 6, .v 2, .v 4, .v 6, .v 0, 0⟩ .i64),
    (0x0A00020201800001, .rotl ⟨.always, .v 1, .v 2, .v 3, .v 0, 0⟩ .n32),
    (0x0A40020201904000, .fsh ⟨.always, .v 1, .v 2, .v 3, .s 4, 0⟩ .i32)] : List (W64 × Instr)).all (fun e => decode e.1 == some e.2) = true := by decide +kernel

theorem decode_g2 : ([
    (0x10028202E0000011, .icmp ⟨.always, .p 1, .v 2, .ci 0, .v 0, 0⟩ .n32 .gt),
    (0x10428E02E8800E01, .fcmp ⟨.always, .p 7, .v 2, .cf 1, .v 0, 0⟩ .f32 .teq),
    (0x1080020201940000, .sel ⟨.always, .v 1, .v 2, .v 3, .p 0, 0⟩ .i32),
    (0x1082030281940000, .sel ⟨.always, .s 1, .s 2, .s 3, .p 0, 0⟩ .i32),
    (0x10C28941A11FF008, .plog ⟨.always, .p 4, .p 1, .p 2, .zero, 0⟩ 0x08),
    (0x1102074200000000, .ballot ⟨.always, .s 3, .p 2, .v 0, .v 0, 0⟩),
    (0x1142874400000002, .vote ⟨.always, .p 3, .p 4, .v 0, .v 0, 0⟩ .eq),
    (0x1182040400000002, .rfal ⟨.always, .s 2, .v 4, .v 0, .v 0, 0⟩ .i64),
    (0x11C002020001001F, .bcast ⟨.always, .v 1, .v 2, .v 0, .v 0, 0⟩ .n32 31),
    (0x12000401E09FF004, .shfl ⟨.always, .v 2, .v 1, .ci 1, .zero, 0⟩ .i32 .up)] : List (W64 × Instr)).all (fun e => decode e.1 == some e.2) = true := by decide +kernel

theorem decode_g3 : ([
    (0x18000202018000E1, .fadd ⟨.always, .v 1, .v 2, .v 3, .v 0, 0⟩ .f32 .dyn),
    (0x1840040403000020, .fsub ⟨.always, .v 2, .v 4, .v 6, .v 0, 0⟩ .f64 .rz),
    (0x18800202EF800002, .fmul ⟨.always, .v 1, .v 2, .cf 15, .v 0, 0⟩ .f16 .rn),
    (0x18C0020201804043, .ffma ⟨.always, .v 1, .v 2, .v 3, .v 4, 0⟩ .e8m7 .ru),
    (0x1900020201800004, .fmin ⟨.always, .v 1, .v 2, .v 3, .v 0, 0⟩ .e8m10),
    (0x1940020201800001, .fmax ⟨.always, .v 1, .v 2, .v 3, .v 0, 0⟩ .f32),
    (0x1980020201800061, .fdiv ⟨.always, .v 1, .v 2, .v 3, .v 0, 0⟩ .f32 .rd),
    (0x19C0020200000081, .fsqrt ⟨.always, .v 1, .v 2, .v 0, .v 0, 0⟩ .f32 .ra),
    (0x1A000202000000E1, .frcp ⟨.always, .v 1, .v 2, .v 0, .v 0, 0⟩ .dyn),
    (0x1A400202000000E1, .frsq ⟨.always, .v 1, .v 2, .v 0, .v 0, 0⟩ .dyn),
    (0x1A800202000000E1, .fexp2 ⟨.always, .v 1, .v 2, .v 0, .v 0, 0⟩ .dyn),
    (0x1AC00202000000E1, .flog2 ⟨.always, .v 1, .v 2, .v 0, .v 0, 0⟩ .dyn),
    (0x1B000202000000E1, .fsin ⟨.always, .v 1, .v 2, .v 0, .v 0, 0⟩ .dyn),
    (0x1B400202000000E1, .fcos ⟨.always, .v 1, .v 2, .v 0, .v 0, 0⟩ .dyn),
    (0x1B8002020000000A, .fclass ⟨.always, .v 1, .v 2, .v 0, .v 0, 0⟩ .e2m1),
    (0x1BC00404808000E0, .fscale ⟨.always, .v 2, .v 4, .s 1, .v 0, 0⟩ .f64 .dyn),
    (0x1C029A0000000000, .cclr ⟨.always, .c 1, .v 0, .v 0, .v 0, 0⟩),
    (0x1C429C0300000001, .cadd ⟨.always, .c 2, .v 3, .v 0, .v 0, 0⟩ .f32),
    (0x1C829A0001000000, .cfma ⟨.always, .c 1, .v 0, .v 2, .v 0, 0⟩ .f64),
    (0x1CC0094D000001E0, .crd ⟨.always, .v 4, .c 1, .v 0, .v 0, 0⟩ .f64 .dyn true)] : List (W64 × Instr)).all (fun e => decode e.1 == some e.2) = true := by decide +kernel

theorem decode_g4 : ([
    (0x20000A06001C1026, .cvt ⟨.always, .v 5, .v 6, .v 0, .ci 1, 0⟩ .e4m3 .f32),
    (0x20400A0603800022, .cvtsr ⟨.always, .v 5, .v 6, .v 7, .v 0, 0⟩ .f16 .f32),
    (0x20800A06001C316F, .pk ⟨.always, .v 5, .v 6, .v 0, .ci 3, 0⟩ .i8 .i32),
    (0x20C00409001C132B, .upk ⟨.always, .v 2, .v 9, .v 0, .ci 1, 0⟩ .i32 .t4iI8),
    (0x210007FF00000001, .rand ⟨.always, .v 3, .zero, .v 0, .v 0, 0⟩ true)] : List (W64 × Instr)).all (fun e => decode e.1 == some e.2) = true := by decide +kernel

theorem decode_g5 : ([
    (0x2804000000000003, .br ⟨.pos 0, .v 0, .v 0, .v 0, .v 0, 0⟩ 3),
    (0x2840010400000000, .jmp ⟨.always, .v 0, .s 4, .v 0, .v 0, 0⟩),
    (0x28820C00001FFFFE, .call ⟨.always, .s 6, .v 0, .v 0, .v 0, 0⟩ 0x1FFFFE),
    (0x28C001E100000000, .ret ⟨.always, .v 0, .lat 1, .v 0, .v 0, 0⟩),
    (0x2900000100000FFF, .brx ⟨.always, .v 0, .v 1, .v 0, .v 0, 0⟩ 0xFFF),
    (0x297C000000000000, .exit ⟨.neg 6, .v 0, .v 0, .v 0, .v 0, 0⟩),
    (0x2980000000000000, .nop ⟨.always, .v 0, .v 0, .v 0, .v 0, 0⟩),
    (0xC1C3070012345678, .movl ⟨.pos 0, .s 7, 0x12345678⟩),
    (0xC0200900FFFFFFFF, .addX ⟨.always, .v 9, 0xFFFFFFFF⟩),
    (0xD400000080000000, .brX ⟨.always, .v 0, 0x80000000⟩),
    (0xD440040000000007, .callX ⟨.always, .v 4, 0x7⟩),
    (0xD800040000000010, .ldX ⟨.always, .v 4, 0x10⟩),
    (0xD8210400FFFFFFF0, .stX ⟨.always, .s 4, 0xFFFFFFF0⟩)] : List (W64 × Instr)).all (fun e => decode e.1 == some e.2) = true := by decide +kernel

theorem decode_g6 : ([
    (0x3000110400050040, .ld ⟨.always, .v 8, .s 4, .v 0, .v 0, 0⟩ .w64 .g 0x40),
    (0x30401001000CFFFC, .st ⟨.always, .v 8, .v 1, .v 0, .v 0, 0⟩ .w32 .sc 0xFFFC),
    (0x3080100400010000, .ldn ⟨.always, .v 8, .v 4, .v 0, .v 0, 0⟩ .i8 .g 0),
    (0x30C3FFE000020008, .stn ⟨.always, .zero, .lat 0, .v 0, .v 0, 0⟩ .n16 .g 8),
    (0x3100010400010000, .touch ⟨.always, .v 0, .s 4, .v 0, .v 0, 0⟩ true 0),
    (0x3140000400020001, .pf ⟨.always, .v 0, .v 4, .v 0, .v 0, 0⟩ .mc 1)] : List (W64 × Instr)).all (fun e => decode e.1 == some e.2) = true := by decide +kernel

theorem decode_g7 : ([
    (0x38001002001061A6, .gth ⟨.always, .v 8, .v 2, .v 0, .s 6, 0⟩ .w128 .g true .sys),
    (0x384000010410604C, .sct ⟨.always, .v 0, .v 1, .v 8, .s 6, 0⟩ .w32 .sc true .blk),
    (0x3882150204106000, .cst ⟨.always, .s 10, .s 2, .v 8, .s 6, 0⟩ .n8 .g false .blk),
    (0x38C0110300106095, .xld ⟨.always, .v 8, .s 3, .v 0, .s 6, 0⟩ .w64 .dm false .die),
    (0x3900010400000160, .cpy ⟨.always, .v 0, .s 4, .v 0, .v 0, 0⟩ true true .pkg),
    (0x394001FF00010003, .tagwait ⟨.always, .v 0, .zero, .v 0, .v 0, 0⟩ true 3),
    (0x398203FF00000000, .tagffr ⟨.always, .s 1, .zero, .v 0, .v 0, 0⟩),
    (0x39C0010200008000, .tagclr ⟨.always, .v 0, .s 2, .v 0, .v 0, 0⟩ 0x8000)] : List (W64 × Instr)).all (fun e => decode e.1 == some e.2) = true := by decide +kernel

theorem decode_g8 : ([
    (0x40000A0201804097, .atom ⟨.always, .v 5, .v 2, .v 3, .v 4, 0⟩ .cas .n32 true),
    (0x4040000202000031, .red ⟨.always, .v 0, .v 2, .v 4, .v 0, 0⟩ .min .n64),
    (0x40800A02019060C0, .aord ⟨.always, .v 5, .v 2, .v 3, .s 6, 0⟩ .add .f32 true false false .blk),
    (0x40C00D0282000F26, .afree ⟨.always, .v 6, .s 2, .s 4, .v 0, 0⟩ .swap .i64 false true true .sys)] : List (W64 × Instr)).all (fun e => decode e.1 == some e.2) = true := by decide +kernel

theorem decode_g9 : ([
    (0x48000102821FF004, .barv ⟨.always, .v 0, .s 2, .s 4, .zero, 0⟩ false .pkg),
    (0x48000102E4000008, .barvInit ⟨.always, .v 0, .s 2, .ci 8, .v 0, 0⟩ false .blk),
    (0x484283FFFF9FF000, .barw ⟨.always, .p 1, .zero, .zero, .zero, 0⟩ false .blk),
    (0x484283FFFF800010, .barwWait ⟨.always, .p 1, .zero, .zero, .v 0, 0⟩ false .blk),
    (0x4842830200000011, .barwWait ⟨.always, .p 1, .s 2, .v 0, .v 0, 0⟩ true .blk),
    (0x4880000202000000, .fpost ⟨.always, .v 0, .v 2, .v 4, .v 0, 0⟩ false .blk),
    (0x4880000200000008, .fpostInit ⟨.always, .v 0, .v 2, .v 0, .v 0, 0⟩ false .blk),
    (0x48C00102E1800001, .fwait ⟨.always, .v 0, .s 2, .ci 3, .v 0, 0⟩ true .blk),
    (0x4902050483000006, .olacq ⟨.always, .s 2, .s 4, .s 6, .v 0, 0⟩ false .sys),
    (0x4903FF0400000020, .olacqFree ⟨.always, .zero, .s 4, .v 0, .v 0, 0⟩ false .blk),
    (0x4940010483000000, .olrel ⟨.always, .v 0, .s 4, .s 6, .v 0, 0⟩ false .blk),
    (0x4940010483000010, .olrelPass ⟨.always, .v 0, .s 4, .s 6, .v 0, 0⟩ false .blk),
    (0x49400104E2000008, .olrelInit ⟨.always, .v 0, .s 4, .ci 4, .v 0, 0⟩ false .blk false),
    (0x4940010400000020, .olrelFree ⟨.always, .v 0, .s 4, .v 0, .v 0, 0⟩ false .blk),
    (0x49800104E0800190, .wreg ⟨.always, .v 0, .s 4, .ci 1, .v 0, 0⟩ false true 6),
    (0x49C00104000000C0, .wunreg ⟨.always, .v 0, .s 4, .v 0, .v 0, 0⟩ false false 3),
    (0x4A00000000000000, .yield ⟨.always, .v 0, .v 0, .v 0, .v 0, 0⟩),
    (0x4A40000000000002, .fence ⟨.always, .v 0, .v 0, .v 0, .v 0, 0⟩ .die),
    (0x4A80000000000004, .sweep ⟨.always, .v 0, .v 0, .v 0, .v 0, 0⟩ .pkg),
    (0x4AC0000202006000, .qpush ⟨.always, .v 0, .v 2, .v 4, .v 6, 0⟩ false .blk),
    (0x4AC0010282106008, .qpushInit ⟨.always, .v 0, .s 2, .s 4, .s 6, 0⟩ false .blk),
    (0x4B00100202000000, .qpop ⟨.always, .v 8, .v 2, .v 4, .v 0, 0⟩ false .blk)] : List (W64 × Instr)).all (fun e => decode e.1 == some e.2) = true := by decide +kernel

theorem decode_g10 : ([
    (0x5000010400000000, .fork ⟨.always, .v 0, .s 4, .v 0, .v 0, 0⟩),
    (0x5042060000000000, .join ⟨.always, .s 3, .v 0, .v 0, .v 0, 0⟩),
    (0x5082060000000002, .vstat ⟨.always, .s 3, .v 0, .v 0, .v 0, 0⟩ .free),
    (0x50C2050400000000, .launch ⟨.always, .s 2, .s 4, .v 0, .v 0, 0⟩),
    (0x5103FF0400000000, .cancel ⟨.always, .zero, .s 4, .v 0, .v 0, 0⟩),
    (0x5142050400000001, .lcount ⟨.always, .s 2, .s 4, .v 0, .v 0, 0⟩ true),
    (0x5180010400000000, .migrate ⟨.always, .v 0, .s 4, .v 0, .v 0, 0⟩)] : List (W64 × Instr)).all (fun e => decode e.1 == some e.2) = true := by decide +kernel

theorem decode_g11 : ([
    (0x5802C50483108021, .mma ⟨.always, .acc 2, .s 4, .s 6, .s 8, 0⟩ .f32 .f32 .sq false false),
    (0x5842C20000000000, .mz ⟨.always, .acc 1, .v 0, .v 0, .v 0, 0⟩),
    (0x5882C704001C108F, .mld ⟨.always, .acc 3, .s 4, .v 0, .ci 1, 0⟩ 15 .r64 false),
    (0x58C2C604001FF147, .mst ⟨.always, .acc 3, .v 4, .v 0, .zero, 0⟩ 7 .r32 true),
    (0x5900216200000003, .mtov ⟨.always, .v 16, .acc 2, .v 0, .v 0, 0⟩ 3),
    (0x5942C40800000001, .vtom ⟨.always, .acc 2, .v 8, .v 0, .v 0, 0⟩ 1),
    (0x5980000000000000, .msync ⟨.always, .v 0, .v 0, .v 0, .v 0, 0⟩),
    (0x6002C10483108D8F, .mmas ⟨.always, .acc 0, .s 4, .s 6, .s 8, 0⟩ .i8 .i32 .wide true true),
    (0x6040014300000000, .shcom ⟨.always, .v 0, .p 3, .v 0, .v 0, 0⟩),
    (0x6080000000000000, .shdis ⟨.always, .v 0, .v 0, .v 0, .v 0, 0⟩)] : List (W64 × Instr)).all (fun e => decode e.1 == some e.2) = true := by decide +kernel

theorem decode_g13 : ([
    (0x6802A00100000000, .dsetPt ⟨.always, .d 0, .v 1, .v 0, .v 0, 0⟩),
    (0x6802A20181000001, .dsetU ⟨.always, .d 1, .v 1, .s 2, .v 0, 0⟩),
    (0x6842A70200004000, .dld ⟨.always, .d 3, .s 2, .v 0, .v 4, 0⟩ false),
    (0x6882A60200000001, .dst ⟨.always, .d 3, .v 2, .v 0, .v 0, 0⟩ true),
    (0x68C2A550A8800000, .dadd ⟨.always, .d 2, .d 0, .d 1, .v 0, 0⟩),
    (0x6902A550A8800000, .dsub ⟨.always, .d 2, .d 0, .d 1, .v 0, 0⟩),
    (0x6942A550A8800000, .dmul ⟨.always, .d 2, .d 0, .d 1, .v 0, 0⟩),
    (0x6982A550A8800000, .ddiv ⟨.always, .d 2, .d 0, .d 1, .v 0, 0⟩),
    (0x69C2A550E8803000, .daff ⟨.always, .d 2, .d 0, .cf 1, .v 3, 0⟩),
    (0x6A02A550A8800000, .dmin ⟨.always, .d 2, .d 0, .d 1, .v 0, 0⟩),
    (0x6A42A550A8800000, .dmax ⟨.always, .d 2, .d 0, .d 1, .v 0, 0⟩),
    (0x6A82A55000000006, .dmap ⟨.always, .d 2, .d 0, .v 0, .v 0, 0⟩ .log),
    (0x6AC0095000000004, .dmom ⟨.always, .v 4, .d 0, .v 0, .v 0, 0⟩ .all),
    (0x6B00095000800000, .dqnt ⟨.always, .v 4, .d 0, .v 1, .v 0, 0⟩ .p),
    (0x6B42A35000000000, .dtagNew ⟨.always, .d 1, .d 0, .v 0, .v 0, 0⟩),
    (0x6B42A35081000001, .dtagSet ⟨.always, .d 1, .d 0, .s 2, .v 0, 0⟩),
    (0x6B40035000000002, .dtagGet ⟨.always, .v 1, .d 0, .v 0, .v 0, 0⟩),
    (0x6B82A550A89D3000, .dmix ⟨.always, .d 2, .d 0, .d 1, .cf 3, 0⟩),
    (0x6BC0095000800000, .dsamp ⟨.always, .v 4, .d 0, .v 1, .v 0, 0⟩)] : List (W64 × Instr)).all (fun e => decode e.1 == some e.2) = true := by decide +kernel

theorem decode_g14 : ([
    (0x7000110301000000, .xroute ⟨.always, .v 8, .s 3, .v 2, .v 0, 0⟩),
    (0x7040000800000000, .xrel ⟨.always, .v 0, .v 8, .v 0, .v 0, 0⟩),
    (0x7080020200000000, .xcnt ⟨.always, .v 1, .v 2, .v 0, .v 0, 0⟩),
    (0x70C2060000000000, .xver ⟨.always, .s 3, .v 0, .v 0, .v 0, 0⟩),
    (0x780000000000BEEF, .trap ⟨.always, .v 0, .v 0, .v 0, .v 0, 0⟩ 0xBEEF),
    (0x7840000000000000, .tret ⟨.always, .v 0, .v 0, .v 0, .v 0, 0⟩),
    (0x788005B700000000, .rsr ⟨.always, .v 2, .sr .rngctr, .v 0, .v 0, 0⟩),
    (0x78C361C300000000, .wsr ⟨.always, .sr .fmode, .ci 3, .v 0, .v 0, 0⟩),
    (0x7900000000000000, .ienter ⟨.always, .v 0, .v 0, .v 0, .v 0, 0⟩),
    (0x7940000000000001, .brk ⟨.always, .v 0, .v 0, .v 0, .v 0, 0⟩ 1),
    (0x7980010400000002, .cachectl ⟨.always, .v 0, .s 4, .v 0, .v 0, 0⟩ .inv)] : List (W64 × Instr)).all (fun e => decode e.1 == some e.2) = true := by decide +kernel


/-- P words: `add v1, v2 || !p2 fmul v7, v8` of the spec's example, and `mov v6, L0 || mov v9, zero` by Table 47. -/
theorem decode_pairs : ([
    (0x800020401E01C200, .pairWord ⟨.add, .always, .v 1, .v 2, 0⟩ ⟨.fmul, .always, .v 7, .v 8, 0⟩),
    (2 * 2 ^ 62 + (9 * 2 ^ 25 + 6 * 2 ^ 14 + 0xC8 * 2 ^ 6) * 2 ^ 31 + (9 * 2 ^ 25 + 9 * 2 ^ 14 + 0xCB * 2 ^ 6),
      .pairWord ⟨.mov, .always, .v 6, .lat 0, 0⟩ ⟨.mov, .always, .v 9, .zero, 0⟩)] : List (W64 × Instr)).all
    (fun e => decode e.1 == some e.2) = true := by decide +kernel

/-- Reserved encodings: opcode 0 with nothing in it, a reserved form, an opcode no entry has, a reserved guard, a reserved MOD
bit, a field that is not used, an index register where a value is read, and a reserved specifier. -/
theorem decode_refuses : ([0, 3 * 2 ^ 62 + 0x3F * 2 ^ 56, 0x3FC0000000000000, 0x0060060182800004, 0x0040060182808004,
    0x0040060182800604, 0x00400601A4000004, 0x00400601F1800004] : List W64).all (fun w => decode w == none) = true := by decide +kernel

/-- One ill-formed word for each check of WellFormed: operand classes of D, A, B and C, a count of registers that is not aligned, a
field that is not used, p0 as a destination, a scalar D with a vector source, the hold field, special registers, pair words, and
every entry's own conditions. -/
theorem wellformed_refuses : ([
    .add ⟨.always, .p 1, .v 1, .v 2, .v 0, 0⟩ .i32 false, .add ⟨.always, .v 3, .p 1, .v 2, .v 0, 0⟩ .i32 false,
    .add ⟨.always, .v 3, .v 1, .cf 0, .v 0, 0⟩ .i32 false, .sel ⟨.always, .v 3, .v 1, .v 2, .v 4, 0⟩ .i32,
    .add ⟨.always, .v 3, .v 1, .v 2, .v 0, 0⟩ .i64 false, .add ⟨.always, .v 3, .v 1, .v 2, .zero, 0⟩ .i32 false,
    .icmp ⟨.always, .p 0, .v 1, .v 2, .v 0, 0⟩ .i32 .eq, .add ⟨.always, .s 3, .v 1, .s 2, .v 0, 0⟩ .i32 false,
    .add ⟨.always, .v 3, .v 1, .v 2, .v 0, 3⟩ .i32 false, .mz ⟨.always, .acc 0, .v 0, .v 0, .v 0, 1⟩,
    .rsr ⟨.always, .s 2, .sr .lane, .v 0, .v 0, 0⟩, .rsr ⟨.always, .v 3, .sr .clock, .v 0, .v 0, 0⟩,
    .wsr ⟨.always, .sr .rngctr, .v 3, .v 0, .v 0, 0⟩, .wsr ⟨.always, .sr .lane, .v 3, .v 0, .v 0, 0⟩,
    .pairWord ⟨.add, .always, .v 1, .v 2, 0⟩ ⟨.add, .always, .v 1, .v 3, 0⟩,
    .pairWord ⟨.add, .always, .v 1, .v 2, 0⟩ ⟨.add, .always, .v 5, .v 3, 0⟩,
    .pairWord ⟨.add, .always, .v 1, .v 2, 1⟩ ⟨.add, .always, .v 4, .v 3, 0⟩,
    .fsh ⟨.always, .v 2, .v 4, .v 6, .v 8, 0⟩ .i64, .addc ⟨.always, .v 2, .v 4, .v 6, .p 0, 0⟩ .i32,
    .fadd ⟨.always, .v 2, .v 4, .v 6, .v 0, 0⟩ .e4m3 .dyn, .cadd ⟨.always, .c 0, .v 4, .v 0, .v 0, 0⟩ .f16,
    .cvt ⟨.always, .v 2, .v 4, .v 0, .ci 5, 0⟩ .f32 .f16, .cvt ⟨.always, .v 2, .v 4, .v 0, .ci 0, 0⟩ .i32 .i32,
    .cvtsr ⟨.always, .v 2, .v 4, .v 6, .v 0, 0⟩ .f32 .f32, .pk ⟨.always, .v 2, .v 4, .v 0, .ci 0, 0⟩ .f32 .f32,
    .upk ⟨.always, .v 2, .v 4, .v 0, .ci 0, 0⟩ .f64 .f16, .brx ⟨.always, .v 0, .v 4, .v 0, .v 0, 0⟩ 0,
    .st ⟨.always, .v 2, .v 4, .v 0, .v 0, 0⟩ .i8 .g 0, .atom ⟨.always, .v 2, .v 4, .v 6, .v 0, 0⟩ .load .i32 false,
    .red ⟨.always, .v 0, .v 4, .v 6, .v 0, 0⟩ .swap .i32, .aord ⟨.always, .v 2, .v 4, .v 6, .s 8, 0⟩ .cas .i32 false false false .blk,
    .afree ⟨.always, .v 2, .v 4, .v 6, .v 0, 0⟩ .and .f32 false false false .blk,
    .aord ⟨.always, .zero, .v 4, .v 6, .s 8, 0⟩ .store .i32 false false false .blk, .barv ⟨.always, .v 0, .zero, .zero, .zero, 2⟩ false .blk,
    .barv ⟨.always, .v 0, .zero, .s 3, .zero, 0⟩ false .blk, .barwWait ⟨.always, .s 2, .zero, .v 0, .v 0, 0⟩ true .blk,
    .wreg ⟨.always, .v 0, .s 4, .zero, .v 0, 0⟩ false false 7, .fork ⟨.pos 0, .v 0, .s 4, .v 0, .v 0, 0⟩,
    .mma ⟨.always, .acc 2, .s 4, .s 6, .s 8, 0⟩ .f64 .f32 .sq false false,
    .mld ⟨.always, .acc 2, .s 4, .v 0, .ci 1, 0⟩ 31 .r64 false] : List Instr).all (fun i => !i.wf) = true := by decide +kernel

/-! ### Single steps, by the rules' own arithmetic -/

/-- Lane 0 of v2 after a word on v4 = a, v6 = b and v8 = c in every lane, with the flags raised. -/
def runs (i : Instr) (a b c : Nat) : Option (Nat × Nat) :=
  let s := testState [] (testRow 4 (fun _ => a) ++ testRow 6 (fun _ => b) ++ testRow 8 (fun _ => c)) []
  (nextOf (exec i s)).map fun t => ((t.w.vreg 2 0).toNat, t.w.sp.fflags.toNat)

/-- R187: 0xFFFFFFFF + 1 wraps to 0; R187 with SAT: 2^31 − 1 + 1 clamps. -/
theorem test_add : runs (.add F0 .n32 false) 0xFFFFFFFF 1 0 = some (0, 0) ∧
    runs (.add F0 .i32 true) 0x7FFFFFFF 1 0 = some (0x7FFFFFFF, Fl.sat.toNat) := by decide +kernel
/-- R189: −7 divided by 2 is −3 with remainder −1; a zero divisor gives all ones and DZ. -/
theorem test_div : runs (.div F0 .i32 false) 0xFFFFFFF9 2 0 = some (0xFFFFFFFD, 0) ∧ runs (.rem F0 .i32) 0xFFFFFFF9 2 0 = some (0xFFFFFFFF, 0) ∧
    runs (.div F0 .n32 false) 5 0 0 = some (0xFFFFFFFF, Fl.dz.toNat) := by decide +kernel
/-- R188: the high half of (−1) × 2 is −1 signed and 1 unsigned. -/
theorem test_mulhi : runs (.mulhi F0 .i32) 0xFFFFFFFF 2 0 = some (0xFFFFFFFF, 0) ∧ runs (.mulhi F0 .n32) 0xFFFFFFFF 2 0 = some (1, 0) := by
  decide +kernel
/-- R193: bits 4 to 7 of 0xF80, 8, sign-extended by bit 7. -/
theorem test_bfe : runs (.bfe F0 true 4 3) 0xF80 0 0 = some (0xFFFFFFF8, 0) ∧ runs (.bfe F0 false 4 3) 0xF80 0 0 = some (8, 0) := by
  decide +kernel
/-- R194: nibbles 0, 7, 3 and 8 of the selector take bytes 0, 7 and 3, and the replicated sign of byte 0. -/
theorem test_bperm : runs (.bperm F0) 0x44332280 0x88776655 0x8370 = some (0xFF448880, 0) := by decide +kernel
/-- R197: counts are taken modulo 32, and `fsh` shifts a:b right by 8. -/
theorem test_shift : runs (.shl F0 .i32) 1 33 0 = some (2, 0) ∧ runs (.fsh F0 .i32) 0x12345678 0x9ABCDEF0 8 = some (0x789ABCDE, 0) := by
  decide +kernel
/-- R134: 1 + 2^-24 is a tie that goes to the even 1 with NX; 1 + 2^-23 is exact. -/
theorem test_fadd : runs (.fadd F0 .f32 .rn) 0x3F800000 0x33800000 0 = some (0x3F800000, Fl.nx.toNat) ∧
    runs (.fadd F0 .f32 .rn) 0x3F800000 0x34000000 0 = some (0x3F800001, 0) := by decide +kernel
/-- R134: infinity minus infinity is DefaultNaN with NV; 1 divided by 0 is infinity with DZ. -/
theorem test_finvalid : runs (.fsub F0 .f32 .rn) 0x7F800000 0x7F800000 0 = some (0x7FC00000, Fl.nv.toNat) ∧
    runs (.fdiv F0 .f32 .rn) 0x3F800000 0 0 = some (0x7F800000, Fl.dz.toNat) := by decide +kernel
/-- R206: TotalOrder puts −0 below +0. -/
theorem test_fmin : runs (.fmin F0 .f32) 0 0x80000000 0 = some (0x80000000, 0) ∧ runs (.fmax F0 .f32) 0 0x80000000 0 = some (0, 0) := by
  decide +kernel
/-- R147, R208: 2^31 as an F32 converts to the greatest I32 with SAT, −1.5 to −2 to the even neighbour with NX. -/
theorem test_cvt : runs (.cvt { F0 with c := .ci 0 } .i32 .f32) 0x4F000000 0 0 = some (0x7FFFFFFF, Fl.sat.toNat) ∧
    (runs (.cvt { F0 with c := .ci 0 } .i32 .f32) 0xBFC00000 0 0).map Prod.fst = some 0xFFFFFFFE := by decide +kernel

/-- R218: a byte 0x80 loads as 0xFFFFFF80 signed; the store of several lanes to one place leaves the highest lane's. -/
theorem test_memory :
    (let s : State := { base with mem := Memory.setNum base.mem 0x20000 1 0x80 }
     (nextOf (exec (.ld F0 .i8 .g 0) s)).map (fun t => (t.w.vreg 2 0).toNat) = some 0xFFFFFF80) ∧
    (let s := testState [] (testRow 4 (fun _ => 0x10000) ++ testRow 2 (fun l => l + 5)) []
     (nextOf (exec (.st F0 .w32 .g 0) s)).map (fun t => t.peek (.view 0x10000)) = some (some 36)) := by decide +kernel
/-- R212, R213: `br` by 3 words goes to PC + 24 in active lanes, to PC + 8 in the others of the run; `call` keeps PC + 8. -/
theorem test_control :
    (let s := testState [] [] [(1, 1)]
     (nextOf (exec (.br { F0 with g := .pos 0 } 3) s)).map (fun t => (t.w.pcAt 0, t.w.pcAt 31)) = some (24, 8)) ∧
    (nextOf (exec (.call F0 0x1FFFFF) { base with w := { base.w with pc := [(0, 16), (31, 16)] } })).map
      (fun t => (t.w.vregs 2 0 2, t.w.pcAt 0)) = some (24, 8) := by decide +kernel
/-- R99: the second arrival of two opens phase 1. -/
theorem test_barrier :
    (let s : State := { objState 0x20000 1 testObjects with
       mem := Memory.setBytes testObjects 0x30000 ({ Bar.zero with npart := 2, arrived := 1 } : Bar).line }
     (nextOf (exec (.barv { FO with d := .zero } false .blk) s)).map (fun t => ((t.bar 1 0x30000).phase, (t.bar 1 0x30000).arrived)) =
       some (1, 0)) := by decide +kernel
/-- R109: a push of number 0 to the slot of sequence 0 fills it. -/
theorem test_push :
    (let s := { testState [] (testRow 4 (fun _ => 0x20140)) [] with run := 1 }
     (nextOf (exec (.qpush { F0 with c := .zero } false .blk) s)).map (fun t => t.loc 0x30200 8) = some (2 ^ 63)) := by decide +kernel
/-- R378: a `trap` with a handler starts it in lanes that have not exited. -/
theorem test_trap : (nextOf (exec (.trap F0 9) trapState)).map (fun t => (t.w.pcAt 0, t.w.sp.trapinfo, t.w.frames.length)) =
    some (0x10000, 9, 1) := by decide +kernel

/-! ### From reset -/

/-- A legal word placed where the first step fetches runs and moves on; word 0, which is illegal, does not. -/
theorem test_first_word :
    (nextOf (step (State.reset.withFetchWord 64 0x0380000000000007))).map (fun t => ((t.w.vreg 0 0).toNat, t.w.pcAt 0)) = some (7, 8) ∧
    (nextOf (step (State.reset.withFetchWord 64 0))).map (fun t => t.w.pcAt 0) = some 0 := by decide +kernel

end Sys2Proof
end

section
/-! SUPPORT. The canonical form of the memories as an invariant (O53): what it says of each kind of answer that the model's functions
give, and the rules for the shapes that their bodies have. Each further section says of the functions of one file of the model that
they keep it; a lemma is named after its function, so that the proof about a body `((s.f x).g y)` reads `h.f.g`. -/

namespace Sys2Proof
open Machine
namespace Machine

/-! ### What is kept -/

/-- What the effect of a word leaves is in canonical form. -/
inductive Res.memWf : Res → Prop
  | done {s : State} (h : s.memWf) : memWf (.done s)
  | moved {s : State} (h : s.memWf) : memWf (.moved s)
  | trap {s : State} {x : Trap} (h : s.memWf) : memWf (.trap s x)
  | stall {s : State} (h : s.memWf) : memWf (.stall s)
  | close : memWf .close
  | fault {s : State} {va : W64} {kind : BitVec 8} {x : Trap} (h : s.memWf) : memWf (.fault s va kind x)
  | poison {s : State} {pa : Nat} (h : s.memWf) : memWf (.poison s pa)
  | gone {s : State} (h : s.memWf) : memWf (.gone s)

/-- The state that an outcome hands on is in canonical form. -/
inductive KeepsWf : Host.Outcome State Fault Refusal → Prop
  | next {s : State} (h : s.memWf) : KeepsWf (.next s)
  | fault {r : Fault} : KeepsWf (.fault r)
  | refused {r : Refusal} : KeepsWf (.refused r)

/-- What the operation of a lane leaves is in canonical form. -/
inductive LaneOp.memWf : LaneOp → Prop
  | did {s : State} {res : List W32} (h : s.memWf) : memWf (.did s res)
  | wait {r : WaitR} : memWf (.wait r)
  | fail : memWf .fail

/-- What the check of a row leaves is in canonical form. -/
inductive RowR.memWf : RowR → Prop
  | ok {s : State} (h : s.memWf) : memWf (.ok s)
  | stop {r : Res} (h : r.memWf) : memWf (.stop r)

/-- What the end of a copy leaves is in canonical form. -/
inductive CopyR.memWf : CopyR → Prop
  | did {s : State} (h : s.memWf) : memWf (.did s)
  | short {n : Nat} : memWf (.short n)
  | failed {s : State} (h : s.memWf) : memWf (.failed s)
  | poisoned {s : State} {pa : Nat} (h : s.memWf) : memWf (.poisoned s pa)
  | missing {va : W64} : memWf (.missing va)
  | later : memWf .later

/-! ### From an answer to the state that it holds -/

theorem KeepsWf.ofNext {o : Host.Outcome State Fault Refusal} {t : State} (h : KeepsWf o) (e : o = .next t) : t.memWf := by
  cases e ▸ h with
  | next ht => exact ht

theorem LaneOp.memWf.ofDid {o : LaneOp} {t : State} {res : List W32} (h : o.memWf) (e : o = .did t res) : t.memWf := by
  cases e ▸ h with
  | did ht => exact ht

theorem CopyR.memWf.ofDid {r : CopyR} {t : State} (h : r.memWf) (e : r = .did t) : t.memWf := by
  cases e ▸ h with
  | did ht => exact ht

theorem Res.memWf.ofDone {r : Res} {t : State} (h : r.memWf) (e : r = .done t) : t.memWf := by
  cases e ▸ h with
  | done ht => exact ht

theorem RowR.memWf.ofOk {r : RowR} {t : State} (h : r.memWf) (e : r = .ok t) : t.memWf := by
  cases e ▸ h with
  | ok ht => exact ht

theorem RowR.memWf.ofStop {r : RowR} {x : Res} (h : r.memWf) (e : r = .stop x) : x.memWf := by
  cases e ▸ h with
  | stop hx => exact hx

theorem State.memWf.ofFst {α : Type} {p : State × α} {t : State} {x : α} (h : p.1.memWf) (e : p = (t, x)) : t.memWf := by
  subst e
  exact h

/-! ### Shapes of bodies -/

theorem State.memWf.id {s : State} (h : s.memWf) : (id s).memWf := h

/-- An update of fields beside the memories. -/
theorem State.memWf.beside {s : State} {w b run waves blocks grps levs ctxs poison cmds reqs gate replies wft faults cores probes
    migration inval exp pf vf tokens mgmt press ckpt reserve windows pool handles ids escq hostOut inbox sched rr rrAt free cycle}
    (h : s.memWf) :
    State.memWf { s with
      w := w, b := b, run := run, waves := waves, blocks := blocks, grps := grps, levs := levs, ctxs := ctxs, poison := poison
      cmds := cmds, reqs := reqs, gate := gate, replies := replies, wft := wft, faults := faults, cores := cores, probes := probes
      migration := migration, inval := inval, exp := exp, pf := pf, vf := vf, tokens := tokens, mgmt := mgmt, press := press
      ckpt := ckpt, reserve := reserve, windows := windows, pool := pool, handles := handles, ids := ids, escq := escq
      hostOut := hostOut, inbox := inbox, sched := sched, rr := rr, rrAt := rrAt, free := free, cycle := cycle } := h

theorem State.memWf.ite {c : Prop} [Decidable c] {s t : State} (h : s.memWf) (ht : t.memWf) : (if c then s else t).memWf := by
  split
  · exact h
  · exact ht

/-- A change made on a condition. -/
theorem State.memWf.thenIf {c : Prop} [Decidable c] {s t : State} (h : s.memWf) (ht : s.memWf → t.memWf) :
    (if c then t else s).memWf :=
  (ht h).ite h

/-- A change made unless a condition holds. -/
theorem State.memWf.elseIf {c : Prop} [Decidable c] {s t : State} (h : s.memWf) (ht : s.memWf → t.memWf) :
    (if c then s else t).memWf :=
  h.ite (ht h)

/-- One of two changes of a state. -/
theorem State.memWf.thenElse {c : Prop} [Decidable c] {s t u : State} (h : s.memWf) (ht : s.memWf → t.memWf)
    (hu : s.memWf → u.memWf) : (if c then t else u).memWf :=
  (ht h).ite (hu h)

theorem State.memWf.foldl {α : Type} {l : List α} {f : State → α → State} {s : State} (h : s.memWf)
    (hf : ∀ u x, u.memWf → (f u x).memWf) : (l.foldl f s).memWf := by
  induction l generalizing s with
  | nil => exact h
  | cons x xs ih => exact ih (hf s x h)

/-! ### The writers and updates of the earlier laws, as links of a chain -/

theorem State.memWf.updWave {s : State} {k : Nat} {f : Wave → Wave} (h : s.memWf) : (s.updWave k f).memWf :=
  (State.updWave_memWf s k f).2 h

theorem State.memWf.updBlock {s : State} {k : Nat} {f : Block → Block} (h : s.memWf) : (s.updBlock k f).memWf :=
  (State.updBlock_memWf s k f).2 h

theorem State.memWf.writeDev {s : State} {pa : Nat} {bs : List Byte} (h : s.memWf) : (s.writeDev pa bs).memWf :=
  s.memWf_writeDev pa bs h

theorem State.memWf.writeHost {s : State} {pa : Nat} {bs : List Byte} (h : s.memWf) : (s.writeHost pa bs).memWf :=
  s.memWf_writeHost pa bs h

theorem State.memWf.writeDsm {s : State} {key : Nat} {bs : List Byte} (h : s.memWf) : (s.writeDsm key bs).memWf :=
  s.memWf_writeDsm key bs h

theorem State.memWf.setLocBytes {s : State} {loc : Nat} {bs : List Byte} (h : s.memWf) : (s.setLocBytes loc bs).memWf :=
  s.memWf_setLocBytes loc bs h

theorem State.memWf.writeSc {s : State} {off : Nat} {bs : List Byte} (h : s.memWf) : (s.writeSc off bs).memWf :=
  s.memWf_writeSc off bs h

theorem State.memWf.writePlace {s : State} {p : Place} {n x : Nat} (h : s.memWf) : (s.writePlace p n x).memWf :=
  s.memWf_writePlace p n x h

theorem State.memWf.landBytes {s : State} {c : Cmd} {d : Dst} {bs : List Byte} (h : s.memWf) : (s.landBytes c d bs).memWf :=
  s.memWf_landBytes c d bs h

theorem State.memWf.clearDsm {s : State} {off n : Nat} (h : s.memWf) : (s.clearDsm off n).memWf :=
  s.memWf_clearDsm off n h

theorem State.memWf.loadMooring {s : State} {pa : Nat} (h : s.memWf) : (s.loadMooring pa).memWf :=
  s.memWf_loadMooring pa h

theorem State.memWf.powered {s : State} {b : BootSt} (h : s.memWf) : (s.powered b).memWf :=
  s.memWf_powered b h

theorem State.memWf.setWave {s : State} {k : Nat} {w : Wave} (h : s.memWf) : (s.setWave k w).memWf := by
  unfold State.setWave
  exact h.beside.ite h.beside

theorem State.memWf.setBlock {s : State} {k : Nat} {b : Block} (h : s.memWf) : (s.setBlock k b).memWf := by
  unfold State.setBlock
  exact h.beside.ite h.beside

theorem State.memWf.updGrp {s : State} {id : Nat} {f : Grp → Grp} (h : s.memWf) : (s.updGrp id f).memWf := by
  unfold State.updGrp
  split
  · exact h.beside
  · exact h

theorem State.memWf.updLev {s : State} {id : Nat} {f : Lev → Lev} (h : s.memWf) : (s.updLev id f).memWf := by
  unfold State.updLev
  split
  · exact h.beside
  · exact h

end Machine
end Sys2Proof
end

section
/-! SUPPORT. The functions of Sys2Proof/Machine/Flags.lean keep the canonical form. -/

namespace Sys2Proof
open Machine
namespace Machine

theorem State.memWf.orFlags {s : State} {f : Fl} (h : s.memWf) : (s.orFlags f).memWf := h.beside

end Machine
end Sys2Proof
end

section
/-! SUPPORT. The functions of Sys2Proof/Machine/Registers.lean keep the canonical form. -/

namespace Sys2Proof
open Machine
namespace Machine

theorem State.memWf.setPf {s : State} {off : Nat} {x : W64} (h : s.memWf) : (s.setPf off x).memWf := h.beside

theorem State.memWf.setVf {s : State} {c off : Nat} {x : W64} (h : s.memWf) : (s.setVf c off x).memWf := h.beside

theorem State.memWf.setCtx {s : State} {c : Nat} {x : Ctx} (h : s.memWf) : (s.setCtx c x).memWf := h.beside

theorem State.memWf.msi {s : State} {fn vec : Nat} (h : s.memWf) : (s.msi fn vec).memWf := (h.setPf.ite h.beside).ite (h.setVf.ite h.beside)

theorem State.memWf.post {s : State} {y : Instr} (h : s.memWf) : (s.post y).memWf := h.beside

theorem State.memWf.postOnce {s : State} {y : Instr} (h : s.memWf) : (s.postOnce y).memWf := h.beside

theorem State.memWf.fresh {s : State} (h : s.memWf) : s.fresh.2.memWf := h.beside

end Machine
end Sys2Proof
end

section
/-! SUPPORT. The functions of Sys2Proof/Machine/Operands.lean keep the canonical form. -/

namespace Sys2Proof
open Machine
namespace Machine

theorem State.memWf.setW {s : State} {w : Wave} (h : s.memWf) : (s.setW w).memWf := h.beside

theorem State.memWf.setB {s : State} {b : Block} (h : s.memWf) : (s.setB b).memWf := h.beside

theorem State.memWf.setOpnd {s : State} {o : Opnd} {n l x : Nat} (h : s.memWf) : (s.setOpnd o n l x).memWf := h.setW

theorem State.memWf.setAll {s : State} {act : Mask} {o : Opnd} {n x : Nat} (h : s.memWf) : (s.setAll act o n x).memWf := by
  unfold State.setAll
  split
  · exact h.setOpnd
  · exact h.foldl fun _ _ hu => hu.setOpnd

end Machine
end Sys2Proof
end

section
/-! SUPPORT. The functions of Sys2Proof/Machine/Mem.lean keep the canonical form. -/

namespace Sys2Proof
open Machine
namespace Machine

theorem State.memWf.pay {s : State} {c die fee : Nat} (h : s.memWf) : (s.pay c die fee).memWf := h.ite h.beside

theorem State.memWf.keepShadow {s : State} {pa n : Nat} (h : s.memWf) : (s.keepShadow pa n).memWf := h.beside

theorem State.memWf.countDecErr {s : State} {w n : Nat} (h : s.memWf) : (s.countDecErr w n).memWf := h.ite h.setPf

end Machine
end Sys2Proof
end

section
/-! SUPPORT. The functions of Sys2Proof/Machine/Waves.lean keep the canonical form. -/

namespace Sys2Proof
open Machine
namespace Machine

theorem State.memWf.stow {s : State} (h : s.memWf) : s.stow.memWf := h.beside

theorem State.memWf.load {s : State} {k : Nat} (h : s.memWf) : (s.load k).memWf := h.stow.beside

theorem State.memWf.within {s : State} {k : Nat} {f : State → State} (h : s.memWf)
    (hf : ∀ u, u.memWf → (f u).memWf) : (s.within k f).memWf :=
  (hf _ h).ite ((hf _ h.load).stow.ite (hf _ h.load).load.beside)

theorem State.memWf.foldWaves {s : State} {blk : Nat} (h : s.memWf) : (s.foldWaves blk).1.memWf := by
  unfold State.foldWaves
  dsimp only
  split
  · exact h.setBlock.foldl fun _ _ hu => hu.updWave
  · exact h.setBlock.foldl fun _ _ hu => hu.updWave

end Machine
end Sys2Proof
end

section
/-! SUPPORT. The functions of Sys2Proof/Machine/Errors.lean keep the canonical form. -/

namespace Sys2Proof
open Machine
namespace Machine

theorem State.memWf.setBank {s : State} {socket b : Nat} {r : ErrRec} {count : Nat} (h : s.memWf) : (s.setBank socket b r count).memWf := by
  unfold State.setBank
  exact h.setPf.setPf.setPf.setPf.msi

theorem State.memWf.errSum {s : State} {socket lo : Nat} (h : s.memWf) : (s.errSum socket lo).memWf := h.setPf

theorem State.memWf.placeErr {s : State} {socket : Nat} {r : ErrRec} (h : s.memWf) : (s.placeErr socket r).memWf := by
  unfold State.placeErr
  dsimp only
  split
  · exact h.errSum.setPf
  · split
    · exact h.errSum.setBank
    · split
      · exact h.errSum.setBank
      · exact h.errSum.errSum

end Machine
end Sys2Proof
end

section
/-! SUPPORT. The functions of Sys2Proof/Machine/Experts.lean keep the canonical form. -/

namespace Sys2Proof
open Machine
namespace Machine

theorem State.memWf.addRef {s : State} {die ver : Nat} {n : Int} (h : s.memWf) : (s.addRef die ver n).memWf := h.beside

theorem State.memWf.retireOne {s : State} {ver : Nat} (h : s.memWf) : (s.retireOne ver).memWf := by
  unfold State.retireOne
  exact (h.beside.foldl fun _ _ hu => hu.fresh.beside.post).thenIf fun hp => hp.postOnce

theorem State.memWf.retireVersions {s : State} (h : s.memWf) : s.retireVersions.memWf := h.foldl fun _ _ hu => hu.retireOne.ite hu

theorem State.memWf.dropRefs {s : State} {k : Nat} (h : s.memWf) : (s.dropRefs k).memWf :=
  h.ite (h.foldl fun _ _ hu => hu.addRef).updWave.retireVersions

theorem State.memWf.sample {s : State} (h : s.memWf) : s.sample.memWf := h.beside.ite h.beside.beside.postOnce

theorem State.memWf.reserveOne {s : State} {ver : Nat} {c : Nat × Option Nat} (h : s.memWf) : (s.reserveOne ver c).memWf := by
  unfold State.reserveOne
  split
  · exact h
  · dsimp only
    split
    · exact h.beside
    · split
      · exact h
      · exact h.beside

theorem State.memWf.writeReplica {s : State} {pa : Nat} {bs : List Byte} (h : s.memWf) : (s.writeReplica pa bs).memWf := by
  obtain ⟨hm, hh, hd⟩ := h
  exact ⟨Memory.wf_setBytes _ _ _ hm, hh, hd⟩

theorem State.memWf.copyReplica {s : State} {home va len : Nat} (h : s.memWf) : (s.copyReplica home va len).memWf := by
  unfold State.copyReplica
  split
  · exact h
  · exact h.writeReplica

theorem State.memWf.switchCopied {s : State} (h : s.memWf) : s.switchCopied.memWf := by
  unfold State.switchCopied
  split
  · exact h
  · exact h.ite ((h.ite (h.beside.foldl fun _ _ hu => hu.reserveOne).postOnce).ite (h.foldl fun _ _ hu => hu.copyReplica).beside.post)

/-- Writing the entries of a table keeps the canonical form. -/
theorem Memory.wf_writeTable (table : SMap (List Byte)) (place : Nat → Nat) (m : Memory) (h : Memory.wf m = true) :
    Memory.wf (table.foldl (fun m e => Memory.setBytes m (place e.1) e.2) m) = true := by
  induction table generalizing m with
  | nil => exact h
  | cons e es ih => exact ih _ (Memory.wf_setBytes _ _ _ h)

theorem State.memWf.switchSlot {s : State} {die : Nat} (h : s.memWf) : (s.switchSlot die).memWf := by
  unfold State.switchSlot
  split
  · exact h
  next w _ =>
    refine h.ite ?_
    extract_lets to_ copied dsm _ s₁
    have h₁ : s₁.memWf := by
      obtain ⟨hm, hh, hd⟩ := h
      exact ⟨hm, hh, Memory.wf_writeTable w.table (fun k => to_ + 128 * k) _ (Memory.wf_copyRange _ _ _ _ hd)⟩
    exact h₁.beside.post.ite h₁.beside.retireVersions

theorem State.memWf.switchGoesOn {s : State} (h : s.memWf) : s.switchGoesOn.memWf := by
  unfold State.switchGoesOn
  split
  · exact h
  · exact h.postOnce

theorem State.memWf.abandonSwitch {s : State} {expert die : Nat} (h : s.memWf) : (s.abandonSwitch expert die).memWf := by
  unfold State.abandonSwitch
  split
  · exact h
  · split
    · exact h
    · extract_lets _ s₁
      have h₁ : s₁.memWf := h.beside
      exact h.ite h₁.placeErr

theorem State.memWf.endGrace {s : State} {id : Nat} (h : s.memWf) : (s.endGrace id).memWf := by
  unfold State.endGrace
  split
  · exact h
  · exact h.beside

theorem State.memWf.refreshReplicas {s : State} {c : Nat} (h : s.memWf) : (s.refreshReplicas c).memWf := by
  unfold State.refreshReplicas
  split
  · exact h
  · dsimp only
    split
    · exact (h.foldl fun _ _ hu => hu.foldl fun _ _ hv => hv.copyReplica).thenIf fun hp => hp.foldl fun _ _ hu => hu.copyReplica
    · exact h.foldl fun _ _ hu => hu.foldl fun _ _ hv => hv.copyReplica

end Machine
end Sys2Proof
end

section
/-! SUPPORT. The functions of Sys2Proof/Machine/Objects.lean keep the canonical form. -/

namespace Sys2Proof
open Machine
namespace Machine

theorem State.memWf.setLoc {s : State} {loc n x : Nat} (h : s.memWf) : (s.setLoc loc n x).memWf := h.setLocBytes

theorem State.memWf.setBar {s : State} {blk loc : Nat} {b : Bar} (h : s.memWf) : (s.setBar blk loc b).memWf := h.updBlock.ite h.setLocBytes

theorem State.memWf.propagate {s : State} {p : WaitEnt → WaitEnt → Bool} {n : Nat} (h : s.memWf) : (s.propagate p n).memWf := by
  induction n with
  | zero => exact h
  | succ n ih => exact ih.foldl fun _ _ hu => hu.updBlock.ite hu

theorem State.memWf.reprio {s : State} (h : s.memWf) : s.reprio.memWf := h.ite (h.foldl fun _ _ hu => hu.updBlock).propagate

theorem State.memWf.dropEnts {s : State} {p : WaitEnt → Bool} (h : s.memWf) : (s.dropEnts p).memWf :=
  (h.beside.foldl fun _ _ hu => hu.updBlock).propagate.ite h

theorem State.memWf.dropAcquires {s : State} {p : Req → Bool} (h : s.memWf) : (s.dropAcquires p).memWf :=
  (h.beside.foldl fun _ _ hu => hu.postOnce.ite hu).ite h

theorem State.memWf.raiseDeadlock {s : State} {c : List (Nat × WaitEnt)} {pkg : Bool} (h : s.memWf) : (s.raiseDeadlock c pkg).memWf := by
  unfold State.raiseDeadlock
  split
  · exact h
  · exact h.updWave.dropAcquires.dropEnts

theorem State.memWf.addEnt {s : State} {y : WaitEnt} (h : s.memWf) : (s.addEnt y).1.memWf := by
  unfold State.addEnt
  split
  · exact h
  · split
    · exact h.setPf
    · dsimp only
      split
      · exact h.beside.propagate.raiseDeadlock
      · exact h.beside.propagate

theorem State.memWf.lockAdvance {s : State} {loc : Nat} (h : s.memWf) : (s.lockAdvance loc).memWf := h.setLoc.setLoc.ite h.setLoc

theorem State.memWf.lockRelease {s : State} {loc : Nat} {abandon : Bool} (h : s.memWf) : (s.lockRelease loc abandon).memWf :=
  h.setLoc.setLoc.lockAdvance

theorem State.memWf.freeRelease {s : State} {loc : Nat} (h : s.memWf) : (s.freeRelease loc).memWf := h.setLoc.setLoc

theorem State.memWf.grant {s : State} {k loc : Nat} {free : Bool} {va : W64} {p : Nat} (h : s.memWf) : (s.grant k loc free va p).memWf :=
  h.updWave.addEnt

theorem State.memWf.ungrant {s : State} {k loc : Nat} {free : Bool} (h : s.memWf) : (s.ungrant k loc free).memWf := h.updWave.dropEnts

theorem State.memWf.satisfy {s : State} {k : Nat} {r : WaitR} {res : List W32} (h : s.memWf) : (s.satisfy k r res).1.memWf :=
  h.dropEnts.ite h

theorem State.memWf.tryWait {s : State} {k : Nat} {r : WaitR} (h : s.memWf) : (s.tryWait k r).1.memWf := by
  unfold State.tryWait
  split
  · exact h
  · split
    · split
      · exact h.satisfy
      · exact h
    · split
      · exact h.setLoc.setLoc.satisfy.grant
      · exact h
    · split
      · exact h.lockAdvance.satisfy
      · exact h
    · dsimp only
      split
      · exact h.setLocBytes.satisfy
      · exact h
      · exact h.satisfy.updWave
    · dsimp only
      split
      · exact h.setLoc.satisfy
      · exact h
      · exact h.satisfy.updWave
    · dsimp only
      split
      · split
        · exact h.satisfy
        · exact h
      · split
        · exact h.satisfy
        · exact h
    · split
      · split
        · exact h.satisfy
        · exact h
      · exact h.satisfy
    · exact h
    · exact h

theorem State.memWf.tryWaits {s : State} {k : Nat} {rs : List WaitR} (h : s.memWf) : (s.tryWaits k rs).1.memWf := by
  induction rs generalizing s with
  | nil => exact h
  | cons r rs ih => exact ih h.tryWait

theorem State.memWf.tryGroups {s : State} {k : Nat} {gs : List Group} (h : s.memWf) : (s.tryGroups k gs).1.memWf := by
  induction gs generalizing s with
  | nil => exact h
  | cons g gs ih => exact ih h.tryWaits

theorem State.memWf.tryFrames {s : State} {k : Nat} {fs : List Frame} (h : s.memWf) : (s.tryFrames k fs).1.memWf := by
  induction fs generalizing s with
  | nil => exact h
  | cons f fs ih => exact ih h.tryGroups

theorem State.memWf.wakePass {s : State} (h : s.memWf) : s.wakePass.memWf := h.foldl fun _ _ hu => hu.ite hu.tryGroups.tryFrames.updWave

theorem State.memWf.wakeGo {s : State} {n : Nat} (h : s.memWf) : (s.wakeGo n).memWf := by
  induction n generalizing s with
  | zero => exact h
  | succ n ih => exact h.wakePass.ite (ih h.wakePass)

theorem State.memWf.wake {s : State} (h : s.memWf) : s.wake.memWf := h.ite h.wakeGo

theorem State.memWf.reply {s : State} {q : Req} {old : Nat} {fl : Fl} {poison : Option Nat}
    (h : s.memWf) : (s.reply q old fl poison).memWf :=
  h.beside.post

theorem State.memWf.applyReq {s : State} {q : Req} (h : s.memWf) : (s.applyReq q).memWf := h.reply.ite (h.ite h.setLoc).reply

theorem State.memWf.applyRound {s : State} {loc : Nat} {phase : W64} (h : s.memWf) : (s.applyRound loc phase).memWf :=
  h.beside.foldl fun _ _ hu => hu.applyReq

theorem State.memWf.barHolds {s : State} {blk : Nat} (h : s.memWf) : (s.barHolds blk).memWf := h.foldl fun _ _ hu => hu.ite hu.addEnt

theorem State.memWf.checkClose {s : State} {blk loc : Nat} (h : s.memWf) : (s.checkClose blk loc).memWf := by
  unfold State.checkClose
  dsimp only
  split
  · exact h
  · split
    · exact h
    · split
      · exact h.setBar
      · split
        · exact h
        · refine State.memWf.dropEnts ?_
          refine State.memWf.setBar ?_
          refine State.memWf.foldl ?_ (fun _ _ hu => hu.updWave)
          split
          · split
            · exact h.applyRound.foldWaves
            · exact h.applyRound
          · refine State.memWf.updWave ?_
            split
            · exact h.applyRound.foldWaves
            · exact h.applyRound

theorem State.memWf.arrive {s : State} {k loc : Nat} {va : W64} {p : W32} {y word : W64} {run act : Mask}
    (h : s.memWf) : (s.arrive k loc va p y word run act).memWf :=
  (h.setBar.updWave.dropEnts.thenIf fun hp => hp.barHolds).checkClose

theorem State.memWf.land {s : State} {blk loc n : Nat} {next : Bool} (h : s.memWf) : (s.land blk loc n next).memWf :=
  h.setBar.ite h.setBar.checkClose

theorem State.memWf.logWrite {s : State} {c va : Nat} {bs : List Byte} (h : s.memWf) : (s.logWrite c va bs).memWf := by
  unfold State.logWrite
  split
  · exact h.writeDev
  · exact h

theorem State.memWf.logSegment {s : State} {c first : Nat} {n : ℕ} {t : State} (h : s.memWf)
    (e : s.logSegment c first = some (n, t)) : t.memWf := by
  unfold State.logSegment at e
  dsimp only at e
  split at e
  · cases e
  · cases e
    exact h.logWrite.logWrite

theorem State.memWf.logAdmit {s : State} {c lineVa : Nat} {ident : List Byte} {lane : Nat} {t : State} (h : s.memWf)
    (e : s.logAdmit c lineVa ident lane = some t) : t.memWf := by
  unfold State.logAdmit at e
  dsimp only at e
  split at e
  · split at e
    · cases e
      exact h.logWrite
    · split at e
      · cases e
        exact h.logWrite.logWrite
      · split at e
        · cases e
        next v ev =>
          have hv := h.logSegment ev
          cases e
          exact hv.logWrite.logWrite.logWrite
  · split at e
    · cases e
    next v ev =>
      have hv := h.logSegment ev
      cases e
      exact hv.logWrite.logWrite

theorem State.memWf.logCheckpoint {s : State} {c : Nat} {ident : List Byte} {count : Nat} {crc : W64} {t : State} (h : s.memWf)
    (e : s.logCheckpoint c ident count crc = some t) : t.memWf := by
  unfold State.logCheckpoint at e
  dsimp only at e
  split at e
  · split at e
    · cases e
      exact h.logWrite.logWrite
    · split at e
      · cases e
      next v ev =>
        have hv := h.logSegment ev
        cases e
        exact hv.logWrite.logWrite.logWrite
  · split at e
    · cases e
    next v ev =>
      have hv := h.logSegment ev
      cases e
      exact hv.logWrite.logWrite.logWrite

end Machine
end Sys2Proof
end

section
/-! SUPPORT. The functions of Sys2Proof/Machine/Levels.lean keep the canonical form. -/

namespace Sys2Proof
open Machine
namespace Machine

theorem State.memWf.freePool {s : State} {n : Nat} (h : s.memWf) : (s.freePool n).memWf := h.beside

theorem State.memWf.releaseLocks {s : State} {k : Nat} (h : s.memWf) : (s.releaseLocks k).memWf :=
  h.ite ((h.foldl fun _ _ hu => hu.freeRelease.ite hu.lockRelease).updWave.foldl fun _ _ hu => hu.postOnce.ite hu)

theorem State.memWf.lanesGone {s : State} {c : Nat} (h : s.memWf) : (s.lanesGone c).memWf := (h.foldl fun _ _ hu => hu.postOnce).ite h

theorem State.memWf.closeWave {s : State} {k : Nat} (h : s.memWf) : (s.closeWave k).memWf :=
  (h.releaseLocks.dropRefs.dropAcquires.beside.dropEnts.updWave.elseIf fun hp => hp.updBlock).lanesGone

theorem State.memWf.forget {s : State} (h : s.memWf) : s.forget.memWf := h.foldl fun _ _ hu => hu.freePool.beside.ite hu

theorem State.memWf.orphanReqs {s : State} {blk : Nat} (h : s.memWf) : (s.orphanReqs blk).memWf := h.beside

theorem State.memWf.dropBlock {s : State} {blk : Nat} {keep : Bool} (h : s.memWf) : (s.dropBlock blk keep).memWf := by
  unfold State.dropBlock
  extract_lets s₁ die c _ s₂ s₃ s₄
  have h₁ : s₁.memWf := h.foldl fun _ _ hu => hu.ite hu.closeWave
  have h₃ : s₃.memWf := State.memWf.beside (s := s₂) (h₁.setCtx.ite h₁)
  have h₄ : s₄.memWf := h₃.beside.ite h₃
  exact (h₄.ite h₄.orphanReqs).postOnce

theorem State.memWf.restoreRanges {s : State} {id : Nat} {g : Grp} (h : s.memWf) : (s.restoreRanges id g).memWf :=
  (h.beside.foldl fun _ _ hu => hu.writeDev).updGrp

theorem State.memWf.cancelWave {s : State} {k : Nat} (h : s.memWf) : (s.cancelWave k).memWf := h.updWave

theorem State.memWf.cancelBlock {s : State} {blk : Nat} (h : s.memWf) : (s.cancelBlock blk).memWf :=
  h.ite (h.updBlock.updBlock.post.ite (h.updBlock.foldl fun _ _ hu => hu.cancelWave))

theorem State.memWf.cancelEnded {s : State} {id : Nat} {g : Grp} (h : s.memWf) : (s.cancelEnded id g).memWf := by
  unfold State.cancelEnded
  dsimp only
  split
  · exact h
  · exact h.beside
  · exact h.restoreRanges.freePool.updGrp
  · exact h.beside.ite h

theorem State.memWf.cancelGrp {s : State} {n id : Nat} (h : s.memWf) : (s.cancelGrp n id).memWf := by
  induction n generalizing s id with
  | zero => exact h
  | succ n ih =>
    unfold State.cancelGrp
    split
    · exact h
    · refine h.ite (h.cancelEnded.ite ?_)
      extract_lets s₁ hs s₂ s₃
      have h₃ : s₃.memWf := (h.updGrp.foldl fun _ _ hu => (hu.foldl fun _ _ hv => ih hv).cancelBlock).foldl fun _ _ hu => ih hu
      exact h₃.postOnce.ite h₃

theorem State.memWf.cancelOne {s : State} {blk : Nat} (h : s.memWf) : (s.cancelOne blk).memWf :=
  (h.foldl fun _ _ hu => hu.cancelGrp).cancelBlock

theorem State.memWf.cancelLevel {s : State} {c lvl job phase graph : Nat} (h : s.memWf) : (s.cancelLevel c lvl job phase graph).memWf :=
  (h.beside.setCtx.foldl fun _ _ hu => hu.cancelGrp).foldl fun _ _ hu => hu.postOnce.ite hu

theorem State.memWf.startsAgain {s : State} (h : s.memWf) : s.startsAgain.memWf := h.foldl fun _ _ hu => hu.postOnce.ite hu

theorem State.memWf.removeGrp {s : State} {n id : Nat} (h : s.memWf) : (s.removeGrp n id).memWf := by
  induction n generalizing s id with
  | zero => exact h
  | succ n ih =>
    unfold State.removeGrp
    split
    · exact h
    · refine h.cancelGrp.ite ?_
      extract_lets s₁ s₂
      have h₁ : s₁.memWf := h.foldl fun _ _ hu => (hu.foldl fun _ _ hv => ih hv).dropBlock
      exact (h₁.restoreRanges.ite h₁).freePool.beside

theorem State.memWf.stopBlock {s : State} {blk : Nat} (h : s.memWf) : (s.stopBlock blk).memWf :=
  (h.foldl fun _ _ hu => hu.removeGrp).dropBlock

theorem State.memWf.stopChildren {s : State} {id : Nat} (h : s.memWf) : (s.stopChildren id).memWf := h.foldl fun _ _ hu => hu.stopBlock

theorem State.memWf.wakeForker {s : State} {id : Nat} (h : s.memWf) : (s.wakeForker id).memWf := by
  unfold State.wakeForker
  split
  · exact h.updWave
  · exact h

theorem State.memWf.rollback {s : State} {id code : Nat} {pool : Bool} (h : s.memWf) : (s.rollback id code pool).memWf := by
  unfold State.rollback
  split
  · exact h
  · exact h.stopChildren.restoreRanges.freePool.updGrp.wakeForker.forget

theorem State.memWf.forkErr {s : State} {id : Nat} {rank : BitVec 2} {code count : Nat}
    (h : s.memWf) : (s.forkErr id rank code count).memWf := by
  unfold State.forkErr
  split
  · exact h.placeErr
  · exact h

theorem State.memWf.strikeFork {s : State} {id : Nat} (h : s.memWf) : (s.strikeFork id).memWf := by
  unfold State.strikeFork
  split
  · exact h
  · refine h.ite ?_
    refine h.rollback.ite ?_
    refine h.rollback.forkErr.ite ?_
    exact (h.stopChildren.restoreRanges.forkErr.thenIf fun hp => hp.freePool).updGrp.foldl fun _ _ hu => hu.postOnce

theorem State.memWf.addCharge {s : State} {blk n : Nat} (h : s.memWf) : (s.addCharge blk n).memWf := h.ite (h.updGrp.ite h.updGrp.beside)

theorem State.memWf.dropCharge {s : State} {blk n : Nat} (h : s.memWf) : (s.dropCharge blk n).memWf :=
  h.ite (h.updGrp.ite h.updGrp.freePool)

theorem State.memWf.makeRoom {s : State} {n : Nat} {ids : List Nat} (h : s.memWf) : (s.makeRoom n ids).memWf := by
  induction ids generalizing s with
  | nil => exact h
  | cons id ids ih =>
    refine h.ite (ih ?_)
    split
    · exact h.forkErr.rollback.ite h
    · exact h

theorem State.memWf.settleCharge {s before after : State} (hbefore : before.memWf)
    (hafter : after.memWf) : (s.settleCharge before after).memWf := by
  unfold State.settleCharge
  dsimp only
  split
  · exact hafter
  · split
    · exact hafter.addCharge
    · exact hbefore.rollback
    · exact hbefore.beside.ite hbefore.makeRoom

theorem State.memWf.endBlock {s : State} {blk : Nat} (h : s.memWf) : (s.endBlock blk).memWf := (h.ite h.foldWaves).updBlock.post.postOnce

theorem State.memWf.afterWave {s : State} {blk : Nat} (h : s.memWf) : (s.afterWave blk).memWf :=
  h.ite ((h.ite h.endBlock).ite (h.ite h.checkClose.wake))

theorem State.memWf.killWave {s : State} {k : Nat} (h : s.memWf) : (s.killWave k).memWf := by
  unfold State.killWave
  exact (h.foldl fun _ _ hu => hu.cancelGrp).closeWave.forget.afterWave.wake

theorem State.memWf.foldLaunch {s : State} {id : Nat} (h : s.memWf) : (s.foldLaunch id).1.memWf := by
  unfold State.foldLaunch
  split
  · exact h
  · exact h.setW

theorem State.memWf.foldSlots {s : State} (h : s.memWf) : s.foldSlots.memWf :=
  h.settleCharge (h.foldl fun _ _ hu => hu.foldLaunch.freePool.beside).setW

theorem State.memWf.finishWave {s : State} {k : Nat} (h : s.memWf) : (s.finishWave k).memWf :=
  (h.ite (h.within fun _ hu => hu.foldSlots)).elseIf fun hq => hq.thenElse (fun hp => hp.updWave.postOnce) fun hp =>
    hp.closeWave.afterWave.wake

theorem State.memWf.takeFlags {s : State} {k : Nat} (h : s.memWf) : (s.takeFlags k).memWf := h.updWave.beside

theorem State.memWf.endingDue {s : State} {blk : Nat} (h : s.memWf) : (s.endingDue blk).memWf := h.foldl fun _ _ hu => hu.postOnce.ite hu

theorem State.memWf.exitWave {s : State} {k : Nat} (h : s.memWf) : (s.exitWave k).memWf :=
  h.takeFlags.finishWave.ite h.takeFlags.updWave.lanesGone.endingDue

theorem State.memWf.failGrp {s : State} {id : Nat} (h : s.memWf) : (s.failGrp id).memWf := by
  unfold State.failGrp
  split
  · exact h
  · refine h.ite ?_
    extract_lets s₁ s₂
    have h₂ : s₂.memWf := by
      refine h.updGrp.foldl fun u blk hu => ?_
      exact (hu.updBlock.foldl fun _ _ hv => hv.cancelGrp).thenElse
        (fun hp => hp.foldl fun _ _ hv => hv.ite hv.killWave) fun hp => hp.updBlock.post
    exact h₂.postOnce.ite h₂

theorem State.memWf.launchErr {s : State} {die ctx : Nat} {unit : BitVec 8} {addr : W64} {core : BitVec 8} {blk : Nat}
    (h : s.memWf) : (s.launchErr die ctx unit addr core blk).memWf :=
  h.placeErr

theorem State.memWf.strikeBlock {s : State} {blk : Nat} (h : s.memWf) : (s.strikeBlock blk).memWf := by
  unfold State.strikeBlock
  split
  · exact h.strikeFork
  · exact h.launchErr.failGrp

theorem State.memWf.poisonBlock {s : State} {blk loc : Nat} (h : s.memWf) : (s.poisonBlock blk loc).memWf := by
  unfold State.poisonBlock
  split
  · exact h.strikeFork
  · exact h.launchErr.failGrp

theorem State.memWf.wharfWrite {s : State} {c va : Nat} {bs : List Byte} (h : s.memWf) : (s.wharfWrite c va bs).memWf := by
  unfold State.wharfWrite
  split
  · exact h.writeHost.ite h.writeDev
  · exact h

theorem State.memWf.writeRecord {s : State} {g : Grp} (h : s.memWf) : (s.writeRecord g).memWf :=
  h.ite (h.wharfWrite.wharfWrite.msi.ite h.wharfWrite.wharfWrite)

theorem State.memWf.blockEnded {s : State} {blk : Nat} (h : s.memWf) : (s.blockEnded blk).memWf := by
  unfold State.blockEnded
  dsimp only
  split
  · exact h
  · split
    · exact h.postOnce
    · split
      · exact h.updGrp.dropBlock
      · exact (h.updGrp.dropBlock.postOnce.ite h.updGrp.dropBlock).thenIf fun hp => hp.foldl fun _ _ hu => hu.postOnce

theorem State.memWf.levelDue {s : State} {c lvl job phase graph : Nat} {y : Instr}
    (h : s.memWf) : (s.levelDue c lvl job phase graph y).memWf := by
  unfold State.levelDue
  split
  · exact h.postOnce.ite h
  · exact h

theorem State.memWf.levelsDue {s : State} {g : Grp} (h : s.memWf) : (s.levelsDue g).memWf := by
  unfold State.levelsDue
  dsimp only
  split
  · refine State.memWf.levelDue ?_
    split
    · refine State.memWf.levelDue ?_
      split
      · exact h.levelDue
      · exact h
    · split
      · exact h.levelDue
      · exact h
  · split
    · refine State.memWf.levelDue ?_
      split
      · exact h.levelDue
      · exact h
    · split
      · exact h.levelDue
      · exact h

theorem State.memWf.launchEnded {s : State} {id : Nat} (h : s.memWf) : (s.launchEnded id).memWf := by
  unfold State.launchEnded
  split
  · exact h
  · split
    · exact h
    · dsimp only
      split
      · exact ((h.beside.ite h.beside.writeRecord).forget.wake.thenIf fun hp => hp.postOnce).startsAgain
      · split
        · exact h.beside
        · exact (h.beside.updLev.ite h.beside.updLev.writeRecord).levelsDue.startsAgain

theorem State.memWf.forkEnded {s : State} {id : Nat} (h : s.memWf) : (s.forkEnded id).memWf := by
  unfold State.forkEnded
  split
  · exact h
  · exact h.ite (h.restoreRanges.freePool.ite h).updGrp.wakeForker.forget

theorem State.memWf.recordsDue {s : State} {c job phase graph lvl : Nat} (h : s.memWf) : (s.recordsDue c job phase graph lvl).memWf :=
  h.foldl fun _ _ hu => hu.writeRecord.ite hu

theorem State.memWf.graphEnded {s : State} {id : Nat} (h : s.memWf) : (s.graphEnded id).memWf := by
  unfold State.graphEnded
  split
  · exact h
  · split
    · exact h
    · dsimp only
      split
      · exact h.beside.recordsDue
      · exact h.beside.recordsDue.updLev.levelDue

theorem State.memWf.jobEnded {s : State} {id : Nat} (h : s.memWf) : (s.jobEnded id).memWf := by
  unfold State.jobEnded
  split
  · exact h
  · exact h.ite h.beside.recordsDue

theorem State.memWf.phaseEnded {s : State} {id : Nat} (h : s.memWf) : (s.phaseEnded id).memWf := by
  unfold State.phaseEnded
  split
  · exact h
  · split
    · exact h
    · refine State.memWf.foldl ?_ (fun _ _ hu => hu.postOnce.ite hu)
      dsimp only
      split
      · exact ((h.setCtx.beside.foldl fun _ _ hu => hu.writeDev).foldl fun _ _ hu => hu.writeDev).refreshReplicas.beside.recordsDue.foldl
          fun _ _ hu => hu.freePool.updGrp.ite hu
      · exact (((h.setCtx.beside.foldl fun _ _ hu => hu.writeDev).foldl fun _ _ hu => hu.writeDev).refreshReplicas.beside.recordsDue.foldl
          fun _ _ hu => hu.freePool.updGrp.ite hu).updLev.levelDue

end Machine
end Sys2Proof
end

section
/-! SUPPORT. The functions of Sys2Proof/Machine/Issue.lean keep the canonical form. -/

namespace Sys2Proof
open Machine
namespace Machine

theorem State.memWf.dropBurst {s : State} (h : s.memWf) : s.dropBurst.memWf := h.setW.ite h

end Machine
end Sys2Proof
end

section
/-! SUPPORT. The functions of Sys2Proof/Machine/Ops.lean keep the canonical form. -/

namespace Sys2Proof
open Machine
namespace Machine

theorem State.memWf.closeRegion {s : State} (h : s.memWf) : s.closeRegion.memWf := by
  unfold State.closeRegion
  split
  · exact h
  · exact h.ite h.setW.post

theorem State.memWf.ringPut {s t : State} {base log2 prod cons : Nat} {bs : List Byte} (h : s.memWf)
    (e : s.ringPut base log2 prod cons bs = some t) : t.memWf := by
  unfold State.ringPut at e
  dsimp only at e
  split at e
  · cases e
  · cases e
    exact h.writeHost.setPf

theorem State.memWf.escPut {s : State} {bs : List Byte} (h : s.memWf) : (s.escPut bs).memWf := by
  unfold State.escPut
  split
  next t e =>
    have ht := h.ringPut e
    exact ht.msi
  · exact h.beside

theorem State.memWf.escalate {s : State} {u : Trap} {word : W64} {reason : Nat} (h : s.memWf) : (s.escalate u word reason).memWf :=
  h.escPut.foldl fun _ _ hu => hu.updWave

theorem State.memWf.enterHandler {s : State} {u : Trap} {word : W64} {run act : Mask} {between : Bool}
    (h : s.memWf) : (s.enterHandler u word run act between).memWf :=
  h.beside.wharfWrite.setW

theorem State.memWf.takeTrap {s : State} {u : Trap} {word : W64} {run act : Mask} {between : Bool}
    (h : s.memWf) : (s.takeTrap u word run act between).memWf :=
  h.setW.killWave.ite (h.setW.escalate.ite (h.setW.escalate.ite (h.setW.escalate.ite h.setW.enterHandler)))

theorem State.memWf.trapRun {s : State} {act : Mask} {u : Trap} (h : s.memWf) : (s.trapRun act u).memWf :=
  h.closeRegion.ite h.dropBurst.takeTrap

theorem State.memWf.trapWord {s : State} {act : Mask} {u : Trap} (h : s.memWf) : (s.trapWord act u).memWf :=
  h.closeRegion.ite h.setW.takeTrap

theorem State.memWf.takePending {s : State} (h : s.memWf) : s.takePending.memWf := by
  unfold State.takePending
  split
  · exact h
  · split
    · exact h.closeRegion
    · dsimp only
      split
      · exact h.setW.dropBurst.takeTrap
      · exact h.setW.dropBurst.takeTrap

theorem State.memWf.tretTo {s : State} {f : Frame} {fs : List Frame} (h : s.memWf) : (s.tretTo f fs).memWf := h.setW

theorem State.memWf.returnTrap {s : State} {f : Frame} {fs : List Frame} (h : s.memWf) : (s.returnTrap f fs).memWf :=
  h.killWave.ite h.tretTo

theorem State.memWf.joinFault {s : State} {va : W64} {kind : BitVec 8} {u : Trap} (h : s.memWf) : (s.joinFault va kind u).memWf := by
  unfold State.joinFault
  dsimp only
  split
  · exact h.setW
  · split
    · exact h
    · exact h.setW.beside.post

theorem State.memWf.enterWaits {s : State} {k : Nat} {rs : List WaitR} (h : s.memWf) : (s.enterWaits k rs).memWf := by
  induction rs generalizing s with
  | nil => exact h
  | cons r rs ih => exact (ih h).ite (ih (h.addEnt.ite h.addEnt.updWave))

theorem State.memWf.park {s : State} {lanes : Mask} {ws : List WaitR} {barw : Bool} (h : s.memWf) : (s.park lanes ws barw).memWf :=
  h.setW.enterWaits.wake

theorem State.memWf.writeRes {s : State} {r : WaitR} (h : s.memWf) : (s.writeRes r).memWf := by
  unfold State.writeRes
  split
  · exact h
  · split
    · exact h.setAll
    · exact h.setOpnd

theorem State.memWf.deliver {s : State} (h : s.memWf) : s.deliver.memWf := (h.foldl fun _ _ hu => hu.writeRes).setW

theorem State.memWf.heldBack {s : State} (h : s.memWf) : s.heldBack.memWf := h.deliver.setW

theorem State.memWf.waitsIn {s : State} {r : Res} (h : s.memWf) (hr : r.memWf) : (Res.waitsIn s r).memWf := by
  unfold Machine.Res.waitsIn
  split
  · exact .stall h
  · exact hr

theorem State.memWf.retire {s before : State} {i : Instr} {act : Mask} {next : Bool} (h : s.memWf) : (s.retire before i act next).memWf :=
  h.setW

/-- A word keeps the canonical form when its effect does, however the word ends. -/
theorem State.memWf.word {i : Instr} {s : State} {body : Mask → State → Res} (h : s.memWf)
    (hb : ∀ act, (body act s).memWf) : KeepsWf (word i s body) := by
  have hr := hb (s.active i)
  unfold Machine.word
  split
  · exact .fault
  · dsimp only
    split
    · exact .next h.closeRegion
    · split
      · exact .next h.trapWord
      · split
        · exact .next h.heldBack
        · split
          · exact .next h.retire
          · generalize body (s.active i) s = r at hr ⊢
            cases hr with
            | done ht => exact .next (h.settleCharge ht.retire)
            | moved ht => exact .next (h.settleCharge ht.retire)
            | trap ht => exact .next (h.closeRegion.ite (h.settleCharge ht.trapWord))
            | stall ht => exact .next (h.settleCharge ht)
            | close => exact .next h.closeRegion
            | fault ht => exact .next (h.settleCharge ht.joinFault)
            | poison _ => exact .next h.beside.poisonBlock
            | gone ht => exact .next ht

end Machine
end Sys2Proof
end

section
/-! SUPPORT. The functions of Sys2Proof/Machine/Lanes.lean keep the canonical form. -/

namespace Sys2Proof
open Machine
namespace Machine

theorem State.memWf.perLane {s : State} {act : Mask} {d : Opnd} {n : Nat} {f : Nat → Nat × Fl}
    (h : s.memWf) : (s.perLane act d n f).memWf := by
  unfold State.perLane
  split
  · exact h.setOpnd.orFlags
  · exact h.foldl fun _ _ hu => hu.setOpnd.orFlags

theorem State.memWf.eachLane {s : State} {act : Mask} {d : Opnd} {n : Nat} {f : Nat → Nat} (h : s.memWf) : (s.eachLane act d n f).memWf :=
  h.perLane

theorem State.memWf.oneValue {s : State} {act : Mask} {d : Opnd} {n x : Nat} (h : s.memWf) : (s.oneValue act d n x).memWf := h.eachLane

theorem State.memWf.simple {i : Instr} {s : State} {f : Mask → State} (h : s.memWf) (hf : ∀ x, (f x).memWf) : KeepsWf (simple i s f) :=
  h.word fun _ => .done (hf _)

end Machine
end Sys2Proof
end

section
/-! SUPPORT. The functions of Sys2Proof/Machine/Access.lean keep the canonical form. -/

namespace Sys2Proof
open Machine
namespace Machine

theorem State.memWf.raiseRace {s : State} {sec other kind : Nat} (h : s.memWf) : (s.raiseRace sec other kind).1.memWf :=
  (h.setB.foldl fun _ _ hu => hu.cancelGrp).foldl fun _ _ hu => hu.ite hu.updWave

theorem State.memWf.raceThen {s : State} {secs : List (Nat × Bool)} {k : State → Res} (h : s.memWf)
    (hk : ∀ u, u.memWf → (k u).memWf) : (s.raceThen secs k).memWf := by
  unfold State.raceThen
  split
  · exact hk _ h
  · split
    · exact .done h
    · split
      · exact hk _ h.setB
      · exact .trap h.raiseRace
      · exact .stall h

theorem State.memWf.failAccess {s : State} {sp : Sp} {write : Bool} {c : Nat × W64 × Chk} (h : s.memWf) : (s.failAccess sp write c).memWf :=
    by
  unfold State.failAccess
  split
  · exact .trap h
  · exact .trap h
  · exact .fault h
  · exact .stall h

theorem State.memWf.accessed {s : State} {n : Nat} {write : Bool} {ps : List (Nat × W64 × Place)}
    (h : s.memWf) : (s.accessed n write ps).memWf :=
  h.pay.setB.ite h.pay

theorem State.memWf.accessAll {s : State} {ls : List Nat} {acc : Acc} {sp : Sp} {n : Nat} {reads write pin : Bool} {addr : Nat → W64}
    {k : State → List (Nat × W64 × Place) → Res} (h : s.memWf)
    (hk : ∀ u x, u.memWf → (k u x).memWf) : (s.accessAll ls acc sp n reads write pin addr k).memWf := by
  unfold State.accessAll
  dsimp only
  split
  · exact h.failAccess
  · split
    · exact .close
    · split
      · exact .stall h
      · split
        · exact .stall h
        · split
          · exact .poison h
          · exact h.raceThen fun _ hu => hk _ _ hu.accessed

theorem State.memWf.logStore {s : State} {sp : Sp} {addr : W64} {bs : List Byte} {t : State} (h : s.memWf)
    (e : s.logStore sp addr bs = some t) : t.memWf := by
  unfold State.logStore at e
  split at e
  · cases e
    exact h
  · dsimp only at e
    split at e
    · cases e
      exact h.setW
    · split at e
      · cases e
        exact h.setW.ite h.setW.setW
      · exact h.setW.logCheckpoint e

theorem State.memWf.storeAll {s t : State} {sp : Sp} {n : Nat} {val : Nat → Nat} {ps : List (Nat × W64 × Place)} (h : s.memWf)
    (e : s.storeAll sp n val ps = some t) : t.memWf := by
  induction ps generalizing s with
  | nil =>
    cases e
    exact h
  | cons p ps ih =>
    unfold State.storeAll at e
    split at e
    · cases e
    next eu => exact ih (h.logStore eu).writePlace e

theorem State.memWf.countWindow {s : State} {ps : List (Nat × W64 × Place)} {n : Nat} (h : s.memWf) : (s.countWindow ps n).memWf := by
  unfold State.countWindow
  refine h.foldl fun u x hu => ?_
  dsimp only
  split
  · exact hu.countDecErr
  · exact hu

end Machine
end Sys2Proof
end

section
/-! SUPPORT. The functions of Sys2Proof/Machine/Memory.lean keep the canonical form. -/

namespace Sys2Proof
open Machine
namespace Machine

theorem State.memWf.loadWord {i : Instr} {d a : Opnd} {sz : Sz} {sp : Sp} {off : W64} {pin : Bool} {s : State}
    (h : s.memWf) : KeepsWf (loadWord i d a sz sp off pin s) :=
  h.word fun _ => h.accessAll fun _ _ hu => .done (hu.countWindow.foldl fun _ _ hv => hv.setOpnd)

theorem State.memWf.storeWord {i : Instr} {d a : Opnd} {sz : Sz} {sp : Sp} {off : W64} {pin : Bool} {s : State}
    (h : s.memWf) : KeepsWf (storeWord i d a sz sp off pin s) := by
  unfold Machine.storeWord
  refine h.word fun act => ?_
  refine h.accessAll fun u x hu => ?_
  split
  next t e =>
    have ht := hu.storeAll e
    exact .done ht
  · exact .stall h.beside

theorem State.memWf.execLd {f : F} {sz : Sz} {sp : Sp} {off : BitVec 16} {s : State} (h : s.memWf) : KeepsWf (execLd f sz sp off s) :=
  h.loadWord

theorem State.memWf.execSt {f : F} {sz : Sz} {sp : Sp} {off : BitVec 16} {s : State} (h : s.memWf) : KeepsWf (execSt f sz sp off s) :=
  h.storeWord

theorem State.memWf.execLdn {f : F} {sz : Sz} {sp : Sp} {off : BitVec 16} {s : State} (h : s.memWf) : KeepsWf (execLdn f sz sp off s) :=
  h.loadWord

theorem State.memWf.execStn {f : F} {sz : Sz} {sp : Sp} {off : BitVec 16} {s : State} (h : s.memWf) : KeepsWf (execStn f sz sp off s) :=
  h.storeWord

theorem State.memWf.execLdX {x : X} {s : State} (h : s.memWf) : KeepsWf (execLdX x s) := h.loadWord

theorem State.memWf.execStX {x : X} {s : State} (h : s.memWf) : KeepsWf (execStX x s) := h.storeWord

theorem State.memWf.execTouch {f : F} {wr : Bool} {off : BitVec 16} {s : State} (h : s.memWf) : KeepsWf (execTouch f wr off s) := by
  unfold Machine.execTouch
  refine h.word fun act => ?_
  dsimp only
  split
  · exact h.failAccess
  · split
    · exact .trap h
    · exact .done h.setW

theorem State.memWf.execPf {f : F} {lvl : PfLvl} {off : BitVec 16} {s : State} (h : s.memWf) : KeepsWf (execPf f lvl off s) :=
  h.word fun _ => .done h

theorem State.memWf.execCachectl {f : F} {op : CacheOp} {s : State} (h : s.memWf) : KeepsWf (execCachectl f op s) := h.word fun _ => .done h

theorem State.memWf.atomLane {s before : State} {f : F} {op : AOp} {dt : DT} {l : Nat} {p : Place}
    (h : s.memWf) : (s.atomLane before f op dt l p).memWf :=
  h.writePlace.setOpnd.orFlags

theorem State.memWf.execAtom {f : F} {op : AOp} {dt : DT} {sc : Bool} {s : State} (h : s.memWf) : KeepsWf (execAtom f op dt sc s) :=
  h.word fun _ => h.accessAll fun _ _ hu => .done (hu.foldl fun _ _ hv => hv.atomLane)

theorem State.memWf.redLane {s before : State} {f : F} {dt : DT} {l : Nat} {p : Place} (h : s.memWf) : (s.redLane before f dt l p).memWf :=
    by
  unfold State.redLane
  split
  · exact h.setW
  · exact h

theorem State.memWf.execRed {f : F} {op : AOp} {dt : DT} {s : State} (h : s.memWf) : KeepsWf (execRed f op dt s) := by
  unfold Machine.execRed
  refine h.word fun act => ?_
  dsimp only
  split
  · exact h.failAccess
  · exact .done (h.foldl fun _ _ hu => hu.redLane)

end Machine
end Sys2Proof
end

section
/-! SUPPORT. The functions of Sys2Proof/Machine/Engines.lean keep the canonical form. -/

namespace Sys2Proof
open Machine
namespace Machine

theorem State.memWf.commitElem {s t : State} {m : Move} {y : Elem} (h : s.memWf) (e : s.commitElem m y = some t) : t.memWf := by
  unfold State.commitElem at e
  extract_lets _ s₁ s₂ at e
  have h₁ : s₁.memWf := by
    unfold s₁
    split
    · exact h.setW
    · exact h.setW
    · exact h
  have h₂ : s₂.memWf := by
    unfold s₂
    split
    · split
      · exact h₁.countDecErr
      all_goals exact h₁
    · exact h₁
  split at e
  · exact h₂.logStore e
  · exact Option.some.inj e ▸ h₂

theorem State.memWf.commitMoves {s t : State} {ms : List (Move × Elem)} (h : s.memWf) (e : s.commitMoves ms = some t) : t.memWf := by
  induction ms generalizing s with
  | nil =>
    cases e
    exact h
  | cons m ms ih =>
    unfold State.commitMoves at e
    split at e
    · cases e
    next eu => exact ih (h.commitElem eu) e

theorem State.memWf.issueGo {s : State} {j : Nat} {ms : List (List Move)} (h : s.memWf) : (s.issueGo j ms).1.memWf := by
  induction ms generalizing s j with
  | nil => exact h
  | cons m ms ih =>
    unfold State.issueGo
    dsimp only
    split
    · exact h
    · split
      · exact h
      · split
        · exact h
        · split
          · exact ih h
          · split
            · exact h
            · exact h
            · split
              · exact h
              next et =>
                have ht := h.setB.commitMoves et
                exact ih (ht.setB.ite ht)

theorem State.memWf.inject {s : State} {c : Cmd} {leg : Option (Nat × Nat)} (h : s.memWf) : (s.inject c leg).1.memWf := by
  unfold State.inject
  split
  · exact h.fresh
  · exact h

theorem State.memWf.injectHead {s : State} {c : Cmd} (h : s.memWf) : (s.injectHead c).1.memWf := by
  unfold State.injectHead
  split
  · split
    · exact h.inject
    · exact h
  · exact h

theorem State.memWf.sendCmd {s : State} {word : Nat} {els : List Elem} {tag bar bva : Option Nat} {rel : Bool}
    (h : s.memWf) : (s.sendCmd word els tag bar bva rel).memWf :=
  h.ite h.fresh.setB.injectHead.beside.post

theorem State.memWf.issueCmd {s : State} {cw : W64} {els : List (List Move)} {lane : Nat → Nat} {rel : Bool} {hold : List Byte}
    {fin : State → State} (h : s.memWf) (hfin : ∀ u, u.memWf → (fin u).memWf) :
    (s.issueCmd cw els lane rel hold fin).memWf := by
  unfold State.issueCmd
  extract_lets again _ first prog
  clear_value again
  split
  · exact .trap h
  · exact .fault h
  · exact .stall h
  next tag _ _ =>
    extract_lets begin s₀ r t stop j u
    have h₀ : s₀.memWf := by
      unfold s₀ begin
      split
      · exact h
      · exact h.fresh.setB.setW
    have ht : t.memWf := h₀.issueGo.sendCmd
    have hprog : ∀ n u, u.memWf → (prog n u).memWf := fun _ _ hu => hu.setW
    have hstop : ∀ u, u.memWf → (stop u).memWf := fun _ hu => hu.setB.setW
    split
    · exact .done (hfin _ (hprog _ _ (hstop _ ht)))
    · exact .stall (hprog _ _ ht)
    · exact .stall (hprog _ _ ht).setW
    · exact .poison ht
    · exact .trap (hprog _ _ (hstop _ ht)).raiseRace
    · dsimp only
      split
      · exact .trap (hprog _ _ ((hstop _ ht).ite ht))
      · exact .fault (hprog _ _ ht)

theorem State.memWf.execGth {f : F} {sz : Sz} {sp : Sp} {acq : Bool} {scope : Scope} {s : State}
    (h : s.memWf) : KeepsWf (execGth f sz sp acq scope s) :=
  h.word fun _ => h.issueCmd fun _ hu => hu.id

theorem State.memWf.execSct {f : F} {sz : Sz} {sp : Sp} {rel : Bool} {scope : Scope} {s : State}
    (h : s.memWf) : KeepsWf (execSct f sz sp rel scope s) :=
  h.word fun _ => h.issueCmd fun _ hu => hu.id

theorem State.memWf.execCst {f : F} {sz : Sz} {sp : Sp} {rel : Bool} {scope : Scope} {s : State}
    (h : s.memWf) : KeepsWf (execCst f sz sp rel scope s) :=
  h.word fun _ => h.issueCmd fun _ hu => hu.setOpnd

theorem State.memWf.execXld {f : F} {sz : Sz} {sp : Sp} {acq : Bool} {scope : Scope} {s : State}
    (h : s.memWf) : KeepsWf (execXld f sz sp acq scope s) :=
  h.word fun _ => h.issueCmd fun _ hu => hu.id

theorem State.memWf.copyFrom {s : State} {bs : List Byte} {va : W64} {lane : Nat} {rel : Bool}
    (h : s.memWf) : (s.copyFrom bs va lane rel).memWf := by
  unfold State.copyFrom
  split
  · exact .trap h
  · exact h.issueCmd fun _ hu => hu.id

theorem State.memWf.execCpy {f : F} {acq rel : Bool} {scope : Scope} {s : State} (h : s.memWf) : KeepsWf (execCpy f acq rel scope s) := by
  unfold Machine.execCpy
  refine h.word fun act => ?_
  dsimp only
  split
  · exact h.copyFrom
  · refine h.accessAll fun u x hu => ?_
    split
    · exact hu.countWindow.copyFrom
    · exact .done hu

theorem State.memWf.putCmd {s : State} {c : Cmd} (h : s.memWf) : (s.putCmd c).memWf := h.beside

theorem State.memWf.readSource {s : State} {c : Cmd} {y : Elem} {rest : List Elem} (h : s.memWf) : (s.readSource c y rest).memWf := by
  unfold State.readSource
  split
  · exact h.poisonBlock
  · exact h.updBlock.inject.putCmd.post

theorem State.memWf.endCmd {s : State} {c : Cmd} (h : s.memWf) : (s.endCmd c).memWf := by
  unfold State.endCmd
  refine State.memWf.wake ?_
  refine State.memWf.endingDue ?_
  refine State.memWf.afterWave ?_
  split
  · exact h.putCmd.updBlock.foldl fun _ _ hu => hu.land
  · exact h.putCmd.updBlock

theorem State.memWf.landHead {s : State} {c : Cmd} {y : Elem} {bs : List Byte} {rest : List Elem}
    (h : s.memWf) : (s.landHead c y bs rest).memWf := by
  unfold State.landHead
  dsimp only
  split
  · refine State.memWf.wake ?_
    refine State.memWf.post ?_
    split
    · exact h.landBytes.injectHead.putCmd.elseIf fun hp => hp.land
    · exact h.landBytes.injectHead.putCmd
  · refine State.memWf.endCmd ?_
    split
    · exact h.landBytes.injectHead.putCmd.elseIf fun hp => hp.land
    · exact h.landBytes.injectHead.putCmd

theorem State.memWf.engineGo {s : State} {c : Cmd} {fee : Nat} {k : State → State} (h : s.memWf)
    (hk : ∀ u, u.memWf → (k u).memWf) : (s.engineGo c fee k).memWf :=
  h.post.ite (hk _ h.pay)

theorem State.memWf.execEngineLand {cmd : Nat} {s : State} (h : s.memWf) : KeepsWf (execEngineLand cmd s) := by
  unfold Machine.execEngineLand
  split
  · split
    · split
      · exact .next (h.engineGo fun _ hu => hu.landHead)
      · exact .next h
    · exact .next (h.post.ite h.endCmd)
  · exact .next h

theorem State.memWf.execEngineSourceRead {cmd : Nat} {s : State} (h : s.memWf) : KeepsWf (execEngineSourceRead cmd s) := by
  unfold Machine.execEngineSourceRead
  split
  · split
    · split
      · exact .next h
      · exact .next (h.engineGo fun _ hu => hu.readSource)
    · exact .next h
  · exact .next h

theorem State.memWf.execTagwait {f : F} {any : Bool} {imm : BitVec 16} {s : State} (h : s.memWf) : KeepsWf (execTagwait f any imm s) :=
  h.word fun _ => .moved h.park

theorem State.memWf.execTagffr {f : F} {s : State} (h : s.memWf) : KeepsWf (execTagffr f s) := h.simple fun _ => h.setOpnd

theorem State.memWf.execTagclr {f : F} {imm : BitVec 16} {s : State} (h : s.memWf) : KeepsWf (execTagclr f imm s) :=
  h.simple fun _ => h.setB

end Machine
end Sys2Proof
end

section
/-! SUPPORT. The functions of Sys2Proof/Machine/Sync.lean keep the canonical form. -/

namespace Sys2Proof
open Machine
namespace Machine

theorem State.memWf.objGo {s : State} {dm : Bool} {ps : List Place} (h : s.memWf) : (s.objGo dm ps).memWf := h.pay.ite h.pay.setB

theorem State.memWf.objAll {s : State} {dm reads : Bool} {act : Mask} {as : List (Nat × W64)} {k : State → Res} (h : s.memWf)
    (hk : ∀ u, u.memWf → (k u).memWf) : (s.objAll dm reads act as k).memWf := by
  unfold State.objAll
  split
  · exact h.failAccess
  · dsimp only
    split
    · exact .stall h
    · split
      · exact .poison h
      · exact hk _ h.objGo

theorem State.memWf.objThen {s : State} {dm reads : Bool} {act : Mask} {ls : List Nat} {addr : Nat → W64} {k : State → Res} (h : s.memWf)
    (hk : ∀ u, u.memWf → (k u).memWf) : (s.objThen dm reads act ls addr k).memWf :=
  h.objAll fun _ hu => hk _ hu

theorem State.memWf.laneOps {f : State → Nat → LaneOp} {mk : Nat → WaitR} {ls : List Nat} {s : State} (h : s.memWf)
    (hf : ∀ u l, u.memWf → (f u l).memWf) : (laneOps f mk ls s).1.memWf := by
  induction ls generalizing s with
  | nil => exact h
  | cons l ls ih =>
    unfold Machine.laneOps
    split
    next e => exact ih ((hf s l h).ofDid e)
    · exact ih h
    · exact ih h

theorem State.memWf.endLanes {r : State × List WaitR × Option Nat} {act : Mask} {parks : Bool} {trap : Nat → Trap}
    (h : r.1.memWf) : (State.endLanes r act parks trap).memWf := by
  unfold Machine.State.endLanes
  split
  · exact .trap (h.foldl fun _ _ hu => hu.writeRes).wake
  · split
    · exact .moved h.park.wake
    · exact .done h.wake

theorem State.memWf.tryNow {s : State} {r : WaitR} (h : s.memWf) : (s.tryNow r).memWf := by
  unfold State.tryNow
  dsimp only
  split
  · exact .did h.tryWait
  · exact .wait

theorem State.memWf.barThen {s : State} {dm reads : Bool} {act : Mask} {a : Opnd} {k : State → Nat → W64 → Res} (h : s.memWf)
    (hk : ∀ u x y2, u.memWf → (k u x y2).memWf) : (s.barThen dm reads act a k).memWf := by
  unfold State.barThen
  dsimp only
  split
  · split
    · exact .stall h
    · exact h.waitsIn (hk _ _ _ h.setW)
  · exact h.objThen fun _ hu => h.waitsIn (hk _ _ _ hu.setW)

theorem State.memWf.execBarv {f : F} {dm : Bool} {scope : Scope} {s : State} (h : s.memWf) : KeepsWf (execBarv f dm scope s) := by
  unfold Machine.execBarv
  refine h.word fun act => ?_
  refine h.barThen fun u x y hu => ?_
  dsimp only
  split
  · exact .trap hu
  · split
    · exact .stall hu
    · exact .done hu.arrive.wake

theorem State.memWf.regate {s : State} {loc : Nat} (h : s.memWf) : (s.regate loc).memWf := h.foldl fun _ _ hu => hu.postOnce.ite hu

theorem State.memWf.initLine {s : State} {loc : Nat} {bs : List Byte} (h : s.memWf) : (s.initLine loc bs).memWf := h.setLocBytes.regate.wake

theorem State.memWf.execBarvInit {f : F} {dm : Bool} {scope : Scope} {s : State} (h : s.memWf) : KeepsWf (execBarvInit f dm scope s) := by
  unfold Machine.execBarvInit
  refine h.word fun act => ?_
  refine h.barThen fun u x y hu => ?_
  dsimp only
  split
  · exact .trap hu
  · exact .done hu.initLine

theorem State.memWf.waitArrival {s : State} {a : Arr} {dst : Opnd} {act : Mask} (h : s.memWf) : (s.waitArrival a dst act).memWf :=
  h.setW.park

theorem State.memWf.execBarw {f : F} {dm : Bool} {scope : Scope} {s : State} (h : s.memWf) : KeepsWf (execBarw f dm scope s) := by
  unfold Machine.execBarw
  refine h.word fun act => ?_
  refine h.barThen fun u x y hu => ?_
  dsimp only
  split
  · exact .moved hu.waitArrival
  · split
    · exact .trap hu
    · split
      · exact .stall hu
      · split
        · exact .moved hu.arrive.waitArrival.wake
        · exact .done hu.arrive

theorem State.memWf.execBarwWait {f : F} {dm : Bool} {scope : Scope} {s : State} (h : s.memWf) : KeepsWf (execBarwWait f dm scope s) := by
  unfold Machine.execBarwWait
  refine h.word fun act => ?_
  refine h.barThen fun u x y hu => ?_
  split
  · exact .moved hu.waitArrival
  · exact .trap hu

theorem State.memWf.postFlag {s : State} {loc x : Nat} (h : s.memWf) : (s.postFlag loc x).memWf := by
  unfold State.postFlag
  split
  · exact .did h.setLoc
  · exact .fail

theorem State.memWf.execFpost {f : F} {dm : Bool} {scope : Scope} {s : State} (h : s.memWf) : KeepsWf (execFpost f dm scope s) := by
  unfold Machine.execFpost
  refine h.word fun act => ?_
  refine h.objThen fun u hu => ?_
  split
  · exact .stall h
  · exact (hu.laneOps fun _ _ hv => hv.postFlag).endLanes

theorem State.memWf.execFpostInit {f : F} {dm : Bool} {scope : Scope} {s : State} (h : s.memWf) : KeepsWf (execFpostInit f dm scope s) := by
  unfold Machine.execFpostInit
  refine h.word fun act => ?_
  refine h.objThen fun u hu => ?_
  refine State.memWf.endLanes ?_
  refine hu.laneOps fun v l hv => ?_
  dsimp only
  split
  · exact .did hv.setLocBytes.regate
  · exact .fail

theorem State.memWf.execFwait {f : F} {dm : Bool} {scope : Scope} {s : State} (h : s.memWf) : KeepsWf (execFwait f dm scope s) := by
  unfold Machine.execFwait
  refine h.word fun act => ?_
  refine h.objThen fun u hu => ?_
  refine State.memWf.endLanes ?_
  refine hu.laneOps fun v l hv => ?_
  split
  · exact hv.tryNow
  · exact .fail

theorem State.memWf.lockThen {s : State} {dm reads : Bool} {act : Mask} {a : Opnd} {k : State → Nat → W64 → Res} (h : s.memWf)
    (hk : ∀ u x y2, u.memWf → (k u x y2).memWf) : (s.lockThen dm reads act a k).memWf :=
  h.objThen fun _ hu => h.waitsIn (hk _ _ _ hu)

theorem State.memWf.execOlacq {f : F} {dm : Bool} {scope : Scope} {s : State} (h : s.memWf) : KeepsWf (execOlacq f dm scope s) := by
  unfold Machine.execOlacq
  refine h.word fun act => ?_
  refine h.lockThen fun u x y hu => ?_
  dsimp only
  split
  · exact .trap hu
  · exact .moved hu.tryWait.park.wake

theorem State.memWf.execOlrel {f : F} {dm : Bool} {scope : Scope} {s : State} (h : s.memWf) : KeepsWf (execOlrel f dm scope s) := by
  unfold Machine.execOlrel
  refine h.word fun act => ?_
  refine h.lockThen fun u x y hu => ?_
  dsimp only
  split
  · exact .trap hu
  · split
    · exact .stall hu
    · exact .done hu.ungrant.lockRelease.wake

theorem State.memWf.execOlrelPass {f : F} {dm : Bool} {scope : Scope} {s : State} (h : s.memWf) : KeepsWf (execOlrelPass f dm scope s) := by
  unfold Machine.execOlrelPass
  refine h.word fun act => ?_
  refine h.lockThen fun u x y hu => ?_
  dsimp only
  split
  · exact .trap hu
  · split
    · exact .stall hu
    · split
      next t _ e =>
        have ht := hu.tryNow.ofDid e
        exact .done ht.wake
      · exact .moved hu.park
      · exact .done hu

theorem State.memWf.execOlrelInit {f : F} {dm : Bool} {scope : Scope} {free : Bool} {s : State}
    (h : s.memWf) : KeepsWf (execOlrelInit f dm scope free s) := by
  unfold Machine.execOlrelInit
  refine h.word fun act => ?_
  refine h.lockThen fun u x y hu => ?_
  dsimp only
  split
  · split
    · exact .trap hu
    · exact .done hu.initLine
  · split
    · exact .trap hu
    · exact .done hu.initLine

theorem State.memWf.sendGate {s : State} {word lane loc : Nat} {va : W64} {op : AOp} {dt : DT} {b c : W64} {dst : Opnd} {acq lock : Bool}
    (h : s.memWf) : (s.sendGate word lane loc va op dt b c dst acq lock).memWf :=
  h.fresh.beside.post

theorem State.memWf.execOlacqFree {f : F} {dm : Bool} {scope : Scope} {s : State} (h : s.memWf) : KeepsWf (execOlacqFree f dm scope s) := by
  unfold Machine.execOlacqFree
  refine h.word fun act => ?_
  refine h.lockThen fun u x y hu => ?_
  split
  · exact .trap hu
  · exact .moved hu.sendGate.park

theorem State.memWf.execOlrelFree {f : F} {dm : Bool} {scope : Scope} {s : State} (h : s.memWf) : KeepsWf (execOlrelFree f dm scope s) := by
  unfold Machine.execOlrelFree
  refine h.word fun act => ?_
  refine h.lockThen fun u x y hu => ?_
  split
  · exact .trap hu
  · split
    · exact .stall hu
    · exact .done hu.setW.sendGate

theorem State.memWf.queueOp {s : State} {release : Bool} {r : WaitR} (h : s.memWf) : (s.queueOp release r).memWf := by
  unfold State.queueOp
  split
  · exact .fail
  · dsimp only
    split
    · split
      · exact .fail
      · exact h.tryNow
    · split
      · exact .fail
      · exact h.tryNow

theorem State.memWf.queueThen {s : State} {dm : Bool} {act : Mask} {a n pay : Opnd} {release : Bool} {mk : Nat → WaitR}
    (h : s.memWf) : (s.queueThen dm act a n pay release mk).memWf := by
  unfold State.queueThen
  refine h.objThen fun u hu => ?_
  split
  · exact .trap hu
  · split
    · exact .stall h.heldBack
    · refine hu.objThen fun v hv => ?_
      split
      · exact .stall h
      · exact (hv.laneOps fun _ _ hw => hw.queueOp).endLanes

theorem State.memWf.execQpush {f : F} {dm : Bool} {scope : Scope} {s : State} (h : s.memWf) : KeepsWf (execQpush f dm scope s) :=
  h.word fun _ => h.queueThen

theorem State.memWf.execQpop {f : F} {dm : Bool} {scope : Scope} {s : State} (h : s.memWf) : KeepsWf (execQpop f dm scope s) :=
  h.word fun _ => h.queueThen

theorem State.memWf.initSlots {s : State} {home loc n : Nat} (h : s.memWf) : (s.initSlots home loc n).memWf :=
  h.foldl fun _ _ hu => hu.setLoc

theorem State.memWf.initQueue {s : State} {loc slog nlog : Nat} {base : W64} (h : s.memWf) : (s.initQueue loc slog nlog base).memWf := by
  unfold State.initQueue
  split
  · exact .fail
  · exact .did h.setLocBytes.initSlots.regate

theorem State.memWf.execQpushInit {f : F} {dm : Bool} {scope : Scope} {s : State} (h : s.memWf) : KeepsWf (execQpushInit f dm scope s) := by
  unfold Machine.execQpushInit
  refine h.word fun act => ?_
  refine h.objThen fun u hu => ?_
  split
  · exact .trap hu
  · exact hu.objAll fun _ hv => (hv.laneOps fun _ _ hw => hw.initQueue).endLanes

theorem State.memWf.lineThen {s : State} {dm : Bool} {a : Opnd} {act : Mask} {k : Nat → W64 → BitVec 4 → Res} (h : s.memWf)
    (hk : ∀ loc va kind, (k loc va kind).memWf) : (s.lineThen dm a act k).memWf := by
  unfold State.lineThen
  dsimp only
  split
  · exact hk _ _ _
  · exact h.failAccess

theorem State.memWf.execWreg {f : F} {dm hold : Bool} {sub : BitVec 3} {s : State} (h : s.memWf) : KeepsWf (execWreg f dm hold sub s) :=
  h.word fun _ => h.lineThen fun _ _ _ => .done h.addEnt

theorem State.memWf.execWunreg {f : F} {dm hold : Bool} {sub : BitVec 3} {s : State} (h : s.memWf) : KeepsWf (execWunreg f dm hold sub s) :=
    by
  unfold Machine.execWunreg
  refine h.word fun act => ?_
  dsimp only
  split
  · exact .done h.dropEnts
  · exact h.lineThen fun _ _ _ => .done h.dropEnts

theorem State.memWf.execYield {f : F} {s : State} (h : s.memWf) : KeepsWf (execYield f s) := h.word fun _ => .done h.setW

theorem State.memWf.execFence {f : F} {scope : Scope} {s : State} (h : s.memWf) : KeepsWf (execFence f scope s) := by
  unfold Machine.execFence
  refine h.word fun act => ?_
  split
  · exact .stall h
  · exact .done h

theorem State.memWf.execSweep {f : F} {scope : Scope} {s : State} (h : s.memWf) : KeepsWf (execSweep f scope s) := by
  unfold Machine.execSweep
  refine h.word fun act => ?_
  dsimp only
  split
  · split
    · exact .done h.beside
    · exact .stall h
  · exact .stall h.fresh.beside.post

theorem State.memWf.execSweepProbeReturn {id : Nat} {s : State} (h : s.memWf) : KeepsWf (execSweepProbeReturn id s) := by
  unfold Machine.execSweepProbeReturn
  split
  · split
    · exact .next h.beside
    · exact .next h.post
  · exact .next h

theorem State.memWf.sendRound {s before : State} {f : F} {op : AOp} {dt : DT} {acq : Bool} {bar : Nat} {bva : Option Nat} {l : Nat}
    {va : W64} {p : Place} (h : s.memWf) : (s.sendRound before f op dt acq bar bva l va p).memWf :=
  h.fresh.beside.post.ite h.fresh.beside.post.setW

theorem State.memWf.execAord {f : F} {op : AOp} {dt : DT} {dm acq rel : Bool} {scope : Scope} {s : State}
    (h : s.memWf) : KeepsWf (execAord f op dt dm acq rel scope s) := by
  unfold Machine.execAord
  refine h.word fun act => ?_
  refine h.accessAll fun u x hu => ?_
  refine hu.objThen fun v hv => ?_
  dsimp only
  split
  · exact .trap h
  · split
    · exact .stall h
    · split
      · exact .stall h.beside
      · exact .done (hv.fresh.foldl fun _ _ hw => hw.sendRound)

theorem State.memWf.sendFree {s before : State} {f : F} {op : AOp} {dt : DT} {acq : Bool} {l : Nat} {va : W64} {p : Place}
    (h : s.memWf) : (s.sendFree before f op dt acq l va p).memWf :=
  h.sendGate.ite h.sendGate.setW

theorem State.memWf.execAfree {f : F} {op : AOp} {dt : DT} {dm acq rel : Bool} {scope : Scope} {s : State}
    (h : s.memWf) : KeepsWf (execAfree f op dt dm acq rel scope s) := by
  unfold Machine.execAfree
  refine h.word fun act => ?_
  refine h.accessAll fun u x hu => ?_
  split
  · exact .stall h
  · exact .done (hu.fresh.foldl fun _ _ hv => hv.sendFree)

end Machine
end Sys2Proof
end

section
/-! SUPPORT. The functions of Sys2Proof/Machine/Packets.lean keep the canonical form. -/

namespace Sys2Proof
open Machine
namespace Machine

theorem State.memWf.placeAll {s : State} (h : s.memWf) : s.placeAll.memWf := h.foldl fun _ _ hu => hu.postOnce

theorem State.memWf.readUnits {s : State} {va : W64} {n u lane : Nat} {whole : Bool} {k : State → List Byte → Res} (h : s.memWf)
    (hk : ∀ u x, u.memWf → (k u x).memWf) : (s.readUnits va n u lane whole k).memWf := by
  unfold State.readUnits
  dsimp only
  split
  · split
    · exact .fault h
    · exact h.failAccess
  · split
    · exact .stall h
    · split
      · exact .stall h
      · split
        · exact .poison h
        · exact hk _ _ h.countWindow.accessed

end Machine
end Sys2Proof
end

section
/-! SUPPORT. The functions of Sys2Proof/Machine/Views.lean keep the canonical form. -/

namespace Sys2Proof
open Machine
namespace Machine

theorem State.memWf.hangFork {s : State} {g : Grp} (h : s.memWf) : (s.hangFork g).memWf := h.beside.fresh.beside.setW

theorem State.memWf.hangDead {s : State} {va : W64} {code : Nat} {pool : Bool} (h : s.memWf) : (s.hangDead va code pool).memWf := h.hangFork

theorem State.memWf.startFork {s before : State} {d : Desc} {va : W64} (h : s.memWf)
    (hbefore : before.memWf) : (s.startFork before d va).memWf := by
  unfold State.startFork
  split
  · split
    · exact .done h.hangDead
    · split
      · exact .done h.hangDead
      · exact .done h.beside.hangFork.placeAll
  · split
    · exact .stall (hbefore.beside.ite hbefore.makeRoom)
    · exact .done h.beside.hangFork.placeAll

theorem State.memWf.execFork {f : F} {s : State} (h : s.memWf) : KeepsWf (execFork f s) := by
  unfold Machine.execFork
  refine h.word fun act => ?_
  dsimp only
  split
  · exact .fault h
  · exact .stall h
  · split
    · exact .trap h
    · split
      · exact .trap h
      · refine h.readUnits fun u x hu => ?_
        split
        · exact .stall h
        · split
          · exact .done hu.hangDead
          · split
            · exact .fault h
            · split
              · exact .done hu.hangDead
              · split
                · exact .trap h
                · exact hu.startFork h
  · split
    · exact .trap h
    · split
      · exact .trap h
      · refine h.readUnits fun u x hu => ?_
        split
        · exact .stall h
        · split
          · exact .done hu.hangDead
          · split
            · exact .fault h
            · split
              · exact .done hu.hangDead
              · split
                · exact .trap h
                · exact hu.startFork h
  · split
    · exact .trap h
    · split
      · exact .trap h
      · refine h.readUnits fun u x hu => ?_
        split
        · exact .stall h
        · split
          · exact .done hu.hangDead
          · split
            · exact .fault h
            · split
              · exact .done hu.hangDead
              · split
                · exact .trap h
                · exact hu.startFork h

theorem State.memWf.foldFork {s : State} {id : Nat} {g : Grp} (h : s.memWf) : (s.foldFork id g).1.memWf := h.freePool.setW.beside

theorem State.memWf.afterJoin {s : State} (h : s.memWf) : s.afterJoin.memWf := h.postOnce.ite h

theorem State.memWf.joinFork {s : State} {f : F} {id : Nat} {g : Grp} (h : s.memWf) : (s.joinFork f id g).1.memWf := by
  unfold State.joinFork
  split
  · exact h.beside.setW.afterJoin.setOpnd
  · exact h.foldFork.setW.afterJoin.setOpnd

theorem State.memWf.execJoin {f : F} {s : State} (h : s.memWf) : KeepsWf (execJoin f s) := by
  unfold Machine.execJoin
  refine h.word fun act => ?_
  split
  · exact .done h
  · split
    · exact .stall h
    · dsimp only
      split
      · exact .trap h.joinFork
      · exact .done h.joinFork

theorem State.memWf.execVstat {f : F} {sel : VSel} {s : State} (h : s.memWf) : KeepsWf (execVstat f sel s) := h.simple fun _ => h.setOpnd

theorem State.memWf.rejectRecord {s : State} {g : Grp} (h : s.memWf) : (s.rejectRecord g).memWf := h.writeRecord.ite h

theorem State.memWf.execLaunch {f : F} {s : State} (h : s.memWf) : KeepsWf (execLaunch f s) := by
  unfold Machine.execLaunch
  refine h.word fun act => ?_
  refine h.readUnits fun u x hu => ?_
  dsimp only
  split
  · exact .stall h
  · split
    · exact .done hu.setB.rejectRecord.setOpnd
    · split
      · exact .trap h
      · exact .done (hu.setB.fresh.beside.setW.setOpnd.thenElse (fun hp => hp.post) fun hp => hp.rejectRecord)

theorem State.memWf.cancelNamed {s : State} {n : Named} (h : s.memWf) : (s.cancelNamed n).1.memWf := by
  unfold State.cancelNamed
  split
  · split
    · exact h.cancelGrp
    · exact h
  · split
    · exact h.cancelOne
    · split
      · exact h.cancelGrp
      · exact h.cancelLevel

theorem State.memWf.execCancel {f : F} {s : State} (h : s.memWf) : KeepsWf (execCancel f s) := by
  unfold Machine.execCancel
  refine h.word fun act => ?_
  dsimp only
  split
  · exact .trap h
  · split
    · exact .trap h
    · exact .done h.setB.cancelNamed.setOpnd

theorem State.memWf.readCount {s : State} {k id : Nat} (h : s.memWf) : (s.readCount k id).1.memWf := by
  unfold State.readCount
  split
  · split
    · exact h
    · split
      · exact h
      · exact h.freePool.foldLaunch.beside.setW
  · exact h

theorem State.memWf.putCount {s : State} {d : Opnd} {w : W64} (h : s.memWf) : (s.putCount d w).memWf := h.setOpnd

theorem State.memWf.execLcount {f : F} {nowait : Bool} {s : State} (h : s.memWf) : KeepsWf (execLcount f nowait s) := by
  unfold Machine.execLcount
  refine h.word fun act => ?_
  dsimp only
  split
  · exact .trap h
  · split
    · exact .done h.putCount
    · exact .trap h
  · split
    · split
      · exact .stall h
      · split
        · exact .trap h.readCount.putCount
        · exact .done h.readCount.putCount
    · exact .moved h.park

theorem State.memWf.moveWave {s : State} {p : Nat × Nat × Nat} (h : s.memWf) : (s.moveWave p).memWf := h.beside

theorem State.memWf.migrateTo {s : State} {pa : Nat} (h : s.memWf) : (s.migrateTo pa).memWf := by
  unfold State.migrateTo
  dsimp only
  split
  · exact .done h.setW
  · split
    · exact .done h.moveWave
    · exact .stall h

theorem State.memWf.execMigrate {f : F} {s : State} (h : s.memWf) : KeepsWf (execMigrate f s) := by
  unfold Machine.execMigrate
  refine h.word fun act => ?_
  dsimp only
  split
  · exact .trap h
  · split
    · exact .trap h
    · split
      · exact .stall h
      · split
        · exact .fault h
        · exact .trap h
        · split
          · exact .trap h
          · split
            · exact .stall h
            · exact h.migrateTo

end Machine
end Sys2Proof
end

section
/-! SUPPORT. The functions of Sys2Proof/Machine/System.lean keep the canonical form. -/

namespace Sys2Proof
open Machine
namespace Machine

theorem State.memWf.execTrap {f : F} {imm : BitVec 16} {s : State} (h : s.memWf) : KeepsWf (execTrap f imm s) := h.word fun _ => .trap h

theorem State.memWf.execBrk {f : F} {imm : BitVec 16} {s : State} (h : s.memWf) : KeepsWf (execBrk f imm s) := h.word fun _ => .trap h

theorem State.memWf.execTret {f : F} {s : State} (h : s.memWf) : KeepsWf (execTret f s) := by
  unfold Machine.execTret
  refine h.word fun act => ?_
  split
  · exact .trap h
  · exact .gone h.returnTrap

theorem State.memWf.execRsr {f : F} {s : State} (h : s.memWf) : KeepsWf (execRsr f s) := h.simple fun _ => h.eachLane

theorem State.memWf.writeRng {s : State} {act : Mask} {a : Opnd} (h : s.memWf) : (s.writeRng act a).memWf := h.setW

theorem State.memWf.execWsr {f : F} {s : State} (h : s.memWf) : KeepsWf (execWsr f s) := by
  unfold Machine.execWsr
  refine h.word fun act => ?_
  dsimp only
  split
  · exact .done h.writeRng
  · split
    · exact .trap h
    · exact .done h.setW
  · exact .done h.setW
  · exact .done h

theorem State.memWf.openRegion {s : State} (h : s.memWf) : s.openRegion.memWf := h.setW

theorem State.memWf.execIenter {f : F} {s : State} (h : s.memWf) : KeepsWf (execIenter f s) := h.word fun _ => .done h.openRegion

end Machine
end Sys2Proof
end

section
/-! SUPPORT. The functions of Sys2Proof/Machine/Matrix.lean keep the canonical form. -/

namespace Sys2Proof
open Machine
namespace Machine

theorem State.memWf.setMrow {s : State} {x : W32} (h : s.memWf) : (s.setMrow x).memWf := h.setW

theorem State.memWf.checkRow {s : State} {r : MRow} {n : Nat} {write : Bool} (h : s.memWf) : (s.checkRow r n write).memWf := by
  unfold State.checkRow
  split
  · exact .stop (.trap h)
  · split
    · refine .stop ?_
      split
      · exact .trap h
      · exact .fault h
      · exact .stall h
    · dsimp only
      split
      · exact .stop (.stall h)
      · split
        · exact .stop (.poison h)
        · split
          · exact .stop (.done h)
          · split
            next e => exact .ok ((h.raceThen (k := .done) fun _ hu => .done hu).ofDone e)
            · exact .stop (h.raceThen fun _ hu => .done hu)

theorem Res.memWf.withMrow {x : W32} {r : Res} (h : r.memWf) : (r.withMrow x).memWf := by
  cases h with
  | trap ht => exact .trap ht.setMrow
  | fault ht => exact .fault ht.setMrow
  | done ht => exact .done ht
  | moved ht => exact .moved ht
  | stall ht => exact .stall ht
  | close => exact .close
  | poison ht => exact .poison ht
  | gone ht => exact .gone ht

theorem State.memWf.checkRows {s : State} {qs : List Nat} {n total : Nat} {write : Bool} {rs : List MRow} {t : State} (h : t.memWf) :
    (s.checkRows qs n total write rs t).memWf := by
  induction rs generalizing t with
  | nil => exact .ok h
  | cons r rs ih =>
    have hr : (t.checkRow r n write).memWf := h.checkRow
    unfold State.checkRows
    split
    · exact ih h
    · split
      next e => exact ih (hr.ofOk e)
      next e => exact .stop (hr.ofStop e).withMrow

theorem State.memWf.countRows {s : State} {n : Nat} {rs : List MRow} (h : s.memWf) : (s.countRows n rs).memWf :=
  h.foldl fun _ _ hu => hu.foldl fun _ _ hv => hv.countWindow

theorem State.memWf.sideThen {s : State} {qs : List (Nat × Nat)} {k : Res} (h : s.memWf) (hk : k.memWf) : (s.sideThen qs k).memWf := by
  unfold State.sideThen
  split
  · split
    · exact .trap h
    · exact hk
  · exact .done h

theorem State.memWf.execMma {f : F} {fmt : Fmt} {acf : AccF} {shape : Shape} {scA scB : Bool} {s : State}
    (h : s.memWf) : KeepsWf (execMma f fmt acf shape scA scB s) := by
  unfold Machine.execMma
  refine h.word fun act => ?_
  dsimp only
  split
  · exact .done h
  · split
    next r e =>
      exact h.checkRows.ofStop e
    next t e =>
      have ht := h.checkRows.ofOk e
      exact .done (ht.countRows.setMrow.foldl fun _ _ hu => hu.setW.orFlags)

theorem State.memWf.execMz {f : F} {s : State} (h : s.memWf) : KeepsWf (execMz f s) := h.word fun _ => .done h.setW

theorem State.memWf.execMld {f : F} {rows : BitVec 6} {rsz : Rsz} {sc : Bool} {s : State}
    (h : s.memWf) : KeepsWf (execMld f rows rsz sc s) := by
  unfold Machine.execMld
  refine h.word fun act => ?_
  dsimp only
  split
  · exact .done h
  · split
    next r e =>
      exact h.checkRows.ofStop e
    next t e =>
      have ht := h.checkRows.ofOk e
      exact .done (ht.countRows.setMrow.foldl fun _ _ hu => hu.setW)

theorem State.memWf.storeRow {s : State} {r : MRow} {bs : List Byte} {t : State} (h : s.memWf) (e : s.storeRow r bs = some t) : t.memWf :=
    by
  unfold State.storeRow at e
  split at e
  · cases e
  next v ev =>
    have hv := h.logStore ev
    cases e
    exact hv.foldl fun _ _ hu => hu.writePlace

theorem State.memWf.storeRows {s : State} {k n : Nat} {rs : List MRow} {u v : State} (h : u.memWf)
    (e : s.storeRows k n rs u = some v) : v.memWf := by
  induction rs generalizing u with
  | nil =>
    cases e
    exact h
  | cons r rs ih =>
    unfold State.storeRows at e
    split at e
    next ev => exact ih (h.storeRow ev) e
    · cases e

theorem State.memWf.execMst {f : F} {rows : BitVec 6} {rsz : Rsz} {sc : Bool} {s : State}
    (h : s.memWf) : KeepsWf (execMst f rows rsz sc s) := by
  unfold Machine.execMst
  refine h.word fun act => ?_
  dsimp only
  split
  · exact .done h
  · split
    next r e =>
      exact h.checkRows.ofStop e
    next t e =>
      have ht := h.checkRows.ofOk e
      split
      next v ev =>
        have hv := ht.setMrow.storeRows ev
        exact .done hv
      · exact .stall h.beside

theorem State.memWf.execMtov {f : F} {part : BitVec 2} {s : State} (h : s.memWf) : KeepsWf (execMtov f part s) :=
  h.word fun _ => .done (h.ite h.setW)

theorem State.memWf.execVtom {f : F} {part : BitVec 2} {s : State} (h : s.memWf) : KeepsWf (execVtom f part s) :=
  h.word fun _ => .done h.setW

theorem State.memWf.execMsync {f : F} {s : State} (h : s.memWf) : KeepsWf (execMsync f s) := h.word fun _ => .done h

theorem State.memWf.aheadRows {n : Nat} {rs : List MRow} {s : State} (h : s.memWf) :
    (State.aheadRows n rs s).1.memWf ∧ ∀ r ∈ (State.aheadRows n rs s).2.2, r.memWf := by
  induction rs generalizing s with
  | nil => exact ⟨h, fun _ hr => by cases hr⟩
  | cons r rs ih =>
    have hr : (s.checkRow r n false).memWf := h.checkRow
    unfold State.aheadRows
    split
    next e => exact ih (hr.ofOk e)
    next e =>
      split
      · refine ⟨h, fun x hx => ?_⟩
        cases hx
        exact hr.ofStop e
      · exact ⟨h, fun _ hx => by cases hx⟩
    · exact ⟨h, fun _ hx => by cases hx⟩
    next e =>
      refine ⟨h, fun x hx => ?_⟩
      cases hx
      exact hr.ofStop e

theorem State.memWf.runAhead {s : State} {x : MatArg} {d : Opnd} {fmt : Fmt} {acf : AccF} {sh : Shape} {scA scB : Bool} (h : s.memWf) :
    (s.runAhead x d fmt acf sh scA scB).1.memWf ∧ ∀ r ∈ (s.runAhead x d fmt acf sh scA scB).2, r.memWf := by
  unfold State.runAhead
  extract_lets n rows t hold s₁ c
  have hc : c.1.memWf ∧ ∀ r ∈ c.2.2, r.memWf := by
    unfold c
    split
    · exact ⟨h.setW, fun _ hr => by cases hr⟩
    · exact h.setW.aheadRows
  generalize c = c at hc ⊢
  split
  · refine ⟨h.setW, fun x hx => ?_⟩
    cases hx
    exact hc.2 _ rfl
  · exact ⟨State.memWf.setW hc.1, fun _ hr => by cases hr⟩
  · exact ⟨(State.memWf.countRows hc.1).setW, fun _ hr => by cases hr⟩

theorem State.memWf.runAheads {d : Opnd} {fmt : Fmt} {acf : AccF} {sh : Shape} {scA scB : Bool} {xs : List MatArg} {s : State}
    (h : s.memWf) : (State.runAheads d fmt acf sh scA scB xs s).memWf := by
  induction xs generalizing s with
  | nil => exact .done h
  | cons x xs ih =>
    have hx := h.runAhead (x := x) (d := d) (fmt := fmt) (acf := acf) (sh := sh) (scA := scA) (scB := scB)
    unfold State.runAheads
    split
    next e => exact ih (hx.1.ofFst e)
    next e =>
      rw [e] at hx
      exact hx.2 _ rfl

theorem State.memWf.execMmas {f : F} {fmt : Fmt} {acf : AccF} {shape : Shape} {scA scB : Bool} {s : State}
    (h : s.memWf) : KeepsWf (execMmas f fmt acf shape scA scB s) :=
  h.word fun _ => h.sideThen (h.waitsIn h.runAheads)

theorem State.memWf.recheck {s t : State} {qs : List (Nat × Nat)} (h : s.memWf) (ht : t.memWf) : (s.recheck qs t).memWf := by
  induction qs generalizing s t with
  | nil => exact .ok ht
  | cons q qs ih =>
    unfold State.recheck
    dsimp only
    split
    next e => exact ih h.setMrow (ht.checkRows.ofOk e)
    · exact ht.checkRows

theorem State.memWf.commitSide {s before : State} {q l : Nat} {on : Bool} (h : s.memWf) : (s.commitSide before q l on).memWf :=
  h.setW.ite (h.countRows.setW.orFlags.setW.ite h.setW.orFlags.setW)

theorem State.memWf.execShcom {f : F} {s : State} (h : s.memWf) : KeepsWf (execShcom f s) := by
  unfold Machine.execShcom
  refine h.word fun act => ?_
  refine h.sideThen ?_
  split
  · exact .trap h
  · split
    next r e =>
      exact (h.recheck h).ofStop e
    next t e =>
      have ht := (h.recheck h).ofOk e
      exact .done (ht.foldl fun _ _ hu => hu.commitSide).setMrow

theorem State.memWf.execShdis {f : F} {s : State} (h : s.memWf) : KeepsWf (execShdis f s) := h.word fun _ => h.sideThen (.done h.setW)

end Machine
end Sys2Proof
end

section
/-! SUPPORT. The functions of Sys2Proof/Machine/Dist.lean keep the canonical form. -/

namespace Sys2Proof
open Machine
namespace Machine

theorem State.memWf.dLanes {s : State} {act : Mask} {d : Opnd} {f : Nat → BitVec 512 × BitVec 16 × Fl}
    (h : s.memWf) : (s.dLanes act d f).memWf :=
  h.foldl fun _ _ hu => hu.setW.orFlags

theorem State.memWf.twoOp {i : Instr} {f : F} {op : PV → PV → PV × Fl} {s : State} (h : s.memWf) : KeepsWf (twoOp i f op s) :=
  h.simple fun _ => h.dLanes

theorem State.memWf.execDadd {f : F} {s : State} (h : s.memWf) : KeepsWf (execDadd f s) := h.twoOp

theorem State.memWf.execDsub {f : F} {s : State} (h : s.memWf) : KeepsWf (execDsub f s) := h.twoOp

theorem State.memWf.execDmul {f : F} {s : State} (h : s.memWf) : KeepsWf (execDmul f s) := h.twoOp

theorem State.memWf.execDdiv {f : F} {s : State} (h : s.memWf) : KeepsWf (execDdiv f s) := h.twoOp

theorem State.memWf.execDmin {f : F} {s : State} (h : s.memWf) : KeepsWf (execDmin f s) := h.twoOp

theorem State.memWf.execDmax {f : F} {s : State} (h : s.memWf) : KeepsWf (execDmax f s) := h.twoOp

theorem State.memWf.execDsetPt {f : F} {s : State} (h : s.memWf) : KeepsWf (execDsetPt f s) := h.simple fun _ => h.dLanes

theorem State.memWf.execDsetU {f : F} {s : State} (h : s.memWf) : KeepsWf (execDsetU f s) := h.simple fun _ => h.dLanes

theorem State.memWf.distAccess {s : State} {act : Mask} {sp : Sp} {a : Opnd} {write : Bool} {k : State → List (Nat × W64 × Place) → Res}
    (h : s.memWf) (hk : ∀ u x, u.memWf → (k u x).memWf) : (s.distAccess act sp a write k).memWf := by
  unfold State.distAccess
  dsimp only
  split
  · exact .trap h
  · split
    · split
      · exact .trap h
      · exact .fault h
      · exact .stall h
    · split
      · split
        · exact .close
        · split
          · exact .stall h
          · split
            · exact .stall h
            · exact h.raceThen fun _ hu => hk _ _ hu.accessed
      · split
        · exact .close
        · split
          · exact .stall h
          · split
            · exact .stall h
            · split
              · exact .poison h
              · exact h.raceThen fun _ hu => hk _ _ hu.accessed

theorem State.memWf.execDld {f : F} {sc : Bool} {s : State} (h : s.memWf) : KeepsWf (execDld f sc s) :=
  h.word fun _ => h.distAccess fun _ _ hu => .done hu.countWindow.dLanes

theorem State.memWf.execDst {f : F} {sc : Bool} {s : State} (h : s.memWf) : KeepsWf (execDst f sc s) := by
  unfold Machine.execDst
  refine h.word fun act => ?_
  refine h.distAccess fun u x hu => ?_
  split
  next t e =>
    have ht := hu.storeAll e
    exact .done ht
  · exact .stall h.beside

theorem State.memWf.execDaff {f : F} {s : State} (h : s.memWf) : KeepsWf (execDaff f s) := h.simple fun _ => h.dLanes

theorem State.memWf.execDmap {f : F} {fn : DFn} {s : State} (h : s.memWf) : KeepsWf (execDmap f fn s) := h.simple fun _ => h.dLanes

theorem State.memWf.execDmix {f : F} {s : State} (h : s.memWf) : KeepsWf (execDmix f s) := h.simple fun _ => h.dLanes

theorem State.memWf.execDtagNew {f : F} {s : State} (h : s.memWf) : KeepsWf (execDtagNew f s) := by
  unfold Machine.execDtagNew
  refine h.word fun act => ?_
  dsimp only
  split
  · exact .trap h
  · exact .done h.dLanes.setW

theorem State.memWf.execDtagSet {f : F} {s : State} (h : s.memWf) : KeepsWf (execDtagSet f s) := h.simple fun _ => h.dLanes

theorem State.memWf.execDtagGet {f : F} {s : State} (h : s.memWf) : KeepsWf (execDtagGet f s) := h.simple fun _ => h.eachLane

theorem State.memWf.execDmom {f : F} {sel : MSel} {s : State} (h : s.memWf) : KeepsWf (execDmom f sel s) := h.simple fun _ => h.perLane

theorem State.memWf.execDqnt {f : F} {lvl : QLvl} {s : State} (h : s.memWf) : KeepsWf (execDqnt f lvl s) := h.simple fun _ => h.perLane

theorem State.memWf.execDsamp {f : F} {s : State} (h : s.memWf) : KeepsWf (execDsamp f s) := h.simple fun _ => h.eachLane

end Machine
end Sys2Proof
end

section
/-! SUPPORT. The functions of Sys2Proof/Machine/ExpertWords.lean keep the canonical form. -/

namespace Sys2Proof
open Machine
namespace Machine

theorem State.memWf.expertThen {s : State} {act : Mask} {k : Res} (h : s.memWf) (hk : k.memWf) : (s.expertThen act k).memWf := by
  unfold State.expertThen
  split
  · exact .trap h
  · exact hk

theorem State.memWf.routeLane {s : State} {d : Opnd} {die ver l y seq : Nat} (h : s.memWf) : (s.routeLane d die ver l y seq).memWf :=
  h.setOpnd.setW.addRef.beside

theorem State.memWf.execXroute {f : F} {s : State} (h : s.memWf) : KeepsWf (execXroute f s) := by
  unfold Machine.execXroute
  refine h.word fun act => ?_
  refine h.expertThen ?_
  dsimp only
  split
  · exact .trap h
  · exact .done (h.foldl fun _ _ hu => hu.routeLane)

theorem State.memWf.execXrel {f : F} {s : State} (h : s.memWf) : KeepsWf (execXrel f s) := by
  unfold Machine.execXrel
  refine h.word fun act => ?_
  refine h.expertThen ?_
  dsimp only
  split
  · exact .trap h
  · exact .done (h.foldl fun _ _ hu => hu.setW.addRef).retireVersions

theorem State.memWf.execXcnt {f : F} {s : State} (h : s.memWf) : KeepsWf (execXcnt f s) := by
  unfold Machine.execXcnt
  refine h.word fun act => ?_
  refine h.expertThen ?_
  split
  · exact .trap h
  · exact .done h.eachLane

theorem State.memWf.execXver {f : F} {s : State} (h : s.memWf) : KeepsWf (execXver f s) := h.word fun _ => h.expertThen (.done h.oneValue)

end Machine
end Sys2Proof
end

section
/-! SUPPORT. The functions of Sys2Proof/Machine/Place.lean keep the canonical form. -/

namespace Sys2Proof
open Machine
namespace Machine

theorem State.memWf.bringIn {s : State} {g : Grp} {b : Block} {die core : Nat} {slots : List Nat} {image : Nat → SMap W32}
    (h : s.memWf) : (s.bringIn g b die core slots image).memWf :=
  (h.setBlock.foldl fun _ _ hu => hu.setWave).thenIf fun hp => hp.setCtx

theorem State.memWf.setCore {s : State} {die core : Nat} {c : Core} (h : s.memWf) : (s.setCore die core c).memWf := h.beside

theorem State.memWf.setSplit {s : State} {die core split : Nat} (h : s.memWf) : (s.setSplit die core split).memWf := h.setCore.ite h

theorem State.memWf.createMember {s t : State} {id mem die : Nat} (h : s.memWf) (e : s.createMember id mem die = some t) : t.memWf := by
  unfold State.createMember at e
  split at e
  · cases e
  · split at e
    · cases e
    · extract_lets s₁ pred dead handle s₂ b at e
      have h₂ : s₂.memWf := State.memWf.beside (s := s₁) h.updGrp
      split at e
      · cases e
        exact h₂.setBlock.post
      · cases e
        exact h₂.setSplit.bringIn

theorem State.memWf.replaceBlock {s : State} {blk die : Nat} {t : State} (h : s.memWf) (e : s.replaceBlock blk die = some t) : t.memWf := by
  unfold State.replaceBlock at e
  dsimp only at e
  split at e
  · cases e
  · split at e
    · cases e
    · cases e
      exact h.setSplit.bringIn

theorem State.memWf.placeCand {s t : State} {die : Nat} {c : Cand} (h : s.memWf) (e : s.placeCand die c = some t) : t.memWf := by
  unfold State.placeCand at e
  split at e
  · split at e
    · obtain ⟨_, _, rfl⟩ := Option.map_eq_some_iff.mp e
      exact h.postOnce
    · exact h.replaceBlock e
  · exact h.createMember e

theorem State.memWf.placeFirst {s : State} {die : Nat} {cs : List Cand} (h : s.memWf) : (s.placeFirst die cs).memWf := by
  induction cs with
  | nil => exact h
  | cons c cs ih =>
    unfold State.placeFirst
    split
    next e => exact (h.placeCand e).ite (h.placeCand e).postOnce
    · exact ih

theorem State.memWf.execBlockPlace {die : Nat} {s : State} (h : s.memWf) : KeepsWf (execBlockPlace die s) := .next h.placeFirst

theorem State.memWf.execSplitChange {die core : Nat} {s : State} (h : s.memWf) : KeepsWf (execSplitChange die core s) := by
  unfold Machine.execSplitChange
  split
  · exact .next h.setSplit.postOnce
  · exact .next h

theorem State.memWf.driveCopy {s : State} {blk n : Nat} (h : s.memWf) : (s.driveCopy blk n).memWf := by
  induction n generalizing s with
  | zero => exact h
  | succ n ih =>
    unfold State.driveCopy
    split
    · exact h
    · extract_lets o
      have ho : KeepsWf o := by
        unfold o
        split
        · exact h.execEngineLand
        · exact h.execEngineSourceRead
      generalize o = o at ho ⊢
      cases ho with
      | next ht => exact ih ht
      | fault => exact h
      | refused => exact h

theorem State.memWf.copyBody {s : State} {va : W64} (h : s.memWf) : (s.copyBody va).memWf := by
  unfold State.copyBody
  extract_lets run
  have hr : (run s).memWf := by
    refine h.accessAll fun t ps ht => ?_
    split
    · dsimp only
      split
      · exact .trap ht.countWindow
      · exact ht.countWindow.copyFrom
    · exact .done ht
  generalize run s = r at hr ⊢
  cases hr with
  | done ht =>
    dsimp only
    split
    · exact .did ht.addCharge.driveCopy
    · exact .short
  | fault _ => exact .missing
  | poison ht => exact .poisoned ht
  | stall _ => exact .later
  | trap ht => exact .failed ht
  | moved ht => exact .failed ht
  | gone ht => exact .failed ht
  | close => exact .failed h

theorem State.memWf.joinCopy {s : State} {id : Nat} {g : Grp} {die : Nat} {va : W64} (h : s.memWf) : (s.joinCopy id g die va).memWf := by
  unfold State.joinCopy
  split
  · exact h
  · dsimp only
    split
    · exact h.postOnce
    · exact h.beside.post

theorem State.memWf.runCopy {s : State} {nr : Option Nat} {id : Nat} {g : Grp} (h : s.memWf) : (s.runCopy nr id g).memWf := by
  unfold State.runCopy
  dsimp only
  split
  next t e =>
    have ht := h.beside.bringIn.updBlock.load.beside.copyBody.ofDid e
    exact ht.stow.updWave.updGrp.afterWave.elseIf fun hp => hp.load.beside
  · exact h.updGrp.failGrp.ite h.joinCopy
  · exact h.makeRoom.postOnce
  · exact h.beside.updGrp.launchErr.failGrp
  · exact h.postOnce
  · exact h.beside.updGrp.failGrp

theorem State.memWf.beginLaunch {s : State} {nr : Option Nat} {id : Nat} (h : s.memWf) : (s.beginLaunch nr id).memWf := by
  unfold State.beginLaunch
  split
  · exact h
  · split
    · exact h
    · split
      · exact h
      · exact (h.setCtx.ite h).beside.runCopy.ite (h.setCtx.ite h).clearDsm.beside.placeAll

theorem State.memWf.startLaunch {s : State} {id : Nat} (h : s.memWf) : (s.startLaunch id).memWf := h.beginLaunch

theorem State.memWf.execLaunchStart {id : Nat} {s : State} (h : s.memWf) : KeepsWf (execLaunchStart id s) := .next h.startLaunch

theorem State.memWf.execInstanceEnd {lvl : Lvl} {id : Nat} {s : State} (h : s.memWf) : KeepsWf (execInstanceEnd lvl id s) := by
  unfold Machine.execInstanceEnd
  refine .next ?_
  split
  · exact h.afterWave.ite h.blockEnded
  · exact h.launchEnded
  · exact h.forkEnded
  · exact h.graphEnded
  · exact h.phaseEnded
  · exact h.jobEnded

theorem State.memWf.execStepBoundary {id : Nat} {s : State} (h : s.memWf) : KeepsWf (execStepBoundary id s) := .next h.phaseEnded

theorem State.memWf.execWaveEndAfterLaunches {blk wv : Nat} {s : State} (h : s.memWf) : KeepsWf (execWaveEndAfterLaunches blk wv s) :=
  .next (h.finishWave.ite h)

end Machine
end Sys2Proof
end

section
/-! SUPPORT. The functions of Sys2Proof/Machine/Waits.lean keep the canonical form. -/

namespace Sys2Proof
open Machine
namespace Machine

theorem State.memWf.takeWaits {s : State} {rs : List WaitR} (h : s.memWf) : (s.takeWaits rs).memWf := by
  induction rs generalizing s with
  | nil => exact h
  | cons r rs ih =>
    refine ih (State.memWf.ite ?_ h.writeRes)
    dsimp only
    split
    · exact h.readCount.writeRes.setW
    · exact h.readCount.writeRes

theorem State.memWf.rejoin {s : State} (h : s.memWf) : s.rejoin.memWf := by
  unfold State.rejoin
  split
  · exact h
  · exact h.ite (h.dropBurst.settleCharge (h.dropBurst.setW.takeWaits.elseIf fun hp => hp.setW))

theorem State.memWf.execParkedGroupRejoin {blk wv : Nat} {s : State} (h : s.memWf) : KeepsWf (execParkedGroupRejoin blk wv s) :=
  .next (h.within fun _ hu => hu.rejoin)

theorem State.memWf.roundArrived {s : State} {q : Req} (h : s.memWf) : (s.roundArrived q).memWf := h.checkClose.wake.ite h

theorem State.memWf.execRoundRequestArrive {req : Nat} {s : State} (h : s.memWf) : KeepsWf (execRoundRequestArrive req s) := by
  unfold Machine.execRoundRequestArrive
  split
  · exact .next h
  · exact .next (h.ite (h.postOnce.ite (h.postOnce.roundArrived.ite h.beside.roundArrived)))

theorem State.memWf.admitted {s : State} {q : Req} (h : s.memWf) : (s.admitted q).memWf := by
  unfold State.admitted
  refine State.memWf.wake ?_
  refine State.memWf.foldl ?_ (fun _ _ hu => hu.postOnce.ite hu)
  split
  · exact h.beside.applyReq
  · dsimp only
    split
    · exact h.beside.poisonBlock
    · split
      · exact h.beside.freeRelease.ungrant
      · refine State.memWf.grant ?_
        split
        · exact h.beside.setLoc.setLoc.setLoc
        · exact h.beside.setLoc.setLoc.setLoc.satisfy.updWave

theorem State.memWf.diverge {s : State} {q : Req} (h : s.memWf) : (s.diverge q).memWf :=
  (h.beside.foldl fun _ _ hu => hu.ite hu.postOnce).elseIf fun hp => hp.updWave

theorem State.memWf.gateReplay {s : State} {q : Req} (h : s.memWf) : (s.gateReplay q).memWf := by
  unfold State.gateReplay
  dsimp only
  split
  · exact h.diverge
  · exact (h.ite h.setCtx.admitted).ite (h.diverge.ite h)

theorem State.memWf.atGate {s : State} {id : Nat} (h : s.memWf) : (s.atGate id).memWf := h.beside

theorem State.memWf.gateStopped {s : State} {id : Nat} (h : s.memWf) : (s.gateStopped id).memWf := h.beside

theorem State.memWf.gateDecide {s : State} {q : Req} (h : s.memWf) : (s.gateDecide q).memWf := by
  unfold State.gateDecide
  split
  · exact h
  · split
    · exact h.ite h.admitted
    · split
      · exact h.gateReplay
      · split
        · exact h
        · split
          next t e =>
            have ht := h.logAdmit e
            exact ht.admitted
          · exact h.gateStopped

theorem State.memWf.execGateAdmit {req : Nat} {s : State} (h : s.memWf) : KeepsWf (execGateAdmit req s) := by
  unfold Machine.execGateAdmit
  split
  · exact .next h
  · exact .next (h.postOnce.ite (h.ite h.atGate).gateDecide)

theorem State.memWf.execReplayLogIndex {ctx : Nat} {s : State} (h : s.memWf) : KeepsWf (execReplayLogIndex ctx s) :=
  .next (h.ite h.setCtx.startsAgain)

theorem State.memWf.execPriorityPropagate {s : State} (h : s.memWf) : KeepsWf (execPriorityPropagate s) := .next h.reprio

theorem State.memWf.execPackageCycleDetect {s : State} (h : s.memWf) : KeepsWf (execPackageCycleDetect s) := by
  unfold Machine.execPackageCycleDetect
  refine .next ?_
  split
  · exact h.raiseDeadlock.postOnce
  · exact h

theorem State.memWf.execStallWatchdogExpiry {blk wv : Nat} {s : State} (h : s.memWf) : KeepsWf (execStallWatchdogExpiry blk wv s) := by
  unfold Machine.execStallWatchdogExpiry
  dsimp only
  split
  · exact .next h
  · split
    · exact .next h.setWave
    · exact .next h

theorem State.memWf.execPendingTrapTake {blk wv : Nat} {s : State} (h : s.memWf) : KeepsWf (execPendingTrapTake blk wv s) :=
  .next (h.within fun _ hu => hu.takePending.ite hu)

theorem State.memWf.execInheritanceSave {die holder : Nat} {s : State} (h : s.memWf) : KeepsWf (execInheritanceSave die holder s) := by
  unfold Machine.execInheritanceSave
  dsimp only
  split
  · exact .next h
  · split
    · exact .next h.postOnce
    · split
      · exact .next h.postOnce.postOnce
      · exact .next h

theorem State.memWf.execPipelinePressureInterval {die : Nat} {s : State} (h : s.memWf) : KeepsWf (execPipelinePressureInterval die s) := by
  unfold Machine.execPipelinePressureInterval
  refine .next ?_
  refine State.memWf.foldl h.beside (fun u x hu => ?_)
  split
  · exact hu
  · split
    · exact hu.updBlock.postOnce
    · exact hu

theorem State.memWf.moveBlock {s : State} {blk die core : Nat} (h : s.memWf) : (s.moveBlock blk die core).memWf :=
  (h.setCore.foldl fun _ _ hu => hu.updWave).setSplit.updBlock.beside.post.postOnce

theorem State.memWf.execTow {blk core : Nat} {s : State} (h : s.memWf) : KeepsWf (execTow blk core s) := .next (h.moveBlock.ite h)

theorem State.memWf.execTowForwardRemove {blk : Nat} {s : State} (h : s.memWf) : KeepsWf (execTowForwardRemove blk s) :=
  .next (h.beside.postOnce.ite h.beside)

theorem State.memWf.execTokenBucketRefill {s : State} (h : s.memWf) : KeepsWf (execTokenBucketRefill s) := .next h.beside

theorem State.memWf.execRegionRelease {blk wv : Nat} {s : State} (h : s.memWf) : KeepsWf (execRegionRelease blk wv s) := .next h.updWave

theorem State.memWf.execPinWindowExpiry {blk wv : Nat} {s : State} (h : s.memWf) : KeepsWf (execPinWindowExpiry blk wv s) := .next h.updWave

theorem State.memWf.reexecute {s : State} {k : Nat} {r : Region} (h : s.memWf) : (s.reexecute k r).memWf := h.dropCharge.updBlock.setWave

theorem State.memWf.execStrikeReport {die core : Nat} {s : State} (h : s.memWf) : KeepsWf (execStrikeReport die core s) :=
  .next ((h.foldl fun _ _ hu => hu.reexecute).foldl fun _ _ hu => hu.strikeBlock.ite hu).placeErr

theorem State.memWf.execForkReexecute {id : Nat} {s : State} (h : s.memWf) : KeepsWf (execForkReexecute id s) := .next h.strikeFork

theorem State.memWf.execSectorPoison {pa : Nat} {s : State} (h : s.memWf) : KeepsWf (execSectorPoison pa s) := .next h.beside.placeErr

theorem State.memWf.execErrorRecordPlace {socket : Nat} {r : ErrRec} {s : State}
    (h : s.memWf) : KeepsWf (execErrorRecordPlace socket r s) :=
  .next (h.ite h.placeErr)

theorem State.memWf.execLinkFlitResend {socket : Nat} {r : ErrRec} {s : State} (h : s.memWf) : KeepsWf (execLinkFlitResend socket r s) :=
  .next (h.ite h.placeErr)

theorem State.memWf.execErrorBankClear {socket bank : Nat} {s : State} (h : s.memWf) : KeepsWf (execErrorBankClear socket bank s) :=
  .next (h.ite (h.foldl fun _ _ hu => hu.setPf))

theorem State.memWf.readErrsum {s : State} {socket : Nat} (h : s.memWf) : (s.readErrsum socket).memWf := h.ite h.setPf.beside

theorem State.memWf.execErrsumRead {socket : Nat} {s : State} (h : s.memWf) : KeepsWf (execErrsumRead socket s) := .next h.readErrsum

end Machine
end Sys2Proof
end

section
/-! SUPPORT. The functions of Sys2Proof/Machine/Pages.lean keep the canonical form. -/

namespace Sys2Proof
open Machine
namespace Machine

theorem State.memWf.execFaultRecordAppend {die entry : Nat} {s : State} (h : s.memWf) : KeepsWf (execFaultRecordAppend die entry s) := by
  unfold Machine.execFaultRecordAppend
  refine .next ?_
  split
  · exact h
  · split
    · exact h
    · split
      · exact h.postOnce
      next t e =>
        have ht := h.ringPut e
        exact ht.beside.msi

theorem State.memWf.execFrespSupply {die entry : Nat} {s : State} (h : s.memWf) : KeepsWf (execFrespSupply die entry s) := by
  unfold Machine.execFrespSupply
  refine .next ?_
  split
  · exact h
  · exact (h.beside.foldl fun _ _ hu => hu.updWave).foldl fun _ _ hu => hu.postOnce

theorem State.memWf.refuseWait {s : State} (h : s.memWf) : s.refuseWait.memWf := by
  unfold State.refuseWait
  split
  · exact h
  · exact h.setW

theorem State.memWf.execFrespNr {die entry : Nat} {s : State} (h : s.memWf) : KeepsWf (execFrespNr die entry s) := by
  unfold Machine.execFrespNr
  refine .next ?_
  split
  · exact h
  · exact (h.beside.foldl fun _ _ hu => hu.within fun _ hv => hv.refuseWait).foldl fun _ _ hu => hu.beginLaunch

theorem State.memWf.startInval {s : State} {len : W64} (h : s.memWf) : (s.startInval len).memWf := h.setPf.setPf.beside.postOnce

theorem State.memWf.execInval {len : W64} {s : State} (h : s.memWf) : KeepsWf (execInval len s) := .next h.startInval

theorem State.memWf.execInvalComplete {s : State} (h : s.memWf) : KeepsWf (execInvalComplete s) := by
  unfold Machine.execInvalComplete
  refine .next ?_
  split
  · exact h
  · exact h.postOnce.ite h.setPf.beside

theorem State.memWf.migDone {s : State} (h : s.memWf) : s.migDone.memWf := h.setPf.msi

theorem State.memWf.reject {s : State} {off : Nat} (h : s.memWf) : (s.reject off).memWf := h.setPf

theorem State.memWf.startMigration {s : State} {pa : W64} (h : s.memWf) : (s.startMigration pa).memWf := by
  unfold State.startMigration
  split
  · exact h.reject
  · dsimp only
    split
    · exact h.setPf.beside.post
    · exact h.setPf.migDone

theorem State.memWf.execMigcmd {pa : W64} {s : State} (h : s.memWf) : KeepsWf (execMigcmd pa s) := .next h.startMigration

theorem State.memWf.movePage {s : State} {m : Migration} {host : Bool} (h : s.memWf) : (s.movePage m host).memWf := by
  unfold State.movePage
  extract_lets there put s₁ s₂
  have h₁ : s₁.memWf := by
    obtain ⟨hm, hh, hd⟩ := h
    unfold s₁
    split
    · exact ⟨hm, Memory.wf_copyRange _ _ _ _ hh, hd⟩
    · exact ⟨Memory.wf_copyRange _ _ _ _ hm, hh, hd⟩
  have h₂ : s₂.memWf := h₁.ite h₁.beside
  exact h₂.ite (h₂.foldl fun _ _ hu => hu.updWave)

theorem State.memWf.execMigrationDone {s : State} (h : s.memWf) : KeepsWf (execMigrationDone s) := by
  unfold Machine.execMigrationDone
  refine .next ?_
  split
  · exact h
  · split
    · exact h.postOnce.ite h.beside.migDone
    · refine h.postOnce.ite ?_
      extract_lets host s₁ s₂
      have h₁ : s₁.memWf := h.movePage
      have h₂ : s₂.memWf := by
        unfold s₂
        split
        · obtain ⟨hm, hh, hd⟩ := h₁
          exact ⟨Memory.wf_setNum _ _ _ _ hm, hh, hd⟩
        · exact h₁
      exact h₂.beside.postOnce

end Machine
end Sys2Proof
end

section
/-! SUPPORT. The functions of Sys2Proof/Machine/Save.lean keep the canonical form. -/

namespace Sys2Proof
open Machine
namespace Machine

theorem State.memWf.takeForkVa {s : State} {k : Nat} {bs : List Byte} (h : s.memWf) : (s.takeForkVa k bs).memWf := by
  unfold State.takeForkVa
  split
  · exact h
  · exact h.updGrp

theorem State.memWf.loadRecord {s : State} {k : Nat} {al : Alloc} {bs : List Byte} {f : Wave → Wave}
    (h : s.memWf) : (s.loadRecord k al bs f).memWf :=
  h.updWave.takeForkVa

theorem State.memWf.putVa {s : State} {c va : Nat} {bs : List Byte} (h : s.memWf) : (s.putVa c va bs).memWf :=
  h.foldl fun _ _ hu => hu.wharfWrite

theorem State.memWf.putRecord {s : State} {blk : Nat} (h : s.memWf) : (s.putRecord blk).memWf := h.updBlock.putVa

theorem State.memWf.orRecord {s : State} {blk wv : Nat} {fl : W32} (h : s.memWf) : (s.orRecord blk wv fl).memWf := h.putVa.updBlock

theorem State.memWf.holdBlock {s : State} {blk : Nat} {stop : Bool} (h : s.memWf) : (s.holdBlock blk stop).memWf :=
  h.updBlock.foldl fun _ _ hu => hu.updWave

theorem State.memWf.closeRegions {s : State} {blk : Nat} (h : s.memWf) : (s.closeRegions blk).memWf :=
  h.foldl fun _ _ hu => hu.within fun _ hv => hv.closeRegion

theorem State.memWf.giveTo {s : State} {heir : Option Nat} {die : Nat} (h : s.memWf) : (s.giveTo heir die).memWf := by
  unfold State.giveTo
  refine State.memWf.postOnce ?_
  split
  next c _ =>
    cases e : s.placeCand die c with
    | none => exact h
    | some t => exact h.placeCand e
  · exact h

theorem State.memWf.saveAt {s : State} {blk at_ : Nat} (h : s.memWf) : (s.saveAt blk at_).memWf :=
  (h.foldl fun _ _ hu => hu.updWave).updBlock.putRecord.giveTo

theorem State.memWf.noSave {s : State} {blk : Nat} (h : s.memWf) : (s.noSave blk).memWf := h.holdBlock.updBlock

theorem State.memWf.noRoom {s : State} {blk : Nat} (h : s.memWf) : (s.noRoom blk).memWf := h.noSave.postOnce.ite h.noSave

theorem State.memWf.execBlockSave {blk : Nat} {s : State} (h : s.memWf) : KeepsWf (execBlockSave blk s) := by
  unfold Machine.execBlockSave
  dsimp only
  split
  · exact .next h
  · split
    · exact .next h.postOnce
    · split
      · exact .next (h.noSave.postOnce.ite h.noSave)
      · split
        · exact .next h.postOnce
        · split
          · exact .next h.holdBlock.closeRegions.postOnce
          · split
            · exact .next h.holdBlock.closeRegions.saveAt
            · exact .next h.holdBlock.closeRegions.noRoom

theorem State.memWf.execMemoryReply {n : Nat} {s : State} (h : s.memWf) : KeepsWf (execMemoryReply n s) := by
  unfold Machine.execMemoryReply
  split
  · exact .next h
  · split
    · exact .next h.postOnce
    · dsimp only
      split
      · exact .next h.beside
      · split
        · exact .next h.beside.poisonBlock
        · exact .next (h.beside.setWave.orRecord.putRecord.ite h.beside.setWave)

theorem State.memWf.execBlockRestore {blk : Nat} {s : State} (h : s.memWf) : KeepsWf (execBlockRestore blk s) := by
  unfold Machine.execBlockRestore
  dsimp only
  split
  · exact .next h
  · split
    · exact .next h
    · exact .next (h.setSplit.foldl fun _ _ hu => hu.ite hu.loadRecord).updBlock.holdBlock.postOnce.postOnce

theorem State.memWf.restartBlock {s : State} {blk : Nat} (h : s.memWf) : (s.restartBlock blk).memWf := by
  unfold State.restartBlock
  dsimp only
  split
  · exact h
  · refine State.memWf.postOnce ?_
    refine State.memWf.setBlock ?_
    split
    · split
      · refine State.memWf.setCtx ?_
        refine State.memWf.dropBlock ?_
        refine State.memWf.updGrp ?_
        refine h.foldl fun u x hu => ?_
        split
        · exact hu.removeGrp
        · exact hu
      · refine State.memWf.dropBlock ?_
        refine State.memWf.updGrp ?_
        refine h.foldl fun u x hu => ?_
        split
        · exact hu.removeGrp
        · exact hu
    · split
      · refine State.memWf.setCtx ?_
        refine State.memWf.dropBlock ?_
        refine State.memWf.updGrp ?_
        refine State.memWf.freePool ?_
        refine h.foldl fun u x hu => ?_
        split
        · exact hu.removeGrp
        · exact hu
      · refine State.memWf.dropBlock ?_
        refine State.memWf.updGrp ?_
        refine State.memWf.freePool ?_
        refine h.foldl fun u x hu => ?_
        split
        · exact hu.removeGrp
        · exact hu

theorem State.memWf.evict {s : State} {blk : Nat} (h : s.memWf) : (s.evict blk).memWf := h.restartBlock.ite h.updBlock.postOnce

theorem State.memWf.preemptBlock {s : State} {blk : Nat} (h : s.memWf) : (s.preemptBlock blk).memWf := h.updBlock.post.ite h.evict

theorem State.memWf.execPreempt {ctx : Nat} {val : W64} {s : State} (h : s.memWf) : KeepsWf (execPreempt ctx val s) := by
  unfold Machine.execPreempt
  split
  · exact .next h
  · exact .next (h.setPf.foldl fun _ _ hu => hu.preemptBlock)

theorem State.memWf.execDrainLimitExpiry {blk : Nat} {s : State} (h : s.memWf) : KeepsWf (execDrainLimitExpiry blk s) :=
  .next (h.evict.ite h)

theorem State.memWf.execDebugStateAccess {blk off : Nat} {wr : Option W64} {s : State}
    (h : s.memWf) : KeepsWf (execDebugStateAccess blk off wr s) := by
  unfold Machine.execDebugStateAccess
  split
  · exact .next (h.ite h.beside)
  · dsimp only
    split
    · exact .next h
    · split
      · exact .next h.beside
      · exact .next h.loadRecord

theorem State.memWf.execDebugResume {blk : Nat} {s : State} (h : s.memWf) : KeepsWf (execDebugResume blk s) := .next (h.holdBlock.ite h)

theorem State.memWf.killCtx {s : State} {c : Nat} (h : s.memWf) : (s.killCtx c).memWf :=
  ((h.freePool.beside.foldl fun _ _ hu => hu.updWave).foldl fun _ _ hu => hu.updBlock).setCtx

theorem State.memWf.killEnd {s : State} {c : Nat} (h : s.memWf) : (s.killEnd c).memWf :=
  ((h.foldl fun _ _ hu => hu.dropRefs).thenIf fun hp => hp.beside).beside.setCtx.beside.setPf.msi.placeAll

theorem State.memWf.execKill {ctx : Nat} {s : State} (h : s.memWf) : KeepsWf (execKill ctx s) := .next (h.ite h.killCtx.postOnce)

theorem State.memWf.execKillCompletion {ctx : Nat} {s : State} (h : s.memWf) : KeepsWf (execKillCompletion ctx s) := .next (h.killEnd.ite h)

end Machine
end Sys2Proof
end

section
/-! SUPPORT. The functions of Sys2Proof/Machine/HostLink.lean keep the canonical form. -/

namespace Sys2Proof
open Machine
namespace Machine

theorem State.memWf.setErr {s : State} {c : Nat} (h : s.memWf) : (s.setErr c).memWf := h.setVf.msi

theorem State.memWf.ringError {s : State} {c : Nat} (h : s.memWf) : (s.ringError c).memWf := h.setVf.setErr

theorem State.memWf.writeRcfg {s : State} {c : Nat} {val : W64} (h : s.memWf) : (s.writeRcfg c val).memWf :=
  h.setVf.ite (h.setVf.ite (h.setVf.ringError.ite h.setVf.setVf))

theorem State.memWf.writeProd {s : State} {c : Nat} {val : W64} (h : s.memWf) : (s.writeProd c val).memWf :=
  h.setVf.ite (h.setVf.ringError.ite (h.setVf.ite h.setVf.postOnce))

theorem State.memWf.execRcfgWrite {ctx : Nat} {val : W64} {s : State} (h : s.memWf) : KeepsWf (execRcfgWrite ctx val s) :=
  .next (h.writeRcfg.ite h)

theorem State.memWf.execProdWrite {ctx : Nat} {val : W64} {s : State} (h : s.memWf) : KeepsWf (execProdWrite ctx val s) :=
  .next (h.writeProd.ite h)

theorem State.memWf.rejectPacket {s : State} {c : Nat} {p : Packet} {code : Nat} (h : s.memWf) : (s.rejectPacket c p code).memWf :=
  h.writeRecord.msi.ite h.writeRecord

theorem State.memWf.joinLevel {s : State} {c lvl : Nat} {p : Packet} {mem : Nat} {fin : Bool}
    (h : s.memWf) : (s.joinLevel c lvl p mem fin).memWf := by
  unfold State.joinLevel
  refine State.memWf.updLev ?_
  dsimp only
  split
  · exact h
  · exact h.fresh.beside

theorem State.memWf.acceptPacket {s : State} {c : Nat} {p : Packet} (h : s.memWf) : (s.acceptPacket c p).memWf := by
  unfold State.acceptPacket
  exact (h.setCtx.post.ite h.setCtx).joinLevel.joinLevel.joinLevel.fresh.beside.thenElse (fun hp => hp.post) fun hp => hp.post

theorem State.memWf.passCons {s : State} {c : Nat} (h : s.memWf) : (s.passCons c).memWf := h.setVf

theorem State.memWf.readOnly {s : State} {c : Nat} (h : s.memWf) : (s.readOnly c).memWf := h.setCtx

theorem State.memWf.intake {s : State} {c : Nat} (h : s.memWf) : (s.intake c).memWf := by
  unfold State.intake
  split
  · exact h.ringError
  · exact h.passCons.readOnly.ringError.ite ((h.passCons.acceptPacket.ite h.passCons.readOnly.rejectPacket).elseIf fun hp => hp.postOnce)

theorem State.memWf.execPacketIntake {ctx : Nat} {s : State} (h : s.memWf) : KeepsWf (execPacketIntake ctx s) :=
  .next (h.ite (h.postOnce.ite h.intake))

theorem State.memWf.writeHcancel1 {s : State} {c : Nat} {val : W64} (h : s.memWf) : (s.writeHcancel1 c val).memWf := by
  unfold State.writeHcancel1
  dsimp only
  split
  · exact h.setErr
  · split
    · split
      · exact h.setVf.cancelGrp
      · exact h.setVf
    · exact h.setVf.cancelLevel

theorem State.memWf.execHcancel1 {ctx : Nat} {val : W64} {s : State} (h : s.memWf) : KeepsWf (execHcancel1 ctx val s) :=
  .next (h.writeHcancel1.ite h)

theorem State.memWf.resetVf {s : State} {c : Nat} (h : s.memWf) : (s.resetVf c).memWf := h.killCtx.killEnd.beside

theorem State.memWf.execFunctionLevelResetVf {ctx : Nat} {s : State} (h : s.memWf) : KeepsWf (execFunctionLevelResetVf ctx s) :=
  .next (h.resetVf.ite h)

theorem State.memWf.resetPf {s : State} (h : s.memWf) : s.resetPf.memWf := h.beside.setPf

theorem State.memWf.execFunctionLevelResetPf {s : State} (h : s.memWf) : KeepsWf (execFunctionLevelResetPf s) :=
  .next ((h.foldl fun _ _ hu => hu.resetVf).resetPf.ite h)

theorem State.memWf.sizeBar {s : State} {bar2 : Option Nat} (h : s.memWf) : (s.sizeBar bar2).memWf := by
  unfold State.sizeBar
  split
  · exact h.beside.ite h
  · exact h

theorem State.memWf.execConfigRequest {req : ConfigReq} {s : State} (h : s.memWf) : KeepsWf (execConfigRequest req s) := by
  unfold Machine.execConfigRequest
  refine .next ?_
  split
  · exact h
  · exact h.beside
  · exact h.beside.sizeBar
  · exact h.beside.sizeBar

theorem State.memWf.execUnsupportedRequest {req : Nat} {s : State} (h : s.memWf) : KeepsWf (execUnsupportedRequest req s) :=
  .next (h.ite h.beside)

theorem State.memWf.execHostApertureAccess {fn off : Nat} {wr : HostAcc} {s : State}
    (h : s.memWf) : KeepsWf (execHostApertureAccess fn off wr s) := by
  unfold Machine.execHostApertureAccess
  refine .next ?_
  split
  · exact h
  · split
    · split
      · exact h.writeDev.wake
      · exact h.beside
    · exact h

theorem State.memWf.readXpstat {s : State} (h : s.memWf) : s.readXpstat.memWf := h.beside

theorem State.memWf.execXpstatRead {s : State} (h : s.memWf) : KeepsWf (execXpstatRead s) := .next (h.readXpstat.ite h)

theorem State.memWf.execMtload {pa : W64} {s : State} (h : s.memWf) : KeepsWf (execMtload pa s) := .next (h.setPf.loadMooring.ite h)

theorem State.memWf.execSamplingInterval {s : State} (h : s.memWf) : KeepsWf (execSamplingInterval s) := .next h.sample

theorem State.memWf.execVersionSwitchCopyDone {s : State} (h : s.memWf) : KeepsWf (execVersionSwitchCopyDone s) := .next h.switchCopied

theorem State.memWf.execSlotWritten {die : Nat} {s : State} (h : s.memWf) : KeepsWf (execSlotWritten die s) := .next h.switchSlot

theorem State.memWf.execGraceExpiry {id : Nat} {s : State} (h : s.memWf) : KeepsWf (execGraceExpiry id s) := .next h.endGrace

theorem State.memWf.execSwitchAbandon {die : Replica} {s : State} (h : s.memWf) : KeepsWf (execSwitchAbandon die s) := .next h.abandonSwitch

theorem State.memWf.execReductionPartialCombine {n : Nat} {m : Meet} {s : State}
    (h : s.memWf) : KeepsWf (execReductionPartialCombine n m s) := by
  unfold Machine.execReductionPartialCombine
  refine .next ?_
  split
  · exact h.beside.ite h
  · split
    · exact h.beside.ite (h.beside.ite h)
    · exact h

theorem State.memWf.writeWindow {s : State} {n word : Nat} {val : W64} (h : s.memWf) : (s.writeWindow n word val).memWf :=
  h.reject.ite ((h.ite h.reject).ite ((h.ite h.reject).ite (h.reject.ite h.setPf)))

theorem State.memWf.execDecodeWindowWrite {n word : Nat} {val : W64} {s : State}
    (h : s.memWf) : KeepsWf (execDecodeWindowWrite n word val s) :=
  .next (h.writeWindow.ite h)

theorem State.memWf.mbEnd {s : State} {code : Nat} {err : Bool} (h : s.memWf) : (s.mbEnd code err).memWf := h.setPf

theorem State.memWf.mbRaise {s : State} (h : s.memWf) : s.mbRaise.memWf := h.mbEnd.ite (h.mbEnd.ite (h.mbEnd.ite h.beside.mbEnd))

theorem State.memWf.mbReport {s : State} (h : s.memWf) : s.mbReport.memWf := h.setPf.mbEnd

theorem State.memWf.mbWrite {s : State} {val : W64} (h : s.memWf) : (s.mbWrite val).memWf := h.reject.ite h.setPf.setPf.post

theorem State.memWf.mbStart {s : State} {cmd : W64} {run : State → State} (h : s.memWf)
    (hrun : ∀ u, u.memWf → (run u).memWf) : (s.mbStart cmd run).memWf :=
  h.ite ((hrun _ h.setPf).ite ((hrun _ h).ite h))

theorem State.memWf.execMbRaiseMinSvn {s : State} (h : s.memWf) : KeepsWf (execMbRaiseMinSvn s) := .next (h.mbStart fun _ hu => hu.mbRaise)

theorem State.memWf.execMbReportMinSvn {s : State} (h : s.memWf) : KeepsWf (execMbReportMinSvn s) :=
  .next (h.mbStart fun _ hu => hu.mbReport)

theorem State.memWf.execMbReservedCommand {cmd : W64} {s : State} (h : s.memWf) : KeepsWf (execMbReservedCommand cmd s) :=
  .next (h.mbStart fun _ hu => hu.mbEnd)

theorem State.memWf.unmask {s : State} {fn vec : Nat} (h : s.memWf) : (s.unmask fn vec).memWf := h.ite (h.setPf.ite h.setVf).beside

theorem State.memWf.writeVf {s : State} {c off : Nat} {val : W64} (h : s.memWf) : (s.writeVf c off val).memWf :=
  (h.setVf.ite h).ite (h.writeRcfg.ite (h.writeProd.ite (h.setVf.ite (h.writeHcancel1.ite (h.setVf.unmask.ite h)))))

theorem State.memWf.gated {s : State} {ok : Bool} {off : Nat} {val : W64} (h : s.memWf) : (s.gated ok off val).memWf := h.setPf.ite h.reject

theorem State.memWf.writeXpcfg {s : State} {val : W64} (h : s.memWf) : (s.writeXpcfg val).memWf := h.gated.switchGoesOn

theorem State.memWf.flushEsc {s : State} (h : s.memWf) : s.flushEsc.memWf := h.beside.foldl fun _ _ hu => hu.escPut

theorem State.memWf.writeFresp {s : State} {val : W64} (h : s.memWf) : (s.writeFresp val).memWf := h.setPf.post

theorem State.memWf.writeCtxReg {s : State} {c o off : Nat} {val : W64} (h : s.memWf) : (s.writeCtxReg c o off val).memWf :=
  h.gated.ite (h.gated.ite (h.gated.ite (h.gated.ite (h.post.ite
    ((h.post.ite h).ite ((h.setPf.ite h).ite (h.gated.ite (h.setPf.ite (h.gated.ite h)))))))))

theorem State.memWf.writeSocket {s : State} {sk o off : Nat} {val : W64} (h : s.memWf) : (s.writeSocket sk o off val).memWf :=
  (h.setPf.ite h).ite (h.setPf.ite (((h.foldl fun _ _ hu => hu.setPf).ite h).ite h))

theorem State.memWf.writeCk {s : State} {off : Nat} {val : W64} (h : s.memWf) : (s.writeCk off val).memWf :=
  h.setPf.ite (h.setPf.ite ((h.post.ite (h.post.ite h.reject)).ite (h.setPf.ite (h.setPf.ite h))))

theorem State.memWf.writeFirst {s : State} {off : Nat} {val : W64} (h : s.memWf) : (s.writeFirst off val).memWf :=
  ((h.setPf.ite h).post.ite (h.setPf.ite h)).ite
    (h.setPf.ite (h.gated.ite (h.setPf.ite (h.setPf.ite (h.setPf.ite
    (h.setPf.ite (h.setPf.flushEsc.ite (h.writeFresp.ite (h.writeXpcfg.ite
    (h.setPf.ite (h.post.ite (h.setPf.ite (h.setPf.ite (h.startInval.ite
    (h.setPf.ite (h.startMigration.ite ((h.setPf.ite h).ite (h.mbWrite.ite (h.setPf.ite ((h.setPf.ite h).ite h))))))))))))))))))))

theorem State.memWf.writePf {s : State} {off : Nat} {val : W64} (h : s.memWf) : (s.writePf off val).memWf :=
  h.writeFirst.ite (h.writeCk.ite (h.writeSocket.ite (h.writeCtxReg.ite (h.writeWindow.ite (h.setPf.ite (h.setPf.unmask.ite h))))))

theorem State.memWf.writeSlot {s : State} {off : Nat} {val : W64} (h : s.memWf) : (s.writeSlot off val).memWf :=
  h.beside.ite (h.beside.ite h)

theorem State.memWf.writeReg {s : State} {fn off : Nat} {val : W64} (h : s.memWf) : (s.writeReg fn off val).memWf :=
  (h.writePf.ite (h.writeVf.ite (h.writeSlot.ite h))).ite ((h.writeFirst.ite (h.beside.ite h)).ite h)

theorem State.memWf.readReg {s : State} {fn off : Nat} (h : s.memWf) : (s.readReg fn off).memWf :=
  ((h.readXpstat.ite (h.readErrsum.ite h.beside)).ite (h.beside.ite h)).ite (h.beside.ite h)

theorem State.memWf.execRegisterWrite {fn off : Nat} {val : Option W64} {s : State}
    (h : s.memWf) : KeepsWf (execRegisterWrite fn off val s) := by
  unfold Machine.execRegisterWrite
  refine .next ?_
  split
  · exact h.ite h.writeReg
  · exact h.readReg

end Machine
end Sys2Proof
end

section
/-! SUPPORT. The functions of Sys2Proof/Machine/Boot.lean keep the canonical form. -/

namespace Sys2Proof
open Machine
namespace Machine

theorem State.memWf.boot {s : State} {m : Memory} {slot : Option Bool} (h : s.memWf) : (s.boot m slot).memWf := h.beside.setPf

theorem State.memWf.execColdStart {s : State} (h : s.memWf) : KeepsWf (execColdStart s) :=
  .next (h.powered.boot.ite (h.powered.boot.ite h.powered.beside))

theorem State.memWf.execRecoveryLoad {s : State} (h : s.memWf) : KeepsWf (execRecoveryLoad s) := .next (h.boot.ite h)

theorem State.memWf.execPowerOff {s : State} (h : s.memWf) : KeepsWf (execPowerOff s) := .next h.powered

theorem State.memWf.spdmSend {s : State} {code : Nat} {body nonce : List Byte} (h : s.memWf) : (s.spdmSend code body nonce).memWf :=
  h.beside

theorem State.memWf.inSession {s : State} {msg tag : List Byte} {answer : State → State × List Byte} (h : s.memWf)
    (hanswer : ∀ u, u.memWf → (answer u).1.memWf) : (s.inSession msg tag answer).memWf := by
  unfold State.inSession
  split
  · exact h
  · exact h.ite (hanswer _ h).beside

theorem State.memWf.execSpdmGetMeasurements {index : Nat} {nonce : SpdmAsk} {s : State}
    (h : s.memWf) : KeepsWf (execSpdmGetMeasurements index nonce s) := by
  unfold Machine.execSpdmGetMeasurements
  refine .next ?_
  split
  · exact h
  · split
    · exact h.spdmSend
    · exact h.inSession fun _ hu => hu

theorem State.memWf.execSpdmGetCertificate {s : State} (h : s.memWf) : KeepsWf (execSpdmGetCertificate s) := .next (h.beside.ite h)

theorem State.memWf.execSpdmChallenge {nonce : List Byte} {s : State} (h : s.memWf) : KeepsWf (execSpdmChallenge nonce s) :=
  .next (h.spdmSend.ite h)

theorem State.memWf.execSpdmKeyExchange {exch : List Byte} {s : State} (h : s.memWf) : KeepsWf (execSpdmKeyExchange exch s) :=
  .next (h.spdmSend.beside.ite h)

theorem State.memWf.execSpdmVersionNegotiation {versions : List Nat} {s : State}
    (h : s.memWf) : KeepsWf (execSpdmVersionNegotiation versions s) :=
  .next (h.beside.ite h)

theorem State.memWf.programKey {s : State} {strm : Nat} {key : List Byte} (h : s.memWf) : (s.programKey strm key).1.memWf := by
  unfold State.programKey
  split
  · exact h.beside
  · exact h

theorem State.memWf.execIdeKmKeyProgramming {strm : Nat} {key : Sealed} {s : State}
    (h : s.memWf) : KeepsWf (execIdeKmKeyProgramming strm key s) :=
  .next ((h.inSession fun _ hu => hu.programKey).ite h)

end Machine
end Sys2Proof
end

section
/-! SUPPORT. The functions of Sys2Proof/Machine/Checkpoint.lean keep the canonical form. -/

namespace Sys2Proof
open Machine
namespace Machine

theorem State.memWf.storeStream {s : State} {src strm : Nat} {bs : List Byte} (h : s.memWf) : (s.storeStream src strm bs).memWf :=
  h.beside.writeDev

theorem State.memWf.ckEnd {s : State} {strm why : Nat} (h : s.memWf) : (s.ckEnd strm why).memWf := h.beside.setPf

theorem State.memWf.sendStream {s : State} {own : Bool} {dst k : Nat} {bs : List Byte} (h : s.memWf) : (s.sendStream own dst k bs).memWf :=
  h.post.ite h.beside

theorem State.memWf.beginSave {s : State} {report : W64} (h : s.memWf) : (s.beginSave report).memWf := by
  unfold State.beginSave
  dsimp only
  split
  · exact h.ckEnd
  · split
    · exact h.ckEnd
    · split
      · exact h.ckEnd
      · exact (h.foldl fun _ _ hu => hu.sendStream).setCtx.beside.post

theorem State.memWf.ckWrite {s : State} {op : Nat} {run : State → State} {report : W64} (h : s.memWf)
    (hrun : ∀ u, u.memWf → (run u).memWf) : (s.ckWrite op run report).memWf :=
  h.ite (h.reject.ite (hrun _ h.setPf))

theorem State.memWf.execCheckpointSave {report : W64} {s : State} (h : s.memWf) : KeepsWf (execCheckpointSave report s) :=
  .next (h.ckWrite fun _ hu => hu.beginSave)

theorem State.memWf.execCheckpointSaveDone {s : State} (h : s.memWf) : KeepsWf (execCheckpointSaveDone s) := by
  unfold Machine.execCheckpointSaveDone
  refine .next ?_
  split
  · exact h
  · split
    · exact h
    · split
      · exact h.postOnce
      · dsimp only
        split
        · exact h.setCtx.postOnce.ckEnd
        · exact h.setCtx.postOnce.ckEnd
        · exact h.setCtx.postOnce.writeHost.ckEnd

theorem State.memWf.beginRestore {s : State} {report : W64} (h : s.memWf) : (s.beginRestore report).memWf := by
  unfold State.beginRestore
  dsimp only
  split
  · exact h.ckEnd
  · split
    · split
      · exact h.ckEnd
      · exact h.beside.post
    · exact h.beside

theorem State.memWf.execCheckpointRestore {report : W64} {s : State} (h : s.memWf) : KeepsWf (execCheckpointRestore report s) :=
  .next (h.ckWrite fun _ hu => hu.beginRestore)

theorem State.memWf.placeUnit {s : State} {c : Nat} {bs : List Byte} {t : State} (h : s.memWf) (e : s.placeUnit c bs = some t) : t.memWf :=
    by
  unfold State.placeUnit at e
  dsimp only at e
  split at e
  · cases e
  · split at e
    · split at e
      · cases e
        exact h.writeDev
      · cases e
    · cases e

theorem State.memWf.placeUnits {s : State} {c : Nat} {us : List (List Byte)} (h : s.memWf) : (s.placeUnits c us).1.memWf := by
  induction us generalizing s with
  | nil => exact h
  | cons u us ih =>
    unfold State.placeUnits
    split
    next e => exact ih (h.placeUnit e)
    · exact h

theorem State.memWf.placeStreams {s : State} {k : Ckpt} {ns : List Nat} (h : s.memWf) : (s.placeStreams k ns).1.memWf := by
  induction ns generalizing s with
  | nil => exact h
  | cons n ns ih =>
    unfold State.placeStreams
    dsimp only
    split
    · exact h.placeUnits
    · split
      · exact h.placeUnits
      · exact ih h.placeUnits

theorem State.memWf.execCheckpointRestoreDone {s : State} (h : s.memWf) : KeepsWf (execCheckpointRestoreDone s) := by
  unfold Machine.execCheckpointRestoreDone
  refine .next ?_
  split
  · exact h
  · split
    · exact h
    · split
      · exact h
      · split
        · exact h.ckEnd
        · dsimp only
          split
          · exact h.placeStreams.ckEnd
          · exact h.placeStreams.ckEnd

theorem State.memWf.restoreStream {s : State} {strm : Nat} {bs : List Byte} (h : s.memWf) : (s.restoreStream strm bs).memWf :=
  h.beside.postOnce.ite h.beside

theorem State.memWf.tookStream {s : State} {src strm : Nat} (h : s.memWf) : (s.tookStream src strm).memWf := h.beside

theorem State.memWf.execReserveStreamAccept {src strm : Nat} {data : List Host.Cell} {s : State}
    (h : s.memWf) : KeepsWf (execReserveStreamAccept src strm data s) := by
  unfold Machine.execReserveStreamAccept
  refine .next ?_
  split
  · exact h
  · split
    · exact h.ckEnd.ite h
    · split
      · split
        · exact h.beside
        · exact h.beside
      · exact h.restoreStream.ite (h.storeStream.tookStream.ite h.beside)

end Machine
end Sys2Proof
end

section
/-! SUPPORT. The functions of Sys2Proof/Machine/Float.lean keep the canonical form. -/

namespace Sys2Proof
open Machine
namespace Machine

theorem State.memWf.floatOp {i : Instr} {f : F} {m : Fmt} {rnd : Rnd} {op : FOp} {s : State}
    (h : s.memWf) : KeepsWf (floatOp i f m rnd op s) :=
  h.simple fun _ => h.perLane

theorem State.memWf.execFadd {f : F} {fmt : Fmt} {rnd : Rnd} {s : State} (h : s.memWf) : KeepsWf (execFadd f fmt rnd s) := h.floatOp

theorem State.memWf.execFsub {f : F} {fmt : Fmt} {rnd : Rnd} {s : State} (h : s.memWf) : KeepsWf (execFsub f fmt rnd s) := h.floatOp

theorem State.memWf.execFmul {f : F} {fmt : Fmt} {rnd : Rnd} {s : State} (h : s.memWf) : KeepsWf (execFmul f fmt rnd s) := h.floatOp

theorem State.memWf.execFfma {f : F} {fmt : Fmt} {rnd : Rnd} {s : State} (h : s.memWf) : KeepsWf (execFfma f fmt rnd s) := h.floatOp

theorem State.memWf.execFdiv {f : F} {fmt : Fmt} {rnd : Rnd} {s : State} (h : s.memWf) : KeepsWf (execFdiv f fmt rnd s) := h.floatOp

theorem State.memWf.execFsqrt {f : F} {fmt : Fmt} {rnd : Rnd} {s : State} (h : s.memWf) : KeepsWf (execFsqrt f fmt rnd s) := h.floatOp

theorem State.memWf.execFscale {f : F} {fmt : Fmt} {rnd : Rnd} {s : State} (h : s.memWf) : KeepsWf (execFscale f fmt rnd s) := h.floatOp

theorem State.memWf.execFmin {f : F} {fmt : Fmt} {s : State} (h : s.memWf) : KeepsWf (execFmin f fmt s) := h.simple fun _ => h.eachLane

theorem State.memWf.execFmax {f : F} {fmt : Fmt} {s : State} (h : s.memWf) : KeepsWf (execFmax f fmt s) := h.simple fun _ => h.eachLane

theorem State.memWf.transOp {i : Instr} {f : F} {rnd : Rnd} {op : W32 → Rnd → Val → Nat × Fl} {s : State}
    (h : s.memWf) : KeepsWf (transOp i f rnd op s) :=
  h.simple fun _ => h.perLane

theorem State.memWf.execFrcp {f : F} {rnd : Rnd} {s : State} (h : s.memWf) : KeepsWf (execFrcp f rnd s) := h.transOp

theorem State.memWf.execFrsq {f : F} {rnd : Rnd} {s : State} (h : s.memWf) : KeepsWf (execFrsq f rnd s) := h.transOp

theorem State.memWf.execFexp2 {f : F} {rnd : Rnd} {s : State} (h : s.memWf) : KeepsWf (execFexp2 f rnd s) := h.transOp

theorem State.memWf.execFlog2 {f : F} {rnd : Rnd} {s : State} (h : s.memWf) : KeepsWf (execFlog2 f rnd s) := h.transOp

theorem State.memWf.execFsin {f : F} {rnd : Rnd} {s : State} (h : s.memWf) : KeepsWf (execFsin f rnd s) := h.transOp

theorem State.memWf.execFcos {f : F} {rnd : Rnd} {s : State} (h : s.memWf) : KeepsWf (execFcos f rnd s) := h.transOp

theorem State.memWf.execFclass {f : F} {fmt : Fmt} {s : State} (h : s.memWf) : KeepsWf (execFclass f fmt s) := h.simple fun _ => h.eachLane

theorem State.memWf.addTerms {s : State} {d : Opnd} {ls : List Nat} {term : Nat → Val × Fl} (h : s.memWf) : (s.addTerms d ls term).memWf :=
  h.foldl fun _ _ hu => hu.setW.orFlags

theorem State.memWf.execCclr {f : F} {s : State} (h : s.memWf) : KeepsWf (execCclr f s) := h.simple fun _ => h.setW

theorem State.memWf.execCadd {f : F} {fmt : Fmt} {s : State} (h : s.memWf) : KeepsWf (execCadd f fmt s) := h.simple fun _ => h.addTerms

theorem State.memWf.execCfma {f : F} {fmt : Fmt} {s : State} (h : s.memWf) : KeepsWf (execCfma f fmt s) := h.simple fun _ => h.addTerms

theorem State.memWf.execCrd {f : F} {fmt : Fmt} {rnd : Rnd} {clr : Bool} {s : State} (h : s.memWf) : KeepsWf (execCrd f fmt rnd clr s) :=
  h.simple fun _ => h.oneValue.orFlags.setW.ite h.oneValue.orFlags

end Machine
end Sys2Proof
end

section
/-! SUPPORT. The functions of Sys2Proof/Machine/Integer.lean keep the canonical form. -/

namespace Sys2Proof
open Machine
namespace Machine

theorem State.memWf.int2 {i : Instr} {f : F} {ty : Ty} {sat : Bool} {op : Int → Int → Int} {s : State}
    (h : s.memWf) : KeepsWf (int2 i f ty sat op s) :=
  h.simple fun _ => h.perLane

theorem State.memWf.int1 {i : Instr} {f : F} {ty : Ty} {sat : Bool} {op : Int → Int} {s : State}
    (h : s.memWf) : KeepsWf (int1 i f ty sat op s) :=
  h.simple fun _ => h.perLane

theorem State.memWf.execAdd {f : F} {ty : Ty} {sat : Bool} {s : State} (h : s.memWf) : KeepsWf (execAdd f ty sat s) := h.int2

theorem State.memWf.execSub {f : F} {ty : Ty} {sat : Bool} {s : State} (h : s.memWf) : KeepsWf (execSub f ty sat s) := h.int2

theorem State.memWf.execMul {f : F} {ty : Ty} {sat : Bool} {s : State} (h : s.memWf) : KeepsWf (execMul f ty sat s) := h.int2

theorem State.memWf.execMulhi {f : F} {ty : Ty} {s : State} (h : s.memWf) : KeepsWf (execMulhi f ty s) := h.int2

theorem State.memWf.execMad {f : F} {ty : Ty} {sat : Bool} {s : State} (h : s.memWf) : KeepsWf (execMad f ty sat s) :=
  h.simple fun _ => h.perLane

theorem State.memWf.execMin {f : F} {ty : Ty} {s : State} (h : s.memWf) : KeepsWf (execMin f ty s) := h.int2

theorem State.memWf.execMax {f : F} {ty : Ty} {s : State} (h : s.memWf) : KeepsWf (execMax f ty s) := h.int2

theorem State.memWf.execAbs {f : F} {ty : Ty} {sat : Bool} {s : State} (h : s.memWf) : KeepsWf (execAbs f ty sat s) := h.int1

theorem State.memWf.execNeg {f : F} {ty : Ty} {sat : Bool} {s : State} (h : s.memWf) : KeepsWf (execNeg f ty sat s) := h.int1

theorem State.memWf.execDiv {f : F} {ty : Ty} {sat : Bool} {s : State} (h : s.memWf) : KeepsWf (execDiv f ty sat s) :=
  h.simple fun _ => h.perLane

theorem State.memWf.execRem {f : F} {ty : Ty} {s : State} (h : s.memWf) : KeepsWf (execRem f ty s) := h.simple fun _ => h.perLane

theorem State.memWf.execLea {f : F} {ty : Ty} {sx : Bool} {sh : BitVec 3} {s : State} (h : s.memWf) : KeepsWf (execLea f ty sx sh s) :=
  h.simple fun _ => h.eachLane

theorem State.memWf.execMov {f : F} {ty : Ty} {s : State} (h : s.memWf) : KeepsWf (execMov f ty s) := h.simple fun _ => h.eachLane

theorem State.memWf.execMovi {f : F} {imm : BitVec 21} {s : State} (h : s.memWf) : KeepsWf (execMovi f imm s) :=
  h.simple fun _ => h.oneValue

theorem State.memWf.execPopc {f : F} {ty : Ty} {s : State} (h : s.memWf) : KeepsWf (execPopc f ty s) := h.simple fun _ => h.eachLane

theorem State.memWf.execClz {f : F} {ty : Ty} {s : State} (h : s.memWf) : KeepsWf (execClz f ty s) := h.simple fun _ => h.eachLane

theorem State.memWf.execCtz {f : F} {ty : Ty} {s : State} (h : s.memWf) : KeepsWf (execCtz f ty s) := h.simple fun _ => h.eachLane

theorem State.memWf.execBrev {f : F} {ty : Ty} {s : State} (h : s.memWf) : KeepsWf (execBrev f ty s) := h.simple fun _ => h.eachLane

theorem State.memWf.execBfe {f : F} {sx : Bool} {pos len : BitVec 5} {s : State} (h : s.memWf) : KeepsWf (execBfe f sx pos len s) :=
  h.simple fun _ => h.eachLane

theorem State.memWf.execBfi {f : F} {pos len : BitVec 5} {s : State} (h : s.memWf) : KeepsWf (execBfi f pos len s) :=
  h.simple fun _ => h.eachLane

theorem State.memWf.execBperm {f : F} {s : State} (h : s.memWf) : KeepsWf (execBperm f s) := h.simple fun _ => h.eachLane

theorem State.memWf.indexed {i : Instr} {x : Opnd} {k : Nat} {s : State} {f : Mask → State} (h : s.memWf)
    (hf : ∀ x, (f x).memWf) : KeepsWf (indexed i x k s f) := by
  unfold Machine.indexed
  refine h.word fun act => ?_
  split
  · exact .trap h
  · split
    · exact .stall h.heldBack
    · exact .done (hf _)

theorem State.memWf.execLdvr {f : F} {k : BitVec 8} {s : State} (h : s.memWf) : KeepsWf (execLdvr f k s) := h.indexed fun _ => h.eachLane

theorem State.memWf.execStvr {f : F} {k : BitVec 8} {s : State} (h : s.memWf) : KeepsWf (execStvr f k s) :=
  h.indexed fun _ => h.foldl fun _ _ hu => hu.setW

theorem State.memWf.execAddc {f : F} {ty : Ty} {s : State} (h : s.memWf) : KeepsWf (execAddc f ty s) :=
  h.simple fun _ => h.foldl fun _ _ hu => hu.setOpnd.setOpnd

theorem State.memWf.logic2 {i : Instr} {f : F} {ty : Ty} {op : Nat → Nat → Nat} {s : State} (h : s.memWf) : KeepsWf (logic2 i f ty op s) :=
  h.simple fun _ => h.eachLane

theorem State.memWf.shift2 {i : Instr} {f : F} {ty : Ty} {op : Nat → Nat → Nat → Nat} {s : State}
    (h : s.memWf) : KeepsWf (shift2 i f ty op s) :=
  h.simple fun _ => h.eachLane

theorem State.memWf.execAnd {f : F} {ty : Ty} {s : State} (h : s.memWf) : KeepsWf (execAnd f ty s) := h.logic2

theorem State.memWf.execOr {f : F} {ty : Ty} {s : State} (h : s.memWf) : KeepsWf (execOr f ty s) := h.logic2

theorem State.memWf.execXor {f : F} {ty : Ty} {s : State} (h : s.memWf) : KeepsWf (execXor f ty s) := h.logic2

theorem State.memWf.execAndn {f : F} {ty : Ty} {s : State} (h : s.memWf) : KeepsWf (execAndn f ty s) := h.logic2

theorem State.memWf.execNot {f : F} {ty : Ty} {s : State} (h : s.memWf) : KeepsWf (execNot f ty s) := h.simple fun _ => h.eachLane

theorem State.memWf.execShl {f : F} {ty : Ty} {s : State} (h : s.memWf) : KeepsWf (execShl f ty s) := h.shift2

theorem State.memWf.execShr {f : F} {ty : Ty} {s : State} (h : s.memWf) : KeepsWf (execShr f ty s) := h.shift2

theorem State.memWf.execSar {f : F} {ty : Ty} {s : State} (h : s.memWf) : KeepsWf (execSar f ty s) := h.shift2

theorem State.memWf.execRotl {f : F} {ty : Ty} {s : State} (h : s.memWf) : KeepsWf (execRotl f ty s) := h.shift2

theorem State.memWf.execFsh {f : F} {ty : Ty} {s : State} (h : s.memWf) : KeepsWf (execFsh f ty s) := h.simple fun _ => h.eachLane

end Machine
end Sys2Proof
end

section
/-! SUPPORT. The functions of Sys2Proof/Machine/Select.lean keep the canonical form. -/

namespace Sys2Proof
open Machine
namespace Machine

theorem State.memWf.execIcmp {f : F} {ty : Ty} {cond : ICond} {s : State} (h : s.memWf) : KeepsWf (execIcmp f ty cond s) :=
  h.simple fun _ => h.eachLane

theorem State.memWf.execFcmp {f : F} {fmt : Fmt} {cond : FCond} {s : State} (h : s.memWf) : KeepsWf (execFcmp f fmt cond s) :=
  h.simple fun _ => h.perLane

theorem State.memWf.execSel {f : F} {ty : Ty} {s : State} (h : s.memWf) : KeepsWf (execSel f ty s) := h.simple fun _ => h.eachLane

theorem State.memWf.execPlog {f : F} {tt : BitVec 8} {s : State} (h : s.memWf) : KeepsWf (execPlog f tt s) := h.simple fun _ => h.eachLane

theorem State.memWf.execBallot {f : F} {s : State} (h : s.memWf) : KeepsWf (execBallot f s) := h.simple fun _ => h.oneValue

theorem State.memWf.execVote {f : F} {mode : VMode} {s : State} (h : s.memWf) : KeepsWf (execVote f mode s) := h.simple fun _ => h.oneValue

theorem State.memWf.execRfal {f : F} {ty : Ty} {s : State} (h : s.memWf) : KeepsWf (execRfal f ty s) := h.simple fun _ => h.oneValue

theorem State.memWf.execBcast {f : F} {ty : Ty} {lane : BitVec 5} {s : State} (h : s.memWf) : KeepsWf (execBcast f ty lane s) :=
  h.simple fun _ => h.oneValue

theorem State.memWf.execShfl {f : F} {ty : Ty} {mode : ShMode} {s : State} (h : s.memWf) : KeepsWf (execShfl f ty mode s) :=
  h.simple fun _ => h.eachLane

end Machine
end Sys2Proof
end

section
/-! SUPPORT. The functions of Sys2Proof/Machine/Control.lean keep the canonical form. -/

namespace Sys2Proof
open Machine
namespace Machine

theorem State.memWf.transfer {s : State} {act : Mask} {fall : W64} {target : Nat → W64}
    (h : s.memWf) : (s.transfer act fall target).memWf :=
  h.setW

theorem State.memWf.execBr {f : F} {imm : BitVec 21} {s : State} (h : s.memWf) : KeepsWf (execBr f imm s) :=
  h.word fun _ => .moved h.transfer

theorem State.memWf.jumpTo {i : Instr} {f : F} {s : State} (h : s.memWf) : KeepsWf (jumpTo i f s) := by
  unfold Machine.jumpTo
  refine h.word fun act => ?_
  split
  · exact .trap h
  · split
    · exact .trap h
    · exact .moved h.transfer

theorem State.memWf.execJmp {f : F} {s : State} (h : s.memWf) : KeepsWf (execJmp f s) := h.jumpTo

theorem State.memWf.execRet {f : F} {s : State} (h : s.memWf) : KeepsWf (execRet f s) := h.jumpTo

theorem State.memWf.callTo {i : Instr} {d : Opnd} {off : W64} {s : State} (h : s.memWf) : KeepsWf (callTo i d off s) :=
  h.word fun _ => .moved h.oneValue.transfer

theorem State.memWf.execCall {f : F} {imm : BitVec 21} {s : State} (h : s.memWf) : KeepsWf (execCall f imm s) := h.callTo

theorem State.memWf.execBrx {f : F} {n : BitVec 12} {s : State} (h : s.memWf) : KeepsWf (execBrx f n s) := h.word fun _ => .moved h.transfer

theorem State.memWf.execExit {f : F} {s : State} (h : s.memWf) : KeepsWf (execExit f s) := by
  unfold Machine.execExit
  refine h.word fun act => ?_
  split
  · split
    · exact .close
    · split
      · exact .stall h
      · exact .gone (h.setW.killWave.ite h.setW.exitWave)
  · exact .moved ((h.setW.transfer.foldl fun _ _ hu => hu.postOnce).ite h.setW.transfer)

theorem State.memWf.execNop {f : F} {s : State} (h : s.memWf) : KeepsWf (execNop f s) := h.word fun _ => .done h

theorem State.memWf.execMovl {x : X} {s : State} (h : s.memWf) : KeepsWf (execMovl x s) := h.simple fun _ => h.oneValue

theorem State.memWf.execAddX {x : X} {s : State} (h : s.memWf) : KeepsWf (execAddX x s) := h.simple fun _ => h.eachLane

theorem State.memWf.execBrX {x : X} {s : State} (h : s.memWf) : KeepsWf (execBrX x s) := h.word fun _ => .moved h.transfer

theorem State.memWf.execCallX {x : X} {s : State} (h : s.memWf) : KeepsWf (execCallX x s) := h.callTo

theorem State.memWf.slotWrite {s acc : State} {u : Slot} (hacc : acc.memWf) : (s.slotWrite acc u).memWf := hacc.ite hacc.perLane

theorem State.memWf.execPairWord {a b : Slot} {s : State} (h : s.memWf) : KeepsWf (execPairWord a b s) :=
  h.simple fun _ => h.slotWrite.slotWrite

end Machine
end Sys2Proof
end

section
/-! SUPPORT. The functions of Sys2Proof/Machine/Conv.lean keep the canonical form. -/

namespace Sys2Proof
open Machine
namespace Machine

theorem State.memWf.execCvt {f : F} {dfmt sfmt : Fmt} {s : State} (h : s.memWf) : KeepsWf (execCvt f dfmt sfmt s) :=
  h.simple fun _ => h.perLane

theorem State.memWf.execCvtsr {f : F} {dfmt sfmt : Fmt} {s : State} (h : s.memWf) : KeepsWf (execCvtsr f dfmt sfmt s) :=
  h.simple fun _ => h.perLane

theorem State.memWf.execPk {f : F} {dfmt sfmt : Fmt} {s : State} (h : s.memWf) : KeepsWf (execPk f dfmt sfmt s) :=
  h.simple fun _ => h.perLane

theorem State.memWf.execUpk {f : F} {dfmt sfmt : Fmt} {s : State} (h : s.memWf) : KeepsWf (execUpk f dfmt sfmt s) :=
  h.simple fun _ => h.perLane

theorem State.memWf.execRand {f : F} {w32 : Bool} {s : State} (h : s.memWf) : KeepsWf (execRand f w32 s) :=
  h.simple fun _ => h.foldl fun _ _ hu => hu.setOpnd.setW

end Machine
end Sys2Proof
end

section
/-! SUPPORT. The functions of Sys2Proof/Machine/Dispatch.lean keep the canonical form. -/

namespace Sys2Proof
open Machine
namespace Machine

/-- Every word and every event keeps the canonical form. -/
theorem State.memWf.exec {i : Instr} {s : State} (h : s.memWf) : KeepsWf (exec i s) := by
  cases i with
  | add => exact h.execAdd
  | sub => exact h.execSub
  | mul => exact h.execMul
  | mulhi => exact h.execMulhi
  | mad => exact h.execMad
  | min => exact h.execMin
  | max => exact h.execMax
  | abs => exact h.execAbs
  | neg => exact h.execNeg
  | div => exact h.execDiv
  | rem => exact h.execRem
  | lea => exact h.execLea
  | mov => exact h.execMov
  | movi => exact h.execMovi
  | popc => exact h.execPopc
  | clz => exact h.execClz
  | ctz => exact h.execCtz
  | brev => exact h.execBrev
  | bfe => exact h.execBfe
  | bfi => exact h.execBfi
  | bperm => exact h.execBperm
  | ldvr => exact h.execLdvr
  | stvr => exact h.execStvr
  | addc => exact h.execAddc
  | and => exact h.execAnd
  | or => exact h.execOr
  | xor => exact h.execXor
  | andn => exact h.execAndn
  | not => exact h.execNot
  | shl => exact h.execShl
  | shr => exact h.execShr
  | sar => exact h.execSar
  | rotl => exact h.execRotl
  | fsh => exact h.execFsh
  | icmp => exact h.execIcmp
  | fcmp => exact h.execFcmp
  | sel => exact h.execSel
  | plog => exact h.execPlog
  | ballot => exact h.execBallot
  | vote => exact h.execVote
  | rfal => exact h.execRfal
  | bcast => exact h.execBcast
  | shfl => exact h.execShfl
  | fadd => exact h.execFadd
  | fsub => exact h.execFsub
  | fmul => exact h.execFmul
  | ffma => exact h.execFfma
  | fmin => exact h.execFmin
  | fmax => exact h.execFmax
  | fdiv => exact h.execFdiv
  | fsqrt => exact h.execFsqrt
  | frcp => exact h.execFrcp
  | frsq => exact h.execFrsq
  | fexp2 => exact h.execFexp2
  | flog2 => exact h.execFlog2
  | fsin => exact h.execFsin
  | fcos => exact h.execFcos
  | fclass => exact h.execFclass
  | fscale => exact h.execFscale
  | cclr => exact h.execCclr
  | cadd => exact h.execCadd
  | cfma => exact h.execCfma
  | crd => exact h.execCrd
  | cvt => exact h.execCvt
  | cvtsr => exact h.execCvtsr
  | pk => exact h.execPk
  | upk => exact h.execUpk
  | rand => exact h.execRand
  | br => exact h.execBr
  | jmp => exact h.execJmp
  | call => exact h.execCall
  | ret => exact h.execRet
  | brx => exact h.execBrx
  | exit => exact h.execExit
  | nop => exact h.execNop
  | movl => exact h.execMovl
  | addX => exact h.execAddX
  | brX => exact h.execBrX
  | callX => exact h.execCallX
  | ldX => exact h.execLdX
  | stX => exact h.execStX
  | pairWord => exact h.execPairWord
  | ld => exact h.execLd
  | st => exact h.execSt
  | ldn => exact h.execLdn
  | stn => exact h.execStn
  | touch => exact h.execTouch
  | pf => exact h.execPf
  | gth => exact h.execGth
  | sct => exact h.execSct
  | cst => exact h.execCst
  | xld => exact h.execXld
  | cpy => exact h.execCpy
  | tagwait => exact h.execTagwait
  | tagffr => exact h.execTagffr
  | tagclr => exact h.execTagclr
  | atom => exact h.execAtom
  | red => exact h.execRed
  | aord => exact h.execAord
  | afree => exact h.execAfree
  | barv => exact h.execBarv
  | barvInit => exact h.execBarvInit
  | barw => exact h.execBarw
  | barwWait => exact h.execBarwWait
  | fpost => exact h.execFpost
  | fpostInit => exact h.execFpostInit
  | fwait => exact h.execFwait
  | olacq => exact h.execOlacq
  | olacqFree => exact h.execOlacqFree
  | olrel => exact h.execOlrel
  | olrelPass => exact h.execOlrelPass
  | olrelInit => exact h.execOlrelInit
  | olrelFree => exact h.execOlrelFree
  | wreg => exact h.execWreg
  | wunreg => exact h.execWunreg
  | yield => exact h.execYield
  | fence => exact h.execFence
  | sweep => exact h.execSweep
  | qpush => exact h.execQpush
  | qpushInit => exact h.execQpushInit
  | qpop => exact h.execQpop
  | fork => exact h.execFork
  | join => exact h.execJoin
  | vstat => exact h.execVstat
  | launch => exact h.execLaunch
  | cancel => exact h.execCancel
  | lcount => exact h.execLcount
  | migrate => exact h.execMigrate
  | mma => exact h.execMma
  | mz => exact h.execMz
  | mld => exact h.execMld
  | mst => exact h.execMst
  | mtov => exact h.execMtov
  | vtom => exact h.execVtom
  | msync => exact h.execMsync
  | mmas => exact h.execMmas
  | shcom => exact h.execShcom
  | shdis => exact h.execShdis
  | dsetPt => exact h.execDsetPt
  | dsetU => exact h.execDsetU
  | dld => exact h.execDld
  | dst => exact h.execDst
  | dadd => exact h.execDadd
  | dsub => exact h.execDsub
  | dmul => exact h.execDmul
  | ddiv => exact h.execDdiv
  | daff => exact h.execDaff
  | dmin => exact h.execDmin
  | dmax => exact h.execDmax
  | dmap => exact h.execDmap
  | dmom => exact h.execDmom
  | dqnt => exact h.execDqnt
  | dtagNew => exact h.execDtagNew
  | dtagSet => exact h.execDtagSet
  | dtagGet => exact h.execDtagGet
  | dmix => exact h.execDmix
  | dsamp => exact h.execDsamp
  | xroute => exact h.execXroute
  | xrel => exact h.execXrel
  | xcnt => exact h.execXcnt
  | xver => exact h.execXver
  | trap => exact h.execTrap
  | tret => exact h.execTret
  | rsr => exact h.execRsr
  | wsr => exact h.execWsr
  | ienter => exact h.execIenter
  | brk => exact h.execBrk
  | cachectl => exact h.execCachectl
  | parkedGroupRejoin => exact h.execParkedGroupRejoin
  | engineLand => exact h.execEngineLand
  | roundRequestArrive => exact h.execRoundRequestArrive
  | memoryReply => exact h.execMemoryReply
  | gateAdmit => exact h.execGateAdmit
  | replayLogIndex => exact h.execReplayLogIndex
  | sweepProbeReturn => exact h.execSweepProbeReturn
  | instanceEnd => exact h.execInstanceEnd
  | waveEndAfterLaunches => exact h.execWaveEndAfterLaunches
  | launchStart => exact h.execLaunchStart
  | stepBoundary => exact h.execStepBoundary
  | blockPlace => exact h.execBlockPlace
  | splitChange => exact h.execSplitChange
  | inheritanceSave => exact h.execInheritanceSave
  | packageCycleDetect => exact h.execPackageCycleDetect
  | priorityPropagate => exact h.execPriorityPropagate
  | stallWatchdogExpiry => exact h.execStallWatchdogExpiry
  | pipelinePressureInterval => exact h.execPipelinePressureInterval
  | tow => exact h.execTow
  | towForwardRemove => exact h.execTowForwardRemove
  | tokenBucketRefill => exact h.execTokenBucketRefill
  | pendingTrapTake => exact h.execPendingTrapTake
  | strikeReport => exact h.execStrikeReport
  | regionRelease => exact h.execRegionRelease
  | pinWindowExpiry => exact h.execPinWindowExpiry
  | forkReexecute => exact h.execForkReexecute
  | sectorPoison => exact h.execSectorPoison
  | errorRecordPlace => exact h.execErrorRecordPlace
  | linkFlitResend => exact h.execLinkFlitResend
  | faultRecordAppend => exact h.execFaultRecordAppend
  | frespSupply => exact h.execFrespSupply
  | frespNr => exact h.execFrespNr
  | inval => exact h.execInval
  | invalComplete => exact h.execInvalComplete
  | migcmd => exact h.execMigcmd
  | migrationDone => exact h.execMigrationDone
  | preempt => exact h.execPreempt
  | drainLimitExpiry => exact h.execDrainLimitExpiry
  | blockSave => exact h.execBlockSave
  | blockRestore => exact h.execBlockRestore
  | kill => exact h.execKill
  | debugStateAccess => exact h.execDebugStateAccess
  | debugResume => exact h.execDebugResume
  | rcfgWrite => exact h.execRcfgWrite
  | prodWrite => exact h.execProdWrite
  | packetIntake => exact h.execPacketIntake
  | hcancel1 => exact h.execHcancel1
  | functionLevelResetVf => exact h.execFunctionLevelResetVf
  | functionLevelResetPf => exact h.execFunctionLevelResetPf
  | coldStart => exact h.execColdStart
  | recoveryLoad => exact h.execRecoveryLoad
  | configRequest => exact h.execConfigRequest
  | unsupportedRequest => exact h.execUnsupportedRequest
  | hostApertureAccess => exact h.execHostApertureAccess
  | spdmGetMeasurements => exact h.execSpdmGetMeasurements
  | spdmGetCertificate => exact h.execSpdmGetCertificate
  | spdmChallenge => exact h.execSpdmChallenge
  | spdmKeyExchange => exact h.execSpdmKeyExchange
  | mbRaiseMinSvn => exact h.execMbRaiseMinSvn
  | mbReportMinSvn => exact h.execMbReportMinSvn
  | mbReservedCommand => exact h.execMbReservedCommand
  | mtload => exact h.execMtload
  | samplingInterval => exact h.execSamplingInterval
  | versionSwitchCopyDone => exact h.execVersionSwitchCopyDone
  | slotWritten => exact h.execSlotWritten
  | graceExpiry => exact h.execGraceExpiry
  | switchAbandon => exact h.execSwitchAbandon
  | decodeWindowWrite => exact h.execDecodeWindowWrite
  | reductionPartialCombine => exact h.execReductionPartialCombine
  | checkpointSave => exact h.execCheckpointSave
  | checkpointSaveDone => exact h.execCheckpointSaveDone
  | checkpointRestore => exact h.execCheckpointRestore
  | errorBankClear => exact h.execErrorBankClear
  | errsumRead => exact h.execErrsumRead
  | xpstatRead => exact h.execXpstatRead
  | registerWrite => exact h.execRegisterWrite
  | engineSourceRead => exact h.execEngineSourceRead
  | powerOff => exact h.execPowerOff
  | killCompletion => exact h.execKillCompletion
  | checkpointRestoreDone => exact h.execCheckpointRestoreDone
  | reserveStreamAccept => exact h.execReserveStreamAccept
  | spdmVersionNegotiation => exact h.execSpdmVersionNegotiation
  | ideKmKeyProgramming => exact h.execIdeKmKeyProgramming

end Machine
end Sys2Proof
end

section
/-! SUPPORT. The functions of Sys2Proof/Machine/Turn.lean keep the canonical form. -/

namespace Sys2Proof
open Machine
namespace Machine

theorem State.memWf.turn {s : State} (h : s.memWf) : KeepsWf s.turn := by
  unfold State.turn
  split
  · exact .next h
  · split
    · exact h.exec
    · split
      · split
        · exact .next h
        · exact h.exec
      · dsimp only
        split
        · exact .next h.beside
        · exact .next h.beside.joinFault
        · exact .next h.beside.trapRun
        · exact .next h.beside.poisonBlock
        · split
          · exact .next h.beside.trapWord
          · exact h.beside.exec

theorem KeepsWf.finish {o : Host.Outcome State Fault Refusal} (h : KeepsWf o) : KeepsWf (finish o) := by
  cases h with
  | next h => exact .next (State.tick_memWf _ h)
  | fault => exact .fault
  | refused => exact .refused

theorem KeepsWf.finishEvent {o : Host.Outcome State Fault Refusal} (h : KeepsWf o) : KeepsWf (finishEvent o) := by
  cases h with
  | next h => exact .next (State.tickEvent_memWf _ h)
  | fault => exact .fault
  | refused => exact .refused

end Machine
end Sys2Proof
end

section
/-! SUPPORT. The functions of Sys2Proof/Machine/Step.lean keep the canonical form. -/

namespace Sys2Proof
open Machine
namespace Machine

/-- One step keeps the canonical form, whichever agent moves. -/
theorem State.memWf.step {s : State} (h : s.memWf) : KeepsWf (step s) := by
  unfold Machine.step
  split
  · split
    · split
      · exact h.turn.finish
      · exact h.beside.exec.finishEvent
    · exact h.turn.finish
  · dsimp only
    split
    · exact h.beside.exec.finishEvent
    · split
      · exact h.beside.load.turn.finish
      · exact (KeepsWf.next h.beside).finishEvent

/-- Settles O53: each operation of the model that hands on a state keeps the canonical form, and a step is made of such operations. -/
theorem memoryStaysCanonical : Obligations.MemoryStaysCanonical :=
  fun _ _ h e => h.step.ofNext e

end Machine
end Sys2Proof
end

section
/-! SUPPORT. The model's counters and the passing of turns (R28, log entries 6 and 7): what the end of a step leaves as it was. -/

namespace Sys2Proof
open Machine
namespace Machine

/-- Updating a wave changes nothing but waves. -/
theorem State.updWave_frame (s : State) (k : Nat) (f : Wave → Wave) :
    s.updWave k f = { s with w := (s.updWave k f).w, waves := (s.updWave k f).waves } := by
  unfold State.updWave State.setWave
  split <;> rfl

/-- What passing the turn on changes: which wave is checked out, and the schedulers' places. -/
def State.TurnPassed (s t : State) : Prop :=
  t = { s with w := t.w, b := t.b, run := t.run, waves := t.waves, blocks := t.blocks, rr := t.rr, rrAt := t.rrAt }

theorem State.TurnPassed.refl (s : State) : s.TurnPassed s := rfl

theorem State.TurnPassed.trans {s t u : State} (h : s.TurnPassed t) (g : t.TurnPassed u) : s.TurnPassed u := by
  unfold State.TurnPassed at *
  rw [g, h]

theorem State.TurnPassed.updWave (s : State) (k : Nat) (f : Wave → Wave) : s.TurnPassed (s.updWave k f) := by
  unfold State.TurnPassed
  rw [s.updWave_frame k f]

theorem State.TurnPassed.serve (s : State) (q : Nat) (order : List Turn) : s.TurnPassed (s.serve q order) := by
  have hpass : ∀ (ts : List Turn) (u : State), u.TurnPassed (ts.foldl (fun s t => s.updWave t.key fun w => { w with yielded := false }) u) := by
    intro ts
    induction ts with
    | nil => exact State.TurnPassed.refl
    | cons t ts ih => exact fun u => (State.TurnPassed.updWave u _ _).trans (ih _)
  unfold State.serve
  dsimp only
  split
  · exact hpass _ s
  · exact (hpass _ s).trans rfl

theorem State.TurnPassed.rotate (s : State) : s.TurnPassed s.rotate := by
  unfold State.rotate
  split
  · exact .refl s
  · dsimp only
    split
    · exact .refl s
    · exact State.TurnPassed.trans (t := s.stow) rfl (.serve _ _ _)

/-- With no other wave there is no turn to pass on. -/
theorem State.rotate_alone (s : State) (h : s.waves = []) : s.rotate = s := by
  unfold State.rotate
  rw [h]

/-! ### Fetching (R165, R367 to R371) -/

theorem leNat_lt (bs : List Byte) : leNat bs < 256 ^ bs.length := by
  induction bs with
  | nil => simp [leNat]
  | cons b bs ih =>
    have hb := b.isLt
    simp only [leNat, List.length_cons, pow_succ]
    omega

theorem foldr_eq_leNat (bs : List Byte) : bs.foldr (fun b acc => b.toNat + 256 * acc) 0 = leNat bs := by
  induction bs with
  | nil => rfl
  | cons b bs ih => rw [List.foldr_cons, ih, leNat]

theorem State.viewBytes_length (s : State) (va pa n : Nat) : (s.viewBytes va pa n).length = n := by
  induction n generalizing va pa with
  | zero => rfl
  | succ n ih => simp [State.viewBytes, ih]

/-- The word of eight bytes of a view is the number that a load of them reads. -/
theorem State.wordOfBytes_view (s : State) (va pa : Nat) : (wordOfBytes (s.viewBytes va pa 8)).toNat = s.readPlace (.view va pa) 8 := by
  have h := leNat_lt (s.viewBytes va pa 8)
  rw [s.viewBytes_length] at h
  unfold wordOfBytes
  rw [foldr_eq_leNat, BitVec.toNat_ofNat]
  exact Nat.mod_eq_of_lt h

end Machine
end Sys2Proof
end

section
/-! SUPPORT. What a step does (R20, R28, R371, R378): the turn of the wave that is checked out, by what its fetch finds. -/

namespace Sys2Proof
open Machine
namespace Machine

/-- The state in which a wave's turn fetches: its head run chosen, a burst begun or over (R20, R22). -/
abbrev State.issuing (s : State) (pc : W64) (promoted : Bool) : State :=
  { s with run := s.w.runAt pc, w := if promoted then { s.w with promo := pc, burst := 8 } else s.dropBurst.w }

/-- A wave takes its turn: it runs, nothing stops it, and its head run is chosen. -/
structure State.TakesTurn (s : State) (pc : W64) (promoted : Bool) : Prop where
  running : s.w.st = .running
  going : s.w.halted = false
  here : s.w.fwait = none
  calm : s.w.pend = []
  head : s.headRun = some (pc, promoted)

/-- What a turn does with what its fetch finds (R165, R371, R378, R401). -/
def State.actOn (u : State) (pc : W64) : FetchR → Host.Outcome State Fault Refusal
  | .stall => .next u
  | .miss => .next (u.joinFault pc 2 (.of 0x12 (BitVec.ofNat 64 (lowLane u.run)) pc))
  | .bad c => .next (u.trapRun u.run (.of c (BitVec.ofNat 64 (lowLane u.run)) pc))
  | .poison pa => .next (u.poisonBlock u.w.blk pa)
  | .word x => match decode x with
    | none => .next (u.trapWord u.run (.of 1 x pc))
    | some i => exec i u

theorem State.TakesTurn.turn_eq {s : State} {pc : W64} {promoted : Bool} (h : s.TakesTurn pc promoted) :
    s.turn = (s.issuing pc promoted).actOn pc ((s.issuing pc promoted).fetch pc) := by
  have hgoes : ¬ (decide (s.w.st ≠ .running) || s.w.halted || s.w.fwait.isSome) = true := by
    rw [h.running, h.going, h.here]; decide
  unfold State.turn
  rw [if_neg hgoes, if_neg (not_not.mpr h.calm)]
  simp only [h.head]
  rfl

theorem State.actOn_word (u : State) (pc : W64) {x : W64} {i : Instr} (hd : decode x = some i) : u.actOn pc (.word x) = exec i u := by
  simp only [State.actOn, hd]

theorem State.actOn_illegal (u : State) (pc : W64) {x : W64} (hd : decode x = none) :
    u.actOn pc (.word x) = .next (u.trapWord u.run (.of 1 x pc)) := by
  simp only [State.actOn, hd]

/-- With no event to serve, or on the wave's turn, a step is the wave's. -/
theorem step_turn {s : State} (hs : s.sched = []) (hi : s.inbox = [] ∨ s.fairTurn = true) : step s = finish s.turn := by
  unfold step
  simp only [hs]
  rcases hi with hi | hi
  · simp only [hi]
  · split
    · rw [if_pos hi]
    · rfl

/-- A pending event is executed unless the step is the wave's. -/
theorem step_event {s : State} {e : Instr} {es : List Instr} (hs : s.sched = []) (hi : s.inbox = e :: es) (hf : s.fairTurn = false) :
    step s = finishEvent (exec e { s with inbox := es }) := by
  unfold step
  simp only [hs, hi, hf, Bool.false_eq_true, if_false]

/-! ### What a fetch finds -/

section
variable {s : State} {pc : W64}

/-- A fetch of an aligned PC below 2^56 whose page is not being migrated goes by the translation. -/
theorem State.fetch_leaf {l : Leaf} (ha : pc.toNat % 8 = 0) (hi : pc.toNat < 2 ^ 56) (hm : s.migrating s.b.ctx pc.toNat = false)
    (hw : s.walk s.b.ctx pc.toNat = .leaf l) :
    s.fetch pc = if l.cls = .view ∧ l.x = true then
        (if s.readsPoison (.view pc.toNat (l.paOf pc.toNat)) 8 = true then .poison (l.paOf pc.toNat)
          else .word (wordOfBytes (s.viewBytes pc.toNat (l.paOf pc.toNat) 8)))
      else .bad 5 := by
  unfold State.fetch
  rw [if_neg (by omega), if_neg (by omega), hm]
  simp only [hw, Bool.false_eq_true, if_false, Bool.and_eq_true, beq_iff_eq]

end

/-- R20, R28, R369, R371: every outcome of a fetch. -/
theorem fetch_outcomes (s : State) (pc : W64) :
    let inside := pc.toNat < 2 ^ 56
    (pc.toNat % 8 ≠ 0 → s.fetch pc = .bad 4) ∧
    (pc.toNat % 8 = 0 → ¬ inside → s.fetch pc = .bad 5) ∧
    (pc.toNat % 8 = 0 → inside → s.migrating s.b.ctx pc.toNat = true → s.fetch pc = .stall) ∧
    (pc.toNat % 8 = 0 → inside → s.migrating s.b.ctx pc.toNat = false →
      (s.walk s.b.ctx pc.toNat = .missing → s.fetch pc = .miss) ∧
      (s.walk s.b.ctx pc.toNat = .malformed → s.fetch pc = .bad 0x12) ∧
      ∀ l, s.walk s.b.ctx pc.toNat = .leaf l →
        let p : Place := .view pc.toNat (l.paOf pc.toNat)
        (¬ (l.cls = .view ∧ l.x = true) → s.fetch pc = .bad 5) ∧
        (l.cls = .view → l.x = true → s.readsPoison p 8 = false → ∃ x, s.fetch pc = .word x ∧ x.toNat = s.readPlace p 8) ∧
        (l.cls = .view → l.x = true → s.readsPoison p 8 = true → s.fetch pc = .poison (l.paOf pc.toNat))) := by
  refine ⟨fun ha => ?_, fun ha hi => ?_, fun ha hi hm => ?_, fun ha hi hm => ⟨fun hw => ?_, fun hw => ?_, fun l hw => ?_⟩⟩
  · unfold State.fetch
    rw [if_pos ha]
  · unfold State.fetch
    rw [if_neg (not_not.mpr ha), if_pos (Nat.le_of_not_lt hi)]
  · unfold State.fetch
    rw [if_neg (not_not.mpr ha), if_neg (Nat.not_le.mpr hi), if_pos hm]
  · unfold State.fetch
    rw [if_neg (not_not.mpr ha), if_neg (Nat.not_le.mpr hi), hm]
    simp only [hw, Bool.false_eq_true, if_false]
  · unfold State.fetch
    rw [if_neg (not_not.mpr ha), if_neg (Nat.not_le.mpr hi), hm]
    simp only [hw, Bool.false_eq_true, if_false]
  · have hf := State.fetch_leaf ha hi hm hw
    refine ⟨fun hx => ?_, fun hc hx hp => ⟨_, ?_, s.wordOfBytes_view pc.toNat (l.paOf pc.toNat)⟩, fun hc hx hp => ?_⟩
    · rw [hf, if_neg hx]
    · rw [hf, if_pos ⟨hc, hx⟩, hp, if_neg Bool.false_ne_true]
    · rw [hf, if_pos ⟨hc, hx⟩, if_pos hp]

/-! ### The obligation -/

/-- A burst whose run is held is over; else it stands (R22). -/
theorem State.dropBurst_eq (s : State) : s.dropBurst = { s with w := { s.w with burst := if s.held s.w.promo then 0 else s.w.burst } } := by
  unfold State.dropBurst
  by_cases hb : s.w.burst = 0
  · simp only [hb, bne_self_eq_false, Bool.false_and, Bool.false_eq_true, if_false, ite_self]
    rw [← hb]
  · cases hh : s.held s.w.promo
    · simp
    · simp [hb, State.setW]

/-- Settles O50: the turn of a wave goes by what its fetch finds; passing the turn on changes neither memories nor the counters. -/
theorem stepRuns : Obligations.StepRuns := by
  unfold Obligations.StepRuns
  refine ⟨?_, fetch_outcomes, fun s e es hs hi hf => step_event hs hi hf, ?_, State.dropBurst_eq, ?_⟩
  · intro s pc promoted hs hi hr hh hf hp hd u low
    have ht : s.TakesTurn pc promoted := ⟨hr, hh, hf, hp, hd⟩
    have hstep : step s = finish (u.actOn pc (u.fetch pc)) := (step_turn hs hi).trans (congrArg finish ht.turn_eq)
    refine ⟨fun x i hx hi => ?_, fun x hx hi => ?_, fun c hx => ?_, fun hx => ?_, fun hx => ?_, fun pa hx => ?_⟩
    · rw [hstep, hx, State.actOn_word _ _ hi]
    · rw [hstep, hx, State.actOn_illegal _ _ hi]; rfl
    all_goals rw [hstep, hx]; rfl
  · refine fun t x => ⟨rfl, rfl, rfl, fun hr => ?_⟩
    unfold State.tickEvent
    rw [if_pos hr]
  · intro s
    have h := State.TurnPassed.rotate s
    unfold State.TurnPassed at h
    refine ⟨?_, ?_, ?_, ?_, ?_, fun hw => ?_⟩
    · show s.rotate.free + 1 = s.free + 1
      rw [h]
    · show s.rotate.cycle + 1 = s.cycle + 1
      rw [h]
    · show s.rotate.mem = s.mem
      rw [h]
    · show s.rotate.hmem = s.hmem
      rw [h]
    · show s.rotate.dsm = s.dsm
      rw [h]
    · unfold State.tick
      rw [s.rotate_alone hw]

end Machine
end Sys2Proof
end

section
/-! SUPPORT. Copy tags (R229): the bits of a 64-bit mask of tags, and the lowest of them. -/

namespace Sys2Proof
open Machine
namespace Machine

/-- The mask of one tag. -/
theorem tagBit_getLsbD (t k : Nat) (hk : k < 64) : (BitVec.ofNat 64 (2 ^ t)).getLsbD k = decide (k = t) := by
  rw [BitVec.getLsbD_ofNat, decide_eq_true hk, Bool.true_and, Nat.testBit_two_pow, decide_eq_decide]
  exact eq_comm

/-- The lowest set bit is set and no bit below it is; without a set bit it is 64. -/
theorem lowBit_spec (x : W64) :
    (x = 0 → lowBit x = 64) ∧ (x ≠ 0 → x.getLsbD (lowBit x) = true ∧ ∀ k < lowBit x, x.getLsbD k = false) := by
  unfold lowBit
  refine ⟨fun h => ?_, fun h => ?_⟩
  · subst h
    have hnone : (List.range 64).find? (fun k => (0 : W64).getLsbD k) = none := List.find?_eq_none.2 fun k _ => by simp
    rw [hnone, Option.getD_none]
  · cases hf : (List.range 64).find? fun k => x.getLsbD k with
    | none =>
      refine absurd (BitVec.eq_of_getLsbD_eq fun k hk => ?_) h
      have := List.find?_eq_none.1 hf k (List.mem_range.2 hk)
      simpa using this
    | some k =>
      obtain ⟨hk, _, hlow⟩ := List.find?_range_eq_some.1 hf
      exact ⟨hk, fun j hj => by simpa using hlow j hj⟩

/-- The mask of the tags of a list that a condition selects. -/
theorem tagFold_getLsbD (p : Nat → Prop) [DecidablePred p] (ts : List Nat) (x : W64) (k : Nat) (hk : k < 64) :
    (ts.foldl (fun x t => if p t then x ||| BitVec.ofNat 64 (2 ^ t) else x) x).getLsbD k = (x.getLsbD k || decide (k ∈ ts ∧ p k)) := by
  induction ts generalizing x with
  | nil => simp
  | cons t ts ih =>
    rw [List.foldl_cons, ih]
    by_cases hp : p t
    · rw [if_pos hp, BitVec.getLsbD_or, tagBit_getLsbD t k hk]
      by_cases e : k = t
      · subst e; simp [hp]
      · simp [e]
    · rw [if_neg hp]
      by_cases e : k = t
      · subst e; simp [hp]
      · simp [e]

theorem State.orFlags_zero (s : State) : s.orFlags 0 = s := by simp [State.orFlags, Wave.orFlags]

/-- Results without flags through `zero` change nothing. -/
theorem State.eachLane_zero (s : State) (act : Mask) (n : Nat) (f : Nat → Nat) : s.eachLane act .zero n f = s := by
  have hfix : ∀ ls : List Nat, ls.foldl (fun t l => (t.setOpnd .zero n l (f l)).orFlags 0) s = s := by
    intro ls
    induction ls with
    | nil => rfl
    | cons l ls ih => rw [List.foldl_cons, State.orFlags_zero]; exact ih
  exact hfix _

/-- One result without flags through a scalar register. -/
theorem State.eachLane_s (s : State) (act : Mask) (r : BitVec 6) (n x : Nat) :
    s.eachLane act (.s r) n (fun _ => x) = s.setOpnd (.s r) n 0 x := State.orFlags_zero _

/-! ### Words by what their effect answers -/

/-- A word whose effect is complete retires. -/
theorem word_done (i : Instr) (s : State) (body : Mask → State → Res) {t : State} (hI : s.Issues i) (ha : s.active i ≠ 0)
    (hb : body (s.active i) s = .done t) : word i s body = .next (s.finishes t i true) := by
  rw [word_effect i s body hI (.inl ha), hb]
  rfl

/-- A word whose effect has moved the lanes retires where they stand. -/
theorem word_moved (i : Instr) (s : State) (body : Mask → State → Res) {t : State} (hI : s.Issues i) (ha : s.active i ≠ 0)
    (hb : body (s.active i) s = .moved t) : word i s body = .next (s.finishes t i false) := by
  rw [word_effect i s body hI (.inl ha), hb]
  rfl

/-- A word that only changes the block leaves what the issue event leaves, with that block. -/
theorem finishes_setB (s : State) (i : Instr) (b : Block) : s.finishes (s.setB b) i true = (s.advanced i).setB b :=
  settleCharge_view s (s.setB b) _ rfl

/-! ### The obligation -/

/-- `tagffr` writes the lowest bit of its mask. -/
theorem tagffr_gives (s : State) (f : F) (hd : f.d = .zero ∨ ∃ r, f.d = .s r) :
    s.Gives (.tagffr f) f.d 1 fun _ => lowBit (s.b.tagready &&& if f.a = .zero then BitVec.allOnes 64 else s.opnd64 f.a 0) := by
  refine computes_perLane _ _ _ _ _ ?_
  show execTagffr f s = _
  unfold execTagffr
  refine congrArg (simple (.tagffr f) s) (funext fun act => ?_)
  rcases hd with hd | ⟨r, hd⟩
  · rw [hd]
    exact (s.eachLane_zero act 1 _).symm
  · rw [hd]
    exact (s.eachLane_s act r 1 _).symm

/-- The idle tags of a `tagclr` lose their ready bits. -/
theorem tagclr_bits (ready m : W64) (inflight : Nat → Nat) (k : Nat) (hk : k < 64) :
    (ready &&& ~~~(m &&& (List.range 64).foldl (fun x t => if inflight t = 0 then x ||| BitVec.ofNat 64 (2 ^ t) else x) (0 : W64))).getLsbD k =
      (ready.getLsbD k && !(m.getLsbD k && inflight k == 0)) := by
  rw [BitVec.getLsbD_and, BitVec.getLsbD_not, BitVec.getLsbD_and, tagFold_getLsbD (fun t => inflight t = 0) _ _ k hk]
  simp [hk, beq_eq_decide]

/-- Settles O24: each tag word's effect in the frame of an issue event. -/
theorem copyTags : Obligations.CopyTags := by
  unfold Obligations.CopyTags
  refine fun s f imm any => ⟨fun hI ha => ?_, fun hd => ⟨_, tagffr_gives s f hd, lowBit_spec _⟩, fun hI ha => ?_⟩
  · show execTagwait f any imm s = _
    refine word_moved _ s _ hI ha ?_
    simp only [Bool.and_eq_true, bne_iff_ne]
  · refine ⟨_, ?_, tagclr_bits s.b.tagready (s.tagMask f.a imm) fun t => SMap.get s.b.inflight 0 t⟩
    rw [← finishes_setB]
    show execTagclr f imm s = _
    unfold execTagclr simple
    refine word_done _ s _ hI ha ?_
    rfl

end Machine
end Sys2Proof
end

section
/-! SUPPORT. What the wait-for table's upkeep leaves as it was (R111 to R117): grants, entries, priorities and withdrawals
change waves, blocks, the table, the gate and the inbox, and neither memory nor what a wave's view or a block's scratchpad holds. -/

namespace Sys2Proof
open Machine
namespace Machine

/-- `t` is `s` after upkeep of the wait-for table. -/
structure State.Upkeep (s t : State) : Prop where
  rest : t = { s with w := t.w, b := t.b, waves := t.waves, blocks := t.blocks, wft := t.wft, gate := t.gate, pf := t.pf, inbox := t.inbox }
  view : t.w.view = s.w.view
  sc : t.b.sc = s.b.sc

theorem State.Upkeep.refl (s : State) : s.Upkeep s := ⟨rfl, rfl, rfl⟩

theorem State.Upkeep.trans {s t u : State} (h : s.Upkeep t) (g : t.Upkeep u) : s.Upkeep u :=
  ⟨by rw [g.rest, h.rest], g.view.trans h.view, g.sc.trans h.sc⟩

theorem State.Upkeep.foldl {α : Type} {f : State → α → State} (hf : ∀ (s : State) x, s.Upkeep (f s x)) (xs : List α) (s : State) :
    s.Upkeep (xs.foldl f s) := by
  induction xs generalizing s with
  | nil => exact .refl s
  | cons x xs ih => exact (hf s x).trans (ih _)

theorem State.Upkeep.updWave (s : State) (k : Nat) (f : Wave → Wave) (hf : ∀ w, (f w).view = w.view) : s.Upkeep (s.updWave k f) := by
  unfold State.updWave State.setWave State.wave
  split
  · exact ⟨rfl, hf _, rfl⟩
  · exact ⟨rfl, rfl, rfl⟩

theorem State.Upkeep.updBlock (s : State) (h : Nat) (f : Block → Block) (hf : ∀ b, (f b).sc = b.sc) : s.Upkeep (s.updBlock h f) := by
  unfold State.updBlock State.setBlock State.block
  split
  · exact ⟨rfl, rfl, hf _⟩
  · exact ⟨rfl, rfl, rfl⟩

theorem State.Upkeep.propagate (p : WaitEnt → WaitEnt → Bool) (n : Nat) (s : State) : s.Upkeep (s.propagate p n) := by
  induction n with
  | zero => exact .refl s
  | succ n ih =>
    refine ih.trans (.foldl (fun u q => ?_) _ _)
    dsimp only
    split
    · exact .updBlock u q.2 _ fun _ => rfl
    · exact .refl u

theorem State.Upkeep.setWft (s : State) (es : List WaitEnt) : s.Upkeep { s with wft := es } := ⟨rfl, rfl, rfl⟩
theorem State.Upkeep.setGate (s : State) (qs : List Req) : s.Upkeep { s with gate := qs } := ⟨rfl, rfl, rfl⟩
theorem State.Upkeep.postOnce (s : State) (e : Instr) : s.Upkeep (s.postOnce e) := ⟨rfl, rfl, rfl⟩
theorem State.Upkeep.setPf (s : State) (off : Nat) (x : W64) : s.Upkeep (s.setPf off x) := ⟨rfl, rfl, rfl⟩

theorem State.Upkeep.dropEnts (s : State) (p : WaitEnt → Bool) : s.Upkeep (s.dropEnts p) := by
  unfold State.dropEnts
  split
  · have hprio (u : State) (e : Nat × W32) : u.Upkeep (u.updBlock e.1 fun b => { b with prio := e.2 }) := .updBlock u _ _ fun _ => rfl
    exact .trans (.trans (.setWft s _) (.foldl hprio _ _)) (.propagate _ _ _)
  · exact .refl s

theorem State.Upkeep.dropAcquires (s : State) (p : Req → Bool) : s.Upkeep (s.dropAcquires p) := by
  unfold State.dropAcquires
  dsimp only
  split
  · have hwake (u : State) (q : Req) : u.Upkeep (if q.lock then u.postOnce (.gateAdmit q.id) else u) := by
      split
      · exact .postOnce u _
      · exact .refl u
    exact .trans (.setGate s _) (.foldl hwake _ _)
  · exact .refl s

theorem State.Upkeep.raiseDeadlock (s : State) (c : List (Nat × WaitEnt)) (pkg : Bool) : s.Upkeep (s.raiseDeadlock c pkg) := by
  unfold State.raiseDeadlock
  split
  · exact .refl s
  · refine State.Upkeep.trans (.trans (.updWave s _ _ ?_) (.dropAcquires _ _)) (.dropEnts _ _)
    exact fun _ => rfl

theorem State.Upkeep.addEnt (s : State) (e : WaitEnt) : s.Upkeep (s.addEnt e).1 := by
  unfold State.addEnt
  split
  · exact .refl s
  · split
    · exact .setPf s _ _
    · have hadd : s.Upkeep (State.propagate { s with wft := s.wft ++ [e] } sameDie 16) :=
        .trans (.setWft s _) (.propagate _ _ _)
      dsimp only
      split
      · dsimp only
        exact hadd.trans (.raiseDeadlock _ _ _)
      · dsimp only
        exact hadd

theorem State.Upkeep.grant (s : State) (k loc : Nat) (free : Bool) (va : W64) (p : Nat) : s.Upkeep (s.grant k loc free va p) :=
  .trans (.updWave s k (fun w => { w with grants := w.grants ++ [(loc, free)] }) fun _ => rfl) (.addEnt _ _)

theorem State.Upkeep.ungrant (s : State) (k loc : Nat) (free : Bool) : s.Upkeep (s.ungrant k loc free) :=
  .trans (.updWave s k (fun w => { w with grants := w.grants.erase (loc, free) }) fun _ => rfl) (.dropEnts _ _)

theorem State.Upkeep.satisfy (s : State) (k : Nat) (r : WaitR) (res : List W32) : s.Upkeep (s.satisfy k r res).1 := by
  unfold State.satisfy
  dsimp only
  split
  · exact .dropEnts s _
  · exact .refl s

/-- Upkeep changes no byte that a word may write. -/
theorem State.Upkeep.peek {s t : State} (h : s.Upkeep t) (c : MemCell) : t.peek c = s.peek c := by
  have hm : t.mem = s.mem := by rw [h.rest]
  have hh : t.hmem = s.hmem := by rw [h.rest]
  have hd : t.dsm = s.dsm := by rw [h.rest]
  cases c <;> simp only [State.peek, hm, hh, hd, h.view, h.sc]

/-- Upkeep changes no object's line. -/
theorem State.Upkeep.loc {s t : State} (h : s.Upkeep t) (loc n : Nat) : t.loc loc n = s.loc loc n := by
  have hm : t.mem = s.mem := by rw [h.rest]
  have hd : t.dsm = s.dsm := by rw [h.rest]
  simp only [State.loc, hm, hd]

end Machine
end Sys2Proof
end

section
/-! SUPPORT. The fields of an object's line (Tables 23 to 25): what a field reads after a write to it and after a write to
another, and which bytes a write leaves. -/

namespace Sys2Proof
open Machine
namespace Machine

/-- A number read back from bytes that hold it modulo their size. -/
theorem leNat_leBytes_mod (n x : Nat) : leNat (leBytes n x) = x % 256 ^ n := by
  induction n generalizing x with
  | zero => simp [leBytes, leNat, Nat.mod_one]
  | succ n ih => rw [leBytes, leNat, ih, BitVec.toNat_ofNat, show 256 ^ (n + 1) = 256 * 256 ^ n from pow_succ' 256 n, Nat.mod_mul]

theorem Memory.num_setNum_mod (m : Memory) (a n x : Nat) : Memory.num (Memory.setNum m a n x) a n = x % 256 ^ n := by
  have e := Memory.bytes_setBytes m a (leBytes n x)
  rw [leBytes_length] at e
  rw [Memory.num, Memory.setNum, e, leNat_leBytes_mod]

/-- Bytes apart from those written stand. -/
theorem Memory.bytes_setBytes_apart (m : Memory) (a b n : Nat) (bs : List Byte) (h : a + n ≤ b ∨ b + bs.length ≤ a) :
    Memory.bytes (Memory.setBytes m b bs) a n = Memory.bytes m a n := by
  induction n generalizing a with
  | zero => rfl
  | succ n ih => rw [Memory.bytes, Memory.bytes, Memory.byte_setBytes_outside m b a bs (by omega), ih (a + 1) (by omega)]

/-- A number apart from the one written stands. -/
theorem Memory.num_setNum_apart (m : Memory) (a b n k x : Nat) (h : a + n ≤ b ∨ b + k ≤ a) :
    Memory.num (Memory.setNum m b k x) a n = Memory.num m a n := by
  rw [Memory.num, Memory.setNum, Memory.bytes_setBytes_apart m a b n _ (by rwa [leBytes_length]), Memory.num]

theorem Memory.num_lt (m : Memory) (a n : Nat) : Memory.num m a n < 256 ^ n := by
  have h := leNat_lt (Memory.bytes m a n)
  rwa [Memory.bytes_length] at h

theorem State.loc_lt (s : State) (loc n : Nat) : s.loc loc n < 256 ^ n := by
  unfold State.loc
  split <;> exact Memory.num_lt _ _ _

/-- The memory that holds a location. -/
def State.objMem (s : State) (loc : Nat) : Memory := if isDm loc then s.dsm else s.mem
/-- The address of a location in that memory. -/
def objBase (loc : Nat) : Nat := if isDm loc then loc - 2 ^ 53 else loc

/-- A line lies in one memory. -/
theorem isDm_add {loc j : Nat} (ha : loc % 64 = 0) (hj : j < 64) : isDm (loc + j) = isDm loc := by
  simp only [isDm, Bool.and_eq_decide, decide_eq_decide, decide_eq_true_eq]
  omega

theorem objBase_add {loc j : Nat} (ha : loc % 64 = 0) (hj : j < 64) : objBase (loc + j) = objBase loc + j := by
  unfold objBase
  rw [isDm_add ha hj]
  split
  · next h =>
    simp only [isDm, Bool.and_eq_true, decide_eq_true_eq] at h
    omega
  · rfl

theorem State.objMem_add (s : State) {loc j : Nat} (ha : loc % 64 = 0) (hj : j < 64) : s.objMem (loc + j) = s.objMem loc := by
  simp only [State.objMem, isDm_add ha hj]

theorem State.loc_eq (s : State) (loc n : Nat) : s.loc loc n = Memory.num (s.objMem loc) (objBase loc) n := by
  unfold State.loc State.objMem objBase
  split <;> rfl

/-- A field of a line, as a number of its memory. -/
theorem State.field_eq (s : State) {loc j n : Nat} (ha : loc % 64 = 0) (hj : j < 64) :
    s.loc (loc + j) n = Memory.num (s.objMem loc) (objBase loc + j) n := by
  rw [s.loc_eq, s.objMem_add ha hj, objBase_add ha hj]

theorem State.writeDev_mem (s : State) (pa : Nat) (bs : List Byte) : (s.writeDev pa bs).mem = Memory.setBytes s.mem pa bs := by
  unfold State.writeDev
  split <;> rfl

/-- A write to a field writes that number of its line's memory. -/
theorem State.objMem_setLoc (s : State) {loc j n x : Nat} (ha : loc % 64 = 0) (hj : j < 64) :
    (s.setLoc (loc + j) n x).objMem loc = Memory.setNum (s.objMem loc) (objBase loc + j) n x := by
  have hb := objBase_add ha hj
  unfold State.objMem State.setLoc State.setLocBytes Memory.setNum
  unfold objBase at hb ⊢
  rw [isDm_add ha hj] at hb ⊢
  cases h : isDm loc
  · exact s.writeDev_mem _ _
  · simp only [h, if_true] at hb ⊢
    rw [← hb]
    rfl

/-- The field that was written reads what was written. -/
theorem State.field_setLoc (s : State) {loc j : Nat} (n x : Nat) (ha : loc % 64 = 0) (hj : j < 64) :
    (s.setLoc (loc + j) n x).loc (loc + j) n = x % 256 ^ n := by
  rw [State.field_eq _ ha hj, s.objMem_setLoc ha hj, Memory.num_setNum_mod]

/-- A field apart from the one written stands. -/
theorem State.field_setLoc_apart (s : State) {loc i j m n x : Nat} (ha : loc % 64 = 0) (hi : i < 64) (hj : j < 64)
    (h : i + m ≤ j ∨ j + n ≤ i) : (s.setLoc (loc + j) n x).loc (loc + i) m = s.loc (loc + i) m := by
  rw [State.field_eq _ ha hi, s.objMem_setLoc ha hj, Memory.num_setNum_apart _ _ _ _ _ _ (by omega), ← State.field_eq _ ha hi]

/-- Live memory's bytes apart from those of a write. -/
theorem State.peek_writeDev (s : State) (pa : Nat) (bs : List Byte) (c : MemCell) (h : ∀ k < bs.length, c ≠ .dev (pa + k)) :
    (s.writeDev pa bs).peek c = s.peek c := by
  have hw : ∀ u : State, ({ u with mem := Memory.setBytes u.mem pa bs, poison := clearPoison u.poison pa bs.length } : State).peek c = u.peek c := by
    intro u
    cases c with
    | dev a =>
      refine congrArg some (Memory.byte_setBytes_outside _ _ _ _ ?_)
      by_contra hin
      exact h (a - pa) (by omega) (congrArg MemCell.dev (by omega))
    | _ => rfl
  unfold State.writeDev
  rw [hw]
  split
  · rfl
  · cases c <;> rfl

theorem State.peek_writeDsm (s : State) (key : Nat) (bs : List Byte) (c : MemCell) (h : ∀ k < bs.length, c ≠ .dm (key + k)) :
    (s.writeDsm key bs).peek c = s.peek c := by
  cases c with
  | dm a =>
    refine congrArg some (Memory.byte_setBytes_outside _ _ _ _ ?_)
    by_contra hin
    exact h (a - key) (by omega) (congrArg MemCell.dm (by omega))
  | _ => rfl

/-- A write to a field leaves every byte but the field's. -/
theorem State.peek_setLoc (s : State) {loc j n x : Nat} (c : MemCell) (ha : loc % 64 = 0) (hj : j < 64)
    (h : ∀ k, j ≤ k → k < j + n → locCell loc k ≠ c) : (s.setLoc (loc + j) n x).peek c = s.peek c := by
  have hb := objBase_add ha hj
  unfold State.setLoc State.setLocBytes
  unfold objBase at hb
  unfold locCell at h
  rw [isDm_add ha hj] at hb ⊢
  cases hd : isDm loc <;> simp only [hd, if_true, Bool.false_eq_true, if_false] at h hb ⊢
  · refine s.peek_writeDev _ _ _ fun k hk e => ?_
    rw [leBytes_length] at hk
    exact h (j + k) (by omega) (by omega) (by rw [e, Nat.add_assoc])
  · rw [hb]
    refine s.peek_writeDsm _ _ _ fun k hk e => ?_
    rw [leBytes_length] at hk
    exact h (j + k) (by omega) (by omega) (by rw [e, Nat.add_assoc])

end Machine
end Sys2Proof
end

section
/-! SUPPORT. When the wait of a parked lane is satisfied (R24, R104 to R106, R229, R242), one law a kind of wait. -/

namespace Sys2Proof
open Machine
namespace Machine

/-- Whether an ordered lock stands free for the turn of a wait. -/
def State.atTurn (s : State) (r : WaitR) : Prop := s.loc (r.loc + 0x10) 4 = r.aux ∧ s.loc (r.loc + 1) 1 % 2 = 0

theorem satisfy_snd (s : State) (k : Nat) (r : WaitR) (res : List W32) : (s.satisfy k r res).2 = { r with done := true, res := res } := rfl

/-- An unregistered wait leaves the table as it was. -/
theorem satisfy_fst (s : State) (k : Nat) (r : WaitR) (res : List W32) (h : r.reg = false) : (s.satisfy k r res).1 = s := by
  unfold State.satisfy
  simp only [h, Bool.false_and, Bool.false_eq_true, if_false]

section
variable {s : State} {k : Nat} {r : WaitR} (hd : r.done = false)
include hd

theorem tryWait_flag (hk : r.kind = .flag) : s.tryWait k r = if r.arg.toNat ≤ s.loc r.loc 8 then s.satisfy k r [] else (s, r) := by
  simp only [State.tryWait, hd, hk, Bool.false_eq_true, if_false]

/-- The state in which an acquire at its turn has taken the lock. -/
def State.lockTaken (s : State) (k loc : Nat) : State := (s.setLoc (loc + 1) 1 1).setLoc (loc + 0x14) 4 (k / 32)

theorem tryWait_acq (hk : r.kind = .acq) (ht : s.atTurn r) :
    let q := (s.lockTaken k r.loc).satisfy k r (bytesRegs 2 (s.loc (r.loc + 1) 1 / 2 % 2 * 2 ^ 63 + s.loc (r.loc + 8) 8 % 2 ^ 63))
    s.tryWait k r = (q.1.grant k r.loc false r.va r.aux, q.2) := by
  obtain ⟨h1, h2⟩ := ht
  simp only [State.tryWait, hd, hk, h1, h2, Bool.false_eq_true, if_false, decide_true, Bool.and_self, if_true]
  rfl

theorem tryWait_pass (hk : r.kind = .pass) (ht : s.atTurn r) : s.tryWait k r = (s.lockAdvance r.loc).satisfy k r [] := by
  obtain ⟨h1, h2⟩ := ht
  simp only [State.tryWait, hd, hk, h1, h2, Bool.false_eq_true, if_false, decide_true, Bool.and_self, if_true]

theorem tryWait_not_turn (hk : r.kind = .acq ∨ r.kind = .pass) (ht : ¬ s.atTurn r) : s.tryWait k r = (s, r) := by
  have hb : ¬ (decide (s.loc (r.loc + 0x10) 4 = r.aux) && decide (s.loc (r.loc + 1) 1 % 2 = 0)) = true := by
    rw [Bool.and_eq_true, decide_eq_true_eq, decide_eq_true_eq]
    exact ht
  unfold State.tryWait
  rcases hk with hk | hk
  · simp only [hd, hk, if_neg hb, Bool.false_eq_true, if_false]
  · simp only [hd, hk, if_neg hb, Bool.false_eq_true, if_false]

theorem tryWait_tag (hk : r.kind = .tag) :
    s.tryWait k r = if (if r.aux = 1 then (s.block (k / 32)).tagready &&& r.arg ≠ 0 else (s.block (k / 32)).tagready &&& r.arg = r.arg)
      then s.satisfy k r [] else (s, r) := by
  simp only [State.tryWait, hd, hk, Bool.false_eq_true, if_false]
  by_cases h : r.aux = 1
  · simp only [h, if_true, bne_iff_ne]
  · simp only [h, if_false, beq_iff_eq]

theorem tryWait_count_some (hk : r.kind = .count) {g : Grp} (hg : SMap.find? s.grps r.loc = some g) :
    s.tryWait k r = if g.st = .ended then s.satisfy k r (bytesRegs 2 (counterWord g.state g.done).toNat) else (s, r) := by
  simp only [State.tryWait, hd, hk, hg, Bool.false_eq_true, if_false, beq_iff_eq]
  rfl

theorem tryWait_count_none (hk : r.kind = .count) (hg : SMap.find? s.grps r.loc = none) :
    s.tryWait k r = s.satisfy k r (bytesRegs 2 (SMap.get (s.wave k).read 0 r.aux).toNat) := by
  simp only [State.tryWait, hd, hk, hg, Bool.false_eq_true, if_false]

theorem tryWait_open (hk : r.kind = .bar ∨ r.kind = .free) : s.tryWait k r = (s, r) := by
  rcases hk with hk | hk <;> simp only [State.tryWait, hd, hk, Bool.false_eq_true, if_false]

/-- A wait satisfied on a condition is done exactly when the condition holds. -/
theorem satisfied_iff (p : Prop) [Decidable p] (x : List W32) : (if p then s.satisfy k r x else (s, r)).2.done = true ↔ p := by
  by_cases h : p
  · simp [h, satisfy_snd]
  · simp [h, hd]

omit hd in
theorem unsatisfied (p : Prop) [Decidable p] (x : List W32) (h : (if p then s.satisfy k r x else (s, r)).2.done = false) :
    (if p then s.satisfy k r x else (s, r)) = (s, r) := by
  by_cases hp : p
  · rw [if_pos hp] at h
    cases h
  · exact if_neg hp

/-- A lock's wait is done exactly at its turn. -/
theorem tryWait_lock_done (hk : r.kind = .acq ∨ r.kind = .pass) : (s.tryWait k r).2.done = true ↔ s.atTurn r := by
  by_cases ht : s.atTurn r
  · refine iff_of_true ?_ ht
    rcases hk with hk | hk
    · rw [tryWait_acq hd hk ht]; rfl
    · rw [tryWait_pass hd hk ht]; rfl
  · rw [tryWait_not_turn hd hk ht]
    exact iff_of_false (by simp [hd]) ht

/-- A wait that is not satisfied changes nothing. -/
theorem tryWait_undone (h : (s.tryWait k r).2.done = false) : s.tryWait k r = (s, r) := by
  have hlock (hk : r.kind = .acq ∨ r.kind = .pass) : s.tryWait k r = (s, r) := by
    refine tryWait_not_turn hd hk fun ht => ?_
    rw [(tryWait_lock_done hd hk).2 ht] at h
    cases h
  cases hk : r.kind with
  | flag =>
    rw [tryWait_flag hd hk] at h ⊢
    exact unsatisfied _ _ h
  | acq => exact hlock (.inl hk)
  | pass => exact hlock (.inr hk)
  | tag =>
    rw [tryWait_tag hd hk] at h ⊢
    exact unsatisfied _ _ h
  | count =>
    cases hg : SMap.find? s.grps r.loc with
    | none => rw [tryWait_count_none hd hk hg] at h; cases h
    | some g =>
      rw [tryWait_count_some hd hk hg] at h ⊢
      exact unsatisfied _ _ h
  | push =>
    simp only [State.tryWait, hd, hk, Bool.false_eq_true, if_false] at h ⊢
    split at h
    · cases h
    · rfl
    · cases h
  | pop =>
    simp only [State.tryWait, hd, hk, Bool.false_eq_true, if_false] at h ⊢
    split at h
    · cases h
    · rfl
    · cases h
  | bar => exact tryWait_open hd (.inl hk)
  | free => exact tryWait_open hd (.inr hk)

/-- An acquire of a line takes the lock: HELD is set, ABANDONED cleared, and HOLDW names the holder; no other byte changes. -/
theorem tryWait_acq_effect (hk : r.kind = .acq) (ht : s.atTurn r) (ha : r.loc % 64 = 0) :
    (s.tryWait k r).1.loc (r.loc + 1) 1 = 1 ∧
    ∀ c, (∀ j, j = 1 ∨ 0x14 ≤ j ∧ j < 0x18 → locCell r.loc j ≠ c) → (s.tryWait k r).1.peek c = s.peek c := by
  have hup := ((State.Upkeep.satisfy (s.lockTaken k r.loc) k r
    (bytesRegs 2 (s.loc (r.loc + 1) 1 / 2 % 2 * 2 ^ 63 + s.loc (r.loc + 8) 8 % 2 ^ 63))).trans (.grant _ k r.loc false r.va r.aux))
  rw [tryWait_acq hd hk ht]
  refine ⟨?_, fun c hc => ?_⟩
  · rw [hup.loc, State.lockTaken, State.field_setLoc_apart _ ha (by omega) (by omega) (by omega),
      State.field_setLoc _ 1 1 ha (by omega)]
    rfl
  · rw [hup.peek, State.lockTaken, State.peek_setLoc _ c ha (by omega) fun j h1 h2 => hc j (.inr ⟨h1, h2⟩),
      State.peek_setLoc _ c ha (by omega) fun j h1 h2 => hc j (.inl (by omega))]

end

/-- Advance of R106 behind the last participant. -/
theorem lockAdvance_last (s : State) (loc : Nat) (h : s.loc (loc + 0x10) 4 + 1 = s.loc (loc + 4) 4) :
    s.lockAdvance loc = (s.setLoc (loc + 0x10) 4 0).setLoc (loc + 8) 8 (s.loc (loc + 8) 8 + 1) := if_pos h

theorem lockAdvance_next (s : State) (loc : Nat) (h : s.loc (loc + 0x10) 4 + 1 ≠ s.loc (loc + 4) 4) :
    s.lockAdvance loc = s.setLoc (loc + 0x10) 4 (s.loc (loc + 0x10) 4 + 1) := if_neg h

/-- R106: what an advance leaves in NEXT and GEN, and that it changes no other byte. -/
theorem lockAdvance_effect (s : State) (loc : Nat) (ha : loc % 64 = 0) :
    let next := s.loc (loc + 0x10) 4
    let np := s.loc (loc + 4) 4
    let gen := s.loc (loc + 8) 8
    (next + 1 = np → (s.lockAdvance loc).loc (loc + 0x10) 4 = 0 ∧ (s.lockAdvance loc).loc (loc + 8) 8 = (gen + 1) % 2 ^ 64) ∧
    (next + 1 < np → (s.lockAdvance loc).loc (loc + 0x10) 4 = next + 1 ∧ (s.lockAdvance loc).loc (loc + 8) 8 = gen) ∧
    ∀ c, (∀ j, 8 ≤ j ∧ j < 0x14 → locCell loc j ≠ c) → (s.lockAdvance loc).peek c = s.peek c := by
  refine ⟨fun h => ?_, fun h => ?_, fun c hc => ?_⟩
  · rw [lockAdvance_last s loc h]
    refine ⟨?_, ?_⟩
    · rw [State.field_setLoc_apart _ ha (by omega) (by omega) (by omega), State.field_setLoc _ 4 0 ha (by omega)]
      rfl
    · rw [State.field_setLoc _ 8 _ ha (by omega)]
      rfl
  · rw [lockAdvance_next s loc (by omega)]
    refine ⟨?_, ?_⟩
    · have hnp := s.loc_lt (loc + 4) 4
      rw [State.field_setLoc _ 4 _ ha (by omega)]
      exact Nat.mod_eq_of_lt (by omega)
    · rw [State.field_setLoc_apart _ ha (by omega) (by omega) (by omega)]
  · have hnext (u : State) (x : Nat) : (u.setLoc (loc + 0x10) 4 x).peek c = u.peek c :=
      State.peek_setLoc _ c ha (by omega) fun j h1 h2 => hc j (by omega)
    by_cases h : s.loc (loc + 0x10) 4 + 1 = s.loc (loc + 4) 4
    · rw [lockAdvance_last s loc h, State.peek_setLoc _ c ha (by omega) fun j h1 h2 => hc j (by omega), hnext]
    · rw [lockAdvance_next s loc h, hnext]

/-! ### The obligation -/

/-- Settles O30: kind by kind; what marking a wait does to the wait-for table changes no byte of a line. -/
theorem waitsSatisfied : Obligations.WaitsSatisfied := by
  unfold Obligations.WaitsSatisfied
  intro s k r hd q turn
  refine ⟨tryWait_undone hd, fun hk => ?_, fun hk => tryWait_lock_done hd hk, fun hk ht ha => ⟨?_, tryWait_acq_effect hd hk ht ha⟩,
    fun hk ht => ?_, fun hk => ?_, fun hk => ⟨?_, fun g hg he => ?_, fun hg => ?_⟩, fun hk => ?_⟩
  · show (s.tryWait k r).2.done = true ↔ _
    rw [tryWait_flag hd hk]
    exact satisfied_iff hd _ _
  · show (s.tryWait k r).2.res = _
    rw [tryWait_acq hd hk ht]
    rfl
  · have hq : q = (s.lockAdvance r.loc).satisfy k r [] := tryWait_pass hd hk ht
    have hup := State.Upkeep.satisfy (s.lockAdvance r.loc) k r []
    have hadv := lockAdvance_effect s r.loc
    refine ⟨fun hr => hq ▸ satisfy_fst _ k r [] hr, hq ▸ rfl, fun ha => ?_⟩
    obtain ⟨hlast, hnext, hpeek⟩ := hadv ha
    rw [ht.1] at hlast hnext
    refine ⟨fun h => ?_, fun h => ?_, fun c hc => ?_⟩
    · rw [hq, hup.loc, hup.loc]
      exact hlast h
    · rw [hq, hup.loc, hup.loc]
      exact hnext h
    · rw [hq, hup.peek]
      exact hpeek c hc
  · show (s.tryWait k r).2.done = true ↔ _
    rw [tryWait_tag hd hk]
    exact satisfied_iff hd _ _
  · show (s.tryWait k r).2.done = true ↔ _
    cases hg : SMap.find? s.grps r.loc with
    | none =>
      rw [tryWait_count_none hd hk hg]
      exact iff_of_true rfl fun g h => by cases h
    | some g =>
      rw [tryWait_count_some hd hk hg, satisfied_iff hd]
      exact ⟨fun h g' e => Option.some.inj e ▸ h, fun h => h g rfl⟩
  · show (s.tryWait k r).2.res = _
    rw [tryWait_count_some hd hk hg, if_pos he]
    rfl
  · show (s.tryWait k r).2.res = _
    rw [tryWait_count_none hd hk hg]
    rfl
  · show (s.tryWait k r).2.done = false
    rw [tryWait_open hd hk]
    exact hd

end Machine
end Sys2Proof
end

section
/-! SUPPORT. What stands before the effect of every word (R168, R185, R248, R322, R324): each word of the instruction set is
issued in the frame of `word`. -/

namespace Sys2Proof
open Machine
namespace Machine

section
variable (i : Instr) (f : F) (ty : Ty) (s : State)

theorem simple_isWord (g : Mask → State) : ∃ body, simple i s g = word i s body := ⟨_, rfl⟩
theorem int1_isWord (sat : Bool) (op : Int → Int) : ∃ body, int1 i f ty sat op s = word i s body := simple_isWord ..
theorem int2_isWord (sat : Bool) (op : Int → Int → Int) : ∃ body, int2 i f ty sat op s = word i s body := simple_isWord ..
theorem logic2_isWord (op : Nat → Nat → Nat) : ∃ body, logic2 i f ty op s = word i s body := simple_isWord ..
theorem shift2_isWord (op : Nat → Nat → Nat → Nat) : ∃ body, shift2 i f ty op s = word i s body := simple_isWord ..
theorem floatOp_isWord (fmt : Fmt) (rnd : Rnd) (op : _) : ∃ body, floatOp i f fmt rnd op s = word i s body := simple_isWord ..
theorem transOp_isWord (rnd : Rnd) (op : _) : ∃ body, transOp i f rnd op s = word i s body := simple_isWord ..
theorem twoOp_isWord (op : PV → PV → PV × Fl) : ∃ body, twoOp i f op s = word i s body := simple_isWord ..
theorem callTo_isWord (d : Opnd) (off : W64) : ∃ body, callTo i d off s = word i s body := ⟨_, rfl⟩
theorem jumpTo_isWord : ∃ body, jumpTo i f s = word i s body := ⟨_, rfl⟩
theorem loadWord_isWord (d a : Opnd) (sz : Sz) (sp : Sp) (off : W64) (nt : Bool) :
   ∃ body, loadWord i d a sz sp off nt s = word i s body := ⟨_, rfl⟩
theorem storeWord_isWord (d a : Opnd) (sz : Sz) (sp : Sp) (off : W64) (nt : Bool) :
   ∃ body, storeWord i d a sz sp off nt s = word i s body := ⟨_, rfl⟩
theorem indexed_isWord (o : Opnd) (k : Nat) (g : Mask → State) : ∃ body, indexed i o k s g = word i s body := ⟨_, rfl⟩

end

/-- A word of the instruction set (R184): each one's meaning is an effect in the frame of `word`. -/
theorem exec_of_isWord (i : Instr) (s : State) (h : i.isWord = true) : ∃ body, exec i s = word i s body := by
  cases i
  case add | sub | mul | mulhi | min | max =>
    dsimp only [exec]
    exact int2_isWord ..
  case abs | neg =>
    dsimp only [exec]
    exact int1_isWord ..
  case and | andn | or | xor =>
    dsimp only [exec]
    exact logic2_isWord ..
  case shl | shr | sar | rotl =>
    dsimp only [exec]
    exact shift2_isWord ..
  case fadd | fsub | fmul | fdiv | ffma | fsqrt | fscale =>
    dsimp only [exec]
    exact floatOp_isWord ..
  case frcp | frsq | fexp2 | flog2 | fsin | fcos =>
    dsimp only [exec]
    exact transOp_isWord ..
  case ldvr | stvr =>
    dsimp only [exec]
    exact indexed_isWord ..
  case dadd | dsub | dmul | ddiv | dmin | dmax =>
    dsimp only [exec]
    exact twoOp_isWord ..
  case call | callX =>
    dsimp only [exec]
    exact callTo_isWord ..
  case jmp | ret =>
    dsimp only [exec]
    exact jumpTo_isWord ..
  case ld | ldn | ldX =>
    dsimp only [exec]
    exact loadWord_isWord ..
  case st | stn | stX =>
    dsimp only [exec]
    exact storeWord_isWord ..
  case addX | movl | pairWord | rand | rsr | vstat | tagffr | tagclr | daff | dmap | dmix | dmom | dqnt | dsamp | dsetPt | dsetU |
      dtagGet | dtagSet | addc | ballot | bcast | bfe | bfi | bperm | brev | cadd | cclr | cfma | clz | crd | ctz | cvt | cvtsr |
      div | fclass | fcmp | fmax | fmin | fsh | icmp | lea | mad | mov | movi | not | pk | plog | popc | rem | rfal | sel | shfl |
      upk | vote =>
    dsimp only [exec]
    exact simple_isWord ..
  case br | brx | exit | nop | brX | touch | pf | gth | sct | cst | xld | cpy | tagwait | atom | red | aord | afree | barv |
      barvInit | barw | barwWait | fpost | fpostInit | fwait | olacq | olacqFree | olrel | olrelPass | olrelInit | olrelFree |
      wreg | wunreg | yield | fence | sweep | qpush | qpushInit | qpop | fork | join | launch | cancel | lcount | migrate | mma |
      mz | mld | mst | mtov | vtom | msync | mmas | shcom | shdis | dld | dst | dtagNew | xroute | xrel | xcnt | xver | trap |
      tret | wsr | ienter | brk | cachectl =>
    dsimp only [exec]
    exact ⟨_, rfl⟩
  all_goals cases h

end Machine
end Sys2Proof
end

section
/-! SUPPORT. What an issue event leaves in the wave: PCs, ages, the pin window and the latch (R20, R21, R176, R222). -/

namespace Sys2Proof
open Machine
namespace Machine

/-- The end of an issue event in the wave: holds pushed and the run moved on, then ages, burst and window. -/
theorem State.advanced_eq (s : State) (i : Instr) :
    s.advanced i = { s with w := { ((s.pushHolds i (s.active i) s.w).goTo s.run (s.pc + 8)).retire s.w.table s.run s.pc with
      begun := s.endBegun, stall := none } } := by
  unfold State.advanced State.retire
  dsimp only
  rw [State.keepHolds_parked, State.retiring_parked]
  rfl

/-! ### Ages (R21) -/

theorem SMap.get_foldSet {α : Type} [DecidableEq α] (d : α) (f : Nat → α) (ls : List Nat) (hn : ls.Nodup) (t : SMap α) (l : Nat) :
    SMap.get (ls.foldl (fun t l => SMap.set t d l (f l)) t) d l = if l ∈ ls then f l else SMap.get t d l := by
  induction ls generalizing t with
  | nil => rfl
  | cons k ks ih =>
    obtain ⟨hk, hks⟩ := List.nodup_cons.1 hn
    rw [List.foldl_cons, ih hks]
    by_cases h : l ∈ ks
    · simp [h]
    · by_cases e : l = k
      · subst e; simp [h]
      · simp [h, e, SMap.get_set_ne _ _ _ e]

/-- Each key of a list without repetitions is changed once, from what stood there. -/
theorem SMap.get_foldUpd {α : Type} [DecidableEq α] (d : α) (f : α → α) (ls : List Nat) (hn : ls.Nodup) (t : SMap α) (l : Nat) :
    SMap.get (ls.foldl (fun t l => SMap.set t d l (f (SMap.get t d l))) t) d l = if l ∈ ls then f (SMap.get t d l) else SMap.get t d l := by
  induction ls generalizing t with
  | nil => rfl
  | cons k ks ih =>
    obtain ⟨hk, hks⟩ := List.nodup_cons.1 hn
    rw [List.foldl_cons, ih hks]
    by_cases e : l = k
    · subst e; simp [hk]
    · simp [e, SMap.get_set_ne _ _ _ e]

theorem lanesOf_nodup (m : Mask) : (lanesOf m).Nodup := (List.nodup_range (n := 32)).filter _

/-- The run that issues gets age 0; every other lane of the PC table ages. -/
theorem Wave.ageOf_ageRun (w : Wave) (table run : Mask) (l : Nat) (hl : l < 32) :
    (w.ageRun table run).ageOf l = if run.getLsbD l then 0 else if table.getLsbD l then w.ageOf l + 1 else w.ageOf l := by
  have hrun : SMap.get ((lanesOf run).foldl (fun t l => SMap.set t 0 l 0) w.age) 0 l = if run.getLsbD l then 0 else w.ageOf l := by
    rw [SMap.get_foldSet 0 (fun _ => 0) _ (lanesOf_nodup run)]
    simp [mem_lanesOf, hl, Wave.ageOf]
  have hrest : (table &&& ~~~run).getLsbD l = (table.getLsbD l && !run.getLsbD l) := by
    rw [BitVec.getLsbD_and, BitVec.getLsbD_not, decide_eq_true hl, Bool.true_and]
  unfold Wave.ageRun Wave.ageOf
  dsimp only
  by_cases h0 : table &&& ~~~run = 0
  · rw [if_pos h0, hrun]
    rw [h0] at hrest
    cases hr : run.getLsbD l <;> simp_all [Wave.ageOf]
  · rw [if_neg h0, SMap.get_foldUpd 0 (· + 1) _ (lanesOf_nodup _), hrun]
    simp only [mem_lanesOf, hl, hrest, true_and]
    cases run.getLsbD l <;> cases table.getLsbD l <;> rfl

theorem Wave.retire_age (w : Wave) (table run : Mask) (was : W64) : (w.retire table run was).age = (w.ageRun table run).age := by
  obtain ⟨b, p, h⟩ := Wave.afterBurst_frame (w.ageRun table run) was run
  unfold Wave.retire
  rw [h]
  obtain ⟨n, ps, e⟩ := Wave.countWindow_frame { w.ageRun table run with burst := b, promo := p }
  rw [e]

/-! ### The pin window (R222) -/

theorem Wave.countWindow_window (w : Wave) :
    w.countWindow.window = w.window.map (· - 1) ∧ w.countWindow.pins = if w.window.any fun n => decide (n ≤ 1) then [] else w.pins := by
  unfold Wave.countWindow
  cases hw : w.window with
  | none => simp [hw]
  | some n =>
    by_cases h : n ≤ 1
    · simp [h]
    · simp [h]

theorem Wave.retire_window (w : Wave) (table run : Mask) (was : W64) :
    (w.retire table run was).window = w.window.map (· - 1) ∧
    (w.retire table run was).pins = if w.window.any fun n => decide (n ≤ 1) then [] else w.pins := by
  obtain ⟨b, p, h⟩ := Wave.afterBurst_frame (w.ageRun table run) was run
  unfold Wave.retire
  rw [h]
  exact Wave.countWindow_window _

/-! ### The latch (R176) -/

theorem Wave.latch_setLat (w : Wave) (n l e k : Nat) (x : W64) (hl : l < 32) (hk : k < 32) :
    (w.setLat n l x).latch e k = if e = n ∧ k = l then x else w.latch e k := by
  show SMap.get (SMap.set w.r.lat 0 (32 * n + l) x) 0 (32 * e + k) = _
  rw [SMap.get_set]
  refine if_congr ?_ rfl rfl
  omega

/-- A push moves the lane's two upper entries down. -/
theorem Wave.latch_push (w : Wave) (l e k : Nat) (x : W64) (hl : l < 32) (hk : k < 32) (he : e < 3) :
    (w.push l x).latch e k = if k = l then (if e = 0 then x else w.latch (e - 1) k) else w.latch e k := by
  unfold Wave.push
  simp only [Wave.latch_setLat _ _ _ _ _ _ hl hk]
  by_cases h : k = l
  · subst h
    obtain rfl | rfl | rfl : e = 0 ∨ e = 1 ∨ e = 2 := by omega
    all_goals simp
  · simp [h]

/-- Pushes into distinct lanes. -/
theorem Wave.latch_pushes (g : Nat → W64) (ls : List Nat) (hn : ls.Nodup) (hls : ∀ l ∈ ls, l < 32) (w : Wave) (e k : Nat) (hk : k < 32)
    (he : e < 3) :
    (ls.foldl (fun w l => w.push l (g l)) w).latch e k =
      if k ∈ ls then (if e = 0 then g k else w.latch (e - 1) k) else w.latch e k := by
  induction ls generalizing w with
  | nil => simp
  | cons l ls ih =>
    obtain ⟨hl, hn⟩ := List.nodup_cons.1 hn
    have hlt : l < 32 := hls l (by simp)
    rw [List.foldl_cons, ih hn fun m hm => hls m (by simp [hm])]
    by_cases h : k = l
    · subst h
      rw [if_neg hl, Wave.latch_push _ _ _ _ _ hlt hk he]
      simp
    · simp only [Wave.latch_push _ l _ k _ hlt hk he, Wave.latch_push _ l (e - 1) k _ hlt hk (by omega), h, if_false, List.mem_cons, false_or]

/-- The latch after the issue of a word that has a hold, or none. -/
theorem State.latch_pushHolds (s : State) (i : Instr) (f : F) (hf : i.fields = some f) (act : Mask) (w : Wave) (e l : Nat) (hl : l < 32)
    (he : e < 3) :
    (s.pushHolds i act w).latch e l =
      if act.getLsbD l && f.h != 0 then (if e = 0 then s.holdVal i f l else w.latch (e - 1) l) else w.latch e l := by
  unfold State.pushHolds
  simp only [hf]
  by_cases h : f.h = 0
  · simp [h]
  · rw [if_neg h, Wave.latch_pushes _ _ (lanesOf_nodup act) (fun m hm => (mem_lanesOf.1 hm).1) w e l hl he]
    simp only [mem_lanesOf, hl, true_and, bne_iff_ne.2 h, Bool.and_true]

/-! ### An issue event, field by field -/

section
variable (s : State) (i : Instr)

theorem State.pcAt_advanced (l : Nat) (hl : l < 32) :
    (s.advanced i).w.pcAt l = if s.run.getLsbD l then s.pc + 8 else s.w.pcAt l := by
  obtain ⟨lat, hp⟩ := s.pushHolds_frame i (s.active i) s.w
  obtain ⟨a, b, p, n, ps, hr⟩ := Wave.retire_frame ((s.pushHolds i (s.active i) s.w).goTo s.run (s.pc + 8)) s.w.table s.run s.pc
  rw [s.advanced_eq i, hr, hp]
  refine (Wave.pcAt_goTo _ s.run (s.pc + 8) l).trans ?_
  simp only [mem_lanesOf, hl, true_and]
  rfl

theorem State.ageOf_advanced (l : Nat) (hl : l < 32) :
    (s.advanced i).w.ageOf l = if s.run.getLsbD l then 0 else if s.w.table.getLsbD l then s.w.ageOf l + 1 else s.w.ageOf l := by
  obtain ⟨lat, hp⟩ := s.pushHolds_frame i (s.active i) s.w
  have hage := Wave.retire_age ((s.pushHolds i (s.active i) s.w).goTo s.run (s.pc + 8)) s.w.table s.run s.pc
  rw [s.advanced_eq i]
  show SMap.get (Wave.retire _ s.w.table s.run s.pc).age 0 l = _
  rw [hage, hp]
  exact Wave.ageOf_ageRun _ _ _ l hl

theorem State.window_advanced :
    (s.advanced i).w.window = s.w.window.map (· - 1) ∧
    (s.advanced i).w.pins = if s.w.window.any fun n => decide (n ≤ 1) then [] else s.w.pins := by
  obtain ⟨lat, hp⟩ := s.pushHolds_frame i (s.active i) s.w
  rw [s.advanced_eq i, hp]
  exact Wave.retire_window _ _ _ _

theorem State.latch_advanced (f : F) (hf : i.fields = some f) (e l : Nat) (he : e < 3) (hl : l < 32) :
    (s.advanced i).w.latch e l =
      if (s.active i).getLsbD l && f.h != 0 then (if e = 0 then s.holdVal i f l else s.w.latch (e - 1) l) else s.w.latch e l := by
  obtain ⟨a, b, p, n, ps, hr⟩ := Wave.retire_frame ((s.pushHolds i (s.active i) s.w).goTo s.run (s.pc + 8)) s.w.table s.run s.pc
  rw [s.advanced_eq i, hr]
  exact s.latch_pushHolds i f hf (s.active i) s.w e l hl he

/-- What an issue event changes: in the wave PCs, ages, burst, window and latch, elsewhere nothing. -/
theorem State.advanced_only :
    let t := s.advanced i
    t = { s with w := { s.w with
      pc := t.w.pc, age := t.w.age, burst := t.w.burst, promo := t.w.promo, window := t.w.window, pins := t.w.pins, begun := t.w.begun
      stall := none, r := { s.w.r with lat := t.w.r.lat } } } := by
  obtain ⟨c, a, b, p, n, ps, lat, h⟩ := s.advanced_frame i
  dsimp only
  rw [h]

end

end Machine
end Sys2Proof
end

section
/-! SUPPORT. The choice of the head run (R20 to R22), and the obligation on what stands before a word's effect. -/

namespace Sys2Proof
open Machine
namespace Machine

/-- A PC put in its place among ascending ones. -/
theorem ascending_insert (l : List W64) (pc : W64) (h : l.Pairwise (· < ·)) :
    ((l.filter fun x => x < pc) ++ [pc] ++ (l.filter fun x => pc < x)).Pairwise (· < ·) := by
  have hlt {x : W64} (hx : x ∈ l.filter fun x => x < pc) : x < pc := by simpa using (List.mem_filter.1 hx).2
  have hgt {x : W64} (hx : x ∈ l.filter fun x => pc < x) : pc < x := by simpa using (List.mem_filter.1 hx).2
  rw [List.pairwise_append, List.pairwise_append]
  refine ⟨⟨h.filter _, List.pairwise_singleton _ _, fun x hx y hy => ?_⟩, h.filter _, fun x hx y hy => ?_⟩
  · rw [List.mem_singleton.1 hy]
    exact hlt hx
  · have hy := hgt hy
    rcases List.mem_append.1 hx with hx | hx
    · exact BitVec.lt_trans (hlt hx) hy
    · rwa [List.mem_singleton.1 hx]

/-- The runs' PCs ascend (R20). -/
theorem Wave.runPcs_ascending (w : Wave) : w.runPcs.Pairwise (· < ·) := by
  unfold Wave.runPcs
  have go : ∀ (ks : List Nat) (l : List W64), l.Pairwise (· < ·) → (ks.foldl (fun l k =>
      let pc := w.pcAt k
      if pc ∈ l then l else (l.filter fun x => x < pc) ++ [pc] ++ (l.filter fun x => pc < x)) l).Pairwise (· < ·) := by
    intro ks
    induction ks with
    | nil => exact fun l h => h
    | cons k ks ih =>
      intro l h
      refine ih _ ?_
      dsimp only
      split
      · exact h
      · exact ascending_insert l _ h
  exact go _ [] List.Pairwise.nil

/-- The runs that can issue, ascending. -/
def State.freeRuns (s : State) : List W64 := s.w.runPcs.filter fun pc => !s.held pc

theorem State.mem_freeRuns {s : State} {p : W64} : p ∈ s.freeRuns ↔ p ∈ s.w.runPcs ∧ s.held p = false := by
  simp [State.freeRuns]

/-- The oldest of some runs, the first of equals. -/
def Wave.oldest (w : Wave) (o : W64) (os : List W64) : W64 := os.foldl (fun m p => if w.runAge m < w.runAge p then p else m) o

theorem Wave.oldest_spec (w : Wave) (o : W64) (os : List W64) :
    w.oldest o os ∈ o :: os ∧ ∀ p ∈ o :: os, w.runAge p ≤ w.runAge (w.oldest o os) := by
  induction os generalizing o with
  | nil => simp [Wave.oldest]
  | cons q os ih =>
    obtain ⟨hm, hle⟩ := ih (if w.runAge o < w.runAge q then q else o)
    have hstep : w.oldest o (q :: os) = w.oldest (if w.runAge o < w.runAge q then q else o) os := rfl
    have hfirst := hle _ List.mem_cons_self
    rw [hstep]
    generalize w.oldest (if w.runAge o < w.runAge q then q else o) os = m at *
    by_cases h : w.runAge o < w.runAge q
    · simp only [h, if_true] at hm hle hfirst
      refine ⟨List.mem_cons_of_mem _ hm, fun p hp => ?_⟩
      rcases List.mem_cons.1 hp with rfl | hp
      · omega
      · exact hle p hp
    · simp only [h, if_false] at hm hle hfirst
      refine ⟨?_, fun p hp => ?_⟩
      · rcases List.mem_cons.1 hm with e | hm
        · simp [e]
        · simp [hm]
      · rcases List.mem_cons.1 hp with rfl | hp
        · exact hfirst
        · rcases List.mem_cons.1 hp with rfl | hp
          · omega
          · exact hle p (by simp [hp])

/-- The runs that have waited for 64 issue events (R22). -/
def State.oldRuns (s : State) : List W64 := s.freeRuns.filter fun p => 64 ≤ s.w.runAge p

/-- R22 without a burst: the lowest run that can issue, unless a run has waited for 64 issue events. -/
theorem State.headRun_free {s : State} {p : W64} {ps : List W64} (hb : s.w.burst = 0) (hf : s.freeRuns = p :: ps) :
    (s.oldRuns = [] → s.headRun = some (p, false)) ∧ ∀ o os, s.oldRuns = o :: os → s.headRun = some (s.w.oldest o os, true) := by
  unfold State.oldRuns
  rw [hf]
  unfold State.headRun Wave.oldest
  simp only [hb, Nat.lt_irrefl, decide_false, Bool.false_and, Bool.false_eq_true, if_false]
  unfold State.freeRuns at hf
  rcases hpcs : s.w.runPcs with _ | ⟨a, _ | ⟨b, l⟩⟩ <;> rw [hpcs] at hf
  · cases hf
  · have ha : s.held a = false := by
      by_contra h
      simp [Bool.eq_true_of_not_eq_false h] at hf
    obtain ⟨rfl, rfl⟩ : a = p ∧ [] = ps := by simpa [ha] using hf
    simp only [ha, Bool.false_eq_true, if_false]
    exact ⟨fun h => by rw [h], fun o os h => by rw [h]⟩
  · simp only [hf]
    exact ⟨fun h => by rw [h], fun o os h => by rw [h]⟩

/-- The choice of R22 without a burst. -/
theorem State.headRun_choice {s : State} {pc : W64} {promoted : Bool} (hb : s.w.burst = 0) (hfree : ∃ p ∈ s.w.runPcs, s.held p = false)
    (h : s.headRun = some (pc, promoted)) :
    pc ∈ s.freeRuns ∧ (promoted = true ↔ ∃ p ∈ s.freeRuns, 64 ≤ s.w.runAge p) ∧
    ∀ p ∈ s.freeRuns, if promoted then s.w.runAge p ≤ s.w.runAge pc else pc ≤ p := by
  obtain ⟨q, hq, hqf⟩ := hfree
  cases hf : s.freeRuns with
  | nil => exact absurd (hf ▸ State.mem_freeRuns.2 ⟨hq, hqf⟩) (List.not_mem_nil)
  | cons p ps =>
    obtain ⟨hlowest, hpromoted⟩ := s.headRun_free hb hf
    cases ho : s.oldRuns with
    | nil =>
      rw [hlowest ho, Option.some.injEq, Prod.mk.injEq] at h
      obtain ⟨rfl, rfl⟩ := h
      have hyoung : ∀ q ∈ p :: ps, ¬ 64 ≤ s.w.runAge q := by
        intro q hq hold
        have : q ∈ s.oldRuns := List.mem_filter.2 ⟨hf ▸ hq, by simpa using hold⟩
        rw [ho] at this
        cases this
      have hasc : (p :: ps).Pairwise (· < ·) := hf ▸ (Wave.runPcs_ascending s.w).filter _
      refine ⟨by simp, ⟨fun e => (by cases e), fun ⟨q, hq, hold⟩ => absurd hold (hyoung q hq)⟩, fun q hq => ?_⟩
      rcases List.mem_cons.1 hq with rfl | hq
      · exact BitVec.le_refl _
      · exact BitVec.le_of_lt (List.rel_of_pairwise_cons hasc hq)
    | cons o os =>
      rw [hpromoted o os ho, Option.some.injEq, Prod.mk.injEq] at h
      obtain ⟨rfl, rfl⟩ := h
      have hold : ∀ q, q ∈ o :: os ↔ q ∈ p :: ps ∧ 64 ≤ s.w.runAge q := by
        intro q
        rw [← ho, State.oldRuns, List.mem_filter, hf, decide_eq_true_eq]
      obtain ⟨hm, hmax⟩ := s.w.oldest_spec o os
      obtain ⟨hin, h64⟩ := (hold _).1 hm
      refine ⟨hin, ⟨fun _ => ⟨_, hin, h64⟩, fun _ => rfl⟩, fun q hq => ?_⟩
      show s.w.runAge q ≤ _
      by_cases hy : 64 ≤ s.w.runAge q
      · exact hmax q ((hold q).2 ⟨hq, hy⟩)
      · omega

/-! ### The obligation -/

/-- `nop` only advances. -/
theorem exec_nop (s : State) (f : F) (hI : s.Issues (.nop f)) : exec (.nop f) s = .next (s.advanced (.nop f)) := by
  show word (.nop f) s (fun _ s => .done s) = _
  by_cases ha : s.active (.nop f) = 0
  · exact word_idle _ s _ hI ha rfl
  · refine (word_done _ s _ hI ha rfl).trans (congrArg _ ?_)
    exact settleCharge_view s s _ rfl

/-- Settles O48: every word is issued in the frame of `word`, and the head run is chosen among the ascending runs that can issue. -/
theorem issueGate : Obligations.IssueGate := by
  unfold Obligations.IssueGate
  refine ⟨fun s i hw hr hn => ?_, fun s i => ⟨fun l hl => ⟨s.pcAt_advanced i l hl, s.ageOf_advanced i l hl⟩, s.advanced_only i, s.window_advanced i⟩,
    fun s f i l hf hl e he => s.latch_advanced i f hf e l he hl, fun s pc promoted hb hfree h => ?_⟩
  · obtain ⟨body, hexec⟩ := exec_of_isWord i s hw
    rw [hexec]
    refine ⟨fun hc ho => word_closes i s body hr hn hc ho, fun hc => ⟨fun info hb => word_bounds i s body info hr hn hc hb,
      fun hb hwait => word_waits i s body hr hn hc hb hwait⟩, fun hI ha ho => word_idle i s body hI ha ho, fun f hi hI => ?_⟩
    subst hi
    rw [← hexec]
    exact exec_nop s f hI
  · obtain ⟨hin, hold, hfirst⟩ := State.headRun_choice hb hfree h
    simp only [State.mem_freeRuns, and_assoc] at hin hold hfirst
    exact ⟨hin.1, hin.2, hold, fun p hp hp' => hfirst p ⟨hp, hp'⟩⟩

end Machine
end Sys2Proof
end

section
/-! SUPPORT. The bytes of a trap frame (Table 116): which field of a byte string stands where. -/

namespace Sys2Proof
open Machine
namespace Machine

theorem fieldAt_append_left (a b : List Byte) (o n : Nat) (h : o + n ≤ a.length) : fieldAt (a ++ b) o n = fieldAt a o n := by
  unfold fieldAt
  rw [List.drop_append_of_le_length (by omega), List.take_append_of_le_length (by rw [List.length_drop]; omega)]

theorem fieldAt_append_right (a b : List Byte) (o n : Nat) (h : a.length ≤ o) : fieldAt (a ++ b) o n = fieldAt b (o - a.length) n := by
  unfold fieldAt
  rw [List.drop_append, List.drop_eq_nil_of_le h, List.nil_append]

/-- A number that stands at the front. -/
theorem fieldAt_leBytes (n x : Nat) (b : List Byte) (h : x < 256 ^ n) : fieldAt (leBytes n x ++ b) 0 n = x := by
  rw [fieldAt_append_left _ _ _ _ (by simp), fieldAt, List.drop_zero, List.take_of_length_le (by simp), leNat_leBytes n x h]

theorem fieldAt_leBytes_self (n x : Nat) (h : x < 256 ^ n) : fieldAt (leBytes n x) 0 n = x := by
  simpa using fieldAt_leBytes n x [] h

theorem flatMap_length {α : Type} (f : α → List Byte) (m : Nat) (xs : List α) (hf : ∀ x ∈ xs, (f x).length = m) :
    (xs.flatMap f).length = m * xs.length := by
  induction xs with
  | nil => simp
  | cons x xs ih =>
    rw [List.flatMap_cons, List.length_append, hf x (by simp), ih fun y hy => hf y (by simp [hy]), List.length_cons, Nat.mul_succ, Nat.add_comm]

/-- A field of a row of a table of rows of m bytes each. -/
theorem fieldAt_flatMap {α : Type} (f : α → List Byte) (m : Nat) (xs : List α) (hf : ∀ x ∈ xs, (f x).length = m) (k o n : Nat)
    (hk : k < xs.length) (hn : o + n ≤ m) : fieldAt (xs.flatMap f) (m * k + o) n = fieldAt (f xs[k]) o n := by
  induction xs generalizing k with
  | nil => simp at hk
  | cons x xs ih =>
    have hx := hf x (by simp)
    rw [List.flatMap_cons]
    cases k with
    | zero => rw [fieldAt_append_left _ _ _ _ (by omega)]; simp
    | succ k =>
      rw [fieldAt_append_right _ _ _ _ (by rw [hx]; nlinarith), hx, show m * (k + 1) + o - m = m * k + o by rw [Nat.mul_succ]; omega,
        ih (fun y hy => hf y (by simp [hy])) k (by simpa using hk)]
      simp

/-- A column of a value for each lane. -/
theorem fieldAt_lanes (n : Nat) (g : Nat → Nat) (l : Nat) (hl : l < 32) (hg : g l < 256 ^ n) :
    fieldAt (allLanes.flatMap fun l => leBytes n (g l)) (n * l) n = g l := by
  have h := fieldAt_flatMap (fun l => leBytes n (g l)) n allLanes (fun _ _ => by simp) l 0 n (by simpa [allLanes] using hl) (by omega)
  rw [Nat.add_zero] at h
  rw [h]
  simpa [allLanes] using fieldAt_leBytes_self n (g l) hg

theorem lanes_length (n : Nat) (g : Nat → Nat) : (allLanes.flatMap fun l => leBytes n (g l)).length = n * 32 := by
  rw [flatMap_length _ n _ fun _ _ => by simp]
  simp [allLanes]

/-! ### The lanes of a frame -/

/-- Entry e of lane l in the table of latches. -/
theorem fieldAt_latchTable (lat : SMap W64) (l e : Nat) (hl : l < 32) (he : e < 3) :
    fieldAt (latchTable lat) (24 * l + 8 * e) 8 = (SMap.get lat 0 (32 * e + l)).toNat := by
  have hrow : ∀ l, ((List.range 3).flatMap fun e => leBytes 8 (SMap.get lat 0 (32 * e + l)).toNat).length = 24 := fun l => by
    rw [flatMap_length _ 8 _ fun _ _ => by simp]
    simp
  unfold latchTable
  rw [fieldAt_flatMap _ 24 allLanes (fun l _ => hrow l) l (8 * e) 8 (by simpa [allLanes] using hl) (by omega)]
  have hval := (SMap.get lat 0 (32 * e + l)).isLt
  have h := fieldAt_flatMap (fun e => leBytes 8 (SMap.get lat 0 (32 * e + l)).toNat) 8 (List.range 3) (fun _ _ => by simp) e 0 8
    (by simpa using he) (by omega)
  rw [Nat.add_zero] at h
  simp only [allLanes, List.getElem_range] at h ⊢
  rw [h]
  exact fieldAt_leBytes_self 8 _ (lt_of_lt_of_eq hval (by norm_num))

theorem latchTable_length (lat : SMap W64) : (latchTable lat).length = 768 := by
  unfold latchTable
  rw [flatMap_length _ 24 _ fun l _ => by rw [flatMap_length _ 8 _ fun _ _ => by simp]; simp]
  simp [allLanes]

theorem laneTable_length (pc : SMap W64) (age : SMap Nat) (gs : List Group) (exited : Mask) : (laneTable pc age gs exited).length = 384 := by
  unfold laneTable
  simp only [List.length_append, lanes_length]

/-- What the table of lanes says of a lane: its PC, its age, and state 2 once it has exited. -/
theorem fieldAt_laneTable (pc : SMap W64) (age : SMap Nat) (gs : List Group) (exited : Mask) (l : Nat) (hl : l < 32)
    (ha : SMap.get age 0 l < 2 ^ 16) :
    fieldAt (laneTable pc age gs exited) (8 * l) 8 = (SMap.get pc 0 l).toNat ∧
    fieldAt (laneTable pc age gs exited) (0x100 + 2 * l) 2 = SMap.get age 0 l ∧
    (exited.getLsbD l = true → fieldAt (laneTable pc age gs exited) (0x140 + l) 1 = 2) := by
  have hpc := (SMap.get pc 0 l).isLt
  unfold laneTable
  refine ⟨?_, ?_, fun hx => ?_⟩
  · rw [List.append_assoc, List.append_assoc, fieldAt_append_left _ _ _ _ (by rw [lanes_length]; omega)]
    exact fieldAt_lanes 8 (fun l => (SMap.get pc 0 l).toNat) l hl (lt_of_lt_of_eq hpc (by norm_num))
  · rw [List.append_assoc, List.append_assoc, fieldAt_append_right _ _ _ _ (by rw [lanes_length]; omega), lanes_length,
      fieldAt_append_left _ _ _ _ (by rw [lanes_length]; omega), show 0x100 + 2 * l - 8 * 32 = 2 * l by omega]
    exact fieldAt_lanes 2 (fun l => SMap.get age 0 l) l hl (lt_of_lt_of_eq ha (by norm_num))
  · rw [List.append_assoc, fieldAt_append_right _ _ _ _ (by simp only [List.length_append, lanes_length]; omega),
      fieldAt_append_left _ _ _ _ (by simp only [List.length_append, lanes_length]; omega)]
    have hstate : (laneState gs exited l).1 = 2 := by unfold laneState; rw [if_pos hx]
    have h := fieldAt_lanes 1 (fun l => (laneState gs exited l).1) l hl (by simp [hstate])
    simp only [List.length_append, lanes_length, show 0x140 + l - (8 * 32 + 2 * 32) = 1 * l by omega]
    rw [h, hstate]

/-! ### The parts of a frame -/

/-- The first 64 bytes of a frame: the fields of Table 116 before the lanes. -/
def Frame.head (f : Frame) (depth : Nat) : List Byte :=
  leBytes 1 f.cause ++ (leBytes 1 depth ++ (leBytes 6 0 ++ (leBytes 8 f.info.toNat ++ (leBytes 8 f.addr.toNat ++
    (leBytes 8 f.word.toNat ++ (leBytes 4 f.run.toNat ++ (leBytes 4 f.active.toNat ++ (leBytes 4 f.ientry.toNat ++ (leBytes 4 0 ++
    (leBytes 8 f.promo.toNat ++ (leBytes 4 f.burst ++ leBytes 4 0)))))))))))

theorem Frame.head_length (f : Frame) (depth : Nat) : (f.head depth).length = 64 := by simp [Frame.head]

/-- A frame is its head, its lanes, its latches at 0x200 and its extension at 0x600. -/
theorem Frame.bytes_eq (f : Frame) (depth : Nat) (exited : Mask) :
    f.bytes depth exited = f.head depth ++ (laneTable f.pc f.age f.groups exited ++ (List.replicate 64 0 ++ (latchTable f.lat ++
      (List.replicate 256 0 ++ (f.ext ++ List.replicate (512 - f.ext.length) 0))))) := by
  unfold Frame.bytes Frame.head
  simp only [laneTable_length, List.append_assoc]

section
variable (f : Frame) (depth : Nat) (exited : Mask)

theorem Frame.bytes_length (h : f.ext.length ≤ 512) : (f.bytes depth exited).length = 2048 := by
  rw [f.bytes_eq]
  simp only [List.length_append, f.head_length, laneTable_length, latchTable_length, List.length_replicate]
  omega

theorem Frame.fieldAt_head (o n : Nat) (h : o + n ≤ 64) : fieldAt (f.bytes depth exited) o n = fieldAt (f.head depth) o n := by
  rw [f.bytes_eq, fieldAt_append_left _ _ _ _ (by rw [f.head_length]; exact h)]

theorem Frame.fieldAt_lanes (o n : Nat) (h : o + n ≤ 384) :
    fieldAt (f.bytes depth exited) (0x40 + o) n = fieldAt (laneTable f.pc f.age f.groups exited) o n := by
  rw [f.bytes_eq, fieldAt_append_right _ _ _ _ (by rw [f.head_length]; omega), f.head_length,
    fieldAt_append_left _ _ _ _ (by rw [laneTable_length]; omega), show 0x40 + o - 64 = o by omega]

theorem Frame.fieldAt_latch (o n : Nat) (h : o + n ≤ 768) : fieldAt (f.bytes depth exited) (0x200 + o) n = fieldAt (latchTable f.lat) o n := by
  rw [f.bytes_eq, fieldAt_append_right _ _ _ _ (by rw [f.head_length]; omega), f.head_length,
    fieldAt_append_right _ _ _ _ (by rw [laneTable_length]; omega), laneTable_length,
    fieldAt_append_right _ _ _ _ (by rw [List.length_replicate]; omega), List.length_replicate,
    fieldAt_append_left _ _ _ _ (by rw [latchTable_length]; omega), show 0x200 + o - 64 - 384 - 64 = o by omega]

/-- Byte k of the extension, 0 beyond it. -/
theorem Frame.fieldAt_ext (k : Nat) : fieldAt (f.bytes depth exited) (0x600 + k) 1 = (f.ext.getD k 0).toNat := by
  rw [f.bytes_eq, fieldAt_append_right _ _ _ _ (by rw [f.head_length]; omega), f.head_length,
    fieldAt_append_right _ _ _ _ (by rw [laneTable_length]; omega), laneTable_length,
    fieldAt_append_right _ _ _ _ (by rw [List.length_replicate]; omega), List.length_replicate,
    fieldAt_append_right _ _ _ _ (by rw [latchTable_length]; omega), latchTable_length,
    fieldAt_append_right _ _ _ _ (by rw [List.length_replicate]; omega), List.length_replicate,
    show 0x600 + k - 64 - 384 - 64 - 768 - 256 = k by omega]
  have hbyte : ∀ (bs : List Byte) (k : Nat), fieldAt bs k 1 = (bs.getD k 0).toNat := by
    intro bs k
    unfold fieldAt
    rw [List.getD_eq_getElem?_getD, ← List.head?_drop]
    cases bs.drop k <;> simp [leNat]
  rw [hbyte, List.getD_eq_getElem?_getD, List.getD_eq_getElem?_getD, List.getElem?_append]
  by_cases h : k < f.ext.length
  · rw [if_pos h]
  · rw [if_neg h, List.getElem?_eq_none (Nat.le_of_not_lt h), List.getElem?_replicate]
    split <;> rfl

end

end Machine
end Sys2Proof
end

section
/-! SUPPORT. Entering a trap handler (R245, R378): what the issue of a word that traps leaves. -/

namespace Sys2Proof
open Machine
namespace Machine

/-- The fields of a frame before its lanes (Table 116). -/
theorem Frame.head_fields (f : Frame) (depth : Nat) (hc : f.cause < 256) (hd : depth < 256) (hb : f.burst < 2 ^ 32) :
    fieldAt (f.head depth) 0 1 = f.cause ∧ fieldAt (f.head depth) 1 1 = depth ∧ fieldAt (f.head depth) 8 8 = f.info.toNat ∧
    fieldAt (f.head depth) 0x10 8 = f.addr.toNat ∧ fieldAt (f.head depth) 0x18 8 = f.word.toNat ∧
    fieldAt (f.head depth) 0x20 4 = f.run.toNat ∧ fieldAt (f.head depth) 0x24 4 = f.active.toNat ∧
    fieldAt (f.head depth) 0x28 4 = f.ientry.toNat ∧ fieldAt (f.head depth) 0x30 8 = f.promo.toNat ∧
    fieldAt (f.head depth) 0x38 4 = f.burst := by
  have h64 (x : W64) : x.toNat < 256 ^ 8 := lt_of_lt_of_eq x.isLt (by norm_num)
  have h32 (x : W32) : x.toNat < 256 ^ 4 := lt_of_lt_of_eq x.isLt (by norm_num)
  have hb : f.burst < 256 ^ 4 := lt_of_lt_of_eq hb (by norm_num)
  have hc : f.cause < 256 ^ 1 := hc
  have hd : depth < 256 ^ 1 := hd
  unfold Frame.head
  refine ⟨?_, ?_, ?_, ?_, ?_, ?_, ?_, ?_, ?_, ?_⟩ <;>
    simp only [fieldAt_append_right, leBytes_length, Nat.reduceLeDiff, Nat.reduceSub, fieldAt_leBytes, h64, h32, hb, hc, hd]

/-! ### The frame is written beside the wave -/

theorem State.writeDev_beside (s : State) (w : Wave) (ps : List Probe) (pa : Nat) (bs : List Byte) :
    ({ s with w := w, probes := ps } : State).writeDev pa bs = { s.writeDev pa bs with w := w, probes := ps } := by
  unfold State.writeDev
  by_cases h : (s.ctxs == []) = true
  · simp only [h, if_true]
  · simp only [h, Bool.false_eq_true, if_false]
    rfl

/-- A translation reads device memory, the part's registers and the expert engine alone (R299, R367). -/
theorem State.walk_congr {s t : State} (hm : t.mem = s.mem) (hp : t.pf = s.pf) (he : t.exp = s.exp) (c va : Nat) : t.walk c va = s.walk c va := by
  have hroot : t.ptroot c = s.ptroot c := by simp only [State.ptroot, State.pfNum, hp]
  have hctx : t.xpCtx = s.xpCtx := by simp only [State.xpCtx, State.pfNum, hp]
  have hroute (p : Nat) : t.noRoute p = s.noRoute p := by simp only [State.noRoute, State.pfNum, hp]
  have hreach (r : Tr) : t.reaches r = s.reaches r := by cases r <;> simp only [State.reaches, hroute]
  have hplain (va : Nat) : t.walkPlain c va = s.walkPlain c va := by simp only [State.walkPlain, hm, hroot, hctx, he, hreach]
  simp only [State.walk, hctx, he, hplain]

/-- Writing a frame reads neither the wave nor the probes. -/
theorem State.wharfWrite_beside (s : State) (w : Wave) (ps : List Probe) (c va : Nat) (bs : List Byte) :
    ({ s with w := w, probes := ps } : State).wharfWrite c va bs = { s.wharfWrite c va bs with w := w, probes := ps } := by
  have hwalk : ({ s with w := w, probes := ps } : State).walk c va = s.walk c va :=
    State.walk_congr (s := s) (t := { s with w := w, probes := ps }) rfl rfl rfl c va
  unfold State.wharfWrite
  rw [hwalk]
  split
  · split
    · rfl
    · exact s.writeDev_beside w ps _ bs
  · rfl

/-- Writing a frame changes memories alone. -/
theorem State.wharfWrite_frame (s : State) (c va : Nat) (bs : List Byte) :
    ∃ m h cs p, s.wharfWrite c va bs = { s with mem := m, hmem := h, ctxs := cs, poison := p } := by
  unfold State.wharfWrite
  split
  · split
    · exact ⟨_, _, _, _, rfl⟩
    · unfold State.writeDev
      split <;> exact ⟨_, _, _, _, rfl⟩
  · exact ⟨_, _, _, _, rfl⟩

theorem State.wharfWrite_setW (s : State) (w : Wave) (c va : Nat) (bs : List Byte) :
    (s.setW w).wharfWrite c va bs = (s.wharfWrite c va bs).setW w := by
  obtain ⟨m, h, cs, p, hwrite⟩ := s.wharfWrite_frame c va bs
  refine (s.wharfWrite_beside w s.probes c va bs).trans ?_
  rw [hwrite]
  rfl

theorem State.viewBytes_setW (s : State) (w : Wave) (hv : w.view = s.w.view) (n va pa : Nat) :
    (s.setW w).viewBytes va pa n = s.viewBytes va pa n := by
  induction n generalizing va pa with
  | zero => rfl
  | succ n ih =>
    have hbyte : (s.setW w).viewByte va pa = s.viewByte va pa := by
      unfold State.viewByte
      rw [State.setW_w, hv]
      rfl
    rw [State.viewBytes, State.viewBytes, ih, hbyte]

/-- The word at a PC depends on the wave's view alone, not on its ages, burst and pins. -/
theorem State.instrAt_setW (s : State) (w : Wave) (hv : w.view = s.w.view) (pc : W64) : (s.setW w).instrAt pc = s.instrAt pc := by
  have hwalk : (s.setW w).walk s.b.ctx pc.toNat = s.walk s.b.ctx pc.toNat := State.walk_congr (s := s) (t := s.setW w) rfl rfl rfl _ _
  have hpoison (pa : Nat) : (s.setW w).readsPoison (.view pc.toNat pa) 8 = s.readsPoison (.view pc.toNat pa) 8 := by
    simp only [State.readsPoison, State.setW_w, hv]
    rfl
  have hmig : (s.setW w).migrating s.b.ctx pc.toNat = s.migrating s.b.ctx pc.toNat := rfl
  have hfetch : (s.setW w).fetch pc = s.fetch pc := by
    simp only [State.fetch, State.setW_b, hwalk, hpoison, hmig, s.viewBytes_setW w hv]
  rw [State.instrAt, hfetch, State.instrAt]

/-! ### The latch of the lanes that enter -/

/-- Every lane of a list gets a value in L0. -/
theorem Wave.setLats_frame (ls : List Nat) (x : W64) (w : Wave) :
    ∃ lat, ls.foldl (fun w l => w.setLat 0 l x) w = { w with r := { w.r with lat := lat } } ∧
      ((∀ l ∈ ls, l < 32) → ∀ e l, l < 32 → SMap.get lat 0 (32 * e + l) = if e = 0 ∧ l ∈ ls then x else w.latch e l) := by
  induction ls generalizing w with
  | nil => exact ⟨w.r.lat, rfl, fun _ e l _ => by simp [Wave.latch]⟩
  | cons k ls ih =>
    obtain ⟨lat, h, hlat⟩ := ih (w.setLat 0 k x)
    refine ⟨lat, h, fun hls e l hl => ?_⟩
    rw [hlat (fun m hm => hls m (by simp [hm])) e l hl, Wave.latch_setLat w 0 k e l x (hls k (by simp)) hl]
    by_cases h1 : e = 0 <;> by_cases h2 : l ∈ ls <;> by_cases h3 : l = k <;> simp [h1, h2, h3]

/-! ### Taking a trap -/

/-- A trap that finds a free depth and a handler enters it. -/
theorem State.takeTrap_enters (s : State) (t : Trap) (word : W64) (run act : Mask) (between : Bool) (hd : s.w.frames.length < 4)
    (hh : s.handler s.b.ctx ≠ 0) (hb : t.cause = 0x0E → s.dbgBrk s.b.ctx = false) :
    s.takeTrap t word run act between = (s.setW s.w.closeWindow).enterHandler t word run act between := by
  have hd4 : s.w.frames.length ≠ 4 := Nat.ne_of_lt hd
  have hbrk : (decide (t.cause = 0x0E) && s.dbgBrk s.b.ctx) = false := by
    by_cases hc : t.cause = 0x0E
    · rw [hb hc, Bool.and_false]
    · rw [decide_eq_false hc, Bool.false_and]
  unfold State.takeTrap
  dsimp only
  have hd4' : ¬ (s.setW s.w.closeWindow).w.frames.length = 4 := hd4
  have hbrk' : ¬ (decide (t.cause = 0x0E) && (s.setW s.w.closeWindow).dbgBrk (s.setW s.w.closeWindow).b.ctx) = true :=
    fun h => Bool.false_ne_true (hbrk.symm.trans h)
  have hh' : ¬ (s.setW s.w.closeWindow).handler (s.setW s.w.closeWindow).b.ctx = 0 := hh
  rw [if_neg fun h => hd4' h.1, if_neg hbrk', if_neg hd4', if_neg hh']

/-- A word that traps enters the handler in one issue event. -/
theorem State.trapWord_enters (s : State) (t : Trap) (act : Mask) (hr : s.w.region = none) (hd : s.w.frames.length < 4)
    (hh : s.handler s.b.ctx ≠ 0) (hb : t.cause = 0x0E → s.dbgBrk s.b.ctx = false) :
    s.trapWord act t = (s.setW ((s.w.ageRun s.w.table s.run).afterBurst s.pc s.run).closeWindow).enterHandler t s.pc s.run act false := by
  have hbrk : ¬ (decide (t.cause = 0x0E) && s.dbgBrk s.b.ctx) = true := by
    by_cases hc : t.cause = 0x0E
    · rw [hb hc, Bool.and_false]
      exact Bool.false_ne_true
    · rw [decide_eq_false hc, Bool.false_and]
      exact Bool.false_ne_true
  obtain ⟨b, p, hx⟩ := Wave.afterBurst_frame (s.w.ageRun s.w.table s.run) s.pc s.run
  unfold State.trapWord
  rw [hr, if_neg (by decide)]
  dsimp only
  rw [if_neg hbrk, hx]
  exact State.takeTrap_enters _ t s.pc s.run act false hd hh hb

/-- The frame that keeps what a wave was doing (R378 step 3). -/
def State.trapFrame (s : State) (t : Trap) (word : W64) (run act : Mask) (between : Bool) : Frame :=
  { va := BitVec.ofNat 64 s.frameVa, cause := t.cause, info := t.info, addr := t.addr, word := word, run := run, active := act,
    ientry := s.w.sp.ientry, promo := s.w.promo, burst := s.w.burst, pc := s.w.pc, age := s.w.age, groups := s.w.groups
    lat := s.w.r.lat, ext := t.ext, between := between, quarter := ((s.instrAt word).map Instr.quarter).getD false }

/-- A wave whose lanes stand at a handler (R378 steps 4 and 5). -/
def Wave.atHandler (w : Wave) (fr : Frame) (t : Trap) (h : W64) : Wave :=
  ({ w with frames := fr :: w.frames, groups := [], age := [], burst := 0, promo := 0, yielded := false
            sp := { w.sp with trapinfo := t.info, trapaddr := t.addr }, r := { w.r with lat := [] } } : Wave).goTo (~~~w.exited) h

/-- The probes that a wave's `sweep` at its depth did not send (R90). -/
def State.otherProbes (s : State) : List Probe :=
  s.probes.filter fun p => !(p.blk == s.w.blk && p.wv == s.w.idx && p.depth == s.w.frames.length)

/-- What entering a handler leaves: the frame in memory and in the wave, the lanes at the handler, the frame's address in L0. -/
theorem State.enterHandler_eq (s : State) (t : Trap) (word : W64) (run act : Mask) (between : Bool) :
    let fr := s.trapFrame t word run act between
    let w := s.w.atHandler fr t (s.handler s.b.ctx)
    ∃ lat, s.enterHandler t word run act between =
        { s.wharfWrite s.b.ctx s.frameVa (fr.bytes (s.w.frames.length + 1) s.w.exited) with
          probes := s.otherProbes, w := { w with r := { w.r with lat := lat } } } ∧
      ∀ e l, l < 32 → SMap.get lat 0 (32 * e + l) = if e = 0 then BitVec.ofNat 64 s.frameVa else 0 := by
  intro fr w
  obtain ⟨m, h, cs, p, hwrite⟩ := s.wharfWrite_frame s.b.ctx s.frameVa (fr.bytes (s.w.frames.length + 1) s.w.exited)
  have hbeside := s.wharfWrite_beside s.w s.otherProbes s.b.ctx s.frameVa (fr.bytes (s.w.frames.length + 1) s.w.exited)
  obtain ⟨lat, hlats, hlat⟩ := Wave.setLats_frame (lanesOf (BitVec.allOnes 32)) (BitVec.ofNat 64 s.frameVa) w
  rw [hwrite] at hbeside ⊢
  unfold fr State.trapFrame State.otherProbes at hbeside
  refine ⟨lat, ?_, fun e l hl => ?_⟩
  · unfold State.enterHandler
    dsimp only
    rw [hbeside]
    exact congrArg (State.setW { s with mem := m, hmem := h, ctxs := cs, poison := p, probes := s.otherProbes }) hlats
  · have hall : l ∈ lanesOf (BitVec.allOnes 32) :=
      mem_lanesOf.2 ⟨hl, (BitVec.getLsbD_allOnes ..).trans (decide_eq_true hl)⟩
    rw [hlat (fun l hl => (mem_lanesOf.1 hl).1) e l hl]
    simp only [hall, and_true]
    rfl

/-- The PCs of lanes that enter a handler. -/
theorem Wave.pcAt_atHandler (w : Wave) (fr : Frame) (t : Trap) (h : W64) (l : Nat) (hl : l < 32) :
    (w.atHandler fr t h).pcAt l = if w.exited.getLsbD l then w.pcAt l else h := by
  refine (Wave.pcAt_goTo _ (~~~w.exited) h l).trans ?_
  simp only [mem_lanesOf, hl, true_and, BitVec.getLsbD_not, decide_true, Bool.true_and]
  cases w.exited.getLsbD l <;> rfl

/-- A word whose effect is a trap takes it. -/
theorem word_trap (i : Instr) (s : State) (body : Mask → State → Res) {x : Trap} (hI : s.Issues i) (ha : s.active i ≠ 0)
    (hr : s.w.region = none) (hb : body (s.active i) s = .trap s x) : word i s body = .next (s.trapWord (s.active i) x) := by
  rw [word_effect i s body hI (.inl ha), hb, hr]
  exact congrArg _ (settleCharge_view s s _ rfl)

/-- The wave that a trapped word leaves before the handler: aged, its burst as it goes on, its pin window closed (R21, R22, R222). -/
def Wave.trapped (w : Wave) (a : SMap Nat) (b : Nat) (p : W64) : Wave := { w with age := a, burst := b, promo := p, window := none, pins := [] }

section
variable (s : State) (a : SMap Nat) (b : Nat) (p : W64)

theorem State.frameVa_trapped : (s.setW (s.w.trapped a b p)).frameVa = s.frameVa := by
  have hhome : (s.setW (s.w.trapped a b p)).homeOf = s.homeOf := rfl
  have hbase : (s.setW (s.w.trapped a b p)).framebase s.b.ctx = s.framebase s.b.ctx := rfl
  unfold State.frameVa State.frameAt
  rw [hhome]
  dsimp only
  rw [State.setW_b, hbase]
  rfl

theorem State.trapFrame_trapped (t : Trap) (word : W64) (run act : Mask) (between : Bool) :
    (s.setW (s.w.trapped a b p)).trapFrame t word run act between =
      { s.trapFrame t word run act between with age := a, burst := b, promo := p } := by
  have hinstr : (s.setW (s.w.trapped a b p)).instrAt word = s.instrAt word := s.instrAt_setW (s.w.trapped a b p) rfl word
  unfold State.trapFrame
  rw [s.frameVa_trapped, hinstr]
  rfl

/-- What entering the handler leaves, from the state in which the word issued. -/
theorem State.enterHandler_trapped (t : Trap) (word : W64) (run act : Mask) (between : Bool) :
    let fr : Frame := { s.trapFrame t word run act between with age := a, burst := b, promo := p }
    let w := (s.w.trapped a b p).atHandler fr t (s.handler s.b.ctx)
    ∃ lat, (s.setW (s.w.trapped a b p)).enterHandler t word run act between =
        { s.wharfWrite s.b.ctx s.frameVa (fr.bytes (s.w.frames.length + 1) s.w.exited) with
          probes := s.otherProbes, w := { w with r := { w.r with lat := lat } } } ∧
      ∀ e l, l < 32 → SMap.get lat 0 (32 * e + l) = if e = 0 then BitVec.ofNat 64 s.frameVa else 0 := by
  intro fr w
  obtain ⟨lat, henter, hlat⟩ := (s.setW (s.w.trapped a b p)).enterHandler_eq t word run act between
  rw [s.trapFrame_trapped, s.frameVa_trapped] at henter
  rw [s.frameVa_trapped] at hlat
  have hset := s.wharfWrite_setW (s.w.trapped a b p) s.b.ctx s.frameVa (fr.bytes (s.w.frames.length + 1) s.w.exited)
  obtain ⟨m, h, cs, q, hwrite⟩ := s.wharfWrite_frame s.b.ctx s.frameVa (fr.bytes (s.w.frames.length + 1) s.w.exited)
  refine ⟨lat, ?_, hlat⟩
  rw [hwrite] at hset ⊢
  rw [henter]
  change ({ (s.setW (s.w.trapped a b p)).wharfWrite s.b.ctx s.frameVa (fr.bytes (s.w.frames.length + 1) s.w.exited) with
    probes := s.otherProbes, w := { w with r := { w.r with lat := lat } } } : State) = _
  rw [hset]
  rfl

end

/-- Settles O45: the two words raise their traps in the frame of an issue event, entering a handler is one state, and a frame's fields
stand at the sum of the lengths before them. -/
theorem trapEntry : Obligations.TrapEntry := by
  unfold Obligations.TrapEntry
  refine ⟨fun s f imm i cause hi hI ha => ?_, fun s t act hr hd hh hb => ?_, fun fr depth exited hc hd hb he ha => ?_⟩
  · rcases hi with ⟨rfl, rfl⟩ | ⟨rfl, rfl⟩
    · exact word_trap (.trap f imm) s (fun _ s => .trap s (.of 0x0D (imm.setWidth 64) s.pc)) hI ha (hI.region rfl) rfl
    · exact word_trap (.brk f imm) s (fun _ s => .trap s (.of 0x0E (imm.setWidth 64) s.pc)) hI ha (hI.region rfl) rfl
  · have hu := s.trapWord_enters t act hr hd hh hb
    have hages := Wave.ageOf_ageRun s.w s.w.table s.run
    obtain ⟨b, p, hx⟩ := Wave.afterBurst_frame (s.w.ageRun s.w.table s.run) s.pc s.run
    rw [hx] at hu
    obtain ⟨lat, henter, hlat⟩ := s.enterHandler_trapped (s.w.ageRun s.w.table s.run).age b p t s.pc s.run act false
    have hu := hu.trans henter
    dsimp only
    rw [hx, hu]
    refine ⟨hages, rfl, fun l hl => ⟨Wave.pcAt_atHandler _ _ t _ l hl, rfl, fun e he => hlat e l hl⟩, rfl⟩
  · obtain ⟨h0, h1, h8, h10, h18, h20, h24, h28, h30, h38⟩ := fr.head_fields depth hc hd hb
    refine ⟨fr.bytes_length depth exited he, ?_, ?_, ?_, ?_, ?_, ?_, ?_, ?_, ?_, ?_, fun l hl => ?_, fun k => fr.fieldAt_ext depth exited k⟩
    · exact (fr.fieldAt_head depth exited _ _ (by omega)).trans h0
    · exact (fr.fieldAt_head depth exited _ _ (by omega)).trans h1
    · exact (fr.fieldAt_head depth exited _ _ (by omega)).trans h8
    · exact (fr.fieldAt_head depth exited _ _ (by omega)).trans h10
    · exact (fr.fieldAt_head depth exited _ _ (by omega)).trans h18
    · exact (fr.fieldAt_head depth exited _ _ (by omega)).trans h20
    · exact (fr.fieldAt_head depth exited _ _ (by omega)).trans h24
    · exact (fr.fieldAt_head depth exited _ _ (by omega)).trans h28
    · exact (fr.fieldAt_head depth exited _ _ (by omega)).trans h30
    · exact (fr.fieldAt_head depth exited _ _ (by omega)).trans h38
    · obtain ⟨hpc, hage, hst⟩ := fieldAt_laneTable fr.pc fr.age fr.groups exited l hl (ha l)
      refine ⟨(fr.fieldAt_lanes depth exited _ _ (by omega)).trans hpc, ?_, fun hx => ?_, fun e he => ?_⟩
      · rw [show 0x140 + 2 * l = 0x40 + (0x100 + 2 * l) by omega]
        exact (fr.fieldAt_lanes depth exited _ _ (by omega)).trans hage
      · rw [show 0x180 + l = 0x40 + (0x140 + l) by omega]
        exact (fr.fieldAt_lanes depth exited _ _ (by omega)).trans (hst hx)
      · rw [show 0x200 + 24 * l + 8 * e = 0x200 + (24 * l + 8 * e) by omega]
        exact (fr.fieldAt_latch depth exited _ _ (by omega)).trans (fieldAt_latchTable fr.lat l e hl he)

end Machine
end Sys2Proof
end

section
/-! SUPPORT. The waves and blocks of a state: what each reads after one is replaced (the one that is checked out, or a stored one). -/

namespace Sys2Proof
open Machine
namespace Machine

/-- What stands at each wave's key after a wave is replaced; the one that is checked out keeps its key. -/
theorem State.wave_setWave (s : State) (k j : Nat) (w : Wave) (hw : s.w.st ≠ .absent → s.w.key = k → w.st ≠ .absent ∧ w.key = k) :
    (s.setWave k w).wave j = if j = k then w else s.wave j := by
  unfold State.setWave State.wave
  by_cases h : s.w.st ≠ .absent ∧ s.w.key = k
  · obtain ⟨hst, hkey⟩ := hw h.1 h.2
    simp only [h, hst, hkey, ne_eq, not_false_eq_true, and_self, if_true, true_and, eq_comm (a := k) (b := j)]
    by_cases e : j = k <;> simp only [e, if_true, if_false]
  · simp only [h, if_false, SMap.get_set]
    by_cases e : j = k
    · subst e
      simp only [h, if_false, if_true]
    · simp only [e, if_false]

/-- Replacing a wave changes nothing else. -/
theorem State.setWave_becomes (s : State) (k : Nat) (w : Wave) (hw : s.w.st ≠ .absent → s.w.key = k → w.st ≠ .absent ∧ w.key = k) :
    s.WaveBecomes (s.setWave k w) k w where
  wave := by rw [s.wave_setWave k k w hw, if_pos rfl]
  others := fun j hj => by rw [s.wave_setWave k j w hw, if_neg hj]
  rest := by
    unfold State.setWave
    split <;> rfl

theorem State.wave_here {s : State} {k : Nat} (h : s.w.st ≠ .absent) (hk : s.w.key = k) : s.wave k = s.w := if_pos ⟨h, hk⟩

/-- Updating a wave by a change that keeps its key and whether it is there. -/
theorem State.updWave_becomes (s : State) (k : Nat) (f : Wave → Wave) (hst : ∀ w, (f w).st = w.st) (hkey : ∀ w, (f w).key = w.key) :
    s.WaveBecomes (s.updWave k f) k (f (s.wave k)) :=
  s.setWave_becomes k _ fun h hk => by
    rw [State.wave_here h hk, hst, hkey]
    exact ⟨h, hk⟩

theorem State.block_setBlock (s : State) (h j : Nat) (b : Block) (hb : s.b.st ≠ .absent → s.b.handle = h → b.st ≠ .absent ∧ b.handle = h) :
    (s.setBlock h b).block j = if j = h then b else s.block j := by
  unfold State.setBlock State.block
  by_cases hh : s.b.st ≠ .absent ∧ s.b.handle = h
  · obtain ⟨hst, hkey⟩ := hb hh.1 hh.2
    simp only [hh, hst, hkey, ne_eq, not_false_eq_true, and_self, if_true, true_and, eq_comm (a := h) (b := j)]
    by_cases e : j = h <;> simp only [e, if_true, if_false]
  · simp only [hh, if_false, SMap.get_set]
    by_cases e : j = h
    · subst e
      simp only [hh, if_false, if_true]
    · simp only [e, if_false]

/-- Updating a block changes nothing but blocks. -/
theorem State.updBlock_frame (s : State) (h : Nat) (f : Block → Block) :
    s.updBlock h f = { s with b := (s.updBlock h f).b, blocks := (s.updBlock h f).blocks } := by
  unfold State.updBlock State.setBlock
  split <;> rfl

theorem State.block_here {s : State} {h : Nat} (hb : s.b.st ≠ .absent) (hk : s.b.handle = h) : s.block h = s.b := if_pos ⟨hb, hk⟩

/-- What each block reads after one is updated by a change that keeps its handle and whether it is there. -/
theorem State.block_updBlock (s : State) (h j : Nat) (f : Block → Block) (hst : ∀ b, (f b).st = b.st) (hkey : ∀ b, (f b).handle = b.handle) :
    (s.updBlock h f).block j = if j = h then f (s.block h) else s.block j :=
  s.block_setBlock h j _ fun hb hk => by
    rw [State.block_here hb hk, hst, hkey]
    exact ⟨hb, hk⟩

end Machine
end Sys2Proof
end

section
/-! SUPPORT. A parked group rejoins (R24, R176): its results are written and its pushes reach the latch. -/

namespace Sys2Proof
open Machine
namespace Machine

/-- Writing the result of a wait changes registers alone. -/
theorem RegsOnly.writeRes (s : State) (r : WaitR) : RegsOnly s (s.writeRes r) := by
  have hall (act : Mask) (o : Opnd) (n x : Nat) : RegsOnly s (s.setAll act o n x) := by
    have hfold : ∀ (ls : List Nat) (t : State), RegsOnly t (ls.foldl (fun t l => t.setOpnd o n l x) t) := by
      intro ls
      induction ls with
      | nil => exact .refl
      | cons l ls ih => exact fun t => (RegsOnly.setOpnd t o n l x).trans (ih _)
    unfold State.setAll
    split
    · exact .setOpnd s _ n 0 x
    · exact hfold _ s
  unfold State.writeRes
  split
  · exact .refl s
  · split
    · exact hall _ _ _ _
    · exact .setOpnd s _ _ _ _

theorem RegsOnly.writeAll (rs : List WaitR) (s : State) : RegsOnly s (rs.foldl State.writeRes s) := by
  induction rs generalizing s with
  | nil => exact .refl s
  | cons r rs ih => exact (RegsOnly.writeRes s r).trans (ih _)

theorem RegsOnly.pend {s t : State} (h : RegsOnly s t) : t.w.pend = s.w.pend := by
  unfold RegsOnly at h
  rw [h]
  rfl

/-- Without a wait on a counter, what satisfied waits return is written and nothing else. -/
theorem State.takeWaits_plain (rs : List WaitR) (s : State) (h : ∀ r ∈ rs, r.kind ≠ .count) : s.takeWaits rs = rs.foldl State.writeRes s := by
  induction rs generalizing s with
  | nil => rfl
  | cons r rs ih =>
    rw [State.takeWaits, if_neg (h r (by simp))]
    exact ih _ fun x hx => h x (by simp [hx])

theorem SMap.find?_above {α : Type} (m : SMap α) (lo q : Nat) (h : SMap.rising (some lo) m = true) (hq : q ≤ lo) : SMap.find? m q = none := by
  induction m generalizing lo with
  | nil => rfl
  | cons e m ih =>
    obtain ⟨k, x⟩ := e
    simp only [SMap.rising, Bool.and_eq_true, decide_eq_true_eq] at h
    rw [SMap.find?, if_neg (by omega)]
    exact ih k h.2 (by omega)

/-- The latch after the pushes that a group kept. -/
theorem Wave.latch_pushKept (hold : SMap W64) (lo : Option Nat) (hr : SMap.rising lo hold = true) (h32 : ∀ x ∈ hold, x.1 < 32) (w : Wave)
    (j l : Nat) (hl : l < 32) (hj : j < 3) :
    (w.pushKept hold).latch j l = match SMap.find? hold l with
      | none => w.latch j l
      | some x => if j = 0 then x else w.latch (j - 1) l := by
  induction hold generalizing lo w with
  | nil => rfl
  | cons e hold ih =>
    obtain ⟨k, x⟩ := e
    have hk : k < 32 := h32 (k, x) (by simp)
    have hrest : SMap.rising (some k) hold = true := by
      cases lo with
      | none => exact hr
      | some lo =>
        simp only [SMap.rising, Bool.and_eq_true] at hr
        exact hr.2
    have hstep := ih (some k) hrest (fun y hy => h32 y (by simp [hy])) (w.push k x)
    have hcons : w.pushKept ((k, x) :: hold) = (w.push k x).pushKept hold := rfl
    rw [hcons, hstep, SMap.find?]
    by_cases e : l = k
    · subst e
      rw [SMap.find?_above hold l l hrest (Nat.le_refl l), if_pos rfl]
      simp only [Wave.latch_push _ _ _ _ _ hk hl hj, if_true]
    · rw [if_neg e]
      cases SMap.find? hold l with
      | none => simp only [Wave.latch_push _ _ _ _ _ hk hl hj, e, if_false]
      | some y => simp only [Wave.latch_push _ k (j - 1) l x hk hl (by omega), e, if_false]

theorem Wave.pushKept_frame (hold : SMap W64) (w : Wave) : ∃ lat, w.pushKept hold = { w with r := { w.r with lat := lat } } := by
  induction hold generalizing w with
  | nil => exact ⟨w.r.lat, rfl⟩
  | cons e hold ih =>
    obtain ⟨m, hm⟩ := w.push_frame e.1 e.2
    have hcons : w.pushKept (e :: hold) = (w.push e.1 e.2).pushKept hold := rfl
    obtain ⟨lat, h⟩ := ih { w with r := { w.r with lat := m } }
    rw [hcons, hm, h]
    exact ⟨lat, rfl⟩

/-- What a group must find to rejoin (R24). -/
def State.mayRejoin (s : State) (g : Group) : Prop :=
  s.w.halted = false ∧ s.w.fwait = none ∧ s.w.pend = [] ∧ s.headRun = none ∧ ∀ r ∈ g.waits, r.done = true

/-- The state in which a group's results are written: the group gone, its lanes with age 0, a held burst over. -/
def State.regrouped (s : State) (m : Mask) (gs : List Group) : State :=
  s.dropBurst.setW { s.dropBurst.w with groups := gs, age := (lanesOf m).foldl (fun t l => SMap.set t 0 l 0) s.dropBurst.w.age }

theorem State.regrouped_eq (s : State) (m : Mask) (gs : List Group) :
    s.regrouped m gs = { s with w := { s.w with
      groups := gs, age := (lanesOf m).foldl (fun t l => SMap.set t 0 l 0) s.w.age
      burst := if s.held s.w.promo then 0 else s.w.burst } } := by
  unfold State.regrouped
  rw [s.dropBurst_eq]
  rfl

section
variable {s : State} {g : Group} {gs : List Group} (hst : s.w.st = .running) (hg : s.w.groups = g :: gs)
include hg

theorem State.rejoin_waits (h : ¬ s.mayRejoin g) : s.rejoin = s := by
  unfold State.rejoin
  simp only [hg]
  rw [if_pos]
  rw [Bool.not_eq_true', Bool.eq_false_iff]
  refine fun hr => h ?_
  simp only [Bool.and_eq_true, Bool.not_eq_true', beq_iff_eq, Option.isNone_iff_eq_none, List.all_eq_true] at hr
  obtain ⟨⟨⟨⟨⟨⟨_, hh⟩, hf⟩, hp⟩, hrun⟩, hd⟩, _⟩ := hr
  exact ⟨hh, hf, hp, hrun, hd⟩

include hst

/-- A group that rejoins: what its waits return is written, then what it kept is pushed unless its word was found bad. -/
theorem State.rejoin_goes (h : s.mayRejoin g) (hc : ∀ r ∈ g.waits, r.kind ≠ .count) :
    let v := g.waits.foldl State.writeRes (s.regrouped g.mask gs)
    s.rejoin = if g.bad then v else v.setW (v.w.pushKept g.hold) := by
  obtain ⟨hh, hf, hp, hrun, hd⟩ := h
  intro v
  have hcount : g.waits.any (fun r => r.kind == .count) = false :=
    List.any_eq_false.2 fun r hr => by simpa using hc r hr
  have hall : g.waits.all (fun r => r.done) = true := List.all_eq_true.2 hd
  have hv : RegsOnly (s.regrouped g.mask gs) v := .writeAll g.waits _
  have hpend : v.w.pend = [] := by rw [hv.pend, s.regrouped_eq]; exact hp
  have hview : v.w.view = s.dropBurst.w.view := hv.view
  obtain ⟨lat, hk⟩ := Wave.pushKept_frame g.hold v.w
  unfold State.rejoin
  simp only [hg, hst, hh, hf, hp, hrun, hall, hcount, Option.isNone_none, Bool.not_false, Bool.and_self, Bool.false_and, beq_self_eq_true,
    Bool.not_true, Bool.false_eq_true, if_false]
  have htake := State.takeWaits_plain g.waits (s.regrouped g.mask gs) hc
  unfold State.regrouped at htake
  rw [htake]
  show State.settleCharge (if v.w.pend != [] || g.bad then v else v.setW (v.w.pushKept g.hold)) s.dropBurst
    (if v.w.pend != [] || g.bad then v else v.setW (v.w.pushKept g.hold)) = _
  rw [hpend]
  cases g.bad
  · exact settleCharge_view _ _ _ (by rw [hk]; exact hview)
  · exact settleCharge_view _ _ _ hview

end

/-- R24 and R176 for the group that stands first. -/
theorem rejoin_effect (s : State) (g : Group) (gs : List Group) (hst : s.w.st = .running) (hg : s.w.groups = g :: gs) :
    let e := Instr.parkedGroupRejoin s.w.blk s.w.idx
    (¬ s.mayRejoin g → exec e s = .next s) ∧
    (s.mayRejoin g → (∀ r ∈ g.waits, r.kind ≠ .count) →
      ∃ (u t : State), exec e s = .next t ∧ u = { s with w := { s.w with groups := gs, age := u.w.age, burst := u.w.burst } } ∧
        (∀ l < 32, u.w.ageOf l = if g.mask.getLsbD l then 0 else s.w.ageOf l) ∧
        (u.w.burst = if s.w.burst ≠ 0 ∧ s.held s.w.promo = true then 0 else s.w.burst) ∧
        let v := g.waits.foldl State.writeRes u
        t = { v with w := { v.w with r := { v.w.r with lat := t.w.r.lat } } } ∧ (g.hold = [] ∨ g.bad = true → t.w.r.lat = v.w.r.lat) ∧
        (g.bad = false → SMap.rising none g.hold = true → (∀ x ∈ g.hold, x.1 < 32) → ∀ l < 32, ∀ j < 3, t.w.latch j l =
          match SMap.find? g.hold l with
          | none => v.w.latch j l
          | some x => if j = 0 then x else v.w.latch (j - 1) l)) := by
  have hexec : exec (.parkedGroupRejoin s.w.blk s.w.idx) s = .next s.rejoin :=
    congrArg Host.Outcome.next (if_pos ⟨by rw [hst]; decide, rfl⟩)
  refine ⟨fun h => hexec.trans (congrArg _ (State.rejoin_waits hg h)), fun h hc => ?_⟩
  have hu := s.regrouped_eq g.mask gs
  have hgoes := State.rejoin_goes hst hg h hc
  obtain ⟨lat, hk⟩ := Wave.pushKept_frame g.hold (g.waits.foldl State.writeRes (s.regrouped g.mask gs)).w
  refine ⟨s.regrouped g.mask gs, _, hexec, by rw [hu], fun l hl => ?_, ?_, ?_, ?_, ?_⟩
  · rw [hu]
    show SMap.get _ 0 l = _
    rw [SMap.get_foldSet 0 (fun _ => 0) _ (lanesOf_nodup g.mask)]
    simp only [mem_lanesOf, hl, true_and]
    rfl
  · rw [hu]
    by_cases hb : s.w.burst = 0 <;> by_cases hh : s.held s.w.promo = true <;> simp [hb, hh]
  · rw [hgoes, hk]
    cases g.bad <;> rfl
  · rw [hgoes]
    rintro (h0 | hb)
    · rw [h0]
      cases g.bad <;> rfl
    · rw [hb]
      rfl
  · rw [hgoes]
    intro hb hr h32 l hl j hj
    rw [hb]
    exact Wave.latch_pushKept g.hold none hr h32 _ j l hl hj

end Machine
end Sys2Proof
end

section
/-! SUPPORT. The events of the engines (R71, R91, R92, R99, R226, R363): a source is read, an element lands where it goes. -/

namespace Sys2Proof
open Machine
namespace Machine

/-- A payment changes the buckets alone. -/
theorem State.pay_frame (s : State) (c die fee : Nat) : s.pay c die fee = { s with tokens := (s.pay c die fee).tokens } := by
  unfold State.pay
  split <;> rfl

theorem State.viewBytes_congr {s t : State} (h : ∀ va pa, t.viewByte va pa = s.viewByte va pa) (va pa n : Nat) :
    t.viewBytes va pa n = s.viewBytes va pa n := by
  induction n generalizing va pa with
  | zero => rfl
  | succ n ih => rw [State.viewBytes, State.viewBytes, h, ih]

/-- What an engine reads does not depend on the buckets. -/
theorem State.srcBytes_tokens (s : State) (x : SMap Int) (c : Cmd) (e : Elem) : ({ s with tokens := x } : State).srcBytes c e = s.srcBytes c e := by
  unfold State.srcBytes
  split
  case h_2 va pa _ => 
    exact State.viewBytes_congr (s := s.load (32 * c.blk + c.wv)) (t := ({ s with tokens := x } : State).load (32 * c.blk + c.wv))
      (fun _ _ => rfl) va pa e.n
  all_goals rfl

theorem State.srcPoison_tokens (s : State) (x : SMap Int) (c : Cmd) (e : Elem) : ({ s with tokens := x } : State).srcPoison c e = s.srcPoison c e := by
  unfold State.srcPoison
  split <;> rfl

/-- An engine that may not go on pauses; else it pays and goes on. -/
theorem State.engineGo_eq (s : State) (c : Cmd) (fee : Nat) (k : State → State) :
    s.engineGo c fee k = if s.cmdBehind c || !s.canPay (s.block c.blk).ctx c.src fee then s.post c.event
      else k (s.pay (s.block c.blk).ctx c.src fee) := rfl

/-- Where an element's data goes on its channel, by the number the message gets. -/
theorem State.inject_eq (s : State) (c : Cmd) (leg : Option (Nat × Nat)) :
    s.inject c leg = ({ s with ids := if leg.isSome then s.ids + 1 else s.ids }, { c with chan := leg.map fun y => (y.1, y.2, s.ids) }) := by
  cases leg <;> rfl

/-- A command with elements left takes its place among the others. -/
theorem State.putCmd_going (s : State) (c : Cmd) {e : Elem} {rest : List Elem} (h : c.els = e :: rest) :
    s.putCmd c = { s with cmds := s.cmds.map fun x => if x.id = c.id then c else x } := by
  unfold State.putCmd
  rw [h]
  rfl

/-- A source that is read: the engine holds the data, and the pending-read bit of its sector goes down. -/
theorem State.readSource_eq (s : State) (c : Cmd) (e : Elem) (rest : List Elem) (hp : s.srcPoison c e = none) :
    s.readSource c e rest = { s.updBlock c.blk fun b => b.readDone e with
      cmds := s.cmds.map fun x => if x.id = c.id then
        { c with els := { e with src := .data (s.srcBytes c e) } :: rest, chan := (e.leg c.src).map fun y => (y.1, y.2, s.ids) } else x
      inbox := s.inbox ++ [.engineLand c.id]
      ids := if (e.leg c.src).isSome then s.ids + 1 else s.ids } := by
  unfold State.readSource
  rw [hp]
  dsimp only
  rw [State.inject_eq, State.putCmd_going _ _ rfl, s.updBlock_frame]
  rfl

theorem Block.readDone_frame (b : Block) (e : Elem) : b.readDone e = { b with pendR := (b.readDone e).pendR } := by
  unfold Block.readDone
  split <;> rfl

/-- What an engine does at the read of its head element's source. -/
theorem exec_engineSourceRead {s : State} {c : Cmd} {e : Elem} {rest : List Elem} (hc : s.cmd? c.id = some c) (he : c.els = e :: rest)
    (hsrc : ∀ l, e.src ≠ .data l) :
    exec (.engineSourceRead c.id) s = .next (s.engineGo c (e.readFee c.src) fun s => s.readSource c e rest) := by
  show execEngineSourceRead c.id s = _
  unfold execEngineSourceRead
  simp only [hc, he]

theorem Cmd.event_read {c : Cmd} {e : Elem} {rest : List Elem} (he : c.els = e :: rest) (hsrc : ∀ l, e.src ≠ .data l) :
    c.event = .engineSourceRead c.id := by
  unfold Cmd.event
  simp only [he]

theorem Cmd.event_land {c : Cmd} {e : Elem} {rest : List Elem} {bs : List Byte} (he : c.els = e :: rest) (hsrc : e.src = .data bs) :
    c.event = .engineLand c.id := by
  unfold Cmd.event
  simp only [he, hsrc]

/-- What an engine does with data it holds. -/
theorem exec_engineLand {s : State} {c : Cmd} {e : Elem} {rest : List Elem} {bs : List Byte} (hc : s.cmd? c.id = some c)
    (he : c.els = e :: rest) (hsrc : e.src = .data bs) :
    exec (.engineLand c.id) s = .next (s.engineGo c (e.landFee c.src) fun s => s.landHead c e bs rest) := by
  show execEngineLand c.id s = _
  unfold execEngineLand
  simp only [hc, he, hsrc]

/-- R71, R91, R92, R363: the read of a source. -/
theorem sourceRead_effect (s : State) (c : Cmd) (e : Elem) (rest : List Elem) (hc : s.cmd? c.id = some c) (he : c.els = e :: rest)
    (hsrc : ∀ l, e.src ≠ .data l) :
    let ctx := (s.block c.blk).ctx
    let go : Bool := !s.cmdBehind c && s.canPay ctx c.src (e.readFee c.src)
    let u := s.pay ctx c.src (e.readFee c.src)
    (go = false → exec (.engineSourceRead c.id) s = .next (s.post (.engineSourceRead c.id))) ∧
    (∀ pa, go = true → s.srcPoison c e = some pa →
      exec (.engineSourceRead c.id) s = .next (u.poisonBlock c.blk pa)) ∧
    (go = true → s.srcPoison c e = none → ∃ t, exec (.engineSourceRead c.id) s = .next t ∧
      t.cmds = s.cmds.map (fun x => if x.id = c.id then
        { c with els := { e with src := .data (s.srcBytes c e) } :: rest, chan := (e.leg c.src).map fun y => (y.1, y.2, s.ids) } else x) ∧
      t.inbox = s.inbox ++ [.engineLand c.id] ∧
      t = { u with cmds := t.cmds, inbox := t.inbox, b := t.b, blocks := t.blocks, ids := if (e.leg c.src).isSome then s.ids + 1 else s.ids } ∧
      ∀ h, t.block h = { s.block h with pendR := (t.block h).pendR }) := by
  intro ctx go u
  have hexec := exec_engineSourceRead hc he hsrc
  have hheld : (s.cmdBehind c || !s.canPay ctx c.src (e.readFee c.src)) = !go := by
    show _ = !(!s.cmdBehind c && s.canPay ctx c.src (e.readFee c.src))
    cases s.cmdBehind c <;> cases s.canPay ctx c.src (e.readFee c.src) <;> rfl
  have hgo (h : go = true) : exec (.engineSourceRead c.id) s = .next (u.readSource c e rest) := by
    rw [hexec, State.engineGo_eq, hheld, h]
    rfl
  have hu : u = { s with tokens := u.tokens } := s.pay_frame ctx c.src (e.readFee c.src)
  have hpoison : u.srcPoison c e = s.srcPoison c e := by rw [hu]; exact s.srcPoison_tokens _ c e
  have hbytes : u.srcBytes c e = s.srcBytes c e := by rw [hu]; exact s.srcBytes_tokens _ c e
  refine ⟨fun h => ?_, fun pa h hp => ?_, fun h hp => ?_⟩
  · rw [hexec, State.engineGo_eq, hheld, h, Cmd.event_read he hsrc]
    rfl
  · rw [hgo h, State.readSource, hpoison, hp]
  · refine ⟨_, (hgo h).trans (congrArg _ (u.readSource_eq c e rest (hpoison.trans hp))), ?_, ?_, ?_, fun j => ?_⟩
    · rw [hbytes, hu]
    · rw [hu]
    · rw [u.updBlock_frame, hu]
    · have hblock : (u.updBlock c.blk fun b => b.readDone e).block j = if j = c.blk then (u.block c.blk).readDone e else u.block j :=
        u.block_updBlock c.blk j _ (fun b => by rw [b.readDone_frame]) fun b => by rw [b.readDone_frame]
      have hsame (j : Nat) : u.block j = s.block j := by rw [hu]; rfl
      show (u.updBlock c.blk fun b => b.readDone e).block j = { s.block j with pendR := ((u.updBlock c.blk fun b => b.readDone e).block j).pendR }
      rw [hblock, hsame, hsame]
      by_cases h : j = c.blk
      · subst h
        rw [if_pos rfl]
        exact Block.readDone_frame _ e
      · rw [if_neg h]

/-! ### Landing (R91, R99, R226) -/

/-- A byte of an overlay after bytes were put into it. -/
theorem find?_putBytes (o : Overlay) (va : Nat) (bs : List Byte) (p : Nat) :
    SMap.find? (putBytes o va bs) p = if va ≤ p ∧ p < va + bs.length then bs[p - va]? else SMap.find? o p := by
  induction bs generalizing o va with
  | nil => simp [putBytes, show ¬ (va ≤ p ∧ p < va) by omega]
  | cons b bs ih =>
    rw [putBytes, ih, SMap.find?_insert]
    by_cases h1 : p = va
    · subst h1
      simp
    · by_cases h2 : va + 1 ≤ p ∧ p < va + 1 + bs.length
      · have h3 : va ≤ p ∧ p < va + (bs.length + 1) := by omega
        have h4 : p - va = (p - (va + 1)) + 1 := by omega
        simp [h2, h3, h4]
      · have h3 : ¬ (va ≤ p ∧ p < va + (bs.length + 1)) := by omega
        simp only [h2, h3, h1, if_false, List.length_cons]

/-- The value of loaded bytes is the sign-extended one for the signed sizes (Table 57). -/
theorem extend_eq_loaded (sz : Sz) (x : Nat) : extend sz x = sz.loaded x := by
  have hext (w : Nat) (hw : 0 < w) : bitsOf 32 (intOf true w x) = ((BitVec.ofNat w x).signExtend 32).toNat := by
    rw [bitsOf_eq, intOf_signed w x hw]
    rfl
  cases sz with
  | i8 => exact hext 8 (by decide)
  | i16 => exact hext 16 (by decide)
  | _ => rfl

/-- Writing an operand keeps a wave's key and whether it is there. -/
theorem Wave.setOpnd_key (w : Wave) (o : Opnd) (n l x : Nat) : (w.setOpnd o n l x).st = w.st ∧ (w.setOpnd o n l x).key = w.key := by
  have h : w.setOpnd o n l x = w.takeRegs (w.setOpnd o n l x) := congrArg State.w (RegsOnly.setOpnd (State.reset.setW w) o n l x)
  rw [h]
  exact ⟨rfl, rfl⟩

theorem landBytes_effect (s : State) (c : Cmd) (dst : Dst) (bs : List Byte) :
    let k := 32 * c.blk + c.wv
    let t := s.landBytes c dst bs
    match dst with
    | .view va => ∀ j < bs.length, SMap.find? (t.wave k).view.bytes (va + j) = bs[j]?
    | .sc off => Written (s.block c.blk).sc (t.block c.blk).sc off bs
    | .dm key => Written s.dsm t.dsm key bs
    | .dev pa => Written s.mem t.mem pa bs
    | .host pa => Written s.hmem t.hmem pa bs
    | .reg d lane sz => s.WaveBecomes t k { (s.wave k).setOpnd d sz.regs lane (sz.loaded (leNat bs)) with
        pending := (s.wave k).pending.erase (d, sz.regs) } := by
  intro k t
  cases dst with
  | view va =>
    intro j hj
    have hwave : t.wave k = (s.wave k).landView va bs := (s.updWave_becomes k (fun w => w.landView va bs) (fun _ => rfl) fun _ => rfl).wave
    rw [hwave]
    refine (find?_putBytes _ va bs (va + j)).trans ?_
    rw [if_pos ⟨Nat.le_add_right va j, by omega⟩, Nat.add_sub_cancel_left]
  | sc off =>
    have hblock : t.block c.blk = _ := (s.block_updBlock c.blk c.blk (fun b =>
      { b with sc := Memory.setBytes b.sc off bs, pendW := SMap.set b.pendW 0 (off / 16) (SMap.get b.pendW 0 (off / 16) - 1) })
      (fun _ => rfl) fun _ => rfl).trans (if_pos rfl)
    intro p
    rw [hblock]
    exact Memory.byte_setBytes _ off p bs
  | dm key => exact fun p => Memory.byte_setBytes _ key p bs
  | dev pa =>
    intro p
    rw [show t.mem = _ from s.writeDev_mem pa bs]
    exact Memory.byte_setBytes _ pa p bs
  | host pa => exact fun p => Memory.byte_setBytes _ pa p bs
  | reg d lane sz =>
    have h := s.updWave_becomes k (fun w => { w.setOpnd d sz.regs lane (extend sz (leNat bs)) with pending := w.pending.erase (d, sz.regs) })
      (fun w => (w.setOpnd_key d sz.regs lane _).1) fun w => (w.setOpnd_key d sz.regs lane _).2
    simp only [extend_eq_loaded] at h
    simpa only [t, State.landBytes, extend_eq_loaded] using h

/-- R229: a tag whose last command ends is ready. -/
theorem tagDown_ready (b : Block) (k j : Nat) (hj : j < 64) :
    (b.tagDown k).tagready.getLsbD j = (b.tagready.getLsbD j || (decide (j = k) && decide (SMap.get b.inflight 0 k ≤ 1))) := by
  show (if SMap.get b.inflight 0 k - 1 = 0 then b.tagready ||| BitVec.ofNat 64 (2 ^ k) else b.tagready).getLsbD j = _
  by_cases h : SMap.get b.inflight 0 k ≤ 1
  · rw [if_pos (by omega), BitVec.getLsbD_or, tagBit_getLsbD k j hj, decide_eq_true h, Bool.and_true]
  · rw [if_neg (by omega), decide_eq_false h, Bool.and_false, Bool.or_false]

end Machine
end Sys2Proof
end

section
/-! SUPPORT. The events of memory's side (R78, R80, R82, R89, R90, R125, R138): requests of rounds, replies, the log's index, probes. -/

namespace Sys2Proof
open Machine
namespace Machine

/-! ### Requests of rounds (R80, R82) -/

/-- The run that a full buffer is written out in: the held requests of the buffer but the one that arrives. -/
def State.spills (s : State) (q x : Req) : Bool :=
  s.bufferFull q.loc && x.id != q.id && x.held && !x.spilled && bufferOf x.loc == bufferOf q.loc

/-- A request of the rounds after the arrival of one of them. -/
def State.afterArrival (s : State) (q x : Req) : Req :=
  { x with held := x.held || x.id == q.id, spilled := x.spilled || s.spills q x
           far := if s.spills q x then s.runTo q.loc == some true else x.far }

theorem State.afterArrival_eq (s : State) (q x : Req) :
    (if x.id = q.id then { x with held := true }
      else if s.bufferFull q.loc && x.held && !x.spilled && bufferOf x.loc == bufferOf q.loc then
        { x with spilled := true, far := s.runTo q.loc == some true }
      else x) = s.afterArrival q x := by
  unfold State.afterArrival State.spills
  by_cases h : x.id = q.id
  · simp [h]
  · rw [if_neg h]
    cases hs : s.bufferFull q.loc && x.held && !x.spilled && bufferOf x.loc == bufferOf q.loc
    · have hs' : (s.bufferFull q.loc && x.id != q.id && x.held && !x.spilled && bufferOf x.loc == bufferOf q.loc) = false := by
        rw [← hs, bne_iff_ne.2 h, Bool.and_true]
      simp [hs', beq_false_of_ne h]
    · have hs' : (s.bufferFull q.loc && x.id != q.id && x.held && !x.spilled && bufferOf x.loc == bufferOf q.loc) = true := by
        rw [← hs, bne_iff_ne.2 h, Bool.and_true]
      simp [hs', beq_false_of_ne h]

section
variable {s : State} {q : Req} (hq : (s.reqs.find? fun x => x.id == q.id) = some q)
include hq

/-- ROUND_REQUEST_ARRIVE of a request that stands among those of the rounds. -/
theorem exec_roundRequestArrive : exec (.roundRequestArrive q.id) s =
    .next (if q.held then s
      else if s.reqBehind q then s.postOnce (.roundRequestArrive q.id)
      else if s.bufferFull q.loc && (s.runTo q.loc).isNone then (s.postOnce (.roundRequestArrive q.id)).roundArrived q
      else State.roundArrived { s with reqs := s.reqs.map (s.afterArrival q) } q) := by
  show execRoundRequestArrive q.id s = _
  unfold execRoundRequestArrive
  simp only [hq, State.afterArrival_eq]

/-- The home holds the request, and a full buffer is written out first. -/
theorem roundRequest_held (hh : q.held = false) (hb : s.reqBehind q = false) (hf : s.bufferFull q.loc = true → s.runTo q.loc ≠ none) :
    exec (.roundRequestArrive q.id) s = .next (State.roundArrived { s with reqs := s.reqs.map (s.afterArrival q) } q) := by
  have hroom : ¬ (s.bufferFull q.loc && (s.runTo q.loc).isNone) = true := by
    rw [Bool.and_eq_true, Option.isNone_iff_eq_none]
    exact fun h => hf h.1 h.2
  rw [exec_roundRequestArrive hq, hh, hb, if_neg Bool.false_ne_true, if_neg Bool.false_ne_true, if_neg hroom]

end

/-! ### Replies (R78, R138) -/

theorem leNat_append (a b : List Byte) : leNat (a ++ b) = leNat a + 256 ^ a.length * leNat b := by
  induction a with
  | nil => simp [leNat]
  | cons x a ih =>
    rw [List.cons_append, leNat, leNat, ih, List.length_cons, pow_succ]
    ring

theorem regsNat_cons (r : W32) (rs : List W32) : regsNat (r :: rs) = r.toNat + 2 ^ 32 * regsNat rs := by
  unfold regsNat regBytes
  rw [List.flatMap_cons, leNat_append, leBytes_length, leNat_leBytes 4 _ (lt_of_lt_of_eq r.isLt (by norm_num))]
  norm_num

/-- Register j of a value made of registers. -/
theorem regsNat_reg (rs : List W32) (j : Nat) (hj : j < rs.length) : BitVec.ofNat 32 (regsNat rs / 2 ^ (32 * j)) = rs.getD j 0 := by
  induction rs generalizing j with
  | nil => simp at hj
  | cons r rs ih =>
    have hr := r.isLt
    rw [regsNat_cons]
    cases j with
    | zero =>
      refine BitVec.eq_of_toNat_eq ?_
      rw [BitVec.toNat_ofNat]
      simp only [Nat.mul_zero, pow_zero, Nat.div_one, List.getD_cons_zero]
      omega
    | succ j =>
      have hdiv : (r.toNat + 2 ^ 32 * regsNat rs) / 2 ^ (32 * (j + 1)) = regsNat rs / 2 ^ (32 * j) := by
        rw [show 2 ^ (32 * (j + 1)) = 2 ^ 32 * 2 ^ (32 * j) by rw [← pow_add]; congr 1; omega, ← Nat.div_div_eq_div_mul]
        congr 1
        omega
      rw [hdiv, List.getD_cons_succ]
      exact ih j (by simpa using hj)

/-- The registers of a lane after several were written, whatever the lane. -/
theorem Wave.vreg_setVs_same (w : Wave) (d l n x j : Nat) (hj : j < n) : (w.setVs d l n x).vreg (d + j) l = BitVec.ofNat 32 (x / 2 ^ (32 * j)) := by
  have hset (w : Wave) (m k : Nat) (y : W32) : (w.setV m l y).vreg k l = if k = m then y else w.vreg k l := by
    show SMap.get (SMap.set w.r.v 0 (32 * m + l) y) 0 (32 * k + l) = _
    rw [SMap.get_set]
    exact if_congr (by omega) rfl rfl
  have hbelow : ∀ (n : Nat) (w : Wave) (d k x : Nat), k < d → (w.setVs d l n x).vreg k l = w.vreg k l := by
    intro n
    induction n with
    | zero => exact fun _ _ _ _ _ => rfl
    | succ n ih =>
      intro w d k x hk
      rw [Wave.setVs, ih _ _ _ _ (by omega), hset, if_neg (by omega)]
  induction n generalizing w d x j with
  | zero => omega
  | succ n ih =>
    rw [Wave.setVs]
    cases j with
    | zero => rw [hbelow _ _ _ _ _ (by omega), Nat.add_zero, hset, if_pos rfl, Nat.mul_zero, pow_zero, Nat.div_one]
    | succ j =>
      rw [show d + (j + 1) = d + 1 + j by omega, ih _ _ _ _ (by omega), Nat.div_div_eq_div_mul, ← pow_add,
        show 32 + 32 * j = 32 * (j + 1) by omega]

theorem State.replyBehind_iff (s : State) (r : Reply) :
    s.replyBehind r = true ↔ ∃ x ∈ s.replies, x.id < r.id ∧ x.src = r.src ∧ (x.dest = r.dest ∨ x.blk = r.blk) := by
  unfold State.replyBehind
  simp only [List.any_eq_true, Bool.and_eq_true, Bool.or_eq_true, decide_eq_true_eq, beq_iff_eq, and_assoc]

/-- A wave that takes the value and the flags of a reply. -/
def Wave.takeReply (w : Wave) (r : Reply) : Wave :=
  { (w.setOpnd r.dst r.regs.length r.lane (regsNat r.regs)).orFlags r.flags with
    pending := (w.setOpnd r.dst r.regs.length r.lane (regsNat r.regs)).pending.erase (r.dst, r.regs.length) }

theorem Wave.setOpnd_pending (w : Wave) (o : Opnd) (n l x : Nat) : (w.setOpnd o n l x).pending = w.pending := by
  have h : w.setOpnd o n l x = w.takeRegs (w.setOpnd o n l x) := congrArg State.w (RegsOnly.setOpnd (State.reset.setW w) o n l x)
  rw [h]
  rfl

theorem Wave.takeReply_eq (w : Wave) (r : Reply) : w.takeReply r =
    { (w.setOpnd r.dst r.regs.length r.lane (regsNat r.regs)).orFlags r.flags with pending := w.pending.erase (r.dst, r.regs.length) } := by
  rw [Wave.takeReply, Wave.setOpnd_pending]

section
variable {s : State} {r : Reply} (hr : (s.replies.find? fun x => x.id == r.id) = some r)
include hr

/-- MEMORY_REPLY of a reply behind another of its channel. -/
theorem memoryReply_behind (hb : s.replyBehind r = true) : exec (.memoryReply r.id) s = .next (s.postOnce (.memoryReply r.id)) := by
  show execMemoryReply r.id s = _
  unfold execMemoryReply
  simp only [hr, hb, if_true]

variable (hb : s.replyBehind r = false) (hw : (s.wave (32 * r.blk + r.wv)).st ≠ .absent)
include hb hw

theorem memoryReply_poison {loc : Nat} (hp : r.poison = some loc) :
    exec (.memoryReply r.id) s = .next (State.poisonBlock { s with replies := s.replies.filter fun x => x.id != r.id } r.blk loc) := by
  show execMemoryReply r.id s = _
  unfold execMemoryReply
  simp only [hr, hb, Bool.false_eq_true, if_false, hp]
  exact if_neg hw

/-- A reply delivers its value and flags; a saved block's record takes them too. -/
theorem memoryReply_value (hp : r.poison = none) :
    let u := State.setWave { s with replies := s.replies.filter fun x => x.id != r.id } (32 * r.blk + r.wv)
      ((s.wave (32 * r.blk + r.wv)).takeReply r)
    exec (.memoryReply r.id) s = .next (if (u.block r.blk).st = .saved then
        (u.orRecord r.blk r.wv (r.flags.setWidth 32)).putRecord r.blk else u) := by
  show execMemoryReply r.id s = _
  unfold execMemoryReply
  simp only [hr, hb, Bool.false_eq_true, if_false, hp]
  refine (if_neg hw).trans ?_
  rfl

end

theorem State.block_setWave (s : State) (k h : Nat) (w : Wave) : (s.setWave k w).block h = s.block h := by
  unfold State.setWave
  split <;> rfl

/-! ### The log's index (R125) -/

theorem mem_addOnce {α : Type} [DecidableEq α] (l : List α) (x y : α) : y ∈ addOnce l x ↔ y ∈ l ∨ y = x := by
  unfold addOnce
  split
  · next h => exact ⟨.inl, fun hy => hy.elim id fun e => e ▸ h⟩
  · rw [List.mem_append, List.mem_singleton]

/-- Events posted for the members of a list that a condition selects: nothing but the inbox changes, no event goes, and each one's stands. -/
theorem postOnce_fold {α : Type} (p : α → Prop) [DecidablePred p] (f : α → Instr) (xs : List α) (s : State) :
    ∃ es, xs.foldl (fun s x => if p x then s.postOnce (f x) else s) s = { s with inbox := es } ∧
      (∀ e ∈ s.inbox, e ∈ es) ∧ ∀ x ∈ xs, p x → f x ∈ es := by
  induction xs generalizing s with
  | nil => exact ⟨s.inbox, rfl, fun _ h => h, fun _ h => by cases h⟩
  | cons x xs ih =>
    by_cases hp : p x
    · obtain ⟨es, h, hkeep, hin⟩ := ih (s.postOnce (f x))
      refine ⟨es, ?_, fun e he => hkeep e ((mem_addOnce _ _ _).2 (.inl he)), fun y hy hpy => ?_⟩
      · rw [List.foldl_cons, if_pos hp, h]
        rfl
      · rcases List.mem_cons.1 hy with rfl | hy
        · exact hkeep _ ((mem_addOnce _ _ _).2 (.inr rfl))
        · exact hin y hy hpy
    · obtain ⟨es, h, hkeep, hin⟩ := ih s
      refine ⟨es, ?_, hkeep, fun y hy hpy => ?_⟩
      · rw [List.foldl_cons, if_neg hp, h]
      · rcases List.mem_cons.1 hy with rfl | hy
        · exact absurd hpy hp
        · exact hin y hy hpy

/-- Packets that wait to start are looked at again. -/
theorem State.startsAgain_eq (s : State) :
    ∃ es, s.startsAgain = { s with inbox := es } ∧ (∀ e ∈ s.inbox, e ∈ es) ∧ ∀ e ∈ s.grps, e.2.st = .pending → .launchStart e.1 ∈ es := by
  obtain ⟨es, h, hkeep, hin⟩ := postOnce_fold (fun e : Nat × Grp => (e.2.st == .pending) = true) (fun e => .launchStart e.1) s.grps s
  exact ⟨es, h, hkeep, fun e he hp => hin e he (beq_iff_eq.2 hp)⟩

/-- REPLAY_LOG_INDEX reads a context's log once. -/
theorem replayLogIndex_effect (s : State) (c : Nat) :
    ((s.ctx c).log ≠ none → exec (.replayLogIndex c) s = .next s) ∧
    ((s.ctx c).log = none → ∃ t, exec (.replayLogIndex c) s = .next t ∧ (t.ctx c).log = some (s.logRead c) ∧
      t = { s.setCtx c { s.ctx c with log := some (s.logRead c) } with inbox := t.inbox } ∧
      ∀ e ∈ s.grps, e.2.st = .pending → .launchStart e.1 ∈ t.inbox) := by
  have hexec : exec (.replayLogIndex c) s = .next (if (s.ctx c).log.isSome then s
      else (s.setCtx c { s.ctx c with log := some (s.logRead c) }).startsAgain) := rfl
  rw [hexec]
  refine ⟨fun h => ?_, fun h => ?_⟩
  · rw [if_pos (Option.isSome_iff_ne_none.2 h)]
  · obtain ⟨es, hes, _, hin⟩ := (s.setCtx c { s.ctx c with log := some (s.logRead c) }).startsAgain_eq
    rw [h]
    refine ⟨_, rfl, ?_, ?_, ?_⟩
    · simp only [Option.isSome_none, Bool.false_eq_true, if_false]
      rw [hes]
      exact congrArg Ctx.log ((s.ctx_setCtx c c _).trans (if_pos rfl))
    · simp only [Option.isSome_none, Bool.false_eq_true, if_false]
      rw [hes]
    · simp only [Option.isSome_none, Bool.false_eq_true, if_false]
      rw [hes]
      exact hin

/-! ### Probes (R90) -/

/-- A die is quiet behind a number: what it sent before has arrived. -/
theorem State.dieQuiet_iff (s : State) (p : Probe) :
    let gone (n src dest : Nat) : Prop := n < p.id → src = p.die → p.far = false ∧ dest ≠ p.die
    s.dieQuiet p.die p.far p.id = true ↔ (∀ c ∈ s.cmds, ∀ a b n, c.chan = some (a, b, n) → gone n a b) ∧
      (∀ q ∈ s.reqs ++ s.gate, q.held = false → gone q.id q.src (locDie q.loc)) ∧ ∀ r ∈ s.replies, gone r.id r.src r.dest := by
  intro gone
  have hold (n src dest : Nat) : (decide (n < p.id) && src == p.die && (p.far || dest == p.die)) = false ↔ gone n src dest := by
    show _ ↔ (n < p.id → src = p.die → p.far = false ∧ dest ≠ p.die)
    by_cases h1 : n < p.id <;> by_cases h2 : src = p.die <;> cases p.far <;> simp [h1, h2]
  have hcmds : (s.cmds.any fun c => match c.chan with
      | some (a, b, q) => decide (q < p.id) && a == p.die && (p.far || b == p.die)
      | none => false) = false ↔ ∀ c ∈ s.cmds, ∀ a b n, c.chan = some (a, b, n) → gone n a b := by
    rw [List.any_eq_false]
    refine forall₂_congr fun c _ => ?_
    cases hc : c.chan with
    | none => simp
    | some x =>
      obtain ⟨a, b, n⟩ := x
      rw [Bool.not_eq_true, hold]
      exact ⟨fun h a' b' n' e => by cases e; exact h, fun h => h a b n rfl⟩
  have hreqs : ((s.reqs ++ s.gate).any fun q => !q.held && (decide (q.id < p.id) && q.src == p.die && (p.far || locDie q.loc == p.die))) = false ↔
      ∀ q ∈ s.reqs ++ s.gate, q.held = false → gone q.id q.src (locDie q.loc) := by
    rw [List.any_eq_false]
    refine forall₂_congr fun q _ => ?_
    rw [Bool.not_eq_true, Bool.and_eq_false_imp, Bool.not_eq_true', hold]
  have hreplies : (s.replies.any fun r => decide (r.id < p.id) && r.src == p.die && (p.far || r.dest == p.die)) = false ↔
      ∀ r ∈ s.replies, gone r.id r.src r.dest := by
    rw [List.any_eq_false]
    refine forall₂_congr fun r _ => ?_
    rw [Bool.not_eq_true, hold]
  rw [← hcmds, ← hreqs, ← hreplies]
  unfold State.dieQuiet
  simp only [Bool.and_eq_true, Bool.not_eq_true', and_assoc] <;> rfl

/-- SWEEP_PROBE_RETURN: the probe comes back once its die is quiet behind it. -/
theorem exec_sweepProbeReturn {s : State} {p : Probe} (hp : (s.probes.find? fun x => x.id == p.id) = some p) :
    exec (.sweepProbeReturn p.id) s = if s.dieQuiet p.die p.far p.id = true then
        .next { s with probes := s.probes.map fun x => if x.id = p.id then { x with returned := true } else x }
      else .next (s.post (.sweepProbeReturn p.id)) := by
  show execSweepProbeReturn p.id s = _
  unfold execSweepProbeReturn
  simp only [hp]

end Machine
end Sys2Proof
end

section
/-! SUPPORT. Order gates (R78, R79, R110, R121 to R123): when a request is admitted, and what its admission does. -/

namespace Sys2Proof
open Machine
namespace Machine

theorem State.writeDev_frame (s : State) (pa : Nat) (bs : List Byte) :
    ∃ m cs p, s.writeDev pa bs = { s with mem := m, ctxs := cs, poison := p } := by
  unfold State.writeDev
  split <;> exact ⟨_, _, _, rfl⟩

/-- A write at a location changes memories alone. -/
theorem State.setLocBytes_frame (s : State) (loc : Nat) (bs : List Byte) :
    ∃ m d cs p, s.setLocBytes loc bs = { s with mem := m, dsm := d, ctxs := cs, poison := p } := by
  unfold State.setLocBytes
  split
  · exact ⟨_, _, _, _, rfl⟩
  · obtain ⟨m, cs, p, h⟩ := s.writeDev_frame loc bs
    exact ⟨m, _, cs, p, h⟩

theorem State.setLoc_frame (s : State) (loc n x : Nat) :
    ∃ m d cs p, s.setLoc loc n x = { s with mem := m, dsm := d, ctxs := cs, poison := p } := s.setLocBytes_frame loc _

theorem State.wave_setLoc (s : State) (loc n x k : Nat) : (s.setLoc loc n x).wave k = s.wave k := by
  obtain ⟨m, d, cs, p, h⟩ := s.setLoc_frame loc n x
  rw [h]
  rfl

/-! ### Reaching the gate -/

theorem List.any_split {α : Type} (p f : α → Bool) (l : List α) : (l.any (fun x => !p x && f x) || l.any fun x => p x && f x) = l.any f := by
  induction l with
  | nil => rfl
  | cons x l ih =>
    rw [List.any_cons, List.any_cons, List.any_cons, ← ih]
    cases p x <;> cases f x <;> cases l.any (fun x => !p x && f x) <;> cases l.any (fun x => p x && f x) <;> rfl

/-- The order in which requests reach a gate does not say what stands before one in its wave. -/
theorem State.gateBehind_atGate (s : State) (id : Nat) (q : Req) : (s.atGate id).gateBehind q = s.gateBehind q := by
  unfold State.gateBehind State.atGate
  rw [List.any_append, List.any_map, List.any_filter, List.any_filter]
  exact List.any_split (fun x : Req => x.id == id) _ s.gate

theorem mem_takeWhile_iff {α : Type} (p : α → Bool) (l : List α) (x : α) :
    x ∈ l.takeWhile p ↔ ∃ a b, l = a ++ x :: b ∧ (∀ y ∈ a, p y = true) ∧ p x = true := by
  induction l with
  | nil => simp
  | cons y l ih =>
    by_cases hy : p y = true
    · rw [List.takeWhile_cons_of_pos hy, List.mem_cons, ih]
      constructor
      · rintro (rfl | ⟨a, b, rfl, ha, hx⟩)
        · exact ⟨[], l, rfl, fun _ h => absurd h List.not_mem_nil, hy⟩
        · refine ⟨y :: a, b, rfl, fun z hz => ?_, hx⟩
          rcases List.mem_cons.1 hz with rfl | hz
          · exact hy
          · exact ha z hz
      · rintro ⟨_ | ⟨z, a⟩, b, h, ha, hx⟩
        · exact .inl (List.cons.inj h).1.symm
        · exact .inr ⟨a, b, (List.cons.inj h).2, fun w hw => ha w (List.mem_cons_of_mem _ hw), hx⟩
    · rw [List.takeWhile_cons_of_neg hy]
      refine ⟨fun h => absurd h List.not_mem_nil, ?_⟩
      rintro ⟨_ | ⟨z, a⟩, b, h, ha, hx⟩
      · exact absurd ((List.cons.inj h).1 ▸ hx) hy
      · exact absurd ((List.cons.inj h).1 ▸ ha z List.mem_cons_self) hy

/-- An acquire that stands before another request at a gate and waits for the same lock. -/
def State.acquiresFirst (u : State) (q : Req) : Prop :=
  ∃ a x b, (u.gate.filter fun y => y.held) = a ++ x :: b ∧ (∀ y ∈ a, y.id ≠ q.id) ∧ x.id ≠ q.id ∧ x.lock = true ∧
    x.op = .swap ∧ x.loc / 64 = q.loc / 64 ∧ x.spilled = false

theorem State.acquireBefore_iff (u : State) (q : Req) :
    u.acquireBefore q = true ↔ q.lock = true ∧ q.op = .swap ∧ u.acquiresFirst q := by
  unfold State.acquireBefore State.acquiresFirst
  simp only [Bool.and_eq_true, beq_iff_eq, List.any_eq_true, mem_takeWhile_iff, bne_iff_ne, Bool.not_eq_true', and_assoc]
  refine and_congr_right fun _ => and_congr_right fun _ => ⟨?_, ?_⟩
  · rintro ⟨x, ⟨a, b, h, ha, hx⟩, rest⟩
    exact ⟨a, x, b, h, ha, hx, rest⟩
  · rintro ⟨a, x, b, h, ha, hx, rest⟩
    exact ⟨x, ⟨a, b, h, ha, hx⟩, rest⟩

/-- Whether a request waits at its gate for a lock that is held or for an acquire that arrived before it. -/
theorem State.waitsForLock_iff (u : State) (q : Req) :
    (u.lockBlocked q || u.acquireBefore q) = true ↔
      q.lock = true ∧ q.op = .swap ∧ (u.loc (q.loc + 1) 1 % 2 = 1 ∨ u.acquiresFirst q) := by
  rw [Bool.or_eq_true, u.acquireBefore_iff]
  unfold State.lockBlocked
  simp only [Bool.and_eq_true, beq_iff_eq]
  tauto

/-! ### What a gate decides -/

section
variable {u : State} {q : Req}

theorem State.gateDecide_behind (h : u.gateBehind q = true) : u.gateDecide q = u := if_pos h

section
variable (h : u.gateBehind q = false)
include h

theorem State.gateDecide_replay (hd : isDm q.loc = false) (hr : u.replaying q.ctx = true) : u.gateDecide q = u.gateReplay q := by
  unfold State.gateDecide
  simp only [h, hd, hr, Bool.false_eq_true, if_false, if_true]

theorem State.gateDecide_blocked (hd : isDm q.loc = true ∨ u.replaying q.ctx = false) (hb : (u.lockBlocked q || u.acquireBefore q) = true) :
    u.gateDecide q = u := by
  unfold State.gateDecide
  rw [h, if_neg Bool.false_ne_true]
  cases hdm : isDm q.loc
  · rw [hdm] at hd
    rcases hd with hd | hd
    · cases hd
    · simp only [hd, hb, Bool.false_eq_true, if_false, if_true]
  · simp only [hb, if_true]

theorem State.gateDecide_dm (hd : isDm q.loc = true) (hb : (u.lockBlocked q || u.acquireBefore q) = false) : u.gateDecide q = u.admitted q := by
  unfold State.gateDecide
  simp only [h, hd, hb, Bool.false_eq_true, if_false, if_true]

theorem State.gateDecide_logged (hd : isDm q.loc = false) (hr : u.replaying q.ctx = false) (hb : (u.lockBlocked q || u.acquireBefore q) = false) :
    (∀ t, u.logAdmit q.ctx q.lineVa q.ident q.lane = some t → u.gateDecide q = t.admitted q) ∧
    (u.logAdmit q.ctx q.lineVa q.ident q.lane = none → u.gateDecide q = u.gateStopped q.id) := by
  unfold State.gateDecide
  simp only [h, hd, hr, hb, Bool.false_eq_true, if_false]
  exact ⟨fun t ht => by rw [ht], fun ht => by rw [ht]⟩

end

end

/-! ### Admission -/

/-- The state in which an admitted request is performed: it has left its gate. -/
def State.leftGate (s : State) (q : Req) : State := { s with gate := s.gate.filter fun x => x.id != q.id }

/-- What admission performs before the gate looks at the line's other requests. -/
def State.performed (s : State) (q : Req) : State :=
  let v := s.leftGate q
  let k := 32 * q.blk + q.wv
  if !q.lock then v.applyReq q
  else if v.poisoned q.loc 64 then v.poisonBlock q.blk q.loc
  else if q.op = .store then (v.freeRelease q.loc).ungrant k q.loc true
  else
    let acqs := v.loc (q.loc + 8) 8 + 1
    let s := ((v.setLoc (q.loc + 1) 1 1).setLoc (q.loc + 4) 4 q.blk).setLoc (q.loc + 8) 8 acqs
    let s := match (s.wave k).waits.find? fun r => r.kind == .free && r.aux == q.id && !r.done with
      | none => s
      | some r =>
        let u := s.satisfy k r (bytesRegs 2 acqs)
        u.1.updWave k fun w => w.mapWaits fun x => if x = r then u.2 else x
    s.grant k q.loc true q.va 0

/-- Admission: the request is performed, then the gate looks at the line's other requests again. -/
theorem State.admitted_eq (s : State) (q : Req) :
    ∃ u : State, s.admitted q = u.wake ∧ u = { s.performed q with inbox := u.inbox } ∧
      ∀ x ∈ (s.performed q).gate, x.loc / 64 = q.loc / 64 → .gateAdmit x.id ∈ u.inbox := by
  obtain ⟨es, h, _, hin⟩ := postOnce_fold (fun x : Req => x.loc / 64 = q.loc / 64) (fun x => .gateAdmit x.id) (s.performed q).gate (s.performed q)
  exact ⟨_, congrArg State.wake h, rfl, hin⟩

/-- Performing a request at its home leaves the gate as it is. -/
theorem State.applyReq_gate (s : State) (q : Req) : (s.applyReq q).gate = s.gate := by
  obtain ⟨m, d, cs, p, h⟩ := s.setLoc_frame q.loc q.dt.bytes (aluOp q.op q.dt q.fmode (s.loc q.loc q.dt.bytes) q.b.toNat q.c.toNat).1
  unfold State.applyReq
  dsimp only
  split
  · rfl
  · split
    · rfl
    · rw [h]
      rfl

theorem State.performed_atomic (s : State) (q : Req) (hl : q.lock = false) : s.performed q = (s.leftGate q).applyReq q := by
  unfold State.performed
  simp only [hl, Bool.not_false, if_true]

/-- The state in which a free lock is taken: HELD, HOLDER and one more acquire in GEN (R110). -/
def State.freeTaken (v : State) (q : Req) : State :=
  ((v.setLoc (q.loc + 1) 1 1).setLoc (q.loc + 4) 4 q.blk).setLoc (q.loc + 8) 8 (v.loc (q.loc + 8) 8 + 1)

theorem State.wave_freeTaken (v : State) (q : Req) (k : Nat) : (v.freeTaken q).wave k = v.wave k := by
  rw [State.freeTaken, State.wave_setLoc, State.wave_setLoc, State.wave_setLoc]

section
variable {s : State} {q : Req} (hl : q.lock = true)
include hl

theorem State.performed_poison (hp : (s.leftGate q).poisoned q.loc 64 = true) : s.performed q = (s.leftGate q).poisonBlock q.blk q.loc := by
  unfold State.performed
  simp only [hl, hp, Bool.not_true, Bool.false_eq_true, if_false, if_true]

variable (hp : (s.leftGate q).poisoned q.loc 64 = false)
include hp

theorem State.performed_release (ho : q.op = .store) :
    s.performed q = ((s.leftGate q).freeRelease q.loc).ungrant (32 * q.blk + q.wv) q.loc true := by
  unfold State.performed
  simp only [hl, hp, ho, Bool.not_true, Bool.false_eq_true, if_false, if_true]

variable (ho : q.op ≠ .store)
include ho

/-- A free lock's acquire for which no wait stands. -/
theorem State.performed_acquire (hw : ((s.wave (32 * q.blk + q.wv)).waits.find? fun r => r.kind == .free && r.aux == q.id && !r.done) = none) :
    s.performed q = ((s.leftGate q).freeTaken q).grant (32 * q.blk + q.wv) q.loc true q.va 0 := by
  have hw' : ((((s.leftGate q).freeTaken q).wave (32 * q.blk + q.wv)).waits.find? fun r => r.kind == .free && r.aux == q.id && !r.done) = none := by
    rw [State.wave_freeTaken]
    exact hw
  unfold State.freeTaken at hw' ⊢
  unfold State.performed
  simp only [hl, hp, ho, hw', Bool.not_true, Bool.false_eq_true, if_false]

/-- A free lock's acquire ends its own wait before it takes the lock (R24, R110). -/
theorem State.performed_wait {r : WaitR}
    (hw : ((s.wave (32 * q.blk + q.wv)).waits.find? fun r => r.kind == .free && r.aux == q.id && !r.done) = some r) :
    let d := ((s.leftGate q).freeTaken q).satisfy (32 * q.blk + q.wv) r (bytesRegs 2 ((s.leftGate q).loc (q.loc + 8) 8 + 1))
    s.performed q = (d.1.updWave (32 * q.blk + q.wv) fun y => y.mapWaits fun x => if x = r then d.2 else x).grant
      (32 * q.blk + q.wv) q.loc true q.va 0 := by
  have hw' : ((((s.leftGate q).freeTaken q).wave (32 * q.blk + q.wv)).waits.find? fun r => r.kind == .free && r.aux == q.id && !r.done) = some r := by
    rw [State.wave_freeTaken]
    exact hw
  unfold State.freeTaken at hw' ⊢
  unfold State.performed
  simp only [hl, hp, ho, hw', Bool.not_true, Bool.false_eq_true, if_false]

end

end Machine
end Sys2Proof
end

section
/-! SUPPORT. The events of waits, engines, rounds, gates and probes, put together. -/

namespace Sys2Proof
open Machine
namespace Machine

/-- GATE_ADMIT: a request in its channel's turn reaches the gate, which decides. -/
theorem exec_gateAdmit {s : State} {q : Req} (hq : (s.gate.find? fun x => x.id == q.id) = some q) :
    exec (.gateAdmit q.id) s = .next (if !q.held && s.reqBehind q then s.postOnce (.gateAdmit q.id)
      else (if q.held then s else s.atGate q.id).gateDecide q) := by
  show execGateAdmit q.id s = _
  unfold execGateAdmit
  simp only [hq]

/-- R78, R79, R110, R121 to R123: what a gate does with a request whose turn in its channel has come. -/
theorem gateAdmit_effect {s : State} {q : Req} (hq : (s.gate.find? fun x => x.id == q.id) = some q) (ht : q.held = true ∨ s.reqBehind q = false) :
    let e := Instr.gateAdmit q.id
    let u : State := if q.held then s else s.atGate q.id
    let blocked : Prop := q.lock = true ∧ q.op = .swap ∧ (s.loc (q.loc + 1) 1 % 2 = 1 ∨ u.acquiresFirst q)
    (s.gateBehind q = true → exec e s = .next u) ∧
    (s.gateBehind q = false →
      (isDm q.loc = false → s.replaying q.ctx = true → exec e s = .next (u.gateReplay q)) ∧
      (isDm q.loc = true ∨ s.replaying q.ctx = false → blocked → exec e s = .next u) ∧
      (isDm q.loc = true → ¬ blocked → exec e s = .next (u.admitted q)) ∧
      (isDm q.loc = false → s.replaying q.ctx = false → ¬ blocked →
        (∀ t, u.logAdmit q.ctx q.lineVa q.ident q.lane = some t → exec e s = .next (t.admitted q)) ∧
        (u.logAdmit q.ctx q.lineVa q.ident q.lane = none → exec e s = .next (u.gateStopped q.id)))) := by
  intro e u blocked
  have hturn : (!q.held && s.reqBehind q) = false := by
    rcases ht with h | h
    · rw [h]; rfl
    · rw [h, Bool.and_false]
  have hexec : exec e s = .next (u.gateDecide q) := by
    rw [exec_gateAdmit hq, hturn, if_neg Bool.false_ne_true]
  have hbehind : u.gateBehind q = s.gateBehind q := by
    show State.gateBehind (if q.held then s else s.atGate q.id) q = _
    split
    · rfl
    · exact s.gateBehind_atGate q.id q
  have hloc : u.loc (q.loc + 1) 1 = s.loc (q.loc + 1) 1 := by
    show State.loc (if q.held then s else s.atGate q.id) _ _ = _
    split <;> rfl
  have hreplay : u.replaying q.ctx = s.replaying q.ctx := by
    show State.replaying (if q.held then s else s.atGate q.id) _ = _
    split <;> rfl
  have hblocked : (u.lockBlocked q || u.acquireBefore q) = true ↔ blocked := by
    rw [u.waitsForLock_iff, hloc]
  have hfree (h : ¬ blocked) : (u.lockBlocked q || u.acquireBefore q) = false :=
    Bool.eq_false_iff.2 fun hb => h (hblocked.1 hb)
  rw [hexec, ← hbehind, ← hreplay]
  refine ⟨fun h => by rw [State.gateDecide_behind h], fun h => ⟨fun hd hr => by rw [State.gateDecide_replay h hd hr],
    fun hd hb => by rw [State.gateDecide_blocked h hd (hblocked.2 hb)], fun hd hb => by rw [State.gateDecide_dm h hd (hfree hb)],
    fun hd hr hb => ?_⟩⟩
  obtain ⟨hlog, hstop⟩ := State.gateDecide_logged h hd hr (hfree hb)
  exact ⟨fun t ht => by rw [hlog t ht], fun ht => by rw [hstop ht]⟩

/-- Settles O54: event by event, each by the law of its part. -/
theorem waitEvents : Obligations.WaitEvents := by
  unfold Obligations.WaitEvents
  refine ⟨fun s g gs hst hg => rejoin_effect s g gs hst hg, fun s c e rest hc he hsrc => sourceRead_effect s c e rest hc he hsrc,
    fun s c e rest bs hc he hsrc => ⟨?_, landBytes_effect s c e.dst bs⟩, fun s c hc he => ?_, fun b k j _ hj => tagDown_ready b k j hj,
    fun s q hq => ?_, fun s r hr => ?_, fun s q hq => ?_, replayLogIndex_effect, fun s p hp => ?_⟩
  · rw [exec_engineLand hc he hsrc, State.engineGo_eq, Cmd.event_land he hsrc]
  · show execEngineLand c.id s = _
    unfold execEngineLand
    simp only [hc, he]
    unfold Cmd.event
    rw [he]
  · intro e full moved
    refine ⟨fun hh => ?_, fun hh hb => ?_, fun hh hb hf hr => ?_, fun u => ⟨fun h => ?_, fun h => ?_⟩, fun hh hb hf => ?_⟩
    · rw [exec_roundRequestArrive hq, hh, if_pos rfl]
    · rw [exec_roundRequestArrive hq, hh, hb, if_neg Bool.false_ne_true, if_pos rfl]
    · have hfull : s.bufferFull q.loc = true := hf
      rw [exec_roundRequestArrive hq, hh, hb, hfull, hr, if_neg Bool.false_ne_true, if_neg Bool.false_ne_true]
      exact congrArg _ (if_pos rfl)
    · exact if_pos (beq_iff_eq.2 h)
    · exact if_neg fun hb => h (beq_iff_eq.1 hb)
    · refine ⟨_, roundRequest_held hq hh hb hf, rfl, List.length_map .., fun n x hx => ?_⟩
      show (s.reqs.map (s.afterArrival q))[n]? = _
      rw [List.getElem?_map, hx]
      rfl
  · intro k v behind
    have hno (hb : ¬ behind) : s.replyBehind r = false := Bool.eq_false_iff.2 fun h => hb ((s.replyBehind_iff r).1 h)
    refine ⟨fun hb => memoryReply_behind hr ((s.replyBehind_iff r).2 hb), fun loc hb hw hp => memoryReply_poison hr (hno hb) hw hp,
      fun hb hw hp => ?_⟩
    have hkey (w : Wave) : (w.takeReply r).st = w.st ∧ (w.takeReply r).key = w.key := w.setOpnd_key r.dst r.regs.length r.lane (regsNat r.regs)
    have hbecomes : v.WaveBecomes (v.setWave k ((s.wave k).takeReply r)) k ((s.wave k).takeReply r) :=
      v.setWave_becomes k _ fun hst hk => by
        have hsame : s.wave k = v.w := State.wave_here (s := v) hst hk
        rw [hsame, (hkey v.w).1, (hkey v.w).2]
        exact ⟨hst, hk⟩
    refine ⟨v.setWave k ((s.wave k).takeReply r), ?_,
      ⟨hbecomes.wave.trans (Wave.takeReply_eq (s.wave k) r), hbecomes.others, hbecomes.rest⟩, fun d j hd hj => ?_⟩
    · have hblock : (v.setWave k ((s.wave k).takeReply r)).block r.blk = s.block r.blk := v.block_setWave k r.blk _
      rw [memoryReply_value hr (hno hb) hw hp, ← hblock]
    · rw [hbecomes.wave]
      show ((s.wave k).setOpnd r.dst r.regs.length r.lane (regsNat r.regs)).vreg (d.toNat + j) r.lane = _
      rw [hd]
      exact (Wave.vreg_setVs_same _ _ _ _ _ j hj).trans (regsNat_reg r.regs j hj)
  · intro e
    refine ⟨fun hh hb => ?_, fun ht => gateAdmit_effect hq ht, fun hl => ?_, fun hl => ?_⟩
    · rw [exec_gateAdmit hq, hh, hb]
      rfl
    · obtain ⟨u, hu, hrest, hin⟩ := s.admitted_eq q
      rw [s.performed_atomic q hl] at hrest hin
      rw [State.applyReq_gate] at hin
      exact ⟨u, hu, hrest, fun x hx hid hline => hin x (List.mem_filter.2 ⟨hx, bne_iff_ne.2 hid⟩) hline⟩
    · obtain ⟨u, hu, hrest, hin⟩ := s.admitted_eq q
      refine ⟨u, s.performed q, hu, hrest, hin, fun hp => s.performed_poison hl hp, fun hp ho => State.performed_release hl hp ho,
        fun hp ho hw => State.performed_acquire hl hp ho hw, fun r hp ho hw => ⟨rfl, State.performed_wait hl hp ho hw⟩⟩
  · intro gone quiet
    refine ⟨fun h => ?_, fun h => ?_⟩
    · rw [exec_sweepProbeReturn hp, if_pos ((s.dieQuiet_iff p).2 h)]
    · rw [exec_sweepProbeReturn hp, if_neg fun hd => h ((s.dieQuiet_iff p).1 hd)]

end Machine
end Sys2Proof
end

section
/-! SUPPORT. What keeps the tables of work: the groups and the levels stay as they are, and a context with no phase running
records no committed bytes. -/

namespace Sys2Proof
open Machine
namespace Machine

/-- No phase of the context runs, and no committed byte is kept for one. -/
def Ctx.idle (x : Ctx) : Prop := x.pcur = none ∧ x.shadow = []

/-- `t` has the groups and levels of `s`, and the contexts that were idle still are. -/
structure State.SameWork (s t : State) : Prop where
  grps : t.grps = s.grps
  levs : t.levs = s.levs
  idle : ∀ c, (s.ctx c).idle → (t.ctx c).idle

theorem State.SameWork.refl (s : State) : s.SameWork s := ⟨rfl, rfl, fun _ h => h⟩

theorem State.SameWork.trans {s t u : State} (h : s.SameWork t) (g : t.SameWork u) : s.SameWork u :=
  ⟨g.grps.trans h.grps, g.levs.trans h.levs, fun c hc => g.idle c (h.idle c hc)⟩

theorem SMap.find?_map {α : Type} (m : SMap α) (g : Nat × α → Nat × α) (hg : ∀ e, (g e).1 = e.1) (k : Nat) :
    SMap.find? (m.map g) k = (SMap.find? m k).map fun x => (g (k, x)).2 := by
  induction m with
  | nil => rfl
  | cons e m ih =>
    simp only [List.map_cons, SMap.find?, hg, ih]
    split
    · next hk => rw [hk]; rfl
    · rfl

/-- A write keeps committed bytes only of contexts whose phase runs. -/
theorem State.ctx_keepShadow (t : State) (pa n c : Nat) (hc : (t.ctx c).pcur = none) : (t.keepShadow pa n).ctx c = t.ctx c := by
  unfold State.ctx SMap.get at hc ⊢
  have hfind := SMap.find?_map t.ctxs (fun e => if e.2.pcur.isSome then
    (e.1, { e.2 with shadow := (List.range n).foldl (fun sh k =>
      if SMap.has sh (pa + k) then sh else SMap.insert sh (pa + k) (Memory.byte t.mem (pa + k))) e.2.shadow }) else e)
    (fun e => by split <;> rfl) c
  rw [State.keepShadow, hfind]
  cases hx : SMap.find? t.ctxs c with
  | none => rfl
  | some x =>
    rw [hx] at hc
    have hp : x.pcur = none := hc
    simp [hp]

section
variable {s t u : State} (h : s.SameWork t)
include h

theorem State.SameWork.beside {w b run waves blocks mem hmem dsm poison cmds reqs gate replies wft faults cores probes
    migration inval exp pf vf tokens mgmt press ckpt reserve windows pool handles ids escq hostOut inbox sched rr rrAt free cycle} :
    s.SameWork { t with
      w := w, b := b, run := run, waves := waves, blocks := blocks, mem := mem, hmem := hmem, dsm := dsm, poison := poison
      cmds := cmds, reqs := reqs, gate := gate, replies := replies, wft := wft, faults := faults, cores := cores, probes := probes
      migration := migration, inval := inval, exp := exp, pf := pf, vf := vf, tokens := tokens, mgmt := mgmt, press := press
      ckpt := ckpt, reserve := reserve, windows := windows, pool := pool, handles := handles, ids := ids, escq := escq
      hostOut := hostOut, inbox := inbox, sched := sched, rr := rr, rrAt := rrAt, free := free, cycle := cycle } :=
  ⟨h.grps, h.levs, h.idle⟩

theorem State.SameWork.ite {p : Prop} [Decidable p] (g : s.SameWork u) : s.SameWork (if p then t else u) := by
  split
  · exact h
  · exact g

theorem State.SameWork.upkeep (g : t.Upkeep u) : s.SameWork u := h.trans <| by
  rw [g.rest]
  exact (State.SameWork.refl t).beside

theorem State.SameWork.foldl {α : Type} {xs : List α} {f : State → α → State} (hf : ∀ u x, s.SameWork u → s.SameWork (f u x)) :
    s.SameWork (xs.foldl f t) := by
  induction xs generalizing t with
  | nil => exact h
  | cons x xs ih => exact ih (hf t x h)

theorem State.SameWork.postOnce {e : Instr} : s.SameWork (t.postOnce e) := h.beside
theorem State.SameWork.setPf {off : Nat} {x : W64} : s.SameWork (t.setPf off x) := h.beside
theorem State.SameWork.setVf {c off : Nat} {x : W64} : s.SameWork (t.setVf c off x) := h.beside
theorem State.SameWork.msi {fn vec : Nat} : s.SameWork (t.msi fn vec) := (h.setPf.ite h.beside).ite (h.setVf.ite h.beside)
theorem State.SameWork.writeHost {pa : Nat} {bs : List Byte} : s.SameWork (t.writeHost pa bs) := h.beside
theorem State.SameWork.writeDsm {key : Nat} {bs : List Byte} : s.SameWork (t.writeDsm key bs) := h.beside

theorem State.SameWork.updWave {k : Nat} {f : Wave → Wave} : s.SameWork (t.updWave k f) := by
  rw [t.updWave_frame k f]
  exact h.beside

theorem State.SameWork.updBlock {k : Nat} {f : Block → Block} : s.SameWork (t.updBlock k f) := by
  rw [t.updBlock_frame k f]
  exact h.beside

theorem State.SameWork.setCtx {c : Nat} {x : Ctx} (hp : x.pcur = (t.ctx c).pcur) (hs : x.shadow = (t.ctx c).shadow) :
    s.SameWork (t.setCtx c x) := h.trans ⟨rfl, rfl, fun d hd => by
  have hget : (t.setCtx c x).ctx d = if d = c then x else t.ctx d := SMap.get_set ..
  rw [hget]
  split
  · next hdc => exact ⟨hp.trans (hdc ▸ hd.1), hs.trans (hdc ▸ hd.2)⟩
  · exact hd⟩

theorem State.SameWork.keepShadow {pa n : Nat} : s.SameWork (t.keepShadow pa n) :=
  h.trans ⟨rfl, rfl, fun d hd => (t.ctx_keepShadow pa n d hd.1).symm ▸ hd⟩

theorem State.SameWork.writeDev {pa : Nat} {bs : List Byte} : s.SameWork (t.writeDev pa bs) := (h.ite h.keepShadow).beside

theorem State.SameWork.setLocBytes {loc : Nat} {bs : List Byte} : s.SameWork (t.setLocBytes loc bs) := h.writeDsm.ite h.writeDev
theorem State.SameWork.setLoc {loc n x : Nat} : s.SameWork (t.setLoc loc n x) := h.setLocBytes

theorem State.SameWork.wharfWrite {c va : Nat} {bs : List Byte} : s.SameWork (t.wharfWrite c va bs) := by
  unfold State.wharfWrite
  split
  · exact h.writeHost.ite h.writeDev
  · exact h

theorem State.SameWork.writeRecord {g : Grp} : s.SameWork (t.writeRecord g) :=
  h.ite (h.wharfWrite.wharfWrite.msi.ite h.wharfWrite.wharfWrite)

theorem State.SameWork.lockAdvance {loc : Nat} : s.SameWork (t.lockAdvance loc) := h.setLoc.setLoc.ite h.setLoc
theorem State.SameWork.lockRelease {loc : Nat} {a : Bool} : s.SameWork (t.lockRelease loc a) := h.setLoc.setLoc.lockAdvance
theorem State.SameWork.freeRelease {loc : Nat} : s.SameWork (t.freeRelease loc) := h.setLoc.setLoc

theorem State.SameWork.releaseLocks {k : Nat} : s.SameWork (t.releaseLocks k) :=
  h.ite ((h.foldl fun _ _ hu => hu.freeRelease.ite hu.lockRelease).updWave.foldl fun _ _ hu => hu.postOnce.ite hu)

theorem State.SameWork.addRef {die ver : Nat} {n : Int} : s.SameWork (t.addRef die ver n) := h.beside

theorem State.SameWork.retireOne {ver : Nat} : s.SameWork (t.retireOne ver) := by
  unfold State.retireOne
  exact .ite ((State.SameWork.beside h).foldl fun _ _ hu => .beside hu).postOnce ((State.SameWork.beside h).foldl fun _ _ hu => .beside hu)

theorem State.SameWork.retireVersions : s.SameWork t.retireVersions := h.foldl fun _ _ hu => hu.retireOne.ite hu

theorem State.SameWork.dropRefs {k : Nat} : s.SameWork (t.dropRefs k) :=
  h.ite (h.foldl fun _ _ hu => hu.addRef).updWave.retireVersions

theorem State.SameWork.lanesGone {c : Nat} : s.SameWork (t.lanesGone c) := (h.foldl fun _ _ hu => hu.postOnce).ite h

theorem State.SameWork.dropAcquires {p : Req → Bool} : s.SameWork (t.dropAcquires p) := h.upkeep (.dropAcquires t p)
theorem State.SameWork.dropEnts {p : WaitEnt → Bool} : s.SameWork (t.dropEnts p) := h.upkeep (.dropEnts t p)

theorem State.SameWork.closeWave {k : Nat} : s.SameWork (t.closeWave k) := by
  unfold State.closeWave
  extract_lets arrived s₁ s₂ s₃ s₄ s₅ s₆ s₇
  have h₃ : s.SameWork s₃ := h.releaseLocks.dropRefs.dropAcquires
  have h₆ : s.SameWork s₆ := (State.SameWork.dropEnts (t := s₄) h₃.beside).updWave
  exact (h₆.ite h₆.updBlock).lanesGone

theorem State.SameWork.orphanReqs {b : Nat} : s.SameWork (t.orphanReqs b) := h.beside

theorem State.SameWork.dropBlock {b : Nat} {keep : Bool} : s.SameWork (t.dropBlock b keep) := by
  unfold State.dropBlock
  extract_lets s₁ die c _ s₂ s₃ s₄
  have h₁ : s.SameWork s₁ := h.foldl fun _ _ hu => hu.ite hu.closeWave
  have h₂ : s.SameWork s₂ := (h₁.setCtx (by rfl) (by rfl)).ite h₁
  have h₄ : s.SameWork s₄ := (h₂.beside).beside.ite h₂.beside
  exact (h₄.ite h₄.orphanReqs).postOnce

end

/-- Nothing stands where a dropped block stood. -/
theorem State.block_dropBlock (s : State) (h : Nat) (keep : Bool) : (s.dropBlock h keep).block h = .absent := by
  unfold State.dropBlock
  extract_lets s₁ die c _ s₂ s₃ s₄
  have hget : SMap.get s₃.blocks .absent h = .absent := (SMap.get_erase s₂.blocks .absent h h).trans (if_pos rfl)
  have h₄ : s₄.block h = .absent := by
    unfold s₄
    split
    · exact (if_neg fun hb => hb.1 rfl).trans hget
    · next hn => exact (if_neg fun hb => hn hb.symm).trans hget
  cases keep with
  | true => exact h₄
  | false => exact h₄

end Machine
end Sys2Proof
end

section
/-! SUPPORT. The end of a block reaches its group (R15, R34, R35). -/

namespace Sys2Proof
open Machine
namespace Machine

theorem State.find?_updGrp (s : State) (id : Nat) (f : Grp → Grp) {g : Grp} (hg : SMap.find? s.grps id = some g) :
    SMap.find? (s.updGrp id f).grps id = some (f g) := by
  unfold State.updGrp
  rw [hg]
  exact (SMap.find?_insert ..).trans (if_pos rfl)

/-- `t` is `s` with other events posted. -/
def State.Posted (s t : State) : Prop := t = { s with inbox := t.inbox }

theorem State.Posted.refl (s : State) : s.Posted s := rfl

theorem State.Posted.trans {s t u : State} (h : s.Posted t) (g : t.Posted u) : s.Posted u := by
  unfold State.Posted at *
  rw [g, h]

section
variable {s t u : State} (h : s.Posted t)
include h

theorem State.Posted.postOnce {e : Instr} : s.Posted (t.postOnce e) := h.trans rfl

theorem State.Posted.ite {p : Prop} [Decidable p] (g : s.Posted u) : s.Posted (if p then t else u) := by
  split
  · exact h
  · exact g

theorem State.Posted.foldl {α : Type} {xs : List α} {f : State → α → State} (hf : ∀ u x, s.Posted u → s.Posted (f u x)) :
    s.Posted (xs.foldl f t) := by
  induction xs generalizing t with
  | nil => exact h
  | cons x xs ih => exact ih (hf t x h)

theorem State.Posted.startsAgain : s.Posted t.startsAgain := h.foldl fun _ _ hu => hu.postOnce.ite hu

end

/-- What a group notes of a block that ends. -/
def State.noteEnd (s : State) (h : Nat) (g : Grp) : Grp :=
  let b := s.block h
  let regs (k : Nat) : SMap W32 := (s.wave k).r.v.filter fun e =>
    decide (g.inhFirst ≤ e.1 / 32) && decide (e.1 / 32 < g.inhFirst + g.inhCount)
  { g with
    ended := g.ended + 1
    members := if b.cancelled || b.failed then g.members
      else insertMember ⟨b.mem, b.start, b.view, b.parts, b.carried, if b.cancelled then 2 else if b.failed || b.carried != [] then 3 else 1⟩ g.members
    places := SMap.insert g.places b.mem (b.die, b.core, b.slots)
    lost := if b.cancelled then SMap.insert g.lost b.mem () else g.lost
    images := if g.inhCount = 0 then g.images else (s.wavesOf h).foldl (fun t k => SMap.insert t (32 * b.mem + k % 32) (regs k)) g.images }

/-- The end of a block: its group notes it, it leaves the machine, and what waits for it is posted. -/
theorem State.blockEnded_posted (s : State) (h : Nat) (hst : (s.block h).st = .ended) (hc : ∀ c ∈ s.cmds, c.blk ≠ h) :
    ((s.updGrp (s.block h).grp (s.noteEnd h)).dropBlock h true).Posted (s.blockEnded h) := by
  have hcmds : (s.cmds.any fun c => c.blk == h) = false := List.any_eq_false.2 fun c hm => by simpa using hc c hm
  unfold State.blockEnded
  simp only [hst, hcmds, Bool.and_false, ne_eq, not_true_eq_false, if_false, Bool.false_eq_true]
  split
  · exact .refl _
  · exact ((State.Posted.refl _).postOnce.ite (.refl _)).foldl (fun _ _ hu => hu.postOnce) |>.ite ((State.Posted.refl _).postOnce.ite (.refl _))

theorem blockEnded_effect (s : State) (h : Nat) :
    let b := s.block h
    let e := Instr.instanceEnd .block h
    (b.st = .resident → exec e s = .next (s.afterWave h)) ∧
    (b.st ≠ .resident → b.st ≠ .ended → exec e s = .next s) ∧
    (b.st = .ended → b.failed = false → (∃ c ∈ s.cmds, c.blk = h) → exec e s = .next (s.postOnce e)) ∧
    (b.st = .ended → (∀ c ∈ s.cmds, c.blk ≠ h) → ∃ t, exec e s = .next t ∧ (t.block h).st = .absent ∧
      ∀ g, SMap.find? s.grps b.grp = some g → ∃ g', SMap.find? t.grps b.grp = some g' ∧ g'.ended = g.ended + 1 ∧
        g'.members = (if b.cancelled || b.failed then g.members
          else insertMember ⟨b.mem, b.start, b.view, b.parts, b.carried, if b.carried != [] then 3 else 1⟩ g.members) ∧
        g'.lost = (if b.cancelled then SMap.insert g.lost b.mem () else g.lost) ∧ SMap.find? g'.places b.mem = some (b.die, b.core, b.slots)) := by
  intro b e
  have hexec : exec e s = .next (if b.st = .resident then s.afterWave h else s.blockEnded h) := rfl
  refine ⟨fun hr => hexec.trans (congrArg _ (if_pos hr)), fun hr hn => ?_, fun hst hf hc => ?_, fun hst hc => ?_⟩
  · rw [hexec, if_neg hr]
    exact congrArg _ (if_pos hn)
  · have hcmds : (s.cmds.any fun c => c.blk == h) = true := by
      obtain ⟨c, hm, hb⟩ := hc
      exact List.any_eq_true.2 ⟨c, hm, beq_iff_eq.2 hb⟩
    rw [hexec, if_neg (by rw [hst]; decide)]
    refine congrArg _ ((if_neg (not_not_intro hst)).trans (if_pos ?_))
    rw [hcmds]
    exact congrArg (!· && true) hf
  · have heq := s.blockEnded_posted h hst hc
    unfold State.Posted at heq
    refine ⟨_, hexec.trans (congrArg _ (if_neg (by rw [hst]; decide))), ?_, fun g hg => ?_⟩
    · rw [heq]
      show (State.block (State.dropBlock _ h true) h).st = .absent
      rw [State.block_dropBlock]
      rfl
    · refine ⟨s.noteEnd h g, ?_, rfl, ?_, rfl, (SMap.find?_insert ..).trans (if_pos rfl)⟩
      · rw [heq]
        show SMap.find? (State.dropBlock _ h true).grps _ = _
        rw [(State.SameWork.refl _).dropBlock.grps]
        exact s.find?_updGrp _ _ hg
      · show (if b.cancelled || b.failed then g.members else _) = _
        split
        · rfl
        · next hd =>
          have hcf : b.cancelled = false ∧ b.failed = false := by simpa using hd
          show insertMember ⟨_, _, _, _, _, if b.cancelled then 2 else if b.failed || b.carried != [] then 3 else 1⟩ _ = _
          rw [hcf.1, hcf.2]
          rfl

end Machine
end Sys2Proof
end

section
/-! SUPPORT. The ends of launches and of forks (R15, R48, R64, R352). -/

namespace Sys2Proof
open Machine
namespace Machine

theorem State.updLev_grps (s : State) (id : Nat) (f : Lev → Lev) : (s.updLev id f).grps = s.grps := by
  unfold State.updLev
  split <;> rfl

theorem State.Posted.levelDue {s t : State} {c lvl job phase graph : Nat} {e : Instr} (h : s.Posted t) :
    s.Posted (t.levelDue c lvl job phase graph e) := by
  unfold State.levelDue
  split
  · exact h.postOnce.ite h
  · exact h

theorem State.Posted.levelsDue {s t : State} {g : Grp} (h : s.Posted t) : s.Posted (t.levelsDue g) := by
  have hdue {u : State} (hu : s.Posted u) (lvl : Nat) (e : Nat → Instr) :
      s.Posted (match u.lev? g.ctx lvl g.job.toNat g.phase.toNat g.graph.toNat with
        | some (l, _) => u.levelDue g.ctx lvl g.job.toNat g.phase.toNat g.graph.toNat (e l)
        | none => u) := by
    split
    · exact hu.levelDue
    · exact hu
  exact hdue (hdue (hdue h 3 (.instanceEnd .graph)) 4 .stepBoundary) 5 (.instanceEnd .job)

theorem State.Posted.grps {s t : State} (h : s.Posted t) : t.grps = s.grps := by rw [h]
theorem State.Posted.levs {s t : State} (h : s.Posted t) : t.levs = s.levs := by rw [h]

/-- A launch as it stands once it has ended. -/
def State.ended (s : State) (g : Grp) : Grp :=
  let f := s.foldMembers g.ctx g.members
  let dead := g.cancelled || g.failed
  { g with
    st := .ended
    state := if g.cancelled then 2 else if g.failed || (if dead then none else f.record).isSome then 3 else 1
    done := BitVec.ofNat 32 g.nmem
    confl := if dead then none else f.record
    result := if dead then [] else f.bytes
    parts := if dead then [] else g.members.foldl (fun p m => combineParts p m.parts) []
    members := [] }

/-- A launch of the host ends: nothing but its own record of the groups changes. -/
theorem State.launchEnded_grps (s : State) (id : Nat) (g : Grp) (hg : SMap.find? s.grps id = some g) (hk : g.kind = .host) (hst : g.st ≠ .ended)
    (ha : s.allEnded id = true) : (s.launchEnded id).grps = SMap.insert s.grps id (s.ended g) := by
  have hstop : ¬ (decide (g.st = .ended) || !s.allEnded id) = true := by simp [hst, ha]
  have hdev : ¬ g.kind = .device := by rw [hk]; decide
  unfold State.launchEnded
  simp only [hg]
  rw [if_neg hstop, if_neg hdev]
  split
  · rfl
  · refine ((State.Posted.refl _).levelsDue.startsAgain).grps.trans (Eq.trans ((State.SameWork.refl _).ite (State.SameWork.refl _).writeRecord).grps ?_)
    exact State.updLev_grps _ _ _

theorem launchEnded_effect (s : State) (id : Nat) (g : Grp) (hg : SMap.find? s.grps id = some g) (hk : g.kind = .host) (hst : g.st ≠ .ended)
    (ha : s.allEnded id = true) :
    let dead := g.cancelled || g.failed
    let f := s.foldMembers g.ctx g.members
    ∃ t g', exec (.instanceEnd .launch id) s = .next t ∧ SMap.find? t.grps id = some g' ∧ g'.st = .ended ∧
      g'.done = BitVec.ofNat 32 g.nmem ∧ g'.result = (if dead then [] else f.bytes) ∧ g'.confl = (if dead then none else f.record) ∧
      g'.state = if g.cancelled then 2 else if g.failed || f.record.isSome then 3 else 1 := by
  intro dead f
  refine ⟨_, s.ended g, rfl, ?_, rfl, rfl, rfl, rfl, ?_⟩
  · rw [s.launchEnded_grps id g hg hk hst ha]
    exact (SMap.find?_insert ..).trans (if_pos rfl)
  · show (if g.cancelled then (2 : BitVec 2) else if g.failed || (if dead then none else f.record).isSome then 3 else 1) = _
    cases hc : g.cancelled <;> cases hf : g.failed <;> simp [dead, hc, hf]

/-! ### The end of a fork -/

/-- `t` has the waves of `s`. -/
def State.SameWaves (s t : State) : Prop := t.w = s.w ∧ t.waves = s.waves

theorem State.SameWaves.wave {s t : State} (h : s.SameWaves t) (k : Nat) : t.wave k = s.wave k := by
  unfold State.wave
  rw [h.1, h.2]

theorem State.SameWaves.foldl {α : Type} {s : State} {f : State → α → State} (hf : ∀ u x, State.SameWaves u (f u x)) (xs : List α) (t : State)
    (h : s.SameWaves t) : s.SameWaves (xs.foldl f t) := by
  induction xs generalizing t with
  | nil => exact h
  | cons x xs ih => exact ih _ ⟨(hf t x).1.trans h.1, (hf t x).2.trans h.2⟩

theorem State.SameWaves.updGrp (s : State) (id : Nat) (f : Grp → Grp) : s.SameWaves (s.updGrp id f) := by
  unfold State.updGrp
  split <;> exact ⟨rfl, rfl⟩

theorem State.SameWaves.forget (s : State) : s.SameWaves s.forget :=
  .foldl (fun u x => by dsimp only; split <;> exact ⟨rfl, rfl⟩) _ s ⟨rfl, rfl⟩

theorem State.SameWaves.writeDev (s : State) (pa : Nat) (bs : List Byte) : s.SameWaves (s.writeDev pa bs) := by
  unfold State.writeDev
  dsimp only
  split <;> exact ⟨rfl, rfl⟩

theorem State.SameWaves.trans {s t u : State} (h : s.SameWaves t) (g : t.SameWaves u) : s.SameWaves u := ⟨g.1.trans h.1, g.2.trans h.2⟩

theorem State.SameWaves.restoreRanges (s : State) (id : Nat) (g : Grp) : s.SameWaves (s.restoreRanges id g) := by
  unfold State.restoreRanges
  extract_lets under s₁
  have hwrites : s.SameWaves (g.ranges.foldl (fun (u : State) x => u.writeDev x.1 x.2) s₁) :=
    .foldl (fun u (x : Nat × List Byte) => .writeDev u x.1 x.2) _ _ ⟨rfl, rfl⟩
  exact hwrites.trans (.updGrp _ _ _)

/-- Restoring the ranges of a fork leaves it its forker. -/
theorem State.find?_restoreRanges (s : State) (id : Nat) (g : Grp) (hg : SMap.find? s.grps id = some g) :
    SMap.find? (s.restoreRanges id g).grps id = some { g with ranges := [] } := by
  refine State.find?_updGrp _ id _ (Eq.trans (congrArg (SMap.find? · id) ?_) hg)
  exact ((State.SameWork.refl s).beside.foldl (f := fun (s : State) (r : Nat × List Byte) => s.writeDev r.1 r.2) fun _ _ hu => hu.writeDev).grps

/-- The forker of an ended fork goes on to its `join`. -/
theorem State.wave_wakeForker (s : State) (id : Nat) (g : Grp) (hg : SMap.find? s.grps id = some g) (k : Nat) (hk : k = 32 * g.pblk + g.pwv) :
    (s.wakeForker id).wave k = if (s.wave k).st = .forked then { s.wave k with st := .running } else s.wave k := by
  subst hk
  unfold State.wakeForker
  rw [hg]
  refine (State.wave_setWave s _ _ _ fun hst hk => ?_).trans (if_pos rfl)
  rw [State.wave_here hst hk]
  dsimp only
  split
  · exact ⟨by simp, hk⟩
  · exact ⟨hst, hk⟩

theorem forkEnded_effect (s : State) (id : Nat) (g : Grp) (hg : SMap.find? s.grps id = some g) (hst : g.st ≠ .ended)
    (ha : s.allEnded id = true) : ∃ t, exec (.instanceEnd .fork id) s = .next t ∧
      let k := 32 * g.pblk + g.pwv
      t.wave k = if (s.wave k).st = .forked then { s.wave k with st := .running } else s.wave k := by
  have hstop : ¬ (decide (g.st = .ended) || !s.allEnded id) = true := by simp [hst, ha]
  refine ⟨s.forkEnded id, rfl, ?_⟩
  unfold State.forkEnded
  simp only [hg]
  rw [if_neg hstop]
  set u : State := if g.cancelled = true then (s.restoreRanges id g).freePool g.held else s with hu
  obtain ⟨g', hg', hb, hw⟩ : ∃ g', SMap.find? u.grps id = some g' ∧ g'.pblk = g.pblk ∧ g'.pwv = g.pwv := by
    rw [hu]
    split
    · exact ⟨_, s.find?_restoreRanges id g hg, rfl, rfl⟩
    · exact ⟨g, hg, rfl, rfl⟩
  have hwaves : s.SameWaves u := by
    rw [hu]
    split
    · exact .restoreRanges s id g
    · exact ⟨rfl, rfl⟩
  rw [State.SameWaves.wave (.forget _), State.wave_wakeForker _ id _ (u.find?_updGrp id _ hg') _ (by rw [← hb, ← hw]),
    State.SameWaves.wave (hwaves.trans (.updGrp _ _ _))]

end Machine
end Sys2Proof
end

section
/-! SUPPORT. The fold of members (R15, R47, R49, R51), byte by byte. -/

namespace Sys2Proof
open Machine
namespace Machine

theorem SMap.rising_tail {α : Type} {lo : Option Nat} {q : Nat} {y : α} {m : SMap α} (h : SMap.rising lo ((q, y) :: m) = true) :
    SMap.rising (some q) m = true := by
  cases lo with
  | none => exact h
  | some lo => exact (Bool.and_eq_true _ _ ▸ h).2

/-- A fold over a map whose keys rise, seen at one key: only that key's entry counts. -/
theorem SMap.foldl_at {α β γ : Type} (step : β → Nat × α → β) (obs : β → γ) (va : Nat) (g : γ → α → γ)
    (hskip : ∀ b q x, q ≠ va → obs (step b (q, x)) = obs b) (hat : ∀ b x, obs (step b (va, x)) = g (obs b) x) (m : SMap α) (lo : Option Nat)
    (hm : SMap.rising lo m = true) (b : β) :
    obs (m.foldl step b) = match SMap.find? m va with
      | some x => g (obs b) x
      | none => obs b := by
  induction m generalizing lo b with
  | nil => rfl
  | cons e m ih =>
    obtain ⟨q, y⟩ := e
    rw [List.foldl_cons, ih (some q) (SMap.rising_tail hm), SMap.find?]
    by_cases hq : va = q
    · subst hq
      rw [SMap.find?_above m va va (SMap.rising_tail hm) (Nat.le_refl _), if_pos rfl, hat]
    · rw [if_neg hq, hskip b q y (Ne.symm hq)]

/-- What a fold knows of one byte: its value, its taker and its conflict. -/
structure FoldCell where
  byte : Option Byte
  taker : Option Nat
  pair : Option (Nat × Nat)

def Fold.cell (f : Fold) (va : Nat) : FoldCell := ⟨SMap.find? f.bytes va, SMap.find? f.taken va, SMap.find? f.confl va⟩

/-- A member takes a byte, or conflicts with its taker. -/
def FoldCell.take (c : FoldCell) (k : Nat) (x : Option Byte) : FoldCell :=
  match c.taker with
  | none => ⟨x, some k, c.pair⟩
  | some j => { c with pair := c.pair.or (some (j, k)) }

theorem SMap.has_iff {α : Type} (m : SMap α) (q : Nat) : SMap.has m q = (SMap.find? m q).isSome := rfl

theorem SMap.find?_setdefault {α : Type} (m : SMap α) (q p : Nat) (y : α) :
    SMap.find? (if SMap.has m q then m else SMap.insert m q y) p = if p = q then (SMap.find? m p).or (some y) else SMap.find? m p := by
  rw [SMap.has_iff]
  split
  · next h =>
    split
    · next hp =>
      rw [← hp] at h
      obtain ⟨x, hx⟩ := Option.isSome_iff_exists.1 h
      rw [hx]
      rfl
    · rfl
  · next h =>
    rw [SMap.find?_insert]
    split
    · next hp =>
      rw [← hp] at h
      rw [Option.not_isSome_iff_eq_none.1 h]
      rfl
    · rfl

/-- One entry of a member's view. -/
def Fold.entry (k : Nat) (twin : Nat → Byte) (f : Fold) (e : Nat × Byte) : Fold :=
  if e.2 = twin e.1 then f
  else match SMap.find? f.taken e.1 with
    | none => { f with bytes := SMap.insert f.bytes e.1 e.2, taken := SMap.insert f.taken e.1 k }
    | some j => if SMap.has f.confl e.1 then f else { f with confl := SMap.insert f.confl e.1 (j, k) }

theorem Fold.member_eq (f : Fold) (k : Nat) (view : Overlay) (twin : Nat → Byte) : f.member k view twin = view.foldl (Fold.entry k twin) f := rfl

theorem Fold.cell_entry (f : Fold) (k : Nat) (twin : Nat → Byte) (e : Nat × Byte) (va : Nat) :
    (Fold.entry k twin f e).cell va = if va = e.1 ∧ e.2 ≠ twin e.1 then (f.cell va).take k (some e.2) else f.cell va := by
  unfold Fold.entry
  by_cases hx : e.2 = twin e.1
  · rw [if_pos hx, if_neg fun h => h.2 hx]
  rw [if_neg hx]
  by_cases hva : va = e.1
  · subst hva
    rw [if_pos ⟨rfl, hx⟩]
    cases ht : SMap.find? f.taken e.1 with
    | none => simp [Fold.cell, FoldCell.take, ht, SMap.find?_insert]
    | some j =>
      have hset := (SMap.find?_setdefault f.confl e.1 e.1 (j, k)).trans (if_pos rfl)
      unfold FoldCell.take Fold.cell
      dsimp only
      rw [ht]
      dsimp only
      rw [← hset]
      split
      · rw [ht]
      · rw [ht]
  · rw [if_neg fun h => hva h.1]
    cases ht : SMap.find? f.taken e.1 with
    | none => simp [Fold.cell, SMap.find?_insert, hva]
    | some j =>
      dsimp only
      split
      · rfl
      · simp [Fold.cell, SMap.find?_insert, hva]

/-- What a member does to a byte of the fold. -/
theorem Fold.cell_member (view : Overlay) (hv : SMap.rising none view = true) (f : Fold) (k : Nat) (twin : Nat → Byte) (va : Nat) :
    (f.member k view twin).cell va = if changes view twin va then (f.cell va).take k (SMap.find? view va) else f.cell va := by
  rw [Fold.member_eq, SMap.foldl_at (Fold.entry k twin) (fun f => f.cell va) va
    (fun c x => if x ≠ twin va then c.take k (some x) else c) (fun f q x hq => ?_) (fun f x => ?_) view none hv f]
  · unfold changes
    cases SMap.find? view va with
    | none => rfl
    | some x => simp
  · rw [Fold.cell_entry, if_neg fun h => hq h.1.symm]
  · simp [Fold.cell_entry]

/-- The changers of a byte take it in turn. -/
theorem Fold.cell_members {ι : Type} (idx : ι → Nat) (view : ι → Overlay) (twin : ι → Nat → Byte) (ks : List ι)
    (hv : ∀ k ∈ ks, SMap.rising none (view k) = true) (f : Fold) (va : Nat) :
    (ks.foldl (fun f k => f.member (idx k) (view k) (twin k)) f).cell va =
      (ks.filter fun k => changes (view k) (twin k) va).foldl (fun c k => c.take (idx k) (SMap.find? (view k) va)) (f.cell va) := by
  induction ks generalizing f with
  | nil => rfl
  | cons k ks ih =>
    rw [List.foldl_cons, ih (fun j hj => hv j (List.mem_cons_of_mem _ hj)), Fold.cell_member _ (hv k List.mem_cons_self), List.filter_cons]
    split <;> rfl

/-- A byte in conflict stays as it is. -/
theorem FoldCell.takes_settled {ι : Type} (idx : ι → Nat) (x : ι → Option Byte) (ks : List ι) (y : Option Byte) (j : Nat) (p : Nat × Nat) :
    ks.foldl (fun c k => c.take (idx k) (x k)) (⟨y, some j, some p⟩ : FoldCell) = ⟨y, some j, some p⟩ := by
  induction ks with
  | nil => rfl
  | cons k ks ih => exact ih

/-! ### Carried conflicts -/

theorem Fold.carry_rest (vas : List Nat) (f : Fold) (k : Nat) : (f.carry k vas).bytes = f.bytes ∧ ∀ va,
    SMap.find? (f.carry k vas).confl va = (SMap.find? f.confl va).or (if va ∈ vas then some (k, k) else none) := by
  unfold Fold.carry
  induction vas generalizing f with
  | nil => exact ⟨rfl, fun va => by simp⟩
  | cons q vas ih =>
    rw [List.foldl_cons]
    obtain ⟨hb, hc⟩ := ih (if SMap.has f.confl q then f else { f with confl := SMap.insert f.confl q (k, k) })
    refine ⟨hb.trans (by split <;> rfl), fun va => ?_⟩
    have hset := SMap.find?_setdefault f.confl q va (k, k)
    have hconfl : (if SMap.has f.confl q then f else { f with confl := SMap.insert f.confl q (k, k) }).confl =
        if SMap.has f.confl q then f.confl else SMap.insert f.confl q (k, k) := by split <;> rfl
    rw [hc, hconfl, hset]
    by_cases hq : va = q
    · cases SMap.find? f.confl va <;> simp [hq]
    · simp [hq]

theorem Fold.carries_rest {ι : Type} (idx : ι → Nat) (carried : ι → List Nat) (ks : List ι) (f : Fold) :
    (ks.foldl (fun f k => f.carry (idx k) (carried k)) f).bytes = f.bytes ∧ ∀ va,
    SMap.find? (ks.foldl (fun f k => f.carry (idx k) (carried k)) f).confl va =
      (SMap.find? f.confl va).or ((ks.find? fun k => decide (va ∈ carried k)).map fun k => (idx k, idx k)) := by
  induction ks generalizing f with
  | nil => exact ⟨rfl, fun va => by simp⟩
  | cons k ks ih =>
    obtain ⟨hb, hc⟩ := ih (f.carry (idx k) (carried k))
    obtain ⟨hb', hc'⟩ := Fold.carry_rest (carried k) f (idx k)
    refine ⟨hb.trans hb', fun va => ?_⟩
    rw [List.foldl_cons, hc, hc', List.find?_cons]
    by_cases hk : va ∈ carried k
    · cases SMap.find? f.confl va <;> simp [hk]
    · simp [hk]

/-! ### The record of the lowest conflict -/

theorem Fold.entry_rising (k : Nat) (twin : Nat → Byte) (f : Fold) (e : Nat × Byte) (h : SMap.rising none f.confl = true) :
    SMap.rising none (Fold.entry k twin f e).confl = true := by
  unfold Fold.entry
  split
  · exact h
  · split
    · exact h
    · split
      · exact h
      · exact SMap.rising_insert _ _ _ _ h (by simp)

theorem foldl_keeps {α β : Type} (p : β → Prop) (f : β → α → β) (hf : ∀ b x, p b → p (f b x)) (xs : List α) (b : β) (h : p b) :
    p (xs.foldl f b) := by
  induction xs generalizing b with
  | nil => exact h
  | cons x xs ih => exact ih _ (hf b x h)

theorem Fold.member_rising (f : Fold) (k : Nat) (view : Overlay) (twin : Nat → Byte) (h : SMap.rising none f.confl = true) :
    SMap.rising none (f.member k view twin).confl = true :=
  foldl_keeps (fun f : Fold => SMap.rising none f.confl = true) _ (fun f e => Fold.entry_rising k twin f e) view f h

theorem Fold.carry_rising (f : Fold) (k : Nat) (vas : List Nat) (h : SMap.rising none f.confl = true) :
    SMap.rising none (f.carry k vas).confl = true :=
  foldl_keeps (fun f : Fold => SMap.rising none f.confl = true) _ (fun f va hf => by
    split
    · exact hf
    · exact SMap.rising_insert _ _ _ _ hf (by simp)) vas f h

/-- The record names the conflict at the lowest address. -/
theorem Fold.record_lowest (f : Fold) (h : SMap.rising none f.confl = true) : (f.record = none ↔ ∀ va, SMap.find? f.confl va = none) ∧
    ∀ va a b, SMap.find? f.confl va = some (a, b) → (∀ x < va, SMap.find? f.confl x = none) →
      f.record = some ⟨BitVec.ofNat 64 va,
        BitVec.ofNat 64 (va % 64 * 2 ^ 48 + min f.confl.length 65535 * 2 ^ 32 + b % 65536 * 65536 + a % 65536)⟩ := by
  unfold Fold.record
  cases hc : f.confl with
  | nil => exact ⟨⟨fun _ _ => rfl, fun _ => rfl⟩, fun va a b hva => (nomatch hva)⟩
  | cons e m =>
    obtain ⟨q, x, y⟩ := e
    rw [hc] at h
    have hhead : SMap.find? ((q, x, y) :: m) q = some (x, y) := if_pos rfl
    refine ⟨⟨fun hn => (nomatch hn), fun hall => (by rw [hall q] at hhead; cases hhead)⟩, fun va a b hva hlow => ?_⟩
    have hle : va ≤ q := Nat.le_of_not_lt fun hlt => (by rw [hlow q hlt] at hhead; cases hhead)
    have heq : va = q := by
      by_contra hne
      have hrest : SMap.find? m va = some (a, b) := (if_neg hne).symm.trans hva
      rw [SMap.find?_above m q va h hle] at hrest
      cases hrest
    subst heq
    obtain ⟨rfl, rfl⟩ : x = a ∧ y = b := by
      rw [hhead] at hva
      exact Prod.mk.inj (Option.some.inj hva)
    rfl

/-- The members of a fold, each against its twin, with the conflicts they carry. -/
theorem foldsTo {ι : Type} (ks : List ι) (idx : ι → Nat) (view : ι → Overlay) (twin : ι → Nat → Byte) (carried : ι → List Nat)
    (hv : ∀ k ∈ ks, SMap.rising none (view k) = true) :
    FoldsTo ks idx view twin carried
      (ks.foldl (fun f k => f.carry (idx k) (carried k)) (ks.foldl (fun f k => f.member (idx k) (view k) (twin k)) Fold.empty)) := by
  set f₁ := ks.foldl (fun f k => f.member (idx k) (view k) (twin k)) Fold.empty with hf₁
  obtain ⟨hbytes, hconfl⟩ := Fold.carries_rest idx carried ks f₁
  have hr₁ : SMap.rising none f₁.confl = true :=
    foldl_keeps (fun f : Fold => SMap.rising none f.confl = true) _ (fun f k => f.member_rising _ _ _) ks Fold.empty rfl
  refine ⟨fun va => ?_, Fold.record_lowest _ (foldl_keeps (fun f : Fold => SMap.rising none f.confl = true) _
    (fun f k => f.carry_rising _ _) ks f₁ hr₁)⟩
  intro ch
  have hcell : f₁.cell va = ch.foldl (fun c k => c.take (idx k) (SMap.find? (view k) va)) ⟨none, none, none⟩ :=
    Fold.cell_members idx view twin ks hv Fold.empty va
  have hb : SMap.find? f₁.bytes va = (f₁.cell va).byte := rfl
  have hp : SMap.find? f₁.confl va = (f₁.cell va).pair := rfl
  rw [hbytes, hconfl, hb, hp, hcell]
  match ch with
  | [] => exact ⟨fun _ => rfl, fun _ _ h => (nomatch h), fun _ _ _ h => (nomatch h), fun _ => rfl⟩
  | [a] =>
    refine ⟨fun h => (nomatch h), fun _ _ h => ?_, fun _ _ _ h => (nomatch h), fun _ => rfl⟩
    cases h
    rfl
  | a :: b :: l =>
    have hset : (a :: b :: l).foldl (fun (c : FoldCell) k => c.take (idx k) (SMap.find? (view k) va)) ⟨none, none, none⟩ =
        ⟨SMap.find? (view a) va, some (idx a), some (idx a, idx b)⟩ := FoldCell.takes_settled _ _ l _ _ _
    rw [hset]
    refine ⟨fun h => (nomatch h), fun _ _ h => ?_, fun _ _ _ h => ?_, fun h => absurd h (by simp)⟩
    · cases h
      rfl
    · cases h
      rfl

theorem foldMembers_foldsTo (ms : List Member) (hv : ∀ m ∈ ms, SMap.rising none m.view = true) (s : State) (c : Nat) :
    FoldsTo ms (·.idx) (·.view) (fun m => s.overByte c m.start) (·.carried) (s.foldMembers c ms) :=
  foldsTo ms (·.idx) (·.view) (fun m => s.overByte c m.start) (·.carried) hv

end Machine
end Sys2Proof
end

section
/-! SUPPORT. The fold of a graph's launches (R15), byte by byte. -/

namespace Sys2Proof
open Machine
namespace Machine

/-! ### The changers of each byte -/

/-- One entry of a launch's view. -/
def noteChange (twin : Member → Nat → Byte) (m : Member) (t : SMap (List (Nat × Byte))) (e : Nat × Byte) : SMap (List (Nat × Byte)) :=
  if e.2 = twin m e.1 then t else SMap.insert t e.1 (SMap.get t [] e.1 ++ [(m.idx, e.2)])

/-- The changers of every byte, each with the byte it writes. -/
def changersOf (ms : List Member) (twin : Member → Nat → Byte) : SMap (List (Nat × Byte)) :=
  ms.foldl (fun t m => m.view.foldl (noteChange twin m) t) []

/-- The byte that a launch's view holds. -/
def Member.writes (m : Member) (va : Nat) : Byte := SMap.get m.view 0 va

theorem get_noteChanges (twin : Member → Nat → Byte) (m : Member) (hv : SMap.rising none m.view = true) (t : SMap (List (Nat × Byte))) (va : Nat) :
    SMap.get (m.view.foldl (noteChange twin m) t) [] va =
      if changes m.view (twin m) va then SMap.get t [] va ++ [(m.idx, m.writes va)] else SMap.get t [] va := by
  rw [SMap.foldl_at (noteChange twin m) (fun t => SMap.get t [] va) va (fun c x => if x ≠ twin m va then c ++ [(m.idx, x)] else c)
    (fun t q x hq => ?_) (fun t x => ?_) m.view none hv t]
  · unfold changes Member.writes SMap.get
    cases SMap.find? m.view va with
    | none => rfl
    | some x => simp
  · unfold noteChange
    split
    · rfl
    · exact (SMap.get_insert ..).trans (if_neg (Ne.symm hq))
  · unfold noteChange
    by_cases hx : x = twin m va
    · rw [if_pos hx, if_neg (not_not_intro hx)]
    · rw [if_neg hx, if_pos hx]
      exact (SMap.get_insert ..).trans (if_pos rfl)

/-- The changers of a byte, in the order of the launches. -/
theorem get_changersOf (ms : List Member) (twin : Member → Nat → Byte) (hv : ∀ m ∈ ms, SMap.rising none m.view = true) (va : Nat) :
    SMap.get (changersOf ms twin) [] va = (ms.filter fun m => changes m.view (twin m) va).map fun m => (m.idx, m.writes va) := by
  have hfold (t : SMap (List (Nat × Byte))) : SMap.get (ms.foldl (fun t m => m.view.foldl (noteChange twin m) t) t) [] va =
      SMap.get t [] va ++ (ms.filter fun m => changes m.view (twin m) va).map fun m => (m.idx, m.writes va) := by
    induction ms generalizing t with
    | nil => exact (List.append_nil _).symm
    | cons m ms ih =>
      rw [List.foldl_cons, ih (fun x hx => hv x (List.mem_cons_of_mem _ hx)), get_noteChanges twin m (hv m List.mem_cons_self), List.filter_cons]
      split
      · simp
      · rfl
  exact hfold []

theorem rising_changersOf (ms : List Member) (twin : Member → Nat → Byte) : SMap.rising none (changersOf ms twin) = true :=
  foldl_keeps (fun t => SMap.rising none t = true) _ (fun t m ht => foldl_keeps (fun t => SMap.rising none t = true) _ (fun t e ht => by
    unfold noteChange
    split
    · exact ht
    · exact SMap.rising_insert _ _ _ _ ht (by simp)) m.view t ht) ms [] rfl

/-! ### The changer that stands, or the conflict -/

/-- The changer to which every other has a path. -/
def lastOf (path : Nat → Nat → Bool) (cs : List (Nat × Byte)) : Option (Nat × Byte) :=
  cs.find? fun c => cs.all fun d => d.1 == c.1 || path d.1 c.1

/-- The pairs of changers that no path links, lowest first. -/
def unlinked (path : Nat → Nat → Bool) (cs : List (Nat × Byte)) : List (Nat × Nat) :=
  cs.flatMap fun c => cs.filterMap fun d => if c.1 < d.1 && !path c.1 d.1 && !path d.1 c.1 then some (c.1, d.1) else none

/-- What the changers of a byte come to: its value and its conflict. -/
def judged (path : Nat → Nat → Bool) (cs : List (Nat × Byte)) : Option Byte × Option (Nat × Nat) :=
  match lastOf path cs with
  | some c => (some c.2, none)
  | none => match cs with
    | c :: _ => (some c.2, some ((unlinked path cs).headD (c.1, c.1)))
    | [] => (none, none)

/-- One byte of the graph fold. -/
def Fold.judge (path : Nat → Nat → Bool) (f : Fold) (e : Nat × List (Nat × Byte)) : Fold :=
  match lastOf path e.2 with
  | some c => { f with bytes := SMap.insert f.bytes e.1 c.2 }
  | none => match e.2 with
    | c :: _ => { f with bytes := SMap.insert f.bytes e.1 c.2, confl := SMap.insert f.confl e.1 ((unlinked path e.2).headD (c.1, c.1)) }
    | [] => f

theorem graphFold_eq (ms : List Member) (twin : Member → Nat → Byte) (path : Nat → Nat → Bool) :
    graphFold ms twin path = (changersOf ms twin).foldl (Fold.judge path) Fold.empty := rfl

/-- What a fold says of a byte. -/
def Fold.saysOf (f : Fold) (va : Nat) : Option Byte × Option (Nat × Nat) := (SMap.find? f.bytes va, SMap.find? f.confl va)

theorem Fold.saysOf_judge_other (path : Nat → Nat → Bool) (f : Fold) (q va : Nat) (cs : List (Nat × Byte)) (hq : q ≠ va) :
    (Fold.judge path f (q, cs)).saysOf va = f.saysOf va := by
  have hne : va ≠ q := Ne.symm hq
  unfold Fold.judge Fold.saysOf
  split
  · simp [SMap.find?_insert, hne]
  · split
    · simp [SMap.find?_insert, hne]
    · rfl

theorem Fold.saysOf_judge (path : Nat → Nat → Bool) (f : Fold) (va : Nat) (cs : List (Nat × Byte)) :
    (Fold.judge path f (va, cs)).saysOf va = ((judged path cs).1.or (SMap.find? f.bytes va), (judged path cs).2.or (SMap.find? f.confl va)) := by
  unfold Fold.judge Fold.saysOf judged
  dsimp only
  split
  · simp [SMap.find?_insert]
  · split
    · simp [SMap.find?_insert]
    · rfl

/-- The graph fold says of each byte what its changers come to. -/
theorem saysOf_graphFold (ms : List Member) (twin : Member → Nat → Byte) (path : Nat → Nat → Bool) (hv : ∀ m ∈ ms, SMap.rising none m.view = true)
    (va : Nat) : (graphFold ms twin path).saysOf va =
      judged path ((ms.filter fun m => changes m.view (twin m) va).map fun m => (m.idx, m.writes va)) := by
  rw [← get_changersOf ms twin hv va, graphFold_eq, SMap.foldl_at (Fold.judge path) (·.saysOf va) va
    (fun b cs => ((judged path cs).1.or b.1, (judged path cs).2.or b.2)) (fun f q cs hq => f.saysOf_judge_other path q va cs hq)
    (fun f cs => f.saysOf_judge path va cs) _ none (rising_changersOf ms twin)]
  unfold SMap.get
  cases SMap.find? (changersOf ms twin) va with
  | none => rfl
  | some cs =>
    show ((judged path cs).1.or none, (judged path cs).2.or none) = _
    simp

/-! ### Conflicts: the lowest pair not linked -/

/-- Lexicographic order of pairs. -/
def PairLe (p q : Nat × Nat) : Prop := p.1 < q.1 ∨ p.1 = q.1 ∧ p.2 ≤ q.2

theorem mem_unlinked (path : Nat → Nat → Bool) (cs : List (Nat × Byte)) (p : Nat × Nat) :
    p ∈ unlinked path cs ↔ ∃ c ∈ cs, ∃ d ∈ cs, (c.1 < d.1 ∧ path c.1 d.1 = false ∧ path d.1 c.1 = false) ∧ p = (c.1, d.1) := by
  unfold unlinked
  simp only [List.mem_flatMap, List.mem_filterMap, Option.ite_none_right_eq_some, Bool.and_eq_true, decide_eq_true_eq, Bool.not_eq_true',
    Option.some.injEq, eq_comm (a := p), and_assoc]

theorem unlinked_sorted (path : Nat → Nat → Bool) (cs : List (Nat × Byte)) (h : cs.Pairwise fun a b => a.1 < b.1) :
    (unlinked path cs).Pairwise PairLe := by
  have hrow (c : Nat × Byte) (x : Nat × Nat) (d : Nat × Byte)
      (hx : (if c.1 < d.1 && !path c.1 d.1 && !path d.1 c.1 then some (c.1, d.1) else none) = some x) : x = (c.1, d.1) := by
    split at hx
    · exact (Option.some.inj hx).symm
    · cases hx
  refine List.pairwise_flatMap.2 ⟨fun c _ => List.pairwise_filterMap.2 (h.imp fun {a b} hab x hx y hy => ?_), h.imp fun {a b} hab x hx y hy => ?_⟩
  · rw [hrow c x a hx, hrow c y b hy]
    exact .inr ⟨rfl, Nat.le_of_lt hab⟩
  · obtain ⟨d, -, hd⟩ := List.mem_filterMap.1 hx
    obtain ⟨e, -, he⟩ := List.mem_filterMap.1 hy
    rw [hrow a x d hd, hrow b y e he]
    exact .inl hab

/-- The conflict of a byte names the lowest pair. -/
theorem unlinked_head (path : Nat → Nat → Bool) (cs : List (Nat × Byte)) (h : cs.Pairwise fun a b => a.1 < b.1) (p dflt : Nat × Nat)
    (hp : p ∈ unlinked path cs) (hlow : ∀ q ∈ unlinked path cs, PairLe p q) : (unlinked path cs).headD dflt = p := by
  have hs := unlinked_sorted path cs h
  match hu : unlinked path cs, hp, hlow, hs with
  | q :: qs, hp, hlow, hs =>
    have hqp : PairLe q p := by
      rcases List.mem_cons.1 hp with rfl | hm
      · exact .inr ⟨rfl, Nat.le_refl _⟩
      · exact (List.pairwise_cons.1 hs).1 p hm
    have hpq := hlow q List.mem_cons_self
    unfold PairLe at hqp hpq
    show q = p
    exact Prod.ext (by omega) (by omega)

/-- The fold of a graph, as R15 says. -/
theorem graphFold_foldsTo (ms : List Member) (hs : ms.Pairwise fun a b => a.idx < b.idx) (hv : ∀ m ∈ ms, SMap.rising none m.view = true)
    (twin : Member → Nat → Byte) (path : Nat → Nat → Bool) : GraphFoldsTo ms twin path (graphFold ms twin path) := by
  intro va ch last apart
  have hsays := saysOf_graphFold ms twin path hv va
  have hfind (m : Member) (hm : m ∈ ch) : SMap.find? m.view va = some (m.writes va) := by
    have hc : changes m.view (twin m) va = true := (List.mem_filter.1 hm).2
    unfold changes at hc
    unfold Member.writes SMap.get
    cases hx : SMap.find? m.view va with
    | none => rw [hx] at hc; cases hc
    | some x => rfl
  set cs := ch.map fun m => (m.idx, m.writes va) with hcs
  have hb : SMap.find? (graphFold ms twin path).bytes va = (judged path cs).1 := congrArg Prod.fst hsays
  have hc : SMap.find? (graphFold ms twin path).confl va = (judged path cs).2 := congrArg Prod.snd hsays
  have hlast (c : Member) : (cs.all fun d => d.1 == c.idx || path d.1 c.idx) = true ↔ last c := by
    rw [hcs]
    simp [last, List.all_eq_true]
  rw [hb, hc]
  refine ⟨fun h => ?_, fun l c l' h hl hno => ?_, fun c l h hno => ?_⟩
  · rw [hcs, h]
    exact ⟨rfl, rfl⟩
  · have hof : lastOf path cs = some (c.idx, c.writes va) := by
      unfold lastOf
      rw [List.find?_eq_some_iff_append]
      refine ⟨(hlast c).2 hl, l.map fun m => (m.idx, m.writes va), l'.map fun m => (m.idx, m.writes va), by rw [hcs, h]; simp, fun d hd => ?_⟩
      obtain ⟨m, hm, rfl⟩ := List.mem_map.1 hd
      simpa using fun ha => hno m hm ((hlast m).1 ha)
    have hj : judged path cs = (some (c.writes va), none) := by
      unfold judged
      rw [hof]
    rw [hj, hfind c (h ▸ by simp)]
    exact ⟨rfl, rfl⟩
  · have hnone : lastOf path cs = none := by
      unfold lastOf
      rw [List.find?_eq_none]
      intro d hd
      obtain ⟨m, hm, rfl⟩ := List.mem_map.1 hd
      exact fun ha => hno m hm ((hlast m).1 ha)
    have hhead : cs = (c.idx, c.writes va) :: l.map fun m => (m.idx, m.writes va) := by rw [hcs, h]; rfl
    have hj : judged path cs = (some (c.writes va), some ((unlinked path cs).headD (c.idx, c.idx))) := by
      unfold judged
      rw [hnone]
      dsimp only
      rw [hhead]
    have hsorted : cs.Pairwise fun a b => a.1 < b.1 := by
      rw [hcs, List.pairwise_map]
      exact hs.filter _
    rw [hj, hfind c (h ▸ by simp)]
    refine ⟨rfl, Option.some_ne_none _, fun a b hab hlow => congrArg some (unlinked_head path cs hsorted _ _ ?_ fun q hq => ?_)⟩
    · obtain ⟨ha, hb, hrest⟩ := hab
      exact (mem_unlinked path cs _).2 ⟨_, List.mem_map_of_mem ha, _, List.mem_map_of_mem hb, hrest, rfl⟩
    · obtain ⟨x, hx, y, hy, hrest, rfl⟩ := (mem_unlinked path cs q).1 hq
      obtain ⟨m, hm, rfl⟩ := List.mem_map.1 hx
      obtain ⟨n, hn, rfl⟩ := List.mem_map.1 hy
      exact hlow m n ⟨hm, hn, hrest⟩

end Machine
end Sys2Proof
end

section
/-! SUPPORT. The ends of graphs, phases and jobs (R15, R352, R353). -/

namespace Sys2Proof
open Machine
namespace Machine

theorem State.SameWork.writeReplica {s t : State} {pa : Nat} {bs : List Byte} (h : s.SameWork t) : s.SameWork (t.writeReplica pa bs) := by
  refine h.trans ⟨rfl, rfl, fun c hc => ?_⟩
  unfold State.ctx SMap.get at hc ⊢
  have hfind := SMap.find?_map t.ctxs (fun e => (e.1, { e.2 with
    shadow := e.2.shadow.filter fun b => !(decide (pa ≤ b.1) && decide (b.1 < pa + bs.length)) })) (fun _ => rfl) c
  rw [State.writeReplica, hfind]
  cases hx : SMap.find? t.ctxs c with
  | none => exact ⟨rfl, rfl⟩
  | some x =>
    rw [hx] at hc
    obtain ⟨hp, hs⟩ : x.idle := hc
    exact ⟨hp, by simp [hs]⟩

theorem State.SameWork.copyReplica {s t : State} {home va len : Nat} (h : s.SameWork t) : s.SameWork (t.copyReplica home va len) := by
  unfold State.copyReplica
  split
  · exact h
  · exact h.writeReplica

theorem State.SameWork.refreshReplicas {s t : State} {c : Nat} (h : s.SameWork t) : s.SameWork (t.refreshReplicas c) := by
  unfold State.refreshReplicas
  have hlive := h.foldl (xs := t.exp.live) (f := fun s e => (s.replicas e.2.toNat).foldl (fun s r => s.copyReplica r.2.1 r.1 r.2.2) s)
    fun _ _ hu => hu.foldl fun _ _ hw => hw.copyReplica
  split
  · exact h
  · dsimp only
    split
    · exact (hlive.foldl fun _ _ hu => hu.copyReplica).ite hlive
    · exact hlive

theorem State.SameWork.recordsDue {s t : State} {c job phase graph lvl : Nat} (h : s.SameWork t) :
    s.SameWork (t.recordsDue c job phase graph lvl) := h.foldl fun _ _ hu => hu.writeRecord.ite hu

theorem State.Posted.ctxs {s t : State} (h : s.Posted t) : t.ctxs = s.ctxs := by rw [h]

theorem State.updLev_ctxs (s : State) (id : Nat) (f : Lev → Lev) : (s.updLev id f).ctxs = s.ctxs := by
  unfold State.updLev
  split <;> rfl

theorem State.updGrp_ctxs (s : State) (id : Nat) (f : Grp → Grp) : (s.updGrp id f).ctxs = s.ctxs := by
  unfold State.updGrp
  split <;> rfl

theorem State.updGrp_levs (s : State) (id : Nat) (f : Grp → Grp) : (s.updGrp id f).levs = s.levs := by
  unfold State.updGrp
  split <;> rfl

/-- Counting a member into a level leaves what an ended level came to. -/
theorem State.find?_updLev_count (s : State) (l id : Nat) (m : Option Member) {v : Lev} (hv : SMap.find? s.levs id = some v) :
    ∃ v', SMap.find? (s.updLev l fun w => w.count m).levs id = some v' ∧ v'.finished = v.finished ∧ v'.state = v.state ∧ v'.result = v.result := by
  unfold State.updLev
  split
  · next w hw =>
    show ∃ v', SMap.find? (SMap.insert s.levs l (w.count m)) id = some v' ∧ _
    rw [SMap.find?_insert]
    split
    · next hl =>
      rw [← hl, hv] at hw
      cases hw
      exact ⟨_, rfl, rfl, rfl, rfl⟩
    · exact ⟨v, hv, rfl, rfl, rfl⟩
  · exact ⟨v, hv, rfl, rfl, rfl⟩

/-- A level ends when its members have all ended, once its last has been submitted or it is cancelled. -/
theorem level_ends {v : Lev} {lvl : Nat} (hf : v.finished = false) (hl : v.lvl = lvl) (he : v.ended = v.launches.length)
    (hd : v.last = true ∨ v.cancelled = true) :
    ¬ (v.finished || decide (v.lvl ≠ lvl) || decide (v.ended ≠ v.launches.length) || !(v.last || v.cancelled)) = true := by
  have hdue : (v.last || v.cancelled) = true := by
    rcases hd with h | h <;> simp [h]
  simp [hf, hl, he, hdue]

section
variable (s : State) (id : Nat) (v : Lev) (hv : SMap.find? s.levs id = some v) (hf : v.finished = false)
  (he : v.ended = v.launches.length) (hd : v.last = true ∨ v.cancelled = true)
include hv hf he hd

theorem graphEnded_effect (hl : v.lvl = 3) :
    let f := graphFold v.members (fun m va => s.overByte v.ctx m.start va)
      (hasPath (s.predsOf v.ctx v.job.toNat v.phase.toNat v.graph.toNat) 4096)
    ∃ t v', exec (.instanceEnd .graph id) s = .next t ∧ SMap.find? t.levs id = some v' ∧ v'.finished = true ∧
      v'.state = (if v.cancelled then 2 else if f.record.isSome then 3 else 1) ∧ v'.result = if v.cancelled then [] else f.bytes := by
  intro f
  suffices h : ∃ v', SMap.find? (s.graphEnded id).levs id = some v' ∧ v'.finished = true ∧
      v'.state = (if v.cancelled then 2 else if f.record.isSome then 3 else 1) ∧ v'.result = if v.cancelled then [] else f.bytes by
    obtain ⟨v', h⟩ := h
    exact ⟨_, v', rfl, h⟩
  unfold State.graphEnded
  simp -zeta only [hv]
  rw [if_neg (level_ends hf hl he hd)]
  extract_lets j p gr f' parts confl st v₁ s₁ s₂
  have hstate : v₁.state = if v.cancelled then 2 else if f.record.isSome then 3 else 1 := by
    show (if v.cancelled then (2 : BitVec 2) else if (if v.cancelled then none else f.record).isSome then 3 else 1) = _
    cases v.cancelled <;> rfl
  have hs₂ : SMap.find? s₂.levs id = some v₁ := by
    rw [(State.SameWork.refl s₁).recordsDue.levs]
    exact (SMap.find?_insert ..).trans (if_pos rfl)
  split
  · exact ⟨v₁, hs₂, rfl, hstate, rfl⟩
  · next l _ _ =>
    obtain ⟨v', hfind, hfin, hst, hres⟩ := s₂.find?_updLev_count l id (if v₁.cancelled then none else some ⟨gr, [], v₁.result, v₁.parts, [], st⟩) hs₂
    refine ⟨v', ?_, hfin, hst.trans hstate, hres⟩
    rw [(State.Posted.refl _).levelDue.levs]
    exact hfind

theorem jobEnded_effect (hl : v.lvl = 5) : ∃ t v', exec (.instanceEnd .job id) s = .next t ∧ SMap.find? t.levs id = some v' ∧
    v'.finished = true ∧ v'.done = BitVec.ofNat 32 v.ended ∧ v'.state = if v.cancelled then 2 else 1 := by
  refine ⟨_, { v with finished := true, state := if v.cancelled then 2 else 1, done := BitVec.ofNat 32 v.ended }, rfl, ?_, rfl, rfl, rfl⟩
  show SMap.find? (s.jobEnded id).levs id = _
  unfold State.jobEnded
  simp only [hv]
  rw [if_neg (level_ends hf hl he hd), (State.SameWork.refl _).recordsDue.levs]
  exact (SMap.find?_insert ..).trans (if_pos rfl)

theorem phaseEnded_effect (hl : v.lvl = 4) : ∃ v', SMap.find? (s.phaseEnded id).levs id = some v' ∧ v'.finished = true ∧
    v'.state = (if v.cancelled then 2 else if (s.foldMembers v.ctx v.members).record.isSome then 3 else 1) ∧
    ((s.phaseEnded id).ctx v.ctx).pcur = none ∧ ((s.phaseEnded id).ctx v.ctx).shadow = [] := by
  unfold State.phaseEnded
  simp -zeta only [hv]
  rw [if_neg (level_ends hf hl he hd)]
  extract_lets c j p f parts confl st here parts' away settled bytes x s₁ s₂ s₃ s₄ s₅ v₁ s₆ s₇ s₈ s₉
  have hstate : v₁.state = if v.cancelled then 2 else if f.record.isSome then 3 else 1 := by
    show (if v.cancelled then (2 : BitVec 2) else if (if v.cancelled then none else f.record).isSome then 3 else 1) = _
    cases v.cancelled <;> rfl
  have h₁ : (s₁.ctx c).idle := by
    have hget : s₁.ctx c = { s.ctx c with pcur := none, shadow := [] } := (SMap.get_set ..).trans (if_pos rfl)
    rw [hget]
    exact ⟨rfl, rfl⟩
  have h₂ : s₁.SameWork s₂ := (State.SameWork.refl s₁).beside
  have h₅ : s₁.SameWork s₅ := ((h₂.foldl fun _ _ hu => hu.writeDev).foldl fun _ _ hu => hu.writeDev).refreshReplicas
  have h₇ : s₆.SameWork s₇ := (State.SameWork.refl s₆).recordsDue
  have h₈ : s₈.ctxs = s₇.ctxs ∧ s₈.levs = s₇.levs :=
    foldl_keeps (fun t : State => t.ctxs = s₇.ctxs ∧ t.levs = s₇.levs) _ (fun t e ht => by
      split
      · rw [State.updGrp_ctxs, State.updGrp_levs]
        exact ht
      · exact ht) _ s₇ ⟨rfl, rfl⟩
  have hv₈ : SMap.find? s₈.levs id = some v₁ := by
    rw [h₈.2, h₇.levs]
    exact (SMap.find?_insert ..).trans (if_pos rfl)
  have hidle : (s₈.ctx c).idle := by
    have hctx : s₈.ctx c = s₇.ctx c := congrArg (SMap.get · Ctx.zero c) h₈.1
    rw [hctx]
    exact h₇.idle c (h₅.idle c h₁)
  obtain ⟨v', hv', hfin, hst, hctx⟩ : ∃ v', SMap.find? s₉.levs id = some v' ∧ v'.finished = true ∧ v'.state = v₁.state ∧ s₉.ctxs = s₈.ctxs := by
    unfold s₉
    split
    · exact ⟨v₁, hv₈, rfl, rfl, rfl⟩
    · next l _ _ =>
      obtain ⟨v', hv', hfin, hst, -⟩ := s₈.find?_updLev_count l id none hv₈
      have hposted := (State.Posted.refl (s₈.updLev l fun w => w.count none)).levelDue (c := c) (lvl := 5) (job := j) (phase := 0)
        (graph := 0) (e := .instanceEnd .job l)
      exact ⟨v', hposted.levs ▸ hv', hfin, hst, hposted.ctxs.trans (s₈.updLev_ctxs l _)⟩
  have hposts : s₉.Posted (s₉.grps.foldl (fun s e => if e.2.st == .pending && e.2.ctx == c then s.postOnce (.launchStart e.1) else s) s₉) :=
    (State.Posted.refl s₉).foldl fun _ _ hu => hu.postOnce.ite hu
  have hctxs : State.ctx _ c = s₈.ctx c := congrArg (SMap.get · Ctx.zero c) (hposts.ctxs.trans hctx)
  exact ⟨v', hposts.levs ▸ hv', hfin, hst.trans hstate, hctxs ▸ hidle⟩

end

end Machine
end Sys2Proof
end

section
/-! SUPPORT. The start of a launch (R16, R75, R353) and of its waves (Table 99). -/

namespace Sys2Proof
open Machine
namespace Machine

/-! ### Starting waves -/

/-- A wave of a group before its arguments are written. -/
def bareWave (g : Grp) (h i : Nat) (image : SMap W32) : Wave :=
  { Wave.absent with
    blk := h
    idx := i
    st := .running
    sp := { Spec.zero with fmode := g.fmode }
    view := { View.empty with vis := g.vis }
    r := { Wave.absent.r with v := image } }

theorem startWave_eq (g : Grp) (h i : Nat) (image : SMap W32) :
    startWave g h i image = (((((bareWave g h i image).goTo (BitVec.allOnes 32) g.entry).setS 0 (BitVec.ofNat 32 g.args.toNat)).setS 1
      (BitVec.ofNat 32 (g.args.toNat / 2 ^ 32))).setS 2 (BitVec.ofNat 32 g.desc.toNat)).setS 3 (BitVec.ofNat 32 (g.desc.toNat / 2 ^ 32)) := rfl

theorem startWave_effect (g : Grp) (h i : Nat) (image : SMap W32) :
    let w := startWave g h i image
    w.st = .running ∧ w.blk = h ∧ w.idx = i ∧ w.exited = 0 ∧ (∀ l < 32, w.pcAt l = g.entry) ∧ w.sregs 0 2 = g.args.toNat ∧
    w.sregs 2 2 = g.desc.toNat ∧ (∀ n, 4 ≤ n → w.sreg n = 0) ∧ w.sp = { Spec.zero with fmode := g.fmode } ∧
    ∀ n l, w.vreg n l = SMap.get image 0 (32 * n + l) := by
  intro w
  have hargs := g.args.isLt
  have hdesc := g.desc.isLt
  refine ⟨rfl, rfl, rfl, rfl, fun l hl => ?_, ?_, ?_, fun n hn => ?_, rfl, fun _ _ => rfl⟩
  · refine (Wave.pcAt_goTo (bareWave g h i image) (BitVec.allOnes 32) g.entry l).trans (if_pos ?_)
    rw [mem_lanesOf, BitVec.getLsbD_allOnes]
    exact ⟨hl, decide_eq_true hl⟩
  · simp only [w, startWave_eq, Wave.sregs, Wave.sreg_setS]
    norm_num
    omega
  · simp only [w, startWave_eq, Wave.sregs, Wave.sreg_setS]
    norm_num
    omega
  · simp only [w, startWave_eq, Wave.sreg_setS]
    rw [if_neg (by omega), if_neg (by omega), if_neg (by omega), if_neg (by omega)]
    rfl

/-! ### Starting launches -/

theorem SMap.find?_filter_key {α : Type} (m : SMap α) (p : Nat → Bool) (k : Nat) :
    SMap.find? (m.filter fun e => p e.1) k = if p k then SMap.find? m k else none := by
  induction m with
  | nil => simp [SMap.find?]
  | cons e m ih =>
    obtain ⟨q, y⟩ := e
    rw [List.filter_cons]
    by_cases hk : k = q
    · subst hk
      by_cases hp : p k <;> simp [hp, SMap.find?, ih]
    · by_cases hp : p q <;> simp [hp, SMap.find?, ih, hk]

/-- A cleared allocation reads 0, the rest of die shared memory what it held. -/
theorem State.byte_clearDsm (s : State) (off n a : Nat) : Memory.byte (s.clearDsm off n).dsm a =
    if off ≤ a % 2 ^ 25 ∧ a % 2 ^ 25 < off + n then 0 else Memory.byte s.dsm a := by
  have h := SMap.find?_filter_key s.dsm (fun q => !(decide (off ≤ q % 2 ^ 25) && decide (q % 2 ^ 25 < off + n))) a
  unfold Memory.byte SMap.get
  rw [State.clearDsm, h]
  have hkeep : (!(decide (off ≤ a % 2 ^ 25) && decide (a % 2 ^ 25 < off + n))) = true ↔ ¬ (off ≤ a % 2 ^ 25 ∧ a % 2 ^ 25 < off + n) := by
    rw [Bool.not_eq_true', Bool.and_eq_false_iff, decide_eq_false_iff_not, decide_eq_false_iff_not, not_and_or]
  by_cases hin : off ≤ a % 2 ^ 25 ∧ a % 2 ^ 25 < off + n
  · rw [if_neg fun hp => hkeep.1 hp hin, if_pos hin]
  · rw [if_pos (hkeep.2 hin), if_neg hin]

theorem State.placeAll_posted (s : State) : s.Posted s.placeAll := (State.Posted.refl s).foldl fun _ _ hu => hu.postOnce
theorem State.placeAll_grps (s : State) : s.placeAll.grps = s.grps := s.placeAll_posted.grps
theorem State.placeAll_mem (s : State) : s.placeAll.mem = s.mem := by rw [s.placeAll_posted]
theorem State.placeAll_dsm (s : State) : s.placeAll.dsm = s.dsm := by rw [s.placeAll_posted]

theorem launchStart_effect (s : State) (id off : Nat) (g : Grp) (hg : SMap.find? s.grps id = some g) (hst : g.st = .pending) (hk : g.kind ≠ .fork)
    (hc : g.cancelled = false) (hkill : (s.ctx g.ctx).killing = false) :
    (s.mayStart g = false → exec (.launchStart id) s = .next s) ∧
    (g.kind = .host → s.replaying g.ctx = true → (s.ctx g.ctx).log = none → s.mayStart g = false) ∧
    (s.mayStart g = true → s.dsmFree (dsmUnit g.dsm) = some off → g.copy = false ∨ s.prank g.ctx ≠ 0 →
      let v := if g.kind = .device then (g.start, g.vis) else s.startView g
      ∃ t, exec (.launchStart id) s = .next t ∧
        SMap.find? t.grps id = some { g with st := .running, start := v.1, vis := v.2, dsmOff := off } ∧ t.mem = s.mem ∧
        ∀ a, Memory.byte t.dsm a = if off ≤ a % 2 ^ 25 ∧ a % 2 ^ 25 < off + dsmUnit g.dsm then 0 else Memory.byte s.dsm a) := by
  have hexec : exec (.launchStart id) s = .next (s.beginLaunch none id) := rfl
  have hstop : (decide (g.st ≠ .pending) || g.kind == .fork || g.cancelled || (s.ctx g.ctx).killing || !s.mayStart g) = !s.mayStart g := by
    simp [hst, hk, hc, hkill]
  refine ⟨fun hm => ?_, fun hh hr hl => ?_, fun hm hd hcp => ?_⟩
  · rw [hexec]
    unfold State.beginLaunch
    simp only [hg]
    rw [hstop, hm]
    rfl
  · unfold State.mayStart
    rw [if_neg (by rw [hh]; decide), hr, hl]
    simp
  · intro v
    rw [hexec]
    suffices h : SMap.find? (s.beginLaunch none id).grps id = some { g with st := .running, start := v.1, vis := v.2, dsmOff := off } ∧
        (s.beginLaunch none id).mem = s.mem ∧ ∀ a, Memory.byte (s.beginLaunch none id).dsm a =
          if off ≤ a % 2 ^ 25 ∧ a % 2 ^ 25 < off + dsmUnit g.dsm then 0 else Memory.byte s.dsm a from ⟨_, rfl, h⟩
    unfold State.beginLaunch
    simp -zeta only [hg]
    rw [hstop, hm, if_neg (by simp)]
    simp -zeta only [hd]
    extract_lets v' s₁ g' s₂
    have hs₁ : s₁ = { s with ctxs := s₁.ctxs } := by
      unfold s₁
      split <;> rfl
    have hcopy : ¬ (g'.copy && decide (s₁.prank g'.ctx = 0)) = true := by
      have hrank : s₁.prank g'.ctx = s.prank g.ctx := by rw [hs₁]; rfl
      rw [hrank]
      rcases hcp with h | h
      · have hg' : g'.copy = false := h
        simp [hg']
      · simp [h]
    rw [if_neg hcopy, State.placeAll_grps, State.placeAll_mem, State.placeAll_dsm]
    refine ⟨(SMap.find?_insert ..).trans (if_pos rfl), ?_, fun a => ?_⟩
    · show s₁.mem = s.mem
      rw [hs₁]
    · have hdsm : s₁.dsm = s.dsm := by rw [hs₁]
      exact (State.byte_clearDsm s₁ off (dsmUnit g.dsm) a).trans (by rw [hdsm])

end Machine
end Sys2Proof
end

section
/-! SUPPORT. The order in which a die places its blocks (R34, R36, R360). -/

namespace Sys2Proof
open Machine
namespace Machine

/-! ### Orders -/

theorem gidLt_cons (x y : Nat) (a b : List Nat) :
    gidLt (x :: a) (y :: b) = if x < y then true else if y < x then false else gidLt a b := rfl

theorem gidLt_trans : ∀ a b c : List Nat, gidLt a b = true → gidLt b c = true → gidLt a c = true
  | [], [], _, h, _ => nomatch h
  | [], _ :: _, [], _, h => nomatch h
  | [], _ :: _, _ :: _, _, _ => rfl
  | _ :: _, [], _, h, _ => nomatch h
  | _ :: _, _ :: _, [], _, h => nomatch h
  | x :: a, y :: b, z :: c, h, g => by
    have ih := gidLt_trans a b c
    rw [gidLt_cons] at h g ⊢
    grind

theorem gidLt_asymm : ∀ a b : List Nat, gidLt a b = true → gidLt b a = false
  | [], [], h => nomatch h
  | [], _ :: _, _ => rfl
  | _ :: _, [], h => nomatch h
  | x :: a, y :: b, h => by
    have ih := gidLt_asymm a b
    rw [gidLt_cons] at h ⊢
    grind

/-- A strict order. -/
structure IsOrder {α : Type} (lt : α → α → Bool) : Prop where
  trans : ∀ a b c, lt a b = true → lt b c = true → lt a c = true
  asymm : ∀ a b, lt a b = true → lt b a = false

theorem isOrder_before : IsOrder Cand.before where
  trans a b c h g := by
    have ht := gidLt_trans a.gid b.gid c.gid
    unfold Cand.before at *
    grind
  asymm a b h := by
    have ht := gidLt_asymm a.gid b.gid
    unfold Cand.before at *
    grind

theorem isOrder_stageBefore : IsOrder Cand.stageBefore where
  trans a b c h g := by
    have ht := gidLt_trans a.gid b.gid c.gid
    unfold Cand.stageBefore at *
    grind
  asymm a b h := by
    have ht := gidLt_asymm a.gid b.gid
    unfold Cand.stageBefore at *
    grind

/-! ### Insertion -/

/-- `x` among sorted things: behind those that are `low` of it. -/
def placedBy {α : Type} (low : α → α → Bool) (l : List α) (x : α) : List α := l.filter (low x) ++ [x] ++ l.filter fun y => !low x y

/-- `low` splits a list sorted by `lt` where a thing belongs. -/
structure Splits {α : Type} (lt low : α → α → Bool) : Prop where
  below : ∀ x y, low x y = true → lt x y = false
  above : ∀ x y, low x y = false → lt y x = false
  across : ∀ x y z, low x y = true → low x z = false → lt z y = false

theorem placedBy_perm {α : Type} (low : α → α → Bool) (l : List α) (x : α) : (placedBy low l x).Perm (l ++ [x]) := by
  unfold placedBy
  rw [List.append_assoc]
  exact (List.perm_append_comm.append_left _).trans ((List.append_assoc _ _ [x]) ▸ (List.filter_append_perm _ l).append_right [x])

theorem placedBy_sorted {α : Type} {lt low : α → α → Bool} (hs : Splits lt low) (l : List α) (x : α) (h : l.Pairwise fun a b => lt b a = false) :
    (placedBy low l x).Pairwise fun a b => lt b a = false := by
  unfold placedBy
  rw [List.append_assoc, List.pairwise_append]
  have hlow (y : α) (hy : y ∈ l.filter (low x)) : low x y = true := (List.mem_filter.1 hy).2
  have hhigh (y : α) (hy : y ∈ l.filter fun y => !low x y) : low x y = false := by simpa using (List.mem_filter.1 hy).2
  refine ⟨h.filter _, List.pairwise_cons.2 ⟨fun b hb => hs.above x b (hhigh b hb), h.filter _⟩, fun a ha b hb => ?_⟩
  rcases List.mem_append.1 hb with hb | hb
  · rw [List.mem_singleton.1 hb]
    exact hs.below x a (hlow a ha)
  · exact hs.across x a b (hlow a ha) (hhigh b hb)

/-- Insertion of one thing after another sorts. -/
theorem placedBy_sorts {α : Type} {lt low : α → α → Bool} (hs : Splits lt low) (xs l : List α) (h : l.Pairwise fun a b => lt b a = false) :
    (xs.foldl (placedBy low) l).Perm (l ++ xs) ∧ (xs.foldl (placedBy low) l).Pairwise fun a b => lt b a = false := by
  induction xs generalizing l with
  | nil => simpa using h
  | cons x xs ih =>
    obtain ⟨hp, hsorted⟩ := ih (placedBy low l x) (placedBy_sorted hs l x h)
    refine ⟨hp.trans ?_, hsorted⟩
    simpa using (placedBy_perm low l x).append_right xs

theorem IsOrder.splits_notAbove {α : Type} {lt : α → α → Bool} (ho : IsOrder lt) : Splits lt fun x y => !lt x y where
  below x y h := by simpa using h
  above x y h := ho.asymm x y (by simpa using h)
  across x y z h g := by
    have hxy : lt x y = false := by simpa using h
    rw [Bool.eq_false_iff]
    intro hzy
    rw [ho.trans x z y (by simpa using g) hzy] at hxy
    cases hxy

theorem IsOrder.splits_below {α : Type} {lt : α → α → Bool} (ho : IsOrder lt) : Splits lt fun x y => lt y x where
  below x y h := ho.asymm y x h
  above x y h := h
  across x y z h g := by
    rw [Bool.eq_false_iff]
    intro hzy
    rw [ho.trans z y x hzy h] at g
    cases g

theorem sortCands_eq (lt : Cand → Cand → Bool) (l : List Cand) : sortCands lt l = l.foldl (placedBy fun x y => !lt x y) [] := by
  unfold sortCands placedBy
  simp only [Bool.not_not]

theorem sortCands_sorts {lt : Cand → Cand → Bool} (ho : IsOrder lt) (l : List Cand) :
    (sortCands lt l).Perm l ∧ (sortCands lt l).Pairwise fun a b => lt b a = false := by
  rw [sortCands_eq]
  exact placedBy_sorts ho.splits_notAbove l [] .nil

/-- The waves in the order of their block IDs (R13). -/
theorem State.byId_sorts (s : State) (ks : List Nat) :
    (s.byId ks).Perm ks ∧ (s.byId ks).Pairwise fun x y => gidLt (s.waveKey y []) (s.waveKey x []) = false :=
  placedBy_sorts (lt := fun x y => gidLt (s.waveKey x []) (s.waveKey y [])) (low := fun x y => gidLt (s.waveKey y []) (s.waveKey x []))
    (IsOrder.splits_below ⟨fun _ _ _ => gidLt_trans _ _ _, fun _ _ => gidLt_asymm _ _⟩) ks [] .nil

/-! ### The stages of a pipeline among the rest -/

/-- The candidates of a list with the stages of each pipeline by pressure, in the places of its blocks. -/
def staged (S : Cand → List Cand) (l : List Cand) : List Cand :=
  l.zipIdx.map fun e => if e.1.pipe.isNone then e.1 else (S e.1).getD ((l.take e.2).filter e.1.peer).length e.1

theorem staged_concat (S : Cand → List Cand) (l : List Cand) (x : Cand) :
    staged S (l ++ [x]) = staged S l ++ [if x.pipe.isNone then x else (S x).getD (l.filter x.peer).length x] := by
  unfold staged
  rw [List.zipIdx_append, List.map_append]
  congr 1
  · refine List.map_congr_left fun e he => ?_
    have hlt : e.2 ≤ l.length := by
      have := List.snd_lt_of_mem_zipIdx he
      omega
    rw [List.take_append_of_le_length hlt]
  · simp

theorem staged_single (S : Cand → List Cand) (l : List Cand) (x : Cand) (hx : x.pipe.isSome = false) : staged S (l ++ [x]) = staged S l ++ [x] := by
  rw [staged_concat, if_pos (by simpa using hx)]

theorem Cand.peer_iff (a b : Cand) : a.peer b = true ↔ a.pipe.isSome = true ∧ a.pipe = b.pipe ∧ a.prio = b.prio := by
  simp [Cand.peer, and_assoc]

theorem Cand.peer_congr {a b : Cand} (h : a.peer b = true) : a.peer = b.peer := by
  obtain ⟨-, hp, hq⟩ := (Cand.peer_iff a b).1 h
  funext c
  unfold Cand.peer
  rw [hp, hq]

/-- The lists of stages: those of a candidate are its peers among all, whichever of them is asked. -/
structure Stages (S : Cand → List Cand) (all : List Cand) : Prop where
  perm : ∀ c, (S c).Perm (all.filter c.peer)
  same : ∀ c d, c.peer d = true → S c = S d

section
variable {S : Cand → List Cand} {all : List Cand} (hS : Stages S all)
include hS

theorem Stages.peers (c d : Cand) (hd : d ∈ S c) : c.peer d = true := (List.mem_filter.1 ((hS.perm c).mem_iff.1 hd)).2

/-- There are stages left for a candidate behind those before it. -/
theorem Stages.room (l : List Cand) (x : Cand) (hx : x.pipe.isSome = true) (hl : l ++ [x] <+: all) : (l.filter x.peer).length < (S x).length := by
  have hself : x.peer x = true := (Cand.peer_iff x x).2 ⟨hx, rfl, rfl⟩
  have hle := (hl.sublist.filter x.peer).length_le
  rw [List.filter_append, List.filter_singleton, hself, List.length_append] at hle
  rw [(hS.perm x).length_eq]
  exact hle

/-- Where a stage of a pipeline stood stands the next of them. -/
theorem Stages.next (l : List Cand) (x : Cand) (hx : x.pipe.isSome = true) (hl : l ++ [x] <+: all) :
    ∃ y ∈ S x, (S x)[(l.filter x.peer).length]? = some y ∧ staged S (l ++ [x]) = staged S l ++ [y] := by
  have hroom := hS.room l x hx hl
  refine ⟨(S x)[(l.filter x.peer).length], List.getElem_mem hroom, List.getElem?_eq_getElem hroom, ?_⟩
  rw [staged_concat, if_neg (by simp [Option.isSome_iff_ne_none.1 hx]), List.getD_eq_getElem _ _ hroom]

/-- The candidates of a pipeline are its stages in their order. -/
theorem Stages.filter_peer (c : Cand) (l : List Cand) (hl : l <+: all) : (staged S l).filter c.peer = (S c).take (l.filter c.peer).length := by
  induction l using List.reverseRecOn with
  | nil => simp [staged]
  | append_singleton l x ih =>
    have ih := ih ((List.prefix_append l [x]).trans hl)
    by_cases hx : x.pipe.isSome = true
    · obtain ⟨y, hy, hat, heq⟩ := hS.next l x hx hl
      rw [heq, List.filter_append, ih, List.filter_append, List.filter_singleton, List.filter_singleton]
      have hsym : c.peer y = c.peer x := by
        obtain ⟨-, hp, hq⟩ := (Cand.peer_iff x y).1 (hS.peers x y hy)
        unfold Cand.peer
        rw [hp, hq]
      rw [hsym]
      by_cases hc : c.peer x = true
      · rw [hc, cond_true, cond_true, Cand.peer_congr hc, hS.same c x hc, List.length_append, List.length_singleton, List.take_add_one, hat]
        rfl
      · rw [Bool.eq_false_iff.2 hc, cond_false, cond_false, List.append_nil, List.append_nil]
    · have hx : x.pipe.isSome = false := Bool.eq_false_iff.2 hx
      have hc : c.peer x = false := Bool.eq_false_iff.2 fun h => by
        obtain ⟨hs, hp, -⟩ := (Cand.peer_iff c x).1 h
        rw [hp, hx] at hs
        cases hs
      rw [staged_single S l x hx, List.filter_append, ih, List.filter_append, List.filter_singleton, hc, cond_false, List.append_nil,
        List.append_nil]

theorem Stages.filter_alone (l : List Cand) (hl : l <+: all) :
    (staged S l).filter (fun c => c.pipe.isNone) = l.filter fun c => c.pipe.isNone := by
  induction l using List.reverseRecOn with
  | nil => rfl
  | append_singleton l x ih =>
    have ih := ih ((List.prefix_append l [x]).trans hl)
    by_cases hx : x.pipe.isSome = true
    · obtain ⟨y, hy, -, heq⟩ := hS.next l x hx hl
      have hp := ((Cand.peer_iff x y).1 (hS.peers x y hy)).2.1
      rw [heq, List.filter_append, ih, List.filter_append, List.filter_singleton, List.filter_singleton, ← hp, Option.isNone_eq_false_iff.2 hx]
      rfl
    · rw [staged_single S l x (Bool.eq_false_iff.2 hx), List.filter_append, ih, List.filter_append]

theorem Stages.prios (l : List Cand) (hl : l <+: all) : (staged S l).map (·.prio) = l.map (·.prio) := by
  induction l using List.reverseRecOn with
  | nil => rfl
  | append_singleton l x ih =>
    have ih := ih ((List.prefix_append l [x]).trans hl)
    by_cases hx : x.pipe.isSome = true
    · obtain ⟨y, hy, -, heq⟩ := hS.next l x hx hl
      have hq := ((Cand.peer_iff x y).1 (hS.peers x y hy)).2.2
      rw [heq, List.map_append, ih, List.map_append, List.map_singleton, List.map_singleton, hq]
    · rw [staged_single S l x (Bool.eq_false_iff.2 hx), List.map_append, ih, List.map_append]

theorem Stages.filter_all (c : Cand) : (staged S all).filter c.peer = S c := by
  rw [hS.filter_peer c all (List.prefix_refl all), ← (hS.perm c).length_eq, List.take_length]

theorem Stages.staged_perm : (staged S all).Perm all := by
  rw [List.perm_iff_count]
  intro c
  by_cases hc : c.pipe.isSome = true
  · have hself : c.peer c = true := (Cand.peer_iff c c).2 ⟨hc, rfl, rfl⟩
    rw [← List.count_filter hself, hS.filter_all c, (hS.perm c).count_eq, List.count_filter hself]
  · have hnone : c.pipe.isNone = true := by simpa using hc
    rw [← List.count_filter (p := fun c : Cand => c.pipe.isNone) hnone, hS.filter_alone all (List.prefix_refl all),
      List.count_filter (p := fun c : Cand => c.pipe.isNone) hnone]

/-- What holds along every pipeline's stages holds of any two of them. -/
theorem Stages.pairwise_peers (R : Cand → Cand → Prop) (hR : ∀ c, (S c).Pairwise R) : (staged S all).Pairwise fun x y => x.peer y = true → R x y := by
  rw [List.pairwise_iff_forall_sublist]
  intro x y hsub hxy
  have hself : x.peer x = true := (Cand.peer_iff x x).2 ⟨((Cand.peer_iff x y).1 hxy).1, rfl, rfl⟩
  have hpair := hsub.filter x.peer
  rw [hS.filter_all x] at hpair
  simp only [List.filter_cons, hself, hxy, if_true, List.filter_nil] at hpair
  exact List.pairwise_iff_forall_sublist.1 (hR x) hpair

end

/-- Without pipelines the candidates stand as they are. -/
theorem staged_alone (S : Cand → List Cand) (l : List Cand) (h : ∀ c ∈ l, c.pipe = none) : staged S l = l := by
  induction l using List.reverseRecOn with
  | nil => rfl
  | append_singleton l x ih =>
    rw [staged_concat, ih fun c hc => h c (List.mem_append_left _ hc), if_pos (by simp [h x])]

end Machine
end Sys2Proof
end

section
/-! SUPPORT. Placement, the checks of priorities, deadlocks and stalls, and the room that inheritance makes (R32, R36, R37, R115 to R117, R120). -/

namespace Sys2Proof
open Machine
namespace Machine

/-! ### Placement -/

theorem State.placeFirst_found (s : State) (die : Nat) (cs : List Cand) (c : Cand) (t : State)
    (hc : (cs.find? fun c => (s.placeCand die c).isSome) = some c) (ht : s.placeCand die c = some t) :
    s.placeFirst die cs = if c.blk.isSome ∧ (s.block (c.blk.getD 0)).st = .saved then t else t.postOnce (.blockPlace die) := by
  induction cs with
  | nil => cases hc
  | cons x xs ih =>
    rw [List.find?_cons] at hc
    unfold State.placeFirst
    cases hx : s.placeCand die x with
    | none =>
      rw [hx] at hc
      exact ih hc
    | some u =>
      rw [hx] at hc
      cases hc
      rw [hx] at ht
      cases ht
      simp

/-- The stages that stand for each candidate. -/
def stagesOf (l : List Cand) (c : Cand) : List Cand := sortCands Cand.stageBefore (l.filter c.peer)

theorem stages_stagesOf (l : List Cand) : Stages (stagesOf l) l where
  perm c := (sortCands_sorts isOrder_stageBefore (l.filter c.peer)).1
  same c d h := by
    unfold stagesOf
    rw [Cand.peer_congr h]

theorem blockPlace_effect (s : State) (die : Nat) :
    (s.waitingOn die).Perm (s.candidates die) ∧ (s.waitingOn die).Pairwise (fun x y => ¬ x.prio < y.prio) ∧
    (s.waitingOn die).Pairwise (fun x y => x.peer y = true → Cand.stageBefore y x = false) ∧
    ((∀ c ∈ s.candidates die, c.pipe = none) → (s.waitingOn die).Pairwise fun x y => Cand.before y x = false) ∧
    ∀ c t, (s.waitingOn die).find? (fun c => (s.placeCand die c).isSome) = some c → s.placeCand die c = some t →
      exec (.blockPlace die) s =
        .next (if c.blk.isSome ∧ (s.block (c.blk.getD 0)).st = .saved then t else t.postOnce (.blockPlace die)) := by
  obtain ⟨hperm, hsorted⟩ := sortCands_sorts isOrder_before (s.candidates die)
  set l := sortCands Cand.before (s.candidates die) with hl
  have heq : s.waitingOn die = staged (stagesOf l) l := rfl
  have hS := stages_stagesOf l
  have hprio : l.Pairwise fun x y => ¬ x.prio < y.prio := hsorted.imp fun {x y} h hlt => by
    unfold Cand.before at h
    rw [if_pos (by intro e; rw [e] at hlt; exact absurd hlt (BitVec.lt_irrefl _)), decide_eq_false_iff_not] at h
    exact h hlt
  rw [heq]
  refine ⟨hS.staged_perm.trans hperm, ?_, ?_, fun hn => ?_, fun c t hc ht => ?_⟩
  · have hmap : ((staged (stagesOf l) l).map (·.prio)).Pairwise fun p q => ¬ p < q := by
      rw [hS.prios l (List.prefix_refl l)]
      exact List.pairwise_map.2 hprio
    exact List.pairwise_map.1 hmap
  · exact hS.pairwise_peers (fun x y => Cand.stageBefore y x = false) fun c => (sortCands_sorts isOrder_stageBefore (l.filter c.peer)).2
  · rw [staged_alone _ l fun c hc => hn c (hperm.mem_iff.1 hc)]
    exact hsorted
  · exact congrArg _ (s.placeFirst_found die _ c t hc ht)

theorem splitChange_effect (s : State) (die core : Nat) (c : Cand) (cs : List Cand) (hw : s.waitingOn die = c :: cs) :
    ∃ t : State, exec (.splitChange die core) s = .next (t.postOnce (.blockPlace die)) ∧ t = { s with cores := t.cores } ∧
      (t.coreOf die core).split = if s.resident die core = [] then splitOf (s.candAl c).scratch else (s.coreOf die core).split := by
  refine ⟨s.setSplit die core (splitOf (s.candAl c).scratch), ?_, ?_, ?_⟩
  · show execSplitChange die core s = _
    unfold execSplitChange
    rw [hw]
  · unfold State.setSplit
    split <;> rfl
  · unfold State.setSplit
    by_cases hr : s.resident die core = []
    · rw [if_pos (beq_iff_eq.2 hr), if_pos hr]
      exact congrArg Core.split ((SMap.get_set ..).trans (if_pos rfl))
    · rw [if_neg fun h => hr (beq_iff_eq.1 h), if_neg hr]

/-! ### Checks -/

theorem inheritanceSave_effect (s : State) (die holder : Nat) :
    let b := s.block holder
    let e := Instr.inheritanceSave die holder
    (b.st ≠ .waiting ∧ b.st ≠ .saved ∨ b.die ≠ die ∨ s.waitedFor holder = false → exec e s = .next s) ∧
    (b.st = .waiting ∨ b.st = .saved → b.die = die → s.waitedFor holder = true →
      ((s.chooseCore b.ctx b.al die).isSome = true → exec e s = .next (s.postOnce (.blockPlace die))) ∧
      (s.chooseCore b.ctx b.al die = none →
        let hs := s.residentDown fun x => x.die == die && decide (x.prio < b.prio)
        (hs.find? s.maySave = none → exec e s = .next s) ∧
        ∀ h, hs.find? s.maySave = some h → exec e s = .next ((s.postOnce (.blockSave h)).postOnce e))) := by
  intro b e
  have hexec : exec e s = execInheritanceSave die holder s := rfl
  rw [hexec]
  unfold execInheritanceSave
  dsimp only
  refine ⟨fun h => if_pos ?_, fun hst hd hw => ?_⟩
  · rcases h with h | h | h
    · exact .inl h
    · exact .inr (.inl h)
    · exact .inr (.inr (by rw [h]; rfl))
  · have hgo : ¬ (b.st ≠ .waiting ∧ b.st ≠ .saved ∨ b.die ≠ die ∨ (!s.waitedFor holder) = true) := by
      rw [hw]
      rcases hst with h | h <;> simp [h, hd]
    rw [if_neg hgo]
    refine ⟨fun hc => if_pos hc, fun hc => ?_⟩
    have hc' : ¬ (s.chooseCore (s.block holder).ctx (s.block holder).al die).isSome = true := by
      rw [show s.chooseCore (s.block holder).ctx (s.block holder).al die = none from hc]
      exact Bool.false_ne_true
    rw [if_neg hc']
    refine ⟨fun hn => ?_, fun h hf => ?_⟩
    · have hn' : (s.residentDown fun x => x.die == die && decide (x.prio < (s.block holder).prio)).find? s.maySave = none := hn
      rw [hn']
    · have hf' : (s.residentDown fun x => x.die == die && decide (x.prio < (s.block holder).prio)).find? s.maySave = some h := hf
      rw [hf']

theorem waitChecks_effect (s : State) : exec .priorityPropagate s = .next s.reprio ∧
    let look (k : Nat) := s.findCycle s.wft k (s.wft.length + 1) k [k]
    let ks := s.byId s.waveKeys
    ks.Perm s.waveKeys ∧ (ks.Pairwise fun x y => gidLt (s.waveKey y []) (s.waveKey x []) = false) ∧
    (ks.findSome? look = none → exec .packageCycleDetect s = .next s) ∧
    ∀ c, ks.findSome? look = some c → exec .packageCycleDetect s = .next ((s.raiseDeadlock c true).postOnce .packageCycleDetect) := by
  refine ⟨rfl, ?_⟩
  intro look ks
  obtain ⟨hperm, hsorted⟩ := s.byId_sorts s.waveKeys
  have hexec : exec .packageCycleDetect s = .next (match ks.findSome? look with
    | some c => (s.raiseDeadlock c true).postOnce .packageCycleDetect
    | none => s) := rfl
  exact ⟨hperm, hsorted, fun h => by rw [hexec, h], fun c h => by rw [hexec, h]⟩

theorem stallWatchdogExpiry_effect (s : State) (blk wv : Nat) :
    let k := 32 * blk + wv
    let w := s.wave k
    let open_ : Prop := w.st = .running ∧ w.halted = false ∧ ∀ t ∈ w.pend, t.cause ≠ 0x0B
    (¬ open_ ∨ s.stallOf k = none → exec (.stallWatchdogExpiry blk wv) s = .next s) ∧
    ∀ c va, open_ → s.stallOf k = some (c, va) → ∃ t, exec (.stallWatchdogExpiry blk wv) s = .next t ∧
      s.WaveBecomes t k { w with pend := w.pend ++ [.of 0x0B (BitVec.ofNat 64 c) va], stall := none } := by
  intro k w open_
  have hclosed : (w.st ≠ .running ∨ w.halted = true ∨ w.pend.any (fun t => t.cause == 0x0B) = true) ↔ ¬ open_ := by
    simp only [open_, not_and_or, List.any_eq_true, beq_iff_eq, not_forall, Bool.not_eq_false, not_not, exists_prop, ne_eq]
  have hexec : exec (.stallWatchdogExpiry blk wv) s = execStallWatchdogExpiry blk wv s := rfl
  rw [hexec]
  unfold execStallWatchdogExpiry
  dsimp only
  refine ⟨fun h => ?_, fun c va ho hs => ⟨s.setWave k { w with pend := w.pend ++ [.of 0x0B (BitVec.ofNat 64 c) va], stall := none }, ?_, ?_⟩⟩
  · by_cases ho : open_
    · have hs : s.stallOf k = none := h.resolve_left (not_not_intro ho)
      rw [if_neg fun hc => hclosed.1 hc ho, hs]
    · exact if_pos (hclosed.2 ho)
  · rw [if_neg fun hc => hclosed.1 hc ho, hs]
  · exact s.setWave_becomes k _ fun hst hk => by
      have hw : w = s.w := State.wave_here hst hk
      rw [hw]
      exact ⟨hst, hk⟩

end Machine
end Sys2Proof
end

section
/-! SUPPORT. Pressure, towing and token buckets (R360 to R363). -/

namespace Sys2Proof
open Machine
namespace Machine

/-! ### Maps rewritten entry by entry -/

/-- A map whose entries are rewritten or dropped, where the keys rise. -/
theorem SMap.find?_filterMap {α : Type} (m : SMap α) (lo : Option Nat) (hm : SMap.rising lo m = true) (f : Nat → α → Option α) (k : Nat) :
    SMap.find? (m.filterMap fun e => (f e.1 e.2).map fun y => (e.1, y)) k = (SMap.find? m k).bind (f k) := by
  induction m generalizing lo with
  | nil => rfl
  | cons e m ih =>
    obtain ⟨q, y⟩ := e
    have ih := ih (some q) (SMap.rising_tail hm)
    by_cases hk : k = q
    · subst hk
      have hrest : SMap.find? m k = none := SMap.find?_above m k k (SMap.rising_tail hm) (Nat.le_refl k)
      cases hf : f k y with
      | none => simp [hf, SMap.find?, ih, hrest]
      | some z => simp [hf, SMap.find?]
    · cases hf : f q y with
      | none => simp [hf, SMap.find?, ih, hk]
      | some z => simp [hf, SMap.find?, ih, hk]

theorem SMap.rising_keys {α : Type} (m : SMap α) (lo : Option Nat) (hm : SMap.rising lo m = true) : m.Pairwise fun a b => a.1 < b.1 := by
  induction m generalizing lo with
  | nil => exact .nil
  | cons e m ih =>
    obtain ⟨q, y⟩ := e
    have ht := SMap.rising_tail hm
    refine List.pairwise_cons.2 ⟨fun b hb => ?_, ih (some q) ht⟩
    by_contra hle
    have habove : SMap.find? m b.1 = none := SMap.find?_above m q b.1 ht (Nat.le_of_not_lt hle)
    have hlisted : ∀ n : SMap α, b ∈ n → SMap.find? n b.1 ≠ none := by
      intro n
      induction n with
      | nil => exact fun h => nomatch h
      | cons x n ih =>
        intro h
        rw [SMap.find?]
        split
        · exact Option.some_ne_none _
        · next hne =>
          rcases List.mem_cons.1 h with rfl | h
          · exact absurd rfl hne
          · exact ih h
    exact hlisted m hb habove

/-! ### Token buckets -/

/-- How far a bucket is below its depth after a refill. -/
def State.tokenLeft (s : State) (k : Nat) (x : Int) : Int :=
  let rate : Int := fld (s.pfNum (Pf.tbcfg (k / 8) (k % 8))) 0 32
  if rate = 0 then 0 else x - rate

theorem exec_tokenBucketRefill (s : State) : exec .tokenBucketRefill s = .next { s with
    tokens := s.tokens.filterMap fun e => (if s.tokenLeft e.1 e.2 ≤ 0 then none else some (s.tokenLeft e.1 e.2)).map fun y => (e.1, y) } := by
  show execTokenBucketRefill s = _
  unfold execTokenBucketRefill
  have hentry (e : Nat × Int) : (if s.tokenLeft e.1 e.2 ≤ 0 then none else some (e.1, s.tokenLeft e.1 e.2)) =
      (if s.tokenLeft e.1 e.2 ≤ 0 then none else some (s.tokenLeft e.1 e.2)).map fun y => (e.1, y) := by
    split <;> rfl
  simp only [← hentry]
  rfl

theorem tokenBucketRefill_effect (s : State) (hs : SMap.rising none s.tokens = true) :
    ∃ t, exec .tokenBucketRefill s = .next t ∧ t = { s with tokens := t.tokens } ∧
    ∀ c d, d < 8 →
      let rate : Nat := fld (s.pfNum (Pf.tbcfg c d)) 0 32
      SMap.get t.tokens 0 (8 * c + d) = if rate = 0 then 0 else max 0 (SMap.get s.tokens 0 (8 * c + d) - (rate : Int)) := by
  refine ⟨_, exec_tokenBucketRefill s, rfl, fun c d hd => ?_⟩
  intro rate
  have hleft (x : Int) : s.tokenLeft (8 * c + d) x = if (rate : Int) = 0 then 0 else x - rate := by
    have hc : (8 * c + d) / 8 = c := by omega
    have hd' : (8 * c + d) % 8 = d := by omega
    unfold State.tokenLeft
    rw [hc, hd']
  unfold SMap.get
  dsimp only
  rw [SMap.find?_filterMap s.tokens none hs (fun k x => if s.tokenLeft k x ≤ 0 then none else some (s.tokenLeft k x)) (8 * c + d)]
  cases SMap.find? s.tokens (8 * c + d) with
  | none =>
    show (0 : Int) = if rate = 0 then 0 else max 0 (0 - (rate : Int))
    split <;> omega
  | some x =>
    rw [Option.bind_some, hleft]
    by_cases hr : rate = 0
    · simp [hr]
    · have hr' : ¬ (rate : Int) = 0 := by omega
      rw [if_neg hr', if_neg hr]
      by_cases hx : x - (rate : Int) ≤ 0
      · rw [if_pos hx]
        exact (max_eq_left hx).symm
      · rw [if_neg hx]
        exact Eq.symm (max_eq_right (a := (0 : Int)) (b := x - (rate : Int)) (by omega))

/-! ### Towing -/

/-- A core without the forwarding entries of a block that may go. -/
def State.fwdLeft (s : State) (blk k : Nat) (c : Core) : Core := { c with fwd := c.fwd.filter fun e => e.1 != blk || !s.dieQuiet (k / 64) true e.2 }

theorem exec_towForwardRemove (s : State) (blk : Nat) :
    let t : State := { s with cores := s.cores.filterMap fun e =>
      (if s.fwdLeft blk e.1 e.2 = .zero then none else some (s.fwdLeft blk e.1 e.2)).map fun y => (e.1, y) }
    exec (.towForwardRemove blk) s =
      .next (if t.cores.any fun e => e.2.fwd.any fun f => f.1 == blk then t.postOnce (.towForwardRemove blk) else t) := by
  have hentry (e : Nat × Core) : (if s.fwdLeft blk e.1 e.2 = .zero then none else some (e.1, s.fwdLeft blk e.1 e.2)) =
      (if s.fwdLeft blk e.1 e.2 = .zero then none else some (s.fwdLeft blk e.1 e.2)).map fun y => (e.1, y) := by
    split <;> rfl
  simp only [← hentry]
  rfl

theorem towForwardRemove_effect (s : State) (blk : Nat) (hs : SMap.wf Core.zero s.cores = true) : ∃ t, exec (.towForwardRemove blk) s = .next t ∧
    t = { s with cores := t.cores, inbox := t.inbox } ∧
    (∀ k, SMap.get t.cores Core.zero k = { SMap.get s.cores Core.zero k with
      fwd := (SMap.get s.cores Core.zero k).fwd.filter fun e => e.1 != blk || !s.dieQuiet (k / 64) true e.2 }) ∧
    if t.cores.any fun e => e.2.fwd.any fun f => f.1 == blk then .towForwardRemove blk ∈ t.inbox else t.inbox = s.inbox := by
  have hrise : SMap.rising none s.cores = true := (Bool.and_eq_true _ _ ▸ hs).1
  refine ⟨_, exec_towForwardRemove s blk, ?_, fun k => ?_, ?_⟩
  · split <;> rfl
  · have hcores (p : Prop) [Decidable p] (t : State) (e : Instr) : (if p then t.postOnce e else t).cores = t.cores := by split <;> rfl
    rw [hcores]
    unfold SMap.get
    dsimp only
    rw [SMap.find?_filterMap s.cores none hrise (fun k c => if s.fwdLeft blk k c = .zero then none else some (s.fwdLeft blk k c)) k]
    cases SMap.find? s.cores k with
    | none => rfl
    | some c =>
      rw [Option.bind_some]
      by_cases hz : s.fwdLeft blk k c = .zero
      · rw [if_pos hz]
        exact hz.symm
      · rw [if_neg hz]
        rfl
  · set t : State := { s with cores := _ } with ht
    by_cases hany : (t.cores.any fun e => e.2.fwd.any fun f => f.1 == blk) = true
    · rw [if_pos hany]
      exact (if_pos hany).symm ▸ (mem_addOnce _ _ _).2 (.inr rfl)
    · rw [if_neg hany]
      exact (if_neg hany).symm ▸ rfl

end Machine
end Sys2Proof
end

section
/-! SUPPORT. A block is towed to another core (R361, R362). -/

namespace Sys2Proof
open Machine
namespace Machine

theorem State.coreOf_setCore (s : State) (d k : Nat) (x : Core) (e j : Nat) :
    (s.setCore d k x).coreOf e j = if State.coreKey e j = State.coreKey d k then x else s.coreOf e j := SMap.get_set ..

/-- The split of a core changes; what it forwards does not. -/
theorem State.fwd_setSplit (s : State) (d k n e j : Nat) : ((s.setSplit d k n).coreOf e j).fwd = (s.coreOf e j).fwd := by
  unfold State.setSplit
  split
  · rw [State.coreOf_setCore]
    split
    · next h =>
      have hsame : s.coreOf d k = s.coreOf e j := congrArg (SMap.get s.cores Core.zero) h.symm
      rw [hsame]
    · rfl
  · rfl

theorem State.setSplit_frame (s : State) (d k n : Nat) : s.setSplit d k n = { s with cores := (s.setSplit d k n).cores } := by
  unfold State.setSplit
  split <;> rfl

theorem State.updWaves_frame (f : Wave → Wave) (ks : List Nat) (s : State) :
    ∃ w ws, ks.foldl (fun (s : State) k => s.updWave k f) s = { s with w := w, waves := ws } := by
  induction ks generalizing s with
  | nil => exact ⟨s.w, s.waves, rfl⟩
  | cons k ks ih =>
    obtain ⟨w, ws, h⟩ := ih (s.updWave k f)
    refine ⟨w, ws, h.trans ?_⟩
    rw [s.updWave_frame k f]

theorem State.updBlock_cores (s : State) (h : Nat) (f : Block → Block) : (s.updBlock h f).cores = s.cores := by rw [s.updBlock_frame h f]

theorem State.coreOf_congr {s t : State} (h : t.cores = s.cores) (d k : Nat) : t.coreOf d k = s.coreOf d k := by
  unfold State.coreOf
  rw [h]

/-- A block at another place. -/
def Block.towed (die core : Nat) (slots : List Nat) (b : Block) : Block := { b with die := die, core := core, slots := slots }

theorem State.block_towed (s : State) (blk die core : Nat) (slots : List Nat) :
    (s.updBlock blk (Block.towed die core slots)).block blk = (s.block blk).towed die core slots :=
  (s.block_updBlock blk blk (Block.towed die core slots) (fun _ => rfl) fun _ => rfl).trans (if_pos rfl)

theorem moveBlock_effect (s : State) (blk die core : Nat) :
    let b := s.block blk
    let t := s.moveBlock blk die core
    t.block blk = { b with die := die, core := core, slots := (t.block blk).slots } ∧
    (blk, s.ids) ∈ (t.coreOf b.die b.core).fwd ∧ .towForwardRemove blk ∈ t.inbox := by
  intro b t
  have ht : t = s.moveBlock blk die core := rfl
  unfold State.moveBlock at ht
  extract_lets old s₁ s₂ slots s₃ s₄ s₅ at ht
  obtain ⟨w, ws, hs₂⟩ := State.updWaves_frame Wave.closeWindow (s₁.wavesOf blk) s₁
  have hs₂' : s₂ = { s₁ with w := w, waves := ws } := hs₂
  have hs₃ := s₂.setSplit_frame die core (splitOf b.al.scratch)
  have hb₃ : s₃.block blk = b := by
    have h : s₃ = { s₂ with cores := s₃.cores } := hs₃
    rw [h, hs₂']
    rfl
  have hb₄ : s₄.block blk = b.towed die core slots := (s₃.block_towed blk die core slots).trans (congrArg _ hb₃)
  have hfwd : (blk, s.ids) ∈ (s₄.coreOf b.die b.core).fwd := by
    have hcores₂ : s₂.cores = s₁.cores := by rw [hs₂']
    have hcores₄ : s₄.cores = s₃.cores := s₃.updBlock_cores blk _
    rw [State.coreOf_congr hcores₄, s₂.fwd_setSplit, State.coreOf_congr hcores₂, s.coreOf_setCore, if_pos rfl]
    exact List.mem_append_right _ List.mem_cons_self
  clear_value t s₄
  rw [ht]
  refine ⟨?_, hfwd, (mem_addOnce _ _ _).2 (.inl (List.mem_append_right _ List.mem_cons_self))⟩
  show s₄.block blk = b.towed die core (s₄.block blk).slots
  rw [hb₄]
  rfl

/-- What a tow asks for (R361). -/
def State.mayTow (s : State) (blk die c : Nat) : Bool :=
  let b := s.block blk
  let here := s.resident b.die b.core
  b.st == .resident && decide (die < 8) && decide (2 ≤ (here.filter fun h => (s.wavesOf h).any s.canIssue).length) &&
    (s.resident die c == []) && (here.all fun h => !gidLt b.gid (s.block h).gid) && s.noFrames blk && s.atBoundary blk && s.blockQuiet blk &&
    s.fitsCore b.ctx b.al die c

theorem tow_effect (s : State) (blk core : Nat) :
    let b := s.block blk
    let die := core / 36
    let c := core % 36
    let here := s.resident b.die b.core
    b.st = .resident → die < 8 → 2 ≤ (here.filter fun h => (s.wavesOf h).any s.canIssue).length →
    s.resident die c = [] → (∀ h ∈ here, gidLt b.gid (s.block h).gid = false) → s.noFrames blk = true → s.atBoundary blk = true →
    (∀ x ∈ s.cmds, x.blk ≠ blk) → s.fitsCore b.ctx b.al die c = true →
    let t := s.moveBlock blk die c
    exec (.tow blk core) s = .next t ∧ t.block blk = { b with die := die, core := c, slots := (t.block blk).slots } ∧
    (blk, s.ids) ∈ (t.coreOf b.die b.core).fwd ∧ .towForwardRemove blk ∈ t.inbox := by
  intro b die c here hst hd hbusy hfree htop hframes hword hcmds hfits t
  have htop' : (here.all fun h => !gidLt b.gid (s.block h).gid) = true := List.all_eq_true.2 fun h hh => by rw [htop h hh]; rfl
  have hquiet : s.blockQuiet blk = true := by
    unfold State.blockQuiet
    rw [Bool.not_eq_true', List.any_eq_false]
    exact fun x hx => by simpa using hcmds x hx
  have hok : s.mayTow blk die c = true := by
    unfold State.mayTow
    simp only [Bool.and_eq_true, beq_iff_eq, decide_eq_true_eq]
    exact ⟨⟨⟨⟨⟨⟨⟨⟨hst, hd⟩, hbusy⟩, hfree⟩, htop'⟩, hframes⟩, hword⟩, hquiet⟩, hfits⟩
  have hexec : exec (.tow blk core) s = .next (if s.mayTow blk die c then t else s) := rfl
  rw [hexec, if_pos hok]
  exact ⟨rfl, moveBlock_effect s blk die c⟩

end Machine
end Sys2Proof
end

section
/-! SUPPORT. A starved stage of a pipeline gives up a block (R360). -/

namespace Sys2Proof
open Machine
namespace Machine

/-! ### The stage that a starved one gives way to -/

/-- The lower of a stage and the lowest before it. -/
def lowerStage (m : Option (Nat × Grp)) (f : Nat × Grp) : Option (Nat × Grp) := if m.any fun x => x.2.stage ≤ f.2.stage then m else some f

theorem lowerStage_some (x f : Nat × Grp) : lowerStage (some x) f = some (if x.2.stage ≤ f.2.stage then x else f) := by
  unfold lowerStage
  by_cases h : x.2.stage ≤ f.2.stage <;> simp [h]

theorem lowestStage_from (fs : List (Nat × Grp)) (x : Nat × Grp) :
    ∃ y, fs.foldl lowerStage (some x) = some y ∧ (y = x ∨ y ∈ fs) ∧ y.2.stage ≤ x.2.stage ∧ ∀ f ∈ fs, y.2.stage ≤ f.2.stage := by
  induction fs generalizing x with
  | nil => exact ⟨x, rfl, .inl rfl, Nat.le_refl _, fun _ h => nomatch h⟩
  | cons f fs ih =>
    obtain ⟨y, hy, hin, hle, hall⟩ := ih (if x.2.stage ≤ f.2.stage then x else f)
    rw [List.foldl_cons, lowerStage_some]
    refine ⟨y, hy, ?_, ?_, fun g hg => ?_⟩
    · rcases hin with rfl | hin
      · split
        · exact .inl rfl
        · exact .inr List.mem_cons_self
      · exact .inr (List.mem_cons_of_mem _ hin)
    · split at hle <;> omega
    · rcases List.mem_cons.1 hg with rfl | hg
      · split at hle <;> omega
      · exact hall g hg

/-- The lowest stage of a list. -/
theorem lowestStage (fs : List (Nat × Grp)) : (fs.foldl lowerStage none = none ↔ fs = []) ∧
    ∀ y, fs.foldl lowerStage none = some y → y ∈ fs ∧ ∀ f ∈ fs, y.2.stage ≤ f.2.stage := by
  cases fs with
  | nil => exact ⟨⟨fun _ => rfl, fun _ => rfl⟩, fun y h => (nomatch h)⟩
  | cons f fs =>
    obtain ⟨y, hy, hin, hle, hall⟩ := lowestStage_from fs f
    have hfold : (f :: fs).foldl lowerStage none = some y := hy
    rw [hfold]
    refine ⟨⟨fun h => (nomatch h), fun h => (nomatch h)⟩, fun z hz => ?_⟩
    cases hz
    refine ⟨?_, fun g hg => ?_⟩
    · rcases hin with rfl | hin
      · exact List.mem_cons_self
      · exact List.mem_cons_of_mem _ hin
    · rcases List.mem_cons.1 hg with rfl | hg
      · exact hle
      · exact hall g hg

/-- The stages that a starved stage may give way to. -/
def State.fitStages (s : State) (die : Nat) (stages : SMap Grp) (e : Nat × Grp) : List (Nat × Grp) :=
  stages.filter fun f => f.1 != e.1 && e.2.sameGraph f.2 && (SMap.get s.press Press.zero (8 * f.1 + die)).p == 0 &&
    (s.waitingOn die).any fun c => c.grp == f.1

theorem State.stageFor_eq (s : State) (die : Nat) (stages : SMap Grp) (e : Nat × Grp) : s.stageFor die stages e =
    if (SMap.get s.press Press.zero (8 * e.1 + die)).starved < 2 then none else ((s.fitStages die stages e).foldl lowerStage none).map Prod.fst := rfl

theorem stageFor_effect (s : State) (die id : Nat) (g : Grp) (stages : SMap Grp) :
    let now (x : Nat) : Press := SMap.get s.press Press.zero (8 * x + die)
    let fits (x : Nat × Grp) : Prop := 2 ≤ (now id).starved ∧ x.1 ≠ id ∧ g.sameGraph x.2 = true ∧ (now x.1).p = 0 ∧
      ∃ c ∈ s.waitingOn die, c.grp = x.1
    (s.stageFor die stages (id, g) = none ↔ ∀ x ∈ stages, ¬ fits x) ∧
    ∀ f, s.stageFor die stages (id, g) = some f → ∃ h, (f, h) ∈ stages ∧ fits (f, h) ∧ ∀ x ∈ stages, fits x → h.stage ≤ x.2.stage := by
  intro now fits
  rw [State.stageFor_eq]
  by_cases hs : (now id).starved < 2
  · rw [if_pos hs]
    refine ⟨⟨fun _ x _ hx => absurd hx.1 (by omega), fun _ => rfl⟩, fun f h => (nomatch h)⟩
  · rw [if_neg hs]
    have hfit (x : Nat × Grp) : x ∈ s.fitStages die stages (id, g) ↔ x ∈ stages ∧ fits x := by
      unfold State.fitStages
      rw [List.mem_filter]
      simp only [Bool.and_eq_true, bne_iff_ne, beq_iff_eq, List.any_eq_true, and_assoc]
      exact and_congr_right fun _ => ⟨fun h => ⟨by omega, h⟩, fun h => h.2⟩
    obtain ⟨hnone, hsome⟩ := lowestStage (s.fitStages die stages (id, g))
    refine ⟨?_, fun f hf => ?_⟩
    · rw [Option.map_eq_none_iff, hnone, List.eq_nil_iff_forall_not_mem]
      exact forall_congr' fun x => by rw [hfit, not_and]
    · obtain ⟨y, hy, rfl⟩ := Option.map_eq_some_iff.1 hf
      obtain ⟨hin, hlow⟩ := hsome y hy
      obtain ⟨hst, hfits⟩ := (hfit y).1 hin
      exact ⟨y.2, hst, hfits, fun x hx hxf => hlow x ((hfit x).2 ⟨hx, hxf⟩)⟩

/-! ### The blocks given up -/

/-- The block that a stage gives up on a die, and the stage it gives way to. -/
def State.givesUp (u : State) (die : Nat) (stages : SMap Grp) (e : Nat × Grp) : Option (Nat × Nat) :=
  match u.stageFor die stages e with
  | none => none
  | some f => ((u.residentDown fun b => b.die == die && b.grp == e.1).find? u.maySave).map fun h => (h, f)

/-- A block is to be saved, for a stage. -/
def State.giveUp (t : State) (x : Option (Nat × Nat)) : State :=
  match x with
  | some (h, f) => (t.updBlock h fun b => { b with heir := some f }).postOnce (.blockSave h)
  | none => t

/-- The stages that run on the machine. -/
def State.stages (s : State) : SMap Grp := s.grps.filter fun e => e.2.kind == .host && e.2.stage != 0xFF && e.2.st == .running

/-- The pressure of every stage on a die. -/
def State.pressures (s : State) (die : Nat) : SMap Press :=
  s.stages.foldl (fun m e => SMap.set m Press.zero (8 * e.1 + die) (s.pressNow e.1 e.2 die)) s.press

theorem exec_pipelinePressureInterval (s : State) (die : Nat) :
    let u : State := { s with press := s.pressures die }
    exec (.pipelinePressureInterval die) s = .next (s.stages.foldl (fun t e => t.giveUp (u.givesUp die s.stages e)) u) := by
  intro u
  have hstep (t : State) (e : Nat × Grp) : t.giveUp (u.givesUp die s.stages e) = (match u.stageFor die s.stages e with
      | none => t
      | some f => match (u.residentDown fun b => b.die == die && b.grp == e.1).find? u.maySave with
        | some h => (t.updBlock h fun b => { b with heir := some f }).postOnce (.blockSave h)
        | none => t) := by
    unfold State.givesUp
    cases u.stageFor die s.stages e with
    | none => rfl
    | some f =>
      dsimp only
      cases (u.residentDown fun b => b.die == die && b.grp == e.1).find? u.maySave with
      | none => rfl
      | some h => rfl
  simp only [hstep]
  rfl

/-- The blocks resident on a die that satisfy a condition do. -/
theorem State.mem_residentDown (s : State) (p : Block → Bool) (h : Nat) (hh : h ∈ s.residentDown p) : p (s.block h) = true := by
  have hsort := (placedBy_sorts (lt := fun x y => gidLt (s.block y).gid (s.block x).gid) (low := fun x y => gidLt (s.block x).gid (s.block y).gid)
    (IsOrder.splits_below ⟨fun _ _ _ h g => gidLt_trans _ _ _ g h, fun _ _ => gidLt_asymm _ _⟩)
    (s.handles_.filter fun h => (s.block h).st == .resident && p (s.block h)) [] .nil).1
  have hmem := (List.mem_filter.1 (hsort.mem_iff.1 hh)).2
  exact (Bool.and_eq_true _ _ ▸ hmem).2

/-- A stage gives up a block of its own. -/
theorem State.givesUp_own (u : State) (die : Nat) (stages : SMap Grp) (e : Nat × Grp) (h f : Nat) (he : u.givesUp die stages e = some (h, f)) :
    (u.block h).grp = e.1 := by
  unfold State.givesUp at he
  cases hs : u.stageFor die stages e with
  | none => rw [hs] at he; cases he
  | some x =>
    rw [hs] at he
    obtain ⟨y, hy, heq⟩ := Option.map_eq_some_iff.1 he
    cases heq
    have hp := u.mem_residentDown _ h (List.mem_of_find?_eq_some hy)
    exact beq_iff_eq.1 (Bool.and_eq_true _ _ ▸ hp).2

/-- `t` differs from `u` in blocks and events alone. -/
def State.BlocksOnly (u t : State) : Prop := t = { u with inbox := t.inbox, b := t.b, blocks := t.blocks }

theorem State.BlocksOnly.trans {s t u : State} (h : s.BlocksOnly t) (g : t.BlocksOnly u) : s.BlocksOnly u := by
  unfold State.BlocksOnly at *
  rw [g, h]

theorem State.BlocksOnly.giveUp (t : State) (x : Option (Nat × Nat)) : t.BlocksOnly (t.giveUp x) := by
  match x with
  | none => rfl
  | some (k, f) =>
    show State.BlocksOnly t ((t.updBlock k fun b => { b with heir := some f }).postOnce (.blockSave k))
    rw [t.updBlock_frame k fun b => { b with heir := some f }]
    rfl

/-- What giving up blocks changes: their heirs and the events posted. -/
structure State.GaveUp (u t : State) : Prop where
  rest : u.BlocksOnly t
  block : ∀ h, t.block h = { u.block h with heir := (t.block h).heir }

theorem State.block_giveUp (t : State) (k f j : Nat) :
    (t.giveUp (some (k, f))).block j = if j = k then { t.block j with heir := some f } else t.block j := by
  refine (t.block_updBlock k j (fun b => { b with heir := some f }) (fun _ => rfl) fun _ => rfl).trans ?_
  split
  · next hj => rw [hj]
  · rfl

theorem State.GaveUp.giveUp {u t : State} (h : u.GaveUp t) (x : Option (Nat × Nat)) : u.GaveUp (t.giveUp x) := by
  match x with
  | none => exact h
  | some (k, f) =>
    refine ⟨h.rest.trans (.giveUp t _), fun j => ?_⟩
    rw [t.block_giveUp k f j, h.block j]
    split <;> rfl

theorem State.mem_inbox_giveUp (t : State) (x : Option (Nat × Nat)) (e : Instr) (he : e ∈ t.inbox) : e ∈ (t.giveUp x).inbox := by
  match x with
  | none => exact he
  | some (k, f) =>
    have hkeep : (t.updBlock k fun b => { b with heir := some f }).inbox = t.inbox := by rw [t.updBlock_frame k fun b => { b with heir := some f }]
    exact (mem_addOnce _ _ _).2 (.inl (hkeep ▸ he))

/-- The block given up by one of the stages has its heir in the end, and its save is posted. -/
theorem giveUp_all (u : State) (choice : Nat × Grp → Option (Nat × Nat)) (hown : ∀ e h f, choice e = some (h, f) → (u.block h).grp = e.1)
    (es : List (Nat × Grp)) (hd : es.Pairwise fun a b => a.1 < b.1) (t : State) (ht : u.GaveUp t) :
    let v := es.foldl (fun t e => t.giveUp (choice e)) t
    u.GaveUp v ∧ (∀ e ∈ t.inbox, e ∈ v.inbox) ∧ (∀ h, (∀ e ∈ es, ∀ f, choice e ≠ some (h, f)) → v.block h = t.block h) ∧
      ∀ e ∈ es, ∀ h f, choice e = some (h, f) → (v.block h).heir = some f ∧ .blockSave h ∈ v.inbox := by
  induction es generalizing t with
  | nil => exact ⟨ht, fun _ h => h, fun _ _ => rfl, fun _ h => nomatch h⟩
  | cons e es ih =>
    intro v
    obtain ⟨hfirst, hrest⟩ := List.pairwise_cons.1 hd
    obtain ⟨hv, hinbox, hothers, hchosen⟩ := ih hrest (t.giveUp (choice e)) (ht.giveUp _)
    refine ⟨hv, fun x hx => hinbox x (t.mem_inbox_giveUp _ x hx), fun h hno => ?_, fun x hx h f hxf => ?_⟩
    · refine (hothers h fun x hx => hno x (List.mem_cons_of_mem _ hx)).trans ?_
      match hc : choice e with
      | none => rfl
      | some (k, f) =>
        rw [t.block_giveUp k f h, if_neg]
        rintro rfl
        exact hno e List.mem_cons_self f hc
    · rcases List.mem_cons.1 hx with rfl | hx
      · have hlater : v.block h = (t.giveUp (choice x)).block h := hothers h fun y hy f' hyf => by
          have hlt := hfirst y hy
          rw [← hown x h f hxf, ← hown y h f' hyf] at hlt
          exact absurd hlt (Nat.lt_irrefl _)
        rw [hlater, hxf, t.block_giveUp h f h, if_pos rfl]
        exact ⟨rfl, hinbox _ (hxf ▸ (mem_addOnce _ _ _).2 (.inr rfl))⟩
      · exact hchosen x hx h f hxf

/-! ### The pressures of an interval -/

/-- Values written under different keys are read there. -/
theorem SMap.get_foldSet_mem {α β : Type} [DecidableEq β] (d : β) (key : α → Nat) (val : α → β) (es : List α)
    (hd : es.Pairwise fun a b => key a ≠ key b) (m : SMap β) (e : α) (he : e ∈ es) :
    SMap.get (es.foldl (fun m e => SMap.set m d (key e) (val e)) m) d (key e) = val e := by
  have hlater (es : List α) (k : Nat) (hk : ∀ x ∈ es, key x ≠ k) (m : SMap β) :
      SMap.get (es.foldl (fun m e => SMap.set m d (key e) (val e)) m) d k = SMap.get m d k := by
    induction es generalizing m with
    | nil => rfl
    | cons x es ih =>
      rw [List.foldl_cons, ih (fun y hy => hk y (List.mem_cons_of_mem _ hy)), SMap.get_set, if_neg fun h => hk x List.mem_cons_self h.symm]
  induction es generalizing m with
  | nil => cases he
  | cons x es ih =>
    obtain ⟨hfirst, hrest⟩ := List.pairwise_cons.1 hd
    rw [List.foldl_cons]
    rcases List.mem_cons.1 he with rfl | he
    · rw [hlater es (key e) (fun y hy => (hfirst y hy).symm), SMap.get_set, if_pos rfl]
    · exact ih hrest _ he

theorem pipelinePressureInterval_effect (s : State) (die : Nat) (hs : SMap.rising none s.grps = true) :
    ∃ t, exec (.pipelinePressureInterval die) s = .next t ∧
    t = { s with press := t.press, inbox := t.inbox, b := t.b, blocks := t.blocks } ∧
    (∀ h, t.block h = { s.block h with heir := (t.block h).heir }) ∧
    let u := { s with press := t.press }
    let stages := s.grps.filter fun e => e.2.kind == .host && e.2.stage != 0xFF && e.2.st == .running
    ∀ id g, (id, g) ∈ stages → SMap.get t.press Press.zero (8 * id + die) = s.pressNow id g die ∧
      ∀ f h, u.stageFor die stages (id, g) = some f → (u.residentDown fun b => b.die == die && b.grp == id).find? u.maySave = some h →
        (t.block h).heir = some f ∧ .blockSave h ∈ t.inbox := by
  have hkeys : s.stages.Pairwise fun a b => a.1 < b.1 := SMap.rising_keys s.stages none (SMap.rising_filter s.grps _ none hs)
  set u : State := { s with press := s.pressures die } with hu
  obtain ⟨hgave, -, -, hchosen⟩ := giveUp_all u (u.givesUp die s.stages) (fun e h f => u.givesUp_own die s.stages e h f) s.stages hkeys u
    ⟨rfl, fun _ => rfl⟩
  set t := s.stages.foldl (fun t e => t.giveUp (u.givesUp die s.stages e)) u with ht
  have hpress : t.press = s.pressures die := congrArg State.press hgave.rest
  refine ⟨t, exec_pipelinePressureInterval s die, ?_, hgave.block, ?_⟩
  · have hrest := hgave.rest
    unfold State.BlocksOnly at hrest
    rw [hpress]
    exact hrest
  · intro u' stages id g hin
    have hu' : u' = u := congrArg (fun p => ({ s with press := p } : State)) hpress
    have hne : s.stages.Pairwise fun a b => 8 * a.1 + die ≠ 8 * b.1 + die := hkeys.imp fun {a b} h => by omega
    refine ⟨?_, fun f h hf hh => ?_⟩
    · rw [hpress]
      exact SMap.get_foldSet_mem Press.zero (fun e : Nat × Grp => 8 * e.1 + die) (fun e => s.pressNow e.1 e.2 die) s.stages hne s.press (id, g) hin
    · rw [hu'] at hf hh
      refine hchosen (id, g) hin h f ?_
      have hf' : u.stageFor die s.stages (id, g) = some f := hf
      unfold State.givesUp
      rw [hf']
      dsimp only
      rw [hh]
      rfl

end Machine
end Sys2Proof
end

section
/-! SUPPORT. The events of work, put together. -/

namespace Sys2Proof
open Machine
namespace Machine

theorem waveEndAfterLaunches_effect (s : State) (blk wv : Nat) :
    let k := 32 * blk + wv
    exec (.waveEndAfterLaunches blk wv) s = .next (if (s.wave k).st = .ending ∧ s.launchesDone k = true then s.finishWave k else s) := by
  intro k
  show execWaveEndAfterLaunches blk wv s = _
  unfold execWaveEndAfterLaunches
  simp only [Bool.and_eq_true, decide_eq_true_eq, k]

/-- Settles O55: event by event, each by the law of its part. -/
theorem workEvents : Obligations.WorkEvents := by
  unfold Obligations.WorkEvents
  refine ⟨blockEnded_effect, fun s id g hg hk hst ha => launchEnded_effect s id g hg hk hst ha,
    fun ms hs hv => ⟨fun s c => foldMembers_foldsTo ms hv s c, graphFold_foldsTo ms hs hv⟩,
    fun s id g hg _ hst ha => forkEnded_effect s id g hg hst ha, fun s id v hv hf => ⟨fun hl he hd => graphEnded_effect s id v hv hf he hd hl,
      fun hl he hd e hev => ?_, fun hl he hd => jobEnded_effect s id v hv hf he hd hl⟩,
    waveEndAfterLaunches_effect, fun s id off g hg hst hk hc hkill => launchStart_effect s id off g hg hst hk hc hkill,
    startWave_effect, blockPlace_effect, fun s die core c cs hw => splitChange_effect s die core c cs hw, inheritanceSave_effect,
    waitChecks_effect, stallWatchdogExpiry_effect, fun s die _ hs => pipelinePressureInterval_effect s die hs, stageFor_effect, tow_effect,
    fun s blk hs => towForwardRemove_effect s blk hs, fun s hs => tokenBucketRefill_effect s hs⟩
  obtain ⟨v', h⟩ := phaseEnded_effect s id v hv hf he hd hl
  have hexec : exec e s = .next (s.phaseEnded id) := by
    rcases hev with rfl | rfl <;> rfl
  exact ⟨_, v', hexec, h⟩

end Machine
end Sys2Proof
end

section
/-! SUPPORT. Reading a block of memory once (R43, R217), and `fork` (R42 to R44, R55, R58 to R60, R238, R364). -/

namespace Sys2Proof
open Machine
namespace Machine

/-! ### Words by what their effect answers -/

/-- A word whose effect waits and leaves the state it found is issued again. -/
theorem word_stall (i : Instr) (s : State) (body : Mask → State → Res) (hI : s.Issues i) (ha : s.active i ≠ 0)
    (hb : body (s.active i) s = .stall s) : word i s body = .next s := by
  rw [word_effect i s body hI (.inl ha), hb]
  exact congrArg _ (settleCharge_view s s _ rfl)

/-- A word that takes a trap after it has changed the state. -/
theorem word_trapAfter (i : Instr) (s : State) (body : Mask → State → Res) {t : State} {x : Trap} (hI : s.Issues i) (ha : s.active i ≠ 0)
    (hr : s.w.region = none) (hb : body (s.active i) s = .trap t x) :
    word i s body = .next (t.settleCharge s (t.trapWord (s.active i) x)) := by
  rw [word_effect i s body hI (.inl ha), hb, hr]
  rfl

/-! ### Reading a block of memory once -/

theorem okPlaces_units (lane : Nat) (addr : Nat → W64) (p : Nat → Place) (ls : List Nat) :
    okPlaces (ls.map fun i => (lane, addr i, .ok (p i))) = ls.map fun i => (lane, addr i, p i) := by
  unfold okPlaces
  rw [List.filterMap_map]
  exact congrFun List.filterMap_eq_map ls

/-- Units that a load would read are read, and handed on. -/
theorem State.UnitsRead.readUnits {s t : State} {va : W64} {n u lane : Nat} {bs : List Byte} (h : s.UnitsRead va n u lane t bs)
    (whole : Bool) (k : State → List Byte → Res) : s.readUnits va n u lane whole k = k t bs := by
  obtain ⟨p, hchk, hfree, hpay, hbs, ht⟩ := h.place
  have hcs : (List.range n).map (fun i => (lane, va + BitVec.ofNat 64 (i * u), s.check .load .g (va + BitVec.ofNat 64 (i * u)) u false)) =
      (List.range n).map fun i => (lane, va + BitVec.ofNat 64 (i * u), Chk.ok (p i)) :=
    List.map_congr_left fun i hi => by rw [hchk i (List.mem_range.1 hi)]
  have hpass : ∀ c ∈ (List.range n).map fun i => (lane, va + BitVec.ofNat 64 (i * u), Chk.ok (p i)), ∃ q, c.2.2 = .ok q := by
    intro c hc
    obtain ⟨i, -, rfl⟩ := List.mem_map.1 hc
    exact ⟨p i, rfl⟩
  set ps := (List.range n).map fun i => (lane, va + BitVec.ofNat 64 (i * u), p i) with hps
  have hat : ∀ q ∈ ps, s.placeWaits q.1 q.2.2 u false = false ∧ s.readsPoison q.2.2 u = false := by
    intro q hq
    obtain ⟨i, hi, rfl⟩ := List.mem_map.1 hq
    exact hfree i (List.mem_range.1 hi)
  have hwait : (ps.any fun q => s.placeWaits q.1 q.2.2 u false) = false := List.any_eq_false.2 fun q hq => by rw [(hat q hq).1]; decide
  have hclean : s.poisonPa ps u = none := by
    unfold State.poisonPa
    rw [List.find?_eq_none.2 fun q hq => by rw [(hat q hq).2]; decide]
    rfl
  have hfee : s.canPay s.b.ctx s.homeOf.1 (s.accFee u false ps) = true := by
    have hplaces : ps.map (fun q => q.2.2) = (List.range n).map p := List.map_map
    unfold State.accFee
    rw [hplaces]
    exact hpay
  unfold State.readUnits
  dsimp only
  rw [hcs, firstFail_none _ hpass, okPlaces_units, ← hps]
  dsimp only
  rw [hwait, hfee, hclean]
  simp only [Bool.false_eq_true, if_false, Bool.not_true]
  rw [hbs, ht, hps, List.flatMap_map]

/-! ### `fork` -/

/-- What a `fork` does with the descriptor it has read, when nothing holds it back. -/
def State.forkAct (s t : State) (d : Desc) (va : W64) (lane : Nat) : Res :=
  if d.bad (s.b.gid.length - 5) then .done (t.hangDead va 2 false)
  else match (s.rangePages d).1 with
    | some x => .fault s (BitVec.ofNat 64 x) 1 (.of 0x12 (accInfo 0 true .g lane) (BitVec.ofNat 64 x))
    | none =>
      if (s.rangePages d).2 then .done (t.hangDead va 2 false)
      else if s.unrouted d.nchild then .trap s (.of 0x12 (accInfo 0 false .g lane) s.pc)
      else t.startFork s d va

/-- The word after a `fork` that is its `join` can be fetched (R238). -/
theorem State.fetch_join {s : State} (h : s.joinFollows = true) : ∃ x, s.fetch (s.pc + 8) = .word x := by
  unfold State.joinFollows State.instrAt at h
  cases hf : s.fetch (s.pc + 8) with
  | word x => exact ⟨x, rfl⟩
  | _ => rw [hf] at h; cases h

/-- A `fork` whose descriptor is read acts on it. -/
theorem exec_fork (s : State) (f : F) (t : State) (bs : List Byte) (hj : s.joinFollows = true)
    (hva : (s.opnd64 f.a (lowLane (s.active (.fork f)))).toNat % 64 = 0)
    (hread : s.UnitsRead (s.opnd64 f.a (lowLane (s.active (.fork f)))) 2 64 (lowLane (s.active (.fork f))) t bs) (hw : s.forkWaits = false) :
    ∃ body, exec (.fork f) s = word (.fork f) s body ∧ body (s.active (.fork f)) s =
      s.forkAct t (Desc.of bs) (s.opnd64 f.a (lowLane (s.active (.fork f)))) (lowLane (s.active (.fork f))) := by
  show ∃ body, execFork f s = word (.fork f) s body ∧ _
  unfold execFork
  refine ⟨_, rfl, ?_⟩
  obtain ⟨x, hx⟩ := s.fetch_join hj
  dsimp only
  rw [hx]
  dsimp only
  rw [hj, if_neg (by decide), if_neg (not_not_intro hva), hread.readUnits, hw]
  rfl

section
variable {s t : State} {d : Desc} {va : W64} {lane : Nat}

theorem State.forkAct_bad (hb : d.bad (s.b.gid.length - 5) = true) : s.forkAct t d va lane = .done (t.hangDead va 2 false) := if_pos hb

/-- Scoped ranges with a page that is no sluice page (R44). -/
theorem State.forkAct_pages (hb : d.bad (s.b.gid.length - 5) = false) (hp : s.rangePages d = (none, true)) :
    s.forkAct t d va lane = .done (t.hangDead va 2 false) := by
  simp only [State.forkAct, hb, hp, Bool.false_eq_true, if_false, if_true]

theorem State.forkAct_unrouted (hb : d.bad (s.b.gid.length - 5) = false) (hp : s.rangePages d = (none, false)) (hu : s.unrouted d.nchild = true) :
    s.forkAct t d va lane = .trap s (.of 0x12 (accInfo 0 false .g lane) s.pc) := by
  simp only [State.forkAct, hb, hp, hu, Bool.false_eq_true, if_false, if_true]

theorem State.forkAct_starts (hb : d.bad (s.b.gid.length - 5) = false) (hp : s.rangePages d = (none, false)) (hu : s.unrouted d.nchild = false) :
    s.forkAct t d va lane = t.startFork s d va := by
  simp only [State.forkAct, hb, hp, hu, Bool.false_eq_true, if_false]

/-- A quota that the pool does not hold (R60). -/
theorem State.startFork_pool (hq : d.quota ≠ 0) (hl : t.poolLeft < d.quota) : t.startFork s d va = .done (t.hangDead va 1 true) :=
  (if_pos hq).trans (if_pos hl)

/-- A quota below the charge of the ranges (R44). -/
theorem State.startFork_quota (hq : d.quota ≠ 0) (hl : d.quota ≤ t.poolLeft) (hr : d.quota < d.scoped) :
    t.startFork s d va = .done (t.hangDead va 1 false) :=
  (if_pos hq).trans ((if_neg (Nat.not_lt.2 hl)).trans (if_pos hr))

/-- A quota is reserved (R60). -/
theorem State.startFork_reserved (hq : d.quota ≠ 0) (hl : d.quota ≤ t.poolLeft) (hr : d.scoped ≤ d.quota) :
    t.startFork s d va = .done ({ t with pool := t.pool + d.quota }.hangFork (t.forkGrp d va)).placeAll :=
  (if_pos hq).trans ((if_neg (Nat.not_lt.2 hl)).trans (if_neg (Nat.not_lt.2 hr)))

/-- Without a quota the ranges are charged to the pool (R58). -/
theorem State.startFork_charged (hq : d.quota = 0) (hl : d.scoped ≤ t.poolLeft) :
    t.startFork s d va = .done ({ t with pool := t.pool + d.scoped }.hangFork (t.forkGrp d va)).placeAll :=
  (if_neg (not_not_intro hq)).trans (if_neg (Nat.not_lt.2 hl))

end

/-- A group that is hung on a wave is its fork, under a fresh number; the wave is suspended unless the outcome is known (R42, R238). -/
theorem State.hangFork_hung (u : State) (g : Grp) :
    (u.hangFork g).w.fork = some u.ids ∧ SMap.find? (u.hangFork g).grps u.ids = some g ∧
    (u.hangFork g).w.st = if g.outcome.isSome then u.w.st else .forked :=
  ⟨rfl, (SMap.find?_insert ..).trans (if_pos rfl), rfl⟩

/-- Settles O34: a fork whose descriptor is read acts on it by its checks in their order. -/
theorem forks : Obligations.Forks := by
  unfold Obligations.Forks
  intro s f t bs i va d go hI ha hj hva hread hw
  obtain ⟨body, hexec, hbody⟩ := exec_fork s f t bs hj hva hread hw
  have done {u : State} (h : s.forkAct t d va (lowLane (s.active i)) = .done u) : go u :=
    hexec.trans (word_done i s body hI ha (hbody.trans h))
  refine ⟨fun hb => done (State.forkAct_bad hb), fun hb hp => done (State.forkAct_pages hb hp), fun hb hp hu => ?_, fun hb hp hu => ?_,
    State.hangFork_hung⟩
  · exact hexec.trans (word_trap i s body hI ha (hI.region rfl) (hbody.trans (State.forkAct_unrouted hb hp hu)))
  · have hstarts := State.forkAct_starts (t := t) (va := va) (lane := lowLane (s.active i)) hb hp hu
    exact ⟨fun hq hl => done (hstarts.trans (State.startFork_pool hq hl)), fun hq hl hr => done (hstarts.trans (State.startFork_quota hq hl hr)),
      fun hq hl hr => done (hstarts.trans (State.startFork_reserved hq hl hr)), fun hq hl => done (hstarts.trans (State.startFork_charged hq hl))⟩

end Machine
end Sys2Proof
end

section
/-! SUPPORT. `join` (R47 to R51, R57 to R59, R64), `vstat` (R239) and `migrate` (R244). -/

namespace Sys2Proof
open Machine
namespace Machine

/-! ### The bytes of a fold -/

/-- A map written over another: its own entries stand, and beside them the other's. -/
theorem SMap.find?_over {α : Type} (m n : SMap α) (hn : SMap.rising none n = true) (q : Nat) :
    SMap.find? (SMap.over m n) q = (SMap.find? n q).or (SMap.find? m q) := by
  refine (SMap.foldl_at (fun acc e => SMap.insert acc e.1 e.2) (fun m => SMap.find? m q) q (fun _ x => some x)
    (fun b k x hk => (SMap.find?_insert b k q x).trans (if_neg (Ne.symm hk))) (fun b x => (SMap.find?_insert b q q x).trans (if_pos rfl))
    n none hn m).trans ?_
  cases SMap.find? n q <;> rfl

theorem Fold.entry_bytes_rising (k : Nat) (twin : Nat → Byte) (f : Fold) (e : Nat × Byte) (h : SMap.rising none f.bytes = true) :
    SMap.rising none (Fold.entry k twin f e).bytes = true := by
  unfold Fold.entry
  split
  · exact h
  · split
    · exact SMap.rising_insert _ _ _ _ h (by simp)
    · split <;> exact h

/-- The bytes that a fold of members takes stand in canonical order. -/
theorem foldMembers_bytes_rising (s : State) (c : Nat) (ms : List Member) : SMap.rising none (s.foldMembers c ms).bytes = true := by
  unfold State.foldMembers
  dsimp only
  rw [(Fold.carries_rest (fun m : Member => m.idx) (fun m => m.carried) ms _).1]
  exact foldl_keeps (fun f : Fold => SMap.rising none f.bytes = true) _ (fun f m hf =>
    foldl_keeps (fun f : Fold => SMap.rising none f.bytes = true) _ (fun f e => Fold.entry_bytes_rising _ _ f e) m.view f hf) ms Fold.empty rfl

/-- Charges leave a view's bytes as they are. -/
theorem View.charged_bytes (v : View) (bytes : Overlay) (parts : SMap Part) : ((v.chargeLines bytes).chargeParts parts).bytes = v.bytes := by
  have hlines : (v.chargeLines bytes).bytes = v.bytes :=
    foldl_keeps (fun u : View => u.bytes = v.bytes) _ (fun u e hu => by split <;> exact hu) bytes v rfl
  exact foldl_keeps (fun u : View => u.bytes = v.bytes) _ (fun u e hu => by split <;> exact hu) parts _ hlines

theorem View.receive_bytes (v : View) (inh : SMap Part) (bytes : Overlay) (parts : SMap Part) :
    (v.receive inh bytes parts).bytes = SMap.over v.bytes bytes := congrArg (SMap.over · bytes) (v.charged_bytes bytes parts)

/-! ### `join` -/

/-- What the fold of a fork leaves in the view and in the group, and the conflict that it notes (R49, R51). -/
theorem State.foldFork_folds (s : State) (id : Nat) (g : Grp) :
    (s.foldFork id g).2 = (s.foldMembers g.ctx g.members).record ∧
    (∀ va, SMap.find? (s.foldFork id g).1.w.view.bytes va =
      (SMap.find? (s.foldMembers g.ctx g.members).bytes va).or (SMap.find? s.w.view.bytes va)) ∧
    ∃ h, SMap.find? (s.foldFork id g).1.grps id = some h ∧ h.state = (if (s.foldFork id g).2.isSome then 3 else 1) ∧
      h.confl = (s.foldFork id g).2 := by
  refine ⟨rfl, fun va => ?_, _, (SMap.find?_insert ..).trans (if_pos rfl), rfl, rfl⟩
  refine Eq.trans (congrArg (SMap.find? · va) (s.w.view.receive_bytes s.b.vis _ _)) ?_
  exact SMap.find?_over _ _ (foldMembers_bytes_rising s g.ctx g.members) va

/-- The state that a `join` leaves before its status word: the fork folded and gone from the wave. -/
def State.joined (s : State) (id : Nat) (g : Grp) : State :=
  ((s.foldFork id g).1.setW { (s.foldFork id g).1.w with fork := none }).afterJoin

/-- A `join` of a wave without a fork only advances. -/
theorem exec_join_alone (s : State) (f : F) (hI : s.Issues (.join f)) (ha : s.active (.join f) ≠ 0) (hf : s.w.fork = none) :
    exec (.join f) s = .next (s.advanced (.join f)) := by
  show execJoin f s = _
  unfold execJoin
  refine (word_done (.join f) s _ (t := s) hI ha ?_).trans (congrArg _ (settleCharge_view s s _ rfl))
  dsimp only
  rw [hf]
  rfl

/-- What a `join` does with the fork of its wave. -/
def State.joinAct (s : State) (f : F) (id : Nat) (g : Grp) : Res :=
  if g.st ≠ .ended || s.viewBusy then .stall s
  else match (s.joinFork f id g).2 with
    | some c => .trap (s.joinFork f id g).1 (.of 6 c.info c.addr)
    | none => .done (s.joinFork f id g).1

theorem exec_join (s : State) (f : F) (id : Nat) (g : Grp) (hf : s.w.fork = some id) (hg : SMap.find? s.grps id = some g) :
    ∃ body, exec (.join f) s = word (.join f) s body ∧ ∀ act, body act s = s.joinAct f id g := by
  show ∃ body, execJoin f s = word (.join f) s body ∧ _
  unfold execJoin
  refine ⟨_, rfl, fun act => ?_⟩
  dsimp only
  rw [hf, Option.bind_some, hg]
  rfl

section
variable {s : State} {f : F} {id : Nat} {g : Grp}

/-- A `join` waits for its fork to end and for engines to be done with its wave's view (R91). -/
theorem State.joinAct_waits (hw : g.st ≠ .ended ∨ s.viewBusy = true) : s.joinAct f id g = .stall s :=
  if_pos (by simpa using hw)

theorem State.not_joinWaits (hst : g.st = .ended) (hv : s.viewBusy = false) : ¬ (decide (g.st ≠ .ended) || s.viewBusy) = true := by
  rw [hst, hv]
  decide

theorem State.joinAct_done (hst : g.st = .ended) (hv : s.viewBusy = false) {u : State} (h : s.joinFork f id g = (u, none)) :
    s.joinAct f id g = .done u := by
  simp only [State.joinAct, if_neg (State.not_joinWaits hst hv), h]

theorem State.joinAct_trap (hst : g.st = .ended) (hv : s.viewBusy = false) {u : State} {c : Conflict} (h : s.joinFork f id g = (u, some c)) :
    s.joinAct f id g = .trap u (.of 6 c.info c.addr) := by
  simp only [State.joinAct, if_neg (State.not_joinWaits hst hv), h]

/-- The outcome of a fork that was rejected or ended without a fold is reported (Table 12). -/
theorem State.joinFork_reports {code : Nat} {pool : Bool} (ho : g.outcome = some (code, pool)) :
    s.joinFork f id g = (({ s with grps := SMap.erase s.grps id }.setW { s.w with fork := none }).afterJoin.setOpnd f.d 1 0
      (joinWord g.charge code pool).toNat, none) := by
  simp only [State.joinFork, ho]

/-- A fork that completed is folded; CODE is 5 where its fold notes a conflict (R51). -/
theorem State.joinFork_folds (ho : g.outcome = none) {r : Option Conflict} (hr : (s.foldFork id g).2 = r) {code : Nat}
    (hc : (if r.isSome then 5 else 0) = code) :
    s.joinFork f id g = ((s.joined id g).setOpnd f.d 1 0 (joinWord g.charge code false).toNat, r) := by
  simp only [State.joinFork, ho, hr, hc, State.joined]

end

/-! ### `vstat` -/

theorem vstat_gives (s : State) (f : F) (sel : VSel) (hd : f.d = .zero ∨ ∃ r, f.d = .s r) : s.Gives (.vstat f sel) f.d 1 fun _ => s.vstat sel := by
  refine computes_perLane _ _ _ _ _ ?_
  show execVstat f sel s = _
  unfold execVstat
  refine congrArg (simple (.vstat f sel) s) (funext fun act => ?_)
  rcases hd with hd | ⟨r, hd⟩
  · rw [hd]
    exact (s.eachLane_zero act 1 _).symm
  · rw [hd]
    exact (s.eachLane_s act r 1 _).symm

/-! ### `migrate` -/

/-- A wave that moves takes its entries of the wait-for table with it (R244). -/
theorem State.moveWave_moves (s : State) (p : Nat × Nat × Nat) :
    (s.moveWave p).homeOf = p ∧ (s.moveWave p).wft.length = s.wft.length ∧
    ∀ e ∈ (s.moveWave p).wft, e.blk = s.w.blk → e.wv = s.w.idx → e.die = p.1 := by
  refine ⟨rfl, List.length_map .., fun e he hblk hwv => ?_⟩
  obtain ⟨x, -, rfl⟩ := List.mem_map.1 he
  dsimp only at hblk hwv ⊢
  split
  · rfl
  · next hmine =>
    rw [if_neg hmine] at hblk hwv
    exact absurd (by rw [hblk, hwv]; simp) hmine

/-- A `migrate` to a line of device memory that nothing holds back. -/
theorem exec_migrate (s : State) (f : F) (l : Leaf) (hva : (s.opnd64 f.a 0).toNat < 2 ^ 56) (hfr : s.w.frames = [])
    (hm : s.migrating s.b.ctx (s.opnd64 f.a 0).toNat = false) (hwalk : s.walk s.b.ctx (s.opnd64 f.a 0).toNat = .leaf l) (hh : l.host = false)
    (hv : s.viewBusy = false) : ∃ body, exec (.migrate f) s = word (.migrate f) s body ∧
      body (s.active (.migrate f)) s = s.migrateTo (l.paOf (s.opnd64 f.a 0).toNat) := by
  show ∃ body, execMigrate f s = word (.migrate f) s body ∧ _
  unfold execMigrate
  refine ⟨_, rfl, ?_⟩
  dsimp only
  rw [if_neg (not_not_intro hfr), if_neg (Nat.not_le.2 hva), hm, hwalk]
  dsimp only
  rw [hh, hv]
  rfl

/-- Settles O35: `join` by what becomes of its fork, `vstat` by its selector, `migrate` by where the line is homed. -/
theorem joinsAndMoves : Obligations.JoinsAndMoves := by
  unfold Obligations.JoinsAndMoves
  intro s f
  refine ⟨?_, fun hd => ⟨vstat_gives s f .used hd, vstat_gives s f .free hd, vstat_gives s f .size hd, s.vstat .quota, vstat_gives s f .quota hd,
    fun hq => ?_, fun id g hq hg => ?_⟩, ?_⟩
  · rintro i rfl hI ha
    refine ⟨exec_join_alone s f hI ha, fun id g hf hg => ?_⟩
    obtain ⟨body, hexec, hbody⟩ := exec_join s f id g hf hg
    have done {u : State} (h : s.joinAct f id g = .done u) : exec (.join f) s = .next (s.finishes u (.join f) true) :=
      hexec.trans (word_done _ s body hI ha ((hbody _).trans h))
    refine ⟨fun hw => hexec.trans (word_stall _ s body hI ha ((hbody _).trans (State.joinAct_waits hw))),
      fun hst hv code pool ho => done (State.joinAct_done hst hv (State.joinFork_reports ho)), fun hst hv ho => ?_⟩
    obtain ⟨hrec, hbytes, hgrp⟩ := s.foldFork_folds id g
    intro r u
    refine ⟨fun hms => ⟨s.foldMembers g.ctx g.members, hrec.symm, foldMembers_foldsTo g.members hms s g.ctx, fun va => ?_⟩, hgrp, fun hc => ?_,
      fun c hc => ?_⟩
    · refine (hbytes va).trans ?_
      cases SMap.find? (s.foldMembers g.ctx g.members).bytes va <;> rfl
    · exact done (State.joinAct_done hst hv (State.joinFork_folds ho hc rfl))
    · exact hexec.trans (word_trapAfter _ s body hI ha (hI.region rfl)
        ((hbody _).trans (State.joinAct_trap hst hv (State.joinFork_folds ho hc rfl))))
  · unfold State.vstat
    simp only [hq]
  · unfold State.vstat
    simp only [hq, hg]
  · rintro i l rfl hI ha va die hva hfr hm hwalk hh hv
    obtain ⟨body, hexec, hbody⟩ := exec_migrate s f l hva hfr hm hwalk hh hv
    refine ⟨fun hd => ?_, fun p hd hp => ?_⟩
    · exact hexec.trans (word_done _ s body hI ha (hbody.trans (if_pos hd)))
    · obtain ⟨hhome, hlen, hdie⟩ := s.moveWave_moves p
      refine ⟨s.moveWave p, hexec.trans (word_done _ s body hI ha (hbody.trans ((if_neg hd).trans ?_))), rfl, hhome, rfl, hlen, hdie⟩
      have hp' : s.landing (Config.homeDie (l.paOf (s.opnd64 f.a 0).toNat / 64) % Config.dies) = some p := hp
      rw [hp']

end Machine
end Sys2Proof
end

section
/-! SUPPORT. Two statements about events that the model does not keep: the burst of a wave that takes a pending trap (R22, R380), and the
save of a block whose record stands under another handle (R375). -/

namespace Sys2Proof
open Machine
namespace Machine

/-! ### A pending trap ends the burst of a held run -/

/-- A running wave that is checked out takes its first pending trap. -/
theorem exec_pendingTrapTake (s : State) (hr : s.w.st = .running) (hh : s.w.halted = false) :
    exec (.pendingTrapTake s.w.blk s.w.idx) s = .next s.takePending := by
  show execPendingTrapTake s.w.blk s.w.idx s = _
  have hhere : s.w.st ≠ .absent ∧ s.w.key = 32 * s.w.blk + s.w.idx := ⟨by rw [hr]; decide, rfl⟩
  unfold execPendingTrapTake State.within
  rw [if_pos hhere]
  simp only [hr, hh, decide_true, Bool.not_false, Bool.and_self, if_true]

/-- A wave promoted at a `yield` that its lane 1 has yet to reach, with three issue events of its burst left and a deadlock trap pending;
its context has no handler. -/
def burstAtYield : State :=
  (State.reset.withFetchWord 64 0x4A00000000000000).setW { bootWave with pc := [(1, 8)], burst := 3, pend := [.of 0x0A 0 0] }

/-- The `yield` holds the promoted run (R25), so the burst is over once the trap is taken (R22). -/
theorem takePending_burstAtYield : burstAtYield.held burstAtYield.w.promo = true ∧ burstAtYield.takePending.w.burst = 0 := by decide +kernel

/-- Taking the trap itself leaves the burst as it finds it. -/
theorem takeTrap_burstAtYield :
    ((burstAtYield.setW { burstAtYield.w with pend := [], fwait := none }).takeTrap (.of 0x0A 0 0) burstAtYield.headPc
      (burstAtYield.w.runAt burstAtYield.headPc) 0 true).w.burst = 3 := by decide +kernel

/-- Refutes O56: before a pending trap is taken between words, a burst whose run is held is over (R22), which the statement's state after
the trap leaves out; in `burstAtYield` the model's burst is 0 and the statement's 3. -/
theorem not_trapEvents : ¬ Obligations.TrapEvents := by
  unfold Obligations.TrapEvents
  rintro ⟨-, htake, -⟩
  obtain ⟨-, hhead, -⟩ := htake burstAtYield (.of 0x0A 0 0) rfl rfl rfl
  have hsame := (exec_pendingTrapTake burstAtYield rfl rfl).symm.trans (hhead rfl rfl)
  have hburst : burstAtYield.takePending.w.burst = 3 :=
    (congrArg (fun t : State => t.w.burst) (Host.Outcome.next.inj hsame)).trans takeTrap_burstAtYield
  rw [takePending_burstAtYield.2] at hburst
  exact absurd hburst (by decide)

/-! ### A block whose record stands under another handle -/

/-- A block that the driver has pre-empted, kept under handle 1 with handle 5 in its record, and its one wave; its context has no save
area. -/
def misfiled : State :=
  { State.reset with
    waves := [(32, { Wave.absent with blk := 1, st := .running })]
    blocks := [(1, { Block.absent with handle := 5, ctx := 1, st := .resident, evicted := true })], handles := 6 }

/-- The state in which the save of the block looks for room: its wave stopped and its regions closed. -/
def misfiledHeld : State := (misfiled.holdBlock 1 true).closeRegions 1

/-- Nothing is waited for, and there is no room. -/
theorem misfiledHeld_ready : misfiledHeld.blockQuiet 1 = true ∧ (∀ k ∈ misfiledHeld.wavesOf 1, (misfiledHeld.wave k).region = none) ∧
    misfiledHeld.saveFree (misfiled.block 1).ctx (roundUp (misfiled.block 1).al.saveLen 65536) = none := by decide +kernel

/-- Checking the wave out and in has put the block under its record's handle: nothing stands under handle 1, so nothing drains. -/
theorem exec_blockSave_misfiled : exec (.blockSave 1) misfiled = .next (misfiledHeld.noSave 1) ∧ (misfiledHeld.noSave 1).inbox = [] :=
  ⟨rfl, rfl⟩

/-- Refutes O57: the save of a block that finds no room makes it drain if the block was pre-empted as it stands after its waves have been
checked out and in. In `misfiled` that has moved the block to another handle, and the event that the statement names is not posted. -/
theorem not_pageAndSaveEvents : ¬ Obligations.PageAndSaveEvents := by
  unfold Obligations.PageAndSaveEvents
  rintro ⟨-, -, -, -, -, -, -, -, hsave, -⟩
  obtain ⟨-, -, -, -, hroom⟩ := hsave misfiled 1 (by decide +kernel) (by decide +kernel) (by decide +kernel)
  obtain ⟨hquiet, hregions, hfull⟩ := misfiledHeld_ready
  have hready : ¬ (misfiledHeld.blockQuiet 1 = false ∨ ∃ k ∈ misfiledHeld.wavesOf 1, (misfiledHeld.wave k).region ≠ none) := by
    rintro (h | ⟨k, hk, hr⟩)
    · rw [hquiet] at h
      cases h
    · exact hr (hregions k hk)
  have hdrains : exec (.blockSave 1) misfiled = .next ((misfiledHeld.noSave 1).postOnce (.drainLimitExpiry 1)) :=
    (hroom (by decide +kernel) (by decide +kernel) (by decide +kernel)).2.1 hready hfull
  have hinbox := congrArg State.inbox (Host.Outcome.next.inj (exec_blockSave_misfiled.1.symm.trans hdrains))
  rw [exec_blockSave_misfiled.2] at hinbox
  have hposted : Instr.drainLimitExpiry 1 ∈ ((misfiledHeld.noSave 1).postOnce (.drainLimitExpiry 1)).inbox := (mem_addOnce (misfiledHeld.noSave 1).inbox _ _).2 (.inr rfl)
  rw [← hinbox] at hposted
  cases hposted

end Machine
end Sys2Proof
end

section
/-! SUPPORT. Wait-for entries named by `wreg` and `wunreg`, `yield`, `fence` and `sweep` (R85, R90, R111, R112, R235, R236). -/

namespace Sys2Proof
open Machine
namespace Machine

/-! ### Withdrawn entries -/

theorem State.wft_updBlock (s : State) (h : Nat) (f : Block → Block) : (s.updBlock h f).wft = s.wft := by rw [s.updBlock_frame h f]

/-- Priorities move; entries stand. -/
theorem State.wft_foldl {α : Type} (f : State → α → State) (hf : ∀ u x, (f u x).wft = u.wft) (xs : List α) (s : State) :
    (xs.foldl f s).wft = s.wft := by
  induction xs generalizing s with
  | nil => rfl
  | cons x xs ih => rw [List.foldl_cons, ih, hf]

theorem State.wft_propagate (s : State) (p : WaitEnt → WaitEnt → Bool) (n : Nat) : (s.propagate p n).wft = s.wft := by
  induction n with
  | zero => rfl
  | succ n ih =>
    refine (State.wft_foldl _ (fun u q => ?_) _ _).trans ih
    dsimp only
    split
    · exact u.wft_updBlock _ _
    · rfl

theorem State.wft_dropEnts (s : State) (p : WaitEnt → Bool) : (s.dropEnts p).wft = s.wft.filter fun e => !p e := by
  unfold State.dropEnts
  split
  · exact (State.wft_propagate _ _ _).trans (State.wft_foldl _ (fun u _ => u.wft_updBlock _ _) _ _)
  · next h =>
    refine (List.filter_eq_self.2 fun e he => ?_).symm
    rw [Bool.not_eq_true', Bool.eq_false_iff]
    exact fun hp => h (List.any_eq_true.2 ⟨e, he, hp⟩)

/-! ### The words -/

/-- A line that `wreg` or `wunreg` names and that is found. -/
theorem State.lineThen_ok {s : State} {dm : Bool} {a : Opnd} {p : Place} {kind : BitVec 4} (act : Mask) (k : Nat → W64 → BitVec 4 → Res)
    (h : s.lineChk dm (s.objAddr dm a 0) = (.ok p, kind)) :
    s.lineThen dm a act k = k p.loc (BitVec.ofNat 64 ((s.objAddr dm a 0).toNat / 64 * 64)) kind := by
  unfold State.lineThen
  dsimp only
  rw [h]

/-- A word that waits and leaves a mark beside the wave. -/
theorem word_stallBeside (i : Instr) (s : State) (body : Mask → State → Res) {t : State} (hI : s.Issues i) (ha : s.active i ≠ 0)
    (hb : body (s.active i) s = .stall t) (hv : t.w.view = s.w.view) : word i s body = .next t := by
  rw [word_effect i s body hI (.inl ha), hb]
  exact congrArg _ (settleCharge_view s t _ hv)

theorem exec_wreg (s : State) (f : F) (dm hold : Bool) (sub : BitVec 3) {p : Place} {kind : BitVec 4} (hI : s.Issues (.wreg f dm hold sub))
    (ha : s.active (.wreg f dm hold sub) ≠ 0) (h : s.lineChk dm (s.objAddr dm f.a 0) = (.ok p, kind)) :
    exec (.wreg f dm hold sub) s = .next (s.finishes (s.addEnt ⟨s.homeOf.1, hold, 1, kind, s.w.idx, s.w.blk, lineOf 0 p.loc, sub.toNat,
      s.opnd32 f.b 0, BitVec.ofNat 64 ((s.objAddr dm f.a 0).toNat / 64 * 64)⟩).1 (.wreg f dm hold sub) true) := by
  show execWreg f dm hold sub s = _
  exact word_done _ s _ hI ha (State.lineThen_ok _ _ h)

/-- `wunreg` without a line removes every entry that the wave made itself. -/
theorem exec_wunreg_all (s : State) (f : F) (dm hold : Bool) (sub : BitVec 3) (hI : s.Issues (.wunreg f dm hold sub))
    (ha : s.active (.wunreg f dm hold sub) ≠ 0) (hz : f.a = .zero) :
    exec (.wunreg f dm hold sub) s = .next (s.finishes (s.dropEnts fun e => e.orig == 1 && e.blk == s.w.blk && e.wv == s.w.idx)
      (.wunreg f dm hold sub) true) := by
  show execWunreg f dm hold sub s = _
  exact word_done _ s _ hI ha (if_pos hz)

theorem exec_wunreg_line (s : State) (f : F) (dm hold : Bool) (sub : BitVec 3) {p : Place} {kind : BitVec 4}
    (hI : s.Issues (.wunreg f dm hold sub)) (ha : s.active (.wunreg f dm hold sub) ≠ 0) (hz : f.a ≠ .zero)
    (h : s.lineChk dm (s.objAddr dm f.a 0) = (.ok p, kind)) :
    exec (.wunreg f dm hold sub) s = .next (s.finishes (s.dropEnts fun e => (e.orig == 1 && e.blk == s.w.blk && e.wv == s.w.idx) &&
      e.hold == hold && e.line == lineOf 0 p.loc && e.sub == sub.toNat) (.wunreg f dm hold sub) true) := by
  show execWunreg f dm hold sub s = _
  exact word_done _ s _ hI ha ((if_neg hz).trans (State.lineThen_ok _ _ h))

theorem exec_fence (s : State) (f : F) (scope : Scope) (hI : s.Issues (.fence f scope)) (ha : s.active (.fence f scope) ≠ 0) :
    exec (.fence f scope) s = .next (if s.releaseBusy [] (lanesOf (s.active (.fence f scope))) then s else s.advanced (.fence f scope)) := by
  show execFence f scope s = _
  split
  · next hb => exact word_stall _ s _ hI ha (if_pos hb)
  · next hb => exact (word_done _ s _ hI ha (if_neg hb)).trans (congrArg _ (settleCharge_view s s _ rfl))

/-- The probe of a `sweep` that the wave has under way at this word and trap depth. -/
def State.ownProbe (s : State) (p : Probe) : Bool := p.blk == s.w.blk && p.wv == s.w.idx && p.word == s.pc && p.depth == s.w.frames.length

/-- What `sweep` does: it completes with the probe that has come back, waits for the one under way, or sends one. -/
def State.sweepAct (s : State) (scope : Scope) : Res :=
  match s.probes.find? s.ownProbe with
  | some p => if p.returned then .done { s with probes := s.probes.filter fun q => !s.ownProbe q } else .stall s
  | none => .stall { s with
      ids := s.ids + 1
      probes := s.probes ++ [⟨s.ids, s.homeOf.1, scope == .pkg || scope == .sys, s.w.blk, s.w.idx, s.pc, s.w.frames.length, false⟩]
      inbox := s.inbox ++ [.sweepProbeReturn s.ids] }

theorem exec_sweep (s : State) (f : F) (scope : Scope) : exec (.sweep f scope) s = word (.sweep f scope) s fun _ s => s.sweepAct scope := rfl

section
variable (s : State) (f : F) (scope : Scope) (hI : s.Issues (.sweep f scope)) (ha : s.active (.sweep f scope) ≠ 0)
include hI ha

theorem exec_sweep_sends (h : s.probes.find? s.ownProbe = none) : exec (.sweep f scope) s = .next { s with
    ids := s.ids + 1
    probes := s.probes ++ [⟨s.ids, s.homeOf.1, scope == .pkg || scope == .sys, s.w.blk, s.w.idx, s.pc, s.w.frames.length, false⟩]
    inbox := s.inbox ++ [.sweepProbeReturn s.ids] } := by
  rw [exec_sweep]
  refine word_stallBeside _ s _ hI ha ?_ rfl
  rw [State.sweepAct, h]

theorem exec_sweep_probed {p : Probe} (h : s.probes.find? s.ownProbe = some p) : exec (.sweep f scope) s =
    .next (if p.returned then s.finishes { s with probes := s.probes.filter fun q => !s.ownProbe q } (.sweep f scope) true else s) := by
  have hact : s.sweepAct scope = if p.returned then .done { s with probes := s.probes.filter fun q => !s.ownProbe q } else .stall s := by
    rw [State.sweepAct, h]
  rw [exec_sweep]
  split
  · next hr => exact word_done _ s _ hI ha (hact.trans (if_pos hr))
  · next hr => exact word_stall _ s _ hI ha (hact.trans (if_neg hr))

end

/-- Settles O32: each word by what its effect answers in the frame of an issue event. -/
theorem waitEntriesAndFences : Obligations.WaitEntriesAndFences := by
  unfold Obligations.WaitEntriesAndFences
  refine fun s f dm hold sub scope => ⟨?_, ?_, s.wft_dropEnts, ?_, ?_, ?_⟩
  · rintro _ p kind rfl hI ha h
    exact exec_wreg s f dm hold sub hI ha h
  · rintro _ rfl hI ha
    exact ⟨exec_wunreg_all s f dm hold sub hI ha, fun p kind => exec_wunreg_line s f dm hold sub hI ha⟩
  · rintro _ rfl hI ha
    show execYield f s = _
    exact word_done _ s _ hI ha rfl
  · rintro _ rfl hI ha
    rw [exec_fence s f scope hI ha]
    split <;> rfl
  · rintro _ rfl hI ha
    exact ⟨fun h => exec_sweep_sends s f scope hI ha (Option.isNone_iff_eq_none.1 h), fun p => exec_sweep_probed s f scope hI ha⟩

end Machine
end Sys2Proof
end

section
/-! SUPPORT. A statement about a stream that the reserve accepts and the model does not keep (R404, R407): the stream's contents overwrite
the page table that leads to the package's own ID. -/

namespace Sys2Proof
open Machine
namespace Machine

/-- A save of context 1 towards this package's own reserve runs, and the reserve, which accepts the streams of package 4097 and begins at
PA 0, holds the context's page table: the root at PA 0 leads through PA 4096 to a leaf at PA 8192 that maps VA 0 to PA 0, where PKGTAB
names this package 4097. -/
def tableInReserve : State :=
  { State.reset with
    mgmt := { Mgmt.reset with boot := .up }
    mem := [(0, 0x01), (1, 0x10), (4096, 0x01), (4097, 0x20), (8192, 0x03)]
    pf := [(Pf.rsvcfg, BitVec.ofNat 64 (4097 * 2 ^ 48 + 1))]
    ckpt := some ⟨false, 1, 0, 4097, false, 0, [], []⟩ }

/-- A stream of one unit: a header of 16 bytes and one byte of contents, all 0. -/
def zeroStream : List Host.Cell := List.replicate 17 (0, 0)

/-- The reserve takes the stream, which is no answer to a restore, and the save is towards this package. -/
theorem tableInReserve_takes : tableInReserve.up = true ∧ tableInReserve.restores 4097 = false ∧ tableInReserve.rsvSrc = 4097 ∧
    tableInReserve.rsvSize ≠ 0 ∧ tableInReserve.rsvPlace 4097 0 + (recordBodies (bytesOf zeroStream)).length ≤ tableInReserve.rsvEnd ∧
    tableInReserve.ownPackage 1 = 4097 := by decide +kernel

/-- Once the contents stand in the reserve the walk finds no entry at the root, so the save is no longer towards this package. -/
theorem tookStream_tableInReserve :
    ((tableInReserve.storeStream 4097 0 (bytesOf zeroStream)).tookStream 4097 0).ckpt = tableInReserve.ckpt := by decide +kernel

/-- The reserve holds the stream before the save learns of it. -/
theorem exec_reserveStreamAccept_tableInReserve : exec (.reserveStreamAccept 4097 0 zeroStream) tableInReserve =
    .next ((tableInReserve.storeStream 4097 0 (bytesOf zeroStream)).tookStream 4097 0) := by
  obtain ⟨hup, hrest, hsrc, hsize, hroom, -⟩ := tableInReserve_takes
  have htakes : tableInReserve.rsvTakes 4097 0 (bytesOf zeroStream) = true := by
    simp only [State.rsvTakes, hsrc, decide_true, Bool.true_and, Bool.and_eq_true, decide_eq_true_eq]
    exact ⟨hsize, hroom⟩
  show execReserveStreamAccept 4097 0 zeroStream tableInReserve = _
  unfold execReserveStreamAccept
  simp [hup, hrest, htakes]

/-- Refutes O59: the statement lets a save towards this package's own reserve count an accepted stream by the package's ID before the
stream is stored; the model reads the ID after that. In `tableInReserve` the stream overwrites the page table that the ID is read through,
so the model counts nothing. -/
theorem not_expertAndCheckpointEvents : ¬ Obligations.ExpertAndCheckpointEvents := by
  unfold Obligations.ExpertAndCheckpointEvents
  rintro ⟨-, -, -, -, -, -, -, -, -, -, -, -, -, hstream⟩
  obtain ⟨hup, hrest, hsrc, hsize, hroom, hown⟩ := tableInReserve_takes
  obtain ⟨-, haccept, -⟩ := hstream tableInReserve 4097 0 zeroStream hup
  obtain ⟨-, -, htake, -⟩ := haccept (by decide) hrest
  obtain ⟨t, hexec, -, -, -, hckpt, -⟩ := htake hsrc.symm hsize hroom
  obtain rfl := Host.Outcome.next.inj (exec_reserveStreamAccept_tableInReserve.symm.trans hexec)
  have htaken := (tookStream_tableInReserve.symm.trans (hckpt _ rfl))
  rw [if_pos ⟨rfl, rfl, hown.symm, rfl⟩] at htaken
  exact absurd htaken (by decide)

end Machine
end Sys2Proof
end

section
/-! SUPPORT. Accesses and object lines that pass (R217): what a word hands on once every check of its accesses has passed, and the end of
a word that leaves destinations pending (R21, R78). -/

namespace Sys2Proof
open Machine
namespace Machine

/-! ### Accesses of a word -/

/-- The race check of sectors changes tags alone. -/
theorem Block.accessAll_frame (b : Block) (x : Nat) (secs : List (Nat × Bool)) :
    ∃ wt rt, (b.accessAll x secs).1 = { b with wtag := wt, rtag := rt } := by
  induction secs generalizing b with
  | nil => exact ⟨_, _, rfl⟩
  | cons e secs ih =>
    obtain ⟨sec, w⟩ := e
    rw [Block.accessAll]
    split
    · obtain ⟨wt, rt, h⟩ := ih (b.tagged x sec w)
      rw [h]
      cases w <;> exact ⟨_, _, rfl⟩
    · exact ⟨_, _, rfl⟩

/-- Sectors whose race check passes: what follows sees the tags. -/
theorem State.raceThen_passes (s : State) (b : Block) (secs : List (Nat × Bool)) (k : State → Res) (hr : secs ≠ [] → s.b.race = none)
    (ht : s.b.accessAll s.w.idx secs = (b, none)) : s.raceThen secs k = k (s.setB b) := by
  unfold State.raceThen
  cases secs with
  | nil =>
    have hb : s.b = b := congrArg Prod.fst ht
    subst hb
    rfl
  | cons e secs =>
    rw [if_neg (by simp), hr (List.cons_ne_nil e secs), ht]
    rfl

theorem State.pay_setB (s : State) (b : Block) (c die fee : Nat) : (s.setB b).pay c die fee = (s.pay c die fee).setB b := by
  show (if fld (s.pfNum (Pf.tbcfg c die)) 0 32 == 0 || fee == 0 then s.setB b else _) = _
  unfold State.pay
  split <;> rfl

/-- The block and the buckets in which accesses that passed take effect. -/
theorem State.accessed_tagged (s : State) (b : Block) (n : Nat) (write : Bool) (ls : List Nat) (addr : Nat → W64) (p : Nat → Place)
    (hb : ∃ wt rt, b = { s.b with wtag := wt, rtag := rt }) : (s.setB b).accessed n write (ls.map fun l => (l, addr l, p l)) =
      { s with b := b.marked (ls.map p), tokens := s.paidFor (if write then n else 0) (ls.map p) } := by
  have hctx : (s.setB b).b.ctx = s.b.ctx := by
    obtain ⟨wt, rt, rfl⟩ := hb
    rfl
  have hhome : (s.setB b).homeOf = s.homeOf := by
    obtain ⟨wt, rt, rfl⟩ := hb
    rfl
  have hfee : (s.setB b).accFee n write (ls.map fun l => (l, addr l, p l)) = s.fee (if write then n else 0) (ls.map p) := by
    unfold State.accFee State.fee
    rw [hhome, List.map_map]
    rfl
  have hlive : ((ls.map fun l => (l, addr l, p l)).any fun q => q.2.2.isLive) = (ls.map p).any Place.isLive := by
    rw [List.any_map, List.any_map]
    rfl
  unfold State.accessed
  rw [hctx, hhome, hfee, s.pay_setB, s.pay_frame, hlive]
  unfold Block.marked
  cases (ls.map p).any Place.isLive <;> rfl

section
variable {s : State} {b : Block} {ls : List Nat} {acc : Acc} {sp : Sp} {n : Nat} {reads write pin : Bool} {addr : Nat → W64}
  {p : Nat → Place}

theorem State.Granted.noPoison (h : s.Granted b ls id acc sp n reads write pin addr p) :
    (if reads then s.poisonPa (ls.map fun l => (l, addr l, p l)) n else none) = none := by
  split
  · next hr =>
    refine Option.map_eq_none_iff.2 (List.find?_eq_none.2 fun e he => ?_)
    obtain ⟨l, hl, rfl⟩ := List.mem_map.1 he
    rw [h.clean hr l hl]
    decide
  · rfl

/-- The check of one access with its pin, as `accessAll` makes it. -/
theorem State.Granted.checkPinned (h : s.Granted b ls id acc sp n reads write pin addr p) {l : Nat} (hl : l ∈ ls) :
    (if pin && sp == .g && decide (3 ≤ (s.check acc sp (addr l) n write).failStep) && !s.pinned (addr l).toNat write
      then Chk.bad 3 3 else s.check acc sp (addr l) n write) = .ok (p l) := by
  rw [h.checks l hl]
  refine if_neg fun hp => ?_
  simp only [Bool.and_eq_true, beq_iff_eq, Bool.not_eq_true'] at hp
  obtain ⟨⟨⟨hpin, hsp⟩, -⟩, hno⟩ := hp
  rw [h.pinned hpin hsp l hl] at hno
  cases hno

theorem State.Granted.keepsRegion (h : s.Granted b ls id acc sp n reads write pin addr p) :
    (s.w.region.isSome && (ls.map fun l => (l, addr l, p l)).any fun q => q.2.2.closes) = false := by
  rw [Bool.and_eq_false_imp]
  intro hr
  refine List.any_eq_false.2 fun q hq => ?_
  obtain ⟨l, hl, rfl⟩ := List.mem_map.1 hq
  rw [h.region (Option.isSome_iff_ne_none.1 hr) l hl]
  decide

theorem State.Granted.waitsForNone (h : s.Granted b ls id acc sp n reads write pin addr p) :
    (acc != .obj && (ls.map fun l => (l, addr l, p l)).any fun q => s.placeWaits q.1 q.2.2 n write) = false := by
  rw [Bool.and_eq_false_imp]
  intro hacc
  refine List.any_eq_false.2 fun q hq => ?_
  obtain ⟨l, hl, rfl⟩ := List.mem_map.1 hq
  exact Bool.eq_false_iff.1 (h.free (bne_iff_ne.1 hacc) l hl)

theorem State.Granted.canPay (h : s.Granted b ls id acc sp n reads write pin addr p) :
    s.canPay s.b.ctx s.homeOf.1 (s.accFee n write (ls.map fun l => (l, addr l, p l))) = true := by
  have hpays := h.pays
  unfold State.affords at hpays
  unfold State.accFee
  rw [List.map_map]
  exact hpays

theorem State.Granted.racesWithNone (h : s.Granted b ls id acc sp n reads write pin addr p) (k : State → Res) :
    s.raceThen ((ls.map fun l => (l, addr l, p l)).filterMap fun q => q.2.2.sector?.map fun sec => (sec, write)) k = k (s.setB b) := by
  have hsecs : ((ls.map fun l => (l, addr l, p l)).filterMap fun q => q.2.2.sector?.map fun sec => (sec, write)) =
      (ls.filterMap fun l => (p l).sector?).map fun sec => (sec, write) := by
    rw [List.filterMap_map, List.map_filterMap]
    rfl
  rw [hsecs]
  refine s.raceThen_passes b _ k (fun hne => ?_) h.tags
  obtain ⟨x, hx⟩ := List.exists_mem_of_ne_nil _ hne
  obtain ⟨sec, hsec, -⟩ := List.mem_map.1 hx
  obtain ⟨l, hl, hs⟩ := List.mem_filterMap.1 hsec
  exact h.race ⟨l, hl, by rw [hs]; rfl⟩

/-- The block of granted accesses differs in its tags alone. -/
theorem State.Granted.tagged (h : s.Granted b ls id acc sp n reads write pin addr p) : ∃ wt rt, b = { s.b with wtag := wt, rtag := rt } := by
  have hf := s.b.accessAll_frame s.w.idx ((ls.filterMap fun l => (p l).sector?).map fun sec => (sec, write))
  rwa [h.tags] at hf

/-- Granted accesses are handed on with their places (R217). -/
theorem State.Granted.accessAll (h : s.Granted b ls id acc sp n reads write pin addr p) (k : State → List (Nat × W64 × Place) → Res) :
    s.accessAll ls acc sp n reads write pin addr k =
      k { s with b := b.marked (ls.map p), tokens := s.paidFor (if write then n else 0) (ls.map p) } (ls.map fun l => (l, addr l, p l)) := by
  have hcs : (ls.map fun l => (l, addr l, if pin && sp == .g && decide (3 ≤ (s.check acc sp (addr l) n write).failStep) &&
      !s.pinned (addr l).toNat write then Chk.bad 3 3 else s.check acc sp (addr l) n write)) = ls.map fun l => (l, addr l, Chk.ok (p l)) :=
    List.map_congr_left fun l hl => by rw [h.checkPinned hl]
  have hfail : firstFail (ls.map fun l => (l, addr l, Chk.ok (p l))) = none := by
    refine firstFail_none _ fun c hc => ?_
    obtain ⟨l, -, rfl⟩ := List.mem_map.1 hc
    exact ⟨p l, rfl⟩
  unfold State.accessAll
  dsimp only
  rw [hcs, hfail]
  dsimp only
  rw [okPlaces_map, h.keepsRegion, h.waitsForNone, h.canPay, h.noPoison]
  simp only [Bool.not_true, Bool.false_eq_true, if_false]
  rw [h.racesWithNone, s.accessed_tagged b n write ls addr p h.tagged]

end

/-! ### Lines of objects -/

section
variable {s : State} {dm reads : Bool} {act : Mask} {ls : List Nat} {addr : Nat → W64}

/-- Lines that pass are handed on (R217). -/
theorem State.LinesPass.objThen (h : s.LinesPass dm reads act ls addr) (k : State → Res) :
    s.objThen dm reads act ls addr k = k (s.atLines dm ls addr) := by
  have hlines : ((ls.map fun l => (l, addr l)).map fun a => (s.objChk dm a.2).place) = s.objLines dm ls addr := by
    rw [List.map_map]
    rfl
  have hfail : firstFail ((ls.map fun l => (l, addr l)).map fun a => (a.1, a.2, s.objChk dm a.2)) = none := by
    refine firstFail_none _ fun c hc => ?_
    rw [List.map_map] at hc
    obtain ⟨l, hl, rfl⟩ := List.mem_map.1 hc
    exact h.checks l hl
  have hpoison : (if reads then s.poisonPa ((s.objLines dm ls addr).map fun p => (0, 0, p)) 64 else none) = none := by
    split
    · next hr =>
      refine Option.map_eq_none_iff.2 (List.find?_eq_none.2 fun e he => ?_)
      obtain ⟨p, hp, rfl⟩ := List.mem_map.1 he
      rw [h.clean hr p hp]
      decide
    · rfl
  unfold State.objThen State.objAll
  rw [hfail]
  dsimp only
  rw [hlines, h.free, h.pays, hpoison]
  rfl

/-- One line passes whichever lane names it. -/
theorem State.LinesPass.named {a : W64} (h : s.LinesPass dm reads act [0] fun _ => a) (l : Nat) : s.LinesPass dm reads act [l] fun _ => a :=
  ⟨fun _ _ => h.checks 0 (List.mem_singleton.2 rfl), h.free, h.pays, h.clean⟩

end

/-! ### Destinations that await delivery -/

/-- A wave whose destinations that await delivery are replaced. -/
def Wave.awaits (w : Wave) (x : List (Opnd × Nat)) : Wave := { w with pending := x }

theorem Wave.awaits_push (w : Wave) (x : List (Opnd × Nat)) (l : Nat) (v : W64) : (w.awaits x).push l v = (w.push l v).awaits x := rfl

theorem Wave.awaits_pushLoop (w : Wave) (x : List (Opnd × Nat)) (g : Nat → W64) (ls : List Nat) :
    ls.foldl (fun w l => w.push l (g l)) (w.awaits x) = (ls.foldl (fun w l => w.push l (g l)) w).awaits x := by
  induction ls generalizing w with
  | nil => rfl
  | cons l ls ih => simp only [List.foldl_cons, Wave.awaits_push, ih]

theorem State.pushHolds_awaits (s : State) (i : Instr) (act : Mask) (w : Wave) (x : List (Opnd × Nat)) :
    s.pushHolds i act (w.awaits x) = (s.pushHolds i act w).awaits x := by
  unfold State.pushHolds
  split
  · rfl
  · split
    · rfl
    · exact w.awaits_pushLoop x _ _

theorem Wave.awaits_afterBurst (w : Wave) (x : List (Opnd × Nat)) (was : W64) (run : Mask) :
    (w.awaits x).afterBurst was run = (w.afterBurst was run).awaits x := by
  have hpc : ∀ l, (w.awaits x).pcAt l = w.pcAt l := fun _ => rfl
  have hrun : ∀ a, (w.awaits x).runAt a = w.runAt a := fun _ => rfl
  simp only [Wave.afterBurst, hpc, hrun, show (w.awaits x).burst = w.burst from rfl, show (w.awaits x).promo = w.promo from rfl]
  split
  · rfl
  · split
    · rfl
    · split <;> rfl

theorem Wave.awaits_countWindow (w : Wave) (x : List (Opnd × Nat)) : (w.awaits x).countWindow = w.countWindow.awaits x := by
  simp only [Wave.countWindow, show (w.awaits x).window = w.window from rfl]
  split
  · rfl
  · split <;> rfl

theorem Wave.awaits_retire (w : Wave) (x : List (Opnd × Nat)) (table run : Mask) (was : W64) :
    (w.awaits x).retire table run was = (w.retire table run was).awaits x := by
  unfold Wave.retire
  rw [show (w.awaits x).ageRun table run = (w.ageRun table run).awaits x from rfl, Wave.awaits_afterBurst, Wave.awaits_countWindow]

/-- A word whose effect on its wave is what its destinations await: the issue event leaves the rest of the wave. -/
theorem State.finishes_awaits (s t : State) (i : Instr) (x : List (Opnd × Nat)) (hw : t.w = s.w.awaits x) :
    s.finishes t i true = { t with w := (s.advanced i).w.awaits x } := by
  have hretiring : t.retiring s (s.active i) true = s.active i := by
    unfold State.retiring
    rw [hw]
    exact s.retiring_parked (s.active i)
  have hparked : t.w.parked = s.w.parked := by rw [hw]; rfl
  unfold State.finishes
  rw [settleCharge_view s t _ (by rw [hw]; rfl), s.advanced_eq i]
  unfold State.retire
  dsimp only
  rw [hretiring, hparked, State.keepHolds_parked, hw, s.pushHolds_awaits, if_pos rfl]
  rw [show ((s.pushHolds i (s.active i) s.w).awaits x).goTo s.run (s.pc + 8) =
    ((s.pushHolds i (s.active i) s.w).goTo s.run (s.pc + 8)).awaits x from rfl, Wave.awaits_retire]
  rfl

end Machine
end Sys2Proof
end

section
/-! SUPPORT. Requests to ordered rounds (R80, R81, R231): what `aord` hands on, how a round applies its requests, and what one
request leaves and answers (R230, R401). -/

namespace Sys2Proof
open Machine
namespace Machine

/-! ### Requests numbered in lane order -/

/-- The requests of lanes in their order: number 0 first. -/
def numbered (mk : Nat → Nat → Req) (ls : List Nat) : List Req := ls.zipIdx.map fun e => mk e.2 e.1

theorem numbered_concat (mk : Nat → Nat → Req) (ls : List Nat) (l : Nat) : numbered mk (ls ++ [l]) = numbered mk ls ++ [mk ls.length l] := by
  simp [numbered, List.zipIdx_append]

theorem numbered_length (mk : Nat → Nat → Req) (ls : List Nat) : (numbered mk ls).length = ls.length := by simp [numbered]

theorem numbered_lane (mk : Nat → Nat → Req) (ls : List Nat) (h : ∀ n l, (mk n l).lane = l) : (numbered mk ls).map (·.lane) = ls := by
  simp [numbered, Function.comp_def, h]

theorem numbered_id (mk : Nat → Nat → Req) (ls : List Nat) (base : Nat) (h : ∀ n l, (mk n l).id = base + n) :
    (numbered mk ls).map (·.id) = (List.range (numbered mk ls).length).map (base + ·) := by
  have hmap : (numbered mk ls).map (·.id) = (ls.zipIdx.map Prod.snd).map (base + ·) := by
    rw [numbered, List.map_map, List.map_map]
    exact List.map_congr_left fun e _ => h e.2 e.1
  rw [hmap, List.zipIdx_map_snd, ← List.range_eq_range', numbered_length]

theorem mem_numbered {mk : Nat → Nat → Req} {ls : List Nat} {q : Req} (h : q ∈ numbered mk ls) : ∃ n, ∃ l ∈ ls, q = mk n l := by
  obtain ⟨e, he, rfl⟩ := List.mem_map.1 h
  exact ⟨e.2, e.1, List.fst_mem_of_mem_zipIdx he, rfl⟩

/-- Lanes that send one request each, in their order: the state after them depends on the requests sent. -/
theorem foldl_numbered {σ : Type} (sent : List Req → σ) (send : σ → Nat → σ) (mk : Nat → Nat → Req) (hlane : ∀ n l, (mk n l).lane = l)
    (hsend : ∀ qs l, (∀ q ∈ qs, q.lane ≠ l) → send (sent qs) l = sent (qs ++ [mk qs.length l])) (ls : List Nat) (hn : ls.Nodup) :
    ls.foldl send (sent []) = sent (numbered mk ls) := by
  induction ls using List.reverseRecOn with
  | nil => rfl
  | append_singleton ls l ih =>
    obtain ⟨hls, -, hnot⟩ := List.nodup_append.1 hn
    rw [List.foldl_append, ih hls, List.foldl_cons, List.foldl_nil, hsend _ l, numbered_concat, numbered_length]
    intro q hq e
    obtain ⟨n, k, hk, rfl⟩ := mem_numbered hq
    rw [hlane] at e
    exact hnot k hk l (List.mem_singleton.2 rfl) e

/-! ### Blocks and barriers after accesses -/

/-- `b'` is the block with the race tags and the R63 mark of accesses. -/
def Block.Reached (b b' : Block) : Prop := ∃ wt rt live, b' = { b with wtag := wt, rtag := rt, live := live }

theorem Block.Reached.live {b b' : Block} (h : b.Reached b') (x : Bool) : b.Reached { b' with live := x } := by
  obtain ⟨wt, rt, live, rfl⟩ := h
  exact ⟨wt, rt, x, rfl⟩

theorem State.Granted.reached {s : State} {b : Block} {ls : List Nat} {acc : Acc} {sp : Sp} {n : Nat} {reads write pin : Bool}
    {addr : Nat → W64} {p : Nat → Place} (h : s.Granted b ls id acc sp n reads write pin addr p) (ps : List Place) :
    s.b.Reached (b.marked ps) := by
  obtain ⟨wt, rt, rfl⟩ := h.tagged
  unfold Block.marked
  split <;> exact ⟨wt, rt, _, rfl⟩

/-- A barrier reads the same when the memories and the blocks' barriers do. -/
theorem State.bar_congr {s t : State} (hb : s.b.Reached t.b) (hblocks : t.blocks = s.blocks) (hmem : t.mem = s.mem) (hdsm : t.dsm = s.dsm)
    (h loc : Nat) : t.bar h loc = s.bar h loc := by
  obtain ⟨wt, rt, live, hb⟩ := hb
  have hloc : ∀ a n, t.loc a n = s.loc a n := fun a n => by unfold State.loc; rw [hmem, hdsm]
  unfold State.bar
  split
  · unfold State.block
    rw [hb, hblocks]
    dsimp only
    split <;> rfl
  · simp only [hloc]

/-! ### `aord` (R80, R81, R231) -/

/-- Where the result of an atomic operation goes. -/
def State.reqDst (s : State) (f : F) (op : AOp) : Opnd := if op = .store then .zero else f.d.fixed s.w

/-- What destinations a word's requests leave pending. -/
def pendingOf (dst : Opnd) (dt : DT) (qs : List Req) : List (Opnd × Nat) := if dst = .zero then [] else qs.map fun _ => (dst, dt.regs)

theorem pendingOf_nil (dst : Opnd) (dt : DT) : pendingOf dst dt [] = [] := ite_self _

theorem pendingOf_concat (dst : Opnd) (dt : DT) (qs : List Req) (q : Req) :
    pendingOf dst dt (qs ++ [q]) = pendingOf dst dt qs ++ if dst = .zero then [] else [(dst, dt.regs)] := by
  unfold pendingOf
  split <;> simp

/-- The round of a barrier that a wave's next request joins: the one after its own arrival that stands, else the open one (R81). -/
def State.roundOf (s : State) (bar : Nat) : W64 :=
  match s.w.arrivals.find? fun a => a.loc == bar with
  | some a => a.phase + 1
  | none => (s.bar s.w.blk bar).phase

/-- The requests of a lane of the wave that stand in a round. -/
def State.roundReqs (s : State) (bar : Nat) (round : W64) (l : Nat) : List Req :=
  s.reqs.filter fun q => q.blk == s.w.blk && q.wv == s.w.idx && q.lane == l && q.bar == bar && q.round == round

section
variable (s : State) (f : F) (op : AOp) (dt : DT) (acq : Bool) (bar : Nat) (bva : Option Nat)

/-- The request that a lane of `aord` sends in state `u`, the word issued in `s`. -/
def State.roundReq (u : State) (l : Nat) (va : W64) (p : Place) : Req :=
  { id := u.ids, src := u.homeOf.1, word := s.ids, ctx := u.b.ctx, blk := u.w.blk, wv := u.w.idx, lane := l,
    index := idKey u.b.gid [u.w.idx, l, (u.roundReqs bar (u.roundOf bar) l).length], ident := identField u.b u.w.idx, bar := bar,
    round := u.roundOf bar, bva := bva, loc := p.loc, va := va, op := op, dt := dt, b := BitVec.ofNat 64 (s.dtOpnd dt f.b l), c := 0,
    dst := u.reqDst f op, fmode := u.w.sp.fmode, held := false, spilled := false, far := false, acq := acq, lock := false }

/-- A lane sends its request: it stands last, its event is due, and its destination awaits the result. -/
theorem State.sendRound_eq (u : State) (l : Nat) (va : W64) (p : Place) : u.sendRound s f op dt acq bar bva l va p =
    let q := s.roundReq f op dt acq bar bva u l va p
    let t : State := { u with reqs := u.reqs ++ [q], inbox := u.inbox ++ [.roundRequestArrive q.id], ids := u.ids + 1 }
    if u.reqDst f op = .zero then t else t.setW { t.w with pending := t.w.pending ++ [(u.reqDst f op, dt.regs)] } := by
  by_cases ho : op = .store
  · subst ho
    rfl
  · simp only [State.sendRound, State.roundReq, State.reqDst, ho, if_false]
    rfl

/-- The state in which the lanes of `aord` have sent some requests; the block and the buckets as its accesses leave them. -/
def State.sentRound (b : Block) (tk : SMap Int) (qs : List Req) : State :=
  { s with
    w := s.w.awaits (s.w.pending ++ pendingOf (s.reqDst f op) dt qs)
    b := b
    tokens := tk
    reqs := s.reqs ++ qs
    inbox := s.inbox ++ qs.map fun q => .roundRequestArrive q.id
    ids := s.ids + 1 + qs.length }

theorem State.sentRound_concat (b : Block) (tk : SMap Int) (qs : List Req) (q : Req) :
    s.sentRound f op dt b tk (qs ++ [q]) =
      let u := s.sentRound f op dt b tk qs
      let t : State := { u with reqs := u.reqs ++ [q], inbox := u.inbox ++ [.roundRequestArrive q.id], ids := u.ids + 1 }
      if s.reqDst f op = .zero then t else t.setW { t.w with pending := t.w.pending ++ [(s.reqDst f op, dt.regs)] } := by
  have hreqs : s.reqs ++ (qs ++ [q]) = s.reqs ++ qs ++ [q] := (List.append_assoc ..).symm
  have hinbox : s.inbox ++ (qs ++ [q]).map (fun q => Instr.roundRequestArrive q.id) =
      s.inbox ++ qs.map (fun q => Instr.roundRequestArrive q.id) ++ [.roundRequestArrive q.id] := by
    rw [List.map_append, ← List.append_assoc]
    rfl
  have hids : s.ids + 1 + (qs ++ [q]).length = s.ids + 1 + qs.length + 1 := by
    rw [List.length_append]
    rfl
  unfold State.sentRound
  rw [pendingOf_concat, hreqs, hinbox, hids, ← List.append_assoc]
  dsimp only
  split
  · rw [List.append_nil]
  · rfl

/-- Requests of other lanes of the word do not change what a lane sends but its number. -/
theorem State.roundReq_sent {b : Block} (hb : s.b.Reached b) (tk : SMap Int) {qs : List Req} {l : Nat} (h : ∀ q ∈ qs, q.lane ≠ l) (va : W64)
    (p : Place) : s.roundReq f op dt acq bar bva (s.sentRound f op dt b tk qs) l va p =
      { s.roundReq f op dt acq bar bva s l va p with id := s.ids + 1 + qs.length } := by
  have hround : (s.sentRound f op dt b tk qs).roundOf bar = s.roundOf bar := by
    have hbar : (s.sentRound f op dt b tk qs).bar s.w.blk bar = s.bar s.w.blk bar :=
      State.bar_congr (s := s) (t := s.sentRound f op dt b tk qs) hb rfl rfl rfl _ _
    show (match s.w.arrivals.find? fun a => a.loc == bar with
      | some a => a.phase + 1
      | none => ((s.sentRound f op dt b tk qs).bar s.w.blk bar).phase) = s.roundOf bar
    rw [hbar]
    rfl
  have hreqs : (s.sentRound f op dt b tk qs).roundReqs bar (s.roundOf bar) l = s.roundReqs bar (s.roundOf bar) l := by
    have hnone : (qs.filter fun q => q.blk == s.w.blk && q.wv == s.w.idx && q.lane == l && q.bar == bar && q.round == s.roundOf bar) = [] :=
      List.filter_eq_nil_iff.2 fun q hq => by simp [h q hq]
    show ((s.reqs ++ qs).filter fun q => q.blk == s.w.blk && q.wv == s.w.idx && q.lane == l && q.bar == bar && q.round == s.roundOf bar) = _
    rw [List.filter_append, hnone, List.append_nil]
    rfl
  unfold State.roundReq
  rw [hround, hreqs]
  obtain ⟨wt, rt, live, rfl⟩ := hb
  rfl

/-- The requests of an `aord`, one per lane in lane order. -/
def State.roundSends (va : Nat → W64) (p : Nat → Place) : List Nat → List Req :=
  numbered fun n l => { s.roundReq f op dt acq bar bva s l (va l) (p l) with id := s.ids + 1 + n }

/-- What the lanes of `aord` send, in the state that its accesses leave. -/
theorem State.sendRounds {b : Block} (hb : s.b.Reached b) (tk : SMap Int) (va : Nat → W64) (p : Nat → Place) (ls : List Nat) (hn : ls.Nodup) :
    (ls.map fun l => (l, va l, p l)).foldl (fun u e => u.sendRound s f op dt acq bar bva e.1 e.2.1 e.2.2)
        { s with b := b, tokens := tk, ids := s.ids + 1 } =
      s.sentRound f op dt b tk (s.roundSends f op dt acq bar bva va p ls) := by
  have hstart : ({ s with b := b, tokens := tk, ids := s.ids + 1 } : State) = s.sentRound f op dt b tk [] := by
    unfold State.sentRound
    rw [pendingOf_nil]
    simp only [List.append_nil, List.map_nil, List.length_nil, Nat.add_zero]
    rfl
  rw [List.foldl_map, hstart]
  refine foldl_numbered (s.sentRound f op dt b tk) _ _ (fun _ _ => rfl) (fun qs l hl => ?_) ls hn
  rw [State.sendRound_eq, State.roundReq_sent s f op dt acq bar bva hb tk hl, State.sentRound_concat]
  rfl

end

/-- What the check of an access in the view or in die shared memory reads. -/
theorem State.check_congr {s t : State} (hb : s.b.Reached t.b) (hm : t.mem = s.mem) (hp : t.pf = s.pf) (he : t.exp = s.exp)
    (hmig : t.migration = s.migration) (hg : t.grps = s.grps) (hc : t.ctxs = s.ctxs) (acc : Acc) (dm : Bool) (a : W64) (n : Nat) (write : Bool) :
    t.check acc (objSp dm) a n write = s.check acc (objSp dm) a n write := by
  obtain ⟨wt, rt, live, hb⟩ := hb
  cases dm with
  | false =>
    have hctx : t.b.ctx = s.b.ctx := by rw [hb]
    have hmoves : ∀ c va, t.migrating c va = s.migrating c va := fun c va => by unfold State.migrating; rw [hmig]
    have hpf : t.pfNum = s.pfNum := funext fun o => by unfold State.pfNum; rw [hp]
    have hwin : ∀ pa, t.windowAt pa = s.windowAt pa := fun pa => by unfold State.windowAt; rw [hpf]
    have hpage : t.checkPage acc a.toNat n write = s.checkPage acc a.toNat n write := by
      unfold State.checkPage
      rw [hctx, hmoves, State.walk_congr hm hp he]
      simp only [hwin]
    simp only [State.check, objSp, Bool.false_eq_true, if_false, hpage]
  | true =>
    have hdsm : t.dsmOf = s.dsmOf := by simp only [State.dsmOf, hb, hg]
    have hen : t.xpEn = s.xpEn := by simp only [State.xpEn, State.xpCtx, State.pfNum, hp]
    have hrec : t.recorded t.b.ctx = s.recorded s.b.ctx := by simp only [State.recorded, State.modeBits, State.ctx, hb, hc]
    simp only [State.check, objSp, if_true, hdsm, hen, hrec]

/-- The line that an object takes is found alike when the tags, the R63 mark and the buckets alone have changed. -/
theorem State.objChk_reached {s : State} {b : Block} (hb : s.b.Reached b) (tk : SMap Int) (dm : Bool) (a : W64) :
    ({ s with b := b, tokens := tk } : State).objChk dm a = s.objChk dm a :=
  State.check_congr (s := s) (t := { s with b := b, tokens := tk }) hb rfl rfl rfl rfl rfl rfl _ _ _ _ _

/-- The state in which a word acts on an object's line: what it pays, and the R63 mark of a line outside die shared memory. -/
theorem State.atLine_eq (s : State) (dm : Bool) (a : W64) : s.atLines dm [0] (fun _ => a) =
    { s with b := if dm then s.b else { s.b with live := true }, tokens := s.paidFor 64 (s.objLines dm [0] fun _ => a) } := by
  show s.objGo dm (s.objLines dm [0] fun _ => a) = _
  unfold State.objGo
  dsimp only
  rw [s.pay_frame]
  cases dm <;> rfl

theorem State.roundBad_reached {s : State} {b : Block} (hb : s.b.Reached b) (tk : SMap Int) {dm : Bool} {c : Opnd}
    (hal : s.objLoc dm (s.objAddr dm c 0) % 64 = 0) (hbar : s.loc (s.objLoc dm (s.objAddr dm c 0)) 1 = 1) :
    ({ s with b := b, tokens := tk } : State).roundBad dm c = false := by
  have hloc : ({ s with b := b, tokens := tk } : State).objLoc dm (s.objAddr dm c 0) = s.objLoc dm (s.objAddr dm c 0) := by
    unfold State.objLoc
    rw [State.objChk_reached hb]
  have haddr : ({ s with b := b, tokens := tk } : State).objAddr dm c 0 = s.objAddr dm c 0 := by
    obtain ⟨wt, rt, live, rfl⟩ := hb
    rfl
  unfold State.roundBad
  rw [haddr, hloc]
  simp only [hal, bne_self_eq_false, Bool.false_or]
  exact bne_eq_false_iff_eq.2 hbar

/-- Where every check has passed, `aord` sends the requests of its lanes (R80). -/
theorem exec_aord_sends (s : State) (f : F) (op : AOp) (dt : DT) (dm acq rel : Bool) (scope : Scope) (b : Block) (p : Nat → Place) :
    let i := Instr.aord f op dt dm acq rel scope
    let act := s.active i
    let bar := s.objLoc dm (s.objAddr dm f.c 0)
    let va := s.laneAddr (objSp dm) f.a 0
    let u : State := { s with b := b.marked ((lanesOf act).map p), tokens := s.paidFor dt.bytes ((lanesOf act).map p) }
    s.Issues i → act ≠ 0 → s.Granted b (lanesOf act) id .obj (objSp dm) dt.bytes true true false va p →
    u.LinesPass dm true act [0] (fun _ => s.objAddr dm f.c 0) → bar % 64 = 0 → s.loc bar 1 = 1 →
    s.reqWaits [bar] rel dt.bytes (lanesOf act) ((lanesOf act).map fun l => (l, va l, p l)) = false →
    (∀ l ∈ lanesOf act, s.spillFull (p l).loc = false) →
    exec i s = .next (s.finishes (s.sentRound f op dt (if dm then u.b else { u.b with live := true })
      (u.paidFor 64 (u.objLines dm [0] fun _ => s.objAddr dm f.c 0))
      (s.roundSends f op dt acq bar (if dm then none else some (s.objAddr dm f.c 0).toNat) va p (lanesOf act))) i true) := by
  intro i act bar va u hI ha hg hl hal htag hw hroom
  have hreach : s.b.Reached (if dm then u.b else { u.b with live := true }) := by
    have hub : s.b.Reached u.b := hg.reached _
    cases dm
    · exact hub.live true
    · exact hub
  have hfull : ((lanesOf act).map fun l => (l, va l, p l)).any (fun e => s.spillFull e.2.2.loc) = false := by
    refine List.any_eq_false.2 fun e he => ?_
    obtain ⟨l, hl, rfl⟩ := List.mem_map.1 he
    rw [hroom l hl]
    decide
  have hat : u.atLines dm [lowLane act] (fun _ => s.objAddr dm f.c 0) = { s with
      b := if dm then u.b else { u.b with live := true }
      tokens := u.paidFor 64 (u.objLines dm [0] fun _ => s.objAddr dm f.c 0) } := u.atLine_eq dm (s.objAddr dm f.c 0)
  show execAord f op dt dm acq rel scope s = _
  refine word_done _ s _ hI ha ?_
  refine (hg.accessAll _).trans (((hl.named (lowLane act)).objThen _).trans ?_)
  dsimp only
  rw [hat, State.roundBad_reached hreach _ hal htag, hw, hfull]
  exact congrArg Res.done (s.sendRounds f op dt acq _ _ hreach _ _ p _ (lanesOf_nodup _))

/-! ### A round applies its requests (R80) -/

/-- No request stands before one of a lower issuer index. -/
def Ascending (rs : List Req) : Prop := rs.Pairwise fun x y => gidLt y.index x.index = false

theorem insertReq_perm (q : Req) (rs : List Req) : (insertReq q rs).Perm (q :: rs) := by
  induction rs with
  | nil => exact .refl _
  | cons x xs ih =>
    rw [insertReq]
    split
    · exact .refl _
    · exact (ih.cons x).trans (.swap q x xs)

theorem Ascending.insertReq {rs : List Req} (h : Ascending rs) (q : Req) : Ascending (insertReq q rs) := by
  induction rs with
  | nil => exact List.pairwise_singleton _ _
  | cons x xs ih =>
    obtain ⟨hx, hxs⟩ := List.pairwise_cons.1 h
    rw [Machine.insertReq]
    split
    · next hlt =>
      refine List.pairwise_cons.2 ⟨fun y hy => ?_, h⟩
      obtain rfl | hy := List.mem_cons.1 hy
      · exact gidLt_asymm _ _ hlt
      · refine Bool.eq_false_iff.2 fun hyq => ?_
        exact absurd (gidLt_trans _ _ _ hyq hlt) (Bool.eq_false_iff.1 (hx y hy))
    · next hge =>
      refine List.pairwise_cons.2 ⟨fun y hy => ?_, ih hxs⟩
      obtain rfl | hy := List.mem_cons.1 ((insertReq_perm q xs).mem_iff.1 hy)
      · exact Bool.eq_false_iff.2 hge
      · exact hx y hy

/-- Requests inserted one after another stand in issuer order, each once. -/
theorem foldl_insertReq (qs rs : List Req) (h : Ascending rs) :
    (qs.foldl (fun l q => insertReq q l) rs).Perm (rs ++ qs) ∧ Ascending (qs.foldl (fun l q => insertReq q l) rs) := by
  induction qs generalizing rs with
  | nil => exact ⟨by rw [List.append_nil]; exact .refl _, h⟩
  | cons q qs ih =>
    obtain ⟨hperm, hasc⟩ := ih _ (h.insertReq q)
    exact ⟨hperm.trans (((insertReq_perm q rs).append_right qs).trans List.perm_middle.symm), hasc⟩

/-! ### One request at its home (R230, R231, R401) -/

theorem leBytes_getD (n x k : Nat) (hk : k < n) : (leBytes n x).getD k 0 = BitVec.ofNat 8 (x / 256 ^ k) := by
  induction n generalizing x k with
  | zero => omega
  | succ n ih =>
    cases k with
    | zero => simp [leBytes]
    | succ k =>
      rw [leBytes, List.getD_cons_succ, ih _ _ (by omega), Nat.div_div_eq_div_mul, pow_succ']

/-- A byte of a number written at a location. -/
theorem State.peek_setLoc_at (s : State) (loc n x k : Nat) (hk : k < n) :
    (s.setLoc loc n x).peek (locCell loc k) = some (BitVec.ofNat 8 (x / 256 ^ k)) := by
  have hbyte : ∀ (m : Memory) (a : Nat), Memory.byte (Memory.setBytes m a (leBytes n x)) (a + k) = BitVec.ofNat 8 (x / 256 ^ k) := by
    intro m a
    rw [Memory.byte_setBytes, leBytes_length, if_pos (by omega), Nat.add_sub_cancel_left, leBytes_getD n x k hk]
  unfold State.setLoc State.setLocBytes locCell
  split
  · exact congrArg some (hbyte s.dsm _)
  · unfold State.writeDev
    exact congrArg some (hbyte _ loc)

/-- A byte that a write at a location does not reach. -/
theorem State.peek_setLoc_apart (s : State) (loc n x : Nat) (c : MemCell) (h : ∀ k < n, locCell loc k ≠ c) :
    (s.setLoc loc n x).peek c = s.peek c := by
  unfold State.setLoc State.setLocBytes
  unfold locCell at h
  split
  · next hd =>
    refine s.peek_writeDsm _ _ _ fun k hk e => h k (by rwa [leBytes_length] at hk) ?_
    rw [if_pos hd, e]
  · next hd =>
    refine s.peek_writeDev _ _ _ fun k hk e => h k (by rwa [leBytes_length] at hk) ?_
    rw [if_neg hd, e]

theorem State.peek_reply (s : State) (q : Req) (old : Nat) (fl : Fl) (x : Option Nat) (c : MemCell) : (s.reply q old fl x).peek c = s.peek c := by
  cases c <;> rfl

/-- The reply that goes back to a request's lane. -/
theorem State.reply_answers (s : State) (q : Req) (old : Nat) (fl : Fl) (poison : Option Nat) : ∃ x : Reply,
    (s.reply q old fl poison).replies = s.replies ++ [x] ∧ (s.reply q old fl poison).inbox = s.inbox ++ [.memoryReply x.id] ∧
    x.blk = q.blk ∧ x.wv = q.wv ∧ x.lane = q.lane ∧ x.src = locDie q.loc ∧ x.word = q.word ∧ x.acq = q.acq ∧ x.dst = q.dst ∧
    x.poison = poison ∧ x.flags = fl ∧ (q.dst ≠ .zero → x.regs = bytesRegs q.dt.regs old) := by
  refine ⟨_, rfl, rfl, rfl, rfl, rfl, rfl, rfl, rfl, rfl, rfl, rfl, fun hd => ?_⟩
  dsimp only
  split
  · next hz => exact absurd hz hd
  · rfl

section
variable {s : State} {q : Req}

/-- Whether a request reads a poisoned location. -/
def State.readsBad (s : State) (q : Req) : Prop := q.op ≠ .store ∧ s.poisoned q.loc q.dt.bytes = true

/-- What a request leaves and its flags. -/
def State.reqResult (s : State) (q : Req) : Nat × Fl := aluOp q.op q.dt q.fmode (s.loc q.loc q.dt.bytes) q.b.toNat q.c.toNat

theorem State.applyReq_bad (h : s.readsBad q) : s.applyReq q = s.reply q (s.loc q.loc q.dt.bytes) 0 (some q.loc) := by
  obtain ⟨hop, hp⟩ := h
  unfold State.applyReq
  simp [hop, hp]

/-- A request that is performed writes unless it is a load, and answers the old value. -/
theorem State.applyReq_performed (h : ¬ s.readsBad q) : s.applyReq q =
    (if q.op = .load then s else s.setLoc q.loc q.dt.bytes (s.reqResult q).1).reply q (s.loc q.loc q.dt.bytes) (s.reqResult q).2 none := by
  have hgoes : (q.op != .store && s.poisoned q.loc q.dt.bytes) = false := by
    rw [Bool.and_eq_false_imp]
    exact fun hop => Bool.eq_false_iff.2 fun hp => h ⟨bne_iff_ne.1 hop, hp⟩
  unfold State.applyReq
  simp only [hgoes, Bool.false_eq_true, if_false, beq_iff_eq]
  rfl

/-- What the request leaves at its location. -/
theorem State.peek_applyReq_at (h : ¬ s.readsBad q) (hop : q.op ≠ .load) (k : Nat) (hk : k < q.dt.bytes) :
    (s.applyReq q).peek (locCell q.loc k) = some (BitVec.ofNat 8 ((s.reqResult q).1 / 256 ^ k)) := by
  rw [State.applyReq_performed h, State.peek_reply, if_neg hop, State.peek_setLoc_at _ _ _ _ _ hk]

/-- No byte changes but those it writes. -/
theorem State.peek_applyReq_apart (c : MemCell) (h : s.readsBad q ∨ q.op = .load ∨ ∀ k < q.dt.bytes, locCell q.loc k ≠ c) :
    (s.applyReq q).peek c = s.peek c := by
  by_cases hbad : s.readsBad q
  · rw [State.applyReq_bad hbad, State.peek_reply]
  · rw [State.applyReq_performed hbad, State.peek_reply]
    split
    · rfl
    · next hop => exact s.peek_setLoc_apart _ _ _ c ((h.resolve_left hbad).resolve_left hop)

/-- The answer of a request: the old value, or the poison (R401). -/
theorem State.applyReq_answers (s : State) (q : Req) : ∃ x : Reply,
    (s.applyReq q).replies = s.replies ++ [x] ∧ (s.applyReq q).inbox = s.inbox ++ [.memoryReply x.id] ∧
    x.blk = q.blk ∧ x.wv = q.wv ∧ x.lane = q.lane ∧ x.src = locDie q.loc ∧ x.word = q.word ∧ x.acq = q.acq ∧ x.dst = q.dst ∧
    (s.readsBad q → x.poison = some q.loc) ∧
    (¬ s.readsBad q → x.poison = none ∧ x.flags = (s.reqResult q).2 ∧
      (q.dst ≠ .zero → x.regs = bytesRegs q.dt.regs (s.loc q.loc q.dt.bytes))) := by
  by_cases hbad : s.readsBad q
  · obtain ⟨x, hx, hin, hblk, hwv, hlane, hsrc, hword, hacq, hdst, hpoison, -⟩ := s.reply_answers q (s.loc q.loc q.dt.bytes) 0 (some q.loc)
    rw [State.applyReq_bad hbad]
    exact ⟨x, hx, hin, hblk, hwv, hlane, hsrc, hword, hacq, hdst, fun _ => hpoison, fun h => absurd hbad h⟩
  · let u := if q.op = .load then s else s.setLoc q.loc q.dt.bytes (s.reqResult q).1
    obtain ⟨x, hx, hin, hblk, hwv, hlane, hsrc, hword, hacq, hdst, hres⟩ := u.reply_answers q (s.loc q.loc q.dt.bytes) (s.reqResult q).2 none
    have hu : u.replies = s.replies ∧ u.inbox = s.inbox := by
      obtain ⟨m, d, cs, p, hset⟩ := s.setLoc_frame q.loc q.dt.bytes (s.reqResult q).1
      dsimp only [u]
      rw [hset]
      split <;> exact ⟨rfl, rfl⟩
    rw [hu.1] at hx
    rw [hu.2] at hin
    rw [State.applyReq_performed hbad]
    exact ⟨x, hx, hin, hblk, hwv, hlane, hsrc, hword, hacq, hdst, fun h => absurd h hbad, fun _ => hres⟩

end

/-- Settles O25: the requests that `aord` sends, the order in which a round applies them, and what each leaves and answers. -/
theorem orderedAtomics : Obligations.OrderedAtomics := by
  unfold Obligations.OrderedAtomics
  refine ⟨fun s f op dt dm acq rel scope b p => ?_, fun s loc phase => ?_, fun s q => ⟨?_, ?_, s.applyReq_answers q⟩⟩
  · intro i act bar round dst va u hI ha hg hl hal htag hw hroom
    refine ⟨_, s.roundSends f op dt acq bar (if dm then none else some (s.objAddr dm f.c 0).toNat) va p (lanesOf act),
      (exec_aord_sends s f op dt dm acq rel scope b p hI ha hg hl hal htag hw hroom).trans (congrArg _ (State.finishes_awaits s _ _ _ rfl)),
      numbered_lane _ _ fun _ _ => rfl, numbered_id _ _ _ fun _ _ => rfl, fun q hq => ?_, rfl⟩
    obtain ⟨n, l, -, rfl⟩ := mem_numbered hq
    exact ⟨rfl, rfl, rfl, rfl, rfl, rfl, rfl, rfl, rfl, rfl, rfl, rfl, rfl, rfl, rfl, rfl, rfl⟩
  · intro mine
    obtain ⟨hperm, hasc⟩ := foldl_insertReq (s.reqs.filter mine) [] List.Pairwise.nil
    exact ⟨_, hperm, hasc, rfl⟩
  · exact fun hbad hop k hk => State.peek_applyReq_at hbad hop k hk
  · exact fun c h => State.peek_applyReq_apart c h

end Machine
end Sys2Proof
end

section
/-! SUPPORT. Requests to order gates (R94, R121, R231): what `afree` hands on in recorded mode, and its trap elsewhere. -/

namespace Sys2Proof
open Machine
namespace Machine

/-! ### `afree` (R94, R121, R231) -/

section
variable (s : State) (f : F) (op : AOp) (dt : DT) (acq : Bool)

/-- The request that a lane of `afree` sends in state `u`, the word issued in `s`. -/
def State.gateReq (u : State) (l : Nat) (va : W64) (p : Place) : Req :=
  { id := u.ids, src := u.homeOf.1, word := s.ids, ctx := u.b.ctx, blk := u.w.blk, wv := u.w.idx, lane := l,
    index := idKey u.b.gid [u.w.idx, l], ident := identField u.b u.w.idx, bar := 0, round := 0, bva := none, loc := p.loc, va := va,
    op := op, dt := dt, b := BitVec.ofNat 64 (s.dtOpnd dt f.b l), c := BitVec.ofNat 64 (s.dtOpnd dt f.c l), dst := u.reqDst f op,
    fmode := u.w.sp.fmode, held := false, spilled := false, far := false, acq := acq, lock := false }

/-- A lane sends its request: it stands last, its event is due, and its destination awaits the result. -/
theorem State.sendFree_eq (u : State) (l : Nat) (va : W64) (p : Place) : u.sendFree s f op dt acq l va p =
    let q := s.gateReq f op dt acq u l va p
    let t : State := { u with gate := u.gate ++ [q], inbox := u.inbox ++ [.gateAdmit q.id], ids := u.ids + 1 }
    if u.reqDst f op = .zero then t else t.setW { t.w with pending := t.w.pending ++ [(u.reqDst f op, dt.regs)] } := rfl

/-- The state in which the lanes of `afree` have sent some requests; the block and the buckets as its accesses leave them. -/
def State.sentGate (b : Block) (tk : SMap Int) (qs : List Req) : State :=
  { s with
    w := s.w.awaits (s.w.pending ++ pendingOf (s.reqDst f op) dt qs)
    b := b
    tokens := tk
    gate := s.gate ++ qs
    inbox := s.inbox ++ qs.map fun q => .gateAdmit q.id
    ids := s.ids + 1 + qs.length }

theorem State.sentGate_nil (b : Block) (tk : SMap Int) :
    s.sentGate f op dt b tk [] = { s with b := b, tokens := tk, ids := s.ids + 1 } := by
  unfold State.sentGate
  rw [pendingOf_nil]
  simp only [List.append_nil, List.map_nil, List.length_nil, Nat.add_zero]
  rfl

theorem State.sentGate_concat (b : Block) (tk : SMap Int) (qs : List Req) (q : Req) :
    s.sentGate f op dt b tk (qs ++ [q]) =
      let u := s.sentGate f op dt b tk qs
      let t : State := { u with gate := u.gate ++ [q], inbox := u.inbox ++ [.gateAdmit q.id], ids := u.ids + 1 }
      if s.reqDst f op = .zero then t else t.setW { t.w with pending := t.w.pending ++ [(s.reqDst f op, dt.regs)] } := by
  have hgate : s.gate ++ (qs ++ [q]) = s.gate ++ qs ++ [q] := (List.append_assoc ..).symm
  have hinbox : s.inbox ++ (qs ++ [q]).map (fun q => Instr.gateAdmit q.id) =
      s.inbox ++ qs.map (fun q => Instr.gateAdmit q.id) ++ [.gateAdmit q.id] := by
    rw [List.map_append, ← List.append_assoc]
    rfl
  have hids : s.ids + 1 + (qs ++ [q]).length = s.ids + 1 + qs.length + 1 := by
    rw [List.length_append]
    rfl
  unfold State.sentGate
  rw [pendingOf_concat, hgate, hinbox, hids, ← List.append_assoc]
  dsimp only
  split
  · rw [List.append_nil]
  · rfl

/-- Requests of other lanes of the word do not change what a lane sends but its number. -/
theorem State.gateReq_sent {b : Block} (hb : s.b.Reached b) (tk : SMap Int) (qs : List Req) (l : Nat) (va : W64) (p : Place) :
    s.gateReq f op dt acq (s.sentGate f op dt b tk qs) l va p = { s.gateReq f op dt acq s l va p with id := s.ids + 1 + qs.length } := by
  obtain ⟨wt, rt, live, rfl⟩ := hb
  rfl

/-- The requests of an `afree`, one per lane in lane order. -/
def State.gateSends (va : Nat → W64) (p : Nat → Place) : List Nat → List Req :=
  numbered fun n l => { s.gateReq f op dt acq s l (va l) (p l) with id := s.ids + 1 + n }

/-- What the lanes of `afree` send, in the state that its accesses leave. -/
theorem State.sendFrees {b : Block} (hb : s.b.Reached b) (tk : SMap Int) (va : Nat → W64) (p : Nat → Place) (ls : List Nat) (hn : ls.Nodup) :
    (ls.map fun l => (l, va l, p l)).foldl (fun u e => u.sendFree s f op dt acq e.1 e.2.1 e.2.2)
        { s with b := b, tokens := tk, ids := s.ids + 1 } =
      s.sentGate f op dt b tk (s.gateSends f op dt acq va p ls) := by
  rw [List.foldl_map, ← State.sentGate_nil s f op dt]
  refine foldl_numbered (s.sentGate f op dt b tk) _ _ (fun _ _ => rfl) (fun qs l _ => ?_) ls hn
  rw [State.sendFree_eq, State.gateReq_sent s f op dt acq hb tk, State.sentGate_concat]
  rfl

end

/-- In a context of recorded mode `afree` sends the requests of its lanes, once its checks have passed. -/
theorem exec_afree_sends (s : State) (f : F) (op : AOp) (dt : DT) (dm acq rel : Bool) (scope : Scope) (b : Block) (p : Nat → Place) :
    let i := Instr.afree f op dt dm acq rel scope
    let act := s.active i
    let va := s.laneAddr (objSp dm) f.a 0
    s.Issues i → act ≠ 0 → s.Granted b (lanesOf act) id .obj (objSp dm) dt.bytes true true false va p → s.recorded s.b.ctx = true →
    s.reqWaits [] rel dt.bytes (lanesOf act) ((lanesOf act).map fun l => (l, va l, p l)) = false →
    exec i s = .next (s.finishes (s.sentGate f op dt (b.marked ((lanesOf act).map p)) (s.paidFor dt.bytes ((lanesOf act).map p))
      (s.gateSends f op dt acq va p (lanesOf act))) i true) := by
  intro i act va hI ha hg hrec hw
  show execAfree f op dt dm acq rel scope s = _
  refine word_done _ s _ hI ha ?_
  rw [if_pos hrec]
  refine (hg.accessAll _).trans ?_
  rw [hw]
  exact congrArg Res.done (s.sendFrees f op dt acq (hg.reached _) _ _ p _ (lanesOf_nodup _))

/-- A page that takes the requests of order gates is of no class that is reached where they are shut (R121). -/
theorem State.checkPage_shut {s : State} {va n : Nat} {write : Bool} {p : Place} (h : s.checkPage .obj va n write = .ok p) :
    s.checkPage .shut va n write = .bad 4 5 := by
  unfold State.checkPage at h ⊢
  split at h
  · cases h
  · next hmoves =>
    rw [if_neg hmoves]
    cases hwalk : s.walk s.b.ctx va with
    | missing => simp [hwalk] at h
    | malformed => simp [hwalk] at h
    | leaf l =>
      simp only [hwalk] at h ⊢
      cases hcls : l.cls <;> simp_all

theorem State.check_shut {s : State} {dm write : Bool} {a : W64} {n : Nat} {p : Place} (h : s.check .obj (objSp dm) a n write = .ok p) :
    s.check .shut (objSp dm) a n write = .bad 4 5 := by
  unfold State.check at h ⊢
  split at h
  · cases h
  · next hal =>
    rw [if_neg hal]
    cases dm <;> simp only [objSp, Bool.false_eq_true, if_false, if_true] at h ⊢ <;> split at h
    · cases h
    · next hin => exact (if_neg hin).trans (State.checkPage_shut h)
    · cases h
    · next hin => exact if_neg hin

/-- Where every access fails the class check, the first one given fails the word. -/
theorem firstFail_head (c : Nat × W64 × Chk) (cs : List (Nat × W64 × Chk)) (h : ∀ x ∈ c :: cs, x.2.2 = .bad 4 5) :
    firstFail (c :: cs) = some c := by
  have hlow : ∀ xs : List (Nat × W64 × Chk), (∀ x ∈ xs, x.2.2 = .bad 4 5) → xs.foldl (fun m c => min m c.2.2.failStep) 4 = 4 := by
    intro xs hx
    induction xs with
    | nil => rfl
    | cons x xs ih =>
      obtain ⟨hhead, htail⟩ := List.forall_mem_cons.1 hx
      rw [List.foldl_cons, hhead]
      exact ih htail
  obtain ⟨hhead, htail⟩ := List.forall_mem_cons.1 h
  unfold firstFail
  dsimp only
  rw [List.foldl_cons, hhead, show min 6 (Chk.bad 4 5).failStep = 4 from rfl, hlow cs htail, if_neg (by decide)]
  exact List.find?_cons_of_pos (by rw [hhead]; rfl)

theorem lanesOf_cons {m : Mask} (h : m ≠ 0) : ∃ ls, lanesOf m = lowLane m :: ls := by
  have hne : lanesOf m ≠ [] := fun he => h <| BitVec.eq_of_getLsbD_eq fun l hl => by
    have hnot : l ∉ lanesOf m := by rw [he]; exact List.not_mem_nil
    simpa [mem_lanesOf, hl] using hnot
  obtain ⟨l, ls, hls⟩ := List.exists_cons_of_ne_nil hne
  exact ⟨ls, by rw [lowLane, hls]; rfl⟩

/-- Where the order gates are shut, a word whose accesses they would take traps in its lowest lane. -/
theorem State.Granted.accessAll_shut {s : State} {b : Block} {m : Mask} {dm : Bool} {n : Nat} {reads : Bool} {addr : Nat → W64}
    {p : Nat → Place} (h : s.Granted b (lanesOf m) id .obj (objSp dm) n reads true false addr p) (hm : m ≠ 0)
    (k : State → List (Nat × W64 × Place) → Res) : s.accessAll (lanesOf m) .shut (objSp dm) n reads true false addr k =
      .trap s (.of 5 (accInfo 0 true (objSp dm) (lowLane m)) (addr (lowLane m))) := by
  obtain ⟨ls, hls⟩ := lanesOf_cons hm
  have hcs : ((lanesOf m).map fun l => (l, addr l, s.check .shut (objSp dm) (addr l) n true)) =
      (lowLane m, addr (lowLane m), .bad 4 5) :: ls.map fun l => (l, addr l, .bad 4 5) := by
    rw [List.map_congr_left fun l hl => by rw [State.check_shut (h.checks l hl)], hls]
    rfl
  have hfirst := firstFail_head (lowLane m, addr (lowLane m), .bad 4 5) (ls.map fun l => (l, addr l, .bad 4 5)) (by simp)
  unfold State.accessAll
  simp only [Bool.false_and, Bool.false_eq_true, if_false]
  rw [hcs, hfirst]
  rfl

/-- Settles O26: the requests that `afree` sends in recorded mode, and the class check that its first lane fails otherwise. -/
theorem freeRequests : Obligations.FreeRequests := by
  unfold Obligations.FreeRequests
  intro s f op dt dm acq rel scope b p i act va dst u hI ha hg
  refine ⟨fun hrec hw => ?_, fun hrec hr => ?_⟩
  · refine ⟨_, s.gateSends f op dt acq va p (lanesOf act), (exec_afree_sends s f op dt dm acq rel scope b p hI ha hg hrec hw).trans
      (congrArg _ (State.finishes_awaits s _ _ _ rfl)), numbered_lane _ _ fun _ _ => rfl, numbered_id _ _ _ fun _ _ => rfl, fun q hq => ?_, rfl⟩
    obtain ⟨n, l, -, rfl⟩ := mem_numbered hq
    exact ⟨rfl, rfl, rfl, rfl, rfl, rfl, rfl, rfl, rfl, rfl, rfl, rfl, rfl, rfl⟩
  · show execAfree f op dt dm acq rel scope s = _
    refine word_trap _ s _ hI ha hr ?_
    rw [hrec]
    exact hg.accessAll_shut ha _

end Machine
end Sys2Proof
end

section
/-! SUPPORT. Words on the lines of objects (R79, R85, R89, R96, R217, R363): what a word reads once its lines have passed, and the frame of
the lock words. -/

namespace Sys2Proof
open Machine
namespace Machine

/-! ### What a word sees once its lines have passed -/

section
variable (s : State) (dm : Bool) (ls : List Nat) (addr : Nat → W64)

/-- Reaching lines pays for the messages and marks the block, and changes nothing else. -/
theorem State.atLines_frame : ∃ live tk, s.atLines dm ls addr = { s with b := { s.b with live := live }, tokens := tk } := by
  unfold State.atLines State.objGo
  dsimp only
  rw [s.pay_frame]
  split
  · exact ⟨s.b.live, _, rfl⟩
  · exact ⟨true, _, rfl⟩

@[simp] theorem State.atLines_w : (s.atLines dm ls addr).w = s.w := by
  obtain ⟨live, tk, h⟩ := s.atLines_frame dm ls addr
  rw [h]

@[simp] theorem State.atLines_run : (s.atLines dm ls addr).run = s.run := by
  obtain ⟨live, tk, h⟩ := s.atLines_frame dm ls addr
  rw [h]

@[simp] theorem State.atLines_ids : (s.atLines dm ls addr).ids = s.ids := by
  obtain ⟨live, tk, h⟩ := s.atLines_frame dm ls addr
  rw [h]

@[simp] theorem State.atLines_pc : (s.atLines dm ls addr).pc = s.pc := by
  obtain ⟨live, tk, h⟩ := s.atLines_frame dm ls addr
  rw [h]
  rfl

@[simp] theorem State.atLines_loc (loc n : Nat) : (s.atLines dm ls addr).loc loc n = s.loc loc n := by
  obtain ⟨live, tk, h⟩ := s.atLines_frame dm ls addr
  rw [h]
  rfl

@[simp] theorem State.atLines_peek (c : MemCell) : (s.atLines dm ls addr).peek c = s.peek c := by
  obtain ⟨live, tk, h⟩ := s.atLines_frame dm ls addr
  rw [h]
  cases c <;> rfl

@[simp] theorem State.atLines_opnd (o : Opnd) (n l : Nat) : (s.atLines dm ls addr).opnd o n l = s.opnd o n l := by
  obtain ⟨live, tk, h⟩ := s.atLines_frame dm ls addr
  rw [h]
  cases o with
  | sr r => cases r <;> rfl
  | _ => rfl

@[simp] theorem State.atLines_opnd64 (o : Opnd) (l : Nat) : (s.atLines dm ls addr).opnd64 o l = s.opnd64 o l := by
  unfold State.opnd64
  rw [State.atLines_opnd]

@[simp] theorem State.atLines_releaseBusy (bars lanes : List Nat) :
    (s.atLines dm ls addr).releaseBusy bars lanes = s.releaseBusy bars lanes := by
  obtain ⟨live, tk, h⟩ := s.atLines_frame dm ls addr
  rw [h]
  rfl

@[simp] theorem State.atLines_recorded : (s.atLines dm ls addr).recorded (s.atLines dm ls addr).b.ctx = s.recorded s.b.ctx := by
  obtain ⟨live, tk, h⟩ := s.atLines_frame dm ls addr
  rw [h]
  rfl

@[simp] theorem State.atLines_isLock (loc p : Nat) : (s.atLines dm ls addr).isLock loc p = s.isLock loc p := by
  simp only [State.isLock, State.atLines_loc]

@[simp] theorem State.atLines_isFree (loc : Nat) : (s.atLines dm ls addr).isFree loc = s.isFree loc := by
  simp only [State.isFree, State.atLines_loc, State.atLines_recorded]

end

/-! ### The lock words (R105, R106, R110) -/

theorem State.tryNow_done (s : State) (r : WaitR) (h : (s.tryWait s.w.key r).2.done = true) :
    s.tryNow r = .did (s.tryWait s.w.key r).1 (s.tryWait s.w.key r).2.res := if_pos h

/-- A wait that is not satisfied at its issue stays open. -/
theorem State.tryNow_open (s : State) (r : WaitR) (h : (s.tryWait s.w.key r).2.done = false) : s.tryNow r = .wait r :=
  if_neg (Bool.eq_false_iff.1 h)

/-- The wait of a lock word: its lowest active lane's, on the line at a location, as participant `p`. -/
def State.lockWait (s : State) (k : WaitKind) (act : Mask) (loc : Nat) (va : W64) (aux : Nat) (d : Opnd) : WaitR :=
  ⟨k, lowLane act, loc, va, 0, aux, d, act, [], false, false, [], s.pc⟩

theorem State.atLines_waitOf (s : State) (dm : Bool) (ls : List Nat) (addr : Nat → W64) (k : WaitKind) (act : Mask) (loc : Nat) (va : W64)
    (aux : Nat) (d : Opnd) : (s.atLines dm ls addr).waitOf k (lowLane act) loc va 0 aux d act [] = s.lockWait k act loc va aux d := by
  unfold State.waitOf State.lockWait
  rw [State.atLines_pc]

section
variable {s : State} {f : F} {dm : Bool}

/-- What a lock word acts on: its line passes, its word is issued, a lane is active. -/
structure State.LockRuns (s : State) (f : F) (dm reads : Bool) (i : Instr) : Prop where
  line : s.LinesPass dm reads (s.active i) [0] fun _ => s.objAddr dm f.a 0
  issues : s.Issues i
  some : s.active i ≠ 0

/-- The state in which a lock word acts, and the location of its lock. -/
def State.atLock (s : State) (f : F) (dm : Bool) : State := s.atLines dm [0] fun _ => s.objAddr dm f.a 0
def State.lockLoc (s : State) (f : F) (dm : Bool) : Nat := s.objLoc dm (s.objAddr dm f.a 0)

/-- The frame of a lock word whose line passes. -/
theorem State.LockRuns.lockThen {reads : Bool} {i : Instr} (h : s.LockRuns f dm reads i) (k : State → Nat → W64 → Res) :
    s.lockThen dm reads (s.active i) f.a k = (k (s.atLock f dm) (s.lockLoc f dm) (s.objAddr dm f.a 0)).waitsIn s :=
  (h.line.named (lowLane (s.active i))).objThen _

theorem exec_olacq {scope : Scope} (h : s.LockRuns f dm true (.olacq f dm scope)) (hl : s.isLock (s.lockLoc f dm) (s.opnd f.b 1 0) = true) :
    let act := s.active (.olacq f dm scope)
    let q := (s.atLock f dm).tryWait s.w.key (s.lockWait .acq act (s.lockLoc f dm) (s.objAddr dm f.a 0) (s.opnd f.b 1 0) f.d)
    exec (.olacq f dm scope) s = .next (s.finishes (q.1.park act [q.2] false).wake (.olacq f dm scope) false) := by
  show execOlacq f dm scope s = _
  refine word_moved _ s _ h.issues h.some ((h.lockThen _).trans ?_)
  simp only [State.atLock, State.atLines_isLock, State.atLines_opnd, State.atLines_w, State.atLines_waitOf, hl]
  rfl

theorem exec_olrel {scope : Scope} (h : s.LockRuns f dm true (.olrel f dm scope)) (hl : s.isLock (s.lockLoc f dm) (s.opnd f.b 1 0) = true)
    (hheld : s.loc (s.lockLoc f dm + 1) 1 % 2 = 1) (hturn : s.loc (s.lockLoc f dm + 0x10) 4 = s.opnd f.b 1 0)
    (hg : (s.lockLoc f dm, false) ∈ s.w.grants) (hidle : s.releaseBusy [] (lanesOf (s.active (.olrel f dm scope))) = false) :
    exec (.olrel f dm scope) s = .next (s.finishes
      (((s.atLock f dm).ungrant s.w.key (s.lockLoc f dm) false).lockRelease (s.lockLoc f dm) false).wake (.olrel f dm scope) true) := by
  have hok : (s.isLock (s.lockLoc f dm) (s.opnd f.b 1 0) && s.loc (s.lockLoc f dm + 1) 1 % 2 == 1 &&
      s.loc (s.lockLoc f dm + 0x10) 4 == s.opnd f.b 1 0 && s.w.grants.contains (s.lockLoc f dm, false)) = true := by
    simp [hl, hheld, hturn, hg]
  show execOlrel f dm scope s = _
  refine word_done _ s _ h.issues h.some ((h.lockThen _).trans ?_)
  simp only [State.atLock, State.atLines_isLock, State.atLines_opnd, State.atLines_w, State.atLines_loc, State.atLines_releaseBusy, hidle, hok]
  rfl

/-- A pass at its turn advances the lock; any other waits. -/
theorem exec_olrelPass {scope : Scope} (h : s.LockRuns f dm true (.olrelPass f dm scope))
    (hl : s.isLock (s.lockLoc f dm) (s.opnd f.b 1 0) = true)
    (hidle : s.releaseBusy [] (lanesOf (s.active (.olrelPass f dm scope))) = false) :
    let i := Instr.olrelPass f dm scope
    let r := s.lockWait .pass (s.active i) (s.lockLoc f dm) (s.objAddr dm f.a 0) (s.opnd f.b 1 0) .zero
    (s.atTurn r → exec i s = .next (s.finishes ((s.atLock f dm).lockAdvance (s.lockLoc f dm)).wake i true)) ∧
    (¬ s.atTurn r → exec i s = .next (s.finishes ((s.atLock f dm).park (s.active i) [r] false) i false)) := by
  intro i r
  have hturn : (s.atLock f dm).atTurn r ↔ s.atTurn r := by simp only [State.atTurn, State.atLock, State.atLines_loc]
  refine ⟨fun ht => ?_, fun ht => ?_⟩
  · have htry := tryWait_pass (k := (s.atLock f dm).w.key) (s := s.atLock f dm) (r := r) rfl rfl (hturn.2 ht)
    have hnow := (s.atLock f dm).tryNow_done r (by rw [htry]; rfl)
    rw [htry, satisfy_fst _ _ _ _ rfl] at hnow
    show execOlrelPass f dm scope s = _
    refine word_done _ s _ h.issues h.some ((h.lockThen _).trans ?_)
    simp only [State.atLock, State.atLines_isLock, State.atLines_opnd, State.atLines_releaseBusy, State.atLines_waitOf, hl, hidle] at hnow ⊢
    rw [hnow]
    rfl
  · have htry := tryWait_not_turn (k := (s.atLock f dm).w.key) (s := s.atLock f dm) (r := r) rfl (.inr rfl) (fun h => ht (hturn.1 h))
    have hnow := (s.atLock f dm).tryNow_open r (by rw [htry]; rfl)
    show execOlrelPass f dm scope s = _
    refine word_moved _ s _ h.issues h.some ((h.lockThen _).trans ?_)
    simp only [State.atLock, State.atLines_isLock, State.atLines_opnd, State.atLines_releaseBusy, State.atLines_waitOf, hl, hidle] at hnow ⊢
    rw [hnow]
    rfl

theorem exec_olrelInit_ordered {scope : Scope} (h : s.LockRuns f dm false (.olrelInit f dm scope false)) (ha : s.lockLoc f dm % 64 = 0)
    (h1 : 1 ≤ s.opnd f.b 1 0) (h2 : s.opnd f.b 1 0 ≤ 0xFFFFFFFE) :
    exec (.olrelInit f dm scope false) s = .next (s.finishes ((s.atLock f dm).initLine (s.lockLoc f dm)
      (leBytes 1 3 ++ leBytes 3 0 ++ leBytes 4 (s.opnd f.b 1 0) ++ leBytes 56 0)) (.olrelInit f dm scope false) true) := by
  have hok : npartOk (s.opnd f.b 1 0) = true := by simp [npartOk, h1, h2]
  show execOlrelInit f dm scope false s = _
  refine word_done _ s _ h.issues h.some ((h.lockThen _).trans ?_)
  simp only [State.atLock, State.atLines_opnd, ha, hok]
  rfl

theorem exec_olrelInit_free {scope : Scope} (h : s.LockRuns f dm false (.olrelInit f dm scope true)) (ha : s.lockLoc f dm % 64 = 0)
    (hrec : s.recorded s.b.ctx = true) :
    exec (.olrelInit f dm scope true) s = .next (s.finishes ((s.atLock f dm).initLine (s.lockLoc f dm) (leBytes 64 5))
      (.olrelInit f dm scope true) true) := by
  show execOlrelInit f dm scope true s = _
  refine word_done _ s _ h.issues h.some ((h.lockThen _).trans ?_)
  simp only [State.atLock, State.atLines_recorded, ha, hrec]
  rfl

theorem exec_olacqFree {scope : Scope} (h : s.LockRuns f dm true (.olacqFree f dm scope)) (hl : s.isFree (s.lockLoc f dm) = true) :
    let act := s.active (.olacqFree f dm scope)
    exec (.olacqFree f dm scope) s = .next (s.finishes (((s.atLock f dm).sendGate 0 (lowLane act) (s.lockLoc f dm) (s.objAddr dm f.a 0)
      .swap .n64 0 0 .zero true true).park act [s.lockWait .free act (s.lockLoc f dm) (s.objAddr dm f.a 0) s.ids f.d] false)
      (.olacqFree f dm scope) false) := by
  show execOlacqFree f dm scope s = _
  refine word_moved _ s _ h.issues h.some ((h.lockThen _).trans ?_)
  simp only [State.atLock, State.atLines_isFree, State.atLines_waitOf, State.fresh, State.atLines_ids, hl]
  rfl

theorem exec_olrelFree {scope : Scope} (h : s.LockRuns f dm true (.olrelFree f dm scope)) (hl : s.isFree (s.lockLoc f dm) = true)
    (hg : (s.lockLoc f dm, true) ∈ s.w.grants) (hidle : s.releaseBusy [] (lanesOf (s.active (.olrelFree f dm scope))) = false) :
    exec (.olrelFree f dm scope) s = .next (s.finishes
      (((s.atLock f dm).setW { (s.atLock f dm).w with grants := (s.atLock f dm).w.grants.erase (s.lockLoc f dm, true) }).sendGate 0
        (lowLane (s.active (.olrelFree f dm scope))) (s.lockLoc f dm) (s.objAddr dm f.a 0) .store .n64 0 0 .zero false true)
      (.olrelFree f dm scope) true) := by
  have hok : (s.isFree (s.lockLoc f dm) && s.w.grants.contains (s.lockLoc f dm, true)) = true := by simp [hl, hg]
  show execOlrelFree f dm scope s = _
  refine word_done _ s _ h.issues h.some ((h.lockThen _).trans ?_)
  simp only [State.atLock, State.atLines_w, State.atLines_isFree, State.atLines_releaseBusy, hidle, hok]
  rfl

end

/-! ### The release of an ordered lock (R106, R107) -/

/-- The state of a lock between the release of its holder and its advance: HELD clear, ABANDONED kept or set, HOLDW 0. -/
def State.lockFreed (s : State) (loc : Nat) (abandon : Bool) : State :=
  (s.setLoc (loc + 1) 1 (s.loc (loc + 1) 1 / 4 * 4 + if abandon then 2 else s.loc (loc + 1) 1 / 2 % 2 * 2)).setLoc (loc + 0x14) 4 0

theorem State.lockRelease_eq (s : State) (loc : Nat) (abandon : Bool) : s.lockRelease loc abandon = (s.lockFreed loc abandon).lockAdvance loc := rfl

section
variable (s : State) {loc : Nat} (abandon : Bool) (ha : loc % 64 = 0)
include ha

theorem State.lockFreed_field {j n : Nat} (hj : j < 64) (h : j + n ≤ 1 ∨ 2 ≤ j ∧ (j + n ≤ 0x14 ∨ 0x18 ≤ j)) :
    (s.lockFreed loc abandon).loc (loc + j) n = s.loc (loc + j) n := by
  unfold State.lockFreed
  rw [State.field_setLoc_apart _ ha hj (by omega) (by omega), State.field_setLoc_apart _ ha hj (by omega) (by omega)]

/-- What a release leaves in HELD, ABANDONED and HOLDW. -/
theorem State.lockFreed_state : (s.lockFreed loc abandon).loc (loc + 0x14) 4 = 0 ∧ (s.lockFreed loc abandon).loc (loc + 1) 1 % 2 = 0 ∧
    (s.lockFreed loc abandon).loc (loc + 1) 1 / 2 % 2 = if abandon then 1 else s.loc (loc + 1) 1 / 2 % 2 := by
  have hst := s.loc_lt (loc + 1) 1
  have hbyte : (s.lockFreed loc abandon).loc (loc + 1) 1 = s.loc (loc + 1) 1 / 4 * 4 + if abandon then 2 else s.loc (loc + 1) 1 / 2 % 2 * 2 := by
    unfold State.lockFreed
    rw [State.field_setLoc_apart _ ha (by omega) (by omega) (by omega), State.field_setLoc _ 1 _ ha (by omega)]
    refine Nat.mod_eq_of_lt ?_
    split <;> omega
  refine ⟨?_, ?_, ?_⟩
  · unfold State.lockFreed
    rw [State.field_setLoc _ 4 _ ha (by omega)]
    rfl
  · rw [hbyte]
    split <;> omega
  · rw [hbyte]
    split <;> omega

omit ha in
/-- An advance leaves the lock's first bytes and HOLDW. -/
theorem State.lockAdvance_field (u : State) (ha : loc % 64 = 0) {j n : Nat} (hj : j < 64) (h : j + n ≤ 8 ∨ 0x14 ≤ j) :
    (u.lockAdvance loc).loc (loc + j) n = u.loc (loc + j) n := by
  unfold State.lockAdvance
  dsimp only
  split
  · rw [State.field_setLoc_apart _ ha hj (by omega) (by omega), State.field_setLoc_apart _ ha hj (by omega) (by omega)]
  · rw [State.field_setLoc_apart _ ha hj (by omega) (by omega)]

/-- R106, R107: what a release leaves, field by field, and that no other byte changes. -/
theorem State.lockRelease_effect :
    let next := s.loc (loc + 0x10) 4
    let np := s.loc (loc + 4) 4
    let t := s.lockRelease loc abandon
    t.loc (loc + 1) 1 % 2 = 0 ∧ t.loc (loc + 0x14) 4 = 0 ∧ t.loc (loc + 1) 1 / 2 % 2 = (if abandon then 1 else s.loc (loc + 1) 1 / 2 % 2) ∧
    (next + 1 = np → t.loc (loc + 0x10) 4 = 0 ∧ t.loc (loc + 8) 8 = (s.loc (loc + 8) 8 + 1) % 2 ^ 64) ∧
    (next + 1 < np → t.loc (loc + 0x10) 4 = next + 1 ∧ t.loc (loc + 8) 8 = s.loc (loc + 8) 8) ∧
    ∀ c, (∀ k, k = 1 ∨ 8 ≤ k ∧ k < 0x18 → locCell loc k ≠ c) → t.peek c = s.peek c := by
  intro next np t
  obtain ⟨hholdw, hheld, hab⟩ := s.lockFreed_state abandon ha
  obtain ⟨hlast, hnext, hpeek⟩ := lockAdvance_effect (s.lockFreed loc abandon) loc ha
  rw [s.lockFreed_field abandon ha (by omega) (by omega), s.lockFreed_field abandon ha (by omega) (by omega),
    s.lockFreed_field abandon ha (by omega) (by omega)] at hlast hnext
  have ht : t = (s.lockFreed loc abandon).lockAdvance loc := rfl
  rw [ht, State.lockAdvance_field _ ha (by omega) (by omega), State.lockAdvance_field _ ha (by omega) (by omega)]
  refine ⟨hheld, hholdw, hab, hlast, hnext, fun c hc => ?_⟩
  rw [hpeek c fun j hj => hc j (.inr ⟨hj.1, by omega⟩), State.lockFreed, State.peek_setLoc _ c ha (by omega) fun j h1 h2 => hc j (by omega),
    State.peek_setLoc _ c ha (by omega) fun j h1 h2 => hc j (by omega)]

end

/-- Settles O29: each lock word in the frame of an issue event, and a release field by field. -/
theorem locks : Obligations.Locks := by
  unfold Obligations.Locks
  refine ⟨fun s f dm scope => ?_, fun s loc abandon ha => s.lockRelease_effect abandon ha⟩
  intro va t runs idle loc p wt
  refine ⟨?_, ?_, ?_, ?_, ?_, ?_, ?_⟩
  · rintro _ rfl ⟨hl, hI, ha⟩ hk
    exact exec_olacq ⟨hl, hI, ha⟩ hk
  · rintro _ rfl ⟨hl, hI, ha⟩ hk hheld hturn hg hidle
    exact exec_olrel ⟨hl, hI, ha⟩ hk hheld hturn hg hidle
  · rintro _ rfl ⟨hl, hI, ha⟩ hk hidle
    obtain ⟨hpass, hwait⟩ := exec_olrelPass ⟨hl, hI, ha⟩ hk hidle
    split
    · next ht => exact hpass ht
    · next ht => exact hwait ht
  · rintro _ rfl ⟨hl, hI, ha⟩ hal h1 h2
    exact exec_olrelInit_ordered ⟨hl, hI, ha⟩ hal h1 h2
  · rintro _ rfl ⟨hl, hI, ha⟩ hal hrec
    exact exec_olrelInit_free ⟨hl, hI, ha⟩ hal hrec
  · rintro _ rfl ⟨hl, hI, ha⟩ hk
    exact exec_olacqFree ⟨hl, hI, ha⟩ hk
  · rintro _ rfl ⟨hl, hI, ha⟩ hk hg hidle
    exact exec_olrelFree ⟨hl, hI, ha⟩ hk hg hidle

end Machine
end Sys2Proof
end

section
/-! SUPPORT. Objects side by side: what a number at a location reads after writes at others, and what the lanes of a word leave when each of
them acts or waits (R96, R97, R233). -/

namespace Sys2Proof
open Machine
namespace Machine

/-! ### Numbers at locations -/

/-- The cells of two locations that are the same byte stand at the same place. -/
theorem locCell_place {a b j k : Nat} (h : locCell a j = locCell b k) : a + j = b + k := by
  unfold locCell isDm at h
  simp only [Bool.and_eq_true, decide_eq_true_eq] at h
  split at h <;> split at h
  · have := MemCell.dm.inj h
    omega
  · cases h
  · cases h
  · exact MemCell.dev.inj h

theorem Memory.bytes_congr {m m' : Memory} (n a : Nat) (h : ∀ k < n, Memory.byte m' (a + k) = Memory.byte m (a + k)) :
    Memory.bytes m' a n = Memory.bytes m a n := by
  induction n generalizing a with
  | zero => rfl
  | succ n ih =>
    have hhead : Memory.byte m' a = Memory.byte m a := h 0 (Nat.succ_pos n)
    rw [Memory.bytes, Memory.bytes, hhead, ih (a + 1) fun k hk => ?_]
    rw [Nat.add_assoc, Nat.add_comm 1 k]
    exact h (k + 1) (by omega)

/-- A number whose bytes stand reads the same. -/
theorem State.loc_congr {s t : State} {loc n : Nat} (h : ∀ k < n, t.peek (locCell loc k) = s.peek (locCell loc k)) :
    t.loc loc n = s.loc loc n := by
  unfold locCell at h
  unfold State.loc Memory.num
  split
  · next hd =>
    rw [hd] at h
    rw [Memory.bytes_congr n _ fun k hk => Option.some.inj (h k hk)]
  · next hd =>
    rw [Bool.not_eq_true] at hd
    rw [hd] at h
    rw [Memory.bytes_congr n _ fun k hk => Option.some.inj (h k hk)]

/-- What was written at a location is read there. -/
theorem State.loc_setLocBytes (s : State) (loc : Nat) (bs : List Byte) : (s.setLocBytes loc bs).loc loc bs.length = leNat bs := by
  unfold State.loc State.setLocBytes Memory.num
  split
  · exact congrArg leNat (Memory.bytes_setBytes s.dsm _ bs)
  · rw [s.writeDev_mem, Memory.bytes_setBytes]

theorem State.loc_setLoc (s : State) (loc n x : Nat) : (s.setLoc loc n x).loc loc n = x % 256 ^ n := by
  have h := s.loc_setLocBytes loc (leBytes n x)
  rw [leBytes_length, leNat_leBytes_mod] at h
  exact h

/-- A number that shares no byte with the one written stands. -/
theorem State.loc_setLoc_apart (s : State) {a b m n x : Nat} (h : ∀ k < m, ∀ j < n, a + j ≠ b + k) : (s.setLoc a n x).loc b m = s.loc b m :=
  State.loc_congr fun k hk => s.peek_setLoc_apart a n x _ fun j hj e => h k hk j hj (locCell_place e)

/-! ### Order gates looked at again (R97) -/

/-- What looking at the order gate of a line again leaves: events of requests at the gate. -/
theorem State.regate_frame (s : State) (loc : Nat) :
    ∃ es, s.regate loc = { s with inbox := s.inbox ++ es } ∧ ∀ e ∈ es, ∃ q ∈ s.gate, e = .gateAdmit q.id := by
  have hgo : ∀ (qs : List Req) (u : State), (∀ q ∈ qs, q ∈ s.gate) →
      ∃ es, qs.foldl (fun u q => if q.loc / 64 = loc / 64 then u.postOnce (.gateAdmit q.id) else u) u = { u with inbox := u.inbox ++ es } ∧
        ∀ e ∈ es, ∃ q ∈ s.gate, e = .gateAdmit q.id := by
    intro qs
    induction qs with
    | nil => exact fun u _ => ⟨[], by rw [List.append_nil]; rfl, fun e he => (nomatch he)⟩
    | cons q qs ih =>
      intro u hq
      obtain ⟨hhead, htail⟩ := List.forall_mem_cons.1 hq
      rw [List.foldl_cons]
      have hpost : ∃ es, (if q.loc / 64 = loc / 64 then u.postOnce (.gateAdmit q.id) else u) = { u with inbox := u.inbox ++ es } ∧
          ∀ e ∈ es, ∃ q ∈ s.gate, e = .gateAdmit q.id := by
        unfold State.postOnce addOnce
        split
        · by_cases hin : Instr.gateAdmit q.id ∈ u.inbox
          · exact ⟨[], by rw [if_pos hin, List.append_nil], fun e he => (nomatch he)⟩
          · exact ⟨[.gateAdmit q.id], by rw [if_neg hin], fun e he => ⟨q, hhead, List.mem_singleton.1 he⟩⟩
        · exact ⟨[], by rw [List.append_nil], fun e he => (nomatch he)⟩
      obtain ⟨es, hu, hes⟩ := hpost
      obtain ⟨fs, hv, hfs⟩ := ih _ htail
      refine ⟨es ++ fs, hv.trans ?_, fun e he => (List.mem_append.1 he).elim (hes e) (hfs e)⟩
      rw [hu, List.append_assoc]
  exact hgo s.gate s fun q hq => hq

theorem State.regate_loc (s : State) (a loc n : Nat) : (s.regate a).loc loc n = s.loc loc n := by
  obtain ⟨es, h, -⟩ := s.regate_frame a
  rw [h]
  rfl

theorem State.regate_peek (s : State) (a : Nat) (c : MemCell) : (s.regate a).peek c = s.peek c := by
  obtain ⟨es, h, -⟩ := s.regate_frame a
  rw [h]
  cases c <;> rfl

/-! ### The lanes of a word (R233) -/

/-- Where every lane acts: the lanes' effects in their order, while a property of the state holds that each of them needs and keeps. -/
theorem laneOps_did {f : State → Nat → LaneOp} (mk : Nat → WaitR) (g : State → Nat → State) (p : State → Prop) (ls : List Nat) (s : State)
    (hp : p s) (hf : ∀ u, p u → ∀ l ∈ ls, f u l = .did (g u l) [] ∧ p (g u l)) :
    laneOps f mk ls s = (ls.foldl g s, ls.map fun l => { mk l with done := true, res := [] }, none) := by
  induction ls generalizing s with
  | nil => rfl
  | cons l ls ih =>
    obtain ⟨hl, hg⟩ := hf s hp l List.mem_cons_self
    rw [laneOps, hl]
    dsimp only
    rw [ih (g s l) hg fun u hu m hm => hf u hu m (List.mem_cons_of_mem _ hm)]
    rfl

/-- Where every lane finds its wait satisfied or open and changes nothing. -/
theorem laneOps_stands {f : State → Nat → LaneOp} (mk : Nat → WaitR) (done : Nat → Bool) (ls : List Nat) (s : State)
    (hf : ∀ l ∈ ls, f s l = if done l then .did s [] else .wait (mk l)) :
    laneOps f mk ls s = (s, ls.map fun l => if done l then { mk l with done := true, res := [] } else mk l, none) := by
  induction ls with
  | nil => rfl
  | cons l ls ih =>
    have hrest := ih fun m hm => hf m (List.mem_cons_of_mem _ hm)
    rw [laneOps, hf l List.mem_cons_self, List.map_cons]
    by_cases hd : done l = true
    · rw [if_pos hd, if_pos hd]
      dsimp only
      rw [hrest]
    · rw [if_neg hd, if_neg hd]
      dsimp only
      rw [hrest]

end Machine
end Sys2Proof
end

section
/-! SUPPORT. Flags (R103, R104): posts, initialised lines, and the waits of `fwait`. -/

namespace Sys2Proof
open Machine
namespace Machine

/-! ### Posts -/

/-- A post of a value to a flag. -/
def State.raise (s : State) (loc x : Nat) : State := s.setLoc loc 8 (max (s.loc loc 8) x)

theorem State.isFlag_iff (s : State) (loc : Nat) : s.isFlag loc = true ↔ loc % 64 ≠ 0 ∧ loc % 8 = 0 ∧ s.loc (loc / 64 * 64) 1 = 2 := by
  simp only [State.isFlag, Bool.and_eq_true, bne_iff_ne, beq_iff_eq, and_assoc, ne_eq]

theorem State.postFlag_flag {s : State} {loc : Nat} (x : Nat) (h : s.isFlag loc = true) : s.postFlag loc x = .did (s.raise loc x) [] := if_pos h

/-- A post leaves every flag a flag. -/
theorem State.isFlag_raise {s : State} {a b : Nat} (x : Nat) (ha : s.isFlag a = true) (hb : s.isFlag b = true) :
    (s.raise a x).isFlag b = true := by
  obtain ⟨ha64, ha8, -⟩ := (s.isFlag_iff a).1 ha
  obtain ⟨hb64, hb8, hline⟩ := (s.isFlag_iff b).1 hb
  refine (State.isFlag_iff _ b).2 ⟨hb64, hb8, ?_⟩
  rw [State.raise, State.loc_setLoc_apart _ fun k hk j hj => by omega]
  exact hline

/-- A flag after a post: the greater value where it was posted to. -/
theorem State.loc_raise (s : State) {a b x : Nat} (ha : a % 8 = 0) (hb : b % 8 = 0) (hx : x < 2 ^ 64) :
    (s.raise a x).loc b 8 = if a = b then max (s.loc b 8) x else s.loc b 8 := by
  unfold State.raise
  split
  · next h =>
    subst h
    rw [State.loc_setLoc]
    exact Nat.mod_eq_of_lt (max_lt (s.loc_lt a 8) hx)
  · next h => exact s.loc_setLoc_apart fun k hk j hj => by omega

/-- Posts of several lanes: each flag holds the greatest value posted to it, and its old one. -/
theorem State.loc_raises (loc x : Nat → Nat) (hx : ∀ l, x l < 2 ^ 64) (ls : List Nat) (hal : ∀ l ∈ ls, loc l % 8 = 0) {a : Nat}
    (ha : a % 8 = 0) (s : State) : (ls.foldl (fun u l => u.raise (loc l) (x l)) s).loc a 8 =
      ls.foldl (fun y m => if loc m = a then max y (x m) else y) (s.loc a 8) := by
  induction ls generalizing s with
  | nil => rfl
  | cons l ls ih =>
    obtain ⟨hl, hls⟩ := List.forall_mem_cons.1 hal
    rw [List.foldl_cons, List.foldl_cons, ih hls, s.loc_raise hl ha (hx l)]

/-- What posts change. -/
theorem State.raises_frame (loc x : Nat → Nat) (ls : List Nat) (s : State) :
    let u := ls.foldl (fun u l => u.raise (loc l) (x l)) s
    u = { s with mem := u.mem, dsm := u.dsm, poison := u.poison, ctxs := u.ctxs } :=
  foldl_keeps (fun u : State => u = { s with mem := u.mem, dsm := u.dsm, poison := u.poison, ctxs := u.ctxs }) _ (fun u l hu => by
    obtain ⟨m, d, cs, p, h⟩ := u.setLoc_frame (loc l) 8 (max (u.loc (loc l) 8) (x l))
    rw [State.raise, h]
    rw [hu]) ls s rfl

theorem State.peek_raises (loc x : Nat → Nat) (ls : List Nat) (s : State) (c : MemCell) (h : ∀ l ∈ ls, ∀ k < 8, locCell (loc l) k ≠ c) :
    (ls.foldl (fun u l => u.raise (loc l) (x l)) s).peek c = s.peek c := by
  induction ls generalizing s with
  | nil => rfl
  | cons l ls ih =>
    obtain ⟨hl, hls⟩ := List.forall_mem_cons.1 h
    rw [List.foldl_cons, ih _ hls, State.raise, s.peek_setLoc_apart _ _ _ c hl]

/-! ### Lines of flags at 0 -/

/-- One lane's line of flags, with the order gate of the line looked at again. -/
def State.flagLine (s : State) (loc : Nat) : State := (s.setLoc loc 64 2).regate loc

theorem State.flagLine_loc (s : State) {a b : Nat} (ha : a % 64 = 0) (hb : b % 64 = 0) :
    (s.flagLine a).loc b 64 = if a = b then 2 else s.loc b 64 := by
  rw [State.flagLine, State.regate_loc]
  split
  · next h =>
    subst h
    rw [State.loc_setLoc]
    rfl
  · next h => exact s.loc_setLoc_apart fun k hk j hj => by omega

theorem State.flagLines_loc (loc : Nat → Nat) (ls : List Nat) (hal : ∀ l ∈ ls, loc l % 64 = 0) {a : Nat} (ha : a % 64 = 0) (s : State)
    (h : (∃ l ∈ ls, loc l = a) ∨ s.loc a 64 = 2) : (ls.foldl (fun u l => u.flagLine (loc l)) s).loc a 64 = 2 := by
  induction ls generalizing s with
  | nil => exact h.resolve_left fun ⟨l, hl, _⟩ => (nomatch hl)
  | cons l ls ih =>
    obtain ⟨hl, hls⟩ := List.forall_mem_cons.1 hal
    rw [List.foldl_cons]
    refine ih hls _ ?_
    rw [s.flagLine_loc hl ha]
    by_cases he : loc l = a
    · exact .inr (if_pos he)
    · rw [if_neg he]
      refine h.imp_left fun ⟨m, hm, hma⟩ => ?_
      obtain rfl | hm := List.mem_cons.1 hm
      · exact absurd hma he
      · exact ⟨m, hm, hma⟩

/-- What initialising lines of flags changes. -/
theorem State.flagLines_frame (loc : Nat → Nat) (ls : List Nat) (s : State) :
    let u := ls.foldl (fun u l => u.flagLine (loc l)) s
    u = { s with mem := u.mem, dsm := u.dsm, poison := u.poison, ctxs := u.ctxs, inbox := u.inbox } ∧
    ∃ es, u.inbox = s.inbox ++ es ∧ ∀ e ∈ es, ∃ q ∈ s.gate, e = .gateAdmit q.id :=
  foldl_keeps (fun u : State => u = { s with mem := u.mem, dsm := u.dsm, poison := u.poison, ctxs := u.ctxs, inbox := u.inbox } ∧
      ∃ es, u.inbox = s.inbox ++ es ∧ ∀ e ∈ es, ∃ q ∈ s.gate, e = .gateAdmit q.id) _ (fun u l hu => by
    obtain ⟨hu, es, hin, hes⟩ := hu
    obtain ⟨m, d, cs, p, h⟩ := u.setLoc_frame (loc l) 64 2
    obtain ⟨fs, hgate, hfs⟩ := (u.setLoc (loc l) 64 2).regate_frame (loc l)
    rw [State.flagLine, hgate, h]
    rw [h] at hfs
    refine ⟨by rw [hu], es ++ fs, ?_, fun e he => (List.mem_append.1 he).elim (hes e) fun he => ?_⟩
    · rw [← List.append_assoc, ← hin]
    · obtain ⟨q, hq, rfl⟩ := hfs e he
      rw [hu] at hq
      exact ⟨q, hq, rfl⟩) ls s ⟨rfl, [], (List.append_nil _).symm, fun e he => (nomatch he)⟩

theorem State.peek_flagLines (loc : Nat → Nat) (ls : List Nat) (s : State) (c : MemCell) (h : ∀ l ∈ ls, ∀ k < 64, locCell (loc l) k ≠ c) :
    (ls.foldl (fun u l => u.flagLine (loc l)) s).peek c = s.peek c := by
  induction ls generalizing s with
  | nil => rfl
  | cons l ls ih =>
    obtain ⟨hl, hls⟩ := List.forall_mem_cons.1 h
    rw [List.foldl_cons, ih _ hls, State.flagLine, State.regate_peek, s.peek_setLoc_apart _ _ _ c hl]

/-! ### The words -/

section
variable {s : State} {f : F} {dm : Bool} {scope : Scope}

/-- The location of a lane's object. -/
def State.laneLoc (s : State) (f : F) (dm : Bool) (l : Nat) : Nat := s.objLoc dm (s.objAddr dm f.a l)

theorem State.atLines_isFlag (s : State) (dm : Bool) (ls : List Nat) (addr : Nat → W64) (loc : Nat) :
    (s.atLines dm ls addr).isFlag loc = s.isFlag loc := by
  simp only [State.isFlag, State.atLines_loc]

theorem exec_fpost (hI : s.Issues (.fpost f dm scope)) (ha : s.active (.fpost f dm scope) ≠ 0)
    (hl : s.LinesPass dm true (s.active (.fpost f dm scope)) (lanesOf (s.active (.fpost f dm scope))) (s.objAddr dm f.a))
    (hf : ∀ l ∈ lanesOf (s.active (.fpost f dm scope)), s.isFlag (s.laneLoc f dm l) = true)
    (hidle : s.releaseBusy [] (lanesOf (s.active (.fpost f dm scope))) = false) :
    let ls := lanesOf (s.active (.fpost f dm scope))
    exec (.fpost f dm scope) s = .next (s.finishes
      (ls.foldl (fun u l => u.raise (s.laneLoc f dm l) (s.opnd f.b 2 l)) (s.atLines dm ls (s.objAddr dm f.a))).wake (.fpost f dm scope) true) := by
  intro ls
  have hops := laneOps_did (f := fun u l => u.postFlag (s.laneLoc f dm l) (s.opnd f.b 2 l))
    (fun l => s.waitOf .flag l 0 0 0 0 .zero (s.active (.fpost f dm scope)) []) (fun u l => u.raise (s.laneLoc f dm l) (s.opnd f.b 2 l))
    (fun u => ∀ l ∈ ls, u.isFlag (s.laneLoc f dm l) = true) ls (s.atLines dm ls (s.objAddr dm f.a))
    (fun l hm => (s.atLines_isFlag _ _ _ _).trans (hf l hm))
    (fun u hu l hm => ⟨State.postFlag_flag _ (hu l hm), fun m hm' => State.isFlag_raise _ (hu l hm) (hu m hm')⟩)
  show execFpost f dm scope s = _
  refine word_done _ s _ hI ha ((hl.objThen _).trans ?_)
  rw [State.atLines_releaseBusy, hidle]
  exact congrArg (fun r => State.endLanes r (s.active (.fpost f dm scope)) false fun l => objTrap dm l (s.objAddr dm f.a l)) hops

theorem exec_fpostInit (hI : s.Issues (.fpostInit f dm scope)) (ha : s.active (.fpostInit f dm scope) ≠ 0)
    (hl : s.LinesPass dm false (s.active (.fpostInit f dm scope)) (lanesOf (s.active (.fpostInit f dm scope))) (s.objAddr dm f.a))
    (hal : ∀ l ∈ lanesOf (s.active (.fpostInit f dm scope)), s.laneLoc f dm l % 64 = 0) :
    let ls := lanesOf (s.active (.fpostInit f dm scope))
    exec (.fpostInit f dm scope) s = .next (s.finishes
      (ls.foldl (fun u l => u.flagLine (s.laneLoc f dm l)) (s.atLines dm ls (s.objAddr dm f.a))).wake (.fpostInit f dm scope) true) := by
  intro ls
  have hops := laneOps_did (f := fun u l =>
      if s.laneLoc f dm l % 64 = 0 then .did ((u.setLocBytes (s.laneLoc f dm l) (leBytes 64 2)).regate (s.laneLoc f dm l)) [] else .fail)
    (fun l => s.waitOf .flag l 0 0 0 0 .zero (s.active (.fpostInit f dm scope)) []) (fun u l => u.flagLine (s.laneLoc f dm l))
    (fun _ => True) ls (s.atLines dm ls (s.objAddr dm f.a)) trivial (fun u _ l hm => ⟨if_pos (hal l hm), trivial⟩)
  show execFpostInit f dm scope s = _
  exact word_done _ s _ hI ha ((hl.objThen _).trans
    (congrArg (fun r => State.endLanes r (s.active (.fpostInit f dm scope)) false fun l => objTrap dm l (s.objAddr dm f.a l)) hops))

/-- The wait of a lane of `fwait`, not yet looked at. -/
def State.flagWait (s : State) (f : F) (dm : Bool) (l : Nat) : WaitR :=
  s.waitOf .flag l (s.laneLoc f dm l) (s.objAddr dm f.a l) (s.opnd64 f.b l) 0 .zero (laneBit l) []

/-- A wait on a flag at its issue. -/
theorem State.tryNow_flagWait (s u : State) (f : F) (dm : Bool) (l : Nat) : u.tryNow (s.flagWait f dm l) =
    if decide ((s.opnd64 f.b l).toNat ≤ u.loc (s.laneLoc f dm l) 8) then .did u [] else .wait (s.flagWait f dm l) := by
  have htry := tryWait_flag (s := u) (k := u.w.key) (r := s.flagWait f dm l) rfl rfl
  simp only [decide_eq_true_eq]
  split
  · next h =>
    rw [if_pos (show (s.flagWait f dm l).arg.toNat ≤ u.loc (s.flagWait f dm l).loc 8 from h)] at htry
    rw [u.tryNow_done _ (by rw [htry]; rfl), htry, satisfy_fst _ _ _ _ rfl]
    rfl
  · next h =>
    rw [if_neg (show ¬ (s.flagWait f dm l).arg.toNat ≤ u.loc (s.flagWait f dm l).loc 8 from h)] at htry
    exact u.tryNow_open _ (by rw [htry]; rfl)

theorem exec_fwait (hI : s.Issues (.fwait f dm scope)) (ha : s.active (.fwait f dm scope) ≠ 0)
    (hl : s.LinesPass dm true (s.active (.fwait f dm scope)) (lanesOf (s.active (.fwait f dm scope))) (s.objAddr dm f.a))
    (hf : ∀ l ∈ lanesOf (s.active (.fwait f dm scope)), s.isFlag (s.laneLoc f dm l) = true) :
    let ls := lanesOf (s.active (.fwait f dm scope))
    exec (.fwait f dm scope) s = .next (s.finishes ((s.atLines dm ls (s.objAddr dm f.a)).park (s.active (.fwait f dm scope)) (ls.map fun l =>
      { s.flagWait f dm l with done := decide ((s.opnd64 f.b l).toNat ≤ s.loc (s.laneLoc f dm l) 8) }) false).wake (.fwait f dm scope) false) := by
  intro ls
  have hops := laneOps_stands (f := fun u l => if u.isFlag (s.flagWait f dm l).loc then u.tryNow (s.flagWait f dm l) else .fail)
    (s.flagWait f dm) (fun l => decide ((s.opnd64 f.b l).toNat ≤ s.loc (s.laneLoc f dm l) 8)) ls (s.atLines dm ls (s.objAddr dm f.a))
    (fun l hm => by
      have hflag : (s.atLines dm ls (s.objAddr dm f.a)).isFlag (s.flagWait f dm l).loc = true := (s.atLines_isFlag _ _ _ _).trans (hf l hm)
      rw [hflag, State.tryNow_flagWait, State.atLines_loc]
      rfl)
  have hmarks : (fun l => if decide ((s.opnd64 f.b l).toNat ≤ s.loc (s.laneLoc f dm l) 8) then { s.flagWait f dm l with done := true, res := [] }
      else s.flagWait f dm l) = fun l => { s.flagWait f dm l with done := decide ((s.opnd64 f.b l).toNat ≤ s.loc (s.laneLoc f dm l) 8) } := by
    funext l
    cases decide ((s.opnd64 f.b l).toNat ≤ s.loc (s.laneLoc f dm l) 8) <;> rfl
  rw [hmarks] at hops
  show execFwait f dm scope s = _
  exact word_moved _ s _ hI ha ((hl.objThen _).trans
    (congrArg (fun r => State.endLanes r (s.active (.fwait f dm scope)) true fun l => objTrap dm l (s.objAddr dm f.a l)) hops))

end

/-- Settles O28: each word's effect in the frame of an issue event, and what its lanes' posts or lines leave, byte by byte. -/
theorem flags : Obligations.Flags := by
  unfold Obligations.Flags
  intro s f dm scope loc at_
  refine ⟨?_, ?_, ?_⟩
  · rintro _ rfl hI ha hl hf hidle
    have hal : ∀ l ∈ lanesOf (s.active (.fpost f dm scope)), loc l % 8 = 0 := fun l hm => ((s.isFlag_iff _).1 (hf l hm)).2.1
    refine ⟨_, exec_fpost hI ha hl hf hidle, State.raises_frame _ _ _ _, fun l hm => ?_, fun c hc => ?_⟩
    · refine (State.loc_raises loc (fun l => s.opnd f.b 2 l) (fun l => s.opnd_lt f.b 2 l (by omega)) _ hal (hal l hm) _).trans ?_
      rw [State.atLines_loc]
    · exact (State.peek_raises loc (fun l => s.opnd f.b 2 l) _ _ c hc).trans (s.atLines_peek ..)
  · rintro _ rfl hI ha hl hal
    obtain ⟨hframe, es, hin, hes⟩ := State.flagLines_frame loc (lanesOf (s.active (.fpostInit f dm scope))) (at_ (.fpostInit f dm scope))
    obtain ⟨live, tk, hat⟩ := s.atLines_frame dm (lanesOf (s.active (.fpostInit f dm scope))) (s.objAddr dm f.a)
    have hin_at : (at_ (.fpostInit f dm scope)).inbox = s.inbox := by simp only [at_, hat]
    have hgate_at : (at_ (.fpostInit f dm scope)).gate = s.gate := by simp only [at_, hat]
    rw [hin_at] at hin
    rw [hgate_at] at hes
    refine ⟨_, exec_fpostInit hI ha hl hal, hframe, ⟨es, hin, hes⟩, fun l hm => ?_, fun c hc => ?_⟩
    · exact State.flagLines_loc loc _ hal (hal l hm) _ (.inl ⟨l, hm, rfl⟩)
    · exact (State.peek_flagLines loc _ _ c hc).trans (s.atLines_peek ..)
  · rintro _ rfl hI ha hl hf
    exact exec_fwait hI ha hl hf

end Machine
end Sys2Proof
end

section
/-! SUPPORT. Queues (R108, R109, R233): what a push or a pop finds by the TAG of its slot and leaves there, and the words. -/

namespace Sys2Proof
open Machine
namespace Machine

/-! ### What the TAG says (R109) -/

theorem pushChk_bad (tag n : Nat) : pushChk tag n = .bad ↔ n < tag % 2 ^ 63 ∨ 2 ^ 63 ≤ tag ∧ tag % 2 ^ 63 = n := by
  unfold pushChk
  simp only [Bool.or_eq_true, Bool.and_eq_true, decide_eq_true_eq, beq_iff_eq]
  by_cases h : n < tag % 2 ^ 63 ∨ 2 ^ 63 ≤ tag ∧ tag % 2 ^ 63 = n
  · exact iff_of_true (if_pos h) h
  · refine iff_of_false ?_ h
    rw [if_neg h]
    split <;> exact QueueChk.noConfusion

theorem pushChk_ready (tag n : Nat) : pushChk tag n = .ready ↔ ¬ 2 ^ 63 ≤ tag ∧ tag % 2 ^ 63 = n := by
  unfold pushChk
  simp only [Bool.or_eq_true, Bool.and_eq_true, Bool.not_eq_true', decide_eq_true_eq, decide_eq_false_iff_not, beq_iff_eq]
  by_cases h : ¬ 2 ^ 63 ≤ tag ∧ tag % 2 ^ 63 = n
  · rw [if_neg (by omega), if_pos h]
    exact iff_of_true rfl h
  · refine iff_of_false ?_ h
    rw [if_neg h]
    split <;> exact QueueChk.noConfusion

theorem popChk_bad (tag n : Nat) : popChk tag n = .bad ↔ n < tag % 2 ^ 63 := by
  unfold popChk
  dsimp only
  by_cases h : n < tag % 2 ^ 63
  · exact iff_of_true (if_pos h) h
  · refine iff_of_false ?_ h
    rw [if_neg h]
    split <;> exact QueueChk.noConfusion

theorem popChk_ready (tag n : Nat) : popChk tag n = .ready ↔ 2 ^ 63 ≤ tag ∧ tag % 2 ^ 63 = n := by
  unfold popChk
  simp only [Bool.and_eq_true, decide_eq_true_eq, beq_iff_eq]
  by_cases h : 2 ^ 63 ≤ tag ∧ tag % 2 ^ 63 = n
  · rw [if_neg (by omega), if_pos h]
    exact iff_of_true rfl h
  · refine iff_of_false ?_ h
    rw [if_neg h]
    split <;> exact QueueChk.noConfusion

/-! ### A push or a pop at its slot -/

/-- The slot of a queue wait: the location of its TAG, and its payload bytes. -/
def State.waitSlot (s : State) (k : Nat) (r : WaitR) : Nat × Nat := s.queueSlot (s.block (k / 32)).ctx (s.dmBase (k / 32)) r.loc r.arg.toNat

section
variable {s : State} {k : Nat} {r : WaitR} (hd : r.done = false)
include hd

theorem tryWait_push_ready (hr : r.reg = false) (hk : r.kind = .push) (h : pushChk (s.loc (s.waitSlot k r).1 8) r.arg.toNat = .ready) :
    s.tryWait k r = (s.setLocBytes (s.waitSlot k r).1 (leBytes 8 (2 ^ 63 + r.arg.toNat % 2 ^ 63) ++ (regBytes r.pay).take (s.waitSlot k r).2),
      { r with done := true, res := [] }) := by
  unfold State.waitSlot at *
  refine Eq.trans (b := State.satisfy _ k r []) ?_ (Prod.ext (satisfy_fst _ k r [] hr) rfl)
  simp only [State.tryWait, hd, hk, h, Bool.false_eq_true, if_false]

theorem tryWait_pop_ready (hr : r.reg = false) (hk : r.kind = .pop) (h : popChk (s.loc (s.waitSlot k r).1 8) r.arg.toNat = .ready) :
    s.tryWait k r = (s.setLoc (s.waitSlot k r).1 8 ((r.arg.toNat + 2 ^ s.loc (r.loc + 2) 1) % 2 ^ 63),
      { r with done := true, res := bytesRegs ((s.waitSlot k r).2 / 4) (s.loc ((s.waitSlot k r).1 + 8) (s.waitSlot k r).2) }) := by
  unfold State.waitSlot at *
  refine Eq.trans (b := State.satisfy _ k r _) ?_ (Prod.ext (satisfy_fst _ k r _ hr) rfl)
  simp only [State.tryWait, hd, hk, h, Bool.false_eq_true, if_false]

/-- A slot that is not ready leaves the wait open and changes nothing. -/
theorem tryWait_slot_waits (h : r.kind = .push ∧ pushChk (s.loc (s.waitSlot k r).1 8) r.arg.toNat = .wait ∨
    r.kind = .pop ∧ popChk (s.loc (s.waitSlot k r).1 8) r.arg.toNat = .wait) : s.tryWait k r = (s, r) := by
  unfold State.waitSlot at h
  obtain ⟨hk, hc⟩ | ⟨hk, hc⟩ := h
  · simp only [State.tryWait, hd, hk, hc, Bool.false_eq_true, if_false]
  · simp only [State.tryWait, hd, hk, hc, Bool.false_eq_true, if_false]

end

/-! ### Pushes and pops of a word -/

section
variable {s : State} {dm reads : Bool} {act : Mask} {ls : List Nat} {addr : Nat → W64} (h : s.LinesPass dm reads act ls addr)
include h

/-- No line that passes fails, whichever lane names it. -/
theorem State.LinesPass.noneFails (lane : Nat → Nat) :
    firstFail ((ls.map fun l => (lane l, addr l)).map fun a => (a.1, a.2, s.objChk dm a.2)) = none := by
  refine firstFail_none _ fun c hc => ?_
  rw [List.map_map] at hc
  obtain ⟨l, hl, rfl⟩ := List.mem_map.1 hc
  exact h.checks l hl

/-- Lines that pass are handed on, whichever lane names them. -/
theorem State.LinesPass.objAll (lane : Nat) (k : State → Res) :
    s.objAll dm reads act (ls.map fun l => (lane, addr l)) k = k (s.atLines dm ls addr) := by
  have hthen := h.objThen k
  unfold State.objThen State.objAll at hthen
  unfold State.objAll
  rw [h.noneFails fun l => l] at hthen
  rw [h.noneFails fun _ => lane]
  dsimp only at hthen ⊢
  rw [List.map_map] at hthen ⊢
  exact hthen

end

section
variable {s : State} {f : F} {dm : Bool}

theorem State.atLines_isQueue (s : State) (dm : Bool) (ls : List Nat) (addr : Nat → W64) (loc : Nat) :
    (s.atLines dm ls addr).isQueue loc = s.isQueue loc := by
  simp only [State.isQueue, State.atLines_loc]

theorem State.atLines_slotAddr (s : State) (dm : Bool) (ls : List Nat) (addr : Nat → W64) (loc n : Nat) :
    (s.atLines dm ls addr).slotAddr loc n = s.slotAddr loc n := by
  simp only [State.slotAddr, State.atLines_loc]

theorem State.atLines_inBounds (s : State) (dm : Bool) (ls : List Nat) (addr : Nat → W64) (o : Opnd) (n al : Nat) :
    (s.atLines dm ls addr).inBounds o n al = s.inBounds o n al := by
  obtain ⟨live, tk, h⟩ := s.atLines_frame dm ls addr
  rw [h]
  cases o <;> rfl

theorem State.atLines_payRegs (s : State) (dm : Bool) (ls : List Nat) (addr : Nat → W64) (loc : Nat) :
    (s.atLines dm ls addr).payRegs loc = s.payRegs loc := by
  simp only [State.payRegs, State.atLines_loc]

/-- What a push or a pop finds in order before its lanes act: queues whose slots pass, payloads within the registers and delivered, and
for a push no earlier access outstanding (R85). -/
structure State.QueuesPass (s : State) (f : F) (dm push : Bool) (act : Mask) (pay : Opnd) : Prop where
  lines : s.LinesPass dm true act (lanesOf act) (s.objAddr dm f.a)
  queues : ∀ l ∈ lanesOf act, s.isQueue (s.laneLoc f dm l) = true
  slots : (s.atLines dm (lanesOf act) (s.objAddr dm f.a)).LinesPass dm true act (lanesOf act)
    fun l => s.slotAddr (s.laneLoc f dm l) (s.opnd64 f.b l).toNat
  pays : ∀ l ∈ lanesOf act, s.inBounds pay (s.payRegs (s.laneLoc f dm l)) 2 = true ∧
    ∀ r ∈ pay.covers s.w (s.payRegs (s.laneLoc f dm l)), r ∉ s.pendingRegs
  idle : push = true → s.releaseBusy [] (lanesOf act) = false

/-- The state in which the lanes of a push or a pop act. -/
def State.atQueues (s : State) (f : F) (dm : Bool) (act : Mask) : State :=
  (s.atLines dm (lanesOf act) (s.objAddr dm f.a)).atLines dm (lanesOf act)
    fun l => s.slotAddr (s.laneLoc f dm l) (s.opnd64 f.b l).toNat

/-- The frame of a push or a pop that passes: each lane acts or waits. -/
theorem State.QueuesPass.queueThen {push : Bool} {act : Mask} {pay : Opnd} (h : s.QueuesPass f dm push act pay) (mk : Nat → WaitR) :
    s.queueThen dm act f.a f.b pay push mk =
      State.endLanes (laneOps (fun u l => u.queueOp push (mk l)) mk (lanesOf act) (s.atQueues f dm act)) act true
        fun l => objTrap dm l (s.objAddr dm f.a l) := by
  have hbounds : (s.atLines dm (lanesOf act) (s.objAddr dm f.a)).payBad (lanesOf act) (s.laneLoc f dm) pay = false := by
    refine List.any_eq_false.2 fun l hl => ?_
    rw [State.atLines_inBounds, State.atLines_payRegs, (h.pays l hl).1]
    simp
  have hready : ((lanesOf act).any fun l => (pay.covers s.w (s.payRegs (s.laneLoc f dm l))).any fun r => r ∈ s.pendingRegs) = false := by
    refine List.any_eq_false.2 fun l hl => ?_
    rw [Bool.not_eq_true]
    refine List.any_eq_false.2 fun r hr => ?_
    simpa using (h.pays l hl).2 r hr
  have hqueues : (lanesOf act).filter (fun l => (s.atLines dm (lanesOf act) (s.objAddr dm f.a)).isQueue (s.laneLoc f dm l)) = lanesOf act :=
    List.filter_eq_self.2 fun l hl => (s.atLines_isQueue ..).trans (h.queues l hl)
  have hslots : (fun l => (s.atLines dm (lanesOf act) (s.objAddr dm f.a)).slotAddr (s.laneLoc f dm l)
      ((s.atLines dm (lanesOf act) (s.objAddr dm f.a)).opnd64 f.b l).toNat) = fun l => s.slotAddr (s.laneLoc f dm l) (s.opnd64 f.b l).toNat :=
    funext fun l => by rw [State.atLines_slotAddr, State.atLines_opnd64]
  have hidle : (push && ((s.atLines dm (lanesOf act) (s.objAddr dm f.a)).atLines dm (lanesOf act)
      fun l => s.slotAddr (s.laneLoc f dm l) (s.opnd64 f.b l).toNat).releaseBusy [] (lanesOf act)) = false := by
    rw [State.atLines_releaseBusy, State.atLines_releaseBusy, Bool.and_eq_false_imp]
    exact h.idle
  unfold State.laneLoc at hbounds hready hqueues hslots
  unfold State.queueThen
  dsimp only
  rw [h.lines.objThen, hbounds, hready, hqueues, hslots]
  simp only [Bool.false_eq_true, if_false]
  refine (h.slots.objThen _).trans ?_
  rw [hidle]
  rfl

/-- A push or a pop whose lanes all act or wait parks with what they answer. -/
theorem word_queue {i : Instr} {push : Bool} {pay : Opnd} {mk : Nat → WaitR} (hI : s.Issues i) (ha : s.active i ≠ 0)
    (h : s.QueuesPass f dm push (s.active i) pay) :
    let r := laneOps (fun u l => u.queueOp push (mk l)) mk (lanesOf (s.active i)) (s.atQueues f dm (s.active i))
    r.2.2 = none → (body : Mask → State → Res) → body (s.active i) s = s.queueThen dm (s.active i) f.a f.b pay push mk →
    word i s body = .next (s.finishes (r.1.park (s.active i) r.2.1 false).wake i false) := by
  intro r hr body hb
  refine word_moved i s body hI ha (hb.trans ((h.queueThen mk).trans ?_))
  show State.endLanes r _ _ _ = _
  unfold State.endLanes
  rw [hr]
  rfl

end

section
variable {s : State} {f : F} {dm : Bool} {scope : Scope}

/-- The header that an initialised queue's line holds (R108). -/
def queueLine (slog nlog : Nat) (base : W64) : List Byte :=
  leBytes 1 4 ++ leBytes 1 slog ++ leBytes 1 nlog ++ leBytes 5 0 ++ leBytes 8 base.toNat ++ leBytes 48 0

/-- A queue of a lane initialised: its header, the TAG of every slot, and the line's order gate looked at again. -/
def State.queueMade (u : State) (loc slog nlog : Nat) (base : W64) : State :=
  ((u.setLocBytes loc (queueLine slog nlog base)).initSlots (u.dmBase u.w.blk) loc (2 ^ nlog)).regate loc

theorem exec_qpushInit (hI : s.Issues (.qpushInit f dm scope)) (ha : s.active (.qpushInit f dm scope) ≠ 0)
    (hl : s.LinesPass dm false (s.active (.qpushInit f dm scope)) (lanesOf (s.active (.qpushInit f dm scope))) (s.objAddr dm f.a))
    (hal : ∀ l ∈ lanesOf (s.active (.qpushInit f dm scope)), s.laneLoc f dm l % 64 = 0) :
    let ls := lanesOf (s.active (.qpushInit f dm scope))
    let slog := s.opnd f.c 1 0 % 256
    let nlog := s.opnd f.c 1 0 / 256 % 256
    let base := s.opnd64 f.b 0
    let slots (k : Nat) : W64 := base + BitVec.ofNat 64 (k * 2 ^ slog)
    let t := s.atLines dm ls (s.objAddr dm f.a)
    (slog = 4 ∨ slog = 6) → nlog ≤ 16 → base.toNat % 2 ^ slog = 0 →
    t.LinesPass dm false (s.active (.qpushInit f dm scope)) (List.range (2 ^ nlog)) slots →
    exec (.qpushInit f dm scope) s = .next (s.finishes (ls.foldl (fun u l => u.queueMade (s.laneLoc f dm l) slog nlog base)
      (t.atLines dm (List.range (2 ^ nlog)) slots)).wake (.qpushInit f dm scope) true) := by
  intro ls slog nlog base slots t hslog hnlog hbase hslots
  have hshape : shapeOk slog nlog base = true := by simp [shapeOk, hslog, hnlog, hbase]
  obtain ⟨rest, hls⟩ := lanesOf_cons ha
  have hfirst : ls.find? (fun l => s.laneLoc f dm l % 64 == 0) = some (lowLane (s.active (.qpushInit f dm scope))) := by
    have hlow : lowLane (s.active (.qpushInit f dm scope)) ∈ ls := by
      show _ ∈ lanesOf _
      rw [hls]
      exact List.mem_cons_self
    show (lanesOf _).find? _ = _
    rw [hls]
    exact List.find?_cons_of_pos (beq_iff_eq.2 (hal _ hlow))
  have hops := laneOps_did (f := fun u l => u.initQueue (s.laneLoc f dm l) slog nlog base)
    (fun l => s.waitOf .flag l 0 0 0 0 .zero (s.active (.qpushInit f dm scope)) []) (fun u l => u.queueMade (s.laneLoc f dm l) slog nlog base)
    (fun _ => True) ls (t.atLines dm (List.range (2 ^ nlog)) slots) trivial
    (fun u _ l hm => ⟨if_neg (not_not.2 (hal l hm)), trivial⟩)
  show execQpushInit f dm scope s = _
  refine word_done _ s _ hI ha ((hl.objThen _).trans ?_)
  show (if !shapeOk slog nlog base then _ else _) = _
  rw [hshape]
  simp only [Bool.not_true, Bool.false_eq_true, if_false]
  unfold State.laneLoc at hfirst
  rw [hfirst]
  refine (hslots.objAll _ _).trans ?_
  exact congrArg (fun r => State.endLanes r (s.active (.qpushInit f dm scope)) false fun l => objTrap dm l (s.objAddr dm f.a l)) hops

end

/-- Settles O31: the words in the frame of an issue event, and what the TAG of a slot says. -/
theorem queues : Obligations.Queues := by
  unfold Obligations.Queues
  refine ⟨?_, ?_⟩
  · intro s f dm scope loc n wt runs
    refine ⟨?_, ?_, ?_⟩
    · intro hI ha hl hq hs hp hb r hr
      show execQpush f dm scope s = _
      exact word_queue hI ha ⟨hl, hq, hs, hp, hb⟩ hr _ rfl
    · intro hI ha hl hq hs hp hb r hr
      show execQpop f dm scope s = _
      exact word_queue hI ha ⟨hl, hq, hs, hp, hb⟩ hr _ rfl
    · rintro _ rfl hI ha hl t slots slog nlog hal hslog hnlog hbase hslots line
      exact exec_qpushInit hI ha hl hal hslog hnlog hbase hslots
  · intro s k r hd hr sl tag n full seq
    exact ⟨pushChk_ready _ _, pushChk_bad _ _, popChk_ready _ _, popChk_bad _ _,
      fun hk h => have ht := tryWait_push_ready hd hr hk h; ⟨congrArg Prod.snd ht, congrArg Prod.fst ht⟩,
      fun hk h => have ht := tryWait_pop_ready hd hr hk h; ⟨congrArg Prod.snd ht, congrArg Prod.fst ht⟩,
      tryWait_slot_waits hd⟩

end Machine
end Sys2Proof
end

section
/-! SUPPORT. The wait-for table (R24, R111 to R119): an entry made or refused, the victim of a cycle and what is withdrawn from it, and the
entry of a parked wait. -/

namespace Sys2Proof
open Machine
namespace Machine

/-! ### Priorities that move (R115) -/

/-- `t` is `s` with other priorities of its blocks. -/
structure State.Reprioritised (s t : State) : Prop where
  rest : t = { s with b := t.b, blocks := t.blocks }
  block : ∀ h, ∃ p, t.block h = { s.block h with prio := p }

theorem State.Reprioritised.refl (s : State) : s.Reprioritised s := ⟨rfl, fun _ => ⟨_, rfl⟩⟩

theorem State.Reprioritised.trans {s t u : State} (h : s.Reprioritised t) (g : t.Reprioritised u) : s.Reprioritised u where
  rest := by rw [g.rest, h.rest]
  block := fun j => by
    obtain ⟨p, hp⟩ := h.block j
    obtain ⟨q, hq⟩ := g.block j
    exact ⟨q, by rw [hq, hp]⟩

theorem State.Reprioritised.foldl {α : Type} {f : State → α → State} (hf : ∀ (s : State) x, s.Reprioritised (f s x)) (xs : List α) (s : State) :
    s.Reprioritised (xs.foldl f s) := by
  induction xs generalizing s with
  | nil => exact .refl s
  | cons x xs ih => exact (hf s x).trans (ih _)

theorem State.Reprioritised.updBlock (s : State) (h : Nat) (p : W32) : s.Reprioritised (s.updBlock h fun b => { b with prio := p }) where
  rest := s.updBlock_frame h _
  block := fun j => by
    rw [s.block_updBlock h j (fun b => { b with prio := p }) (fun _ => rfl) fun _ => rfl]
    split
    · next e =>
      subst e
      exact ⟨_, rfl⟩
    · exact ⟨_, rfl⟩

theorem State.Reprioritised.propagate (p : WaitEnt → WaitEnt → Bool) (n : Nat) (s : State) : s.Reprioritised (s.propagate p n) := by
  induction n with
  | zero => exact .refl s
  | succ n ih =>
    refine ih.trans (.foldl (fun u q => ?_) _ _)
    dsimp only
    split
    · exact .updBlock u q.2 _
    · exact .refl u

/-- Removing entries moves priorities and nothing else. -/
theorem State.dropEnts_reprioritised (s : State) (p : WaitEnt → Bool) :
    State.Reprioritised { s with wft := s.wft.filter fun e => !p e } (s.dropEnts p) := by
  by_cases h : s.wft.any p = true
  · have hprio (u : State) (e : Nat × W32) : u.Reprioritised (u.updBlock e.1 fun b => { b with prio := e.2 }) := .updBlock u e.1 e.2
    unfold State.dropEnts
    rw [if_pos h]
    exact .trans (.foldl hprio _ _) (.propagate _ _ _)
  · have hwft := s.wft_dropEnts p
    have hnone : s.dropEnts p = s := if_neg h
    rw [hnone] at hwft ⊢
    rw [← hwft]
    exact .refl s

/-! ### Cycles see waves by their identities (R13, R114) -/

section
variable {s t : State} (h : ∀ j, (t.block j).gid = (s.block j).gid)
include h

theorem State.waveKey_congr (k : Nat) (rest : List Nat) : t.waveKey k rest = s.waveKey k rest := by
  unfold State.waveKey
  rw [h]

theorem State.edges_congr (ents : List WaitEnt) (k : Nat) : t.edges ents k = s.edges ents k := by
  unfold State.edges
  simp only [State.waveKey_congr h]

theorem State.findCycle_congr (ents : List WaitEnt) (start n k : Nat) (seen : List Nat) :
    t.findCycle ents start n k seen = s.findCycle ents start n k seen := by
  induction n generalizing k seen with
  | zero => rfl
  | succ n ih =>
    unfold State.findCycle
    simp only [State.edges_congr h, ih]

end

/-! ### Making an entry (R112, R116, R119) -/

section
variable {s : State} {e : WaitEnt}

/-- Whether a die's table has room for one more entry. -/
def State.tableRoom (s : State) (die : Nat) : Prop := (s.wft.filter fun x => x.die == die).length < Config.waitEntries

theorem addEnt_stands (h : e ∈ s.wft) : s.addEnt e = (s, true) := if_pos h

theorem addEnt_full (h : e ∉ s.wft) (hroom : ¬ s.tableRoom e.die) :
    s.addEnt e = (s.setPf (Pf.ovf e.die) (s.pfNum (Pf.ovf e.die) ||| 1), false) := (if_neg h).trans (if_pos (Nat.le_of_not_lt hroom))

/-- The state in which a new entry stands, before the die looks for a cycle. -/
def State.entered (s : State) (e : WaitEnt) : State := State.propagate { s with wft := s.wft ++ [e] } sameDie 16

theorem addEnt_taken (h : e ∈ s.wft ∨ s.tableRoom e.die) : (s.addEnt e).2 = true := by
  by_cases hin : e ∈ s.wft
  · rw [addEnt_stands hin]
  · unfold State.addEnt
    rw [if_neg hin, if_neg (Nat.not_le_of_lt (h.resolve_left hin))]
    dsimp only
    split <;> rfl

/-- An entry that closes no cycle is added. -/
theorem addEnt_acyclic (h : e ∉ s.wft) (hroom : s.tableRoom e.die)
    (hc : s.findCycle ((s.wft ++ [e]).filter fun x => x.die == e.die) (32 * e.blk + e.wv) 16 (32 * e.blk + e.wv) [32 * e.blk + e.wv] = none) :
    s.addEnt e = (s.entered e, true) := by
  have hre : State.Reprioritised { s with wft := s.wft ++ [e] } (s.entered e) := .propagate _ _ _
  have hgid : ∀ j, ((s.entered e).block j).gid = (s.block j).gid := fun j => by
    obtain ⟨p, hp⟩ := hre.block j
    rw [hp]
    rfl
  have hnone : (s.entered e).findCycle ((s.entered e).wft.filter fun x => x.die == e.die) (32 * e.blk + e.wv) 16 (32 * e.blk + e.wv)
      [32 * e.blk + e.wv] = none := by
    rw [show (s.entered e).wft = s.wft ++ [e] from State.wft_propagate _ _ _, State.findCycle_congr hgid, hc]
  unfold State.entered at hnone ⊢
  unfold State.addEnt
  rw [if_neg h, if_neg (Nat.not_le_of_lt hroom)]
  dsimp only
  rw [hnone]

end

/-! ### The victim (R117) -/

/-- What taking the lesser of two keys, element by element, leaves: an element that none of them precedes. -/
theorem foldl_least {α : Type} (key : α → List Nat) (xs : List α) (m : α) :
    let v := xs.foldl (fun m y => if gidLt (key y) (key m) then y else m) m
    v ∈ m :: xs ∧ (∀ z, gidLt (key z) (key m) = false → gidLt (key z) (key v) = false) ∧ ∀ y ∈ xs, gidLt (key y) (key v) = false := by
  induction xs generalizing m with
  | nil => exact ⟨List.mem_singleton.2 rfl, fun _ h => h, fun y hy => (nomatch hy)⟩
  | cons y ys ih =>
    have hself : gidLt (key y) (key y) = false := Bool.eq_false_iff.2 fun h => by
      have := gidLt_asymm _ _ h
      rw [h] at this
      cases this
    rw [List.foldl_cons]
    by_cases hlt : gidLt (key y) (key m) = true
    · rw [if_pos hlt]
      obtain ⟨hmem, hlow, hleast⟩ := ih y
      refine ⟨List.mem_cons_of_mem _ hmem, fun z hz => hlow z (Bool.eq_false_iff.2 fun hzy => ?_), fun x hx => ?_⟩
      · rw [gidLt_trans _ _ _ hzy hlt] at hz
        cases hz
      · obtain rfl | hx := List.mem_cons.1 hx
        · exact hlow x hself
        · exact hleast x hx
    · rw [if_neg hlt]
      obtain ⟨hmem, hlow, hleast⟩ := ih m
      refine ⟨?_, hlow, fun x hx => ?_⟩
      · obtain h | h := List.mem_cons.1 hmem
        · rw [h]
          exact List.mem_cons_self
        · exact List.mem_cons_of_mem _ (List.mem_cons_of_mem _ h)
      · obtain rfl | hx := List.mem_cons.1 hx
        · exact hlow x (Bool.eq_false_iff.2 hlt)
        · exact hleast x hx

/-- The victim of a cycle is its wave of lowest identity. -/
theorem victimFirst_lowest {s : State} {c rest : List (Nat × WaitEnt)} {k : Nat} {x : WaitEnt} (h : s.victimFirst c = (k, x) :: rest) :
    ∀ y ∈ c, gidLt (idKey (s.block (y.1 / 32)).gid [y.1 % 32]) (idKey (s.block (k / 32)).gid [k % 32]) = false := by
  cases c with
  | nil => exact fun y hy => (nomatch hy)
  | cons a c =>
    obtain ⟨hmem, -, hleast⟩ := foldl_least (fun y : Nat × WaitEnt => s.waveKey y.1 []) (a :: c) a
    set v := (a :: c).foldl (fun m y => if gidLt (s.waveKey y.1 []) (s.waveKey m.1 []) then y else m) a
    have hv : v ∈ a :: c := (List.mem_cons.1 hmem).elim (fun e => e ▸ List.mem_cons_self) id
    have hfirst : s.victimFirst (a :: c) = ((a :: c).dropWhile fun y => y.1 != v.1) ++ ((a :: c).takeWhile fun y => y.1 != v.1) := rfl
    have hk : k = v.1 := by
      rw [hfirst] at h
      cases hd : (a :: c).dropWhile fun y => y.1 != v.1 with
      | nil =>
        have := List.dropWhile_eq_nil_iff.1 hd v hv
        simp at this
      | cons b bs =>
        have hb : ¬ (b.1 != v.1) = true := by
          have := List.head_dropWhile_not (fun y : Nat × WaitEnt => y.1 != v.1) (l := a :: c) (by rw [hd]; simp)
          simp only [hd, List.head_cons] at this
          rw [this]
          simp
        rw [hd, List.cons_append] at h
        have hbk : b = (k, x) := (List.cons.inj h).1
        rw [hbk] at hb
        simpa using hb
    subst hk
    exact hleast

/-! ### What a deadlock withdraws (R117) -/

/-- No wait on the line stays open among withdrawn groups. -/
theorem withdrawFrom_groups (h line : Nat) (gs : List Group) (pc : SMap W64) (age : SMap Nat) :
    ∀ g ∈ (withdrawFrom h line gs pc age).groups, ∀ r ∈ g.waits, r.onLine h line = false := by
  refine foldl_keeps (fun a : Withdrawn => ∀ g ∈ a.groups, ∀ r ∈ g.waits, r.onLine h line = false) _ (fun a g ha => ?_) gs
    ⟨[], pc, age⟩ (fun g hg => (nomatch hg))
  dsimp only
  split
  · next hws =>
    intro x hx r hr
    obtain hx | hx := List.mem_append.1 hx
    · exact ha x hx r hr
    · rw [List.mem_singleton.1 hx] at hr
      exact Bool.eq_false_iff.2 (List.filter_eq_nil_iff.1 hws r hr)
  · dsimp only
    split
    · exact ha
    · intro x hx r hr
      obtain hx | hx := List.mem_append.1 hx
      · exact ha x hx r hr
      · rw [List.mem_singleton.1 hx] at hr
        simpa using (List.mem_filter.1 hr).2

theorem Wave.withdraw_open (w : Wave) (line : Nat) :
    ∀ g ∈ (w.withdraw line).groups ++ (w.withdraw line).frames.flatMap (·.groups), ∀ r ∈ g.waits, r.onLine w.blk line = false := by
  intro g hg
  obtain hg | hg := List.mem_append.1 hg
  · exact withdrawFrom_groups _ _ _ _ _ g hg
  · obtain ⟨f, hf, hgf⟩ := List.mem_flatMap.1 hg
    obtain ⟨f', -, rfl⟩ := List.mem_map.1 hf
    exact withdrawFrom_groups _ _ _ _ _ g hgf

/-- Withdrawing acquires takes them from the gate. -/
theorem State.dropAcquires_frame (s : State) (p : Req → Bool) :
    ∃ es, s.dropAcquires p = { s with gate := s.gate.filter fun q => !(q.lock && q.op == .swap && p q), inbox := es } := by
  unfold State.dropAcquires
  dsimp only
  split
  · refine foldl_keeps (fun u : State => ∃ es, u = { s with gate := s.gate.filter fun q => !(q.lock && q.op == .swap && p q), inbox := es }) _
      (fun u q hu => ?_) _ _ ⟨s.inbox, rfl⟩
    obtain ⟨es, rfl⟩ := hu
    split
    · exact ⟨_, rfl⟩
    · exact ⟨_, rfl⟩
  · next hnone =>
    refine ⟨s.inbox, ?_⟩
    rw [List.filter_eq_self.2 fun q hq => ?_]
    rw [Bool.not_eq_true', Bool.eq_false_iff]
    exact fun hgone => hnone (List.any_eq_true.2 ⟨q, hq, hgone⟩)

section
variable {s : State} {c rest : List (Nat × WaitEnt)} {k : Nat} {x : WaitEnt} (pkg : Bool)

/-- The entries that go with a victim's wait: its own and the other automatic ones of its wave on the line. -/
def fallsWith (x y : WaitEnt) : Bool := y == x || (!y.hold && y.orig == 0 && y.blk == x.blk && y.wv == x.wv && y.line == x.line)

theorem raiseDeadlock_eq (h : s.victimFirst c = (k, x) :: rest) : ∃ p : Trap, p.cause = 0x0A ∧ p.addr = x.va ∧
    s.raiseDeadlock c pkg = ((s.updWave k fun w => { w.withdraw x.line with pend := w.pend ++ [p] }).dropAcquires fun q =>
      q.blk == x.blk && q.wv == x.wv && lineOf 0 q.loc == x.line).dropEnts (fallsWith x) := by
  unfold State.raiseDeadlock
  rw [h]
  exact ⟨_, rfl, rfl, rfl⟩

theorem raiseDeadlock_effect (h : s.victimFirst c = (k, x) :: rest) :
    let t := s.raiseDeadlock c pkg
    t.wft = (s.wft.filter fun y => !fallsWith x y) ∧
    (t.gate = s.gate.filter fun q => !(q.lock && q.op == .swap && (q.blk == x.blk && q.wv == x.wv && lineOf 0 q.loc == x.line))) ∧
    ∃ p : Trap, p.cause = 0x0A ∧ p.addr = x.va ∧ t.wave k = { (s.wave k).withdraw x.line with pend := (s.wave k).pend ++ [p] } := by
  intro t
  obtain ⟨p, hcause, haddr, ht⟩ := raiseDeadlock_eq pkg h
  set u := s.updWave k fun w => { w.withdraw x.line with pend := w.pend ++ [p] } with hu
  have hwave : u.wave k = { (s.wave k).withdraw x.line with pend := (s.wave k).pend ++ [p] } :=
    (s.updWave_becomes k (fun w => { w.withdraw x.line with pend := w.pend ++ [p] }) (fun _ => rfl) fun _ => rfl).wave
  have hframe := s.updWave_frame k fun w => { w.withdraw x.line with pend := w.pend ++ [p] }
  have hwft : u.wft = s.wft := by rw [hu, hframe]
  have hgate : u.gate = s.gate := by rw [hu, hframe]
  obtain ⟨es, hdrop⟩ := u.dropAcquires_frame fun q => q.blk == x.blk && q.wv == x.wv && lineOf 0 q.loc == x.line
  have hre := State.dropEnts_reprioritised (u.dropAcquires fun q => q.blk == x.blk && q.wv == x.wv && lineOf 0 q.loc == x.line) (fallsWith x)
  rw [← ht, hdrop] at hre
  refine ⟨?_, ?_, p, hcause, haddr, ?_⟩
  · rw [show t = _ from hre.rest, hwft]
  · rw [show t = _ from hre.rest, hgate]
  · rw [← hwave, show t = _ from hre.rest]
    rfl

end

/-! ### Parking (R24, R111, R119) -/

section
variable {s : State} {lanes : Mask} {r : WaitR} {barw : Bool}

/-- The state in which a run is parked on one wait, before the wait enters the table. -/
def State.parkedOn (s : State) (lanes : Mask) (r : WaitR) (barw reg : Bool) : State :=
  s.setW { s.w.goTo s.run (s.pc + 8) with groups := s.w.groups ++ [⟨lanes, [{ r with reg := reg }], barw, []⟩] }

theorem park_eq (reg : Bool) (h : (!r.done && r.kind.registered) = reg) :
    s.park lanes [r] barw = ((s.parkedOn lanes r barw reg).enterWaits s.w.key [{ r with reg := reg }]).wake := by
  subst h
  rfl

/-- A wait that is done, or of a kind that has no entry, only parks. -/
theorem park_unregistered (h : r.done = true ∨ r.kind = .tag ∨ r.kind = .count) : s.park lanes [r] barw = (s.parkedOn lanes r barw false).wake := by
  have hreg : (!r.done && r.kind.registered) = false := by
    obtain h | h | h := h <;> rw [h]
    · rfl
    · exact Bool.and_false _
    · exact Bool.and_false _
  have hskip : (r.done || !r.kind.registered || !((s.parkedOn lanes r barw false).wave s.w.key).stillWaits { r with reg := false }) = true := by
    cases hd : r.done with
    | true => rfl
    | false =>
      rw [hd] at hreg
      rw [show r.kind.registered = false from hreg]
      rfl
  rw [park_eq false hreg]
  exact congrArg State.wake (if_pos hskip)

theorem wave_parkedOn (reg : Bool) (h : s.w.st ≠ .absent) : (s.parkedOn lanes r barw reg).wave s.w.key = (s.parkedOn lanes r barw reg).w :=
  State.wave_here h rfl

theorem WaitKind.registered_iff (k : WaitKind) : k.registered = true ↔ k ≠ .tag ∧ k ≠ .count := by cases k <;> decide

/-- An open wait on an object enters the table, or stays unregistered where the table is full. -/
theorem park_registered (hd : r.done = false) (ht : r.kind ≠ .tag) (hc : r.kind ≠ .count) (hst : s.w.st ≠ .absent) :
    let u := s.parkedOn lanes r barw true
    let a := u.addEnt (u.waitEnt s.w.key { r with reg := true })
    s.park lanes [r] barw = (if a.2 then a.1 else a.1.updWave s.w.key fun w =>
      { w with groups := w.groups.map fun g => { g with waits := g.waits.map fun x =>
          if x = { r with reg := true } then { x with reg := false } else x } }).wake := by
  intro u a
  have hkind : r.kind.registered = true := (WaitKind.registered_iff _).2 ⟨ht, hc⟩
  have hstill : (u.wave s.w.key).stillWaits { r with reg := true } = true := by
    rw [show u.wave s.w.key = u.w from wave_parkedOn true hst]
    simp [Wave.stillWaits, u, State.parkedOn, State.setW]
  have henters : (r.done || !r.kind.registered || !(u.wave s.w.key).stillWaits { r with reg := true }) = false := by
    rw [hstill, hkind, hd]
    rfl
  rw [park_eq true (by rw [hd, hkind]; rfl)]
  refine congrArg State.wake ((if_neg (Bool.eq_false_iff.1 henters)).trans ?_)
  rfl

/-- Where the table is full, OVF is set and the wave still waits. -/
theorem park_full (hd : r.done = false) (ht : r.kind ≠ .tag) (hc : r.kind ≠ .count) (hst : s.w.st ≠ .absent)
    (h : (s.parkedOn lanes r barw true).waitEnt s.w.key { r with reg := true } ∉ s.wft)
    (hroom : ¬ s.tableRoom ((s.parkedOn lanes r barw true).waitEnt s.w.key { r with reg := true }).die) :
    ∃ v : State, s.park lanes [r] barw = v.wake ∧
      (v.pfNum (Pf.ovf ((s.parkedOn lanes r barw true).waitEnt s.w.key { r with reg := true }).die)).getLsbD 0 = true ∧ v.wft = s.wft := by
  have hfull := addEnt_full (s := s.parkedOn lanes r barw true) h hroom
  refine ⟨_, park_registered hd ht hc hst, ?_⟩
  rw [hfull, if_neg Bool.false_ne_true, State.updWave_frame]
  refine ⟨?_, rfl⟩
  show (State.pfNum (State.setPf _ _ _) _).getLsbD 0 = true
  rw [State.pfNum_setPf, if_pos rfl]
  simp

end

/-- Settles O33: what making an entry answers, what a cycle withdraws from its victim, and the entry of a parked wait. -/
theorem waitTable : Obligations.WaitTable := by
  unfold Obligations.WaitTable
  refine ⟨fun s e => ?_, fun s lanes r barw => ?_⟩
  · intro room
    refine ⟨addEnt_stands, addEnt_full, fun h hroom => ⟨addEnt_taken (.inr hroom), fun hc => ?_⟩, fun c pkg k x rest h => ?_⟩
    · have hre : State.Reprioritised { s with wft := s.wft ++ [e] } (s.entered e) := .propagate _ _ _
      rw [addEnt_acyclic h hroom hc, hre.rest]
      exact ⟨rfl, rfl, rfl, rfl⟩
    · obtain ⟨hwft, hgate, p, hcause, haddr, hwave⟩ := raiseDeadlock_effect pkg h
      refine ⟨victimFirst_lowest h, hwft, fun q => ?_, p, hcause, haddr, by rw [hwave], fun g hg r hr ⟨hd, hreg, hline⟩ => ?_⟩
      · rw [hgate, List.mem_filter]
        simp only [Bool.not_eq_true', Bool.eq_false_iff, ne_eq, Bool.and_eq_true, beq_iff_eq, and_assoc]
      · rw [hwave] at hg
        have := (s.wave k).withdraw_open x.line g hg r hr
        simp [WaitR.onLine, hd, hreg, hline] at this
  · intro w
    refine ⟨park_unregistered, fun hd ht hc hst => ?_⟩
    intro u e room
    refine ⟨fun h => ?_, park_full hd ht hc hst⟩
    exact (park_registered hd ht hc hst).trans (congrArg State.wake (if_pos (addEnt_taken (s := s.parkedOn lanes r barw true) h)))

end Machine
end Sys2Proof
end

section
/-! SUPPORT. Barrier lines (R98, R99, Table 23): a line reads as the barrier that was written, and which waves a closing phase reaches. -/

namespace Sys2Proof
open Machine
namespace Machine

/-! ### A line as it was written -/

/-- The bytes of a part of what was written. -/
theorem Memory.bytes_setBytes_part (m : Memory) (a j n : Nat) (bs : List Byte) (h : j + n ≤ bs.length) :
    Memory.bytes (Memory.setBytes m a bs) (a + j) n = (bs.drop j).take n := by
  induction n generalizing j with
  | zero => rw [List.take_zero]; rfl
  | succ n ih =>
    have hj : j < bs.length := by omega
    have hbyte : Memory.byte (Memory.setBytes m a bs) (a + j) = bs[j] := by
      rw [Memory.byte_setBytes, if_pos ⟨by omega, by omega⟩, Nat.add_sub_cancel_left, List.getD_eq_getElem?_getD, List.getElem?_eq_getElem hj]
      rfl
    rw [Memory.bytes, hbyte, Nat.add_assoc, ih (j + 1) (by omega), List.drop_eq_getElem_cons hj, List.take_succ_cons]

/-- A field of a line reads what was written there. -/
theorem State.field_setLocBytes (s : State) {loc j n : Nat} {bs : List Byte} (ha : loc % 64 = 0) (hj : j < 64) (h : j + n ≤ bs.length) :
    (s.setLocBytes loc bs).loc (loc + j) n = fieldAt bs j n := by
  have hbase := objBase_add ha hj
  unfold objBase at hbase
  rw [isDm_add ha hj] at hbase
  unfold State.loc State.setLocBytes Memory.num fieldAt
  rw [isDm_add ha hj]
  split
  · next hd =>
    simp only [hd, if_true] at hbase
    rw [hbase]
    exact congrArg leNat (Memory.bytes_setBytes_part s.dsm _ j n bs h)
  · rw [s.writeDev_mem, Memory.bytes_setBytes_part _ _ _ _ _ h]

section
variable (b : Bar) (hn : b.npart < 2 ^ 32) (ha : b.arrived < 2 ^ 32)

theorem Bar.line_length : b.line.length = 64 := by simp [Bar.line]

theorem Bar.line_ovr : fieldAt b.line 1 1 = if b.ovr then 1 else 0 := by
  have h := leNat_leBytes 1 (if b.ovr then 1 else 0) (by split <;> decide)
  simp [Bar.line, fieldAt, h]

include hn in
theorem Bar.line_npart : fieldAt b.line 4 4 = b.npart := by
  have h := fieldAt_leBytes_self 4 b.npart hn
  simpa [Bar.line, fieldAt_append_left, fieldAt_append_right] using h

theorem Bar.line_phase : fieldAt b.line 8 8 = b.phase.toNat := by
  have h := fieldAt_leBytes_self 8 b.phase.toNat b.phase.isLt
  simpa [Bar.line, fieldAt_append_left, fieldAt_append_right] using h

include ha in
theorem Bar.line_arrived : fieldAt b.line 0x10 4 = b.arrived := by
  have h := fieldAt_leBytes_self 4 b.arrived ha
  simpa [Bar.line, fieldAt_append_left, fieldAt_append_right] using h

theorem Bar.line_high : fieldAt b.line 0x14 4 = b.high.toNat := by
  have h := fieldAt_leBytes_self 4 b.high.toNat b.high.isLt
  simpa [Bar.line, fieldAt_append_left, fieldAt_append_right] using h

theorem Bar.line_expect : fieldAt b.line 0x18 8 = b.expect.toNat := by
  have h := fieldAt_leBytes_self 8 b.expect.toNat b.expect.isLt
  simpa [Bar.line, fieldAt_append_left, fieldAt_append_right] using h

theorem Bar.line_landed : fieldAt b.line 0x20 8 = b.landed.toNat := by
  have h := fieldAt_leBytes_self 8 b.landed.toNat b.landed.isLt
  simpa [Bar.line, fieldAt_append_left, fieldAt_append_right] using h

theorem Bar.line_landnext : fieldAt b.line 0x28 8 = b.landnext.toNat := by
  have h := fieldAt_leBytes_self 8 b.landnext.toNat b.landnext.isLt
  simpa [Bar.line, fieldAt_append_left, fieldAt_append_right] using h

end

theorem State.bar_line (s : State) (h : Nat) {loc : Nat} (hb : loc ≠ blkLoc) : s.bar h loc =
    { npart := s.loc (loc + 4) 4, ovr := s.loc (loc + 1) 1 % 2 == 1, phase := BitVec.ofNat 64 (s.loc (loc + 8) 8),
      arrived := s.loc (loc + 0x10) 4, high := BitVec.ofNat 32 (s.loc (loc + 0x14) 4),
      expect := BitVec.ofNat 64 (s.loc (loc + 0x18) 8), landed := BitVec.ofNat 64 (s.loc (loc + 0x20) 8),
      landnext := BitVec.ofNat 64 (s.loc (loc + 0x28) 8) } := if_neg hb

/-- A barrier of a line stands as long as the line does. -/
theorem State.bar_standing {s t : State} (h : ∀ a n, t.loc a n = s.loc a n) (j : Nat) {loc : Nat} (hb : loc ≠ blkLoc) :
    t.bar j loc = s.bar j loc := by
  rw [t.bar_line j hb, s.bar_line j hb]
  simp only [h]

theorem State.setBar_line (s : State) (h : Nat) {loc : Nat} (b : Bar) (hb : loc ≠ blkLoc) : s.setBar h loc b = s.setLocBytes loc b.line :=
  if_neg hb

/-- A line reads as the barrier that was written to it. -/
theorem State.bar_setBar_line (s : State) (h j : Nat) {loc : Nat} (b : Bar) (ha : loc % 64 = 0) (hb : loc ≠ blkLoc) (hn : b.npart < 2 ^ 32)
    (harr : b.arrived < 2 ^ 32) : (s.setBar h loc b).bar j loc = b := by
  have hlen := b.line_length
  rw [s.setBar_line h b hb, State.bar_line _ j hb]
  rw [s.field_setLocBytes ha (by omega) (by omega), s.field_setLocBytes ha (by omega) (by omega),
    s.field_setLocBytes ha (by omega) (by omega), s.field_setLocBytes ha (by omega) (by omega),
    s.field_setLocBytes ha (by omega) (by omega), s.field_setLocBytes ha (by omega) (by omega),
    s.field_setLocBytes ha (by omega) (by omega), s.field_setLocBytes ha (by omega) (by omega)]
  rw [b.line_npart hn, b.line_ovr, b.line_phase, b.line_arrived harr, b.line_high, b.line_expect, b.line_landed, b.line_landnext]
  simp only [BitVec.ofNat_toNat, BitVec.setWidth_eq]
  cases b with
  | mk npart ovr phase arrived high expect landed landnext => cases ovr <;> rfl

theorem State.bar_npart_lt (s : State) (h : Nat) {loc : Nat} (hb : loc ≠ blkLoc) : (s.bar h loc).npart < 2 ^ 32 := by
  rw [s.bar_line h hb]
  exact s.loc_lt (loc + 4) 4

theorem State.bar_arrived_lt (s : State) (h : Nat) {loc : Nat} (hb : loc ≠ blkLoc) : (s.bar h loc).arrived < 2 ^ 32 := by
  rw [s.bar_line h hb]
  exact s.loc_lt (loc + 0x10) 4

theorem State.setBar_line_frame (s : State) (h : Nat) {loc : Nat} (b : Bar) (hb : loc ≠ blkLoc) :
    ∃ m d cs p, s.setBar h loc b = { s with mem := m, dsm := d, ctxs := cs, poison := p } := by
  rw [s.setBar_line h b hb]
  exact s.setLocBytes_frame loc _

/-! ### Many waves changed alike -/

/-- A wave that is changed as often as its key is listed. -/
theorem State.wave_updWaves (f : Wave → Wave) (hst : ∀ w, (f w).st = w.st) (hkey : ∀ w, (f w).key = w.key) (ks : List Nat) (s : State) (j : Nat) :
    (ks.foldl (fun (s : State) k => s.updWave k f) s).wave j = f^[ks.count j] (s.wave j) := by
  induction ks generalizing s with
  | nil => rfl
  | cons k ks ih =>
    have hu := s.updWave_becomes k f hst hkey
    rw [List.foldl_cons, ih, List.count_cons]
    by_cases h : k = j
    · subst h
      rw [hu.wave, beq_self_eq_true, if_pos rfl, Function.iterate_succ_apply]
    · rw [hu.others j fun e => h e.symm, if_neg (by simpa using h), Nat.add_zero]

/-- What a change of waves keeps stands in every wave. -/
theorem State.wave_updWaves_keeps {α : Type} (p : Wave → α) {f : Wave → Wave} (hst : ∀ w, (f w).st = w.st) (hkey : ∀ w, (f w).key = w.key)
    (hp : ∀ w, p (f w) = p w) (ks : List Nat) (s : State) (j : Nat) :
    p ((ks.foldl (fun (s : State) k => s.updWave k f) s).wave j) = p (s.wave j) := by
  rw [s.wave_updWaves f hst hkey]
  generalize ks.count j = n
  induction n with
  | zero => rfl
  | succ n ih => rw [Function.iterate_succ_apply', hp, ih]

theorem State.updWave_here {s : State} {k : Nat} (hs : s.w.st ≠ .absent) (hk : s.w.key = k) (f : Wave → Wave) : (s.updWave k f).w = f s.w := by
  unfold State.updWave State.setWave
  rw [State.wave_here hs hk, if_pos ⟨hs, hk⟩]

/-- The wave that is checked out, when each listed wave is changed alike. -/
theorem State.w_updWaves (f : Wave → Wave) (hst : ∀ w, (f w).st = w.st) (hkey : ∀ w, (f w).key = w.key) (ks : List Nat) (s : State)
    (hs : s.w.st ≠ .absent) : (ks.foldl (fun (s : State) k => s.updWave k f) s).w = f^[ks.count s.w.key] s.w := by
  induction ks generalizing s with
  | nil => rfl
  | cons k ks ih =>
    rw [List.foldl_cons, List.count_cons]
    by_cases h : s.w.key = k
    · have hw := State.updWave_here hs h f
      rw [ih _ (by rw [hw, hst]; exact hs), hw, hkey, h, beq_self_eq_true, if_pos rfl, Function.iterate_succ_apply]
    · have hw : (s.updWave k f).w = s.w := by
        unfold State.updWave State.setWave
        rw [if_neg fun e => h e.2]
      rw [ih _ (by rw [hw]; exact hs), hw, if_neg (by simpa using fun e => h e.symm), Nat.add_zero]

theorem SMap.key_mem_insert {α : Type} (m : SMap α) (q : Nat) (y : α) : q ∈ (SMap.insert m q y).map Prod.fst := by
  induction m with
  | nil => exact List.mem_singleton.2 rfl
  | cons e m ih =>
    unfold SMap.insert
    split
    · exact List.mem_cons_self
    · split
      · next h => exact List.mem_cons.2 (.inl h)
      · exact List.mem_cons_of_mem _ ih

theorem State.key_mem_waveKeys {s : State} (h : s.w.st ≠ .absent) : s.w.key ∈ s.waveKeys := by
  unfold State.waveKeys
  rw [if_neg h]
  exact SMap.key_mem_insert _ _ _

/-! ### A phase closes (R99) -/

/-- What the close of a phase notes in a wave. -/
def noteClosed (loc : Nat) (phase : W64) (high : W32) (w : Wave) : Wave :=
  { w with
    arrivals := w.arrivals.map (closeArr loc phase high)
    groups := closeGroups loc phase high w.groups
    frames := w.frames.map fun f => { f with groups := closeGroups loc phase high f.groups } }

/-- A barrier with its next phase open. -/
def Bar.opened (b : Bar) (npart : Nat) : Bar :=
  { b with npart := npart, phase := b.phase + 1, arrived := 0, high := 0xFFFFFFFF, expect := 0, landed := b.landnext, landnext := 0 }

/-- The next phase of a barrier opens: waves note the close, and the automatic waits on it go from the table. -/
def State.phaseOpened (s : State) (h loc : Nat) (b : Bar) (ks : List Nat) : State :=
  let t := ks.foldl (fun (s : State) k => s.updWave k (noteClosed loc b.phase b.high)) s
  (t.setBar h loc (b.opened (if loc = blkLoc then (ks.filter fun k => (t.wave k).st != .ended).length else b.npart))).dropEnts
    fun e => !e.hold && e.orig == 0 && e.line == lineOf h loc

/-- Noting a close again changes nothing more of the arrivals. -/
theorem noteClosed_arrivals (loc : Nat) (phase : W64) (high : W32) (n : Nat) (w : Wave) :
    ((noteClosed loc phase high)^[n + 1] w).arrivals = w.arrivals.map (closeArr loc phase high) := by
  induction n with
  | zero => rfl
  | succ n ih =>
    rw [Function.iterate_succ_apply']
    show ((noteClosed loc phase high)^[n + 1] w).arrivals.map (closeArr loc phase high) = _
    rw [ih, List.map_map]
    refine List.map_congr_left fun a _ => ?_
    rw [Function.comp_apply]
    by_cases h : (a.loc == loc && a.phase == phase) = true
    · simp only [closeArr, h, if_true]
    · simp only [closeArr, h, if_false, Bool.false_eq_true]

/-- A round without requests leaves everything as it is. -/
theorem State.applyRound_empty {s : State} {loc : Nat} (h : ∀ q ∈ s.reqs, q.bar ≠ loc) (phase : W64) : s.applyRound loc phase = s := by
  have hmine : ∀ q ∈ s.reqs, (q.bar == loc && q.round == phase) = false := fun q hq => by simp [h q hq]
  have hnone : s.reqs.filter (fun q => q.bar == loc && q.round == phase) = [] :=
    List.filter_eq_nil_iff.2 fun q hq => Bool.eq_false_iff.1 (hmine q hq)
  have hall : s.reqs.filter (fun q => !(q.bar == loc && q.round == phase)) = s.reqs :=
    List.filter_eq_self.2 fun q hq => by rw [hmine q hq]; rfl
  unfold State.applyRound
  dsimp only
  rw [hnone, hall]
  rfl

section
variable {s : State} {h loc : Nat}

/-- A phase that not every participant has reached stays open. -/
theorem checkClose_open (hn : (s.bar h loc).arrived ≠ (s.bar h loc).npart ∨ (s.bar h loc).ovr = true) : s.checkClose h loc = s := by
  unfold State.checkClose
  dsimp only
  rw [if_pos]
  simpa using hn

theorem underWay_none (hq : ∀ q ∈ s.reqs, q.bar ≠ loc) (phase : W64) :
    (s.reqs.any fun q => q.bar == loc && q.round == phase && s.underWay q) = false :=
  List.any_eq_false.2 fun q hq' => by simp [hq q hq']

section
variable (hb : loc ≠ blkLoc) (hn : (s.bar h loc).arrived = (s.bar h loc).npart) (ho : (s.bar h loc).ovr = false)
include hb hn ho

/-- More bytes than were expected set OVR. -/
theorem checkClose_overrun (hl : (s.bar h loc).expect < (s.bar h loc).landed) :
    s.checkClose h loc = s.setBar h loc { s.bar h loc with ovr := true } := by
  unfold State.checkClose
  dsimp only
  rw [if_neg (by simp [hn, ho]), if_neg (by simp [hb]), if_pos hl]

/-- A complete phase at a line opens the next one. -/
theorem checkClose_line (hl : (s.bar h loc).landed = (s.bar h loc).expect) (hq : ∀ q ∈ s.reqs, q.bar ≠ loc) :
    s.checkClose h loc = s.phaseOpened h loc (s.bar h loc) s.waveKeys := by
  unfold State.checkClose
  dsimp only
  rw [if_neg (by simp [hn, ho]), if_neg (by simp [hb]), if_neg (by rw [hl]; exact BitVec.lt_irrefl _), if_neg (by simp [hl, underWay_none hq]),
    State.applyRound_empty hq]
  unfold State.phaseOpened State.barWaves noteClosed Bar.opened
  simp only [if_neg hb]

/-- What a complete phase at a line leaves: the next one, open, and its closed HIGH in the arrivals of the wave that is checked out. -/
theorem checkClose_line_effect (ha : loc % 64 = 0) (hl : (s.bar h loc).landed = (s.bar h loc).expect) (hq : ∀ q ∈ s.reqs, q.bar ≠ loc) :
    (s.checkClose h loc).bar h loc = (s.bar h loc).opened (s.bar h loc).npart ∧
    (s.w.st ≠ .absent → (s.checkClose h loc).w.arrivals = s.w.arrivals.map (closeArr loc (s.bar h loc).phase (s.bar h loc).high)) := by
  rw [checkClose_line hb hn ho hl hq]
  unfold State.phaseOpened
  dsimp only
  rw [if_neg hb]
  set b := s.bar h loc with hbar
  set t := s.waveKeys.foldl (fun (s : State) k => s.updWave k (noteClosed loc b.phase b.high)) s with ht
  obtain ⟨m, d, cs, p, hset⟩ := t.setBar_line_frame h (b.opened b.npart) hb
  refine ⟨?_, fun hs => ?_⟩
  · rw [State.bar_standing (State.Upkeep.dropEnts _ _).loc h hb]
    exact t.bar_setBar_line h h _ ha hb (s.bar_npart_lt h hb) (Nat.two_pow_pos 32)
  · have hkey := List.count_pos_iff.2 (State.key_mem_waveKeys hs)
    obtain ⟨n, hcount⟩ := Nat.exists_eq_succ_of_ne_zero (Nat.pos_iff_ne_zero.1 hkey)
    rw [(State.dropEnts_reprioritised _ _).rest]
    show (t.setBar h loc (b.opened b.npart)).w.arrivals = _
    rw [hset]
    show t.w.arrivals = _
    rw [ht, State.w_updWaves (noteClosed loc b.phase b.high) (fun _ => rfl) (fun _ => rfl) _ s hs, hcount, noteClosed_arrivals]

end

end

end Machine
end Sys2Proof
end

section
/-! SUPPORT. Arrivals and landed bytes at a barrier line (R99). -/

namespace Sys2Proof
open Machine
namespace Machine

theorem State.setBar_line_keeps (s : State) (h : Nat) {loc : Nat} (b : Bar) (hb : loc ≠ blkLoc) :
    (s.setBar h loc b).w = s.w ∧ (s.setBar h loc b).reqs = s.reqs := by
  obtain ⟨m, d, cs, q, hset⟩ := s.setBar_line_frame h b hb
  rw [hset]
  exact ⟨rfl, rfl⟩

theorem State.dropEnts_keeps (s : State) (p : WaitEnt → Bool) : (s.dropEnts p).w = s.w ∧ (s.dropEnts p).reqs = s.reqs := by
  rw [(s.dropEnts_reprioritised p).rest]
  exact ⟨rfl, rfl⟩

/-- A barrier after one more participant has arrived, with its value and its expected bytes. -/
def Bar.reached (b : Bar) (p : W32) (e : W64) : Bar :=
  { b with arrived := b.arrived + 1, high := if b.high = 0xFFFFFFFF ∨ b.high < p then p else b.high, expect := b.expect + e }

/-- A wave whose set gains an arrival. -/
def Wave.noteArrival (a : Arr) (w : Wave) : Wave := { w with arrivals := w.arrivals ++ [a] }

/-- An arrival at a line: its barrier counts it and the wave's set gains it; then the phase closes where it is complete. -/
theorem arrive_line (s : State) {k loc : Nat} (va : W64) (p : W32) (e word : W64) (run act : Mask) (ha : loc % 64 = 0) (hb : loc ≠ blkLoc)
    (hs : s.w.st ≠ .absent) (hk : s.w.key = k) (hn : (s.bar (k / 32) loc).arrived + 1 < 2 ^ 32) :
    ∃ u : State, s.arrive k loc va p e word run act = u.checkClose (k / 32) loc ∧
      u.bar (k / 32) loc = (s.bar (k / 32) loc).reached p e ∧
      u.w.arrivals = s.w.arrivals ++ [⟨loc, va, isDm loc, (s.bar (k / 32) loc).phase, p, word, run, act, none, false⟩] ∧
      u.w.st = s.w.st ∧ u.reqs = s.reqs := by
  set b := s.bar (k / 32) loc with hbar
  have hhigh : (if b.high = 0xFFFFFFFF then p else if b.high < p then p else b.high) =
      if b.high = 0xFFFFFFFF ∨ b.high < p then p else b.high := by
    by_cases h : b.high = 0xFFFFFFFF
    · rw [if_pos h, if_pos (.inl h)]
    · rw [if_neg h]
      simp only [h, false_or]
  let note := Wave.noteArrival ⟨loc, va, isDm loc, b.phase, p, word, run, act, none, false⟩
  let s₁ := s.setBar (k / 32) loc (b.reached p e)
  let s₂ := s₁.updWave k note
  let s₃ := s₂.dropEnts fun x => x.hold && x.blk == k / 32 && x.wv == k % 32 && x.line == lineOf (k / 32) loc
  obtain ⟨hw₁, hr₁⟩ : s₁.w = s.w ∧ s₁.reqs = s.reqs := s.setBar_line_keeps (k / 32) (b.reached p e) hb
  have hw₂ : s₂.w = note s.w := by
    rw [← hw₁]
    exact State.updWave_here (by rw [hw₁]; exact hs) (by rw [hw₁]; exact hk) note
  have hr₂ : s₂.reqs = s₁.reqs := by
    show (s₁.updWave k note).reqs = _
    rw [s₁.updWave_frame k note]
  obtain ⟨hw₃, hr₃⟩ : s₃.w = s₂.w ∧ s₃.reqs = s₂.reqs := s₂.dropEnts_keeps _
  have hloc (a n : Nat) : s₃.loc a n = s₁.loc a n := by
    refine ((State.Upkeep.dropEnts s₂ _).loc a n).trans ?_
    show (s₁.updWave k note).loc a n = _
    rw [s₁.updWave_frame k note]
    rfl
  refine ⟨s₃, ?_, ?_, ?_, ?_, ?_⟩
  · unfold State.arrive
    simp only [← hbar, hhigh, hb, decide_false, Bool.false_and, Bool.false_eq_true, if_false]
    rfl
  · rw [State.bar_standing hloc _ hb]
    exact s.bar_setBar_line _ _ _ ha hb (s.bar_npart_lt _ hb) hn
  · rw [hw₃, hw₂]
    rfl
  · rw [hw₃, hw₂]
    rfl
  · rw [hr₃, hr₂, hr₁]

/-- What an arrival at a line leaves (R99). -/
theorem arrive_line_effect (s : State) {k loc : Nat} (va : W64) (p : W32) (e word : W64) (run act : Mask) (ha : loc % 64 = 0) (hb : loc ≠ blkLoc)
    (hq : ∀ q ∈ s.reqs, q.bar ≠ loc) (hs : s.w.st ≠ .absent) (hk : s.w.key = k) (hn : (s.bar (k / 32) loc).arrived + 1 < 2 ^ 32) :
    let b := s.bar (k / 32) loc
    let t := s.arrive k loc va p e word run act
    (b.arrived + 1 ≠ b.npart → t.bar (k / 32) loc = b.reached p e ∧
      ∃ a ∈ t.w.arrivals, a.loc = loc ∧ a.phase = b.phase ∧ a.p = p ∧ a.closed = none) ∧
    (b.arrived + 1 = b.npart → b.ovr = false → b.landed = b.expect + e →
      t.bar (k / 32) loc = (b.reached p e).opened b.npart ∧
      ∃ a ∈ t.w.arrivals, a.loc = loc ∧ a.phase = b.phase ∧ a.p = p ∧ a.closed = some (b.reached p e).high) ∧
    (b.arrived + 1 = b.npart → b.ovr = false → b.expect + e < b.landed →
      (t.bar (k / 32) loc).ovr = true ∧ (t.bar (k / 32) loc).phase = b.phase) := by
  obtain ⟨u, hu, hbar, harr, hst, hreqs⟩ := arrive_line s va p e word run act ha hb hs hk hn
  intro b t
  rw [show t = u.checkClose (k / 32) loc from hu]
  refine ⟨fun hopen => ?_, fun hlast hovr hland => ?_, fun hlast hovr hland => ?_⟩
  · rw [checkClose_open (by rw [hbar]; exact .inl hopen), hbar, harr]
    exact ⟨rfl, _, List.mem_append_right _ (List.mem_singleton.2 rfl), rfl, rfl, rfl, rfl⟩
  · obtain ⟨hnext, hclosed⟩ := checkClose_line_effect hb (by rw [hbar]; exact hlast) (by rw [hbar]; exact hovr) ha
      (by rw [hbar]; exact hland) (by rw [hreqs]; exact hq)
    rw [hbar] at hnext hclosed
    rw [hnext, hclosed (by rw [hst]; exact hs), harr, List.map_append]
    refine ⟨rfl, _, List.mem_append_right _ (List.mem_singleton.2 rfl), ?_⟩
    unfold closeArr
    rw [if_pos (by simp [Bar.reached])]
    exact ⟨rfl, rfl, rfl, rfl⟩
  · rw [checkClose_overrun hb (by rw [hbar]; exact hlast) (by rw [hbar]; exact hovr) (by rw [hbar]; exact hland), hbar,
      u.bar_setBar_line (k / 32) (k / 32) { b.reached p e with ovr := true } ha hb (s.bar_npart_lt _ hb) hn]
    exact ⟨rfl, rfl⟩

/-- Bytes that land at a line (R99). -/
theorem land_line_effect (s : State) (h n : Nat) {loc : Nat} (ha : loc % 64 = 0) (hb : loc ≠ blkLoc) (hq : ∀ q ∈ s.reqs, q.bar ≠ loc) :
    let b := s.bar h loc
    (s.land h loc n true).bar h loc = { b with landnext := b.landnext + BitVec.ofNat 64 n } ∧
    (b.arrived ≠ b.npart → (s.land h loc n false).bar h loc = { b with landed := b.landed + BitVec.ofNat 64 n }) ∧
    (b.arrived = b.npart → b.ovr = false → b.landed + BitVec.ofNat 64 n = b.expect → (s.land h loc n false).bar h loc = b.opened b.npart) := by
  intro b
  have hnpart := s.bar_npart_lt h hb
  have harrived := s.bar_arrived_lt h hb
  have hwrite := s.bar_setBar_line h h { b with landed := b.landed + BitVec.ofNat 64 n } ha hb hnpart harrived
  obtain ⟨-, hreqs⟩ := s.setBar_line_keeps h { b with landed := b.landed + BitVec.ofNat 64 n } hb
  refine ⟨s.bar_setBar_line h h _ ha hb hnpart harrived, fun hopen => ?_, fun hlast hovr hland => ?_⟩
  · show ((s.setBar h loc { b with landed := b.landed + BitVec.ofNat 64 n }).checkClose h loc).bar h loc = _
    rw [checkClose_open (by rw [hwrite]; exact .inl hopen), hwrite]
  · have heff := checkClose_line_effect (s := s.setBar h loc { b with landed := b.landed + BitVec.ofNat 64 n }) hb (by rw [hwrite]; exact hlast)
      (by rw [hwrite]; exact hovr) ha (by rw [hwrite]; exact hland) (by rw [hreqs]; exact hq)
    rw [hwrite] at heff
    exact heff.1

end Machine
end Sys2Proof
end

section
/-! SUPPORT. The block barrier closes (R41, R47, R73, R102, R248): what the fold of the waves' views leaves in the block and in each wave,
and who answers a conflict. -/

namespace Sys2Proof
open Machine
namespace Machine

/-! ### The fold of the waves' views -/

/-- The fold of a block's wave views over the view that each of them started from. -/
def State.waveFold (s : State) (h : Nat) : Fold :=
  (s.wavesOf h).foldl (fun f k => f.member (k % 32) (s.wave k).settled.bytes
    (s.overByte (s.block h).ctx (overlayOn (s.block h).start (s.block h).view))) Fold.empty

/-- The partials of the waves of a block, combined in ascending wave order. -/
def State.waveParts (s : State) (h : Nat) : SMap Part := (s.wavesOf h).foldl (fun p k => combineParts p (s.wave k).settled.parts) []

/-- Whether every wave of a block has ended or exited. -/
def State.wavesOut (s : State) (h : Nat) : Bool := (s.wavesOf h).all fun k => (s.wave k).exitedAll

/-- The block after its waves' views are folded into its own. -/
def State.foldedBlock (s : State) (h : Nat) : Block :=
  let b := s.block h
  { b with
    view := SMap.over b.view (s.waveFold h).bytes
    parts := combineParts b.parts (s.waveParts h)
    vis := combineParts b.vis (s.waveParts h)
    charge := b.charge + (s.wavesOf h).foldl (fun n k => n + (s.wave k).settled.charge) 0
    wtag := []
    rtag := []
    carried := if s.wavesOut h then b.carried ++ (s.waveFold h).confl.map Prod.fst else b.carried }

section
variable (s : State) (h : Nat)

theorem foldWaves_fst : (s.foldWaves h).1 =
    (s.wavesOf h).foldl (fun (s' : State) k => s'.updWave k fun w => w.renewed (s.foldedBlock h).vis) (s.setBlock h (s.foldedBlock h)) := by
  unfold State.foldWaves
  dsimp only
  split <;> rfl

/-- Without a conflict, or where every wave is out, no wave answers. -/
theorem foldWaves_quiet (hq : (s.waveFold h).confl = [] ∨ s.wavesOut h = true) : (s.foldWaves h).2 = none := by
  unfold State.foldWaves
  dsimp only
  split
  · next r va a second l hr hc =>
    obtain hnone | hout := hq
    · exact absurd (hc.symm.trans hnone) (List.cons_ne_nil _ _)
    · exact if_pos hout
  · rfl

/-- Otherwise the conflict at the lowest address names its higher wave. -/
theorem foldWaves_conflict {r : Conflict} {x : Nat × Nat × Nat} {l : List (Nat × Nat × Nat)} (ho : s.wavesOut h = false)
    (hr : (s.waveFold h).record = some r) (hc : (s.waveFold h).confl = x :: l) : (s.foldWaves h).2 = some (x.2.2, r) := by
  obtain ⟨va, first, second⟩ := x
  unfold State.foldWaves
  dsimp only
  split
  · next r' va' first' second' l' hr' hc' =>
    cases hr'.symm.trans hr
    cases hc'.symm.trans hc
    exact if_neg (by rw [← State.wavesOut, ho]; exact Bool.false_ne_true)
  · next hno => exact absurd hc (hno _ _ _ _ _ hr)

end

/-- `u` is `s` after the fold of a block's waves, except for traps that pend. -/
structure State.Folded (s : State) (h : Nat) (u : State) : Prop where
  block : u.block h = s.foldedBlock h
  mem : u.mem = s.mem
  wave : ∀ k ∈ s.wavesOf h, ∃ pend, u.wave k = { (s.wave k).renewed (s.foldedBlock h).vis with pend := pend }
  st : ∀ k, (u.wave k).st = (s.wave k).st

theorem Wave.renewed_keeps (vis : SMap Part) (w : Wave) : (w.renewed vis).st = w.st ∧ (w.renewed vis).key = w.key ∧ (w.renewed vis).pend = w.pend := by
  unfold Wave.renewed
  cases w.region <;> exact ⟨rfl, rfl, rfl⟩

theorem State.setBlock_frame (s : State) (h : Nat) (b : Block) :
    s.setBlock h b = { s with b := (s.setBlock h b).b, blocks := (s.setBlock h b).blocks } := by
  unfold State.setBlock
  split <;> rfl

theorem State.wave_setBlock (s : State) (h : Nat) (b : Block) (j : Nat) : (s.setBlock h b).wave j = s.wave j := by
  rw [s.setBlock_frame h b]
  rfl

section
variable (s : State) (h : Nat)

/-- A field of a wave that the fold leaves as it was. -/
theorem foldWaves_keeps {α : Type} (p : Wave → α) (hp : ∀ vis w, p (Wave.renewed w vis) = p w) (j : Nat) :
    p ((s.foldWaves h).1.wave j) = p (s.wave j) := by
  rw [foldWaves_fst, State.wave_updWaves_keeps p (fun w => (w.renewed_keeps _).1) (fun w => (w.renewed_keeps _).2.1) (hp _), State.wave_setBlock]

theorem foldWaves_folded (hnd : (s.wavesOf h).Nodup) : s.Folded h (s.foldWaves h).1 where
  block := by
    obtain ⟨w, ws, hw⟩ := State.updWaves_frame (fun w => w.renewed (s.foldedBlock h).vis) (s.wavesOf h) (s.setBlock h (s.foldedBlock h))
    have hb : (s.setBlock h (s.foldedBlock h)).block h = s.foldedBlock h := by
      rw [s.block_setBlock h h _ fun hst hk => ?_, if_pos rfl]
      have hhere := State.block_here hst hk
      exact ⟨by show (s.block h).st ≠ _; rw [hhere]; exact hst, by show (s.block h).handle = h; rw [hhere]; exact hk⟩
    rw [foldWaves_fst, hw]
    exact hb
  mem := by
    obtain ⟨w, ws, hw⟩ := State.updWaves_frame (fun w => w.renewed (s.foldedBlock h).vis) (s.wavesOf h) (s.setBlock h (s.foldedBlock h))
    rw [foldWaves_fst, hw, s.setBlock_frame h]
  wave := fun k hk => by
    rw [foldWaves_fst, State.wave_updWaves _ (fun w => (Wave.renewed_keeps _ w).1) (fun w => (Wave.renewed_keeps _ w).2.1),
      List.count_eq_one_of_mem hnd hk, State.wave_setBlock]
    exact ⟨_, rfl⟩
  st := foldWaves_keeps s h Wave.st fun vis w => (w.renewed_keeps vis).1

end

/-- A wave in which one more trap pends. -/
def Wave.noteTrap (u : Trap) (w : Wave) : Wave := { w with pend := w.pend ++ [u] }

/-- A trap that pends in a wave leaves the rest of the fold. -/
theorem State.Folded.noteTrap {s u : State} {h : Nat} (hu : s.Folded h u) (k : Nat) (x : Trap) : s.Folded h (u.updWave k (Wave.noteTrap x)) := by
  have hw := u.updWave_becomes k (Wave.noteTrap x) (fun _ => rfl) fun _ => rfl
  refine ⟨?_, ?_, fun j hj => ?_, fun j => ?_⟩
  · rw [u.updWave_frame k]
    exact hu.block
  · rw [u.updWave_frame k]
    exact hu.mem
  · by_cases hjk : j = k
    · obtain ⟨pend, hp⟩ := hu.wave j hj
      rw [hjk, hw.wave, ← hjk, hp]
      exact ⟨_, rfl⟩
    · rw [hw.others j hjk]
      exact hu.wave j hj
  · by_cases hjk : j = k
    · rw [hjk, hw.wave, ← hu.st]
      rfl
    · rw [hw.others j hjk]
      exact hu.st j

/-! ### The next phase of the block barrier -/

section
variable (u : State) (h : Nat) (b : Bar) (ks : List Nat)

theorem phaseOpened_wave (j : Nat) : (u.phaseOpened h blkLoc b ks).wave j =
    (ks.foldl (fun (s : State) k => s.updWave k (noteClosed blkLoc b.phase b.high)) u).wave j := by
  unfold State.phaseOpened State.setBar
  dsimp only
  rw [if_pos rfl, if_pos rfl, (State.dropEnts_reprioritised _ _).rest, State.updBlock_frame]
  rfl

theorem phaseOpened_keeps {α : Type} (p : Wave → α) (hp : ∀ w, p (noteClosed blkLoc b.phase b.high w) = p w) (j : Nat) :
    p ((u.phaseOpened h blkLoc b ks).wave j) = p (u.wave j) := by
  rw [phaseOpened_wave, State.wave_updWaves_keeps p (f := noteClosed blkLoc b.phase b.high) (fun _ => rfl) (fun _ => rfl) hp]

theorem phaseOpened_member {ks : List Nat} (hnd : ks.Nodup) {j : Nat} (hj : j ∈ ks) :
    (u.phaseOpened h blkLoc b ks).wave j = noteClosed blkLoc b.phase b.high (u.wave j) := by
  rw [phaseOpened_wave, State.wave_updWaves (noteClosed blkLoc b.phase b.high) (fun _ => rfl) (fun _ => rfl), List.count_eq_one_of_mem hnd hj]
  rfl

/-- The block's barrier has its next phase open, for the waves that have not ended. -/
theorem phaseOpened_block : ∃ p, (u.phaseOpened h blkLoc b ks).block h =
    { u.block h with bar := b.opened (ks.filter fun k => (u.wave k).st != .ended).length, prio := p } := by
  set t := ks.foldl (fun (s : State) k => s.updWave k (noteClosed blkLoc b.phase b.high)) u with ht
  have hst : (fun k => (t.wave k).st != .ended) = fun k => (u.wave k).st != .ended :=
    funext fun k => by rw [ht, State.wave_updWaves_keeps Wave.st (f := noteClosed blkLoc b.phase b.high) (fun _ => rfl) (fun _ => rfl) fun _ => rfl]
  have hblk : t.block h = u.block h := by
    obtain ⟨w, ws, hw⟩ := State.updWaves_frame (noteClosed blkLoc b.phase b.high) ks u
    rw [ht, hw]
    rfl
  unfold State.phaseOpened State.setBar
  dsimp only
  rw [if_pos rfl, if_pos rfl, ← ht, hst]
  set b' := b.opened (ks.filter fun k => (u.wave k).st != .ended).length with hb'
  obtain ⟨p, hp⟩ := (State.dropEnts_reprioritised (t.updBlock h fun k => { k with bar := b' })
    fun e => !e.hold && e.orig == 0 && e.line == lineOf h blkLoc).block h
  refine ⟨p, hp.trans ?_⟩
  show { (t.updBlock h fun k => { k with bar := b' }).block h with prio := p } = _
  rw [t.block_updBlock h h (fun k => { k with bar := b' }) (fun _ => rfl) (fun _ => rfl), if_pos rfl, hblk]

theorem phaseOpened_mem : (u.phaseOpened h blkLoc b ks).mem = u.mem := by
  obtain ⟨w, ws, hw⟩ := State.updWaves_frame (noteClosed blkLoc b.phase b.high) ks u
  unfold State.phaseOpened State.setBar
  dsimp only
  rw [if_pos rfl, if_pos rfl, (State.dropEnts_reprioritised _ _).rest, State.updBlock_frame, hw]

end

/-! ### The close -/

/-- The wave that answers a conflict: the higher one, or the lowest that is not out. -/
def State.conflictWave (s : State) (h second : Nat) : Nat :=
  if (s.wave (32 * h + second)).exitedAll then ((s.wavesOf h).filter fun k => !(s.wave k).exitedAll).headD (32 * h + second) else 32 * h + second

section
variable {s : State} {h : Nat}

theorem checkClose_block_kept (hopen : (∃ k ∈ s.wavesOf h, s.keepsOpen k = true) ∨ (s.bar h blkLoc).landed < (s.bar h blkLoc).expect) :
    s.checkClose h blkLoc = s := by
  unfold State.checkClose State.barWaves
  dsimp only
  rw [if_pos rfl]
  split
  · rfl
  split
  · rfl
  next hkeeps =>
  obtain hkeep | hland := hopen
  · exact absurd (by simpa using hkeep) hkeeps
  · rw [if_neg fun hgt => BitVec.lt_asymm hgt hland, if_pos]
    simpa using .inl fun he => BitVec.lt_irrefl _ (he ▸ hland)

section
variable (hn : (s.bar h blkLoc).arrived = (s.bar h blkLoc).npart) (ho : (s.bar h blkLoc).ovr = false)
  (hk : ∀ k ∈ s.wavesOf h, s.keepsOpen k = false) (hl : (s.bar h blkLoc).landed = (s.bar h blkLoc).expect)
  (hq : ∀ q ∈ s.reqs, q.bar ≠ blkLoc)
include hn ho hk hl hq

theorem checkClose_block_quiet (hfold : (s.foldWaves h).2 = none) :
    s.checkClose h blkLoc = (s.foldWaves h).1.phaseOpened h blkLoc (s.bar h blkLoc) (s.wavesOf h) := by
  unfold State.checkClose State.barWaves
  dsimp only
  rw [if_pos rfl, if_neg (by simp [hn, ho]), if_neg (by simpa using hk), if_neg (by rw [hl]; exact BitVec.lt_irrefl _),
    if_neg (by simp [hl, underWay_none hq]), State.applyRound_empty hq, if_pos rfl, hfold]
  rfl

/-- A conflict pends as trap 0x07. -/
theorem checkClose_block_conflict {second : Nat} {r : Conflict} (hfold : (s.foldWaves h).2 = some (second, r)) :
    ∃ x : Trap, x.cause = 7 ∧ x.info = r.info ∧ x.addr = r.addr ∧ s.checkClose h blkLoc =
      ((s.foldWaves h).1.updWave (s.conflictWave h second) (Wave.noteTrap x)).phaseOpened h blkLoc (s.bar h blkLoc) (s.wavesOf h) := by
  have hout (k : Nat) : ((s.foldWaves h).1.wave k).exitedAll = (s.wave k).exitedAll :=
    foldWaves_keeps s h Wave.exitedAll (fun vis w => by unfold Wave.exitedAll; rw [(w.renewed_keeps vis).1]) k
  unfold State.checkClose State.barWaves
  dsimp only
  rw [if_pos rfl, if_neg (by simp [hn, ho]), if_neg (by simpa using hk), if_neg (by rw [hl]; exact BitVec.lt_irrefl _),
    if_neg (by simp [hl, underWay_none hq]), State.applyRound_empty hq, if_pos rfl, hfold]
  simp only [hout]
  exact ⟨_, rfl, rfl, rfl, rfl⟩

end

end

end Machine
end Sys2Proof
end

section
/-! SUPPORT. The barrier words (R98 to R100, R234) in the frame of an issue event. -/

namespace Sys2Proof
open Machine
namespace Machine

/-- Reaching a barrier pays for its message, marks the block and closes the pin window. -/
theorem State.atBar_frame (s : State) (dm : Bool) (a : Opnd) :
    ∃ live tk, s.atBar dm a = { s with b := { s.b with live := live }, tokens := tk, w := s.w.closeWindow } := by
  unfold State.atBar
  split
  · exact ⟨s.b.live, s.tokens, rfl⟩
  · obtain ⟨live, tk, h⟩ := s.atLines_frame dm [0] fun _ => s.objAddr dm a 0
    rw [h]
    exact ⟨live, tk, rfl⟩

theorem State.atBar_keeps (s : State) (dm : Bool) (a : Opnd) : (s.atBar dm a).w.key = s.w.key ∧ (s.atBar dm a).pc = s.pc ∧
    (s.atBar dm a).run = s.run ∧ (s.atBar dm a).w.arrivals = s.w.arrivals := by
  obtain ⟨live, tk, h⟩ := s.atBar_frame dm a
  rw [h]
  exact ⟨rfl, rfl, rfl, rfl⟩

/-- The operand of a barrier word lets its lanes through: no acquire holds them, or its line passes. -/
def State.BarPasses (s : State) (dm reads : Bool) (act : Mask) (a : Opnd) : Prop :=
  if a = .zero then s.acqBusy [blkLoc] (lanesOf act) = false else s.LinesPass dm reads act [0] fun _ => s.objAddr dm a 0

/-- What a barrier word acts on: its operand lets it through, its word is issued, a lane is active. -/
structure State.BarRuns (s : State) (f : F) (dm reads : Bool) (i : Instr) : Prop where
  passes : s.BarPasses dm reads (s.active i) f.a
  issues : s.Issues i
  some : s.active i ≠ 0

section
variable {s : State} {f : F} {dm : Bool}

/-- The frame of a barrier word that is let through. -/
theorem State.BarRuns.barThen {reads : Bool} {i : Instr} (h : s.BarRuns f dm reads i) (k : State → Nat → W64 → Res) :
    s.barThen dm reads (s.active i) f.a k =
      (k (s.atBar dm f.a) ((s.atBar dm f.a).barLoc dm f.a) ((s.atBar dm f.a).barVa dm f.a)).waitsIn s := by
  have hp := h.passes
  unfold State.barThen State.atBar
  unfold State.BarPasses at hp
  by_cases hz : f.a = .zero
  · rw [if_pos hz] at hp
    simp only [hz, if_true, hp, Bool.false_eq_true, if_false]
  · rw [if_neg hz] at hp
    simp only [hz, if_false]
    exact (hp.named (lowLane (s.active i))).objThen _

/-- The arrival of a barrier word, in the state in which it acts. -/
def State.barArrives (s : State) (f : F) (dm : Bool) (act : Mask) : State :=
  let t := s.atBar dm f.a
  t.arrive s.w.key (t.barLoc dm f.a) (t.barVa dm f.a) (t.partOf f.a f.b) (t.opnd64 f.c 0) s.pc s.run act

theorem exec_barv {scope : Scope} (h : s.BarRuns f dm true (.barv f dm scope))
    (hok : (s.atBar dm f.a).arriveBad ((s.atBar dm f.a).barLoc dm f.a) ((s.atBar dm f.a).partOf f.a f.b) = false)
    (hidle : (s.atBar dm f.a).arriveWaits ((s.atBar dm f.a).barLoc dm f.a) (s.active (.barv f dm scope)) = false) :
    exec (.barv f dm scope) s =
      .next (s.finishes (s.barArrives f dm (s.active (.barv f dm scope))).wake (.barv f dm scope) true) := by
  obtain ⟨hkey, hpc, hrun, -⟩ := s.atBar_keeps dm f.a
  show execBarv f dm scope s = _
  refine word_done _ s _ h.issues h.some ((h.barThen _).trans ?_)
  simp only [hok, hidle, hkey, hpc, hrun]
  rfl

/-- `barw` without a standing arrival arrives and waits on that arrival. -/
theorem exec_barw {scope : Scope} (h : s.BarRuns f dm true (.barw f dm scope))
    (hnew : ∀ a ∈ s.w.arrivals, a.loc ≠ (s.atBar dm f.a).barLoc dm f.a)
    (hok : (s.atBar dm f.a).arriveBad ((s.atBar dm f.a).barLoc dm f.a) ((s.atBar dm f.a).partOf f.a f.b) = false)
    (hidle : (s.atBar dm f.a).arriveWaits ((s.atBar dm f.a).barLoc dm f.a) (s.active (.barw f dm scope)) = false) {a : Arr}
    (ha : (s.barArrives f dm (s.active (.barw f dm scope))).arrivalAt ((s.atBar dm f.a).barLoc dm f.a) = some a) :
    exec (.barw f dm scope) s = .next (s.finishes
      ((s.barArrives f dm (s.active (.barw f dm scope))).waitArrival a f.d (s.active (.barw f dm scope))).wake (.barw f dm scope) false) := by
  obtain ⟨hkey, hpc, hrun, harr⟩ := s.atBar_keeps dm f.a
  have hnone : (s.atBar dm f.a).arrivalAt ((s.atBar dm f.a).barLoc dm f.a) = none := by
    unfold State.arrivalAt
    rw [harr]
    exact List.find?_eq_none.2 fun a ha => by simpa using hnew a ha
  unfold State.barArrives at ha ⊢
  show execBarw f dm scope s = _
  refine word_moved _ s _ h.issues h.some ((h.barThen _).trans ?_)
  simp only [hnone, Option.filter_none, hok, hidle, hkey, hpc, hrun, ha]
  rfl

/-- The wait form waits on the standing arrival, and so does `barw` when it is issued again. -/
theorem exec_barw_standing {scope : Scope} {i : Instr} {a : Arr}
    (hi : i = .barwWait f dm scope ∨ i = .barw f dm scope ∧ a.again = true) (h : s.BarRuns f dm true i)
    (hbar : (s.atBar dm f.a).isBar ((s.atBar dm f.a).barLoc dm f.a) = true)
    (ha : (s.atBar dm f.a).arrivalAt ((s.atBar dm f.a).barLoc dm f.a) = some a) :
    exec i s = .next (s.finishes ((s.atBar dm f.a).waitArrival a f.d (s.active i)) i false) := by
  obtain rfl | ⟨rfl, hagain⟩ := hi
  · show execBarwWait f dm scope s = _
    refine word_moved _ s _ h.issues h.some ((h.barThen _).trans ?_)
    simp only [ha, Option.filter_some, hbar, if_true]
    rfl
  · show execBarw f dm scope s = _
    refine word_moved _ s _ h.issues h.some ((h.barThen _).trans ?_)
    simp only [ha, Option.filter_some, hagain, hbar, Bool.and_true, if_true]
    rfl

theorem exec_barvInit {scope : Scope} (h : s.BarRuns f dm false (.barvInit f dm scope))
    (hb : (s.atBar dm f.a).barLoc dm f.a ≠ blkLoc) (hal : (s.atBar dm f.a).barLoc dm f.a % 64 = 0)
    (h1 : 1 ≤ (s.atBar dm f.a).opnd f.b 1 0) (h2 : (s.atBar dm f.a).opnd f.b 1 0 ≤ 0xFFFFFFFE) :
    exec (.barvInit f dm scope) s = .next (s.finishes ((s.atBar dm f.a).initLine ((s.atBar dm f.a).barLoc dm f.a)
      ({ Bar.zero with npart := (s.atBar dm f.a).opnd f.b 1 0 }).line) (.barvInit f dm scope) true) := by
  have hok : npartOk ((s.atBar dm f.a).opnd f.b 1 0) = true := by simp [npartOk, h1, h2]
  show execBarvInit f dm scope s = _
  refine word_done _ s _ h.issues h.some ((h.barThen _).trans ?_)
  simp only [hb, hal, hok, decide_false, Bool.false_or, ne_eq, not_true_eq_false, Bool.not_true, Bool.false_eq_true, if_false]
  rfl

end

/-! ### The close of the block barrier, as the obligation says it -/

/-- Carrying nothing changes no fold. -/
theorem Fold.carries_none (ks : List Nat) (f : Fold) : ks.foldl (fun f k => f.carry (k % 32) []) f = f := by
  induction ks with
  | nil => rfl
  | cons k ks ih => exact ih

theorem waveFold_foldsTo (s : State) (h : Nat) (hv : ∀ k ∈ s.wavesOf h, SMap.rising none (s.wave k).settled.bytes = true) :
    FoldsTo (s.wavesOf h) (· % 32) (fun k => (s.wave k).settled.bytes)
      (fun _ => s.overByte (s.block h).ctx (overlayOn (s.block h).start (s.block h).view)) (fun _ => []) (s.waveFold h) := by
  have hto := foldsTo (s.wavesOf h) (· % 32) (fun k => (s.wave k).settled.bytes)
    (fun _ => s.overByte (s.block h).ctx (overlayOn (s.block h).start (s.block h).view)) (fun _ => []) hv
  rw [Fold.carries_none] at hto
  exact hto

theorem State.keepsOpen_iff (s : State) (k : Nat) :
    s.keepsOpen k = true ↔ (s.wave k).st ≠ .ended ∧ (s.wave k).fork ≠ none ∨ s.viewBusyOf (k / 32) (k % 32) = true := by
  unfold State.keepsOpen
  simp [Option.isSome_iff_ne_none]

/-- Every wave of the block is out exactly where none stays. -/
theorem State.wavesOut_iff (s : State) (h : Nat) : s.wavesOut h = true ↔ ∀ k ∈ s.wavesOf h, (s.wave k).exitedAll = true := List.all_eq_true

theorem State.wavesOut_false (s : State) (h : Nat) : s.wavesOut h = false ↔ ∃ k ∈ s.wavesOf h, (s.wave k).exitedAll = false := by
  unfold State.wavesOut
  simp

/-- What the next phase of a folded block shows in the block and in its waves. -/
theorem State.Folded.phaseOpened {s u : State} {h : Nat} (hu : s.Folded h u) (hnd : (s.wavesOf h).Nodup) (b : Bar) :
    let t := u.phaseOpened h blkLoc b (s.wavesOf h)
    t.bar h blkLoc = b.opened ((s.wavesOf h).filter fun k => (s.wave k).st != .ended).length ∧
    (t.block h).wtag = [] ∧ (t.block h).rtag = [] ∧ (t.block h).view = SMap.over (s.block h).view (s.waveFold h).bytes ∧ t.mem = s.mem ∧
    (∀ k ∈ s.wavesOf h,
      ((s.wave k).region = none → (t.wave k).view = { View.empty with vis := (t.block h).vis }) ∧
      (∀ r, (s.wave k).region = some r →
        (t.wave k).view = { View.empty with vis := (t.block h).vis, bytes := r.held.bytes, lines := r.held.lines, parts := r.held.parts,
                                            charge := (s.wave k).view.charge - r.view.charge } ∧
        (t.wave k).region = some { r with view := { View.empty with vis := (t.block h).vis } }) ∧
      (t.wave k).st = (s.wave k).st ∧ (t.wave k).arrivals = (s.wave k).arrivals.map (closeArr blkLoc b.phase b.high) ∧
      (t.wave k).groups = closeGroups blkLoc b.phase b.high (s.wave k).groups) ∧
    (t.block h).carried = (s.foldedBlock h).carried := by
  intro t
  obtain ⟨prio, hblk⟩ : ∃ p, t.block h = { u.block h with
      bar := b.opened ((s.wavesOf h).filter fun k => (u.wave k).st != .ended).length, prio := p } := phaseOpened_block u h b (s.wavesOf h)
  simp only [hu.st, hu.block] at hblk
  have hbar : t.bar h blkLoc = (t.block h).bar := if_pos rfl
  rw [hbar, hblk]
  refine ⟨rfl, rfl, rfl, rfl, (phaseOpened_mem u h b _).trans hu.mem, fun k hk => ?_, rfl⟩
  obtain ⟨pend, hwave⟩ := hu.wave k hk
  have ht : t.wave k = noteClosed blkLoc b.phase b.high { (s.wave k).renewed (s.foldedBlock h).vis with pend := pend } := by
    rw [← hwave]
    exact phaseOpened_member u h b hnd hk
  rw [ht]
  unfold Wave.renewed noteClosed
  cases hr : (s.wave k).region with
  | none => exact ⟨fun _ => rfl, fun r hr => (nomatch hr), rfl, rfl, rfl⟩
  | some r =>
    refine ⟨fun hr => (nomatch hr), fun r' hr' => ?_, rfl, rfl, rfl⟩
    cases hr'
    exact ⟨rfl, rfl⟩

theorem Fold.record_some {f : Fold} {x : Nat × Nat × Nat} {l : List (Nat × Nat × Nat)} (hc : f.confl = x :: l) : ∃ r, f.record = some r := by
  unfold Fold.record
  rw [hc]
  exact ⟨_, rfl⟩

/-- The block barrier closes: the waves are folded, a conflict pends in the wave that answers it, and the next phase opens. -/
theorem checkClose_block {s : State} {h : Nat} (hnd : (s.wavesOf h).Nodup) (hn : (s.bar h blkLoc).arrived = (s.bar h blkLoc).npart)
    (ho : (s.bar h blkLoc).ovr = false) (hk : ∀ k ∈ s.wavesOf h, s.keepsOpen k = false)
    (hl : (s.bar h blkLoc).landed = (s.bar h blkLoc).expect) (hq : ∀ q ∈ s.reqs, q.bar ≠ blkLoc) :
    ∃ u, s.Folded h u ∧ s.checkClose h blkLoc = u.phaseOpened h blkLoc (s.bar h blkLoc) (s.wavesOf h) ∧
      ((s.waveFold h).confl = [] ∨ s.wavesOut h = true → ∀ j, (u.wave j).pend = (s.wave j).pend) ∧
      (s.wavesOut h = false → ∀ r x l, (s.waveFold h).record = some r → (s.waveFold h).confl = x :: l →
        (∃ e : Trap, e.cause = 7 ∧ e.info = r.info ∧ e.addr = r.addr ∧
          (u.wave (s.conflictWave h x.2.2)).pend = (s.wave (s.conflictWave h x.2.2)).pend ++ [e]) ∧
        ∀ j, j ≠ s.conflictWave h x.2.2 → (u.wave j).pend = (s.wave j).pend) := by
  have hpend := foldWaves_keeps s h Wave.pend fun vis w => (w.renewed_keeps vis).2.2
  have hfolded := foldWaves_folded s h hnd
  by_cases hquiet : (s.waveFold h).confl = [] ∨ s.wavesOut h = true
  · refine ⟨_, hfolded, checkClose_block_quiet hn ho hk hl hq (foldWaves_quiet s h hquiet), fun _ => hpend, fun hout r x l _ hc => ?_⟩
    obtain hnone | hall := hquiet
    · exact absurd (hc.symm.trans hnone) (List.cons_ne_nil _ _)
    · exact absurd (hout.symm.trans hall) Bool.false_ne_true
  · obtain ⟨hsome, hout⟩ := not_or.1 hquiet
    obtain ⟨x, l, hc⟩ := List.exists_cons_of_ne_nil hsome
    obtain ⟨r, hr⟩ := Fold.record_some hc
    obtain ⟨e, hcause, hinfo, haddr, hclose⟩ :=
      checkClose_block_conflict hn ho hk hl hq (foldWaves_conflict s h (Bool.eq_false_iff.2 hout) hr hc)
    have hw := (s.foldWaves h).1.updWave_becomes (s.conflictWave h x.2.2) (Wave.noteTrap e) (fun _ => rfl) fun _ => rfl
    refine ⟨_, hfolded.noteTrap _ e, hclose, fun hq' => absurd hq' hquiet, fun _ r' x' l' hr' hc' => ?_⟩
    cases hr.symm.trans hr'
    cases hc.symm.trans hc'
    refine ⟨⟨e, hcause, hinfo, haddr, ?_⟩, fun j hj => ?_⟩
    · rw [hw.wave, ← hpend]
      rfl
    · rw [hw.others j hj, hpend]

/-- Settles O27: the barrier words in the frame of an issue event, arrivals and landed bytes at a line, and the fold of the block barrier. -/
theorem barriers : Obligations.Barriers := by
  unfold Obligations.Barriers
  refine ⟨fun s f dm scope => ?_, ?_, ?_⟩
  · intro t loc va p through passes
    refine ⟨?_, ?_, ?_, ?_⟩
    · rintro _ rfl hp hI ha hok hidle
      exact exec_barv ⟨hp, hI, ha⟩ hok hidle
    · rintro _ rfl hp hI ha hnew hok hidle u a hu
      exact exec_barw ⟨hp, hI, ha⟩ hnew hok hidle hu
    · rintro i a hi hp hI ha hbar harr
      exact exec_barw_standing hi ⟨hp, hI, ha⟩ hbar harr
    · rintro _ rfl hp hI ha n _ hb hal h1 h2
      exact exec_barvInit ⟨hp, hI, ha⟩ hb hal h1 h2
  · intro s k loc va p e word run act ha hb hq hs hk h b t high hn
    obtain ⟨hopen, hclose, hover⟩ := arrive_line_effect s va p e word run act ha hb hq hs hk hn
    exact ⟨hopen, hclose, hover, fun n => land_line_effect s h n ha hb hq⟩
  · intro s h _ hnd hq b bar ks t old f
    refine ⟨waveFold_foldsTo s h, ?_, s.keepsOpen_iff, fun hn ho hk hl => ?_⟩
    · rintro (hn | ho | hkeep | hland)
      · exact checkClose_open (.inl hn)
      · exact checkClose_open (.inr ho)
      · exact checkClose_block_kept (.inl hkeep)
      · exact checkClose_block_kept (.inr hland)
    · intro live
      obtain ⟨u, hu, ht, hquiet, hconf⟩ := checkClose_block hnd hn ho hk hl hq
      obtain ⟨hnext, hwtag, hrtag, hview, hmem, hwaves, hcarried⟩ := hu.phaseOpened hnd bar
      have hpend (j : Nat) : ((u.phaseOpened h blkLoc bar ks).wave j).pend = (u.wave j).pend :=
        phaseOpened_keeps u h bar ks Wave.pend (fun _ => rfl) j
      rw [show t = u.phaseOpened h blkLoc bar ks from ht]
      refine ⟨hnext, hwtag, hrtag, hview, hmem, hwaves, ?_, fun hall => ?_, fun hstay => ?_⟩
      · intro hnone k _
        rw [hpend]
        exact hquiet (hnone.imp_right (s.wavesOut_iff h).2) k
      · exact hcarried.trans (if_pos ((s.wavesOut_iff h).2 hall))
      · have hout := (s.wavesOut_false h).2 hstay
        refine ⟨hcarried.trans (if_neg (by rw [hout]; exact Bool.false_ne_true)), fun r x l hr hc => ?_⟩
        obtain ⟨⟨e, hcause, hinfo, haddr, htrap⟩, hothers⟩ := hconf hout r x l hr hc
        exact ⟨⟨e, hcause, hinfo, haddr, (hpend _).trans htrap⟩, fun j _ hj => (hpend j).trans (hothers j hj)⟩

end Machine
end Sys2Proof
end

section
/-! SUPPORT. The rational numbers that values and dyadic numbers stand for (R126, R205), and one rounding to a multiple of a power of
two (R134, Table 35). -/

namespace Sys2Proof
open Machine
namespace Machine

/-! ### Powers of two -/

theorem two_zpow_pos (e : Int) : (0 : ℚ) < 2 ^ e := zpow_pos two_pos e

theorem two_zpow_add_nat (n : Nat) (q : Int) : (2 : ℚ) ^ (q + n) = 2 ^ n * 2 ^ q := by
  rw [zpow_add₀ two_ne_zero, zpow_natCast, mul_comm]

/-- A higher power of two as a multiple of a lower one. -/
theorem two_zpow_split {q e : Int} (h : q ≤ e) : (2 : ℚ) ^ e = 2 ^ (e - q).toNat * 2 ^ q := by
  rw [← two_zpow_add_nat]
  congr 1
  omega

/-! ### Dyadic numbers -/

/-- The rational number of a dyadic one. -/
def Dy.rat (x : Dy) : ℚ := x.n * 2 ^ x.e

theorem Dy.rat_at (x : Dy) {e : Int} (h : e ≤ x.e) : (x.at_ e : ℚ) * 2 ^ e = x.rat := by
  unfold Dy.at_ Dy.rat
  push_cast
  rw [two_zpow_split h, mul_assoc]

@[simp] theorem Dy.rat_add (x y : Dy) : (x.add y).rat = x.rat + y.rat := by
  rw [← x.rat_at (min_le_left x.e y.e), ← y.rat_at (min_le_right x.e y.e), ← add_mul, ← Int.cast_add]
  rfl

@[simp] theorem Dy.rat_neg (x : Dy) : x.neg.rat = -x.rat := by simp [Dy.rat, Dy.neg]

@[simp] theorem Dy.rat_sub (x y : Dy) : (x.sub y).rat = x.rat - y.rat := by
  rw [Dy.sub, Dy.rat_add, Dy.rat_neg, sub_eq_add_neg]

@[simp] theorem Dy.rat_ofInt (n : Int) : (Dy.ofInt n).rat = n := by simp [Dy.rat, Dy.ofInt]

theorem Dy.lt_iff (x y : Dy) : x.lt y = true ↔ x.rat < y.rat := by
  rw [← x.rat_at (min_le_left x.e y.e), ← y.rat_at (min_le_right x.e y.e), mul_lt_mul_iff_of_pos_right (two_zpow_pos _), Int.cast_lt]
  exact decide_eq_true_iff

theorem Dy.eq_iff (x y : Dy) : x.eq y = true ↔ x.rat = y.rat := by
  rw [← x.rat_at (min_le_left x.e y.e), ← y.rat_at (min_le_right x.e y.e), mul_left_inj' (two_zpow_pos _).ne', Int.cast_inj]
  exact decide_eq_true_iff

theorem Dy.rat_eq_zero (x : Dy) : x.rat = 0 ↔ x.n = 0 := by simp [Dy.rat, (two_zpow_pos x.e).ne']

theorem Dy.rat_lt_zero (x : Dy) : x.rat < 0 ↔ x.n < 0 := by
  unfold Dy.rat
  rw [← zero_mul ((2 : ℚ) ^ x.e), mul_lt_mul_iff_of_pos_right (two_zpow_pos _), Int.cast_lt_zero]

theorem Dy.abs_rat (x : Dy) : |x.rat| = x.n.natAbs * 2 ^ x.e := by
  rw [Dy.rat, abs_mul, abs_of_pos (two_zpow_pos _), Nat.cast_natAbs, Int.cast_abs]

/-! ### Values -/

theorem Val.rat_fin (n : Bool) (k : Nat) (e : Int) : (Val.fin n k e).rat = if n then -((k : ℚ) * 2 ^ e) else (k : ℚ) * 2 ^ e := by
  cases n <;> simp [Val.rat]

theorem Val.abs_rat_fin (n : Bool) (k : Nat) (e : Int) : |(Val.fin n k e).rat| = (k : ℚ) * 2 ^ e := by
  have h : (0 : ℚ) ≤ (k : ℚ) * 2 ^ e := mul_nonneg k.cast_nonneg (two_zpow_pos e).le
  rw [Val.rat_fin]
  cases n <;> simp [abs_of_nonneg h]

theorem Val.rat_fin_eq_zero (n : Bool) (k : Nat) (e : Int) : (Val.fin n k e).rat = 0 ↔ k = 0 := by
  rw [← abs_eq_zero, Val.abs_rat_fin]
  simp [(two_zpow_pos e).ne']

theorem Val.rat_fin_lt_zero (n : Bool) (k : Nat) (e : Int) : (Val.fin n k e).rat < 0 ↔ n = true ∧ k ≠ 0 := by
  have hpos : k ≠ 0 → (0 : ℚ) < (k : ℚ) * 2 ^ e := fun h => mul_pos (by exact_mod_cast Nat.pos_of_ne_zero h) (two_zpow_pos e)
  have hnn : (0 : ℚ) ≤ (k : ℚ) * 2 ^ e := mul_nonneg k.cast_nonneg (two_zpow_pos e).le
  rw [Val.rat_fin]
  cases n
  · simpa using hnn
  · by_cases h : k = 0
    · simp [h]
    · simpa [h] using hpos h

/-- The dyadic number of a value is the rational one. -/
theorem Val.rat_dy (v : Val) : v.dy.rat = v.rat := by
  cases v with
  | fin n k e => cases n <;> simp [Val.dy, dyOf, Dy.rat, Val.rat]
  | _ => simp [Val.dy, Dy.rat, Val.rat]

theorem dyOf_rat (n : Bool) (k : Nat) (e : Int) : (dyOf n k e).rat = (Val.fin n k e).rat := Val.rat_dy (.fin n k e)

theorem Val.rat_negate (v : Val) : v.negate.rat = -v.rat := by
  cases v with
  | fin n k e => cases n <;> simp [Val.negate, Val.rat]
  | _ => simp [Val.negate, Val.rat]

/-! ### A magnitude cut at a power of two -/

/-- The magnitude x is k × 2^e, and more than that, but less than (k + 1) × 2^e, exactly when the sticky bit is set. -/
structure CutOf (k : Nat) (e : Int) (st : Bool) (x : ℚ) : Prop where
  le : (k : ℚ) * 2 ^ e ≤ x
  lt : x < ((k : ℚ) + 1) * 2 ^ e
  sticky : st = true ↔ (k : ℚ) * 2 ^ e ≠ x

theorem CutOf.exact (k : Nat) (e : Int) : CutOf k e false ((k : ℚ) * 2 ^ e) :=
  ⟨le_refl _, by rw [add_mul, one_mul]; exact lt_add_of_pos_right _ (two_zpow_pos e), by simp⟩

/-- The magnitude k × 2^e cut to a multiple of 2^q: the multiple. -/
def cutAt (k : Nat) (e q : Int) : Nat := if q ≤ e then k * 2 ^ (e - q).toNat else k / 2 ^ (q - e).toNat

section
variable {k : Nat} {e q : Int} {st : Bool} {x : ℚ}

/-- A magnitude without a sticky bit is what it is cut from. -/
theorem CutOf.eq_of_exact (h : CutOf k e false x) : (k : ℚ) * 2 ^ e = x := by simpa using h.sticky

theorem cutAt_of_le (h : q ≤ e) : (cutAt k e q : ℚ) * 2 ^ q = (k : ℚ) * 2 ^ e := by
  rw [cutAt, if_pos h, two_zpow_split h]
  push_cast
  ring

/-- What lies below the cut, in units of 2^e. -/
theorem cutAt_add_rest (h : e < q) (x : ℚ) :
    x - (cutAt k e q : ℚ) * 2 ^ q = ((k % 2 ^ (q - e).toNat : Nat) + (x / 2 ^ e - k)) * 2 ^ e := by
  have hk : (k : ℚ) = 2 ^ (q - e).toNat * (k / 2 ^ (q - e).toNat : Nat) + (k % 2 ^ (q - e).toNat : Nat) := by
    exact_mod_cast (Nat.div_add_mod k _).symm
  have hpos := two_zpow_pos e
  rw [cutAt, if_neg (by omega), two_zpow_split h.le, add_mul, sub_mul, div_mul_cancel₀ _ hpos.ne']
  conv_rhs => rw [hk]
  ring

/-- The part of a sticky magnitude below its last unit. -/
theorem CutOf.rest (h : CutOf k e st x) : 0 ≤ x / 2 ^ e - k ∧ x / 2 ^ e - k < 1 ∧ (st = true ↔ x / 2 ^ e - k ≠ 0) := by
  have hpos := two_zpow_pos e
  refine ⟨sub_nonneg.2 ((le_div_iff₀ hpos).2 h.le), ?_, ?_⟩
  · rw [sub_lt_iff_lt_add', div_lt_iff₀ hpos]
    exact h.lt
  · rw [h.sticky, ne_eq, ne_eq, sub_eq_zero, div_eq_iff hpos.ne', eq_comm]

theorem CutOf.cutAt_le (h : CutOf k e st x) : (cutAt k e q : ℚ) * 2 ^ q ≤ x := by
  by_cases hq : q ≤ e
  · rw [cutAt_of_le hq]
    exact h.le
  · rw [← sub_nonneg, cutAt_add_rest (by omega)]
    exact mul_nonneg (add_nonneg (Nat.cast_nonneg _) h.rest.1) (two_zpow_pos e).le

theorem CutOf.lt_cutAt (h : CutOf k e st x) (hq : st = true → e < q) : x < ((cutAt k e q : ℚ) + 1) * 2 ^ q := by
  by_cases hqe : q ≤ e
  · have hst : st = false := by
      cases st
      · rfl
      · exact absurd (hq rfl) (by omega)
    subst hst
    rw [add_mul, cutAt_of_le hqe, h.eq_of_exact, one_mul]
    exact lt_add_of_pos_right _ (two_zpow_pos q)
  · have hlt : e < q := by omega
    rw [add_mul, ← sub_lt_iff_lt_add', cutAt_add_rest hlt, one_mul, two_zpow_split hlt.le]
    refine mul_lt_mul_of_pos_right ?_ (two_zpow_pos e)
    have hmod : (k % 2 ^ (q - e).toNat : Nat) + 1 ≤ 2 ^ (q - e).toNat := Nat.mod_lt _ (by positivity)
    have hmod' : ((k % 2 ^ (q - e).toNat : Nat) : ℚ) + 1 ≤ 2 ^ (q - e).toNat := by exact_mod_cast hmod
    linarith [h.rest.2.1]

/-! ### roundAt -/

/-- Half of a unit and less than half of it below the cut: what the half bit and the bits under it say. -/
theorem half_rest {D r : Nat} (hr : r < 2 * D) {δ : ℚ} (h0 : 0 ≤ δ) (h1 : δ < 1) (hst : st = true ↔ δ ≠ 0) :
    (D ≤ r ↔ (D : ℚ) ≤ r + δ) ∧ ((D ≤ r ∧ (st = true ∨ r % D ≠ 0)) ↔ (D : ℚ) < r + δ) ∧
    ((D ≤ r ∨ st = true ∨ r % D ≠ 0) ↔ (r : ℚ) + δ ≠ 0) := by
  have hhalf : D ≤ r ↔ (D : ℚ) ≤ r + δ := by
    constructor
    · intro h
      have : (D : ℚ) ≤ r := by exact_mod_cast h
      linarith
    · intro h
      by_contra hlt
      have : (r : ℚ) + 1 ≤ D := by exact_mod_cast Nat.succ_le_of_lt (not_le.1 hlt)
      linarith
  have hmod : D ≤ r → (r % D ≠ 0 ↔ r ≠ D) := by
    intro h
    rw [Nat.mod_eq_sub_mod h, Nat.mod_eq_of_lt (by omega)]
    omega
  refine ⟨hhalf, ?_, ?_⟩
  · constructor
    · rintro ⟨h, hs⟩
      refine lt_of_le_of_ne (hhalf.1 h) fun heq => ?_
      have hle : (D : ℚ) ≤ r := by exact_mod_cast h
      have hδ : δ = 0 := by linarith
      obtain hs | hs := hs
      · exact hst.1 hs hδ
      · refine (hmod h).1 hs ?_
        rw [hδ, add_zero] at heq
        exact_mod_cast heq.symm
    · intro h
      have hle := hhalf.2 h.le
      refine ⟨hle, ?_⟩
      by_contra hno
      obtain ⟨hs, hm⟩ := not_or.1 hno
      have hδ : δ = 0 := not_not.1 fun hne => hs (hst.2 hne)
      have hr : r = D := not_not.1 fun hne => hm ((hmod hle).2 hne)
      rw [hδ, hr, add_zero] at h
      exact lt_irrefl _ h
  · have hzero : (r : ℚ) + δ = 0 ↔ r = 0 ∧ δ = 0 := by
      rw [add_eq_zero_iff_of_nonneg (Nat.cast_nonneg r) h0, Nat.cast_eq_zero]
    refine Iff.trans ?_ (not_congr hzero).symm
    constructor
    · rintro (h | h | h) ⟨hr0, hδ⟩
      · omega
      · exact hst.1 h hδ
      · exact h (by rw [hr0, Nat.zero_mod])
    · intro h
      by_contra hno
      obtain ⟨hlt, hno⟩ := not_or.1 hno
      obtain ⟨hs, hm⟩ := not_or.1 hno
      refine h ⟨?_, not_not.1 fun hne => hs (hst.2 hne)⟩
      rwa [ne_eq, not_not, Nat.mod_eq_of_lt (not_le.1 hlt)] at hm

/-- The half bit of what a magnitude holds below 2^q, and whether anything lies under that bit. -/
def halfAt (k : Nat) (e q : Int) : Bool := decide (e < q) && decide (2 ^ ((q - e).toNat - 1) ≤ k % 2 ^ (q - e).toNat)
def restAt (k : Nat) (e : Int) (st : Bool) (q : Int) : Bool :=
  st || decide (e < q) && decide (k % 2 ^ (q - e).toNat % 2 ^ ((q - e).toNat - 1) ≠ 0)

/-- `roundAt` cuts, and adds one where the mode says so. -/
theorem roundAt_eq (rm : Rnd) (neg : Bool) (k : Nat) (e : Int) (st : Bool) (q : Int) :
    roundAt rm neg k e st q =
      (if roundsUp rm neg (cutAt k e q % 2 == 1) (halfAt k e q) (restAt k e st q) then cutAt k e q + 1 else cutAt k e q,
        halfAt k e q || restAt k e st q) := by
  by_cases h : q ≤ e
  · simp [roundAt, cutAt, halfAt, restAt, h, not_lt.2 h]
  · simp [roundAt, cutAt, halfAt, restAt, h, not_le.1 h]

/-- What the half bit and the rest say of the magnitude. -/
theorem CutOf.bits (h : CutOf k e st x) (hq : st = true → e < q) :
    (halfAt k e q = true ↔ (2 : ℚ) ^ q / 2 ≤ x - cutAt k e q * 2 ^ q) ∧
    ((halfAt k e q && restAt k e st q) = true ↔ (2 : ℚ) ^ q / 2 < x - cutAt k e q * 2 ^ q) ∧
    ((halfAt k e q || restAt k e st q) = true ↔ x - cutAt k e q * 2 ^ q ≠ 0) := by
  have hu := two_zpow_pos q
  by_cases hqe : q ≤ e
  · have hst : st = false := by
      cases st
      · rfl
      · exact absurd (hq rfl) (by omega)
    subst hst
    rw [cutAt_of_le hqe, h.eq_of_exact, sub_self]
    simp only [halfAt, restAt, not_lt.2 hqe, decide_false, Bool.false_and, Bool.or_self, Bool.false_eq_true, false_iff]
    exact ⟨by linarith, by linarith, by simp⟩
  · have hlt : e < q := not_le.1 hqe
    obtain ⟨h0, h1, hs⟩ := h.rest
    have hd : (q - e).toNat = (q - e).toNat - 1 + 1 := by omega
    have hD : (2 : ℚ) ^ q / 2 = ((2 ^ ((q - e).toNat - 1) : Nat) : ℚ) * 2 ^ e := by
      rw [two_zpow_split hlt.le]
      conv_lhs => rw [hd, pow_succ]
      push_cast
      ring
    have hmod : k % 2 ^ (q - e).toNat < 2 * 2 ^ ((q - e).toNat - 1) := by
      rw [mul_comm, ← pow_succ, ← hd]
      exact Nat.mod_lt _ (by positivity)
    obtain ⟨hhalf, hover, hzero⟩ := half_rest (D := 2 ^ ((q - e).toNat - 1)) hmod h0 h1 hs
    have hpos := two_zpow_pos e
    rw [cutAt_add_rest hlt, hD, mul_le_mul_iff_of_pos_right hpos, mul_lt_mul_iff_of_pos_right hpos, mul_ne_zero_iff_right hpos.ne', ← hhalf,
      ← hover, ← hzero]
    simp [halfAt, restAt, hlt]

/-- Rounding is inexact where something lies below the cut. -/
theorem CutOf.roundAt_inexact (h : CutOf k e st x) (hq : st = true → e < q) (rm : Rnd) (neg : Bool) :
    (roundAt rm neg k e st q).2 = true ↔ (cutAt k e q : ℚ) * 2 ^ q ≠ x := by
  rw [roundAt_eq, (h.bits hq).2.2, ne_eq, sub_eq_zero, eq_comm]

/-- Rounding gives the multiple that the mode selects (Table 35). -/
theorem CutOf.roundAt_rounded (h : CutOf k e st x) (hq : st = true → e < q) (rm : Rnd) (neg : Bool) :
    RoundedTo rm neg (2 ^ q) x ((roundAt rm neg k e st q).1 * 2 ^ q) := by
  obtain ⟨hhalf, hover, hzero⟩ := h.bits hq
  have htie : halfAt k e q = true → restAt k e st q = false → x - cutAt k e q * 2 ^ q = 2 ^ q / 2 := fun hh hr =>
    le_antisymm (not_lt.1 fun hc => by rw [← hover, hr, Bool.and_false] at hc; cases hc) (hhalf.1 hh)
  have hmode : roundsUp rm neg (cutAt k e q % 2 == 1) (halfAt k e q) (restAt k e st q) = true ↔ match rm with
      | .rn | .dyn => 2 ^ q / 2 < x - cutAt k e q * 2 ^ q ∨ x - cutAt k e q * 2 ^ q = 2 ^ q / 2 ∧ cutAt k e q % 2 = 1
      | .rz => False
      | .ru => neg = false ∧ x - cutAt k e q * 2 ^ q ≠ 0
      | .rd => neg = true ∧ x - cutAt k e q * 2 ^ q ≠ 0
      | .ra => 2 ^ q / 2 ≤ x - cutAt k e q * 2 ^ q := by
    have hnearest : (halfAt k e q && (restAt k e st q || cutAt k e q % 2 == 1)) = true ↔
        2 ^ q / 2 < x - cutAt k e q * 2 ^ q ∨ x - cutAt k e q * 2 ^ q = 2 ^ q / 2 ∧ cutAt k e q % 2 = 1 := by
      rw [← hover]
      constructor
      · intro hup
        cases hr : restAt k e st q <;> simp_all
      · rintro (hup | ⟨heq, hodd⟩)
        · simp_all
        · simp [hhalf.2 heq.ge, hodd]
    cases rm with
    | rn => exact hnearest
    | dyn => exact hnearest
    | rz => simp [roundsUp]
    | ru => simp only [roundsUp, Bool.and_eq_true, Bool.not_eq_true', hzero]
    | rd => simp only [roundsUp, Bool.and_eq_true, hzero]
    | ra => exact hhalf
  refine ⟨cutAt k e q, h.cutAt_le, h.lt_cutAt hq, fun hup => ?_, fun hup => ?_⟩
  · rw [roundAt_eq, if_pos (hmode.2 hup)]
    push_cast
    rfl
  · rw [roundAt_eq, if_neg fun hc => hup (hmode.1 hc)]

/-- A magnitude that is a multiple is what it is rounded to. -/
theorem CutOf.roundAt_exact (h : CutOf k e st x) (hq : st = true → e < q) (hx : (cutAt k e q : ℚ) * 2 ^ q = x) (rm : Rnd) (neg : Bool) :
    roundAt rm neg k e st q = (cutAt k e q, false) := by
  have hno : (halfAt k e q || restAt k e st q) = false :=
    Bool.eq_false_iff.2 fun hc => (h.bits hq).2.2.1 hc (sub_eq_zero.2 hx.symm)
  obtain ⟨h1, h2⟩ := Bool.or_eq_false_iff.1 hno
  rw [roundAt_eq, h1, h2]
  cases rm <;> cases neg <;> simp [roundsUp]

/-- Away from zero, what is no multiple goes to the next one. -/
theorem CutOf.roundAt_up (h : CutOf k e st x) (hq : st = true → e < q) (hx : (cutAt k e q : ℚ) * 2 ^ q ≠ x) :
    roundAt .ru false k e st q = (cutAt k e q + 1, true) := by
  have hyes := (h.bits hq).2.2.2 (sub_ne_zero.2 hx.symm)
  rw [roundAt_eq]
  simp only [roundsUp, hyes, Bool.not_false, Bool.and_self, if_true]

theorem roundAt_fst (rm : Rnd) (neg : Bool) (k : Nat) (e : Int) (st : Bool) (q : Int) :
    (roundAt rm neg k e st q).1 = cutAt k e q ∨ (roundAt rm neg k e st q).1 = cutAt k e q + 1 := by
  rw [roundAt_eq]
  dsimp only
  split
  · exact .inr rfl
  · exact .inl rfl

end

end Machine
end Sys2Proof
end

section
/-! SUPPORT. The codes of the float formats (R127, R128): the magnitude that a code stands for, that codes rise with their magnitudes, and
what the codes of a format decode to. -/

namespace Sys2Proof
open Machine
namespace Machine

/-! ### The parameters of a format -/

theorem fpOf_prec (m : Fmt) : 2 ≤ (fpOf m).prec ∧ (fpOf m).prec < (fpOf m).width ∧ (fpOf m).prec ≤ 53 := by cases m <;> decide

theorem FP.half_pos (f : FP) : 0 < f.half := Nat.two_pow_pos _

theorem two_half (m : Fmt) : 2 * (fpOf m).half = 2 ^ (fpOf m).prec := by
  obtain ⟨hp, -, -⟩ := fpOf_prec m
  rw [FP.half, ← Nat.pow_succ']
  congr 1
  omega

theorem two_half_le_signBit (m : Fmt) : 2 * (fpOf m).half ≤ (fpOf m).signBit := by
  obtain ⟨-, hw, -⟩ := fpOf_prec m
  rw [two_half]
  exact Nat.pow_le_pow_right two_pos (by omega)

theorem two_signBit (m : Fmt) : 2 ^ (fpOf m).width = 2 * (fpOf m).signBit := by
  obtain ⟨-, hw, -⟩ := fpOf_prec m
  rw [FP.signBit, ← Nat.pow_succ']
  congr 1
  omega

theorem half_even (m : Fmt) : 0 < (fpOf m).half / 2 := by
  obtain ⟨hp, -, -⟩ := fpOf_prec m
  refine Nat.div_pos ?_ two_pos
  calc 2 = 2 ^ 1 := rfl
    _ ≤ 2 ^ ((fpOf m).prec - 1) := Nat.pow_le_pow_right two_pos (by omega)

theorem maxCode_lt (m : Fmt) : (fpOf m).maxCode < (fpOf m).signBit := by
  have h := two_half_le_signBit m
  have hp := (fpOf m).half_pos
  unfold FP.maxCode FP.infCode
  split <;> omega

/-- The code of an infinity follows that of the largest magnitude. -/
theorem infCode_eq (m : Fmt) (hn : (fpOf m).narrow = false) :
    (fpOf m).infCode = (fpOf m).maxCode + 1 ∧ (fpOf m).infCode < (fpOf m).signBit := by
  have h := two_half_le_signBit m
  have hp := (fpOf m).half_pos
  unfold FP.maxCode FP.infCode
  rw [hn, if_neg Bool.false_ne_true]
  omega

theorem code_place (m : Fmt) {c : Nat} (hc : c < 2 * (fpOf m).signBit) : (fpOf m).code ((fpOf m).place c) = c := by
  rw [FP.code, FP.place, Nat.mul_div_cancel _ (Nat.two_pow_pos _), two_signBit, Nat.mod_eq_of_lt hc]

theorem code_lt (m : Fmt) (bits : Nat) : (fpOf m).code bits < 2 * (fpOf m).signBit := by
  rw [← two_signBit]
  exact Nat.mod_lt _ (Nat.two_pow_pos _)

/-! ### Significand and spacing of a code -/

/-- The significand of a magnitude code, and how many steps its spacing lies above that of the subnormals. -/
def FP.lead (f : FP) (c : Nat) : Nat := if c < f.half then c else f.half + c % f.half
def FP.steps (f : FP) (c : Nat) : Nat := c / f.half - 1

/-- The magnitude that a code stands for. -/
def FP.mag (f : FP) (c : Nat) : ℚ := f.lead c * 2 ^ (f.qmin + f.steps c)

/-- The code of the multiple k of 2^q. -/
def FP.codeAt (f : FP) (q : Int) (k : Nat) : Nat := (q - f.qmin).toNat * f.half + k

section
variable (f : FP)

theorem FP.lead_lt (c : Nat) : f.lead c < 2 * f.half := by
  have hp := f.half_pos
  have hm := Nat.mod_lt c hp
  unfold FP.lead
  split <;> omega

theorem FP.steps_or_lead (c : Nat) : f.steps c = 0 ∨ f.half ≤ f.lead c := by
  unfold FP.lead FP.steps
  split
  · next h => exact .inl (by rw [Nat.div_eq_of_lt h])
  · exact .inr (Nat.le_add_right _ _)

/-- A code is made of its steps and its significand. -/
theorem FP.steps_lead (c : Nat) : f.steps c * f.half + f.lead c = c := by
  unfold FP.lead FP.steps
  split
  · next h => rw [Nat.div_eq_of_lt h, Nat.zero_sub, Nat.zero_mul, Nat.zero_add]
  · next h =>
    have hpos : 0 < c / f.half := Nat.div_pos (not_lt.1 h) f.half_pos
    have hdm := Nat.div_add_mod' c f.half
    have hstep : (c / f.half - 1) * f.half + f.half = c / f.half * f.half := by
      rw [← Nat.succ_mul, Nat.succ_eq_add_one, Nat.sub_add_cancel hpos]
    omega

/-- The code of a significand that is whole, or stands at the subnormals' spacing. -/
theorem FP.of_steps_lead {t k : Nat} (hk : k < 2 * f.half) (ht : t = 0 ∨ f.half ≤ k) :
    f.steps (t * f.half + k) = t ∧ f.lead (t * f.half + k) = k := by
  have hp := f.half_pos
  by_cases hlt : k < f.half
  · obtain rfl : t = 0 := by omega
    simp [FP.steps, FP.lead, hlt, Nat.div_eq_of_lt hlt]
  · have hsplit : t * f.half + k = (t + 1) * f.half + (k - f.half) := by rw [Nat.succ_mul]; omega
    have hrest : k - f.half < f.half := by omega
    rw [FP.steps, FP.lead, if_neg (by omega), hsplit, Nat.mul_comm (t + 1), Nat.mul_add_div hp, Nat.mul_add_mod, Nat.div_eq_of_lt hrest,
      Nat.mod_eq_of_lt hrest]
    omega

/-- The magnitude of a multiple's code, where the multiple has the format's precision or one unit more. -/
theorem FP.mag_codeAt {q : Int} {k : Nat} (hq : f.qmin ≤ q) (hk : k ≤ 2 * f.half) (hlow : q = f.qmin ∨ f.half ≤ k) :
    f.mag (f.codeAt q k) = k * 2 ^ q := by
  have hp := f.half_pos
  have hqt : q = f.qmin + (q - f.qmin).toNat := by omega
  rcases hk.lt_or_eq with hlt | rfl
  · obtain ⟨hs, hl⟩ := f.of_steps_lead (t := (q - f.qmin).toNat) hlt (hlow.imp_left fun h => by omega)
    rw [FP.mag, FP.codeAt, hs, hl, ← hqt]
  · obtain ⟨hs, hl⟩ := f.of_steps_lead (t := (q - f.qmin).toNat + 1) (k := f.half) (by omega) (.inr le_rfl)
    have hcode : f.codeAt q (2 * f.half) = ((q - f.qmin).toNat + 1) * f.half + f.half := by
      unfold FP.codeAt
      ring
    rw [FP.mag, hcode, hs, hl]
    push_cast
    rw [← add_assoc, ← hqt, zpow_add₀ two_ne_zero, zpow_one]
    ring

theorem FP.codeAt_steps (c : Nat) : f.codeAt (f.qmin + f.steps c) (f.lead c) = c := by
  rw [FP.codeAt, add_sub_cancel_left, Int.toNat_natCast, f.steps_lead]

/-- Codes rise with their magnitudes. -/
theorem FP.mag_strictMono : StrictMono f.mag := by
  refine strictMono_nat_of_lt_succ fun c => ?_
  have hlow : f.qmin + f.steps c = f.qmin ∨ f.half ≤ f.lead c := (f.steps_or_lead c).imp_left fun h => by rw [h]; simp
  have hsucc : f.codeAt (f.qmin + f.steps c) (f.lead c + 1) = c + 1 := by
    conv_rhs => rw [← f.codeAt_steps c]
    rfl
  have h := f.mag_codeAt (q := f.qmin + f.steps c) (k := f.lead c + 1) (by omega) (f.lead_lt c) (hlow.imp_right fun h => by omega)
  rw [hsucc] at h
  rw [h, FP.mag]
  refine mul_lt_mul_of_pos_right ?_ (two_zpow_pos _)
  push_cast
  linarith

theorem FP.mag_zero : f.mag 0 = 0 := by simp [FP.mag, FP.lead, f.half_pos]

theorem FP.mag_nonneg (c : Nat) : 0 ≤ f.mag c := f.mag_zero ▸ f.mag_strictMono.monotone (Nat.zero_le c)

theorem FP.mag_eq_zero {c : Nat} : f.mag c = 0 ↔ c = 0 := by
  rw [← f.mag_zero]
  exact f.mag_strictMono.injective.eq_iff

/-- The codes below 2^(p−1) are those of the magnitudes below the smallest normal. -/
theorem FP.mag_lt_emin (hp : 1 ≤ f.prec) {c : Nat} : f.mag c < 2 ^ f.emin ↔ c < f.half := by
  have hcode : f.mag f.half = 2 ^ f.emin := by
    have h := f.mag_codeAt (q := f.qmin) (k := f.half) le_rfl (by have := f.half_pos; omega) (.inl rfl)
    rw [FP.codeAt, sub_self, Int.toNat_zero, Nat.zero_mul, Nat.zero_add] at h
    rw [h, FP.half]
    push_cast
    rw [← two_zpow_add_nat]
    congr 1
    unfold FP.qmin
    omega
  rw [← hcode]
  exact f.mag_strictMono.lt_iff_lt

end

/-! ### Decoding -/

/-- A code with a sign: its sign bit and its magnitude. -/
theorem signed_parts (m : Fmt) (neg : Bool) {c : Nat} (hc : c < (fpOf m).signBit) :
    (fpOf m).signed neg c < 2 * (fpOf m).signBit ∧ (fpOf m).signed neg c % (fpOf m).signBit = c ∧
    decide ((fpOf m).signBit ≤ (fpOf m).signed neg c) = (neg && !((fpOf m).narrow && c == 0)) := by
  unfold FP.signed
  split
  · next h =>
    rw [Nat.add_mod_left, Nat.mod_eq_of_lt hc, h]
    exact ⟨by omega, rfl, decide_eq_true (by omega)⟩
  · next h =>
    rw [Nat.mod_eq_of_lt hc, Bool.eq_false_iff.2 h]
    exact ⟨by omega, rfl, decide_eq_false (by omega)⟩

/-- The finite value of a magnitude code, as `decodeF` writes it. -/
theorem fin_lead (f : FP) (n : Bool) (c : Nat) :
    (if c < f.half then Val.fin n c f.qmin else .fin n (f.half + c % f.half) (f.qmin + ((c / f.half : Nat) : Int) - 1)) =
      .fin n (f.lead c) (f.qmin + f.steps c) := by
  unfold FP.lead FP.steps
  by_cases h : c < f.half
  · simp [h, Nat.div_eq_of_lt h]
  · have hpos : 0 < c / f.half := Nat.div_pos (not_lt.1 h) f.half_pos
    rw [if_neg h, if_neg h]
    congr 1
    omega

/-- A code decodes by its sign and its magnitude (R127, R128). -/
theorem decodeF_eq (m : Fmt) (bits : Nat) :
    decodeF m bits =
      let f := fpOf m
      let c := f.code bits
      let neg := decide (f.signBit ≤ c)
      if f.narrow then
        if neg && c % f.signBit == 0 then .nan false else .fin neg (f.lead (c % f.signBit)) (f.qmin + f.steps (c % f.signBit))
      else if f.infCode < c % f.signBit then .nan (decide (c % f.signBit < f.nanCode))
      else if c % f.signBit = f.infCode then .inf neg
      else .fin neg (f.lead (c % f.signBit)) (f.qmin + f.steps (c % f.signBit)) := by
  simp only [← fin_lead]
  rfl

/-- A magnitude up to the largest, with a sign, decodes to itself. -/
theorem decodeF_signed (m : Fmt) (neg : Bool) {c : Nat} (hc : c ≤ (fpOf m).maxCode) :
    decodeF m ((fpOf m).place ((fpOf m).signed neg c)) =
      .fin (neg && !((fpOf m).narrow && c == 0)) ((fpOf m).lead c) ((fpOf m).qmin + (fpOf m).steps c) := by
  obtain ⟨hlt, hmod, hneg⟩ := signed_parts m neg (hc.trans_lt (maxCode_lt m))
  rw [decodeF_eq]
  dsimp only
  rw [code_place m hlt, hmod, hneg]
  cases hn : (fpOf m).narrow
  · obtain ⟨hinf, -⟩ := infCode_eq m hn
    rw [if_neg Bool.false_ne_true, if_neg (by omega), if_neg (by omega)]
  · rw [if_pos rfl]
    refine if_neg ?_
    cases c == 0 <;> simp

/-- The number of a magnitude code with a sign. -/
theorem rat_signed (m : Fmt) (neg : Bool) {c : Nat} (hc : c ≤ (fpOf m).maxCode) :
    (decodeF m ((fpOf m).place ((fpOf m).signed neg c))).rat = if neg then -(fpOf m).mag c else (fpOf m).mag c := by
  rw [decodeF_signed m neg hc, Val.rat_fin]
  show (if _ then -(fpOf m).mag c else (fpOf m).mag c) = _
  by_cases h0 : c = 0
  · subst h0
    simp [FP.mag_zero]
  · simp [h0]

/-- A finite value is that of its magnitude code, which is at most the largest. -/
theorem decodeF_fin {m : Fmt} {bits : Nat} {n : Bool} {k : Nat} {e : Int} (h : decodeF m bits = .fin n k e) :
    ∃ c ≤ (fpOf m).maxCode, (fpOf m).code bits = (fpOf m).signed n c ∧ k = (fpOf m).lead c ∧ e = (fpOf m).qmin + (fpOf m).steps c := by
  have hlt := code_lt m bits
  have hsb : 0 < (fpOf m).signBit := Nat.two_pow_pos _
  have hmod : (fpOf m).code bits % (fpOf m).signBit < (fpOf m).signBit := Nat.mod_lt _ hsb
  refine ⟨(fpOf m).code bits % (fpOf m).signBit, ?_⟩
  have hcode : (fpOf m).code bits = if (fpOf m).signBit ≤ (fpOf m).code bits
      then (fpOf m).signBit + (fpOf m).code bits % (fpOf m).signBit else (fpOf m).code bits % (fpOf m).signBit := by
    split
    · next hle => rw [Nat.mod_eq_sub_mod hle, Nat.mod_eq_of_lt (by omega)]; omega
    · next hle => rw [Nat.mod_eq_of_lt (by omega)]
  rw [decodeF_eq] at h
  dsimp only at h
  unfold FP.signed
  cases hn : (fpOf m).narrow
  · obtain ⟨hinf, -⟩ := infCode_eq m hn
    rw [hn, if_neg Bool.false_ne_true] at h
    split at h
    · cases h
    · split at h
      · cases h
      · obtain ⟨rfl, rfl, rfl⟩ := Val.fin.inj h
        refine ⟨by omega, hcode.trans ?_, rfl, rfl⟩
        simp
  · rw [hn, if_pos rfl] at h
    split at h
    · cases h
    · next hno =>
      obtain ⟨rfl, rfl, rfl⟩ := Val.fin.inj h
      refine ⟨by unfold FP.maxCode; rw [if_pos hn]; omega, hcode.trans ?_, rfl, rfl⟩
      by_cases hle : (fpOf m).signBit ≤ (fpOf m).code bits
      · rw [decide_eq_true hle, Bool.true_and] at hno
        rw [if_pos hle, decide_eq_true hle, Bool.eq_false_iff.2 hno]
        rfl
      · simp [hle]

/-- The number of a finite value is that of its magnitude code. -/
theorem decodeF_fin_rat {m : Fmt} {bits : Nat} {n : Bool} {k : Nat} {e : Int} (h : decodeF m bits = .fin n k e) :
    ∃ c ≤ (fpOf m).maxCode, (k : ℚ) * 2 ^ e = (fpOf m).mag c := by
  obtain ⟨c, hc, -, rfl, rfl⟩ := decodeF_fin h
  exact ⟨c, hc, rfl⟩

/-- A finite significand has the format's precision. -/
theorem decodeF_fin_lt {m : Fmt} {bits : Nat} {n : Bool} {k : Nat} {e : Int} (h : decodeF m bits = .fin n k e) : k < 2 ^ (fpOf m).prec := by
  obtain ⟨c, -, -, rfl, -⟩ := decodeF_fin h
  rw [← two_half]
  exact (fpOf m).lead_lt c

theorem maxBits_rat (m : Fmt) (neg : Bool) :
    (decodeF m (maxBits m neg)).rat = if neg then -(fpOf m).mag (fpOf m).maxCode else (fpOf m).mag (fpOf m).maxCode :=
  rat_signed m neg le_rfl

end Machine
end Sys2Proof
end

section
/-! SUPPORT. Round (R134): the result of `roundF` is the multiple of the format's spacing that the mode selects, with its flags; and what
is rounded once and flushed (R136). -/

namespace Sys2Proof
open Machine
namespace Machine

/-! ### The spacing of a result -/

/-- The exponent of the leading bit of k × 2^e. -/
def topOf (k : Nat) (e : Int) : Int := (Nat.log2 k : Int) + e

/-- The spacing of numbers with leading exponent t at the format's precision, and in the format, where subnormals bound it. -/
def FP.fine (f : FP) (t : Int) : Int := t - ((f.prec : Int) - 1)
def FP.spacing (f : FP) (t : Int) : Int := max f.qmin (f.fine t)

theorem log2_bounds {k : Nat} (hk : k ≠ 0) : 2 ^ Nat.log2 k ≤ k ∧ k + 1 ≤ 2 ^ (Nat.log2 k + 1) :=
  ⟨Nat.log2_self_le hk, Nat.lt_log2_self⟩

section
variable {m : Fmt} {k : Nat} {e : Int} {st : Bool} {x : ℚ}

/-- A magnitude lies in the binade of its leading bit. -/
theorem CutOf.binade (h : CutOf k e st x) (hk : k ≠ 0) : 2 ^ topOf k e ≤ x ∧ x < 2 ^ (topOf k e + 1) := by
  obtain ⟨hlo, hhi⟩ := log2_bounds hk
  have hpos := two_zpow_pos e
  have htop : (2 : ℚ) ^ topOf k e = 2 ^ Nat.log2 k * 2 ^ e := by
    rw [topOf, add_comm, two_zpow_add_nat]
  have htop1 : (2 : ℚ) ^ (topOf k e + 1) = 2 ^ (Nat.log2 k + 1) * 2 ^ e := by
    rw [zpow_add₀ two_ne_zero, htop, zpow_one, pow_succ]
    ring
  constructor
  · rw [htop]
    exact (mul_le_mul_of_nonneg_right (by exact_mod_cast hlo) hpos.le).trans h.le
  · rw [htop1]
    exact h.lt.trans_le (mul_le_mul_of_nonneg_right (by exact_mod_cast hhi) hpos.le)

/-- A sticky magnitude is cut above its last unit. -/
theorem sticky_fine (hs : 2 ^ ((fpOf m).prec + 2) ≤ k) : e < (fpOf m).fine (topOf k e) := by
  have hlog : (fpOf m).prec + 2 ≤ Nat.log2 k := (Nat.le_log2 (by have := Nat.two_pow_pos ((fpOf m).prec + 2); omega)).2 hs
  unfold FP.fine topOf
  omega

theorem sticky_spacing (hs : 2 ^ ((fpOf m).prec + 2) ≤ k) : e < (fpOf m).spacing (topOf k e) :=
  (sticky_fine hs).trans_le (le_max_right _ _)

/-- A magnitude cut at its spacing is a significand: below 2^p, and at least 2^(p−1) but at the subnormals' spacing. -/
theorem CutOf.cut_bounds (h : CutOf k e st x) (hk : k ≠ 0) {q : Int} (hq : (fpOf m).fine (topOf k e) ≤ q) (hst : st = true → e < q) :
    cutAt k e q < 2 * (fpOf m).half ∧ (q = (fpOf m).fine (topOf k e) → (fpOf m).half ≤ cutAt k e q) := by
  obtain ⟨hlo, hhi⟩ := h.binade hk
  have hp := (fpOf_prec m).1
  have hpos := two_zpow_pos q
  constructor
  · have hbound : (2 : ℚ) ^ (topOf k e + 1) ≤ (2 * (fpOf m).half : Nat) * 2 ^ q := by
      rw [two_half]
      push_cast
      rw [← two_zpow_add_nat]
      exact zpow_le_zpow_right₀ one_le_two (by unfold FP.fine at hq; omega)
    have := lt_of_mul_lt_mul_right ((h.cutAt_le (q := q)).trans_lt (hhi.trans_le hbound)) hpos.le
    exact_mod_cast this
  · rintro rfl
    have hbound : (2 : ℚ) ^ topOf k e = ((fpOf m).half : ℚ) * 2 ^ (fpOf m).fine (topOf k e) := by
      rw [FP.half]
      push_cast
      rw [← two_zpow_add_nat]
      congr 1
      unfold FP.fine
      omega
    have hlt := lt_of_mul_lt_mul_right ((hbound ▸ hlo).trans_lt (h.lt_cutAt hst)) hpos.le
    have : (fpOf m).half < cutAt k e ((fpOf m).fine (topOf k e)) + 1 := by exact_mod_cast hlt
    omega

/-- What a magnitude is rounded to has a code: that of the multiple of its spacing. -/
theorem CutOf.mag_rounded (h : CutOf k e st x) (hk : k ≠ 0) (hs : st = true → 2 ^ ((fpOf m).prec + 2) ≤ k) (rm : Rnd) (neg : Bool) :
    (fpOf m).mag ((fpOf m).codeAt ((fpOf m).spacing (topOf k e)) (roundAt rm neg k e st ((fpOf m).spacing (topOf k e))).1) =
      (roundAt rm neg k e st ((fpOf m).spacing (topOf k e))).1 * 2 ^ (fpOf m).spacing (topOf k e) := by
  obtain ⟨hlt, hle⟩ := h.cut_bounds (m := m) (q := (fpOf m).spacing (topOf k e)) hk (le_max_right _ _) fun hst => sticky_spacing (hs hst)
  have hr := roundAt_fst rm neg k e st ((fpOf m).spacing (topOf k e))
  refine FP.mag_codeAt _ (le_max_left _ _) (by omega) ?_
  rcases max_choice (fpOf m).qmin ((fpOf m).fine (topOf k e)) with hq | hq
  · exact .inl hq
  · have := hle hq
    exact .inr (by omega)

/-- A magnitude cut at its spacing has the code of that multiple. -/
theorem CutOf.mag_cut (h : CutOf k e st x) (hk : k ≠ 0) (hs : st = true → 2 ^ ((fpOf m).prec + 2) ≤ k) :
    (fpOf m).mag ((fpOf m).codeAt ((fpOf m).spacing (topOf k e)) (cutAt k e ((fpOf m).spacing (topOf k e)))) =
      cutAt k e ((fpOf m).spacing (topOf k e)) * 2 ^ (fpOf m).spacing (topOf k e) := by
  have hz := h.mag_rounded (m := m) hk hs .rz false
  rwa [roundAt_eq, show roundsUp .rz false _ _ _ = false from rfl] at hz

/-- The code of a magnitude rounded away from zero exceeds the largest exactly when the magnitude does. -/
theorem CutOf.beyond_iff (h : CutOf k e st x) (hk : k ≠ 0) (hs : st = true → 2 ^ ((fpOf m).prec + 2) ≤ k) :
    (fpOf m).maxCode < (fpOf m).codeAt ((fpOf m).spacing (topOf k e)) (roundAt .ru false k e st ((fpOf m).spacing (topOf k e))).1 ↔
      (fpOf m).mag (fpOf m).maxCode < x := by
  have hst : st = true → e < (fpOf m).spacing (topOf k e) := fun hst => sticky_spacing (hs hst)
  have hmono := (fpOf m).mag_strictMono
  by_cases hx : (cutAt k e ((fpOf m).spacing (topOf k e)) : ℚ) * 2 ^ (fpOf m).spacing (topOf k e) = x
  · rw [h.roundAt_exact hst hx, ← hmono.lt_iff_lt, h.mag_cut hk hs, hx]
  · rw [h.roundAt_up hst hx]
    constructor
    · intro hlt
      have hle : (fpOf m).maxCode ≤ (fpOf m).codeAt ((fpOf m).spacing (topOf k e)) (cutAt k e ((fpOf m).spacing (topOf k e))) := by
        unfold FP.codeAt at *
        dsimp only at hlt
        omega
      refine (hmono.monotone hle).trans_lt ?_
      rw [h.mag_cut hk hs]
      exact lt_of_le_of_ne h.cutAt_le hx
    · intro hlt
      have hup := h.mag_rounded (m := m) hk hs .ru false
      rw [h.roundAt_up hst hx] at hup
      rw [← hmono.lt_iff_lt, hup]
      push_cast
      exact hlt.trans (h.lt_cutAt hst)

/-- No mode rounds beyond the multiple away from zero. -/
theorem CutOf.roundAt_le_up (h : CutOf k e st x) {q : Int} (hst : st = true → e < q) (rm : Rnd) (neg : Bool) :
    (roundAt rm neg k e st q).1 ≤ (roundAt .ru false k e st q).1 := by
  by_cases hx : (cutAt k e q : ℚ) * 2 ^ q = x
  · rw [h.roundAt_exact hst hx, h.roundAt_exact hst hx]
  · rw [h.roundAt_up hst hx]
    rcases roundAt_fst rm neg k e st q with h1 | h1 <;> rw [h1]
    exact Nat.le_succ _

end

/-! ### Round -/

/-- A result is tiny where it stays below the smallest normal at an unbounded exponent range. -/
def tinyAt (f : FP) (rm : Rnd) (neg : Bool) (k : Nat) (e : Int) (st : Bool) : Bool :=
  decide (topOf k e < f.emin) &&
    !(decide (2 * f.half ≤ (roundAt rm neg k e st (f.fine (topOf k e))).1) && decide (topOf k e + 1 = f.emin))

/-- Whether a mode takes an overflow to an infinity. -/
def overflowsToInf (rm : Rnd) (neg : Bool) : Bool :=
  match rm with
  | .rn | .dyn | .ra => true
  | .rz => false
  | .ru => !neg
  | .rd => neg

theorem spacing_eq (f : FP) (t : Int) : (if f.fine t < f.qmin then f.qmin else f.fine t) = f.spacing t := by
  unfold FP.spacing
  split
  · next h => rw [max_eq_left h.le]
  · next h => rw [max_eq_right (not_lt.1 h)]

/-- `roundF` by the spacing of its result. -/
theorem roundF_eq (m : Fmt) (rm : Rnd) (neg : Bool) (k : Nat) (e : Int) (st : Bool) :
    let f := fpOf m
    let q := f.spacing (topOf k e)
    let r := roundAt rm neg k e st q
    roundF m rm neg k e st =
      if f.narrow && decide (f.maxCode < f.codeAt q (roundAt .ru false k e st q).1) then ⟨maxBits m neg, Fl.sat ||| Fl.nx, false⟩
      else if f.maxCode < f.codeAt q r.1 then
        ⟨f.place (f.signed neg (if overflowsToInf rm neg then f.infCode else f.maxCode)), Fl.ovf ||| Fl.nx, false⟩
      else ⟨f.place (f.signed neg (f.codeAt q r.1)), Fl.when r.2 Fl.nx ||| Fl.when (tinyAt f rm neg k e st && r.2) Fl.uf,
        tinyAt f rm neg k e st⟩ := by
  dsimp only
  rw [← spacing_eq]
  cases rm <;> rfl

section
variable {m : Fmt} {k : Nat} {e : Int} {st : Bool} {x : ℚ}

/-- Tininess is judged by the result at an unbounded exponent range. -/
theorem CutOf.tiny_iff (h : CutOf k e st x) (hk : k ≠ 0) (hs : st = true → 2 ^ ((fpOf m).prec + 2) ≤ k) (rm : Rnd) (neg : Bool) :
    tinyAt (fpOf m) rm neg k e st = true ↔
      ((roundAt rm neg k e st ((fpOf m).fine (topOf k e))).1 : ℚ) * 2 ^ (fpOf m).fine (topOf k e) < 2 ^ (fpOf m).emin := by
  obtain ⟨hlt, hle⟩ := h.cut_bounds (m := m) hk le_rfl fun hst => sticky_fine (hs hst)
  have hle := hle rfl
  have hr := roundAt_fst rm neg k e st ((fpOf m).fine (topOf k e))
  have hp := (fpOf_prec m).1
  have hpos := two_zpow_pos ((fpOf m).fine (topOf k e))
  have hhalf : ((fpOf m).half : ℚ) * 2 ^ (fpOf m).fine (topOf k e) = 2 ^ topOf k e := by
    rw [FP.half]
    push_cast
    rw [← two_zpow_add_nat]
    congr 1
    unfold FP.fine
    omega
  have htwo : (2 : ℚ) ^ (topOf k e + 1) = ((2 * (fpOf m).half : Nat) : ℚ) * 2 ^ (fpOf m).fine (topOf k e) := by
    push_cast
    rw [mul_assoc, hhalf, zpow_add₀ two_ne_zero, zpow_one, mul_comm]
  unfold tinyAt
  generalize (roundAt rm neg k e st ((fpOf m).fine (topOf k e))).1 = j at hr ⊢
  by_cases htop : topOf k e < (fpOf m).emin
  · rw [decide_eq_true htop, Bool.true_and]
    by_cases hfull : 2 * (fpOf m).half ≤ j
    · obtain rfl : j = 2 * (fpOf m).half := by omega
      rw [← htwo, zpow_lt_zpow_iff_right₀ one_lt_two]
      simp only [le_refl, decide_true, Bool.true_and, Bool.not_eq_true', decide_eq_false_iff_not]
      omega
    · simp only [hfull, decide_false, Bool.false_and, Bool.not_false, true_iff]
      calc (j : ℚ) * 2 ^ (fpOf m).fine (topOf k e) < 2 ^ (topOf k e + 1) := by
            rw [htwo]
            exact mul_lt_mul_of_pos_right (by exact_mod_cast not_le.1 hfull) hpos
        _ ≤ 2 ^ (fpOf m).emin := zpow_le_zpow_right₀ one_le_two htop
  · rw [decide_eq_false htop, Bool.false_and]
    simp only [Bool.false_eq_true, false_iff, not_lt]
    calc (2 : ℚ) ^ (fpOf m).emin ≤ 2 ^ topOf k e := zpow_le_zpow_right₀ one_le_two (not_lt.1 htop)
      _ = (fpOf m).half * 2 ^ (fpOf m).fine (topOf k e) := hhalf.symm
      _ ≤ j * 2 ^ (fpOf m).fine (topOf k e) := mul_le_mul_of_nonneg_right (by exact_mod_cast (by omega : (fpOf m).half ≤ j)) hpos.le

/-- The result of a rounding is exact where it is the magnitude itself. -/
theorem CutOf.roundAt_eq_iff (h : CutOf k e st x) {q : Int} (hst : st = true → e < q) (rm : Rnd) (neg : Bool) :
    ((roundAt rm neg k e st q).1 : ℚ) * 2 ^ q = x ↔ (roundAt rm neg k e st q).2 = false := by
  by_cases hx : (cutAt k e q : ℚ) * 2 ^ q = x
  · rw [h.roundAt_exact hst hx]
    exact iff_of_true hx rfl
  · rw [(h.roundAt_inexact hst rm neg).2 hx]
    refine iff_of_false (fun heq => ?_) (by simp)
    rcases roundAt_fst rm neg k e st q with h1 | h1
    · exact hx (h1 ▸ heq)
    · rw [h1] at heq
      push_cast at heq
      exact (h.lt_cutAt hst).ne heq.symm

/-- A result within the format's range: its number, the sign of a zero, tininess and flags. -/
theorem CutOf.round_within (h : CutOf k e st x) (hk : k ≠ 0) (hs : st = true → 2 ^ ((fpOf m).prec + 2) ≤ k) (rm : Rnd) (neg : Bool) :
    let f := fpOf m
    let q := f.spacing (topOf k e)
    let r := roundAt rm neg k e st q
    let y : ℚ := r.1 * 2 ^ q
    let z : ℚ := (roundAt rm neg k e st (f.fine (topOf k e))).1 * 2 ^ f.fine (topOf k e)
    f.codeAt q r.1 ≤ f.maxCode →
      (decodeF m (f.place (f.signed neg (f.codeAt q r.1)))).rat = (if neg then -y else y) ∧
      (y = 0 → f.place (f.signed neg (f.codeAt q r.1)) = zeroBits m neg) ∧ (tinyAt f rm neg k e st = true ↔ z < 2 ^ f.emin) ∧
      (Fl.when r.2 Fl.nx ||| Fl.when (tinyAt f rm neg k e st && r.2) Fl.uf) =
        if y = x then 0 else if z < 2 ^ f.emin then Fl.nx ||| Fl.uf else Fl.nx := by
  intro f q r y z hc
  have hmag : f.mag (f.codeAt q r.1) = y := h.mag_rounded hk hs rm neg
  have hexact : y = x ↔ r.2 = false := h.roundAt_eq_iff (fun hst => sticky_spacing (hs hst)) rm neg
  have htiny : tinyAt f rm neg k e st = true ↔ z < 2 ^ f.emin := h.tiny_iff hk hs rm neg
  refine ⟨?_, fun hy => ?_, htiny, ?_⟩
  · rw [rat_signed m neg hc, hmag]
  · rw [f.mag_eq_zero.1 (hmag.trans hy)]
    rfl
  · simp only [hexact, ← htiny]
    cases r.2 <;> cases tinyAt f rm neg k e st <;> decide

/-- Round gives the multiple of the spacing that the mode selects, or what R134 says of an overflow, with its flags. -/
theorem CutOf.round_spec (h : CutOf k e st x) (hk : k ≠ 0) (hs : st = true → 2 ^ ((fpOf m).prec + 2) ≤ k) (rm : Rnd) (neg : Bool) :
    RoundSpec m rm neg (topOf k e) x (roundF m rm neg k e st) := by
  have hst : st = true → e < (fpOf m).spacing (topOf k e) := fun hst => sticky_spacing (hs hst)
  have hmono := (fpOf m).mag_strictMono
  have hwithin := h.round_within (m := m) hk hs rm neg
  have hup := h.beyond_iff (m := m) hk hs
  have heq := roundF_eq m rm neg k e st
  have hover : (fpOf m).maxCode < (fpOf m).codeAt ((fpOf m).spacing (topOf k e)) (roundAt rm neg k e st ((fpOf m).spacing (topOf k e))).1 ↔
      (fpOf m).mag (fpOf m).maxCode <
        (roundAt rm neg k e st ((fpOf m).spacing (topOf k e))).1 * 2 ^ (fpOf m).spacing (topOf k e) := by
    rw [← h.mag_rounded hk hs rm neg, hmono.lt_iff_lt]
  dsimp only at heq hwithin
  refine ⟨_, _, h.roundAt_rounded hst rm neg, h.roundAt_rounded (fun hst => sticky_fine (hs hst)) rm neg, ?_⟩
  simp only [maxBits_rat, Bool.false_eq_true, if_false]
  cases hn : (fpOf m).narrow
  · simp only [hn, Bool.false_and, Bool.false_eq_true, if_false] at heq ⊢
    by_cases hb : (fpOf m).maxCode <
        (fpOf m).codeAt ((fpOf m).spacing (topOf k e)) (roundAt rm neg k e st ((fpOf m).spacing (topOf k e))).1
    · rw [if_pos hb] at heq
      refine ⟨fun _ hc => absurd hc (by decide), fun _ _ => ?_, fun hno => absurd (hover.1 hb) hno⟩
      rw [heq]
      refine ⟨rfl, ?_⟩
      cases rm <;> cases neg <;> rfl
    · rw [if_neg hb] at heq
      refine ⟨fun _ hc => absurd hc (by decide), fun hbe => absurd (hover.2 hbe) hb, fun _ => ?_⟩
      rw [heq]
      exact hwithin (not_lt.1 hb)
  · simp only [hn, Bool.true_and, decide_eq_true_eq, if_true] at heq ⊢
    by_cases hb : (fpOf m).maxCode <
        (fpOf m).codeAt ((fpOf m).spacing (topOf k e)) (roundAt .ru false k e st ((fpOf m).spacing (topOf k e))).1
    · rw [if_pos hb] at heq
      refine ⟨fun _ _ => ?_, fun _ hc => absurd hc (by decide), fun hno => absurd (hup.1 hb) hno⟩
      rw [heq]
      exact ⟨rfl, rfl⟩
    · have hle : (fpOf m).codeAt ((fpOf m).spacing (topOf k e)) (roundAt rm neg k e st ((fpOf m).spacing (topOf k e))).1 ≤
          (fpOf m).maxCode := (Nat.add_le_add_left (h.roundAt_le_up hst rm neg) _).trans (not_lt.1 hb)
      rw [if_neg hb, if_neg (not_lt.2 hle)] at heq
      refine ⟨fun hbe => absurd (hup.2 hbe) hb, fun _ hc => absurd hc (by decide), fun _ => ?_⟩
      rw [heq]
      exact hwithin hle

/-- A magnitude of the format is a multiple of its spacing. -/
theorem spacing_le_of_lead {c : Nat} (hc : (fpOf m).lead c ≠ 0) :
    (fpOf m).spacing (topOf ((fpOf m).lead c) ((fpOf m).qmin + (fpOf m).steps c)) ≤ (fpOf m).qmin + (fpOf m).steps c := by
  have hlt := (fpOf m).lead_lt c
  rw [two_half] at hlt
  have hlog := (Nat.log2_lt hc).2 hlt
  refine max_le (by omega) ?_
  unfold FP.fine topOf
  omega

/-- A number of the format rounds to itself, without a flag. -/
theorem roundF_representable {bits : Nat} {n : Bool} (rm : Rnd) (hd : decodeF m bits = .fin n k e) (hk : k ≠ 0) :
    (roundF m rm n k e false).bits = cleanBits m bits ∧ (roundF m rm n k e false).fl = 0 := by
  obtain ⟨c, hc, hcode, rfl, rfl⟩ := decodeF_fin hd
  have hcut := CutOf.exact ((fpOf m).lead c) ((fpOf m).qmin + (fpOf m).steps c)
  have hmag := hcut.mag_cut (m := m) hk (by simp)
  have heq := roundF_eq m rm n ((fpOf m).lead c) ((fpOf m).qmin + (fpOf m).steps c) false
  have hx := cutAt_of_le (k := (fpOf m).lead c) (spacing_le_of_lead hk)
  dsimp only at heq
  rw [hcut.roundAt_exact (by simp) hx, hcut.roundAt_exact (by simp) hx, (fpOf m).mag_strictMono.injective (hmag.trans hx),
    decide_eq_false (not_lt.2 hc), Bool.and_false, if_neg Bool.false_ne_true, if_neg (not_lt.2 hc), Bool.and_false] at heq
  rw [heq]
  refine ⟨?_, by simp [Fl.when]⟩
  rw [cleanBits, hcode]

end

/-! ### Rounded once and flushed -/

/-- What is rounded once and flushed is so rounded, whatever the sign of a zero. -/
theorem CutOf.rounds {m : Fmt} {k : Nat} {e : Int} {st : Bool} {v : ℚ} (h : CutOf k e st |v|) (hk : k ≠ 0)
    (hs : st = true → 2 ^ ((fpOf m).prec + 2) ≤ k) (fm : W32) (rm : Rnd) (zneg : Bool) :
    Rounds fm m rm v zneg (roundFlush fm m rm (decide (v < 0)) k e st) := by
  have hv : 0 < |v| := lt_of_lt_of_le (mul_pos (by exact_mod_cast Nat.pos_of_ne_zero hk) (two_zpow_pos e)) h.le
  refine ⟨fun h0 => absurd h0 (abs_pos.1 hv), fun _ => ⟨k, e, st, hk, h.le, h.lt, h.sticky, hs, ?_⟩⟩
  rw [roundFlush, if_neg (by simp [hk])]

/-- A value with its own sign, rounded once. -/
theorem roundFlush_rounds (fm : W32) (m : Fmt) (rm : Rnd) (n : Bool) (k : Nat) (e : Int) :
    Rounds fm m rm (Val.fin n k e).rat n (roundFlush fm m rm n k e false) := by
  by_cases hk : k = 0
  · subst hk
    exact ⟨fun _ => rfl, fun h => absurd ((Val.rat_fin_eq_zero n 0 e).2 rfl) h⟩
  · have hneg : decide ((Val.fin n k e).rat < 0) = n := by
      rw [Bool.eq_iff_iff, decide_eq_true_iff, Val.rat_fin_lt_zero, and_iff_left hk]
    have hcut : CutOf k e false |(Val.fin n k e).rat| := Val.abs_rat_fin n k e ▸ CutOf.exact k e
    have h := hcut.rounds hk (fun h => absurd h Bool.false_ne_true) fm rm n (m := m)
    rwa [hneg] at h

theorem Dy.rounds (x : Dy) (hx : x.n ≠ 0) (fm : W32) (m : Fmt) (rm : Rnd) (zneg : Bool) :
    Rounds fm m rm x.rat zneg (roundFlush fm m rm (decide (x.n < 0)) x.n.natAbs x.e false) := by
  have hcut : CutOf x.n.natAbs x.e false |x.rat| := x.abs_rat ▸ CutOf.exact _ _
  have h := hcut.rounds (by simpa using hx) (fun h => absurd h Bool.false_ne_true) fm rm zneg (m := m)
  simpa only [x.rat_lt_zero] using h

end Machine
end Sys2Proof
end

section
/-! SUPPORT. FArith (R205) and its obligation: each operation on values, special operands first, then one rounding of the exact value. -/

namespace Sys2Proof
open Machine
namespace Machine

/-! ### Operands (R136) -/

/-- A flushed operand keeps its sign and exponent. -/
theorem flushIn_fin {fm : W32} {m : Fmt} {bits : Nat} {n : Bool} {k : Nat} {e : Int} (h : flushIn fm m bits = .fin n k e) :
    k < 2 ^ (fpOf m).prec := by
  unfold flushIn at h
  split at h
  · next n' k' e' hd =>
    split at h
    · obtain ⟨-, rfl, -⟩ := Val.fin.inj h
      exact Nat.two_pow_pos _
    · obtain ⟨-, rfl, -⟩ := Val.fin.inj h
      exact decodeF_fin_lt hd
  · next hno => exact absurd h (hno n k e)

/-! ### FArith, operation by operation -/

section
variable (fm : W32) (m : Fmt) (rm : Rnd) (x y z : Val) (b : Int)

theorem nanOut_eq (inv : Bool) : nanOut m inv = (nanBits m, if inv then Fl.nv else 0) := rfl

theorem farith_add : farith fm m rm .add x y z b = if x.isNan || y.isNan then nanOut m (x.isSig || y.isSig) else addVal fm m rm x y := by
  simp [farith]

theorem farith_sub :
    farith fm m rm .sub x y z b = if x.isNan || y.isNan then nanOut m (x.isSig || y.isSig) else addVal fm m rm x y.negate := by
  simp [farith]

theorem farith_mul_fin (n i : Bool) (j k : Nat) (e g : Int) :
    farith fm m rm .mul (.fin n j e) (.fin i k g) z b = roundFlush fm m rm (n != i) (j * k) (e + g) false := by
  simp [farith, Val.isNan, Val.isZero, Val.isInf, mulVal]

theorem farith_fma : farith fm m rm .fma x y z b =
    if x.isNan || y.isNan || z.isNan then nanOut m (x.isSig || y.isSig || z.isSig)
    else if (x.isZero && y.isInf) || (x.isInf && y.isZero) then nanOut m true
    else addVal fm m rm (mulVal x y) z := by
  simp [farith, Bool.or_assoc]

theorem farith_div_fin (n i : Bool) (j k : Nat) (e g : Int) : farith fm m rm .div (.fin n j e) (.fin i k g) z b =
    if k = 0 then (if j = 0 then nanOut m true else (infBits m (n != i), Fl.dz))
    else if j = 0 then (zeroBits m (n != i), 0)
    else roundFlush fm m rm (n != i) (j * 2 ^ 128 / k) (e - g - 128) (decide (j * 2 ^ 128 % k ≠ 0)) := by
  by_cases hk : k = 0 <;> by_cases hj : j = 0 <;> simp [farith, Val.isNan, Val.isZero, Val.isInf, Val.neg?, hk, hj]

theorem farith_scale_fin (n : Bool) (k : Nat) (e : Int) :
    farith fm m rm .scale (.fin n k e) y z b = if k = 0 then (zeroBits m n, 0) else roundFlush fm m rm n k (e + b) false := by
  simp [farith, Val.isNan]

theorem farith_sqrt_fin (n : Bool) (k : Nat) (e : Int) : farith fm m rm .sqrt (.fin n k e) y z b =
    if k = 0 then (zeroBits m n, 0)
    else if n then nanOut m true
    else
      let a := (if e % 2 ≠ 0 then k * 2 else k) * 2 ^ 256
      roundFlush fm m rm false (isqrt a) (((if e % 2 ≠ 0 then e - 1 else e) - 256) / 2) (decide (isqrt a * isqrt a ≠ a)) := by
  simp [farith, Val.isNan]

end

/-! ### Sums and products -/

section
variable (fm : W32) (m : Fmt) (rm : Rnd)

/-- A NaN operand gives DefaultNaN, with NV for a signalling one. -/
theorem nanRule_nanOut (x y : Val) : NanRule m x y (nanOut m (x.isSig || y.isSig)) := by
  intro _
  rw [nanOut_eq]
  simp only [Bool.or_eq_true]

/-- Operands that are no NaN fall under no NaN rule. -/
theorem nanRule_none {x y : Val} (hx : x.isNan = false) (hy : y.isNan = false) (r : Nat × Fl) : NanRule m x y r := by
  rintro (h | h)
  · rw [hx] at h; cases h
  · rw [hy] at h; cases h

theorem negate_isNan (x : Val) : x.negate.isNan = x.isNan := by cases x <;> rfl
theorem negate_isSig (x : Val) : x.negate.isSig = x.isSig := by cases x <;> rfl

theorem addVal_sums {x y : Val} (hx : x.isNan = false) (hy : y.isNan = false) : SumSpec fm m rm x y (addVal fm m rm x y) := by
  refine ⟨nanRule_none m hx hy _, ?_⟩
  cases x with
  | nan q => cases hx
  | inf a =>
    cases y with
    | nan q => cases hy
    | inf c => rfl
    | fin c k g => rfl
  | fin a j e =>
    cases y with
    | nan q => cases hy
    | inf c => rfl
    | fin c k g =>
      have hsum : (Val.fin a j e).rat + (Val.fin c k g).rat = ((Val.fin a j e).dy.add (Val.fin c k g).dy).rat := by
        rw [Dy.rat_add, Val.rat_dy, Val.rat_dy]
      dsimp only [addVal]
      rw [hsum]
      by_cases h0 : ((Val.fin a j e).dy.add (Val.fin c k g).dy).n = 0
      · rw [if_pos h0]
        refine ⟨fun _ => ?_, fun hne => absurd ((Dy.rat_eq_zero _).2 h0) hne⟩
        simp [Val.isZero, Val.neg?, and_assoc]
      · rw [if_neg h0]
        exact Dy.rounds _ h0 fm m rm _

/-- A sum by FArith. -/
theorem farith_sums (x y : Val) (z : Val) (b : Int) : SumSpec fm m rm x y (farith fm m rm .add x y z b) := by
  rw [farith_add]
  by_cases hn : (x.isNan || y.isNan) = true
  · rw [if_pos hn]
    refine ⟨nanRule_nanOut m x y, ?_⟩
    cases x <;> cases y <;> trivial
  · rw [if_neg hn]
    simp only [Bool.or_eq_true, not_or, Bool.not_eq_true] at hn
    exact addVal_sums fm m rm hn.1 hn.2

theorem farith_sub_eq (x y z : Val) (b : Int) : farith fm m rm .sub x y z b = farith fm m rm .add x y.negate z b := by
  rw [farith_sub, farith_add, negate_isNan, negate_isSig]

theorem mulVal_fin_rat (a c : Bool) (j k : Nat) (e g : Int) :
    (mulVal (.fin a j e) (.fin c k g)).rat = (Val.fin a j e).rat * (Val.fin c k g).rat := by
  have hpow : (2 : ℚ) ^ (e + g) = 2 ^ e * 2 ^ g := zpow_add₀ two_ne_zero e g
  simp only [mulVal, Val.rat_fin, Nat.cast_mul, hpow]
  cases a <;> cases c <;> simp <;> ring

theorem mulVal_isNan {x y : Val} : (mulVal x y).isNan = false := by cases x <;> cases y <;> rfl

/-- A product by FArith. -/
theorem farith_multiplies (x y z : Val) (b : Int) : ProductSpec fm m rm x y (farith fm m rm .mul x y z b) := by
  refine ⟨fun hn => ?_, ?_⟩
  · have hnan : (x.isNan || y.isNan) = true := Bool.or_eq_true _ _ ▸ hn
    simp [farith, hnan, nanOut, Fl.when]
  cases x with
  | nan q => cases y <;> trivial
  | inf a =>
    cases y with
    | nan q => trivial
    | inf c => rfl
    | fin c k g => by_cases hk : k = 0 <;> simp [farith, Val.isNan, Val.isZero, Val.isInf, mulVal, Val.neg?, nanOut, Fl.when, hk]
  | fin a j e =>
    cases y with
    | nan q => trivial
    | inf c => by_cases hj : j = 0 <;> simp [farith, Val.isNan, Val.isZero, Val.isInf, mulVal, Val.neg?, nanOut, Fl.when, hj, bne_comm]
    | fin c k g =>
      dsimp only
      rw [farith_mul_fin, ← mulVal_fin_rat]
      exact roundFlush_rounds fm m rm (a != c) (j * k) (e + g)

end

/-! ### Quotients and roots -/

/-- An integer square root by bits is the root of its range. -/
theorem isqrtGo_spec (x : Nat) : ∀ n r : Nat, r * r ≤ x → x < (r + 2 ^ n) * (r + 2 ^ n) →
    isqrtGo x n r * isqrtGo x n r ≤ x ∧ x < (isqrtGo x n r + 1) * (isqrtGo x n r + 1)
  | 0, _, h1, h2 => ⟨h1, h2⟩
  | n + 1, r, h1, h2 => by
    rw [isqrtGo]
    split
    · next h =>
      refine isqrtGo_spec x n _ h ?_
      rwa [add_assoc, ← two_mul, ← pow_succ']
    · next h => exact isqrtGo_spec x n r h1 (not_le.1 h)

/-- The integer square root. -/
theorem isqrt_spec (x : Nat) : isqrt x * isqrt x ≤ x ∧ x < (isqrt x + 1) * (isqrt x + 1) := by
  refine isqrtGo_spec x _ 0 (Nat.zero_le _) ?_
  have hlt : x < 2 ^ (Nat.log2 x + 1) := Nat.lt_log2_self
  refine hlt.trans_le ?_
  rw [Nat.zero_add, ← pow_add]
  exact Nat.pow_le_pow_right two_pos (by omega)

/-- A root is at least every number whose square does not exceed it. -/
theorem le_isqrt {a x : Nat} (h : a * a ≤ x) : a ≤ isqrt x := by
  by_contra hlt
  have := (isqrt_spec x).2
  have hle : isqrt x + 1 ≤ a := by omega
  exact absurd (Nat.mul_le_mul hle hle) (by omega)

/-- A quotient of integers cut to a unit. -/
theorem CutOf.div (a b : Nat) (hb : b ≠ 0) (g : Int) : CutOf (a / b) g (decide (a % b ≠ 0)) ((a : ℚ) / b * 2 ^ g) := by
  have hb' : (0 : ℚ) < b := by exact_mod_cast Nat.pos_of_ne_zero hb
  have hg := two_zpow_pos g
  have hsplit : (a : ℚ) / b = (a / b : Nat) + ((a % b : Nat) : ℚ) / b := by
    have hdm : (a : ℚ) = b * (a / b : Nat) + (a % b : Nat) := by exact_mod_cast (Nat.div_add_mod a b).symm
    rw [div_eq_iff hb'.ne', add_mul, div_mul_cancel₀ _ hb'.ne']
    linarith
  have hnn : (0 : ℚ) ≤ ((a % b : Nat) : ℚ) / b := by positivity
  have hlt : ((a % b : Nat) : ℚ) / b < 1 := (div_lt_one hb').2 (by exact_mod_cast Nat.mod_lt a (Nat.pos_of_ne_zero hb))
  rw [hsplit]
  refine ⟨mul_le_mul_of_nonneg_right (le_add_of_nonneg_right hnn) hg.le, mul_lt_mul_of_pos_right (by linarith) hg, ?_⟩
  rw [decide_eq_true_iff, ne_eq, ne_eq, mul_left_inj' hg.ne', left_eq_add, div_eq_zero_iff, Nat.cast_eq_zero, or_iff_left hb'.ne']

section
variable (fm : W32) (m : Fmt) (rm : Rnd)

/-- A quotient by FArith, for a divisor that has a precision. -/
theorem farith_divides (x y z : Val) (b : Int) (hy : ∀ n k e, y = .fin n k e → k < 2 ^ 53) :
    QuotientSpec fm m rm x y (farith fm m rm .div x y z b) := by
  refine ⟨fun hn => ?_, ?_⟩
  · have hnan : (x.isNan || y.isNan) = true := Bool.or_eq_true _ _ ▸ hn
    simp [farith, hnan, nanOut, Fl.when]
  cases x with
  | nan q => cases y <;> trivial
  | inf a =>
    cases y with
    | nan q => trivial
    | inf c => rfl
    | fin c k g => simp [farith, Val.isNan, Val.isZero, Val.isInf, Val.neg?]
  | fin a j e =>
    cases y with
    | nan q => trivial
    | inf c => simp [farith, Val.isNan, Val.isZero, Val.isInf, Val.neg?]
    | fin c k g =>
      dsimp only
      rw [farith_div_fin]
      refine ⟨fun hk => ?_, fun hk => ?_⟩
      · rw [if_pos hk]
        rfl
      · rw [if_neg hk]
        by_cases hj : j = 0
        · subst hj
          rw [if_pos rfl, (Val.rat_fin_eq_zero a 0 e).2 rfl, zero_div]
          exact ⟨fun _ => rfl, fun h => absurd rfl h⟩
        · rw [if_neg hj]
          have habs : |(Val.fin a j e).rat / (Val.fin c k g).rat| = ((j * 2 ^ 128 : Nat) : ℚ) / k * 2 ^ (e - g - 128) := by
            have hpow : (2 : ℚ) ^ (e - g - 128) = 2 ^ e / 2 ^ g / 2 ^ 128 := by
              rw [zpow_sub₀ two_ne_zero, zpow_sub₀ two_ne_zero]
              norm_cast
            rw [abs_div, Val.abs_rat_fin, Val.abs_rat_fin, hpow]
            push_cast
            field_simp
            norm_num
          have hlt : k < 2 ^ 53 := hy c k g rfl
          have hp := (fpOf_prec m).2.2
          have hbig : 2 ^ ((fpOf m).prec + 2) ≤ j * 2 ^ 128 / k := by
            rw [Nat.le_div_iff_mul_le (Nat.pos_of_ne_zero hk)]
            calc 2 ^ ((fpOf m).prec + 2) * k ≤ 2 ^ 55 * 2 ^ 53 := Nat.mul_le_mul (Nat.pow_le_pow_right two_pos (by omega)) hlt.le
              _ ≤ 1 * 2 ^ 128 := by norm_num
              _ ≤ j * 2 ^ 128 := Nat.mul_le_mul_right _ (Nat.pos_of_ne_zero hj)
          have hpos : j * 2 ^ 128 / k ≠ 0 := (lt_of_lt_of_le (Nat.two_pow_pos _) hbig).ne'
          have hsign : decide ((Val.fin a j e).rat / (Val.fin c k g).rat < 0) = (a != c) := by
            have hx : (0 : ℚ) < (j : ℚ) * 2 ^ e := mul_pos (by exact_mod_cast Nat.pos_of_ne_zero hj) (two_zpow_pos e)
            have hy : (0 : ℚ) < (k : ℚ) * 2 ^ g := mul_pos (by exact_mod_cast Nat.pos_of_ne_zero hk) (two_zpow_pos g)
            have hpos := div_pos hx hy
            rw [Val.rat_fin, Val.rat_fin]
            cases a <;> cases c <;> simp [neg_div, div_neg, hpos, hpos.le]
          have h := (habs ▸ CutOf.div (j * 2 ^ 128) k hk (e - g - 128)).rounds hpos (fun _ => hbig) fm rm (a != c)
          rwa [hsign] at h

/-- A root cut to a unit: the integer root of a × 2^(2g) stands below √(a × 2^(2g)), and the next unit above it. -/
theorem isqrt_cut (a : Nat) (g : Int) : ((isqrt a : ℚ) * 2 ^ g) ^ 2 ≤ a * 2 ^ (2 * g) ∧ (a : ℚ) * 2 ^ (2 * g) < ((isqrt a + 1) * 2 ^ g) ^ 2 ∧
    (decide (isqrt a * isqrt a ≠ a) = true ↔ ((isqrt a : ℚ) * 2 ^ g) ^ 2 ≠ a * 2 ^ (2 * g)) := by
  obtain ⟨hlo, hhi⟩ := isqrt_spec a
  have hpow : (2 : ℚ) ^ (2 * g) = (2 ^ g) ^ 2 := by rw [mul_comm, zpow_mul]; norm_cast
  have hpos := pow_pos (two_zpow_pos g) 2
  rw [hpow, mul_pow, mul_pow]
  refine ⟨mul_le_mul_of_nonneg_right ?_ hpos.le, mul_lt_mul_of_pos_right ?_ hpos, ?_⟩
  · rw [pow_two]
    exact_mod_cast hlo
  · rw [pow_two]
    exact_mod_cast hhi
  · rw [decide_eq_true_iff, ne_eq, ne_eq, mul_left_inj' hpos.ne', pow_two]
    norm_cast

/-- A square root by FArith. -/
theorem farith_roots (x y z : Val) (b : Int) : RootSpec fm m rm x (farith fm m rm .sqrt x y z b) := by
  cases x with
  | nan q => simp [RootSpec, farith, Val.isNan, Val.isSig, nanOut, Fl.when]
  | inf n => cases n <;> simp [RootSpec, farith, Val.isNan, nanOut, Fl.when]
  | fin n k e =>
    rw [RootSpec, farith_sqrt_fin]
    refine ⟨fun hk => if_pos hk, fun hk hn => by rw [if_neg hk, if_pos hn]; rfl, fun hk hn => ?_⟩
    rw [if_neg hk, hn, if_neg Bool.false_ne_true]
    dsimp only
    generalize ha : (if e % 2 ≠ 0 then k * 2 else k) * 2 ^ 256 = a
    generalize hg : ((if e % 2 ≠ 0 then e - 1 else e) - 256) / 2 = g
    have hval : (Val.fin false k e).rat = a * 2 ^ (2 * g) := by
      have he : (if e % 2 ≠ 0 then e - 1 else e) = 2 * g + 256 := by split at hg <;> simp_all <;> omega
      have hpow : (2 : ℚ) ^ (2 * g + 256) = 2 ^ 256 * 2 ^ (2 * g) := two_zpow_add_nat 256 (2 * g)
      rw [Val.rat_fin, if_neg Bool.false_ne_true, ← ha, Nat.cast_mul, Nat.cast_pow, Nat.cast_ofNat, mul_assoc, ← hpow, ← he]
      split
      · rw [zpow_sub_one₀ two_ne_zero]
        push_cast
        field_simp
      · rfl
    obtain ⟨hlo, hhi, hst⟩ := isqrt_cut a g
    have hp := (fpOf_prec m).2.2
    have hbig : 2 ^ ((fpOf m).prec + 2) ≤ isqrt a := by
      refine le_isqrt ?_
      rw [← pow_add]
      calc 2 ^ ((fpOf m).prec + 2 + ((fpOf m).prec + 2)) ≤ 2 ^ 256 := Nat.pow_le_pow_right two_pos (by omega)
        _ = 1 * 2 ^ 256 := (Nat.one_mul _).symm
        _ ≤ a := ha ▸ Nat.mul_le_mul_right _ (by split <;> omega)
    exact ⟨isqrt a, g, _, hbig, hval ▸ hlo, hval ▸ hhi, hval ▸ hst, rfl⟩

end

/-! ### Fused sums and scaling -/

section
variable (fm : W32) (m : Fmt) (rm : Rnd)

/-- A fused product and sum by FArith: one sum of the exact product. -/
theorem farith_fuses (x y z : Val) (b : Int) :
    let r := farith fm m rm .fma x y z b
    (x.isNan ∨ y.isNan ∨ z.isNan → r = (nanBits m, if x.isSig ∨ y.isSig ∨ z.isSig then Fl.nv else 0)) ∧
    (¬ (x.isNan ∨ y.isNan ∨ z.isNan) → (x.isZero ∧ y.isInf ∨ x.isInf ∧ y.isZero) → r = (nanBits m, Fl.nv)) ∧
    (¬ (x.isNan ∨ y.isNan ∨ z.isNan) → ¬ (x.isZero ∧ y.isInf ∨ x.isInf ∧ y.isZero) → SumSpec fm m rm (mulVal x y) z r) := by
  intro r
  have hr : r = _ := farith_fma fm m rm x y z b
  have hnan : (x.isNan || y.isNan || z.isNan) = true ↔ x.isNan ∨ y.isNan ∨ z.isNan := by simp [or_assoc]
  have hbad : ((x.isZero && y.isInf) || (x.isInf && y.isZero)) = true ↔ x.isZero ∧ y.isInf ∨ x.isInf ∧ y.isZero := by simp
  refine ⟨fun hn => ?_, fun hn hb => ?_, fun hn hb => ?_⟩
  · rw [hr, if_pos (hnan.2 hn), nanOut_eq]
    simp only [Bool.or_eq_true, or_assoc]
  · rw [hr, if_neg fun h => hn (hnan.1 h), if_pos (hbad.2 hb)]
    rfl
  · rw [hr, if_neg fun h => hn (hnan.1 h), if_neg fun h => hb (hbad.1 h)]
    exact addVal_sums fm m rm mulVal_isNan (Bool.eq_false_iff.2 fun hz => hn (.inr (.inr hz)))

/-- Scaling by FArith. -/
theorem farith_scales (x y z : Val) (b : Int) :
    let r := farith fm m rm .scale x y z b
    match x with
    | .nan q => r = (nanBits m, if q then Fl.nv else 0)
    | .inf n => r = (infBits m n, 0)
    | .fin n k e => Rounds fm m rm ((Val.fin n k e).rat * 2 ^ b) n r := by
  cases x with
  | nan q => simp [farith, Val.isNan, Val.isSig, nanOut, Fl.when]
  | inf n => simp [farith, Val.isNan]
  | fin n k e =>
    have hrat : (Val.fin n k e).rat * 2 ^ b = (Val.fin n k (e + b)).rat := by
      rw [Val.rat, Val.rat, zpow_add₀ two_ne_zero, mul_assoc]
    dsimp only
    rw [farith_scale_fin, hrat]
    by_cases hk : k = 0
    · subst hk
      rw [if_pos rfl]
      exact roundFlush_rounds fm m rm n 0 (e + b)
    · rw [if_neg hk]
      exact roundFlush_rounds fm m rm n k (e + b)

end

/-! ### The obligation -/

/-- A float word of FArith gives each lane FArith of its flushed operands. -/
theorem computes_floatOp (s : State) (i : Instr) (f : F) (m : Fmt) (rnd : Rnd) (op : FOp) (h : exec i s = floatOp i f m rnd op s) :
    s.Computes i f.d m.regs (s.farithAt m rnd op f) :=
  computes_perLane i s f.d m.regs _ h

/-- Settles O9: Round by the spacing of its result, each operation of FArith by its operands' kinds. -/
theorem floatArithmetic : Obligations.FloatArithmetic := by
  unfold Obligations.FloatArithmetic
  refine ⟨fun m rm neg k e st x _ hk hle hlt hst hs => CutOf.round_spec ⟨hle, hlt, hst⟩ hk hs rm neg, fun s f m rnd => ?_⟩
  have hprec (n : Bool) (k : Nat) (e : Int) (l : Nat) (h : s.fval m f.b l = .fin n k e) : k < 2 ^ 53 :=
    (flushIn_fin h).trans_le (Nat.pow_le_pow_right two_pos (fpOf_prec m).2.2)
  refine ⟨⟨_, computes_floatOp s _ f m rnd .add rfl, fun l => farith_sums _ m _ _ _ (.nan false) 0⟩,
    ⟨_, computes_floatOp s _ f m rnd .sub rfl, fun l => ?_⟩,
    ⟨_, computes_floatOp s _ f m rnd .mul rfl, fun l => farith_multiplies _ m _ _ _ (.nan false) 0⟩,
    ⟨_, computes_floatOp s _ f m rnd .fma rfl, fun l => farith_fuses _ m _ _ _ (s.fval m f.c l) 0⟩,
    ⟨_, computes_floatOp s _ f m rnd .div rfl, fun l => farith_divides _ m _ _ _ (.nan false) 0 fun n k e => hprec n k e l⟩,
    ⟨_, computes_floatOp s _ f m rnd .sqrt rfl, fun l => farith_roots _ m _ _ (.nan false) (.nan false) 0⟩,
    ⟨_, computes_floatOp s _ f m rnd .scale rfl, fun l => ?_⟩⟩
  · have h := farith_sums s.w.sp.fmode m (modeOf s.w.sp.fmode rnd) (s.fval m f.a l) (s.fval m f.b l).negate (.nan false) 0
    rwa [← farith_sub_eq] at h
  · have hr : s.farithAt m rnd .scale f l = farith s.w.sp.fmode m (modeOf s.w.sp.fmode rnd) .scale (s.fval m f.a l) (.nan false) (.nan false)
        (s.opnd32 f.b l).toInt := congrArg (farith _ m _ .scale _ _ _) (intOf_signed 32 _ (by decide))
    rw [hr]
    exact farith_scales _ m _ _ _ _ _

end Machine
end Sys2Proof
end

section
/-! SUPPORT. The functions of F32 (R145, R146) and the obligation on them: reciprocals by FArith and by an integer root, and the cases in
which the others are exact. -/

namespace Sys2Proof
open Machine
namespace Machine

/-- A transcendental gives each lane the function of its flushed operand. -/
theorem computes_transOp (s : State) (i : Instr) (f : F) (rnd : Rnd) (op : W32 → Rnd → Val → Nat × Fl)
    (h : exec i s = transOp i f rnd op s) :
    s.Computes i f.d 1 fun l => op s.w.sp.fmode (modeOf s.w.sp.fmode rnd) (s.fval .f32 f.a l) :=
  computes_perLane i s f.d 1 _ h

section
variable (fm : W32) (rm : Rnd)

/-! ### The reciprocal root -/

/-- An integer root of 2^400 / a, in units of 2^g, cut below the reciprocal root of a × 2^(−400 − 2g). -/
theorem isqrt_reciprocal_cut (a : Nat) (ha : a ≠ 0) (g : Int) :
    let q := isqrt (2 ^ 400 / a)
    let v : ℚ := a * 2 ^ (-400 - 2 * g)
    ((q : ℚ) * 2 ^ g) ^ 2 * v ≤ 1 ∧ 1 < (((q : ℚ) + 1) * 2 ^ g) ^ 2 * v ∧
    (decide (q * q * a ≠ 2 ^ 400) = true ↔ ((q : ℚ) * 2 ^ g) ^ 2 * v ≠ 1) := by
  intro q v
  obtain ⟨hlo, hhi⟩ := isqrt_spec (2 ^ 400 / a)
  have hapos : 0 < a := Nat.pos_of_ne_zero ha
  have hscale (r : ℚ) : (r * 2 ^ g) ^ 2 * v = r * r * a / 2 ^ 400 := by
    have hpow : (2 : ℚ) ^ (-400 - 2 * g) = (2 ^ 400)⁻¹ * ((2 ^ g) ^ 2)⁻¹ := by
      rw [sub_eq_add_neg, zpow_add₀ two_ne_zero, zpow_neg, zpow_neg, mul_comm 2 g, zpow_mul]
      rfl
    have hg := (two_zpow_pos g).ne'
    show (r * 2 ^ g) ^ 2 * (a * 2 ^ (-400 - 2 * g)) = _
    rw [hpow, div_eq_mul_inv]
    generalize ((2 : ℚ) ^ 400)⁻¹ = c
    field_simp
  have hle : q * q * a ≤ 2 ^ 400 := (Nat.mul_le_mul_right a hlo).trans (Nat.div_mul_le_self _ _)
  have hlt : 2 ^ 400 < (q + 1) * (q + 1) * a := (Nat.div_lt_iff_lt_mul hapos).1 hhi
  have h400 : (0 : ℚ) < 2 ^ 400 := by positivity
  rw [hscale, hscale]
  refine ⟨(div_le_one h400).2 ?_, (one_lt_div h400).2 ?_, ?_⟩
  · exact_mod_cast hle
  · exact_mod_cast hlt
  · have hcast : ((2 ^ 400 : Nat) : ℚ) = 2 ^ 400 := Nat.cast_pow 2 400
    rw [decide_eq_true_iff, ne_eq, ne_eq, div_eq_one_iff_eq h400.ne', ← hcast, ← Nat.cast_mul, ← Nat.cast_mul, Nat.cast_inj]

/-- `frsq` cuts the reciprocal root of its operand above its precision. -/
theorem frsqBits_fin (k : Nat) (e : Int) (hk : k ≠ 0) (hlt : k < 2 ^ 24) :
    ∃ (q : Nat) (g : Int) (st : Bool), 2 ^ 26 ≤ q ∧ ((q : ℚ) * 2 ^ g) ^ 2 * (Val.fin false k e).rat ≤ 1 ∧
      1 < (((q : ℚ) + 1) * 2 ^ g) ^ 2 * (Val.fin false k e).rat ∧
      (st = true ↔ ((q : ℚ) * 2 ^ g) ^ 2 * (Val.fin false k e).rat ≠ 1) ∧
      frsqBits fm rm (.fin false k e) = roundFlush fm .f32 rm false q g st := by
  obtain ⟨a, g, ha, hbig, hval, heq⟩ : ∃ (a : Nat) (g : Int), a ≠ 0 ∧ a ≤ 2 ^ 25 ∧ (Val.fin false k e).rat = a * 2 ^ (-400 - 2 * g) ∧
      frsqBits fm rm (.fin false k e) =
        roundFlush fm .f32 rm false (isqrt (2 ^ 400 / a)) g (decide (isqrt (2 ^ 400 / a) * isqrt (2 ^ 400 / a) * a ≠ 2 ^ 400)) := by
    by_cases he : e % 2 = 0
    · refine ⟨k, -200 - e / 2, hk, by omega, ?_, ?_⟩
      · rw [show -400 - 2 * (-200 - e / 2) = e by omega]
        rfl
      · unfold frsqBits
        simp only [hk, he, if_false, if_true, Bool.false_eq_true]
    · refine ⟨2 * k, -200 - (e - 1) / 2, by omega, by omega, ?_, ?_⟩
      · rw [show -400 - 2 * (-200 - (e - 1) / 2) = e - 1 by omega, zpow_sub_one₀ two_ne_zero]
        show (k : ℚ) * 2 ^ e = _
        push_cast
        field_simp
      · unfold frsqBits
        simp only [hk, he, if_false, Bool.false_eq_true]
  obtain ⟨h1, h2, h3⟩ := isqrt_reciprocal_cut a ha g
  refine ⟨_, g, _, ?_, hval ▸ h1, hval ▸ h2, hval ▸ h3, heq⟩
  refine le_isqrt ((Nat.le_div_iff_mul_le (Nat.pos_of_ne_zero ha)).2 ?_)
  rw [← pow_add]
  refine (Nat.mul_le_mul_left _ hbig).trans ?_
  rw [← pow_add]
  exact pow_le_pow_right₀ one_le_two (by norm_num)

/-! ### Exact cases of exponential and logarithm -/

/-- `fexp2` of an integer within its range is that power of two. -/
theorem fexp2Bits_int (n : Bool) (k : Nat) (e j : Int) (h1 : -1000 ≤ j) (h2 : j ≤ 1000) (h : (Val.fin n k e).rat = j) :
    fexp2Bits fm rm (.fin n k e) = roundFlush fm .f32 rm false 1 j false := by
  have hdy : ((dyOf n k e).n : ℚ) * 2 ^ e = j := by
    rw [← h, ← dyOf_rat]
    rfl
  have hclamp : (if j < -1000 then -1000 else if 1000 < j then 1000 else j) = j := by
    rw [if_neg (by omega), if_neg (by omega)]
  unfold fexp2Bits
  dsimp only
  by_cases he : 0 ≤ e
  · have hj : (dyOf n k e).n * 2 ^ e.toNat = j := by
      have hpow : (2 : ℚ) ^ e = 2 ^ e.toNat := by
        conv_lhs => rw [← Int.toNat_of_nonneg he, zpow_natCast]
      rw [hpow] at hdy
      exact_mod_cast hdy
    simp only [he, if_true, hj, hclamp]
  · have hj : (dyOf n k e).n = j * 2 ^ (-e).toNat := by
      have hpow : (2 : ℚ) ^ e = (2 ^ (-e).toNat)⁻¹ := by
        conv_lhs => rw [show e = -((-e).toNat : Int) by omega, zpow_neg, zpow_natCast]
      rw [hpow, mul_inv_eq_iff_eq_mul₀ (by positivity)] at hdy
      exact_mod_cast hdy
    have hpos : (2 : Int) ^ (-e).toNat ≠ 0 := by positivity
    simp only [he, if_false, hj, Int.mul_ediv_cancel _ hpos, Int.mul_emod_left, Int.toNat_zero, Nat.zero_mul, if_true, hclamp]

/-- `flog2` of a power of two is its exponent. -/
theorem flog2Bits_pow (k : Nat) (e j : Int) (hk : k ≠ 0) (h : (Val.fin false k e).rat = 2 ^ j) :
    Rounds fm .f32 rm j false (flog2Bits fm rm (.fin false k e)) := by
  have hkj : (k : ℚ) = 2 ^ (j - e) := by
    rw [zpow_sub₀ two_ne_zero, eq_div_iff (two_zpow_pos e).ne', ← h]
    rfl
  have hnn : 0 ≤ j - e := by
    by_contra hneg
    have hlt : (k : ℚ) < 1 := by
      rw [hkj]
      exact zpow_lt_one_of_neg₀ one_lt_two (by omega)
    have : k < 1 := by exact_mod_cast hlt
    omega
  have hpow : k = 2 ^ (j - e).toNat := by
    rw [← Int.toNat_of_nonneg hnn, zpow_natCast] at hkj
    exact_mod_cast hkj
  have hlog : Nat.log2 k = (j - e).toNat := by rw [hpow, Nat.log2_two_pow]
  have hw : e + ((j - e).toNat : Int) = j := by omega
  unfold flog2Bits
  simp only [hk, if_false, Bool.false_eq_true, hlog, ← hpow, if_true, hw]
  by_cases hj : j = 0
  · subst hj
    exact ⟨fun _ => rfl, fun h0 => absurd Int.cast_zero h0⟩
  · rw [if_neg hj]
    have hr := Dy.rounds ⟨j, 0⟩ hj fm .f32 rm false
    rwa [show Dy.rat ⟨j, 0⟩ = j from Dy.rat_ofInt j] at hr

end

/-! ### The obligation -/

/-- Settles O10: each function by its operand's kind. -/
theorem floatFunctions : Obligations.FloatFunctions := by
  unfold Obligations.FloatFunctions
  intro s f m rnd rm fm
  have hprec (n : Bool) (k : Nat) (e : Int) (l : Nat) (h : s.fval .f32 f.a l = .fin n k e) : k < 2 ^ 24 := flushIn_fin h
  refine ⟨computes_perLane _ _ _ _ _ rfl, computes_perLane _ _ _ _ _ rfl, computes_perLane _ _ _ _ _ rfl,
    ⟨_, computes_transOp s _ f rnd frcpBits rfl, fun l => ?_⟩, ⟨_, computes_transOp s _ f rnd frsqBits rfl, fun l => ?_⟩,
    ⟨_, computes_transOp s _ f rnd fexp2Bits rfl, fun l => ?_⟩, ⟨_, computes_transOp s _ f rnd flog2Bits rfl, fun l => ?_⟩,
    ⟨_, computes_transOp s _ f rnd fsinBits rfl, fun l => ?_⟩, ⟨_, computes_transOp s _ f rnd fcosBits rfl, fun l => ?_⟩⟩
  · exact farith_divides _ .f32 _ _ _ _ _ fun n k e h => (hprec n k e l h).trans (by norm_num)
  · cases hv : s.fval .f32 f.a l with
    | nan q => exact nanOut_eq .f32 q
    | inf n => cases n <;> rfl
    | fin n k e =>
      refine ⟨fun hk => if_pos hk, fun hk hn => ?_, fun hk hn => ?_⟩
      · subst hn
        exact if_neg hk
      · subst hn
        exact frsqBits_fin _ _ k e hk (hprec _ k e l hv)
  · cases hv : s.fval .f32 f.a l with
    | nan q => exact nanOut_eq .f32 q
    | inf n => cases n <;> rfl
    | fin n k e => exact fun j h1 h2 h => fexp2Bits_int _ _ n k e j h1 h2 h
  · cases hv : s.fval .f32 f.a l with
    | nan q => exact nanOut_eq .f32 q
    | inf n => cases n <;> rfl
    | fin n k e =>
      refine ⟨fun hk => if_pos hk, fun hk hn => ?_, fun j hn h => ?_⟩
      · subst hn
        exact if_neg hk
      · subst hn
        refine flog2Bits_pow _ _ k e j (fun hk => ?_) h
        rw [(Val.rat_fin_eq_zero false k e).2 hk] at h
        exact (two_zpow_pos j).ne h
  · cases hv : s.fval .f32 f.a l with
    | nan q => exact nanOut_eq .f32 q
    | inf n => rfl
    | fin n k e => exact fun hk => if_pos hk
  · cases hv : s.fval .f32 f.a l with
    | nan q => exact nanOut_eq .f32 q
    | inf n => rfl
    | fin n k e =>
      intro hk
      show Rounds fm .f32 rm 1 false (fcosBits fm rm (.fin n k e))
      rw [show fcosBits fm rm (.fin n k e) = roundFlush fm .f32 rm false 1 0 false from if_pos hk]
      have hr := roundFlush_rounds fm .f32 rm false 1 0
      rwa [show (Val.fin false 1 0).rat = 1 by simp [Val.rat]] at hr

end Machine
end Sys2Proof
end

section
/-! SUPPORT. The issue event around an effect on any register of the wave but the latch (R21, R22, R176): what it leaves is that effect and
the issue event's own. -/

namespace Sys2Proof
open Machine
namespace Machine

/-- A wave with the registers of another, but for the latch, and with its special registers. -/
def Wave.takeFile (w v : Wave) : Wave := { w with r := { v.r with lat := w.r.lat }, sp := v.sp }

theorem Wave.takeFile_push (w v : Wave) (l : Nat) (x : W64) : (w.takeFile v).push l x = (w.push l x).takeFile v := rfl

theorem Wave.takeFile_pushLoop (w v : Wave) (g : Nat → W64) (ls : List Nat) :
    ls.foldl (fun w l => w.push l (g l)) (w.takeFile v) = (ls.foldl (fun w l => w.push l (g l)) w).takeFile v := by
  induction ls generalizing w with
  | nil => rfl
  | cons l ls ih => simp only [List.foldl_cons, Wave.takeFile_push, ih]

theorem State.pushHolds_takeFile (s : State) (i : Instr) (act : Mask) (w v : Wave) :
    s.pushHolds i act (w.takeFile v) = (s.pushHolds i act w).takeFile v := by
  unfold State.pushHolds
  split
  · rfl
  · split
    · rfl
    · exact w.takeFile_pushLoop v _ _

theorem Wave.takeFile_afterBurst (w v : Wave) (was : W64) (run : Mask) :
    (w.takeFile v).afterBurst was run = (w.afterBurst was run).takeFile v := by
  have hpc : ∀ l, (w.takeFile v).pcAt l = w.pcAt l := fun _ => rfl
  have hrun : ∀ a, (w.takeFile v).runAt a = w.runAt a := fun _ => rfl
  simp only [Wave.afterBurst, hpc, hrun, show (w.takeFile v).burst = w.burst from rfl, show (w.takeFile v).promo = w.promo from rfl]
  split
  · rfl
  · split
    · rfl
    · split <;> rfl

theorem Wave.takeFile_countWindow (w v : Wave) : (w.takeFile v).countWindow = w.countWindow.takeFile v := by
  simp only [Wave.countWindow, show (w.takeFile v).window = w.window from rfl]
  split
  · rfl
  · split <;> rfl

theorem Wave.takeFile_retire (w v : Wave) (table run : Mask) (was : W64) :
    (w.takeFile v).retire table run was = (w.retire table run was).takeFile v := by
  unfold Wave.retire
  rw [show (w.takeFile v).ageRun table run = (w.ageRun table run).takeFile v from rfl, Wave.takeFile_afterBurst, Wave.takeFile_countWindow]

/-- A word whose effect on its wave is one on registers: the issue event leaves the rest of the wave. -/
theorem State.finishes_takeFile (s t : State) (i : Instr) (hw : t.w = s.w.takeFile t.w) :
    s.finishes t i true = { t with w := (s.advanced i).w.takeFile t.w } := by
  have hretiring : t.retiring s (s.active i) true = s.active i := by
    unfold State.retiring
    rw [hw]
    exact s.retiring_parked (s.active i)
  have hparked : t.w.parked = s.w.parked := by rw [hw]; rfl
  have hgoTo (w : Wave) : (w.takeFile t.w).goTo s.run (s.pc + 8) = (w.goTo s.run (s.pc + 8)).takeFile t.w := rfl
  have hpush : s.pushHolds i (s.active i) t.w = (s.pushHolds i (s.active i) s.w).takeFile t.w := by
    rw [← s.pushHolds_takeFile, ← hw]
  unfold State.finishes
  rw [settleCharge_view s t _ (by rw [hw]; rfl), s.advanced_eq i]
  unfold State.retire
  dsimp only
  rw [hretiring, hparked, State.keepHolds_parked, hpush, if_pos rfl, hgoTo, Wave.takeFile_retire]
  rfl

end Machine
end Sys2Proof
end

section
/-! SUPPORT. Crucibles (R143, R144, R207): what adding a term and reading give, and the words on them in the frame of an issue event. -/

namespace Sys2Proof
open Machine
namespace Machine

/-! ### Terms and readings -/

/-- A signed register of n + 1 bits holds every integer of its range. -/
theorem toInt_ofInt_succ {w n : Nat} (hw : w = n + 1) {y : Int} (h1 : -2 ^ n ≤ y) (h2 : y < 2 ^ n) : (BitVec.ofInt w y).toInt = y := by
  subst hw
  exact BitVec.toInt_ofInt_eq_self n.succ_pos h1 h2

theorem toInt_eq_zero {w : Nat} (x : BitVec w) : x.toInt = 0 ↔ x = 0 := by
  rw [← BitVec.toInt_inj, BitVec.ofNat_eq_ofNat, BitVec.toInt_zero]

/-- Adding a term (R144). -/
theorem Cruc.addTerm_adds (z : Cruc) (v : Val) : AddsTerm z (z.addTerm v) v := by
  cases v with
  | nan q =>
    exact ⟨rfl, by simp [Cruc.addTerm], by simp [Cruc.addTerm, Val.isNan], by simp [Cruc.addTerm], by simp [Cruc.addTerm],
      fun _ => ⟨rfl, rfl⟩, fun _ _ _ h => by cases h⟩
  | inf n =>
    cases n <;> exact ⟨rfl, by simp [Cruc.addTerm], by simp [Cruc.addTerm, Val.isNan], by simp [Cruc.addTerm], by simp [Cruc.addTerm],
      fun _ => ⟨rfl, rfl⟩, fun _ _ _ h => by cases h⟩
  | fin n k e =>
    have hterm : (dyOf n k e).n = if n then -(k : Int) else k := rfl
    refine ⟨?_, ?_, ?_, ?_, ?_, fun h => absurd rfl (h n k e), ?_⟩
    · unfold Cruc.addTerm
      dsimp only
      split <;> rfl
    · unfold Cruc.addTerm
      dsimp only
      split <;> simp [and_assoc]
    · unfold Cruc.addTerm
      dsimp only
      split <;> simp [Val.isNan]
    · unfold Cruc.addTerm
      dsimp only
      split <;> simp
    · unfold Cruc.addTerm
      dsimp only
      split <;> simp
    · rintro n' k' e' heq -
      obtain ⟨rfl, rfl, rfl⟩ := Val.fin.inj heq
      unfold Cruc.addTerm
      dsimp only
      rw [hterm]
      generalize z.acc.toInt + (if n then -(k : Int) else k) * 2 ^ (e + 2148).toNat = y
      refine ⟨fun h => ?_, fun h => ?_⟩
      · rw [if_neg (by omega)]
        have hacc : (BitVec.ofInt 4344 y).toInt = y := toInt_ofInt_succ (n := 4343) rfl h.1 h.2
        exact ⟨hacc, rfl⟩
      · rw [if_pos (by omega)]
        exact ⟨rfl, rfl⟩

/-- Reading a crucible (R144). -/
theorem Cruc.read_reads (z : Cruc) (fm : W32) (m : Fmt) (rm : Rnd) : CrucibleReads fm m rm z (z.read fm m rm) := by
  have hspecial : (z.nan || z.ovf || (z.pinf && z.ninf)) = true ↔ z.nan ∨ z.ovf ∨ (z.pinf ∧ z.ninf) := by simp [or_assoc]
  unfold Cruc.read
  refine ⟨fun h => ?_, fun hnan hovf => ⟨fun hp hn => ?_, fun hp hn => ?_, fun hp hn => ?_⟩⟩
  · rw [if_pos (hspecial.2 h)]
    simp [Fl.when]
  · simp [hnan, hovf, hp, hn]
  · simp [hnan, hovf, hp, hn]
  · simp only [hnan, hovf, hp, hn, Bool.or_self, Bool.and_self, Bool.false_eq_true, if_false]
    by_cases h0 : z.acc = 0
    · rw [if_pos h0]
      refine ⟨fun _ => rfl, fun hne => absurd ?_ hne⟩
      rw [(toInt_eq_zero z.acc).2 h0, Int.cast_zero, zero_mul]
    · rw [if_neg h0]
      have hne : z.acc.toInt ≠ 0 := mt (toInt_eq_zero z.acc).1 h0
      generalize z.acc.toInt = a at hne ⊢
      exact Dy.rounds ⟨a, -2148⟩ hne fm m rm _

/-! ### Words whose effect is on crucibles and flags -/

/-- A state with the crucibles and flags of another wave, all else kept. -/
def State.withCruc (u : State) (w : Wave) : State :=
  { u with w := { u.w with r := { u.w.r with c := w.r.c }, sp := { u.w.sp with fflags := w.sp.fflags } } }

/-- A word whose effect changes crucibles and flags alone leaves what the issue event leaves, with those. -/
theorem word_cruc (i : Instr) (s : State) (body : Mask → State → Res) {t : State} (hI : s.Issues i) (ha : s.active i ≠ 0)
    (hb : body (s.active i) s = .done t) (ht : t = s.withCruc t.w) : word i s body = .next ((s.advanced i).withCruc t.w) := by
  have hw : t.w = s.w.takeFile t.w := by
    rw [ht]
    rfl
  rw [word_done i s body hI ha hb, s.finishes_takeFile t i hw]
  obtain ⟨c, a, b, p, n, ps, lat, e⟩ := s.advanced_frame i
  rw [e, ht]
  rfl

/-- One crucible alone. -/
theorem setC_withCruc (s : State) (n : Nat) (z : Cruc) : s.setW (s.w.setC n z) = s.withCruc (s.w.setC n z) := rfl

theorem withCruc_setC (s : State) (i : Instr) (n : Nat) (z : Cruc) :
    (s.advanced i).withCruc (s.w.setC n z) = (s.advanced i).setW ((s.advanced i).w.setC n z) := by
  obtain ⟨c, a, b, p, n, ps, lat, e⟩ := s.advanced_frame i
  rw [e]
  rfl

/-- Flags alone. -/
theorem withCruc_orFlags (s : State) (i : Instr) (fl : Fl) : (s.advanced i).withCruc (s.orFlags fl).w = (s.advanced i).orFlags fl := by
  obtain ⟨c, a, b, p, n, ps, lat, e⟩ := s.advanced_frame i
  rw [e]
  rfl

/-- The flags of terms, when nothing is written. -/
theorem addTerms_zero (s : State) (ls : List Nat) (term : Nat → Val × Fl) :
    s.addTerms .zero ls term = s.orFlags (ls.foldl (fun g l => g ||| (term l).2) 0) := by
  have go : ∀ (ls : List Nat) (a : Fl), (s.orFlags a).addTerms .zero ls term = s.orFlags (ls.foldl (fun g l => g ||| (term l).2) a) := by
    intro ls
    induction ls with
    | nil => intro a; rfl
    | cons l ls ih =>
      intro a
      rw [List.foldl_cons, ← ih]
      show ((s.orFlags a).orFlags (term l).2).addTerms .zero ls term = _
      congr 1
      simp [State.orFlags, Wave.orFlags, BitVec.setWidth_or, BitVec.or_assoc]
  rw [← go ls 0, State.orFlags_zero]

/-- The terms of lanes in a crucible, and their flags. -/
theorem addTerms_c (s : State) (c : BitVec 2) (ls : List Nat) (term : Nat → Val × Fl) :
    let t := s.addTerms (.c c) ls term
    t = s.withCruc t.w ∧ t.w.cruc c.toNat = ls.foldl (fun z l => z.addTerm (term l).1) (s.w.cruc c.toNat) ∧
    (∀ k, k ≠ c.toNat → t.w.cruc k = s.w.cruc k) ∧
    ∀ (x : W32) (a : Fl), s.w.sp.fflags = x ||| a.setWidth 32 →
      t.w.sp.fflags = x ||| (ls.foldl (fun g l => g ||| (term l).2) a).setWidth 32 := by
  induction ls generalizing s with
  | nil => exact ⟨rfl, rfl, fun _ _ => rfl, fun _ _ h => h⟩
  | cons l ls ih =>
    intro t
    let u : State := (s.setW (s.w.setC c.toNat ((s.w.cruc c.toNat).addTerm (term l).1))).orFlags (term l).2
    have hu : t = u.addTerms (.c c) ls term := rfl
    have hcruc (k : Nat) : u.w.cruc k = if k = c.toNat then (s.w.cruc c.toNat).addTerm (term l).1 else s.w.cruc k := Wave.cruc_setC s.w _ _ _
    obtain ⟨hframe, hc, hother, hfl⟩ := ih u
    rw [← hu] at hframe hc hother hfl
    refine ⟨hframe.trans rfl, ?_, fun k hk => ?_, fun x a hx => ?_⟩
    · rw [hc, hcruc, if_pos rfl, List.foldl_cons]
    · rw [hother k hk, hcruc, if_neg hk]
    · refine hfl x (a ||| (term l).2) ?_
      show s.w.sp.fflags ||| (term l).2.setWidth 32 = _
      rw [hx, BitVec.setWidth_or, BitVec.or_assoc]

/-- A word that adds terms to a crucible. -/
theorem exec_addTerms (s : State) (i : Instr) (c : BitVec 2) (ls : List Nat) (term : Nat → Val × Fl) (hI : s.Issues i)
    (ha : s.active i ≠ 0) (h : exec i s = simple i s fun _ => s.addTerms (.c c) ls term) :
    ∃ t, exec i s = .next t ∧ AddsTerms s t i c.toNat ls (fun l => (term l).1) fun l => (term l).2 := by
  obtain ⟨hframe, hc, hother, hfl⟩ := addTerms_c s c ls term
  exact ⟨_, h.trans (word_cruc i s _ hI ha rfl hframe), hc, hother, hfl _ 0 (by simp), rfl⟩

/-- A word that would add terms to specifier zero. -/
theorem exec_addTerms_zero (s : State) (i : Instr) (ls : List Nat) (term : Nat → Val × Fl) (hI : s.Issues i) (ha : s.active i ≠ 0)
    (h : exec i s = simple i s fun _ => s.addTerms .zero ls term) :
    exec i s = .next ((s.advanced i).orFlags (ls.foldl (fun g l => g ||| (term l).2) 0)) := by
  rw [h, ← withCruc_orFlags, ← addTerms_zero]
  exact word_cruc i s _ hI ha rfl (by rw [addTerms_zero]; rfl)

/-! ### Reading to D -/

/-- Equal flags of one lane or more. -/
theorem laneFlags_const (o : Opnd) {act : Mask} (ha : act ≠ 0) (x : Nat) (fl : Fl) : laneFlags (o.lanes act) (fun _ => (x, fl)) = fl := by
  have hfold : ∀ ls : List Nat, ls.foldl (fun g _ => g ||| fl) fl = fl := fun ls => by
    induction ls with
    | nil => rfl
    | cons l ls ih => rw [List.foldl_cons, BitVec.or_self, ih]
  obtain ⟨ls, hls⟩ := lanesOf_cons ha
  have hcons : ∃ l ls, o.lanes act = l :: ls := by
    cases o with
    | s r => exact ⟨_, [], rfl⟩
    | _ => exact ⟨_, ls, hls⟩
  obtain ⟨l, ls, hl⟩ := hcons
  rw [laneFlags, hl, List.foldl_cons, show (0 : Fl) ||| fl = fl from BitVec.zero_or]
  exact hfold ls

/-- One value with its flags, written to D. -/
theorem wrote_oneValue (s : State) (i : Instr) (o : Opnd) (n x : Nat) (fl : Fl) (ha : s.active i ≠ 0) :
    s.Wrote ((s.advanced i).withRegs ((s.oneValue (s.active i) o n x).orFlags fl).w) i o n fun _ => (x, fl) := by
  have hflags := perLane_fflags s (s.active i) o n fun _ => (x, 0)
  rw [laneFlags_const o ha] at hflags
  refine ⟨fun q l k hq hp => ?_, fun q hq hp => ?_, ?_, rfl⟩
  · rw [withRegs_reg, State.orFlags_w, Wave.reg_orFlags]
    exact perLane_value s _ o n _ q l k hq hp
  · rw [withRegs_reg, State.orFlags_w, Wave.reg_orFlags]
    exact perLane_other s _ o n _ q hq hp
  · rw [withRegs_fflags, laneFlags_const o ha]
    show (s.oneValue (s.active i) o n x).w.sp.fflags ||| fl.setWidth 32 = _
    rw [State.oneValue, State.eachLane, hflags]
    simp

/-- A word whose effect changes general registers and flags, and then one crucible. -/
theorem word_regs_setC (i : Instr) (s : State) (body : Mask → State → Res) {t : State} {n : Nat} {z : Cruc} (hI : s.Issues i)
    (ha : s.active i ≠ 0) (hb : body (s.active i) s = .done (t.setW (t.w.setC n z))) (ht : RegsOnly s t) :
    let u := (s.advanced i).withRegs t.w
    word i s body = .next (u.setW (u.w.setC n z)) := by
  intro u
  obtain ⟨w, rfl⟩ : ∃ w, t = s.withRegs w := ⟨_, ht⟩
  rw [word_done i s body hI ha hb, s.finishes_takeFile ((s.withRegs w).setW ((s.withRegs w).w.setC n z)) i rfl]
  obtain ⟨c, a, b, p, n, ps, lat, e⟩ := s.advanced_frame i
  rw [show u = (s.advanced i).withRegs (s.withRegs w).w from rfl, e]
  rfl

/-- `crd` writes what its crucible reads as, and with CLR resets it. -/
theorem exec_crd (s : State) (f : F) (m : Fmt) (rnd : Rnd) (c : BitVec 2) (hc : f.a = .c c) (r : Nat × Fl)
    (hr : (s.w.cruc c.toNat).read s.w.sp.fmode m (modeOf s.w.sp.fmode rnd) = r) :
    s.Computes (.crd f m rnd false) f.d m.regs (fun _ => r) ∧
    (s.Issues (.crd f m rnd true) → s.active (.crd f m rnd true) ≠ 0 →
      ∃ t, exec (.crd f m rnd true) s = .next (t.setW (t.w.setC c.toNat .zero)) ∧
        s.Wrote t (.crd f m rnd true) f.d m.regs (fun _ => r)) := by
  obtain ⟨x, fl⟩ := r
  have hregs (act : Mask) : RegsOnly s ((s.oneValue act f.d m.regs x).orFlags fl) := (RegsOnly.perLane ..).trans (RegsOnly.orFlags ..)
  have hrun (clr : Bool) : exec (.crd f m rnd clr) s = word (.crd f m rnd clr) s fun act _ =>
      let t := (s.oneValue act f.d m.regs x).orFlags fl
      .done (if clr then t.setW (t.w.setC c.toNat .zero) else t) := by
    show execCrd f m rnd clr s = _
    rw [execCrd, hc]
    dsimp only [crucNo]
    rw [hr]
    rfl
  refine ⟨fun hI ha => ⟨_, (hrun false).trans ?_, wrote_oneValue s _ f.d m.regs x fl ha⟩,
    fun hI ha => ⟨_, (hrun true).trans ?_, wrote_oneValue s _ f.d m.regs x fl ha⟩⟩
  · exact word_regs _ s _ _ hI ha rfl (hregs _)
  · exact word_regs_setC _ s _ hI ha rfl (hregs _)

/-! ### The obligation -/

/-- Settles O11: each word by its effect on the crucible that D or A names. -/
theorem crucibles : Obligations.Crucibles := by
  unfold Obligations.Crucibles
  intro s f m rnd c
  refine ⟨fun hd hI ha => ?_, fun hd hI ha => ?_, fun hd hI ha => ?_, fun hd hI ha => ?_, fun hd hI ha => ?_, fun hd hI ha => ?_,
    fun hc => exec_crd s f m rnd c hc _ rfl, Cruc.addTerm_adds, fun z fm rm _ => z.read_reads fm m rm⟩
  · have hrun : exec (.cclr f) s = word (.cclr f) s fun _ _ => .done (s.setW (s.w.setC c.toNat .zero)) := by
      show execCclr f s = _
      rw [execCclr, hd]
      rfl
    rw [hrun, ← withCruc_setC]
    have hdone := word_cruc (.cclr f) s (fun _ _ => .done (s.setW (s.w.setC c.toNat .zero))) hI ha rfl (setC_withCruc s c.toNat .zero)
    rwa [State.setW_w] at hdone
  · have hrun : exec (.cclr f) s = word (.cclr f) s fun _ _ => .done (s.orFlags 0) := by
      show execCclr f s = _
      rw [execCclr, hd, State.orFlags_zero]
      rfl
    rw [hrun, ← State.orFlags_zero (s.advanced (.cclr f)), ← withCruc_orFlags]
    exact word_cruc _ s _ hI ha rfl rfl
  · refine exec_addTerms_zero s _ _ (fun l => (s.fval m f.a l, Fl.when (s.fval m f.a l).isSig Fl.nv)) hI ha ?_
    rw [← hd]
    rfl
  · refine exec_addTerms_zero s _ _ (fun l => crucTerm (s.fval m f.a l) (s.fval m f.b l)) hI ha ?_
    rw [← hd]
    rfl
  · refine exec_addTerms s _ c _ (fun l => (s.fval m f.a l, Fl.when (s.fval m f.a l).isSig Fl.nv)) hI ha ?_
    rw [← hd]
    rfl
  · refine exec_addTerms s _ c _ (fun l => crucTerm (s.fval m f.a l) (s.fval m f.b l)) hI ha ?_
    rw [← hd]
    rfl

end Machine
end Sys2Proof
end

section
/-! SUPPORT. Conversions of one element (R147, Table 39) and packing (R129, R210). -/

namespace Sys2Proof
open Machine
namespace Machine

/-! ### Elements (R126) -/

theorem fmt_bits_pos (m : Fmt) : 0 < m.bits := by cases m <;> decide

theorem elemVal_int (m : Fmt) (code : Nat) (h : ¬ m.num ≤ 10) : elemVal m code = .i (elemInt m code) := by
  have hint : intOf m.signedInt m.bits code =
      if m.signedInt then (BitVec.ofNat m.bits code).toInt else ((code % 2 ^ m.bits : Nat) : Int) := by
    cases hs : m.signedInt
    · simp [intOf_unsigned]
    · exact intOf_signed _ _ (fmt_bits_pos m)
  unfold elemVal
  rw [if_neg h]
  cases m with
  | b1 => rfl
  | n1 => rfl
  | _ => exact congrArg EV.i hint

/-- An element under flush-inputs: a float is flushed, every other element is an integer. -/
theorem elemIn_eq (fm : W32) (m : Fmt) (code : Nat) :
    elemIn fm m code = if m.num ≤ 10 then .f (flushIn fm m code) else .i (elemInt m code) := by
  unfold elemIn
  split
  · rfl
  · next h => exact elemVal_int m code h

/-! ### Integer destinations -/

theorem loFmt_le_hiFmt (m : Fmt) : loFmt m ≤ hiFmt m := by
  have hpow (w : Nat) : (1 : Int) ≤ 2 ^ w := one_le_pow₀ (by norm_num)
  unfold loFmt hiFmt loOf hiOf
  have h1 := hpow m.bits
  have h2 := hpow (m.bits - 1)
  split
  · decide
  · split <;> omega

/-- Saturation clamps, with SAT outside the range. -/
theorem satInt_eq {lo hi : Int} (h : lo ≤ hi) (x : Int) :
    satInt lo hi x = (max lo (min hi x), if lo ≤ x ∧ x ≤ hi then 0 else Fl.sat) := by
  unfold satInt
  split
  · rw [if_neg (by omega), min_eq_left (by omega), max_eq_right h]
  · split
    · rw [if_neg (by omega), min_eq_right (by omega), max_eq_left (by omega)]
    · rw [if_pos (by omega), min_eq_right (by omega), max_eq_right (by omega)]

theorem CutOf.abs_fin (n : Bool) (k : Nat) (e : Int) : CutOf k e false |(Val.fin n k e).rat| := Val.abs_rat_fin n k e ▸ CutOf.exact k e

/-- A float rounded to an integer and saturated. -/
theorem floatToInt_spec (rm : Rnd) (dst : Fmt) (n : Bool) (k : Nat) (e : Int) :
    let x := (Val.fin n k e).rat
    let r := floatToInt rm dst (.fin n k e)
    ∃ (y : ℚ) (j : Int), RoundedTo rm n 1 |x| y ∧ (j : ℚ) = (if n then -y else y) ∧ r.1 = max (loFmt dst) (min (hiFmt dst) j) ∧
      (loFmt dst ≤ j ∧ j ≤ hiFmt dst → r.2 = if y = |x| then 0 else Fl.nx) ∧ (¬ (loFmt dst ≤ j ∧ j ≤ hiFmt dst) → r.2 = Fl.sat) := by
  intro x r
  have hst : false = true → e < 0 := fun h => absurd h Bool.false_ne_true
  have hcut := CutOf.abs_fin n k e
  have hround := hcut.roundAt_rounded (q := 0) hst rm n
  have hexact := hcut.roundAt_eq_iff (q := 0) hst rm n
  rw [zpow_zero, mul_one] at hround hexact
  have hr : r = let j := roundInt rm n k e false
      if (satInt (loFmt dst) (hiFmt dst) j.1).2 = 0 then ((satInt (loFmt dst) (hiFmt dst) j.1).1, Fl.when j.2 Fl.nx)
      else satInt (loFmt dst) (hiFmt dst) j.1 := rfl
  dsimp only at hr
  rw [satInt_eq (loFmt_le_hiFmt dst)] at hr
  refine ⟨_, (roundInt rm n k e false).1, hround, ?_, ?_, fun hfit => ?_, fun hfit => ?_⟩
  · unfold roundInt
    cases n <;> simp
  · rw [hr]
    split <;> rfl
  · rw [hr, if_pos hfit, if_pos rfl, if_congr hexact rfl rfl]
    show Fl.when (roundAt rm n k e false 0).2 Fl.nx = _
    cases (roundAt rm n k e false 0).2 <;> rfl
  · rw [hr, if_neg hfit]
    rfl

/-! ### Conversions -/

section
variable (fm : W32) (rm : Rnd) (dst : Fmt)

/-- To a float format. -/
theorem convert_float (v : EV) (hd : dst.num ≤ 10) : ConvertSpec fm rm dst v (convert fm rm dst v) := by
  have hb : dst ≠ .b1 := by rintro rfl; exact absurd hd (by decide)
  cases v with
  | f v =>
    have hc : convert fm rm dst (.f v) = floatToFloat fm rm dst v := if_pos hd
    rw [hc]
    cases v with
    | nan q => exact (if_pos hd).symm
    | inf n => exact (if_pos hd).symm
    | fin n k e => exact ⟨fun _ => roundFlush_rounds fm dst rm n k e, fun h => absurd h hb, fun h => absurd h (by omega)⟩
  | i j =>
    have hc : convert fm rm dst (.i j) = roundFlush fm dst rm (decide (j < 0)) j.natAbs 0 false := if_pos hd
    rw [hc]
    refine ⟨fun _ => ?_, fun h => absurd h hb, fun h => absurd h (by omega)⟩
    by_cases hj : j = 0
    · subst hj
      exact ⟨fun _ => rfl, fun h => absurd Int.cast_zero h⟩
    · have hr := Dy.rounds ⟨j, 0⟩ hj fm dst rm false
      rwa [show Dy.rat ⟨j, 0⟩ = j from Dy.rat_ofInt j] at hr

/-- To the one-bit format B1, by sign. -/
theorem convert_b1 (v : EV) : ConvertSpec fm rm .b1 v (convert fm rm .b1 v) := by
  cases v with
  | f v =>
    cases v with
    | nan q => rfl
    | inf n => rfl
    | fin n k e =>
      refine ⟨fun h => absurd h (by decide), fun _ => ?_, fun _ h => absurd rfl h⟩
      show (placeB1 (n && k != 0), (0 : Fl)) = _
      rw [if_congr (Val.rat_fin_lt_zero n k e) rfl rfl]
      by_cases hk : k = 0 <;> cases n <;> simp [placeB1, hk]
  | i j =>
    refine ⟨fun h => absurd h (by decide), fun _ => ?_, fun _ h => absurd rfl h⟩
    show (placeB1 (decide (j < 0)), (0 : Fl)) = _
    by_cases hj : j < 0 <;> simp [placeB1, hj]

/-- To an integer format, or N1. -/
theorem convert_int (v : EV) (hd : ¬ dst.num ≤ 10) (hb : dst ≠ .b1) : ConvertSpec fm rm dst v (convert fm rm dst v) := by
  cases v with
  | f v =>
    have hc : convert fm rm dst (.f v) = (placeInt dst (floatToInt rm dst v).1, (floatToInt rm dst v).2) := by
      unfold convert
      simp only [hd, hb, if_false]
    rw [hc]
    cases v with
    | nan q =>
      have hzero : placeInt dst 0 = 0 := by
        unfold placeInt bitsOf
        split <;> simp
      show (placeInt dst 0, Fl.nv) = _
      rw [if_neg hd, hzero]
    | inf n =>
      show _ = ite _ _ _
      rw [if_neg hd, if_neg hb]
      rfl
    | fin n k e =>
      obtain ⟨y, j, hround, hj, hval, hfit, hsat⟩ := floatToInt_spec rm dst n k e
      exact ⟨fun h => absurd h hd, fun h => absurd h hb, fun _ _ => ⟨y, j, hround, hj, congrArg (placeInt dst) hval, hfit, hsat⟩⟩
  | i j =>
    have hc : convert fm rm dst (.i j) = (placeInt dst (max (loFmt dst) (min (hiFmt dst) j)),
        if loFmt dst ≤ j ∧ j ≤ hiFmt dst then 0 else Fl.sat) := by
      unfold convert
      simp only [hd, hb, if_false, satInt_eq (loFmt_le_hiFmt dst)]
    rw [hc]
    exact ⟨fun h => absurd h hd, fun h => absurd h hb, fun _ _ => ⟨rfl, fun h => if_pos h, fun h => if_neg h⟩⟩

/-- One element converted (Table 39). -/
theorem convert_spec (v : EV) : ConvertSpec fm rm dst v (convert fm rm dst v) := by
  by_cases hd : dst.num ≤ 10
  · exact convert_float fm rm dst v hd
  · by_cases hb : dst = .b1
    · subst hb
      exact convert_b1 fm rm v
    · exact convert_int fm rm dst v hd hb

/-- The conversion of an element under flush-inputs. -/
theorem convert_elemIn (src : Fmt) (code : Nat) :
    ConvertSpec fm rm dst (if src.num ≤ 10 then .f (flushIn fm src code) else .i (elemInt src code)) (convert fm rm dst (elemIn fm src code)) :=
  elemIn_eq fm src code ▸ convert_spec fm rm dst _

/-- `cvt` between formats 0 to 22 converts one element. -/
theorem cvtBits_eq (src : Fmt) (x : Nat) (hs : src.num ≤ 22) (hd : dst.num ≤ 22) :
    cvtBits fm rm dst src x = convert fm rm dst (elemIn fm src x) := by
  have hc : src.complex = false := by
    revert hs
    cases src <;> decide
  have hsd : src ≠ .dd := by rintro rfl; exact absurd hs (by decide)
  have hdd : dst ≠ .dd := by rintro rfl; exact absurd hd (by decide)
  unfold cvtBits
  simp only [hc, hsd, hdd, Bool.false_eq_true, if_false]

/-- `upk` of a format 0 to 22 converts the element named. -/
theorem upkBits_eq (src : Fmt) (x c : Nat) (hs : src.num ≤ 22) :
    upkBits fm dst src x c = convert fm (rmOfCode (fm.toNat % 8)) dst (elemIn fm src (elemCode src x (c % perWord src))) := by
  have ht : src.tinned = false := by
    revert hs
    cases src <;> decide
  unfold upkBits
  simp only [ht, Bool.false_eq_true, if_false]

end

/-! ### Packing -/

/-- A digit of a number whose other digits stand around it: base A below it, base B for itself. -/
theorem digit_replaced (A B x c : Nat) :
    x - x / A % B * A + c % B * A = (x / (A * B) * B + c % B) * A + x % A := by
  have h1 : x = A * (x / A) + x % A := (Nat.div_add_mod x A).symm
  have h2 : x / A = B * (x / A / B) + x / A % B := (Nat.div_add_mod _ B).symm
  rw [Nat.div_div_eq_div_mul] at h2
  have h3 : x / A % B * A ≤ x := by
    calc x / A % B * A ≤ x / A * A := Nat.mul_le_mul_right _ (Nat.mod_le _ _)
      _ ≤ x := Nat.div_mul_le_self _ _
  have h4 : x = x / (A * B) * B * A + x / A % B * A + x % A := by
    conv_lhs => rw [h1, h2]
    ring
  have h5 : (x / (A * B) * B + c % B) * A + x % A = x / (A * B) * B * A + c % B * A + x % A := by ring
  omega

/-- An element after another, or itself, was replaced. -/
theorem elemCode_replaced (m : Fmt) (x k code j : Nat) (hm : m.bits ≠ 6) :
    elemCode m (putElem m x k code) j = if j = k then code % 2 ^ m.bits else elemCode m x j := by
  have hw := fmt_bits_pos m
  unfold putElem elemCode
  dsimp only
  rw [if_neg hm, digit_replaced]
  generalize m.bits = w at hw
  have hAB : 2 ^ (w * k) * 2 ^ w = 2 ^ (w * (k + 1)) := by rw [← pow_add, Nat.mul_succ]
  rcases lt_trichotomy j k with hlt | rfl | hgt
  · rw [if_neg (by omega)]
    have hpow : 2 ^ (w * k) = 2 ^ (w * j) * 2 ^ w * 2 ^ (w * (k - j - 1)) := by
      rw [← pow_add, ← pow_add]
      congr 1
      rw [← Nat.mul_succ, ← Nat.mul_add]
      congr 1
      omega
    have hlow (y : Nat) : y / 2 ^ (w * j) % 2 ^ w = y % 2 ^ (w * k) / 2 ^ (w * j) % 2 ^ w := by
      rw [← Nat.mod_mul_right_div_self, ← Nat.mod_mul_right_div_self, Nat.mod_mod_of_dvd y ⟨_, hpow⟩]
    rw [hlow, hlow x, Nat.mul_comm _ (2 ^ (w * k)), Nat.mul_add_mod, Nat.mod_mod]
  · rw [if_pos rfl, Nat.mul_comm _ (2 ^ (w * j)), Nat.mul_add_div (by positivity), Nat.div_eq_of_lt (Nat.mod_lt _ (by positivity)),
      Nat.add_zero, Nat.mul_comm, Nat.mul_add_mod, Nat.mod_mod]
  · rw [if_neg (by omega)]
    have hpow : 2 ^ (w * j) = 2 ^ (w * k) * 2 ^ w * 2 ^ (w * (j - k - 1)) := by
      rw [← pow_add, ← pow_add]
      congr 1
      rw [← Nat.mul_succ, ← Nat.mul_add]
      congr 1
      omega
    have hhigh : ((x / (2 ^ (w * k) * 2 ^ w) * 2 ^ w + code % 2 ^ w) * 2 ^ (w * k) + x % 2 ^ (w * k)) / (2 ^ (w * k) * 2 ^ w) =
        x / (2 ^ (w * k) * 2 ^ w) := by
      rw [← Nat.div_div_eq_div_mul, Nat.mul_comm _ (2 ^ (w * k)), Nat.mul_add_div (by positivity),
        Nat.div_eq_of_lt (Nat.mod_lt _ (by positivity)), Nat.add_zero, Nat.mul_comm _ (2 ^ w), Nat.mul_add_div (by positivity),
        Nat.div_eq_of_lt (Nat.mod_lt _ (by positivity)), Nat.add_zero]
    rw [hpow, ← Nat.div_div_eq_div_mul, hhigh, Nat.div_div_eq_div_mul]

end Machine
end Sys2Proof
end

section
/-! SUPPORT. Stochastic rounding (R148): the neighbours of a value in a format, and the share of each of them. -/

namespace Sys2Proof
open Machine
namespace Machine

/-! ### Shares of 2^32 -/

/-- What is left of N when the share r of D is taken, rounded up. -/
theorem share_rest {D N r : Nat} (hD : 0 < D) (hr : r < D) : (D - r) * N / D = N - (r * N + D - 1) / D := by
  rcases Nat.eq_zero_or_pos (r * N) with h0 | hpos
  · rw [Nat.sub_mul, h0, Nat.sub_zero, Nat.mul_div_cancel_left _ hD, Nat.zero_add, Nat.div_eq_of_lt (by omega), Nat.sub_zero]
  · have hlt : r * N - 1 < D * N := lt_of_lt_of_le (by omega) (Nat.mul_le_mul_right N hr.le)
    have hone : r * N - 1 + 1 = r * N := Nat.sub_add_cancel hpos
    have hup : (r * N + D - 1) / D = (r * N - 1) / D + 1 := by
      rw [show r * N + D - 1 = r * N - 1 + D by omega, Nat.add_div_right _ hD]
    rw [Nat.sub_mul, hup, ← Nat.mul_sub_div _ _ _ hlt, hone]

/-- The whole part of a scaled dyadic number with a fraction. -/
theorem Dy.floor_scaled (y : Dy) (he : y.e ≤ 0) (h0 : 0 ≤ y.rat) (b : Nat) :
    ⌊y.rat * 2 ^ b⌋ = ((y.n.natAbs * 2 ^ b / 2 ^ (-y.e).toNat : Nat) : Int) := by
  have hscale : y.rat * 2 ^ b = ((y.n.natAbs * 2 ^ b : Nat) : ℚ) / ((2 ^ (-y.e).toNat : Nat) : ℚ) := by
    have hexp : (2 : ℚ) ^ y.e = (2 ^ (-y.e).toNat)⁻¹ := by
      rw [← zpow_natCast, ← zpow_neg]
      congr 1
      omega
    rw [← abs_of_nonneg h0, y.abs_rat, hexp]
    push_cast
    ring
  rw [hscale, Rat.floor_natCast_div_natCast, Int.natCast_ediv]

theorem Dy.add_ofInt_e (x : Dy) (j : Int) : (x.add (Dy.ofInt j)).e ≤ 0 := min_le_right x.e 0
theorem Dy.sub_ofInt_e (x : Dy) (j : Int) : (x.sub (Dy.ofInt j)).e ≤ 0 := min_le_right x.e 0

/-! ### The numbers that a format holds -/

theorem place_lt {m : Fmt} (hm : m.num ≤ 10) {c : Nat} (hc : c < 2 * (fpOf m).signBit) : (fpOf m).place c < 2 ^ m.bits := by
  have hbits : m.bits = (fpOf m).width + (fpOf m).pad := by
    revert hm
    cases m <;> decide
  rw [hbits, pow_add, FP.place]
  exact Nat.mul_lt_mul_of_pos_right (two_signBit m ▸ hc) (Nat.two_pow_pos _)

/-- A format holds the numbers of its magnitude codes, with either sign. -/
theorem holds_iff {m : Fmt} (hm : m.num ≤ 10) (x : ℚ) : Holds m x ↔ ∃ c ≤ (fpOf m).maxCode, |x| = (fpOf m).mag c := by
  constructor
  · rintro ⟨bits, -, n, k, e, hd, rfl⟩
    obtain ⟨c, hc, hmag⟩ := decodeF_fin_rat hd
    exact ⟨c, hc, (Val.abs_rat_fin n k e).trans hmag⟩
  · rintro ⟨c, hc, hmag⟩
    have hd := decodeF_signed m (decide (x < 0)) hc
    refine ⟨_, place_lt hm (signed_parts m _ (hc.trans_lt (maxCode_lt m))).1, _, _, _, hd, ?_⟩
    rw [← hd, rat_signed m _ hc, ← hmag]
    by_cases hx : x < 0
    · simp [hx, abs_of_neg hx]
    · simp [hx, abs_of_nonneg (not_lt.1 hx)]

theorem holds_mag {m : Fmt} (hm : m.num ≤ 10) {c : Nat} (hc : c ≤ (fpOf m).maxCode) : Holds m ((fpOf m).mag c) :=
  (holds_iff hm _).2 ⟨c, hc, abs_of_nonneg ((fpOf m).mag_nonneg c)⟩

theorem holds_neg {m : Fmt} (hm : m.num ≤ 10) {x : ℚ} : Holds m (-x) ↔ Holds m x := by
  rw [holds_iff hm, holds_iff hm, abs_neg]

/-- Nothing that a format holds lies between the magnitudes of a code and the next. -/
theorem holds_gap {m : Fmt} (hm : m.num ≤ 10) (c : Nat) {y : ℚ} (hy : Holds m y) : y ≤ (fpOf m).mag c ∨ (fpOf m).mag (c + 1) ≤ y := by
  obtain ⟨j, -, hj⟩ := (holds_iff hm y).1 hy
  rcases le_or_gt j c with h | h
  · exact .inl ((le_abs_self y).trans (hj ▸ (fpOf m).mag_strictMono.monotone h))
  · have hup : (fpOf m).mag (c + 1) ≤ |y| := hj ▸ (fpOf m).mag_strictMono.monotone h
    rcases le_or_gt 0 y with h0 | h0
    · exact .inr (abs_of_nonneg h0 ▸ hup)
    · exact .inl (h0.le.trans ((fpOf m).mag_nonneg c))

section
variable {m : Fmt} {k : Nat} {e : Int} {x : ℚ}

/-- A magnitude lies from the magnitude of its code to that of the next one. -/
theorem CutOf.mag_bounds (h : CutOf k e false x) (hk : k ≠ 0) :
    let q := (fpOf m).spacing (topOf k e)
    let c := (fpOf m).codeAt q (cutAt k e q)
    (fpOf m).mag c = cutAt k e q * 2 ^ q ∧ (fpOf m).mag (c + 1) = (cutAt k e q + 1) * 2 ^ q ∧ (fpOf m).mag c ≤ x ∧ x < (fpOf m).mag (c + 1) := by
  intro q c
  have hcut : (fpOf m).mag c = cutAt k e q * 2 ^ q := h.mag_cut hk (by simp)
  have hnext : (fpOf m).mag (c + 1) = (cutAt k e q + 1) * 2 ^ q := by
    obtain ⟨hlt, hle⟩ := h.cut_bounds (m := m) (q := q) hk (le_max_right _ _) (by simp)
    have hcode : c + 1 = (fpOf m).codeAt q (cutAt k e q + 1) := rfl
    rw [hcode, FP.mag_codeAt _ (show (fpOf m).qmin ≤ q from le_max_left _ _) (by omega)]
    · push_cast
      rfl
    · rcases max_choice (fpOf m).qmin ((fpOf m).fine (topOf k e)) with hq | hq
      · exact .inl hq
      · exact .inr ((hle hq).trans (Nat.le_succ _))
  exact ⟨hcut, hnext, hcut ▸ h.cutAt_le, hnext ▸ h.lt_cutAt (by simp)⟩

/-- A format holds a magnitude exactly when it is the magnitude of its code, which is not beyond the largest. -/
theorem CutOf.holds_iff (h : CutOf k e false |x|) (hk : k ≠ 0) (hm : m.num ≤ 10) :
    let q := (fpOf m).spacing (topOf k e)
    Holds m x ↔ (fpOf m).codeAt q (cutAt k e q) ≤ (fpOf m).maxCode ∧ (cutAt k e q : ℚ) * 2 ^ q = |x| := by
  intro q
  obtain ⟨hcut, -, hlo, hhi⟩ := h.mag_bounds (m := m) hk
  have hmono := (fpOf m).mag_strictMono
  rw [Machine.holds_iff hm]
  constructor
  · rintro ⟨j, hj, hmag⟩
    rw [hmag] at hlo hhi
    obtain rfl : j = (fpOf m).codeAt q (cutAt k e q) :=
      le_antisymm (Nat.lt_succ_iff.1 (hmono.lt_iff_lt.1 hhi)) (hmono.le_iff_le.1 hlo)
    exact ⟨hj, hcut.symm.trans hmag.symm⟩
  · rintro ⟨hj, heq⟩
    exact ⟨_, hj, heq.symm.trans hcut.symm⟩

end

/-! ### The neighbour taken -/

/-- The neighbour with a magnitude code, flushed where FlushR says so, and the flags of an inexact result. -/
def neighbour (fm : W32) (dst : Fmt) (n : Bool) (c : Nat) : Nat × Fl :=
  let f := fpOf dst
  if decide (c < f.half) && decide (c ≠ 0) && fm.getLsbD (8 + flushClass dst) then (zeroBits dst n, Fl.nx ||| Fl.uf)
  else (f.place (f.signed n c), Fl.nx ||| Fl.when (decide (c < f.half)) Fl.uf)

theorem neighbour_spec (fm : W32) (dst : Fmt) (n : Bool) {c : Nat} (hc : c ≤ (fpOf dst).maxCode) :
    let y : ℚ := if n then -(fpOf dst).mag c else (fpOf dst).mag c
    let r := neighbour fm dst n c
    let small : Prop := |y| < 2 ^ (fpOf dst).emin
    let flush : Prop := small ∧ y ≠ 0 ∧ fm.getLsbD (8 + flushClass dst) = true
    (flush → r = (zeroBits dst n, Fl.nx ||| Fl.uf)) ∧
    (¬ flush → (decodeF dst r.1).rat = y ∧ (y = 0 → r.1 = zeroBits dst n) ∧ (small → r.2 = Fl.nx ||| Fl.uf) ∧ (¬ small → r.2 = Fl.nx)) := by
  intro y r small flush
  have habs : |y| = (fpOf dst).mag c := by
    show |if n then _ else _| = _
    cases n <;> simp [abs_of_nonneg ((fpOf dst).mag_nonneg c)]
  have hsmall : small ↔ c < (fpOf dst).half := by
    show |y| < _ ↔ _
    rw [habs]
    exact FP.mag_lt_emin _ ((fpOf_prec dst).1.trans' one_le_two)
  have hzero : y = 0 ↔ c = 0 := by rw [← abs_eq_zero, habs, FP.mag_eq_zero]
  have hflush : flush ↔ (decide (c < (fpOf dst).half) && decide (c ≠ 0) && fm.getLsbD (8 + flushClass dst)) = true := by
    show small ∧ y ≠ 0 ∧ _ ↔ _
    rw [hsmall, ne_eq, hzero]
    simp only [Bool.and_eq_true, decide_eq_true_eq, and_assoc, ne_eq]
  refine ⟨fun hf => if_pos (hflush.1 hf), fun hf => ?_⟩
  rw [show r = _ from if_neg fun hc => hf (hflush.2 hc)]
  refine ⟨rat_signed dst n hc, fun h0 => ?_, fun hs => ?_, fun hs => ?_⟩
  · rw [hzero.1 h0]
    rfl
  · rw [decide_eq_true (hsmall.1 hs)]
    rfl
  · rw [decide_eq_false fun hc => hs (hsmall.2 hc)]
    exact BitVec.or_zero

/-- The value between two neighbours, of which `bits` selects one: the higher is selected for as many of the 2^32 values of `bits` as
its share is. -/
def takesHigher (bits : Nat) (n : Bool) (k d : Nat) : Bool :=
  decide (bits < if n then 2 ^ 32 - (((k % 2 ^ d) * 2 ^ 32 + 2 ^ d - 1) / 2 ^ d) else srFrac k d)

/-- `cvtsr` to a float format by the spacing of its result. -/
theorem cvtsr_eq (fm : W32) {dst : Fmt} (hd : dst.num ≤ 10) (bits : Nat) (n : Bool) {k : Nat} (hk : k ≠ 0) (e : Int) :
    let f := fpOf dst
    let q := f.spacing (topOf k e)
    let up := roundAt .ru false k e false q
    cvtsrVal fm dst bits (.fin n k e) =
      if !up.2 && !decide (f.maxCode < f.codeAt q up.1) then convert fm .rn dst (.f (.fin n k e))
      else if decide (f.maxCode < f.codeAt q up.1) then (if f.narrow then (maxBits dst n, Fl.sat ||| Fl.nx) else (infBits dst n, Fl.ovf ||| Fl.nx))
      else neighbour fm dst n
        (f.codeAt q (if takesHigher bits n k (q - e).toNat != n then k / 2 ^ (q - e).toNat + 1 else k / 2 ^ (q - e).toNat)) := by
  dsimp only
  rw [← spacing_eq]
  unfold cvtsrVal
  dsimp only
  rw [if_pos hd, if_neg hk]
  rfl

/-- The share of the higher neighbour. -/
theorem takesHigher_iff {k : Nat} {e q : Int} (heq : e < q) (bits : Nat) (n : Bool) :
    let rest : ℚ := (k : ℚ) * 2 ^ e - cutAt k e q * 2 ^ q
    takesHigher bits n k (q - e).toNat = decide ((bits : Int) < ⌊(if n then 2 ^ q - rest else rest) / 2 ^ q * 2 ^ 32⌋) := by
  intro rest
  have hD : 0 < 2 ^ (q - e).toNat := Nat.two_pow_pos _
  have hr : k % 2 ^ (q - e).toNat < 2 ^ (q - e).toNat := Nat.mod_lt _ hD
  have hpos := two_zpow_pos e
  have hrest : rest = (k % 2 ^ (q - e).toNat : Nat) * 2 ^ e := by
    show _ - _ = _
    rw [cutAt_add_rest heq, mul_div_cancel_right₀ _ hpos.ne', sub_self, add_zero]
  have hshare (j : Nat) : ⌊(j : ℚ) * 2 ^ e / 2 ^ q * 2 ^ 32⌋ = ((j * 2 ^ 32 / 2 ^ (q - e).toNat : Nat) : Int) := by
    have hdiv : (j : ℚ) * 2 ^ e / 2 ^ q * 2 ^ 32 = ((j * 2 ^ 32 : Nat) : ℚ) / ((2 ^ (q - e).toNat : Nat) : ℚ) := by
      rw [two_zpow_split heq.le, mul_div_mul_right _ _ hpos.ne']
      push_cast
      ring
    rw [hdiv, Rat.floor_natCast_div_natCast, Int.natCast_ediv]
  have hcomp : 2 ^ q - rest = ((2 ^ (q - e).toNat - k % 2 ^ (q - e).toNat : Nat) : ℚ) * 2 ^ e := by
    rw [hrest, two_zpow_split heq.le, Nat.cast_sub hr.le]
    push_cast
    ring
  unfold takesHigher
  rw [← share_rest hD hr]
  cases n
  · simp only [Bool.false_eq_true, if_false, hrest, hshare, Nat.cast_lt]
    rfl
  · simp only [if_true, hcomp, hshare, Nat.cast_lt]

section
variable (fm : W32) {dst : Fmt} (bits : Nat) (n : Bool) (k : Nat) (e : Int)

/-- `cvtsr` of a magnitude between two neighbours of its format. -/
theorem cvtsr_between (hd : dst.num ≤ 10) (hk : k ≠ 0) :
    let f := fpOf dst
    let q := f.spacing (topOf k e)
    let c := f.codeAt q (cutAt k e q)
    let x := (Val.fin n k e).rat
    c + 1 ≤ f.maxCode → (cutAt k e q : ℚ) * 2 ^ q ≠ |x| →
      ∃ lo hi : ℚ, Holds dst lo ∧ Holds dst hi ∧ lo < x ∧ x < hi ∧ (∀ y, Holds dst y → y ≤ lo ∨ hi ≤ y) ∧
      ∃ c' ≤ f.maxCode, cvtsrVal fm dst bits (.fin n k e) = neighbour fm dst n c' ∧
        (if (bits : Int) < ⌊(x - lo) / (hi - lo) * 2 ^ 32⌋ then hi else lo) = if n then -f.mag c' else f.mag c' := by
  intro f q c x hc hx
  have hcut : CutOf k e false |x| := CutOf.abs_fin n k e
  obtain ⟨hmag, hnext, hlo, hhi⟩ := hcut.mag_bounds (m := dst) hk
  change f.mag c = _ at hmag
  change f.mag (c + 1) = _ at hnext
  change f.mag c ≤ _ at hlo
  change _ < f.mag (c + 1) at hhi
  have hlt : f.mag c < |x| := lt_of_le_of_ne hlo (hmag ▸ hx)
  have heq : e < q := by
    by_contra hle
    exact hx ((cutAt_of_le (not_lt.1 hle)).trans (Val.abs_rat_fin n k e).symm)
  have hdown : cutAt k e q = k / 2 ^ (q - e).toNat := if_neg (not_le.2 heq)
  have hup := hcut.roundAt_up (q := q) (by simp) hx
  have hbeyond : ¬ f.maxCode < f.codeAt q (cutAt k e q + 1) := not_lt.2 hc
  have hval : cvtsrVal fm dst bits (.fin n k e) = neighbour fm dst n
      (f.codeAt q (if takesHigher bits n k (q - e).toNat != n then cutAt k e q + 1 else cutAt k e q)) := by
    rw [cvtsr_eq fm hd bits n hk e, hup, decide_eq_false hbeyond, if_neg (by simp), if_neg (by simp), hdown]
  have hgap : f.mag (c + 1) - f.mag c = 2 ^ q := by
    rw [hmag, hnext]
    ring
  have habs : |x| = (k : ℚ) * 2 ^ e := Val.abs_rat_fin n k e
  have hshare := takesHigher_iff (k := k) heq bits n
  dsimp only at hshare
  rw [← habs, ← hmag] at hshare
  have hfin : x = if n then -|x| else |x| := by
    rw [habs]
    exact Val.rat_fin n k e
  have hcode : f.codeAt q (cutAt k e q + 1) = c + 1 := rfl
  have hcc : c ≤ f.maxCode := Nat.le_of_succ_le hc
  cases n
  · rw [if_neg Bool.false_ne_true] at hfin hshare
    rw [← hfin] at hlt hhi hshare
    refine ⟨f.mag c, f.mag (c + 1), holds_mag hd hcc, holds_mag hd hc, hlt, hhi, fun y hy => holds_gap hd c hy, ?_⟩
    rw [hgap]
    by_cases hb : (bits : Int) < ⌊(x - f.mag c) / 2 ^ q * 2 ^ 32⌋
    · rw [hshare, decide_eq_true hb] at hval
      exact ⟨c + 1, hc, hval, if_pos hb⟩
    · rw [hshare, decide_eq_false hb] at hval
      exact ⟨c, hcc, hval, if_neg hb⟩
  · rw [if_pos rfl] at hfin hshare
    refine ⟨-f.mag (c + 1), -f.mag c, (holds_neg hd).2 (holds_mag hd hc), (holds_neg hd).2 (holds_mag hd hcc), by linarith, by linarith,
      fun y hy => ?_, ?_⟩
    · rcases holds_gap hd c ((holds_neg hd).2 hy) with h | h
      · exact .inr (neg_le.1 h)
      · exact .inl (le_neg.1 h)
    · have hnum : x - -f.mag (c + 1) = 2 ^ q - (|x| - f.mag c) := by
        rw [hfin, ← hgap, abs_neg, abs_abs]
        ring
      have hden : -f.mag c - -f.mag (c + 1) = 2 ^ q := by
        rw [← hgap]
        ring
      rw [hnum, hden]
      by_cases hb : (bits : Int) < ⌊(2 ^ q - (|x| - f.mag c)) / 2 ^ q * 2 ^ 32⌋
      · rw [hshare, decide_eq_true hb] at hval
        exact ⟨c, hcc, hval, if_pos hb⟩
      · rw [hshare, decide_eq_false hb] at hval
        exact ⟨c + 1, hc, hval, if_neg hb⟩

end

end Machine
end Sys2Proof
end

section
/-! SUPPORT. `cvtsr` to each kind of format (R148). -/

namespace Sys2Proof
open Machine
namespace Machine

section
variable (fm : W32) (bits : Nat) (n : Bool) (k : Nat) (e : Int)

/-! ### To a float format -/

theorem cvtsr_zero {dst : Fmt} (hd : dst.num ≤ 10) : cvtsrVal fm dst bits (.fin n 0 e) = (zeroBits dst n, 0) := by
  unfold cvtsrVal
  dsimp only
  rw [if_pos hd, if_pos rfl]

variable {k}

/-- A value that the format holds is converted. -/
theorem cvtsr_held {dst : Fmt} (hd : dst.num ≤ 10) (hk : k ≠ 0) (h : Holds dst (Val.fin n k e).rat) :
    cvtsrVal fm dst bits (.fin n k e) = convert fm .rn dst (.f (.fin n k e)) := by
  have hcut := CutOf.abs_fin n k e
  obtain ⟨hc, hx⟩ := (hcut.holds_iff hk hd).1 h
  have hval := cvtsr_eq fm hd bits n hk e
  dsimp only at hval
  rwa [hcut.roundAt_exact (by simp) hx, decide_eq_false (not_lt.2 hc), if_pos (by simp)] at hval

/-- A value beyond the largest overflows. -/
theorem cvtsr_beyond {dst : Fmt} (hd : dst.num ≤ 10) (hk : k ≠ 0) (h : (fpOf dst).mag (fpOf dst).maxCode < |(Val.fin n k e).rat|) :
    cvtsrVal fm dst bits (.fin n k e) =
      if (fpOf dst).narrow then (maxBits dst n, Fl.sat ||| Fl.nx) else (infBits dst n, Fl.ovf ||| Fl.nx) := by
  have hbeyond := ((CutOf.abs_fin n k e).beyond_iff (m := dst) hk (by simp)).2 h
  have hval := cvtsr_eq fm hd bits n hk e
  dsimp only at hval
  rwa [decide_eq_true hbeyond, if_neg (by simp), if_pos rfl] at hval

/-- A value within the largest that the format does not hold has a code above its own. -/
theorem next_code_le {dst : Fmt} (hd : dst.num ≤ 10) (hk : k ≠ 0) (h : |(Val.fin n k e).rat| ≤ (fpOf dst).mag (fpOf dst).maxCode)
    (hno : ¬ Holds dst (Val.fin n k e).rat) :
    let q := (fpOf dst).spacing (topOf k e)
    (fpOf dst).codeAt q (cutAt k e q) + 1 ≤ (fpOf dst).maxCode ∧ (cutAt k e q : ℚ) * 2 ^ q ≠ |(Val.fin n k e).rat| := by
  intro q
  have hcut := CutOf.abs_fin n k e
  obtain ⟨-, -, hlo, -⟩ := hcut.mag_bounds (m := dst) hk
  have hx : (cutAt k e q : ℚ) * 2 ^ q ≠ |(Val.fin n k e).rat| := fun heq =>
    hno ((hcut.holds_iff hk hd).2 ⟨(fpOf dst).mag_strictMono.le_iff_le.1 (hlo.trans h), heq⟩)
  have hbeyond := hcut.beyond_iff (m := dst) hk (by simp)
  rw [hcut.roundAt_up (by simp) hx] at hbeyond
  exact ⟨not_lt.1 fun hlt => absurd h (not_le.2 (hbeyond.1 hlt)), hx⟩

/-! ### To B1 -/

variable (k)

/-- `cvtsr` to B1 of a value between −1 and 1. -/
theorem cvtsr_b1 :
    let x := (Val.fin n k e).rat
    (x < -1 → cvtsrVal fm .b1 bits (.fin n k e) = (2 ^ 32 - 1, Fl.sat)) ∧ (1 < x → cvtsrVal fm .b1 bits (.fin n k e) = (0, Fl.sat)) ∧
    (x = 1 → cvtsrVal fm .b1 bits (.fin n k e) = (0, 0)) ∧ (x = -1 → cvtsrVal fm .b1 bits (.fin n k e) = (2 ^ 32 - 1, 0)) ∧
    (-1 < x → x < 1 →
      cvtsrVal fm .b1 bits (.fin n k e) = (if (bits : Int) < ⌊(x + 1) / 2 * 2 ^ 32⌋ then 0 else 2 ^ 32 - 1, Fl.nx)) := by
  intro x
  have hr : (dyOf n k e).rat = x := dyOf_rat n k e
  have hlow : (dyOf n k e).lt (Dy.ofInt (-1)) = true ↔ x < -1 := by rw [Dy.lt_iff, hr, Dy.rat_ofInt]; norm_num
  have hhigh : (Dy.ofInt 1).lt (dyOf n k e) = true ↔ 1 < x := by rw [Dy.lt_iff, hr, Dy.rat_ofInt]; norm_num
  have hone : (dyOf n k e).eq (Dy.ofInt 1) = true ↔ x = 1 := by rw [Dy.eq_iff, hr, Dy.rat_ofInt]; norm_num
  have hminus : (dyOf n k e).eq (Dy.ofInt (-1)) = true ↔ x = -1 := by rw [Dy.eq_iff, hr, Dy.rat_ofInt]; norm_num
  have hval : cvtsrVal fm .b1 bits (.fin n k e) =
      let y := (dyOf n k e).add (Dy.ofInt 1)
      if (dyOf n k e).lt (Dy.ofInt (-1)) then (2 ^ 32 - 1, Fl.sat)
      else if (Dy.ofInt 1).lt (dyOf n k e) then (0, Fl.sat)
      else if (dyOf n k e).eq (Dy.ofInt 1) then (0, 0)
      else if (dyOf n k e).eq (Dy.ofInt (-1)) then (2 ^ 32 - 1, 0)
      else (placeB1 (!decide (bits <
        if 0 ≤ y.e then y.n.natAbs * 2 ^ (31 + y.e.toNat) else y.n.natAbs * 2 ^ 31 / 2 ^ (-y.e).toNat)), Fl.nx) := rfl
  dsimp only at hval
  simp only [hlow, hhigh, hone, hminus] at hval
  refine ⟨fun h => ?_, fun h => ?_, fun h => ?_, fun h => ?_, fun h1 h2 => ?_⟩
  · rw [hval, if_pos h]
  · rw [hval, if_neg (by linarith), if_pos h]
  · rw [hval, if_neg (by linarith), if_neg (by linarith), if_pos h]
  · rw [hval, if_neg (by linarith), if_neg (by linarith), if_neg (by linarith), if_pos h]
  · have he := Dy.add_ofInt_e (dyOf n k e) 1
    have hrat : ((dyOf n k e).add (Dy.ofInt 1)).rat = x + 1 := by
      rw [Dy.rat_add, hr, Dy.rat_ofInt]
      norm_num
    have hfloor := Dy.floor_scaled _ he (by linarith) 31
    rw [hrat] at hfloor
    have hscale : (x + 1) / 2 * 2 ^ 32 = (x + 1) * 2 ^ 31 := by ring
    generalize (dyOf n k e).add (Dy.ofInt 1) = y at he hfloor hval
    have hshare : (if 0 ≤ y.e then y.n.natAbs * 2 ^ (31 + y.e.toNat) else y.n.natAbs * 2 ^ 31 / 2 ^ (-y.e).toNat) =
        y.n.natAbs * 2 ^ 31 / 2 ^ (-y.e).toNat := by
      split
      · next h =>
        obtain h0 : y.e = 0 := le_antisymm he h
        simp [h0]
      · rfl
    rw [hval, if_neg (by linarith), if_neg (by linarith), if_neg (by linarith), if_neg (by linarith), hshare, hscale, hfloor, if_congr Nat.cast_lt rfl rfl]
    by_cases hb : bits < y.n.natAbs * 2 ^ 31 / 2 ^ (-y.e).toNat
    · rw [if_pos hb, decide_eq_true hb]
      rfl
    · rw [if_neg hb, decide_eq_false hb]
      rfl

/-! ### To an integer format, or N1 -/

/-- Rounding down to an integer gives the whole part, exactly when it is the value. -/
theorem roundInt_rd (n : Bool) (k : Nat) (e : Int) :
    (roundInt .rd n k e false).1 = ⌊(Val.fin n k e).rat⌋ ∧
    ((roundInt .rd n k e false).2 = true ↔ (Val.fin n k e).rat ≠ ⌊(Val.fin n k e).rat⌋) := by
  have hcut := CutOf.abs_fin n k e
  have hexact := hcut.roundAt_eq_iff (q := 0) (by simp) .rd n
  obtain ⟨j, hlo, hhi, hup, hdown⟩ := hcut.roundAt_rounded (q := 0) (by simp) .rd n
  rw [zpow_zero] at hlo hhi hup hdown hexact
  simp only [mul_one] at hlo hhi hup hdown hexact
  have hfin : (Val.fin n k e).rat = if n then -|(Val.fin n k e).rat| else |(Val.fin n k e).rat| := by
    rw [Val.abs_rat_fin]
    exact Val.rat_fin n k e
  unfold roundInt
  dsimp only
  generalize roundAt .rd n k e false 0 = r at hup hdown hexact ⊢
  generalize |(Val.fin n k e).rat| = a at hlo hhi hup hdown hexact hfin
  have hround : (if n then -(r.1 : Int) else r.1 : Int) = ⌊(Val.fin n k e).rat⌋ := by
    rw [eq_comm, Int.floor_eq_iff, hfin]
    cases n
    · have hr := hdown (by simp)
      simp only [Bool.false_eq_true, if_false, Int.cast_natCast]
      rw [hr]
      exact ⟨hlo, hhi⟩
    · simp only [if_true, Int.cast_neg, Int.cast_natCast]
      by_cases hrest : a - j ≠ 0
      · have hr := hup ⟨rfl, hrest⟩
        have hlt : (j : ℚ) < a := lt_of_le_of_ne hlo fun h => hrest (by rw [h, sub_self])
        constructor <;> linarith
      · have hr := hdown fun h => hrest h.2
        have heq : a - j = 0 := not_not.1 hrest
        constructor <;> linarith
  refine ⟨hround, ?_⟩
  rw [← hround, ← Bool.not_eq_false, ← hexact, hfin]
  cases n
  · simp [eq_comm]
  · simp [eq_comm]

/-- `cvtsr` to an integer format within its range, and outside it. -/
theorem cvtsr_int {dst : Fmt} (hd : ¬ dst.num ≤ 10) (hb : dst ≠ .b1) :
    let x := (Val.fin n k e).rat
    (x < loFmt dst → cvtsrVal fm dst bits (.fin n k e) = (placeInt dst (loFmt dst), Fl.sat)) ∧
    (hiFmt dst < x → cvtsrVal fm dst bits (.fin n k e) = (placeInt dst (hiFmt dst), Fl.sat)) ∧
    (loFmt dst ≤ x → x ≤ hiFmt dst →
      (x = ⌊x⌋ → cvtsrVal fm dst bits (.fin n k e) = (placeInt dst ⌊x⌋, 0)) ∧
      (x ≠ ⌊x⌋ → cvtsrVal fm dst bits (.fin n k e) =
        (placeInt dst (if (bits : Int) < ⌊(x - ⌊x⌋) * 2 ^ 32⌋ then ⌊x⌋ + 1 else ⌊x⌋), Fl.nx))) := by
  intro x
  have hr : (dyOf n k e).rat = x := dyOf_rat n k e
  obtain ⟨hfloor, hinexact⟩ := roundInt_rd n k e
  have hlow : (dyOf n k e).lt (Dy.ofInt (loFmt dst)) = true ↔ x < loFmt dst := by rw [Dy.lt_iff, hr, Dy.rat_ofInt]
  have hhigh : (Dy.ofInt (hiFmt dst)).lt (dyOf n k e) = true ↔ hiFmt dst < x := by rw [Dy.lt_iff, hr, Dy.rat_ofInt]
  have hle : (loFmt dst : ℚ) ≤ hiFmt dst := Int.cast_le.2 (loFmt_le_hiFmt dst)
  have hval : cvtsrVal fm dst bits (.fin n k e) =
      let fr := (dyOf n k e).sub (Dy.ofInt (roundInt .rd n k e false).1)
      if (dyOf n k e).lt (Dy.ofInt (loFmt dst)) then (placeInt dst (loFmt dst), Fl.sat)
      else if (Dy.ofInt (hiFmt dst)).lt (dyOf n k e) then (placeInt dst (hiFmt dst), Fl.sat)
      else if !(roundInt .rd n k e false).2 then (placeInt dst (roundInt .rd n k e false).1, 0)
      else (placeInt dst (if bits < fr.n.natAbs * 2 ^ 32 / 2 ^ (-fr.e).toNat
        then (roundInt .rd n k e false).1 + 1 else (roundInt .rd n k e false).1), Fl.nx) := by
    unfold cvtsrVal
    dsimp only
    rw [if_neg hd, if_neg hb]
  dsimp only at hval
  rw [hfloor] at hval
  change ((roundInt .rd n k e false).2 = true ↔ x ≠ ⌊x⌋) at hinexact
  change _ = if _ then _ else if _ then _ else if _ then (placeInt dst ⌊x⌋, (0 : Fl)) else _ at hval
  simp only [hlow, hhigh] at hval
  refine ⟨fun h => ?_, fun h => ?_, fun h1 h2 => ⟨fun h => ?_, fun h => ?_⟩⟩
  · rw [hval, if_pos h]
  · rw [hval, if_neg (by linarith), if_pos h]
  · have hin : (roundInt .rd n k e false).2 = false := Bool.eq_false_iff.2 fun hc => hinexact.1 hc h
    rw [hval, if_neg (by linarith), if_neg (by linarith), hin, Bool.not_false, if_pos rfl]
  · have hrat : ((dyOf n k e).sub (Dy.ofInt ⌊x⌋)).rat = x - ⌊x⌋ := by rw [Dy.rat_sub, hr, Dy.rat_ofInt]
    have hscaled := Dy.floor_scaled _ (Dy.sub_ofInt_e (dyOf n k e) ⌊x⌋) (hrat ▸ sub_nonneg.2 (Int.floor_le x)) 32
    rw [hrat] at hscaled
    rw [hval, if_neg (by linarith), if_neg (by linarith), hinexact.2 h, Bool.not_true, if_neg Bool.false_ne_true, hscaled, if_congr Nat.cast_lt rfl rfl]

end

/-! ### Every format -/

theorem cvtsr_finite (fm : W32) (dst : Fmt) (bits : Nat) (n : Bool) (k : Nat) (e : Int) :
    StochasticSpec fm dst bits (.fin n k e) (cvtsrVal fm dst bits (.fin n k e)) := by
  refine ⟨fun hd => ?_, ?_, fun hd _ hb => cvtsr_int fm bits n k e (by omega) hb⟩
  · by_cases hk : k = 0
    · subst hk
      have h0 : (Val.fin n 0 e).rat = 0 := (Val.rat_fin_eq_zero n 0 e).2 rfl
      have hheld : Holds dst 0 := (holds_iff hd 0).2 ⟨0, Nat.zero_le _, by rw [abs_zero, FP.mag_zero]⟩
      have htop : 0 ≤ (decodeF dst (maxBits dst false)).rat := by
        rw [maxBits_rat, if_neg Bool.false_ne_true]
        exact FP.mag_nonneg _ _
      rw [h0, abs_zero]
      exact ⟨fun _ => cvtsr_zero fm bits n e hd, fun h => absurd rfl h, fun h => absurd h (not_lt.2 htop), fun _ h => absurd hheld h⟩
    · refine ⟨fun h => absurd ((Val.rat_fin_eq_zero n k e).1 h) hk, fun _ h => ?_, fun h => ?_, fun h hno => ?_⟩
      · exact cvtsr_held fm bits n e hd hk h ▸ convert_spec fm .rn dst _
      · rw [maxBits_rat, if_neg Bool.false_ne_true] at h
        exact cvtsr_beyond fm bits n e hd hk h
      · rw [maxBits_rat, if_neg Bool.false_ne_true] at h
        obtain ⟨hnext, hx⟩ := next_code_le n e hd hk h hno
        obtain ⟨lo, hi, hlo, hhi, hlx, hxh, hgap, c, hc, hval, hy⟩ := cvtsr_between fm bits n k e hd hk hnext hx
        refine ⟨lo, hi, hlo, hhi, hlx, hxh, hgap, ?_⟩
        rw [hval, hy]
        exact neighbour_spec fm dst n hc
  · rintro rfl
    exact cvtsr_b1 fm bits n k e

/-- `cvtsr` of one value. -/
theorem cvtsr_spec (fm : W32) (dst : Fmt) (bits : Nat) (v : Val) : StochasticSpec fm dst bits v (cvtsrVal fm dst bits v) := by
  cases v with
  | fin n k e => exact cvtsr_finite fm dst bits n k e
  | inf n => exact convert_spec fm .rn dst (.f (.inf n))
  | nan q => exact convert_spec fm .rn dst (.f (.nan q))

end Machine
end Sys2Proof
end

section
/-! SUPPORT. Random numbers (R149, R211), and the settled statement on conversions. -/

namespace Sys2Proof
open Machine
namespace Machine

/-! ### Lane counters -/

/-- A wave, and a state whose wave runs, with other lane counters. -/
def Wave.withRng (w : Wave) (r : SMap W64) : Wave := { w with sp := { w.sp with rng := r } }
def State.withRng (s : State) (r : SMap W64) : State := s.setW (s.w.withRng r)

theorem Wave.withRng_setVs (w : Wave) (r : SMap W64) (v l n x : Nat) : (w.withRng r).setVs v l n x = (w.setVs v l n x).withRng r := by
  induction n generalizing w v x with
  | zero => rfl
  | succ n ih => exact ih (w.setV v l (BitVec.ofNat 32 x)) (v + 1) (x / 2 ^ 32)

theorem Wave.withRng_setSs (w : Wave) (r : SMap W64) (v n x : Nat) : (w.withRng r).setSs v n x = (w.setSs v n x).withRng r := by
  induction n generalizing w v x with
  | zero => rfl
  | succ n ih => exact ih (w.setS v (BitVec.ofNat 32 x)) (v + 1) (x / 2 ^ 32)

theorem Wave.withRng_setOpnd (w : Wave) (r : SMap W64) (o : Opnd) (n l x : Nat) :
    (w.withRng r).setOpnd o n l x = (w.setOpnd o n l x).withRng r := by
  cases o with
  | v v => exact w.withRng_setVs r v.toNat l n x
  | win k => exact w.withRng_setVs r _ l n x
  | s v => exact w.withRng_setSs r v.toNat n x
  | _ => rfl

theorem State.withRng_setOpnd (s : State) (r : SMap W64) (o : Opnd) (n l x : Nat) :
    (s.withRng r).setOpnd o n l x = (s.setOpnd o n l x).withRng r :=
  congrArg s.setW (s.w.withRng_setOpnd r o n l x)

/-- The counter of a lane counted up. -/
def drawnRng (r : SMap W64) (l : Nat) : SMap W64 := SMap.set r 0 l (SMap.get r 0 l + 1)

/-- One lane's draw writes its value and counts its counter up; a loop of draws writes the values, and counts. -/
theorem drawLoop (o : Opnd) (n : Nat) (x : Nat → Nat) (ls : List Nat) (s : State) (r : SMap W64) :
    ls.foldl (fun t l => (t.setOpnd o n l (x l)).setW ((t.setOpnd o n l (x l)).w.drawn l)) (s.withRng r) =
      (ls.foldl (laneStep o n fun l => (x l, 0)) s).withRng (ls.foldl drawnRng r) := by
  induction ls generalizing s r with
  | nil => rfl
  | cons l ls ih =>
    simp only [List.foldl_cons, State.withRng_setOpnd, laneStep, State.orFlags_zero]
    exact ih (s.setOpnd o n l (x l)) (drawnRng r l)

/-- The issue event around registers and lane counters. -/
theorem finishes_withRng (s t : State) (i : Instr) (r : SMap W64) (h : RegsOnly s t) :
    s.finishes (t.withRng r) i true = ((s.advanced i).withRegs t.w).withRng r := by
  obtain ⟨w, rfl⟩ : ∃ w, t = s.withRegs w := ⟨_, h⟩
  rw [s.finishes_takeFile ((s.withRegs w).withRng r) i rfl]
  obtain ⟨c, a, b, p, n, ps, lat, e⟩ := s.advanced_frame i
  rw [e]
  rfl

/-- `rand` draws in its active lanes. -/
theorem exec_rand (s : State) (f : F) (w32 : Bool) (hd : ∀ r, f.d ≠ .s r) (hI : s.Issues (.rand f w32)) (ha : s.active (.rand f w32) ≠ 0) :
    let act := s.active (.rand f w32)
    let val (l : Nat) : Nat × Fl := ((randBits s.b.gid s.w.idx l (s.opnd64 f.a l) (SMap.get s.w.sp.rng 0 l)).toNat, 0)
    exec (.rand f w32) s = .next
      (((s.advanced (.rand f w32)).withRegs (s.perLane act f.d (if w32 then 1 else 2) val).w).withRng ((lanesOf act).foldl drawnRng s.w.sp.rng)) := by
  intro act val
  have hlanes : f.d.lanes act = lanesOf act := by
    cases hf : f.d with
    | s r => exact absurd hf (hd r)
    | _ => rfl
  have hdraw := drawLoop f.d (if w32 then 1 else 2) (fun l => (val l).1) (lanesOf act) s s.w.sp.rng
  have hloop : (lanesOf act).foldl (laneStep f.d (if w32 then 1 else 2) fun l => ((val l).1, 0)) s =
      s.perLane act f.d (if w32 then 1 else 2) val := by
    rw [perLane_loop, hlanes]
  rw [hloop] at hdraw
  rw [← finishes_withRng s _ _ _ (RegsOnly.perLane ..), ← hdraw]
  exact word_done (.rand f w32) s (fun act _ => .done ((lanesOf act).foldl (fun t l =>
    (t.setOpnd f.d (if w32 then 1 else 2) l (val l).1).setW ((t.setOpnd f.d (if w32 then 1 else 2) l (val l).1).w.drawn l)) s)) hI ha rfl

theorem get_drawn (r : SMap W64) (act : Mask) {l : Nat} (hl : l < 32) :
    SMap.get ((lanesOf act).foldl drawnRng r) 0 l = SMap.get r 0 l + if act.getLsbD l then 1 else 0 := by
  have h := SMap.get_foldUpd 0 (· + 1) (lanesOf act) (lanesOf_nodup act) r l
  simp only [mem_lanesOf, hl, true_and] at h
  refine h.trans ?_
  split
  · rfl
  · exact (BitVec.add_zero _).symm

/-! ### The obligation -/

/-- `pk` replaces one element of D by a conversion, and keeps the others. -/
theorem pkBits_spec (fm : W32) (dst src : Fmt) (d a c : Nat) (hd : dst.bits ≠ 6) :
    let r := pkBits fm dst src d a c
    (∀ j < perWord dst, j ≠ c % perWord dst → elemCode dst r.1 j = elemCode dst d j) ∧
    ∃ x : Nat × Fl, elemCode dst r.1 (c % perWord dst) = x.1 % 2 ^ dst.bits ∧ r.2 = x.2 ∧
      (src.num ≤ 22 → dst.num ≤ 22 → ConvertSpec fm (rmOfCode (fm.toNat % 8)) dst
        (if src.num ≤ 10 then .f (flushIn fm src a) else .i (elemInt src a)) x) :=
  ⟨fun j _ hj => (elemCode_replaced dst d _ _ j hd).trans (if_neg hj), convert fm (rmOfCode (fm.toNat % 8)) dst (elemIn fm src a),
    (elemCode_replaced dst d _ _ _ hd).trans (if_pos rfl), rfl, fun _ _ => convert_elemIn fm _ dst src a⟩

/-- Settles O12: each word by its value in a lane; `rand` by its draws. -/
theorem conversions : Obligations.Conversions := by
  unfold Obligations.Conversions
  refine ⟨fun s f dm sm => ⟨⟨_, rfl, computes_perLane _ s _ _ _ rfl, fun l hs hd => ?_⟩,
    ⟨_, rfl, computes_perLane _ s _ _ _ rfl, fun l _ _ => cvtsr_spec _ dm _ _⟩,
    ⟨_, rfl, computes_perLane _ s _ _ _ rfl, fun l _ hd => pkBits_spec _ dm sm _ _ _ hd⟩,
    ⟨_, rfl, computes_perLane _ s _ _ _ rfl, fun l hs _ => ?_⟩, fun w32 hd hI ha => ?_⟩,
    fun m rm bits n k e _ _ hd hk => roundF_representable rm hd hk⟩
  · dsimp only
    rw [cvtBits_eq _ _ _ _ _ hs hd]
    exact convert_elemIn _ _ dm sm _
  · dsimp only
    rw [upkBits_eq _ _ _ _ _ hs]
    exact convert_elemIn _ _ dm sm _
  · refine ⟨_, (s.advanced (.rand f w32)).withRegs (s.perLane (s.active (.rand f w32)) f.d (if w32 then 1 else 2) _).w,
      exec_rand s f w32 hd hI ha, rfl, rfl, ⟨fun q l k hq hp => ?_, fun q hq hp => ?_, ?_, rfl⟩, fun l hl => get_drawn _ _ hl⟩
    · rw [withRegs_reg]
      exact perLane_value s _ f.d _ _ q l k hq hp
    · rw [withRegs_reg]
      exact perLane_other s _ f.d _ _ q hq hp
    · rw [withRegs_fflags]
      exact perLane_fflags s _ f.d _ _

end Machine
end Sys2Proof
end

section
/-! SUPPORT. The rows of the matrix engine (R258, R259): what the check of a word's rows leaves, and that rows read alike after it. -/

namespace Sys2Proof
open Machine
namespace Machine

/-! ### Race tags -/

/-- A state whose block has other race tags. -/
def State.retagged (s : State) (wt rt : SMap Nat) : State := s.setB { s.b with wtag := wt, rtag := rt }

section
variable (s : State) (wt rt : SMap Nat)

theorem State.check_retagged (acc : Acc) (r : MRow) (a : W64) (n : Nat) (write : Bool) :
    (s.retagged wt rt).check acc r.sp a n write = s.check acc r.sp a n write := by
  unfold MRow.sp
  cases r.sc
  · exact State.check_congr (s := s) (t := s.retagged wt rt) ⟨wt, rt, s.b.live, rfl⟩ rfl rfl rfl rfl rfl rfl acc false a n write
  · rfl

theorem State.viewBytes_retagged (va pa n : Nat) : (s.retagged wt rt).viewBytes va pa n = s.viewBytes va pa n := by
  induction n generalizing va pa with
  | zero => rfl
  | succ n ih => exact congrArg (s.viewByte va pa :: ·) (ih (va + 1) (pa + 1))

theorem State.readPlace_retagged (p : Place) (n : Nat) : (s.retagged wt rt).readPlace p n = s.readPlace p n := by
  cases p with
  | view va pa => exact congrArg leNat (s.viewBytes_retagged wt rt va pa n)
  | _ => rfl

theorem State.rowPlaces_retagged (r : MRow) (n : Nat) (write : Bool) : (s.retagged wt rt).rowPlaces r n write = s.rowPlaces r n write := by
  unfold State.rowPlaces
  simp only [State.check_retagged]

theorem State.readRow_retagged (r : MRow) (n : Nat) : (s.retagged wt rt).readRow r n = s.readRow r n := by
  unfold State.readRow
  simp only [State.rowPlaces_retagged, State.readPlace_retagged]

theorem State.matOp_retagged (x : MatArg) (fmt : Fmt) (acf : AccF) (sh : Shape) (scA scB : Bool) (fm : W32) :
    (s.retagged wt rt).matOp x fmt acf sh scA scB fm = s.matOp x fmt acf sh scA scB fm := by
  unfold State.matOp
  simp only [State.readRow_retagged]

end

/-! ### Rows that pass -/

theorem RowR.ok_inj {s t : State} (h : RowR.ok s = .ok t) : s = t := by cases h; rfl

/-- The race check of sectors that passes changes race tags alone. -/
theorem State.raceThen_done {s t : State} {secs : List (Nat × Bool)} (hr : (secs != [] && s.b.race.isSome) = false)
    (h : s.raceThen secs .done = .done t) : ∃ wt rt, t = s.retagged wt rt := by
  unfold State.raceThen at h
  split at h
  · cases h
    exact ⟨_, _, rfl⟩
  · next hne =>
    have hrace : s.b.race.isSome = false := by
      cases hs : s.b.race.isSome
      · rfl
      · rw [hs, Bool.and_true] at hr
        exact absurd (by simpa using hr) hne
    rw [hrace, if_neg Bool.false_ne_true] at h
    obtain ⟨wt, rt, hframe⟩ := s.b.accessAll_frame s.w.idx secs
    split at h
    · next b heq =>
      rw [heq] at hframe
      cases h
      exact ⟨wt, rt, congrArg s.setB hframe⟩
    · cases h
    · cases h

theorem State.checkRow_ok {t u : State} {r : MRow} {n : Nat} {write : Bool} (h : t.checkRow r n write = .ok u) :
    ∃ wt rt, u = t.retagged wt rt := by
  unfold State.checkRow at h
  split at h
  · cases h
  · split at h
    · cases h
    · dsimp only at h
      split at h
      · cases h
      · split at h
        · cases h
        · split at h
          · cases h
          · next hr =>
            split at h
            · next hdone =>
              cases h
              exact State.raceThen_done (Bool.eq_false_iff.2 hr) hdone
            · cases h

/-- The rows of a word that pass change race tags alone. -/
theorem State.checkRows_ok {s : State} {qs : List Nat} {n total : Nat} {write : Bool} {rs : List MRow} {t u : State}
    (h : s.checkRows qs n total write rs t = .ok u) : ∃ wt rt, u = t.retagged wt rt := by
  induction rs generalizing t with
  | nil =>
    cases h
    exact ⟨_, _, rfl⟩
  | cons r rs ih =>
    unfold State.checkRows at h
    split at h
    · exact ih h
    · split at h
      · next v hv =>
        obtain ⟨wt, rt, rfl⟩ := State.checkRow_ok hv
        obtain ⟨wt', rt', rfl⟩ := ih h
        exact ⟨wt', rt', rfl⟩
      · cases h

/-- Decode errors are counted in registers of the PF. -/
theorem State.countRows_frame (s : State) (n : Nat) (rs : List MRow) : ∃ pf, s.countRows n rs = { s with pf := pf } := by
  let PfOnly (u : State) : Prop := ∃ pf, u = { s with pf := pf }
  have herr : ∀ u w k, PfOnly u → PfOnly (u.countDecErr w k) := by
    rintro _ w k ⟨pf, rfl⟩
    unfold State.countDecErr
    split
    · exact ⟨pf, rfl⟩
    · exact ⟨_, rfl⟩
  have hplace : ∀ (u : State) (p : Nat × W64 × Place) (k : Nat), PfOnly u → PfOnly (u.countWindow [p] k) := by
    rintro u ⟨a, b, p⟩ k hu
    cases p with
    | window pa => exact herr u _ _ hu
    | _ => exact hu
  exact foldl_keeps PfOnly _ (fun u r hu => foldl_keeps PfOnly _ (fun v p hv => hplace v _ _ hv) _ u hu) rs s ⟨_, rfl⟩

/-! ### Rows in order -/

/-- A row that %mrow has past, and whose pages still pass, is not checked again. -/
theorem State.checkRows_done (s : State) (qs : List Nat) (n total : Nat) (write : Bool) (r : MRow) (rs : List MRow) (t : State)
    (hm : r.m < rowsDone s.w.sp.mrow r.q) (hc : ∀ c ∈ t.rowChks r n write, ∃ p, c.2.2 = .ok p) :
    s.checkRows qs n total write (r :: rs) t = s.checkRows qs n total write rs t := by
  have hdone : t.rowDone s.w.sp.mrow r n write = true := by
    rw [State.rowDone, decide_eq_true hm, firstFail_none _ hc]
    rfl
  rw [State.checkRows, if_pos hdone]

section
variable (s : State) (qs : List Nat) (n total : Nat) (write : Bool) (r : MRow) (rs : List MRow) (t : State)
  (hm : rowsDone s.w.sp.mrow r.q ≤ r.m)
include hm

theorem State.rowDone_next : t.rowDone s.w.sp.mrow r n write = false := by
  rw [State.rowDone, decide_eq_false (not_lt.2 hm), Bool.false_and]

/-- A row that %mrow has not past is checked: the word goes on where it passes. -/
theorem State.checkRows_passed {u : State} (hu : t.checkRow r n write = .ok u) :
    s.checkRows qs n total write (r :: rs) t = s.checkRows qs n total write rs u := by
  rw [State.checkRows, s.rowDone_next n write r t hm, if_neg Bool.false_ne_true]
  simp only [hu]

/-- The word stops where it does not, and leaves its place in %mrow. -/
theorem State.checkRows_stopped {x : Res} (hx : t.checkRow r n write = .stop x) : s.checkRows qs n total write (r :: rs) t =
    .stop (x.withMrow (setRows (qs.foldl (fun w q => if q < r.q then setRows w q total else w) s.w.sp.mrow) r.q r.m)) := by
  rw [State.checkRows, s.rowDone_next n write r t hm, if_neg Bool.false_ne_true]
  simp only [hx]

/-- A misaligned row takes its trap and leaves its place in %mrow. -/
theorem State.checkRows_misaligned (ha : r.addr.toNat % 16 ≠ 0) :
    s.checkRows qs n total write (r :: rs) t =
      .stop (.trap (t.setMrow (setRows (qs.foldl (fun w q => if q < r.q then setRows w q total else w) s.w.sp.mrow) r.q r.m))
        (.of 4 (r.info write) r.addr)) :=
  s.checkRows_stopped qs n total write r rs t hm (if_pos ha)

end

/-- %mrow of a quarter after it was set. -/
theorem rowsDone_setRows (mrow : W32) {q : Nat} (hq : q < 4) (k : Nat) : rowsDone (setRows mrow q k) q = k % 256 := by
  have hpow : 2 ^ (8 * (q + 1)) ∣ 2 ^ 32 := Nat.pow_dvd_pow 2 (by omega)
  have hdigit := digit_replaced (2 ^ (8 * q)) 256 mrow.toNat k
  rw [rowsDone, setRows, rowsDone, hdigit, BitVec.toNat_ofNat]
  have hsplit : 2 ^ (8 * (q + 1)) = 2 ^ (8 * q) * 256 := by
    rw [Nat.mul_succ, pow_add]
    norm_num
  rw [← Nat.mod_mul_right_div_self, ← hsplit, Nat.mod_mod_of_dvd _ hpow, hsplit, Nat.mod_mul_right_div_self, Nat.mul_comm _ (2 ^ (8 * q)),
    Nat.mul_add_div (Nat.two_pow_pos _), Nat.div_eq_of_lt (Nat.mod_lt _ (Nat.two_pow_pos _)), Nat.add_zero, Nat.mul_add_mod_of_lt]
  exact Nat.mod_lt _ (by decide)

end Machine
end Sys2Proof
end

section
/-! SUPPORT. The accumulation rule (R142): `matAcc` by the kinds of its terms, its window and its sum. -/

namespace Sys2Proof
open Machine
namespace Machine

/-! ### Kinds of terms -/

theorem Val.isInf_iff (t : Val) (n : Bool) : t = .inf n ↔ t.isInf = true ∧ t.neg? = n := by
  cases t <;> simp [Val.isInf, Val.neg?]

/-- A value that is neither a NaN nor an infinity is finite. -/
theorem Val.finite {t : Val} (hn : t.isNan = false) (hi : ∀ n, t ≠ .inf n) : ∃ n k e, t = .fin n k e := by
  cases t with
  | fin n k e => exact ⟨n, k, e, rfl⟩
  | inf n => exact absurd rfl (hi n)
  | nan q => exact absurd hn (by simp [Val.isNan])

theorem Val.isZero_fin (n : Bool) (k : Nat) (e : Int) : (Val.fin n k e).isZero = true ↔ (Val.fin n k e).rat = 0 := by
  rw [Val.rat_fin_eq_zero]
  simp [Val.isZero]

/-- The leading exponent of a term that is no zero. -/
theorem Val.top_iff {n : Bool} {k : Nat} {e : Int} (hk : k ≠ 0) (g : Int) :
    ((Val.fin n k e).top ≤ g ↔ |(Val.fin n k e).rat| < 2 ^ (g + 1)) ∧ (g ≤ (Val.fin n k e).top ↔ 2 ^ g ≤ |(Val.fin n k e).rat|) := by
  obtain ⟨hlo, hhi⟩ := (CutOf.abs_fin n k e).binade hk
  have hmono {a b : Int} : (2 : ℚ) ^ a < 2 ^ b ↔ a < b := zpow_lt_zpow_iff_right₀ one_lt_two
  change (topOf k e ≤ g ↔ _) ∧ (g ≤ topOf k e ↔ _)
  constructor
  · constructor
    · exact fun h => hhi.trans_le (zpow_le_zpow_right₀ one_le_two (by omega))
    · exact fun h => Int.lt_add_one_iff.1 (hmono.1 (hlo.trans_lt h))
  · constructor
    · exact fun h => (zpow_le_zpow_right₀ one_le_two h).trans hlo
    · exact fun h => Int.lt_add_one_iff.1 (hmono.1 (h.trans_lt hhi))

/-! ### The window -/

/-- The part of a term in units of 2^q, and whether something of it lies below. -/
def Val.part (q : Int) (t : Val) : Int := if t.rat < 0 then -⌊|t.rat| / 2 ^ q⌋ else ⌊|t.rat| / 2 ^ q⌋
def Val.cut (q : Int) : Val → Bool
  | .fin _ k e => decide (e < q) && decide (k % 2 ^ (q - e).toNat ≠ 0)
  | _ => false

theorem floor_cutAt (k : Nat) (e q : Int) : ⌊(k : ℚ) * 2 ^ e / 2 ^ q⌋ = cutAt k e q := by
  have hcut := CutOf.exact k e
  have hpos := two_zpow_pos q
  rw [Int.floor_eq_iff, le_div_iff₀ hpos, div_lt_iff₀ hpos]
  exact ⟨hcut.cutAt_le, hcut.lt_cutAt (by simp)⟩

theorem Val.part_fin (q : Int) (n : Bool) (k : Nat) (e : Int) :
    (Val.fin n k e).part q = if n then -(cutAt k e q : Int) else cutAt k e q := by
  rw [Val.part, Val.abs_rat_fin, floor_cutAt, if_congr (Val.rat_fin_lt_zero n k e) rfl rfl]
  by_cases hk : k = 0
  · subst hk
    simp [cutAt]
  · cases n <;> simp [hk]

theorem Val.cut_fin (q : Int) (n : Bool) (k : Nat) (e : Int) :
    (Val.fin n k e).cut q = true ↔ (⌊|(Val.fin n k e).rat| / 2 ^ q⌋ : ℚ) * 2 ^ q ≠ |(Val.fin n k e).rat| := by
  rw [Val.abs_rat_fin, floor_cutAt, Int.cast_natCast]
  unfold Val.cut
  rw [Bool.and_eq_true, decide_eq_true_iff, decide_eq_true_iff]
  by_cases hq : e < q
  · have hpos := two_zpow_pos e
    have hrest := cutAt_add_rest (k := k) hq ((k : ℚ) * 2 ^ e)
    rw [mul_div_cancel_right₀ _ hpos.ne', sub_self, add_zero] at hrest
    rw [and_iff_right hq, ← Nat.cast_ne_zero (R := ℚ), ← mul_ne_zero_iff_right hpos.ne', ← hrest, sub_ne_zero, ne_comm]
  · exact iff_of_false (fun h => hq h.1) (not_not.2 (cutAt_of_le (not_lt.1 hq)))

/-- A term added to a window sum. -/
def addPart (q : Int) (a : Int × Bool) : Val → Int × Bool
  | .fin n k e => (if n then a.1 - cutAt k e q else a.1 + cutAt k e q, a.2 || (Val.fin n k e).cut q)
  | _ => a

theorem windowSum_foldl (q : Int) (ts : List Val) : windowSum q ts = ts.foldl (addPart q) (0, false) := by
  refine congrArg (fun f => ts.foldl f (0, false)) (funext fun a => funext fun t => ?_)
  cases t <;> rfl

/-- The window sum adds the parts of the terms, and a bit for what lies below. -/
theorem windowSum_eq (q : Int) (ts : List Val) (hfin : ∀ t ∈ ts, ∃ n k e, t = Val.fin n k e) :
    windowSum q (ts.filter fun t => !t.isZero) = ((ts.map (Val.part q)).sum, ts.any (Val.cut q)) := by
  have hgo : ∀ (ts : List Val) (a : Int) (b : Bool), (∀ t ∈ ts, ∃ n k e, t = Val.fin n k e) →
      (ts.filter fun t => !t.isZero).foldl (addPart q) (a, b) = (a + (ts.map (Val.part q)).sum, b || ts.any (Val.cut q)) := by
    intro ts
    induction ts with
    | nil => intro a b _; simp
    | cons t ts ih =>
      intro a b hts
      obtain ⟨n, k, e, rfl⟩ := hts t List.mem_cons_self
      have htail := fun a b => ih a b fun t ht => hts t (List.mem_cons_of_mem _ ht)
      rw [List.map_cons, List.sum_cons, List.any_cons, ← add_assoc, ← Bool.or_assoc, Val.part_fin]
      by_cases hk : k = 0
      · subst hk
        have hcut : (Val.fin n 0 e).cut q = false := by simp [Val.cut]
        have hpart : (if n then -(cutAt 0 e q : Int) else cutAt 0 e q) = 0 := by simp [cutAt]
        rw [List.filter_cons_of_neg (by simp [Val.isZero]), htail, hcut, hpart, add_zero, Bool.or_false]
      · rw [List.filter_cons_of_pos (by simpa [Val.isZero] using hk), List.foldl_cons]
        refine (htail _ _).trans (congrArg (fun x => (x + (ts.map (Val.part q)).sum, _)) ?_)
        cases n
        · rfl
        · exact sub_eq_add_neg _ _
  rw [windowSum_foldl, hgo ts 0 false hfin, zero_add, Bool.false_or]

theorem foldl_max_le_iff (f : Val → Int) (us : List Val) (a g : Int) :
    us.foldl (fun a u => max a (f u)) a ≤ g ↔ a ≤ g ∧ ∀ u ∈ us, f u ≤ g := by
  induction us generalizing a with
  | nil => simp
  | cons u us ih => rw [List.foldl_cons, ih, max_le_iff, List.forall_mem_cons, and_assoc]

/-- The greatest leading exponent of the terms. -/
theorem foldl_top {t : Val} {us : List Val} {g : Int} (hall : ∀ u ∈ t :: us, u.top ≤ g) (hex : ∃ u ∈ t :: us, g ≤ u.top) :
    us.foldl (fun a u => max a u.top) t.top = g := by
  have hle := foldl_max_le_iff Val.top us t.top
  obtain ⟨ht, hus⟩ := List.forall_mem_cons.1 hall
  refine le_antisymm ((hle g).2 ⟨ht, hus⟩) ?_
  obtain ⟨ht', hus'⟩ := (hle _).1 le_rfl
  obtain ⟨u, hu, hg⟩ := hex
  rcases List.mem_cons.1 hu with rfl | hu
  · exact hg.trans ht'
  · exact hg.trans (hus' u hu)

/-! ### The rule -/

/-- The sum of a window with its sticky bit, rounded. -/
def roundedSum (fm : W32) (m : Fmt) (g : Int) (sum : Int) (sticky : Bool) : Nat × Fl :=
  if sum = 0 then (zeroBits m false, Fl.when sticky Fl.nx)
  else
    let x := roundFlush fm m .rn (decide (2 * sum + (if sticky then (if sum < 0 then -1 else 1) else 0) < 0))
      (2 * sum + (if sticky then (if sum < 0 then -1 else 1) else 0)).natAbs (g - 1) false
    (x.1, x.2 ||| Fl.when sticky Fl.nx)

theorem roundedSum_spec (fm : W32) (m : Fmt) (g sum : Int) (sticky : Bool) :
    ∃ nx : Fl, (sticky = true → nx = Fl.nx) ∧ (sticky = false → nx = 0) ∧
      (sum = 0 → roundedSum fm m g sum sticky = (zeroBits m false, nx)) ∧
      (sum ≠ 0 → ∃ x : Nat × Fl, roundedSum fm m g sum sticky = (x.1, x.2 ||| nx) ∧
        Rounds fm m .rn (((2 * sum + if nx = 0 then 0 else sum.sign : Int) : ℚ) * 2 ^ g / 2) false x) := by
  refine ⟨Fl.when sticky Fl.nx, fun h => h ▸ rfl, fun h => h ▸ rfl, fun h => if_pos h, fun h => ⟨_, if_neg h, ?_⟩⟩
  have hn : 2 * sum + (if sticky then (if sum < 0 then -1 else 1) else 0) = 2 * sum + if Fl.when sticky Fl.nx = 0 then 0 else sum.sign := by
    cases sticky
    · rfl
    · rw [if_pos rfl, show Fl.when true Fl.nx = Fl.nx from rfl, if_neg (show Fl.nx ≠ 0 by decide)]
      rcases lt_or_gt_of_ne h with hneg | hpos
      · rw [if_pos hneg, Int.sign_eq_neg_one_of_neg hneg]
      · rw [if_neg hpos.le.not_gt, Int.sign_eq_one_of_pos hpos]
  have hne : 2 * sum + (if sticky then (if sum < 0 then -1 else 1) else 0) ≠ 0 := by
    split
    · split <;> omega
    · omega
  have hr := Dy.rounds ⟨_, g - 1⟩ hne fm m .rn false
  have hrat : Dy.rat ⟨2 * sum + (if sticky then (if sum < 0 then -1 else 1) else 0), g - 1⟩ =
      ((2 * sum + if Fl.when sticky Fl.nx = 0 then 0 else sum.sign : Int) : ℚ) * 2 ^ g / 2 := by
    rw [Dy.rat, hn, zpow_sub_one₀ two_ne_zero]
    ring
  rwa [hrat] at hr

section
variable (fm : W32) (m : Fmt) (w : Nat)

/-- The sum of finite terms, of which those that are no zero are `live`. -/
def accLive (ts : List Val) : List Val → Nat × Fl
  | [] => (zeroBits m (ts.all fun t => t.neg?), 0)
  | t :: us =>
    let r := windowSum (us.foldl (fun a u => max a u.top) t.top - w) (t :: us)
    roundedSum fm m (us.foldl (fun a u => max a u.top) t.top - w) r.1 r.2

variable (c : Val) (ps : List (Val × Bool))

/-- `matAcc` in three cases: a NaN, an infinity, and finite terms. -/
theorem matAcc_eq (hm : m ≠ .dd) :
    let ts := c :: ps.map (·.1)
    let pinf := ts.any fun t => t.isInf && !t.neg?
    let ninf := ts.any fun t => t.isInf && t.neg?
    matAcc fm m w c ps =
      if ts.any Val.isNan || (pinf && ninf) then
        (nanBits m, Fl.when (ts.any Val.isSig || ps.any (·.2) || (pinf && ninf)) Fl.nv)
      else if pinf || ninf then (infBits m ninf, 0)
      else accLive fm m w ts (ts.filter fun t => !t.isZero) := by
  dsimp only
  unfold matAcc
  dsimp only
  rw [if_neg hm]
  generalize (c :: ps.map (·.1)).filter (fun t => !t.isZero) = live
  cases live with
  | nil => rfl
  | cons t us =>
    unfold accLive roundedSum roundAcc
    simp only [hm, if_false]

/-- Finite terms that are zero. -/
theorem accLive_zeros {ts : List Val} (hfin : ∀ t ∈ ts, ∃ n k e, t = Val.fin n k e) (h0 : ∀ t ∈ ts, t.rat = 0) :
    accLive fm m w ts (ts.filter fun t => !t.isZero) = (zeroBits m (ts.all Val.neg?), 0) := by
  have hnone : ts.filter (fun t => !t.isZero) = [] := by
    rw [List.filter_eq_nil_iff]
    intro t ht
    obtain ⟨n, k, e, rfl⟩ := hfin t ht
    simp [(Val.isZero_fin n k e).2 (h0 _ ht)]
  rw [hnone]
  rfl

/-- Finite terms with leading exponent g. -/
theorem accLive_sum {ts : List Val} (hfin : ∀ t ∈ ts, ∃ n k e, t = Val.fin n k e) {g : Int} (hex : ∃ t ∈ ts, 2 ^ g ≤ |t.rat|)
    (hall : ∀ t ∈ ts, |t.rat| < 2 ^ (g + 1)) :
    accLive fm m w ts (ts.filter fun t => !t.isZero) =
      roundedSum fm m (g - w) (ts.map (Val.part (g - w))).sum (ts.any (Val.cut (g - w))) := by
  have hlive : ∀ t, t ∈ ts.filter (fun t => !t.isZero) ↔ t ∈ ts ∧ ∃ n k e, k ≠ 0 ∧ t = Val.fin n k e := fun t => by
    rw [List.mem_filter]
    refine and_congr_right fun ht => ?_
    obtain ⟨n, k, e, rfl⟩ := hfin t ht
    simp [Val.isZero]
  have hle : ∀ t ∈ ts.filter (fun t => !t.isZero), t.top ≤ g := fun t ht => by
    obtain ⟨hmem, n, k, e, hk, rfl⟩ := (hlive t).1 ht
    exact (Val.top_iff hk g).1.2 (hall _ hmem)
  have hge : ∃ t ∈ ts.filter (fun t => !t.isZero), g ≤ t.top := by
    obtain ⟨t, ht, hg⟩ := hex
    obtain ⟨n, k, e, rfl⟩ := hfin t ht
    have hk : k ≠ 0 := fun h0 => by
      rw [(Val.rat_fin_eq_zero n k e).2 h0, abs_zero] at hg
      exact absurd hg (not_le.2 (two_zpow_pos g))
    exact ⟨_, (hlive _).2 ⟨ht, n, k, e, hk, rfl⟩, (Val.top_iff hk g).2.2 hg⟩
  have hsum := windowSum_eq (g - w) ts hfin
  generalize ts.filter (fun t => !t.isZero) = live at hle hge hsum ⊢
  cases live with
  | nil =>
    obtain ⟨t, ht, -⟩ := hge
    exact absurd ht List.not_mem_nil
  | cons t us =>
    unfold accLive
    dsimp only
    rw [foldl_top hle hge, hsum]

/-- The accumulation rule. -/
theorem matAcc_spec (hm : m ≠ .dd) : AccSpec fm m w c ps (matAcc fm m w c ps) := by
  have heq := matAcc_eq fm m w c ps hm
  dsimp only at heq
  unfold AccSpec
  dsimp only
  generalize c :: ps.map (·.1) = ts at heq
  have hnan : ts.any Val.isNan = true ↔ ∃ t ∈ ts, t.isNan = true := List.any_eq_true
  have hsig : ts.any Val.isSig = true ↔ ∃ t ∈ ts, t.isSig = true := List.any_eq_true
  have hmark : ps.any (·.2) = true ↔ ∃ p ∈ ps, p.2 = true := List.any_eq_true
  have hpinf : (ts.any fun t => t.isInf && !t.neg?) = true ↔ Val.inf false ∈ ts := by
    rw [List.any_eq_true]
    exact ⟨fun ⟨t, ht, h⟩ => (Val.isInf_iff t false).2 (by simpa using h) ▸ ht, fun h => ⟨_, h, rfl⟩⟩
  have hninf : (ts.any fun t => t.isInf && t.neg?) = true ↔ Val.inf true ∈ ts := by
    rw [List.any_eq_true]
    exact ⟨fun ⟨t, ht, h⟩ => (Val.isInf_iff t true).2 (by simpa using h) ▸ ht, fun h => ⟨_, h, rfl⟩⟩
  rw [← hnan, ← hsig, ← hmark, ← hpinf, ← hninf]
  have hfinite (h1 : ¬ ts.any Val.isNan = true) (h2 : ∀ n, Val.inf n ∉ ts) :
      (∀ t ∈ ts, ∃ n k e, t = Val.fin n k e) ∧ matAcc fm m w c ps = accLive fm m w ts (ts.filter fun t => !t.isZero) := by
    refine ⟨fun t ht => Val.finite (Bool.eq_false_iff.2 fun h => h1 (hnan.2 ⟨t, ht, h⟩)) fun n h => h2 n (h ▸ ht), ?_⟩
    rw [heq, Bool.eq_false_iff.2 h1, Bool.eq_false_iff.2 fun h => h2 false (hpinf.1 h), Bool.eq_false_iff.2 fun h => h2 true (hninf.1 h)]
    rfl
  refine ⟨fun h => ?_, fun h1 h2 n hn => ?_, fun h1 h2 h0 => ?_, fun g h1 h2 hex hall => ?_⟩
  · rw [← Bool.and_eq_true, ← Bool.or_eq_true] at h
    rw [heq, if_pos h]
    constructor
    · intro hbad
      rw [← Bool.and_eq_true, ← or_assoc, ← Bool.or_eq_true, ← Bool.or_eq_true] at hbad
      rw [hbad]
      rfl
    · intro hbad
      rw [← Bool.and_eq_true, ← or_assoc, ← Bool.or_eq_true, ← Bool.or_eq_true] at hbad
      rw [Bool.eq_false_iff.2 hbad]
      rfl
  · rw [← Bool.and_eq_true] at h2
    rw [heq, Bool.eq_false_iff.2 h1, Bool.eq_false_iff.2 h2, if_neg (by decide)]
    rw [Bool.and_eq_true] at h2
    cases n with
    | false =>
      have hp := hpinf.2 hn
      rw [hp, Bool.true_or, if_pos rfl, Bool.eq_false_iff.2 fun h => h2 ⟨hp, h⟩]
    | true => rw [hninf.2 hn, Bool.or_true, if_pos rfl]
  · obtain ⟨hfin, hval⟩ := hfinite h1 h2
    rw [hval, accLive_zeros fm m w hfin h0]
  · obtain ⟨hfin, hval⟩ := hfinite h1 h2
    obtain ⟨nx, hnx, hno, hzero, hsum⟩ := roundedSum_spec fm m (g - w) (ts.map (Val.part (g - w))).sum (ts.any (Val.cut (g - w)))
    have hsticky : ts.any (Val.cut (g - w)) = true ↔
        ∃ t ∈ ts, (⌊|t.rat| / (2 : ℚ) ^ (g - (w : Int))⌋ : ℚ) * 2 ^ (g - (w : Int)) ≠ |t.rat| := by
      rw [List.any_eq_true]
      refine exists_congr fun t => and_congr_right fun ht => ?_
      obtain ⟨n, k, e, rfl⟩ := hfin t ht
      exact Val.cut_fin _ n k e
    rw [hval, accLive_sum fm m w hfin hex hall]
    exact ⟨nx, fun h => hnx (hsticky.2 h), fun h => hno (Bool.eq_false_iff.2 fun hc => h (hsticky.1 hc)), hzero, hsum⟩

end

end Machine
end Sys2Proof
end

section
/-! SUPPORT. The result of an operation of the matrix engine (R258): its elements in their places, and each integer element as the exact
sum. -/

namespace Sys2Proof
open Machine
namespace Machine

/-! ### Elements -/

/-- A sum of products onto c. -/
theorem foldl_products (u v : List Int) (c : Int) :
    ((u.map some).zip (v.map some)).foldl (fun a (p : Option Int × Option Int) => match p with
      | (some x, some y) => a + x * y
      | _ => a) c = c + ((u.zip v).map fun p => p.1 * p.2).sum := by
  induction u generalizing v c with
  | nil => simp
  | cons x u ih =>
    cases v with
    | nil => simp
    | cons y v => simp only [List.map_cons, List.zip_cons_cons, List.foldl_cons, List.sum_cons, ih, add_assoc]

/-- An integer element is the exact sum modulo 2^32. -/
theorem intElem_sum (c : Nat) (u v : List Int) :
    ((intElem c (u.map some) (v.map some)).1 : Int) = ((c : Int) + ((u.zip v).map fun p => p.1 * p.2).sum) % 2 ^ 32 := by
  have hsum : (intElem c (u.map some) (v.map some)).1 = bitsOf 32 ((c : Int) + ((u.zip v).map fun p => p.1 * p.2).sum) := by
    rw [← foldl_products]
    rfl
  rw [hsum, bitsOf, Int.toNat_of_nonneg (Int.emod_nonneg _ (by norm_num))]

theorem intElem_lt (c : Nat) (x y : List (Option Int)) : (intElem c x y).1 < 2 ^ 32 := by
  have hlt (z : Int) : bitsOf 32 z < 2 ^ 32 := by
    rw [bitsOf_eq]
    exact BitVec.isLt _
  exact hlt _

/-- An element of an operation on real or integer elements. -/
def MatOp.realOrInt (o : MatOp) (c x y : Nat) : Nat × Fl :=
  let u := (rowEls o.fmode o.fmt (o.sh.k o.fmt) x).1
  let v := (rowEls o.fmode o.fmt (o.sh.k o.fmt) y).1
  if o.acf = .i32 then intElem c (u.map EV.int?) (v.map EV.int?) else realElem o c (u.map EV.real) (v.map EV.real)

theorem MatOp.realOrInt_real (o : MatOp) (c x y : Nat) (hi : o.acf ≠ .i32) (hd : o.acf ≠ .dd) :
    o.realOrInt c x y = matAcc o.fmode o.acf.fmt o.acf.win (decodeF o.acf.fmt c)
      ((((rowEls o.fmode o.fmt (o.sh.k o.fmt) x).1).zip (rowEls o.fmode o.fmt (o.sh.k o.fmt) y).1).map fun p => termOf p.1.real p.2.real) := by
  unfold MatOp.realOrInt realElem
  dsimp only
  rw [if_neg hi, if_neg hd, List.zip_map, List.map_map]
  rfl

/-! ### Their places -/

/-- The result of an operation: its elements row by row, each in its bytes. -/
theorem MatOp.result_elements (o : MatOp) (tile : Nat → Nat) : ∃ g : Nat → Nat → Nat,
    (o.result tile).1 = (List.range o.sh.m).flatMap (fun i => (List.range o.sh.n).flatMap fun j => leBytes o.acf.size (g i j)) ∧
    (o.acf ≠ .c64 → o.acf ≠ .c128 → o.acf ≠ .dd → ∀ i j, i < o.a.length → j < o.b.length →
      g i j = (o.realOrInt (tile (i * o.sh.n + j)) (o.a.getD i 0) (o.b.getD j 0)).1) := by
  have hrow (i : Nat) (xs : List Nat) (hi : i < xs.length) :
      (xs.map (rowEls o.fmode o.fmt (o.sh.k o.fmt))).getD i ([], false) = rowEls o.fmode o.fmt (o.sh.k o.fmt) (xs.getD i 0) := by
    simp [List.getD_eq_getElem?_getD, hi]
  unfold MatOp.result
  dsimp only
  split
  · next h =>
    simp only [List.flatMap_map, List.flatMap_assoc]
    refine ⟨_, rfl, fun h1 h2 h3 => absurd h ?_⟩
    simp [h1, h2, h3]
  · simp only [List.flatMap_map, List.flatMap_assoc]
    refine ⟨_, rfl, fun _ _ _ i j hi hj => ?_⟩
    rw [hrow i _ hi, hrow j _ hj]
    rfl

theorem MatOp.result_length (o : MatOp) (tile : Nat → Nat) : (o.result tile).1.length = o.sh.m * o.sh.n * o.acf.size := by
  obtain ⟨g, hg, -⟩ := o.result_elements tile
  rw [hg, flatMap_length _ (o.acf.size * o.sh.n) _ fun i _ => by
    rw [flatMap_length _ o.acf.size _ fun j _ => leBytes_length _ _, List.length_range], List.length_range]
  ring

/-- What each element is. -/
theorem MatOp.result_spec (o : MatOp) (tile : Nat → Nat) (i j : Nat) (hi : i < o.sh.m) (hj : j < o.sh.n) (ha : i < o.a.length)
    (hb : j < o.b.length) :
    let r := o.result tile
    let c := tile (i * o.sh.n + j)
    let out := leNat ((r.1.drop ((i * o.sh.n + j) * o.acf.size)).take o.acf.size)
    o.acf ≠ .c64 → o.acf ≠ .c128 → o.acf ≠ .dd →
      out = (o.realOrInt c (o.a.getD i 0) (o.b.getD j 0)).1 % 256 ^ o.acf.size := by
  intro r c out h1 h2 h3
  obtain ⟨g, hg, hval⟩ := o.result_elements tile
  have hrow : ∀ i, ((List.range o.sh.n).flatMap fun j => leBytes o.acf.size (g i j)).length = o.acf.size * o.sh.n := fun i => by
    rw [flatMap_length _ o.acf.size _ fun j _ => leBytes_length _ _, List.length_range]
  have hplace : (i * o.sh.n + j) * o.acf.size = o.acf.size * o.sh.n * i + o.acf.size * j := by ring
  have hin : o.acf.size * j + o.acf.size ≤ o.acf.size * o.sh.n := by
    rw [← Nat.mul_succ]
    exact Nat.mul_le_mul_left _ hj
  have hout : out = fieldAt (leBytes o.acf.size (g i j)) 0 o.acf.size := by
    show fieldAt (o.result tile).1 ((i * o.sh.n + j) * o.acf.size) o.acf.size = _
    rw [hg, hplace, fieldAt_flatMap _ _ _ (fun i _ => hrow i) i _ _ (by simpa using hi) hin, ← Nat.add_zero (o.acf.size * j),
      fieldAt_flatMap _ _ _ (fun j _ => leBytes_length _ _) j 0 _ (by simpa using hj) (Nat.zero_add _).le]
    simp only [List.getElem_range]
  rw [hout, ← hval h1 h2 h3 i j ha hb, fieldAt, List.drop_zero, List.take_of_length_le (leBytes_length _ _).le, leNat_leBytes_mod]

end Machine
end Sys2Proof
end

section
/-! SUPPORT. Tiles written by a word of the matrix engine (R252, R258, R268): the bytes, and the side-pound tiles that a write makes
STALE. -/

namespace Sys2Proof
open Machine
namespace Machine

/-! ### Side-pound tiles -/

/-- A side-pound tile as it was, or marked STALE. -/
def Sh.Marked (x y : Sh) : Prop := y = x ∨ y = { x with st := x.st ||| BitVec.ofNat 64 (2 ^ 62) }

theorem fld_one (x : W64) (n : Nat) : (fld x n 1 == 1) = x.getLsbD n := by
  rw [BitVec.getLsbD, Nat.testBit_eq_decide_div_mod_eq]
  rfl

theorem staleBit (n : Nat) : (BitVec.ofNat 64 (2 ^ 62)).getLsbD n = decide (n = 62) := by
  rw [BitVec.getLsbD_ofNat, Nat.testBit_two_pow]
  by_cases h : 62 = n
  · subst h
    rfl
  · simp [h, Ne.symm h]

theorem Sh.Marked.held {x y : Sh} (h : x.Marked y) : y.held = x.held := by
  rcases h with rfl | rfl
  · rfl
  · simp only [Sh.held, fld_one, BitVec.getLsbD_or, staleBit]
    simp

theorem Sh.stale_marked (x : Sh) : Sh.stale { x with st := x.st ||| BitVec.ofNat 64 (2 ^ 62) } = true := by
  simp only [Sh.stale, fld_one, BitVec.getLsbD_or, staleBit]
  simp

theorem Sh.Marked.stale {x y : Sh} (h : x.Marked y) (hx : x.stale = true) : y.stale = true := by
  rcases h with rfl | rfl
  · exact hx
  · exact Sh.stale_marked x

theorem Sh.Marked.trans {x y z : Sh} (h : x.Marked y) (h' : y.Marked z) : x.Marked z := by
  rcases h' with rfl | rfl
  · exact h
  · rcases h with rfl | rfl
    · exact .inr rfl
    · refine .inr ?_
      rw [BitVec.or_assoc, BitVec.or_self]

section
variable (w : Wave) (q t : Nat)

theorem Wave.side_markStale (p : Nat) : (w.markStale q t).side p =
    if p = q ∧ ((w.side q).held && ((w.side q).tgt == t || (tileRegs (w.side q).acf (w.side q).shape == 2 && (w.side q).tgt + 1 == t))) = true then
      { w.side q with st := (w.side q).st ||| BitVec.ofNat 64 (2 ^ 62) }
    else w.side p := by
  unfold Wave.markStale
  dsimp only
  split
  · next h =>
    rw [Wave.side_setSide]
    by_cases hp : p = q
    · rw [if_pos hp, if_pos ⟨hp, h⟩]
    · rw [if_neg hp, if_neg fun hc => hp hc.1]
  · next h => rw [if_neg fun hc => h hc.2]

theorem Wave.markStale_marked (p : Nat) : (w.side p).Marked ((w.markStale q t).side p) := by
  rw [Wave.side_markStale]
  split
  · next h => exact h.1 ▸ .inr rfl
  · exact .inl rfl

theorem Wave.markStale_other {p : Nat} (hp : p ≠ q) : (w.markStale q t).side p = w.side p := by
  rw [Wave.side_markStale, if_neg fun h => hp h.1]

theorem Wave.markStale_hit (hh : (w.side q).held = true) (ht : (w.side q).tgt = t) : ((w.markStale q t).side q).stale = true := by
  rw [Wave.side_markStale, if_pos ⟨rfl, by simp [hh, ht]⟩]
  exact Sh.stale_marked _

theorem Wave.markStale_frame : w.markStale q t = { w with r := { w.r with sh := (w.markStale q t).r.sh } } := by
  unfold Wave.markStale
  dsimp only
  split <;> rfl

/-! ### One tile -/

variable (off : Nat) (bs : List Byte)

/-- The bytes of the tiles after some of one tile. -/
def Wave.withTile : Wave := { w with r := { w.r with acc := Memory.setBytes w.r.acc (tileKey q t + off) bs } }

theorem Wave.writeTile_eq : w.writeTile q t off bs = if 1024 < off + bs.length then ((w.withTile q t off bs).markStale q t).markStale q (t + 1)
    else (w.withTile q t off bs).markStale q t := rfl

theorem Wave.writeTile_frame : w.writeTile q t off bs = { w with r := { w.r with
    acc := Memory.setBytes w.r.acc (tileKey q t + off) bs, sh := (w.writeTile q t off bs).r.sh } } := by
  rw [Wave.writeTile_eq]
  split
  · rw [Wave.markStale_frame _ q (t + 1), Wave.markStale_frame _ q t]
    rfl
  · rw [Wave.markStale_frame _ q t]
    rfl

theorem Wave.writeTile_marked (p : Nat) : (w.side p).Marked ((w.writeTile q t off bs).side p) := by
  have hone : (w.side p).Marked (((w.withTile q t off bs).markStale q t).side p) := (w.withTile q t off bs).markStale_marked q t p
  rw [Wave.writeTile_eq]
  split
  · exact hone.trans (Wave.markStale_marked _ q (t + 1) p)
  · exact hone

theorem Wave.writeTile_other {p : Nat} (hp : p ≠ q) : (w.writeTile q t off bs).side p = w.side p := by
  rw [Wave.writeTile_eq]
  split
  · rw [Wave.markStale_other _ _ _ hp, Wave.markStale_other _ _ _ hp]
    rfl
  · rw [Wave.markStale_other _ _ _ hp]
    rfl

theorem Wave.writeTile_hit (hh : (w.side q).held = true) (ht : (w.side q).tgt = t) : ((w.writeTile q t off bs).side q).stale = true := by
  have hone : (((w.withTile q t off bs).markStale q t).side q).stale = true := (w.withTile q t off bs).markStale_hit q t hh ht
  rw [Wave.writeTile_eq]
  split
  · exact (Wave.markStale_marked _ q (t + 1) q).stale hone
  · exact hone

end

/-! ### The tile that a destination names -/

section
variable (w : Wave) (d : Opnd) (q off : Nat) (bs : List Byte)

theorem Wave.putTile_frame : w.putTile d q off bs = { w with r := { w.r with
    acc := (w.putTile d q off bs).r.acc, sh := (w.putTile d q off bs).r.sh } } := by
  cases d with
  | acc t =>
    show w.writeTile q t.toNat off bs = { w with r := { w.r with acc := (w.writeTile q t.toNat off bs).r.acc, sh := (w.writeTile q t.toNat off bs).r.sh } }
    rw [Wave.writeTile_frame]
  | _ => rfl

theorem Wave.putTile_marked (p : Nat) : (w.side p).Marked ((w.putTile d q off bs).side p) := by
  cases d with
  | acc t => exact w.writeTile_marked q t.toNat off bs p
  | _ => exact .inl rfl

theorem Wave.putTile_other {p : Nat} (hp : p ≠ q) : (w.putTile d q off bs).side p = w.side p := by
  cases d with
  | acc t => exact w.writeTile_other q t.toNat off bs hp
  | _ => rfl

theorem Wave.byte_putTile_outside {a : Nat} (ha : tileCell d q off bs.length a = false) :
    Memory.byte (w.putTile d q off bs).r.acc a = Memory.byte w.r.acc a := by
  cases d with
  | acc t =>
    show Memory.byte (w.writeTile q t.toNat off bs).r.acc a = _
    rw [Wave.writeTile_frame]
    refine Memory.byte_setBytes_outside _ _ _ _ ?_
    simp only [tileCell, Bool.and_eq_false_iff, decide_eq_false_iff_not] at ha
    omega
  | _ => rfl

theorem Wave.byte_writeTile (t : Nat) {k : Nat} (hk : k < bs.length) :
    Memory.byte (w.writeTile q t 0 bs).r.acc (tileKey q t + k) = bs.getD k 0 := by
  rw [Wave.writeTile_frame, Nat.add_zero]
  show Memory.byte (Memory.setBytes w.r.acc (tileKey q t) bs) (tileKey q t + k) = _
  rw [Memory.byte_setBytes, if_pos (by omega), Nat.add_sub_cancel_left]

end

/-- The tile of another quarter lies elsewhere. -/
theorem tileCell_other (d : Opnd) {p q n k : Nat} (hp : p ≠ q) (hn : n ≤ 2048) (hk : k < n) (t : BitVec 4) (hd : d = .acc t) :
    tileCell d p 0 n (tileKey q t.toNat + k) = false := by
  subst hd
  unfold tileCell tileKey
  rw [Bool.and_eq_false_iff, decide_eq_false_iff_not, decide_eq_false_iff_not]
  omega

/-! ### The tiles of a word -/

/-- The results of quarters put into the tile that D names, with their flags. -/
def State.putTiles (v : State) (d : Opnd) (res : MatArg → List Byte × Fl) (xs : List MatArg) : State :=
  xs.foldl (fun v x => (v.setW (v.w.putTile d x.q 0 (res x).1)).orFlags (res x).2) v

section
variable (d : Opnd) (res : MatArg → List Byte × Fl)

/-- One quarter's result put into its tile. -/
def State.putResult (v : State) (x : MatArg) : State := (v.setW (v.w.putTile d x.q 0 (res x).1)).orFlags (res x).2

theorem State.putTiles_cons (v : State) (x : MatArg) (xs : List MatArg) : v.putTiles d res (x :: xs) = (v.putResult d res x).putTiles d res xs := rfl

theorem State.side_putResult (v : State) (x : MatArg) (p : Nat) :
    (v.putResult d res x).w.side p = (v.w.putTile d x.q 0 (res x).1).side p := rfl

/-- Tiles, marks and flags alone change. -/
theorem State.putTiles_frame (v : State) (xs : List MatArg) :
    let t := v.putTiles d res xs
    t = { v with w := { v.w with r := { v.w.r with acc := t.w.r.acc, sh := t.w.r.sh }, sp := { v.w.sp with fflags := t.w.sp.fflags } } } := by
  induction xs generalizing v with
  | nil => rfl
  | cons x xs ih =>
    have hframe := v.w.putTile_frame d x.q 0 (res x).1
    have hone : v.putResult d res x = { v with w := { v.w with
        r := { v.w.r with acc := (v.w.putTile d x.q 0 (res x).1).r.acc, sh := (v.w.putTile d x.q 0 (res x).1).r.sh }
        sp := { v.w.sp with fflags := v.w.sp.fflags ||| (res x).2.setWidth 32 } } } := by
      unfold State.putResult
      rw [hframe]
      rfl
    have htail := ih (v.putResult d res x)
    dsimp only at htail ⊢
    rw [State.putTiles_cons, htail, hone]

theorem State.putTiles_fflags (v : State) (xs : List MatArg) (y : W32) (a : Fl) (h : v.w.sp.fflags = y ||| a.setWidth 32) :
    (v.putTiles d res xs).w.sp.fflags = y ||| (xs.foldl (fun g x => g ||| (res x).2) a).setWidth 32 := by
  induction xs generalizing v a with
  | nil => exact h
  | cons x xs ih =>
    refine ih (v.putResult d res x) (a ||| (res x).2) ?_
    have hsp : (v.putResult d res x).w.sp.fflags = v.w.sp.fflags ||| (res x).2.setWidth 32 := by
      unfold State.putResult
      rw [v.w.putTile_frame d x.q 0 (res x).1]
      rfl
    rw [hsp, h, BitVec.setWidth_or, BitVec.or_assoc]

theorem State.putTiles_outside (v : State) (xs : List MatArg) {a : Nat} (h : ∀ x ∈ xs, tileCell d x.q 0 (res x).1.length a = false) :
    Memory.byte (v.putTiles d res xs).w.r.acc a = Memory.byte v.w.r.acc a := by
  induction xs generalizing v with
  | nil => rfl
  | cons x xs ih =>
    obtain ⟨hx, hxs⟩ := List.forall_mem_cons.1 h
    exact (ih (v.putResult d res x) hxs).trans (v.w.byte_putTile_outside d x.q 0 (res x).1 hx)

/-- The tile of each quarter holds its result. -/
theorem State.putTiles_byte (v : State) (xs : List MatArg) {n : Nat} (hq : (xs.map (·.q)).Nodup) (hn : n ≤ 2048)
    (hlen : ∀ x ∈ xs, (res x).1.length = n) {x : MatArg} (hx : x ∈ xs) (τ : BitVec 4) (hd : d = .acc τ) {k : Nat} (hk : k < n) :
    Memory.byte (v.putTiles d res xs).w.r.acc (tileKey x.q τ.toNat + k) = (res x).1.getD k 0 := by
  induction xs generalizing v with
  | nil => exact absurd hx List.not_mem_nil
  | cons y ys ih =>
    obtain ⟨hy, hys⟩ := List.nodup_cons.1 hq
    obtain ⟨hly, hlys⟩ := List.forall_mem_cons.1 hlen
    rw [State.putTiles_cons]
    rcases List.mem_cons.1 hx with rfl | hmem
    · rw [State.putTiles_outside d res _ ys fun z hz => by
        rw [hlys z hz]
        exact tileCell_other d (fun h => hy (List.mem_map.2 ⟨z, hz, h⟩)) hn hk τ hd]
      subst hd
      exact v.w.byte_writeTile x.q (res x).1 τ.toNat (hly.symm ▸ hk)
    · exact ih (v.putResult d res y) hys hlys hmem

theorem State.putTiles_marked (v : State) (xs : List MatArg) (p : Nat) : (v.w.side p).Marked ((v.putTiles d res xs).w.side p) := by
  induction xs generalizing v with
  | nil => exact .inl rfl
  | cons x xs ih => exact (v.w.putTile_marked d x.q 0 (res x).1 p).trans (ih (v.putResult d res x))

theorem State.putTiles_other (v : State) (xs : List MatArg) {p : Nat} (h : ∀ x ∈ xs, x.q ≠ p) :
    (v.putTiles d res xs).w.side p = v.w.side p := by
  induction xs generalizing v with
  | nil => rfl
  | cons x xs ih =>
    obtain ⟨hx, hxs⟩ := List.forall_mem_cons.1 h
    exact (ih (v.putResult d res x) hxs).trans (v.w.putTile_other d x.q 0 (res x).1 (Ne.symm hx))

theorem State.putTiles_zero (v : State) (xs : List MatArg) (p : Nat) (hd : d = .zero) : (v.putTiles d res xs).w.side p = v.w.side p := by
  subst hd
  induction xs generalizing v with
  | nil => rfl
  | cons x xs ih => exact ih (v.putResult .zero res x)

/-- A held side-pound tile whose target a quarter's result is put into becomes STALE. -/
theorem State.putTiles_stale (v : State) (xs : List MatArg) {x : MatArg} (hx : x ∈ xs) (τ : BitVec 4) (hd : d = .acc τ)
    (hh : (v.w.side x.q).held = true) (ht : (v.w.side x.q).tgt = τ.toNat) : ((v.putTiles d res xs).w.side x.q).stale = true := by
  induction xs generalizing v with
  | nil => exact absurd hx List.not_mem_nil
  | cons y ys ih =>
    rw [State.putTiles_cons]
    by_cases hy : x.q = y.q
    · refine (State.putTiles_marked d res (v.putResult d res y) ys x.q).stale ?_
      rw [State.side_putResult, hd, hy]
      exact v.w.writeTile_hit y.q τ.toNat 0 (res y).1 (hy ▸ hh) (hy ▸ ht)
    · have hside : (v.putResult d res y).w.side x.q = v.w.side x.q := v.w.putTile_other d y.q 0 (res y).1 hy
      rcases List.mem_cons.1 hx with rfl | hmem
      · exact absurd rfl hy
      · exact ih (v.putResult d res y) hmem (hside ▸ hh) (hside ▸ ht)

end

end Machine
end Sys2Proof
end

section
/-! SUPPORT. `mma` (R257, R258), and the settled statement on the matrix engine. -/

namespace Sys2Proof
open Machine
namespace Machine

/-! ### A word whose rows pass -/

/-- A word that reads its guard as a whole, with its effect. -/
theorem word_ownGuard (i : Instr) (s : State) (body : Mask → State → Res) {t : State} (hI : s.Issues i) (ho : i.ownGuard = true)
    (hb : body (s.active i) s = .done t) : word i s body = .next (s.finishes t i true) := by
  rw [word_effect i s body hI (.inr ho), hb]
  rfl

theorem State.quarters_nodup (s : State) (g : Guard) : ((s.quarters g).map (·.1)).Nodup := by
  have hone : (s.quarters g).map (·.1) = (List.range 4).filter fun q =>
      !(s.run &&& quarterMask q = 0 || !(s.w.guard g).getLsbD (lowLane (s.run &&& quarterMask q))) := by
    unfold State.quarters
    rw [List.map_filterMap, ← List.filterMap_eq_filter]
    refine List.filterMap_congr fun q _ => ?_
    dsimp only [Option.guard]
    split
    · next h => exact (if_neg (by rw [h]; decide)).symm
    · next h => exact (if_pos (by rw [Bool.eq_false_iff.2 h]; rfl)).symm
  rw [hone]
  exact List.nodup_range.filter _

section
variable (s : State) (f : F) (fmt : Fmt) (acf : AccF) (sh : Shape) (scA scB : Bool)

theorem State.matArgs_nodup : ((s.matArgs f scA scB).map (·.q)).Nodup := by
  have hq : (s.matArgs f scA scB).map (·.q) = (s.quarters f.g).map (·.1) := by
    unfold State.matArgs
    rw [List.map_map]
    rfl
  exact hq ▸ s.quarters_nodup f.g

/-- The result of an operand of `mma`. -/
def State.mmaResult (x : MatArg) : List Byte × Fl := (s.matOp x fmt acf sh scA scB s.w.sp.fmode).result (s.w.tileOf f.d x.q acf.size)

/-- What `mma` leaves before its issue event ends: its results in the tiles, %mrow and the flags, tags and counted decode errors. -/
def State.mmaDone (b : Block) (pf : SMap W64) : State :=
  ({ s with b := b, pf := pf }.setMrow (if s.matArgs f scA scB = [] then s.w.sp.mrow else 0)).putTiles f.d
    (s.mmaResult f fmt acf sh scA scB) (s.matArgs f scA scB)

variable {s f fmt acf sh scA scB}

theorem exec_mma {u : State} (hI : s.Issues (.mma f fmt acf sh scA scB))
    (h : s.checkRows ((s.matArgs f scA scB).map (·.q)) (rowLen fmt (sh.k fmt)) (sh.m + sh.n) false
      ((s.matArgs f scA scB).flatMap fun x => x.rows sh scA scB) s = .ok u) :
    ∃ pf, exec (.mma f fmt acf sh scA scB) s = .next (s.finishes (s.mmaDone f fmt acf sh scA scB u.b pf) (.mma f fmt acf sh scA scB) true) := by
  obtain ⟨wt, rt, rfl⟩ := State.checkRows_ok h
  obtain ⟨pf, hpf⟩ := (s.retagged wt rt).countRows_frame (rowLen fmt (sh.k fmt))
    ((s.matArgs f scA scB).flatMap fun x => x.rows sh scA scB)
  have hbody : ∃ pf, (if s.matArgs f scA scB == [] then Res.done s
      else match s.checkRows ((s.matArgs f scA scB).map (·.q)) (rowLen fmt (sh.k fmt)) (sh.m + sh.n) false
          ((s.matArgs f scA scB).flatMap fun x => x.rows sh scA scB) s with
        | .stop r => r
        | .ok u => .done (((u.countRows (rowLen fmt (sh.k fmt)) ((s.matArgs f scA scB).flatMap fun x => x.rows sh scA scB)).setMrow 0).putTiles
            f.d (fun x => (u.matOp x fmt acf sh scA scB u.w.sp.fmode).result (u.w.tileOf f.d x.q acf.size)) (s.matArgs f scA scB))) =
      .done (s.mmaDone f fmt acf sh scA scB (s.retagged wt rt).b pf) := by
    rw [h]
    dsimp only
    simp only [State.matOp_retagged, hpf]
    unfold State.mmaDone
    cases hargs : s.matArgs f scA scB with
    | nil =>
      rw [hargs] at h
      refine ⟨s.pf, ?_⟩
      have hs : s = s.retagged wt rt := RowR.ok_inj h
      rw [← hs]
      rfl
    | cons x xs => exact ⟨pf, rfl⟩
  obtain ⟨pf, hbody⟩ := hbody
  refine ⟨pf, ?_⟩
  show execMma f fmt acf sh scA scB s = _
  exact word_ownGuard _ s _ hI rfl hbody

end

/-! ### What it leaves -/

section
variable (s : State) (f : F) (fmt : Fmt) (acf : AccF) (sh : Shape) (scA scB : Bool) (b : Block) (pf : SMap W64)

/-- The state in which the results are put into their tiles. -/
def State.mmaStart : State := { s with b := b, pf := pf }.setMrow (if s.matArgs f scA scB = [] then s.w.sp.mrow else 0)

theorem State.mmaDone_frame :
    let t := s.mmaDone f fmt acf sh scA scB b pf
    t = { s with
      w := { s.w with
        r := { s.w.r with acc := t.w.r.acc, sh := t.w.r.sh }
        sp := { s.w.sp with mrow := if s.matArgs f scA scB = [] then s.w.sp.mrow else 0, fflags := t.w.sp.fflags } }
      b := b, pf := pf } :=
  State.putTiles_frame f.d (s.mmaResult f fmt acf sh scA scB) (s.mmaStart f scA scB b pf) (s.matArgs f scA scB)

/-- The end of the issue event of `mma` changes no tile and no special register. -/
theorem State.finishes_mmaDone :
    let i := Instr.mma f fmt acf sh scA scB
    let u := s.mmaDone f fmt acf sh scA scB b pf
    let t := s.finishes u i true
    s.TilesOnly t i ∧ t.b = b ∧ t.w.sp = u.w.sp ∧ t.w.r.acc = u.w.r.acc ∧ t.w.r.sh = u.w.r.sh := by
  intro i u t
  have hframe : u = _ := s.mmaDone_frame f fmt acf sh scA scB b pf
  have ht : t = { u with w := (s.advanced i).w.takeFile u.w } := s.finishes_takeFile u i (by rw [hframe]; rfl)
  obtain ⟨c, a, bu, p, n, ps, lat, e⟩ := s.advanced_frame i
  refine ⟨?_, ?_, ?_, ?_, ?_⟩
  · unfold State.TilesOnly
    rw [ht, e, hframe]
    rfl
  · rw [ht, hframe]
  · rw [ht]
    rfl
  · rw [ht]
    rfl
  · rw [ht]
    rfl

end

theorem tile_bytes_le (sh : Shape) (acf : AccF) : sh.m * sh.n * acf.size ≤ 2048 := by cases sh <;> cases acf <;> decide

/-! ### The obligation -/

/-- `mma` whose rows pass. -/
theorem mma_completes (s : State) (f : F) (fmt : Fmt) (acf : AccF) (sh : Shape) (scA scB : Bool) (u : State) :
    let i := Instr.mma f fmt acf sh scA scB
    let args := s.matArgs f scA scB
    let rows := args.flatMap fun x => x.rows sh scA scB
    let n := sh.m * sh.n * acf.size
    let res (x : MatArg) : List Byte × Fl := (s.matOp x fmt acf sh scA scB s.w.sp.fmode).result (s.w.tileOf f.d x.q acf.size)
    s.Issues i → s.checkRows (args.map (·.q)) (rowLen fmt (sh.k fmt)) (sh.m + sh.n) false rows s = .ok u →
    ∃ t, exec i s = .next t ∧ s.TilesOnly t i ∧ t.b = u.b ∧
      t.w.sp = { s.w.sp with mrow := if args = [] then s.w.sp.mrow else 0,
                             fflags := s.w.sp.fflags ||| (args.foldl (fun g x => g ||| (res x).2) 0).setWidth 32 } ∧
      (∀ x ∈ args, (res x).1.length = n ∧
        ∀ τ, f.d = .acc τ → ∀ k < n, Memory.byte t.w.r.acc (tileKey x.q τ.toNat + k) = (res x).1.getD k 0) ∧
      (∀ a, (∀ x ∈ args, tileCell f.d x.q 0 n a = false) → Memory.byte t.w.r.acc a = Memory.byte s.w.r.acc a) ∧
      ∀ q < 4, (t.w.side q).held = (s.w.side q).held ∧
        (∀ τ, f.d = .acc τ → (s.w.side q).held = true → (s.w.side q).tgt = τ.toNat → args.any (fun x => x.q == q) → (t.w.side q).stale = true) ∧
        (args.any (fun x => x.q == q) = false ∨ f.d = .zero → t.w.side q = s.w.side q) := by
  intro i args rows n res hI hok
  obtain ⟨pf, hexec⟩ := exec_mma hI hok
  obtain ⟨htiles, hb, hsp, hacc, hsh⟩ := s.finishes_mmaDone f fmt acf sh scA scB u.b pf
  have hframe := s.mmaDone_frame f fmt acf sh scA scB u.b pf
  have hlen : ∀ x ∈ args, (res x).1.length = n := fun x _ => MatOp.result_length _ _
  let v := s.mmaStart f scA scB u.b pf
  refine ⟨_, hexec, htiles, hb, ?_, fun x hx => ⟨hlen x hx, fun τ hd k hk => ?_⟩, fun a ha => ?_, fun q _ =>
    ⟨?_, fun τ hd hh ht hq => ?_, fun hq => ?_⟩⟩
  · have hfl := State.putTiles_fflags f.d res v args s.w.sp.fflags 0 (by simp [v, State.mmaStart, State.setMrow])
    rw [hsp, hframe]
    exact congrArg (fun y => { s.w.sp with mrow := if args = [] then s.w.sp.mrow else 0, fflags := y }) hfl
  · rw [hacc]
    exact State.putTiles_byte f.d res v args (s.matArgs_nodup f scA scB) (tile_bytes_le sh acf) hlen hx τ hd hk
  · rw [hacc]
    exact State.putTiles_outside f.d res v args fun x hx => (hlen x hx).symm ▸ ha x hx
  · rw [Wave.side, hsh]
    exact (State.putTiles_marked f.d res v args q).held
  · rw [Wave.side, hsh]
    obtain ⟨x, hx, hxq⟩ := List.any_eq_true.1 hq
    obtain rfl : x.q = q := by simpa using hxq
    exact State.putTiles_stale f.d res v args hx τ hd hh ht
  · rw [Wave.side, hsh]
    rcases hq with hq | hd
    · refine State.putTiles_other f.d res v args fun x hx hxq => ?_
      rw [List.any_eq_false] at hq
      exact hq x hx (by simpa using hxq)
    · exact State.putTiles_zero f.d res v args q hd

/-- Settles O39: `mma` by its effect on the tiles; the rows in their order; the elements by the accumulation rule. -/
theorem matrixMultiply : Obligations.MatrixMultiply := by
  unfold Obligations.MatrixMultiply
  refine ⟨mma_completes, fun s qs n total write r rs t => ⟨fun hm hc => s.checkRows_done qs n total write r rs t hm hc,
    fun hm ha hlt hq _ => ?_, fun u hm hu => ?_⟩, fun fm m w c ps hm => matAcc_spec fm m w c ps hm, fun o tile i j hi hj ha hb => ?_⟩
  · refine ⟨_, s.checkRows_misaligned qs n total write r rs t hm ha, ?_, rfl⟩
    exact (rowsDone_setRows _ hq r.m).trans (Nat.mod_eq_of_lt hlt)
  · exact s.checkRows_passed qs n total write r rs t hm hu
  · have hout := o.result_spec tile i j hi hj ha hb
    refine ⟨o.result_length tile, fun hi32 u v hu hv => ?_, fun h1 h2 h3 h4 => ?_⟩
    · rw [hout (by simp [hi32]) (by simp [hi32]) (by simp [hi32])]
      unfold MatOp.realOrInt
      dsimp only
      rw [if_pos hi32, hu, hv, hi32, ← intElem_sum]
      exact congrArg Nat.cast (Nat.mod_eq_of_lt (intElem_lt _ _ _))
    · have hsize : 256 ^ o.acf.size = 2 ^ (8 * o.acf.size) := (pow_mul 2 8 o.acf.size).symm
      rw [hout h2 h3 h4, o.realOrInt_real _ _ _ h1 h4, hsize]

end Machine
end Sys2Proof
end
